-- ==== Sys2Proof/Word.lean ====
section
/-! DEFINITION. The word types of the engine: registers are 32 bits wide, memory is bytes (00_scope.md R5, R6). -/
namespace Sys2Proof

/-- A register word. -/
abbrev Word := BitVec 32

/-- A byte of a record, a frame or host memory. -/
abbrev Byte := BitVec 8

end Sys2Proof
end

