-- ==== Sys2Proof/Syntax.lean ====
section
/-! DEFINITION. The commands the block takes: one constructor of `Instr` per row of spec/opcode_table.json, and the
data that commands and frames carry. -/
namespace Sys2Proof

/-- The blocks of R9, in the order of their identifiers 0x01 to 0x13. -/
inductive Blk where
  | glb | clk | pwr | tco | refs | gbb | tio | svc | ptp | eth | lnk | pair | key | hif | upd | perf | pan | ctl | mem
  deriving DecidableEq, Repr

/-- Where a host command came from and how its completion is marked (R438, R439). -/
structure Hdr where
  ring : Fin 4
  tag : BitVec 16
  noirq : Bool
  deriving DecidableEq, Repr

/-- What the board and the die present to a start (R496, R502, R503, R505): the cause, the straps, the measured count
    of REF, temperature and rails, the PCIe link that trains, and how long the start takes. -/
structure StartIn where
  /-- true: the main rails returned; false: a release of POR_N. -/
  rails : Bool
  /-- VBAT was lost before this start (R391, R571). -/
  vbatLost : Bool
  preferred : Bool
  bootSrc : BitVec 2
  /-- HOST_MODE: true is PCIE. -/
  pcie : Bool
  refCount : Nat
  junction : BitVec 16
  railOk : BitVec 8
  gen : BitVec 4
  width : BitVec 4
  /-- Which sections read back from their memories as the image has them: bit `t - 1` for section type `t` (R19, R522). -/
  verified : BitVec 8
  /-- The self-checks passed (R505 step 10). -/
  selfOk : Bool
  /-- The instant of READY after t0, in ms (R518). -/
  ms : BitVec 32
  deriving DecidableEq, Repr

/-- Kinds of parameter set that navigation data completes (R154). -/
inductive NavKind where
  | ephemeris | almanac | clock | groupDelay | iono | utc
  deriving DecidableEq, Repr

/-- A decoded parameter set of a satellite system: what a page or an injection completes (R154, R156). -/
structure NavDec where
  sys : Nat
  sv : Nat
  kind : NavKind
  issue : Nat
  data : Nat
  deriving DecidableEq, Repr

/-- A hit of an acquisition search (R139, R141). -/
structure GnssHit where
  sv : BitVec 8
  metric : BitVec 16
  code : BitVec 32
  doppler : BitVec 32
  deriving DecidableEq, Repr

/-- The six correlators of a tracking channel over one code period, as I and Q sums: early, prompt and late on the data
    component and on the pilot (R147; entry 15). -/
structure Corr where
  dataE : Int × Int
  dataP : Int × Int
  dataL : Int × Int
  pilotE : Int × Int
  pilotP : Int × Int
  pilotL : Int × Int
  deriving DecidableEq, Repr

/-- A channel in PULL_IN (R145, R147): the phase-lock indicator in 1/1000, for how many ms it has stood no lower, and what
    the correlators gave the frequency loop. -/
structure LockObs where
  chan : Fin 512
  ind : Nat
  ms : Nat
  raw : List Corr
  deriving DecidableEq, Repr

/-- A tracking channel (R145): the phase-lock indicator in 1/1000 and C/N0 in 0.01 dB-Hz, and for how many ms each has stood
    no higher. -/
structure LossObs where
  ind : Nat
  indMs : Nat
  cn0 : Nat
  cn0Ms : Nat
  deriving DecidableEq, Repr

/-- A channel and whole milliseconds of its transmit time (R144, R152). -/
structure ChanMs where
  chan : Fin 512
  ms : Nat
  deriving DecidableEq, Repr

/-- A block of 32 bytes that a command names in host memory: its address, and what stands there, byte 0 lowest. -/
structure HostBlock where
  addr : BitVec 64
  data : BitVec 256
  deriving DecidableEq, Repr

/-- Bytes that a command names in host memory: their address, and what stands there. -/
structure HostBytes where
  addr : BitVec 64
  data : List Byte
  deriving DecidableEq, Repr

/-- What a tracking channel meets up to a latch (R136, R145, R147, R151): its correlators, code period by code period,
    since the latch before; the distance of the last of their sample clock edges from the latch instant in 125 ps; C/N0;
    the half-cycle mark; cycle slips with the tick of the last. Log entry 15. -/
structure ChanObs where
  chan : Fin 512
  raw : List Corr
  edge : Nat
  cn0 : BitVec 16
  half : Bool
  slips : Nat
  slipTick : Nat
  deriving DecidableEq, Repr

/-- UTC parameters of a system as broadcast: ΔtLS, ΔtLSF, the week number modulo its field's range and the second of
    that week, in system time, at which the change takes effect (R157, R158). -/
structure NavUtc where
  sys : Nat
  dtLS : BitVec 8
  dtLSF : BitVec 8
  wn : Nat
  range : Nat
  tow : Nat
  deriving DecidableEq, Repr

/-- The checks of R153. -/
inductive NavCheck where
  | parity | viterbi | ldpc | bch | crc24q
  deriving DecidableEq, Repr

/-- A navigation page: its bits, the checks that it passes, and what it completes (R153, R155; entry 14). -/
structure NavIn where
  bits : BitVec 16
  payload : BitVec 896
  passed : List NavCheck
  dec : List NavDec
  utc : Option NavUtc
  deriving DecidableEq, Repr

/-- A page that NAV_INJECT reads from host memory, or that the partner mirrors, in the format of R155. Log entry 14. -/
structure NavInject where
  signal : BitVec 8
  sv : BitVec 8
  page : NavIn
  deriving DecidableEq, Repr

/-- What the firmware's models give for a satellite at a latch (R160 step 2; entry 15): elevation in 1/1000 degree; for
    each of its signals the time from transmission to the antenna with the satellite clock, relativity, group delays and
    troposphere but without ionosphere, in 2^-16 ns; the ionosphere on 1575.42 MHz by its own system's coefficients and
    by those of GPS; the broadcast week number of the transmit times and its field's range. -/
structure SatIn where
  sys : Nat
  sv : Nat
  el : Nat
  path : List (BitVec 8 × Int)
  ionoOwn : Int
  ionoGps : Int
  wn : Nat
  range : Nat
  deriving DecidableEq, Repr

/-- What the firmware brings to a solution beside the latch (R160 to R168; entry 15): the satellites, and in SURVEY mode
    the position solved with its uncertainty in mm and the variance that it adds to the clock in ps². -/
structure SolIn where
  sats : List SatIn
  posVar : Nat
  x : Int
  y : Int
  z : Int
  unc : Nat
  deriving DecidableEq, Repr

/-- What a time-of-day receiver takes from its line (R195, R198): a time event message with the TAI second it names,
    TAI − UTC and the leap flags; a time announce message with class, accuracy and variance; a checksum or framing
    error; any other message. -/
inductive TodIn where
  | event (sec : Nat) (utc : BitVec 16) (leap : BitVec 2)
  | announce (cls acc var : Nat)
  | bad
  | other
  deriving DecidableEq, Repr

/-- One stream of a PTP grant as the mirror carries it (R373): log interval, remaining ticks, sequenceId. -/
structure StreamRec where
  logInt : Int
  remain : Nat
  seqId : BitVec 16
  deriving DecidableEq, Repr

/-- A tunnelled transaction (R348). -/
inductive Tunnel where
  | regRd (off : BitVec 32) (be : BitVec 4)
  | regWr (off : BitVec 32) (be : BitVec 4) (data : Word)
  | regCpl (status : BitVec 8) (data : Word)
  | dmaRd (addr : BitVec 64) (len : Nat)
  | dmaWr (addr : BitVec 64) (data : List Byte)
  | dmaCpl (status : BitVec 8) (last : Bool) (off : Nat) (data : List Byte)
  | msi (vector : BitVec 8)
  | doorbell (ring : BitVec 16) (index : BitVec 32)
  deriving DecidableEq, Repr

/-- A mirror record (R373). Words are named by the key the model stores them under. Log entry 23. -/
inductive MirrorRec where
  | active (teb : BitVec 32) (cstate : BitVec 8) (w : Int) (utc : BitVec 16) (utcValid : Bool) (pend : BitVec 2)
      (leapAt : BitVec 32) (lastContr : BitVec 128)
  | word (key : Nat) (v : Word)
  | quals (mask : BitVec 16) (ranks : List (BitVec 8))
  | cookieKey (entry : Fin 16) (keyId : BitVec 32) (slot : BitVec 8) (st : BitVec 2) (retire : Option Nat)
      (attr : Word) (blob : List Byte) (usable : Bool)
  | secKey (entry : Fin 64) (keyId : BitVec 32) (slot spp : BitVec 8) (cmac : Bool) (st : BitVec 2)
      (retire : Option Nat) (attr : Word) (blob : List Byte) (usable : Bool)
  | grant (entry : Nat) (inst : Fin 16) (ipv6 : Bool) (addr : BitVec 128) (udp : BitVec 16) (ident : BitVec 80)
      (port : Fin 8) (streams : List (Option StreamRec))
  | grantGone (entry : Nat)
  | seqs (inst : Fin 16) (sync announce : BitVec 16)
  | nav (p : NavInject)
  | trig (pin : Fin 16) (mode : BitVec 2) (rate : Bool) (count startSec startSub per : Nat) (stop : Option Nat)
  | trigGone (pin : Fin 16)
  deriving DecidableEq, Repr

/-- What a Colol frame carries; a pairing statement stands as its bytes 0 to 175 (R329, R336, R338, R339, R345, R367, R370, R379, R383, R537). Instants of T2 and T3
    are the counter in 2^-16 ns. -/
inductive LinkBody where
  | idle
  | hello (ident : BitVec 64) (node : BitVec 16) (role flags : BitVec 8)
  | timeReq (seq : BitVec 32)
  | timeResp (seq : BitVec 32) (t2 t3 : Nat) (teb : BitVec 32) (hops state : BitVec 8) (node : BitVec 16)
  | slotReq (ident : BitVec 64) (route : List (Fin 4))
  | slotAssign (ident : BitVec 64) (slot : BitVec 6) (shelf : Option (BitVec 10)) (route : List (Fin 4))
  | shelfReq (ident : BitVec 64) (pref : Option (BitVec 10)) (route : List (Fin 4))
  | shelfAssign (ident : BitVec 64) (shelf : BitVec 10) (route : List (Fin 4))
  | shelfUpdate (slot : BitVec 6) (shelf : BitVec 10)
  | hostReset (slot : BitVec 6)
  | heartbeat (seq : BitVec 32) (role pstate flags cstate : BitVec 8) (teb mgen : BitVec 32) (power : BitVec 8)
  | swapPropose (h : Nat)
  | swapAccept
  | swapAbort (mask : BitVec 11)
  | swapRequest
  | pairHello (nonce : BitVec 256)
  | pairAttest (pub eph : BitVec 776) (stmt : List Byte) (sig : BitVec 768)
  | pairConfirm (check : BitVec 128)
  | updOffer (length fw : BitVec 32)
  | updReply (status : BitVec 8)
  | updData (offset : BitVec 32) (data : List Byte)
  | updEnd (abandon : Bool)
  | updResult (status cause : BitVec 8)
  | mirror (mgen : BitVec 32) (snapshot last : Bool) (rec : MirrorRec)
  | tunnel (dst src : BitVec 8) (tag : BitVec 16) (t : Tunnel)
  | unknown (type sub : BitVec 8) (len : Nat)
  deriving DecidableEq, Repr

/-- A Colol frame on the wire (R328): its link sequence and ACK, whether its CRC is correct and its LEN well formed,
    and what it carries. -/
structure LinkFrame where
  lseq : BitVec 16
  ack : BitVec 16
  crcOk : Bool
  lenOk : Bool
  body : LinkBody
  deriving DecidableEq, Repr

/-- PTP message types (R255, R277); `other` carries a code that no message has. -/
inductive PtpType where
  | sync | delayReq | pdelayReq | pdelayResp | followUp | delayResp | pdelayFollow | announce | signaling | management
  | other (code : BitVec 4)
  deriving DecidableEq, Repr

/-- The kinds of PTP message that a grant covers (R264). -/
inductive GrantKind where
  | announce | sync | delayResp
  deriving DecidableEq, Repr

/-- What an Announce says of a clock (R258, R259, R274). -/
structure ClockData where
  prio1 : BitVec 8
  cls : BitVec 8
  acc : BitVec 8
  var : BitVec 16
  prio2 : BitVec 8
  gmIdent : BitVec 64
  steps : BitVec 16
  deriving DecidableEq, Repr

/-- A TLV of a PTP message (R261, R264, R269): a TEB TLV as found or sent, the unicast transmission TLVs with the kind
    that their messageType names (none for a type outside R265 step 2), the AUTHENTICATION TLV with whether its form is
    that of R269, and any other. -/
inductive PtpTlv where
  | teb (type : BitVec 16) (oui sub : BitVec 24) (teb : BitVec 32) (st flags : BitVec 8)
  | request (kind : Option GrantKind) (logInt : Int) (dur : Nat)
  | grant (kind : Option GrantKind) (logInt : Int) (dur : Nat) (renew : Bool)
  | cancel (kind : Option GrantKind)
  | ackCancel (kind : Option GrantKind)
  | auth (spp : BitVec 8) (keyId : BitVec 32) (form : Bool) (icv : BitVec 128)
  | other (type : BitVec 16) (len : Nat)
  deriving DecidableEq, Repr

/-- A PTP message of IEEE 1588-2019: whether R277 steps 3 and 7 find it well formed, its header, its timestamp field,
    its peer identity (requestingPortIdentity or targetPortIdentity), an Announce's data and the TLVs. The
    correctionField is in 2^-16 ns. -/
structure PtpMsg where
  lenOk : Bool
  tlvOk : Bool
  version : Nat
  minor : Nat
  type : PtpType
  domain : BitVec 8
  sdo : BitVec 4
  twoStep : Bool
  unicast : Bool
  leap61 : Bool
  leap59 : Bool
  utcValid : Bool
  timeTr : Bool
  freqTr : Bool
  ptpScale : Bool
  corr : Int
  src : BitVec 80
  seq : BitVec 16
  logInt : Int
  tsSec : Nat
  tsNs : Nat
  peer : BitVec 80
  utc : BitVec 16
  clock : ClockData
  timeSource : BitVec 8
  tlvs : List PtpTlv
  deriving DecidableEq, Repr

/-- An IPv4 or IPv6 header with its UDP checksum's outcome: an IPv4 address stands in the low 32 bits. -/
structure IpHdr where
  v6 : Bool
  src : BitVec 128
  dst : BitVec 128
  ttl : BitVec 8
  dscp : BitVec 6
  ecn : BitVec 2
  fragment : Bool
  extHdr : Bool
  csumOk : Bool
  csumZero : Bool
  deriving DecidableEq, Repr

/-- What an Ethernet frame carries: a UDP datagram, a PTP message over UDP or over EtherType 0x88F7, an ESMC PDU with
    whether it meets R307 (its SSM code and its Extended QL TLV's code), a MAC control frame, or anything else. -/
inductive EthBody where
  | udp (ip : IpHdr) (sport dport : BitVec 16) (pay : List Byte)
  | ptpUdp (ip : IpHdr) (sport dport : BitVec 16) (msg : PtpMsg)
  | ptpEth (msg : PtpMsg)
  | esmc (good : Bool) (ssm : BitVec 4) (ext : Option (BitVec 8)) (ident : BitVec 64) (event : Bool)
  | pause (quanta : BitVec 16)
  | pfc (quanta : List (Option (BitVec 16)))
  | macctl
  | other (etype : BitVec 16) (ip : Option IpHdr)
  deriving DecidableEq, Repr

/-- An Ethernet frame (R294 to R298): its length with FCS, whether its codes and FCS are correct, its addresses, its
    tags (TPID, TCI) from the outermost, what it carries, and its bytes without FCS where they go to the host or to the
    wake detector. -/
structure EthFrame where
  len : Nat
  codeOk : Bool
  fcsOk : Bool
  dst : BitVec 48
  src : BitVec 48
  tags : List (BitVec 16 × BitVec 16)
  body : EthBody
  raw : List Byte
  deriving DecidableEq, Repr


/-- The commands of spec/opcode_table.json, one constructor each. Opcode rows carry the command's header and its
    decoded arguments; event rows carry what the outside supplies. -/
inductive Instr where
  /-- R445: Command 0x00 returns the TS128 at execution. -/
  | nop (hd : Hdr)
  /-- R445: Command 0x01 returns identity, firmware, power state, node identifier and role. -/
  | engineQuery (hd : Hdr)
  /-- R492: Command 0x10 moves the engine between Warm, Boil, Simmer and Off. -/
  | powerSet (hd : Hdr) (target : BitVec 8)
  /-- R515: Command 0x11 returns power state, phase, junction temperature and reset cause. -/
  | powerQuery (hd : Hdr)
  /-- R500: Command 0x12 re-engages a coasting loop from its frozen value. -/
  | loopReset (hd : Hdr) (loop : BitVec 8) (refLost : Bool)
  /-- R515: Command 0x13 returns loop state, REF frequency and coast durations. -/
  | clockQuery (hd : Hdr)
  /-- R71: Command 0x20 returns the current TS128 and the frequency word. -/
  | timeGet (hd : Hdr)
  /-- R72: Command 0x21 sets the counter and TEB in NIGHT and acts as a step. -/
  | timeSet (hd : Hdr) (sec : BitVec 64) (ns : BitVec 32) (frac : BitVec 16) (teb : BitVec 32)
  /-- R71: Command 0x22 steps the counter through REFS, subject to STEP_LIMIT. -/
  | timeStep (hd : Hdr) (ns : BitVec 64) (frac : BitVec 16)
  /-- R38: Command 0x23 starts a host slew that removes an offset at SLEW_MAX. -/
  | timeSlew (hd : Hdr) (ns : BitVec 64) (frac : BitVec 16)
  /-- R71: Command 0x24 writes the frequency word directly in NIGHT. -/
  | freqSet (hd : Hdr) (w : BitVec 64)
  /-- R57: Command 0x25 supplies the temperature used by the growth law. -/
  | tempSupply (hd : Hdr) (temp : BitVec 16)
  /-- R64: Command 0x26 marks the time invalid until the next contraction. -/
  | timeInvalidate (hd : Hdr)
  /-- R69: Command 0x27 sets TAI minus UTC and a pending leap. -/
  | leapSet (hd : Hdr) (off : BitVec 16) (pend : BitVec 8) (leapAt : BitVec 32)
  /-- R54: On each millisecond boundary the growth law is evaluated and the TEB published. -/
  | tebPublish
  /-- R65: TCO_DWELL runs out and the reported clock state becomes the better underlying state. -/
  | dwellExpiry
  /-- R63: Four seconds pass after the latch of the newest qualified measurement and TCO is no longer locked. -/
  | lockLapse
  /-- R69: Counter seconds reach LEAP_AT and the pending leap is applied to TAI minus UTC. -/
  | leapDone
  /-- R57: Host temperature is absent for 5 s and the on-die sensor is used with a Degraded fault. -/
  | tempFallback
  /-- R38: A slew removes the last of its offset and ends. -/
  | slewComplete
  /-- R80: A measurement from a slot reaches REFS, is ordered, monitored and applied by the servo. -/
  | refsMeasurement (slot : Fin 16) (off : Int) (latch : Nat) (bound : Nat) (valid : Bool)
  /-- R499: A clock loop loses lock or reference, freezes and coasts with a Severe fault. -/
  | loopLoss (loop : Fin 4) (ref : Bool)
  /-- R500: A loop under LOOP_RESET locks, coasting ends and the command completes OK. -/
  | loopLocked (loop : Fin 4)
  /-- R500: A loop has not locked 10 ms after LOOP_RESET; the command completes ABORTED. -/
  | loopResetTimeout (loop : Fin 4)
  /-- R496: REF is measured again every 100 ms while it matches no supported frequency. -/
  | refWaitRetry (count : Nat)
  /-- R22: The background scrubber reads and corrects SRAM words. -/
  | sramScrub (store : Option (Fin 3)) (met double : Bool) (addr : BitVec 32) (entry : Nat) (pass : Bool)
  /-- R79: A slot's activity lapses for ACT_TO and it becomes inactive. -/
  | slotActivityLapse (slot : Fin 16)
  /-- R81: On each counter second the fast and slow frequency monitors are computed and compared. -/
  | monitorUpdate (ppt : List (Fin 16 × Int))
  /-- R86: A slot has been active and inside accept for QUAL_TIME and becomes qualified. -/
  | slotQualify (slot : Fin 16)
  /-- R95: A better slot has been qualified for WTR_TIME and a revertive switch starts. -/
  | wtrExpiry
  /-- R99: The PREPARE window ends; delta is formed and stepped, slewed or refused. -/
  | txnCommit
  /-- R99: SETTLE_TIME runs out after COMMIT and the transaction returns to idle. -/
  | settleEnd
  /-- R104: A REFUSED slot's offset stays within STEP_LIMIT for QUAL_TIME and the mark clears. -/
  | refusedClear (slot : Fin 16)
  /-- R108: REFS recomputes the holdover word once per second. -/
  | holdoverWordUpdate
  /-- R116: Once per STEER_PERIOD the steering code is recomputed and sent to the oscillator. -/
  | steerUpdate
  /-- R120: A UART reply line arrives and is checked against the reply prefix. -/
  | steerReply (line : List Byte)
  /-- R120: No reply arrives within REPLY_TO; the template is resent or steering fails. -/
  | steerReplyTimeout
  /-- R122: Command 0x30 returns a slot's monitors, offset and bound. -/
  | refQuery (hd : Hdr) (slot : BitVec 8)
  /-- R122: Command 0x31 locks a slot out or releases it. -/
  | refLockout (hd : Hdr) (slot on : BitVec 8)
  /-- R96: Command 0x32 restricts the selectors to one slot or releases the force. -/
  | refForce (hd : Hdr) (slot : BitVec 8)
  /-- R106: Command 0x33 runs a transaction that applies a refused step within a host maximum. -/
  | acceptStep (hd : Hdr) (slot mode : BitVec 8) (maxNs : BitVec 32)
  /-- R122: Command 0x34 starts a switch transaction to a named slot. -/
  | refSwitch (hd : Hdr) (slot : BitVec 8)
  /-- R122: Command 0x35 forces holdover or releases it. -/
  | holdoverForce (hd : Hdr) (on : BitVec 8)
  /-- R115: Command 0x36 sends a steering code in MANUAL mode. -/
  | oscSet (hd : Hdr) (code : BitVec 32)
  /-- R91: Command 0x37 sets or clears a slot's rank override. -/
  | rankSet (hd : Hdr) (slot rank ovr : BitVec 8)
  /-- R110: Command 0x38 discards all ageing samples. -/
  | ageReset (hd : Hdr)
  /-- R135: A sample port loses its clock or rate; its channels go LOST. -/
  | gspPortFail (port : Fin 4) (rate : Bool) (rateHz : BitVec 32)
  /-- R135: A failed port is clean for 100 ms and returns to service. -/
  | gspClkOk (port : Fin 4) (rateHz : BitVec 32)
  /-- R138: An acquisition search completes and writes its hits. -/
  | acqSearchDone (rise fall : List (BitVec 4))
  /-- R145: A channel in PULL_IN reaches carrier lock and enters TRACK. -/
  | carrierLock (obs : LockObs)
  /-- R144: A channel has no lock 500 ms into PULL_IN and returns to ACQUIRE or IDLE. -/
  | pullInTimeout (chan : Fin 512)
  /-- R145: A channel loses lock or C/N0 and enters LOST. -/
  | channelLoss (chan : Fin 512) (obs : LossObs)
  /-- R145: REACQ_TO passes in LOST and the channel goes IDLE. -/
  | reacqTimeout (chan : Fin 512)
  /-- R144: A tracking channel gains symbol and secondary-code sync and enters SYNC. -/
  | symbolSync (obs : ChanMs)
  /-- R144: The time of week is decoded and the channel enters READY. -/
  | towDecoded (obs : ChanMs)
  /-- R148: On each 1/N-second boundary all tracking channels are latched at one instant. -/
  | measLatch (obs : List ChanObs)
  /-- R153: A navigation page is decoded, checked and stored or discarded. -/
  | navPage (chan : Fin 512) (page : NavIn)
  /-- R160: A time solution completes and its measurement is delivered to REFS. -/
  | solutionDone (group : Bool) (sol : SolIn)
  /-- R162: An excluded satellite's EXCL_HOLD runs out and it is readmitted. -/
  | exclHoldExpiry (group : Bool) (sys sv : Nat)
  /-- R169: Command 0x40 starts antenna groups with a hot, warm or cold start. -/
  | gnssStart (hd : Hdr) (mask kind : BitVec 8)
  /-- R173: Command 0x41 stops antenna groups. -/
  | gnssStop (hd : Hdr) (mask : BitVec 8)
  /-- R140: Command 0x42 queues an acquisition search. -/
  | acqSearch (hd : Hdr) (addr : BitVec 64) (len : BitVec 32) (req : BitVec 256)
  /-- R173: Command 0x43 pins or unpins a channel to a signal and SV. -/
  | chanPin (hd : Hdr) (port signal sv on : BitVec 8)
  /-- R150: Command 0x44 copies a latch record to host memory. -/
  | measRead (hd : Hdr) (seq : BitVec 32) (addr : BitVec 64) (len : BitVec 32)
  /-- R155: Command 0x45 copies navigation pages to host memory. -/
  | navRead (hd : Hdr) (first : BitVec 32) (count : BitVec 16) (addr : BitVec 64)
  /-- R156: Command 0x46 injects navigation pages. -/
  | navInject (hd : Hdr) (pages : List NavInject)
  /-- R173: Command 0x47 sets a group's position. -/
  | posSet (hd : Hdr) (group : BitVec 8) (x y z : BitVec 64) (unc : BitVec 32)
  /-- R168: Command 0x48 puts a group in SURVEY mode. -/
  | surveyStart (hd : Hdr) (group : BitVec 8)
  /-- R173: Command 0x49 returns a group's last solution. -/
  | solQuery (hd : Hdr) (group : BitVec 8)
  /-- R173: Command 0x4A excludes or releases a satellite. -/
  | svExclude (hd : Hdr) (sys sv on : BitVec 8)
  /-- R173: Command 0x4B clears ephemeris, almanac or UTC data. -/
  | gnssClear (hd : Hdr) (mask : BitVec 8)
  /-- R182: A PPS output's leading edge target is reached; the edge is placed, gated and reported. -/
  | ppsOutEdge (output : Fin 4)
  /-- R180: A pulse's programmed width elapses and its trailing edge is driven. -/
  | pulseTrailingEdge (output : Fin 22)
  /-- R189: A trigger edge target is reached and the edge is placed and reported. -/
  | trigEdge (pin : Fin 16)
  /-- R186: A SYNC_IN edge restarts frequency outputs in PIN mode. -/
  | syncInEdge (phase : Fin 16)
  /-- R193: An edge on a capture pin is stamped into the capture queue. -/
  | captureEdge (pin : Fin 16) (rising : Bool) (phase : Fin 16)
  /-- R196: An active PPS_IN edge is stamped and awaits its time-of-day message. -/
  | ppsInEdge (input : Fin 4) (rising : Bool) (phase : Fin 16)
  /-- R196: A time-of-day message completes and is matched to a pulse or discarded. -/
  | todMessage (input : Fin 4) (msg : TodIn)
  /-- R198: TOD_WIN passes without a matching message and the pulse is discarded. -/
  | todWinExpiry (input : Fin 4)
  /-- R190: Command 0x50 arms a trigger on a TIO pin. -/
  | trigArm (hd : Hdr) (pin : BitVec 8) (block : HostBlock)
  /-- R191: Command 0x51 stops a trigger at once or at an instant. -/
  | trigStop (hd : Hdr) (pin mode : BitVec 8) (sec : BitVec 64) (ns : BitVec 32)
  /-- R206: Command 0x52 copies capture records to host memory. -/
  | capRead (hd : Hdr) (count : BitVec 16) (addr : BitVec 64)
  /-- R206: Command 0x53 copies edge reports to host memory. -/
  | edgeRead (hd : Hdr) (count : BitVec 16) (addr : BitVec 64)
  /-- R186: Command 0x54 restarts FREE frequency outputs at the next second. -/
  | freqSync (hd : Hdr) (mask : BitVec 8)
  /-- R17: A frame arrives on an Ethernet port, is stamped, checked and classified. -/
  | frameReceive (port : Fin 9) (phase : Fin 16) (taken : Bool) (fecOk fecBad : Nat) (descs : List (BitVec 256)) (frame : EthFrame)
  /-- R216: Once per second each port whose buckets dropped frames emits a count. -/
  | policing
  /-- R230: Once per second the count of capped Kiss-o'-Death answers is emitted. -/
  | kodCap
  /-- R236: A rotation instant T arrives and the named entry becomes CURRENT. -/
  | cookieRotateInstant
  /-- R236: A retire instant T arrives and the entry becomes EMPTY. -/
  | cookieRetireInstant (entry : Fin 16)
  /-- R239: The background sweep ages rate-limiter cells each epoch. -/
  | rlSweep
  /-- R237: Command 0x60 seals cookies for NTS-KE under the CURRENT key. -/
  | cookieMint (hd : Hdr) (aead : BitVec 16) (count : BitVec 8) (keys : HostBytes) (addr : BitVec 64) (len : BitVec 32)
  /-- R236: Command 0x61 places a cookie key entry in ACCEPT. -/
  | cookieKeyLoad (hd : Hdr) (entry slot : BitVec 8) (keyId : BitVec 32)
  /-- R236: Command 0x62 schedules a cookie key rotation at T. -/
  | cookieRotate (hd : Hdr) (entry : BitVec 8) (sec : BitVec 64) (ns : BitVec 32)
  /-- R236: Command 0x63 makes an entry RETIRING until T. -/
  | cookieKeyRetire (hd : Hdr) (entry : BitVec 8) (sec : BitVec 64) (ns : BitVec 32)
  /-- R244: Command 0x64 returns the rate-limiter estimate for an address. -/
  | rlQuery (hd : Hdr) (fam : BitVec 8) (addr : BitVec 128)
  /-- R238: Command 0x65 clears the sketch and draws a new hash key. -/
  | rlClear (hd : Hdr)
  /-- R268: A scheduled Announce or Sync of a master instance or grant is built and sent. -/
  | ptpScheduledSend (inst : Fin 16) (kind : GrantKind) (entry : Option Nat)
  /-- R256: A two-step follow-up message leaves after its event message's egress stamp. -/
  | followUpSend
  /-- R266: A grant's duration ends and its stream stops. -/
  | grantExpiry (entry : Nat) (kind : GrantKind)
  /-- R275: A slave renews a grant when a quarter of its duration remains. -/
  | grantRenewal (inst : Fin 16) (idx : Fin 4) (kind : GrantKind)
  /-- R275: A slave retries a lost grant after one Announce interval. -/
  | grantRetry (inst : Fin 16) (idx : Fin 4) (kind : GrantKind)
  /-- R274: A candidate master sends no Announce for the timeout and is lost. -/
  | announceReceiptTimeout (inst : Fin 16) (ident : BitVec 80)
  /-- R276: A slave sends Delay_Req or Pdelay_Req at its interval. -/
  | delayReqSend (inst : Fin 16)
  /-- R273: A security key rotation instant T arrives. -/
  | secKeyRotateInstant (entry : Fin 64)
  /-- R273: A security key retire instant T arrives and the entry becomes EMPTY. -/
  | secKeyRetireInstant (entry : Fin 64)
  /-- R278: Once per second an instance with authentication drops emits the count. -/
  | authAlarm
  /-- R282: Command 0x70 returns a grant entry. -/
  | grantQuery (hd : Hdr) (inst fam : BitVec 8) (addr : BitVec 128) (udp : BitVec 16)
  /-- R267: Command 0x71 cancels grant streams. -/
  | grantCancel (hd : Hdr) (entry : BitVec 32) (inst : BitVec 8)
  /-- R282: Command 0x72 copies grant summaries. -/
  | grantList (hd : Hdr) (first count : BitVec 32) (addr : BitVec 64)
  /-- R273: Command 0x73 places a security key entry in ACCEPT. -/
  | secKeyLoad (hd : Hdr) (entry slot spp alg : BitVec 8) (keyId : BitVec 32)
  /-- R273: Command 0x74 schedules a security key rotation. -/
  | secKeyRotate (hd : Hdr) (entry : BitVec 8) (sec : BitVec 64) (ns : BitVec 32)
  /-- R273: Command 0x75 schedules a security key retirement. -/
  | secKeyRetire (hd : Hdr) (entry : BitVec 8) (sec : BitVec 64) (ns : BitVec 32)
  /-- R282: Command 0x76 returns a slave instance's measurement state. -/
  | slaveQuery (hd : Hdr) (inst : BitVec 8)
  /-- R303: A pause's quanta run out and the queue resumes. -/
  | pauseExpiry (port : Fin 9)
  /-- R304: Queue T stays paused with frames for PAUSE_WD; it resumes and PAUSE_BREAK is raised. -/
  | pauseWdExpiry (port : Fin 9)
  /-- R304: WD_HOLD ends and pause is obeyed again for queue T. -/
  | wdHoldExpiry (port : Fin 9)
  /-- R305: The port sends pause for queue M priorities every 100 µs while host buffers are filling. -/
  | txPauseSend (port : Fin 9) (share : Nat)
  /-- R309: No accepted ESMC PDU arrives for 5 s and the QL becomes failed. -/
  | esmcTimeout (port : Fin 9)
  /-- R310: A port sends its once-per-second ESMC information PDU. -/
  | esmcInfoSend (port : Fin 9)
  /-- R310: A port sends an ESMC event PDU within 1 ms of a change in its QL. -/
  | esmcEventSend (port : Fin 9)
  /-- R315: An Ethernet port's link comes up and deskew measurement restarts. -/
  | portLinkUp (port : Fin 9) (anDone : Bool) (speed : BitVec 2)
  /-- R315: An Ethernet port's link goes down; frames are truncated and queues discarded. -/
  | portLinkDown (port : Fin 9) (cut : Bool)
  /-- R448: A host transmit frame is taken from its descriptors, queued, sent and written back. -/
  | hostTxFrame (ring : Fin 2) (descs : List (BitVec 256)) (data : List Byte)
  /-- R317: In Simmer a frame matches a wake pattern and WAKE_N is driven low. -/
  | wakeMatch (frame : EthFrame)
  /-- R320: Command 0x80 returns a port's state and QL. -/
  | portQuery (hd : Hdr) (port : BitVec 8)
  /-- R318: Command 0x81 performs an I2C transfer to a module. -/
  | modI2c (hd : Hdr) (bus addr rd len : BitVec 8) (off : BitVec 16) (width : BitVec 8) (buf : BitVec 64) (ack inTime : Bool) (data : List Byte)
  /-- R318: Command 0x82 performs an MDIO access. -/
  | modMdio (hd : Hdr) (clause port dev : BitVec 8) (reg data : BitVec 16) (rd : BitVec 8) (val : BitVec 16)
  /-- R289: Command 0x83 restarts a port with its configured mode. -/
  | portRestart (hd : Hdr) (port : BitVec 8)
  /-- R327: A Colol link reaches block lock and alignment and enters HELLO. -/
  | linkAligned (lk : Fin 4)
  /-- R336: A link in HELLO sends a HELLO every 1 ms. -/
  | linkHelloSend (lk : Fin 4)
  /-- R327: A DOWN link returns to TRAIN after 1 ms. -/
  | linkRetrain (lk : Fin 4)
  /-- R331: A Colol frame arrives, is checked, acknowledged and dispatched by type. -/
  | linkFrameRx (lk : Fin 4) (phase : Fin 16) (hostData : List Byte) (frame : LinkFrame)
  /-- R338: A PARENT or PAIR link sends a TIME_REQ each TX_PERIOD. -/
  | timeReqSend (lk : Fin 4)
  /-- R341: A TIME_RESP does not arrive in time and the exchange is lost. -/
  | exchangeLost (lk : Fin 4)
  /-- R330: An IDLE frame is sent after 4 µs without a frame or to carry a due ACK. -/
  | linkIdleSend (lk : Fin 4)
  /-- R332: RETRY_TO passes for the oldest unacknowledged frame and all are resent. -/
  | retryTimeout (lk : Fin 4)
  /-- R346: No good frame arrives for LNK_DEAD_TO and the link falls DOWN. -/
  | linkDeadTimeout (lk : Fin 4)
  /-- R346: A lane loses block lock or alignment and the link falls DOWN. -/
  | linkLockLoss (lk : Fin 4)
  /-- R351: No REG_CPL arrives 20 µs after a tunnelled access; the primary completes it. -/
  | remoteTimeout
  /-- R345: A primary sends SHELF_REQ every 60 s. -/
  | shelfReqPeriodic
  /-- R354: Once per second a link whose CRC errors exceed the limit reports them. -/
  | linkErrors (lk : Fin 4)
  /-- R356: Command 0x90 returns a link's state and time figures. -/
  | linkQuery (hd : Hdr) (lk : BitVec 8)
  /-- R25: Command 0x91 sets a link's role, TRUNK and FEC. -/
  | linkRoleSet (hd : Hdr) (lk role flags : BitVec 8)
  /-- R346: Command 0x92 takes a link DOWN and retrains it. -/
  | linkRestart (hd : Hdr) (lk : BitVec 8)
  /-- R345: Command 0x93 pins or unpins a slot or shelf number to an identity. -/
  | shelfPin (hd : Hdr) (table pin : BitVec 8) (num : BitVec 16) (ident : BitVec 64)
  /-- R356: Command 0x94 copies the slot or shelf table. -/
  | enumList (hd : Hdr) (table : BitVec 8) (first : BitVec 32) (addr : BitVec 64) (count : BitVec 32)
  /-- R367: Each HB_PERIOD a unit sends its heartbeat and refreshes the hold watchdog. -/
  | heartbeatSend
  /-- R367: An HB_PERIOD passes without a heartbeat; after three the partner is lost. -/
  | heartbeatMiss (held : Bool)
  /-- R363: The line has read high for CLAIM_WAIT and the standby drives it low. -/
  | claimWaitExpiry
  /-- R363: 1 µs after driving, the unit reads the line and holds it or reports a fault. -/
  | claimCheck (low : Bool)
  /-- R365: No refresh for 10 HB_PERIODs and hardware releases ACTIVE_N. -/
  | holdWatchdogLapse
  /-- R369: The line reads low for 100 ms while no unit holds it; LINE_FAULT is raised. -/
  | lineStuckLow
  /-- R370: The pairing ceremony times out and PAIR_BEGIN completes ABORTED. -/
  | pairCeremonyTimeout
  /-- R378: SWAP_PERIOD or the retry interval runs out and the active proposes a swap. -/
  | swapPeriodExpiry
  /-- R380: At H minus 200 ms the standby runs its self-check and accepts or aborts. -/
  | swapSelfCheck
  /-- R379: At H minus 100 ms the active aborts unless ACCEPT has arrived. -/
  | swapLastCall
  /-- R379: At H minus 10 µs the incoming unit drives ACTIVE_N low. -/
  | swapDrive
  /-- R379: At H the outgoing unit releases and the incoming unit takes outputs and requests. -/
  | swapHandover
  /-- R381: At H plus 1 µs both units read the line and complete or abort the swap. -/
  | swapLineCheck (low : Bool)
  /-- R383: A ready PREFERRED standby sends SWAP_REQUEST after PAIR_WTR_TIME and every 60 s. -/
  | swapRequestSend
  /-- R385: Command 0xA0 returns pair state and partner figures. -/
  | pairQuery (hd : Hdr)
  /-- R370: Command 0xA1 starts the pairing ceremony. -/
  | pairBegin (hd : Hdr) (slot : BitVec 8) (addr : BitVec 64) (hash : List Byte)
  /-- R372: Command 0xA2 discards the pair key and its copy. -/
  | pairForget (hd : Hdr)
  /-- R379: Command 0xA3 starts a swap. -/
  | pairSwap (hd : Hdr)
  /-- R364: Command 0xA4 releases ACTIVE_N. -/
  | pairRelease (hd : Hdr)
  /-- R373: Command 0xA5 sends a fresh mirror snapshot. -/
  | pairResync (hd : Hdr)
  /-- R415: A tamper source is detected; keys are zeroised and the event logged. -/
  | tamperDetect (source : Fin 13)
  /-- R401: The commit instant T_c arrives and the slots become invalid. -/
  | invalidateCommit
  /-- R402: At T_c plus 2 µs the invalidated key material is zeroed. -/
  | keyMaterialZero
  /-- R408: The DRBG reseeds every second or after 2^20 requests. -/
  | drbgReseed
  /-- R409: An entropy health test fails and a Severe fault is raised. -/
  | rngFail (rep adapt : Bool)
  /-- R409: The failed entropy source is restarted every 1 s. -/
  | entropyRestart (ok : Bool)
  /-- R409: 2^32 requests pass without a reseed and a tamper of source 11 follows. -/
  | drbgExhausted
  /-- R420: Command 0xB0 returns a slot's attributes and check value. -/
  | keyQuery (hd : Hdr) (slot : BitVec 8)
  /-- R397: Command 0xB1 fills a slot from the random source. -/
  | keyGen (hd : Hdr) (slot : BitVec 8) (attr : BitVec 32)
  /-- R399: Command 0xB2 fills a slot from a wrapped blob. -/
  | keyImport (hd : Hdr) (slot wrap : BitVec 8) (addr : BitVec 64) (len : BitVec 32) (blob : List Byte)
  /-- R398: Command 0xB3 derives a key from a KDF parent. -/
  | keyDerive (hd : Hdr) (slot parent kdf : BitVec 8) (attr : BitVec 32) (addr : BitVec 64) (len : BitVec 16) (ctx : List Byte)
  /-- R399: Command 0xB4 writes a wrapped blob of a persistent slot. -/
  | keyExport (hd : Hdr) (slot wrap : BitVec 8) (addr : BitVec 64) (len : BitVec 32)
  /-- R401: Command 0xB5 schedules invalidation of a slot and its descendants. -/
  | keyInvalidate (hd : Hdr) (slot : BitVec 8)
  /-- R404: Command 0xB6 writes a signed statement about a slot. -/
  | keyAttest (hd : Hdr) (slot : BitVec 8) (nonceAddr addr : BitVec 64) (nonce : List Byte)
  /-- R420: Command 0xB7 returns a P-384 public key. -/
  | keyPublic (hd : Hdr) (slot : BitVec 8) (addr : BitVec 64)
  /-- R420: Command 0xB8 signs a digest with a SIGN slot. -/
  | keySign (hd : Hdr) (slot : BitVec 8) (dAddr addr : BitVec 64) (digest : List Byte)
  /-- R407: Command 0xB9 generates a new root and derives slots 1 and 2. -/
  | keyProvision (hd : Hdr) (addr : BitVec 64) (hit : Option (Fin 13))
  /-- R414: Command 0xBA copies the tamper log. -/
  | keyTamperRead (hd : Hdr) (addr : BitVec 64)
  /-- R413: Command 0xBB clears latches of sources no longer active. -/
  | tamperClear (hd : Hdr) (mask : BitVec 16) (active : BitVec 13)
  /-- R435: A host doorbell write publishes a ring index, checked and applied or forwarded. -/
  | doorbell (off : Nat) (value : BitVec 32)
  /-- R441: HIF takes a command descriptor once completion entries are reserved and dispatches it. -/
  | commandFetch (ring : Fin 4) (desc : BitVec 256)
  /-- R439: A command's completion is written to its completion ring with write-back. -/
  | commandComplete
  /-- R452: The oldest unsignalled ring entry has waited MOD_TIME and the interrupt fires. -/
  | modTimeExpiry (ring : Fin 15)
  /-- R452: The 10 µs holdoff of a block interrupt source ends and a covered interrupt fires. -/
  | blockIrqHoldoffEnd (blk : Blk)
  /-- R454: A Function Level Reset or PCIe link loss disables all rings and abandons DMA. -/
  | flr (loss : Bool) (gen width : BitVec 4)
  /-- R429: A host access through the remote window is tunnelled to the selected slot. -/
  | remoteWindowAccess (off : Nat) (be : BitVec 4) (data : Option Word)
  /-- R434: A write of a ring's EN bit starts or stops the ring and resets its indices. -/
  | ringEnable (ring : Fin 15) (word : Word)
  /-- R463: A host write to a register without a row of its own is judged and applied. -/
  | registerWrite (addr : Nat) (data : List Byte)
  /-- R478: A sequence-clear write clears status bits if its SEQ and read mark match. -/
  | sqClear (blk : Blk) (word : Word)
  /-- R460: A read of a clear-on-read register returns and zeroes it. -/
  | rcRead (addr : Nat)
  /-- R473: A read or write of IND_DATA accesses the indirect word and auto-increments. -/
  | indDataAccess (blk : Blk) (be : BitVec 4) (data : Option Word)
  /-- R475: A GO write latches the selected wide value with any side effect. -/
  | mbxGo (word : Word)
  /-- R475: The latched wide value fills DATA0-3 and VALID is set. -/
  | mbxDataReady
  /-- R475: A write of MBX_ACK clears VALID and the data. -/
  | mbxAck (word : Word)
  /-- R471: The one write of GLB_LOCK locks all LK registers when LOCK is 1. -/
  | glbLockWrite (word : Word)
  /-- R485: A write of GLB_TEST_KEY opens or closes the checker test. -/
  | testKeyWrite (word : Word)
  /-- R485: The checker test window closes 1 s after it opened. -/
  | testWindowClose
  /-- R467: The configuration scrubber checks parity of stored words. -/
  | parityScrub (bad : Option Nat)
  /-- R505: A release of POR_N or return of the rails starts the engine through boot to READY. -/
  | porRelease (inp : StartIn)
  /-- R494: 10 ms after the POWER_SET completion, unused domains are powered down. -/
  | powerDownDomains
  /-- R510: PWR_FAIL_N low for 200 ns releases the line, commits the pantry and powers down. -/
  | pwrFail
  /-- R512: Every 10 µs the junction temperature is read and THERM_WARN judged. -/
  | thermalSample (junction vcore : BitVec 16)
  /-- R513: The junction stays at 125 °C for 1 ms and the engine shuts down. -/
  | thermalShutdown
  /-- R516: A control core's 100 ms watchdog lapses or it traps, and it halts. -/
  | coreHalt (core : Fin 4) (cause : BitVec 2)
  /-- R516: A supply rail leaves tolerance. -/
  | railWarn (rail : Fin 8) (high : Bool)
  /-- R504: A write of the key to PWR_SWRST schedules a soft reset. -/
  | pwrSwrstWrite (word : Word)
  /-- R504: 1 µs after the write, or after a flash operation ends, the engine resets. -/
  | softReset (inp : StartIn)
  /-- R528: Command 0xC0 opens an update session. -/
  | updOpen (hd : Hdr) (mode link slot : BitVec 8)
  /-- R529: Command 0xC1 programs the next piece of the image. -/
  | updWrite (hd : Hdr) (off len : BitVec 32) (addr : BitVec 64) (data : List Byte)
  /-- R530: Command 0xC2 checks the written image. -/
  | updVerify (hd : Hdr)
  /-- R531: Command 0xC3 sets a trial of a slot. -/
  | updActivate (hd : Hdr) (slot flags : BitVec 8) (inp : StartIn)
  /-- R533: Command 0xC4 supplies the host's confirmation of a trial. -/
  | updConfirm (hd : Hdr)
  /-- R528: Command 0xC5 ends the session. -/
  | updClose (hd : Hdr)
  /-- R540: Command 0xC6 returns the boot record and session state. -/
  | updQuery (hd : Hdr)
  /-- R531: 10 ms after the activate completion, the engine resets to start the trial. -/
  | updActivateReset (inp : StartIn)
  /-- R528: A session sees no write for UPD_SESSION_TO and ends. -/
  | updSessionTimeout
  /-- R533: All confirmation conditions hold and the trial slot becomes ACTIVE and GOOD. -/
  | trialConfirm
  /-- R534: CONFIRM_WINDOW passes unconfirmed and the fallback record is written. -/
  | trialExpired
  /-- R563: On each DUMP_PERIOD the counter bank is latched and written to the dump ring. -/
  | dumpLatch (desc : BitVec 256)
  /-- R565: A control-core instruction is sampled into the sample buffer. -/
  | sampleTake (core : Fin 4) (insn : BitVec 64) (addr latency : BitVec 32) (due trap : Bool)
  /-- R565: Once per second while samples are lost, SAMPLE_LOST is emitted. -/
  | sampleLost
  /-- R575: Every 600 s the pantry summary is written to the other copy and read back. -/
  | pantryCommit (readBack : List Bool)
  /-- R558: A write with GO feeds a test word to a checker or is refused. -/
  | chktestGo (word : Word)
  /-- R558: A checker test ends with a TEST record or CHK_DEAD. -/
  | chktestEnd (detected : Bool)
  /-- R561: A full write to PERF_WRAP_CLR clears every WRAP sticky bit. -/
  | perfWrapClrWrite (word : Word)
  /-- R562: A BAR2 access returns counters, or 0 and USER_DENIED while PERF_USER is 0. -/
  | bar2Access (off : Nat) (data : Option (List Byte)) (len : Nat)
  /-- R552: Command 0xD0 copies a block's history queue and fault counts. -/
  | histRead (hd : Hdr) (id : BitVec 8) (addr : BitVec 64)
  /-- R577: Command 0xD1 copies the pantry summary or log. -/
  | pantryRead (hd : Hdr) (part : BitVec 8) (first : BitVec 32) (addr : BitVec 64) (len : BitVec 32)
  /-- R563: Command 0xD2 latches a counter dump at once. -/
  | dumpNow (hd : Hdr) (desc : BitVec 256)
  /-- R565: Command 0xD3 starts instruction sampling. -/
  | sampleStart (hd : Hdr) (mask mode : BitVec 8) (period thresh : BitVec 32)
  /-- R565: Command 0xD4 stops instruction sampling. -/
  | sampleStop (hd : Hdr)
  /-- R463: A host read of a register is judged per 4-byte unit, returns data or 0/0xFFFF_FFFF, logs access records and sets an SQ register's read mark. -/
  | registerRead (addr len : Nat)
  /-- R186: A frequency output's period ends; its next rising edge is placed, gated, and restarted at the counter second in SECOND mode. -/
  | freqOutEdge (output : Fin 2)
  /-- R369: A unit holding ACTIVE_N reads the line high, stops acting at once and raises LINE_FAULT with cause 2. -/
  | activeNReadHigh
  /-- R443: A DMA read issued on PCIe returns its data, or an error, poisoned data or a timeout that ends the command ABORTED with DMA_ERR. -/
  | dmaReadCompletion (hd : Hdr) (slot : BitVec 6) (cause : BitVec 4)
  /-- R502: PWR_FAIL_N rises after POR_N was released while it was low, and the engine leaves reset and starts. -/
  | pwrFailNHigh
  /-- R513: After a thermal shutdown the boot ROM, held at step 4, sees the junction fall below 100 °C and continues the start. -/
  | bootThermalHoldEnd (junction : BitVec 16)
  deriving DecidableEq, Repr

end Sys2Proof
end

