-- ==== Sys2Proof/Decode.lean ====
section
/-! DEFINITION. The commands that a word spells by the opcode table's bits. No row of the table gives bits: a host
command is read from its 32-byte descriptor, by COMMAND_FETCH, and its arguments stand in the command itself. -/
namespace Sys2Proof

/-- The command of a table word: the table gives no row any bits. -/
def decodeTableWord (_nbits _w : Nat) : Option Instr := none

end Sys2Proof
end

