-- ==== Sys2Proof/Config.lean ====
section
/-! DEFINITION. What an implementation fixes and what the spec leaves open: opaque constants without a body, so that
no proof can see a value of them. Each names its entry of the assumption log. -/
namespace Sys2Proof.Config

/-- IDENTITY, programmed into OTP at manufacture (R605; entry 5). -/
opaque identity : BitVec 64

/-- A value the spec leaves open, by the draw counter `freeCtr` of the state (entry 2). -/
opaque freeNat : Nat → Nat

opaque freeInt : Nat → Int

/-- What the DRBG draws at a draw, as a number of any width (R397, R408; entry 17). -/
opaque random : Nat → Nat

/-- The public keys of R523, by key index: the ECDSA P-384 verdict over an image's signed bytes (entry 19). -/
opaque imageSigOk : Nat → List Byte → Bool

/-- The synthetic IV of AEAD 15 (RFC 5297) or the tag of AEAD 30 (RFC 8452) over associated data, nonce and plaintext
    (R223, R225; entry 19). -/
opaque sivTag (aead key : Nat) (ad nonce plain : List Byte) : BitVec 128

/-- The key stream of those AEADs under a tag, as a number of any width (entry 19). -/
opaque sivStream (aead key : Nat) (nonce : List Byte) (tag : BitVec 128) : Nat

/-- The keyed 64-bit hash of the rate limiter, and the hash of R268 with key 0 (R238; entry 19). -/
opaque hash64 (key value : Nat) : BitVec 64

/-- The ICV of a PTP message: HMAC-SHA256-128, or AES-CMAC-128 where `cmac` (R269, R271; entry 19). -/
opaque icv (cmac : Bool) (key : Nat) (msg : PtpMsg) : BitVec 128

/-- HKDF-SHA-256 of input keying material, salt and info, of a length in bytes (R370, R398, R399; entry 19). -/
opaque hkdf (ikm : Nat) (salt info : List Byte) (bytes : Nat) : Nat

/-- The x-coordinate of the ECDH P-384 shared point (R370, R399; entry 19). -/
opaque ecdh (priv pub : Nat) : Nat

/-- The P-384 public key of a private scalar, uncompressed, 97 bytes as a number (R370, R420; entry 19). -/
opaque p384Pub (priv : Nat) : Nat

/-- An ECDSA P-384 signature of a digest, with the randomness drawn for it (R404, R420; entry 19). -/
opaque p384Sign (priv digest rand : Nat) : Nat

/-- Whether a signature of a digest is valid under a public key (R370; entry 19). -/
opaque p384Verify (pub digest sig : Nat) : Bool

/-- SHA-384 of bytes (R370, R404; entry 19). -/
opaque sha384 (data : List Byte) : Nat

/-- The SP 800-108 counter-mode KDF with AES-CMAC: key, context or label and context, output bytes (R393, R398; entry 19). -/
opaque kdf108 (key : Nat) (context : List Byte) (bytes : Nat) : Nat

/-- AES-CMAC of a message under a key of a length in bits, for key check values (R370, R405, R420; entry 19). -/
opaque cmac (key bits : Nat) (data : List Byte) : BitVec 128

/-- HMAC-SHA-256 of a message under a key of a length in bits, for the check values of longer keys (R405; entry 19). -/
opaque hmac (key bits : Nat) (data : List Byte) : BitVec 256

/-- The payload of a Colol frame that the chapters lay out no further, as a number, and the SUB of a frame to which they give
    none (R345, R370, R373, R379, R454; entry 83). -/
opaque linkPayload : LinkBody → Nat

opaque linkSub : LinkBody → BitVec 8

/-- Identification and DF bit, or flow label, of an IP header that the engine builds (entry 83). -/
opaque ipIdent : Nat → BitVec 20

/-- The messageType that a REQUEST named outside those of R265, as the answer to it gives it back (entry 83). -/
opaque otherKind : BitVec 4

/-- The servo's gains at a bandwidth in µHz, in units of W per 2^-16 ns of phase, scaled by 2^32: the proportional and
    the integral gain of the type-2 phase loop, and the gain in W per ppt with which W follows a slot's frequency
    (R97, R98; entry 10). -/
opaque servoP : Nat → Int

opaque servoI : Nat → Int

opaque servoF : Nat → Int

/-- The power of one hypothesis of a search (R139; entry 15): signal, SV, samples as I and Q, sample rate, frequency of
    the signal in the samples in 2^-8 Hz, T_coh in ms, N_nc, code phase in n_s per chip. -/
opaque corr (signal sv : Nat) (iq : List (Int × Int)) (rate : Nat) (freq : Int) (tCoh nNc phase : Nat) : Nat

/-- The step of the carrier loop's frequency in 2^-8 Hz that a prompt correlator gives: the frequency loop of PULL_IN, a
    Costas loop or a pure phase loop, at a bandwidth in Hz (R147; entry 15). -/
opaque freqLoop (bw : Nat) (prompt : Int × Int) : Int

opaque carrierLoop (costas : Bool) (bw : Nat) (prompt : Int × Int) : Int

/-- The step of the code loop in 2^-32 ms, beyond the carrier's aid: bandwidth in 0.05 Hz, early-late spacing in 1/10
    chip, the early and the late correlator (R147; entry 15). -/
opaque codeLoop (bw spacing : Nat) (early late : Int × Int) : Int

/-- The elevation in 1/1000 degree that a parameter set predicts at a position in mm and a second (R143; entry 15). -/
opaque elevation (data : Nat) (x y z : Int) (sec : Nat) : Int

/-- The transmit time in 2^-32 ms of the system's week that an ephemeris, a position and a time in ns predict (R146;
    entry 15). -/
opaque predictTx (data : Nat) (x y z : Int) (ns : Nat) : Nat

/-- The sine of an elevation in 1/1000 degree, and 10^((C/N0 - 40) / 10) for a C/N0 in 0.01 dB-Hz below 40 dB-Hz, both in
    2^-16 (R162; entry 15). -/
opaque sine (mdeg : Nat) : Nat

opaque cnPower (cn0 : Nat) : Nat

/-- The chi-square threshold in 1/1000 for degrees of freedom at the probability 10^-PFA (R162; entry 15). -/
opaque chi2 (dof pfa : Nat) : Nat

end Sys2Proof.Config
end

