-- ==== Sys2Proof/Machine/Bits.lean ====
section
/-! DEFINITION. Bit fields, signed readings, byte orders, rounding, the canonical sorted lists and CRC-32 that every
block uses (00_scope.md R5 to R7). -/
namespace Sys2Proof.Machine

/-- Bits [hi:lo] of a word given as a number (R5). -/
def fld (w hi lo : Nat) : Nat := (w >>> lo) % 2 ^ (hi + 1 - lo)

/-- The signed value of the low `n` bits. -/
def sInt (n w : Nat) : Int :=
  let v := w % 2 ^ n
  if v < 2 ^ (n - 1) then (v : Int) else (v : Int) - (2 ^ n : Nat)

/-- The low `n` bits of a signed value, two's complement. -/
def uInt (n : Nat) (i : Int) : Nat := (i % ((2 ^ n : Nat) : Int)).toNat

/-- Saturation of a signed value at `n` bits, as `n` bits. -/
def satInt (n : Nat) (i : Int) : Nat :=
  let m : Int := ((2 ^ (n - 1) : Nat) : Int)
  uInt n (if i < -m then -m else if m ≤ i then m - 1 else i)

/-- The nearest end of a range (R607). -/
def clampN (lo hi v : Nat) : Nat := if v < lo then lo else if hi < v then hi else v

def clampI (lo hi v : Int) : Int := if v < lo then lo else if hi < v then hi else v

/-- Saturation at 32 bits. -/
def sat32 (n : Nat) : Nat := min n 0xFFFFFFFF

/-- Division rounded up. -/
def ceilDiv (a b : Nat) : Nat := (a + b - 1) / b

def ceilDivI (a : Int) (b : Nat) : Int := -((-a) / (b : Int))

/-- Division rounded to the nearest, half away from zero (R340). Log entry 12. -/
def roundDiv (a : Int) (b : Nat) : Int :=
  if 0 ≤ a then (2 * a + b) / (2 * b : Nat) else -((2 * (-a) + b) / (2 * b : Nat))

/-- Fields placed at byte offsets of a little-endian record (R6), as one number. -/
def pack : List (Nat × Nat) → Nat
  | [] => 0
  | (o, v) :: r => v * 2 ^ (8 * o) + pack r

/-- The `n` bytes of a number, least significant first (R6). -/
def leBytes : Nat → Nat → List Byte
  | 0, _ => []
  | n + 1, v => BitVec.ofNat 8 v :: leBytes n (v / 256)

/-- The number that bytes spell, least significant first. -/
def leNat : List Byte → Nat
  | [] => 0
  | b :: r => b.toNat + 256 * leNat r

/-- The number that bytes spell, most significant first (fields on the wire, R6). -/
def beNat (l : List Byte) : Nat := l.foldl (fun a b => 256 * a + b.toNat) 0

def beBytes (n v : Nat) : List Byte := (leBytes n v).reverse

/-- `n` bytes at offset `o`. -/
def slice (l : List Byte) (o n : Nat) : List Byte := (l.drop o).take n

/-- The little-endian number at offset `o`. -/
def leAt (l : List Byte) (o n : Nat) : Nat := leNat (slice l o n)

def beAt (l : List Byte) (o n : Nat) : Nat := beNat (slice l o n)

/-- A canonical list of (key, value) pairs: the value at a key, `d` where no entry is. -/
def aget {α : Type} (d : α) : List (Nat × α) → Nat → α
  | [], _ => d
  | (k, v) :: r, x => if k = x then v else aget d r x

/-- Writes a value at a key of a list with rising keys; the value `d` of an unlisted key removes the entry. -/
def aset {α : Type} [DecidableEq α] (d : α) : List (Nat × α) → Nat → α → List (Nat × α)
  | [], x, a => if a = d then [] else [(x, a)]
  | (k, v) :: r, x, a =>
    if x < k then (if a = d then (k, v) :: r else (x, a) :: (k, v) :: r)
    else if x = k then (if a = d then r else (x, a) :: r)
    else (k, v) :: aset d r x a

/-- Keys strictly rising and above a floor, no value equal to what an unlisted key reads as. -/
def awfFrom {α : Type} [DecidableEq α] (d : Nat → α) : Option Nat → List (Nat × α) → Bool
  | _, [] => true
  | lo, (k, v) :: r => (match lo with | none => true | some b => b < k) && v != d k && awfFrom d (some k) r

/-- The canonical form of a sorted list. -/
def awf {α : Type} [DecidableEq α] (d : Nat → α) (l : List (Nat × α)) : Bool := awfFrom d none l

/-- One step of CRC-32, IEEE 802.3 polynomial, reflected. -/
def crcBit (c : Nat) : Nat := if c % 2 = 1 then (c / 2) ^^^ 0xEDB88320 else c / 2

def crcByte (c : Nat) (b : Byte) : Nat :=
  crcBit (crcBit (crcBit (crcBit (crcBit (crcBit (crcBit (crcBit (c ^^^ b.toNat))))))))

/-- CRC-32, IEEE 802.3 polynomial, over bytes (R328, R525, R568). -/
def crc32 (l : List Byte) : Nat := (l.foldl crcByte 0xFFFFFFFF) ^^^ 0xFFFFFFFF

/-- Durations in TIME ticks of 2 ns (R11). Log entry 1. -/
def ticksUs (n : Nat) : Nat := 500 * n
def ticksMs (n : Nat) : Nat := 500000 * n
def ticksS (n : Nat) : Nat := 500000000 * n

/-- Element `i` of a list of natural numbers, 0 beyond its end. -/
def nth (l : List Nat) (i : Nat) : Nat := l.getD i 0

/-- Reading and writing a vector at an index given as a number; an index outside it reads the default and writes
    nothing. -/
def vget {α : Type} {n : Nat} (v : Vector α n) (d : α) (i : Nat) : α := if h : i < n then v[i] else d

def vset {α : Type} {n : Nat} (v : Vector α n) (i : Nat) (a : α) : Vector α n := if h : i < n then v.set i a else v

def vmod {α : Type} {n : Nat} (v : Vector α n) (i : Nat) (f : α → α) : Vector α n :=
  if h : i < n then v.set i (f v[i]) else v

/-- Bit `i` of a mask as a truth value. -/
def hasBit (m i : Nat) : Bool := m.testBit i

/-- A flag as a number at bit `i`. -/
def flag (b : Bool) (i : Nat) : Nat := if b then 2 ^ i else 0

end Sys2Proof.Machine
end

