-- ==== Sys2Proof/Machine/RegTable.lean ====
section
/-! DEFINITION. The stored registers and indirect words: offsets, reset values, writable fields, range rules, guard and
lock marks, from the register tables of the chapters (R460, R607). -/
namespace Sys2Proof.Machine

/-- What a field stores of a value written (R607): any value, the nearest end of a range, signed or not, 0 for a value
    above a limit, 0 or the nearest end of a range, or 0 below a range
    and its upper end above; one of some values or else a fixed one. -/
inductive Rule where
  | any
  | rng (lo hi : Nat)
  | srng (lo hi : Int)
  | top (m : Nat)
  | zeroOr (lo hi : Nat)
  | lowZero (lo hi : Nat)
  | oneOf (l : List Nat) (d : Nat)
  deriving DecidableEq, Repr

/-- A writable field [hi:lo]. -/
structure Fd where
  hi : Nat
  lo : Nat
  rule : Rule
  deriving DecidableEq, Repr

/-- A stored word: its reset value, its writable fields, whether it is guarded (G) and lockable (LK). -/
structure WordDef where
  reset : Nat
  flds : List Fd
  guarded : Bool
  lk : Bool
  deriving DecidableEq, Repr

/-- The value a field of `n` bits stores. -/
def Rule.store (r : Rule) (n v : Nat) : Nat :=
  match r with
  | .any => v
  | .rng lo hi => clampN lo hi v
  | .srng lo hi => uInt n (clampI lo hi (sInt n v))
  | .top m => if m < v then 0 else v
  | .zeroOr lo hi => if v < lo then (if 2 * v < lo then 0 else lo) else if hi < v then hi else v
  | .lowZero lo hi => if v < lo then 0 else min v hi
  | .oneOf l d => if l.contains v then v else d

/-- The word stored when `v` is written (R607): each field by its rule, every other bit 0. -/
def WordDef.store (d : WordDef) (v : Word) : Word :=
  BitVec.ofNat 32 ((d.flds.map fun f => f.rule.store (f.hi + 1 - f.lo) (fld v.toNat f.hi f.lo) * 2 ^ f.lo).foldl (· + ·) 0)

/-- Block identifiers (R9). -/
def Blk.id : Blk → Nat
  | .glb => 1 | .clk => 2 | .pwr => 3 | .tco => 4 | .refs => 5 | .gbb => 6 | .tio => 7 | .svc => 8 | .ptp => 9
  | .eth => 10 | .lnk => 11 | .pair => 12 | .key => 13 | .hif => 14 | .upd => 15 | .perf => 16 | .pan => 17
  | .ctl => 18 | .mem => 19

/-- The block of an identifier. -/
def blkOf : Nat → Option Blk
  | 1 => some .glb | 2 => some .clk | 3 => some .pwr | 4 => some .tco | 5 => some .refs | 6 => some .gbb
  | 7 => some .tio | 8 => some .svc | 9 => some .ptp | 10 => some .eth | 11 => some .lnk | 12 => some .pair
  | 13 => some .key | 14 => some .hif | 15 => some .upd | 16 => some .perf | 17 => some .pan | 18 => some .ctl
  | 19 => some .mem | _ => none

/-- The base of a block's region (R483). -/
def blkBase (b : Blk) : Nat := Blk.id b * 0x10000

/-- The key under which an indirect word is stored. -/
def indKey (b : Blk) (space idx : Nat) : Nat := 2 ^ 40 + Blk.id b * 2 ^ 32 + space * 2 ^ 24 + idx

/-! Register offsets in BAR0. -/
abbrev Rg.glbId : Nat := 0x10000
abbrev Rg.glbStatus : Nat := 0x10004
abbrev Rg.glbStraps : Nat := 0x10008
abbrev Rg.glbLock : Nat := 0x1000c
abbrev Rg.glbTestKey : Nat := 0x10010
abbrev Rg.glbState : Nat := 0x10014
abbrev Rg.glbVendor : Nat := 0x10018
abbrev Rg.glbMbxSel : Nat := 0x10040
abbrev Rg.glbMbxCtrl : Nat := 0x10044
abbrev Rg.glbMbxAck : Nat := 0x10048
abbrev Rg.glbMbxData0 : Nat := 0x10050
abbrev Rg.clkStatus : Nat := 0x20004
abbrev Rg.clkState : Nat := 0x20008
abbrev Rg.pwrCtrl : Nat := 0x30000
abbrev Rg.pwrStatus : Nat := 0x30004
abbrev Rg.pwrState : Nat := 0x30008
abbrev Rg.pwrTemp : Nat := 0x3000c
abbrev Rg.pwrRail : Nat := 0x30010
abbrev Rg.pwrResetCause : Nat := 0x30014
abbrev Rg.pwrSwrst : Nat := 0x30018
abbrev Rg.tcoCtrl : Nat := 0x40000
abbrev Rg.tcoStatus : Nat := 0x40004
abbrev Rg.tcoState : Nat := 0x40008
abbrev Rg.tcoTeb : Nat := 0x4000c
abbrev Rg.tcoTebTarget : Nat := 0x40010
abbrev Rg.tcoTebLimit : Nat := 0x40014
abbrev Rg.tcoDwell : Nat := 0x40018
abbrev Rg.tcoSlewMax : Nat := 0x4001c
abbrev Rg.tcoOscF : Nat := 0x40020
abbrev Rg.tcoOscA : Nat := 0x40024
abbrev Rg.tcoOscT : Nat := 0x40028
abbrev Rg.tcoFassistF : Nat := 0x4002c
abbrev Rg.tcoTemp : Nat := 0x40030
abbrev Rg.tcoUtc : Nat := 0x40034
abbrev Rg.tcoLeapAt : Nat := 0x40038
abbrev Rg.refsCtrl : Nat := 0x50000
abbrev Rg.refsStatus : Nat := 0x50004
abbrev Rg.refsSel : Nat := 0x50008
abbrev Rg.refsQual : Nat := 0x5000c
abbrev Rg.refsMarks : Nat := 0x50010
abbrev Rg.refsQualTime : Nat := 0x50014
abbrev Rg.refsWtrTime : Nat := 0x50018
abbrev Rg.refsStepLimit : Nat := 0x5001c
abbrev Rg.refsHoldAvg : Nat := 0x50020
abbrev Rg.refsSettle : Nat := 0x50024
abbrev Rg.refsSteerCtrl : Nat := 0x50028
abbrev Rg.refsSteerPeriod : Nat := 0x5002c
abbrev Rg.refsOscGain : Nat := 0x50030
abbrev Rg.refsSteerMax : Nat := 0x50034
abbrev Rg.refsCode : Nat := 0x50038
abbrev Rg.refsCode0 : Nat := 0x5003c
abbrev Rg.refsDacCfg : Nat := 0x50040
abbrev Rg.refsDacPrefix : Nat := 0x50044
abbrev Rg.refsUartCfg : Nat := 0x50048
abbrev Rg.refsUartVmax : Nat := 0x5004c
abbrev Rg.refsUartReplyTo : Nat := 0x50050
abbrev Rg.refsAgeWin : Nat := 0x50054
abbrev Rg.refsAgeHost : Nat := 0x50058
abbrev Rg.refsLoopBw : Nat := 0x5005c
abbrev Rg.gbbCtrl : Nat := 0x60000
abbrev Rg.gbbStatus : Nat := 0x60004
abbrev Rg.gbbChanSum : Nat := 0x60008
abbrev Rg.gbbPortCfg0 : Nat := 0x60010
abbrev Rg.gbbPortStat0 : Nat := 0x60020
abbrev Rg.gbbGrpCfg0 : Nat := 0x60030
abbrev Rg.gbbGrpStat0 : Nat := 0x60038
abbrev Rg.gbbWnFloor : Nat := 0x60040
abbrev Rg.gbbSurveyMin : Nat := 0x60044
abbrev Rg.gbbSurveyMax : Nat := 0x60048
abbrev Rg.gbbSurveyAcc : Nat := 0x6004c
abbrev Rg.gbbKb : Nat := 0x60050
abbrev Rg.gbbFde : Nat := 0x60054
abbrev Rg.gbbTrack : Nat := 0x60058
abbrev Rg.tioCtrl : Nat := 0x70000
abbrev Rg.tioStatus : Nat := 0x70004
abbrev Rg.tioCapWm : Nat := 0x70008
abbrev Rg.tioQdepth : Nat := 0x7000c
abbrev Rg.tioDrop : Nat := 0x70010
abbrev Rg.tioArmed : Nat := 0x70014
abbrev Rg.svcCtrl : Nat := 0x80000
abbrev Rg.svcStatus : Nat := 0x80004
abbrev Rg.svcPolicy : Nat := 0x80008
abbrev Rg.svcStratum : Nat := 0x8000c
abbrev Rg.svcRootdelay : Nat := 0x80010
abbrev Rg.svcRootdispAdd : Nat := 0x80014
abbrev Rg.svcLeapWarn : Nat := 0x80018
abbrev Rg.svcRlCfg : Nat := 0x8001c
abbrev Rg.svcKodMax : Nat := 0x80020
abbrev Rg.svcKeyCur : Nat := 0x80024
abbrev Rg.svcKeyCurId : Nat := 0x80028
abbrev Rg.ptpCtrl : Nat := 0x90000
abbrev Rg.ptpStatus : Nat := 0x90004
abbrev Rg.ptpTebOui : Nat := 0x90008
abbrev Rg.ptpTebSubtype : Nat := 0x9000c
abbrev Rg.ptpNegRate : Nat := 0x90010
abbrev Rg.ptpLeapWarn : Nat := 0x90014
abbrev Rg.ptpGrantMax : Nat := 0x90018
abbrev Rg.ptpGrants : Nat := 0x9001c
abbrev Rg.ethCtrl : Nat := 0xa0000
abbrev Rg.ethStatus : Nat := 0xa0004
abbrev Rg.ethStatSel : Nat := 0xa0008
abbrev Rg.ethTxtsLast : Nat := 0xa000c
abbrev Rg.ethLink : Nat := 0xa0010
abbrev Rg.ethSbCfg : Nat := 0xa0018
abbrev Rg.ethWakeCtrl : Nat := 0xa0020
abbrev Rg.ethWakeCause : Nat := 0xa0024
abbrev Rg.lnkCtrl : Nat := 0xb0000
abbrev Rg.lnkStatus : Nat := 0xb0004
abbrev Rg.lnkNodeCfg : Nat := 0xb0008
abbrev Rg.lnkNode : Nat := 0xb000c
abbrev Rg.lnkState : Nat := 0xb0010
abbrev Rg.lnkDeadTo : Nat := 0xb0014
abbrev Rg.lnkErrLimit : Nat := 0xb0018
abbrev Rg.lnkDelayStep : Nat := 0xb001c
abbrev Rg.pairCtrl : Nat := 0xc0000
abbrev Rg.pairStatus : Nat := 0xc0004
abbrev Rg.pairState : Nat := 0xc0008
abbrev Rg.pairHbPeriod : Nat := 0xc000c
abbrev Rg.pairSwapPeriod : Nat := 0xc0010
abbrev Rg.pairWtrTime : Nat := 0xc0014
abbrev Rg.pairTebMargin : Nat := 0xc0018
abbrev Rg.pairKeySlot : Nat := 0xc001c
abbrev Rg.pairSwaps : Nat := 0xc0020
abbrev Rg.keyCtrl : Nat := 0xd0000
abbrev Rg.keyStatus : Nat := 0xd0004
abbrev Rg.keyState : Nat := 0xd0008
abbrev Rg.keyRollback : Nat := 0xd000c
abbrev Rg.keyTamperEn : Nat := 0xd0010
abbrev Rg.keyTamperLatch : Nat := 0xd0014
abbrev Rg.keyTamperCfg : Nat := 0xd0018
abbrev Rg.keyProvCount : Nat := 0xd001c
abbrev Rg.hifCtrl : Nat := 0xe0000
abbrev Rg.hifStatus : Nat := 0xe0004
abbrev Rg.hifLink : Nat := 0xe0008
abbrev Rg.hifWinSel : Nat := 0xe000c
abbrev Rg.hifSlotsLo : Nat := 0xe0010
abbrev Rg.hifSlotsHi : Nat := 0xe0014
abbrev Rg.updCtrl : Nat := 0xf0000
abbrev Rg.updStatus : Nat := 0xf0004
abbrev Rg.updState : Nat := 0xf0008
abbrev Rg.updConfirmWin : Nat := 0xf000c
abbrev Rg.updSessionTo : Nat := 0xf0010
abbrev Rg.updRecSeq : Nat := 0xf0014
abbrev Rg.perfCtrl : Nat := 0x100000
abbrev Rg.perfStatus : Nat := 0x100004
abbrev Rg.perfWrapClr : Nat := 0x100008
abbrev Rg.perfSample : Nat := 0x10000c
abbrev Rg.perfDumpSeq : Nat := 0x100010
abbrev Rg.panStatus : Nat := 0x110004
abbrev Rg.panCseq : Nat := 0x110008
abbrev Rg.panLog : Nat := 0x11000c
abbrev Rg.ctlStatus : Nat := 0x120004
abbrev Rg.ctlCores : Nat := 0x120008
abbrev Rg.ctlFw : Nat := 0x12000c
abbrev Rg.memStatus : Nat := 0x130004
abbrev Rg.memScrub : Nat := 0x130008
abbrev Rg.memFltChktest : Nat := 0x130010

/-- Blocks that have IND_ADDR, IND_DATA and IND_CTRL (R472). -/
def hasInd : Blk → Bool
  | .tco | .refs | .gbb | .tio | .svc | .ptp | .eth | .lnk | .key | .hif | .perf => true
  | _ => false

/-- Every direct register's offset (R483 to R487 and the chapters' tables). -/
def regOffsets : List Nat :=
  [0x10000, 0x10004, 0x10008, 0x1000c, 0x10010, 0x10014, 0x10018, 0x10040, 0x10044, 0x10048, 0x10050, 0x10054, 0x10058, 0x1005c, 0x20004, 0x20008, 0x30000, 0x30004, 0x30008, 0x3000c, 0x30010, 0x30014, 0x30018, 0x40000] ++
  [0x40004, 0x40008, 0x4000c, 0x40010, 0x40014, 0x40018, 0x4001c, 0x40020, 0x40024, 0x40028, 0x4002c, 0x40030, 0x40034, 0x40038, 0x50000, 0x50004, 0x50008, 0x5000c, 0x50010, 0x50014, 0x50018, 0x5001c, 0x50020, 0x50024] ++
  [0x50028, 0x5002c, 0x50030, 0x50034, 0x50038, 0x5003c, 0x50040, 0x50044, 0x50048, 0x5004c, 0x50050, 0x50054, 0x50058, 0x5005c, 0x60000, 0x60004, 0x60008, 0x60010, 0x60014, 0x60018, 0x6001c, 0x60020, 0x60024, 0x60028] ++
  [0x6002c, 0x60030, 0x60034, 0x60038, 0x6003c, 0x60040, 0x60044, 0x60048, 0x6004c, 0x60050, 0x60054, 0x60058, 0x70000, 0x70004, 0x70008, 0x7000c, 0x70010, 0x70014, 0x80000, 0x80004, 0x80008, 0x8000c, 0x80010, 0x80014] ++
  [0x80018, 0x8001c, 0x80020, 0x80024, 0x80028, 0x90000, 0x90004, 0x90008, 0x9000c, 0x90010, 0x90014, 0x90018, 0x9001c, 0xa0000, 0xa0004, 0xa0008, 0xa000c, 0xa0010, 0xa0018, 0xa0020, 0xa0024, 0xb0000, 0xb0004, 0xb0008] ++
  [0xb000c, 0xb0010, 0xb0014, 0xb0018, 0xb001c, 0xc0000, 0xc0004, 0xc0008, 0xc000c, 0xc0010, 0xc0014, 0xc0018, 0xc001c, 0xc0020, 0xd0000, 0xd0004, 0xd0008, 0xd000c, 0xd0010, 0xd0014, 0xd0018, 0xd001c, 0xe0000, 0xe0004] ++
  [0xe0008, 0xe000c, 0xe0010, 0xe0014, 0xf0000, 0xf0004, 0xf0008, 0xf000c, 0xf0010, 0xf0014, 0x100000, 0x100004, 0x100008, 0x10000c, 0x100010, 0x110004, 0x110008, 0x11000c, 0x120004, 0x120008, 0x12000c, 0x130004, 0x130008, 0x130010]

/-- Stored registers of GLB. -/
def storedGlb : List (Nat × WordDef) :=
  [
  (0x10040, ⟨0x0, [⟨15, 0, .any⟩], false, false⟩)
  ]

/-- Stored registers of PWR. -/
def storedPwr : List (Nat × WordDef) :=
  [
  (0x30000, ⟨0x6e00, [⟨15, 8, .rng 60 115⟩], false, false⟩)
  ]

/-- Stored registers of TCO. -/
def storedTco : List (Nat × WordDef) :=
  [
  (0x40000, ⟨0x4, [⟨2, 2, .any⟩, ⟨1, 1, .any⟩, ⟨0, 0, .any⟩], true, false⟩),
  (0x40010, ⟨0x640, [⟨31, 0, .any⟩], true, false⟩),
  (0x40014, ⟨0x27100, [⟨31, 0, .any⟩], true, false⟩),
  (0x40018, ⟨0x3e8, [⟨31, 0, .rng 0 60000⟩], false, false⟩),
  (0x4001c, ⟨0x2710, [⟨31, 0, .rng 1 500000⟩], true, false⟩),
  (0x40020, ⟨0x0, [⟨31, 0, .any⟩], true, false⟩),
  (0x40024, ⟨0x0, [⟨31, 0, .any⟩], true, false⟩),
  (0x40028, ⟨0x0, [⟨31, 0, .any⟩], true, false⟩),
  (0x4002c, ⟨0x2710, [⟨31, 0, .any⟩], true, false⟩)
  ]

/-- Stored registers of REFS. -/
def storedRefs : List (Nat × WordDef) :=
  [
  (0x50000, ⟨0xa, [⟨4, 3, .any⟩, ⟨2, 2, .any⟩, ⟨1, 1, .any⟩, ⟨0, 0, .any⟩], true, false⟩),
  (0x50014, ⟨0xa, [⟨31, 0, .rng 1 3600⟩], false, false⟩),
  (0x50018, ⟨0x12c, [⟨31, 0, .rng 0 86400⟩], false, false⟩),
  (0x5001c, ⟨0x3e8, [⟨31, 0, .rng 0 1000000000⟩], true, false⟩),
  (0x50020, ⟨0x1e, [⟨31, 0, .rng 1 3600⟩], false, false⟩),
  (0x50024, ⟨0xa, [⟨31, 0, .rng 1 600⟩], false, false⟩),
  (0x50028, ⟨0x1000, [⟨15, 8, .any⟩, ⟨2, 2, .any⟩, ⟨1, 0, .any⟩], true, false⟩),
  (0x5002c, ⟨0xa, [⟨31, 0, .rng 1 3600⟩], false, false⟩),
  (0x50030, ⟨0x0, [⟨31, 0, .any⟩], true, false⟩),
  (0x50034, ⟨0xf4240, [⟨31, 0, .any⟩], true, false⟩),
  (0x5003c, ⟨0x0, [⟨31, 0, .any⟩], true, false⟩),
  (0x50040, ⟨0x3001814, [⟨27, 24, .any⟩, ⟨20, 16, .any⟩, ⟨13, 8, .rng 16 32⟩, ⟨7, 6, .any⟩, ⟨5, 5, .any⟩, ⟨4, 0, .rng 8 20⟩], true, false⟩),
  (0x50044, ⟨0x0, [⟨31, 0, .any⟩], true, false⟩),
  (0x50048, ⟨0x2580, [⟨25, 24, .rng 0 2⟩, ⟨23, 0, .rng 1200 921600⟩], true, false⟩),
  (0x5004c, ⟨0x7fffffff, [⟨31, 0, .any⟩], true, false⟩),
  (0x50050, ⟨0xc8, [⟨31, 0, .rng 1 2000⟩], false, false⟩),
  (0x50054, ⟨0x7, [⟨31, 0, .rng 1 30⟩], false, false⟩),
  (0x50058, ⟨0x0, [⟨31, 0, .any⟩], false, false⟩),
  (0x5005c, ⟨0x2710, [⟨31, 0, .rng 100 1000000⟩], true, false⟩)
  ]

/-- Stored registers of GBB. Log entry 61. -/
def storedGbb : List (Nat × WordDef) :=
  [
  (0x60000, ⟨0x2, [⟨5, 4, .any⟩, ⟨3, 2, .any⟩, ⟨1, 1, .any⟩, ⟨0, 0, .any⟩], true, false⟩),
  (0x60010, ⟨0x0, [⟨4, 4, .any⟩, ⟨3, 3, .any⟩, ⟨2, 2, .any⟩, ⟨1, 1, .any⟩, ⟨0, 0, .any⟩], true, false⟩),
  (0x60014, ⟨0x0, [⟨4, 4, .any⟩, ⟨3, 3, .any⟩, ⟨2, 2, .any⟩, ⟨1, 1, .any⟩, ⟨0, 0, .any⟩], true, false⟩),
  (0x60018, ⟨0x0, [⟨4, 4, .any⟩, ⟨3, 3, .any⟩, ⟨2, 2, .any⟩, ⟨1, 1, .any⟩, ⟨0, 0, .any⟩], true, false⟩),
  (0x6001c, ⟨0x0, [⟨4, 4, .any⟩, ⟨3, 3, .any⟩, ⟨2, 2, .any⟩, ⟨1, 1, .any⟩, ⟨0, 0, .any⟩], true, false⟩),
  (0x60030, ⟨0x1e0a1f00, [⟨31, 24, .any⟩, ⟨23, 16, .rng 0 60⟩, ⟨15, 14, .any⟩, ⟨13, 13, .any⟩, ⟨12, 8, .any⟩, ⟨0, 0, .any⟩], true, false⟩),
  (0x60034, ⟨0x1e0a1f00, [⟨31, 24, .any⟩, ⟨23, 16, .rng 0 60⟩, ⟨15, 14, .any⟩, ⟨13, 13, .any⟩, ⟨12, 8, .any⟩, ⟨0, 0, .any⟩], true, false⟩),
  (0x60040, ⟨0x928, [⟨31, 0, .any⟩], false, false⟩),
  (0x60044, ⟨0xe10, [⟨31, 0, .rng 600 604800⟩], false, false⟩),
  (0x60048, ⟨0x15180, [⟨31, 0, .rng 600 604800⟩], false, false⟩),
  (0x6004c, ⟨0x12c, [⟨31, 0, .rng 10 10000⟩], false, false⟩),
  (0x60050, ⟨0x60, [⟨31, 0, .rng 48 240⟩], true, false⟩),
  (0x60054, ⟨0x12c0206, [⟨31, 16, .any⟩, ⟨10, 8, .rng 0 4⟩, ⟨3, 0, .rng 4 9⟩], false, false⟩),
  (0x60058, ⟨0xa0a0f18, [⟨31, 24, .rng 1 255⟩, ⟨23, 16, .rng 1 100⟩, ⟨15, 8, .rng 2 30⟩, ⟨7, 0, .rng 15 40⟩], false, false⟩)
  ]

/-- Stored registers of TIO. -/
def storedTio : List (Nat × WordDef) :=
  [
  (0x70000, ⟨0x0, [⟨2, 2, .any⟩, ⟨1, 1, .any⟩, ⟨0, 0, .any⟩], true, false⟩),
  (0x70008, ⟨0x100, [⟨31, 0, .rng 1 512⟩], false, false⟩)
  ]

/-- Stored registers of SVC. -/
def storedSvc : List (Nat × WordDef) :=
  [
  (0x80000, ⟨0x0, [⟨6, 6, .any⟩, ⟨5, 5, .any⟩, ⟨4, 4, .any⟩, ⟨3, 3, .any⟩, ⟨2, 2, .any⟩, ⟨1, 1, .any⟩, ⟨0, 0, .any⟩], true, false⟩),
  (0x80008, ⟨0x0, [⟨9, 9, .any⟩, ⟨8, 8, .any⟩, ⟨7, 6, .top 2⟩, ⟨5, 4, .top 2⟩, ⟨3, 2, .top 1⟩, ⟨1, 0, .top 1⟩], true, false⟩),
  (0x8000c, ⟨0x400101, [⟨23, 16, .rng 1 255⟩, ⟨15, 8, .rng 1 15⟩, ⟨7, 0, .rng 1 15⟩], false, false⟩),
  (0x80010, ⟨0x0, [⟨31, 0, .any⟩], false, false⟩),
  (0x80014, ⟨0x0, [⟨31, 0, .any⟩], false, false⟩),
  (0x80018, ⟨0x15180, [⟨31, 0, .rng 0 2678400⟩], false, false⟩),
  (0x8001c, ⟨0x40200230, [⟨31, 24, .rng 16 128⟩, ⟨21, 16, .rng 8 32⟩, ⟨10, 8, .rng 0 6⟩, ⟨5, 0, .rng 2 63⟩], false, false⟩),
  (0x80020, ⟨0x989680, [⟨31, 0, .rng 0 64000000⟩], false, false⟩)
  ]

/-- Stored registers of PTP. -/
def storedPtp : List (Nat × WordDef) :=
  [
  (0x90000, ⟨0x8, [⟨3, 2, .any⟩, ⟨1, 1, .any⟩, ⟨0, 0, .any⟩], true, false⟩),
  (0x90008, ⟨0x0, [⟨23, 0, .any⟩], true, false⟩),
  (0x9000c, ⟨0x0, [⟨23, 0, .any⟩], true, false⟩),
  (0x90010, ⟨0x186a0, [⟨31, 0, .rng 1000 1000000⟩], false, false⟩),
  (0x90014, ⟨0xa8c0, [⟨31, 0, .rng 0 2678400⟩], false, false⟩),
  (0x90018, ⟨0x3e8, [⟨31, 0, .rng 10 1000⟩], false, false⟩)
  ]

/-- Stored registers of ETH. -/
def storedEth : List (Nat × WordDef) :=
  [
  (0xa0000, ⟨0x4, [⟨2, 2, .any⟩, ⟨1, 1, .any⟩, ⟨0, 0, .any⟩], true, false⟩),
  (0xa0008, ⟨0x0, [⟨3, 0, .rng 0 8⟩], false, false⟩),
  (0xa0018, ⟨0x0, [⟨1, 0, .any⟩], false, false⟩),
  (0xa0020, ⟨0x0, [⟨4, 1, .any⟩, ⟨0, 0, .any⟩], true, false⟩)
  ]

/-- Stored registers of LNK. -/
def storedLnk : List (Nat × WordDef) :=
  [
  (0xb0000, ⟨0x0, [⟨0, 0, .any⟩], true, false⟩),
  (0xb0008, ⟨0x0, [⟨17, 17, .any⟩, ⟨16, 16, .any⟩, ⟨9, 0, .any⟩], true, false⟩),
  (0xb0014, ⟨0x3e8, [⟨31, 0, .rng 100 100000⟩], false, false⟩),
  (0xb0018, ⟨0x64, [⟨31, 0, .rng 1 65535⟩], false, false⟩),
  (0xb001c, ⟨0x20, [⟨31, 0, .rng 4 16000⟩], false, false⟩)
  ]

/-- Stored registers of PAIR. -/
def storedPair : List (Nat × WordDef) :=
  [
  (0xc0000, ⟨0x4, [⟨2, 2, .any⟩, ⟨1, 1, .any⟩, ⟨0, 0, .any⟩], true, false⟩),
  (0xc000c, ⟨0x3e8, [⟨31, 0, .rng 250 100000⟩], true, false⟩),
  (0xc0010, ⟨0x15180, [⟨31, 0, .zeroOr 3600 2592000⟩], false, false⟩),
  (0xc0014, ⟨0x12c, [⟨31, 0, .rng 0 86400⟩], false, false⟩),
  (0xc0018, ⟨0x640, [⟨31, 0, .any⟩], true, false⟩)
  ]

/-- Stored registers of KEY. -/
def storedKey : List (Nat × WordDef) :=
  [
  (0xd0000, ⟨0x0, [⟨1, 1, .any⟩, ⟨0, 0, .any⟩], true, true⟩)
  ]

/-- Stored registers of HIF. -/
def storedHif : List (Nat × WordDef) :=
  [
  (0xe0000, ⟨0x0, [⟨1, 1, .any⟩, ⟨0, 0, .any⟩], true, false⟩),
  (0xe000c, ⟨0x0, [⟨8, 8, .any⟩, ⟨5, 0, .any⟩], false, false⟩)
  ]

/-- Stored registers of UPD. -/
def storedUpd : List (Nat × WordDef) :=
  [
  (0xf0000, ⟨0x0, [⟨4, 1, .any⟩, ⟨0, 0, .any⟩], false, true⟩),
  (0xf000c, ⟨0x258, [⟨31, 0, .rng 60 86400⟩], false, false⟩),
  (0xf0010, ⟨0x12c, [⟨31, 0, .rng 10 3600⟩], false, false⟩)
  ]

/-- Stored registers of PERF. -/
def storedPerf : List (Nat × WordDef) :=
  [
  (0x100000, ⟨0xa00, [⟨12, 8, .rng 0 16⟩, ⟨1, 1, .any⟩, ⟨0, 0, .any⟩], false, true⟩)
  ]

/-- Stored registers of MEM. -/
def storedMem : List (Nat × WordDef) :=
  [
  (0x130010, ⟨0x0, [⟨23, 20, .rng 0 5⟩, ⟨19, 19, .any⟩, ⟨7, 0, .any⟩], false, false⟩)
  ]

/-- The stored registers of a block. Log entry 35. -/
def storedRegs : Blk → List (Nat × WordDef)
  | .glb => storedGlb
  | .pwr => storedPwr
  | .tco => storedTco
  | .refs => storedRefs
  | .gbb => storedGbb
  | .tio => storedTio
  | .svc => storedSvc
  | .ptp => storedPtp
  | .eth => storedEth
  | .lnk => storedLnk
  | .pair => storedPair
  | .key => storedKey
  | .hif => storedHif
  | .upd => storedUpd
  | .perf => storedPerf
  | .mem => storedMem
  | _ => []

/-- A word with one field that takes any value of its bits. -/
def wAny (hi reset : Nat) (g : Bool) : WordDef := ⟨reset, [⟨hi, 0, .any⟩], g, false⟩

/-- A word with one field [31:0] and a rule. -/
def wRule (reset : Nat) (r : Rule) (g : Bool) : WordDef := ⟨reset, [⟨31, 0, r⟩], g, false⟩

/-- The floor U of a timestamp unit (R48). -/
def unitFloor (u : Nat) : Nat :=
  if u < 8 then 13 else if u = 8 then 64 else if u < 13 then 5 else if u < 33 then 2 else 0

/-- TCO indirect spaces (R49). -/
def indTco (space i : Nat) : Option WordDef :=
  match space with
  | 1 => if i < 68 then some (wAny 31 0 false) else none
  | 2 => if i < 34 then some (wRule (unitFloor i) (.rng (unitFloor i) 0xFFFFFFFF) false) else none
  | 3 => match i with
    | 0 => some (wAny 31 16 true) | 1 => some (wAny 31 16 true) | 2 => some (wAny 31 8 true)
    | 3 => some (wAny 31 0 true) | 4 => some (wAny 31 64 true) | 5 => some (wAny 31 0 true) | _ => none
  | _ => none

/-- ACT_TO of a slot: default and range in ms (R78, R79). -/
def actToRule (slot : Nat) : Nat × Nat × Nat :=
  if slot < 2 then (2500, 1, 60000) else if slot < 6 then (2000, 1, 60000)
  else if slot < 10 then (1500, 1, 60000) else if slot < 14 then (1, 1, 60000) else (10, 1, 60000)

/-- REFS indirect spaces that are stored (R125). -/
def indRefs (space i : Nat) : Option WordDef :=
  match space with
  | 1 => if 128 ≤ i then none else
    match i % 8 with
    | 0 => some ⟨0x8000, [⟨0, 0, .any⟩, ⟨1, 1, .any⟩, ⟨7, 4, .any⟩, ⟨15, 8, .any⟩, ⟨16, 16, .any⟩, ⟨31, 24, .any⟩], true, false⟩
    | 1 => let (d, lo, hi) := actToRule (i / 8); some (wRule d (.rng lo hi) true)
    | 2 => some (wRule 200000 (.rng 1 100000000) true)
    | 3 => some (wRule 500000 (.rng 1 100000000) true)
    | 4 => some (wRule 10000 (.rng 1 100000000) true)
    | 5 => some (wRule 20000 (.rng 1 100000000) true)
    | 6 => some (wRule 50 (.rng 0 1000000000) true)
    | _ => some (wRule 250 (.rng 0 1000000000) true)
  | 3 => if 32 ≤ i then none else
    match i % 16 with
    | 12 => some (wRule 0 (.rng 0 48) true)
    | 15 => some (wRule 0 (.rng 0 8) true)
    | _ => some (wAny 31 0 true)
  | _ => none

/-- GBB indirect spaces that are stored (R175). -/
def indGbb (space i : Nat) : Option WordDef :=
  match space with
  | 2 => if 16 ≤ i then none
    else if i % 4 = 0 then some (wAny 31 0 true)
    else if i % 4 = 1 then some (wRule 0 (.rng 40920000 163680000) true)
    else some ⟨0, [], true, false⟩
  | 3 => if 32 ≤ i then none else if i % 16 < 11 then some (wAny 31 0 true) else some ⟨0, [], true, false⟩
  | 4 => if 32 ≤ i || i % 16 = 15 then none else some (wAny 31 0 true)
  | _ => none

/-- TIO indirect spaces (R209). -/
def indTio (space i : Nat) : Option WordDef :=
  match space with
  | 1 => if 32 ≤ i then none else
    match i % 8 with
    | 0 => some ⟨0x38, [⟨0, 0, .any⟩, ⟨1, 1, .any⟩, ⟨6, 2, .any⟩, ⟨9, 8, .any⟩], true, false⟩
    | 1 => some (wRule 100000 (.rng 1 500000) true)
    | 2 => some (wRule 0 (.srng (-500000000) 499999999) true)
    | 3 => some (wAny 31 0 true)
    | 4 => some (wRule 2 (.rng 2 0xFFFFFFFF) true)
    | _ => some ⟨0, [], true, false⟩
  | 2 => if 16 ≤ i then none else
    match i % 8 with
    | 0 => some ⟨0xFC, [⟨0, 0, .any⟩, ⟨2, 1, .any⟩, ⟨7, 3, .any⟩, ⟨9, 8, .any⟩], true, false⟩
    | 1 => some (wRule 800 (.rng 32 0xFFFFFFFF) true)
    | 2 => some (wAny 15 0 true)
    | 3 => some (wRule 128 (.rng 128 16777216) true)
    | 4 => some (wAny 31 0 true)
    | _ => some ⟨0, [], true, false⟩
  | 3 => if 64 ≤ i then none else
    match i % 4 with
    | 0 => some ⟨0x3C8, [⟨1, 0, .any⟩, ⟨2, 2, .any⟩, ⟨4, 3, .any⟩, ⟨9, 5, .any⟩, ⟨11, 10, .any⟩, ⟨12, 12, .any⟩], true, false⟩
    | 1 => some (wRule 1000 (.rng 8 1000000000) true)
    | 2 => some (wRule 16 (.rng 16 1000000) true)
    | _ => some ⟨0, [], true, false⟩
  | 4 => if 16 ≤ i then none else
    match i % 4 with
    | 0 => some (wAny 1 0 true)
    | 1 => some (wRule 900 (.rng 100 990) true)
    | 2 => some (wAny 31 100000 true)
    | _ => some (wRule 9600 (.rng 4800 115200) true)
  | _ => none

/-- The reset words of SVC space 0x03: reference identifiers (R247). -/
def refIdReset (slot : Nat) : Nat :=
  if slot < 2 then 0x474E5353 else if slot < 6 then 0x50545000 else if slot < 10 then 0x50505300
  else if slot < 14 then 0x46524551 else 0x434C4F4C

/-- SVC indirect spaces that are stored (R247). -/
def indSvc (space i : Nat) : Option WordDef :=
  match space with
  | 1 => if 512 ≤ i then none else
    match i % 8 with
    | 0 => some ⟨0, [⟨11, 0, .any⟩, ⟨28, 16, .any⟩], true, false⟩
    | 5 => some (wAny 5 0 true)
    | 6 => some ⟨0, [], true, false⟩ | 7 => some ⟨0, [], true, false⟩
    | _ => some (wAny 31 0 true)
  | 2 => if 16 ≤ i then none else
    if i % 2 = 0 then some (wRule 40000 (.rng 0 320000) true) else some (wRule 8000 (.rng 0 64000) true)
  | 3 => if 16 ≤ i then none else some (wAny 31 (refIdReset i) false)
  | _ => none

/-- PTP indirect spaces that are stored (R285). -/
def indPtp (space i : Nat) : Option WordDef :=
  match space with
  | 1 => if 256 ≤ i then none else
    match i % 16 with
    | 0 => some ⟨0, [⟨2, 0, .any⟩, ⟨13, 4, .any⟩, ⟨31, 16, .any⟩], true, false⟩
    | 1 => some ⟨0x808080, [⟨27, 0, .any⟩], true, false⟩
    | 4 => some ⟨0x03000000, [⟨23, 0, .any⟩, ⟨31, 24, .rng 2 10⟩], true, false⟩
    | 5 => some ⟨0xA08CFE, [⟨7, 0, .any⟩, ⟨15, 8, .oneOf [140, 150, 160] 140⟩, ⟨25, 16, .any⟩], true, false⟩
    | 6 => some ⟨0x4E5D, [⟨31, 0, .any⟩], true, false⟩
    | 7 => some (wAny 31 17600 true)
    | 8 => some (wRule 65536 (.rng 0 65536) true)
    | 11 => some (wAny 31 16000 true)
    | 12 => some (wAny 31 1000 true)
    | 13 => some (wAny 8 0 true)
    | 14 => some (wAny 5 0 true)
    | 15 => some ⟨0, [], true, false⟩
    | _ => some (wAny 31 0 true)
  | 3 => if 256 ≤ i then none else some (wAny 31 0 true)
  | _ => none

/-- ETH indirect spaces that are stored (R323). -/
def indEth (space i : Nat) : Option WordDef :=
  match space with
  | 1 => if 72 ≤ i then none else
    match i % 8 with
    | 0 => some ⟨0xC00000, [⟨6, 0, .any⟩, ⟨9, 8, if i / 8 = 8 then .top 1 else .any⟩, ⟨13, 10, .any⟩, ⟨23, 16, .any⟩, ⟨26, 24, .any⟩], true, false⟩
    | 1 => some (wRule 1522 (.rng 1518 9216) true)
    | 2 => some (wRule 100 (.rng 1 10000) true)
    | 3 => some (wRule 10 (.rng 1 1000) true)
    | 4 => some (wAny 15 0 true)
    | 5 => some (wAny 31 0 true)
    | 6 => some (wAny 11 0xF42 true)
    | _ => some (wAny 24 0xFFFF20 true)
  | 2 => if 160 ≤ i then none else if i % 40 < 36 then some (wAny 31 0 true) else some ⟨0, [], true, false⟩
  | _ => none

/-- LNK indirect spaces that are stored (R359). -/
def indLnk (space i : Nat) : Option WordDef :=
  match space with
  | 1 => if 16 ≤ i then none else
    match i % 4 with
    | 0 => some ⟨0, [⟨3, 0, .srng (-3) 6⟩], true, false⟩
    | 3 => some ⟨0, [], true, false⟩
    | _ => some (wAny 31 0 true)
  | _ => none

/-- HIF indirect spaces that are stored (R458). -/
def indHif (space i : Nat) : Option WordDef :=
  match space with
  | 1 => if 120 ≤ i then none else
    match i % 8 with
    | 4 => some ⟨6, [⟨4, 0, .rng 6 16⟩, ⟨8, 8, .any⟩], false, false⟩
    | 5 => some ⟨1, [⟨7, 0, .rng 1 255⟩, ⟨25, 16, .rng 0 1000⟩], false, false⟩
    | 6 => some ⟨0, [], false, false⟩ | 7 => some ⟨0, [], false, false⟩
    | _ => some (wAny 31 0 false)
  | 2 => if i < 31 && i != 11 then some ⟨i % 64, [⟨5, 0, .any⟩, ⟨8, 8, .any⟩], false, false⟩ else none
  | 3 => if 16 ≤ i && i < 1024 then
      (match i % 4 with
        | 2 => some (wRule 0 (.lowZero 12 48) true) | 3 => some ⟨0, [], true, false⟩ | _ => some (wAny 31 0 true))
    else none
  | 5 => if 128 ≤ i then none else
    match i % 4 with
    | 0 => some ⟨0, [⟨4, 0, .any⟩, ⟨16, 8, .any⟩], false, false⟩
    | 3 => some (wAny 15 0 false)
    | _ => some (wAny 31 0 false)
  | _ => none

/-- The stored word of a block's indirect space, if the chapter gives one. -/
def indStored (b : Blk) (space i : Nat) : Option WordDef :=
  match b with
  | .tco => indTco space i | .gbb => indGbb space i | .refs => indRefs space i | .tio => indTio space i | .svc => indSvc space i
  | .ptp => indPtp space i | .eth => indEth space i | .lnk => indLnk space i | .hif => indHif space i
  | _ => none

/-- Indirect words that are read only: the space and how many indices it has. -/
def indRo (b : Blk) (space i : Nat) : Bool :=
  match b, space with
  | .gbb, 1 => i < 2048
  | .refs, 2 => i < 128
  | .svc, 4 => i < 64
  | .ptp, 2 => i < 256
  | .eth, 3 => i < 36
  | .lnk, 2 => i < 32
  | .hif, 4 => i < 30
  | .key, 1 => i < 256
  | .key, 2 => i < 512
  | .perf, 1 => i < 2048
  | _, _ => false

/-- The words of the MSI-X table (R428), at 0xE8000: address, data, vector control. Log entry 6. -/
def msixReset (o : Nat) : Nat := if o % 16 = 12 then 1 else 0

/-- The reset value of a stored word, by its key. Log entry 6. -/
def wordReset (k : Nat) : Nat :=
  if 2 ^ 40 ≤ k then
    match blkOf ((k - 2 ^ 40) / 2 ^ 32) with
    | some b => match indStored b (fld k 31 24) (fld k 23 0) with
      | some d => d.reset
      | none => 0
    | none => 0
  else if 0xE8000 ≤ k && k < 0xE8400 then msixReset (k - 0xE8000)
  else match blkOf (k / 0x10000) with
    | some b => match (storedRegs b).lookup k with
      | some d => d.reset
      | none => 0
    | none => 0

end Sys2Proof.Machine
end

