-- ==== Sys2Proof/Machine/StGnss.lean ====
section
/-! DEFINITION. The GNSS baseband's state (04_gnss_baseband.md). -/
namespace Sys2Proof.Machine

/-- Channel states, in the order of their codes (R144). -/
inductive ChanState where
  | idle | acquire | pullIn | track | sync | ready | lost
  deriving DecidableEq, Repr

/-- A tracking channel (R142 to R152). A channel that the list does not hold is IDLE and unassigned. -/
structure Chan where
  st : ChanState
  signal : BitVec 8
  sv : BitVec 8
  port : Fin 4
  group : Bool
  pinned : Bool
  cn0 : BitVec 16
  /-- Continuous carrier lock since (R145, R151 LOCK_MS). -/
  lockAt : Nat
  cause : BitVec 8
  slips : BitVec 32
  slip : Bool
  half : Bool
  /-- Transmit time and carrier phase at the last latch, and Doppler (R151, R152). -/
  txTime : BitVec 64
  carrier : BitVec 64
  doppler : BitVec 32
  /-- Transmit time in 2^-32 ms and carrier phase in 2^-24 cycle at the last measured sample clock edge, and that edge's
      instant in 125 ps (R136). -/
  txEdge : Int
  carrierEdge : Int
  edgeAt : Nat
  /-- The present PULL_IN is a reacquisition attempt out of LOST (R144, R145). -/
  reacq : Bool
  /-- Consecutive failed pull-ins (R144). -/
  fails : Nat
  /-- Start of the present PULL_IN, and of LOST (R144, R145). -/
  pullAt : Nat
  lostAt : Nat
  deriving DecidableEq, Repr

/-- A search waiting or running (R137, R141). -/
structure Search where
  host : Option Hdr
  addr : BitVec 64
  len : BitVec 32
  port : Fin 4
  signal : BitVec 8
  tCoh : Nat
  nNc : Nat
  thresh : Nat
  assign : Bool
  centre : Int
  half : Nat
  bin : Nat
  mask : BitVec 64
  deriving DecidableEq, Repr

/-- One 40-byte entry of a latch record (R151). -/
structure LatchEntry where
  chan : Nat
  ch : Chan
  ephValid : Bool
  used : Bool
  excluded : Bool
  deriving DecidableEq, Repr

/-- A latch record (R151). -/
structure LatchRec where
  /-- The tick of the latch, to which LOCK_MS refers. -/
  tick : Nat
  instant : BitVec 128
  seq : BitVec 32
  whole : Bool
  coast : Bool
  step : Bool
  portFail : Bool
  entries : List LatchEntry
  deriving DecidableEq, Repr

/-- A page record (R155). -/
structure Page where
  rxTs32 : BitVec 32
  signal : BitVec 8
  sv : BitVec 8
  bits : BitVec 16
  pseq : BitVec 32
  chan : BitVec 16
  injected : Bool
  payload : BitVec 896
  deriving DecidableEq, Repr

/-- A parameter set of the store (R154, R156). -/
structure NavParam where
  sys : Nat
  sv : Nat
  kind : NavKind
  issue : Nat
  data : Nat
  injected : Bool
  /-- The page that completed it, which the mirror carries (R373). -/
  page : NavInject
  deriving DecidableEq, Repr

/-- The last solution of a group (SOL_QUERY, R173). -/
structure Sol where
  o : Int
  bm : Nat
  sigmaPs : Nat
  integrity : Nat
  used : Nat
  excluded : Nat
  systems : Nat
  latchSeq : BitVec 32
  rmsPs : Nat
  deriving DecidableEq, Repr

/-- A solution in progress: the whole-second latch it is formed from (R160, R166). -/
structure SolWork where
  seq : BitVec 32
  tick : Nat
  /-- The latch instant in 2^-16 ns. -/
  instant : Nat
  coast : Bool
  deriving DecidableEq, Repr

/-- Position and its uncertainty (R173 POS_SET), in mm. -/
structure Pos where
  x : Int
  y : Int
  z : Int
  unc : Nat
  deriving DecidableEq, Repr

/-- An antenna group (R160, R168). -/
structure Group where
  running : Bool
  fixed : Bool
  start : Nat
  surveyAt : Nat
  work : Option SolWork
  last : Option Sol
  /-- Satellites used in the last solution (R151). -/
  usedSv : List (Nat × Nat)
  integrity : Nat
  /-- A position to write and a change to FIXED at the next whole-second latch (R168, R172). -/
  nextPos : Option Pos
  nextFixed : Bool
  /-- Host exclusions and releases that wait for the next whole-second latch: system, SV, exclude (R172). -/
  nextExcl : List (Nat × Nat × Bool)
  /-- Sum and number of the survey's positions (R168). -/
  surveySum : Int × Int × Int
  surveyN : Nat
  deriving DecidableEq, Repr

/-- An excluded satellite (R162): by the host, or until a tick. -/
structure Excl where
  group : Bool
  sys : Nat
  sv : Nat
  host : Bool
  until_ : Nat
  deriving DecidableEq, Repr

structure GspPort where
  failed : Bool
  rateKhz : Nat
  cleanAt : Option Nat
  deriving DecidableEq, Repr

/-- The GNSS timing baseband (04_gnss_baseband.md). -/
structure Gbb where
  /-- Channels that are not IDLE or hold a value, by number, rising. -/
  chans : List (Nat × Chan)
  searches : List Search
  searchEnd : Nat
  ports : Vector GspPort 4
  latchSeq : BitVec 32
  latches : List LatchRec
  latchDiv : BitVec 2
  /-- The latch instant reached last, in counter nanoseconds; after a negative step the counter itself. -/
  lastLatch : Option Nat
  /-- Latch instants that have fired, in counter nanoseconds: distance, first and last of each run (R149). -/
  latched : List (Nat × Nat × Nat)
  lastLatchTs : BitVec 128
  latchStep : Bool
  latchPortFail : Bool
  pages : List Page
  pseq : BitVec 32
  pagesBad : Nat
  params : List NavParam
  /-- The UTC parameters of each system as last decoded (R158). -/
  utcs : List NavUtc
  groups : Vector Group 2
  excl : List Excl
  deriving DecidableEq, Repr

/-- A measurement of a satellite: T_sys + k − T_TCO in 2^-16 ns, and its weight in units of
    1 / (9,000,000 ps² × 2^48) (R161, R162). -/
structure SatMeas where
  sys : Nat
  sv : Nat
  z : Int
  w : Nat
  deriving DecidableEq, Repr

/-- A solution (R160 to R164): whether there is one, the satellites used, those newly excluded, a fault left, and the
    clock against the reference system's time with k in 2^-16 ns. -/
structure Solved where
  ok : Bool
  used : List SatMeas
  out : List SatMeas
  fault : Bool
  clock : Int
  deriving DecidableEq, Repr

end Sys2Proof.Machine
end

