-- ==== Sys2Proof/Machine/StService.lean ====
section
/-! DEFINITION. The NTP and NTS service's state and the PTP service's state (06_nts_ntp_service.md,
07_ptp_service.md). -/
namespace Sys2Proof.Machine

/-- A cookie key entry's state, in the order of its codes (R235, R247). -/
inductive KeyUse where
  | empty | current | accept | retiring
  deriving DecidableEq, Repr

/-- A cookie key entry (R235). -/
structure CookieKey where
  keyId : BitVec 32
  slot : BitVec 8
  st : KeyUse
  unsealed : BitVec 32
  /-- The retire instant T in counter nanoseconds, while RETIRING (R236). -/
  retireAt : Option Nat
  deriving DecidableEq, Repr

/-- A cell of the client sketch (R238). -/
structure Cell where
  tag : BitVec 2
  count : BitVec 6
  deriving DecidableEq, Repr

/-- One pair of token buckets (R214): levels in 1/500,000 of a request. -/
structure Buckets where
  plain : Nat
  nts : Nat
  /-- Dropped in this second (R216). -/
  dropPlain : Nat
  dropNts : Nat
  deriving DecidableEq, Repr

/-- The NTP and NTS service (06_nts_ntp_service.md). -/
structure Svc where
  ports : Vector Buckets 8
  engine : Buckets
  refillAt : Nat
  cnt : List (Nat × Nat)
  toSample : Nat
  /-- The second (in ticks) and the Kiss-o'-Death answers sent and dropped in it (R230). -/
  kodSec : Nat
  /-- The tick of the last POLICING events (R216). -/
  polAt : Nat
  /-- The tick of the last KOD_CAP event (R230). -/
  capAt : Nat
  kodSent : Nat
  kodDrop : Nat
  keys : Vector CookieKey 16
  /-- The entry that mints (R236, SVC_KEY_CUR). -/
  cur : Option (Fin 16)
  lastCur : Fin 16
  /-- The pending rotation: its entry and T in counter nanoseconds. -/
  rotate : Option (Fin 16 × Nat)
  /-- Instants T reached lately, oldest first: T, its tick, and the entries and the minting entry before it (R236). -/
  past : List (Nat × Nat × Vector CookieKey 16 × Option (Fin 16))
  sketch : List (Nat × Cell)
  hashKey : Nat
  lastSlot : Option (Fin 16)
  deriving DecidableEq, Repr

/-- One grant of an entry (R266): log interval, its end, the next sequenceId and the next instant, in ticks. -/
structure Grant where
  logInt : Int
  until_ : Nat
  seqId : BitVec 16
  next : Nat
  deriving DecidableEq, Repr

/-- An entry of the grant table (R264). -/
structure GrantEntry where
  inst : Fin 16
  ipv6 : Bool
  addr : BitVec 128
  udpPort : BitVec 16
  ident : BitVec 80
  port : Fin 8
  announce : Option Grant
  sync : Option Grant
  delayResp : Option Grant
  deriving DecidableEq, Repr

/-- A candidate master of a slave instance (R274). -/
structure Candidate where
  ident : BitVec 80
  addr : BitVec 128
  listIdx : Option (Fin 4)
  data : ClockData
  /-- Ticks of the newest Announce and of the one before it; once it is qualified, of the newest. -/
  last : Nat
  prev : Option Nat
  deriving DecidableEq, Repr

/-- A slave's negotiated grant (R275): it runs until a tick, or a request is to be sent again at a tick. -/
structure SlaveGrant where
  listIdx : Fin 4
  kind : GrantKind
  held : Bool
  until_ : Nat
  /-- Its duration in ticks, of which a quarter remains at the renewal. -/
  dur : Nat
  retryAt : Option Nat
  asked : Bool
  deriving DecidableEq, Repr

/-- A two-step Sync heard and waiting for its Follow_Up, or a delay request sent and waiting for its answer. -/
structure PtpWait where
  seqId : BitVec 16
  /-- The local stamp in 2^-16 ns, its tick, and the correction so far in 2^-16 ns. -/
  stamp : Int
  tick : Nat
  corr : Int
  deriving DecidableEq, Repr

/-- A PTP instance (R250 to R276). -/
structure Inst where
  running : Bool
  seqAnn : BitVec 16
  seqSync : BitVec 16
  seqDelay : BitVec 16
  nextSync : Nat
  nextAnn : Nat
  nextDelay : Nat
  /-- AUTH_TX without a usable CURRENT entry has been reported (R272). -/
  noKey : Bool
  foreign : Nat
  foreignAt : Option Nat
  authDrops : Nat
  reqSec : Nat
  reqs : Nat
  cands : List Candidate
  master : Option (BitVec 80)
  /-- The master chosen last, also after its loss (R113, R114). -/
  lastMaster : Option (BitVec 80)
  /-- Local responder exchange: the request waiting, and a Pdelay_Resp waiting for its follow-up. -/
  delayWait : Option PtpWait
  /-- A two-step Pdelay_Resp that waits for its follow-up: t4 with the corrections so far, and t2 (R276). -/
  respWait : Option (PtpWait × Int)
  syncWait : Option PtpWait
  /-- The last completed delay exchange: t4 - t3 (or the peer's mean delay) and its tick. -/
  exch : Option (Int × Nat)
  lastO : Int
  meanDelay : Int
  tM : Nat
  measured : Bool
  grants : List SlaveGrant
  deriving DecidableEq, Repr

/-- A security key entry (R270). -/
structure SecKey where
  keyId : BitVec 32
  slot : BitVec 8
  spp : BitVec 8
  cmac : Bool
  st : KeyUse
  verified : BitVec 32
  icvFail : BitVec 32
  retireAt : Option Nat
  deriving DecidableEq, Repr

/-- An event message sent in two-step operation whose follow-up is owed (R256). -/
structure FollowUp where
  inst : Fin 16
  port : Fin 8
  pdelay : Bool
  entry : Option Nat
  seqId : BitVec 16
  stamp : Int
  corr : Int
  teb : BitVec 32
  ident : BitVec 80
  decided : Nat
  /-- The entry that signs it, chosen at the decision instant of its event message (R272). -/
  key : Option SecKey
  deriving DecidableEq, Repr

/-- The PTP service (07_ptp_service.md). -/
structure Ptp where
  insts : Vector Inst 16
  grants : List (Nat × GrantEntry)
  follow : List FollowUp
  negSec : Nat
  negCount : Nat
  fullAt : Option Nat
  /-- The tick of the last AUTH_ALARM events (R278). -/
  alarmAt : Nat
  keys : Vector SecKey 64
  /-- Pending rotations: entry and T in counter nanoseconds (R273). -/
  rotate : List (Fin 64 × Nat)
  /-- Instants T reached lately, oldest first: T, its tick and the entries before it (R273). -/
  past : List (Nat × Nat × Vector SecKey 64)
  cnt : List (Nat × Nat)
  toSample : Nat
  deriving DecidableEq, Repr

end Sys2Proof.Machine
end

