-- ==== Sys2Proof/Machine/StLink.lean ====
section
/-! DEFINITION. The Ethernet ports' state and the Colol links' state (08_service_ports.md, 09_colol_link.md). -/
namespace Sys2Proof.Machine

/-- The sealed part of an NTS answer (R227): the client's AEAD and S2C key, the Authenticator's nonce, the request's
    Unique Identifier field, and the plaintext. -/
structure NtsTail where
  aead : Nat
  key : Nat
  nonce : List Byte
  uid : List Byte
  plain : List Byte
  deriving DecidableEq, Repr

/-- What the egress stamp puts into a frame: an NTP answer's transmit timestamp and root dispersion, given the ingress
    TEB (none where it is unbounded or the state is NIGHT; `kod` leaves the dispersion 0); a one-step Sync; an event
    message that owes a follow-up; a one-step Pdelay_Resp, given the ingress stamp in 2^-16 ns and its TEB; a slave's
    delay request; a PTP message without a stamp. PTP messages name their instance and, where signed, the security key
    entry (R272). -/
inductive Fill where
  | none
  | ntp (teb : Option (BitVec 32)) (add : Nat) (kod : Bool) (tail : Option NtsTail)
  | sync (inst : Fin 16) (key : Option SecKey)
  | owed (inst : Fin 16) (key : Option SecKey) (pdelay : Bool) (entry : Option Nat) (corr : Int) (teb : BitVec 32)
  | pdelay (inst : Fin 16) (key : Option SecKey) (stamp : Int) (teb : BitVec 32)
  | request (inst : Fin 16) (key : Option SecKey)
  | general (inst : Fin 16) (key : Option SecKey)
  deriving DecidableEq, Repr

/-- A frame waiting in a transmit queue (R299): its frame, its bytes, what its egress stamp fills in, and for a host
    frame its ring (0 for 11, 1 for 12), the index of its last descriptor and the timestamp request's identifier; for a
    message of a granted stream its entry and kind (R266). -/
structure TxFrame where
  frame : EthFrame
  bytes : Nat
  fill : Fill
  host : Option (Fin 2 × BitVec 32 × Option (BitVec 16))
  grant : Option (Nat × GrantKind)
  deriving DecidableEq, Repr

/-- An entry of the transmit timestamp queue (R312). -/
structure TxStamp where
  id : BitVec 16
  ts : BitVec 128
  deriving DecidableEq, Repr

/-- An Ethernet port (R287 to R315). -/
structure EthPort where
  up : Bool
  mode : BitVec 3
  fec : BitVec 2
  anDone : Bool
  speed : BitVec 2
  rxLock : Bool
  changeTs : BitVec 32
  ssm : BitVec 4
  essm : BitVec 8
  failed : Bool
  extSeen : Bool
  notUsed : Bool
  esmcOk : BitVec 32
  esmcAt : Nat
  qT : List TxFrame
  qM : List TxFrame
  /-- Ends of the pauses, in ticks: per priority under PFC, and the global pause (R302). -/
  pause : Vector (Option Nat) 8
  pauseAll : Option Nat
  /-- The global pause as queue T obeys it (R304). -/
  pauseAllT : Option Nat
  /-- PAUSE_WD runs since (R304). -/
  wdAt : Option Nat
  /-- WD_HOLD runs until (R304). -/
  wdHold : Option Nat
  txPausing : Bool
  /-- A double-bit error stands in the packet buffer that the port's next received frame takes (R23). -/
  rxBad : Bool
  txPauseAt : Nat
  stamps : List TxStamp
  cnt : List (Nat × Nat)
  /-- The QL sent last, and the tick of the last information PDU (R310). -/
  qlSent : Option (BitVec 4 × BitVec 8)
  infoAt : Nat
  /-- The last bit of the queue M frames sent so far leaves at this tick (R299, R311 counter 39). -/
  busyM : Nat
  deriving DecidableEq, Repr

/-- The wake detector's copy (R317): enables, MG's address, and per pattern its bytes and masks. -/
structure WakeCopy where
  ctrl : BitVec 32
  mac : BitVec 48
  pats : List (List (BitVec 8) × List Bool)
  deriving DecidableEq, Repr

/-- The Ethernet ports (08_service_ports.md). -/
structure Eth where
  ports : Vector EthPort 9
  txtsLast : BitVec 32
  wakeCause : BitVec 32
  wakeN : Bool
  wake : Option WakeCopy
  deriving DecidableEq, Repr

/-- Link states, in the order of their codes (R327). -/
inductive LinkState where
  | off | train | hello | up | down
  deriving DecidableEq, Repr

/-- Link roles, in the order of their codes (R334, R356). -/
inductive LinkRole where
  | off | parent | child | pair
  deriving DecidableEq, Repr

/-- An exchange outstanding (R338): its SEQ, t1 in 2^-16 ns, its tick, and whether the counter stepped since. -/
structure Exchange where
  seq : BitVec 32
  t1 : Int
  tick : Nat
  stepped : Bool
  deriving DecidableEq, Repr

/-- A reliable frame not yet acknowledged (R331). -/
structure Unacked where
  lseq : BitVec 16
  body : LinkBody
  len : Nat
  /-- The tick at which it was sent last (R332). -/
  sent : Nat
  deriving DecidableEq, Repr

/-- A Colol link (09_colol_link.md). -/
structure Link where
  st : LinkState
  role : LinkRole
  trunk : Bool
  fec : Bool
  farOk : Bool
  ackOk : Bool
  mismatched : Bool
  farIdent : BitVec 64
  farNode : BitVec 16
  farRole : BitVec 8
  farFlags : BitVec 8
  farHops : BitVec 8
  farState : BitVec 3
  farTeb : BitVec 32
  /-- HOPS of the last valid measurement (R342). -/
  validHops : Nat
  txSeq : BitVec 16
  rxSeq : BitVec 16
  retry : List Unacked
  /-- Reliable frames that wait for room in the retry buffer (R331). -/
  waiting : List LinkBody
  /-- Frames of higher priority sent since a TUNNEL frame waits (R330). -/
  passed : Nat
  resends : Nat
  /-- A reliable frame has arrived whose ACK no frame has carried yet (R330). -/
  ackDue : Bool
  rxAt : Nat
  txAt : Nat
  downAt : Nat
  /-- The last HELLO (R336), and the start of the second whose CRC errors count (R354). -/
  helloAt : Nat
  errAt : Nat
  seq : BitVec 32
  exch : List Exchange
  lastReq : Option Nat
  o : Int
  delay : Int
  delays : List Int
  held : List Int
  /-- The last 16 offsets of a PAIR link, newest first (R376, R379). -/
  offs : List Int
  holding : Bool
  /-- Exchanges that the delay filter has held (R343). -/
  heldCnt : Nat
  exchanged : Bool
  cnt : Vector Nat 8
  crcSec : Nat
  /-- The mean delay and its count, kept for RETRY_TO, survive in `delays`. -/
  pantryCrc : Nat
  pantryRes : Nat
  pantryDown : Nat
  deriving DecidableEq, Repr

/-- An entry of the slot table or the shelf table (R345, R356). -/
structure EnumEntry where
  ident : BitVec 64
  num : Nat
  pinned : Bool
  present : Bool
  deriving DecidableEq, Repr

/-- The Colol links and the numbering (09_colol_link.md). -/
structure Lnk where
  links : Vector Link 4
  slot : Option (BitVec 6)
  shelf : Option (BitVec 10)
  hops : Nat
  noRoute : Nat
  tunnelLost : Nat
  slots : List EnumEntry
  shelves : List EnumEntry
  /-- Slots recorded against the link that leads to them (R345, R348). -/
  routes : List (Nat × Fin 4)
  shelfReqAt : Nat
  /-- TAG of the next DMA read of this cascaded engine (R352). -/
  dmaTag : BitVec 16
  enumDropped : Nat
  deriving DecidableEq, Repr

end Sys2Proof.Machine
end

