-- ==== Sys2Proof/Machine/StPair.lean ====
section
/-! DEFINITION. The redundant pair's state and the key store's state (10_redundant_pair.md, 11_key_store.md). -/
namespace Sys2Proof.Machine

/-- Pair states, in the order of their codes (R371). -/
inductive PairState where
  | unpaired | pairing | seeking | mirroring | ready
  deriving DecidableEq, Repr

/-- What the partner's last heartbeat and mirror records said (R367, R373, R388). -/
structure Partner where
  seen : Bool
  role : BitVec 8
  pstate : BitVec 8
  flags : BitVec 8
  cstate : BitVec 8
  teb : BitVec 32
  mgen : BitVec 32
  power : BitVec 8
  ident : BitVec 64
  qual : BitVec 16
  ranks : List (BitVec 8)
  lastContr : BitVec 128
  deriving DecidableEq, Repr

/-- A key slot (R394): its attribute word and its key, big-endian as a number. -/
structure KeySlot where
  attr : BitVec 32
  key : Nat
  deriving DecidableEq, Repr

/-- The pairing ceremony (R370). -/
structure Ceremony where
  host : Hdr
  slot : BitVec 8
  hash : BitVec 384
  started : Nat
  nonce : BitVec 256
  ephPriv : Nat
  peerNonce : Option (BitVec 256)
  peerEph : Option (BitVec 776)
  key : Option (BitVec 256)
  /-- What the named slot held before step 4. -/
  prior : KeySlot
  deriving DecidableEq, Repr

/-- A planned swap (R379): H in counter nanoseconds, which side this unit is, and how far it has come. -/
structure Swap where
  h : Nat
  incoming : Bool
  accepted : Bool
  checked : Bool
  driven : Bool
  handed : Bool
  host : Option Hdr
  deriving DecidableEq, Repr

/-- A mirror record waiting on the standby, with its generation, its place in a snapshot and the tick of its arrival
    (R376). -/
structure PairRec where
  item : MirrorRec
  mgen : BitVec 32
  snapshot : Bool
  last : Bool
  tick : Nat
  deriving DecidableEq, Repr

/-- Redundant pair operation (10_redundant_pair.md). -/
structure Pair where
  /-- ACTIVE_N as read: true is high. -/
  line : Bool
  drive : Bool
  holding : Bool
  highAt : Option Nat
  lowAt : Option Nat
  driveAt : Option Nat
  refreshAt : Nat
  hbAt : Nat
  hbSeq : BitVec 32
  missed : Nat
  heardAt : Nat
  partner : Partner
  st : PairState
  keySlot : Option (BitVec 8)
  peer : Option (BitVec 64)
  /-- The pair key's wrapped copy in flash: its slot, the paired IDENTITY and the blob (R370, R372). -/
  stored : Option (BitVec 8 × BitVec 64 × List (BitVec 8))
  cer : Option Ceremony
  /-- A PAIR_HELLO that came before this unit's PAIR_BEGIN, with its tick (R370). -/
  heldHello : Option (BitVec 256 × Nat)
  mgen : BitVec 32
  mirrorDone : Bool
  waiting : List PairRec
  /-- The active's mirrored TEB, clock state with coast flag, and W (R373). -/
  actTeb : BitVec 32
  actState : BitVec 8
  actW : Int
  swap : Option Swap
  swapAt : Nat
  /-- When a periodic swap that failed is tried again (R378). -/
  swapRetry : Option Nat
  swapsDone : BitVec 16
  swapsAborted : BitVec 16
  lastHand : BitVec 128
  readyAt : Option Nat
  reqAt : Option Nat
  demotedAt : Option Nat
  /-- Straps in conflict (R366): some true makes this unit behave as PREFERRED. -/
  conflict : Option Bool
  /-- The partner was lost by missed heartbeats before the line rose (R382). -/
  lostFirst : Bool
  /-- A start-up claim (R382 cause 6): no role has been held since the start. -/
  fresh : Bool
  stuckAt : Option Nat
  check : BitVec 11
  deriving DecidableEq, Repr

/-- The key store's states, in the order of their codes (R392). -/
inductive StoreState where
  | unprovisioned | keyed | unkeyed
  deriving DecidableEq, Repr

/-- An entry of the tamper log (R414). -/
structure TamperEntry where
  aonS : BitVec 32
  source : BitVec 8
  power : BitVec 8
  phase : BitVec 8
  repeat_ : BitVec 8
  deriving DecidableEq, Repr

/-- An invalidation between its command and the zeroing of its material (R401, R402). -/
structure Inval where
  /-- The KEY_INVALIDATE command that completes with it. -/
  host : Option Hdr
  named : BitVec 8
  slots : List Nat
  /-- T_c in counter nanoseconds. -/
  tc : Nat
  committed : Bool
  zeroAt : Nat
  /-- The slots as they stood at the commit, until their material is zeroed (R402). -/
  old : List (Nat × KeySlot)
  deriving DecidableEq, Repr

/-- The key store (11_key_store.md). -/
structure Key where
  root : Option (BitVec 256)
  provCount : BitVec 32
  store : StoreState
  cause : BitVec 8
  rngOk : Bool
  zeroising : Bool
  slots : List (Nat × KeySlot)
  inval : List Inval
  lastTc : BitVec 128
  lastZero : BitVec 128
  generates : Nat
  draws : Nat
  reseedAt : Nat
  /-- The last restart of a failed entropy source (R409). -/
  restartAt : Nat
  entropyBad : Bool
  /-- KEY_TAMPER_EN, KEY_TAMPER_CFG and KEY_TAMPER_LATCH, in the AON domain (R422). -/
  tamperEn : BitVec 13
  tamperCfg : BitVec 32
  latch : BitVec 13
  logTotal : BitVec 32
  logNext : Nat
  log : Vector TamperEntry 7
  logTick : Option Nat
  /-- The tick of the last detection and the sources logged at it (R419). -/
  tickSeen : Option (Nat × BitVec 13)
  /-- Detections that the pantry has seen (R414), and log entries already copied. -/
  copied : BitVec 32
  mask10 : Bool
  toEmit : Option (BitVec 64)
  floor : BitVec 8
  revoked : BitVec 8
  deriving DecidableEq, Repr

end Sys2Proof.Machine
end

