-- ==== Sys2Proof/Machine/StSys.lean ====
section
/-! DEFINITION. The state of the blocks that surround the time core: records and event queues, the host interface,
GLB, PERF, PAN, MEM, CLK, PWR, CTL and UPD (12_host_rings.md to 16_faults_diagnostics.md). -/
namespace Sys2Proof.Machine

/-- Fault classes, in the order of their codes (R545). -/
inductive Cls where
  | notice | degraded | severe | fatal
  deriving DecidableEq, Repr

/-- A 16-byte record (R545). -/
structure Rec where
  ts : BitVec 32
  blk : Blk
  seq : BitVec 8
  code : BitVec 12
  cls : Cls
  esc : Bool
  test : Bool
  detail : BitVec 64
  deriving DecidableEq, Repr

/-- An unacknowledged fault (R548): its base class, whether it was recorded one class higher (R549), and the status bit it
    set, if its chapter names one. -/
structure Unack where
  base : Cls
  esc : Bool
  code : BitVec 12
  detail : BitVec 64
  bit : Option Nat
  deriving DecidableEq, Repr

/-- What every block keeps: its SQ status register, history queue, faults and interrupt source (R478, R552, R452). -/
structure BlkStat where
  seq : BitVec 8
  bits : BitVec 24
  /-- The read mark of R479. -/
  readMark : Bool
  /-- The last eight records, oldest first (R552). -/
  hist : List Rec
  unack : List Unack
  /-- The block is in its safe state (R468). -/
  safe : Bool
  /-- Records written since reset (R577 HIST_READ). -/
  records : Nat
  /-- End of the 10 µs after the last block interrupt, and one interrupt owed (R452). -/
  irqUntil : Option Nat
  irqPend : Bool
  deriving DecidableEq, Repr

/-- An entry of the coalescing table (R555). -/
structure Coal where
  blk : Blk
  code : BitVec 12
  count : Nat
  ts : BitVec 32
  deriving DecidableEq, Repr

/-- Records on their way to the event ring (R553 to R556). -/
structure Log where
  blks : Vector BlkStat 19
  /-- The pending queue of R554, oldest first. -/
  pend : List Rec
  /-- The coalescing table of R555, in order of first entry. -/
  coal : List Coal
  /-- Drops since reset or the last GO of selector 0x1001: Notice and Degraded, Severe and Fatal. -/
  dropNd : Nat
  dropSf : Nat
  /-- Drops since the previous EVT_DROP record (R556). -/
  newNd : Nat
  newSf : Nat
  /-- ESEQ of the next event entry (R446). -/
  eseq : BitVec 32
  /-- The Fatal latch in the AON domain (R551). -/
  fatal : Bool
  deriving DecidableEq, Repr

/-- A ring's indices and moderation (R432, R452); its configuration is in indirect space 0x01. -/
structure Ring where
  eng : BitVec 32
  host : BitVec 32
  /-- Entries toward MOD_COUNT, and the tick of the oldest of them. -/
  cnt : Nat
  since : Option Nat
  deriving DecidableEq, Repr

/-- A command that has executed and whose completion entry is not yet written (R439). -/
structure Done where
  hd : Hdr
  op : BitVec 8
  status : BitVec 8
  rlen : Nat
  result : Nat
  deriving DecidableEq, Repr

/-- A read of a remote register, outstanding at the primary (R351). -/
structure RemoteAcc where
  slot : Nat
  tag : BitVec 16
  addr : Nat
  write : Bool
  be : BitVec 4
  deadline : Nat
  deriving DecidableEq, Repr

/-- The host interface (12_host_rings.md). -/
structure Hif where
  rings : Vector Ring 15
  /-- The command ring that gave the last descriptor (R441). -/
  turn : Fin 4
  /-- Commands taken and not yet executed, oldest first (R441). -/
  inflight : List (Hdr × BitVec 8)
  done : List Done
  /-- Commands whose completions an FLR discards (R454). -/
  discard : List Hdr
  linkUp : Bool
  width : BitVec 4
  gen : BitVec 4
  /-- Slots present (R345, HIF_SLOTS). -/
  slots : BitVec 64
  /-- The pending-bit array (R428, R452). -/
  pba : BitVec 64
  rxSeq : Vector (BitVec 32) 2
  /-- Mailbox counters 0x0E01 to 0x0E08 (R459). -/
  cnt : Vector Nat 8
  /-- Slots with a WIN_REFUSED record, and the tick of it (R453). -/
  winRefused : List (Nat × Nat)
  remote : List RemoteAcc
  deriving DecidableEq, Repr

/-- The mailbox (R475). -/
structure Mbx where
  sel : BitVec 16
  width : BitVec 2
  err : Bool
  busy : Bool
  valid : Bool
  data : BitVec 128
  /-- The tick by which a latched value fills the data registers. -/
  dueBy : Nat
  deriving DecidableEq, Repr

/-- GLB (13_register_behaviour.md). -/
structure Glb where
  /-- GLB_LOCK's one write is used (R470). -/
  lockWritten : Bool
  lock : Bool
  mbx : Mbx
  /-- End of the 1 s checker-test window (R485). -/
  testUntil : Option Nat
  /-- Access records logged (selector 0x0102). -/
  access : Nat
  preferred : Bool
  bootSrc : BitVec 2
  /-- HOST_MODE: true is PCIE. -/
  pcie : Bool
  deriving DecidableEq, Repr

/-- A sample of the instruction sampler (R566). -/
structure Sample where
  ts : BitVec 32
  sseq : BitVec 32
  insn : BitVec 64
  addr : BitVec 32
  latency : BitVec 32
  core : Fin 4
  cause : BitVec 8
  lost : Bool
  deriving DecidableEq, Repr

/-- Performance counters and the sampler (R560 to R566). -/
structure Perf where
  /-- Counters and chain counters that are not 0, by index, rising. -/
  cnt : List (Nat × Nat)
  chain : List (Nat × Nat)
  wrap : BitVec 1024
  dseq : BitVec 32
  /-- A step fell since the previous dump (R563). -/
  dumpStep : Bool
  /-- The dump instant taken last, in whole milliseconds of the counter (R563). -/
  lastDump : Option Nat
  /-- The last USER_DENIED record (R562). -/
  denied : Option Nat
  /-- Core mask, mode, PERIOD and THRESH of a sampling in progress (R565). -/
  sampling : Option (BitVec 4 × Nat × Nat × Nat)
  sseq : BitVec 32
  buf : List Sample
  lostMark : Bool
  lost : Nat
  taken : Nat
  lostSel : Nat
  lostSec : Nat
  lostAt : Nat
  deriving DecidableEq, Repr

/-- The lifetime figures of the pantry summary (R568). -/
structure Figures where
  starts : Nat
  stateS : Vector Nat 4
  tempH : Vector Nat 32
  vcoreH : Vector Nat 32
  holdH : Vector Nat 24
  goutH : Vector Nat 24
  swaps : Vector Nat 4
  tamper : Vector Nat 13
  faults : Vector Nat 76
  linkCrc : Vector Nat 4
  linkRes : Vector Nat 4
  linkDown : Vector Nat 4
  holdS : Nat
  goutS : Nat
  deriving DecidableEq, Repr

/-- A summary copy in MRAM (R568); `ok` says that its MAGIC and CRC are correct. -/
structure PanCopy where
  ok : Bool
  cseq : BitVec 32
  aonS : BitVec 32
  taiValid : Bool
  cut : Bool
  taiS : BitVec 64
  logUsed : Nat
  /-- The power state that the commit recorded as entered (R570). -/
  entered : Nat
  fig : Figures
  deriving DecidableEq, Repr

/-- A log entry (R571). -/
structure PanEntry where
  aonS : BitVec 32
  type : BitVec 8
  sub : BitVec 8
  aux : BitVec 16
  data : BitVec 64
  deriving DecidableEq, Repr

/-- The pantry (R567 to R575). -/
structure Pan where
  copies : Vector PanCopy 2
  /-- The running figures (R574). -/
  fig : Figures
  log : List PanEntry
  /-- Full log: PAN_STATUS.LOG_FULL has been set. -/
  full : Bool
  nextAt : Nat
  /-- A Severe record waits for its commit, and the last commit for that cause (R575). -/
  sevDue : Bool
  sevAt : Option Nat
  lastTs : BitVec 128
  /-- The last whole second sampled for the histograms (R569). -/
  secAt : Nat
  /-- A GNSS slot has qualified since the start; the outage in progress began at this tick (R569). -/
  gnssSeen : Bool
  goutAt : Option Nat
  deriving DecidableEq, Repr

/-- On-chip SRAM, its ECC and the checker test (R21 to R23, R557). -/
structure Mem where
  scrub : Nat
  corr : Vector Nat 7
  uncorr : Vector Nat 7
  /-- MEM_FLT_CHKTEST.RESULT, and of a started test the tick by which it ends and the word that started it (R558). -/
  result : BitVec 4
  testBy : Option (Nat × Word)
  /-- Microcode pipelines stopped by a double-bit error: SVC, PTP, GBB (R578). -/
  dead : Vector Bool 3
  /-- Functions of the miscellaneous partition stopped by a double-bit error (R21, R23): ring state, host filters, mirror
      staging. -/
  misc : Vector Bool 3
  deriving DecidableEq, Repr

/-- A clock loop (R498 to R500): MDLL-T, ILP-C, ILP-S, PLL-P. -/
structure Loop where
  locked : Bool
  coasting : Bool
  refLoss : Bool
  coastAt : Nat
  /-- A LOOP_RESET in progress: its command and its 10 ms limit. -/
  relock : Option (Hdr × Nat)
  deriving DecidableEq, Repr

/-- Clock generation (14_power_clocks_startup.md). -/
structure Clk where
  loops : Vector Loop 4
  /-- 0 none, 1 10 MHz, 2 20 MHz, 3 25 MHz (R517). -/
  refSel : BitVec 2
  lastCount : Nat
  /-- The tick of the last measurement of REF (R496). -/
  countAt : Nat
  lastCoast : BitVec 128
  deriving DecidableEq, Repr

/-- Power states, in the order of their codes (R489). -/
inductive PowerState where
  | off | simmer | warm | boil
  deriving DecidableEq, Repr

/-- Start-up phases, in the order of their codes (R505, R517). -/
inductive Phase where
  | reset | waitRef | loops | rom | load | ready | recovery | fatalHold
  deriving DecidableEq, Repr

/-- Power, supplies and resets (14_power_clocks_startup.md). -/
structure Pwr where
  state : PowerState
  phase : Phase
  /-- A POWER_SET toward Simmer or Off whose domains are not yet powered down: target and instant (R494). -/
  down : Option (PowerState × Nat)
  /-- A POWER_SET out of Boil whose admitted answers have not all left: the command, its target, and the instant by which
      the service ports go down (R492, R493). -/
  trans : Option (Hdr × PowerState × Nat)
  junction : BitVec 16
  peak : BitVec 16
  /-- The junction readings of the second in progress: their sum, their number and its first tick (R57, R512). -/
  dieSum : Int
  dieCount : Nat
  dieAt : Nat
  /-- THERM_WARN may be raised; the tick since which the junction is 5 °C below WARN_TEMP (R512). -/
  armed : Bool
  coolAt : Option Nat
  /-- The tick since which the junction stands at or above 125 °C (R513). -/
  hotAt : Option Nat
  railOk : BitVec 8
  warned : BitVec 8
  /-- PWR_RESET_CAUSE, AON domain (R517). -/
  cause : BitVec 32
  /-- What the next start must report: power failure, thermal shutdown (kept in AON). -/
  pf : Bool
  therm : Bool
  /-- The engine has taken the steps of R510: one-way until a start. -/
  failed : Bool
  /-- A thermal shutdown: only a power cycle of the main rails ends it (R513). -/
  thermDead : Bool
  pwrFailLow : Bool
  /-- A start held: POR_N released while PWR_FAIL_N is low, REF not recognised, or the thermal hold of step 4. -/
  start : Option StartIn
  /-- A write of PWR_SWRST waits for this tick (R504). -/
  swrst : Option Nat
  readyAt : Nat
  readyMs : BitVec 32
  fallbacks : BitVec 32
  lastChange : BitVec 128
  deriving DecidableEq, Repr

/-- The control cores (R517): run state 0 held, 1 loading, 2 running, 3 halted, and the halt cause. -/
structure Ctl where
  run : Vector (BitVec 2) 4
  cause : Vector (BitVec 2) 4
  fw : BitVec 32
  /-- What the last start loaded, by section type in the order of loading (R19, R20): the core 0 firmware, the microcode
      stores 6 SVC, 7 PTP and 8 GBB, and the other cores' parts of control-core memory. No reset keeps it. -/
  stores : List (Nat × List Byte)
  deriving DecidableEq, Repr

/-- Slot states of the boot record, in the order of their codes (R525). -/
inductive SlotState where
  | empty | downloading | verified | good | failed
  deriving DecidableEq, Repr

/-- A boot record copy (R525). -/
structure BootRec where
  seq : BitVec 32
  active : Fin 2
  trial : Bool
  trialSlot : Fin 2
  st : Vector SlotState 2
  fw : Vector (BitVec 32) 2
  consumed : BitVec 8
  deriving DecidableEq, Repr

/-- An update session (R528): its holder is the host, or a peer on a link. -/
structure Session where
  peer : Option (Fin 4)
  slot : Fin 2
  written : Nat
  lastWrite : Nat
  /-- The LENGTH of a peer's offer (R537). -/
  expect : Nat
  deriving DecidableEq, Repr

/-- A push toward a peer (R537): the link, the UPD_OPEN waiting for the reply and the UPD_VERIFY waiting for the
    result. -/
structure Push where
  link : Fin 4
  open_ : Option Hdr
  verify : Option Hdr
  deriving DecidableEq, Repr

/-- Image slots and update (15_firmware_update.md). -/
structure Upd where
  /-- The boot record copies in flash; none is a copy whose MAGIC or CRC is wrong (R526). -/
  copies : Vector (Option BootRec) 2
  /-- The bytes of image slots A and B in flash (R520). -/
  image : Vector (List Byte) 2
  running : Fin 2
  session : Option Session
  push : Option Push
  /-- An unconfirmed trial runs; it has expired; the host has confirmed (R533, R534). -/
  trial : Bool
  expired : Bool
  hostConfirm : Bool
  selfOk : Bool
  lastConfirm : BitVec 128
  /-- UPD_ACTIVATE with RESET: the tick of the reset (R531). -/
  resetAt : Option Nat
  deriving DecidableEq, Repr

end Sys2Proof.Machine
end

