-- ==== Sys2Proof/Machine/StTime.lean ====
section
/-! DEFINITION. The time core's state and the reference selector's state (02_time_core.md, 03_reference_selection.md). -/
namespace Sys2Proof.Machine

/-- The five clock states of R62, with the codes of its table given by `ClockState.code`. -/
inductive ClockState where
  | night | clear | haze | overcast | storm
  deriving DecidableEq, Repr

/-- A slew in progress (R38): a host slew carries the header of its TIME_SLEW command, which completes with it. -/
structure Slew where
  host : Option Hdr
  /-- Phase still to remove, in 2^-48 ns, signed. -/
  remain : Int
  /-- TS128 of the tick that removed the last of it. -/
  endTs : Option (BitVec 128)
  deriving DecidableEq, Repr

/-- One deliberate change of the counter, kept so that the monitors can remove it (R81): the phase it added, in
    2^-48 ns, after tick `tick`; a slew added it evenly until tick `till`, a step all at once (`till` is `tick`). -/
structure Adj where
  tick : Nat
  till : Nat
  delta : Int
  deriving DecidableEq, Repr

/-- The ticks at which TCO last took a host command, a TIME_SET, a FREQ_SET, a TIME_INVALIDATE and a contraction: with
    them the order of R74 holds whatever the order in the queue. Log entry 34. -/
structure TickMarks where
  host : Option Nat
  set : Option Nat
  freq : Option Nat
  inval : Option Nat
  contr : Option Nat
  deriving DecidableEq, Repr

/-- The time core (02_time_core.md). -/
structure Tco where
  /-- The counter in units of 2^-48 ns, modulo 2^48 seconds (R29, R30, R603). -/
  counter : Nat
  /-- The servo's frequency word W in 2^-48 ns per tick, signed (R31, R33). -/
  w : Int
  /-- What the servo asked beyond W's range, and the phase in 2^-48 ns that the clamp has withheld (R34). -/
  wOver : Int
  owed : Int
  slew : Option Slew
  /-- The applied word stands at its limit (R34). -/
  clamped : Bool
  /-- Newest first. -/
  adj : List Adj
  /-- The published TEB in 62.5 ps; all ones is unbounded (R51). -/
  teb : BitVec 32
  /-- The published value without the widening of a coasting MDLL-T (R61). -/
  base : BitVec 32
  /-- Published values of the last seconds with the tick from which each holds, newest first (R59 TEB(t_m)). -/
  tebLog : List (Nat × BitVec 32)
  /-- TEB0 of the growth law (R53). -/
  teb0 : BitVec 32
  /-- The counter's run since the last restart of the law, steps left out, in 2^-48 ns (R53, R56, R59). -/
  lawT : Int
  /-- Largest excursion of the temperature from Temp0 since the restart, 1/16 K (R53). -/
  dtMax : Nat
  /-- Temp0 in 1/16 °C (R53, R75). -/
  temp0 : Int
  /-- The next publication is the law without the maximum (R59). -/
  noMax : Bool
  /-- A contraction or a TIME_SET fell since the last millisecond boundary (R55). -/
  fresh : Bool
  /-- The millisecond boundary evaluated last, in counter milliseconds (R54). -/
  lastMs : Option Nat
  /-- The frequency-assisted law is in force (R56). -/
  fassist : Bool
  /-- A contraction has taken place since reset: NIGHT has ended (R62). -/
  contracted : Bool
  /-- The reported clock state (R62, R65). -/
  st : ClockState
  /-- Reported states and MDLL-T's coast flag of the last seconds with the tick from which each holds, newest first
      (R41, R76). -/
  stLog : List (Nat × ClockState × Bool)
  /-- The first tick on which a better state held (R65). -/
  dwellAt : Option Nat
  /-- TIME_INVALIDATE without a contraction since (R64). -/
  hostInvalid : Bool
  /-- The end of the 4 s after the newest applied measurement's latch (R63). -/
  lockUntil : Option Nat
  /-- The slot of that measurement (R63). -/
  lockSlot : Fin 16
  /-- TS128 of the most recent contraction, with C in TEB30 (R76). -/
  lastContr : BitVec 128
  /-- On-die temperature averaged over 1 s, 1/16 °C (R57). -/
  tempDie : Int
  /-- Temperatures in use in the last seconds with the tick from which each holds, newest first (R59 Temp at t_m). -/
  tempLog : List (Nat × Int)
  /-- The value the host last supplied, while it is in use (R57). -/
  tempHost : Option Int
  /-- The later of the write of TEMP_SRC = 1 and the last TEMP_SUPPLY (R57). -/
  tempAt : Option Nat
  utcOff : BitVec 16
  utcValid : Bool
  utcSrc : Bool
  /-- 0 none, 1 insert, 2 delete (R69). -/
  pend : BitVec 2
  leapAt : BitVec 32
  /-- Exceedances counted (R59). -/
  exceeds : Nat
  marks : TickMarks
  /-- Host commands that wait for the next tick: TCO applies one on a tick (R74). -/
  later : List Instr
  deriving DecidableEq, Repr

/-- One measurement of a slot (R80): offset in 2^-16 ns, the tick of its latch, its bound in 2^-16 ns. -/
structure Meas where
  off : Int
  latch : Nat
  bound : Nat
  deriving DecidableEq, Repr

/-- A reference slot (R78 to R92). -/
structure Slot where
  active : Bool
  activeAt : Nat
  lastAct : Nat
  /-- The latch of the first measurement since the slot became active. -/
  firstLatch : Nat
  qualified : Bool
  qualAt : Nat
  insideAt : Option Nat
  refused : Bool
  /-- Since when the offset has stayed within STEP_LIMIT (R104). -/
  withinAt : Option Nat
  /-- The measurements of the last 65 s, newest first. -/
  meas : List Meas
  /-- The latch of the newest measurement, usable or not (R80). -/
  lastLatch : Option Nat
  /-- The latch of the last accepted measurement (R109). -/
  acc : Option Nat
  /-- Integrated phase of a frequency-only slot, in 2^-16 ns (R81). -/
  fphase : Int
  fast : Option Int
  slow : Option Int
  phase : Option Nat
  /-- The mapped rank; none while the source has advertised nothing (R90). -/
  mapped : Option (BitVec 8)
  ovr : Option (BitVec 8)
  cause : Nat
  /-- The phase monitor ignores the next measurement (R113). -/
  skipPhase : Bool
  /-- The frequency windows restarted with a new master (R113). -/
  restarted : Bool
  discarded : Nat
  deriving DecidableEq, Repr

inductive TxnPhase where
  | idle | prepare | settle
  deriving DecidableEq, Repr

/-- What began a transaction: the selector (R95 cases 1 to 4), REF_SWITCH, ACCEPT_STEP with its mode and maximum,
    or a master change of the held slot (R113). -/
inductive TxnOrigin where
  | selector
  | refSwitch (h : Hdr)
  | acceptStep (h : Hdr) (slew : Bool) (maxNs : Nat)
  | itself
  deriving DecidableEq, Repr

/-- A switch transaction in PREPARE (R99). -/
structure Txn where
  target : Fin 16
  t0 : Nat
  origin : TxnOrigin
  /-- Offsets of the target latched in the window, newest first (R100). -/
  got : List Meas
  /-- PREPARE is extended: no usable offset had arrived by its end (R100). -/
  extended : Bool
  deriving DecidableEq, Repr

/-- A point of the log of the total correction (R108): from this tick on, W, the code and the lock are these. -/
structure CPt where
  tick : Nat
  w : Int
  code : Int
  locked : Bool
  deriving DecidableEq, Repr

/-- The holdover model in force (R108): its start, the mean of c over HOLD_AVG as a number over 10^15 × 2^49,
    and the code frozen at entry. -/
structure HoldModel where
  at_ : Nat
  cAvg : Int
  codeF : Int
  deriving DecidableEq, Repr

/-- A holdover episode, from HOLDOVER_ENTER to HOLDOVER_EXIT (R107, R569): when it was entered, the ticks in holdover
    that have ended, the lost slot and the cause. -/
structure Holdover where
  at_ : Nat
  ran : Nat
  slot : Fin 16
  cause : Nat
  deriving DecidableEq, Repr

/-- A template sent on the steering UART and not yet answered (R120). -/
structure UartWait where
  init : Bool
  resent : Bool
  deadline : Nat
  code : Int
  host : Option Hdr
  deriving DecidableEq, Repr

/-- References, selection and holdover (03_reference_selection.md). -/
structure Refs where
  slots : Vector Slot 16
  timeSlot : Option (Fin 16)
  freqSlot : Option (Fin 16)
  freqOnly : Bool
  phase : TxnPhase
  txn : Option Txn
  settleSlot : Fin 16
  settleEnd : Nat
  /-- The tick of the last COMMIT (R100). -/
  commitAt : Option Nat
  force : Option (Fin 16)
  holdForce : Bool
  everLocked : Bool
  /-- The model W follows or last followed without a TIME slot (R108). -/
  model : Option HoldModel
  /-- In holdover (R107), and the episode from HOLDOVER_ENTER to HOLDOVER_EXIT (R112, R569). -/
  hold : Bool
  holdover : Option Holdover
  /-- Times in holdover that have ended, with the model of each, newest first (R82). -/
  pastHold : List (Nat × Nat × HoldModel)
  /-- When the present time in holdover began. -/
  holdAt : Nat
  /-- The slot the TIME selector held last. -/
  lastSlot : Option (Fin 16)
  /-- The tick of the last recomputation of the holdover word (R108). -/
  wordAt : Nat
  clog : List CPt
  /-- Samples of c while locked: the tick, the value, and the STEER_PERIOD in s that each stands for (R110). -/
  ageing : List (Nat × Int × Nat)
  code : Int
  steerStarted : Bool
  /-- The value that a failed exchange leaves to send again at the next period: steering is frozen until then (R120). -/
  steerRetry : Option Int
  /-- The Notice of a gain of zero has been logged (R116). -/
  steerZero : Bool
  initSent : Bool
  uart : Option UartWait
  /-- OSC_SETs that wait for the exchange of an earlier one (R120, R441). -/
  oscWait : List (Hdr × Int)
  /-- The integral part of the servo's word (R98). -/
  servoAcc : Int
  steerAt : Nat
  lastDelta : Int
  lastCommit : BitVec 128
  /-- Latches of accepted measurements of the slot held at each, newest first (R82). -/
  accLog : List Nat
  /-- The last tick at which the monitors were updated, in counter seconds (R81). -/
  monSec : Option Nat
  /-- The links bound to slots 14 and 15 (R610). -/
  bind14 : Option (Fin 4)
  bind15 : Option (Fin 4)
  deriving DecidableEq, Repr

end Sys2Proof.Machine
end

