-- ==== Sys2Proof/Machine/StTio.lean ====
section
/-! DEFINITION. The timed I/O state (05_timed_io.md). -/
namespace Sys2Proof.Machine

/-- What an output pin carries (R182, R201, R202). -/
inductive Level where
  | highZ | inactive | active
  deriving DecidableEq, Repr

/-- One output: PPS_OUT0 to 3 are 0 to 3, FREQ_OUT0 and 1 are 4 and 5, TIO0 to TIO15 are 6 to 21. -/
structure OutPin where
  level : Level
  /-- What the pin shows by POL: high, low, or none at high impedance (R182). -/
  high : Option Bool
  /-- End of the pulse in progress, in TIME phases (R180). -/
  pulseEnd : Option Nat
  /-- The output has begun driving since it last became able to (R201, R204). -/
  driving : Bool
  squelched : Bool
  /-- A step fell since the previous report of this source (R183). -/
  stepped : Bool
  deriving DecidableEq, Repr

/-- An edge report (R183). -/
structure EdgeRep where
  edge : BitVec 128
  q : BitVec 32
  seq : BitVec 32
  source : BitVec 8
  missed : Bool
  notEmitted : Bool
  stepped : Bool
  standby : Bool
  index : BitVec 32
  deriving DecidableEq, Repr

/-- A frequency output's generator (R185 to R187). -/
structure FreqGen where
  acc : Nat
  /-- The grid point of the next rising edge, in TIME phases, once the phase has been set. -/
  next : Option Nat
  /-- FREQ_SYNC waits for the next counter second (R186). -/
  syncArmed : Bool
  /-- The last counter second at which SECOND mode restarted. -/
  lastSec : Option Nat
  deriving DecidableEq, Repr

/-- An armed trigger (R188 to R191). Instants are in 2^-16 ns. -/
structure Trig where
  mode : BitVec 2
  rate : Bool
  count : Nat
  startSec : Nat
  startSub : Nat
  per : Nat
  j : Nat
  emitted : Nat
  stopAt : Option Nat
  arm : BitVec 32
  deriving DecidableEq, Repr

/-- A capture record (R193). -/
structure CapRec where
  ts32 : BitVec 32
  frac : BitVec 16
  pin : Fin 16
  rising : Bool
  coast : Bool
  lost : Bool
  st : BitVec 3
  teb : BitVec 32
  cseq : BitVec 32
  deriving DecidableEq, Repr

/-- A time event message (R195, R196): the second it names, TAI - UTC and the leap flags. -/
structure TodMsg where
  sec : Nat
  utc : BitVec 16
  leap : BitVec 2
  deriving DecidableEq, Repr

/-- A stamped reference pulse (R196): its stamp in 2^-16 ns, its tick, and the messages that name it. -/
structure Pulse where
  stamp : Nat
  tick : Nat
  msgs : List TodMsg
  deriving DecidableEq, Repr

structure PpsIn where
  /-- The tick of the last stamped edge (R196). -/
  lastTick : Option Nat
  /-- The pulse whose message is awaited, TOD_REF 0; with TOD_REF 1 the last pulse. -/
  pulse : Option Pulse
  /-- Messages that name the coming pulse, TOD_REF 1. -/
  early : List TodMsg
  /-- UTC offset and leap flags of the previous accepted message since TOD_EN rose (R199). -/
  lastUtc : Option (BitVec 16 × BitVec 2)
  /-- Matching has begun with a pulse since TOD_EN rose (R613). -/
  begun : Bool
  ignored : Nat
  unsupported : Nat
  pulses : Nat
  deriving DecidableEq, Repr

/-- Pulses, frequencies and timed triggers (05_timed_io.md). -/
structure Tio where
  outs : Vector OutPin 22
  ppsNext : Vector (Option Nat) 4
  /-- Seconds whose edge each PPS output has emitted: PHASE in 2^-16 ns, first and last of each run (R181). -/
  ppsSent : Vector (List (Int × Nat × Nat)) 4
  edgeQ : List EdgeRep
  edgeSeq : BitVec 32
  edgeDrop : Nat
  dropCap : BitVec 16
  dropEdge : BitVec 16
  lastEdge : Vector (BitVec 128) 4
  lastQ : Vector (BitVec 16) 4
  freq : Vector FreqGen 2
  trigs : Vector (Option Trig) 16
  armSeq : BitVec 32
  capQ : List CapRec
  cseq : BitVec 32
  capLostMark : Bool
  capLost : Nat
  capLast : Vector (Option Nat) 16
  capIgnored : Nat
  ppsIn : Vector PpsIn 4
  deriving DecidableEq, Repr

end Sys2Proof.Machine
end

