-- ==== Sys2Proof/Machine/State.lean ====
section
/-! DEFINITION. The engine's whole state as plain data, its state right after reset, and the reasons a step can stop. -/
namespace Sys2Proof.Machine

/-- What has left the engine (entry 3): host memory writes, interrupts, frames, pin events, data of host reads. -/
inductive Out where
  | dma (addr : Nat) (data : List Byte)
  | msix (vector : Nat)
  | read (addr : Nat) (value : Word)
  | frame (port : Fin 9) (f : EthFrame)
  /-- A Colol frame with its bytes (R328). -/
  | link (link : Fin 4) (f : LinkFrame) (bytes : List Byte)
  /-- An output takes a level at a TIME phase: the pin is high or low by POL, or none at high impedance (R182). -/
  | edge (pin : Nat) (lvl : Level) (high : Option Bool) (phase : Nat)
  /-- An SPI frame with its length, CPOL and CPHA, and SCLK_DIV (R118). -/
  | spi (frame : Nat) (bits mode div : Nat)
  /-- Bytes on the steering UART with BAUD and PARITY (R119). -/
  | uart (data : List Byte) (baud parity : Nat)
  | wake (low : Bool)
  | line (low : Bool)
  /-- A transfer on a module I2C bus: its rate, the address, the bytes that carry the offset, a write's data or a read's
      length (R318, R320). -/
  | i2c (bus khz : Nat) (addr : BitVec 8) (off : List Byte) (write : List Byte) (read : Nat)
  /-- A transfer on the MDIO bus: clause, port, device or register, the register of Clause 45, and a write's data (R318, R320). -/
  | mdio (clause port dev : BitVec 8) (reg : BitVec 16) (write : Option (BitVec 16))
  deriving DecidableEq, Repr

/-- Reasons a step faults. The engine reports every fault the spec describes in its own state, so no step of this
    model ends in one: the type has the one constructor that a later rule without an effect would use. Safe. -/
inductive Fault where
  /-- Nobody raises it: every command of the spec has an effect. Safe. -/
  | noEffect
  deriving DecidableEq, Repr

/-- Reasons a step is refused. -/
inductive Refusal where
  /-- Raised by an arm of `exec` whose command has no meaning yet, with its mnemonic. Safe. -/
  | notModelled (mnemonic : String)
  deriving DecidableEq, Repr

/-- The engine (00_scope.md to 17_pins_electrical.md) and the queue of commands that wait. -/
structure State where
  /-- Commands waiting, first in, first out. -/
  pending : List Instr
  /-- TIME ticks the engine has run: the model's time base (entry 1). -/
  now : Nat
  /-- AON cycles and the remainder of the tick count toward the next one (entry 1). -/
  aon : Nat
  aonFrac : Nat
  /-- The index of the next free value (entry 2). -/
  freeCtr : Nat
  /-- What has left the engine, newest first (entry 3). -/
  out : List Out
  /-- Stored registers and indirect words that differ from their reset value, by key, rising (R460, R472). -/
  words : List (Nat × Word)
  /-- Stored words found with a parity mismatch and not rewritten since (R467). -/
  mismatch : List Nat
  log : Log
  hif : Hif
  glb : Glb
  perf : Perf
  pan : Pan
  mem : Mem
  clk : Clk
  pwr : Pwr
  ctl : Ctl
  upd : Upd
  tco : Tco
  refs : Refs
  gbb : Gbb
  tio : Tio
  svc : Svc
  ptp : Ptp
  eth : Eth
  lnk : Lnk
  pair : Pair
  key : Key
  deriving DecidableEq, Repr

/-! The reset values of each block. -/

def BlkStat.reset : BlkStat :=
  { seq := 0, bits := 0, readMark := false, hist := [], unack := [], safe := false, records := 0, irqUntil := none,
    irqPend := false }

def Log.reset : Log :=
  { blks := Vector.replicate 19 BlkStat.reset, pend := [], coal := [], dropNd := 0, dropSf := 0, newNd := 0,
    newSf := 0, eseq := 1, fatal := false }

def Ring.reset : Ring := { eng := 0, host := 0, cnt := 0, since := none }

def Hif.reset : Hif :=
  { rings := Vector.replicate 15 Ring.reset, turn := 3, inflight := [], done := [], discard := [], linkUp := false, width := 0,
    gen := 0, slots := 1, pba := 0, rxSeq := Vector.replicate 2 0, cnt := Vector.replicate 8 0, winRefused := [],
    remote := [] }

def Glb.reset : Glb :=
  { lockWritten := false, lock := false,
    mbx := { sel := 0, width := 0, err := false, busy := false, valid := false, data := 0, dueBy := 0 },
    testUntil := none, access := 0, preferred := true, bootSrc := 0, pcie := true }

def Perf.reset : Perf :=
  { cnt := [], chain := [], wrap := 0, dseq := 0, dumpStep := false, lastDump := none, denied := none,
    sampling := none, sseq := 0, buf := [], lostMark := false, lost := 0, taken := 0, lostSel := 0, lostSec := 0,
    lostAt := 0 }

def Figures.zero : Figures :=
  { starts := 0, stateS := Vector.replicate 4 0, tempH := Vector.replicate 32 0, vcoreH := Vector.replicate 32 0,
    holdH := Vector.replicate 24 0, goutH := Vector.replicate 24 0, swaps := Vector.replicate 4 0,
    tamper := Vector.replicate 13 0, faults := Vector.replicate 76 0, linkCrc := Vector.replicate 4 0,
    linkRes := Vector.replicate 4 0, linkDown := Vector.replicate 4 0, holdS := 0, goutS := 0 }

/-- A summary copy of a pantry that has recorded nothing (entry 7). -/
def PanCopy.first (ok : Bool) (cseq : BitVec 32) : PanCopy :=
  { ok := ok, cseq := cseq, aonS := 0, taiValid := false, cut := false, taiS := 0, logUsed := 0, entered := 2,
    fig := Figures.zero }

def Pan.reset : Pan :=
  { copies := #v[PanCopy.first true 1, PanCopy.first false 0], fig := Figures.zero, log := [], full := false,
    nextAt := 0, sevDue := false, sevAt := none, lastTs := 0, secAt := 0, gnssSeen := false, goutAt := none }

def Mem.reset : Mem :=
  { scrub := 0, corr := Vector.replicate 7 0, uncorr := Vector.replicate 7 0, result := 0, testBy := none,
    dead := Vector.replicate 3 false, misc := Vector.replicate 3 false }

def Loop.reset : Loop := { locked := false, coasting := false, refLoss := false, coastAt := 0, relock := none }

def Clk.reset : Clk := { loops := Vector.replicate 4 Loop.reset, refSel := 0, lastCount := 0, countAt := 0, lastCoast := 0 }

def Pwr.reset : Pwr :=
  { state := .warm, phase := .reset, down := none, trans := none, junction := 0, peak := 0, dieSum := 0, dieCount := 0, dieAt := 0, armed := true, coolAt := none,
    hotAt := none, railOk := 0, warned := 0, cause := 0, pf := false, therm := false, failed := false,
    thermDead := false, pwrFailLow := false, start := none, swrst := none, readyAt := 0, readyMs := 0,
    fallbacks := 0, lastChange := 0 }

def Ctl.reset : Ctl := { run := Vector.replicate 4 0, cause := Vector.replicate 4 0, fw := 0, stores := [] }

def Upd.reset : Upd :=
  { copies := #v[none, none], image := #v[[], []], running := 0, session := none, push := none, trial := false,
    expired := false, hostConfirm := false, selfOk := false, lastConfirm := 0, resetAt := none }

def Tco.reset : Tco :=
  { counter := 0, w := 0, wOver := 0, owed := 0, slew := none, clamped := false, adj := [], teb := 0xFFFFFFFF, base := 0xFFFFFFFF,
    tebLog := [], teb0 := 0xFFFFFFFF, lawT := 0, dtMax := 0,
    temp0 := 0, noMax := false, fresh := false, lastMs := none, fassist := false, contracted := false,
    st := .night, stLog := [], dwellAt := none, hostInvalid := false, lockUntil := none, lockSlot := 0, lastContr := 0, tempDie := 0, tempLog := [],
    tempHost := none, tempAt := none, utcOff := 0, utcValid := false, utcSrc := false, pend := 0, leapAt := 0,
    exceeds := 0, marks := { host := none, set := none, freq := none, inval := none, contr := none }, later := [] }

def Slot.reset : Slot :=
  { active := false, activeAt := 0, lastAct := 0, firstLatch := 0, qualified := false, qualAt := 0, insideAt := none,
    refused := false, withinAt := none, meas := [], lastLatch := none, acc := none, fphase := 0, fast := none,
    slow := none, phase := none, mapped := none, ovr := none, cause := 0, skipPhase := false, restarted := false,
    discarded := 0 }

def Refs.reset : Refs :=
  { slots := Vector.replicate 16 Slot.reset, timeSlot := none, freqSlot := none, freqOnly := false, phase := .idle,
    txn := none, settleSlot := 0, settleEnd := 0, commitAt := none, force := none, holdForce := false,
    everLocked := false, model := none, hold := false, holdover := none, pastHold := [], holdAt := 0,
    lastSlot := none, wordAt := 0, clog := [], ageing := [], code := 0, steerStarted := false, steerRetry := none,
    steerZero := false, initSent := false, uart := none, oscWait := [], servoAcc := 0, steerAt := 0, lastDelta := 0, lastCommit := 0, accLog := [], monSec := none,
    bind14 := none, bind15 := none }

def Group.reset : Group :=
  { running := false, fixed := false, start := 0, surveyAt := 0, work := none, last := none, usedSv := [], integrity := 3,
    nextPos := none, nextFixed := false, nextExcl := [], surveySum := (0, 0, 0), surveyN := 0 }

def Gbb.reset : Gbb :=
  { chans := [], searches := [], searchEnd := 0,
    ports := Vector.replicate 4 { failed := false, rateKhz := 0, cleanAt := none }, latchSeq := 0, latches := [],
    latchDiv := 0, lastLatch := none, latched := [], lastLatchTs := 0, latchStep := false, latchPortFail := false, pages := [],
    pseq := 0, pagesBad := 0, params := [], utcs := [], groups := Vector.replicate 2 Group.reset, excl := [] }

def OutPin.reset : OutPin :=
  { level := .highZ, high := none, pulseEnd := none, driving := false, squelched := false, stepped := false }

def PpsIn.reset : PpsIn :=
  { lastTick := none, pulse := none, early := [], lastUtc := none, begun := false, ignored := 0, unsupported := 0,
    pulses := 0 }

def Tio.reset : Tio :=
  { outs := Vector.replicate 22 OutPin.reset, ppsNext := Vector.replicate 4 none, ppsSent := Vector.replicate 4 [],
    edgeQ := [], edgeSeq := 0, edgeDrop := 0, dropCap := 0, dropEdge := 0, lastEdge := Vector.replicate 4 0, lastQ := Vector.replicate 4 0,
    freq := Vector.replicate 2 { acc := 0, next := none, syncArmed := false, lastSec := none },
    trigs := Vector.replicate 16 none, armSeq := 0, capQ := [], cseq := 0, capLostMark := false, capLost := 0,
    capLast := Vector.replicate 16 none, capIgnored := 0, ppsIn := Vector.replicate 4 PpsIn.reset }

def Buckets.reset : Buckets := { plain := 0, nts := 0, dropPlain := 0, dropNts := 0 }

def Svc.reset : Svc :=
  { ports := Vector.replicate 8 Buckets.reset, engine := Buckets.reset, refillAt := 0, cnt := [], toSample := 0,
    kodSec := 0, polAt := 0, capAt := 0, kodSent := 0, kodDrop := 0,
    keys := Vector.replicate 16 { keyId := 0, slot := 0, st := .empty, unsealed := 0, retireAt := none },
    cur := none, lastCur := 0, rotate := none, past := [], sketch := [], hashKey := 0, lastSlot := none }

def Inst.reset : Inst :=
  { running := false, seqAnn := 0, seqSync := 0, seqDelay := 0, nextSync := 0, nextAnn := 0, nextDelay := 0,
    noKey := false, foreign := 0, foreignAt := none, authDrops := 0, reqSec := 0, reqs := 0, cands := [],
    master := none, lastMaster := none, delayWait := none, respWait := none, syncWait := none, exch := none, lastO := 0, meanDelay := 0,
    tM := 0, measured := false, grants := [] }

def SecKey.reset : SecKey :=
  { keyId := 0, slot := 0, spp := 0, cmac := false, st := .empty, verified := 0, icvFail := 0, retireAt := none }

def Ptp.reset : Ptp :=
  { insts := Vector.replicate 16 Inst.reset, grants := [], follow := [], negSec := 0, negCount := 0, fullAt := none, alarmAt := 0,
    keys := Vector.replicate 64 SecKey.reset,
    rotate := [], past := [], cnt := [], toSample := 0 }

def EthPort.reset : EthPort :=
  { up := false, mode := 0, fec := 0, anDone := false, speed := 0, rxLock := false, changeTs := 0, ssm := 0,
    essm := 0, failed := false, extSeen := false, notUsed := true, esmcOk := 0, esmcAt := 0, qT := [], qM := [],
    pause := Vector.replicate 8 none, pauseAll := none, pauseAllT := none, wdAt := none, wdHold := none, txPausing := false,
    rxBad := false, txPauseAt := 0, stamps := [], cnt := [], qlSent := none, infoAt := 0, busyM := 0 }

def Eth.reset : Eth :=
  { ports := Vector.replicate 9 EthPort.reset, txtsLast := 0, wakeCause := 0, wakeN := true, wake := none }

def Link.reset : Link :=
  { st := .off, role := .off, trunk := false, fec := false, farOk := false, ackOk := false, mismatched := false,
    farIdent := 0, farNode := 0, farRole := 0, farFlags := 0, farHops := 0, farState := 0, farTeb := 0,
    validHops := 0, txSeq := 0, rxSeq := 0, retry := [], waiting := [], passed := 0, resends := 0, ackDue := false, rxAt := 0, txAt := 0,
    downAt := 0, helloAt := 0, errAt := 0, seq := 0, exch := [], lastReq := none, o := 0, delay := 0, delays := [], held := [], offs := [],
    holding := false, heldCnt := 0, exchanged := false, cnt := Vector.replicate 8 0, crcSec := 0, pantryCrc := 0, pantryRes := 0,
    pantryDown := 0 }

def Lnk.reset : Lnk :=
  { links := Vector.replicate 4 Link.reset, slot := none, shelf := none, hops := 0, noRoute := 0, tunnelLost := 0,
    slots := [], shelves := [], routes := [], shelfReqAt := 0, dmaTag := 0, enumDropped := 0 }

def Partner.none_ : Partner :=
  { seen := false, role := 0, pstate := 0, flags := 0, cstate := 0, teb := 0, mgen := 0, power := 0, ident := 0,
    qual := 0, ranks := [], lastContr := 0 }

def Pair.reset : Pair :=
  { line := true, drive := false, holding := false, highAt := none, lowAt := none, driveAt := none, refreshAt := 0,
    hbAt := 0, hbSeq := 0, missed := 0, heardAt := 0, partner := Partner.none_, st := .unpaired, keySlot := none,
    peer := none, stored := none, cer := none, heldHello := none, mgen := 0, mirrorDone := false, waiting := [], actTeb := 0xFFFFFFFF,
    actState := 0, actW := 0, swap := none, swapAt := 0, swapRetry := none, swapsDone := 0, swapsAborted := 0, lastHand := 0,
    readyAt := none, reqAt := none, demotedAt := none, conflict := none, lostFirst := false, fresh := true,
    stuckAt := none, check := 0 }

def Key.reset : Key :=
  { root := none, provCount := 0, store := .unprovisioned, cause := 0xFF, rngOk := false, zeroising := false, slots := [],
    inval := [], lastTc := 0, lastZero := 0, generates := 0, draws := 0, reseedAt := 0, restartAt := 0, entropyBad := false,
    tamperEn := 0x1000, tamperCfg := 0, latch := 0, logTotal := 0, logNext := 0,
    log := Vector.replicate 7 { aonS := 0, source := 0, power := 0, phase := 0, repeat_ := 0 }, logTick := none, tickSeen := none,
    copied := 0, mask10 := false, toEmit := none, floor := 0, revoked := 0 }

/-- The machine right after reset: POR_N asserted, every register at the value its table gives; where the spec gives
    none, the value that the log entry of the field names. -/
def State.reset : State :=
  { pending := [], now := 0, aon := 0, aonFrac := 0, freeCtr := 0, out := [], words := [], mismatch := [],
    log := Log.reset, hif := Hif.reset, glb := Glb.reset, perf := Perf.reset, pan := Pan.reset,
    mem := Mem.reset, clk := Clk.reset, pwr := Pwr.reset, ctl := Ctl.reset, upd := Upd.reset, tco := Tco.reset,
    refs := Refs.reset, gbb := Gbb.reset, tio := Tio.reset, svc := Svc.reset, ptp := Ptp.reset, eth := Eth.reset,
    lnk := Lnk.reset, pair := Pair.reset, key := Key.reset }

end Sys2Proof.Machine
end

