-- ==== Sys2Proof/Machine/Wire.lean ====
section
/-! DEFINITION. Frames as bytes, fields most significant byte first (00_scope.md R6): Colol frames (09_colol_link.md R328 to R349)
and the Ethernet frames that the engine builds (06_nts_ntp_service.md to 08_service_ports.md). Log entry 83. -/
namespace Sys2Proof.Machine

/-- Bytes rounded up to a multiple of four (R328 LEN). -/
def pad4 (n : Nat) : Nat := (n + 3) / 4 * 4

def zeros (n : Nat) : List Byte := List.replicate n 0

/-- A payload padded with zero bytes to a multiple of four (R349). -/
def padWord (l : List Byte) : List Byte := l ++ zeros (pad4 l.length - l.length)

/-! ## Colol frames -/

/-- Payload length of a frame (R328, R349). The chapters give no layout for numbering, pairing and mirror payloads:
    their lengths here only fill the retry buffer (entry 24). -/
def bodyLen : LinkBody → Nat
  | .idle => 0
  | .hello .. => 16
  | .timeReq _ => 8
  | .timeResp .. => 36
  | .slotReq .. => 20 | .slotAssign .. => 24 | .shelfReq .. => 24 | .shelfAssign .. => 20 | .shelfUpdate .. => 4
  | .hostReset _ => 4
  | .heartbeat .. => 20
  | .swapPropose _ => 16 | .swapAccept => 0 | .swapAbort _ => 4 | .swapRequest => 0
  | .pairHello _ => 32 | .pairAttest .. => 468 | .pairConfirm _ => 16
  | .updOffer .. => 8 | .updReply _ => 4 | .updData _ d => pad4 (4 + d.length) | .updEnd _ => 4 | .updResult .. => 4
  | .mirror .. => 64
  | .tunnel _ _ _ t => match t with
    | .regRd .. => 12 | .regWr .. => 16 | .regCpl .. => 12 | .dmaRd .. => 16 | .dmaWr _ d => 12 + d.length
    | .dmaCpl _ _ _ d => 8 + d.length | .msi _ => 8 | .doorbell .. => 12
  | .unknown _ _ n => n

/-- SUB of a TUNNEL frame (R348). -/
def tunnelSub : Tunnel → Nat
  | .regRd .. => 1 | .regWr .. => 2 | .regCpl .. => 3 | .dmaRd .. => 4 | .dmaWr .. => 5 | .dmaCpl .. => 6 | .msi _ => 7
  | .doorbell .. => 8

/-- TYPE and SUB of a frame (R328, R336, R338, R339, R345, R348, R367, R370, R379, R383, R537). -/
def linkCode (b : LinkBody) : Nat × Nat :=
  match b with
  | .idle => (0, 0)
  | .timeReq _ => (1, 1) | .timeResp .. => (1, 2)
  | .mirror .. => (2, (Config.linkSub b).toNat)
  | .tunnel _ _ _ t => (3, tunnelSub t)
  | .hello .. => (4, 0x01)
  | .slotReq .. => (4, 0x03) | .slotAssign .. => (4, 0x04) | .shelfReq .. => (4, 0x05) | .shelfAssign .. => (4, 0x06)
  | .shelfUpdate .. => (4, 0x07) | .hostReset _ => (4, (Config.linkSub b).toNat)
  | .heartbeat .. => (4, 0x10)
  | .swapPropose _ => (4, 0x11) | .swapAccept => (4, 0x12) | .swapAbort _ => (4, 0x13) | .swapRequest => (4, 0x14)
  | .pairHello _ => (4, 0x18) | .pairAttest .. => (4, 0x19) | .pairConfirm _ => (4, 0x1A)
  | .updOffer .. => (4, 0x20) | .updReply _ => (4, 0x21) | .updData .. => (4, 0x22) | .updEnd _ => (4, 0x23)
  | .updResult .. => (4, 0x24)
  | .unknown t s _ => (t.toNat, s.toNat)

/-- A stamp of TIME_RESP: seconds, nanoseconds and fraction of an instant in 2^-16 ns (R339). -/
def instantBytes (v : Nat) : List Byte :=
  beBytes 6 (v / 65536000000000) ++ beBytes 4 (v / 65536 % 1000000000) ++ beBytes 2 (v % 65536)

/-- The fields of a TUNNEL payload after TAG (R348). -/
def tunnelFields : Tunnel → List Byte
  | .regRd o be => beBytes 4 o.toNat ++ beBytes 1 be.toNat
  | .regWr o be d => beBytes 4 o.toNat ++ beBytes 1 be.toNat ++ beBytes 4 d.toNat
  | .regCpl st d => beBytes 1 st.toNat ++ beBytes 4 d.toNat
  | .dmaRd a n => beBytes 8 a.toNat ++ beBytes 2 n
  | .dmaWr a d => beBytes 8 a.toNat ++ d
  | .dmaCpl st last o d => beBytes 1 st.toNat ++ beBytes 1 (flag last 0) ++ beBytes 2 o ++ d
  | .msi v => beBytes 1 v.toNat
  | .doorbell r i => beBytes 2 r.toNat ++ beBytes 4 i.toNat

/-- A frame's payload (R336, R338, R339, R348, R349, R367, R370, R537); the chapters lay out no other. Log entry 83. -/
def linkPayload (b : LinkBody) : List Byte :=
  match b with
  | .hello ident node role flags => beBytes 8 ident.toNat ++ beBytes 2 node.toNat ++ beBytes 1 role.toNat ++ beBytes 1 flags.toNat ++ zeros 4
  | .timeReq seq => beBytes 4 seq.toNat ++ zeros 4
  | .timeResp seq t2 t3 teb hops state node =>
    beBytes 4 seq.toNat ++ instantBytes t2 ++ instantBytes t3 ++ beBytes 4 teb.toNat ++ beBytes 1 hops.toNat ++ beBytes 1 state.toNat
      ++ beBytes 2 node.toNat
  | .heartbeat seq role pstate flags cstate teb mgen power =>
    beBytes 4 seq.toNat ++ beBytes 1 role.toNat ++ beBytes 1 pstate.toNat ++ beBytes 1 flags.toNat ++ beBytes 1 cstate.toNat
      ++ beBytes 4 teb.toNat ++ beBytes 4 mgen.toNat ++ beBytes 1 power.toNat ++ zeros 3
  | .pairHello n => beBytes 32 n.toNat
  | .pairConfirm c => beBytes 16 c.toNat
  | .updOffer n fw => beBytes 4 n.toNat ++ beBytes 4 fw.toNat
  | .updReply st => padWord (beBytes 1 st.toNat)
  | .updData o d => padWord (beBytes 4 o.toNat ++ d)
  | .updEnd a => padWord (beBytes 1 (flag a 0))
  | .updResult st c => padWord (beBytes 1 st.toNat ++ beBytes 1 c.toNat)
  | .tunnel dst src tag t => padWord (beBytes 1 dst.toNat ++ beBytes 1 src.toNat ++ beBytes 2 tag.toNat ++ tunnelFields t)
  | b => beBytes (bodyLen b) (Config.linkPayload b)

/-- A Colol frame's bytes (R328). Log entry 83. -/
def linkBytes (f : LinkFrame) : List Byte :=
  let c := linkCode f.body
  let pay := linkPayload f.body
  let b := beBytes 1 c.1 ++ beBytes 1 c.2 ++ beBytes 2 pay.length ++ beBytes 2 f.lseq.toNat ++ beBytes 2 f.ack.toNat ++ pay
  b ++ beBytes 4 (crc32 b)

/-! ## PTP messages (R255 to R271) -/

def ptpTypeCode : PtpType → Nat
  | .sync => 0 | .delayReq => 1 | .pdelayReq => 2 | .pdelayResp => 3 | .followUp => 8 | .delayResp => 9 | .pdelayFollow => 10
  | .announce => 11 | .signaling => 12 | .management => 13 | .other c => c.toNat

/-- controlField. -/
def ptpControl : PtpType → Nat
  | .sync => 0 | .delayReq => 1 | .followUp => 2 | .delayResp => 3 | .management => 4 | _ => 5

/-- messageType of a unicast transmission TLV, in the high half of its byte. -/
def kindByte : Option GrantKind → List Byte
  | some .announce => [0xB0] | some .sync => [0x00] | some .delayResp => [0x90]
  | none => [BitVec.ofNat 8 (16 * Config.otherKind.toNat)]

/-- A TLV (R261, R264, R269). -/
def tlvWire : PtpTlv → List Byte
  | .teb ty o u t st f =>
    beBytes 2 ty.toNat ++ beBytes 2 14 ++ beBytes 3 o.toNat ++ beBytes 3 u.toNat ++ beBytes 4 t.toNat ++ beBytes 1 st.toNat
      ++ beBytes 1 f.toNat ++ zeros 2
  | .request k l d => beBytes 2 4 ++ beBytes 2 6 ++ kindByte k ++ beBytes 1 (uInt 8 l) ++ beBytes 4 d
  | .grant k l d r => beBytes 2 5 ++ beBytes 2 8 ++ kindByte k ++ beBytes 1 (uInt 8 l) ++ beBytes 4 d ++ zeros 1 ++ beBytes 1 (flag r 0)
  | .cancel k => beBytes 2 6 ++ beBytes 2 2 ++ kindByte k ++ zeros 1
  | .ackCancel k => beBytes 2 7 ++ beBytes 2 2 ++ kindByte k ++ zeros 1
  | .auth spp id _ icv => beBytes 2 0x8009 ++ beBytes 2 22 ++ beBytes 1 spp.toNat ++ zeros 1 ++ beBytes 4 id.toNat ++ beBytes 16 icv.toNat
  | .other ty n => beBytes 2 ty.toNat ++ beBytes 2 n ++ zeros n

/-- The body of a message after its header. -/
def ptpBody (m : PtpMsg) : List Byte :=
  let ts := beBytes 6 m.tsSec ++ beBytes 4 m.tsNs
  let peer := beBytes 10 m.peer.toNat
  match m.type with
  | .sync | .delayReq | .followUp => ts
  | .pdelayReq => ts ++ zeros 10
  | .pdelayResp | .pdelayFollow | .delayResp => ts ++ peer
  | .announce =>
    let c := m.clock
    ts ++ beBytes 2 m.utc.toNat ++ zeros 1 ++ beBytes 1 c.prio1.toNat ++ beBytes 1 c.cls.toNat ++ beBytes 1 c.acc.toNat
      ++ beBytes 2 c.var.toNat ++ beBytes 1 c.prio2.toNat ++ beBytes 8 c.gmIdent.toNat ++ beBytes 2 c.steps.toNat
      ++ beBytes 1 m.timeSource.toNat
  | .signaling => peer
  | .management | .other _ => []

/-- A PTP message: the header of IEEE 1588-2019, the body and the TLVs. -/
def ptpWire (m : PtpMsg) : List Byte :=
  let rest := ptpBody m ++ (m.tlvs.map tlvWire).flatten
  beBytes 1 (16 * m.sdo.toNat + ptpTypeCode m.type) ++ beBytes 1 (16 * m.minor + m.version) ++ beBytes 2 (34 + rest.length)
    ++ beBytes 1 m.domain.toNat ++ zeros 1 ++ beBytes 1 (flag m.twoStep 1 + flag m.unicast 2)
    ++ beBytes 1 (flag m.leap61 0 + flag m.leap59 1 + flag m.utcValid 2 + flag m.ptpScale 3 + flag m.timeTr 4 + flag m.freqTr 5)
    ++ beBytes 8 (uInt 64 m.corr) ++ zeros 4 ++ beBytes 10 m.src.toNat ++ beBytes 2 m.seq.toNat ++ beBytes 1 (ptpControl m.type)
    ++ beBytes 1 (uInt 8 m.logInt) ++ rest

/-! ## Ethernet frames -/

/-- The sum of 16-bit words, an odd last byte padded with zero. -/
def sum16 : List Byte → Nat
  | [] => 0
  | [a] => 256 * a.toNat
  | a :: b :: r => 256 * a.toNat + b.toNat + sum16 r

/-- The ones' complement of the ones' complement sum of 16-bit words. -/
def inetSum (l : List Byte) : Nat :=
  let f := sum16 l % 65536 + sum16 l / 65536
  65535 - (f % 65536 + f / 65536)

def addrBytes (ip : IpHdr) (a : BitVec 128) : List Byte := beBytes (if ip.v6 then 16 else 4) a.toNat

/-- A UDP datagram with its checksum over the pseudo-header (R257). -/
def udpWire (ip : IpHdr) (sport dport : BitVec 16) (pay : List Byte) : List Byte :=
  let n := 8 + pay.length
  let head := beBytes 2 sport.toNat ++ beBytes 2 dport.toNat ++ beBytes 2 n
  let pseudo := addrBytes ip ip.src ++ addrBytes ip ip.dst ++ (if ip.v6 then beBytes 4 n ++ zeros 3 ++ [17] else [0, 17] ++ beBytes 2 n)
  let c := inetSum (pseudo ++ head ++ zeros 2 ++ pay)
  head ++ beBytes 2 (if ip.csumZero then 0 else if c = 0 then 65535 else c) ++ pay

/-- A datagram in its IP header; `draw` names the free identification, DF bit or flow label (entry 83). -/
def ipWire (draw : Nat) (ip : IpHdr) (udp : List Byte) : List Byte :=
  let x := (Config.ipIdent draw).toNat
  let tos := 4 * ip.dscp.toNat + ip.ecn.toNat
  if ip.v6 then
    beBytes 4 (6 * 2 ^ 28 + tos * 2 ^ 20 + x) ++ beBytes 2 udp.length ++ [17] ++ beBytes 1 ip.ttl.toNat ++ addrBytes ip ip.src
      ++ addrBytes ip ip.dst ++ udp
  else
    let a := beBytes 1 0x45 ++ beBytes 1 tos ++ beBytes 2 (20 + udp.length) ++ beBytes 2 (x % 65536) ++ beBytes 2 (flag (x.testBit 16) 14)
      ++ beBytes 1 ip.ttl.toNat ++ [17]
    let b := addrBytes ip ip.src ++ addrBytes ip ip.dst
    a ++ beBytes 2 (inetSum (a ++ b)) ++ b ++ udp

/-- EtherType and payload of what the engine builds (R251, R301, R305, R307, R310). -/
def bodyWire (draw : Nat) : EthBody → List Byte
  | .udp ip a b pay => beBytes 2 (if ip.v6 then 0x86DD else 0x0800) ++ ipWire draw ip (udpWire ip a b pay)
  | .ptpUdp ip a b m => beBytes 2 (if ip.v6 then 0x86DD else 0x0800) ++ ipWire draw ip (udpWire ip a b (ptpWire m))
  | .ptpEth m => beBytes 2 0x88F7 ++ ptpWire m
  | .esmc _ ssm ext ident ev =>
    beBytes 2 0x8809 ++ [0x0A, 0x00, 0x19, 0xA7] ++ beBytes 2 1 ++ beBytes 1 (16 + flag ev 3) ++ zeros 3
      ++ [1] ++ beBytes 2 4 ++ beBytes 1 ssm.toNat
      ++ (match ext with | some e => [2] ++ beBytes 2 20 ++ beBytes 1 e.toNat ++ beBytes 8 ident.toNat ++ zeros 8 | none => [])
  | .pause q => beBytes 2 0x8808 ++ beBytes 2 1 ++ beBytes 2 q.toNat
  | .pfc l =>
    let on := (List.range 8).map fun k => l.getD k none
    beBytes 2 0x8808 ++ beBytes 2 0x0101
      ++ beBytes 2 (((List.range 8).map fun k => flag (l.getD k none).isSome k).foldl (· + ·) 0)
      ++ (on.map fun q => beBytes 2 (q.getD 0).toNat).flatten
  | .macctl => beBytes 2 0x8808
  | .other t _ => beBytes 2 t.toNat

/-- A frame without its FCS: as it stands, or built and padded to 60 bytes. Log entry 83. -/
def frameWire (draw : Nat) (f : EthFrame) : List Byte :=
  if !f.raw.isEmpty then f.raw
  else
    let b := beBytes 6 f.dst.toNat ++ beBytes 6 f.src.toNat ++ (f.tags.map fun t => beBytes 2 t.1.toNat ++ beBytes 2 t.2.toNat).flatten
      ++ bodyWire draw f.body
    b ++ zeros (60 - b.length)

end Sys2Proof.Machine
end

