-- ==== Sys2Proof/Machine/Ops.lean ====
section
/-! DEFINITION. The named operations every meaning is built from: stored words, the counter and its stamps,
performance counters, the pantry, Colol frames, host memory writes, rings, interrupts, records and completions. -/
namespace Sys2Proof.Machine

/-- What a meaning answers. -/
abbrev Ans := Host.Outcome State Fault Refusal

/-! ## Stored words (R460, R472) -/

/-- The stored word at a key. -/
def getW (s : State) (k : Nat) : Word := aget (BitVec.ofNat 32 (wordReset k)) s.words k

/-- Stores a word; its parity is computed at the write (R467). -/
def putW (s : State) (k : Nat) (v : Word) : State :=
  { s with words := aset (BitVec.ofNat 32 (wordReset k)) s.words k v, mismatch := s.mismatch.filter (· != k) }

/-- Bits [hi:lo] of a stored word. -/
def rf (s : State) (k hi lo : Nat) : Nat := fld (getW s k).toNat hi lo

/-- One bit of a stored word. -/
def rb (s : State) (k i : Nat) : Bool := (getW s k).toNat.testBit i

/-- A word of an indirect space. -/
def ind (s : State) (b : Blk) (space i : Nat) : Nat := (getW s (indKey b space i)).toNat

/-! ## Blocks -/

def blkStat (s : State) (b : Blk) : BlkStat := vget s.log.blks BlkStat.reset (Blk.id b - 1)

def modBlk (s : State) (b : Blk) (f : BlkStat → BlkStat) : State :=
  { s with log := { s.log with blks := vmod s.log.blks (Blk.id b - 1) f } }

/-- The block is in its safe state (R468). -/
def safe (s : State) (b : Blk) : Bool := (blkStat s b).safe

/-! ## The counter and its stamps (R29 to R44) -/

/-- Units of 2^-48 ns in one second. -/
def unitsPerSec : Nat := 1000000000 * 2 ^ 48

/-- The counter's modulus: 2^48 seconds (R603). -/
def counterMod : Nat := 2 ^ 48 * unitsPerSec

/-- The counter's modulus in 2^-16 ns. -/
def subMod : Nat := counterMod / 2 ^ 32

/-- The difference of two instants in 2^-16 ns across the counter's wrap (R603). -/
def wrapSub (d : Int) : Int := (d + (subMod / 2 : Nat)) % (subMod : Int) - (subMod / 2 : Nat)

def secOf (c : Nat) : Nat := c / unitsPerSec
def nsOf (c : Nat) : Nat := c / 2 ^ 48 % 1000000000
def fracOf (c : Nat) : Nat := c / 2 ^ 32 % 65536
/-- The counter in 2^-16 ns. -/
def subNs (c : Nat) : Nat := c / 2 ^ 32
/-- The counter in whole nanoseconds, seconds × 10^9 + nanoseconds. -/
def totNs (c : Nat) : Nat := c / 2 ^ 48
def msOf (c : Nat) : Nat := c / (1000000 * 2 ^ 48)

/-- TS32 of a counter value (R44). -/
def ts32Of (c : Nat) : BitVec 32 := BitVec.ofNat 32 (totNs c)

def ts32 (s : State) : BitVec 32 := ts32Of s.tco.counter

/-- The counter in ns. -/
def nowNs (s : State) : Nat := totNs s.tco.counter

def ClockState.code : ClockState → Nat
  | .night => 0 | .clear => 1 | .haze => 2 | .overcast => 3 | .storm => 4

/-- From worse to better: NIGHT, STORM, OVERCAST, HAZE, CLEAR (R65). -/
def ClockState.rank : ClockState → Nat
  | .night => 0 | .storm => 1 | .overcast => 2 | .haze => 3 | .clear => 4

/-- TEB30: the full TEB over 4, rounded up, saturating (R42). -/
def teb30 (teb : Nat) : Nat := min (ceilDiv teb 4) 0x3FFFFFFF

/-- A TS128 record (R41). -/
def mkTs128 (c : Nat) (coast : Bool) (st : ClockState) (teb : Nat) : BitVec 128 :=
  BitVec.ofNat 128 (secOf c * 2 ^ 80 + nsOf c * 2 ^ 50 + fracOf c * 2 ^ 34 + flag coast 33 + st.code * 2 ^ 30
    + teb30 teb)

def loop (s : State) (i : Nat) : Loop := vget s.clk.loops Loop.reset i

/-- Loop `i` coasts: 0 MDLL-T, 1 ILP-C, 2 ILP-S, 3 PLL-P (R498). -/
def coasting (s : State) (i : Nat) : Bool := (loop s i).coasting

/-- W_c at a tick of a coasting loop `i`, whose index in TCO space 0x03 is `k`: 0 MDLL-T, 1 ILP-S, 2 PLL-P (R60). -/
def coastWidenAt (s : State) (k i tick : Nat) : Nat :=
  if coasting s i then
    ind s .tco 3 (2 * k) + ind s .tco 3 (2 * k + 1) * ceilDiv (tick - (loop s i).coastAt) (ticksMs 1)
  else 0

/-- The TEB of a stamp of unit `u` (R52): the published TEB, the unit's U and the widening of a coasting ILP-S or
    PLL-P that clocks the unit (R12). -/
def unitTeb (s : State) (u : Nat) : Nat :=
  let w := if u < 8 || (9 ≤ u && u < 13) then coastWidenAt s 1 2 s.now else if u = 8 then coastWidenAt s 2 3 s.now else 0
  sat32 (s.tco.teb.toNat + ind s .tco 2 u + w)

/-- The coast flag of a stamp of unit `u` (R12). -/
def unitCoast (s : State) (u : Nat) : Bool :=
  coasting s 0 || ((u < 8 || (9 ≤ u && u < 13)) && coasting s 2) || (u = 8 && coasting s 3)

/-- A unit's stamp of an event in a phase of the present tick, in 2^-16 ns (R46, R49): the counter on the 125 ps grid
    plus the calibration offset of the unit and direction (0 ingress or capture, 1 egress or output). Log entry 80. -/
def stampSub (s : State) (u dir : Nat) (phase : Fin 16) : Int :=
  ((subNs s.tco.counter / 8192 * 8192 + 8192 * phase.val : Nat) : Int) + 4096 * sInt 32 (ind s .tco 1 (2 * u + dir))

/-- A unit's stamp as a counter value. Log entry 80. -/
def stampCounter (s : State) (u dir : Nat) (phase : Fin 16) : Nat :=
  ((stampSub s u dir phase * (2 ^ 32 : Nat)) % (counterMod : Int)).toNat

/-- A unit's stamp as a TS128 (R41, R46, R52). -/
def stampTs (s : State) (u dir : Nat) (phase : Fin 16) : BitVec 128 :=
  mkTs128 (stampCounter s u dir phase) (unitCoast s u) s.tco.st (unitTeb s u)

/-- The present instant as the time core reports it. -/
def tsNow (s : State) : BitVec 128 := mkTs128 s.tco.counter (coasting s 0) s.tco.st s.tco.teb.toNat

/-- A counter moved by a signed number of 2^-48 ns, modulo 2^48 s (R603). -/
def moveCounter (c : Nat) (d : Int) : Nat := (((c : Int) + d) % (counterMod : Int)).toNat

/-! ## Time base, free values and output -/

/-- AON seconds (R424). -/
def aonSec (s : State) : BitVec 32 := BitVec.ofNat 32 (s.aon / 32768)

/-- A free value, and the state with the next one ready (entry 2). -/
def freeN (s : State) : Nat × State := (Config.freeNat s.freeCtr, { s with freeCtr := s.freeCtr + 1 })

def freeI (s : State) : Int × State := (Config.freeInt s.freeCtr, { s with freeCtr := s.freeCtr + 1 })

def emitOut (s : State) (o : Out) : State := { s with out := o :: s.out }

/-! ## Performance counters (R560, R561) -/

/-- The engine is in bring-up mode (R561). -/
def bringUp (s : State) : Bool := s.pwr.phase != .ready || s.glb.testUntil.isSome

/-- Adds `n` events to counter `i`: the carry goes to the chain counter, or in bring-up mode to the WRAP bit. Log entry 60. -/
def perfAdd (s : State) (i n : Nat) : State :=
  if n = 0 then s else
  let v := aget 0 s.perf.cnt i + n
  let q := v / 2 ^ 32
  let p := { s.perf with cnt := aset 0 s.perf.cnt i (v % 2 ^ 32) }
  if q = 0 then { s with perf := p }
  else if bringUp s then { s with perf := { p with wrap := p.wrap ||| BitVec.ofNat 1024 (2 ^ i) } }
  else { s with perf := { p with chain := aset 0 p.chain i ((aget 0 p.chain i + q) % 2 ^ 32) } }

/-! ## Node identifier (R604) -/

def isRoot (s : State) : Bool := s.glb.pcie && rb s Rg.lnkNodeCfg 17

/-- The engine's slot: the root and a primary are slot 0 (R604). -/
def slotNum (s : State) : Option Nat := if s.glb.pcie then some 0 else s.lnk.slot.map BitVec.toNat

/-- The engine's shelf: 0 for the root, the host's number with SHELF_SRC = 1 on a primary, else as assigned. -/
def shelfNum (s : State) : Option Nat :=
  if isRoot s then some 0
  else if s.glb.pcie && rb s Rg.lnkNodeCfg 16 then some (rf s Rg.lnkNodeCfg 9 0)
  else s.lnk.shelf.map BitVec.toNat

/-- The node identifier, 0xFFFF until shelf and slot are both assigned. -/
def nodeId (s : State) : BitVec 16 :=
  match shelfNum s, slotNum s with
  | some sh, some sl => BitVec.ofNat 16 (sh * 64 + sl)
  | _, _ => 0xFFFF

/-! ## The pantry (R567 to R575) -/

def PowerState.code : PowerState → Nat
  | .off => 0 | .simmer => 1 | .warm => 2 | .boil => 3

def Phase.code : Phase → Nat
  | .reset => 0 | .waitRef => 1 | .loops => 2 | .rom => 3 | .load => 4 | .ready => 5 | .recovery => 6
  | .fatalHold => 7

/-- The index of the valid summary copy with the higher CSEQ (R572). -/
def panBest (s : State) : Option (Fin 2) :=
  let a := s.pan.copies[0]
  let b := s.pan.copies[1]
  if a.ok && b.ok then (if a.cseq.toNat < b.cseq.toNat then some 1 else some 0)
  else if a.ok then some 0 else if b.ok then some 1 else none

def panCseq (s : State) : BitVec 32 :=
  match panBest s with
  | some i => s.pan.copies[i].cseq
  | none => 0

/-- Pantry figures saturate (R568). -/
def figAdd {n : Nat} (v : Vector Nat n) (i d : Nat) : Vector Nat n := vmod v i fun x => sat32 (x + d)

/-- A control core runs its firmware (R517 CTL_CORES.RUN 2). -/
def coreUp (s : State) (n : Nat) : Bool := vget s.ctl.run 0 n = 2

def modFig (s : State) (f : Figures → Figures) : State := { s with pan := { s.pan with fig := f s.pan.fig } }

/-- The histogram bin of a duration in seconds (R568). -/
def durBin (d : Nat) : Nat := if d = 0 then 0 else min 23 (Nat.log2 d + 1)

/-- A holdover episode of some ticks ends (R568, R569). -/
def figHold (f : Figures) (ticks : Nat) : Figures :=
  { f with holdH := figAdd f.holdH (durBin (ticks / ticksS 1)) 1, holdS := sat32 (f.holdS + ticks / ticksS 1) }

/-- A GNSS outage ends (R568, R569). -/
def figGout (f : Figures) (ticks : Nat) : Figures :=
  { f with goutH := figAdd f.goutH (durBin (ticks / ticksS 1)) 1, goutS := sat32 (f.goutS + ticks / ticksS 1) }

/-- The running figures with each link's totals, which enter at a commit (R354). -/
def figNow (s : State) : Figures :=
  let f := s.pan.fig
  { f with linkCrc := Vector.ofFn fun i => f.linkCrc[i] + s.lnk.links[i].pantryCrc,
           linkRes := Vector.ofFn fun i => f.linkRes[i] + s.lnk.links[i].pantryRes,
           linkDown := Vector.ofFn fun i => sat32 (f.linkDown[i] + s.lnk.links[i].pantryDown) }

/-- The figures a commit writes: an episode or outage in progress is written as ended at the commit, which is how a
    reset that cuts it leaves it (R569). -/
def figCommitted (s : State) : Figures :=
  let f := figNow s
  let f := match s.refs.holdover with
    | some h => figHold f (h.ran + (if s.refs.hold then s.now - s.refs.holdAt else 0))
    | none => f
  match s.pan.goutAt with | some t => figGout f (s.now - t) | none => f

/-- A commit: the next summary goes into the copy that does not hold the highest valid CSEQ (R572). `cut` marks a
    commit for PWR_FAIL_N or a thermal shutdown, `entered` the power state it records as entered (R570). -/
def panWrite (s : State) (cut : Bool) (entered : PowerState) (readBack : Bool) : State :=
  if !coreUp s 0 then s else
  let c : PanCopy := { ok := readBack, cseq := panCseq s + 1, aonS := aonSec s,
                       taiValid := s.tco.st != .night, cut := cut,
                       taiS := if s.tco.st = .night then 0 else BitVec.ofNat 64 (secOf s.tco.counter),
                       logUsed := s.pan.log.length, entered := entered.code, fig := figCommitted s }
  let i : Fin 2 := match panBest s with | some 0 => 1 | some _ => 0 | none => 0
  let links := s.lnk.links.map fun l => { l with pantryCrc := 0, pantryRes := 0, pantryDown := 0 }
  { s with pan := { s.pan with copies := s.pan.copies.set i c, fig := figNow s, sevDue := false, lastTs := tsNow s },
           lnk := { s.lnk with links := links } }

def panCommit (s : State) (cut : Bool) (entered : PowerState) : State := panWrite s cut entered true

/-- Log entries the MRAM holds (R567). -/
def panLogMax : Nat := 130560

/-- Appends a log entry unless the log is full (R571). Log entry 58. -/
def panAppend (s : State) (type sub aux : Nat) (data : Nat) : State :=
  if coreUp s 0 && decide (s.pan.log.length < panLogMax) then
    { s with pan := { s.pan with log := s.pan.log ++
        [{ aonS := aonSec s, type := BitVec.ofNat 8 type, sub := BitVec.ofNat 8 sub, aux := BitVec.ofNat 16 aux,
           data := BitVec.ofNat 64 data }] } }
  else s

/-! ## Colol frames leaving (R328 to R332) -/

def link (s : State) (l : Fin 4) : Link := s.lnk.links[l]

def modLink (s : State) (l : Fin 4) (f : Link → Link) : State :=
  { s with lnk := { s.lnk with links := vmod s.lnk.links l.val f } }

/-- TIME and IDLE frames are not reliable (R329). -/
def isReliable : LinkBody → Bool
  | .idle | .timeReq _ | .timeResp .. => false
  | .unknown t _ _ => t.toNat = 2 || t.toNat = 3 || t.toNat = 4
  | _ => true

/-- Performance-counter index of a sent or received frame (R560): TIME 0, MIRROR 2, TUNNEL 4, IDLE 8. -/
def linkPerf : LinkBody → Option Nat
  | .idle => some 8
  | .timeReq _ | .timeResp .. => some 0
  | .mirror .. => some 2
  | .tunnel .. => some 4
  | _ => none

/-- Bytes that the retry buffer holds: each frame with its header and CRC (R331). -/
def retryBytes (l : Link) : Nat := (l.retry.map fun u => u.len + 12).foldl (· + ·) 0

/-- RETRY_TO in µs: 2 × the mean delay + 10 µs, 500 µs until an exchange completes (R332). Delays are in 2^-16 ns. -/
def retryUs (l : Link) : Nat :=
  if l.exchanged then (2 * l.delay.toNat + 65535999) / 65536000 + 10 else 500

/-- A Colol frame leaves as bytes (R328, R6). -/
def outLink (s : State) (l : Fin 4) (f : LinkFrame) : State := emitOut s (.link l f (linkBytes f))

/-- A frame's priority (R329). -/
def linkPrio : LinkBody → Nat
  | .timeReq _ | .timeResp .. => 0
  | .mirror .. => 2
  | .tunnel .. => 3
  | .idle => 4
  | _ => 1

/-- Frames of higher priority that have passed a waiting TUNNEL frame, once one of priority `n` has been sent (R330). -/
def passedNext (k : Link) (n : Nat) : Nat :=
  if n = 3 || !k.waiting.any (fun b => linkPrio b = 3) then 0 else if n < 3 then k.passed + 1 else k.passed

/-- The waiting frame that goes next, with the rest (R330): by priority, but a TUNNEL frame after seven of higher priority.
    Log entry 22. -/
def nextWaiting (k : Link) : Option (LinkBody × List LinkBody) :=
  (if 7 ≤ k.passed then [3, 1, 2] else [1, 2, 3]).findSome? fun n =>
    (k.waiting.find? fun b => linkPrio b = n).map fun b => (b, k.waiting.eraseP fun b => linkPrio b = n)

def sendNow (s : State) (l : Fin 4) (b : LinkBody) : State :=
  let k := link s l
  let rel := isReliable b
  let seq := if rel then k.txSeq + 1 else 0
  let s := modLink s l fun k =>
    if rel then { k with txSeq := k.txSeq + 1, txAt := s.now, ackDue := false, passed := passedNext k (linkPrio b),
                         retry := k.retry ++ [{ lseq := k.txSeq + 1, body := b, len := bodyLen b, sent := s.now }] }
    else { k with txAt := s.now, ackDue := false, passed := passedNext k (linkPrio b) }
  let s := match linkPerf b with | some i => perfAdd s (256 + 16 * l.val + i) 1 | none => s
  outLink s l { lseq := seq, ack := k.rxSeq, crcOk := true, lenOk := true, body := b }

/-- Frames that wait for room in the retry buffer go out (R330, R331). -/
def pumpWaiting : Nat → State → Fin 4 → State
  | 0, s, _ => s
  | n + 1, s, l =>
    match nextWaiting (link s l) with
    | some (b, r) =>
      if 32768 < retryBytes (link s l) + bodyLen b + 12 then s
      else pumpWaiting n (sendNow (modLink s l fun k => { k with waiting := r }) l b) l
    | none => s

/-- Sends a frame on a link (R330, R331): a reliable frame waits while the 32 KiB retry buffer is full. Log entry 22. -/
def linkSend (s : State) (l : Fin 4) (b : LinkBody) : State :=
  let k := link s l
  if isReliable b && (!k.waiting.isEmpty || 32768 < retryBytes k + bodyLen b + 12) then
    pumpWaiting (k.waiting.length + 1) (modLink s l fun k => { k with waiting := k.waiting ++ [b] }) l
  else sendNow s l b

/-- A frame with a correct CRC waits on a link at this tick (R355, R480). Log entry 34. -/
def linkWaits (s : State) (l : Fin 4) (p : LinkFrame → Bool) : Bool :=
  s.pending.any fun c => match c with | .linkFrameRx k _ _ f => k = l && f.crcOk && p f | _ => false

/-- A difference of two counter values in 2^-16 ns, modulo 2^48 s. -/
def subDiff (a b : Int) : Int :=
  let m : Int := ((counterMod / 2 ^ 32 : Nat) : Int)
  let d := (a - b) % m
  if d < m / 2 then d else d - m

def meanOf (l : List Int) : Int := if l.isEmpty then 0 else roundDiv (l.foldl (· + ·) 0) l.length

/-- The link in PAIR role, whatever its state (R25). -/
def pairRole (s : State) : Option (Fin 4) := (List.finRange 4).find? fun l => (link s l).role = .pair

/-- The mean of the last 16 PAIR offsets in 2^-16 ns (R376, R379). -/
def pairOffset (s : State) : Int := match pairRole s with | some l => meanOf (link s l).offs | none => 0

/-- The instant H less some nanoseconds, as this unit's counter reads it (R379): the incoming unit reads H − o. -/
def hMinus (s : State) (w : Swap) (ns : Nat) : Int :=
  (w.h : Int) * 65536 - (ns : Int) * 65536 - (if w.incoming then pairOffset s else 0)

/-- The counter has reached an instant in 2^-16 ns. -/
def reached (s : State) (t : Int) : Bool := decide (0 ≤ subDiff (subNs s.tco.counter : Int) t)

/-- The host path of a CASCADE engine (R347): its lower-lettered PARENT link that is not TRUNK and is UP. -/
def hostPath (s : State) : Option (Fin 4) :=
  if s.glb.pcie then none
  else (List.finRange 4).find? fun l => (link s l).role = .parent && !(link s l).trunk && (link s l).st = .up

/-- The link recorded for a slot (R345). -/
def routeTo (s : State) (slot : Nat) : Option (Fin 4) := s.lnk.routes.lookup slot

/-- Sends a tunnelled transaction toward the primary on the host path (R348). -/
def tunnelUp (s : State) (tag : BitVec 16) (t : Tunnel) : State :=
  match hostPath s with
  | some l => linkSend s l (.tunnel 0 (BitVec.ofNat 8 ((slotNum s).getD 0)) tag t)
  | none => s

/-- The data of a DMA_WR in pieces of at most 512 bytes (R348), each a multiple of 4 long (R349). -/
def chunks : Nat → List Byte → List (List Byte)
  | 0, _ => []
  | f + 1, l => if l.isEmpty then [] else
    let c := l.take 512
    (c ++ List.replicate (pad4 c.length - c.length) 0) :: chunks f (l.drop 512)

/-- A write to host memory: on PCIe, or as DMA_WR frames of a CASCADE engine (R348, R433). Log entry 27. -/
def hostDma (s : State) (addr : Nat) (data : List Byte) : State :=
  let s := perfAdd s 336 1
  if s.glb.pcie then emitOut s (.dma addr data)
  else ((chunks data.length data).foldl (fun (p : State × Nat) c =>
      (tunnelUp p.1 0 (.dmaWr (BitVec.ofNat 64 p.2) c), p.2 + 512)) (s, addr)).1

/-- A read of host memory: on PCIe, or as DMA_RD frames of a CASCADE engine; what it reads is the command's operand
    (R348, R352, entry 27). -/
def hostRead (s : State) (addr len : Nat) : State :=
  let s := perfAdd s 335 1
  if s.glb.pcie then s
  else (List.range (ceilDiv len 512)).foldl (fun s i =>
      let tag := s.lnk.dmaTag
      tunnelUp { s with lnk := { s.lnk with dmaTag := tag + 1 } } tag
        (.dmaRd (BitVec.ofNat 64 (addr + 512 * i)) (pad4 (min 512 (len - 512 * i))))) s

/-- The engine's hop count (R342). -/
def hopsNow (s : State) : Nat :=
  if s.tco.st = .night then 0
  else match s.refs.timeSlot with
    | some i =>
      let b := if i.val = 14 then s.refs.bind14 else if i.val = 15 then s.refs.bind15 else none
      match b with
      | some l => (link s l).validHops + 1
      | none => 0
    | none => s.lnk.hops

/-- The hop count kept as the TIME selector loses its slot (R342). -/
def keepHops (s : State) : State := { s with lnk := { s.lnk with hops := hopsNow s } }

/-! ## Interrupts (R451, R452) -/

/-- The domains of HOST run and the endpoint or the host path is up (R427, R347). -/
def hostUp (s : State) : Bool :=
  (s.pwr.state = .warm || s.pwr.state = .boil) && (if s.glb.pcie then s.hif.linkUp else (hostPath s).isSome)

/-- Raises an MSI-X vector: a masked vector sets its pending bit; a CASCADE engine sends a TUNNEL MSI frame. -/
def fireVec (s : State) (v : Nat) : State :=
  let s := perfAdd s 337 1
  if s.glb.pcie then
    if rb s (0xE8000 + 16 * (v % 64) + 12) 0 then
      { s with hif := { s.hif with pba := s.hif.pba ||| BitVec.ofNat 64 (2 ^ (v % 64)) } }
    else emitOut s (.msix (v % 64))
  else tunnelUp s 0 (.msi (BitVec.ofNat 8 v))

/-- Fires an interrupt source through its mapping in indirect space 0x02. -/
def fireSrc (s : State) (src : Nat) : State :=
  let w := ind s .hif 2 src
  if hostUp s && w.testBit 8 then fireVec s (fld w 5 0) else s

/-- A block's interrupt source, at most once in 10 µs (R452). -/
def blkIrq (s : State) (b : Blk) : State :=
  let k := blkStat s b
  let free := match k.irqUntil with | none => true | some u => decide (u ≤ s.now)
  if free then fireSrc (modBlk s b fun k => { k with irqUntil := some (s.now + ticksUs 10), irqPend := false })
      (11 + Blk.id b)
  else modBlk s b fun k => { k with irqPend := true }

/-! ## Rings (R430 to R434) -/

def ring (s : State) (r : Nat) : Ring := vget s.hif.rings Ring.reset r

def modRing (s : State) (r : Nat) (f : Ring → Ring) : State :=
  { s with hif := { s.hif with rings := vmod s.hif.rings r f } }

def ringWord (s : State) (r w : Nat) : Nat := ind s .hif 1 (8 * r + w)

def ringEn (s : State) (r : Nat) : Bool := (ringWord s r 4).testBit 8

/-- Entries of a ring (R431). -/
def ringSize (s : State) (r : Nat) : Nat := 2 ^ fld (ringWord s r 4) 4 0

/-- A ring runs: EN and DMA_EN are 1, the host can be reached, and no double-bit error stopped the ring state (R23).
    Log entry 43. -/
def ringRuns (s : State) (r : Nat) : Bool := ringEn s r && rb s Rg.hifCtrl 0 && hostUp s && !s.mem.misc[0]

def ringBase (s : State) (r : Nat) : Nat := ringWord s r 0 + 2 ^ 32 * ringWord s r 1

def ringWbAddr (s : State) (r : Nat) : Nat := ringWord s r 2 + 2 ^ 32 * ringWord s r 3

/-- The difference of a ring's indices (R432): entries outstanding. -/
def ringUsed (s : State) (r : Nat) : Nat := ((ring s r).eng - (ring s r).host).toNat

/-- Free entries of a ring that the engine fills. -/
def ringFree (s : State) (r : Nat) : Nat := ringSize s r - ringUsed s r

/-- Entries the host has posted and the engine has not consumed. -/
def ringPosted (s : State) (r : Nat) : Nat := ((ring s r).host - (ring s r).eng).toNat

/-- The interrupt source of a ring (R451). -/
def ringSrc (r : Nat) : Nat := r - 4

/-- Host address of the entry that the engine's index names. -/
def ringEntryAddr (s : State) (r : Nat) : Nat := ringBase s r + 32 * ((ring s r).eng.toNat % ringSize s r)

/-- The engine's index moves past `n` entries, which count as processed (R560). -/
def ringAdvance (s : State) (r n : Nat) : State :=
  perfAdd (modRing s r fun k => { k with eng := k.eng + BitVec.ofNat 32 n }) (320 + r) n

/-- Write-back of an index after the entries' own writes, then moderation and interrupt (R433, R452).
    `count` is how many entries are not marked NOIRQ. Log entry 41. -/
def ringNotifyAt (s : State) (r : Nat) (idx : BitVec 32) (count : Nat) : State :=
  let s := hostDma s (ringWbAddr s r) (leBytes 8 idx.toNat)
  if count = 0 then s else
  let k := ring s r
  let c := k.cnt + count
  let cfg := ringWord s r 5
  if fld cfg 7 0 ≤ c || fld cfg 25 16 = 0 then
    fireSrc (modRing s r fun k => { k with cnt := 0, since := none }) (ringSrc r)
  else modRing s r fun k => { k with cnt := c, since := some (k.since.getD s.now) }

/-- Write-back of the engine's own index (R433). -/
def ringNotify (s : State) (r count : Nat) : State := ringNotifyAt s r (ring s r).eng count

/-- Reads the next `n` descriptors of a ring. -/
def ringReads (s : State) (r n : Nat) : State :=
  (List.range n).foldl (fun s i => hostRead s (ringBase s r + 32 * (((ring s r).eng.toNat + i) % ringSize s r)) 32) s

/-- One 32-byte entry written by the engine. -/
def ringPut (s : State) (r : Nat) (data : List Byte) : State :=
  ringNotify (ringAdvance (hostDma s (ringEntryAddr s r) data) r 1) r 1

/-! ## Records (R545 to R556) -/

def Cls.code : Cls → Nat
  | .notice => 0 | .degraded => 1 | .severe => 2 | .fatal => 3

/-- One class higher (R549). -/
def Cls.up : Cls → Cls
  | .degraded => .severe | .severe => .fatal | c => c

def Cls.isFault : Cls → Bool
  | .notice => false | _ => true

def Cls.isHigh : Cls → Bool
  | .severe | .fatal => true | _ => false

/-- The class in force of an unacknowledged fault is Severe or Fatal (R547, R549). -/
def Unack.isHigh (u : Unack) : Bool := u.base.isHigh || u.esc

/-- The 16 bytes of a record (R545). -/
def recBytes (r : Rec) : List Byte :=
  leBytes 4 r.ts.toNat ++ leBytes 1 (Blk.id r.blk) ++ leBytes 1 r.seq.toNat ++
  leBytes 2 (r.code.toNat + r.cls.code * 4096 + flag r.esc 14 + flag r.test 15) ++ leBytes 8 r.detail.toNat

/-- Writes an event entry (R446). -/
def evWrite (s : State) (r : Rec) : State :=
  let s := { s with log := { s.log with eseq := s.log.eseq + 1 } }
  ringPut s 8 (recBytes r ++ leBytes 4 (s.log.eseq - 1).toNat ++ leBytes 2 (nodeId s).toNat ++ List.replicate 10 0)

/-- The event ring takes entries, and how many it has free. -/
def evFree (s : State) : Nat := if ringRuns s 8 then ringFree s 8 else 0

/-- A drop counted in EVT_DROP (R554). Log entry 44. -/
def evDrop (s : State) (high : Bool) : State :=
  if high then { s with log := { s.log with dropSf := s.log.dropSf + 1, newSf := s.log.newSf + 1 } }
  else { s with log := { s.log with dropNd := s.log.dropNd + 1, newNd := s.log.newNd + 1 } }

/-- The pending queue takes a record (R554). -/
def pendPut (s : State) (r : Rec) : State :=
  if s.log.pend.length < 16 then { s with log := { s.log with pend := s.log.pend ++ [r] } }
  else if r.cls.isHigh then
    match s.log.pend.findIdx? (fun q => q.cls = .degraded) with
    | some i => evDrop { s with log := { s.log with pend := s.log.pend.eraseIdx i ++ [r] } } false
    | none => evDrop s true
  else evDrop s false

/-- The coalescing table takes a Notice (R555). -/
def coalPut (s : State) (r : Rec) : State :=
  match s.log.coal.findIdx? (fun c => c.blk = r.blk && c.code = r.code) with
  | some i => { s with log := { s.log with coal := s.log.coal.modify i fun c => { c with count := sat32 (c.count + 1), ts := r.ts } } }
  | none =>
    if s.log.coal.length < 32 then
      { s with log := { s.log with coal := s.log.coal ++ [{ blk := r.blk, code := r.code, count := 1, ts := r.ts }] } }
    else evDrop s false

/-- What a record does on its way to the event ring (R553). -/
def evRoute (s : State) (r : Rec) : State :=
  if r.cls.isHigh then (if 1 ≤ evFree s then evWrite s r else pendPut s r)
  else if !ringRuns s 8 then s
  else if r.cls = .degraded then
    if 17 ≤ evFree s && s.log.pend.isEmpty then evWrite s r else pendPut s r
  else if 17 ≤ evFree s && s.log.pend.isEmpty && s.log.coal.isEmpty then evWrite s r else coalPut s r

/-- Adds a record to its block's history queue and counts it (R552, R577). -/
def histPut (s : State) (r : Rec) : State :=
  modBlk s r.blk fun k =>
    { k with hist := (if k.hist.length < 8 then k.hist else k.hist.drop 1) ++ [r], records := sat32 (k.records + 1) }

/-- The present SEQ with TS32: a record of the present instant. -/
def mkRec (s : State) (b : Blk) (code : Nat) (cls : Cls) (esc test : Bool) (detail : Nat) : Rec :=
  { ts := ts32 s, blk := b, seq := (blkStat s b).seq, code := BitVec.ofNat 12 code, cls := cls, esc := esc,
    test := test, detail := BitVec.ofNat 64 detail }

/-- The pantry's FAULTS figure of a record (R569). -/
def figFault (s : State) (b : Blk) (cls : Cls) : State :=
  modFig s fun f => { f with faults := figAdd f.faults (4 * (Blk.id b - 1) + cls.code) 1 }

/-- Pending Severe and Fatal records go on while F ≥ 1, the rest while F ≥ 17 (R556). -/
def drainPend : Nat → State → State
  | 0, s => s
  | n + 1, s => match s.log.pend with
    | [] => s
    | r :: rest =>
      if (if r.cls.isHigh then 1 else 17) ≤ evFree s then
        drainPend n (evWrite { s with log := { s.log with pend := rest } } r)
      else s

/-- COALESCED records, one for each entry, while F ≥ 17 (R556). They keep the SEQ current when written (R547). -/
def drainCoal : Nat → State → State
  | 0, s => s
  | n + 1, s => match s.log.coal with
    | [] => s
    | c :: rest =>
      if 17 ≤ evFree s && s.log.pend.isEmpty then
        let r := { mkRec s c.blk 0x0FFF .notice false false (c.code.toNat + sat32 c.count * 2 ^ 32) with ts := c.ts }
        drainCoal n (evWrite (figFault (histPut { s with log := { s.log with coal := rest } } r) c.blk .notice) r)
      else s

/-- SEQ, the sticky bit and the read mark after an event (R478, R479). -/
def seqAdvance (s : State) (b : Blk) (bit : Option Nat) : State :=
  modBlk s b fun k =>
    { k with seq := k.seq + 1, readMark := false,
             bits := match bit with | some i => k.bits ||| BitVec.ofNat 24 (2 ^ i) | none => k.bits }

/-- The drop notice, the pending queue and the coalesced records, before any new record (R556). -/
def evDrain (s : State) : State :=
  if 17 ≤ evFree s then
    let s := if s.log.newNd = 0 && s.log.newSf = 0 then s else
      let d := sat32 s.log.newNd + sat32 s.log.newSf * 2 ^ 32
      let s := seqAdvance { s with log := { s.log with newNd := 0, newSf := 0 } } .perf (some 2)
      let r := mkRec s .perf 0x0003 .notice false false d
      blkIrq (evWrite (figFault (histPut s r) .perf .notice) r) .perf
    drainCoal s.log.coal.length (drainPend s.log.pend.length s)
  else drainPend s.log.pend.length s

/-- Blocks that have a safe state (R468), and the bit of STATUS.SAFE. -/
def safeBit : Blk → Option Nat
  | .tco => some 6 | .refs => some 8 | .gbb => some 7 | .tio => some 5 | .svc => some 5 | .ptp => some 8
  | .eth => some 4 | .lnk => some 6 | .pair => some 7 | .key => some 5 | .hif => some 6
  | _ => none

/-- The engine acts as active: it holds ACTIVE_N, or has no link in PAIR role (R362). -/
def acting (s : State) : Bool :=
  s.pair.holding || !(List.finRange 4).any fun l => (link s l).role = .pair

/-- Enable, gate mask and STBY_MODE of an output (R209): PPS_OUT 0 to 3, FREQ_OUT 4 and 5, TIO pins 6 to 21. -/
def outCfg (s : State) (o : Nat) : Bool × Nat × Nat :=
  if o < 4 then let w := ind s .tio 1 (8 * o); (w.testBit 0, fld w 6 2, fld w 9 8)
  else if o < 6 then let w := ind s .tio 2 (8 * (o - 4)); (w.testBit 0, fld w 7 3, fld w 9 8)
  else let w := ind s .tio 3 (4 * (o - 6)); (fld w 1 0 = 1, fld w 9 5, fld w 11 10)

/-- Outputs are held inactive: OUT_EN is 0 or TIO is in its safe state (R201). -/
def outHeld (s : State) : Bool := !rb s Rg.tioCtrl 0 || safe s .tio

/-- The output may be driven by its schedule: it is enabled, the unit's role lets it, and it is not held (R201, R202). -/
def outMay (s : State) (o : Nat) : Bool :=
  let (en, _, stby) := outCfg s o
  en && (acting s || stby = 2) && !outHeld s

/-- The level of an output (R201, R202, R204): a disabled output and a standby unit's output of STBY_MODE 0 are high
    impedance; a held one is inactive; one that drives shows its pulse; one that has not begun keeps its level.
    Log entry 25. -/
def outLevel (s : State) (o : Nat) (p : OutPin) : Level :=
  let (en, _, stby) := outCfg s o
  if !en then .highZ
  else if !acting s && stby != 1 && stby != 2 then .highZ
  else if (!acting s && stby = 1) || outHeld s then .inactive
  else if p.driving then (match p.pulseEnd with | some e => if 16 * s.now < e then .active else .inactive | none => .inactive)
  else if p.level = .active then .inactive else p.level

/-- POL of an output (R182, R209): the PPS outputs and the TIO pins have one. -/
def outPol (s : State) (o : Nat) : Bool :=
  if o < 4 then (ind s .tio 1 (8 * o)).testBit 1 else if o < 6 then false else (ind s .tio 3 (4 * (o - 6))).testBit 2

/-- What the pin shows at a level (R182): POL 0 is active high. -/
def pinHigh (s : State) (o : Nat) : Level → Option Bool
  | .highZ => none
  | .active => some (!outPol s o)
  | .inactive => some (outPol s o)

/-- One output brought to the level its mode gives; `start` makes it drive its schedule at once (R203). -/
def refreshOut (s : State) (start : Bool) (o : Nat) : State :=
  let p := vget s.tio.outs OutPin.reset o
  let p := { p with driving := (p.driving || start) && outMay s o,
                    pulseEnd := if outHeld s || !(outCfg s o).1 then none else p.pulseEnd }
  let l := outLevel s o p
  let h := pinHigh s o l
  let s' := { s with tio := { s.tio with outs := vset s.tio.outs o { p with level := l, high := h } } }
  if l = (vget s.tio.outs OutPin.reset o).level && h = (vget s.tio.outs OutPin.reset o).high then s'
  else emitOut s' (.edge o l h (16 * s.now))

/-- Every output brought to the level of its mode, after a change of role, OUT_EN, safe state or configuration. -/
def refreshOuts (s : State) (start : Bool) : State := (List.range 22).foldl (fun s o => refreshOut s start o) s

/-- A block enters its safe state (R468, R551). -/
def enterSafe (s : State) (b : Blk) : State :=
  match safeBit b with
  | some i =>
    let s := modBlk s b fun k => { k with safe := true, bits := k.bits ||| BitVec.ofNat 24 (2 ^ i) }
    if b = .tio then refreshOuts s false else s
  | none => s

/-- The engine releases ACTIVE_N (R364): the line, pulled up by the board, reads high. -/
def lineRelease (s : State) : State :=
  if s.pair.drive || s.pair.holding then
    refreshOuts (emitOut { s with pair := { s.pair with drive := false, holding := false, line := true,
                                                        highAt := some s.now, lowAt := none, driveAt := none } }
      (.line false)) false
  else s

/-- A fault record's effects beyond its record: escalation is judged before, `cls` is the class in force (R551, R575). A
    thermal shutdown's commit is marked as such and records Off as entered (R513, R568, R570). Log entry 44. -/
def faultEffects (s : State) (r : Rec) : State :=
  match r.cls with
  | .fatal =>
    let s := lineRelease { s with log := { s.log with fatal := true } }
    let s := enterSafe s r.blk
    let hot := r.blk = .pwr && r.code = 3
    panCommit (panAppend s 4 (Blk.id r.blk) (r.code.toNat + r.cls.code * 4096 + flag r.esc 14) r.detail.toNat)
      hot (if hot then .off else s.pwr.state)
  | .severe => { s with pan := { s.pan with sevDue := true } }
  | _ => s

/-- A record of a block: escalation, SEQ, status bit, history, pantry figure, event ring, interrupt (R547 to R556).
    The access records of GLB are not counted in the pantry (R569). -/
def emitCore (s : State) (b : Blk) (code : Nat) (base : Cls) (detail : Nat) (bit : Option Nat) : State :=
  let s := evDrain s
  let esc := (base = .degraded || base = .severe) && (blkStat s b).unack.any (fun u => u.base = base)
  let cls := if esc then base.up else base
  let s := seqAdvance s b bit
  let r := mkRec s b code cls esc false detail
  let s := histPut s r
  let s := if base.isFault then
      modBlk s b fun k => { k with unack := k.unack ++ [{ base := base, esc := esc, code := BitVec.ofNat 12 code,
                                                          detail := BitVec.ofNat 64 detail, bit := bit }] }
    else s
  let s := if b = .glb && base = .notice then s else figFault s b cls
  blkIrq (faultEffects (evRoute s r) r) b

/-- A TEST record (R559), or a sample record (R220, R278): it keeps the SEQ current, and is no fault. -/
def emitPlain (s : State) (b : Blk) (code : Nat) (cls : Cls) (test : Bool) (detail : Nat) : State :=
  let s := evDrain s
  let r := mkRec s b code cls false test detail
  evRoute (histPut s r) r

/-- Appends a pantry log entry; a full log sets LOG_FULL (R571). Log entry 58. -/
def panLog (s : State) (type sub aux data : Nat) : State :=
  if s.pan.log.length < panLogMax then panAppend s type sub aux data
  else if s.pan.full || !coreUp s 0 then s
  else emitCore { s with pan := { s.pan with full := true } } .pan 0x0003 .notice 0 (some 2)

/-- ROLE_CHANGE with its cause (R386), and its entry in the pantry log (R571). Log entry 51. -/
def roleChange (s : State) (active : Bool) (cause : Nat) (incomplete : Bool) (ts : BitVec 32) : State :=
  panLog (emitCore s .pair 0x0001 .notice (flag active 0 + cause * 2 + flag incomplete 4 + ts.toNat * 2 ^ 32) (some 0))
    5 cause (flag active 0) ts.toNat

/-- The condition of R368 on the partner: its last heartbeat is at most one HB_PERIOD old and shows READY, a passed
    self-check and the same power state. -/
def demoteOk (s : State) : Bool :=
  let p := s.pair.partner
  p.seen && s.now ≤ s.pair.heardAt + ticksUs (rf s Rg.pairHbPeriod 31 0) && p.pstate = 4 && p.flags.getLsbD 4
    && p.power.toNat = s.pwr.state.code
    && (match s.pair.demotedAt with | none => true | some t => decide (t + ticksS 10 ≤ s.now))

/-- FAULT_DEMOTE (R368): the line is released, unless a planned swap proceeds (R384). -/
def demote (s : State) : State :=
  if rb s Rg.pairCtrl 2 && s.pair.holding && demoteOk s && s.pair.swap.isNone then
    roleChange (lineRelease (modFig { s with pair := { s.pair with demotedAt := some s.now } } fun f =>
      { f with swaps := figAdd f.swaps 3 1 })) false 4 false (ts32 s)
  else s

/-- A record with what its class brings about, fault demotion included (R368, R547 to R556). -/
def emit (s : State) (b : Blk) (code : Nat) (base : Cls) (detail : Nat) (bit : Option Nat) : State :=
  let before := (blkStat s b).unack.any (fun u => u.base = base)
  let s := emitCore s b code base detail bit
  let severe := base = .severe || (base = .degraded && before)
  if severe && (b = .tco || b = .refs || b = .clk || b = .key || b = .svc) then demote s else s

/-! ## Completions (R438 to R442) -/

namespace Status
abbrev ok : BitVec 8 := 0
abbrev busy : BitVec 8 := 1
abbrev refused : BitVec 8 := 2
abbrev badArg : BitVec 8 := 3
abbrev notFound : BitVec 8 := 4
abbrev state : BitVec 8 := 5
abbrev auth : BitVec 8 := 6
abbrev aborted : BitVec 8 := 7
abbrev malformed : BitVec 8 := 8
end Status

/-- A command has executed: its completion waits to be written, unless an FLR discarded it (R439, R454). -/
def complete (s : State) (hd : Hdr) (op : Nat) (status : BitVec 8) (rlen : Nat) (result : Nat) : State :=
  if s.hif.discard.contains hd then { s with hif := { s.hif with discard := s.hif.discard.erase hd } }
  else { s with hif := { s.hif with
    inflight := s.hif.inflight.filter (fun p => p.1 != hd),
    done := s.hif.done ++ [{ hd := hd, op := BitVec.ofNat 8 op, status := status, rlen := rlen, result := result }] } }

/-- A completion without a result. -/
def fin (s : State) (hd : Hdr) (op : Nat) (status : BitVec 8) : State := complete s hd op status 0 0

/-- Commands that RECOVERY accepts besides POWER_SET to Simmer or Off (R507). Log entry 54. -/
def recoveryOk (op : Nat) : Bool := op = 0 || op = 1 || op = 0x10 || op = 0x11 || (0xC0 ≤ op && op ≤ 0xC6) || op = 0xD0 || op = 0xD1

/-- The control core that executes a command; none where a block's command port does (R444). Log entry 73. -/
def opCore (op : Nat) : Option Nat :=
  if 0x10 ≤ op && op ≤ 0x13 then some 0
  else if 0x30 ≤ op && op ≤ 0x38 then some 2
  else if 0x40 ≤ op && op ≤ 0x4B then some 1
  else if op = 0x60 || (0x70 ≤ op && op ≤ 0x72) || op = 0x76 || op = 0x93 || op = 0x94 then some 3
  else if 0xA0 ≤ op && op ≤ 0xA5 then some 2
  else if op = 0xB6 || op = 0xB9 || (0xC0 ≤ op && op ≤ 0xC6) || op = 0xD0 || op = 0xD1 then some 0
  else none

/-- The command's executor runs: a halted core's functions stop (R516). Log entry 73. -/
def opRuns (s : State) (op : Nat) : Bool := match opCore op with | some n => coreUp s n | none => true

/-- A host command runs when the engine is Warm-ready; in RECOVERY only the commands of R507 run and every other
    completes STATE; in no other phase does a command reach its executor. `pre` is the BAD_ARG or NOT_FOUND that the
    arguments give, which stands before every other status (R609). -/
def cmd (s : State) (hd : Hdr) (op : Nat) (pre : Option (BitVec 8)) (body : State → State) : Ans :=
  match s.pwr.phase with
  | .ready => .next (
    if !opRuns s op then s
    else match pre with | some st => fin s hd op st | none => body s)
  | .recovery => .next (match pre with
    | some st => fin s hd op st
    | none => if recoveryOk op then body s else fin s hd op Status.state)
  | _ => .next s

/-- A standby in MIRRORING or READY: its mirrored state is not the host's to change (R377). -/
def standbyHeld (s : State) : Bool := !s.pair.holding && (s.pair.st = .mirroring || s.pair.st = .ready)

/-- BAD_ARG when a condition holds. -/
def badIf (b : Bool) : Option (BitVec 8) := if b then some Status.badArg else none

end Sys2Proof.Machine
end

