-- ==== Sys2Proof/Machine/CryptoOps.lean ====
section
/-! DEFINITION. Key slots as their users see them, the random source, and the AEADs (11_key_store.md R394 to R396,
06_nts_ntp_service.md R223 to R227). -/
namespace Sys2Proof.Machine

def modKey (s : State) (f : Key → Key) : State := { s with key := f s.key }

def KeySlot.empty : KeySlot := { attr := 0, key := 0 }

def keySlot (s : State) (n : Nat) : KeySlot := aget KeySlot.empty s.key.slots n

def setSlot (s : State) (n : Nat) (k : KeySlot) : State := modKey s fun q => { q with slots := aset KeySlot.empty q.slots n k }

/-- Fields of an attribute word (R394). -/
def KeySlot.valid (k : KeySlot) : Bool := k.attr.getLsbD 10
def KeySlot.p384 (k : KeySlot) : Bool := k.attr.getLsbD 15
def KeySlot.len (k : KeySlot) : Nat := fld k.attr.toNat 14 12
def KeySlot.use (k : KeySlot) (bit : Nat) : Bool := k.attr.getLsbD bit

/-- Key slots are served to SVC, PTP and PAIR: KEY_EN, and not in KEY's safe state (R418, R422). Log entry 79. -/
def keyServed (s : State) : Bool := rb s Rg.keyCtrl 0 && !safe s .key

/-- A slot as a use decided at `ns` of the counter finds it (R402): one that an invalidation takes stands with its key
    before T_c and is not VALID from T_c on, be the commit itself still to come. -/
def slotAt (s : State) (n ns : Nat) : KeySlot :=
  let k := keySlot s n
  match s.key.inval.find? fun v => if v.committed then decide (ns < v.tc) && v.old.any (fun x => x.1 = n) else v.slots.contains n && decide (v.tc ≤ ns) with
  | some v => if v.committed then aget k v.old n else { k with attr := k.attr &&& 0xFFFFFBFF }
  | none => k

/-- A slot usable for cookies: served, valid, 256 bits, COOKIE (R235). -/
def cookieUsableAt (s : State) (n ns : Nat) : Bool :=
  let k := slotAt s n ns
  keyServed s && k.valid && !k.p384 && k.len = 2 && k.use 5

def cookieUsable (s : State) (n : Nat) : Bool := cookieUsableAt s n (nowNs s)

/-- A slot usable for an ICV: valid, the algorithm's key length, MAC (R270). -/
def macUsableAt (s : State) (n : Nat) (cmac : Bool) (ns : Nat) : Bool :=
  let k := slotAt s n ns
  keyServed s && k.valid && !k.p384 && k.len = (if cmac then 1 else 2) && k.use 1

def macUsable (s : State) (n : Nat) (cmac : Bool) : Bool := macUsableAt s n cmac (nowNs s)

/-- Whether a detection of a source acts (R410 to R413): it is armed; 10 needs main power and no mask; 11 and 12 are
    found by the engine itself. PWR_FAIL_N of the same tick masks source 10 (R419). -/
def tamperActs (s : State) (src : Fin 13) : Bool :=
  s.key.tamperEn.getLsbD src.val && src.val != 11 && src.val != 12 &&
  !(src.val = 10 && (s.key.mask10 || s.pwr.state = .off || s.pwr.state = .simmer || s.pending.contains .pwrFail))

/-- A tamper of this tick that zeroises waits in the queue: key operations abort (R243, R281, R415). Log entry 34. -/
def tamperWaits (s : State) : Bool :=
  s.key.root.isSome && s.pending.any fun c => match c with | .tamperDetect src => tamperActs s src | _ => false

/-- A draw from the engine's random source (R408), as a number of any width (entry 17). -/
def draw (s : State) : Nat × State :=
  (Config.random s.key.draws,
    perfAdd (modKey s fun k => { k with draws := k.draws + 1, generates := k.generates + 1 }) 426 1)

/-- `n` random bytes. -/
def drawBytes (s : State) (n : Nat) : List Byte × State :=
  let (x, s) := draw s
  (leBytes n x, s)

/-- Exclusive or of two byte lists, as long as the first. -/
def xorBytes : List Byte → List Byte → List Byte
  | [], _ => []
  | a :: r, [] => a :: xorBytes r []
  | a :: r, b :: q => (a ^^^ b) :: xorBytes r q

/-- Sealing: the tag and the ciphertext. -/
def aeadSeal (aead key : Nat) (ad nonce plain : List Byte) : List Byte × List Byte :=
  let t := Config.sivTag aead key ad nonce plain
  (beBytes 16 t.toNat, xorBytes plain (leBytes plain.length (Config.sivStream aead key nonce t)))

/-- Opening: the plaintext, if the recomputed tag is the one given. -/
def aeadOpen (aead key : Nat) (ad nonce tag ct : List Byte) : Option (List Byte) :=
  let t : BitVec 128 := BitVec.ofNat 128 (beNat tag)
  let p := xorBytes ct (leBytes ct.length (Config.sivStream aead key nonce t))
  if Config.sivTag aead key ad nonce p = t then some p else none

/-- AEAD output on the wire: AEAD 15 puts the synthetic IV first (RFC 5297), AEAD 30 the tag last (RFC 8452). -/
def aeadOut (aead : Nat) (p : List Byte × List Byte) : List Byte := if aead = 30 then p.2 ++ p.1 else p.1 ++ p.2

/-- Tag and ciphertext of an AEAD's output. -/
def aeadSplit (aead : Nat) (l : List Byte) : List Byte × List Byte :=
  if aead = 30 then (l.drop (l.length - 16), l.take (l.length - 16)) else (l.take 16, l.drop 16)

/-! ## Wrapped blobs (R399, R400) -/

/-- The labels of the key derivations: "SW-7120 wrap", "SW-7120 attest", "SW-7120 store", "SW-7120 pair", and
    "SW-7120 KCV" padded to 16 bytes (R370, R393, R399, R405). -/
def lblWrap : List Byte := [0x53, 0x57, 0x2D, 0x37, 0x31, 0x32, 0x30, 0x20, 0x77, 0x72, 0x61, 0x70]
def lblAttest : List Byte := [0x53, 0x57, 0x2D, 0x37, 0x31, 0x32, 0x30, 0x20, 0x61, 0x74, 0x74, 0x65, 0x73, 0x74]
def lblStore : List Byte := [0x53, 0x57, 0x2D, 0x37, 0x31, 0x32, 0x30, 0x20, 0x73, 0x74, 0x6F, 0x72, 0x65]
def lblPair : List Byte := [0x53, 0x57, 0x2D, 0x37, 0x31, 0x32, 0x30, 0x20, 0x70, 0x61, 0x69, 0x72]
def lblKcv : List Byte := [0x53, 0x57, 0x2D, 0x37, 0x31, 0x32, 0x30, 0x20, 0x4B, 0x43, 0x56] ++ List.replicate 5 0

/-- Key bytes of a LEN code (R394, R399). -/
def lenBytes (len : Nat) : Nat := 16 * len

/-- The bytes of a blob before WRAPPED, for a KIND (R399). -/
def blobHead (kind len : Nat) (attr : Nat) (wslot wgen : Nat) (nonce eph : List Byte) : List Byte :=
  leBytes 4 0x53574B42 ++ [BitVec.ofNat 8 kind, 1] ++ leBytes 2 (48 + eph.length + lenBytes len) ++ leBytes 4 attr ++
  [BitVec.ofNat 8 wslot, BitVec.ofNat 8 wgen, 0, 0] ++ nonce ++ eph

/-- A blob of KIND 1: a slot's key wrapped under a symmetric WRAP slot (R399). -/
def wrapBlob (s : State) (slot wrap : Nat) : List Byte × State :=
  let k := keySlot s slot
  let w := keySlot s wrap
  let (nonce, s) := drawBytes s 16
  let head := blobHead 1 k.len k.attr.toNat wrap (fld w.attr.toNat 31 24) nonce []
  let (tag, ct) := aeadSeal 15 w.key head [] (beBytes (lenBytes k.len) k.key)
  (head ++ ct ++ tag, s)

/-- The SIV key of a KIND 2 blob (R399): HKDF-SHA-256 over the ECDH secret of the WRAP slot and EPH. -/
def ecdhKey (priv : Nat) (eph nonce head16 : List Byte) : Nat :=
  Config.hkdf (Config.ecdh priv (beNat eph)) nonce (lblWrap ++ head16) 32

/-- A USE, TYPE and LEN that R395 allows: a symmetric key's length must suit each use bit; a P-384 key carries exactly
    one of SIGN and WRAP. -/
def attrOk (a : Nat) : Bool :=
  let use := fld a 5 0
  let len := fld a 14 12
  if a.testBit 15 then len = 3 && (use = 4 || use = 16)
  else 1 ≤ len && len ≤ 4 && use != 0 && !use.testBit 2
    && (!use.testBit 0 || len = 1 || len = 2) && (!use.testBit 1 || len = 1 || len = 2)
    && (!use.testBit 5 || len = 2) && (!use.testBit 4 || len = 2)

/-- Opening a blob under a WRAP slot (R400): the ATTR bits taken and the key, or the status it fails with. -/
def openBlob (s : State) (blob : List Byte) (wrap : Nat) : Except (BitVec 8) (Nat × Nat) :=
  let w := keySlot s wrap
  let kind := leAt blob 4 1
  let attr := leAt blob 8 4
  let len := fld attr 14 12
  let off := if kind = 2 then 129 else 32
  let total := off + lenBytes len + 16
  if leAt blob 0 4 ≠ 0x53574B42 ∨ leAt blob 5 1 ≠ 1 ∨ kind ≠ (if w.p384 then 2 else 1) ∨ leAt blob 6 2 ≠ total
      ∨ blob.length ≠ total ∨ leAt blob 13 1 ≠ fld w.attr.toNat 31 24 then .error 6
  else
    let siv := if kind = 2 then ecdhKey w.key (slice blob 32 97) (slice blob 16 16) (blob.take 16) else w.key
    match aeadOpen 15 siv (blob.take off) [] (slice blob (total - 16) 16) (slice blob off (lenBytes len)) with
    | none => .error 6
    | some k => if attrOk attr then .ok (attr &&& 0xF33F, beNat k) else .error 3

/-- The check value of a symmetric key (R405): 8 bytes; none for a P-384 key or an empty slot. -/
def checkValue (k : KeySlot) : List Byte :=
  if !k.valid || k.p384 then List.replicate 8 0
  else if k.len ≤ 2 then (beBytes 16 (Config.cmac k.key (128 * k.len) lblKcv).toNat).take 8
  else (beBytes 32 (Config.hmac k.key (128 * k.len) lblKcv).toNat).take 8

/-- The order n of the P-384 group. -/
def p384Order : Nat :=
  0xFFFFFFFFFFFFFFFFFFFFFFFFFFFFFFFFFFFFFFFFFFFFFFFFC7634D81F4372DDF581A0DB248B0A77AECEC196ACCC52973

/-- The attribute word of a newly filled slot (R394): GEN one above the slot's last. -/
def newAttr (s : State) (slot parent origin bits : Nat) : BitVec 32 :=
  let gen := (fld (keySlot s slot).attr.toNat 31 24 + 1) % 256
  BitVec.ofNat 32 (gen * 2 ^ 24 + parent * 2 ^ 16 + (bits &&& 0xF33F) + 2 ^ 10 + origin * 64)

end Sys2Proof.Machine
end

