-- ==== Sys2Proof/Machine/MirrorOps.lean ====
section
/-! DEFINITION. Mirroring from the active unit to the standby (10_redundant_pair.md R373 to R377): when it runs, and the
records of key entries. -/
namespace Sys2Proof.Machine

def modPair (s : State) (f : Pair → Pair) : State := { s with pair := f s.pair }

/-- The link in PAIR role, when it is UP. -/
def pairLink (s : State) : Option (Fin 4) := (List.finRange 4).find? fun l => (link s l).role = .pair && (link s l).st = .up

/-- The active unit mirrors to its partner, and not in PAIR's safe state (R373, R468). -/
def mirrorOn (s : State) : Bool :=
  s.pair.holding && (s.pair.st = .mirroring || s.pair.st = .ready) && !safe s .pair && coreUp s 2 && !s.mem.misc[2]

/-- Sends one mirror record; the generation advances on every record (R376). -/
def mirrorPut (s : State) (snapshot last : Bool) (r : MirrorRec) : State :=
  if mirrorOn s then
    match pairLink s with
    | some l =>
      let g := s.pair.mgen + 1
      linkSend (modPair s fun p => { p with mgen := g }) l (.mirror g snapshot last r)
    | none => s
  else s

def mirrorSend (s : State) (r : MirrorRec) : State := mirrorPut s false false r

/-- Key slots that a mirrored entry names: the attribute word and the blob under the pair key, when the slot may leave
    (R374); otherwise MIRROR_KEY_SKIP. -/
def mirrorKey (s : State) (slot : Nat) : Word × List Byte × Bool × State :=
  let k := keySlot s slot
  match s.pair.keySlot with
  | some w =>
    if k.valid && k.attr.getLsbD 8 && keyServed s && (keySlot s w.toNat).valid then
      let (b, s) := wrapBlob s slot w.toNat
      (k.attr, b, true, s)
    else (k.attr, [], false, emit s .pair 0x000B .notice slot none)
  | none => (k.attr, [], false, s)

/-- A cookie key entry as a mirror record. -/
def mirrorCookie (s : State) (i : Fin 16) (snapshot : Bool) : State :=
  if !mirrorOn s then s else
  let e := s.svc.keys[i]
  let (attr, blob, ok, s) := if e.st = .empty then (0, [], false, s) else mirrorKey s e.slot.toNat
  mirrorPut s snapshot false (.cookieKey i e.keyId e.slot (BitVec.ofNat 2 (match e.st with
    | .empty => 0 | .current => 1 | .accept => 2 | .retiring => 3)) e.retireAt attr blob ok)

/-- A security key entry as a mirror record. -/
def mirrorSec (s : State) (i : Fin 64) (snapshot : Bool) : State :=
  if !mirrorOn s then s else
  let e := s.ptp.keys[i]
  let (attr, blob, ok, s) := if e.st = .empty then (0, [], false, s) else mirrorKey s e.slot.toNat
  mirrorPut s snapshot false (.secKey i e.keyId e.slot e.spp e.cmac (BitVec.ofNat 2 (match e.st with
    | .empty => 0 | .current => 1 | .accept => 2 | .retiring => 3)) e.retireAt attr blob ok)

end Sys2Proof.Machine
end

