-- ==== Sys2Proof/Machine/TioOps.lean ====
section
/-! DEFINITION. Timed I/O (05_timed_io.md): placing edges, edge reports, gates, targets and what a step misses. -/
namespace Sys2Proof.Machine

def outPin (s : State) (o : Nat) : OutPin := vget s.tio.outs OutPin.reset o

def modOut (s : State) (o : Nat) (f : OutPin → OutPin) : State :=
  { s with tio := { s.tio with outs := vmod s.tio.outs o f } }

/-- An output takes a level at a TIME phase. -/
def driveOut (s : State) (o : Nat) (l : Level) (ph : Nat) : State :=
  emitOut (modOut s o fun p => { p with level := l, high := pinHigh s o l }) (.edge o l (pinHigh s o l) ph)

/-- The output may drive an edge whose target is `num / den` in 2^-16 ns (R201 to R203): from the handover instant H of an
    accepted swap on, the edge is the incoming unit's. -/
def edgeMay (s : State) (o : Nat) (num : Int) (den : Nat) : Bool :=
  let (en, _, stby) := outCfg s o
  let role := match s.pair.swap with
    | some w =>
      if w.accepted && !w.handed && (!w.incoming || w.checked) && decide ((w.h * 65536 * den : Nat) ≤ num) then w.incoming else acting s
    | none => acting s
  en && (role || stby = 2) && !outHeld s

/-- SOURCE codes of reports and events (R183): PPS_OUT 0 to 3, FREQ_OUT 4 and 5, TIO pins from 16. -/
def outSource (o : Nat) : Nat := if o < 6 then o else o + 10

/-- Units of 2^-16 ns in one second. -/
def subSec : Nat := 1000000000 * 65536

/-- One grid step of 125 ps in 2^-16 ns (R178). -/
def gridStep : Nat := 8192

/-- The grid value of the present tick's first phase, in 2^-16 ns: the counter on the 125 ps grid (R46). -/
def gridBase (s : State) : Nat := subNs s.tco.counter / gridStep * gridStep

/-- Placement (R178): for a target `num / den` in 2^-16 ns, already reduced by D_out, the index of the nearest grid
    point counted from the present tick, the earlier one on a tie. Log entry 80. -/
def placeIdx (s : State) (num : Int) (den : Nat) : Int :=
  ceilDivI (2 * (num - (gridBase s * den : Nat)) - (gridStep * den : Nat)) (2 * gridStep * den)

/-- The grid value of index `k`, in 2^-16 ns. Log entry 80. -/
def gridVal (s : State) (k : Int) : Int := (gridBase s : Int) + k * (gridStep : Int)

/-- The TIME phase of index `k`. -/
def gridPhase (s : State) (k : Int) : Nat := ((16 * s.now : Nat) + k : Int).toNat

/-- D_out of an output in 2^-16 ns (R179). -/
def outDelay (s : State) (o : Nat) : Int :=
  4096 * sInt 32 (if o < 4 then ind s .tio 1 (8 * o + 3)
    else if o < 6 then ind s .tio 2 (8 * (o - 4) + 4) else ind s .tco 1 (2 * (o - 6 + 13) + 1))

/-- The U of an output in 62.5 ps (R183, R184): word 4 for PPS, the unit's U for TIO pins. -/
def outU (s : State) (o : Nat) : Nat := if o < 4 then ind s .tio 1 (8 * o + 4) else ind s .tco 2 (o - 6 + 13)

/-- A gate outcome (R200): the output is squelched in this clock state. -/
def gateShut (s : State) (o : Nat) : Bool := !(outCfg s o).2.1.testBit s.tco.st.code

/-- GATE when the outcome changes (R200). -/
def gateEvent (s : State) (o : Nat) : State :=
  let shut := gateShut s o
  if shut = (outPin s o).squelched then s
  else emit (modOut s o fun p => { p with squelched := shut }) .tio 0x0007 .notice
    (outSource o + flag shut 8 + s.tco.st.code * 2 ^ 16) (some 4)

/-- An edge report enters the edge queue, or is dropped and counted when it is full (R183, R184). -/
def reportPut (s : State) (o : Nat) (r : EdgeRep) : State :=
  let r := { r with seq := s.tio.edgeSeq }
  let t := { s.tio with edgeSeq := s.tio.edgeSeq + 1,
                        lastEdge := if o < 4 then vset s.tio.lastEdge o r.edge else s.tio.lastEdge,
                        lastQ := if o < 4 then vset s.tio.lastQ o (r.q.setWidth 16) else s.tio.lastQ }
  let s := modOut { s with tio := t } o fun p => { p with stepped := false }
  if s.tio.edgeQ.length < 256 then { s with tio := { s.tio with edgeQ := s.tio.edgeQ ++ [r] } }
  else
    let s := { s with tio := { s.tio with edgeDrop := s.tio.edgeDrop + 1,
                                          dropEdge := BitVec.ofNat 16 (min 0xFFFF (s.tio.dropEdge.toNat + 1)) } }
    if (blkStat s .tio).bits.getLsbD 1 then s
    else emit s .tio 0x0004 .degraded (outSource o) (some 1)

/-- TS128 of an instant in 2^-16 ns with the state and the TEB widened by `u` (R183). Log entry 80. -/
def edgeTs (s : State) (x : Int) (u : Nat) : BitVec 128 :=
  mkTs128 (moveCounter 0 (x * (2 ^ 32 : Nat))) (coasting s 0) s.tco.st (sat32 (s.tco.teb.toNat + u))

/-- One scheduled leading edge of output `o` reached: its target is `num / den` in 2^-16 ns, its width in phases.
    It is placed, gated, driven if the output may drive, and reported (R178 to R184, R200 to R204). A squelched one begins
    the driving of an output that has not begun, at its inactive level (R200). -/
def leadEdge (s : State) (o : Nat) (num : Int) (den width index : Nat) (report : Bool) : State :=
  let s := gateEvent s o
  let d := outDelay s o
  let k := placeIdx s (num - d * (den : Int)) den
  let shut := gateShut s o
  let held := outHeld s
  let q := roundDiv ((gridVal s k) * (den : Int) - (num - d * (den : Int))) den
  let ph := gridPhase s k
  let stepped := (outPin s o).stepped
  let may := edgeMay s o num den
  let s := if held then s
    else if shut then
      if may && !(outPin s o).driving then driveOut (modOut s o fun p => { p with driving := true }) o .inactive ph else s
    else
      let s := modOut s o fun p => { p with pulseEnd := some (ph + width) }
      if may then
        perfAdd (driveOut (modOut s o fun p => { p with driving := true }) o .active ph) (if o < 4 then 640 + o else 638 + o) 1
      else s
  if report then
    reportPut s o { edge := edgeTs s (gridVal s k + d) (outU s o), q := BitVec.ofInt 32 q, seq := 0,
                    source := BitVec.ofNat 8 (outSource o), missed := false, notEmitted := shut || held,
                    stepped := stepped, standby := !acting s, index := BitVec.ofNat 32 index }
  else s

/-- The report of the first target that a step passed, with the state and the TEB of the tick (R183). Log entry 80. -/
def missedReport (s : State) (o : Nat) (x : Int) (index : Nat) : State :=
  reportPut s o { edge := edgeTs s x 0, q := 0, seq := 0, source := BitVec.ofNat 8 (outSource o),
                  missed := true, notEmitted := false, stepped := (outPin s o).stepped, standby := !acting s,
                  index := BitVec.ofNat 32 index }

/-! ## PPS outputs (R182) -/

/-- PHASE of a PPS output in 2^-16 ns. -/
def ppsPhase (s : State) (n : Nat) : Int := 65536 * sInt 32 (ind s .tio 1 (8 * n + 2))

/-- The number of the first second whose target lies after a counter value, both in 2^-16 ns. -/
def ppsAfter (s : State) (n : Nat) (c : Int) : Nat := ((c - ppsPhase s n) / (subSec : Int) + 1).toNat

/-- The target of second `k`. -/
def ppsTarget (s : State) (n k : Nat) : Int := (k * subSec : Nat) + ppsPhase s n

/-- The runs of emitted seconds at the present PHASE. -/
def ppsRuns (s : State) (n : Nat) : List (Nat × Nat) :=
  ((vget s.tio.ppsSent [] n).filter fun r => r.1 = ppsPhase s n).map Prod.snd

/-- The edge of second `k` has been emitted (R181). -/
def ppsEmitted (s : State) (n k : Nat) : State :=
  let p := ppsPhase s n
  let add := fun (l : List (Int × Nat × Nat)) => match l with
    | (q, a, b) :: r => if q = p ∧ b + 1 = k then (q, a, k) :: r else (p, k, k) :: l
    | [] => [(p, k, k)]
  { s with tio := { s.tio with ppsSent := vmod s.tio.ppsSent n add } }

/-- The first number from `k` on that lies in none of `f` runs. -/
def runSkip (l : List (Nat × Nat)) : Nat → Nat → Nat
  | 0, k => k
  | f + 1, k => match l.find? fun r => r.1 ≤ k && k ≤ r.2 with
    | some r => runSkip l f (r.2 + 1)
    | none => k

/-- The first second from `k` on whose edge has not been emitted (R181). Log entry 80. -/
def ppsSkip (s : State) (n k : Nat) : Nat := runSkip (ppsRuns s n) (ppsRuns s n).length k

/-- The counter value that decides which edges of an output lie ahead, in 2^-16 ns: an edge is ahead while its placed value
    X − D_out is (R178, R181). -/
def edgeLine (s : State) (o : Nat) : Int := (subNs s.tco.counter : Int) + outDelay s o

/-- The value past which a positive step passes no target: an edge is missed when its target is passed, or the value at
    which it would have been placed (R181). Log entry 80. -/
def stepLine (s : State) (o : Nat) : Int := max (subNs s.tco.counter : Int) (edgeLine s o)

/-- Arms or disarms a PPS output's schedule after a write of its words. -/
def ppsArm (s : State) (n : Nat) : State :=
  let v := if (outCfg s n).1 then some (ppsSkip s n (ppsAfter s n (edgeLine s n))) else none
  { s with tio := { s.tio with ppsNext := vset s.tio.ppsNext n v } }

/-- A step of the counter and a PPS output's schedule (R181, R192): a positive one passes targets, after a negative
    one (`back`) those that have not been emitted come again. Log entry 80. -/
def ppsStep (back : Bool) (s : State) (n : Nat) : State :=
  match vget s.tio.ppsNext none n with
  | none => s
  | some k =>
    let nxt := ppsSkip s n (ppsAfter s n (if back then edgeLine s n else stepLine s n))
    let set := fun (s : State) => { s with tio := { s.tio with ppsNext := vset s.tio.ppsNext n (some nxt) } }
    if back then set s
    else if nxt ≤ k then s
    else
      let sent := ((ppsRuns s n).map fun r => min nxt (r.2 + 1) - max k r.1).foldl (· + ·) 0
      let s := missedReport s n (ppsTarget s n k) k
      emit (set s) .tio 0x0002 .notice (outSource n + sat32 (nxt - k - sent) * 2 ^ 32) (some 2)

/-! ## Triggers (R188 to R192) -/

/-- The target of edge `j`, as a fraction of 2^-16 ns (R189). -/
def trigTarget (t : Trig) (j : Nat) : Nat × Nat :=
  let start := t.startSec * subSec + t.startSub
  if t.rate then ((start + j / t.per * subSec) * t.per + j % t.per * subSec, t.per) else (start + j * t.per, 1)

/-- How many edges have a target at or before a counter value in 2^-16 ns. -/
def trigCount (t : Trig) (c : Nat) : Nat :=
  let start := t.startSec * subSec + t.startSub
  if c < start then 0
  else
    let d := c - start
    let n := if t.rate then d / subSec * t.per + d % subSec * t.per / subSec + 1
      else if t.per = 0 then 1 else d / t.per + 1
    if t.mode = 0 then min n 1 else n

/-- How many edges have a target before an instant in 2^-16 ns. -/
def trigBefore (t : Trig) (x : Nat) : Nat :=
  let start := t.startSec * subSec + t.startSub
  if x ≤ start then 0
  else
    let d := x - start - 1
    if t.rate then d / subSec * t.per + ceilDiv ((d % subSec + 1) * t.per) subSec else if t.per = 0 then 1 else d / t.per + 1

/-- How many edges the trigger has in all, where something bounds them: COUNT, one edge, the stop instant (R188, R191). -/
def trigBound (t : Trig) (n : Nat) : Nat :=
  let n := if t.mode = 0 then min 1 n else if t.count = 0 then n else min t.count n
  match t.stopAt with | some x => min n (trigBefore t x) | none => n

/-- Edge `j` exists: within COUNT and before the stop instant (R188, R191). -/
def trigHas (t : Trig) (j : Nat) : Bool :=
  (if t.mode = 0 then j = 0 else if t.count = 0 then true else decide (j < t.count)) &&
  (match t.stopAt with
    | some x => let (n, d) := trigTarget t j; decide (n < x * d)
    | none => true)

/-- An armed trigger as a mirror record (R373). -/
def mirrorTrig (s : State) (p : Nat) (t : Trig) : State :=
  mirrorSend s (.trig (Fin.ofNat 16 p) t.mode t.rate t.count t.startSec t.startSub t.per t.stopAt)

/-- A trigger ends (R191). -/
def trigEnd (s : State) (p : Nat) (emitted : Nat) : State :=
  let s := mirrorSend s (.trigGone (Fin.ofNat 16 p))
  emit { s with tio := { s.tio with trigs := vset s.tio.trigs p none } } .tio 0x0001 .notice
    (p + sat32 emitted * 2 ^ 32) none

/-- Ends a trigger that has no further edge. -/
def trigSettle (s : State) (p : Nat) : State :=
  match vget s.tio.trigs none p with
  | some t => if trigHas t t.j then s else trigEnd s p t.emitted
  | none => s

/-- A positive step passed edges of a trigger (R192). -/
def trigStep (s : State) (p : Nat) : State :=
  match vget s.tio.trigs none p with
  | none => s
  | some t =>
    let top := trigBound t (trigCount t (stepLine s (p + 6)).toNat)
    if top ≤ t.j then s
    else
      let (num, den) := trigTarget t t.j
      let s := if rb s (indKey .tio 3 (4 * p)) 12 then missedReport s (p + 6) (roundDiv num den) t.j else s
      let s := { s with tio := { s.tio with trigs := vset s.tio.trigs p (some { t with j := top }) } }
      trigSettle (emit s .tio 0x0002 .notice (outSource (p + 6) + sat32 (top - t.j) * 2 ^ 32) (some 2)) p

/-- What a step of the counter does to scheduled edges (R181, R183, R192): `back` for a negative one. Log entry 80. -/
def tioStep (back : Bool) (s : State) : State :=
  let s := { s with tio := { s.tio with outs := s.tio.outs.map fun p => { p with stepped := true } } }
  let s := (List.range 4).foldl (ppsStep back) s
  if back then s else (List.range 16).foldl trigStep s

/-! ## Frequency outputs (R185 to R187) -/

/-- N × 65,536 + FRAC. -/
def freqPeriod (s : State) (n : Nat) : Nat := ind s .tio 2 (8 * n + 1) * 65536 + fld (ind s .tio 2 (8 * n + 2)) 15 0

/-- The mode in force (R187): SECOND needs a whole number of cycles per second, and otherwise runs as FREE. Code 3 is
    none of the modes and runs as FREE (entry 25). -/
def freqMode (s : State) (n : Nat) : Nat :=
  let m := fld (ind s .tio 2 (8 * n)) 2 1
  if m = 2 then (if 8000000000 * 65536 % freqPeriod s n = 0 then 2 else 0) else if m = 1 then 1 else 0

/-- Sets the phase of a frequency output: the next rising edge at a TIME phase, the accumulator cleared. Log entry 26. -/
def freqRestart (s : State) (n ph : Nat) : State :=
  { s with tio := { s.tio with freq := vmod s.tio.freq n fun g => { g with acc := 0, next := some ph } } }

/-- A frequency output's configuration was written: a phase that nothing ties yet is a free value (R186, entry 26);
    a SECOND setting that is no whole number of cycles logs CFG_ADJUST (R187). -/
def freqArm (s : State) (n : Nat) : State :=
  if (outCfg s (n + 4)).1 then
    let s := if ((vget s.tio.freq { acc := 0, next := none, syncArmed := false, lastSec := none } n).next).isSome then s
      else let (x, s) := freeN s; freqRestart s n (16 * (s.now + 1) + x % (freqPeriod s n / 65536 + 1))
    if fld (ind s .tio 2 (8 * n)) 2 1 = 2 && freqMode s n != 2 then emit s .tio 0x0009 .notice n none else s
  else { s with tio := { s.tio with freq := vmod s.tio.freq n fun g => { g with next := none, syncArmed := false } } }

end Sys2Proof.Machine
end

