-- ==== Sys2Proof/Machine/TcoOps.lean ====
section
/-! DEFINITION. The time core (02_time_core.md): the frequency word, slews and steps, the growth law and its
contractions, the clock states, and UTC. -/
namespace Sys2Proof.Machine

def modTco (s : State) (f : Tco → Tco) : State := { s with tco := f s.tco }

/-! ## Locked, and the log of the total correction (R63, R108) -/

/-- Time-capable slots (R78). -/
def timeCapable (i : Fin 16) : Bool := i.val < 10 || 14 ≤ i.val

/-- A command that can bring the activity a slot awaits. -/
def brings (i : Fin 16) : Instr → Bool
  | .refsMeasurement j _ _ _ _ => j = i
  | .monitorUpdate l => !timeCapable i && l.any (fun p => p.1 = i)
  | .solutionDone g _ => i.val = (if g then 1 else 0)
  | .frameReceive _ _ _ _ _ _ _ => 2 ≤ i.val && i.val < 6
  | .ppsInEdge n _ _ => i.val = 6 + n.val
  | .todMessage n _ => i.val = 6 + n.val
  | .linkFrameRx _ _ _ _ => 14 ≤ i.val
  | _ => false

/-- Locked (R63): to the end of the 4 s, and through it where the awaited measurement may come on that tick (R480).
    Log entry 34. -/
def locked (s : State) : Bool :=
  s.refs.timeSlot = some s.tco.lockSlot && !s.refs.freqOnly
    && (match s.tco.lockUntil with
        | some t => decide (s.now < t) || (t = s.now && s.pending.any (brings s.tco.lockSlot))
        | none => false)

/-- How long the log of the total correction reaches back: the longest HOLD_AVG and the slow window. -/
def clogKeep : Nat := ticksS 3730

/-- Points of the log that a later reader can still need: those of the last `clogKeep` ticks and the one before. -/
def clogPrune (t : Nat) : List CPt → List CPt
  | [] => []
  | c :: r => if c.tick + clogKeep < t then [c] else c :: clogPrune t r

/-- Notes W, the steering value and the lock as they now stand (R108, R109). -/
def clogPush (s : State) : State :=
  let p : CPt := { tick := s.now, w := s.tco.w, code := s.refs.code, locked := locked s }
  { s with refs := { s.refs with clog := p :: clogPrune s.now s.refs.clog,
                                 everLocked := s.refs.everLocked || p.locked } }

/-- Notes the steering value and the lock when either has changed. -/
def clogMark (s : State) : State :=
  match s.refs.clog with
  | c :: _ => if c.code = s.refs.code ∧ c.locked = locked s then s else clogPush s
  | [] => clogPush s

/-! ## The frequency word and slews (R31 to R34, R38) -/

/-- The end of W's range (R33). -/
def wMax : Int := 281474976710

/-- The slew word's magnitude: SLEW_MAX ppb of the 2 ns tick (R38). -/
def slewMag (s : State) : Int := ((getW s Rg.tcoSlewMax).toNat * 2 ^ 49 / 1000000000 : Nat)

/-- The slew word of the present tick: no more than the remainder (R38). -/
def slewWord (s : State) : Int :=
  match s.tco.slew with
  | some k => clampI (-(slewMag s)) (slewMag s) k.remain
  | none => 0

/-- What the servo's part of a tick would be: W, what was asked beyond its range, and the phase withheld before (R34). -/
def servoAsk (s : State) : Int := s.tco.w + s.tco.wOver + s.tco.owed

/-- The word that a tick applies (R34). -/
def appliedWord (s : State) : Int := clampI (-wMax) wMax (clampI (-wMax) wMax (servoAsk s) + slewWord s)

/-- The sum of the servo's word and the slew word leaves the range (R34, R608). `u` is that sum. -/
def freqCheck (s : State) (u : Int) : State :=
  if -wMax ≤ u && u ≤ wMax then modTco s fun t => { t with clamped := false }
  else if s.tco.clamped then s
  else emit (modTco s fun t => { t with clamped := true }) .tco 0x0004 .degraded (satInt 48 u) (some 3)

/-- The unclamped sum of the servo's word and the slew word (R34, R608). -/
def wordSum (s : State) : Int := s.tco.w + s.tco.wOver + slewWord s

/-- The servo's frequency word takes a value: W stands within its range, what lies beyond it is kept, and the phase
    it stands for is carried forward (R33, R34). A FREQ_SET stands for its tick (R74). Log entries 10, 34. -/
def setWord (s : State) (w : Int) : State :=
  if s.tco.marks.freq = some s.now then s else
  let c := clampI (-wMax) wMax w
  let s := modTco s fun t => { t with w := c, wOver := w - c }
  clogPush (freqCheck s (wordSum s))

/-- A slew begins (R38). -/
def slewStart (s : State) (host : Option Hdr) (delta48 : Int) : State :=
  let s := modTco s fun t => { t with slew := some { host := host, remain := delta48, endTs := none } }
  freqCheck s (wordSum s)

/-- No slew any more: the word alone is judged against its range (R34). -/
def clearSlew (s : State) : State :=
  let s := modTco s fun t => { t with slew := none }
  freqCheck s (wordSum s)

/-- A slew ends before its phase is removed; a host slew completes ABORTED (R39, R71, R105). -/
def slewAbort (s : State) : State :=
  match s.tco.slew with
  | none => s
  | some k =>
    let s := clearSlew s
    match k.host with
    | some hd => fin s hd 0x23 Status.aborted
    | none => s

/-- A host slew is in progress. -/
def hostSlewing (s : State) : Bool :=
  match s.tco.slew with | some k => k.host.isSome | none => false

/-- The counter's advance on one tick (R31): 2 ns plus the applied word, what the slew removed of it, and the phase that
    the clamp withholds of the servo's part, which the following ticks apply as the range lets them (R34). -/
def tickCounter (s : State) : State :=
  let a := appliedWord s
  let b := clampI (-wMax) wMax (servoAsk s)
  let c := moveCounter s.tco.counter (2 ^ 49 + a)
  let beyond := servoAsk s - b
  let s := modTco s fun t => { t with counter := c, owed := beyond, lawT := t.lawT + 2 ^ 49 + a }
  match s.tco.slew with
  | none => s
  | some k =>
    if k.remain = 0 then s else
    let d := a - b
    let rest := k.remain - d
    let adj := match s.tco.adj with
      | e :: r => if e.tick < e.till ∧ e.till = s.now then { e with till := s.now + 1, delta := e.delta + d } :: r
                  else { tick := s.now, till := s.now + 1, delta := d } :: e :: r
      | [] => [{ tick := s.now, till := s.now + 1, delta := d }]
    let s := modTco s fun t => { t with slew := some { k with remain := rest }, adj := adj }
    if rest = 0 then modTco s fun t => { t with slew := some { k with remain := 0, endTs := some (tsNow s) } } else s

/-- The phase, in 2^-48 ns, that steps and slews added to the counter between two ticks (R81). -/
def adjBetween (s : State) (a b : Nat) : Int :=
  (s.tco.adj.map fun e =>
    if e.till ≤ a ∨ b < e.tick then 0
    else if e.tick = e.till then (if a < e.tick then e.delta else 0)
    else e.delta * ((min e.till b - max e.tick a : Nat) : Int) / ((e.till - e.tick : Nat) : Int)).foldl (· + ·) 0

/-- The counter at an earlier tick, with the word now in force (R59 t_m). -/
def counterAt (s : State) (tick : Nat) : Int :=
  (s.tco.counter : Int) - (((s.now - tick : Nat) : Int) * (2 ^ 49 + s.tco.w)) - adjBetween s tick s.now

/-! ## Temperature (R57) -/

/-- The temperature in use. -/
def tempNow (s : State) : Int :=
  match s.tco.tempHost with
  | some t => if rb s Rg.tcoCtrl 1 then t else s.tco.tempDie
  | none => s.tco.tempDie

/-- Log entries of the last ten seconds and the one before. -/
def logPrune {α : Type} (t : Nat) : List (Nat × α) → List (Nat × α)
  | [] => []
  | c :: r => if c.1 + ticksS 10 < t then [c] else c :: logPrune t r

/-- The value of a log at a tick: its newest entry not later than the tick, the oldest where none is. -/
def logAt {α : Type} (d : α) (t : Nat) : List (Nat × α) → α
  | [] => d
  | [c] => c.2
  | c :: r => if c.1 ≤ t then c.2 else logAt d t r

/-- The temperature in use may have changed: ΔTmax follows it (R53). -/
def tempMark (s : State) : State :=
  let x := tempNow s
  modTco s fun t => { t with dtMax := max t.dtMax (x - t.temp0).natAbs, tempLog := (s.now, x) :: logPrune s.now t.tempLog }

/-- Temp at an instant. -/
def tempAtTick (s : State) (tick : Nat) : Int := logAt (tempNow s) tick s.tco.tempLog

/-! ## Clock states (R62 to R67) -/

def unboundedTeb : BitVec 32 := 0xFFFFFFFF

/-- The published TEB as it leaves the engine: unbounded in NIGHT (R73). -/
def sentTeb (s : State) : BitVec 32 := if s.tco.st = .night then unboundedTeb else s.tco.teb

/-- The time is invalid (R64). -/
def timeInvalid (s : State) : Bool := s.tco.teb = unboundedTeb || s.tco.hostInvalid || safe s .tco

/-- TEB_TARGET in use (R66). DESIGN CHOICE (entry 63): with TEB_LIMIT 0, for which R66 gives no value, it is 0. -/
def targetInUse (s : State) : Nat :=
  let l := (getW s Rg.tcoTebLimit).toNat
  let t := (getW s Rg.tcoTebTarget).toNat
  if l ≤ t then l - 1 else t

/-- The underlying state: the first row of R62 whose condition holds. -/
def underlying (s : State) : ClockState :=
  if !s.tco.contracted then .night
  else if timeInvalid s || (getW s Rg.tcoTebLimit).toNat ≤ s.tco.teb.toNat then .storm
  else if !locked s then .overcast
  else if targetInUse s < s.tco.teb.toNat then .haze
  else .clear

/-- The reported state changes (R67). -/
def stateChange (s : State) (n : ClockState) : State :=
  let old := s.tco.st
  emit (modTco s fun t => { t with st := n, dwellAt := none }) .tco 0x0001 .notice
    (old.code + n.code * 16 + flag (coasting s 0) 7 + s.tco.teb.toNat * 2 ^ 32) (some 0)

/-- The reported state follows the underlying one: at once to a worse state, after TCO_DWELL to a better (R65). -/
def clockJudge (s : State) : State :=
  let s := clogMark s
  let u := underlying s
  if u.rank < s.tco.st.rank then stateChange s u
  else if u = s.tco.st then modTco s fun t => { t with dwellAt := none }
  else
    let d := s.tco.dwellAt.getD s.now
    if d + ticksMs (getW s Rg.tcoDwell).toNat ≤ s.now then stateChange s u
    else modTco s fun t => { t with dwellAt := some d }

/-- Notes the reported state and MDLL-T's coast flag when either has changed (R41, R76). -/
def stMark (s : State) : State :=
  let e := (s.tco.st, coasting s 0)
  if s.tco.stLog.head?.map Prod.snd = some e then s
  else modTco s fun t => { t with stLog := (s.now, e) :: logPrune s.now t.stLog }

/-- The clock state of the present tick, noted for the records of later ones. -/
def clockEval (s : State) : State := stMark (clockJudge s)

/-! ## The growth law (R53 to R61) -/

/-- Units of 2^-48 ns in one millisecond. -/
def unitsPerMs : Nat := 1000000 * 2 ^ 48

/-- The growth F·t + ½·A·t² + T·ΔTmax·t in 62.5 ps, rounded up: t in 2^-48 ns, F and T in 10^-15, A in 10^-21 s^-1,
    ΔTmax in 1/16 K (R53). -/
def growth (f a tc d t : Nat) : Nat :=
  ceilDiv ((16 * f + tc * d) * t * (1000000000000000 * 2 ^ 48) + 8 * a * t * t)
    (1000000000000000000000000000000 * 2 ^ 96)

/-- The law's value after a run of the counter in 2^-48 ns (R53, R56). -/
def lawAt (s : State) (t : Nat) : Nat :=
  let g := if s.tco.fassist then growth (getW s Rg.tcoFassistF).toNat 0 0 0 t
    else growth (getW s Rg.tcoOscF).toNat (getW s Rg.tcoOscA).toNat (getW s Rg.tcoOscT).toNat s.tco.dtMax t
  sat32 (s.tco.teb0.toNat + g)

/-- The law's value for the end of the coming millisecond (R53, R54). -/
def lawValue (s : State) : Nat :=
  lawAt s (s.tco.lawT + (((msOf s.tco.counter + 1) * unitsPerMs - s.tco.counter : Nat) : Int)).toNat

/-- Publishes a value without widening: the widening of a coasting MDLL-T is added (R61), for the end of the coming
    millisecond. Log entry 63. -/
def publish (s : State) (base : Nat) : State :=
  let teb := BitVec.ofNat 32 (sat32 (base + coastWidenAt s 0 0 (s.now + ticksMs 1)))
  modTco s fun t => { t with base := BitVec.ofNat 32 (sat32 base), teb := teb,
                             tebLog := if t.teb = teb ∧ !t.tebLog.isEmpty then t.tebLog
                               else (s.now, teb) :: logPrune s.now t.tebLog }

/-- A millisecond boundary (R54, R55, R59). Log entry 63. -/
def msBoundary (s : State) : State :=
  let programmed := rb s Rg.tcoCtrl 0 || s.tco.fassist
  let v := if programmed then
      (if s.tco.noMax then lawValue s else max s.tco.base.toNat (lawValue s))
    else if s.tco.fresh then s.tco.teb0.toNat else 0xFFFFFFFF
  let s := publish s v
  modTco s fun t => { t with fresh := false, noMax := false, lastMs := some (msOf t.counter) }

/-- The unwidened bound at this instant: the published value, or the law's once a contraction waits for the next
    boundary to be published (R56, R59, R61). -/
def boundNow (s : State) : Nat := if s.tco.noMax then lawAt s s.tco.lawT.toNat else s.tco.base.toNat

/-- Restarts the law at the present instant with a TEB0 (R56, R61, R72). -/
def lawRestart (s : State) (teb0 : Nat) : State :=
  modTco s fun t => { t with teb0 := BitVec.ofNat 32 (sat32 teb0), lawT := 0, temp0 := tempNow s, dtMax := 0 }

/-- The condition of R56. -/
def fassistCond (s : State) : Bool :=
  s.refs.timeSlot.isNone && s.refs.freqSlot.isSome && rb s Rg.tcoCtrl 2

/-- The frequency-assisted law begins or ends (R56). -/
def fassistEval (s : State) : State :=
  if fassistCond s = s.tco.fassist then s
  else modTco (lawRestart s (boundNow s)) fun t => { t with fassist := fassistCond s }

/-- The published TEB at an earlier tick. -/
def tebAtTick (s : State) (tick : Nat) : BitVec 32 := logAt s.tco.teb tick s.tco.tebLog

/-- C of R59 and R101 in 62.5 ps: the bound plus a remaining phase, both in 2^-16 ns, rounded up, at least 2 units. -/
def boundC (bound : Nat) (e : Int) : Nat := max 2 (ceilDiv (bound + e.natAbs) 4096)

/-- The law restarts from an instant with TEB0 = C and without the maximum (R59, R101). Log entry 63. -/
def lawFrom (s : State) (c latch : Nat) : State :=
  let t0 := tempAtTick s latch
  let later := s.tco.tempLog.filter fun e => decide (latch < e.1)
  modTco s fun t => { t with teb0 := BitVec.ofNat 32 (sat32 c), lawT := ((s.now - latch : Nat) : Int) * (2 ^ 49 + s.tco.w), temp0 := t0,
                             dtMax := (later.map fun e => (e.2 - t0).natAbs).foldl max 0, noMax := true, fresh := true }

/-- The reported state and the coast flag at an earlier tick. -/
def stateAtTick (s : State) (tick : Nat) : ClockState × Bool := logAt (s.tco.st, coasting s 0) tick s.tco.stLog

/-- A contraction: the law restarts from the latch instant, whose time, state and coast flag its TS128 carries; a
    TIME_INVALIDATE of the same tick stands (R41, R58, R59, R62, R64, R74, R76). Log entries 34, 63. -/
def contractAt (s : State) (c latch : Nat) : State :=
  let s := lawFrom (perfAdd s 592 1) c latch
  let (st, coast) := stateAtTick s latch
  modTco s fun t => { t with contracted := true, hostInvalid := t.hostInvalid && t.marks.inval = some s.now,
                             marks := { t.marks with contr := some s.now },
                             lastContr := mkTs128 (moveCounter 0 (counterAt s latch)) coast st (sat32 c) }

/-- The measurement proves that the bound was exceeded: offset − bound above the TEB (R59, R101, R608). DESIGN CHOICE
    (entry 63): the excess, for which R608 gives no rounding, is rounded up to 62.5 ps. -/
def tebExceed (s : State) (at_ : BitVec 32) (excess : Int) : State :=
  emit (modTco s fun t => { t with exceeds := t.exceeds + 1 }) .tco 0x0002 .degraded
    (at_.toNat + sat32 (ceilDiv excess.toNat 4096) * 2 ^ 32) (some 1)

/-- The offset's magnitude less the bound, in 2^-16 ns. -/
def excessOf (off : Int) (bound : Nat) : Int := (off.natAbs : Int) - (bound : Int)

/-- A bound in force is proved exceeded; an unbounded TEB is never exceeded. -/
def exceeded (at_ : BitVec 32) (off : Int) (bound : Nat) : Bool :=
  at_ != unboundedTeb && decide (((at_.toNat * 4096 : Nat) : Int) < excessOf off bound)

/-- A qualified measurement of a slot (R59): its offset, bound, remaining phase error and latch tick. It is the newest
    applied one for R63. Log entries 10, 63. -/
def contract (s : State) (i : Fin 16) (off : Int) (bound : Nat) (eres : Int) (latch : Nat) : State :=
  let c := boundC bound eres
  let at_ := tebAtTick s latch
  let s := if exceeded at_ off bound then contractAt (tebExceed s at_ (excessOf off bound)) c latch
    else if c < at_.toNat then contractAt s c latch
    else s
  clockEval (modTco s fun t =>
    { t with lockSlot := i, lockUntil := some (max (latch + ticksS 4) (if t.lockSlot = i then t.lockUntil.getD 0 else 0)) })

/-! ## UTC and leap seconds (R68 to R70) -/

/-- The value a pending code adds to TAI − UTC. -/
def leapAdd (pend : BitVec 2) : BitVec 16 := if pend = 1 then 1 else if pend = 2 then 0xFFFF else 0

/-- The pending leap takes effect (R69). -/
def leapDone (s : State) : State :=
  let off := s.tco.utcOff + leapAdd s.tco.pend
  let p := s.tco.pend
  emit (modTco s fun t => { t with utcOff := off, pend := 0, leapAt := 0 }) .tco 0x0006 .notice
    (off.toNat + p.toNat * 2 ^ 16) (some 5)

/-- TAI − UTC and a pending leap are written by the host or the time solution (R68 to R70). Log entry 64. -/
def utcWrite (s : State) (off : BitVec 16) (pend : BitVec 2) (leapAt : BitVec 32) (solution : Bool) : State :=
  let t := s.tco
  let at_ := if pend = 0 then 0 else leapAt
  let clash := t.utcValid && t.utcSrc != solution && (t.utcOff != off || t.pend != pend || t.leapAt != at_)
  let s' := modTco s fun t => { t with utcOff := off, utcValid := true, utcSrc := solution, pend := pend, leapAt := at_ }
  if clash then
    emit s' .tco 0x0009 .notice (t.utcOff.toNat + off.toNat * 2 ^ 16 + t.pend.toNat * 2 ^ 32 + pend.toNat * 2 ^ 34
      + flag solution 36) none
  else s'

/-! ## Steps (R36, R37, R39, R40, R72) -/

/-- A step of `delta` in 2^-48 ns with its source code: 0 REFS, 1 TIME_STEP, 2 TIME_SET. A REFS step on the tick of a
    TIME_SET stands before it and leaves the value set (R74). DESIGN CHOICE (entry 64): a Δ with bits below 2^-16 ns, for
    which R608 gives no rounding, is floored in the STEP record. -/
def applyStep (s : State) (src : Nat) (d0 : Int) : State :=
  let old := s.tco.counter
  let delta := if src = 0 && s.tco.marks.set = some s.now then 0 else d0
  let s := if hostSlewing s then slewAbort s else s
  let s := perfAdd s 593 1
  let s := modTco s fun t => { t with counter := moveCounter old delta,
                                      adj := { tick := s.now, till := s.now, delta := delta } ::
                                        t.adj.filter (fun e => decide (s.now ≤ e.till + ticksS 70)) }
  let s := { s with gbb := { s.gbb with latchStep := true, lastLatch := if delta < 0 then some (totNs s.tco.counter) else s.gbb.lastLatch },
                    perf := { s.perf with dumpStep := true },
                    lnk := { s.lnk with links := s.lnk.links.map fun l =>
                      { l with exch := l.exch.map fun e => { e with stepped := true } } } }
  let s := emit s .tco 0x0005 .notice (src + satInt 48 (d0 / (2 ^ 32 : Nat)) * 2 ^ 16) (some 4)
  let due := s.tco.pend != 0 &&
    decide (((secOf old - secOf old % 2 ^ 32 + s.tco.leapAt.toNat) * unitsPerSec : Nat) ≤ (old : Int) + delta)
  tioStep (decide (delta < 0)) (if due then leapDone s else s)

/-- A host step adds its magnitude, rounded up, to the TEB (R37). Log entry 64. -/
def hostStepTeb (s : State) (delta16 : Int) : State :=
  let a := ceilDiv delta16.natAbs 4096
  let s := modTco s fun t => { t with teb0 := BitVec.ofNat 32 (sat32 (t.teb0.toNat + a)) }
  let s' := modTco s fun t => { t with teb := BitVec.ofNat 32 (sat32 (t.teb.toNat + a)),
                                       base := BitVec.ofNat 32 (sat32 (t.base.toNat + a)) }
  modTco s' fun t => { t with tebLog := (s.now, t.teb) :: logPrune s.now t.tebLog }

end Sys2Proof.Machine
end

