-- ==== Sys2Proof/Machine/Time.lean ====
section
/-! DEFINITION. The time core's commands and events (02_time_core.md R38, R54, R57, R63, R65, R69, R71 to R74). -/
namespace Sys2Proof.Machine

/-- TCO applies at most one host command on a tick: a further one waits for the next (R74). Log entry 34. -/
def tcoHost (s : State) (c : Instr) (f : State → Ans) : Ans :=
  if s.pwr.phase = .ready && s.tco.marks.host = some s.now then .next (modTco s fun t => { t with later := t.later ++ [c] })
  else f s

/-- A host command is applied on this tick. -/
def tcoTake (s : State) : State := modTco s fun t => { t with marks := { t.marks with host := some s.now } }

/-- A completion whose result is one TS128. -/
def finTs (s : State) (hd : Hdr) (op : Nat) (ts : BitVec 128) : State := complete s hd op Status.ok 16 ts.toNat

/-- TIME_GET (R71): the present TS128 and the frequency word in effect. Log entry 64. -/
def execTimeGet (hd : Hdr) (s : State) : Ans :=
  cmd s hd 0x20 none fun s =>
    complete s hd 0x20 Status.ok 24 (pack [(0, (tsNow s).toNat), (16, uInt 64 (appliedWord s))])

/-- TIME_SET (R71, R72): a step to the value given; TEB and TEB0 take the value given and the law restarts, unless a
    contraction of the same tick stands after it (R74). -/
def execTimeSet (hd : Hdr) (sec : BitVec 64) (ns : BitVec 32) (frac : BitVec 16) (teb : BitVec 32) (s : State) : Ans :=
  tcoHost s (.timeSet hd sec ns frac teb) fun s =>
  cmd s hd 0x21 (badIf (decide (1000000000 ≤ ns.toNat ∨ 2 ^ 48 ≤ sec.toNat))) fun s =>
    if s.tco.st ≠ .night then fin s hd 0x21 Status.state else
    let v : Nat := sec.toNat * unitsPerSec + ns.toNat * 2 ^ 48 + frac.toNat * 2 ^ 32
    let s := applyStep (tcoTake s) 2 ((v : Int) - (s.tco.counter : Int))
    let s := modTco s fun t => { t with marks := { t.marks with set := some s.now } }
    let s := if s.tco.marks.contr = some s.now then s else publish (lawRestart s teb.toNat) teb.toNat
    let s := clockEval s
    finTs s hd 0x21 (tsNow s)

/-- Δ of TIME_STEP and TIME_SLEW in 2^-16 ns (R71). -/
def hostDelta (ns : BitVec 64) (frac : BitVec 16) : Int := ns.toInt * 65536 + frac.toInt

/-- |Δ| exceeds STEP_LIMIT (R71, R101). -/
def overLimit (s : State) (delta16 : Int) : Bool := decide ((getW s Rg.refsStepLimit).toNat * 65536 < delta16.natAbs)

/-- TIME_STEP (R37, R71): a step through REFS, within STEP_LIMIT; |Δ| is added to the TEB. -/
def execTimeStep (hd : Hdr) (ns : BitVec 64) (frac : BitVec 16) (s : State) : Ans :=
  tcoHost s (.timeStep hd ns frac) fun s =>
  cmd s hd 0x22 none fun s =>
    let d := hostDelta ns frac
    if s.refs.timeSlot.isSome || s.refs.phase != .idle then fin s hd 0x22 Status.state
    else if overLimit s d then fin s hd 0x22 Status.refused
    else
      let s := clockEval (hostStepTeb (applyStep (tcoTake s) 1 (d * 2 ^ 32)) d)
      finTs s hd 0x22 (tsNow s)

/-- TIME_SLEW (R38, R71): a slew that removes Δ; it completes with its final tick. Log entry 64. -/
def execTimeSlew (hd : Hdr) (ns : BitVec 64) (frac : BitVec 16) (s : State) : Ans :=
  tcoHost s (.timeSlew hd ns frac) fun s =>
  cmd s hd 0x23 none fun s =>
    let d := hostDelta ns frac
    if s.refs.timeSlot.isSome || s.refs.phase != .idle then fin s hd 0x23 Status.state
    else if hostSlewing s then fin s hd 0x23 Status.busy
    else if overLimit s d then fin s hd 0x23 Status.refused
    else slewStart (tcoTake s) (some hd) (d * 2 ^ 32)

/-- FREQ_SET (R71): the frequency word in NIGHT, for this tick above a REFS word (R74). -/
def execFreqSet (hd : Hdr) (w : BitVec 64) (s : State) : Ans :=
  tcoHost s (.freqSet hd w) fun s =>
  cmd s hd 0x24 (badIf (decide (w.toInt < -wMax ∨ wMax < w.toInt))) fun s =>
    if s.tco.st ≠ .night then fin s hd 0x24 Status.state else
    let s := setWord (tcoTake s) w.toInt
    fin (modTco s fun t => { t with marks := { t.marks with freq := some s.now } }) hd 0x24 Status.ok

/-- TEMP_SUPPLY (R57, R71). -/
def execTempSupply (hd : Hdr) (temp : BitVec 16) (s : State) : Ans :=
  tcoHost s (.tempSupply hd temp) fun s =>
  cmd s hd 0x25 none fun s =>
    if !rb s Rg.tcoCtrl 1 then fin s hd 0x25 Status.state
    else fin (tempMark (modTco (tcoTake s) fun t => { t with tempHost := some temp.toInt, tempAt := some s.now })) hd 0x25 Status.ok

/-- TIME_INVALIDATE (R64, R71). -/
def execTimeInvalidate (hd : Hdr) (s : State) : Ans :=
  tcoHost s (.timeInvalidate hd) fun s =>
  cmd s hd 0x26 none fun s =>
    let s := clockEval (modTco (tcoTake s) fun t => { t with hostInvalid := true, marks := { t.marks with inval := some s.now } })
    finTs s hd 0x26 (tsNow s)

/-- LEAP_SET (R69, R71): a pending leap only with a LEAP_AT later than the present seconds[31:0]. -/
def execLeapSet (hd : Hdr) (off : BitVec 16) (pend : BitVec 8) (leapAt : BitVec 32) (s : State) : Ans :=
  tcoHost s (.leapSet hd off pend leapAt) fun s =>
  cmd s hd 0x27 (badIf (decide (2 < pend.toNat ∨
      (pend.toNat ≠ 0 ∧ leapAt.toNat ≤ secOf s.tco.counter % 2 ^ 32)))) fun s =>
    if standbyHeld s then fin s hd 0x27 Status.state else
    fin (utcWrite (tcoTake s) off (pend.setWidth 2) leapAt false) hd 0x27 Status.ok

/-- TEB_PUBLISH (R54): on a millisecond boundary of the counter not yet evaluated. -/
def execTebPublish (s : State) : Ans :=
  .next (if s.tco.lastMs = some (msOf s.tco.counter) then s else clockEval (msBoundary s))

/-- DWELL_EXPIRY (R65): TCO_DWELL has run while better states held. -/
def execDwellExpiry (s : State) : Ans :=
  .next (match s.tco.dwellAt with | some _ => clockEval s | none => s)

/-- LOCK_LAPSE (R63): 4 s have passed since the newest measurement's latch. -/
def execLockLapse (s : State) : Ans :=
  .next (match s.tco.lockUntil with
    | some t => if t ≤ s.now && !locked s then clockEval (modTco s fun t => { t with lockUntil := none }) else s
    | none => s)

/-- LEAP_DONE (R69): seconds[31:0] have reached LEAP_AT. -/
def execLeapDone (s : State) : Ans :=
  .next (if s.tco.pend != 0 && decide (s.tco.leapAt.toNat ≤ secOf s.tco.counter % 2 ^ 32) then leapDone s else s)

/-- A host temperature waits at this tick (R480). Log entry 34. -/
def tempWaits (s : State) : Bool :=
  s.pwr.phase = .ready && s.pending.any fun c => match c with | .tempSupply _ _ => true | _ => false

/-- TEMP_FALLBACK (R57): 5 s without a host temperature while TEMP_SRC is 1; one of this tick wins (R480). -/
def execTempFallback (s : State) : Ans :=
  .next (match s.tco.tempAt with
    | some t =>
      if rb s Rg.tcoCtrl 1 && decide (t + ticksS 5 ≤ s.now) && !(t + ticksS 5 = s.now && tempWaits s) then
        let s := tempMark (modTco s fun t => { t with tempHost := none, tempAt := none })
        emit s .tco 0x0007 .degraded (uInt 16 (tempNow s)) none
      else s
    | none => s)

/-- SLEW_COMPLETE (R38): the last of the offset has been removed; a host slew completes with the final tick's TS128. -/
def execSlewComplete (s : State) : Ans :=
  .next (match s.tco.slew with
    | some k =>
      if k.remain = 0 then
        let s := clearSlew s
        match k.host with
        | some hd => finTs s hd 0x23 (k.endTs.getD (tsNow s))
        | none => s
      else s
    | none => s)

end Sys2Proof.Machine
end

