-- ==== Sys2Proof/Machine/RefsOps.lean ====
section
/-! DEFINITION. References, selection and holdover (03_reference_selection.md): slots, ranks and monitors, the
selectors and the switch transaction, holdover, and oscillator steering. -/
namespace Sys2Proof.Machine

def modRefs (s : State) (f : Refs → Refs) : State := { s with refs := f s.refs }

def slot (s : State) (i : Fin 16) : Slot := s.refs.slots[i]

def modSlot (s : State) (i : Fin 16) (f : Slot → Slot) : State :=
  modRefs s fun r => { r with slots := vmod r.slots i.val f }

/-- Word `w` of a slot's configuration (R125). -/
def slotCfg (s : State) (i : Fin 16) (w : Nat) : Nat := ind s .refs 1 (8 * i.val + w)

def slotEn (s : State) (i : Fin 16) : Bool := (slotCfg s i 0).testBit 0

/-- Locked out (R92, R122 REF_LOCKOUT). -/
def slotOut (s : State) (i : Fin 16) : Bool := (slotCfg s i 0).testBit 1

def slotPrio (s : State) (i : Fin 16) : Nat := fld (slotCfg s i 0) 7 4

def slotBinding (s : State) (i : Fin 16) : Nat := fld (slotCfg s i 0) 31 24

/-! ## Ranks (R89 to R91) -/

/-- Slots whose mapped rank is 0xFF until their source advertises a quality: GNSS, PTP client, Colol parent (R90). -/
def needsAdvert (i : Fin 16) : Bool := i.val < 6 || 14 ≤ i.val

/-- The rank in force: the run-time override, the configured override, the mapped rank, or RANK_OVR as TOD_RANK and
    FREQ_RANK (R90, R91, R125). -/
def rank (s : State) (i : Fin 16) : Nat :=
  let w := slotCfg s i 0
  match (slot s i).ovr with
  | some r => r.toNat
  | none =>
    if w.testBit 16 then fld w 15 8
    else match (slot s i).mapped with
      | some r => r.toNat
      | none => if needsAdvert i then 0xFF else fld w 15 8

/-- The rank of a GNSS integrity state (R90). -/
def gnssRank (integrity : Nat) : BitVec 8 :=
  match integrity with | 0 => 0x10 | 1 => 0x28 | 2 => 0x68 | _ => 0xFF

/-- The PTP class band (R90). -/
def classBand (c : Nat) : Nat :=
  if c = 6 then 0x20 else if c = 7 || c = 135 then 0x40 else if c = 13 then 0x50 else if c = 140 then 0x60
  else if c = 150 then 0x70 else if c = 160 then 0x80 else if c = 14 then 0x90 else if c = 52 || c = 187 then 0xA0
  else if c = 58 || c = 193 then 0xB0 else if c = 165 then 0xC0 else if c = 248 then 0xE0 else 0xFF

/-- The rank of a PTP quality: class band and accuracy step (R90). -/
def ptpRank (cls acc var : Nat) : BitVec 8 :=
  let a := if acc = 0xFE then 15 else acc - 0x20
  let v := if var ≤ 0x4E5D then 0 else if var ≤ 0x8000 then 1 else if var = 0xFFFF then 3 else 2
  if classBand cls = 0xFF then 0xFF else BitVec.ofNat 8 (classBand cls + min 15 (a + v))

/-- The rank of an advertised TEB in 62.5 ps: min(0xFE, 0x10 + 8 × ⌈log2(TEB + 1)⌉) with TEB in ns (R90). -/
def cololRank (teb : BitVec 32) : BitVec 8 :=
  if teb = unboundedTeb then 0xFF else
  let ns := ceilDiv teb.toNat 16
  BitVec.ofNat 8 (min 0xFE (0x10 + 8 * (if ns = 0 then 0 else Nat.log2 ns + 1)))

/-! ## Limits and qualification (R84 to R88) -/

/-- Accept and reject limits of monitor 0 fast, 1 slow, 2 phase (R84, R85), in ppt or ns. -/
def limits (s : State) (i : Fin 16) (m : Nat) : Nat × Nat :=
  let a := slotCfg s i (2 + 2 * m)
  (a, max a (slotCfg s i (3 + 2 * m)))

/-- The magnitudes of the evaluated monitors with the cause code of each: ppt, ppt, and 2^-16 ns. -/
def monValues (s : State) (i : Fin 16) : List (Nat × Nat × Nat) :=
  let k := slot s i
  (match k.fast with | some v => [(0, v.natAbs, 1)] | none => []) ++
  (match k.slow with | some v => [(1, v.natAbs, 1)] | none => []) ++
  (match k.phase with | some v => [(2, v, 65536)] | none => [])

/-- The cause of the first monitor beyond reject; 0 none (R84, R87). -/
def beyond (s : State) (i : Fin 16) : Nat :=
  match (monValues s i).find? (fun p => decide ((limits s i p.1).2 * p.2.2 < p.2.1)) with
  | some p => p.1 + 2
  | none => 0

/-- Inside accept on every monitor that is evaluated (R86). -/
def inside (s : State) (i : Fin 16) : Bool :=
  (monValues s i).all fun p => decide (p.2.1 ≤ (limits s i p.1).1 * p.2.2)

/-- SLOT_QUAL (R88, R123). -/
def slotQual (s : State) (i : Fin 16) (on : Bool) (cause : Nat) : State :=
  emit s .refs 0x0001 .notice (i.val + flag on 4 + cause * 2 ^ 8 + rank s i * 2 ^ 16) (some 1)

/-- A qualified GNSS slot is present. -/
def gnssQualified (s : State) : Bool := (slot s 0).qualified || (slot s 1).qualified

/-- The GNSS outage figures follow the qualification of slots 0 and 1 (R569). -/
def gnssTrack (s : State) : State :=
  if gnssQualified s then
    match s.pan.goutAt with
    | some t => modFig { s with pan := { s.pan with goutAt := none, gnssSeen := true } } fun f => figGout f (s.now - t)
    | none => { s with pan := { s.pan with gnssSeen := true } }
  else if s.pan.gnssSeen && s.pan.goutAt.isNone then { s with pan := { s.pan with goutAt := some s.now } }
  else s

/-- A slot is disqualified: the mark REFUSED clears with it (R87, R88, R104). -/
def disqualify (s : State) (i : Fin 16) (cause : Nat) : State :=
  let s := slotQual (modSlot s i fun k =>
    { k with qualified := false, cause := cause, refused := false, withinAt := none }) i false cause
  gnssTrack s

/-- A slot becomes qualified. -/
def qualify (s : State) (i : Fin 16) : State :=
  gnssTrack (slotQual (modSlot s i fun k => { k with qualified := true, qualAt := s.now, insideAt := none }) i true 0)

/-- The count of R86 and the disqualifications of R87 follow the monitors, the activity and the rank. Log entry 65. -/
def judge (s : State) (i : Fin 16) : State :=
  let k := slot s i
  if !slotEn s i then s
  else
    let cause := if !k.active then 1 else if beyond s i ≠ 0 then beyond s i else if rank s i = 0xFF then 5 else 0
    if cause ≠ 0 || !inside s i then
      let s := modSlot s i fun k => { k with insideAt := none }
      if cause ≠ 0 && k.qualified then disqualify s i cause else s
    else if k.qualified || k.insideAt.isSome then s
    else modSlot s i fun k => { k with insideAt := some s.now }

/-! ## The log of the total correction (R108, R109) -/

def oscGain (s : State) : Int := sInt 32 (getW s Rg.refsOscGain).toNat

/-- c in units of 1 / (10^15 × 2^49) (R108). -/
def cVal (s : State) (w code : Int) : Int := w * 1000000000000000 + oscGain s * code * 2 ^ 49

def cNow (s : State) : Int := cVal s s.tco.w s.refs.code

/-- The sum of c over ticks `a` to `b` and how many ticks it covers; `only` counts locked ticks alone. -/
def sumC (s : State) (only : Bool) (a b : Nat) : Nat → List CPt → Int × Nat
  | _, [] => (0, 0)
  | upto, c :: r =>
    let n := min b upto - max a c.tick
    let (x, k) := if c.tick ≤ a then (0, 0) else sumC s only a b c.tick r
    if !only || c.locked then (x + cVal s c.w c.code * (n : Int), k + n) else (x, k)

/-- Locked at every tick from `a` to `b`. -/
def lockedAll (a b : Nat) : Nat → List CPt → Bool
  | _, [] => false
  | _, c :: r =>
    if b < c.tick then lockedAll a b c.tick r
    else c.locked && (decide (c.tick ≤ a) || lockedAll a b c.tick r)

/-- c averaged over the locked part of the HOLD_AVG interval that ends at `e`; the last word in force when there is no
    locked part (R109). -/
def cAvgEnd (s : State) (e : Nat) : Int :=
  let (x, n) := sumC s true (e - ticksS (getW s Rg.refsHoldAvg).toNat) e s.now s.refs.clog
  if n = 0 then cNow s else roundDiv x n

/-! ## Ageing (R110) -/

/-- Enough samples: 24 h of locked ones, each for the period it was taken at. -/
def ageValid (s : State) : Bool := decide (86400 ≤ (s.refs.ageing.map fun p => p.2.2).sum)

/-- The negated least-squares slope of the samples in 10^-21 s^-1. -/
def ageLearned (s : State) : Int :=
  let l := s.refs.ageing
  let n : Int := l.length
  let st := (l.map fun p => (p.1 : Int)).foldl (· + ·) 0
  let sc := (l.map fun p => p.2.1).foldl (· + ·) 0
  let stc := (l.map fun p => (p.1 : Int) * p.2.1).foldl (· + ·) 0
  let stt := (l.map fun p => (p.1 : Int) * p.1).foldl (· + ·) 0
  let den := n * stt - st * st
  if den ≤ 0 then 0 else roundDiv (-(n * stc - st * sc) * 500000000000000) (den * 2 ^ 49).toNat

/-- The ageing in force in 10^-21 s^-1: zero, learned once valid, or the host's; code 3 has no meaning in the spec and
    leaves a free value (entry 13). -/
def ageing (s : State) : Int :=
  match fld (getW s Rg.refsCtrl).toNat 4 3 with
  | 0 => 0
  | 1 => if ageValid s then ageLearned s else 0
  | 2 => sInt 32 (getW s Rg.refsAgeHost).toNat
  | _ => Config.freeInt s.freeCtr

/-! ## The holdover word (R108) -/

/-- The holdover word of a model at a tick. -/
def holdWord (s : State) (m : HoldModel) (tick : Nat) : Int :=
  roundDiv ((m.cAvg - oscGain s * m.codeF * 2 ^ 49) * 1000000000000000
    - ageing s * 2 ^ 50 * ((tick - m.at_ : Nat) : Int)) (10 ^ 30)

/-- The model of a holdover entered now, whose interval ends at `e`. -/
def modelEnd (s : State) (e : Nat) : HoldModel := { at_ := s.now, cAvg := cAvgEnd s e, codeF := s.refs.code }

/-- The end of the HOLD_AVG interval of a slot lost for a cause (R109). -/
def lossEnd (s : State) (i : Fin 16) (cause : Nat) : Nat :=
  if cause = 2 then s.now - ticksS 1 else if cause = 3 then s.now - ticksS 64 else (slot s i).acc.getD s.now

/-- The model at this instant: the one in force, or that of a holdover entered now (R108, R126). -/
def modelHere (s : State) : HoldModel :=
  s.refs.model.getD (modelEnd s (match s.refs.timeSlot with | some h => lossEnd s h 0 | none => s.now))

/-- W follows the FREQ selector's slot while the TIME selector holds none (R97). -/
def assisted (s : State) : Bool := rb s Rg.tcoCtrl 2 && s.refs.freqSlot.isSome

/-- W takes the value of the holdover model in force (R99, R108). -/
def holdNow (s : State) : State :=
  match s.refs.model with
  | some m => setWord s (holdWord s m s.now)
  | none => s

/-! ## The servo (R97, R98) -/

/-- The loop bandwidth in force in µHz: eight times REFS_LOOP_BW during SETTLE, at most 1 Hz (R98). Log entry 10. -/
def loopBw (s : State) : Nat :=
  let b := (getW s Rg.refsLoopBw).toNat
  if s.refs.phase = .settle then min (8 * b) 1000000 else b

/-- One step of the type-2 phase loop: an offset in 2^-16 ns over some ticks moves the integral part, and the word is that
    plus the proportional part. The gains at a bandwidth are open (R98; entry 10). -/
def servoPhase (s : State) (off : Int) (ticks : Nat) : State :=
  let bw := loopBw s
  let acc := clampI (-wMax) wMax
    (s.refs.servoAcc + roundDiv (Config.servoI bw * off * (ticks : Int)) (2 ^ 32 * 500000000))
  setWord (modRefs s fun r => { r with servoAcc := acc }) (acc + roundDiv (Config.servoP bw * off) (2 ^ 32))

/-- W follows a slot's frequency: its fast value in ppt, once it has one (R97, R102; entry 10). -/
def servoFreq (s : State) (i : Fin 16) : State :=
  match (slot s i).fast with
  | some y =>
    let w := clampI (-wMax) wMax (s.tco.w + roundDiv (Config.servoF (loopBw s) * y) (2 ^ 32))
    setWord (modRefs s fun r => { r with servoAcc := w }) w
  | none => s

/-- W while the TIME selector holds no slot: the FREQ slot's frequency, or the holdover model (R97, R111). -/
def takeHoldWord (s : State) : State :=
  match (if assisted s then s.refs.freqSlot else none) with
  | some i => servoFreq s i
  | none => holdNow s

/-! ## The model timescale (R82) and the monitors (R81, R83) -/

/-- The model for a window that begins at a tick: the mean of c and the tick its ageing counts from. -/
def modelAt (s : State) (ts : Nat) : Option (Int × Int × Nat) :=
  let ha := ticksS (getW s Rg.refsHoldAvg).toNat
  if ha ≤ ts && lockedAll (ts - ha) ts s.now s.refs.clog then
    some (cAvgEnd s ((s.refs.accLog.find? fun t => decide (t ≤ ts)).getD ts), 0, ts)
  else match s.refs.hold && decide (s.refs.holdAt ≤ ts), s.refs.model with
    | true, some m => some (m.cAvg, 0, m.at_)
    | _, _ => (s.refs.pastHold.find? fun p => decide (p.1 ≤ ts ∧ ts < p.2.1)).map fun p => (p.2.2.cAvg, 0, p.2.2.at_)

/-- The phase in 2^-16 ns that TCO gained on the model timescale between two ticks, steps and slews left out. -/
def modelGain (s : State) (a b : Nat) : Option Int :=
  (modelAt s a).map fun (cAvg, _, base) =>
    let (x, _) := sumC s false a b s.now s.refs.clog
    let h1 : Int := (b - base : Nat)
    let h0 : Int := (a - base : Nat)
    roundDiv (x - cAvg * ((b - a : Nat) : Int)) (1000000000000000 * 2 ^ 32)
      + roundDiv (ageing s * (h1 * h1 - h0 * h0) * 131072) (10 ^ 30)

/-- The index of the measurement whose latch is nearest to a tick, in a list with the newest first. Log entry 66. -/
def nearest (t : Nat) : List Meas → Nat → Nat → Nat → Nat
  | [], _, best, _ => best
  | m :: r, i, best, d =>
    let e := if t ≤ m.latch then m.latch - t else t - m.latch
    if e < d then nearest t r (i + 1) i e else nearest t r (i + 1) best d

/-- The two measurements nearest the ends of a window of ticks: the later, the earlier. When one is nearest both ends
    the window starts at the one before it. Log entry 66. -/
def windowPair (l : List Meas) (t0 t1 : Nat) : Option (Meas × Meas) :=
  let b := nearest t1 l 0 0 (2 ^ 64)
  let a := nearest t0 l 0 0 (2 ^ 64)
  let a := if a ≤ b then b + 1 else a
  match l[b]?, l[a]? with
  | some y, some x => some (y, x)
  | _, _ => none

/-- Fractional frequency in ppt of an offset change in 2^-16 ns over some ticks (entry 12). -/
def pptOf (d : Int) (ticks : Nat) : Int := if ticks = 0 then 0 else roundDiv (d * 1000000000000) (131072 * ticks)

/-- The offset change between two measurements of a slot: with TCO's own steps and slews removed for a time-capable slot,
    as counted for a frequency-only one, whose edges are counted against TIME (R81). -/
def offsetChange (s : State) (i : Fin 16) (later earlier : Meas) : Int :=
  later.off - earlier.off + (if timeCapable i then adjBetween s earlier.latch later.latch / (2 ^ 32 : Nat) else 0)

/-- The measurements of a slot that its windows may use: those since it became active. -/
def windowMeas (s : State) (i : Fin 16) : List Meas :=
  (slot s i).meas.filter fun m => decide ((slot s i).firstLatch ≤ m.latch)

/-- The fast value at a second boundary (R81, R113). Log entry 66. -/
def fastValue (s : State) (i : Fin 16) : Option Int :=
  let l := windowMeas s i
  let t0 := s.now - ticksS 1
  if (slot s i).restarted && !l.any (fun m => decide (m.latch ≤ t0)) then none
  else (windowPair l t0 s.now).map fun (y, x) => pptOf (offsetChange s i y x) (y.latch - x.latch)

/-- The slow value at a second boundary: only after 64 s of activity and with a model (R81, R83, R113). Log entry 66. -/
def slowValue (s : State) (i : Fin 16) : Option Int :=
  let l := windowMeas s i
  let t0 := s.now - ticksS 64
  if s.now < (slot s i).activeAt + ticksS 64 then none
  else if (slot s i).restarted && !l.any (fun m => decide (m.latch ≤ t0)) then none
  else match windowPair l t0 s.now with
    | some (y, x) => (modelGain s x.latch y.latch).map fun g => pptOf (offsetChange s i y x + g) (y.latch - x.latch)
    | none => none

/-- The phase value of a new measurement (R81), in 2^-16 ns. Log entry 12. -/
def phaseValue (s : State) (i : Fin 16) (m : Meas) : Option Nat :=
  match (slot s i).meas with
  | p :: _ =>
    let d := offsetChange s i m p - roundDiv ((slot s i).fast.getD 0 * ((m.latch - p.latch : Nat) : Int) * 131072) 1000000000000
    some (d.natAbs - (m.bound + p.bound))
  | [] => none

/-! ## Selection (R92, R93) -/

def eligibleFreq (s : State) (i : Fin 16) : Bool :=
  (slot s i).qualified && !slotOut s i && rank s i != 0xFF

def eligibleTime (s : State) (i : Fin 16) : Bool := eligibleFreq s i && timeCapable i && !(slot s i).refused

/-- REF_FORCE lets a selector consider the slot (R96). -/
def forced (s : State) (i : Fin 16) : Bool := match s.refs.force with | some f => f = i | none => true

/-- The order of R93 as one number: lower is better. -/
def orderKey (s : State) (i : Fin 16) : Nat := (rank s i * 16 + slotPrio s i) * 16 + i.val

/-- The first of some slots in the order of R93. -/
def bestOf (s : State) (p : Fin 16 → Bool) : Option (Fin 16) :=
  (List.finRange 16).foldl (fun b i =>
    if p i then match b with
      | some j => if orderKey s i < orderKey s j then some i else b
      | none => some i
    else b) none

def bestTime (s : State) : Option (Fin 16) := bestOf s fun i => forced s i && eligibleTime s i

def bestFreq (s : State) : Option (Fin 16) := bestOf s fun i => forced s i && eligibleFreq s i

/-- The held slot may stay held: a slot held for frequency only stays while it is qualified, not locked out and
    ranked (R95, R102). -/
def heldOk (s : State) (h : Fin 16) : Bool :=
  !s.refs.holdForce && forced s h && (if s.refs.freqOnly then eligibleFreq s h else eligibleTime s h)

/-- A transaction's target is still eligible. -/
def targetOk (s : State) (t : Fin 16) : Bool :=
  if s.refs.timeSlot = some t then heldOk s t else forced s t && eligibleTime s t

/-- The selectors may begin a transaction (R468, R122 HOLDOVER_FORCE). -/
def mayBegin (s : State) : Bool := !safe s .refs && !s.refs.holdForce

/-! ## Transactions (R99 to R106, R612) -/

/-- P of R99. -/
def prepareTicks : Nat := ticksMs 16

def txnEvent (s : State) (t : Fin 16) (kind : Nat) (stepped slewed : Bool) (delta : Int) : State :=
  emit s .refs 0x0003 .notice (t.val + kind * 16 + flag stepped 8 + flag slewed 9 + satInt 48 delta * 2 ^ 16)
    (if kind = 3 then some 4 else none)

/-- A SETTLE ends with TXN done (R99, R612). -/
def endSettle (s : State) : State :=
  if s.refs.phase = .settle then
    txnEvent (modRefs s fun r => { r with phase := .idle }) s.refs.settleSlot 4 false false 0
  else s

/-- The time in holdover ends, at a PREPARE toward a target or when the selectors are disabled (R107, R611). -/
def endHold (s : State) : State :=
  if s.refs.hold then
    let old := s.refs.pastHold.filter fun p => decide (s.now ≤ p.2.1 + ticksS 70)
    modRefs s fun r =>
      { r with hold := false, pastHold := (match r.model with | some m => (r.holdAt, s.now, m) :: old | none => old),
               holdover := r.holdover.map fun h => { h with ran := h.ran + (s.now - r.holdAt) } }
  else s

/-- T0 of a transaction; without a held slot W takes the holdover value (R99 step 1). -/
def beginTxn (s : State) (t : Fin 16) (o : TxnOrigin) : State :=
  let s := endHold (endSettle s)
  let s := if s.refs.timeSlot.isNone then holdNow s else s
  let s := perfAdd s 594 1
  let s := modRefs s fun r => { r with phase := .prepare,
                                       txn := some { target := t, t0 := s.now, origin := o, got := [], extended := false } }
  txnEvent s t 1 false false 0

/-- A command that began a transaction ends with it. -/
def txnAnswer (s : State) (o : TxnOrigin) (st : BitVec 8) : State :=
  match o with
  | .refSwitch h => fin s h 0x34 st
  | .acceptStep h _ _ => fin s h 0x33 st
  | _ => s

/-- The transaction aborts (R103). -/
def abortTxn (s : State) (delta : Int) (st : BitVec 8) : State :=
  match s.refs.txn with
  | none => s
  | some x =>
    let s := perfAdd (modRefs s fun r => { r with phase := .idle, txn := none }) 595 1
    txnAnswer (txnEvent s x.target 3 false false delta) x.origin st

/-- The TIME selector loses its slot; the model of the loss is in force (R99 step 1, R109). -/
def dropSlot (s : State) (h : Fin 16) (cause : Nat) : State :=
  modRefs (keepHops s) fun r => { r with timeSlot := none, freqOnly := false, commitAt := none,
                                         model := some (modelEnd s (lossEnd s h cause)) }

/-- A steering exchange that no command waits for ends, and what waited to be sent again is dropped: nothing more is sent,
    and the value stays at the last one sent (R111, R611). Log entry 66. -/
def steerHalt (s : State) : State :=
  modRefs s fun r => { r with uart := r.uart.filter (fun u => u.host.isSome), steerRetry := none }

/-- Entry to holdover (R107, R123). -/
def enterHold (s : State) (h : Fin 16) (cause : Nat) : State :=
  if !s.refs.everLocked || s.refs.hold then s else
  let s := modRefs (steerHalt s) fun r =>
    { r with hold := true, holdAt := s.now, model := some (r.model.getD (modelEnd s (lossEnd s h cause))),
             holdover := some (r.holdover.getD { at_ := s.now, ran := 0, slot := h, cause := cause }) }
  emit (takeHoldWord s) .refs 0x0005 .degraded (h.val + cause * 2 ^ 8 + flag (assisted s) 16) (some 3)

/-- Why a slot is not eligible, as SLOT_QUAL codes it; 0 for a cause without a code. -/
def lossCause (s : State) (i : Fin 16) : Nat :=
  if !(slot s i).qualified then (slot s i).cause else if rank s i = 0xFF then 5 else 0

/-- A holdover episode ends: the time in holdover enters the pantry's figures (R107, R569). -/
def episodeEnd (s : State) : State :=
  match s.refs.holdover with
  | some h => modFig (modRefs s fun r => { r with holdover := none }) fun f => figHold f h.ran
  | none => s

/-- The selectors are disabled: a transaction aborts, a REFS slew and a holdover end, and W stays as it is (R611). DESIGN
    CHOICE (entry 66): a SETTLE ends with TXN done (R612, the loss of the slot), a PREPARE with TXN abort. -/
def selOff (s : State) : State :=
  let s := if s.refs.phase = .prepare then abortTxn s 0 Status.aborted else s
  let s := steerHalt (episodeEnd (endHold (endSettle s)))
  let s := match s.tco.slew with
    | some k => if k.host.isNone then slewAbort s else s
    | none => s
  modRefs (keepHops s) fun r => { r with timeSlot := none, freqSlot := none, freqOnly := false, commitAt := none, model := none }

/-- A held slot better slots wait to displace: those eligible, better, and qualified for WTR_TIME (R95 case 3). -/
def wtrDue (s : State) (h : Fin 16) : Bool :=
  rb s Rg.refsCtrl 1 && (List.finRange 16).any fun i =>
    forced s i && eligibleTime s i && decide (orderKey s i < orderKey s h)
      && decide ((slot s i).qualAt + ticksS (getW s Rg.refsWtrTime).toNat ≤ s.now)

/-- The selectors while no transaction is in PREPARE (R95). -/
def selIdle (s : State) : State :=
  match s.refs.timeSlot with
  | some h =>
    if !heldOk s h then
      let cause := lossCause s h
      let s := dropSlot (endSettle s) h cause
      match (if mayBegin s then bestTime s else none) with
      | some b => beginTxn s b .selector
      | none => if s.refs.everLocked then enterHold s h cause else takeHoldWord s
    else if !mayBegin s then s
    else match bestTime s with
      | some b =>
        if s.refs.freqOnly then beginTxn s b .selector
        else if wtrDue s h && orderKey s b < orderKey s h then beginTxn s b .selector
        else s
      | none => s
  | none =>
    match (if mayBegin s then bestTime s else none) with
    | some b => beginTxn s b .selector
    | none => match s.refs.lastSlot with
      | some h => enterHold s h (lossCause s h)
      | none => s

/-- Holdover entered out of a PREPARE that ends without a target. DESIGN CHOICE (entry 66): the slot that HOLDOVER_ENTER
    names as lost is the one the TIME selector held last, with the cause of its loss, else the transaction's target. -/
def enterHoldLast (s : State) (target : Fin 16) : State :=
  if s.refs.timeSlot.isSome then s
  else
    let h := s.refs.lastSlot.getD target
    enterHold s h (lossCause s h)

/-- The selectors during PREPARE (R103, R121). -/
def selPrepare (s : State) (x : Txn) : State :=
  let s := match s.refs.timeSlot with
    | some h => if heldOk s h then s else holdNow (dropSlot s h (lossCause s h))
    | none => s
  if !mayBegin s then
    enterHoldLast (abortTxn s 0 Status.aborted) x.target
  else if !targetOk s x.target then
    let s := abortTxn s 0 Status.aborted
    match bestTime s with
    | some b => if s.refs.timeSlot = some b && !s.refs.freqOnly then s else beginTxn s b .selector
    | none => enterHoldLast s x.target
  else match bestTime s with
    | some b =>
      if x.origin = .selector && orderKey s b < orderKey s x.target then
        beginTxn (abortTxn s 0 Status.aborted) b .selector
      else s
    | none => s

/-- A slot number as SEL_CHANGE shows it. -/
def slotCode (o : Option (Fin 16)) : Nat := match o with | some i => i.val | none => 0x1F

/-- What follows a change of the selectors: SEL_CHANGE, the frequency-assisted law, the clock state (R56, R63, R123). -/
def selPost (t f : Option (Fin 16)) (s : State) : State :=
  let s := if s.refs.timeSlot = t ∧ s.refs.freqSlot = f then s
    else emit s .refs 0x0002 .notice (slotCode t + slotCode s.refs.timeSlot * 2 ^ 8 + slotCode f * 2 ^ 16
      + slotCode s.refs.freqSlot * 2 ^ 24) (some 0)
  clockEval (fassistEval s)

/-- One evaluation of both selectors, which core 2 runs (R92 to R97, R103, R611). Log entry 66. -/
def selEval (s : State) : State :=
  if !coreUp s 2 then s else
  let t := s.refs.timeSlot
  let f := s.refs.freqSlot
  selPost t f (
    if !rb s Rg.refsCtrl 0 then selOff s
    else
      let s := modRefs s fun r => { r with freqSlot := bestFreq s }
      match s.refs.txn with
      | some x => selPrepare s x
      | none => selIdle s)

/-- Δ and B_Δ of a transaction at this instant (R100). DESIGN CHOICE (entry 12): the mean and the projection are rounded to
    2^-16 ns, half away from zero. Log entry 65. -/
def txnDelta (s : State) (x : Txn) : Option (Int × Nat) :=
  match x.got with
  | [] => match (slot s x.target).meas with
    | m :: _ =>
      some (m.off + roundDiv ((slot s x.target).fast.getD 0 * ((s.now - m.latch : Nat) : Int) * 131072) 1000000000000,
            m.bound)
    | [] => none
  | l => some (roundDiv ((l.map Meas.off).foldl (· + ·) 0) l.length, (l.map Meas.bound).foldl max 0)

/-- The end of a holdover episode at COMMIT (R112, R569). DESIGN CHOICE (entry 66): the duration counts whole seconds in
    holdover. -/
def holdExit (s : State) (t : Fin 16) : State :=
  match s.refs.holdover with
  | none => s
  | some h =>
    emit (episodeEnd s) .refs 0x0006 .notice (t.val + sat32 (h.ran / ticksS 1) * 2 ^ 32) none

/-- COMMIT with Δ in 2^-16 ns and its bound (R99 to R106, R112). An exceedance restarts the law but is no contraction
    (R58). Log entries 63, 64, 65. -/
def commitTxn (s : State) (x : Txn) (delta : Int) (bound : Nat) : State :=
  let t := x.target
  let (ok, slew) := match x.origin with
    | .acceptStep _ sl mx => (mx = 0 || decide (delta.natAbs ≤ mx * 65536), sl)
    | _ => (!overLimit s delta, s.refs.holdover.isSome && rb s Rg.refsCtrl 2)
  let accept := match x.origin with | .acceptStep .. => true | _ => false
  if accept && !ok then abortTxn s delta Status.refused
  else
    let at_ := s.tco.teb
    let s := slewAbort s
    let s := modRefs s fun r =>
      { r with phase := .settle, txn := none, timeSlot := some t, lastSlot := some t, freqOnly := !ok,
               settleSlot := t, settleEnd := s.now + ticksS (getW s Rg.refsSettle).toNat, commitAt := some s.now,
               lastDelta := delta, model := none, servoAcc := s.tco.w }
    let s := txnEvent s t 2 (ok && !slew) (ok && slew) delta
    let s := if !ok then
        emit (modSlot s t fun k => { k with refused := true, withinAt := none }) .refs 0x0004 .degraded
          (t.val + satInt 48 delta * 2 ^ 16) (some 2)
      else
        let s := modSlot s t fun k => { k with refused := false, withinAt := none }
        let s := if slew then slewStart s none (delta * 2 ^ 32) else applyStep s 0 (delta * 2 ^ 32)
        if exceeded at_ delta bound then
          lawFrom (tebExceed s at_ (excessOf delta bound)) (boundC bound (if slew then delta else 0)) s.now
        else s
    let s := holdExit s t
    let s := modRefs s fun r => { r with lastCommit := tsNow s }
    match x.origin with
    | .acceptStep h _ _ => complete s h 0x33 Status.ok 24 (pack [(0, uInt 64 delta), (8, (tsNow s).toNat)])
    | .refSwitch h => if ok then finTs s h 0x34 (tsNow s) else fin s h 0x34 Status.refused
    | _ => s

/-- COMMIT at the end of PREPARE, or its extension while no usable offset has arrived (R99, R100); then the selectors
    are evaluated. -/
def tryCommit (s : State) : State :=
  match s.refs.txn with
  | none => s
  | some x => match txnDelta s x with
    | some (d, b) =>
      let t := s.refs.timeSlot
      let f := s.refs.freqSlot
      selEval (selPost t f (commitTxn s x d b))
    | none => modRefs s fun r => { r with txn := some { x with extended := true } }

/-! ## Measurements (R80, R81, R100, R104) -/

/-- Measurements the windows can still need. -/
def measKeep (s : State) (l : List Meas) : List Meas := l.filter fun m => decide (s.now ≤ m.latch + ticksS 66)

/-- Activity of a slot at a latch instant (R79). Log entry 65. -/
def activity (s : State) (i : Fin 16) (latch : Nat) : State :=
  modSlot s i fun k =>
    if k.active then { k with lastAct := max k.lastAct latch }
    else { k with active := true, activeAt := s.now, lastAct := latch, firstLatch := latch }

/-- A usable measurement passes the monitors and marks (R81, R104, R109). -/
def monitored (s : State) (i : Fin 16) (m : Meas) : State :=
  let ph := if (slot s i).skipPhase then (slot s i).phase else phaseValue s i m
  let accepted := match ph with | some v => decide (v ≤ (limits s i 2).2 * 65536) | none => true
  let s := activity s i m.latch
  let s := modSlot s i fun k =>
    { k with meas := m :: measKeep s k.meas, lastLatch := some m.latch, phase := ph, skipPhase := false,
             acc := if accepted then some m.latch else k.acc,
             withinAt := if !k.refused then k.withinAt
               else if overLimit s m.off then none else some (k.withinAt.getD s.now) }
  let s := if accepted && s.refs.timeSlot = some i then
      modRefs s fun r => { r with accLog := m.latch :: r.accLog.filter (fun t => decide (s.now ≤ t + ticksS 70)) }
    else s
  judge s i

/-- A slot shows activity without a usable measurement: its count of R86 may start (R78, R86). -/
def active_ (s : State) (i : Fin 16) (latch : Nat) : State := selEval (judge (activity s i latch) i)

/-- A measurement reaches REFS (R80): ordered, monitored, collected for a transaction, and applied by the servo when
    its slot is held; it contracts the TEB when it is qualified (R58). Log entries 10, 65. -/
def measure (s : State) (i : Fin 16) (off : Int) (latch bound : Nat) (valid : Bool) : State :=
  let s := perfAdd s (576 + i.val) 1
  let k := slot s i
  let stale := (match k.lastLatch with | some l => decide (latch ≤ l) | none => false)
    || (s.refs.timeSlot = some i && (match s.refs.commitAt with | some c => decide (latch < c) | none => false))
  if !slotEn s i || !timeCapable i then s
  else if stale then modSlot s i fun k => { k with discarded := k.discarded + 1 }
  else if !valid then
    let s := modSlot s i fun k => { k with lastLatch := some latch }
    if i.val < 2 then s else active_ s i latch
  else
    let m : Meas := { off := off, latch := latch, bound := bound }
    let s := monitored s i m
    let s := match s.refs.txn with
      | some x =>
        if x.target = i && !x.extended && decide (x.t0 ≤ latch ∧ latch ≤ x.t0 + prepareTicks) then
          modRefs s fun r => { r with txn := some { x with got := m :: x.got } }
        else s
      | none => s
    let s := selEval s
    let s := match s.refs.txn with
      | some x => if x.target = i && x.extended then tryCommit s else s
      | none => s
    if s.refs.timeSlot = some i && !safe s .refs && !s.refs.freqOnly && coreUp s 2
        && (match s.refs.commitAt with | some c => decide (c ≤ latch) | none => false) then
      let s := servoPhase s off (latch - k.lastLatch.getD latch)
      if s.refs.phase != .prepare && (slot s i).qualified then
        let (e, s) := freeI s
        contract s i off bound e latch
      else s
    else s

/-- The source of a slot advertises a quality (R89, R90). -/
def advertise (s : State) (i : Fin 16) (r : BitVec 8) : State :=
  if !slotEn s i && needsAdvert i then s
  else if (slot s i).mapped = some r then s
  else selEval (judge (modSlot s i fun k => { k with mapped := some r }) i)

/-- A slot loses its source, its binding or its enable (R79, R87, R610): inactive at once, disqualified with a cause. -/
def slotGone (s : State) (i : Fin 16) (cause : Nat) : State :=
  let s := if (slot s i).qualified then disqualify s i cause else s
  selEval (modSlot s i fun k =>
    { Slot.reset with ovr := k.ovr, cause := k.cause, acc := k.acc, discarded := k.discarded,
                      mapped := if needsAdvert i then none else k.mapped })

/-- The master of a PTP slot changed (R113). A PREPARE toward the slot restarts with the new master only and keeps
    its command (R121); a held slot runs a transaction to itself; any other slot qualifies afresh. DESIGN CHOICE (entry
    65): a PREPARE that runs toward another slot, also one of REF_SWITCH, aborts for the held slot's own. Log entry 65. -/
def masterChange (s : State) (i : Fin 16) : State :=
  let s := modSlot s i fun k => { k with skipPhase := true, restarted := true, meas := [], fast := none, slow := none }
  let s := emit s .refs 0x0007 .notice i.val (some 7)
  let t := s.refs.timeSlot
  let f := s.refs.freqSlot
  let mine := s.refs.txn.filter fun x => x.target = i
  match mine with
  | some x =>
    let s := perfAdd (txnEvent s i 3 false false 0) 595 1
    selPost t f (beginTxn s i x.origin)
  | none =>
    if t = some i then
      if mayBegin s && rb s Rg.refsCtrl 0 then
        selPost t f (beginTxn (abortTxn s 0 Status.aborted) i .itself)
      else s
    else
      let s := modSlot s i fun k => { k with insideAt := none }
      let s := if (slot s i).qualified then disqualify s i 6 else s
      selEval (judge s i)

/-- A frequency-only slot's source is usable: FREQ_IN, or a recovered clock with receive lock and an ESMC quality
    other than failed, while ETH is not in its safe state (R78, R468). -/
def freqSource (s : State) (i : Fin 16) : Bool :=
  let b := slotBinding s i
  if b < 4 then true
  else if 8 ≤ b && b < 16 then
    let p := vget s.eth.ports EthPort.reset (b - 8)
    p.rxLock && !p.failed && !safe s .eth
  else false

/-- A frequency-only slot's count over the last second, in ppt (R81). -/
def freqCount (s : State) (i : Fin 16) (y : Int) : State :=
  if !slotEn s i || timeCapable i || !freqSource s i then s
  else
    let s := activity s i s.now
    let ph := (slot s i).fphase + roundDiv (y * 8192) 125
    modSlot s i fun k => { k with fphase := ph, fast := some y,
                                  meas := { off := ph, latch := s.now, bound := 0 } :: measKeep s k.meas }

/-- The frequency monitors of one slot at a second boundary. -/
def monitorSlot (s : State) (i : Fin 16) : State :=
  if slotEn s i && (slot s i).active then
    let fast := if timeCapable i then fastValue s i else (slot s i).fast
    let s := modSlot s i fun k => { k with fast := fast, slow := slowValue s i }
    judge s i
  else s

/-! ## Oscillator steering (R115 to R120) -/

def steerMode (s : State) : Nat := fld (getW s Rg.refsSteerCtrl).toNat 1 0

/-- Values go out over the UART: mode UART, or MANUAL with MAN_IF 1. -/
def steerUart (s : State) : Bool := steerMode s = 2 || (steerMode s = 3 && rb s Rg.refsSteerCtrl 2)

/-- The interface's range of codes (R115, R118, R119). -/
def codeRange (s : State) : Int × Int :=
  if steerUart s then let m : Int := (getW s Rg.refsUartVmax).toNat; (-m, m)
  else let h : Int := (2 ^ (fld (getW s Rg.refsDacCfg).toNat 4 0 - 1) : Nat); (-h, h - 1)

/-- The SPI frame of a code (R118). -/
def spiFrame (s : State) (code : Int) : Nat :=
  let w := (getW s Rg.refsDacCfg).toNat
  let width := fld w 4 0
  let v := if w.testBit 5 then uInt width code else uInt width (code + (2 ^ (width - 1) : Nat))
  (v * 2 ^ fld w 20 16 ||| (getW s Rg.refsDacPrefix).toNat) % 2 ^ fld w 13 8

def hexDigit (n : Nat) : Byte := BitVec.ofNat 8 (if n < 10 then 48 + n else 55 + n)

/-- Eight upper-case hexadecimal digits, two's complement (R119). -/
def hex8 (v : Int) : List Byte := (List.range 8).map fun i => hexDigit (uInt 32 v / 16 ^ (7 - i) % 16)

def decDigits : Nat → Nat → List Byte
  | 0, _ => []
  | f + 1, n => (if n < 10 then [] else decDigits f (n / 10)) ++ [BitVec.ofNat 8 (48 + n % 10)]

/-- Signed decimal without leading zeros (R119). -/
def dec (v : Int) : List Byte := (if v < 0 then [0x2D] else []) ++ decDigits 20 v.natAbs

/-- A template with its sequences replaced (R119). -/
def expand (v : Int) : List Byte → List Byte
  | 0x25#8 :: 0x64#8 :: r => dec v ++ expand v r
  | 0x25#8 :: 0x78#8 :: r => hex8 v ++ expand v r
  | 0x25#8 :: 0x25#8 :: r => 0x25#8 :: expand v r
  | b :: r => b :: expand v r
  | [] => []

/-- The bytes of a template, and its reply prefix (R125 space 0x03). -/
def template (s : State) (n : Nat) : List Byte :=
  ((List.range 12).flatMap fun w => leBytes 4 (ind s .refs 3 (16 * n + w))).take (ind s .refs 3 (16 * n + 12))

def replyPrefix (s : State) (n : Nat) : List Byte :=
  (leBytes 4 (ind s .refs 3 (16 * n + 13)) ++ leBytes 4 (ind s .refs 3 (16 * n + 14))).take (ind s .refs 3 (16 * n + 15))

/-- Ends a steering exchange that succeeded. -/
def steerDone (s : State) (host : Option Hdr) : State :=
  match host with | some h => fin s h 0x36 Status.ok | none => s

/-- Bytes on the steering UART as configured: eight data bits, one stop bit (R119, R124). -/
def uartOut (s : State) (data : List Byte) : State :=
  emitOut s (.uart data (rf s Rg.refsUartCfg 23 0) (rf s Rg.refsUartCfg 25 24))

/-- A steering value is in force as it is sent (R108, R111). -/
def codeInForce (s : State) (code : Int) : State := clogMark (modRefs s fun r => { r with code := code })

/-- Sends template 1 (R119); without a reply prefix it needs no answer (R120). -/
def sendSet (s : State) (code : Int) (host : Option Hdr) (resent : Bool) : State :=
  let s := uartOut (codeInForce s code) (expand code (template s 1))
  if (replyPrefix s 1).isEmpty then steerDone s host
  else modRefs s fun r => { r with uart := some { init := false, resent := resent, code := code, host := host,
                                                  deadline := s.now + ticksMs (getW s Rg.refsUartReplyTo).toNat } }

/-- Sends template 0 (INIT), then SET once it is answered: only then has it been sent (R119, R120). -/
def sendInit (s : State) (code : Int) (host : Option Hdr) (resent : Bool) : State :=
  let s := uartOut s (expand code (template s 0))
  if (replyPrefix s 0).isEmpty then sendSet (modRefs s fun r => { r with initSent := true }) code host false
  else modRefs s fun r => { r with uart := some { init := true, resent := resent, code := code, host := host,
                                                  deadline := s.now + ticksMs (getW s Rg.refsUartReplyTo).toNat } }

/-- A steering value is sent over the interface in use (R116, R118, R119). -/
def sendCode (s : State) (code : Int) (host : Option Hdr) : State :=
  let s := perfAdd s 596 1
  if steerUart s then
    if !s.refs.initSent && !(template s 0).isEmpty then sendInit s code host false else sendSet s code host false
  else
    let w := (getW s Rg.refsDacCfg).toNat
    steerDone (emitOut (codeInForce s code) (.spi (spiFrame s code) (fld w 13 8) (fld w 7 6) (fld w 27 24))) host

/-- A second failure of a steering reply (R120): a timeout or a mismatch. Steering is frozen, and the value of a periodic
    update is sent again at the next period. -/
def steerFail (s : State) (u : UartWait) (timeout : Bool) : State :=
  let s := modRefs s fun r => { r with uart := none, steerRetry := if u.host.isNone then some u.code else r.steerRetry,
                                       ageing := r.ageing.filter (fun p => decide (p.1 < r.steerAt)) }
  let s := emit s .refs 0x0008 .degraded (flag timeout 0 + flag (!timeout) 1) (some 5)
  match u.host with | some h => fin s h 0x36 Status.aborted | none => s

/-- A reply that does not match or does not come: one resend, then failure (R120). -/
def steerMiss (s : State) (u : UartWait) (timeout : Bool) : State :=
  if u.resent then steerFail s u timeout
  else if u.init then sendInit s u.code u.host true
  else sendSet s u.code u.host true

/-- Steering updates are allowed: locked, no transaction, not in the safe state (R111, R115, R468). -/
def steerMay (s : State) : Bool := locked s && s.refs.phase = .idle && !safe s .refs && rb s Rg.refsCtrl 0

/-- The code of an update and whether it was clamped at the range (R116, R117); none when Δcode is zero. -/
def steerNext (s : State) : Option (Int × Bool) :=
  let g := oscGain s
  let per := ticksS (getW s Rg.refsSteerPeriod).toNat
  let (w, n) := sumC s false (s.now - per) s.now s.now s.refs.clog
  -- the sum holds c; the code's part is taken off to leave W × 10^15
  let (wo, _) := sumC s false (s.now - per) s.now s.now (s.refs.clog.map fun c => { c with w := 0 })
  let k : Int := fld (getW s Rg.refsSteerCtrl).toNat 15 8
  let den := 256 * 2 ^ 49 * n * g.natAbs
  if n = 0 ∨ den = 0 then none else
  let d0 := roundDiv (k * (w - wo) * (if g < 0 then -1 else 1)) den
  let lim : Int := (getW s Rg.refsSteerMax).toNat / g.natAbs
  let d := clampI (-lim) lim d0
  if d = 0 then none else
  let (lo, hi) := codeRange s
  let c := s.refs.code + d
  some (clampI lo hi c, decide (c < lo ∨ hi < c))

/-- A steering value with its clamp at the range: STEER_RAIL (R117). -/
def steerSend (s : State) (code : Int) (clamped : Bool) : State :=
  let s := sendCode s code none
  if clamped then emit s .refs 0x0009 .degraded (uInt 32 code) (some 6) else s

/-- One steering period in mode SPI or UART (R115 to R117, R120). With a gain of zero nothing is sent; a value that was
    not answered is sent again. DESIGN CHOICE (entry 65): the first period of steering sends CODE0, clamped to the range, in
    place of an update. -/
def steerUpdate (s : State) : State :=
  if oscGain s = 0 then
    if s.refs.steerZero then s
    else emit (modRefs s fun r => { r with steerZero := true }) .refs 0x000A .notice 0 none
  else
    let retry := s.refs.steerRetry
    let s := modRefs s fun r => { r with steerZero := false, steerRetry := none }
    match retry with
    | some c => sendCode s c none
    | none =>
      if !s.refs.steerStarted then
        let (lo, hi) := codeRange s
        let c := sInt 32 (getW s Rg.refsCode0).toNat
        steerSend (modRefs s fun r => { r with steerStarted := true }) (clampI lo hi c) (decide (c < lo ∨ hi < c))
      else match steerNext s with
        | none => s
        | some (c, clamped) => steerSend s c clamped

/-- OSC_SETs that waited take their turn, while the interface is free (R115, R441). -/
def oscDrain : Nat → State → State
  | 0, s => s
  | n + 1, s =>
    if s.refs.uart.isSome then s
    else match s.refs.oscWait with
      | [] => s
      | (hd, c) :: r =>
        let s := modRefs s fun k => { k with oscWait := r }
        oscDrain n (if steerMode s = 3 then sendCode s c (some hd) else fin s hd 0x36 Status.state)

/-- The waiting OSC_SETs, after an exchange ended. -/
def oscTurn (s : State) : State := oscDrain s.refs.oscWait.length s

/-! ## What REFS shows (R124, R125) -/

/-- WTR remaining in s of a waiting slot (R125). -/
def wtrLeft (s : State) (i : Fin 16) : Nat :=
  match s.refs.timeSlot with
  | some h =>
    if rb s Rg.refsCtrl 1 && !s.refs.freqOnly && forced s i && eligibleTime s i && decide (orderKey s i < orderKey s h) then
      ceilDiv ((slot s i).qualAt + ticksS (getW s Rg.refsWtrTime).toNat - s.now) (ticksS 1)
    else 0
  | none => 0

/-- A word of the slot monitors, space 0x02. -/
def slotMon (s : State) (i : Fin 16) (w : Nat) : Nat :=
  let k := slot s i
  match w with
  | 0 => flag k.active 0 + flag k.qualified 1 + flag k.refused 2 + (if slotEn s i then rank s i else 0) * 2 ^ 8 + k.cause % 256 * 2 ^ 16
  | 1 => satInt 32 (k.fast.getD 0)
  | 2 => satInt 32 (k.slow.getD 0)
  | 3 => sat32 (ceilDiv (k.phase.getD 0) 65536)
  | 4 => wtrLeft s i
  | 5 => match k.insideAt with | some t => (s.now - t) / ticksS 1 | none => 0
  | _ => 0

/-- A mask of slots with a property. -/
def slotMask (p : Fin 16 → Bool) : Nat := ((List.finRange 16).map fun i => flag (p i) i.val).foldl (· + ·) 0

/-! ## What else falls in the same tick (R121, R480) -/

/-- Activity lapses for ACT_TO (R79, R83): a slot that becomes active again has its windows to fill. The awaited
    measurement wins the tick (R121, R480): the row has no effect while what may bring it waits in the queue. Log entry 34. -/
def lapse (s : State) (i : Fin 16) : State :=
  let k := slot s i
  let end_ := k.lastAct + ticksMs (slotCfg s i 1)
  if k.active && decide (end_ ≤ s.now) && !(decide (end_ = s.now) && s.pending.any (brings i)) then
    selEval (judge (modSlot s i fun k => { k with active := false, fast := none, slow := none }) i)
  else s

/-- The monitors on a second boundary of the counter (R81). -/
def monitors (s : State) (ppt : List (Fin 16 × Int)) : State :=
  let sec := secOf s.tco.counter
  if s.refs.monSec = some sec then s else
  let s := modRefs s fun r => { r with monSec := some sec }
  let s := ppt.foldl (fun s p => freqCount s p.1 p.2) s
  selEval ((List.finRange 16).foldl monitorSlot s)

/-- Lapses and monitor values of this tick that still wait in the queue come first: a disqualification wins over the end
    of PREPARE, QUAL_TIME, WTR_TIME, ACCEPT_STEP and a steering update (R121). Log entry 34. -/
def lossFirst (s : State) : State :=
  s.pending.foldl (fun s c => match c with
    | .slotActivityLapse i => lapse s i
    | .monitorUpdate l => monitors s l
    | _ => s) s

/-! ## Hooks of register writes and of the safe state -/

/-- A word of the slot configuration was written (R79, R85, R87, R90). -/
def slotWritten (s : State) (i : Fin 16) (w : Nat) (old : Word) : State :=
  if w = 0 then
    if old.toNat.testBit 0 && !slotEn s i then slotGone s i 7
    else selEval (judge s i)
  else if w = 1 then s
  else
    let m := (w - 2) / 2
    let s := if slotCfg s i (3 + 2 * m) < slotCfg s i (2 + 2 * m) then
        emit s .refs 0x000A .notice (i.val + (m + 2) * 16) none
      else s
    selEval (judge s i)

/-- REFS enters its safe state (R468): a PREPARE aborts, and W takes the holdover word. -/
def refsSafe (s : State) : State :=
  let s := match s.refs.timeSlot with
    | some h => modRefs s fun r => { r with model := some (modelEnd s (lossEnd s h 0)) }
    | none => s
  selEval (holdNow s)

/-- PHASE of a transaction: COMMIT in its own tick, SETTLE from the tick after (R99, R124). -/
def phaseCode (s : State) : Nat :=
  match s.refs.phase with
  | .idle => 0
  | .prepare => 1
  | .settle => if s.refs.commitAt = some s.now then 2 else 3

end Sys2Proof.Machine
end

