-- ==== Sys2Proof/Machine/EthOps.lean ====
section
/-! DEFINITION. Ethernet ports (08_service_ports.md): configuration, counters, pause, the transmit queues, what the
egress stamp fills into a frame, and the quality level. -/
namespace Sys2Proof.Machine

def ethPort (s : State) (p : Fin 9) : EthPort := s.eth.ports[p]

def modPort (s : State) (p : Fin 9) (f : EthPort → EthPort) : State :=
  { s with eth := { s.eth with ports := vmod s.eth.ports p.val f } }

/-- Word `w` of a port's configuration (R323 space 0x01). -/
def ethCfg (s : State) (p : Fin 9) (w : Nat) : Nat := ind s .eth 1 (8 * p.val + w)

/-- Adds to a port's counter (R311). -/
def ethCnt (s : State) (p : Fin 9) (i n : Nat) : State :=
  modPort s p fun k => { k with cnt := aset 0 k.cnt i ((aget 0 k.cnt i + n) % 2 ^ 64) }

/-- The port's MAC address (R323 words 4 and 5). -/
def portMac (s : State) (p : Fin 9) : BitVec 48 :=
  BitVec.ofNat 48 (fld (ethCfg s p 4) 15 0 * 2 ^ 32 + ethCfg s p 5)

/-- The port may run in the present power state: service ports in Boil, MG in Warm and Boil (R290). -/
def portPower (s : State) (p : Fin 9) : Bool :=
  s.pwr.phase = .ready && (if p.val = 8 then s.pwr.state = .warm || s.pwr.state = .boil else s.pwr.state = .boil)

/-- The port is enabled by its own EN and by SV_EN or MG_EN (R322). -/
def portEn (s : State) (p : Fin 9) : Bool :=
  (ethCfg s p 0).testBit 0 && rb s Rg.ethCtrl (if p.val = 8 then 1 else 0)

def portRuns (s : State) (p : Fin 9) : Bool := portPower s p && portEn s p && (ethPort s p).mode != 0

/-- The line rate in Mb/s (R290). -/
def lineMbps (s : State) (p : Fin 9) : Nat :=
  match (ethPort s p).mode.toNat with
  | 1 => 100000 | 2 => 50000 | 3 => 25000 | 4 => 10000
  | _ => match (ethPort s p).speed.toNat with | 0 => 1000 | 1 => 100 | _ => 10

/-- Ticks of a number of pause quanta of 512 bit times (R302). -/
def quantaTicks (s : State) (p : Fin 9) (q : Nat) : Nat := ceilDiv (q * 512000) (2 * lineMbps s p)

def classT (s : State) (p : Fin 9) (prio : Nat) : Bool := (ethCfg s p 0).testBit (16 + prio)

def running (s : State) (o : Option Nat) : Bool := match o with | some t => decide (s.now < t) | none => false

/-- Some priority of a queue is paused: `t` names queue T (R302 to R304). -/
def prioPaused (s : State) (p : Fin 9) (t : Bool) : Bool :=
  (List.finRange 8).any fun k => classT s p k.val = t && running s (ethPort s p).pause[k]

def pausedT (s : State) (p : Fin 9) : Bool := running s (ethPort s p).pauseAllT || prioPaused s p true

def pausedM (s : State) (p : Fin 9) : Bool := running s (ethPort s p).pauseAll || prioPaused s p false

/-- PAUSE_WD runs while queue T is paused and holds a frame (R304). -/
def wdUpdate (s : State) (p : Fin 9) : State :=
  let on := pausedT s p && !(ethPort s p).qT.isEmpty
  modPort s p fun k => { k with wdAt := if on then some (k.wdAt.getD s.now) else none }

/-! ## Egress -/

/-- NTP time of a counter value (R233): truncated, era-relative. -/
def ntpTs (c : Nat) (off : BitVec 16) : Nat :=
  let sec := (((secOf c : Int) - off.toInt + 2208988800) % (2 ^ 32 : Nat)).toNat
  sec * 2 ^ 32 + (nsOf c * 65536 + fracOf c) * 65536 / 1000000000

/-- Replaces bytes from offset `o` on. -/
def patch (l : List Byte) (o : Nat) (v : List Byte) : List Byte := l.take o ++ v ++ l.drop (o + v.length)

/-- Root dispersion (R234); `add` is SVC_ROOTDISP_ADD as the request found it (R243). -/
def rootDisp (add : Nat) (ing : Option (BitVec 32)) (egr : Nat) : Nat :=
  match ing with
  | none => 0xFFFFFFFF
  | some t =>
    if t = unboundedTeb || egr = 0xFFFFFFFF then 0xFFFFFFFF
    else sat32 (ceilDiv (max t.toNat egr * 65536) 16000000000 + add)

/-- The Authenticator field of an answer (R227): associated data up to it, then nonce and sealed cookies. -/
def authField (t : NtsTail) (ad : List Byte) : List Byte :=
  let ct := aeadOut t.aead (aeadSeal t.aead t.key ad t.nonce t.plain)
  beBytes 2 0x0404 ++ beBytes 2 (8 + t.nonce.length + ct.length) ++ beBytes 2 t.nonce.length ++ beBytes 2 ct.length ++ t.nonce ++ ct

/-- An NTP answer's payload with its transmit timestamp and root dispersion (R231, R234). -/
def ntpFinal (s : State) (pay : List Byte) (teb : Option (BitVec 32)) (add : Nat) (kod : Bool) (tail : Option NtsTail) (c egr : Nat) : List Byte :=
  let pay := patch pay 8 (beBytes 4 (if kod then 0 else rootDisp add teb egr))
  let pay := patch pay 40 (beBytes 8 (ntpTs c s.tco.utcOff))
  match tail with
  | some t => let ad := pay ++ t.uid; ad ++ authField t ad
  | none => pay

def ptpCfg (s : State) (i : Fin 16) (w : Nat) : Nat := ind s .ptp 1 (16 * i.val + w)

def inst (s : State) (i : Fin 16) : Inst := s.ptp.insts[i]

def modInst (s : State) (i : Fin 16) (f : Inst → Inst) : State :=
  { s with ptp := { s.ptp with insts := vmod s.ptp.insts i.val f } }

def modPtp (s : State) (f : Ptp → Ptp) : State := { s with ptp := f s.ptp }

/-- Counts a reason code of R278. -/
def ptpCount (s : State) (code n : Nat) : State :=
  perfAdd (modPtp s fun p => { p with cnt := aset 0 p.cnt code ((aget 0 p.cnt code + n) % 2 ^ 64) }) (64 + code) n

def modSvc (s : State) (f : Svc → Svc) : State := { s with svc := f s.svc }

/-- Counts a reason code of R219. -/
def svcCount (s : State) (code n : Nat) : State :=
  perfAdd (modSvc s fun p => { p with cnt := aset 0 p.cnt code ((aget 0 p.cnt code + n) % 2 ^ 64) }) (16 + code) n

/-- The TEB that a TLV carries: unbounded in NIGHT (R262, R73). -/
def tlvTeb (s : State) (teb : BitVec 32) : BitVec 32 := if s.tco.st = .night then unboundedTeb else teb

/-- Writes a TEB into a message's TEB TLV, with the state and the coast flag (R261). -/
def setTeb (s : State) (m : PtpMsg) (teb : BitVec 32) (coast : Bool) : PtpMsg :=
  { m with tlvs := m.tlvs.map fun t => match t with
    | .teb ty o u _ _ f => .teb ty o u (tlvTeb s teb) (BitVec.ofNat 8 (s.tco.st.code + flag coast 3)) f
    | t => t }

/-- The ICV enters the AUTHENTICATION TLV (R269, R271) under the entry chosen at the decision instant, whose key an
    invalidation leaves until it is zeroed (R402); none when its slot holds no usable key any more or a tamper of this tick
    aborts the operation (R281). -/
def signMsg (s : State) (i : Fin 16) (key : Option SecKey) (m : PtpMsg) : Option PtpMsg :=
  match key with
  | none => some m
  | some k =>
    if macUsableAt s k.slot.toNat k.cmac 0 && !tamperWaits s then
      let v := Config.icv k.cmac (slotAt s k.slot.toNat 0).key (if (ptpCfg s i 0).testBit 9 then { m with corr := 0 } else m)
      some { m with tlvs := m.tlvs.map fun t => match t with
        | .auth spp id f _ => .auth spp id f v
        | t => t }
    else none

def bodyPtp : EthBody → Option PtpMsg
  | .ptpUdp _ _ _ m => some m
  | .ptpEth m => some m
  | _ => none

def bodySetPtp (m : PtpMsg) : EthBody → EthBody
  | .ptpUdp ip a b _ => .ptpUdp ip a b m
  | .ptpEth _ => .ptpEth m
  | b => b

/-- The message that leaves, given the egress stamp in 2^-16 ns, its counter value and its TEB (R255, R256, R262). -/
def ptpFinal (s : State) (fill : Fill) (m : PtpMsg) (x : Int) (c : Nat) (teb : BitVec 32) (coast : Bool) : Option PtpMsg :=
  match fill with
  | .sync i k => signMsg s i k (setTeb s { m with tsSec := secOf c, tsNs := nsOf c, corr := fracOf c } teb coast)
  | .owed i k _ _ _ _ => signMsg s i k m
  | .pdelay i k st t =>
    signMsg s i k (setTeb s { m with corr := m.corr + (x - st) } (if t.toNat < teb.toNat then teb else t) coast)
  | .request i k => signMsg s i k m
  | .general i k => signMsg s i k m
  | _ => some m

/-- Indices of the last descriptors of a ring's frames that still wait in a queue. -/
def txWaiting (s : State) (r : Fin 2) : List (BitVec 32) :=
  s.eth.ports.toList.flatMap fun k => (k.qT ++ k.qM).filterMap fun x => match x.host with
    | some (q, i, _) => if q = r then some i else none
    | none => none

/-- The index that may be published (R433): it covers no frame whose status is still to be written. -/
def txIndex (s : State) (r : Fin 2) : BitVec 32 :=
  let e := (ring s (11 + r.val)).eng
  (txWaiting s r).foldl (fun m i => if (e - m).toNat < (e - i).toNat then i else m) e

/-- Writes the status of a host frame into its last descriptor, then the index (R433, R448). -/
def hostTxDone (s : State) (r : Fin 2) (idx : BitVec 32) (st : BitVec 8) : State :=
  let n := 11 + r.val
  if !ringRuns s n then s else
  let s := hostDma s (ringBase s n + 32 * (idx.toNat % ringSize s n) + 14) [st]
  ringNotifyAt s n (txIndex s r) 1

/-- A transmit timestamp of a host frame (R312, R314). -/
def txStamp (s : State) (p : Fin 9) (id : BitVec 16) (ts : BitVec 128) : State :=
  if !rb s Rg.ethCtrl 2 then s
  else if (ethPort s p).stamps.length < 32 then
    ethCnt (modPort s p fun k => { k with stamps := k.stamps ++ [{ id := id, ts := ts }] }) p 37 1
  else emit (ethCnt s p 38 1) .eth 0x0004 .notice (p.val + id.toNat * 2 ^ 16) (some 2)

/-- The counter of a sent frame's kind (R311). -/
def txKind (x : TxFrame) : Nat :=
  match x.fill with
  | .ntp .. => 30
  | .none => match x.frame.body with
    | .esmc .. => 33 | .pause _ => 34 | .pfc _ => 34 | _ => 32
  | _ => 31

/-- What an event message's egress leaves behind (R256, R276). -/
def afterEgress (s : State) (p : Fin 9) (x : TxFrame) (m : PtpMsg) (st : Int) (teb : BitVec 32) : State :=
  match x.fill with
  | .owed i key pd e corr t =>
    let f : FollowUp := { inst := i, port := Fin.ofNat 8 p.val, pdelay := pd, entry := e, seqId := m.seq, stamp := st, corr := corr,
                          teb := if t.toNat < teb.toNat then teb else t, ident := m.peer, decided := s.now, key := key }
    modPtp s fun q => { q with follow := q.follow ++ [f] }
  | .request i _ => modInst s i fun q => { q with delayWait := some { seqId := m.seq, stamp := st, tick := s.now, corr := 0 } }
  | _ => s

/-- The reason code that counts a message sent (R278). -/
def sentCode : PtpType → Option Nat
  | .sync => some 0x24 | .delayResp => some 0x20 | .pdelayResp => some 0x21 | _ => none

/-- A frame leaves as bytes (R6). -/
def outFrame (s : State) (p : Fin 9) (f : EthFrame) : State := emitOut s (.frame p { f with raw := frameWire s.freeCtr f })

/-- A frame leaves a port (R256, R257, R299): its egress stamp falls in a phase of the present tick that the spec
    leaves open (entry 22). -/
def egress (s : State) (p : Fin 9) (t : Bool) (x : TxFrame) : State :=
  let (ph, s) := freeN s
  let ph : Fin 16 := Fin.ofNat 16 ph
  let st := stampSub s p.val 1 ph
  let c := stampCounter s p.val 1 ph
  let teb := unitTeb s p.val
  let count := fun (s : State) (len : Nat) =>
    let s := ethCnt (ethCnt (ethCnt s p 28 len) p 29 1) p (txKind x) 1
    perfAdd (perfAdd s (112 + 16 * p.val + 1) 1) (112 + 16 * p.val + (if t then 2 else 3)) 1
  match x.fill, x.frame.body with
  | .ntp it add kod tail, .udp ip a b pay =>
    let f := { x.frame with body := .udp ip a b (ntpFinal s pay it add kod tail c teb) }
    outFrame (count s f.len) p f
  | .none, _ =>
    let s := outFrame (count s x.frame.len) p x.frame
    match x.host with
    | some (r, idx, id) =>
      let s := match id with
        | some i => txStamp s p i (stampTs s p.val 1 ph)
        | none => s
      hostTxDone s r idx 0
    | none => s
  | fill, body =>
    match bodyPtp body with
    | none => s
    | some m =>
      match ptpFinal s fill m st c (BitVec.ofNat 32 teb) (unitCoast s p.val) with
      | none => ptpCount s 0x11 1
      | some m' =>
        let f := { x.frame with body := bodySetPtp m' body }
        let s := outFrame (count s f.len) p f
        let s := match sentCode m.type with | some n => ptpCount s n 1 | none => s
        afterEgress s p x m' st (BitVec.ofNat 32 teb)

def grantAt (s : State) (e : Nat) : Option GrantEntry := s.ptp.grants.lookup e

def GrantEntry.get (g : GrantEntry) : GrantKind → Option Grant
  | .announce => g.announce | .sync => g.sync | .delayResp => g.delayResp

/-- A message of a granted stream whose grant has ended is not sent any more (R266, R267). -/
def grantEnded (s : State) (x : TxFrame) : Bool :=
  match x.grant with
  | some (e, k) => match (grantAt s e).bind fun g => g.get k with
    | some v => decide (v.until_ ≤ s.now)
    | none => true
  | none => false

/-- An event message, by its instance and whether it is a Pdelay_Resp. -/
def eventFill : Fill → Option (Fin 16 × Bool)
  | .sync i _ => some (i, false) | .owed i _ pd _ _ _ => some (i, pd) | .pdelay i _ _ _ => some (i, true) | _ => none

/-- An event message waits for the follow-up that its stream owes for the one before it (R256). -/
def owesFollow (s : State) (p : Fin 9) (x : TxFrame) : Bool :=
  match eventFill x.fill with
  | some (i, pd) => s.ptp.follow.any fun f => f.inst = i && f.pdelay = pd && f.port.val = p.val && f.entry = x.grant.map Prod.fst
  | none => false

/-- The frame that queue T, or else queue M, may send, with the rest of its queue (R299, R303, R304). -/
def headT (s : State) (p : Fin 9) : Option (TxFrame × List TxFrame) :=
  match (ethPort s p).qT with
  | x :: r => if pausedT s p || owesFollow s p x then none else some (x, r)
  | [] => none

def headM (s : State) (p : Fin 9) : Option (TxFrame × List TxFrame) :=
  match (ethPort s p).qM with
  | x :: r => if pausedM s p then none else some (x, r)
  | [] => none

/-- A queue T frame that a queue M frame on the wire delays is counted (R299, R311). Log entry 22. -/
def behindM (s : State) (p : Fin 9) : State := if s.now < (ethPort s p).busyM then ethCnt s p 39 1 else s

/-- A queue M frame holds the wire for its bits with preamble and gap (R299). Log entry 22. -/
def sendsM (s : State) (p : Fin 9) (len : Nat) : State :=
  modPort s p fun k => { k with busyM := max s.now k.busyM + ceilDiv ((len + 20) * 8000) (2 * lineMbps s p) }

/-- Sends what the queues hold while nothing holds it: queue T first (R299, R303, R304). -/
def pumpN : Nat → State → Fin 9 → State
  | 0, s, _ => s
  | n + 1, s, p =>
    if !(ethPort s p).up then s
    else match headT s p with
      | some (x, r) =>
        let s := modPort s p fun k => { k with qT := r }
        pumpN n (if grantEnded s x then s else egress (behindM s p) p true x) p
      | none => match headM s p with
        | some (x, r) => pumpN n (egress (sendsM (modPort s p fun k => { k with qM := r }) p x.frame.len) p false x) p
        | none => s

def pump (s : State) (p : Fin 9) : State :=
  wdUpdate (pumpN ((ethPort s p).qT.length + (ethPort s p).qM.length) s p) p

def queueBytes (l : List TxFrame) : Nat := (l.map TxFrame.bytes).foldl (· + ·) 0

/-- Queue T of a service port holds 384 KiB (R300); the chapter gives MG's queue T no size and the same is used.
    Log entry 60. -/
def fullT (s : State) (p : Fin 9) (bytes : Nat) : Bool := 393216 < queueBytes (ethPort s p).qT + bytes

def fullM (s : State) (p : Fin 9) (bytes : Nat) : Bool := 65536 < queueBytes (ethPort s p).qM + bytes

/-- A frame enters queue T or M and leaves at once where nothing holds it. Log entry 22. -/
def txPut (s : State) (p : Fin 9) (t : Bool) (x : TxFrame) : State :=
  pump (modPort s p fun k => if t then { k with qT := k.qT ++ [x] } else { k with qM := k.qM ++ [x] }) p

/-- A frame enters queue T ahead of what waits there: a follow-up (R256). -/
def txFront (s : State) (p : Fin 9) (x : TxFrame) : State :=
  pump (modPort s p fun k => { k with qT := x :: k.qT }) p

/-- Frame length from the tag count and the bytes above them, padded to the minimum, with FCS. Log entry 24. -/
def frameLen (tags bytes : Nat) : Nat := max 64 (14 + 4 * tags + bytes + 4)

/-- A frame that the engine builds. -/
def mkFrame (dst src : BitVec 48) (tags : List (BitVec 16 × BitVec 16)) (bytes : Nat) (body : EthBody) : EthFrame :=
  { len := frameLen tags.length bytes, codeOk := true, fcsOk := true, dst := dst, src := src, tags := tags, body := body, raw := [] }

/-! ## Quality level (R307 to R310) -/

/-- The rank of a decoded quality level (R90, R308); none when the combination is failed. -/
def qlRank (opt2 : Bool) (ssm : Nat) (ext : Option Nat) : Option (BitVec 8) :=
  let e := ext.getD 0xFF
  if opt2 then
    match ssm with
    | 0x1 => some 0x30 | 0x0 => some 0x90 | 0x7 => some 0x60 | 0x4 => some 0x70 | 0xD => some 0x90 | 0xA => some 0xB0
    | 0xC => some 0xB0 | 0xE => some 0x80 | 0xF => some 0xFF | _ => none
  else if ssm = 0x2 && e = 0x21 then some 0x10
  else if ssm = 0x2 && e = 0x20 then some 0x18
  else if ssm = 0x2 && e = 0x23 then some 0x20
  else if ssm = 0xB && e = 0x22 then some 0xB0
  else if e != 0xFF then none
  else match ssm with
    | 0x2 => some 0x30 | 0x4 => some 0x60 | 0x8 => some 0x80 | 0xB => some 0xB0 | 0xF => some 0xFF | _ => none

/-- The slots that a port's recovered clock feeds: 10 to 13 with BINDING 8 + port (R306, R125). -/
def syncESlots (s : State) (p : Fin 9) : List (Fin 16) :=
  (List.finRange 16).filter fun i => 10 ≤ i.val && i.val < 14 && slotBinding s i = 8 + p.val && p.val < 8

/-- The slots bound to a port's recovered clock take the rank of its quality level (R89, R90). -/
def qlRemap (s : State) (p : Fin 9) : State :=
  let k := ethPort s p
  let r := if k.notUsed then none else if k.failed then some 0xFF
    else qlRank ((ethCfg s p 0).testBit 13) k.ssm.toNat (if k.extSeen then some k.essm.toNat else none)
  (syncESlots s p).foldl (fun s i => selEval (judge (modSlot s i fun k => { k with mapped := r }) i)) s

/-- A port's quality level takes new values: ESMC_QL on a change, and the rank of each bound slot (R89, R309). -/
def setQl (s : State) (p : Fin 9) (ssm : BitVec 4) (ext : Option (BitVec 8)) (failed notUsed : Bool) : State :=
  let old := ethPort s p
  let e := ext.getD 0xFF
  let bad := failed || (!notUsed && (qlRank ((ethCfg s p 0).testBit 13) ssm.toNat (ext.map BitVec.toNat)).isNone)
  let s := modPort s p fun k => { k with ssm := ssm, essm := e, failed := bad, extSeen := ext.isSome, notUsed := notUsed }
  qlRemap (if old.ssm = ssm && old.essm = e && old.failed = bad && old.notUsed = notUsed then s
    else emit s .eth 0x0005 .notice (p.val + ssm.toNat * 16 + e.toNat * 256 + flag bad 16) (some 3)) p

/-- The quality level becomes failed (R309). -/
def failQl (s : State) (p : Fin 9) : State :=
  let k := ethPort s p
  if !(ethCfg s p 0).testBit 11 || k.failed then s
  else ethCnt (setQl s p k.ssm (if k.extSeen then some k.essm else none) true false) p 46 1

/-- SVC and PTP admit requests: Boil, and no POWER_SET out of it under way (R489, R493). -/
def inBoil (s : State) : Bool := s.pwr.phase = .ready && s.pwr.state = .boil && s.pwr.trans.isNone

/-- The engine drives as active in Boil: its answers and masters run (R213, R253). -/
def serving (s : State) : Bool := inBoil s && acting s

/-- The engine serves what is stamped at an instant of the counter, in 2^-16 ns (R281, R379 step 5): at or after the handover
    instant of an accepted swap the incoming unit does, before it the outgoing unit. -/
def servingAt (s : State) (at_ : Int) : Bool :=
  match s.pair.swap with
  | some w =>
    let on := inBoil s
    if !w.accepted then serving s
    else if 0 ≤ subDiff at_ (hMinus s w 0) then on && w.incoming
    else if w.handed then on && !w.incoming
    else serving s
  | none => serving s

/-- The quality level that a port sends (R310): SSM code, enhanced code. -/
def qlToSend (s : State) (p : Fin 9) : BitVec 4 × BitVec 8 :=
  let w := ethCfg s p 6
  let e := ethCfg s p 7
  if safe s .eth then (0xF, 0xFF)
  else match s.tco.st with
    | .clear | .haze => (BitVec.ofNat 4 (fld w 3 0), BitVec.ofNat 8 (fld e 7 0))
    | .overcast => (BitVec.ofNat 4 (fld w 7 4), BitVec.ofNat 8 (fld e 15 8))
    | _ => (BitVec.ofNat 4 (fld w 11 8), BitVec.ofNat 8 (fld e 23 16))

/-- Sends an ESMC PDU (R310): 60 bytes and FCS. -/
def sendEsmc (s : State) (p : Fin 9) (event : Bool) : State :=
  let (ssm, e) := qlToSend s p
  let mac := portMac s p
  let ident : BitVec 64 := BitVec.ofNat 64 (mac.toNat / 2 ^ 24 * 2 ^ 40 + 0xFFFE * 2 ^ 24 + mac.toNat % 2 ^ 24)
  let f := mkFrame 0x0180C2000002 mac [] 46 (.esmc true ssm (if (ethCfg s p 7).testBit 24 then some e else none) ident event)
  let s := modPort s p fun k => { k with qlSent := some (ssm, e), infoAt := if event then k.infoAt else s.now }
  txPut s p true { frame := f, bytes := f.len, fill := .none, host := none, grant := none }

/-! ## Wake (R316, R317) -/

/-- The tags at the head of bytes. -/
def bytesTags : Nat → List Byte → List (BitVec 16 × BitVec 16)
  | 0, _ => []
  | n + 1, b =>
    let t := beAt b 0 2
    if t = 0x8100 || t = 0x88A8 then (BitVec.ofNat 16 t, BitVec.ofNat 16 (beAt b 2 2)) :: bytesTags n (b.drop 4) else []

/-- A run of sixteen copies of an address after six bytes of 0xFF, at the head of bytes. -/
def magicAt (mac : List Byte) (b : List Byte) : Bool :=
  b.take 102 = List.replicate 6 0xFF ++ (List.replicate 16 mac).flatten

def magicIn (mac : List Byte) : List Byte → Bool
  | [] => false
  | b :: r => magicAt mac (b :: r) || magicIn mac r

/-- A pattern matches: each masked byte is there and equal (R316). -/
def patternMatch : List Byte → List Bool → List Byte → Bool
  | _, [], _ => true
  | [], _ :: _, _ => true
  | _ :: q, m :: r, [] => !m && patternMatch q r []
  | x :: q, m :: r, b :: c => (!m || x = b) && patternMatch q r c

/-- ETH_WAKE_CAUSE of a frame, 0 without a match: the magic packet stands after the EtherType, behind any tags. -/
def wakeCauseOf (w : WakeCopy) (raw : List Byte) : Nat :=
  let magic := w.ctrl.getLsbD 0 && magicIn (beBytes 6 w.mac.toNat) (raw.drop (14 + 4 * (bytesTags 2 (raw.drop 12)).length))
  flag magic 0 + ((List.range 4).map fun k =>
    flag (w.ctrl.getLsbD (1 + k) && (match w.pats[k]? with | some q => patternMatch q.1 q.2 raw | none => false)) (1 + k)).foldl (· + ·) 0

/-- The wake detector examines a frame: on a match WAKE_N goes low and the cause is recorded (R316, R317). -/
def wakeHit (s : State) (frame : EthFrame) : State :=
  match s.eth.wake with
  | some w =>
    let c := wakeCauseOf w frame.raw
    if s.pwr.state = .simmer && s.eth.wakeN && frame.fcsOk && c != 0 then
      emitOut { s with eth := { s.eth with wakeN := false, wakeCause := BitVec.ofNat 32 (c + 32) } } (.wake true)
    else s
  | none => s

/-- A wake match that waits at the tick of a start stays recorded (R319). Log entry 34. -/
def wakeFirst (s : State) : State :=
  s.pending.foldl (fun s c => match c with | .wakeMatch f => wakeHit s f | _ => s) s

end Sys2Proof.Machine
end

