-- ==== Sys2Proof/Machine/SvcOps.lean ====
section
/-! DEFINITION. The NTP and NTS service's pipeline (06_nts_ntp_service.md R212 to R239): policing, parsing, cookies, the
rate limiter and the answers. -/
namespace Sys2Proof.Machine

/-! ## Service addresses and policing (R212 to R216) -/

/-- Word `w` of a service-address entry. -/
def svcAddr (s : State) (e w : Nat) : Nat := ind s .svc 1 (8 * e + w)

/-- The address of an entry: word 1 is the most significant, IPv4 in word 1 (R247). -/
def entryAddr (s : State) (e : Nat) : BitVec 128 :=
  if (svcAddr s e 0).testBit 3 then
    BitVec.ofNat 128 (svcAddr s e 1 * 2 ^ 96 + svcAddr s e 2 * 2 ^ 64 + svcAddr s e 3 * 2 ^ 32 + svcAddr s e 4)
  else BitVec.ofNat 128 (svcAddr s e 1)

/-- The VLAN ID of the outer tag (R297). -/
def outerVlan (f : EthFrame) : Option Nat := f.tags.head?.map fun t => fld t.2.toNat 11 0

/-- A unicast IP address (R212): not of the multicast ranges, not the limited broadcast. Log entry 71. -/
def unicastIp (v6 : Bool) (a : BitVec 128) : Bool :=
  if v6 then a.toNat / 2 ^ 120 != 0xFF
  else !(decide (224 ≤ a.toNat / 2 ^ 24 % 256) && decide (a.toNat / 2 ^ 24 % 256 ≤ 239)) && a.toNat % 2 ^ 32 != 0xFFFFFFFF

/-- An entry's address, VLAN and port match, for a unicast destination (R212). -/
def entryMatch (s : State) (p : Nat) (f : EthFrame) (ip : IpHdr) (e : Nat) : Bool :=
  let w := svcAddr s e 0
  unicastIp ip.v6 ip.dst && !f.dst.getLsbD 40 && w.testBit 0 && w.testBit (4 + p) && w.testBit 3 = ip.v6 && entryAddr s e = ip.dst &&
  (!w.testBit 28 || outerVlan f = some (fld w 27 16))

/-- The service-address entry that a frame meets (R212). -/
def svcEntry (s : State) (p : Nat) (f : EthFrame) : Option Nat :=
  match f.body with
  | .udp ip _ dport _ => if p < 8 && dport = 123 then (List.range 64).find? (entryMatch s p f ip) else none
  | _ => none

/-- A bucket of 4,096 requests, in 1/500,000 of a request (R214). -/
def bucketFull : Nat := 4096 * 500000

def fillBuckets (plain nts ticks : Nat) (b : Buckets) : Buckets :=
  { b with plain := min bucketFull (b.plain + plain * ticks), nts := min bucketFull (b.nts + nts * ticks) }

/-- Brings every bucket to the present tick at the rates in force (R214). -/
def svcRefill (s : State) : State :=
  let t := s.now - s.svc.refillAt
  modSvc s fun v =>
    { v with refillAt := s.now, engine := fillBuckets 320000 64000 t v.engine,
             ports := v.ports.mapFinIdx fun p b _ => fillBuckets (ind s .svc 2 (2 * p)) (ind s .svc 2 (2 * p + 1)) t b }

def bucketHas (nts : Bool) (b : Buckets) : Bool := 500000 ≤ (if nts then b.nts else b.plain)

def bucketTake (nts : Bool) (b : Buckets) : Buckets :=
  if nts then { b with nts := b.nts - 500000 } else { b with plain := b.plain - 500000 }

def bucketDrop (nts : Bool) (b : Buckets) : Buckets :=
  if nts then { b with dropNts := b.dropNts + 1 } else { b with dropPlain := b.dropPlain + 1 }

/-- The port's bucket, then the engine's: whether the frame passes (R214). -/
def police (s : State) (p : Nat) (nts : Bool) : State × Bool :=
  let s := svcRefill s
  if !bucketHas nts (vget s.svc.ports Buckets.reset p) then
    (modSvc s fun v => { v with ports := vmod v.ports p (bucketDrop nts) }, false)
  else
    let s := modSvc s fun v => { v with ports := vmod v.ports p (bucketTake nts) }
    if bucketHas nts s.svc.engine then (modSvc s fun v => { v with engine := bucketTake nts v.engine }, true)
    else (modSvc s fun v => { v with ports := vmod v.ports p (bucketDrop nts) }, false)

/-! ## Parsing (R217, R218, R221, R222) -/

/-- An extension field: its type, its offset in the walked bytes, and its body. -/
structure ExtField where
  type : Nat
  off : Nat
  body : List Byte

/-- The walk of R218 over `l`, whose first byte is at offset `off`: the fields, or a reason code. -/
def walkFields : Nat → Nat → List Byte → Except Nat (List ExtField)
  | fuel, off, l =>
    if l.isEmpty then .ok []
    else if l.length = 20 ∨ l.length = 24 then .error 0x0B
    else if l.length < 4 then .error 0x0A
    else
      let len := beAt l 2 2
      if len % 4 ≠ 0 ∨ len < 16 ∨ l.length < len then .error 0x0A
      else match fuel with
        | 0 => .error 0x0A
        | n + 1 =>
          match walkFields n (off + len) (l.drop len) with
          | .ok r => .ok ({ type := beAt l 0 2, off := off, body := slice l 4 (len - 4) } :: r)
          | .error e => .error e

def isNtsField (x : ExtField) : Bool := x.type = 0x0104 || x.type = 0x0204 || x.type = 0x0304 || x.type = 0x0404

/-- The parts of a valid NTS structure (R221, outside the encrypted part). -/
structure NtsParts where
  uid : List Byte
  cookie : List Byte
  auth : List Byte
  authOff : Nat
  places : Nat

def ntsParts (l : List ExtField) : Option NtsParts :=
  let uids := l.filter fun x => x.type = 0x0104
  let cookies := l.filter fun x => x.type = 0x0204
  let auths := l.filter fun x => x.type = 0x0404
  let places := l.filter fun x => x.type = 0x0304
  match uids, cookies, auths, l.getLast? with
  | [u], [c], [a], some z =>
    if 32 ≤ u.body.length && u.body.length ≤ 128 && z.type = 0x0404 && places.all (fun x => x.body.length = c.body.length) then
      some { uid := beBytes 2 0x0104 ++ beBytes 2 (u.body.length + 4) ++ u.body, cookie := c.body, auth := a.body, authOff := a.off,
             places := places.length }
    else none
  | _, _, _, _ => none

/-- Nonce and ciphertext of an Authenticator (R222). -/
def authParts (aead : Nat) (b : List Byte) : Option (List Byte × List Byte) :=
  let n := beAt b 0 2
  let c := beAt b 2 2
  let okN := if aead = 30 then n = 12 else n % 4 = 0 && 16 ≤ n && n ≤ 32
  if okN && 16 ≤ c && 4 + pad4 n + pad4 c ≤ b.length && 4 ≤ b.length then some (slice b 4 n, slice b (4 + pad4 n) c) else none

/-! ## Cookies (R223 to R226) -/

/-- Key length of an AEAD (R223). -/
def aeadKeyLen (aead : Nat) : Nat := if aead = 30 then 16 else 32

/-- An AEAD is enabled (R223): 15 while NTS is, 30 by GCMSIV_EN. -/
def aeadOn (s : State) (aead : Nat) : Bool := (aead = 15 && rb s Rg.svcCtrl 2) || (aead = 30 && rb s Rg.svcCtrl 3)

/-- Cookie length of an AEAD (R224): 104 or 72 bytes. -/
def cookieLen (aead : Nat) : Nat := 40 + 2 * aeadKeyLen aead

def CookieKey.empty : CookieKey := { keyId := 0, slot := 0, st := .empty, unsealed := 0, retireAt := none }

/-- The cookie key entries and the entry that mints. -/
abbrev CookieTable := Vector CookieKey 16 × Option (Fin 16)

/-- A rotation due at `ns` takes effect, unless its entry retires before. -/
def tableRotate (t : CookieTable) (r : Option (Fin 16 × Nat)) (ns : Nat) : CookieTable :=
  match r with
  | some (i, at_) =>
    if at_ ≤ ns && (match t.1[i].retireAt with | some x => decide (at_ ≤ x) | none => true) then
      let ks := match t.2 with
        | some j => if t.1[j].st = .current then vmod t.1 j.val fun k => { k with st := .accept } else t.1
        | none => t.1
      (vmod ks i.val fun k => { k with st := .current }, some i)
    else t
  | none => t

/-- Retirements due at `ns` take effect. -/
def tableRetire (t : CookieTable) (ns : Nat) : CookieTable :=
  let due := fun (k : CookieKey) => match k.retireAt with | some x => decide (x ≤ ns) | none => false
  (t.1.map fun k => if due k then CookieKey.empty else k, t.2.filter fun i => !due t.1[i])

/-- An instant T is remembered for a millisecond, longer than any request in the pipeline. Log entry 71. -/
def pastLive (s : State) (tick : Nat) : Bool := decide (s.now ≤ tick + ticksMs 1)

/-- The entries as a request stamped at `ns` or a command executed then sees them (R226, R236, R243): before an instant
    T reached lately that lies after it, and after every one that it has reached, be its own command still to come. -/
def cookieTable (s : State) (ns : Nat) : CookieTable :=
  match s.svc.past.find? fun x => ns < x.1 && pastLive s x.2.1 with
  | some x => x.2.2
  | none => tableRetire (tableRotate (s.svc.keys, s.svc.cur) s.svc.rotate ns) ns

/-- The entry that holds a KEY_ID in a state that unseals, with a usable slot (R235). -/
def unsealEntry (s : State) (t : CookieTable) (id ns : Nat) : Option (Fin 16) :=
  (List.finRange 16).find? fun i =>
    t.1[i].st != .empty && t.1[i].keyId.toNat = id && cookieUsableAt s t.1[i].slot.toNat ns

/-- The entry that mints, if its slot is usable (R236). Log entry 71. -/
def mintEntry (s : State) (t : CookieTable) (ns : Nat) : Option CookieKey :=
  match t.2 with
  | some i => if cookieUsableAt s t.1[i].slot.toNat ns then some t.1[i] else none
  | none => none

/-- A cookie was unsealed under an entry, counted while the entry still holds its KEY_ID. -/
def countUnsealed (s : State) (i : Fin 16) (id : BitVec 32) : State :=
  modSvc s fun v => { v with keys := vmod v.keys i.val fun k =>
    if k.st != .empty && k.keyId = id then { k with unsealed := BitVec.ofNat 32 (sat32 (k.unsealed.toNat + 1)) } else k }

/-- What a cookie holds: AEAD, C2S and S2C. -/
structure CookieKeys where
  aead : Nat
  c2s : Nat
  s2c : Nat

/-- Unsealing (R225). -/
def unsealWith (s : State) (e : CookieKey) (ns : Nat) (c : List Byte) : Option CookieKeys :=
  let aead := beAt c 4 2
  let k := aeadKeyLen aead
  match aeadOpen 15 (slotAt s e.slot.toNat ns).key (slice c 0 8) (slice c 8 16) (slice c (24 + 2 * k) 16)
      (slice c 24 (2 * k)) with
  | some p => some { aead := aead, c2s := beAt p 0 k, s2c := beAt p k k }
  | none => none

/-- A fresh cookie under an entry whose key is the one at `ns` (R224 to R226, R402). -/
def mintCookie (s : State) (e : CookieKey) (ns : Nat) (c : CookieKeys) : List Byte × State :=
  let k := aeadKeyLen c.aead
  let (nonce, s) := drawBytes s 16
  let hdr := beBytes 4 e.keyId.toNat ++ beBytes 2 c.aead ++ [1, 0]
  let (tag, ct) := aeadSeal 15 (slotAt s e.slot.toNat ns).key hdr nonce (beBytes k c.c2s ++ beBytes k c.s2c)
  (hdr ++ nonce ++ ct ++ tag, svcCount s 0x26 1)

/-- `n` fresh cookies, each as an NTS Cookie field when `asField` is set. -/
def mintN : Nat → State → CookieKey → Nat → CookieKeys → Bool → List Byte × State
  | 0, s, _, _, _, _ => ([], s)
  | n + 1, s, e, ns, c, asField =>
    let (ck, s) := mintCookie s e ns c
    let f := if asField then beBytes 2 0x0204 ++ beBytes 2 (4 + ck.length) ++ ck else ck
    let (r, s) := mintN n s e ns c asField
    (f ++ r, s)

/-! ## The rate limiter (R238, R239) -/

def rlEpoch (s : State) : Nat := secOf s.tco.counter / 2 ^ rf s Rg.svcRlCfg 10 8

/-- The two cells of a client (R238). -/
def rlCells (s : State) (v6 : Bool) (addr : BitVec 128) : Nat × Nat :=
  let keep := if v6 then rf s Rg.svcRlCfg 31 24 else rf s Rg.svcRlCfg 21 16
  let w := if v6 then 128 else 32
  let key := addr.toNat / 2 ^ (w - keep) * 2 ^ (w - keep)
  let h := (Config.hash64 s.svc.hashKey (key + flag v6 128)).toNat
  (fld h 21 0, 2 ^ 22 + fld h 43 22)

def Cell.zero : Cell := { tag := 0, count := 0 }

/-- A cell aged to an epoch (R239 step 1). -/
def ageCell (epoch : Nat) (c : Cell) : Cell :=
  { tag := BitVec.ofNat 2 epoch, count := c.count >>> ((epoch + 4 - c.tag.toNat) % 4) }

def cellAt (s : State) (i : Nat) : Cell := ageCell (rlEpoch s) (aget Cell.zero s.svc.sketch i)

/-- The estimate for a client. -/
def rlEstimate (s : State) (v6 : Bool) (addr : BitVec 128) : Nat :=
  let (a, b) := rlCells s v6 addr
  min (cellAt s a).count.toNat (cellAt s b).count.toNat

def putCell (s : State) (i : Nat) (c : Cell) : State := modSvc s fun v => { v with sketch := aset Cell.zero v.sketch i c }

/-- Ages, estimates and increments (R239): whether the request is limited. -/
def rlTake (s : State) (v6 : Bool) (addr : BitVec 128) : State × Bool :=
  let (a, b) := rlCells s v6 addr
  let est := rlEstimate s v6 addr
  let bump := fun (c : Cell) => if c.count.toNat = est then { c with count := BitVec.ofNat 6 (min 63 (est + 1)) } else c
  let s := putCell s a (bump (cellAt s a))
  (putCell s b (bump (cellAt s b)), decide (rf s Rg.svcRlCfg 5 0 ≤ est))

/-! ## Answers (R226 to R234) -/

/-- A sample of malformed requests (R220): the history queue only. -/
def svcSample (s : State) (code p : Nat) (ip : IpHdr) : State :=
  if (1 ≤ code && code ≤ 0x0F) || code = 0x17 then
    let n := s.svc.toSample + 1
    if n < 1024 then modSvc s fun v => { v with toSample := n }
    else
      let s := modSvc s fun v => { v with toSample := 0 }
      histPut s (mkRec s .svc 0x0006 .notice false false (code + p * 256 + flag ip.v6 12 + ip.src.toNat % 2 ^ 32 * 2 ^ 32))
  else s

def svcDropAs (s : State) (code p : Nat) (ip : IpHdr) : State := svcSample (svcCount s code 1) code p ip

/-- LI while a leap is pending and near (R231, R73). -/
def ntpLeap (s : State) (warn : Nat) : Nat :=
  let t := s.tco
  let sec := secOf t.counter % 2 ^ 32
  if t.pend != 0 && decide (sec < t.leapAt.toNat) && decide (t.leapAt.toNat - sec ≤ warn) then t.pend.toNat else 0

/-- The reference identifier (R231). -/
def ntpRefId (s : State) : Nat × State :=
  match (match s.refs.timeSlot with | some i => some i | none => s.refs.lastSlot) with
  | some i => (ind s .svc 3 i.val, s)
  | none => let (x, s) := freeN s; (x % 2 ^ 32, s)

/-- The counter value of a TS128. -/
def tsCounter (t : BitVec 128) : Nat :=
  fld t.toNat 127 80 * unitsPerSec + fld t.toNat 79 50 * 2 ^ 48 + fld t.toNat 49 34 * 2 ^ 32

/-- The form of an answer (R229, R231, R232). -/
inductive NtpForm where
  | normal | unsync | ntsn | rate
  deriving DecidableEq

/-- The 48-byte header of an answer before its egress stamp. Log entry 71. -/
def ntpHeader (s : State) (req : List Byte) (ingress : Nat) (form : NtpForm) : List Byte × State :=
  let vn := (leAt req 0 1) / 8 % 8
  let li := match form with | .normal => ntpLeap s (getW s Rg.svcLeapWarn).toNat | _ => 3
  let (stormStratum, s) := if s.tco.st = .storm && form = .normal then let (x, s) := freeN s; (x % 256, s) else (0, s)
  let stratum := match form with
    | .unsync => 16
    | .ntsn | .rate => 0
    | .normal => match s.tco.st with
      | .overcast => rf s Rg.svcStratum 15 8
      | .storm => stormStratum
      | _ => rf s Rg.svcStratum 7 0
  let (rid, s) := match form with
    | .ntsn => (0x4E54534E, s)
    | .rate => (0x52415445, s)
    | .unsync => if s.tco.st = ClockState.night then (0x494E4954, s) else ntpRefId s
    | .normal => ntpRefId s
  let kod : Bool := form = NtpForm.ntsn || form = NtpForm.rate
  (beBytes 1 (li * 64 + vn * 8 + 4) ++ beBytes 1 stratum ++ slice req 2 1 ++ [0xDF] ++
   beBytes 4 (if kod then 0 else (getW s Rg.svcRootdelay).toNat) ++ beBytes 4 0 ++ beBytes 4 rid ++
   beBytes 8 (ntpTs (tsCounter s.tco.lastContr) s.tco.utcOff) ++ slice req 40 8 ++ beBytes 8 (ntpTs ingress s.tco.utcOff) ++
   beBytes 8 0, s)

/-- What an accepted request asks for: its frame's addresses, its payload, its protocol and its cookie's keys. -/
structure NtpReq where
  port : Fin 9
  frame : EthFrame
  ip : IpHdr
  sport : BitVec 16
  pay : List Byte
  entry : Nat
  ingress : Nat
  teb : BitVec 32
  nts : Option (NtsParts × CookieKeys)
  uid : List Byte
  places : Nat

/-- Kiss-o'-Death answers are limited per second (R230): whether one may be sent. Log entry 71. -/
def kodTake (s : State) : State × Bool :=
  let sec := s.now / ticksS 1
  let s := if s.svc.kodSec = sec then s else modSvc s fun v => { v with kodSec := sec, kodSent := 0 }
  if s.svc.kodSent < (getW s Rg.svcKodMax).toNat then (modSvc s fun v => { v with kodSent := v.kodSent + 1 }, true)
  else (svcCount (modSvc s fun v => { v with kodDrop := v.kodDrop + 1 }) 0x19 1, false)

/-- Sends an answer (R213): addresses and ports exchanged, the request's tags, TTL and DSCP as configured, ECN 0. -/
def svcSend (s : State) (r : NtpReq) (pay : List Byte) (form : NtpForm) (tail : Option NtsTail) : State :=
  let ip : IpHdr :=
    { v6 := r.ip.v6, src := r.ip.dst, dst := r.ip.src, ttl := BitVec.ofNat 8 (rf s Rg.svcStratum 23 16),
      dscp := BitVec.ofNat 6 (svcAddr s r.entry 5), ecn := 0, fragment := false, extHdr := false, csumOk := true, csumZero := false }
  let n := pay.length + (match tail with | some t => t.uid.length + 24 + t.nonce.length + t.plain.length | none => 0)
  let f := mkFrame r.frame.src r.frame.dst r.frame.tags ((if r.ip.v6 then 48 else 28) + n) (.udp ip 123 r.sport pay)
  let teb := if s.tco.st = .night then none else some r.teb
  txPut s r.port true
    { frame := f, bytes := f.len, fill := .ntp teb (getW s Rg.svcRootdispAdd).toNat (form = NtpForm.ntsn || form = NtpForm.rate) tail, host := none, grant := none }

/-- K of R226, reduced while the answer would be longer than its request (R228). -/
def fitK (req uid nonce ck : Nat) : Nat → Nat
  | 0 => 1
  | n + 1 => if 48 + uid + 24 + nonce + (n + 1) * (4 + ck) ≤ req then n + 1 else fitK req uid nonce ck n

/-- An NTS answer (R226, R227), for a normal, unsynchronised or RATE header. -/
def ntsAnswer (s : State) (r : NtpReq) (e : CookieKey) (c : CookieKeys) (form : NtpForm) : State :=
  let (hdr, s) := ntpHeader s r.pay r.ingress form
  let nlen := if c.aead = 30 then 12 else 16
  let k := fitK r.pay.length r.uid.length nlen (cookieLen c.aead) (min 8 (1 + r.places))
  let (plain, s) := mintN k s e (totNs r.ingress) c true
  let (nonce, s) := drawBytes s nlen
  svcSend s r hdr form (some { aead := c.aead, key := c.s2c, nonce := nonce, uid := r.uid, plain := plain })

/-- An NTSN answer (R229), with the code that caused it. Log entry 71. -/
def ntsnAnswer (s : State) (r : NtpReq) (code : Nat) : State :=
  let s := svcCount s code 1
  let (s, ok) := kodTake s
  if ok then
    let (hdr, s) := ntpHeader s r.pay r.ingress .ntsn
    svcSend (svcCount s 0x24 1) r (hdr ++ r.uid) .ntsn none
  else s

/-- Steps 18 to 20 of R217 for a plain request (`nts` none) or an NTS request with the entry that mints; a tamper of this
    tick aborts the sealing (R243). Log entry 71. -/
def svcAnswer (s : State) (r : NtpReq) (nts : Option (CookieKey × CookieKeys)) : State :=
  let isNts := nts.isSome
  let (s, limited) := if rb s Rg.svcCtrl (if isNts then 5 else 4) then rlTake s r.ip.v6 r.ip.src else (s, false)
  let send := fun (s : State) (code : Nat) (form : NtpForm) => match nts with
    | some (e, c) => if tamperWaits s then svcCount s 0x1A 1 else ntsAnswer (svcCount s code 1) r e c form
    | none => let (hdr, s) := ntpHeader (svcCount s code 1) r.pay r.ingress form; svcSend s r hdr form none
  if limited then
    let s := svcCount s 0x18 1
    if rb s Rg.svcPolicy (if isNts then 9 else 8) then s
    else
      let (s, ok) := kodTake s
      if ok then send s 0x25 .rate else s
  else
    let act := match s.tco.st with
      | .night => if isNts then rf s Rg.svcPolicy 3 2 else rf s Rg.svcPolicy 1 0
      | .storm => if isNts then rf s Rg.svcPolicy 7 6 else rf s Rg.svcPolicy 5 4
      | _ => 2
    if act = 1 then svcCount s 0x1B 1
    else if act = 0 || !s.tco.utcValid || safe s .svc then send s 0x23 .unsync
    else send s (if isNts then 0x22 else if (leAt r.pay 0 1) / 8 % 8 = 3 then 0x21 else 0x20) .normal

/-- The decrypted fields (R217 step 17, R221): their placeholders, none where they are malformed. Log entry 71. -/
def innerPlaces (plain : List Byte) (ck : Nat) : Option Nat :=
  match walkFields 16 0 plain with
  | .error _ => none
  | .ok l =>
    if l.any (fun x => x.type = 0x0104 || x.type = 0x0204 || x.type = 0x0404) then none
    else
      let p := l.filter fun x => x.type = 0x0304
      if p.all (fun x => x.body.length = ck) then some p.length else none

/-- Steps 12 to 20 of R217 for an NTS request. Log entry 71. -/
def ntsRequest (s : State) (r : NtpReq) (fields : List ExtField) : State :=
  match ntsParts fields with
  | none => svcDropAs s 0x0C r.port.val r.ip
  | some q =>
    let r := { r with uid := q.uid, places := q.places }
    let ns := totNs r.ingress
    let t := cookieTable s ns
    let c := q.cookie
    let aead := beAt c 4 2
    if !aeadOn s aead || c.length ≠ cookieLen aead || beAt c 6 1 ≠ 1 then ntsnAnswer s r 0x13
    else match unsealEntry s t (beAt c 0 4) ns with
      | none => ntsnAnswer s r 0x12
      | some i =>
        match unsealWith s t.1[i] ns c with
        | none => ntsnAnswer s r 0x14
        | some ck =>
          let s := countUnsealed s i t.1[i].keyId
          match authParts aead q.auth with
          | none => svcDropAs s 0x0F r.port.val r.ip
          | some (nonce, ct) =>
            let (tag, body) := aeadSplit aead ct
            match aeadOpen aead ck.c2s (r.pay.take q.authOff) nonce tag body with
            | none => if rb s Rg.svcCtrl 6 then svcCount s 0x15 1 else ntsnAnswer s r 0x15
            | some plain =>
              match innerPlaces plain c.length with
              | none => svcDropAs s 0x17 r.port.val r.ip
              | some n =>
                match mintEntry s t ns with
                | none => ntsnAnswer s r 0x16
                | some j => svcAnswer s { r with places := q.places + n } (some (j, ck))

/-- A source that may be answered (R217 step 4): unicast, not loopback or unspecified, port not 0. Log entry 71. -/
def srcOk (ip : IpHdr) (sport : BitVec 16) : Bool :=
  let a := ip.src.toNat
  sport != 0 && unicastIp ip.v6 ip.src &&
  (if ip.v6 then a != 0 && a != 1 else a % 2 ^ 32 != 0 && a / 2 ^ 24 % 256 != 127)

/-- A frame that belongs to SVC (R213 to R219): the checks of R217 in their order. `taken` is the pipeline's admission
    (entry 18). Log entry 71. -/
def svcFrame (s : State) (p : Fin 9) (phase : Fin 16) (f : EthFrame) (ip : IpHdr) (sport : BitVec 16) (pay : List Byte)
    (e : Nat) (taken : Bool) : State :=
  let s := ethCnt s p 15 1
  let drop := fun (s : State) (code : Nat) => svcDropAs s code p.val ip
  if !rb s Rg.svcCtrl 0 || !servingAt s (stampSub s p.val 0 phase) || s.mem.dead[0] then svcCount s 0x11 1 else
  let (s, pass) := police s p.val (48 < pay.length)
  if !pass then svcCount s 0x10 1
  else if !taken || fullT s p 0 then svcCount s 0x11 1
  else if ip.fragment || (ip.v6 && ip.extHdr) then drop s 0x08
  else if !srcOk ip sport then drop s 0x06
  else if (ip.csumZero && ip.v6) || (!ip.csumZero && !ip.csumOk) then drop s 0x07
  else if pay.length < 48 then drop s 0x01
  else if 1280 < pay.length then drop s 0x02
  else
    let b := leAt pay 0 1
    let vn := b / 8 % 8
    let mode := b % 8
    if vn ≠ 3 ∧ vn ≠ 4 then drop s 0x03
    else if mode = 6 ∨ mode = 7 then drop s 0x04
    else if mode ≠ 3 then drop s 0x05
    else if vn = 3 ∧ pay.length ≠ 48 then drop s 0x09
    else match walkFields 16 48 (pay.drop 48) with
      | .error c => drop s c
      | .ok fields =>
        let nts := fields.any isNtsField
        let w := svcAddr s e 0
        let r : NtpReq :=
          { port := p, frame := f, ip := ip, sport := sport, pay := pay, entry := e, ingress := stampCounter s p.val 0 phase,
            teb := BitVec.ofNat 32 (unitTeb s p.val), nts := none, uid := [], places := 0 }
        if nts then (if rb s Rg.svcCtrl 2 && w.testBit 2 then ntsRequest s r fields else drop s 0x0D)
        else if rb s Rg.svcCtrl 1 && w.testBit 1 then svcAnswer s r none else drop s 0x0E

/-! ## Cookie key entries (R235, R236) -/

def modCk (s : State) (i : Fin 16) (f : CookieKey → CookieKey) : State := modSvc s fun v => { v with keys := vmod v.keys i.val f }

/-- NO_KEY: no entry mints any more (R236). -/
def noKey (s : State) (i : Fin 16) : State :=
  emit (modSvc s fun v => { v with cur := none, lastCur := i }) .svc 0x0003 .degraded i.val (some 2)

/-- The entries before an instant T are kept for the requests stamped before it (R236). -/
def keepCookies (s : State) (t : Nat) : State :=
  modSvc s fun v => { v with past := (v.past.filter fun x => pastLive s x.2.1) ++ [(t, s.now, v.keys, v.cur)] }

/-- A pending rotation takes effect at T (R236). -/
def cookieRotate (s : State) (i : Fin 16) (t : Nat) : State :=
  let s := keepCookies s t
  let prev := s.svc.cur
  let s := match prev with
    | some j => if s.svc.keys[j].st = .current then modCk s j fun k => { k with st := .accept } else s
    | none => s
  let s := modSvc (modCk s i fun k => { k with st := .current }) fun v => { v with cur := some i, rotate := none, lastCur := i }
  emit s .svc 0x0001 .notice (i.val + (prev.getD s.svc.lastCur).val * 16 + s.svc.keys[i].keyId.toNat * 2 ^ 32) (some 0)

/-- An entry becomes EMPTY (R236): at its retire instant T, or at the key store's commit instant. -/
def cookieRetire (s : State) (i : Fin 16) (byStore : Bool) (t : Nat) : State :=
  let id := s.svc.keys[i].keyId
  let s := modCk (keepCookies s t) i fun _ => CookieKey.empty
  let s := modSvc s fun v => { v with rotate := match v.rotate with | some (j, t) => if j = i then none else some (j, t) | none => none }
  let s := emit s .svc 0x0002 .notice (i.val + flag byStore 8 + id.toNat * 2 ^ 32) (some 1)
  if s.svc.cur = some i then noKey s i else s

end Sys2Proof.Machine
end

