-- ==== Sys2Proof/Machine/PtpOps.lean ====
section
/-! DEFINITION. The PTP service's shared operations (07_ptp_service.md): instances, messages as master and slave, the
grant table, and the checks of the pipeline. -/
namespace Sys2Proof.Machine

/-! ## Instances (R250 to R254) -/

def instFlag (s : State) (i : Fin 16) (b : Nat) : Bool := (ptpCfg s i 0).testBit b

def profile (s : State) (i : Fin 16) : Nat := fld (ptpCfg s i 0) 2 1

def isSlave (s : State) (i : Fin 16) : Bool := instFlag s i 4

def instDomain (s : State) (i : Fin 16) : BitVec 8 := BitVec.ofNat 8 (fld (ptpCfg s i 0) 23 16)

def instPorts (s : State) (i : Fin 16) : List (Fin 8) := (List.finRange 8).filter fun p => (ptpCfg s i 0).testBit (24 + p.val)

def instSdo (s : State) (i : Fin 16) : BitVec 4 := BitVec.ofNat 4 (fld (ptpCfg s i 1) 27 24)

def instClock (s : State) (i : Fin 16) : BitVec 64 := BitVec.ofNat 64 (ptpCfg s i 2 * 2 ^ 32 + ptpCfg s i 3)

/-- Log intervals of word 4: Sync, Announce, delay. -/
def logSync (s : State) (i : Fin 16) : Int := sInt 8 (fld (ptpCfg s i 4) 7 0)
def logAnn (s : State) (i : Fin 16) : Int := sInt 8 (fld (ptpCfg s i 4) 15 8)
def logDelay (s : State) (i : Fin 16) : Int := sInt 8 (fld (ptpCfg s i 4) 23 16)

/-- Ticks of 2^n seconds. -/
def logTicks (n : Int) : Nat := if 0 ≤ n then ticksS (2 ^ n.toNat) else ticksS 1 / 2 ^ (-n).toNat

/-- Domain range and log-interval limits of a profile (R251): domain, Sync, Announce, delay. -/
def profileLimits (p : Nat) : (Nat × Nat) × (Int × Int) × (Int × Int) × (Int × Int) :=
  match p with
  | 0 => ((0, 127), (-7, 1), (-3, 4), (-7, 5))
  | 1 => ((24, 43), (-4, -4), (-3, -3), (-4, -4))
  | 2 => ((44, 63), (-7, 0), (-3, 0), (-7, 0))
  | _ => ((0, 0), (0, 0), (0, 0), (0, 0))

def inRange (r : Int × Int) (v : Int) : Bool := decide (r.1 ≤ v) && decide (v ≤ r.2)

/-- The slots that bind a slave instance (R252). -/
def bindSlots (s : State) (i : Fin 16) : List (Fin 16) :=
  (List.finRange 16).filter fun k => 2 ≤ k.val && k.val < 6 && slotBinding s k = i.val

/-- Why an instance may not start: cause 1, 2 or 3 of CFG_ADJUST (R251, R252, R259). Log entry 73. -/
def instFault (s : State) (i : Fin 16) : Option Nat :=
  let (d, sy, an, de) := profileLimits (profile s i)
  let dom := (instDomain s i).toNat
  if dom < d.1 || d.2 < dom || !inRange sy (logSync s i) || !inRange an (logAnn s i) || !inRange de (logDelay s i) then some 1
  else if (isSlave s i && ((instPorts s i).length ≠ 1 || (bindSlots s i).isEmpty)) ||
      (List.finRange 16).any (fun j => j != i && (inst s j).running && isSlave s j != isSlave s i && instDomain s j = instDomain s i
        && (instPorts s j).any fun p => (instPorts s i).contains p) then some 2
  else if instClock s i = 0 then some 3
  else none

/-- The conditions of R250. -/
def instWanted (s : State) (i : Fin 16) : Bool :=
  instFlag s i 0 && rb s Rg.ptpCtrl 0 && inBoil s && !s.mem.dead[1]

/-- portIdentity of an instance on a port: its clockIdentity and port number (R259). Log entry 72. -/
def portIdent (s : State) (i : Fin 16) (p : Nat) : BitVec 80 := BitVec.ofNat 80 ((instClock s i).toNat * 2 ^ 16 + p + 1)

/-! ## Announce content (R258 to R260) -/

/-- Holdover in specification (R258). -/
def holdSpec (s : State) (i : Fin 16) : Bool := decide (s.tco.teb.toNat ≤ ptpCfg s i 7)

/-- clockAccuracy from 0x17 (1 ps) to 0x31: the limits in ps (R259). -/
def accuracyLimits : List Nat :=
  [1, 2, 10, 25, 100, 250, 1000, 2500, 10000, 25000, 100000, 250000, 1000000, 2500000, 10000000, 25000000, 100000000, 250000000,
   1000000000, 2500000000, 10000000000, 25000000000, 100000000000, 250000000000, 1000000000000, 10000000000000]

/-- The smallest clockAccuracy no smaller than a TEB in 62.5 ps. -/
def accuracyOf (teb : Nat) : Nat :=
  match accuracyLimits.findIdx? (fun l => decide (teb * 125 ≤ 2 * l + (if l = 2 then 1 else 0))) with
  | some k => 0x17 + k
  | none => 0x31

/-- The clock state that a master's messages show: in PTP's safe state it acts as in STORM (R260). -/
def masterState (s : State) : ClockState := if safe s .ptp then .storm else s.tco.st

def clockClass (s : State) (i : Fin 16) : Nat :=
  match masterState s with
  | .clear | .haze => 6
  | .overcast =>
    if holdSpec s i then 7 else if profile s i = 1 || profile s i = 2 then fld (ptpCfg s i 5) 15 8 else 52
  | _ => 248

/-- The data of a master's Announce (R258, R259). -/
def masterClock (s : State) (i : Fin 16) : ClockData :=
  let good := match masterState s with | .clear | .haze => true | .overcast => holdSpec s i | _ => false
  { prio1 := BitVec.ofNat 8 (fld (ptpCfg s i 1) 7 0), cls := BitVec.ofNat 8 (clockClass s i),
    acc := BitVec.ofNat 8 (if instFlag s i 12 then fld (ptpCfg s i 5) 7 0
      else if s.tco.teb = unboundedTeb || s.tco.st = .night then 0xFE else accuracyOf s.tco.teb.toNat),
    var := if good then BitVec.ofNat 16 (fld (ptpCfg s i 6) 15 0) else 0xFFFF,
    prio2 := BitVec.ofNat 8 (fld (ptpCfg s i 1) 15 8), gmIdent := instClock s i, steps := 0 }

def timeSource (s : State) (i : Fin 16) : BitVec 8 :=
  match masterState s with
  | .clear | .haze => match s.refs.timeSlot with
    | some k => if k.val < 2 then 0x20 else if k.val < 6 then 0x40 else if k.val < 10 then 0x39 else 0x90
    | none => BitVec.ofNat 8 (fld (ptpCfg s i 5) 23 16)
  | _ => BitVec.ofNat 8 (fld (ptpCfg s i 5) 23 16)

/-- timeTraceable and frequencyTraceable (R258). -/
def traceable (s : State) (i : Fin 16) : Bool × Bool :=
  match masterState s with
  | .clear | .haze => (true, true)
  | .overcast => if holdSpec s i then (true, true) else (false, s.refs.freqSlot.isSome)
  | _ => (false, false)

/-- The instance's messages are stopped in the present state (R260); in PTP's safe state it acts as with 0 in STORM. -/
def silenced (s : State) (i : Fin 16) : Bool :=
  if safe s .ptp then false
  else match s.tco.st with
    | .night => (ptpCfg s i 5).testBit 24
    | .storm => (ptpCfg s i 5).testBit 25
    | _ => false

/-! ## Building messages -/

def ClockData.zero : ClockData := { prio1 := 0, cls := 0, acc := 0, var := 0, prio2 := 0, gmIdent := 0, steps := 0 }

/-- Body bytes of a message type, header included (IEEE 1588-2019). -/
def ptpBytes : PtpType → Nat
  | .sync | .followUp | .delayReq => 44 | .pdelayReq | .pdelayResp | .pdelayFollow | .delayResp => 54 | .announce => 64
  | .signaling => 44 | .management => 48 | .other _ => 34

def tlvBytes : PtpTlv → Nat
  | .teb .. => 18 | .request .. => 10 | .grant .. => 12 | .cancel _ => 6 | .ackCancel _ => 6 | .auth .. => 26 | .other _ n => 4 + n

def msgBytes (m : PtpMsg) : Nat := ptpBytes m.type + (m.tlvs.map tlvBytes).foldl (· + ·) 0

/-- A message of an instance on a port, without TLVs. -/
def ptpMsg (s : State) (i : Fin 16) (p : Nat) (ty : PtpType) (seq : BitVec 16) (logInt : Int) : PtpMsg :=
  { lenOk := true, tlvOk := true, version := 2, minor := 1, type := ty, domain := instDomain s i, sdo := instSdo s i,
    twoStep := false, unicast := profile s i = 2, leap61 := false, leap59 := false, utcValid := false, timeTr := false,
    freqTr := false, ptpScale := false, corr := 0, src := portIdent s i p, seq := seq, logInt := logInt, tsSec := 0, tsNs := 0, peer := 0, utc := 0,
    clock := ClockData.zero, timeSource := 0, tlvs := [] }

/-- The TEB TLV with its TEB yet to come, when the instance sends one (R261 to R263): `atBuild` for messages without a
    stamp. Log entry 62. -/
def tebTlv (s : State) (i : Fin 16) (atBuild : Bool) : List PtpTlv :=
  if instFlag s i 10 && !isSlave s i && (getW s Rg.ptpTebOui) != 0 then
    [.teb (match rf s Rg.ptpCtrl 3 2 with | 0 => 0x0003 | 1 => 0x4000 | _ => 0x8000) (BitVec.ofNat 24 (rf s Rg.ptpTebOui 23 0))
      (BitVec.ofNat 24 (rf s Rg.ptpTebSubtype 23 0)) 0 0 (if atBuild then 2 else 1)]
  else []

def SecKey.empty : SecKey :=
  { keyId := 0, slot := 0, spp := 0, cmac := false, st := .empty, verified := 0, icvFail := 0, retireAt := none }

/-- A rotation takes effect on the entries (R273): the SPP's CURRENT entry becomes ACCEPT. -/
def rotateSec (ks : Vector SecKey 64) (e : Fin 64) : Vector SecKey 64 :=
  let spp := ks[e].spp
  vmod (ks.map fun k => if k.st = .current && k.spp = spp then { k with st := .accept } else k) e.val fun k => { k with st := .current }

/-- The security entries as a decision at `ns` sees them (R272, R273, R281): before an instant T reached lately that lies
    after it, and after every one that it has reached, be its own command still to come. -/
def secTable (s : State) (ns : Nat) : Vector SecKey 64 :=
  match s.ptp.past.find? fun x => ns < x.1 && pastLive s x.2.1 with
  | some x => x.2.2
  | none =>
    let due := fun (k : SecKey) => match k.retireAt with | some x => decide (x ≤ ns) | none => false
    let rot := s.ptp.rotate.filter fun r =>
      r.2 ≤ ns && (match s.ptp.keys[r.1].retireAt with | some x => decide (r.2 ≤ x) | none => true)
    (rot.foldl (fun ks r => rotateSec ks r.1) s.ptp.keys).map fun k => if due k then SecKey.empty else k

/-- The CURRENT entry of an instance's SPP with a usable slot at the decision instant `ns` (R272): `some none` where the
    instance does not sign. -/
def signKey (s : State) (i : Fin 16) (ns : Nat) : Option (Option SecKey) :=
  if !instFlag s i 7 then some none
  else
    let spp := fld (ptpCfg s i 13) 7 0
    match (secTable s ns).toList.find? fun k =>
        k.st = .current && k.spp.toNat = spp && k.cmac = (ptpCfg s i 13).testBit 8 && macUsableAt s k.slot.toNat k.cmac ns with
    | some k => some (some k)
    | none => none

/-- The counter at the tick for which a message was scheduled. -/
def schedCounter (s : State) (tick : Nat) : Nat := (counterAt s tick).toNat

/-- AUTH_TX without a usable CURRENT entry: nothing that needs signing is sent, SEC_NO_KEY once (R272). -/
def secNoKey (s : State) (i : Fin 16) : State :=
  if (inst s i).noKey then s else emit (modInst s i fun k => { k with noKey := true }) .ptp 0x0007 .degraded i.val (some 5)

def authTlv (key : Option SecKey) : List PtpTlv :=
  match key with
  | some k => [.auth k.spp k.keyId true 0]
  | none => []

/-- VLAN tag of an instance (word 6). -/
def instTags (s : State) (i : Fin 16) : List (BitVec 16 × BitVec 16) :=
  let w := ptpCfg s i 6
  if w.testBit 28 then [(0x8100, BitVec.ofNat 16 (fld w 31 29 * 2 ^ 13 + fld w 27 16))] else []

/-- Event messages use UDP port 319 (R251). -/
def isEventMsg : PtpType → Bool
  | .sync | .delayReq | .pdelayReq | .pdelayResp => true | _ => false

def isPdelay : PtpType → Bool
  | .pdelayReq | .pdelayResp | .pdelayFollow => true | _ => false

/-- The source address and DSCP of a UDP instance: its service-address entry (R251). -/
def instIp (s : State) (i : Fin 16) (v6 : Bool) (dst : BitVec 128) : IpHdr :=
  let e := fld (ptpCfg s i 14) 5 0
  { v6 := v6, src := entryAddr s e, dst := dst, ttl := BitVec.ofNat 8 (rf s Rg.svcStratum 23 16),
    dscp := BitVec.ofNat 6 (svcAddr s e 5), ecn := 0, fragment := false, extHdr := false, csumOk := true, csumZero := false }

/-- Where a message goes: the instance's multicast address, or a peer's MAC, tags, address and UDP port. -/
inductive PtpDest where
  | multicast
  | peer (mac : BitVec 48) (tags : List (BitVec 16 × BitVec 16)) (v6 : Bool) (addr : BitVec 128) (udp : BitVec 16)
  | reply (mac : BitVec 48) (tags : List (BitVec 16 × BitVec 16)) (body : EthBody)

/-- The frame of a message (R251). -/
def ptpFrame (s : State) (i : Fin 16) (p : Nat) (d : PtpDest) (m : PtpMsg) : EthFrame :=
  let mac := portMac s (Fin.ofNat 9 p)
  let port : BitVec 16 := if isEventMsg m.type then 319 else 320
  let n := msgBytes m
  let udp := fun (dst : BitVec 48) (tags : List (BitVec 16 × BitVec 16)) (ip : IpHdr) (dport : BitVec 16) =>
    mkFrame dst mac tags ((if ip.v6 then 48 else 28) + n) (.ptpUdp ip port dport m)
  match d with
  | .multicast =>
    if profile s i = 1 || profile s i = 3 then
      let dst : BitVec 48 := if (profile s i = 3 && isPdelay m.type) || (profile s i = 1 && instFlag s i 13) then 0x0180C200000E
        else 0x011B19000000
      mkFrame dst mac (instTags s i) n (.ptpEth m)
    else if instFlag s i 6 then
      udp 0x333300000181 (instTags s i) (instIp s i true 0xFF0E0000000000000000000000000181) port
    else udp 0x01005E000181 (instTags s i) (instIp s i false 0xE0000181) port
  | .peer mac tags v6 addr port' => udp mac tags (instIp s i v6 addr) port'
  | .reply dmac tags b => match b with
    | .ptpUdp ip sp _ _ =>
      udp dmac tags (instIp s i ip.v6 ip.src) (if isEventMsg m.type = (sp = 319) then sp else port)
    | _ => mkFrame dmac mac tags n (.ptpEth m)

/-- A port can queue a frame of a length. -/
def ptpRoom (s : State) (p : Nat) (len : Nat) : Bool :=
  !s.mem.dead[1] && (ethPort s (Fin.ofNat 9 p)).up && !fullT s (Fin.ofNat 9 p) len

/-- Queues a message on a port, a follow-up ahead of what waits there (R256), or counts OVERLOAD where it cannot be
    queued (R300); `grant` is the stream that it belongs to. Log entry 73. -/
def ptpPut (s : State) (i : Fin 16) (p : Nat) (d : PtpDest) (m : PtpMsg) (fill : Fill) (grant : Option (Nat × GrantKind))
    (front : Bool) : State :=
  let f := ptpFrame s i p d m
  let port : Fin 9 := Fin.ofNat 9 p
  let x : TxFrame := { frame := f, bytes := f.len, fill := fill, host := none, grant := grant }
  if s.mem.dead[1] then s
  else if !ptpRoom s p f.len then ptpCount s 0x0F 1
  else if front then txFront s port x
  else txPut s port true x

/-- Sends a Sync (R255, R256) scheduled for a tick: one-step, or two-step with a follow-up owed. -/
def sendSync (s : State) (i : Fin 16) (p : Nat) (d : PtpDest) (seq : BitVec 16) (logInt : Int) (entry : Option Nat) (tick : Nat) : State :=
  let c := schedCounter s tick
  match signKey s i (totNs c) with
  | none => secNoKey s i
  | some key =>
    let two := instFlag s i 5
    let m := { ptpMsg s i p .sync seq logInt with
      twoStep := two, tsSec := if two then secOf c else 0, tsNs := if two then nsOf c else 0,
      tlvs := (if two then [] else tebTlv s i false) ++ authTlv key }
    ptpPut s i p d m (if two then .owed i key false entry 0 0 else .sync i key) (entry.map fun e => (e, .sync)) false

/-- Sends an Announce (R258, R259, R262) scheduled for a tick. -/
def sendAnnounce (s : State) (i : Fin 16) (p : Nat) (d : PtpDest) (seq : BitVec 16) (logInt : Int) (entry : Option Nat) (tick : Nat) :
    State :=
  match signKey s i (totNs (schedCounter s tick)) with
  | none => secNoKey s i
  | some key =>
    let (tt, ft) := traceable s i
    let leap := ntpLeap s (getW s Rg.ptpLeapWarn).toNat
    let m := { ptpMsg s i p .announce seq logInt with
      leap61 := leap = 1, leap59 := leap = 2, utcValid := s.tco.utcValid, timeTr := tt, freqTr := ft, ptpScale := true, utc := s.tco.utcOff,
      clock := masterClock s i, timeSource := timeSource s i, tlvs := tebTlv s i true ++ authTlv key }
    let m := setTeb s m (BitVec.ofNat 32 (sat32 (s.tco.teb.toNat + ind s .tco 2 p))) (coasting s 0)
    ptpPut s i p d m (.general i key) (entry.map fun e => (e, .announce)) false

/-! ## The grant table (R264 to R268) -/

def GrantEntry.put (g : GrantEntry) (k : GrantKind) (v : Option Grant) : GrantEntry :=
  match k with
  | .announce => { g with announce := v } | .sync => { g with sync := v } | .delayResp => { g with delayResp := v }

def GrantEntry.live (g : GrantEntry) : Bool := g.announce.isSome || g.sync.isSome || g.delayResp.isSome

/-- Writes an entry; one without a running grant is freed (R266), and no follow-up is owed to a stopped Sync stream. -/
def putGrant (s : State) (e : Nat) (g : GrantEntry) : State :=
  modPtp s fun p =>
    { p with follow := if g.sync.isSome then p.follow else p.follow.filter (fun f => f.entry != some e),
              grants := (p.grants.filter fun x => x.1 < e) ++ (if g.live then [(e, g)] else []) ++ p.grants.filter fun x => e < x.1 }

/-- A grant as a mirror record (R280). -/
def mirrorGrant (s : State) (e : Nat) (snapshot : Bool) : State :=
  match grantAt s e with
  | some g =>
    let st := fun (k : GrantKind) => (g.get k).map fun x =>
      ({ logInt := x.logInt, remain := x.until_ - s.now, seqId := x.seqId } : StreamRec)
    mirrorPut s snapshot false (.grant e g.inst g.ipv6 g.addr g.udpPort g.ident g.port [st .announce, st .sync, st .delayResp])
  | none => mirrorPut s snapshot false (.grantGone e)

/-- The sequenceIds of a multicast instance reach the partner with each message (R280, R373). Log entry 23. -/
def mirrorSeqs (s : State) (i : Fin 16) (snapshot : Bool) : State :=
  mirrorPut s snapshot false (.seqs i (inst s i).seqSync (inst s i).seqAnn)

/-- Seconds left of a grant, rounded up. -/
def grantLeft (s : State) (g : Grant) : Nat := ceilDiv (g.until_ - s.now) (ticksS 1)

/-- The entry of a client (R264). -/
def findGrant (s : State) (i : Fin 16) (v6 : Bool) (addr : BitVec 128) (udp : BitVec 16) (ident : Option (BitVec 80)) : Option Nat :=
  (s.ptp.grants.find? fun x =>
    x.2.inst = i && x.2.ipv6 = v6 && x.2.addr = addr && x.2.udpPort = udp && (match ident with | some d => x.2.ident = d | none => true)).map Prod.fst

/-- The lowest free entry, found in a list with rising keys. -/
def freeEntry : Nat → List (Nat × GrantEntry) → Nat
  | n, [] => n
  | n, (k, _) :: r => if k = n then freeEntry (n + 1) r else n

/-- The phase of a stream within its interval: a hash of its entry (R268). -/
def streamPhase (e : Nat) (interval : Nat) : Nat := (Config.hash64 0 e).toNat % (max 1 interval)

/-- The next tick at a stream's phase (R268). -/
def streamNext (s : State) (e : Nat) (interval : Nat) : Nat :=
  let n := max 1 interval
  s.now + 1 + (streamPhase e n + n - (s.now + 1) % n) % n

/-- GRANT_FULL, at most once per second (R265). -/
def grantFull (s : State) (i : Fin 16) : State :=
  if (match s.ptp.fullAt with | some t => decide (s.now < t + ticksS 1) | none => false) then s
  else emit (modPtp s fun p => { p with fullAt := some s.now }) .ptp 0x0003 .degraded i.val (some 2)

/-- One REQUEST TLV decided (R265, R266): the answer's duration. -/
def grantRequest (s : State) (i : Fin 16) (ip : IpHdr) (udp : BitVec 16) (port : Fin 8) (src : BitVec 80) (kind : Option GrantKind)
    (logInt : Int) (dur : Nat) : State × Nat :=
  let deny := fun (s : State) => (ptpCount s 0x23 1, 0)
  match kind with
  | none => deny s
  | some k =>
    let least := match k with | .announce => logAnn s i | .sync => logSync s i | .delayResp => logDelay s i
    let (_, sy, an, de) := profileLimits 2
    let lim := match k with | .announce => an | .sync => sy | .delayResp => de
    if logInt < least || !inRange lim logInt then deny s
    else if dur = 0 then deny s
    else
      let found := findGrant s i ip.v6 ip.src udp (some src)
      let mine := (s.ptp.grants.filter fun x => x.2.inst = i).length
      if found.isNone && (65536 ≤ s.ptp.grants.length || ptpCfg s i 8 ≤ mine) then deny (grantFull s i)
      else
        let e := found.getD (freeEntry 0 s.ptp.grants)
        let g : GrantEntry := (grantAt s e).getD
          { inst := i, ipv6 := ip.v6, addr := ip.src, udpPort := udp, ident := src, port := port, announce := none, sync := none,
            delayResp := none }
        let d := min dur (getW s Rg.ptpGrantMax).toNat
        let n := logTicks logInt
        let seq := match g.get k with | some x => x.seqId | none => 0
        let next := match g.get k with | some x => if x.logInt = logInt then x.next else streamNext s e n | none => streamNext s e n
        let x : Grant := { logInt := logInt, until_ := s.now + ticksS d, seqId := seq, next := next }
        (mirrorGrant (ptpCount (putGrant s e (g.put k (some x))) 0x22 1) e false, d)

/-- A Signaling message with unicast transmission TLVs. -/
def signalMsg (s : State) (i : Fin 16) (p : Nat) (target : BitVec 80) (tlvs : List PtpTlv) (key : Option SecKey) : PtpMsg :=
  { ptpMsg s i p .signaling 0 0x7F with peer := target, tlvs := tlvs ++ authTlv key }

/-- Sends a Signaling message decided at `ns`. -/
def sendSignal (s : State) (i : Fin 16) (p : Nat) (d : PtpDest) (target : BitVec 80) (tlvs : List PtpTlv) (ns : Nat) : State :=
  match signKey s i ns with
  | none => secNoKey s i
  | some key => ptpPut s i p d (signalMsg s i p target tlvs key) (.general i key) none false

/-- Whether that message can be sent. -/
def canSignal (s : State) (i : Fin 16) (p : Nat) (d : PtpDest) (target : BitVec 80) (tlvs : List PtpTlv) (ns : Nat) : Bool :=
  match signKey s i ns with
  | none => false
  | some key => ptpRoom s p (ptpFrame s i p d (signalMsg s i p target tlvs key)).len

/-- The MAC address that reaches a peer stands in no table of the spec: frames to a peer that did not just send one
    carry a free address (entry 24). -/
def peerMac (s : State) : BitVec 48 × State := let (x, s) := freeN s; (BitVec.ofNat 48 x, s)

def entryDest (s : State) (g : GrantEntry) : PtpDest × State :=
  let (mac, s) := peerMac s
  (.peer mac (instTags s g.inst) g.ipv6 g.addr g.udpPort, s)

/-- Cancels streams of an entry with a CANCEL TLV each, which only a serving unit sends (R253, R267). -/
def cancelEntry (s : State) (e : Nat) (tell : Bool) : State :=
  match grantAt s e with
  | none => s
  | some g =>
    let kinds := [GrantKind.announce, .sync, .delayResp].filter fun k => (g.get k).isSome
    let s := if tell && serving s then kinds.foldl (fun s k =>
        let (d, s) := entryDest s g
        sendSignal s g.inst g.port.val d g.ident [.cancel (some k)] (nowNs s)) s else s
    mirrorGrant (putGrant s e { g with announce := none, sync := none, delayResp := none }) e false

/-! ## The reference slave (R274 to R276) -/

/-- The dataset comparison's key (R274; entry 20): smaller is better. The G.8275 profiles leave priority1 out, and
    localPriority is the same for every candidate of an instance. -/
def clockKey (s : State) (i : Fin 16) (c : Candidate) : Nat :=
  let d := c.data
  let g8275 := profile s i = 1 || profile s i = 2
  let head := (((if g8275 then 0 else d.prio1.toNat) * 256 + d.cls.toNat) * 256 + d.acc.toNat) * 65536 + d.var.toNat
  (((head * 256 + d.prio2.toNat) * 2 ^ 64 + d.gmIdent.toNat) * 65536 + d.steps.toNat) * 2 ^ 80 + c.ident.toNat

def candOk (s : State) (i : Fin 16) (c : Candidate) : Bool :=
  match c.prev with | some t => decide (c.last ≤ t + 4 * logTicks (logAnn s i)) | none => false

def bestCand (s : State) (i : Fin 16) : Option Candidate :=
  ((inst s i).cands.filter (candOk s i)).foldl (fun b c => match b with
    | some x => if clockKey s i c < clockKey s i x then some c else some x
    | none => some c) none

/-- Requests and renewals of a G.8275.2 slave go to a listed address (R275). -/
def listAddr (s : State) (i : Fin 16) (k : Fin 4) : BitVec 128 :=
  let w := fun n => ind s .ptp 3 (16 * i.val + 4 * k.val + n)
  if instFlag s i 6 then BitVec.ofNat 128 (w 0 * 2 ^ 96 + w 1 * 2 ^ 64 + w 2 * 2 ^ 32 + w 3) else BitVec.ofNat 128 (w 0)

def slavePort (s : State) (i : Fin 16) : Nat := match (instPorts s i).head? with | some p => p.val | none => 0

/-- Asks for a grant (R275): its interval of word 4 and a duration of PTP_GRANT_MAX. -/
def askGrant (s : State) (i : Fin 16) (k : Fin 4) (kind : GrantKind) : State :=
  let l := match kind with | .announce => logAnn s i | .sync => logSync s i | .delayResp => logDelay s i
  let (mac, s) := peerMac s
  let d : PtpDest := .peer mac (instTags s i) (instFlag s i 6) (listAddr s i k) 320
  let s := sendSignal s i (slavePort s i) d (2 ^ 80 - 1) [.request (some kind) l (getW s Rg.ptpGrantMax).toNat] (nowNs s)
  let retry := s.now + logTicks (logAnn s i)
  modInst s i fun q =>
    if q.grants.any (fun g => g.listIdx = k && g.kind = kind) then
      { q with grants := q.grants.map fun g => if g.listIdx = k && g.kind = kind then { g with asked := true, retryAt := if g.held then none else some retry } else g }
    else { q with grants := q.grants ++ [{ listIdx := k, kind := kind, held := false, until_ := 0, dur := 0, retryAt := some retry, asked := true }] }

/-- An address of a running slave's master list is written (R275): what it held of the old one is forgotten, and an
    Announce grant is asked of the new one. -/
def masterListed (s : State) (i : Fin 16) (k : Fin 4) : State :=
  if (inst s i).running && isSlave s i && profile s i = 2 then
    let s := modInst s i fun q =>
      { q with grants := q.grants.filter (fun g => g.listIdx != k), cands := q.cands.filter fun c => c.listIdx != some k }
    if listAddr s i k = 0 then s else askGrant s i k .announce
  else s

/-- The rank that a slave's slots take from its master (R90). -/
def slaveAdvert (s : State) (i : Fin 16) : State :=
  match (inst s i).master with
  | none => s
  | some m => match (inst s i).cands.find? fun c => c.ident = m with
    | some c => (bindSlots s i).foldl (fun s k => advertise s k (ptpRank c.data.cls.toNat c.data.acc.toNat c.data.var.toNat)) s
    | none => s

/-- The chosen master follows the best candidate (R274); another one than the last is reported to REFS (R113), while a
    loss is a lapse of activity (R114). Log entry 20. -/
def selectMaster (s : State) (i : Fin 16) : State :=
  let best := bestCand s i
  let id := best.map Candidate.ident
  if (inst s i).master = id then slaveAdvert s i
  else
    let other := id.isSome && (inst s i).lastMaster.isSome && (inst s i).lastMaster != id
    let s := modInst s i fun k => { k with master := id, lastMaster := if id.isSome then id else k.lastMaster, delayWait := none, respWait := none, syncWait := none, exch := none }
    let idx := match best with | some c => (match c.listIdx with | some k => k.val | none => 0xF) | none => 0xF
    let low := match id with | some x => x.toNat / 2 ^ 16 % 2 ^ 32 | none => 0
    let s := emit s .ptp 0x0001 .notice (i.val + idx * 16 + low * 2 ^ 32) (some 0)
    let s := if other then (bindSlots s i).foldl masterChange s else s
    let s := slaveAdvert s i
    if profile s i = 2 then
      match best with
      | some c => match c.listIdx with
        | some k => askGrant (askGrant s i k .sync) i k .delayResp
        | none => s
      | none => s
    else s

/-- An Announce heard by a slave (R274). Log entry 72. -/
def hearAnnounce (s : State) (i : Fin 16) (addr : BitVec 128) (m : PtpMsg) : State :=
  let idx := (List.finRange 4).find? fun k => profile s i = 2 && listAddr s i k = addr && addr != 0
  if profile s i = 2 && idx.isNone then s else
  let old := (inst s i).cands.find? fun c => c.ident = m.src
  let prev := old.map fun c => if candOk s i c then s.now else c.last
  let c : Candidate := { ident := m.src, addr := addr, listIdx := idx, data := m.clock, last := s.now, prev := prev }
  let s := modInst s i fun k => { k with cands := k.cands.filter (fun x => x.ident != m.src) ++ [c] }
  selectMaster s i

/-- The master's TEB (R276): from its TEB TLV, or MASTER_UNC; none when it reports an unbounded TEB. -/
def masterTeb (s : State) (i : Fin 16) (m : PtpMsg) : Option Nat :=
  let hit := if instFlag s i 11 then m.tlvs.findSome? fun t => match t with
      | .teb _ o u v _ _ => if o.toNat = rf s Rg.ptpTebOui 23 0 && u.toNat = rf s Rg.ptpTebSubtype 23 0 then some v else none
      | _ => none
    else none
  match hit with
  | some v => if v = unboundedTeb then none else some v.toNat
  | none => some (ptpCfg s i 11)

/-- 2^-16 ns of a timestamp field. -/
def tsSub (m : PtpMsg) : Int := ((m.tsSec * 1000000000 + m.tsNs) * 65536 : Nat)

/-- A Sync with its precise origin time t1 and local stamp t2: a measurement (R276). -/
def slaveMeasure (s : State) (i : Fin 16) (t1 t2 : Int) (tick : Nat) (teb : Option Nat) : State :=
  match (inst s i).exch with
  | none => s
  | some (v, at_) =>
    if s.now > at_ + 16 * logTicks (logDelay s i) then s
    else
      let asym : Int := sInt 32 (ptpCfg s i 9)
      let p2p := profile s i = 3
      let o := (if p2p then (t1 - t2) + v else ((t1 - t2) + v) / 2) + asym
      let mpd := if p2p then v else ((t2 - t1) + v) / 2
      let tm := teb.getD 0xFFFFFFFF
      let bound := 4096 * (tm + ptpCfg s i 10 + 2 * ind s .tco 2 (slavePort s i))
      let s := modInst s i fun k => { k with lastO := o, meanDelay := mpd, tM := tm, measured := true }
      let s := ptpCount s 0x25 1
      (bindSlots s i).foldl (fun s k => measure s k o tick bound teb.isSome) s

/-! ## Starting and stopping -/

/-- Starts and stops instances as their conditions change (R250 to R252, R259, R267). -/
def instEval (s : State) (i : Fin 16) : State :=
  let on := instWanted s i
  let was := (inst s i).running
  if on && !was then
    match instFault s i with
    | some c => emit s .ptp 0x000A .notice (i.val + c * 16) (some 7)
    | none =>
      let s := modInst s i fun k =>
        { Inst.reset with running := true, seqAnn := k.seqAnn, seqSync := k.seqSync, seqDelay := k.seqDelay,
                          nextSync := s.now, nextAnn := s.now, nextDelay := s.now }
      if isSlave s i && profile s i = 2 then
        (List.finRange 4).foldl (fun s k => if listAddr s i k = 0 then s else askGrant s i k .announce) s
      else s
  else if !on && was then
    let mine := (s.ptp.grants.filter fun x => x.2.inst = i).map Prod.fst
    let s := mine.foldl (fun s e => cancelEntry s e true) s
    let s := modInst s i fun k => { Inst.reset with seqAnn := k.seqAnn, seqSync := k.seqSync, seqDelay := k.seqDelay }
    (List.finRange 9).foldl pump (modPtp s fun p => { p with follow := p.follow.filter fun f => f.inst != i })
  else s

def instEvalAll (s : State) : State := (List.finRange 16).foldl instEval s

/-! ## The pipeline (R277, R278) -/

/-- A sample of malformed frames (R278): the history queue only. -/
def ptpSample (s : State) (code p : Nat) (ty : Nat) (src : Nat) : State :=
  if 1 ≤ code && code ≤ 7 then
    let n := s.ptp.toSample + 1
    if n < 1024 then modPtp s fun v => { v with toSample := n }
    else
      let s := modPtp s fun v => { v with toSample := 0 }
      histPut s (mkRec s .ptp 0x000B .notice false false (code + p * 256 + ty * 4096 + src % 2 ^ 32 * 2 ^ 32))
  else s

/-- What a frame's checks need of its carrier. -/
structure PtpIn where
  port : Fin 8
  phase : Fin 16
  frame : EthFrame
  ip : Option IpHdr
  udp : BitVec 16
  msg : PtpMsg

def PtpIn.addr (x : PtpIn) : BitVec 128 := match x.ip with | some ip => ip.src | none => x.frame.src.setWidth 128

def ptpDrop (s : State) (x : PtpIn) (code : Nat) : State :=
  ptpSample (ptpCount s code 1) code x.port.val (ptpTypeCode x.msg.type) x.addr.toNat

/-- The instance's transport is the frame's (R251). -/
def instCarries (s : State) (x : PtpIn) (i : Fin 16) : Bool :=
  match x.ip with
  | none => profile s i = 1 || profile s i = 3
  | some ip => (profile s i = 0 || profile s i = 2) && instFlag s i 6 = ip.v6

/-- The running instance of a port, domain and majorSdoId (R277 step 6); where several match, the first of the frame's
    transport. Log entry 73. -/
def instOf (s : State) (x : PtpIn) : Option (Fin 16) :=
  let hit := fun (i : Fin 16) =>
    (inst s i).running && (instPorts s i).contains x.port && instDomain s i = x.msg.domain && instSdo s i = x.msg.sdo
  match (List.finRange 16).find? fun i => hit i && instCarries s x i with
  | some i => some i
  | none => (List.finRange 16).find? hit

/-- Step 8 of R277 at the ingress stamp `ns`: the code it fails with, and the state with the entry's counters. -/
def checkAuth (s : State) (i : Fin 16) (m : PtpMsg) (ns : Nat) : State × Option Nat :=
  if !instFlag s i 8 then (s, none) else
  match m.tlvs.getLast? with
  | some (.auth spp id form icv) =>
    let t := secTable s ns
    match (List.finRange 64).find? fun e =>
        let k := t[e]
        k.st != .empty && k.spp = spp && k.keyId = id && macUsableAt s k.slot.toNat k.cmac ns with
    | none => (s, some 0x0B)
    | some e =>
      if !form then (s, some 0x0C)
      else
        let k := t[e]
        let m0 := { m with corr := if instFlag s i 9 then 0 else m.corr,
                           tlvs := m.tlvs.map fun t => match t with | .auth a b f _ => .auth a b f 0 | t => t }
        let good := Config.icv k.cmac (slotAt s k.slot.toNat ns).key m0 = icv
        let s := modPtp s fun p => { p with keys := vmod p.keys e.val fun k =>
          if k.st = .empty || k.spp != spp || k.keyId != id then k
          else if good then { k with verified := BitVec.ofNat 32 (sat32 (k.verified.toNat + 1)) }
          else { k with icvFail := BitVec.ofNat 32 (sat32 (k.icvFail.toNat + 1)) } }
        (s, if good then none else some 0x0D)
  | _ => (s, some 0x0A)

/-- An authentication drop counts toward the instance's alarm (R278). -/
def authDrop (s : State) (i : Fin 16) (x : PtpIn) (code : Nat) : State :=
  modInst (ptpDrop s x code) i fun k => { k with authDrops := k.authDrops + 1 }

/-- Step 12 of R277: requests per second within DELAY_REQ_CAP thousands. -/
def delayCap (s : State) (i : Fin 16) : State × Bool :=
  let sec := s.now / ticksS 1
  let s := if (inst s i).reqSec = sec then s else modInst s i fun k => { k with reqSec := sec, reqs := 0 }
  if (inst s i).reqs < 1000 * ptpCfg s i 12 then (modInst s i fun k => { k with reqs := k.reqs + 1 }, true) else (s, false)

def replyTo (x : PtpIn) : PtpDest := .reply x.frame.src x.frame.tags x.frame.body

/-- Answers a Delay_Req (R255, R262): unicast to a unicast client, multicast otherwise. -/
def answerDelay (s : State) (i : Fin 16) (x : PtpIn) (entry : Option Nat) : State :=
  let c := stampCounter s x.port.val 0 x.phase
  if silenced s i || !servingAt s (stampSub s x.port.val 0 x.phase) then s else
  match signKey s i (totNs c) with
  | none => secNoKey s i
  | some key =>
    let l := match entry.bind (grantAt s) with
      | some g => (match g.delayResp with | some d => d.logInt | none => 0) | none => logDelay s i
    let m := { ptpMsg s i x.port.val .delayResp x.msg.seq l with
      tsSec := secOf c, tsNs := nsOf c, corr := x.msg.corr - fracOf c, peer := x.msg.src, unicast := x.msg.unicast,
      tlvs := tebTlv s i false ++ authTlv key }
    let m := setTeb s m (BitVec.ofNat 32 (unitTeb s x.port.val)) (unitCoast s x.port.val)
    let d := if profile s i = 2 then replyTo x else .multicast
    ptpPut s i x.port.val d m (.general i key) (entry.map fun e => (e, .delayResp)) false

/-- Answers a Pdelay_Req (R255, R256, R262). -/
def answerPdelay (s : State) (i : Fin 16) (x : PtpIn) : State :=
  let c := stampCounter s x.port.val 0 x.phase
  if !isSlave s i && (silenced s i || !servingAt s (stampSub s x.port.val 0 x.phase)) then s else
  match signKey s i (totNs c) with
  | none => secNoKey s i
  | some key =>
    let two := instFlag s i 5
    let st := stampSub s x.port.val 0 x.phase
    let teb := BitVec.ofNat 32 (unitTeb s x.port.val)
    let m := { ptpMsg s i x.port.val .pdelayResp x.msg.seq 0x7F with
      twoStep := two, tsSec := if two then secOf c else 0, tsNs := if two then nsOf c else 0,
      corr := if two then -(fracOf c : Int) else x.msg.corr, peer := x.msg.src,
      tlvs := (if two then [] else tebTlv s i false) ++ authTlv key }
    let fill : Fill := if two then .owed i key true none x.msg.corr teb else .pdelay i key st teb
    ptpPut s i x.port.val .multicast m fill none false

/-- One TLV of a client's Signaling message, with the answers so far (R265, R267). -/
def signalTlv (i : Fin 16) (x : PtpIn) (ip : IpHdr) (q : State × List PtpTlv) (t : PtpTlv) : State × List PtpTlv :=
  match t with
  | .request k l d =>
    let (s, dur) := grantRequest q.1 i ip x.udp x.port x.msg.src k l d
    (s, q.2 ++ [.grant k l dur (dur != 0)])
  | .cancel k =>
    let s := match k, findGrant q.1 i ip.v6 ip.src x.udp (some x.msg.src) with
      | some kind, some e => match grantAt q.1 e with
        | some g => mirrorGrant (putGrant q.1 e (g.put kind none)) e false
        | none => q.1
      | _, _ => q.1
    (s, q.2 ++ [.ackCancel k])
  | _ => q

def isCancel : PtpTlv → Bool
  | .cancel _ => true | _ => false

/-- A Signaling message at a G.8275.2 master: requests and cancellations (R265, R267). A grant runs from the sending of
    its GRANT TLV (R266): where the answer cannot be sent, only the cancellations take effect. Log entry 72. -/
def masterSignal (s : State) (i : Fin 16) (x : PtpIn) (ip : IpHdr) : State :=
  if profile s i ≠ 2 || !coreUp s 3 || !servingAt s (stampSub s x.port.val 0 x.phase) then s else
  let sec := s.now / ticksS 1
  let s := if s.ptp.negSec = sec then s else modPtp s fun p => { p with negSec := sec, negCount := 0 }
  let s := perfAdd s 103 1
  if (getW s Rg.ptpNegRate).toNat ≤ s.ptp.negCount then ptpCount s 0x10 1
  else
    let s := modPtp s fun p => { p with negCount := p.negCount + 1 }
    let ns := totNs (stampCounter s x.port.val 0 x.phase)
    let (s1, answers) := x.msg.tlvs.foldl (signalTlv i x ip) (s, [])
    if answers.isEmpty then s1
    else if canSignal s1 i x.port.val (replyTo x) x.msg.src answers ns then
      sendSignal s1 i x.port.val (replyTo x) x.msg.src answers ns
    else sendSignal ((x.msg.tlvs.filter isCancel).foldl (signalTlv i x ip) (s, [])).1 i x.port.val (replyTo x) x.msg.src answers ns

/-- GRANT_LOST (R275): a denial, or a grant that ends without renewal. -/
def grantLost (s : State) (i : Fin 16) (k : GrantKind) : State :=
  emit s .ptp 0x0004 .degraded (i.val + (match k with | .announce => 0 | .sync => 16 | .delayResp => 32)) (some 3)

/-- A Signaling message at a G.8275.2 slave: grants and cancellations of its own requests (R275). Log entry 72. -/
def slaveSignal (s : State) (i : Fin 16) (x : PtpIn) (ip : IpHdr) : State :=
  match (List.finRange 4).find? fun k => profile s i = 2 && listAddr s i k = ip.src with
  | none => s
  | some idx =>
    let s := perfAdd s 103 1
    let lose := fun (s : State) (k : GrantKind) =>
      let had := (inst s i).grants.any fun g => g.listIdx = idx && g.kind = k && (g.held || g.asked)
      let s := modInst s i fun q => { q with grants := q.grants.map fun g =>
        if g.listIdx = idx && g.kind = k then { g with held := false, asked := false, retryAt := some (s.now + logTicks (logAnn s i)) } else g }
      if had then grantLost s i k else s
    x.msg.tlvs.foldl (fun s t => match t with
      | .grant (some k) _ d _ =>
        if d = 0 then lose s k
        else modInst s i fun q => { q with grants := q.grants.map fun g =>
          if g.listIdx = idx && g.kind = k then { g with held := true, asked := false, until_ := s.now + ticksS d, dur := ticksS d, retryAt := none } else g }
      | .cancel (some k) =>
        sendSignal (lose s k) i x.port.val (replyTo x) x.msg.src [.ackCancel (some k)] (totNs (stampCounter s x.port.val 0 x.phase))
      | _ => s) s

/-- A slave's Sync (R276). -/
def slaveSync (s : State) (i : Fin 16) (x : PtpIn) : State :=
  if (inst s i).master ≠ some x.msg.src then s else
  let t2 := stampSub s x.port.val 0 x.phase
  if x.msg.twoStep then
    modInst s i fun k => { k with syncWait := some { seqId := x.msg.seq, stamp := t2, tick := s.now, corr := x.msg.corr } }
  else slaveMeasure s i (tsSub x.msg + x.msg.corr) t2 s.now (masterTeb s i x.msg)

/-- A slave's Follow_Up, Delay_Resp, Pdelay_Resp or Pdelay_Resp_Follow_Up: matched, or STALE (R276, R277 step 13). -/
def slaveAnswer (s : State) (i : Fin 16) (x : PtpIn) : State :=
  let k := inst s i
  let m := x.msg
  let mine := m.peer = portIdent s i x.port.val
  let stale := ptpDrop s x 0x12
  if k.master ≠ some m.src then stale else
  match m.type with
  | .followUp => match k.syncWait with
    | some w =>
      if w.seqId = m.seq then
        slaveMeasure (modInst s i fun k => { k with syncWait := none }) i (tsSub m + m.corr + w.corr) w.stamp w.tick (masterTeb s i m)
      else stale
    | none => stale
  | .delayResp => match k.delayWait with
    | some w =>
      if w.seqId = m.seq && mine then
        modInst s i fun k => { k with delayWait := none, exch := some (tsSub m - m.corr - w.stamp, s.now) }
      else stale
    | none => stale
  | .pdelayResp => match k.delayWait with
    | some w =>
      if w.seqId = m.seq && mine then
        let t4 := stampSub s x.port.val 0 x.phase
        if m.twoStep then
          modInst s i fun k => { k with delayWait := none,
                                        respWait := some ({ w with corr := m.corr, tick := s.now, stamp := t4 - w.stamp }, tsSub m) }
        else modInst s i fun k => { k with delayWait := none, exch := some ((t4 - w.stamp - m.corr) / 2, s.now) }
      else stale
    | none => stale
  | .pdelayFollow => match k.respWait with
    | some (w, t2) =>
      if w.seqId = m.seq && mine then
        modInst s i fun k => { k with respWait := none, exch := some ((w.stamp - (tsSub m - t2) - w.corr - m.corr) / 2, s.now) }
      else stale
    | none => stale
  | _ => s

/-- FOREIGN_MASTER (R254) for an Announce from another clock: one event per instance per second with the number heard. -/
def foreignMaster (s : State) (i : Fin 16) (port : Nat) (src : BitVec 80) : State :=
  if src.toNat / 2 ^ 16 = (instClock s i).toNat then s else
  let s := modInst (ptpCount s 0x09 1) i fun k => { k with foreign := k.foreign + 1 }
  if (match (inst s i).foreignAt with | some t => decide (s.now < t + ticksS 1) | none => false) then s
  else
    let n := (inst s i).foreign
    emit (modInst s i fun k => { k with foreign := 0, foreignAt := some s.now }) .ptp 0x0002 .notice
      (i.val + port * 256 + sat32 n * 2 ^ 32) (some 1)

/-- Steps 10 to 14 of R277 for a message that its role accepts. `toHost` hands a management message to the host. -/
def ptpAct (s : State) (i : Fin 16) (x : PtpIn) (toHost : State → State) : State :=
  let m := x.msg
  match m.type with
  | .management => if rb s Rg.ptpCtrl 1 then toHost s else ptpDrop s x 0x08
  | .delayReq =>
    let e := if profile s i = 2 then
        match x.ip with | some ip => findGrant s i ip.v6 ip.src x.udp (some m.src) | none => none
      else none
    let granted := match e.bind (grantAt s) with | some g => g.delayResp.any (fun d => decide (s.now < d.until_)) | none => false
    if profile s i = 2 && !granted then ptpDrop s x 0x13
    else
      let (s, ok) := delayCap s i
      if ok then answerDelay s i x e else ptpDrop s x 0x0E
  | .pdelayReq =>
    let (s, ok) := delayCap s i
    if ok then answerPdelay s i x else ptpDrop s x 0x0E
  | .announce => if isSlave s i then hearAnnounce s i x.addr m else foreignMaster s i x.port.val m.src
  | .signaling => match x.ip with
    | some ip => if isSlave s i then slaveSignal s i x ip else masterSignal s i x ip
    | none => s
  | .sync => slaveSync s i x
  | .other _ => s
  | _ => slaveAnswer s i x

/-- What a role accepts (R277 step 9). -/
def roleTakes (slave : Bool) : PtpType → Bool
  | .delayReq => !slave
  | .pdelayReq | .signaling | .management | .announce => true
  | .other _ => false
  | _ => slave

/-- Steps 1 to 7 of R277: the instance that a frame reaches, or the reason code it fails with. Log entry 18. -/
def ptpReach (s : State) (x : PtpIn) (taken : Bool) : Except Nat (Fin 16) :=
  let m := x.msg
  if !taken || s.mem.dead[1] || fullT s (Fin.ofNat 9 x.port.val) 0 then .error 0x0F
  else if (match x.ip with | some ip => (ip.csumZero && ip.v6) || (!ip.csumZero && !ip.csumOk) | none => false) then .error 0x06
  else if !m.lenOk then .error 0x01
  else if m.version ≠ 2 ∨ 1 < m.minor then .error 0x02
  else if (match m.type with | .other _ => true | _ => false) then .error 0x03
  else match instOf s x with
    | none => .error 0x04
    | some i => if !m.tlvOk || decide (16 < m.tlvs.length) then .error 0x05 else .ok i

/-- The ingress stamp of a PTP frame in ns of the counter. -/
def PtpIn.ns (s : State) (x : PtpIn) : Nat := totNs (stampCounter s x.port.val 0 x.phase)

/-- A PTP frame's checks in the order of R277. Log entry 18. -/
def ptpFrameIn (s : State) (x : PtpIn) (taken : Bool) (toHost : State → State) : State :=
  let s := ethCnt s (Fin.ofNat 9 x.port.val) 16 1
  match ptpReach s x taken with
  | .error c => ptpDrop s x c
  | .ok i =>
    let (s, bad) := checkAuth s i x.msg (x.ns s)
    match bad with
    | some c => authDrop s i x c
    | none => if roleTakes (isSlave s i) x.msg.type then ptpAct s i x toHost else ptpDrop s x 0x07

/-- A PTP frame of this tick that still waits in the queue, passes R277's checks at an instance and satisfies `q`: the
    ties of R266 and R281 look ahead to it. Log entry 34. -/
def ptpWaits (s : State) (i : Fin 16) (q : PtpIn → Bool) : Bool :=
  s.pending.any fun c => match c with
    | .frameReceive port phase taken _ _ _ f =>
      let hit := fun (x : PtpIn) =>
        (match ptpReach s x taken with | .ok j => j = i | .error _ => false) && (checkAuth s i x.msg (x.ns s)).2.isNone && q x
      portRuns s port && (ethPort s port).up && f.fcsOk && f.codeOk && (match f.body with
        | .ptpUdp ip sp _ m => hit { port := Fin.ofNat 8 port.val, phase := phase, frame := f, ip := some ip, udp := sp, msg := m }
        | .ptpEth m => hit { port := Fin.ofNat 8 port.val, phase := phase, frame := f, ip := none, udp := 0, msg := m }
        | _ => false)
    | _ => false

/-- A Signaling message of an entry's client waits with a TLV that satisfies `q`. -/
def clientWaits (s : State) (g : GrantEntry) (q : PtpTlv → Bool) : Bool :=
  ptpWaits s g.inst fun x => x.msg.type = .signaling && x.msg.src = g.ident && x.udp = g.udpPort && x.addr = g.addr && x.msg.tlvs.any q

/-- A cancellation of a stream waits, from its client or from the host (R267, R281). Log entry 34. -/
def cancelWaits (s : State) (e : Nat) (g : GrantEntry) (kind : GrantKind) : Bool :=
  clientWaits s g (fun t => t = .cancel (some kind)) || s.pending.any fun c => match c with
    | .grantCancel _ entry i => entry.toNat = e || (entry = 0xFFFFFFFF && i.toNat = g.inst.val)
    | _ => false

/-- A renewal of a stream waits (R281). Log entry 34. -/
def renewWaits (s : State) (g : GrantEntry) (kind : GrantKind) : Bool :=
  clientWaits s g fun t => match t with | .request k _ d => k = some kind && d != 0 | _ => false

/-- A granted stream runs: to its end, and through it where a renewal arrives by then (R266, R281). -/
def streamRuns (s : State) (g : GrantEntry) (kind : GrantKind) (x : Grant) : Bool :=
  decide (s.now < x.until_) || (x.until_ = s.now && renewWaits s g kind)

/-! ## Security keys (R270 to R273) -/

def modSec (s : State) (e : Fin 64) (f : SecKey → SecKey) : State := modPtp s fun p => { p with keys := vmod p.keys e.val f }

/-- A signing instance may have a key again. -/
def keyBack (s : State) : State :=
  (List.finRange 16).foldl (fun s i => if (inst s i).noKey && (signKey s i (nowNs s)).isSome then modInst s i fun k => { k with noKey := false } else s) s

/-- The entries before an instant T are kept for the decisions before it (R273). -/
def keepSecs (s : State) (t : Nat) : State :=
  modPtp s fun p => { p with past := (p.past.filter fun x => pastLive s x.2.1) ++ [(t, s.now, p.keys)] }

/-- A rotation takes effect at T (R273). The event's SPP field has six bits: the low ones of the entry's eight stand
    there. DESIGN CHOICE (entry 72). -/
def secRotate (s : State) (e : Fin 64) (t : Nat) : State :=
  let k := s.ptp.keys[e]
  let s := modPtp (keepSecs s t) fun p => { p with keys := rotateSec p.keys e, rotate := p.rotate.filter fun r => r.1 != e }
  emit (keyBack s) .ptp 0x0005 .notice (e.val + k.spp.toNat % 64 * 256 + k.keyId.toNat * 2 ^ 32) (some 4)

/-- An entry becomes EMPTY: at its retire instant T or at the key store's commit instant (R273). -/
def secRetire (s : State) (e : Fin 64) (byStore : Bool) (t : Nat) : State :=
  let id := s.ptp.keys[e].keyId
  let s := modPtp (modSec (keepSecs s t) e fun _ => SecKey.empty) fun p => { p with rotate := p.rotate.filter fun r => r.1 != e }
  emit s .ptp 0x0006 .notice (e.val + flag byStore 8 + id.toNat * 2 ^ 32) (some 4)

end Sys2Proof.Machine
end

