-- ==== Sys2Proof/Machine/NetOps.lean ====
section
/-! DEFINITION. What an Ethernet port receives (08_service_ports.md R294 to R309, 12_host_rings.md R449, R450), and its
link's rise and fall (R289, R315). -/
namespace Sys2Proof.Machine

/-- A malformed descriptor of a host-filled ring: counted and recorded (R443). -/
def hifMalformed (s : State) (ring opcode tag : Nat) : State :=
  let s := { s with hif := { s.hif with cnt := vmod s.hif.cnt 0 (· + 1) } }
  emit s .hif 0x0001 .notice (ring + opcode * 256 + tag * 65536) (some 0)

/-! ## Frames to the host (R449, R450) -/

/-- A receive descriptor with a byte set that its format does not define (R443, R449). -/
def rxMalformed (d : BitVec 256) : Bool := d.toNat / 2 ^ 80 != 0

/-- The buffers that a frame fills, by descriptor offset, with malformed descriptors skipped; none when they do not
    suffice (R443, R449). -/
def rxFill : List (BitVec 256) → Nat → List Byte → Option (List (Nat × BitVec 256 × List Byte))
  | [], _, b => if b.isEmpty then some [] else none
  | d :: r, i, b =>
    if b.isEmpty then some []
    else if rxMalformed d then rxFill r (i + 1) b
    else
      let n := fld d.toNat 79 64
      (rxFill r (i + 1) (b.drop n)).map fun l => (i, d, b.take n) :: l

/-- The IP header of a frame that carries one. -/
def bodyIp : EthBody → Option IpHdr
  | .udp ip .. => some ip
  | .ptpUdp ip .. => some ip
  | .other _ ip => ip
  | _ => none

/-- The written-back receive descriptor (R449): the host's first 10 bytes, then what the engine fills in. Log entry 75. -/
def rxDesc (d : BitVec 256) (n port flags reason filter ts frac tci rseq : Nat) : List Byte :=
  leBytes 10 d.toNat ++ leBytes 2 n ++ leBytes 1 port ++ leBytes 1 flags ++ leBytes 1 reason ++ leBytes 1 filter ++
  leBytes 4 ts ++ leBytes 2 frac ++ leBytes 2 tci ++ leBytes 4 rseq ++ leBytes 4 0

/-- Writes one descriptor back, after the data of its buffer. Log entry 75. -/
def rxPut (s : State) (r : Nat) (base : Nat) (x : Nat × BitVec 256 × List Byte) (last : Nat) (port flags reason filter ts frac
    tci rseq : Nat) : State :=
  let (i, d, b) := x
  let s := hostDma s (fld d.toNat 63 0) b
  let first := i = base
  let fl := flag first 0 + flag (i != last) 1 + flags
  hostDma s (ringBase s r + 32 * (((ring s r).eng.toNat + i) % ringSize s r))
    (rxDesc d b.length port fl reason filter (if first then ts else 0) (if first then frac else 0) tci rseq)

/-- Consumes leading malformed descriptors, each recorded (R443). -/
def rxSkip (s : State) (r : Nat) (ds : List (BitVec 256)) : State :=
  ds.foldl (fun s d => if rxMalformed d then hifMalformed s r 0 0 else s) s

/-- A frame to a receive ring (R449): `descs` is what host memory holds from the engine's index on. Log entry 50. -/
def rxToHost (s : State) (q : Fin 2) (p : Fin 9) (phase : Fin 16) (f : EthFrame) (reason filter : Nat)
    (descs : List (BitVec 256)) : State :=
  let r := 13 + q.val
  let ds := if ringRuns s r then descs.take (ringPosted s r) else []
  match rxFill ds 0 f.raw with
  | none =>
    let lead := ds.takeWhile rxMalformed
    let s := ethCnt s p 20 1
    if lead.isEmpty then s
    else ringNotify (ringAdvance (rxSkip (ringReads s r lead.length) r lead) r lead.length) r lead.length
  | some l =>
    let used := match l.getLast? with | some x => x.1 + 1 | none => 0
    let base := match l.head? with | some x => x.1 | none => 0
    let c := stampCounter s p.val 0 phase
    let ip := bodyIp f.body
    let flags := flag (ip.any fun h => !h.v6) 2 + flag (ip.any fun h => h.v6) 3 + flag (ip.any fun h => h.csumOk) 4
      + flag (!f.tags.isEmpty) 5 + flag (unitCoast s p.val) 6
    let tci := match f.tags.head? with | some t => t.2.toNat | none => 0
    let seq := vget s.hif.rxSeq 0 q.val
    let s := rxSkip (ringReads s r used) r (ds.take used)
    let s := l.foldl (fun s x => rxPut s r base x (used - 1) p.val flags reason filter (ts32Of c).toNat (fracOf c) tci seq.toNat) s
    let s := { s with hif := { s.hif with rxSeq := vmod s.hif.rxSeq q.val (· + 1) } }
    let s := perfAdd (ethCnt s p 18 1) (112 + 16 * p.val + 7) 1
    ringNotify (ringAdvance s r used) r used

/-- Word `w` of a host filter (R458 space 0x05). -/
def filterWord (s : State) (i w : Nat) : Nat := ind s .hif 5 (4 * i + w)

/-- The parser's view of a frame's tags (R297): an optional S-tag, then an optional C-tag; the rest is not read. -/
def tagsRest (f : EthFrame) : List (BitVec 16 × BitVec 16) :=
  let l := match f.tags with
    | t :: r => if t.1 = 0x88A8 then r else t :: r
    | [] => []
  match l with
  | t :: r => if t.1 = 0x8100 then r else t :: r
  | [] => []

/-- A third tag, or an S-tag after a C-tag (R297). -/
def tagsBad (f : EthFrame) : Bool :=
  match tagsRest f with
  | [] => false
  | t :: _ => 3 ≤ f.tags.length || t.1 = 0x88A8

/-- The EtherType after the tags that the parser reads. -/
def etherType (f : EthFrame) : Nat :=
  match tagsRest f with
  | t :: _ => t.1.toNat
  | [] => match f.body with
    | .udp ip .. => if ip.v6 then 0x86DD else 0x0800
    | .ptpUdp ip .. => if ip.v6 then 0x86DD else 0x0800
    | .ptpEth _ => 0x88F7
    | .esmc .. => 0x8809
    | .pause _ => 0x8808
    | .pfc _ => 0x8808
    | .macctl => 0x8808
    | .other t _ => t.toNat

/-- The UDP destination port that a filter sees. -/
def udpDest (f : EthFrame) : Option Nat :=
  if !(tagsRest f).isEmpty then none else match f.body with
    | .udp _ _ d _ => some d.toNat
    | .ptpUdp _ _ d _ => some d.toNat
    | _ => none

/-- A host filter matches a frame of a port (R450); none does once the filters' memory has failed (R23). -/
def filterMatch (s : State) (p : Fin 9) (f : EthFrame) (i : Nat) : Bool :=
  let w := filterWord s i 0
  !s.mem.misc[1] && w.testBit 0 && w.testBit (8 + p.val)
    && (!w.testBit 1 || etherType f = fld (filterWord s i 1) 15 0)
    && (!w.testBit 2 || f.dst.toNat = filterWord s i 2 * 65536 + fld (filterWord s i 3) 15 0)
    && (!w.testBit 3 || udpDest f = some (fld (filterWord s i 1) 31 16))

def broadcastMac : BitVec 48 := BitVec.allOnes 48

/-- Class 4 of R17: a host filter, the port's own address or broadcast, or a drop (R297, R450). -/
def rxClass4 (s : State) (p : Fin 9) (phase : Fin 16) (f : EthFrame) (descs : List (BitVec 256)) : State :=
  match (List.range 32).find? (filterMatch s p f) with
  | some i => rxToHost s (if (filterWord s i 0).testBit 4 then 1 else 0) p phase f 1 i descs
  | none =>
    if !tagsBad f && (f.dst = portMac s p || f.dst = broadcastMac) then rxToHost s 1 p phase f 0 0xFF descs
    else ethCnt s p 19 1

/-! ## MAC control (R301 to R304) -/

/-- Queue T ignores pause during WD_HOLD (R304, R319). -/
def holdT (s : State) (p : Fin 9) : Bool := running s (ethPort s p).wdHold

def fcMode (s : State) (p : Fin 9) : Nat := fld (ethCfg s p 0) 9 8

def pauseEnd (s : State) (p : Fin 9) (q : Nat) : Option Nat := if q = 0 then none else some (s.now + quantaTicks s p q)

/-- A global pause obeyed (R302 to R304). -/
def rxPause (s : State) (p : Fin 9) (q : Nat) : State :=
  let e := pauseEnd s p q
  let hold := holdT s p && q != 0
  let s := if hold then ethCnt s p 41 1 else s
  let s := modPort s p fun k => { k with pauseAll := e, pauseAllT := if hold then k.pauseAllT else e }
  pump (ethCnt s p 42 q) p

/-- One entry of a PFC frame obeyed (R302 to R304). -/
def rxPfcOne (s : State) (p : Fin 9) (k q : Nat) : State :=
  if classT s p k then
    if holdT s p && q != 0 then ethCnt s p 41 1
    else modPort s p fun e => { e with pause := vset e.pause k (pauseEnd s p q) }
  else ethCnt (modPort s p fun e => { e with pause := vset e.pause k (pauseEnd s p q) }) p 42 q

def rxPfc (s : State) (p : Fin 9) (l : List (Option (BitVec 16))) : State :=
  pump ((List.range 8).foldl (fun s k => match l.getD k none with
    | some q => rxPfcOne s p k q.toNat
    | none => s) s) p

/-! ## Reception (R17, R294 to R301) -/

def sizeBin (n : Nat) : Nat :=
  if n ≤ 64 then 21 else if n ≤ 127 then 22 else if n ≤ 255 then 23 else if n ≤ 511 then 24
  else if n ≤ 1023 then 25 else if n ≤ 1518 then 26 else 27

/-- The counters of an accepted frame (R311). -/
def rxAccepted (s : State) (p : Fin 9) (f : EthFrame) : State :=
  let s := ethCnt (ethCnt s p 0 f.len) p 1 1
  let s := ethCnt s p (if f.dst = broadcastMac then 4 else if f.dst.getLsbD 40 then 3 else 2) 1
  let s := if f.tags.isEmpty then s else ethCnt s p 14 1
  ethCnt s p (sizeBin f.len) 1

/-- The counter of a frame that is dropped before classification: runt, oversize, code error, FCS (R294, R295). -/
def rxFault (s : State) (p : Fin 9) (f : EthFrame) : Option Nat :=
  if f.len < 64 then some 5 else if ethCfg s p 1 < f.len then some 6
  else if !f.codeOk then some 8 else if !f.fcsOk then some 7 else none

/-- An ESMC PDU (R307 to R309). Log entry 74. -/
def rxEsmc (s : State) (p : Fin 9) (good : Bool) (ssm : BitVec 4) (ext : Option (BitVec 8)) : State :=
  let s := ethCnt s p 17 1
  if !good then ethCnt s p 45 1
  else
    let s := modPort (ethCnt s p 44 1) p fun k => { k with esmcOk := BitVec.ofNat 32 (sat32 (k.esmcOk.toNat + 1)), esmcAt := s.now }
    setQl s p ssm ext false false

/-- Classes 1 to 4 of R17 for a service port's frame; the management port carries host traffic only. Log entry 74. -/
def rxClassify (s : State) (p : Fin 9) (phase : Fin 16) (taken : Bool) (f : EthFrame) (descs : List (BitVec 256)) : State :=
  let rest := rxClass4 s p phase f descs
  if h : p.val < 8 then
    if !(tagsRest f).isEmpty then rest
    else match svcEntry s p.val f, f.body with
      | some e, .udp ip sport _ pay => svcFrame s p phase f ip sport pay e taken
      | _, .ptpUdp ip sport _ m =>
        ptpFrameIn s { port := ⟨p.val, h⟩, phase := phase, frame := f, ip := some ip, udp := sport, msg := m } taken
          fun s => rxToHost s 0 p phase f 2 0xFF descs
      | _, .ptpEth m =>
        ptpFrameIn s { port := ⟨p.val, h⟩, phase := phase, frame := f, ip := none, udp := 0, msg := m } taken
          fun s => rxToHost s 0 p phase f 2 0xFF descs
      | _, .esmc good ssm ext _ _ =>
        if (ethCfg s p 0).testBit 11 then rxEsmc s p (good && f.dst = 0x0180C2000002) ssm ext else rest
      | _, _ => rest
  else rest

/-- A frame with a correct FCS: MAC control is consumed by the port, all else is classified (R301). Log entry 74. -/
def rxFrame (s : State) (p : Fin 9) (phase : Fin 16) (taken : Bool) (f : EthFrame) (descs : List (BitVec 256)) : State :=
  let s := rxAccepted s p f
  if f.dst = 0x0180C2000001 && etherType f = 0x8808 then
    match f.body with
    | .pause q => let s := ethCnt s p 11 1; if fcMode s p = 1 then rxPause s p q.toNat else s
    | .pfc l => let s := ethCnt s p 12 1; if fcMode s p = 2 then rxPfc s p l else s
    | _ => ethCnt s p 13 1
  else rxClassify s p phase taken f descs

/-! ## Link rise and fall (R289, R315) -/

def linkChanged (s : State) (p : Fin 9) (up : Bool) : State :=
  modPort s p fun k => { k with up := up, rxLock := up, changeTs := ts32 s }

/-- One frame of a discarded queue (R315): hardware messages count OVERLOAD under their blocks, host frames end
    ABORTED. -/
def discardTx (s : State) (x : TxFrame) : State :=
  match x.fill with
  | .ntp .. => svcCount s 0x11 1
  | .none => match x.host with
    | some (r, i, _) => hostTxDone s r i Status.aborted
    | none => s
  | _ => ptpCount s 0x0F 1

/-- Discards one frame after the other, so that each write-back sees the queue without it. -/
def discardN : Nat → State → Fin 9 → Bool → State
  | 0, s, _, _ => s
  | n + 1, s, p, t =>
    match (if t then (ethPort s p).qT else (ethPort s p).qM) with
    | [] => s
    | x :: r => discardN n (discardTx (modPort s p fun k => if t then { k with qT := r } else { k with qM := r }) x) p t

def discardQueue (s : State) (p : Fin 9) (t : Bool) : State :=
  discardN (if t then (ethPort s p).qT.length else (ethPort s p).qM.length) s p t

/-- A port's link goes down (R315). Log entry 76. -/
def portDown (s : State) (p : Fin 9) : State :=
  if !(ethPort s p).up then s else
  let s := linkChanged s p false
  let s := modPort s p fun k => { k with pause := Vector.replicate 8 none, pauseAll := none, pauseAllT := none, wdAt := none,
                                         wdHold := none, txPausing := false, anDone := false }
  let s := discardQueue (discardQueue s p true) p false
  emit (ethCnt (failQl s p) p 43 1) .eth 0x0002 .notice p.val (some 0)

/-- A port takes its configured mode and starts bring-up (R289): the link goes down first. -/
def portStart (s : State) (p : Fin 9) : State :=
  let s := portDown s p
  let w := ethCfg s p 0
  modPort s p fun k => { k with mode := BitVec.ofNat 3 (fld w 3 1), fec := BitVec.ofNat 2 (fld w 5 4), anDone := false, speed := 0 }

end Sys2Proof.Machine
end

