-- ==== Sys2Proof/Machine/Eth.lean ====
section
/-! DEFINITION. The commands and events of the Ethernet ports (08_service_ports.md R287 to R324, 12_host_rings.md R448). -/
namespace Sys2Proof.Machine

/-- FRAME_RECEIVE (R17, R294 to R301): `fecOk` and `fecBad` are the FEC codewords corrected and uncorrected since the
    frame before, `descs` what host memory holds in the receive ring from the engine's index on. A frame whose packet buffer is damaged is counted RX_NO_BUFFER (R23).
    Log entries 18, 59. -/
def execFrameReceive (port : Fin 9) (phase : Fin 16) (taken : Bool) (fecOk fecBad : Nat) (descs : List (BitVec 256))
    (frame : EthFrame) (s : State) : Ans :=
  .next (
    if !portRuns s port || !(ethPort s port).up || frame.len = 0 then s
    else
      let s := perfAdd (ethCnt (ethCnt s port 9 fecOk) port 10 fecBad) (112 + 16 * port.val) 1
      if (ethPort s port).rxBad then ethCnt (modPort s port fun k => { k with rxBad := false }) port 20 1
      else match rxFault s port frame with
      | some c => perfAdd (ethCnt s port c 1) (112 + 16 * port.val + 6) 1
      | none => rxFrame s port phase taken frame descs)

/-! ## Flow control (R302 to R305) -/

/-- Whether a pause end has passed. -/
def lapsed (s : State) (o : Option Nat) : Option Nat := if running s o then o else none

/-- PAUSE_EXPIRY (R302, R303): pauses whose quanta have run out end, and the queues resume. -/
def execPauseExpiry (port : Fin 9) (s : State) : Ans :=
  .next (pump (modPort s port fun k =>
    { k with pause := k.pause.map (lapsed s), pauseAll := lapsed s k.pauseAll, pauseAllT := lapsed s k.pauseAllT }) port)

def prioBits (s : State) (p : Fin 9) : Nat :=
  ((List.finRange 8).map fun k => flag (running s (ethPort s p).pause[k]) k.val).foldl (· + ·) 0

/-- A received frame that passes the checks waits on a port at this tick (R319). Log entry 34. -/
def frameWaits (s : State) (p : Fin 9) (q : EthFrame → Bool) : Bool :=
  portRuns s p && (ethPort s p).up && s.pending.any fun c => match c with
    | .frameReceive k _ _ _ _ _ f => k = p && f.len != 0 && (rxFault s p f).isNone && q f
    | _ => false

/-- A pause frame with 0 quanta waits that ends every pause of queue T (R302, R319). Log entry 34. -/
def pauseEndWaits (s : State) (p : Fin 9) : Bool :=
  frameWaits s p fun f => f.dst = 0x0180C2000001 && match f.body with
    | .pause q => fcMode s p = 1 && q = 0 && !prioPaused s p true
    | .pfc l => fcMode s p = 2 && !running s (ethPort s p).pauseAllT &&
      (List.finRange 8).all fun k => !classT s p k.val || !running s (ethPort s p).pause[k] || l.getD k.val none = some 0
    | _ => false

/-- PAUSE_WD_EXPIRY (R304, R319): queue T resumes, WD_HOLD begins, PAUSE_BREAK. -/
def execPauseWdExpiry (port : Fin 9) (s : State) : Ans :=
  .next (
    let k := ethPort s port
    match k.wdAt with
    | some t =>
      if pausedT s port && !k.qT.isEmpty && decide (t + ticksUs (ethCfg s port 2) ≤ s.now) && !pauseEndWaits s port then
        let det := port.val + prioBits s port * 256 + flag (running s k.pauseAllT) 16
        let s := modPort s port fun k =>
          { k with pauseAllT := none, wdAt := none, wdHold := some (s.now + ticksMs (ethCfg s port 3)),
                   pause := Vector.ofFn fun i => if classT s port i.val then none else k.pause[i] }
        let s := emit (ethCnt s port 40 1) .eth 0x0003 .degraded det (some 1)
        pump s port
      else s
    | none => s)

/-- WD_HOLD_EXPIRY (R304): pause is obeyed afresh. -/
def execWdHoldExpiry (port : Fin 9) (s : State) : Ans :=
  .next (modPort s port fun k => { k with wdHold := lapsed s k.wdHold })

/-- The pause frame that a port sends for queue M (R305). -/
def pauseFrame (s : State) (p : Fin 9) (q : BitVec 16) : EthFrame :=
  mkFrame 0x0180C2000001 (portMac s p) [] 46
    (if fcMode s p = 2 then .pfc ((List.range 8).map fun k => if classT s p k then none else some q) else .pause q)

def sendPause (s : State) (p : Fin 9) (q : BitVec 16) : State :=
  let f := pauseFrame s p q
  let s := ethCnt (ethCnt (ethCnt s p 28 f.len) p 29 1) p 34 1
  outFrame (perfAdd s (112 + 16 * p.val + 1) 1) p f

/-- TX_PAUSE_SEND (R305): `share` is the port's share of the host receive buffers in percent, which the chapter does not
    define further. Log entry 76. -/
def execTxPauseSend (port : Fin 9) (share : Nat) (s : State) : Ans :=
  .next (
    let k := ethPort s port
    if !portRuns s port || !k.up || fcMode s port = 0 || fcMode s port = 3 || !(ethCfg s port 0).testBit 10 then s
    else if 75 < share then
      if k.txPausing && decide (s.now < k.txPauseAt) then s
      else sendPause (modPort s port fun k => { k with txPausing := true, txPauseAt := s.now + ticksUs 100 }) port 0xFFFF
    else if k.txPausing && decide (share < 50) then sendPause (modPort s port fun k => { k with txPausing := false }) port 0
    else s)

/-! ## ESMC (R309, R310) -/

/-- A service port whose link carries ESMC PDUs. -/
def esmcPort (s : State) (p : Fin 9) : Bool := p.val < 8 && portRuns s p && (ethPort s p).up

/-- An ESMC PDU that meets R307 waits on a port (R319). Log entry 34. -/
def esmcWaits (s : State) (p : Fin 9) : Bool :=
  frameWaits s p fun f => f.dst = 0x0180C2000002 && (tagsRest f).isEmpty && match f.body with | .esmc good .. => good | _ => false

/-- ESMC_TIMEOUT (R309, R319): no accepted PDU for 5 s. -/
def execEsmcTimeout (port : Fin 9) (s : State) : Ans :=
  .next (
    let t := (ethPort s port).esmcAt + ticksS 5
    if port.val < 8 && s.pwr.phase = .ready && decide (t ≤ s.now) && !(t = s.now && esmcWaits s port) then failQl s port else s)

/-- ESMC_INFO_SEND (R310). -/
def execEsmcInfoSend (port : Fin 9) (s : State) : Ans :=
  .next (
    if esmcPort s port && serving s && (ethCfg s port 0).testBit 12 && decide ((ethPort s port).infoAt + ticksS 1 ≤ s.now) then
      sendEsmc s port false
    else s)

/-- ESMC_EVENT_SEND (R310): the QL that the port sends has changed since its last PDU. -/
def execEsmcEventSend (port : Fin 9) (s : State) : Ans :=
  .next (
    if esmcPort s port && serving s && (ethCfg s port 0).testBit 12 && (ethPort s port).qlSent.isSome
        && (ethPort s port).qlSent != some (qlToSend s port) then sendEsmc s port true
    else s)

/-! ## Links (R289, R315) -/

/-- PORT_LINK_UP (R315): the partner and what was negotiated. Log entry 81. -/
def execPortLinkUp (port : Fin 9) (anDone : Bool) (speed : BitVec 2) (s : State) : Ans :=
  .next (
    if !portRuns s port || (ethPort s port).up then s
    else
      let s := modPort (linkChanged s port true) port fun k =>
        { k with anDone := anDone && (ethCfg s port 0).testBit 6, speed := if k.mode.toNat = 6 then speed else 0 }
      let k := ethPort s port
      emit s .eth 0x0001 .notice (port.val + k.mode.toNat * 16 + k.fec.toNat * 256 + k.speed.toNat * 1024) (some 0))

/-- PORT_LINK_DOWN (R315): `cut` says that a frame was in transmission. Log entry 76. -/
def execPortLinkDown (port : Fin 9) (cut : Bool) (s : State) : Ans :=
  .next (if !(ethPort s port).up then s else portDown (if cut then ethCnt s port 47 1 else s) port)

/-! ## Host transmit frames (R296, R299, R448) -/

/-- Fields of a transmit descriptor (R448). -/
def txAddr (d : BitVec 256) : Nat := fld d.toNat 63 0
def txLen (d : BitVec 256) : Nat := fld d.toNat 79 64
def txPort (d : BitVec 256) : Nat := fld d.toNat 87 80
def txFlags (d : BitVec 256) : Nat := fld d.toNat 95 88
def txId (d : BitVec 256) : Nat := fld d.toNat 111 96
def txMore (d : BitVec 256) : Bool := (txFlags d).testBit 0

/-- A reserved flag or a byte that the format does not define is set (R443). -/
def txMalformed (d : BitVec 256) : Bool := 4 ≤ txFlags d || d.toNat / 2 ^ 120 != 0

/-- The descriptors of the next frame: up to the first without MORE; none while it has not been posted. Log entry 75. -/
def txFrameDescs : List (BitVec 256) → Option (List (BitVec 256))
  | [] => none
  | d :: r => if txMore d then (txFrameDescs r).map (d :: ·) else some [d]

/-- The port of the frame that begins with a descriptor. -/
def txHeadPort (l : List (BitVec 256)) : Option Nat := l.head?.map txPort

/-- Ring 11 holds a frame for the same port, whose taking waits at this tick: it is served first (R448). Log entry 34. -/
def txAhead (s : State) (descs : List (BitVec 256)) : Bool :=
  ringRuns s 11 && s.pending.any fun c => match c with
    | .hostTxFrame ring ds _ =>
      ring = 0 && txHeadPort ds = txHeadPort descs && (txFrameDescs (ds.take (ringPosted s 11))).isSome
    | _ => false

/-- A host frame as it leaves: padded to 60 bytes, with its FCS (R296). -/
def hostFrame (data : List Byte) : EthFrame :=
  let raw := data ++ List.replicate (60 - data.length) 0
  let tags := bytesTags 3 (raw.drop 12)
  { len := raw.length + 4, codeOk := true, fcsOk := true, dst := BitVec.ofNat 48 (beAt raw 0 6), src := BitVec.ofNat 48 (beAt raw 6 6),
    tags := tags, body := .other (BitVec.ofNat 16 (beAt raw (12 + 4 * tags.length) 2)) none, raw := raw }

/-- The priority of a frame (R298). -/
def framePcp (s : State) (p : Fin 9) (f : EthFrame) : Nat :=
  match f.tags.head? with
  | some t => fld t.2.toNat 15 13
  | none => fld (ethCfg s p 0) 26 24

/-- HOST_TX_FRAME (R296, R299, R300, R448): `descs` is what host memory holds in the ring from the engine's index on, `data`
    what the fragments hold together. Log entry 75. -/
def execHostTxFrame (ring : Fin 2) (descs : List (BitVec 256)) (data : List Byte) (s : State) : Ans :=
  let r := 11 + ring.val
  .next (
    if !ringRuns s r || s.pwr.phase != .ready || (r = 12 && txAhead s descs) then s
    else match txFrameDescs (descs.take (ringPosted s r)) with
      | none => s
      | some ds =>
        let n := (ds.map txLen).foldl (· + ·) 0
        let bytes := data.take n ++ List.replicate (n - data.length) 0
        let f := hostFrame bytes
        let port := match ds.head? with | some d => txPort d | none => 0
        let idx := (Machine.ring s r).eng + BitVec.ofNat 32 (ds.length - 1)
        let take := fun (s : State) => ringAdvance (ds.foldl (fun s d => hostRead s (txAddr d) (txLen d)) (ringReads s r ds.length)) r ds.length
        let done := fun (s : State) (st : BitVec 8) => hostTxDone s ring idx st
        if ds.any txMalformed then
          done ((ds.filter txMalformed).foldl (fun s _ => hifMalformed s r 0 0) (take s)) Status.malformed
        else if h : port < 9 then
          let p : Fin 9 := ⟨port, h⟩
          if 8 < ds.length || ds.any (fun d => txPort d != port || txLen d = 0 || decide (9212 < txLen d)) then done (take s) Status.badArg
          else if ethCfg s p 1 < bytes.length + 4 then done (ethCnt (take s) p 36 1) Status.badArg
          else if !portRuns s p then done (take s) Status.state
          else if !(ethPort s p).up then done (take s) Status.aborted
          else
            let t := classT s p (framePcp s p f)
            if (if t then fullT s p f.len else fullM s p f.len) then s
            else
              let id := (ds.find? fun d => (txFlags d).testBit 1).map fun d => BitVec.ofNat 16 (txId d)
              let s := if bytes.length < 60 then ethCnt (take s) p 35 1 else take s
              txPut s p t { frame := f, bytes := f.len, fill := .none, host := some (ring, idx, id), grant := none }
        else done (take s) Status.badArg)

/-! ## Wake (R316, R317) -/

/-- WAKE_MATCH (R316, R317). -/
def execWakeMatch (frame : EthFrame) (s : State) : Ans := .next (wakeHit s frame)

/-! ## Commands (R320) -/

/-- Word 2 of a port's state (R323 space 0x03). -/
def portWord2 (s : State) (p : Fin 9) : Nat :=
  let k := ethPort s p
  flag k.up 0 + k.mode.toNat * 2 + k.fec.toNat * 16 + flag k.anDone 6 + k.speed.toNat * 128 + flag k.rxLock 9

def portOf (b : BitVec 8) : Option (Fin 9) := if h : b.toNat < 9 then some ⟨b.toNat, h⟩ else none

/-- PORT_QUERY (R320). -/
def execPortQuery (hd : Hdr) (port : BitVec 8) (s : State) : Ans :=
  cmd s hd 0x80 (badIf (portOf port).isNone) fun s =>
    match portOf port with
    | some p =>
      let k := ethPort s p
      complete s hd 0x80 Status.ok 16 (pack [(0, portWord2 s p), (4, k.ssm.toNat), (5, k.essm.toNat), (8, k.changeTs.toNat)])
    | none => s

/-- MOD_I2C (R318, R320): `ack` says whether the address was acknowledged, `inTime` whether the transfer kept 25 ms; `data`
    is what the module returns, or for a write what the host's buffer holds. Log entry 76. -/
def execModI2c (hd : Hdr) (bus addr rd len : BitVec 8) (off : BitVec 16) (width : BitVec 8) (buf : BitVec 64)
    (ack inTime : Bool) (data : List Byte) (s : State) : Ans :=
  let n := len.toNat
  cmd s hd 0x81 (badIf (decide (1 < bus.toNat) || decide (127 < addr.toNat) || decide (1 < rd.toNat) || n = 0 || decide (128 < n)
      || decide (width.toNat < 1) || decide (2 < width.toNat) || (width.toNat = 1 && decide (255 < off.toNat)))) fun s =>
    let b := data.take n ++ List.replicate (n - data.length) 0
    let s := if rd = 1 then s else hostRead s buf.toNat n
    let khz := if rb s Rg.ethSbCfg bus.toNat then 400 else 100
    let s := emitOut s (.i2c bus.toNat khz addr (beBytes width.toNat off.toNat) (if rd = 1 then [] else b) (if rd = 1 then n else 0))
    if !ack then fin s hd 0x81 Status.notFound
    else if !inTime then fin s hd 0x81 Status.aborted
    else
      let s := if rd = 1 then hostDma s buf.toNat b else s
      complete s hd 0x81 Status.ok 1 n

/-- MOD_MDIO (R318, R320): `val` is what the module answers to a read. -/
def execModMdio (hd : Hdr) (clause port dev : BitVec 8) (reg data : BitVec 16) (rd : BitVec 8) (val : BitVec 16) (s : State) : Ans :=
  cmd s hd 0x82 (badIf ((clause != 22 && clause != 45) || decide (31 < port.toNat) || decide (31 < dev.toNat) || decide (1 < rd.toNat))) fun s =>
    let s := emitOut s (.mdio clause port dev (if clause = 45 then reg else 0) (if rd = 1 then none else some data))
    complete s hd 0x82 Status.ok 2 (if rd = 1 then val.toNat else 0)

/-- PORT_RESTART (R289, R320). -/
def execPortRestart (hd : Hdr) (port : BitVec 8) (s : State) : Ans :=
  cmd s hd 0x83 (badIf (portOf port).isNone) fun s =>
    match portOf port with
    | some p => if portPower s p then fin (portStart s p) hd 0x83 Status.ok else fin s hd 0x83 Status.state
    | none => s

end Sys2Proof.Machine
end

