-- ==== Sys2Proof/Machine/GbbOps.lean ====
section
/-! DEFINITION. The GNSS baseband's shared operations (04_gnss_baseband.md): signals, searches, channels, latch
records, navigation pages, UTC parameters, and what a solution brings about. -/
namespace Sys2Proof.Machine

def modGbb (s : State) (f : Gbb → Gbb) : State := { s with gbb := f s.gbb }

/-- The baseband is enabled in an engine that is ready (R175 GBB_EN). Log entry 68. -/
def gbbOn (s : State) : Bool := s.pwr.phase = .ready && rb s Rg.gbbCtrl 0 && !s.mem.dead[2]

/-- The baseband firmware runs: core 1 is not halted (R516). -/
def gbbFw (s : State) : Bool := gbbOn s && coreUp s 1

/-! ## Signals (R128, R129, R134) -/

/-- A row of R128: index, carrier in kHz, chips per ms, code length, code period in ms, pilot, n_s of R138. -/
structure SigDef where
  idx : Nat
  carrier : Nat
  rate : Nat
  chips : Nat
  codeMs : Nat
  pilot : Bool
  ns : Nat
  deriving DecidableEq, Repr

def sigOf (id : Nat) : Option SigDef :=
  match id with
  | 0x01 => some ⟨0, 1575420, 1023, 1023, 1, false, 2⟩
  | 0x02 => some ⟨1, 1575420, 1023, 10230, 10, true, 4⟩
  | 0x03 => some ⟨2, 1176450, 10230, 10230, 1, true, 2⟩
  | 0x11 => some ⟨3, 1575420, 1023, 4092, 4, true, 4⟩
  | 0x12 => some ⟨4, 1176450, 10230, 10230, 1, true, 2⟩
  | 0x13 => some ⟨5, 1207140, 10230, 10230, 1, true, 2⟩
  | 0x21 => some ⟨6, 1561098, 2046, 2046, 1, false, 2⟩
  | 0x22 => some ⟨7, 1575420, 1023, 10230, 10, true, 4⟩
  | 0x23 => some ⟨8, 1176450, 10230, 10230, 1, true, 2⟩
  | 0x31 => some ⟨9, 1575420, 1023, 1023, 1, false, 2⟩
  | 0x32 => some ⟨10, 1575420, 1023, 10230, 10, true, 4⟩
  | 0x33 => some ⟨11, 1176450, 10230, 10230, 1, true, 2⟩
  | 0x41 => some ⟨12, 1176450, 1023, 1023, 1, false, 2⟩
  | 0x51 => some ⟨13, 1575420, 1023, 1023, 1, false, 2⟩
  | 0x52 => some ⟨14, 1176450, 10230, 10230, 1, true, 2⟩
  | _ => none

/-- B of R134 in kHz: 2.046 MHz for BPSK(1), 4.092 MHz for BPSK(2) and BOC(1,1), 20.46 MHz for BPSK(10). -/
def SigDef.band (d : SigDef) : Nat := if d.ns = 4 then 4092 else 2 * d.rate

/-- The system of a signal: the upper digit of its identifier (R174). -/
def sysOf (signal : BitVec 8) : Nat := signal.toNat / 16

/-- First SV number and how many, by system (R129). -/
def svRange (sys : Nat) : Nat × Nat :=
  match sys with
  | 0 => (1, 32) | 1 => (1, 36) | 2 => (1, 63) | 3 => (193, 10) | 4 => (1, 14) | 5 => (120, 39) | _ => (0, 0)

def svOk (sys sv : Nat) : Bool := (svRange sys).1 ≤ sv && sv < (svRange sys).1 + (svRange sys).2

/-- A signal is receivable on a port (R134): |carrier − CENTRE| + B/2 ≤ 0.45 × rate. -/
def receivable (s : State) (port : Nat) (d : SigDef) : Bool :=
  let centre := ind s .gbb 2 (4 * port)
  let rate := ind s .gbb 2 (4 * port + 1)
  decide (20 * ((d.carrier * 1000 : Nat) - (centre : Int)).natAbs + 10000 * d.band ≤ 9 * rate)

/-! ## Ports and samples (R132 to R135) -/

def gspPort (s : State) (p : Fin 4) : GspPort := s.gbb.ports[p]

/-- A port gives samples: it is enabled and has not failed (R135, R175). -/
def portLive (s : State) (p : Fin 4) : Bool := rb s (Rg.gbbPortCfg0 + 4 * p.val) 0 && !(gspPort s p).failed

/-- A rate differs from the port's nominal rate by more than 200 ppm (R135). -/
def rateOff (s : State) (p : Fin 4) (rateHz : Nat) : Bool :=
  let nominal := ind s .gbb 2 (4 * p.val + 1)
  decide (200 * nominal < ((rateHz : Int) - nominal).natAbs * 1000000)

/-- The value of an edge's four bits (R133 FMT): two's complement, or offset binary. -/
def edgeValue (cfg : Nat) (v : BitVec 4) : Int := if cfg.testBit 1 then (v.toNat : Int) - 8 else v.toInt

/-- The samples of a port from what it brought at the rising edges and at the falling edge after each: EDGE says which of
    the two carries I, and SPEC_INV turns Q around (R132, R133). -/
def samplesOf (cfg : Nat) (rise fall : List (BitVec 4)) : List (Int × Int) :=
  (if cfg.testBit 2 then fall.zip (rise.drop 1) else rise.zip fall).map fun x =>
    (edgeValue cfg x.1, if cfg.testBit 3 then -edgeValue cfg x.2 else edgeValue cfg x.2)

/-! ## Searches (R137 to R141) -/

/-- The bins of a search: b = 2 × ⌈H / Δf⌉ + 1, Δf = 1 / (2 T_coh) where BIN is 0. -/
def searchBins (x : Search) : Nat :=
  2 * (if x.bin = 0 then ceilDiv (x.half * 2 * x.tCoh) 1000 else ceilDiv x.half x.bin) + 1

def maskCount (m : BitVec 64) : Nat := ((List.range 64).filter fun i => m.getLsbD i).length

/-- Passes of a search (R138). Log entry 67. -/
def searchPasses (x : Search) : Nat :=
  match sigOf x.signal.toNat with
  | some d => ceilDiv (maskCount x.mask * searchBins x * (d.chips * d.ns)) (16384 * (400000 / (d.ns * d.rate)))
  | none => 0

/-- Its duration in µs. Log entry 67. -/
def searchUs (x : Search) : Nat := searchPasses x * (x.tCoh * x.nNc + 1) * 1000

/-- Doppler of a bin in 2^-8 Hz (R138). -/
def binDoppler (x : Search) (j : Nat) : Int :=
  let k : Int := (j : Int) - (searchBins x / 2 : Nat)
  x.centre * 256 + (if x.bin = 0 then roundDiv (k * 128000) x.tCoh else k * (x.bin * 256))

/-- Every hypothesis of an SV: bin, code phase in n_s per chip, and power (R138, R139). Log entry 15. -/
def hypotheses (s : State) (x : Search) (d : SigDef) (iq : List (Int × Int)) (sv : Nat) : List (Nat × Nat × Nat) :=
  let rate := ind s .gbb 2 (4 * x.port.val + 1)
  let base : Int := ((d.carrier * 1000 : Nat) - (ind s .gbb 2 (4 * x.port.val) : Int)) * 256
  (List.range (searchBins x)).flatMap fun j => (List.range (d.chips * d.ns)).map fun c =>
    (j, c, Config.corr x.signal.toNat sv iq rate (base + binDoppler x j) x.tCoh x.nNc c)

/-- The strongest hypothesis. -/
def peakOf : List (Nat × Nat × Nat) → Nat × Nat × Nat
  | [] => (0, 0, 0)
  | h :: r => let p := peakOf r; if h.2.2 < p.2.2 then p else h

/-- The metric of an SV (R139): the peak's power over the mean power of the hypotheses more than one chip from it. A hit
    if it exceeds the threshold; the entry shows it in 1/16, truncated, and saturated where that mean is 0. Log entry 67. -/
def svHit (x : Search) (d : SigDef) (sv : Nat) (l : List (Nat × Nat × Nat)) : Option GnssHit :=
  let p := peakOf l
  let n := d.chips * d.ns
  let far := l.filter fun h => let k := (h.2.1 + n - p.2.1) % n; decide (d.ns < min k (n - k))
  let sum := (far.map fun h => h.2.2).sum
  let up := 16 * p.2.2 * far.length
  if x.thresh * sum < up then
    some { sv := BitVec.ofNat 8 sv, metric := BitVec.ofNat 16 (if sum = 0 then 0xFFFF else min 0xFFFF (up / sum)),
           code := BitVec.ofNat 32 (p.2.1 * 256 / d.ns), doppler := BitVec.ofInt 32 (binDoppler x p.1) }
  else none

/-- The SVs of a mask (R129). -/
def maskSvs (sys : Nat) (m : BitVec 64) : List Nat :=
  ((List.range 64).filter fun i => m.getLsbD i).map fun i => (svRange sys).1 + i

/-- The hits of a search over a port's edges; a port without samples gives none. -/
def searchHits (s : State) (x : Search) (rise fall : List (BitVec 4)) : List GnssHit :=
  match sigOf x.signal.toNat with
  | some d =>
    if portLive s x.port then
      let iq := samplesOf (getW s (Rg.gbbPortCfg0 + 4 * x.port.val)).toNat rise fall
      (maskSvs (sysOf x.signal) x.mask).filterMap fun sv => svHit x d sv (hypotheses s x d iq sv)
    else []
  | none => []

/-- A search joins the queue: it runs at once where none does (R140). -/
def queueSearch (s : State) (x : Search) : State :=
  modGbb s fun g => { g with searches := g.searches ++ [x],
                             searchEnd := if g.searches.isEmpty then s.now + ticksUs (searchUs x) else g.searchEnd }

/-- One search runs and 16 wait (R140). -/
def searchesFull (s : State) : Bool := 17 ≤ s.gbb.searches.length

/-- The request block of R141 with its defaults; none where R134 or R137 does not admit it. Log entry 67. -/
def searchReq (s : State) (hd : Hdr) (addr : BitVec 64) (len : BitVec 32) (req : BitVec 256) : Option Search :=
  let r := req.toNat
  let sig := fld r 15 8
  match sigOf sig with
  | none => none
  | some d =>
    let t := fld r 23 16
    let t := if t = 0 then max 1 d.codeMs else t
    let n := fld r 31 24
    let n := if n = 0 then 8 else n
    let th := fld r 47 32
    let th := if th = 0 then 40 else th
    let centre := sInt 32 (fld r 95 64)
    let half := fld r 111 96
    let bin := fld r 127 112
    let mask := BitVec.ofNat 64 (fld r 191 128)
    let port := fld r 7 0
    if hp : port < 4 then
      if receivable s port d && decide (t ≤ 20) && t % d.codeMs = 0 && decide (24 ≤ th ∧ th ≤ 128)
          && decide (centre.natAbs + half ≤ 50000) && (bin = 0 || decide (10 ≤ bin ∧ bin ≤ 1000))
          && mask != 0 && decide (mask.toNat < 2 ^ min 64 (svRange (sig / 16)).2) && decide (32 ≤ len.toNat) then
        some { host := some hd, addr := addr, len := len, port := ⟨port, hp⟩, signal := BitVec.ofNat 8 sig, tCoh := t,
               nNc := n, thresh := th, assign := r.testBit 48, centre := centre, half := half, bin := bin, mask := mask }
      else none
    else none

/-! ## Channels (R142 to R146) -/

def Chan.idle : Chan :=
  { st := .idle, signal := 0, sv := 0, port := 0, group := false, pinned := false, cn0 := 0, lockAt := 0, cause := 0,
    slips := 0, slip := false, half := false, txTime := 0, carrier := 0, doppler := 0, txEdge := 0, carrierEdge := 0,
    edgeAt := 0, reacq := false, fails := 0, pullAt := 0,
    lostAt := 0 }

def chan (s : State) (i : Nat) : Chan := aget Chan.idle s.gbb.chans i

def setChan (s : State) (i : Nat) (c : Chan) : State := modGbb s fun g => { g with chans := aset Chan.idle g.chans i c }

def ChanState.code : ChanState → Nat
  | .idle => 0 | .acquire => 1 | .pullIn => 2 | .track => 3 | .sync => 4 | .ready => 5 | .lost => 6

/-- States that a latch takes (R148). -/
def ChanState.tracks : ChanState → Bool
  | .track | .sync | .ready => true | _ => false

/-- The lowest free channel. -/
def freeChan (s : State) : Option Nat := (List.range 512).find? fun i => (chan s i).st = .idle

/-- A channel of this port, signal and SV for which `p` holds. -/
def findChan (s : State) (port : Fin 4) (signal sv : BitVec 8) (p : Chan → Bool) : Option Nat :=
  (s.gbb.chans.find? fun e => e.2.port = port && e.2.signal = signal && e.2.sv = sv && p e.2).map Prod.fst

/-- A channel assigned to a signal of an SV on a port (R142). -/
def newChan (s : State) (port : Fin 4) (signal sv : BitVec 8) (st : ChanState) (pinned : Bool) : Chan :=
  { Chan.idle with st := st, signal := signal, sv := sv, port := port, pinned := pinned, pullAt := s.now, edgeAt := 16 * s.now,
                   group := rb s (Rg.gbbPortCfg0 + 4 * port.val) 4 }

/-- A hit hands its Doppler and its code phase to the channel that takes it up (R141, R144). -/
def hitChan (s : State) (c : Chan) (h : GnssHit) : Chan :=
  let rate := match sigOf c.signal.toNat with | some d => d.rate | none => 1
  { c with st := .pullIn, reacq := false, pullAt := s.now, doppler := h.doppler, edgeAt := 16 * s.now,
           txEdge := roundDiv (h.code.toNat * 2 ^ 24) rate }

/-- A hit goes to the channel in ACQUIRE for it, or else to the lowest free one (R141 ASSIGN, R144). The firmware
    gives no second channel to a signal that has one. -/
def assignHit (s : State) (port : Fin 4) (signal : BitVec 8) (h : GnssHit) (once : Bool) : State × Option Nat :=
  match findChan s port signal h.sv (fun c => c.st = .acquire) with
  | some i => (setChan s i (hitChan s (chan s i) h), some i)
  | none =>
    if once && (findChan s port signal h.sv (fun c => c.st != .idle)).isSome then (s, none)
    else match freeChan s with
      | some i => (setChan s i (hitChan s (newChan s port signal h.sv .pullIn false) h), some i)
      | none => (s, none)

/-- Parameters of a kind are held for an SV (R154). -/
def hasParam (s : State) (sys sv : Nat) (k : NavKind) : Bool :=
  s.gbb.params.any fun p => p.sys = sys && p.sv = sv && p.kind = k

def grpCfg (g : Bool) : Nat := Rg.gbbGrpCfg0 + (if g then 4 else 0)

def calWord (s : State) (g : Bool) (w : Nat) : Nat := ind s .gbb 3 ((if g then 16 else 0) + w)

def group (s : State) (g : Bool) : Group := vget s.gbb.groups Group.reset (if g then 1 else 0)

def modGroup (s : State) (g : Bool) (f : Group → Group) : State :=
  modGbb s fun b => { b with groups := vmod b.groups (if g then 1 else 0) f }

/-- Time is known to 100 µs (R146, R169). -/
def timeClose (s : State) : Bool := s.tco.st != .night && decide (s.tco.teb.toNat ≤ 1600000)

/-- The modulus of TX_TIME in 2^-32 ms (R152): the primary code period in TRACK, the week otherwise. -/
def txModulus (c : Chan) : Int :=
  match sigOf c.signal.toNat with
  | some d => if c.st = .track then (d.codeMs * 2 ^ 32 : Nat) else (604800000 * 2 ^ 32 : Nat)
  | none => 1

/-- The position of a group (R173), and of R146's prediction: X, Y, Z in mm. -/
def grpPos (s : State) (g : Bool) : Int × Int × Int :=
  let w := fun (k : Nat) => sInt 64 (calWord s g k + calWord s g (k + 1) * 2 ^ 32)
  (w 4, w 6, w 8)

/-- A transmit time known modulo the code period, resolved to the nearest value to a predicted one (R146). -/
def resolveTx (period tx pred : Int) : Int := tx % period + roundDiv (pred - tx % period) period.toNat * period

/-- The held ephemeris of an SV. -/
def ephOf (s : State) (sys sv : Nat) : Option NavParam :=
  s.gbb.params.find? fun p => p.sys = sys && p.sv = sv && p.kind = .ephemeris

/-- A channel in TRACK becomes READY without the time of week; the firmware resolves its transmit time (R146). -/
def fixReady (s : State) (i : Nat) : State :=
  let c := chan s i
  if c.st = .track && gbbFw s && timeClose s && (group s c.group).fixed then
    match ephOf s (sysOf c.signal) c.sv.toNat with
    | some e =>
      let (x, y, z) := grpPos s c.group
      setChan s i { c with st := .ready,
                           txEdge := resolveTx (txModulus c) c.txEdge (Config.predictTx e.data x y z (totNs s.tco.counter)) }
    | none => s
  else s

def fixReadyAll (s : State) : State := (s.gbb.chans.map Prod.fst).foldl fixReady s

/-- A channel loses its signal (R145): causes 1 phase lock, 2 C/N0, 4 port failure. A channel that was lost before keeps
    the start of its loss. -/
def loseChan (s : State) (i : Nat) (cause : BitVec 8) : State :=
  let c := chan s i
  let was := c.st = .lost || (c.st = .pullIn && c.reacq)
  let s' := setChan s i { c with st := .lost, reacq := false, cause := cause, lostAt := if was then c.lostAt else s.now }
  if was then s' else perfAdd s' 483 1

/-- A carrier lock of the channel waits at this tick: it wins over a timeout (R172). Log entry 34. -/
def lockWaits (s : State) (i : Nat) : Bool :=
  s.pending.any fun c => match c with
    | .carrierLock o => o.chan.val = i && decide (800 ≤ o.ind) && decide (100 ≤ o.ms)
    | _ => false

/-- Reacquisition attempts begin: a channel in LOST on a port with samples enters PULL_IN around its last code and Doppler
    (R144, R145). The spec gives their spacing nowhere; one begins at each latch. Log entry 68. -/
def reacquire (s : State) : State :=
  modGbb s fun g => { g with chans := g.chans.map fun p =>
    (p.1, if p.2.st = .lost && portLive s p.2.port then { p.2 with st := .pullIn, reacq := true, pullAt := s.now } else p.2) }

/-! ## The tracking loops (R136, R147) -/

/-- Doppler within ±50 kHz, moved by no more than 2 kHz/s over one code period, in 2^-8 Hz (R147). -/
def dopplerStep (codeMs : Nat) (d step : Int) : Int :=
  clampI (-12800000) 12800000 (d + clampI (-(512 * codeMs : Nat)) (512 * codeMs : Nat) step)

/-- Early-late spacing in 1/10 chip (R147). -/
def spacing (d : SigDef) : Nat := if d.ns = 4 then 2 else if d.rate = 10230 then 5 else 1

/-- The loops over the code periods of an interval: Doppler, the sum of its values, and the sum of the code loop's steps.
    Log entry 15. -/
def loopRun (s : State) (d : SigDef) (pull : Bool) (raw : List Corr) (dop : Int) : Int × Int × Int :=
  let pll := rf s Rg.gbbTrack 15 8
  let dll := rf s Rg.gbbTrack 23 16
  raw.foldl (fun (a : Int × Int × Int) c =>
    let (e, p, l) := if d.pilot then (c.pilotE, c.pilotP, c.pilotL) else (c.dataE, c.dataP, c.dataL)
    let step := if pull then Config.freqLoop 10 p else Config.carrierLoop (!d.pilot) pll p
    let dop := dopplerStep d.codeMs a.1 step
    (dop, a.2.1 + dop, a.2.2 + Config.codeLoop dll (spacing d) e l)) (dop, 0, 0)

/-- A duration in 125 ps as transmit time in 2^-32 ms at a mean Doppler, given as a sum in 2^-8 Hz over a count. -/
def txSpan (d : SigDef) (span sum count : Int) : Int :=
  roundDiv (span * 125 * 2 ^ 32 * (d.carrier * 1000 * 256 * count + sum)) (1000000000 * (d.carrier * 1000) * 256 * count.toNat)

/-- The same as carrier phase in 2^-24 cycle (R152). -/
def carrierSpan (span sum count : Int) : Int := roundDiv (span * sum * 65536) (8000000000 * count.toNat)

/-- A channel's loops run to the sample clock edge at `at_`, in 125 ps, over the code periods before it (R136, R147,
    R152). -/
def loopTo (s : State) (d : SigDef) (pull : Bool) (raw : List Corr) (at_ : Nat) (c : Chan) : Chan :=
  let (dop, sum, code) := loopRun s d pull raw c.doppler.toInt
  let (sum, n) : Int × Int := if raw.isEmpty then (dop, 1) else (sum, raw.length)
  let span : Int := (at_ - c.edgeAt : Nat)
  { c with doppler := BitVec.ofInt 32 dop, txEdge := (c.txEdge + txSpan d span sum n + code) % txModulus c,
           carrierEdge := (c.carrierEdge + carrierSpan span sum n) % (2 ^ 64 : Nat), edgeAt := max at_ c.edgeAt }

/-- Code and carrier interpolated from the last measured edge to this tick (R136). -/
def interpolate (s : State) (d : SigDef) (c : Chan) : Chan :=
  let span : Int := (16 * s.now - c.edgeAt : Nat)
  { c with txTime := BitVec.ofInt 64 ((c.txEdge + txSpan d span c.doppler.toInt 1) % txModulus c),
           carrier := BitVec.ofInt 64 (c.carrierEdge + carrierSpan span c.doppler.toInt 1) }

/-! ## Latch records (R150 to R152) -/

/-- LOCK_MS: continuous carrier lock (R151). -/
def Chan.lockMs (c : Chan) (now : Nat) : Nat := if c.st.tracks then sat32 ((now - c.lockAt) / ticksMs 1) else 0

def LatchEntry.bytes (now : Nat) (e : LatchEntry) : List Byte :=
  let pilot := match sigOf e.ch.signal.toNat with | some d => d.pilot | none => false
  leBytes 2 e.chan ++ [e.ch.signal, e.ch.sv, BitVec.ofNat 8 e.ch.st.code,
    BitVec.ofNat 8 (flag e.ch.half 0 + flag e.ch.slip 1 + flag pilot 2 + flag e.ephValid 3 + flag e.used 4 + flag e.excluded 5)] ++
  leBytes 2 e.ch.cn0.toNat ++ leBytes 8 e.ch.txTime.toNat ++ leBytes 8 e.ch.carrier.toNat ++ leBytes 4 e.ch.doppler.toNat ++
  leBytes 4 (e.ch.lockMs now) ++ [BitVec.ofNat 8 e.ch.port.val, BitVec.ofNat 8 (flag e.ch.group 0), 0, 0] ++
  leBytes 4 e.ch.slips.toNat

def LatchRec.length (r : LatchRec) : Nat := 32 + 40 * r.entries.length

def LatchRec.bytes (r : LatchRec) : List Byte :=
  leBytes 16 r.instant.toNat ++ leBytes 4 r.seq.toNat ++ leBytes 2 r.entries.length ++
  leBytes 2 (flag r.whole 0 + flag r.coast 1 + flag r.step 2 + flag r.portFail 3) ++ leBytes 4 r.length ++ leBytes 4 0 ++
  (r.entries.map fun e => e.bytes r.tick).flatten

/-- An excluded satellite of a group (R162, R173). -/
def isExcl (s : State) (g : Bool) (sys sv : Nat) : Bool :=
  s.gbb.excl.any fun e => e.group = g && e.sys = sys && e.sv = sv

/-- What a channel meets up to a latch enters it (R136, R145, R147, R151). -/
def observe (s : State) (o : ChanObs) : State :=
  let c := chan s o.chan.val
  match sigOf c.signal.toNat with
  | some d =>
    if c.st.tracks then
      let c := interpolate s d (loopTo s d false o.raw (16 * s.now - o.edge) c)
      setChan s o.chan.val
        { c with cn0 := o.cn0, half := o.half,
                 slip := o.slips != 0, slips := BitVec.ofNat 32 (sat32 (c.slips.toNat + o.slips)),
                 lockAt := if o.slips = 0 then c.lockAt else max c.lockAt (min o.slipTick s.now) }
    else s
  | none => s

/-- The entry of a latched channel. -/
def latchEntry (s : State) (p : Nat × Chan) : LatchEntry :=
  let sys := sysOf p.2.signal
  { chan := p.1, ch := p.2, ephValid := hasParam s sys p.2.sv.toNat .ephemeris,
    used := (group s p.2.group).usedSv.contains (sys, p.2.sv.toNat), excluded := isExcl s p.2.group sys p.2.sv.toNat }

/-! ## Navigation data (R153 to R158) -/

def Page.bytes (p : Page) : List Byte :=
  leBytes 4 p.rxTs32.toNat ++ [p.signal, p.sv] ++ leBytes 2 p.bits.toNat ++ leBytes 4 p.pseq.toNat ++ leBytes 2 p.chan.toNat ++
  [BitVec.ofNat 8 (flag p.injected 0), 0] ++ leBytes 112 p.payload.toNat

/-- A page enters the ring of the last 4,096 (R154, R155). Log entry 67. -/
def storePage (s : State) (signal sv : BitVec 8) (chan : BitVec 16) (injected : Bool) (p : NavIn) : State :=
  let r : Page := { rxTs32 := ts32 s, signal := signal, sv := sv, bits := p.bits, pseq := s.gbb.pseq, chan := chan,
                    injected := injected, payload := p.payload }
  let s := match sigOf signal.toNat with | some d => perfAdd s (448 + d.idx) 1 | none => s
  modGbb s fun g => { g with pages := (if g.pages.length < 4096 then g.pages else g.pages.drop 1) ++ [r], pseq := g.pseq + 1 }

/-- The checks that a signal's message needs (R153). -/
def checksOf (signal : Nat) : List NavCheck :=
  match signal with
  | 0x01 | 0x31 => [.parity]
  | 0x02 | 0x32 | 0x22 | 0x23 => [.ldpc, .crc24q]
  | 0x21 => [.bch]
  | _ => [.viterbi, .crc24q]

/-- A page of a signal passes its check (R153). Log entry 14. -/
def pageOk (signal : BitVec 8) (p : NavIn) : Bool := (checksOf signal.toNat).all p.passed.contains

/-- A decoded set belongs to the page's SV, or for almanacs, ionosphere and UTC to its system (R154). SBAS messages are
    not decoded (R130). Log entry 14. -/
def decFits (signal sv : BitVec 8) (d : NavDec) : Bool :=
  d.sys = sysOf signal && d.sys != 5 && match d.kind with
    | .ephemeris | .clock | .groupDelay => d.sv = sv.toNat
    | .almanac => svOk d.sys d.sv
    | .iono | .utc => true

/-- A parameter set enters the store from a page. Broadcast data that differ from an injected set of the same SV and issue
    discard it with NAV_MISMATCH; an injection does not displace broadcast data of its issue (R156). -/
def storeParam (injected : Bool) (src : NavInject) (s : State) (d : NavDec) : State :=
  let same := fun (p : NavParam) => p.sys = d.sys && p.sv = d.sv && p.kind = d.kind
  let old := s.gbb.params.find? same
  let clash := match old with
    | some p => !injected && p.injected && p.issue = d.issue && p.data != d.data
    | none => false
  let keep := match old with
    | some p => injected && !p.injected && p.issue = d.issue
    | none => false
  if keep then s else
  let n : NavParam := { sys := d.sys, sv := d.sv, kind := d.kind, issue := d.issue, data := d.data, injected := injected, page := src }
  let s := modGbb s fun g => { g with params := g.params.filter (fun p => !same p) ++ [n] }
  let s := if d.kind = .ephemeris || d.kind = .almanac then mirrorSend s (.nav src) else s
  if clash then emit s .gbb 0x0008 .notice (d.sys * 16 + d.sv * 256) (some 5) else s

/-- k of R164: TAI less system time in seconds. -/
def solK (sys : Nat) : Nat := if sys = 2 then 33 else 19

/-- Seconds of the counter's scale at the start of week 0 of a system's own time; QZSS counts as GPS, NavIC as Galileo.
    Log entry 69. -/
def sysEpoch (sys : Nat) : Nat :=
  if sys = 0 || sys = 3 then 315964800 else if sys = 2 then 315964800 + 1356 * 604800 else 315964800 + 1024 * 604800

/-- TAI seconds of the start of week 0 of a system (R158). Log entry 69. -/
def weekEpoch (sys : Nat) : Nat := sysEpoch sys + solK sys

/-- The floor of a system's week numbers (R157): GBB_WN_FLOOR less the system's epoch in NIGHT, TCO's week otherwise. -/
def weekFloor (s : State) (sys : Nat) : Nat :=
  if s.tco.st = .night then (getW s Rg.gbbWnFloor).toNat - (sysEpoch sys - sysEpoch 0) / 604800
  else (secOf s.tco.counter - weekEpoch sys) / 604800

/-- A broadcast week number extended (R157). Log entry 69. -/
def fullWeek (s : State) (sys wn range : Nat) : Nat :=
  let floor := weekFloor s sys
  if range = 0 then wn else
  let w := floor / range * range + wn % range
  if floor ≤ w then w else w + range

/-- The TAI second at which an announced leap takes effect (R158). An extended week more than half the field's range ahead
    is a week that has passed. Log entry 69. -/
def leapInstant (s : State) (u : NavUtc) : Int :=
  let w := fullWeek s u.sys u.wn u.range
  let w : Int := if u.range < 2 * (w - weekFloor s u.sys) then (w : Int) - u.range else w
  weekEpoch u.sys + w * 604800 + u.tow

/-- UTC parameters of the system that UTC_SRC names: TCO_UTC and the pending leap, when a value changes (R158). An
    announcement whose instant has passed gives the resulting TAI − UTC with none pending (R69). Log entry 69. -/
def utcSolve (s : State) (u : NavUtc) : State :=
  if u.sys ≠ rf s Rg.gbbCtrl 5 4 ∨ 2 < u.sys then s else
  let k : BitVec 16 := BitVec.ofNat 16 (solK u.sys)
  let at_ := BitVec.ofInt 32 (leapInstant s u)
  let pend : BitVec 2 := if u.dtLSF = u.dtLS + 1 then 1 else if u.dtLSF + 1 = u.dtLS then 2 else 0
  let passed := decide (pend ≠ 0) && decide (at_.toNat ≤ secOf s.tco.counter % 2 ^ 32)
  let off := (if passed then u.dtLSF else u.dtLS).signExtend 16 + k
  let pend := if passed then 0 else pend
  let at_ := if pend = 0 then 0 else at_
  if s.tco.utcValid && s.tco.utcOff = off && s.tco.pend = pend && s.tco.leapAt = at_ then s
  else emit (utcWrite s off pend at_ true) .gbb 0x0009 .notice (off.toNat + pend.toNat * 2 ^ 16) (some 6)

/-- The last decoded UTC parameters of the system that UTC_SRC names are taken up (R158). -/
def utcAgain (s : State) : State :=
  match s.gbb.utcs.find? fun u => u.sys = rf s Rg.gbbCtrl 5 4 with
  | some u => utcSolve s u
  | none => s

/-- UTC parameters are decoded (R154, R158). -/
def takeUtc (s : State) (signal : BitVec 8) (u : NavUtc) : State :=
  if u.sys = sysOf signal then
    utcSolve (modGbb s fun g => { g with utcs := g.utcs.filter (fun v => v.sys ≠ u.sys) ++ [u] }) u
  else s

/-- A page that passes its check (R153 to R158). -/
def takePage (s : State) (signal sv : BitVec 8) (chan : BitVec 16) (injected : Bool) (p : NavIn) : State :=
  let src : NavInject := { signal := signal, sv := sv, page := p }
  let s := (p.dec.filter (decFits signal sv)).foldl (storeParam injected src) (storePage s signal sv chan injected p)
  fixReadyAll (match p.utc with | some u => takeUtc s signal u | none => s)

/-- An injected page, of the host or of the partner's mirror, is taken if it names a satellite and passes (R156). -/
def injectOk (p : NavInject) : Bool :=
  (sigOf p.signal.toNat).isSome && svOk (sysOf p.signal) p.sv.toNat && pageOk p.signal p.page

def inject (s : State) (p : NavInject) : State := takePage s p.signal p.sv 0xFFFF true p.page

/-! ## Solutions (R160 to R168) -/

/-- Pairs of signals that form an ionosphere-free combination, in order of preference (R131). -/
def pairsOf (sys : Nat) : List (Nat × Nat) :=
  match sys with
  | 0 => [(0x01, 0x03), (0x02, 0x03)] | 1 => [(0x11, 0x12), (0x11, 0x13)] | 2 => [(0x22, 0x23)]
  | 3 => [(0x31, 0x33), (0x32, 0x33)] | _ => []

/-- D of R161 in 2^-16 ns: cable delay and the signal's bias. -/
def rxDelay (s : State) (g : Bool) (d : SigDef) : Int :=
  roundDiv ((sInt 32 (calWord s g 0) + sInt 32 (ind s .gbb 4 ((if g then 16 else 0) + d.idx))) * 65536) 1000

/-- A latched entry that a solution may use (R160 step 1): the group's, in READY, with ephemeris, not excluded, of an
    enabled system other than SBAS, with the C/N0 mask reached. -/
def selectable (s : State) (g : Bool) (e : LatchEntry) : Bool :=
  e.ch.group = g && e.ch.st = .ready && e.ephValid && !e.excluded && decide (sysOf e.ch.signal < 5)
    && (getW s (grpCfg g)).getLsbD (8 + sysOf e.ch.signal) && decide (rf s (grpCfg g) 31 24 * 100 ≤ e.ch.cn0.toNat)

/-- System time plus k at the latch less TCO's, by one signal, in 2^-16 ns (R161, R164). -/
def signalTime (s : State) (w : SolWork) (g : Bool) (sat : SatIn) (d : SigDef) (e : LatchEntry) (path : Int) : Int :=
  let week : Int := (weekEpoch sat.sys + fullWeek s sat.sys sat.wn sat.range * 604800 : Nat)
  week * (1000000000 * 65536) + roundDiv (e.ch.txTime.toNat * 1000000) 65536 + path + rxDelay s g d - w.instant

/-- What a signal of a satellite gives: its definition, its C/N0 and the time by it. -/
def signalMeas (s : State) (w : SolWork) (g : Bool) (es : List LatchEntry) (sat : SatIn) (id : Nat) : Option (SigDef × Nat × Int) :=
  match sigOf id, es.find? (fun e => e.ch.signal.toNat = id && e.ch.sv.toNat = sat.sv), sat.path.find? (fun p => p.1.toNat = id) with
  | some d, some e, some p => some (d, e.ch.cn0.toNat, signalTime s w g sat d e p.2)
  | _, _, _ => none

/-- The weight of R162: σ_0 0.6 ns for a combination, 1.5 ns for a single frequency. -/
def weight (el cn0 : Nat) (dual : Bool) : Nat :=
  max 1 (Config.sine el * Config.sine el * (if cn0 < 4000 then Config.cnPower cn0 else 65536) * (if dual then 25 else 4))

/-- The ionosphere of one frequency (R131): by the satellite's own system where it broadcasts coefficients, else by GPS. -/
def ionoOf (s : State) (sat : SatIn) (d : SigDef) : Int :=
  let held := fun (sys : Nat) => s.gbb.params.any fun p => p.sys = sys && p.kind = .iono
  let l1 := if held sat.sys then sat.ionoOwn else if held 0 then sat.ionoGps else 0
  roundDiv (l1 * (1575420 * 1575420)) (d.carrier * d.carrier)

/-- A satellite's measurement (R131, R160 steps 1 and 2, R161): the first pair that is tracked, else the first single
    signal. The C/N0 of a pair is the lower of the two. Log entry 15. -/
def satMeas (s : State) (w : SolWork) (g : Bool) (es : List LatchEntry) (sat : SatIn) : Option SatMeas :=
  let one := signalMeas s w g es sat
  if sat.el ≤ rf s (grpCfg g) 23 16 * 1000 then none else
  match (pairsOf sat.sys).findSome? fun p => match one p.1, one p.2 with | some a, some b => some (a, b) | _, _ => none with
  | some ((d, c, z), (d', c', z')) =>
    let f : Int := d.carrier * d.carrier
    let f' : Int := d'.carrier * d'.carrier
    some { sys := sat.sys, sv := sat.sv, z := roundDiv (f * z - f' * z') (f - f').toNat, w := weight sat.el (min c c') true }
  | none =>
    match (List.range 16).findSome? fun k => one (16 * sat.sys + k) with
    | some (d, c, z) => some { sys := sat.sys, sv := sat.sv, z := z - ionoOf s sat d, w := weight sat.el c false }
    | none => none

/-- The measurements of a solution, at most one for each satellite. -/
def solMeas (s : State) (w : SolWork) (g : Bool) (x : SolIn) : List SatMeas :=
  let es := match s.gbb.latches.find? fun r => r.seq = w.seq with
    | some r => r.entries.filter (selectable s g)
    | none => []
  (List.range 5).flatMap fun sys => (List.range (svRange sys).2).filterMap fun i =>
    match x.sats.find? fun v => v.sys = sys && v.sv = (svRange sys).1 + i with
    | some v => satMeas s w g es v
    | none => none

def tsRef (s : State) (g : Bool) : Nat := rf s (grpCfg g) 15 14

/-- A system other than the reference system with fewer than two satellites is left out (R160 step 3). -/
def twoSats (ref : Nat) (l : List SatMeas) : List SatMeas :=
  l.filter fun m => m.sys = ref || decide (2 ≤ l.countP fun k => k.sys = m.sys)

/-- The clock of a system: the weighted mean of its measurements, which the least squares of R160 gives for it. -/
def clockOf (l : List SatMeas) (sys : Nat) : Int :=
  let k := l.filter fun m => m.sys = sys
  roundDiv (k.map fun m => (m.w : Int) * m.z).sum (k.map SatMeas.w).sum

def residual (l : List SatMeas) (m : SatMeas) : Nat := (m.z - clockOf l m.sys).natAbs

/-- (r / σ)² of a measurement (R162), with r in 2^-16 ns and the weight in the units of `SatMeas`. -/
def normResidual (l : List SatMeas) (m : SatMeas) : Nat := residual l m * residual l m * m.w

/-- The clock unknowns S (R162). -/
def unknowns (l : List SatMeas) : Nat := ((List.range 5).filter fun y => l.any fun m => m.sys = y).length

/-- q against the chi-square threshold for n − S degrees of freedom (R162 step 1); without any there is no test. -/
def testOk (s : State) (l : List SatMeas) : Bool :=
  let n := l.length - unknowns l
  n = 0 || decide ((l.map (normResidual l)).sum * 1000 ≤ Config.chi2 n (rf s Rg.gbbFde 3 0) * 9 * 2 ^ 80)

/-- The satellite to exclude (R162 step 2): of those whose removal passes the test, the one with the largest normalised
    residual. Log entry 15. -/
def exclusion (s : State) (ref : Nat) (l : List SatMeas) : Option SatMeas :=
  (l.filter fun m => testOk s (twoSats ref (l.erase m))).foldl (fun (b : Option SatMeas) m => match b with
    | some k => if normResidual l k < normResidual l m then some m else b
    | none => some m) none

/-- Fault detection and exclusion (R162): what stays in, what goes out, and whether a fault is left. -/
def fde (s : State) (ref : Nat) : Nat → List SatMeas → List SatMeas × List SatMeas × Bool
  | k, l =>
    if testOk s l then (l, [], false)
    else match k with
      | 0 => (l, [], true)
      | k + 1 =>
        if l.length < unknowns l + 2 then (l, [], true)
        else match exclusion s ref l with
          | some m => let (r, out, bad) := fde s ref k (twoSats ref (l.erase m)); (r, m :: out, bad)
          | none => (l, [], true)

/-- The integer square root by bits, saturating at 32 bits. -/
def rootBits (v : Nat) : Nat := (List.range 32).foldl (fun r i => if (r + 2 ^ (31 - i)) * (r + 2 ^ (31 - i)) ≤ v then r + 2 ^ (31 - i) else r) 0

/-- Select, correct, solve and check (R160). In SURVEY mode three satellites more than the clock unknowns are needed.
    Log entry 15. -/
def solve (s : State) (w : SolWork) (g : Bool) (x : SolIn) : Solved :=
  let ref := tsRef s g
  let (l, out, fault) := fde s ref (rf s Rg.gbbFde 10 8) (twoSats ref (solMeas s w g x))
  { ok := l.any (fun m => m.sys = ref) && ((group s g).fixed || decide (unknowns l + 3 ≤ l.length)), used := l, out := out,
    fault := fault, clock := clockOf l ref }

/-- σ_t in ps, rounded up (R165): the clock's formal deviation, with the position's share in SURVEY mode. -/
def Solved.sigma (v : Solved) (ref : Nat) (fixed : Bool) (x : SolIn) : Nat :=
  let w := ((v.used.filter fun m => m.sys = ref).map SatMeas.w).sum
  rootBits (ceilDiv (9000000 * 2 ^ 48) w + (if fixed then 0 else x.posVar)) + 1

/-- The RMS of the residuals in ps. -/
def Solved.rms (v : Solved) : Nat :=
  rootBits ((v.used.map fun m => residual v.used m * residual v.used m).sum * 1000000 / (2 ^ 32 * v.used.length))

/-- The integrity state of a solution (R163). Log entry 15. -/
def integrityOf (s : State) (g : Bool) (v : Solved) : Nat :=
  let n := v.used.length
  let k := unknowns v.used
  if !v.ok || v.fault then 3
  else if !(group s g).fixed && rb s (grpCfg g) 13 then 2
  else if n = k then 2
  else if n = k + 1 then 1 else 0

/-- o of R164 in 2^-16 ns: the clock with SOL_TS_OFFSET. -/
def solOffset (s : State) (g : Bool) (v : Solved) : Int :=
  v.clock + roundDiv (sInt 32 (calWord s g 10) * 65536) 1000

/-- B_m of R165 in 2^-16 ns, rounded up: K_B × σ_t / 16, U_cal, U_sys in ps, and the position's uncertainty over c.
    Log entry 15. -/
def solBound (s : State) (g : Bool) (sigmaPs : Nat) (x : SolIn) : Nat :=
  let mm := if (group s g).fixed then calWord s g 3 else x.unc
  let c := 299792458
  ceilDiv ((((getW s Rg.gbbKb).toNat * sigmaPs + 16 * (calWord s g 1 + calWord s g 2)) * c + 16 * mm * 1000000000) * 65536)
    (16 * c * 1000)

/-- An exclusion by the firmware (R162). -/
def fwExclude (g : Bool) (s : State) (v : Nat × Nat) : State :=
  let e : Excl := { group := g, sys := v.1, sv := v.2, host := false, until_ := s.now + ticksS (rf s Rg.gbbFde 31 16) }
  if isExcl s g v.1 v.2 then s else
  let s := perfAdd (modGbb s fun b => { b with excl := b.excl ++ [e] }) 482 1
  emit s .gbb 0x0002 .notice (flag g 0 + v.1 * 16 + v.2 * 256 + 2 ^ 16) (some 2)

/-- Words 3 to 9 of a group's calibration take a position (R168, R173). -/
def putPos (s : State) (g : Bool) (p : Pos) : State :=
  let b := if g then 16 else 0
  let put := fun (s : State) (w v : Nat) => putW s (indKey .gbb 3 (b + w)) (BitVec.ofNat 32 v)
  let put64 := fun (s : State) (w : Nat) (v : Int) => put (put s w (uInt 64 v % 2 ^ 32)) (w + 1) (uInt 64 v / 2 ^ 32)
  put64 (put64 (put64 (put s 3 (sat32 p.unc)) 4 p.x) 6 p.y) 8 p.z

/-- A survey takes a solution's position, and may end with it (R168): the mean of its positions is written, with the
    present uncertainty. Log entry 15. -/
def surveyEnd (s : State) (g : Bool) (ok : Bool) (x : SolIn) : State :=
  let k := group s g
  let t := (s.now - k.surveyAt) / ticksS 1
  let acc := decide (x.unc ≤ (getW s Rg.gbbSurveyAcc).toNat)
  if k.fixed || k.nextFixed || !ok then s
  else
    let (sx, sy, sz) := k.surveySum
    let n := k.surveyN + 1
    let (sx, sy, sz) := (sx + x.x, sy + x.y, sz + x.z)
    let s := modGroup s g fun k => { k with surveySum := (sx, sy, sz), surveyN := n }
    if (decide ((getW s Rg.gbbSurveyMin).toNat ≤ t) && acc) || decide ((getW s Rg.gbbSurveyMax).toNat ≤ t) then
      let s := putPos s g { x := roundDiv sx n, y := roundDiv sy n, z := roundDiv sz n, unc := x.unc }
      emit (modGroup s g fun k => { k with nextFixed := true }) .gbb 0x0003 .notice
        (flag g 0 + flag acc 1 + sat32 x.unc * 2 ^ 32) (some 3)
    else s

/-- A host exclusion or release of a satellite takes effect for a group (R162, R173). -/
def hostExclude (g : Bool) (s : State) (v : Nat × Nat × Bool) : State :=
  let (sys, sv, on) := v
  let mine := fun (e : Excl) => e.group = g && e.sys = sys && e.sv = sv
  let had := s.gbb.excl.any fun e => mine e && e.host
  let s' := modGbb s fun b =>
    { b with excl := b.excl.filter (fun e => !mine e) ++
      (if on then [{ group := g, sys := sys, sv := sv, host := true, until_ := 0 }] else []) }
  if had = on then s
  else emit (if on then perfAdd s' 482 1 else s') .gbb 0x0002 .notice (flag g 0 + sys * 16 + sv * 256 + flag on 16 + 2 ^ 17) (some 2)

/-- What waits for the next whole-second latch applies (R168, R172), and a solution begins for each running group; one
    still unfinished is dropped (R166). -/
def groupLatch (seq : BitVec 32) (coast : Bool) (s : State) (g : Bool) : State :=
  let s := match (group s g).work with
    | some w => emit (modGroup s g fun k => { k with work := none }) .gbb 0x0007 .notice (flag g 0 + w.seq.toNat * 2 ^ 32) (some 4)
    | none => s
  let s := match (group s g).nextPos with
    | some p => putPos (modGroup s g fun k => { k with nextPos := none }) g p
    | none => s
  modGroup s g fun k =>
    { k with fixed := k.fixed || k.nextFixed, nextFixed := false,
             work := if k.running then some { seq := seq, tick := s.now, instant := subNs (stampCounter s 33 0 0), coast := coast } else none }

/-- The changes of a group that wait for this whole-second latch reach its record too (R172). -/
def groupChanges (s : State) (g : Bool) : State :=
  (group s g).nextExcl.foldl (hostExclude g) (modGroup s g fun k => { k with nextExcl := [] })

/-! ## Channel assignment and sky searches by the firmware (R140, R143) -/

/-- A running group whose channels the firmware assigns (R143 AUTO). -/
def autoOn (s : State) (g : Bool) : Bool := gbbFw s && rb s Rg.gbbCtrl 1 && (group s g).running

/-- The enabled signals of a group with the first of its live ports that receives each (R143, R175 SYSTEMS). -/
def groupSignals (s : State) (g : Bool) : List (Nat × SigDef × Fin 4) :=
  (List.range 80).filterMap fun id =>
    match sigOf id with
    | some d =>
      if (getW s (grpCfg g)).getLsbD (8 + id / 16) then
        ((List.finRange 4).find? fun p => portLive s p && rb s (Rg.gbbPortCfg0 + 4 * p.val) 4 = g && receivable s p.val d).map
          fun p => (id, d, p)
      else none
    | none => none

/-- The elevation that a held ephemeris or almanac predicts; none where time is unknown (R143). Log entry 68. -/
def predicted (s : State) (g : Bool) (sys sv : Nat) : Option Int :=
  if s.tco.st = .night then none else
  let (x, y, z) := grpPos s g
  (s.gbb.params.find? fun p => p.sys = sys && p.sv = sv && (p.kind = .ephemeris || p.kind = .almanac)).map fun p =>
    Config.elevation p.data x y z (secOf s.tco.counter)

def elInsert (v : Int × Nat × Nat) : List (Int × Nat × Nat) → List (Int × Nat × Nat)
  | [] => [v]
  | x :: r => if x.1 < v.1 then v :: x :: r else x :: elInsert v r

/-- Satellites predicted above the elevation mask, in order of descending elevation (R143): elevation, system, SV. -/
def candidates (s : State) (g : Bool) : List (Int × Nat × Nat) :=
  ((List.range 5).flatMap fun sys => (List.range (svRange sys).2).filterMap fun i =>
    let sv := (svRange sys).1 + i
    match predicted s g sys sv with
    | some e => if (rf s (grpCfg g) 23 16 * 1000 : Nat) < e then some (e, sys, sv) else none
    | none => none).foldl (fun l v => elInsert v l) []

/-- Signals of a satellite that take channels together (R143 step 2): a dual-frequency pair, or one signal. -/
def chanUnits (sys : Nat) (l : List (Nat × SigDef × Fin 4)) : List (List (Nat × SigDef × Fin 4)) :=
  match (pairsOf sys).find? fun p => l.any (fun x => x.1 = p.1) && l.any (fun x => x.1 = p.2) with
  | some p => l.filter (fun x => x.1 = p.1 || x.1 = p.2) :: (l.filter fun x => x.1 ≠ p.1 && x.1 ≠ p.2).map fun x => [x]
  | none => l.map fun x => [x]

/-- A satellite's signals that have no channel get them (R143). -/
def assignSv (g : Bool) (s : State) (v : Int × Nat × Nat) : State :=
  let free := (groupSignals s g).filter fun x =>
    x.1 / 16 = v.2.1 && (findChan s x.2.2 (BitVec.ofNat 8 x.1) (BitVec.ofNat 8 v.2.2) (fun c => c.st != .idle)).isNone
  (chanUnits v.2.1 free).foldl (fun s u =>
    if ((List.range 512).filter fun i => (chan s i).st = .idle).length < u.length then s
    else u.foldl (fun s x => match freeChan s with
      | some i => setChan s i (newChan s x.2.2 (BitVec.ofNat 8 x.1) (BitVec.ofNat 8 v.2.2) .acquire false)
      | none => s) s) s

/-- A search of the firmware, with the defaults of R137. -/
def fwSearch (signal : Nat) (d : SigDef) (port : Fin 4) (centre : Int) (half : Nat) (mask : BitVec 64) : Search :=
  { host := none, addr := 0, len := 0, port := port, signal := BitVec.ofNat 8 signal, tCoh := max 1 d.codeMs, nNc := 8, thresh := 40,
    assign := true, centre := centre, half := half, bin := 0, mask := mask }

/-- An SV that the firmware looks for on a signal: its channel is in ACQUIRE, or it has neither a prediction nor a
    channel (R143 step 3, R144). -/
def soughtSv (s : State) (g : Bool) (x : Nat × SigDef × Fin 4) (sv : Nat) : Bool :=
  let sig := BitVec.ofNat 8 x.1
  (findChan s x.2.2 sig (BitVec.ofNat 8 sv) (fun c => c.st = .acquire)).isSome ||
    ((predicted s g (x.1 / 16) sv).isNone && (findChan s x.2.2 sig (BitVec.ofNat 8 sv) (fun c => c.st != .idle)).isNone)

/-- The Doppler in Hz at which a satellite's channel on the L1 band places a search on another carrier. -/
def scaledDoppler (s : State) (sys sv : Nat) (d : SigDef) : Option Int :=
  (s.gbb.chans.find? fun e => e.2.st.tracks && sysOf e.2.signal = sys && e.2.sv.toNat = sv &&
      (match sigOf e.2.signal.toNat with | some b => decide (1500000 < b.carrier) | none => false)).map fun e =>
    roundDiv (e.2.doppler.toInt * d.carrier) (256 * 1575420)

/-- The firmware's searches for one signal (R140, R143): a blind one over the L1 band, and for a second band one for each
    satellite found. Log entry 68. -/
def searchSignal (g : Bool) (s : State) (x : Nat × SigDef × Fin 4) : State :=
  let (id, d, port) := x
  let sys := id / 16
  let waits := fun (m : BitVec 64) (s : State) => s.gbb.searches.any fun y => y.host.isNone && y.port = port && y.signal.toNat = id && y.mask = m
  let put := fun (s : State) (y : Search) => if searchesFull s || waits y.mask s || y.mask = 0 then s else queueSearch s y
  let svs := (List.range (svRange sys).2).filter fun i => soughtSv s g x ((svRange sys).1 + i)
  if 1500000 < d.carrier || sys = 4 then put s (fwSearch id d port 0 5000 (BitVec.ofNat 64 (svs.map fun i => 2 ^ i).sum))
  else svs.foldl (fun s i => match scaledDoppler s sys ((svRange sys).1 + i) d with
    | some c => put s (fwSearch id d port c 50 (BitVec.ofNat 64 (2 ^ i)))
    | none => s) s

/-- The firmware's channel work for a group, at its start and at each whole-second latch (R143). Log entry 68. -/
def autoAssign (s : State) (g : Bool) : State :=
  if !autoOn s g then s else
  let s := (candidates s g).foldl (assignSv g) s
  (groupSignals s g).foldl (searchSignal g) s

end Sys2Proof.Machine
end

