-- ==== Sys2Proof/Machine/Gbb.lean ====
section
/-! DEFINITION. The commands and events of the GNSS baseband (04_gnss_baseband.md R127 to R176). -/
namespace Sys2Proof.Machine

/-! ## Ports, searches and channels -/

/-- A port fails (R135): every channel on it goes to LOST with cause 4. -/
def portChannelsLost (s : State) (port : Fin 4) : State :=
  (s.gbb.chans.map Prod.fst).foldl (fun s i =>
    let c := chan s i
    if c.port = port && c.st != .idle then loseChan s i 4 else s) s

/-- GSP_PORT_FAIL (R135): no clock edge for 1 µs, or the rate measured over 10 ms, which fails the port where it differs
    from the nominal rate by more than 200 ppm and is only shown otherwise. Log entry 67. -/
def execGspPortFail (port : Fin 4) (rate : Bool) (rateHz : BitVec 32) (s : State) : Ans :=
  .next (
    let k := gspPort s port
    if !gbbOn s || !rb s (Rg.gbbPortCfg0 + 4 * port.val) 0 then s
    else if rate && !rateOff s port rateHz.toNat then
      modGbb s fun g => { g with ports := vset g.ports port.val { k with rateKhz := rateHz.toNat / 1000 } }
    else
      let s := modGbb s fun g =>
        { g with ports := vset g.ports port.val { failed := true, rateKhz := rateHz.toNat / 1000, cleanAt := some s.now },
                 latchPortFail := true }
      if k.failed then s else
      let s := portChannelsLost s port
      if rate then emit s .gbb 0x0006 .degraded (port.val + rateHz.toNat * 2 ^ 32) (some 1)
      else emit s .gbb 0x0004 .degraded port.val (some 1))

/-- GSP_CLK_OK (R135): 100 ms without either condition. -/
def execGspClkOk (port : Fin 4) (rateHz : BitVec 32) (s : State) : Ans :=
  .next (
    let k := gspPort s port
    match k.cleanAt with
    | some t =>
      if gbbOn s && k.failed && decide (t + ticksMs 100 ≤ s.now) && !rateOff s port rateHz.toNat then
        let s := modGbb s fun g =>
          { g with ports := vset g.ports port.val { failed := false, rateKhz := rateHz.toNat / 1000, cleanAt := none } }
        emit s .gbb 0x0005 .notice port.val (some 1)
      else s
    | none => s)

/-- Hits in order of their metric, strongest first. -/
def hitInsert (h : GnssHit) : List GnssHit → List GnssHit
  | [] => [h]
  | x :: r => if x.metric.toNat < h.metric.toNat then h :: x :: r else x :: hitInsert h r

def hitSort (l : List GnssHit) : List GnssHit := l.foldl (fun a h => hitInsert h a) []

/-- A hit entry of R141. -/
def hitBytes (h : GnssHit) (chan : Option Nat) : List Byte :=
  [h.sv, 0] ++ leBytes 2 h.metric.toNat ++ leBytes 4 h.code.toNat ++ leBytes 4 h.doppler.toNat ++
  leBytes 2 (chan.getD 0xFFFF) ++ [0, 0]

/-- Hands each hit to a channel and forms the hit entries. -/
def takeHits (s : State) (port : Fin 4) (signal : BitVec 8) (assign once : Bool) (l : List GnssHit) : State × List Byte :=
  l.foldl (fun p h =>
    let (s, c) := if assign then assignHit p.1 port signal h once else (p.1, none)
    (s, p.2 ++ hitBytes h c)) (s, [])

/-- ACQ_SEARCH_DONE (R138 to R141): the running search ends, of the host or of the firmware; `rise` and `fall` are what
    its port brought at the rising edges of the sample clock and at the falling edge after each. A search that the firmware issued for a group no
    longer assigns when AUTO is off or core 1 halted. Log entry 67. -/
def execAcqSearchDone (rise fall : List (BitVec 4)) (s : State) : Ans :=
  .next (
    match s.gbb.searches with
    | [] => s
    | x :: rest =>
      if !gbbOn s || decide (s.now < s.gbb.searchEnd) then s else
      let l := hitSort (searchHits s x rise fall)
      let s := modGbb s fun g => { g with searches := rest,
                                          searchEnd := match rest with | y :: _ => g.searchEnd + ticksUs (searchUs y) | [] => g.searchEnd }
      let s := perfAdd (perfAdd s 478 1) 479 (searchPasses x)
      let once := x.host.isNone
      let (s, bytes) := takeHits s x.port x.signal (x.assign && (!once || autoOn s (rb s (Rg.gbbPortCfg0 + 4 * x.port.val) 4))) once l
      let room := (x.len.toNat - 32) / 16 * 16
      let s := if l.isEmpty || room = 0 then s else hostDma s (x.addr.toNat + 32) (bytes.take room)
      match x.host with
      | some hd => complete s hd 0x42 Status.ok 8 (pack [(0, l.length), (2, searchPasses x % 65536), (4, sat32 (searchUs x))])
      | none => s)

/-- CARRIER_LOCK (R144, R145): the phase-lock indicator has stayed at or above 0.8 over 100 ms in PULL_IN. Log entry 68. -/
def execCarrierLock (obs : LockObs) (s : State) : Ans :=
  .next (
    let c := Machine.chan s obs.chan.val
    match sigOf c.signal.toNat with
    | some d =>
      if gbbOn s && c.st = .pullIn && portLive s c.port && decide (800 ≤ obs.ind) && decide (100 ≤ obs.ms) then
        let c := loopTo s d true obs.raw (16 * s.now) { c with st := .track, lockAt := s.now, fails := 0, reacq := false }
        fixReady (setChan s obs.chan.val c) obs.chan.val
      else s
    | none => s)

/-- PULL_IN_TIMEOUT (R144, R172): 500 ms without lock. A reacquisition attempt falls back to LOST; otherwise the third
    consecutive failure gives up. Log entry 68. -/
def execPullInTimeout (chan : Fin 512) (s : State) : Ans :=
  .next (
    let c := Machine.chan s chan.val
    if gbbOn s && c.st = .pullIn && decide (c.pullAt + ticksMs 500 ≤ s.now) && !lockWaits s chan.val then
      if c.reacq then setChan s chan.val { c with st := .lost, reacq := false }
      else if 2 ≤ c.fails then setChan s chan.val { Chan.idle with cause := c.cause }
      else setChan s chan.val { c with st := .acquire, fails := c.fails + 1 }
    else s)

/-- The cause of a loss (R145): 1 an indicator below 0.5 for 200 ms, 2 a C/N0 below CN0_LOSS for 500 ms; none otherwise. -/
def chanLossCause (s : State) (x : LossObs) : Option (BitVec 8) :=
  if x.ind < 500 && decide (200 ≤ x.indMs) then some 1
  else if x.cn0 < rf s Rg.gbbTrack 7 0 * 100 && decide (500 ≤ x.cn0Ms) then some 2 else none

/-- CHANNEL_LOSS (R145). -/
def execChannelLoss (chan : Fin 512) (obs : LossObs) (s : State) : Ans :=
  .next (match chanLossCause s obs with
    | some k => if gbbOn s && (Machine.chan s chan.val).st.tracks then loseChan s chan.val k else s
    | none => s)

/-- REACQ_TIMEOUT (R145, R172): REACQ_TO has passed in LOST, also while an attempt runs. -/
def execReacqTimeout (chan : Fin 512) (s : State) : Ans :=
  .next (
    let c := Machine.chan s chan.val
    let lost := c.st = .lost || (c.st = .pullIn && c.reacq && !lockWaits s chan.val)
    if gbbOn s && lost && decide (c.lostAt + ticksS (rf s Rg.gbbTrack 31 24) ≤ s.now) then
      setChan s chan.val { Chan.idle with cause := c.cause }
    else s)

/-- A transmit time whose whole milliseconds become known (R144, R152). -/
def wholeMs (c : Chan) (ms : Nat) : Int := c.txEdge % (2 ^ 32 : Nat) + ms * (2 ^ 32 : Nat)

/-- SYMBOL_SYNC (R144): the milliseconds are those of the transmit time within its symbol or secondary code. -/
def execSymbolSync (obs : ChanMs) (s : State) : Ans :=
  .next (
    let c := Machine.chan s obs.chan.val
    if gbbOn s && c.st = .track then setChan s obs.chan.val { c with st := .sync, txEdge := wholeMs c obs.ms } else s)

/-- TOW_DECODED (R144): the milliseconds are those of the week of the transmit time. -/
def execTowDecoded (obs : ChanMs) (s : State) : Ans :=
  .next (
    let c := Machine.chan s obs.chan.val
    if gbbFw s && c.st = .sync then
      setChan s obs.chan.val { c with st := .ready, txEdge := wholeMs c (obs.ms % 604800000) } else s)

/-! ## The latch, pages and solutions -/

/-- Latches per second in force (R148). -/
def latchRate (s : State) : Nat :=
  match s.gbb.latchDiv.toNat with | 0 => 1 | 1 => 2 | 2 => 5 | _ => 10

/-- A latch instant has fired (R149). Log entry 67. -/
def latchFired (s : State) (b : Nat) : Bool :=
  s.gbb.latched.any fun r => r.2.1 ≤ b && b ≤ r.2.2 && (b - r.2.1) % r.1 = 0

/-- A latch instant enters the runs of those that have fired. Log entry 67. -/
def latchRun (step b : Nat) (l : List (Nat × Nat × Nat)) : List (Nat × Nat × Nat) :=
  match l with
  | (d, lo, hi) :: r => if d = step ∧ hi + step = b then (d, lo, b) :: r else (step, b, b) :: l
  | [] => [(step, b, b)]

/-- The slip flag stands for the next latch record only (R145). Log entry 67. -/
def slipsClear (s : State) : State :=
  modGbb s fun g => { g with chans := g.chans.map fun p => (p.1, if p.2.st.tracks then { p.2 with slip := false } else p.2) }

/-- MEAS_LATCH (R143, R148 to R151, R172): every tracking channel at the last latch instant that the counter has reached and that
    has not fired. Log entry 67. -/
def execMeasLatch (obs : List ChanObs) (s : State) : Ans :=
  .next (
    let step := 1000000000 / latchRate s
    let b := totNs s.tco.counter / step * step
    let due := match s.gbb.lastLatch with | some l => decide (l < b) && !latchFired s b | none => false
    if !gbbOn s || !due then s else
    let sec := b / 1000000000 * 1000000000
    let whole := match s.gbb.lastLatch with
      | some l => decide (l < sec) && !latchFired s sec
      | none => false
    let s := fixReadyAll (obs.foldl observe (slipsClear s))
    let s := if whole && coreUp s 1 then groupChanges (groupChanges s false) true else s
    let ts := stampTs s 33 0 0
    let seq := s.gbb.latchSeq
    let r : LatchRec :=
      { tick := s.now, instant := ts, seq := seq, whole := whole, coast := unitCoast s 33, step := s.gbb.latchStep,
        portFail := s.gbb.latchPortFail, entries := (s.gbb.chans.filter fun p => p.2.st.tracks).map (latchEntry s) }
    let s := modGbb s fun g =>
      { g with latches := r :: g.latches.take 15, latchSeq := seq + 1, lastLatch := some b,
               latched := latchRun step b g.latched, lastLatchTs := ts,
               latchStep := false, latchPortFail := false,
               latchDiv := if whole then BitVec.ofNat 2 (rf s Rg.gbbCtrl 3 2) else g.latchDiv }
    let s := perfAdd s 480 1
    let s := if whole && coreUp s 1 then groupLatch seq r.coast (groupLatch seq r.coast s false) true else s
    let s := reacquire s
    if whole then fixReadyAll (autoAssign (autoAssign s false) true) else s)

/-- NAV_PAGE (R153 to R158): a page that fails its check is discarded and counted. Log entry 14. -/
def execNavPage (chan : Fin 512) (page : NavIn) (s : State) : Ans :=
  .next (
    let c := Machine.chan s chan.val
    if !gbbFw s || !(c.st = .sync || c.st = .ready) then s
    else if pageOk c.signal page then takePage s c.signal c.sv (BitVec.ofNat 16 chan.val) false page
    else
      let s := modGbb s fun g => { g with pagesBad := g.pagesBad + 1 }
      match sigOf c.signal.toNat with | some d => perfAdd s (463 + d.idx) 1 | none => s)

/-- A solution's figures for SOL_QUERY (R173); one that failed keeps the offset and the bound of the one before. Log entry 15. -/
def solRecord (s : State) (g : Bool) (w : SolWork) (v : Solved) (integ : Nat) (o : Int) (bm sigma : Nat) : Option Sol :=
  let out := (s.gbb.excl.filter fun e => e.group = g).length
  if v.ok then
    some { o := o, bm := bm, sigmaPs := sigma, integrity := integ, used := v.used.length, excluded := out,
           systems := ((v.used.map SatMeas.sys).eraseDups.map fun y => 2 ^ y).sum, latchSeq := w.seq, rmsPs := v.rms }
  else (group s g).last.map fun r => { r with integrity := integ, used := 0, excluded := out, systems := 0, latchSeq := w.seq }

/-- SOLUTION_DONE (R160 to R168): selection, correction, solution, check, integrity, bound and offset; delivered to REFS
    within 400 ms of its latch. -/
def execSolutionDone (group : Bool) (sol : SolIn) (s : State) : Ans :=
  .next (
    let k := Machine.group s group
    match k.work with
    | none => s
    | some w =>
      if !gbbFw s then s else
      let v := solve s w group sol
      let s := (v.out.map fun m => (m.sys, m.sv)).foldl (fwExclude group) s
      let integ := integrityOf s group v
      let sigma := v.sigma (tsRef s group) k.fixed sol
      let o := solOffset s group v
      let bm := solBound s group sigma sol
      let last := solRecord s group w v integ o bm sigma
      let s := modGroup s group fun k =>
        { k with work := none, last := last, usedSv := v.used.map fun m => (m.sys, m.sv), integrity := integ }
      let s := if integ = k.integrity then s
        else emit s .gbb 0x0001 .notice (flag group 0 + k.integrity * 16 + integ * 256 + flag k.fixed 12) (some 0)
      let valid := decide (integ ≤ 2) && !w.coast && (k.fixed || rb s (grpCfg group) 13)
      let s := surveyEnd s group v.ok sol
      if safe s .gbb || decide (w.tick + ticksMs 400 < s.now) then s
      else
        let i : Fin 16 := if group then 1 else 0
        let s := advertise (perfAdd s 481 1) i (gnssRank integ)
        if v.ok then measure s i o w.tick bm valid else s)

/-- EXCL_HOLD_EXPIRY (R162): the satellite is readmitted. -/
def execExclHoldExpiry (group : Bool) (sys sv : Nat) (s : State) : Ans :=
  .next (
    let mine := fun (e : Excl) => e.group = group && e.sys = sys && e.sv = sv && !e.host && decide (e.until_ ≤ s.now)
    if gbbFw s && s.gbb.excl.any mine then
      emit (modGbb s fun g => { g with excl := g.excl.filter fun e => !mine e }) .gbb 0x0002 .notice
        (flag group 0 + sys * 16 + sv * 256) (some 2)
    else s)

/-! ## Commands (R173) -/

/-- The start of a group (R169): 1 HOT, 2 WARM, 3 COLD, no warmer than the command allows. Log entry 68. -/
def startOf (s : State) (g : Bool) (kind : Nat) : Nat :=
  let systems := rf s (grpCfg g) 12 8
  let usable := s.gbb.params.filter fun p =>
    p.kind = .ephemeris && decide (p.sys < 5) && systems.testBit p.sys && !isExcl s g p.sys p.sv
  let natural :=
    if 4 ≤ usable.length && (group s g).fixed && timeClose s then 1
    else if s.gbb.params.any (fun p => p.kind = .almanac) && s.tco.st != .night && s.tco.teb != unboundedTeb then 2
    else 3
  max natural (if kind = 0 then 1 else kind + 1)

/-- GNSS_START (R169). Log entry 68. -/
def execGnssStart (hd : Hdr) (mask kind : BitVec 8) (s : State) : Ans :=
  cmd s hd 0x40 (badIf (mask = 0 || decide (3 < mask.toNat) || decide (2 < kind.toNat))) fun s =>
    let named := fun g : Bool => mask.getLsbD (if g then 1 else 0)
    if !rb s Rg.gbbCtrl 0 || (named false && (group s false).running) || (named true && (group s true).running) then
      fin s hd 0x40 Status.state
    else
      let go := fun (p : State × Nat) (g : Bool) =>
        if named g then
          let st := startOf p.1 g kind.toNat
          (autoAssign (modGroup p.1 g fun k =>
              { k with running := true, start := st, surveyAt := p.1.now, surveySum := (0, 0, 0), surveyN := 0, work := none }) g,
            p.2 + st * (if g then 256 else 1))
        else p
      let (s, r) := go (go (s, 0) false) true
      complete s hd 0x40 Status.ok 2 r

/-- GNSS_STOP (R172): the record of a latch stays, no solution is formed. Log entry 68. -/
def execGnssStop (hd : Hdr) (mask : BitVec 8) (s : State) : Ans :=
  cmd s hd 0x41 (badIf (decide (3 < mask.toNat))) fun s =>
    let named := fun g : Bool => mask.getLsbD (if g then 1 else 0) && (group s g).running
    if !named false && !named true then fin s hd 0x41 Status.state
    else
      let stop := fun (s : State) (g : Bool) =>
        if mask.getLsbD (if g then 1 else 0) then modGroup s g fun k => { k with running := false, work := none } else s
      fin (stop (stop s false) true) hd 0x41 Status.ok

/-- ACQ_SEARCH (R134, R137, R140, R141): one search runs and at most 16 wait. -/
def execAcqSearch (hd : Hdr) (addr : BitVec 64) (len : BitVec 32) (req : BitVec 256) (s : State) : Ans :=
  let x := searchReq s hd addr len req
  cmd s hd 0x42 (badIf x.isNone) fun s =>
    match x with
    | none => s
    | some x =>
      if searchesFull s then fin s hd 0x42 Status.busy else queueSearch s x

/-- CHAN_PIN (R143, R173). Log entry 68. -/
def execChanPin (hd : Hdr) (port signal sv on : BitVec 8) (s : State) : Ans :=
  let okSig := match sigOf signal.toNat with | some d => receivable s port.toNat d | none => false
  cmd s hd 0x43 (badIf (decide (3 < port.toNat) || decide (1 < on.toNat) || !okSig || !svOk (sysOf signal) sv.toNat)) fun s =>
    let p : Fin 4 := Fin.ofNat 4 port.toNat
    if on = 1 then
      match findChan s p signal sv (fun c => c.st != .idle) with
      | some i => complete (setChan s i { chan s i with pinned := true }) hd 0x43 Status.ok 2 i
      | none => match freeChan s with
        | some i => complete (setChan s i (newChan s p signal sv .acquire true)) hd 0x43 Status.ok 2 i
        | none => fin s hd 0x43 Status.busy
    else match findChan s p signal sv (fun c => c.pinned) with
      | some i => complete (setChan s i { Chan.idle with cause := 3 }) hd 0x43 Status.ok 2 i
      | none => fin s hd 0x43 Status.notFound

/-- MEAS_READ (R150, R151). -/
def execMeasRead (hd : Hdr) (seq : BitVec 32) (addr : BitVec 64) (len : BitVec 32) (s : State) : Ans :=
  let r := if seq = 0xFFFFFFFF then s.gbb.latches.head? else s.gbb.latches.find? fun r => r.seq = seq
  cmd s hd 0x44 (match r with
      | none => some Status.notFound
      | some r => badIf (decide (len.toNat < r.length))) fun s =>
    match r with
    | none => s
    | some r => complete (hostDma s addr.toNat r.bytes) hd 0x44 Status.ok 8 (pack [(0, r.seq.toNat), (4, r.length)])

/-- NAV_READ (R155, R172): pages from a PSEQ on; those below the next-sequence value that the ring no longer holds are
    lost. Log entry 68. -/
def execNavRead (hd : Hdr) (first : BitVec 32) (count : BitVec 16) (addr : BitVec 64) (s : State) : Ans :=
  cmd s hd 0x45 none fun s =>
    let d := (s.gbb.pseq - first).toNat
    let ahead := if 2 ^ 31 ≤ d then 0 else d
    let held := min ahead s.gbb.pages.length
    let l := (s.gbb.pages.drop (s.gbb.pages.length - held)).take count.toNat
    let next := if held = 0 then first + BitVec.ofNat 32 (ahead - held)
      else s.gbb.pseq - BitVec.ofNat 32 held + BitVec.ofNat 32 l.length
    let s := if l.isEmpty then s else hostDma s addr.toNat (l.map Page.bytes).flatten
    complete s hd 0x45 Status.ok 12 (pack [(0, l.length), (4, next.toNat), (8, ahead - held)])

/-- NAV_INJECT (R156): each page is checked as a broadcast page. Log entry 14. -/
def execNavInject (hd : Hdr) (pages : List NavInject) (s : State) : Ans :=
  cmd s hd 0x46 none fun s =>
    if standbyHeld s then fin s hd 0x46 Status.state else
    let good := pages.filter injectOk
    let s := good.foldl inject s
    complete s hd 0x46 Status.ok 4 (pack [(0, good.length), (2, pages.length - good.length)])

/-- POS_SET (R172, R173): from the next whole-second latch while a solution is in progress. -/
def execPosSet (hd : Hdr) (group : BitVec 8) (x y z : BitVec 64) (unc : BitVec 32) (s : State) : Ans :=
  cmd s hd 0x47 (badIf (decide (1 < group.toNat))) fun s =>
    let g := group = 1
    let p : Pos := { x := x.toInt, y := y.toInt, z := z.toInt, unc := unc.toNat }
    fin (if (Machine.group s g).work.isSome then modGroup s g fun k => { k with nextPos := some p } else putPos s g p)
      hd 0x47 Status.ok

/-- SURVEY_START (R168). -/
def execSurveyStart (hd : Hdr) (group : BitVec 8) (s : State) : Ans :=
  cmd s hd 0x48 (badIf (decide (1 < group.toNat))) fun s =>
    fin (modGroup s (group = 1) fun k => { k with fixed := false, nextFixed := false, surveyAt := s.now, surveySum := (0, 0, 0), surveyN := 0 }) hd 0x48 Status.ok

/-- SOL_QUERY (R165, R173): B_m is rounded up to its unit. -/
def execSolQuery (hd : Hdr) (group : BitVec 8) (s : State) : Ans :=
  cmd s hd 0x49 (badIf (decide (1 < group.toNat))) fun s =>
    match (Machine.group s (group = 1)).last with
    | none => fin s hd 0x49 Status.notFound
    | some r => complete s hd 0x49 Status.ok 28 (pack [(0, uInt 64 r.o), (8, sat32 (ceilDiv (r.bm * 1000) 65536)),
        (12, sat32 r.sigmaPs), (16, r.integrity), (17, min 255 r.used), (18, min 255 r.excluded), (19, r.systems),
        (20, r.latchSeq.toNat), (24, sat32 r.rmsPs)])

/-- SV_EXCLUDE (R162, R172, R173): a host exclusion of both groups, until it is released; while a group's solution is in
    progress it waits for that group's next whole-second latch. Log entry 68. -/
def execSvExclude (hd : Hdr) (sys sv on : BitVec 8) (s : State) : Ans :=
  cmd s hd 0x4A (badIf (!svOk sys.toNat sv.toNat || decide (1 < on.toNat))) fun s =>
    let v := (sys.toNat, sv.toNat, decide (on = 1))
    let one := fun (s : State) (g : Bool) =>
      if (group s g).work.isSome then modGroup s g fun k => { k with nextExcl := k.nextExcl ++ [v] } else hostExclude g s v
    fin (one (one s false) true) hd 0x4A Status.ok

/-- GNSS_CLEAR (R173). Log entry 68. -/
def execGnssClear (hd : Hdr) (mask : BitVec 8) (s : State) : Ans :=
  cmd s hd 0x4B none fun s =>
    if (group s false).running || (group s true).running || standbyHeld s then fin s hd 0x4B Status.state
    else
      let gone := fun k : NavKind => match k with
        | .ephemeris => mask.getLsbD 0 | .almanac => mask.getLsbD 1 | .utc | .iono => mask.getLsbD 2
        | .clock | .groupDelay => false
      fin (modGbb s fun g => { g with params := g.params.filter fun p => !gone p.kind,
                                      utcs := if mask.getLsbD 2 then [] else g.utcs }) hd 0x4B Status.ok

end Sys2Proof.Machine
end

