-- ==== Sys2Proof/Machine/KeyOps.lean ====
section
/-! DEFINITION. The key store (11_key_store.md): filling slots, descendants and invalidation, derivation from the root,
statements, the tamper log and zeroisation. -/
namespace Sys2Proof.Machine

/-- The store as key operations see it: in KEY's safe state as though UNKEYED (R418). -/
def storeState (s : State) : StoreState := if safe s .key then .unkeyed else s.key.store

/-- Key operations of the pair run: the store is KEYED and served, and no tamper of this tick aborts them (R415, R418). -/
def keysRun (s : State) : Bool := storeState s = .keyed && keyServed s && !tamperWaits s

/-- Fills a slot (R394): GEN one above its last. -/
def fillSlot (s : State) (slot parent origin bits key : Nat) : State :=
  setSlot s slot { attr := newAttr s slot parent origin bits, key := key }

/-- A symmetric key of a LEN code, or a P-384 scalar, from a random number (R397). -/
def keyFrom (bits x : Nat) : Nat :=
  if bits.testBit 15 then x % (p384Order - 1) + 1 else x % 2 ^ (128 * fld bits 14 12)

def slotParent (k : KeySlot) : Nat := fld k.attr.toNat 23 16

/-- Slots one step below a set of slots. -/
def childrenOf (s : State) (l : List Nat) : List Nat :=
  (s.key.slots.filter fun p => p.2.valid && slotParent p.2 != 0 && l.contains (slotParent p.2) && !l.contains p.1).map Prod.fst

/-- A slot and every slot descended from it through PARENT (R401). -/
def familyN : Nat → State → List Nat → List Nat
  | 0, _, l => l
  | n + 1, s, l => let c := childrenOf s l; if c.isEmpty then l else familyN n s (l ++ c)

def keyFamily (s : State) (slot : Nat) : List Nat := familyN s.key.slots.length s [slot]

/-- The depth of a slot below the root (R398). -/
def keyDepth : Nat → State → Nat → Nat
  | 0, _, _ => 0
  | n + 1, s, slot => if slotParent (keySlot s slot) = 0 then 1 else 1 + keyDepth n s (slotParent (keySlot s slot))

/-- Begins an invalidation (R401): T_c is the first whole microsecond of the counter at least 2 µs ahead. Log entry 79. -/
def beginInval (s : State) (host : Option Hdr) (slot : Nat) : State :=
  let tc := ceilDiv (s.tco.counter + 2000 * 2 ^ 48) (1000 * 2 ^ 48) * 1000
  modKey s fun k => { k with inval := k.inval ++
    [{ host := host, named := BitVec.ofNat 8 slot, slots := keyFamily s slot, tc := tc, committed := false, zeroAt := tc + 2000, old := [] }] }

/-- Every cookie and security entry that names one of some slots is retired at the store's commit instant, `tc` in ns
    (R236, R273, R402). -/
def retireEntries (s : State) (tc : Nat) (hit : Nat → Bool) : State :=
  let s := (List.finRange 16).foldl (fun s i =>
    if s.svc.keys[i].st != .empty && hit s.svc.keys[i].slot.toNat then mirrorCookie (cookieRetire s i true tc) i false else s) s
  (List.finRange 64).foldl (fun s e =>
    if s.ptp.keys[e].st != .empty && hit s.ptp.keys[e].slot.toNat then mirrorSec (secRetire s e true tc) e false else s) s

/-- Slots show VALID = 0 (R401, R402). -/
def invalidate (s : State) (l : List Nat) : State :=
  l.foldl (fun s n => let k := keySlot s n; setSlot s n { k with attr := k.attr &&& 0xFFFFFBFF }) s

/-- The instant T_c of an invalidation as a stamp. -/
def tcStamp (s : State) (tc : Nat) : BitVec 128 :=
  mkTs128 (tc % (2 ^ 48 * 1000000000) * 2 ^ 48) (coasting s 0) s.tco.st s.tco.teb.toNat

/-- The commit of an invalidation, of the named slot and its descendants as they stand at T_c; their keys stay for the
    uses stamped before it (R401, R402). Log entry 79. -/
def commitInval (s : State) (v : Inval) : State :=
  let l := (keyFamily s v.named.toNat).filter fun n => (keySlot s n).valid
  let s := modKey s fun k => { k with inval := k.inval ++
    [{ v with host := none, slots := l, committed := true, old := l.map fun n => (n, keySlot s n) }] }
  let s := invalidate s l
  let s := modKey s fun k => { k with lastTc := tcStamp s v.tc }
  let s := emit s .key 0x0003 .notice
    (v.named.toNat + l.length * 65536 + (ts32Of (v.tc * 2 ^ 48)).toNat * 2 ^ 32) (some 2)
  let s := retireEntries s v.tc fun n => l.contains n
  match v.host with
  | some h => complete s h 0xB5 Status.ok 18 ((tcStamp s v.tc).toNat + l.length * 2 ^ 128)
  | none => s

/-- Zeroes the material of slots that are not VALID (R402). -/
def zeroMaterial (s : State) (l : List Nat) : State :=
  l.foldl (fun s n => let k := keySlot s n; if k.valid then s else setSlot s n { k with key := 0 }) s

/-- Slots 1 and 2 from the root (R393). -/
def deriveFixed (s : State) : State :=
  match s.key.root with
  | none => s
  | some r =>
    let id := beBytes 8 Config.identity.toNat
    let v := Config.kdf108 r.toNat (lblAttest ++ id) 64
    let d := v % (p384Order - 1) + 1
    let t := Config.kdf108 r.toNat (lblStore ++ id) 32
    let s := fillSlot s 1 0 2 (0x8000 + 0x3000 + 0x200 + 4) d
    modKey (fillSlot s 2 0 2 (0x2000 + 0x200 + 16) (t % 2 ^ 256)) fun k => { k with store := .keyed }

/-- Silicon stepping B, as Revision ID gives it (R426). -/
def stepping : Nat := 0x0B

/-- The bytes 0 to 175 of a statement (R404). -/
def statement (s : State) (kind : Nat) (peer : BitVec 64) (nonce nonce2 : List Byte) (slot attr : Nat) (keyref : List Byte) : List Byte :=
  leBytes 4 0x53574154 ++ [1, BitVec.ofNat 8 kind] ++ leBytes 2 272 ++ leBytes 8 Config.identity.toNat ++ leBytes 8 peer.toNat ++
  leBytes 4 s.ctl.fw.toNat ++ [BitVec.ofNat 8 stepping, s.key.floor] ++
  leBytes 2 (flag (s.key.logTotal != 0) 0 + flag (s.key.latch != 0) 1) ++ leBytes 16 (tsNow s).toNat ++ nonce ++ nonce2 ++
  [BitVec.ofNat 8 slot, 0, 0, 0] ++ leBytes 4 attr ++ keyref ++ List.replicate 8 0

/-- KEYREF of a slot (R404). -/
def keyRef (k : KeySlot) : List Byte :=
  if k.p384 then beBytes 48 (Config.sha384 (beBytes 97 (Config.p384Pub k.key)))
  else checkValue k ++ List.replicate 40 0

/-- A signature with a slot's key over bytes or a digest (R404, R420). -/
def signDigest (s : State) (slot digest : Nat) : List Byte × State :=
  let (x, s) := draw s
  (beBytes 96 (Config.p384Sign (keySlot s slot).key digest x), s)

/-! ## Tamper (R410 to R417) -/

/-- One detection enters the tamper log (R414). -/
def tamperLog (s : State) (source phase : Nat) : State :=
  let k := s.key
  let newest := (k.logNext + 6) % 7
  let e := vget k.log { aonS := 0, source := 0, power := 0, phase := 0, repeat_ := 0 } newest
  let total : BitVec 32 := BitVec.ofNat 32 (sat32 (k.logTotal.toNat + 1))
  let near := match k.logTick with | some t => decide (s.now ≤ t + ticksS 1) | none => false
  if k.logTotal != 0 && near && e.source.toNat = source then
    modKey s fun k => { k with logTotal := total, log := vmod k.log newest fun e => { e with repeat_ := BitVec.ofNat 8 (min 255 (e.repeat_.toNat + 1)) } }
  else
    modKey s fun k =>
      { k with logTotal := total, logNext := (k.logNext + 1) % 7, logTick := some s.now,
               log := vset k.log k.logNext { aonS := aonSec s, source := BitVec.ofNat 8 source, power := BitVec.ofNat 8 s.pwr.state.code,
                                             phase := BitVec.ofNat 8 phase, repeat_ := 0 } }

/-- The phase that a detection records (R414). Log entry 79. -/
def tamperPhase (s : State) : Nat :=
  if s.pwr.state = .off || s.pwr.state = .simmer then 0
  else if s.pwr.phase != .ready && s.pwr.phase != .recovery then 1
  else if s.key.inval.any fun v => !v.committed then 2 else 0

/-- The main rails are up and events can be recorded. -/
def mainUp (s : State) : Bool :=
  (s.pwr.state = .warm || s.pwr.state = .boil) && (s.pwr.phase = .ready || s.pwr.phase = .recovery)

/-- The detail of TAMPER (R421). -/
def tamperDetail (s : State) (source phase : Nat) : Nat :=
  source + s.pwr.state.code * 256 + phase * 65536 + (aonSec s).toNat * 2 ^ 32

/-- Commands that a tamper aborts (R415, R419). -/
def abortInvals (s : State) : State :=
  let l := s.key.inval
  l.foldl (fun s v => match v.host, v.committed with
    | some h, false => fin s h 0xB5 Status.aborted
    | _, _ => s) (modKey s fun k => { k with inval := [] })

/-- NTS answers that wait unsealed in a port's queues are not sent: ABORTED (R217 step 20, R243). -/
def abortSeals (s : State) : State :=
  (List.finRange 9).foldl (fun s p =>
    let sealing := fun (x : TxFrame) => match x.fill with | .ntp _ _ _ (some _) => true | _ => false
    let n := ((ethPort s p).qT.filter sealing).length
    if n = 0 then s
    else svcCount (wdUpdate (modPort s p fun k => { k with qT := k.qT.filter fun x => !sealing x }) p) 0x1A n) s

/-- Zeroisation (R415, R417): root and slots go, the store is UNKEYED, the users' entries retire. -/
def zeroise (s : State) (source phase : Nat) : State :=
  let n := (s.key.slots.filter fun p => p.2.valid).length
  let det := tamperDetail s source phase
  let s := abortSeals (abortInvals s)
  let s := modKey s fun k => { k with root := none, slots := [], store := .unkeyed, cause := BitVec.ofNat 8 source }
  let s := { s with pair := { s.pair with cer := s.pair.cer.map fun c => { c with key := none, prior := KeySlot.empty } } }
  if mainUp s then
    let s := modKey s fun k => { k with lastZero := tsNow s }
    let s := emit s .key 0x0001 .severe det (some 0)
    let s := emit s .key 0x0002 .notice n (some 1)
    retireEntries s (nowNs s) fun _ => true
  else modKey s fun k => { k with toEmit := some (BitVec.ofNat 64 det) }

/-- A detection of a source (R413 to R416). -/
def tamper (s : State) (source phase : Nat) : State :=
  let s := tamperLog (modKey s fun k => { k with latch := k.latch ||| BitVec.ofNat 13 (2 ^ source) }) source phase
  let s := if mainUp s then modFig s fun f => { f with tamper := figAdd f.tamper source 1 } else s
  if s.key.root.isSome then zeroise s source phase else s

end Sys2Proof.Machine
end

