-- ==== Sys2Proof/Machine/PairOps.lean ====
section
/-! DEFINITION. Redundant pair operation (10_redundant_pair.md): roles, the line, the heartbeat, the pair states, the
snapshot, the self-check, the ceremony and swaps. -/
namespace Sys2Proof.Machine

def hbTicks (s : State) : Nat := ticksUs (rf s Rg.pairHbPeriod 31 0)

/-- The PREFERRED strap as the pair behaves (R366). -/
def preferredNow (s : State) : Bool := match s.pair.conflict with | some b => b | none => s.glb.preferred

def PairState.code : PairState → Nat
  | .unpaired => 0 | .pairing => 1 | .seeking => 2 | .mirroring => 3 | .ready => 4

/-- The partner's IDENTITY as its HELLO gave it. -/
def partnerIdent (s : State) : BitVec 64 := match pairRole s with | some l => (link s l).farIdent | none => 0

/-- The partner shows READY (R378). -/
def partnerReady (s : State) : Bool := s.pair.partner.seen && s.pair.partner.pstate = 4

/-! ## States (R371, R376) -/

/-- The mirror is complete (R376): the last snapshot has been applied and no record older than 10 ms is waiting.
    Log entry 49. -/
def mirrorComplete (s : State) : Bool :=
  s.pair.mirrorDone && s.pair.waiting.all fun r => decide (s.now ≤ r.tick + ticksMs 10)

/-- Resynchronised (R376): the mirror is complete, the delay filter holds nothing, and the mean of 16 offsets lies within
    2 ns. -/
def resynced (s : State) : Bool :=
  mirrorComplete s && (match pairLink s with
    | some l => !(link s l).holding && (link s l).offs.length = 16 && decide ((pairOffset s).natAbs ≤ 131072)
    | none => false)

/-- A standby's pair state between MIRRORING and READY (R371); the active takes its partner's word. -/
def pairEval (s : State) : State :=
  if s.pair.st != .mirroring && s.pair.st != .ready then s
  else
    let ok := if s.pair.holding then s.pair.partner.flags.getLsbD 2 && s.pair.partner.flags.getLsbD 3
      else resynced s
    if ok then (if s.pair.st = .ready then s else modPair s fun p => { p with st := .ready, readyAt := some s.now, reqAt := none })
    else modPair s fun p => { p with st := .mirroring, readyAt := none }

/-- PAIR_FAIL (R386): the step and the reason. -/
def pairFail (s : State) (step reason : Nat) : State := emit s .pair 0x000A .degraded (step + reason * 16) (some 6)

/-! ## The snapshot (R373) -/

/-- The stored words that the mirror carries: REFS slot configuration and the named REFS registers, SVC registers and
    spaces, TIO spaces, PTP instances and master lists. -/
def mirroredKeys : List Nat :=
  [Rg.refsCtrl, Rg.refsStepLimit, Rg.refsQualTime, Rg.refsWtrTime, Rg.refsHoldAvg] ++ (List.range 128).map (indKey .refs 1) ++
  (storedRegs .svc).map Prod.fst ++ (List.range 512).map (indKey .svc 1) ++ (List.range 16).map (indKey .svc 2) ++
  (List.range 16).map (indKey .svc 3) ++ (List.range 32).map (indKey .tio 1) ++ (List.range 16).map (indKey .tio 2) ++
  (List.range 64).map (indKey .tio 3) ++ (List.range 16).map (indKey .tio 4) ++ (List.range 256).map (indKey .ptp 1) ++
  (List.range 256).map (indKey .ptp 3)

/-- Slot qualification and ranks as a mirror record (R373). -/
def qualsRec (s : State) : MirrorRec :=
  .quals (BitVec.ofNat 16 (slotMask fun i => (slot s i).qualified)) ((List.finRange 16).map fun i => BitVec.ofNat 8 (rank s i))

/-- The figures that go every HB_PERIOD (R373). -/
def activeRec (s : State) : MirrorRec :=
  .active (sentTeb s) (BitVec.ofNat 8 (s.tco.st.code + flag (coasting s 0) 3)) s.tco.w s.tco.utcOff s.tco.utcValid s.tco.pend s.tco.leapAt
    s.tco.lastContr

/-- A snapshot of the whole mirrored set (R373). -/
def snapshot (s : State) : State :=
  if !mirrorOn s then s else
  let s := mirrorPut s true false (activeRec s)
  let s := mirroredKeys.foldl (fun s k => mirrorPut s true false (.word k (getW s k))) s
  let s := (List.finRange 16).foldl (fun s i => mirrorCookie s i true) s
  let s := (List.finRange 64).foldl (fun s e => mirrorSec s e true) s
  let s := s.ptp.grants.foldl (fun s g => mirrorGrant s g.1 true) s
  let s := (List.finRange 16).foldl (fun s i => mirrorSeqs s i true) s
  let s := (s.gbb.params.filter fun d => d.kind = .ephemeris || d.kind = .almanac).foldl (fun s d =>
    mirrorPut s true false (.nav d.page)) s
  let s := (List.finRange 16).foldl (fun s p => match s.tio.trigs[p] with
    | some t => mirrorPut s true false (.trig p t.mode t.rate t.count t.startSec t.startSub t.per t.stopAt)
    | none => mirrorPut s true false (.trigGone p)) s
  mirrorPut s true true (qualsRec s)

/-! ## Swaps that end (R378 to R381) -/

/-- TS32 of H. -/
def hTs32 (w : Swap) : Nat := (ts32Of (w.h * 2 ^ 48)).toNat

/-- A planned swap aborts with an item mask (R379, R381). -/
def swapAbort (s : State) (mask : Nat) (tell : Bool) : State :=
  match s.pair.swap with
  | none => s
  | some w =>
    let s := modPair s fun p => { p with swap := none, swapRetry := some (s.now + ticksS 3600),
                                         swapsAborted := BitVec.ofNat 16 (min 65535 (p.swapsAborted.toNat + 1)) }
    let s := modFig s fun f => { f with swaps := figAdd f.swaps 1 1 }
    let s := emit s .pair 0x0003 .degraded (mask + hTs32 w * 2 ^ 32) (some 2)
    let s := match w.host with
      | some h => complete s h 0xA3 Status.aborted 20 (mask * 2 ^ 128)
      | none => s
    match tell, pairLink s with
    | true, some l => linkSend s l (.swapAbort (BitVec.ofNat 11 mask))
    | _, _ => s

/-- The partner is lost (R367), or the PAIR link is no longer UP: the state falls to SEEKING and a pending swap aborts
    until the last call has passed. -/
def pairSeek (s : State) : State :=
  let s := modPair s fun p =>
    { p with st := if p.st = .mirroring || p.st = .ready then .seeking else p.st, readyAt := none }
  match s.pair.swap with
  | some w => if w.driven || w.handed then s else swapAbort s 0x100 false
  | none => s

/-- The PAIR link has come UP (R372, R373). -/
def pairRise (s : State) (l : Fin 4) : State :=
  let s := modLink s l fun k => { k with offs := [] }
  match s.pair.peer with
  | some p => if s.pair.keySlot.isSome && (link s l).farIdent != p then pairFail s 0 5 else s
  | none => s

/-- The partner is heard while paired: MIRRORING begins, and the active sends a snapshot (R371, R373). Log entry 30. -/
def beginMirror (s : State) : State :=
  match s.pair.peer with
  | some p =>
    if s.pair.st = .seeking && p = partnerIdent s && (pairLink s).isSome then
      let s := modPair s fun p => { p with st := .mirroring, mirrorDone := p.holding, readyAt := none }
      if s.pair.holding then snapshot s else s
    else s
  | none => s

/-! ## Becoming active (R363, R382) -/

/-- Streams continue from the last mirrored value plus 256 after a failover (R280). -/
def seqJump (s : State) : State :=
  let up := fun (g : Option Grant) => g.map fun x => { x with seqId := x.seqId + 256 }
  modPtp s fun p => { p with insts := p.insts.map (fun k => { k with seqSync := k.seqSync + 256, seqAnn := k.seqAnn + 256 }),
                             grants := p.grants.map fun g => (g.1, { g.2 with announce := up g.2.announce, sync := up g.2.sync, delayResp := up g.2.delayResp }) }

/-- A new active with its partner in sight mirrors to it: it begins a snapshot (entry 30). -/
def takeMirror (s : State) : State :=
  let s := modPair s fun p => { p with waiting := [], mirrorDone := true }
  if s.pair.st = .mirroring || s.pair.st = .ready then snapshot (modPair s fun p => { p with st := .mirroring, readyAt := none }) else s

/-- A standby gains the line without a swap (R363, R382). Log entry 30. -/
def promote (s : State) : State :=
  let cause := if s.pair.fresh then 6 else if s.pair.lostFirst then 3 else 2
  let incomplete := !mirrorComplete s
  let s := modPair s fun p => { p with holding := true, line := false, fresh := false, lastHand := tsNow s, swap := none, swapAt := s.now,
                                       swapRetry := none, refreshAt := s.now, driveAt := none, demotedAt := p.demotedAt }
  let s := modFig s fun f => { f with swaps := figAdd f.swaps 2 1 }
  let s := roleChange s true cause incomplete (ts32 s)
  let s := if cause = 6 then s else seqJump s
  takeMirror (refreshOuts s false)

/-- LINE_FAULT (R363, R369, R381). -/
def lineFault (s : State) (cause : Nat) : State := emit s .pair 0x0008 .severe cause (some 5)

/-- The engine stops driving the line and acting; the line reads as given. -/
def dropLine (s : State) (high : Bool) : State :=
  let s := if s.pair.drive then emitOut s (.line false) else s
  refreshOuts (modPair s fun p => { p with drive := false, holding := false, line := high, driveAt := none,
                                           highAt := if high then some s.now else none }) false

/-! ## The heartbeat (R366 to R369) -/

/-- The failing items of the self-check (R380). Log entry 51. -/
def selfCheck (s : State) : Nat :=
  let p := s.pair.partner
  let margin := (getW s Rg.pairTebMargin).toNat
  flag (s.tco.st = .night || s.tco.st = .storm) 0
  + flag (decide (s.pair.actTeb.toNat + margin < s.tco.teb.toNat)) 1
  + flag ((List.range 4).any (coasting s)) 2
  + flag (s.log.fatal || s.log.blks.toList.any fun b => b.unack.any Unack.isHigh) 3
  + flag (!mirrorComplete s || s.pair.mgen != p.mgen) 4
  + flag ((List.finRange 16).any (fun i => s.svc.keys[i].st = .current && !cookieUsable s s.svc.keys[i].slot.toNat)
      || (List.finRange 64).any fun e => s.ptp.keys[e].st = .current && !macUsable s s.ptp.keys[e].slot.toNat s.ptp.keys[e].cmac) 5
  + flag (!resynced s) 6
  + flag (p.power.toNat != s.pwr.state.code) 7
  + flag (!p.seen) 8
  + flag (phaseCode s = 1 || phaseCode s = 2) 9

/-- FLAGS of the heartbeat (R367). -/
def hbFlags (s : State) : Nat :=
  flag s.pair.holding 0 + flag s.glb.preferred 1 + flag (mirrorComplete s) 2 + flag (resynced s) 3 + flag (s.pair.check = 0) 4
  + flag s.pair.swap.isSome 5 + flag (rb s Rg.pairCtrl 1) 6

/-- One heartbeat (R367), with the figures that the active mirrors every HB_PERIOD (R373); core 2 refreshes the hold
    watchdog (R365). Log entry 51. -/
def heartbeat (s : State) : State :=
  let s := modPair s fun p => { p with hbAt := s.now, refreshAt := s.now, check := BitVec.ofNat 11 (selfCheck s) }
  match pairLink s with
  | none => s
  | some l =>
    let seq := s.pair.hbSeq
    let s := linkSend (modPair s fun p => { p with hbSeq := p.hbSeq + 1 }) l
      (.heartbeat seq (BitVec.ofNat 8 (flag s.pair.holding 0)) (BitVec.ofNat 8 s.pair.st.code) (BitVec.ofNat 8 (hbFlags s))
        (BitVec.ofNat 8 (s.tco.st.code + flag (coasting s 0) 3)) (sentTeb s) s.pair.mgen (BitVec.ofNat 8 s.pwr.state.code))
    let s := mirrorSend s (activeRec s)
    mirrorSend s (qualsRec s)

/-- Both units strap the same (R366). -/
def strapCheck (s : State) (flags : BitVec 8) : State :=
  if flags.getLsbD 1 = s.glb.preferred then
    if s.pair.conflict.isSome then s
    else emit (modPair s fun p => { p with conflict := some (decide (Config.identity.toNat < (partnerIdent s).toNat)) })
      .pair 0x000C .degraded (flag s.glb.preferred 0) (some 6)
  else modPair s fun p => { p with conflict := none }

/-- Both units hold (R369): the unit without PREFERRED, or of the higher IDENTITY, releases at once. -/
def dualCheck (s : State) (flags : BitVec 8) : State :=
  if s.pair.holding && flags.getLsbD 0 then
    let yield_ := !preferredNow s
    let s := emit s .pair 0x0007 .severe (flag yield_ 0) (some 4)
    if yield_ then dropLine s false else s
  else s

/-- A heartbeat arrives (R367, R369, R383). -/
def rxHeartbeat (s : State) (role pstate flags cstate : BitVec 8) (teb mgen : BitVec 32) (power : BitVec 8) : State :=
  let old := s.pair.partner
  let compatBad := flags.getLsbD 6 != rb s Rg.pairCtrl 1
  let compatNew := compatBad && (!old.seen || old.flags.getLsbD 6 = rb s Rg.pairCtrl 1)
  let s := modPair s fun p =>
    { p with missed := 0, heardAt := s.now, lostFirst := if old.seen then p.lostFirst else false, fresh := p.fresh && !flags.getLsbD 0,
             partner := { p.partner with seen := true, role := role, pstate := pstate, flags := flags, cstate := cstate, teb := teb,
                                         mgen := mgen, power := power, ident := partnerIdent s } }
  let s := if old.seen then s else emit s .pair 0x0005 .notice (fld pstate.toNat 2 0) (some 3)
  let s := strapCheck s flags
  let s := dualCheck s flags
  let s := if compatNew then pairFail s 0 0 else s
  pairEval (beginMirror s)

/-! ## The ceremony (R370) -/

/-- The ceremony ends without a pairing; what stood before stays in force. Log entry 52. -/
def ceremonyFail (s : State) (c : Ceremony) (step reason : Nat) (st : BitVec 8) : State :=
  let s := if c.key.isSome then setSlot s c.slot.toNat c.prior else s
  let s := modPair s fun p => { p with cer := none, st := if p.keySlot.isSome then .seeking else .unpaired }
  fin (beginMirror (pairFail s step reason)) c.host 0xA1 st

/-- Nonce and identity of unit A and of unit B, A the lower IDENTITY (R370). -/
def ceremonyOrder (s : State) (c : Ceremony) (peer : BitVec 256) : (BitVec 256 × BitVec 64) × (BitVec 256 × BitVec 64) :=
  let me := (c.nonce, Config.identity)
  let you := (peer, partnerIdent s)
  if Config.identity.toNat < (partnerIdent s).toNat then (me, you) else (you, me)

/-- The pairing statement over an ephemeral key (R370, R404). -/
def pairStatement (s : State) (eph : BitVec 776) (nA nB : BitVec 256) : List Byte :=
  statement s 2 (partnerIdent s) (beBytes 32 nA.toNat) (beBytes 32 nB.toNat) 0 0 (beBytes 48 (Config.sha384 (beBytes 97 eph.toNat)))

/-- Step 2 of the ceremony: both HELLOs are held, PAIR_ATTEST goes out (R370). Where the key store refuses the operation the
    ceremony waits for its timeout (R418). Log entry 52. -/
def sendAttest (s : State) : State :=
  match s.pair.cer, pairLink s with
  | some c, some l =>
    match c.peerNonce with
    | none => s
    | some n =>
      if !keysRun s then s else
      let (a, b) := ceremonyOrder s c n
      let eph := BitVec.ofNat 776 (Config.p384Pub c.ephPriv)
      let st := pairStatement s eph a.1 b.1
      let (sig, s) := signDigest s 1 (Config.sha384 st)
      linkSend s l (.pairAttest (BitVec.ofNat 776 (Config.p384Pub (keySlot s 1).key)) eph st (BitVec.ofNat 768 (beNat sig)))
  | _, _ => s

/-- PAIR_HELLO arrives: it is held for the ceremony, which may not have begun here yet (R370). -/
def rxPairHello (s : State) (nonce : BitVec 256) : State :=
  match s.pair.cer with
  | none => modPair s fun p => { p with heldHello := some (nonce, s.now) }
  | some c => sendAttest (modPair s fun p => { p with cer := some { c with peerNonce := some nonce } })

/-- The reason that a partner's ATTEST fails step 3 (R370, R386): 1 hash, 2 signature, 5 nonces or identities. -/
def attestFault (s : State) (c : Ceremony) (n : BitVec 256) (pub eph : BitVec 776) (stmt : List Byte) (sig : BitVec 768) : Option Nat :=
  let (a, b) := ceremonyOrder s c n
  if Config.sha384 (beBytes 97 pub.toNat) ≠ c.hash.toNat then some 1
  else if !Config.p384Verify pub.toNat (Config.sha384 stmt) sig.toNat || slice stmt 120 48 != beBytes 48 (Config.sha384 (beBytes 97 eph.toNat)) then some 2
  else if stmt.length ≠ 176 ∨ leAt stmt 0 4 ≠ 0x53574154 ∨ leAt stmt 5 1 ≠ 2 ∨ leAt stmt 8 8 ≠ (partnerIdent s).toNat
      ∨ leAt stmt 16 8 ≠ Config.identity.toNat ∨ slice stmt 48 32 ≠ beBytes 32 a.1.toNat ∨ slice stmt 80 32 ≠ beBytes 32 b.1.toNat then some 5
  else none

/-- The CMAC check value of the pair key (R370, R405). -/
def pairCheck (k : BitVec 256) : BitVec 128 := Config.cmac k.toNat 256 lblKcv

/-- PAIR_ATTEST arrives: steps 3 and 4 of the ceremony (R370). Log entry 52. -/
def rxPairAttest (s : State) (pub eph : BitVec 776) (stmt : List Byte) (sig : BitVec 768) : State :=
  match s.pair.cer, pairLink s with
  | some c, some l =>
    match c.peerNonce with
    | none => s
    | some n =>
      if !keysRun s then s else
      match attestFault s c n pub eph stmt sig with
      | some r => ceremonyFail s c 3 r Status.auth
      | none =>
        let (a, b) := ceremonyOrder s c n
        let k : BitVec 256 := BitVec.ofNat 256
          (Config.hkdf (Config.ecdh c.ephPriv eph.toNat) (beBytes 32 a.1.toNat ++ beBytes 32 b.1.toNat) lblPair 32)
        let prior := keySlot s c.slot.toNat
        let s := fillSlot s c.slot.toNat 0 2 (0x2000 + 0x300 + 16) k.toNat
        let s := modPair s fun p => { p with cer := some { c with peerEph := some eph, key := some k, prior := prior } }
        linkSend s l (.pairConfirm (pairCheck k))
  | _, _ => s

/-- PAIR_CONFIRM arrives: step 5 (R370). The wrapped copy stands under slot 2 (entry 31). Log entry 52. -/
def rxPairConfirm (s : State) (check : BitVec 128) : State :=
  match s.pair.cer with
  | none => s
  | some c =>
    match c.key with
    | none => s
    | some k =>
      if !keysRun s then s
      else if check ≠ pairCheck k then ceremonyFail s c 5 3 Status.auth
      else
        let id := partnerIdent s
        let (blob, s) := wrapBlob s c.slot.toNat 2
        let s := modPair s fun p => { p with cer := none, keySlot := some c.slot, peer := some id, stored := some (c.slot, id, blob),
                                             st := .mirroring, mirrorDone := p.holding, readyAt := none }
        let s := emit s .pair 0x0009 .notice id.toNat none
        let s := complete s c.host 0xA1 Status.ok 8 id.toNat
        if s.pair.holding then snapshot s else s

/-! ## Swaps (R378 to R381) -/

/-- A swap is planned (R379). -/
def planSwap (s : State) (h : Nat) (incoming : Bool) (host : Option Hdr) : State :=
  let w : Swap := { h := h, incoming := incoming, accepted := false, checked := false, driven := false, handed := false, host := host }
  emit (modPair s fun p => { p with swap := some w }) .pair 0x0002 .notice (hTs32 w * 2 ^ 32) none

/-- The active proposes a swap (R378, R379): H is the first whole second at least 2 s ahead. -/
def proposeSwap (s : State) (host : Option Hdr) : State :=
  let h := ceilDiv (s.tco.counter + 2 * unitsPerSec) unitsPerSec % 2 ^ 48 * 1000000000
  let s := planSwap s h false host
  match pairLink s with
  | some l => linkSend s l (.swapPropose h)
  | none => s

/-- The active may propose (R378, R468). Log entry 51. -/
def mayPropose (s : State) : Bool :=
  s.pair.holding && partnerReady s && s.pair.swap.isNone && !safe s .pair && coreUp s 2 && (pairLink s).isSome

/-- A swap completes at a unit (R379 step 6). -/
def swapDone (s : State) (w : Swap) (active : Bool) : State :=
  let ts : BitVec 128 := mkTs128 ((hMinus s w 0 * (2 ^ 32 : Nat)) % (counterMod : Int)).toNat (coasting s 0) s.tco.st s.tco.teb.toNat
  let s := modPair s fun p => { p with swap := none, swapAt := s.now, swapRetry := none, lastHand := ts, fresh := false,
                                       swapsDone := BitVec.ofNat 16 (min 65535 (p.swapsDone.toNat + 1)) }
  let s := modFig s fun f => { f with swaps := figAdd f.swaps 0 1 }
  let s := roleChange s active 1 false (ts32Of (tsCounter ts))
  let s := match w.host with
    | some hd => complete s hd 0xA3 Status.ok 16 ts.toNat
    | none => s
  if active then takeMirror s else modPair s fun p => { p with mirrorDone := false, waiting := [] }

end Sys2Proof.Machine
end

