-- ==== Sys2Proof/Machine/UpdOps.lean ====
section
/-! DEFINITION. Images, the boot record and update sessions (15_firmware_update.md R520 to R538): what the commands, the
boot ROM and a Colol peer share. -/
namespace Sys2Proof.Machine

def modUpd (s : State) (f : Upd → Upd) : State := { s with upd := f s.upd }

/-! ## Images (R521 to R524) -/

def imgLen (b : List Byte) : Nat := leAt b 16 4
def imgFw (b : List Byte) : Nat := leAt b 12 4
def imgKey (b : List Byte) : Nat := leAt b 9 1
def imgRollback (b : List Byte) : Nat := leAt b 10 1
def imgRevoke (b : List Byte) : Nat := leAt b 11 1

/-- The section table: type, offset and length of each entry in use, and whether the entry's reserved bytes are 0. -/
def imgSections (b : List Byte) : List (Nat × Nat × Nat × Bool) :=
  ((List.range 12).map fun i =>
    let o := 32 + 16 * i
    (leAt b o 1, leAt b (o + 4) 4, leAt b (o + 8) 4, leAt b (o + 1) 3 = 0 && leAt b (o + 12) 4 = 0)).filter fun e => e.1 != 0

/-- A section of a type fits its store (R20, R21). Log entry 57. -/
def sectionFits (type len : Nat) : Bool :=
  if type = 6 ∨ type = 7 then len ≤ 65536 else if type = 8 then len ≤ 32768 else if type ≤ 5 then len ≤ 2 ^ 24 else true

/-- The section table is as R522 requires, and REVOKE does not name KEY_INDEX. Log entry 57. -/
def imgTableOk (b : List Byte) : Bool :=
  let l := imgSections b
  let count := fun (t : Nat) => l.countP fun e => e.1 = t
  ((List.range 8).all fun t => count (t + 1) = 1) && decide (count 9 ≤ 1)
    && l.all (fun e => decide (e.1 ≤ 9) && e.2.2.2 && e.2.1 % 4 = 0 && decide (256 ≤ e.2.1)
        && decide (e.2.1 + e.2.2.1 + 96 ≤ imgLen b) && sectionFits e.1 e.2.2.1)
    && decide (((l.filter fun e => e.1 ≤ 5).map fun e => e.2.2.1).sum ≤ 2 ^ 24)
    && l.all (fun e => l.all fun f => e = f || decide (e.2.1 + e.2.2.1 ≤ f.2.1) || decide (f.2.1 + f.2.2.1 ≤ e.2.1))
    && !(imgRevoke b).testBit (imgKey b)

/-- The checks of R523 in order: 0, or the cause of the first that fails. Log entry 57. -/
def imgCheck (s : State) (b : List Byte) : Nat :=
  if leAt b 0 4 ≠ 0x5357494D ∨ leAt b 4 2 ≠ 1 ∨ leAt b 20 12 ≠ 0 ∨ leAt b 224 32 ≠ 0 ∨ 16 ≤ imgRevoke b then 1
  else if leAt b 6 2 ≠ 0x7120 ∨ 0x0B < leAt b 8 1 then 2
  else if imgLen b < 512 ∨ 2 ^ 25 < imgLen b ∨ imgLen b % 4 ≠ 0 ∨ b.length < imgLen b then 3
  else if !imgTableOk b then 4
  else if 3 < imgKey b || !Config.imageSigOk (imgKey b) (b.take (imgLen b)) then 5
  else if s.key.revoked.toNat.testBit (imgKey b) then 6
  else if imgRollback b < s.key.floor.toNat then 7
  else 0

/-- The entries of the configuration blob, offset and value (R524). -/
def imgBlob (b : List Byte) : List (Nat × Nat) :=
  match (imgSections b).find? fun e => e.1 = 9 with
  | none => []
  | some e =>
    let c := slice b e.2.1 e.2.2.1
    (List.range (min (leAt c 0 4) 16384)).map fun i => (leAt c (4 + 8 * i) 4, leAt c (8 + 8 * i) 4)

def slotImage (s : State) (n : Fin 2) : List Byte := s.upd.image[n]

/-! ## The boot record (R525, R526) -/

/-- The record of a blank flash: no slot holds an image. -/
def BootRec.blank : BootRec :=
  { seq := 0, active := 0, trial := false, trialSlot := 0, st := #v[.empty, .empty], fw := #v[0, 0], consumed := 0xFF }

/-- The copy that decides: the valid one with the higher SEQ (R526). -/
def bootBest (s : State) : Option (Fin 2 × BootRec) :=
  match s.upd.copies[0], s.upd.copies[1] with
  | some a, some b => if a.seq.toNat < b.seq.toNat then some (1, b) else some (0, a)
  | some a, none => some (0, a)
  | none, some b => some (1, b)
  | none, none => none

def recNow (s : State) : BootRec := match bootBest s with | some (_, r) => r | none => BootRec.blank

/-- Writes the next record into the other copy, and its entry in the pantry (R526, R541, R571): `stage` and the slot it
    is about. -/
def recWrite (s : State) (stage : Nat) (n : Fin 2) (f : BootRec → BootRec) : State :=
  let old := recNow s
  let r := { f old with seq := old.seq + 1, consumed := 0xFF }
  let i : Fin 2 := match bootBest s with | some (0, _) => 1 | _ => 0
  panLog (modUpd s fun u => { u with copies := u.copies.set i (some r) }) 2 stage (r.seq.toNat % 65536)
    (r.fw[n].toNat + n.val * 2 ^ 32)

/-- CONSUMED of the deciding copy is programmed (R526, R527). -/
def recConsume (s : State) : State :=
  match bootBest s with
  | some (i, r) =>
    panLog (modUpd s fun u => { u with copies := u.copies.set i (some { r with consumed := 0 }) }) 2 4 (r.seq.toNat % 65536)
      (r.fw[r.trialSlot].toNat + r.trialSlot.val * 2 ^ 32)
  | none => s

def otherSlot (n : Fin 2) : Fin 2 := if n = 0 then 1 else 0

/-- An unconfirmed trial runs, and its window has not expired (R533, R534). Log entry 57. -/
def trialRuns (s : State) : Bool := s.upd.trial && !s.upd.expired

/-! ## Sessions (R528 to R530) -/

def holderCode (x : Session) : Nat := if x.peer.isSome then 2 else 1

/-- A session opens (R529): the record marks the slot DOWNLOADING before a byte of it is erased. -/
def sessionOpen (s : State) (peer : Option (Fin 4)) (n : Fin 2) (expect : Nat) : State :=
  let s := recWrite s 1 n fun r => { r with st := r.st.set n .downloading, fw := r.fw.set n 0 }
  let x : Session := { peer := peer, slot := n, written := 0, lastWrite := s.now, expect := expect }
  emit (modUpd s fun u => { u with image := u.image.set n [], session := some x }) .upd 0x0001 .notice
    (1 + holderCode x * 2 + n.val * 8) (some 0)

/-- A session ends with a status (R528, R541). Log entry 56. -/
def sessionEnd (s : State) (st : BitVec 8) : State :=
  match s.upd.session with
  | none => s
  | some x => emit (modUpd s fun u => { u with session := none }) .upd 0x0001 .notice (holderCode x * 2 + x.slot.val * 8 + st.toNat * 256) (some 0)

/-- A piece of the image is programmed (R529). -/
def sessionWrite (s : State) (x : Session) (data : List Byte) : State :=
  modUpd s fun u => { u with image := u.image.set x.slot (u.image[x.slot] ++ data),
                             session := some { x with written := x.written + data.length, lastWrite := s.now } }

/-- An offset and a length that a session takes (R529). Log entry 57. -/
def writeFits (x : Session) (off len : Nat) : Bool :=
  off = x.written && 4 ≤ len && len ≤ 65536 && len % 4 = 0 && off + len ≤ 2 ^ 25

/-- The status of a cause of R523 (R540). -/
def causeStatus (c : Nat) : BitVec 8 := if c = 0 then Status.ok else if c ≤ 4 then Status.badArg else if c ≤ 6 then Status.auth else Status.refused

/-- VERIFY (R530): the cause, and the state after it; the session ends either way. -/
def sessionVerify (s : State) (x : Session) : Nat × State :=
  let b := slotImage s x.slot
  let c := imgCheck s b
  let s := if c = 0 then recWrite s 2 x.slot fun r => { r with st := r.st.set x.slot .verified, fw := r.fw.set x.slot (BitVec.ofNat 32 (imgFw b)) }
    else s
  (c, sessionEnd s (causeStatus c))

/-! ## Confirmation (R533, R535) -/

/-- One fuse of the floor or of a key's revocation is blown (R535). -/
def floorStep (s : State) (floor revoked : Nat) : State :=
  let s := { s with key := { s.key with floor := BitVec.ofNat 8 floor, revoked := BitVec.ofNat 8 revoked } }
  panLog (emit s .upd 0x0007 .notice (floor + revoked % 16 * 256) (some 4)) 6 floor revoked 0

/-- The floor rises to the running image's ROLLBACK and the keys of REVOKE are revoked (R535). Log entry 57. -/
def floorRaise (s : State) : State :=
  let b := slotImage s s.upd.running
  let f := s.key.floor.toNat
  let s := (List.range (imgRollback b - f)).foldl (fun s i => floorStep s (f + i + 1) s.key.revoked.toNat) s
  (List.range 4).foldl (fun s i =>
    if (imgRevoke b).testBit i && !s.key.revoked.toNat.testBit i then floorStep s s.key.floor.toNat (s.key.revoked.toNat + 2 ^ i) else s) s

/-- The conditions of R533. -/
def confirmOk (s : State) : Bool :=
  (locked s || s.refs.hold) && s.upd.selfOk
    && !(blkStat s .ctl).unack.any Unack.isHigh && !(blkStat s .mem).unack.any Unack.isHigh
    && (!rb s Rg.updCtrl 0 || s.upd.hostConfirm)

/-- The running trial confirms (R533). Log entry 57. -/
def confirmTrial (s : State) : State :=
  let n := s.upd.running
  let s := recWrite s 5 n fun r => { r with active := n, trial := false, st := r.st.set n .good }
  let s := modUpd s fun u => { u with trial := false, lastConfirm := tsNow s }
  floorRaise (emit s .upd 0x0004 .notice (n.val + (recNow s).fw[n].toNat * 2 ^ 32) (some 1))

/-! ## A Colol peer (R537, R538) -/

/-- An UPD_OPEN that opens a session waits at this tick: the host comes before a peer (R538). Log entry 34. -/
def openWaits (s : State) : Bool :=
  s.upd.session.isNone && !trialRuns s && s.pwr.phase = .ready && coreUp s 0 &&
    s.pending.any fun c => match c with | .updOpen _ m _ n => m = 0 && n = 0xFF | _ => false

/-- UPD_OFFER arrives. -/
def rxUpdOffer (s : State) (l : Fin 4) (length : Nat) : State :=
  if !(fld (getW s Rg.updCtrl).toNat 4 1).testBit l.val then linkSend s l (.updReply Status.refused)
  else if trialRuns s then linkSend s l (.updReply Status.state)
  else if s.upd.session.isSome || openWaits s then linkSend s l (.updReply Status.busy)
  else linkSend (sessionOpen s (some l) (otherSlot s.upd.running) length) l (.updReply Status.ok)

/-- UPD_DATA arrives: as a host's write (R529). -/
def rxUpdData (s : State) (l : Fin 4) (off : Nat) (data : List Byte) : State :=
  match s.upd.session with
  | some x => if x.peer = some l && writeFits x off data.length then sessionWrite s x data else s
  | none => s

/-- UPD_END arrives: VERIFY, or the session's end (R537). Log entry 56. -/
def rxUpdEnd (s : State) (l : Fin 4) (abandon : Bool) : State :=
  match s.upd.session with
  | some x =>
    if x.peer != some l then s
    else if abandon then sessionEnd s Status.ok
    else let (c, s) := sessionVerify s x; linkSend s l (.updResult (causeStatus c) (BitVec.ofNat 8 c))
  | none => s

/-- The running image goes out in pieces of 1,020 bytes (R537). Log entry 56. -/
def pushData (s : State) (l : Fin 4) : State :=
  let b := slotImage s s.upd.running
  let b := b.take (imgLen b)
  (List.range (ceilDiv b.length 1020)).foldl (fun s i =>
    linkSend s l (.updData (BitVec.ofNat 32 (1020 * i)) (slice b (1020 * i) 1020))) s

/-- UPD_REPLY arrives at the sender. The slot it names in UPD_OPEN's result is the receiver's, which no frame tells.
    Log entry 56. -/
def rxUpdReply (s : State) (l : Fin 4) (st : BitVec 8) : State :=
  match s.upd.push with
  | some p =>
    match p.open_ with
    | some hd =>
      if p.link != l then s
      else if st = Status.ok then
        let (x, s) := freeN s
        pushData (complete (modUpd s fun u => { u with push := some { p with open_ := none } }) hd 0xC0 Status.ok 1 (x % 256)) l
      else fin (modUpd s fun u => { u with push := none }) hd 0xC0 st
    | none => s
  | none => s

/-- The result of UPD_VERIFY: FW_VERSION and ROLLBACK of an image that passed, and the cause (R540). Log entry 56. -/
def verifyResult (b : List Byte) (c : Nat) : Nat := if c = 0 then imgFw b + imgRollback b * 2 ^ 32 else c * 2 ^ 40

/-- UPD_RESULT arrives at the sender. Log entry 56. -/
def rxUpdResult (s : State) (l : Fin 4) (st cause : BitVec 8) : State :=
  match s.upd.push with
  | some p =>
    match p.verify with
    | some hd =>
      if p.link != l then s
      else complete (modUpd s fun u => { u with push := none }) hd 0xC2 st 6 (verifyResult (slotImage s s.upd.running) cause.toNat)
    | none => s
  | none => s

/-- A link falls: the receiver's session ends, the sender's command completes ABORTED (R538). -/
def updLinkFall (s : State) (l : Fin 4) : State :=
  let s := match s.upd.session with
    | some x => if x.peer = some l then sessionEnd s Status.aborted else s
    | none => s
  match s.upd.push with
  | some p =>
    if p.link != l then s
    else
      let s := modUpd s fun u => { u with push := none }
      match p.open_, p.verify with
      | some hd, _ => fin s hd 0xC0 Status.aborted
      | none, some hd => fin s hd 0xC2 Status.aborted
      | none, none => s
  | none => s

end Sys2Proof.Machine
end

