-- ==== Sys2Proof/Machine/LnkOps.lean ====
section
/-! DEFINITION. The Colol link (09_colol_link.md): its states, reliability, the time exchange and its delay filter, and
the numbering of slots and shelves. -/
namespace Sys2Proof.Machine

def modLnk (s : State) (f : Lnk → Lnk) : State := { s with lnk := f s.lnk }

/-- Adds to a link's counter (R360): 0 CRC_ERR, 1 resends, 2 LINK_DOWN, 3 completed, 4 lost, 5 WRONG_TYPE, 6 STALE,
    7 FORMAT. -/
def lnkCnt (s : State) (l : Fin 4) (c n : Nat) : State :=
  modLink s l fun k => { k with cnt := vmod k.cnt c fun v => (v + n) % 2 ^ 64 }

/-- Links run in Warm and Boil (R326). -/
def linksPower (s : State) : Bool := s.pwr.phase = .ready && (s.pwr.state = .warm || s.pwr.state = .boil)

def LinkRole.code : LinkRole → Nat
  | .off => 0 | .parent => 1 | .child => 2 | .pair => 3

def LinkState.code : LinkState → Nat
  | .off => 0 | .train => 1 | .hello => 2 | .up => 3 | .down => 4

def roleOf : Nat → Option LinkRole
  | 0 => some .off | 1 => some .parent | 2 => some .child | 3 => some .pair | _ => none

/-- The counterpart of a role (R334). -/
def LinkRole.counterpart : LinkRole → Nat
  | .parent => 2 | .child => 1 | .pair => 3 | .off => 0

/-- The TRUNK mark in force (R335): every PARENT link of a PCIE engine, no PAIR link. Log entry 78. -/
def trunkOn (s : State) (l : Fin 4) : Bool :=
  let k := link s l
  match k.role with
  | .parent => s.glb.pcie || k.trunk
  | .child => k.trunk
  | _ => false

/-- FLAGS of HELLO (R336). -/
def helloFlags (s : State) (l : Fin 4) : Nat :=
  flag (trunkOn s l) 0 + flag s.glb.pcie 1 + flag (link s l).fec 2 + flag (isRoot s) 3

/-! ## Numbering (R345, R604) -/

/-- NODE_ASSIGNED after a change of the node identifier (R345 item 6). -/
def nodeChanged (s : State) (old : BitVec 16) : State :=
  if nodeId s = old then s
  else emit s .lnk 0x0006 .notice (old.toNat + (nodeId s).toNat * 65536) (some 4)

def enumRefused (s : State) (cause : Nat) : State := emit s .lnk 0x0007 .notice cause (some 4)

/-- The lower-lettered TRUNK PARENT link that is UP, of a primary (R345). -/
def trunkParent (s : State) : Option (Fin 4) :=
  (List.finRange 4).find? fun l => (link s l).role = .parent && trunkOn s l && (link s l).st = .up

/-- The way toward the root (R345 item 3). -/
def rootward (s : State) : Option (Fin 4) := if s.glb.pcie then trunkParent s else hostPath s

/-- A slot of the shelf comes or goes at the primary (HIF_SLOTS, SLOT_CHANGE). -/
def slotPresent (s : State) (slot : Nat) (here : Bool) : State :=
  if s.hif.slots.getLsbD slot = here then s
  else
    let m : BitVec 64 := BitVec.ofNat 64 (2 ^ slot)
    let s := { s with hif := { s.hif with slots := if here then s.hif.slots ||| m else s.hif.slots &&& ~~~m } }
    let s := modLnk s fun k => { k with slots := k.slots.map fun e => if e.num = slot then { e with present := here } else e }
    emit s .hif 0x0006 .notice (slot + flag here 8) (some 5)

/-- Records a slot against a link (R345 item 2). -/
def recordRoute (s : State) (slot : Nat) (l : Fin 4) : State :=
  modLnk s fun k => { k with routes := (slot, l) :: k.routes.filter fun r => r.1 != slot }

/-- The number that a table holds for an identity, pinned or kept since the start. -/
def enumFind (t : List EnumEntry) (ident : BitVec 64) : Option EnumEntry := t.find? fun e => e.ident = ident

/-- A number that no identity of the table holds. -/
def enumFree (t : List EnumEntry) (n : Nat) : Bool := !t.any fun e => e.num = n

/-- The lowest free number of a range. -/
def enumLowest (t : List EnumEntry) (lo hi : Nat) : Option Nat :=
  (List.range (hi + 1)).find? fun n => lo ≤ n && enumFree t n

/-- Gives a number to an identity; an unpinned holder of the same number loses it. -/
def enumPut (t : List EnumEntry) (ident : BitVec 64) (n : Nat) (pinned present : Bool) : List EnumEntry :=
  { ident := ident, num := n, pinned := pinned, present := present } ::
    t.filter fun e => e.ident != ident && (e.pinned || e.num != n)

/-- The slot of an identity (R345 item 2): pinned or held, else the lowest free from 1 to 63. -/
def chooseSlot (t : List EnumEntry) (ident : BitVec 64) : Option (Nat × Bool) :=
  match enumFind t ident with
  | some e => some (e.num, e.pinned)
  | none => (enumLowest t 1 63).map fun n => (n, false)

/-- The shelf of an identity (R345 item 4): pinned; the preference; held; the lowest free from 1 to 1,023. -/
def chooseShelf (t : List EnumEntry) (ident : BitVec 64) (pref : Option (BitVec 10)) : Option (Nat × Bool) :=
  match enumFind t ident with
  | some e =>
    if e.pinned then some (e.num, true)
    else match pref with
      | some p => if 1 ≤ p.toNat && enumFree (t.filter fun x => x.ident != ident) p.toNat then some (p.toNat, false) else some (e.num, false)
      | none => some (e.num, false)
  | none =>
    let low := (enumLowest t 1 1023).map fun n => (n, false)
    match pref with
    | some p => if 1 ≤ p.toNat && enumFree t p.toNat then some (p.toNat, false) else low
    | none => low

/-- SLOT_REQ up the host path (R345 item 1). Log entry 77. -/
def slotRequest (s : State) : State :=
  match hostPath s with
  | some l => linkSend s l (.slotReq Config.identity [])
  | none => s

/-- SHELF_REQ toward the root (R345 item 3). -/
def shelfRequest (s : State) : State :=
  if s.glb.pcie && !isRoot s && !rb s Rg.lnkNodeCfg 16 then
    match trunkParent s with
    | some l => linkSend (modLnk s fun k => { k with shelfReqAt := s.now }) l (.shelfReq Config.identity s.lnk.shelf [])
    | none => s
  else s

/-- SHELF_UPDATE to every slot of the shelf (R345 item 6). -/
def shelfUpdates (s : State) : State :=
  match s.glb.pcie, shelfNum s with
  | true, some sh => s.lnk.routes.foldl (fun s r =>
      if (link s r.2).st = .up then linkSend s r.2 (.shelfUpdate (BitVec.ofNat 6 r.1) (BitVec.ofNat 10 sh)) else s) s
  | _, _ => s

/-- A request that cannot grow its ROUTE (R345). -/
def routeFull (s : State) : State := enumRefused (modLnk s fun k => { k with enumDropped := k.enumDropped + 1 }) 2

/-- SLOT_REQ arrives on a link (R345 items 1 and 2). Log entry 77. -/
def rxSlotReq (s : State) (l : Fin 4) (ident : BitVec 64) (route : List (Fin 4)) : State :=
  if s.glb.pcie then
    if !coreUp s 3 then s
    else match chooseSlot s.lnk.slots ident with
      | none => enumRefused s 1
      | some (n, pin) =>
        let s := modLnk (recordRoute s n l) fun k => { k with slots := enumPut k.slots ident n pin true }
        let s := slotPresent s n true
        linkSend s l (.slotAssign ident (BitVec.ofNat 6 n) ((shelfNum s).map (BitVec.ofNat 10)) route)
  else if 32 ≤ route.length then routeFull s
  else match hostPath s with
    | some h => linkSend s h (.slotReq ident (l :: route))
    | none => s

/-- SLOT_ASSIGN retraces ROUTE (R345 item 2). -/
def rxSlotAssign (s : State) (ident : BitVec 64) (slot : BitVec 6) (shelf : Option (BitVec 10)) (route : List (Fin 4)) : State :=
  match route with
  | l :: rest =>
    let s := recordRoute s slot.toNat l
    if (link s l).st = .up then linkSend s l (.slotAssign ident slot shelf rest) else s
  | [] =>
    if s.glb.pcie || ident != Config.identity then s
    else
      let old := nodeId s
      nodeChanged (modLnk s fun k => { k with slot := some slot, shelf := if shelf.isSome then shelf else k.shelf }) old

/-- The SHELF_REQ claims of this tick that wait and come from a lower IDENTITY, by rising IDENTITY (R345 item 4, R355). -/
def lowerClaims (s : State) (ident : BitVec 64) : List (BitVec 64 × Option (BitVec 10)) :=
  (s.pending.filterMap fun c => match c with
    | .linkFrameRx l _ _ f => match f.body with
      | .shelfReq i p _ => if (link s l).role = .child && f.crcOk && f.lenOk && i.toNat < ident.toNat then some (i, p) else none
      | _ => none
    | _ => none).foldl place []
where
  /-- Takes one claim into its place. -/
  place (cs : List (BitVec 64 × Option (BitVec 10))) (x : BitVec 64 × Option (BitVec 10)) : List (BitVec 64 × Option (BitVec 10)) :=
    cs.takeWhile (fun c => c.1.toNat ≤ x.1.toNat) ++ x :: cs.dropWhile (fun c => c.1.toNat ≤ x.1.toNat)

/-- The shelf table as it stands once claims have been answered. -/
def takeClaims (t : List EnumEntry) (cs : List (BitVec 64 × Option (BitVec 10))) : List EnumEntry :=
  cs.foldl (fun t c => match chooseShelf t c.1 c.2 with | some (n, pin) => enumPut t c.1 n pin true | none => t) t

/-- SHELF_REQ arrives on a CHILD link (R345 items 3 and 4). -/
def rxShelfReq (s : State) (l : Fin 4) (ident : BitVec 64) (pref : Option (BitVec 10)) (route : List (Fin 4)) : State :=
  if isRoot s then
    if !coreUp s 3 then s
    else match chooseShelf (takeClaims s.lnk.shelves (lowerClaims s ident)) ident pref with
      | none => enumRefused s 1
      | some (n, pin) =>
        let s := modLnk s fun k => { k with shelves := enumPut k.shelves ident n pin true }
        linkSend s l (.shelfAssign ident (BitVec.ofNat 10 n) route)
  else if 32 ≤ route.length then routeFull s
  else match rootward s with
    | some h => linkSend s h (.shelfReq ident pref (l :: route))
    | none => s

/-- SHELF_ASSIGN retraces ROUTE (R345 items 4 and 6). -/
def rxShelfAssign (s : State) (ident : BitVec 64) (shelf : BitVec 10) (route : List (Fin 4)) : State :=
  match route with
  | l :: rest => if (link s l).st = .up then linkSend s l (.shelfAssign ident shelf rest) else s
  | [] =>
    if !s.glb.pcie || ident != Config.identity || rb s Rg.lnkNodeCfg 16 || isRoot s then s
    else
      let old := nodeId s
      let changed := shelfNum s != some shelf.toNat
      let s := nodeChanged (modLnk s fun k => { k with shelf := some shelf }) old
      if changed then shelfUpdates s else s

/-- SHELF_UPDATE for a slot (R345 item 6). -/
def rxShelfUpdate (s : State) (slot : BitVec 6) (shelf : BitVec 10) : State :=
  if !s.glb.pcie && s.lnk.slot = some slot then
    let old := nodeId s
    nodeChanged (modLnk s fun k => { k with shelf := some shelf }) old
  else match routeTo s slot.toNat with
    | some l => if (link s l).st = .up then linkSend s l (.shelfUpdate slot shelf) else s
    | none => modLnk s fun k => { k with noRoute := k.noRoute + 1 }

/-! ## Link states (R327, R346, R353) -/

/-- A posted frame whose loss counts TUNNEL_LOST (R353). -/
def isPosted : LinkBody → Bool
  | .tunnel _ _ _ t => match t with
    | .dmaWr .. => true | .msi _ => true | .doorbell .. => true | _ => false
  | _ => false

/-- Slots recorded against a fallen link are no longer recorded (entry 28). -/
def dropRoutes (s : State) (l : Fin 4) : State :=
  let gone := s.lnk.routes.filter fun r => r.2 = l
  let s := modLnk s fun k => { k with routes := k.routes.filter fun r => r.2 != l }
  if s.glb.pcie then gone.foldl (fun s r => slotPresent s r.1 false) s else s

/-- A link falls from UP to DOWN with a cause (R346, R353). Log entry 28. -/
def linkFall (s : State) (l : Fin 4) (cause : Nat) : State :=
  if (link s l).st != .up then s else
  let path := hostPath s
  let k := link s l
  let lost := ((k.retry.map fun u => u.body) ++ k.waiting).countP isPosted
  let s := modLnk s fun n => { n with tunnelLost := n.tunnelLost + lost }
  let s := modLink s l fun k =>
    { k with st := .down, downAt := s.now, retry := [], waiting := [], passed := 0, exch := [], ackDue := false, farOk := false, ackOk := false,
             mismatched := false, pantryDown := k.pantryDown + 1 }
  let s := emit (lnkCnt (dropRoutes s l) l 2 1) .lnk 0x0002 .degraded (l.val + cause * 256) (some 0)
  let s := updLinkFall (if k.role = .pair then pairSeek s else s) l
  if hostPath s != path && (hostPath s).isSome then slotRequest s else s

/-- A link goes to the state that role, LNK_EN and power give it (R327): OFF, or TRAIN from OFF. -/
def linkGate (s : State) (l : Fin 4) : State :=
  let on := (link s l).role != .off && rb s Rg.lnkCtrl 0 && linksPower s
  if on then modLink s l fun k => { k with st := if k.st = .off then .train else k.st }
  else
    let s := linkFall s l 4
    modLink s l fun k => { k with st := .off, farOk := false, ackOk := false, mismatched := false }

def linkGates (s : State) : State := (List.finRange 4).foldl linkGate s

/-- A link takes TRAIN from HELLO, on a loss of lock or a restart. Log entry 78. -/
def helloToTrain (s : State) (l : Fin 4) : State :=
  modLink s l fun k => if k.st = .hello then { k with st := .train, farOk := false, ackOk := false, mismatched := false } else k

/-- The engine sends a HELLO (R336). Before UP a HELLO carries LSEQ 1 (entry 29). -/
def sendHello (s : State) (l : Fin 4) : State :=
  let k := link s l
  let s := modLink s l fun k => { k with helloAt := s.now, txAt := s.now, ackDue := false }
  outLink s l { lseq := 1, ack := k.rxSeq, crcOk := true, lenOk := true,
                body := .hello Config.identity (nodeId s) (BitVec.ofNat 8 k.role.code) (BitVec.ofNat 8 (helloFlags s l)) }

/-- Index of the TX_PERIOD boundary that the counter has reached (R338). -/
def txIndexNow (s : State) (l : Fin 4) : Nat :=
  let lg := sInt 4 (ind s .lnk 1 (4 * l.val))
  let ms := 1000000 * 2 ^ 48
  s.tco.counter / (if 0 ≤ lg then ms * 2 ^ lg.toNat else ms / 2 ^ (-lg).toNat)

/-- A link rises to UP (R327, R331, R345). Log entry 29. -/
def linkRise (s : State) (l : Fin 4) : State :=
  let path := hostPath s
  let idx := txIndexNow s l
  let s := modLink s l fun k =>
    { k with st := .up, txSeq := 0, rxSeq := 0, retry := [], waiting := [], passed := 0, resends := 0, ackDue := false, rxAt := s.now, txAt := s.now,
             exch := [], lastReq := some idx, delays := [], held := [], holding := false, exchanged := false, crcSec := 0, errAt := s.now }
  let k := link s l
  let s := emit s .lnk 0x0001 .notice (l.val + k.role.code * 16 + flag (trunkOn s l) 6 + k.farNode.toNat * 65536) (some 0)
  let s := if k.role = .pair then pairRise s l else s
  let s := if hostPath s != path then slotRequest s else s
  if trunkParent s = some l then shelfRequest s else s

/-- The link rises once a compatible HELLO and an ACK of its own have come (R327). -/
def tryRise (s : State) (l : Fin 4) : State :=
  let k := link s l
  if k.st = .hello && k.farOk && k.ackOk then linkRise s l else s

/-- Acknowledges a HELLO at once, before the numbering starts anew at UP (entry 29). -/
def ackHello (s : State) (l : Fin 4) : State :=
  let s := modLink s l fun k => { k with txAt := s.now, ackDue := false }
  outLink (perfAdd s (256 + 16 * l.val + 8) 1) l { lseq := 0, ack := 1, crcOk := true, lenOk := true, body := .idle }

/-- A HELLO from the far end (R336, R337). -/
def rxHello (s : State) (l : Fin 4) (ident : BitVec 64) (node : BitVec 16) (role flags : BitVec 8) : State :=
  let s := modLink s l fun k => { k with farIdent := ident, farNode := node, farRole := role, farFlags := flags, rxSeq := 1 }
  let s := ackHello s l
  let k := link s l
  let own := ident = Config.identity
  let trunkBad := flags.getLsbD 0 != trunkOn s l
  if own || trunkBad || role.toNat != k.role.counterpart then
    let s := modLink s l fun k => { k with mismatched := true, farOk := false }
    if k.mismatched then s
    else emit s .lnk 0x0003 .degraded (l.val + k.role.code * 16 + fld role.toNat 1 0 * 256 + flag trunkBad 12 + flag own 13) (some 1)
  else tryRise (modLink s l fun k => { k with mismatched := false, farOk := true }) l

/-! ## Reliability (R331, R332) -/

/-- A cumulative ACK (R328, R331): frames up to it leave the retry buffer. -/
def rxAck (s : State) (l : Fin 4) (ack : BitVec 16) : State :=
  let k := link s l
  match k.retry.findIdx? fun u => u.lseq = ack with
  | none => s
  | some i =>
    let s := modLink s l fun k => { k with retry := k.retry.drop (i + 1), resends := 0 }
    pumpWaiting k.waiting.length s l

/-- Every unacknowledged frame is sent again, oldest first (R332). -/
def resendAll (s : State) (l : Fin 4) : State :=
  let k := link s l
  let s := k.retry.foldl (fun s u => outLink s l { lseq := u.lseq, ack := k.rxSeq, crcOk := true, lenOk := true, body := u.body }) s
  let s := modLink s l fun k => { k with retry := k.retry.map fun u => { u with sent := s.now }, resends := k.resends + 1,
                                         txAt := s.now, ackDue := false, pantryRes := k.pantryRes + 1 }
  perfAdd (lnkCnt s l 1 1) (256 + 16 * l.val + 7) 1

/-! ## The time exchange (R338 to R343) -/

/-- The uncertainty of a link's unit with the widening of a coasting ILP-S (R52, R341), in 62.5 ps. -/
def unitU (s : State) (u : Nat) : Nat := ind s .tco 2 u + coastWidenAt s 1 2 s.now

/-- TIME_RESP (R339). Log entry 77. -/
def timeAnswer (s : State) (l : Fin 4) (seq : BitVec 32) (t2 : Nat) : State :=
  let (ph, s) := freeN s
  let u := 9 + l.val
  let t3 := (stampSub s u 1 (Fin.ofNat 16 ph) % ((counterMod / 2 ^ 32 : Nat) : Int)).toNat
  let teb : BitVec 32 := if s.tco.st = .night || safe s .lnk then unboundedTeb else BitVec.ofNat 32 (unitTeb s u)
  linkSend s l (.timeResp seq t2 t3 teb (BitVec.ofNat 8 (hopsNow s)) (BitVec.ofNat 8 (s.tco.st.code + flag (unitCoast s u) 3)) (nodeId s))

def delayStep (s : State) : Int := 4096 * ((getW s Rg.lnkDelayStep).toNat : Int)

/-- The delay filter (R343): whether the exchange is held, and the link with its mean. No register shows the count of held
    exchanges. -/
def delayFilter (s : State) (l : Fin 4) (d : Int) : State × Bool :=
  let k := link s l
  let far := !k.delays.isEmpty && decide (delayStep s < (d - k.delay).natAbs)
  if !far then
    let ds := (d :: k.delays).take 16
    let s := modLink s l fun k => { k with delays := ds, delay := meanOf ds }
    if !k.holding then (s, false)
    else
      let h := if k.held.all fun x => decide ((x - d).natAbs ≤ delayStep s) then d :: k.held else [d]
      (modLink s l fun k => if 16 ≤ h.length then { k with delays := h, delay := meanOf h, held := [], holding := false } else { k with held := h }, false)
  else
    let h := if k.holding && k.held.all (fun x => decide ((x - d).natAbs ≤ delayStep s)) then d :: k.held else [d]
    let s := modLink s l fun k =>
      if 16 ≤ h.length then { k with delays := h, delay := meanOf h, held := [], holding := false }
      else { k with held := h, holding := true }
    let s := modLink s l fun k => { k with heldCnt := k.heldCnt + 1 }
    (if k.holding then s
     else emit s .lnk 0x0005 .degraded (l.val + satInt 48 (d - k.delay) * 65536) (some 3), true)

/-- The slot that a PARENT link feeds (R610). -/
def fedSlot (s : State) (l : Fin 4) : Option (Fin 16) :=
  if s.refs.bind14 = some l then some 14 else if s.refs.bind15 = some l then some 15 else none

/-- A TIME_RESP arrives (R340 to R343). -/
def rxTimeResp (s : State) (l : Fin 4) (phase : Fin 16) (seq : BitVec 32) (t2 t3 : Nat) (teb : BitVec 32) (hops state : BitVec 8)
    (node : BitVec 16) : State :=
  let k := link s l
  match k.exch.find? fun e => e.seq = seq with
  | none => lnkCnt s l 6 1
  | some e =>
    let t4 := stampSub s (9 + l.val) 0 phase
    let asym : Int := 4096 * sInt 32 (ind s .lnk 1 (4 * l.val + 1))
    let o := roundDiv (subDiff t2 e.t1 - subDiff t4 t3) 2 - asym
    let d := roundDiv (subDiff t4 e.t1 - subDiff t3 t2) 2
    let s := modLink s l fun k =>
      { k with exch := k.exch.filter fun x => x.seq != seq, exchanged := true, o := o, farNode := node, farHops := hops,
               farState := BitVec.ofNat 3 (fld state.toNat 2 0), farTeb := teb }
    let (s, held) := delayFilter (lnkCnt s l 3 1) l d
    let s := if k.role = .pair then pairEval (modLink s l fun k => { k with offs := (o :: k.offs).take 16 }) else s
    match (if k.role = .parent then fedSlot s l else none) with
    | none => s
    | some i =>
      let unb := teb = unboundedTeb || decide (16 ≤ hops.toNat)
      let valid := !unb && !state.getLsbD 4 && !e.stepped && !held && !safe s .lnk
      let s := advertise s i (if unb then 0xFF else cololRank teb)
      let s := if valid then modLink s l fun k => { k with validHops := hops.toNat } else s
      measure s i o e.tick (4096 * (teb.toNat + unitU s (9 + l.val) + ind s .lnk 1 (4 * l.val + 2))) valid

/-! ## Roles (R25, R610) -/

/-- The link leaves PARENT: its slot loses its binding (R610). -/
def unbindParent (s : State) (l : Fin 4) : State :=
  if s.refs.bind14 = some l then modRefs (slotGone s 14 1) fun r => { r with bind14 := none }
  else if s.refs.bind15 = some l then modRefs (slotGone s 15 1) fun r => { r with bind15 := none }
  else s

/-- The link enters PARENT: it is bound to slot 14 if that is free, else to 15 (R610). -/
def bindParent (s : State) (l : Fin 4) : State :=
  if s.refs.bind14.isNone then slotGone (modRefs s fun r => { r with bind14 := some l }) 14 1
  else if s.refs.bind15.isNone then slotGone (modRefs s fun r => { r with bind15 := some l }) 15 1
  else s

/-- A role that keeps the limits of R25. -/
def roleFits (s : State) (l : Fin 4) (role : LinkRole) : Bool :=
  let others := (List.finRange 4).filter fun m => m != l
  let n := fun r => others.countP fun m => (link s m).role = r
  match role with
  | .parent => n .parent < 2
  | .pair => n .pair = 0
  | _ => true

end Sys2Proof.Machine
end

