-- ==== Sys2Proof/Machine/Lnk.lean ====
section
/-! DEFINITION. The commands and timed events of the Colol link (09_colol_link.md); an arriving frame is in LinkRx.lean. -/
namespace Sys2Proof.Machine

/-- LINK_ALIGNED: both lanes hold block lock and are aligned (R327). Log entry 81. -/
def execLinkAligned (lk : Fin 4) (s : State) : Ans :=
  .next (
    if (link s lk).st != .train then s
    else modLink s lk fun k => { k with st := .hello, farOk := false, ackOk := false, mismatched := false, rxSeq := 0, helloAt := s.now,
                                        txAt := s.now, ackDue := false })

/-- LINK_HELLO_SEND (R336). -/
def execLinkHelloSend (lk : Fin 4) (s : State) : Ans :=
  .next (if (link s lk).st != .hello || decide (s.now < (link s lk).helloAt + ticksMs 1) then s else sendHello s lk)

/-- LINK_RETRAIN: 1 ms after a fall (R327). -/
def execLinkRetrain (lk : Fin 4) (s : State) : Ans :=
  .next (
    if (link s lk).st != .down || decide (s.now < (link s lk).downAt + ticksMs 1) then s
    else modLink s lk fun k => { k with st := .train })

/-- TX_PERIOD in ticks (R338). -/
def txPeriod (s : State) (l : Fin 4) : Nat :=
  let lg := sInt 4 (ind s .lnk 1 (4 * l.val))
  if 0 ≤ lg then ticksMs 1 * 2 ^ lg.toNat else ticksMs 1 / 2 ^ (-lg).toNat

/-- TIME_REQ_SEND (R338): on a TX_PERIOD boundary of the counter, with at most eight exchanges outstanding. -/
def execTimeReqSend (lk : Fin 4) (s : State) : Ans :=
  .next (
    let k := link s lk
    let idx := txIndexNow s lk
    if k.st != .up || (k.role != .parent && k.role != .pair) || k.lastReq = some idx || decide (8 ≤ k.exch.length) then s
    else
      let (ph, s) := freeN s
      let t1 := stampSub s (9 + lk.val) 1 (Fin.ofNat 16 ph)
      let q := k.seq + 1
      linkSend (modLink s lk fun k => { k with seq := q, lastReq := some idx,
                                               exch := k.exch ++ [{ seq := q, t1 := t1, tick := s.now, stepped := false }] }) lk (.timeReq q))

/-- The TIME_RESP of an exchange waits (R355). Log entry 34. -/
def respWaits (s : State) (l : Fin 4) (seq : BitVec 32) : Bool :=
  linkWaits s l fun f => f.lenOk && match f.body with | .timeResp q .. => q = seq | _ => false

/-- EXCHANGE_LOST (R341): max(8 × TX_PERIOD, 1 ms) after t1; an answer of that tick wins (R355). -/
def execExchangeLost (lk : Fin 4) (s : State) : Ans :=
  .next (
    let late := fun (e : Exchange) =>
      let t := e.tick + max (8 * txPeriod s lk) (ticksMs 1)
      decide (t < s.now) || (t = s.now && !respWaits s lk e.seq)
    let n := (link s lk).exch.countP late
    if n = 0 then s else lnkCnt (modLink s lk fun k => { k with exch := k.exch.filter fun e => !late e }) lk 4 n)

/-- LINK_IDLE_SEND (R330): no frame has left for 4 µs, or an ACK is due that no other frame carries. -/
def execLinkIdleSend (lk : Fin 4) (s : State) : Ans :=
  .next (
    let k := link s lk
    if (k.st != .up && k.st != .hello) || (!k.ackDue && decide (s.now < k.txAt + ticksUs 4)) then s else sendNow s lk .idle)

/-- A frame whose ACK advances waits (R355). Log entry 34. -/
def ackWaits (s : State) (l : Fin 4) : Bool :=
  linkWaits s l fun f => f.lenOk && (link s l).retry.any fun u => u.lseq = f.ack

/-- RETRY_TIMEOUT (R332): the oldest unacknowledged frame has waited RETRY_TO; an ACK advance of that tick wins (R355).
    Log entry 78. -/
def execRetryTimeout (lk : Fin 4) (s : State) : Ans :=
  .next (
    let k := link s lk
    match k.retry with
    | [] => s
    | u :: _ =>
      let t := u.sent + ticksUs (retryUs k)
      if k.st != .up || decide (s.now < t) || (s.now = t && ackWaits s lk) then s
      else if 8 ≤ k.resends then linkFall s lk 3 else resendAll s lk)

/-- LINK_DEAD_TIMEOUT (R346 cause 2); a frame of that tick wins (R355). -/
def execLinkDeadTimeout (lk : Fin 4) (s : State) : Ans :=
  .next (
    let t := (link s lk).rxAt + ticksUs (getW s Rg.lnkDeadTo).toNat
    if (link s lk).st != .up || decide (s.now < t) || (s.now = t && linkWaits s lk fun _ => true) then s else linkFall s lk 2)

/-- LINK_LOCK_LOSS (R327, R346 cause 1). -/
def execLinkLockLoss (lk : Fin 4) (s : State) : Ans := .next (helloToTrain (linkFall s lk 1) lk)

/-- The REG_CPL of a tunnelled access waits (R351, R480). Log entry 34. -/
def cplWaits (s : State) (a : RemoteAcc) : Bool :=
  (List.finRange 4).any fun l => linkWaits s l fun f => f.lenOk && match f.body with
    | .tunnel 0 src tag (.regCpl ..) => src.toNat = a.slot && tag = a.tag
    | _ => false

/-- REMOTE_TIMEOUT (R351): the oldest tunnelled access has had no REG_CPL for 20 µs. -/
def execRemoteTimeout (s : State) : Ans :=
  .next (
    match s.hif.remote with
    | [] => s
    | a :: r =>
      if s.now < a.deadline || (s.now = a.deadline && cplWaits s a) then s
      else
        let s := { s with hif := { s.hif with remote := r } }
        let s := if a.write then s else emitOut s (.read a.addr 0xFFFFFFFF)
        emit s .lnk 0x0008 .notice (a.slot % 64 + a.addr % 2 ^ 21 * 256) (some 5))

/-- SHELF_REQ_PERIODIC (R345 item 3). -/
def execShelfReqPeriodic (s : State) : Ans :=
  .next (if s.now < s.lnk.shelfReqAt + ticksS 60 then s else shelfRequest s)

/-- LINK_ERRORS: the CRC errors of one second (R354). Log entry 78. -/
def execLinkErrors (lk : Fin 4) (s : State) : Ans :=
  .next (
    let k := link s lk
    if s.now < k.errAt + ticksS 1 then s
    else
      let s := modLink s lk fun k => { k with crcSec := 0, errAt := s.now }
      if k.crcSec ≤ (getW s Rg.lnkErrLimit).toNat then s
      else emit s .lnk 0x0004 .notice (lk.val + sat32 k.crcSec * 2 ^ 32) (some 2))

/-! ## Commands (R356) -/

def linkOf (b : BitVec 8) : Option (Fin 4) := if h : b.toNat < 4 then some ⟨b.toNat, h⟩ else none

/-- LINK_QUERY. Log entry 77. -/
def execLinkQuery (hd : Hdr) (lk : BitVec 8) (s : State) : Ans :=
  cmd s hd 0x90 (badIf (linkOf lk).isNone) fun s =>
    match linkOf lk with
    | none => s
    | some l =>
      let k := link s l
      complete s hd 0x90 Status.ok 38 (pack [(0, k.st.code), (1, k.role.code), (2, helloFlags s l), (4, k.farNode.toNat), (8, k.farIdent.toNat),
        (16, uInt 64 k.o), (24, uInt 64 k.delay), (32, k.farTeb.toNat), (36, k.farHops.toNat),
        (37, match fedSlot s l with | some i => i.val | none => 0xFF)])

/-- A change of role, TRUNK or FEC_EN: the link falls with cause 4 and takes its new place (R25, R27, R346, R355, R610).
    Log entry 78. -/
def setRole (s : State) (l : Fin 4) (role : LinkRole) (trunk fec : Bool) : State :=
  let k := link s l
  if k.role = role && k.trunk = trunk && k.fec = fec then s
  else
    let s := helloToTrain (linkFall s l 4) l
    let s := if k.role = .parent && role != .parent then unbindParent s l else s
    let s := if k.role = .pair && role != .pair then lineRelease s else s
    let s := modLink s l fun k => { k with role := role, trunk := trunk, fec := fec, offs := [] }
    let s := if k.role != .parent && role = .parent then bindParent s l else s
    let s := if k.role != .pair && role = .pair then modPair s fun p => { p with highAt := if p.line then some s.now else none } else s
    refreshOuts (linkGate s l) false

/-- LINK_ROLE_SET (R25). -/
def execLinkRoleSet (hd : Hdr) (lk role flags : BitVec 8) (s : State) : Ans :=
  let ok := match linkOf lk, roleOf role.toNat with
    | some l, some r => roleFits s l r
    | _, _ => false
  cmd s hd 0x91 (badIf !ok) fun s =>
    match linkOf lk, roleOf role.toNat with
    | some l, some r => fin (setRole s l r (flags.getLsbD 0) (flags.getLsbD 1)) hd 0x91 Status.ok
    | _, _ => s

/-- LINK_RESTART (R346). -/
def execLinkRestart (hd : Hdr) (lk : BitVec 8) (s : State) : Ans :=
  cmd s hd 0x92 (badIf (linkOf lk).isNone) fun s =>
    match linkOf lk with
    | none => s
    | some l =>
      if (link s l).st = .off then fin s hd 0x92 Status.state
      else fin (helloToTrain (linkFall s l 4) l) hd 0x92 Status.ok

/-- The table that a command names may be used here: slots at a primary, shelves at the root. -/
def enumHere (s : State) (shelves : Bool) : Bool := if shelves then isRoot s else s.glb.pcie

def enumTable (s : State) (shelves : Bool) : List EnumEntry := if shelves then s.lnk.shelves else s.lnk.slots

def setEnumTable (s : State) (shelves : Bool) (t : List EnumEntry) : State :=
  modLnk s fun k => if shelves then { k with shelves := t } else { k with slots := t }

/-- SHELF_PIN (R345). Log entry 77. -/
def execShelfPin (hd : Hdr) (table pin : BitVec 8) (num : BitVec 16) (ident : BitVec 64) (s : State) : Ans :=
  let sh := table = 1
  let bad := decide (1 < table.toNat) || decide (1 < pin.toNat) || num = 0 || decide ((if sh then 1023 else 63) < num.toNat)
  let t := enumTable s sh
  let gone := pin = 0 && !t.any fun e => e.ident = ident && e.pinned
  cmd s hd 0x93 (if bad then some Status.badArg else if gone then some Status.notFound else none) fun s =>
    if !enumHere s sh then fin s hd 0x93 Status.state
    else
      let here := t.any fun e => e.ident = ident && e.present && e.num = num.toNat
      let t' := if pin = 1 then
          { ident := ident, num := num.toNat, pinned := true, present := here } :: t.filter fun e => e.ident != ident && e.num != num.toNat
        else t.map fun e => if e.ident = ident then { e with pinned := false } else e
      fin (setEnumTable s sh t') hd 0x93 Status.ok

/-- The 16 bytes of a table entry (R356). Log entry 77. -/
def enumBytes (e : EnumEntry) : List Byte :=
  leBytes 8 e.ident.toNat ++ leBytes 2 e.num ++ leBytes 1 (flag e.pinned 0 + flag e.present 1) ++ List.replicate 5 0

/-- ENUM_LIST: entries by rising number from `first` (R356). -/
def execEnumList (hd : Hdr) (table : BitVec 8) (first : BitVec 32) (addr : BitVec 64) (count : BitVec 32) (s : State) : Ans :=
  let sh := table = 1
  cmd s hd 0x94 (badIf (decide (1 < table.toNat))) fun s =>
    if !enumHere s sh then fin s hd 0x94 Status.state
    else
      let t := enumTable s sh
      let all := (List.range 1024).flatMap fun n => t.filter fun e => e.num = n
      let l := (all.filter fun e => first.toNat ≤ e.num).take count.toNat
      let next := match l.getLast? with | some e => e.num + 1 | none => first.toNat
      let s := if l.isEmpty then s else hostDma s addr.toNat (l.map enumBytes).flatten
      complete s hd 0x94 Status.ok 8 (pack [(0, l.length), (4, next)])

end Sys2Proof.Machine
end

