-- ==== Sys2Proof/Machine/Pair.lean ====
section
/-! DEFINITION. The commands and events of redundant pair operation (10_redundant_pair.md R361 to R388). What ACTIVE_N reads is
the board's, an operand of the events that read it. -/
namespace Sys2Proof.Machine

/-- A unit with a link in PAIR role, in a state that can claim and mirror. -/
def pairLive (s : State) : Bool := s.pwr.phase = .ready && (pairRole s).isSome && (s.pwr.state = .warm || s.pwr.state = .boil)

/-- HEARTBEAT_SEND (R365, R367). -/
def execHeartbeatSend (s : State) : Ans :=
  .next (if !pairLive s || !coreUp s 2 || decide (s.now < s.pair.hbAt + hbTicks s) then s else heartbeat s)

/-- A heartbeat waits on the PAIR link at this tick (R384). Log entry 34. -/
def beatWaits (s : State) : Bool :=
  match pairLink s with
  | some l => linkWaits s l fun f => f.lenOk && match f.body with | .heartbeat .. => true | _ => false
  | none => false

/-- HEARTBEAT_MISS (R367, R384): `held` says that the line reads low; a heartbeat of that tick wins. -/
def execHeartbeatMiss (held : Bool) (s : State) : Ans :=
  .next (
    let t := s.pair.heardAt + (s.pair.missed + 1) * hbTicks s
    if !pairLive s || !s.pair.partner.seen || decide (s.now < t) || (s.now = t && beatWaits s) then s
    else
      let s := modPair s fun p => { p with missed := p.missed + 1 }
      if s.pair.missed < 3 then s
      else
        let s := modPair s fun p => { p with line := !held, lostFirst := held, partner := { p.partner with seen := false } }
        pairSeek (emit s .pair 0x0004 .degraded (flag held 0) (some 3)))

/-- CLAIM_WAIT_EXPIRY (R363): the line has read high for CLAIM_WAIT and the standby drives it low. -/
def execClaimWaitExpiry (s : State) : Ans :=
  .next (
    let wait := ticksUs (if preferredNow s then 10 else 60)
    let early := match s.pair.highAt with | some t => decide (s.now < t + wait) | none => false
    if !pairLive s || !rb s Rg.pairCtrl 0 || s.pair.holding || s.pair.drive || safe s .pair || early || s.pwr.pwrFailLow || s.pwr.failed then s
    else emitOut (modPair s fun p => { p with drive := true, driveAt := some s.now, line := false, highAt := none, stuckAt := none }) (.line true))

/-- CLAIM_CHECK (R363): 1 µs after driving, the line reads low or high. Log entry 51. -/
def execClaimCheck (low : Bool) (s : State) : Ans :=
  .next (
    match s.pair.driveAt with
    | some t =>
      if s.pair.holding || !s.pair.drive || decide (s.now < t + ticksUs 1) then s
      else if low then promote s else lineFault (dropLine s true) 2
    | none => s)

/-- HOLD_WATCHDOG_LAPSE (R364, R365): a refresh of this tick wins (R480). -/
def execHoldWatchdogLapse (s : State) : Ans :=
  .next (
    let end_ := s.pair.refreshAt + 10 * hbTicks s
    let refreshed := end_ = s.now && pairLive s && coreUp s 2 && s.pending.contains .heartbeatSend
    if s.pair.holding && decide (end_ ≤ s.now) && !refreshed then lineRelease s else s)

/-- LINE_STUCK_LOW (R369): the line reads low for 100 ms while the partner's heartbeats show that it is not holding. -/
def execLineStuckLow (s : State) : Ans :=
  .next (
    if !pairLive s || s.pair.drive || !s.pair.partner.seen || s.pair.partner.flags.getLsbD 0 || s.pair.stuckAt.isSome then s
    else lineFault (modPair s fun p => { p with line := false, stuckAt := some s.now }) 1)

/-- ACTIVE_N_READ_HIGH (R369): a holding unit reads the line high. Log entry 51. -/
def execActiveNReadHigh (s : State) : Ans :=
  .next (if s.pair.holding then lineFault (dropLine s true) 2 else s)

/-- The CONFIRM that would end the ceremony waits at this tick (R480). Log entry 34. -/
def confirmWaits (s : State) (c : Ceremony) : Bool :=
  c.key.isSome && (match pairLink s with
    | some l => linkWaits s l fun f => match f.body with | .pairConfirm _ => true | _ => false
    | none => false)

/-- PAIR_CEREMONY_TIMEOUT (R370): a CONFIRM of this tick wins (R480). Log entry 52. -/
def execPairCeremonyTimeout (s : State) : Ans :=
  .next (
    match s.pair.cer with
    | some c =>
      if s.now < c.started + ticksS 5 || (s.now = c.started + ticksS 5 && confirmWaits s c) then s
      else ceremonyFail s c (if c.peerNonce.isNone then 2 else if c.key.isNone then 3 else 5) 4 Status.aborted
    | none => s)

/-- SWAP_PERIOD_EXPIRY (R378). -/
def execSwapPeriodExpiry (s : State) : Ans :=
  .next (
    let p := (getW s Rg.pairSwapPeriod).toNat
    let due := match s.pair.swapRetry with
      | some t => decide (t ≤ s.now)
      | none => decide (s.pair.swapAt + ticksS p ≤ s.now)
    if !pairLive s || p = 0 || !s.pair.holding || s.pair.swap.isSome || !due then s
    else if mayPropose s then proposeSwap s none
    else modPair s fun q => { q with swapRetry := some (s.now + ticksS 3600) })

/-- SWAP_SELF_CHECK (R379 step 2, R380): the standby accepts or aborts. -/
def execSwapSelfCheck (s : State) : Ans :=
  .next (
    match s.pair.swap with
    | some w =>
      if !w.incoming || w.checked || !coreUp s 2 || !reached s (hMinus s w 200000000) then s
      else
        let m := selfCheck s
        let s := modPair s fun p => { p with check := BitVec.ofNat 11 m, swap := some { w with checked := true, accepted := m = 0 } }
        if m = 0 then (match pairLink s with | some l => linkSend s l .swapAccept | none => s)
        else swapAbort s m true
    | none => s)

/-- A SWAP_ACCEPT waits on the PAIR link at this tick (R384). Log entry 34. -/
def acceptWaits (s : State) : Bool :=
  match pairLink s with
  | some l => linkWaits s l fun f => f.lenOk && f.body = .swapAccept
  | none => false

/-- SWAP_LAST_CALL (R379 step 3, R384): the active aborts unless ACCEPT has arrived. -/
def execSwapLastCall (s : State) : Ans :=
  .next (
    match s.pair.swap with
    | some w =>
      if w.incoming || w.accepted || acceptWaits s || !reached s (hMinus s w 100000000) then s
      else swapAbort s (flag (!s.pair.partner.seen) 8) true
    | none => s)

/-- SWAP_DRIVE (R379 step 4): the incoming unit drives the line at H − o − 10 µs. -/
def execSwapDrive (s : State) : Ans :=
  .next (
    match s.pair.swap with
    | some w =>
      if !w.incoming || !w.accepted || w.driven || !reached s (hMinus s w 10000) then s
      else emitOut (modPair s fun p => { p with drive := true, line := false, swap := some { w with driven := true } }) (.line true)
    | none => s)

/-- A POWER_SET to Simmer or Off waits at this tick and will run: its release of the line comes first (R514). Log
    entry 34. -/
def powerWaits (s : State) : Bool :=
  s.pwr.phase = .ready && coreUp s 0 && s.pwr.down.isNone && s.pwr.trans.isNone &&
    s.pending.any fun c => match c with | .powerSet _ t => decide (t.toNat < 2) | _ => false

/-- SWAP_HANDOVER (R203, R379 step 5, R514): at H the outgoing unit releases, the incoming unit takes outputs and requests. -/
def execSwapHandover (s : State) : Ans :=
  .next (
    match s.pair.swap with
    | some w =>
      if w.handed || !w.accepted || !reached s (hMinus s w 0) || powerWaits s then s
      else if w.incoming then
        if !w.driven then s
        else refreshOuts (modPair s fun p => { p with holding := true, refreshAt := s.now, swap := some { w with handed := true } }) true
      else
        refreshOuts (emitOut (modPair s fun p => { p with drive := false, holding := false, swap := some { w with handed := true } }) (.line false)) false
    | none => s)

/-- SWAP_LINE_CHECK (R379 step 6, R381): `low` is what the line reads at H + 1 µs. -/
def execSwapLineCheck (low : Bool) (s : State) : Ans :=
  .next (
    match s.pair.swap with
    | some w =>
      if !w.handed || !reached s (hMinus s w 0 + 65536000) then s
      else if low then swapDone s w w.incoming
      else if w.incoming then swapAbort (lineFault (dropLine s true) 2) 0x400 false
      else
        let s := modPair s fun p => { p with drive := true, holding := true, line := false, refreshAt := s.now }
        swapAbort (refreshOuts (emitOut s (.line true)) false) 0x400 false
    | none => s)

/-- SWAP_REQUEST_SEND (R383). -/
def execSwapRequestSend (s : State) : Ans :=
  .next (
    match s.pair.readyAt, pairLink s with
    | some t, some l =>
      let due := match s.pair.reqAt with
        | some r => decide (r + ticksS 60 ≤ s.now)
        | none => decide (t + ticksS (getW s Rg.pairWtrTime).toNat ≤ s.now)
      if !pairLive s || !coreUp s 2 || s.pair.holding || s.pair.st != .ready || !preferredNow s || rb s Rg.pairCtrl 1 || !due then s
      else linkSend (modPair s fun p => { p with reqAt := some s.now }) l .swapRequest
    | _, _ => s)

/-! ## Commands (R385) -/

/-- PAIR_STATE (R387). -/
def pairStateWord (s : State) : Nat :=
  s.pair.st.code + flag s.pair.holding 4 + flag s.pair.line 5 + flag s.glb.preferred 6 + flag (s.pair.partner.flags.getLsbD 0) 7
  + flag s.pair.partner.seen 8 + flag (mirrorComplete s) 9 + flag (resynced s) 10 + flag s.pair.swap.isSome 11

/-- PAIR_QUERY. -/
def execPairQuery (hd : Hdr) (s : State) : Ans :=
  cmd s hd 0xA0 none fun s =>
    complete s hd 0xA0 Status.ok 26 (pack [(0, pairStateWord s), (4, s.pair.partner.teb.toNat), (8, s.pair.mgen.toNat),
      (12, selfCheck s), (16, uInt 64 (pairOffset s)), (24, s.pair.partner.qual.toNat)])

/-- PAIR_BEGIN (R370): `hash` is what host memory holds. Log entry 52. -/
def execPairBegin (hd : Hdr) (slot : BitVec 8) (addr : BitVec 64) (hash : List Byte) (s : State) : Ans :=
  cmd s hd 0xA1 (badIf (decide (slot.toNat < 3))) fun s =>
    match pairLink s with
    | none => fin s hd 0xA1 Status.state
    | some l =>
      if storeState s != .keyed || !keyServed s then fin s hd 0xA1 Status.state
      else if tamperWaits s then fin s hd 0xA1 Status.aborted
      else if s.pair.cer.isSome then fin s hd 0xA1 Status.busy
      else
        let s := hostRead s addr.toNat 48
        let (n, s) := draw s
        let (e, s) := draw s
        let c : Ceremony := { host := hd, slot := slot, hash := BitVec.ofNat 384 (beNat (hash.take 48)), started := s.now,
                              nonce := BitVec.ofNat 256 n, ephPriv := e % (p384Order - 1) + 1,
                              peerNonce := match s.pair.heldHello with
                                | some (x, t) => if s.now ≤ t + ticksS 5 then some x else none
                                | none => none,
                              peerEph := none, key := none, prior := KeySlot.empty }
        let s := modPair s fun p => { p with cer := some c, heldHello := none, st := .pairing }
        let s := linkSend s l (.pairHello c.nonce)
        if c.peerNonce.isSome then sendAttest s else s

/-- PAIR_FORGET (R372, R403): the pair key goes with every key imported under it. Log entry 52. -/
def execPairForget (hd : Hdr) (s : State) : Ans :=
  cmd s hd 0xA2 none fun s =>
    match s.pair.keySlot with
    | none => fin s hd 0xA2 Status.state
    | some k =>
      let s := if (keySlot s k.toNat).valid then beginInval s none k.toNat else s
      fin (modPair s fun p => { p with keySlot := none, peer := none, stored := none, mirrorDone := false, waiting := [], readyAt := none,
                                       st := if p.cer.isSome then .pairing else .unpaired }) hd 0xA2 Status.ok

/-- PAIR_SWAP (R378, R379): it completes with the swap. -/
def execPairSwap (hd : Hdr) (s : State) : Ans :=
  cmd s hd 0xA3 none fun s =>
    if !s.pair.holding || !partnerReady s || safe s .pair then fin s hd 0xA3 Status.state
    else if s.pair.swap.isSome then fin s hd 0xA3 Status.busy
    else proposeSwap s (some hd)

/-- PAIR_RELEASE (R364). -/
def execPairRelease (hd : Hdr) (s : State) : Ans :=
  cmd s hd 0xA4 none fun s =>
    if !s.pair.holding then fin s hd 0xA4 Status.state
    else
      let ts := tsNow s
      let s := modPair (lineRelease s) fun p => { p with lastHand := ts }
      complete (roleChange s false 5 false (ts32 s)) hd 0xA4 Status.ok 16 ts.toNat

/-- PAIR_RESYNC (R373). -/
def execPairResync (hd : Hdr) (s : State) : Ans :=
  cmd s hd 0xA5 none fun s =>
    if !s.pair.holding || !s.pair.partner.seen then fin s hd 0xA5 Status.state
    else
      let s := snapshot s
      complete s hd 0xA5 Status.ok 4 s.pair.mgen.toNat

end Sys2Proof.Machine
end

