-- ==== Sys2Proof/Machine/RegRead.lean ====
section
/-! DEFINITION. What a read of each register and of each read-only indirect word returns, from the register tables of the
chapters (R75, R124, R125, R175, R208, R246, R247, R284, R285, R322, R323, R358, R359, R387, R422, R423, R457, R485, R517,
R542, R579, R580). -/
namespace Sys2Proof.Machine

/-- Flags of a list of conditions, the first at bit 0. -/
def flags : List Bool → Nat
  | [] => 0
  | b :: r => (if b then 1 else 0) + 2 * flags r

/-- The SQ status register of a block (R478). -/
def sqWord (s : State) (b : Blk) : Nat := (blkStat s b).seq.toNat * 2 ^ 24 + (blkStat s b).bits.toNat

/-- Words of the mailbox value: 0 while VALID is 0 (R485). -/
def mbxWord (s : State) (n : Nat) : Nat := if s.glb.mbx.valid then fld s.glb.mbx.data.toNat (32 * n + 31) (32 * n) else 0

/-- GLB (R485). -/
def readGlb (s : State) (off : Nat) : Nat :=
  let m := s.glb.mbx
  if off = Rg.glbId then 0x71200B00
  else if off = Rg.glbStraps then flag s.glb.preferred 3 + s.glb.bootSrc.toNat * 2 + flag s.glb.pcie 0
  else if off = Rg.glbLock then flag s.glb.lock 0
  else if off = Rg.glbState then flag s.glb.testUntil.isSome 1 + flag s.glb.lock 0
  else if off = Rg.glbVendor then 0x1EF7
  else if off = Rg.glbMbxCtrl then
    (if m.valid then m.sel.toNat * 2 ^ 16 + m.width.toNat * 2 ^ 4 + flag m.err 3 else 0) + flag m.busy 2 + flag m.valid 1
  else if Rg.glbMbxData0 ≤ off then mbxWord s ((off - Rg.glbMbxData0) / 4)
  else 0

/-- CLK_STATE (R517). -/
def clkStateWord (s : State) : Nat :=
  let l := (List.range 4).map (loop s)
  flags (l.map Loop.locked) + flags (l.map Loop.coasting) * 2 ^ 4 + flags (l.map fun k => k.coasting && k.refLoss) * 2 ^ 8
    + s.clk.refSel.toNat * 2 ^ 12

/-- PWR (R517). -/
def readPwr (s : State) (off : Nat) : Nat :=
  let p := s.pwr
  if off = Rg.pwrState then p.state.code + p.phase.code * 2 ^ 4 + flag (p.down.isSome || p.trans.isSome) 8
  else if off = Rg.pwrTemp then p.peak.toNat * 2 ^ 16 + p.junction.toNat
  else if off = Rg.pwrRail then p.warned.toNat * 2 ^ 8 + p.railOk.toNat
  else if off = Rg.pwrResetCause then p.cause.toNat
  else 0

/-- TCO (R75). -/
def readTco (s : State) (off : Nat) : Nat :=
  let t := s.tco
  if off = Rg.tcoState then
    t.st.code + flag (coasting s 0) 3 + flag t.fassist 4 + flag (coasting s 0) 5 + flag (coasting s 2) 6 + flag (coasting s 3) 7
      + flag (locked s) 8 + flag (timeInvalid s) 9
  else if off = Rg.tcoTeb then t.teb.toNat
  else if off = Rg.tcoTemp then uInt 16 t.temp0 * 2 ^ 16 + uInt 16 (tempNow s)
  else if off = Rg.tcoUtc then t.utcOff.toNat + flag t.utcValid 16 + flag t.utcSrc 17 + t.pend.toNat * 2 ^ 18
  else if off = Rg.tcoLeapAt then t.leapAt.toNat
  else 0

/-- The slot that a transaction leads to (R124). -/
def txnTarget (s : State) : Option (Fin 16) :=
  match s.refs.phase with
  | .idle => none
  | .prepare => s.refs.txn.map Txn.target
  | .settle => some s.refs.settleSlot

/-- REFS (R124). -/
def readRefs (s : State) (off : Nat) : Nat :=
  let r := s.refs
  if off = Rg.refsSel then
    slotCode r.timeSlot + slotCode r.freqSlot * 2 ^ 8 + phaseCode s * 2 ^ 16
      + flag r.freqOnly 20 + flag r.hold 21 + flag (r.hold && s.tco.fassist) 22
      + (match txnTarget s with | some t => t.val * 2 ^ 24 + 2 ^ 28 | none => 0)
  else if off = Rg.refsQual then slotMask (fun i => (slot s i).qualified) + slotMask (fun i => (slot s i).active) * 2 ^ 16
  else if off = Rg.refsMarks then slotMask (fun i => (slot s i).refused) + slotMask (slotOut s) * 2 ^ 16
  else if off = Rg.refsCode then uInt 32 r.code
  else 0

/-- GBB (R175). -/
def readGbb (s : State) (off : Nat) : Nat :=
  if off = Rg.gbbChanSum then
    (s.gbb.chans.countP fun c => c.2.st = .ready) + (s.gbb.chans.countP fun c => c.2.st != .idle) * 2 ^ 16
  else if Rg.gbbPortStat0 ≤ off && off < Rg.gbbPortStat0 + 16 then
    let p := gspPort s (Fin.ofNat 4 ((off - Rg.gbbPortStat0) / 4))
    p.rateKhz % 2 ^ 29 + flag p.failed 29
  else if off = Rg.gbbGrpStat0 || off = Rg.gbbGrpStat0 + 4 then
    let g := group s (off != Rg.gbbGrpStat0)
    (match g.last with | some l => l.used % 256 * 2 ^ 16 + l.excluded % 256 * 2 ^ 24 | none => 0)
      + flag g.running 3 + flag g.fixed 2 + g.integrity % 4
  else 0

/-- TIO (R208). -/
def readTio (s : State) (off : Nat) : Nat :=
  if off = Rg.tioQdepth then s.tio.capQ.length % 1024 + s.tio.edgeQ.length % 512 * 2 ^ 16
  else if off = Rg.tioDrop then s.tio.dropCap.toNat + s.tio.dropEdge.toNat * 2 ^ 16
  else if off = Rg.tioArmed then flags ((List.range 16).map fun p => (vget s.tio.trigs none p).isSome)
  else 0

/-- SVC_KEY_CUR and SVC_KEY_CUR_ID (R246). -/
def readSvc (s : State) (off : Nat) : Nat :=
  if off = Rg.svcKeyCur then (match s.svc.cur with | some i => i.val + 16 | none => 0)
  else if off = Rg.svcKeyCurId then (match s.svc.cur with | some i => s.svc.keys[i].keyId.toNat | none => 0)
  else 0

/-- ETH (R322). -/
def readEth (s : State) (off : Nat) : Nat :=
  if off = Rg.ethTxtsLast then s.eth.txtsLast.toNat
  else if off = Rg.ethLink then flags ((List.range 9).map fun p => (vget s.eth.ports EthPort.reset p).up)
  else if off = Rg.ethWakeCause then s.eth.wakeCause.toNat
  else 0

/-- LNK_NODE and LNK_STATE (R358). -/
def readLnk (s : State) (off : Nat) : Nat :=
  if off = Rg.lnkNode then
    (nodeId s).toNat + flag (shelfNum s).isSome 16 + flag (slotNum s).isSome 17 + min 31 (hopsNow s) * 2 ^ 24
  else if off = Rg.lnkState then
    ((List.finRange 4).map fun l =>
      let k := link s l
      (k.st.code + k.role.code * 2 ^ 3 + flag k.trunk 5 + flag k.fec 6 + flag (hostPath s = some l) 7) * 2 ^ (8 * l.val)).foldl (· + ·) 0
  else 0

/-- PAIR (R387). -/
def readPair (s : State) (off : Nat) : Nat :=
  if off = Rg.pairState then pairStateWord s
  else if off = Rg.pairKeySlot then (match s.pair.keySlot with | some k => k.toNat + 2 ^ 8 | none => 0)
  else if off = Rg.pairSwaps then s.pair.swapsDone.toNat + s.pair.swapsAborted.toNat * 2 ^ 16
  else 0

def StoreState.code : StoreState → Nat
  | .unprovisioned => 0 | .keyed => 1 | .unkeyed => 2

/-- KEY (R422). -/
def readKey (s : State) (off : Nat) : Nat :=
  let k := s.key
  if off = Rg.keyState then
    (storeState s).code + flag k.zeroising 2 + flag k.rngOk 3 + k.cause.toNat * 2 ^ 12
      + (k.slots.countP fun x => x.2.valid) % 512 * 2 ^ 20
  else if off = Rg.keyRollback then k.floor.toNat
  else if off = Rg.keyTamperEn then (k.tamperEn ||| 0x1000).toNat
  else if off = Rg.keyTamperLatch then k.latch.toNat
  else if off = Rg.keyTamperCfg then k.tamperCfg.toNat
  else if off = Rg.keyProvCount then k.provCount.toNat
  else 0

/-- HIF (R428, R457). -/
def readHif (s : State) (off : Nat) : Nat :=
  let h := s.hif
  if off = Rg.hifLink then (if h.linkUp then h.gen.toNat + h.width.toNat * 2 ^ 4 + 2 ^ 8 else 0)
  else if off = Rg.hifSlotsLo then fld h.slots.toNat 31 0
  else if off = Rg.hifSlotsHi then fld h.slots.toNat 63 32
  else if off = 0xE9000 then fld h.pba.toNat 31 0
  else if off = 0xE9004 then fld h.pba.toNat 63 32
  else 0

def SlotState.code : SlotState → Nat
  | .empty => 0 | .downloading => 1 | .verified => 2 | .good => 3 | .failed => 4

/-- The holder of the update session (R540): 0 none, 1 host, 2 peer. -/
def updHolder (s : State) : Nat :=
  match s.upd.session with
  | none => 0
  | some x => if x.peer.isSome then 2 else 1

/-- UPD (R542). -/
def readUpd (s : State) (off : Nat) : Nat :=
  if off = Rg.updState then
    s.upd.running.val + flag s.upd.trial 2 + updHolder s * 2 ^ 3 +
      (match bootBest s with
        | some (_, r) => r.active.val * 2 + r.st[0].code * 2 ^ 5 + r.st[1].code * 2 ^ 8
        | none => 0)
  else if off = Rg.updRecSeq then (match bootBest s with | some (_, r) => r.seq.toNat | none => 0)
  else 0

/-- PERF (R579). -/
def readPerf (s : State) (off : Nat) : Nat :=
  if off = Rg.perfSample then s.perf.buf.length % 8192 + flag s.perf.sampling.isSome 16
  else if off = Rg.perfDumpSeq then s.perf.dseq.toNat
  else 0

/-- CTL_CORES (R517). -/
def ctlCoresWord (s : State) : Nat :=
  ((List.range 4).map fun n => ((vget s.ctl.run 0 n).toNat + (vget s.ctl.cause 0 n).toNat * 4) * 16 ^ n).foldl (· + ·) 0

/-- What a register that is not stored reads as. -/
def readOf (s : State) (b : Blk) (off : Nat) : Nat :=
  match b with
  | .glb => readGlb s off
  | .clk => if off = Rg.clkState then clkStateWord s else 0
  | .pwr => readPwr s off
  | .tco => readTco s off
  | .refs => readRefs s off
  | .gbb => readGbb s off
  | .tio => readTio s off
  | .svc => readSvc s off
  | .ptp => if off = Rg.ptpGrants then s.ptp.grants.length % 2 ^ 17 else 0
  | .eth => readEth s off
  | .lnk => readLnk s off
  | .pair => readPair s off
  | .key => readKey s off
  | .hif => readHif s off
  | .upd => readUpd s off
  | .perf => readPerf s off
  | .pan => if off = Rg.panCseq then (panCseq s).toNat else if off = Rg.panLog then s.pan.log.length % 2 ^ 17 else 0
  | .ctl => if off = 0x120008 then ctlCoresWord s else if off = 0x12000C then s.ctl.fw.toNat else 0
  | .mem => if off = Rg.memScrub then s.mem.scrub else 0

/-- The register is stored: in a block's table, an IND_ADDR or IND_CTRL, or a word of the MSI-X table. -/
def isStored (b : Blk) (off : Nat) : Bool :=
  ((storedRegs b).lookup off).isSome || (hasInd b && (off % 0x10000 = 0x80 || off % 0x10000 = 0x88))
    || (0xE8000 ≤ off && off < 0xE8400)

/-- What a read of a direct register returns; MEM_FLT_CHKTEST shows RESULT beside its stored fields. -/
def readReg (s : State) (b : Blk) (off : Nat) : Nat :=
  if off % 0x10000 = 4 then sqWord s b
  else if off = Rg.memFltChktest then (getW s off).toNat + s.mem.result.toNat * 2 ^ 24
  else if isStored b off then (getW s off).toNat
  else readOf s b off

/-! ## Read-only indirect words -/

def KeyUse.code : KeyUse → Nat
  | .empty => 0 | .current => 1 | .accept => 2 | .retiring => 3

/-- GBB space 0x01: channels (R175). -/
def indChan (s : State) (i w : Nat) : Nat :=
  let c := chan s i
  match w with
  | 0 => c.st.code + c.signal.toNat * 2 ^ 8 + c.sv.toNat * 2 ^ 16 + c.port.val * 2 ^ 24 + flag c.group 26 + flag c.pinned 27
  | 1 => c.cn0.toNat
  | 2 => c.lockMs s.now
  | _ => c.cause.toNat

/-- SVC space 0x04: cookie keys (R247). -/
def indCookie (s : State) (e w : Nat) : Nat :=
  let k := vget s.svc.keys { keyId := 0, slot := 0, st := .empty, unsealed := 0, retireAt := none } e
  match w with
  | 0 => k.keyId.toNat
  | 1 => k.slot.toNat + k.st.code * 2 ^ 8 + flag (k.st != .empty && cookieUsable s k.slot.toNat) 10
  | 2 => k.unsealed.toNat
  | _ => 0

/-- PTP space 0x02: security keys (R285); a RETIRING entry still verifies and reads ACCEPT. -/
def indSec (s : State) (e w : Nat) : Nat :=
  let k := vget s.ptp.keys SecKey.reset e
  match w with
  | 0 => k.keyId.toNat
  | 1 => k.slot.toNat + k.spp.toNat * 2 ^ 8 + flag k.cmac 16 + min 2 k.st.code * 2 ^ 17
      + flag (k.st != .empty && macUsable s k.slot.toNat k.cmac) 19
  | 2 => k.verified.toNat
  | _ => k.icvFail.toNat

/-- ETH space 0x03: port state (R323). -/
def indPort (s : State) (p w : Nat) : Nat :=
  let k := vget s.eth.ports EthPort.reset p
  match w with
  | 0 => k.ssm.toNat + k.essm.toNat * 2 ^ 8 + flag k.failed 16 + flag k.extSeen 17 + flag k.notUsed 18
  | 1 => k.esmcOk.toNat
  | 2 => flag k.up 0 + k.mode.toNat * 2 + k.fec.toNat * 2 ^ 4 + flag k.anDone 6 + k.speed.toNat * 2 ^ 7 + flag k.rxLock 9
  | _ => k.stamps.length

/-- LNK space 0x02: link state (R359). Log entry 21. -/
def indLink (s : State) (l : Fin 4) (w : Nat) : Nat :=
  let k := link s l
  match w with
  | 0 => k.farIdent.toNat / 2 ^ 32
  | 1 => k.farIdent.toNat % 2 ^ 32
  | 2 => k.farNode.toNat + k.farHops.toNat * 2 ^ 16 + k.farState.toNat * 2 ^ 24
  | 3 => k.farTeb.toNat
  | 4 => k.exch.length
  | 5 => retryBytes k
  | 6 => retryUs k
  | _ => 0

/-- KEY space 0x02: check values, word 0 holding bytes 0 to 3 (R423). -/
def indCheck (s : State) (slot w : Nat) : Nat := leAt (checkValue (keySlot s slot)) (4 * w) 4

/-- Counters of cycles and instructions that no rule derives: core instructions and stalls, AES and SHA-256 blocks, waits
    for a core, and paused cycles (entry 11). -/
def perfOpen (i : Nat) : Bool :=
  (8 ≤ i && i < 16) || i = 55 || i = 56 || i = 102 || (112 ≤ i && i < 256 && (i % 16 = 4 || i % 16 = 5)) || (416 ≤ i && i < 426)

/-- A counter and its chain counter (R560); the open ones show a free value. Log entry 11. -/
def perfPair (s : State) (i : Nat) : Nat × Nat × State :=
  if perfOpen i then
    let (a, s) := freeN s
    let (b, s) := freeN s
    (a % 2 ^ 32, b % 2 ^ 32, s)
  else (aget 0 s.perf.cnt i, aget 0 s.perf.chain i, s)

/-- A read-only indirect word. -/
def readIndOf (s : State) (b : Blk) (space i : Nat) : Nat :=
  match b, space with
  | .gbb, 1 => indChan s (i / 4) (i % 4)
  | .refs, 2 => slotMon s (Fin.ofNat 16 (i / 8)) (i % 8)
  | .svc, 4 => indCookie s (i / 4) (i % 4)
  | .ptp, 2 => indSec s (i / 4) (i % 4)
  | .eth, 3 => indPort s (i / 4) (i % 4)
  | .lnk, 2 => indLink s (Fin.ofNat 4 (i / 8)) (i % 8)
  | .hif, 4 => if i % 2 = 0 then (ring s (i / 2)).eng.toNat else (ring s (i / 2)).host.toNat
  | .key, 1 => (keySlot s i).attr.toNat
  | .key, 2 => indCheck s (i / 2) (i % 2)
  | _, _ => 0

/-- A read-only indirect word, and the state after its read: a counter of PERF's space 0x01 may draw a free value. -/
def readInd (s : State) (b : Blk) (space i : Nat) : Nat × State :=
  if b = .perf && space = 1 then
    let (c, h, s) := perfPair s (i / 2)
    (if i % 2 = 0 then c else h, s)
  else (readIndOf s b space i, s)

end Sys2Proof.Machine
end

