-- ==== Sys2Proof/Machine/RegOps.lean ====
section
/-! DEFINITION. What a write stores and brings about, word by word: range rules, adjustments, the consequences that the
chapters give to single registers, mirroring, and the configuration of rings (R424 to R473, R607). -/
namespace Sys2Proof.Machine

/-! ## Stored words by key -/

/-- The block that owns a stored word. -/
def keyBlk (k : Nat) : Option Blk := if 2 ^ 40 ≤ k then blkOf ((k - 2 ^ 40) / 2 ^ 32) else blkOf (k / 0x10000)

/-- What a stored word takes: its row of the tables; IND_ADDR and IND_CTRL (R472); a word of the MSI-X table. -/
def keyDef (k : Nat) : Option WordDef :=
  match keyBlk k with
  | none => none
  | some b =>
    if 2 ^ 40 ≤ k then indStored b (fld k 31 24) (fld k 23 0)
    else match (storedRegs b).lookup k with
      | some d => some d
      | none =>
        if hasInd b && k % 0x10000 = 0x80 then some (wAny 31 0 false)
        else if hasInd b && k % 0x10000 = 0x88 then some (wAny 0 0 false)
        else if 0xE8000 ≤ k && k < 0xE8400 then some (wAny (if k % 16 = 12 then 0 else 31) (msixReset k) false)
        else none

/-- The word is guarded (R460). -/
def keyGuarded (k : Nat) : Bool :=
  match keyDef k with
  | some d => d.guarded
  | none => k = Rg.keyTamperEn || k = Rg.keyTamperCfg

/-- The word carries a parity bit (R467): every stored word, the tamper registers of the AON domain, and GLB_LOCK.
    Log entry 59. -/
def hasParity (k : Nat) : Bool :=
  (keyDef k).isSome || k = Rg.keyTamperEn || k = Rg.keyTamperCfg || k = Rg.glbLock

/-- A write of a word held outside the stored words computes its parity anew. -/
def reparity (s : State) (k : Nat) : State := { s with mismatch := s.mismatch.filter (· != k) }

/-- The offset that a record about a word names: the register's, or its block's IND_DATA (R467). -/
def keyOffset (k : Nat) : Nat :=
  if 2 ^ 40 ≤ k then (match keyBlk k with | some b => blkBase b + 0x84 | none => 0) else k

/-! ## The sample ring (R447, R565, R566) -/

def Sample.bytes (x : Sample) : List Byte :=
  leBytes 4 x.ts.toNat ++ leBytes 4 x.sseq.toNat ++ leBytes 8 x.insn.toNat ++ leBytes 4 x.addr.toNat ++ leBytes 4 x.latency.toNat ++
  [BitVec.ofNat 8 x.core.val, x.cause] ++ leBytes 2 (flag x.lost 0) ++ leBytes 4 0

/-- The sample buffer drains to the sample ring while the ring has free entries (R565). -/
def sampleDrainN : Nat → State → State
  | 0, s => s
  | n + 1, s => match s.perf.buf with
    | [] => s
    | x :: r =>
      if ringRuns s 10 && 0 < ringFree s 10 then
        sampleDrainN n (ringPut { s with perf := { s.perf with buf := r } } 10 x.bytes)
      else s

def sampleDrain (s : State) : State := sampleDrainN s.perf.buf.length s

/-! ## Adjustments of a written word -/

/-- The field of R321 whose value is not allowed for a port (R288): 1 MODE (or AN_EN), 2 FEC. Log entry 61. -/
def portWordFault (p w : Nat) : Option Nat :=
  let mode := fld w 3 1
  let fec := fld w 5 4
  if mode = 0 then none
  else if p = 8 then (if mode < 5 || mode = 7 then some 1 else if fec != 0 then some 2 else none)
  else if 4 < mode then some 1
  else if mode = 1 then (if fec = 2 then none else some 2)
  else if mode = 2 then (if fec = 0 || fec = 2 then none else some 2)
  else if mode = 3 then (if fec < 2 then none else some 2)
  else if fec != 0 then some 2
  else if w.testBit 6 then some 1 else none

/-- ETH CFG_ADJUST (R288, R301, R321). Log entry 61. -/
def ethAdjust (s : State) (p field : Nat) : State := emit s .eth 0x0007 .notice (p + field * 16) none

/-- What a word stores of a written value beyond its table's range rule, and the records of the adjustment: SURVEY_MAX is
    no less than SURVEY_MIN; ROOT is the primary's alone; a MODE, FEC or AN_EN not allowed for the port stores MODE 0.
    Log entry 61. -/
def adjustWord (s : State) (k raw : Nat) (w : Word) : Word × State :=
  if k = Rg.gbbSurveyMax then (BitVec.ofNat 32 (max w.toNat (getW s Rg.gbbSurveyMin).toNat), s)
  else if k = Rg.lnkNodeCfg then
    if w.getLsbD 17 && !s.glb.pcie then (w &&& 0x1FFFF, emit s .lnk 0x0009 .notice 1 none) else (w, s)
  else if indKey .eth 1 0 ≤ k && k < indKey .eth 1 72 && (k - indKey .eth 1 0) % 8 = 0 then
    let p := (k - indKey .eth 1 0) / 8
    let s := if p = 8 && 2 ≤ fld raw 9 8 then ethAdjust s p 3 else s
    match portWordFault p w.toNat with
    | some f => (w &&& 0xFFFFFFF1, ethAdjust s p f)
    | none => (w, s)
  else (w, s)

/-! ## What a write brings about -/

/-- TCO registers (R53, R56, R57, R65, R66). -/
def tcoWritten (s : State) (k : Nat) (old : Word) : State :=
  if k = Rg.tcoCtrl then
    let s := if rb s Rg.tcoCtrl 1 then
        if old.getLsbD 1 then s else modTco s fun t => { t with tempAt := some s.now, tempHost := none }
      else modTco s fun t => { t with tempAt := none, tempHost := none }
    clockEval (fassistEval (tempMark s))
  else if k = Rg.tcoTebTarget || k = Rg.tcoTebLimit then
    let s := if (getW s Rg.tcoTebLimit).toNat ≤ (getW s Rg.tcoTebTarget).toNat then
        emit s .tco 0x0008 .notice (targetInUse s) none else s
    clockEval s
  else if k = Rg.tcoDwell then clockEval s
  else if k = Rg.tcoSlewMax then (if s.tco.slew.isSome then freqCheck s (wordSum s) else s)
  else s

/-- A port's quality level as a rank (R89, R308): none where it counts as not used. -/
def portRank (s : State) (p : Fin 9) : Option (BitVec 8) :=
  let k := ethPort s p
  if k.notUsed then none
  else if k.failed then some 0xFF
  else qlRank ((ethCfg s p 0).testBit 13) k.ssm.toNat (if k.extSeen then some k.essm.toNat else none)

/-- A slot whose BINDING changed loses what it measured, and takes the rank of its new source. Log entry 62. -/
def slotRebound (s : State) (i : Fin 16) : State :=
  let s := slotGone s i 1
  if 10 ≤ i.val then
    let b := slotBinding s i
    let r := if 8 ≤ b && b < 16 then portRank s (Fin.ofNat 9 (b - 8)) else none
    selEval (judge (modSlot s i fun k => { k with mapped := r }) i)
  else instEvalAll s

/-- REFS registers and slot configuration (R79, R85, R95, R114, R120, R125). Log entry 62. -/
def refsWritten (s : State) (k : Nat) (old : Word) : State :=
  if k = Rg.refsCtrl || k = Rg.refsQualTime || k = Rg.refsWtrTime then selEval s
  else if k = Rg.refsSteerCtrl then
    if fld old.toNat 2 0 = fld (getW s k).toNat 2 0 then s
    else
      let host := s.refs.uart.bind UartWait.host
      let s := modRefs s fun r => { r with steerStarted := false, initSent := false, uart := none, steerRetry := none,
                                           steerZero := false, steerAt := s.now }
      oscTurn (match host with | some hd => fin s hd 0x36 Status.aborted | none => s)
  else if indKey .refs 1 0 ≤ k && k < indKey .refs 1 128 then
    let i := Fin.ofNat 16 ((k - indKey .refs 1 0) / 8)
    let w := (k - indKey .refs 1 0) % 8
    let s := slotWritten s i w old
    if w = 0 && fld old.toNat 31 24 != slotBinding s i && ((2 ≤ i.val && i.val < 6) || (10 ≤ i.val && i.val < 14)) then slotRebound s i
    else s
  else s

/-- GBB: latches begin at the first instant after GBB_EN rises (R148), UTC_SRC takes what its system last told (R158), a
    change of MODE is in force at once (R146), and SURVEY starts its clock (R168). Log entry 61. -/
def gbbWritten (s : State) (k : Nat) (old : Word) : State :=
  if k = Rg.gbbCtrl then
    let on := rb s k 0
    let s := if old.getLsbD 0 = on then s
      else { s with gbb := { s.gbb with lastLatch := if on then some (totNs s.tco.counter) else none } }
    if fld old.toNat 5 4 = rf s k 5 4 || !gbbFw s then s else utcAgain s
  else if k = Rg.gbbGrpCfg0 || k = Rg.gbbGrpCfg0 + 4 then
    let on := (getW s k).getLsbD 0
    if old.getLsbD 0 = on then s
    else fixReadyAll (modGroup s (k != Rg.gbbGrpCfg0) fun g =>
      { g with fixed := on, nextFixed := false, surveyAt := if on then g.surveyAt else s.now,
               surveySum := (0, 0, 0), surveyN := 0 })
  else s

/-- Time-of-day matching starts afresh as TOD_EN changes (R613). -/
def todRestart (s : State) : State :=
  { s with tio := { s.tio with ppsIn := s.tio.ppsIn.map fun p => { p with begun := false, early := [], pulse := none, lastUtc := none } } }

/-- An output's enable rose: it is not squelched (R200). -/
def outFresh (s : State) (o : Nat) (old new : Bool) : State := if new && !old then modOut s o fun p => { p with squelched := false } else s

/-- TIO registers and spaces (R182, R186, R200, R201, R613). -/
def tioWritten (s : State) (k : Nat) (old : Word) : State :=
  if k = Rg.tioCtrl then
    let s := if old.getLsbD 2 != rb s k 2 then todRestart s else s
    refreshOuts s false
  else if indKey .tio 1 0 ≤ k && k < indKey .tio 1 32 then
    let n := (k - indKey .tio 1 0) / 8
    let s := if (k - indKey .tio 1 0) % 8 = 0 then outFresh s n (old.getLsbD 0) (outCfg s n).1 else s
    refreshOuts (ppsArm s n) false
  else if indKey .tio 2 0 ≤ k && k < indKey .tio 2 16 then
    let n := (k - indKey .tio 2 0) / 8
    let s := if (k - indKey .tio 2 0) % 8 = 0 then outFresh s (n + 4) (old.getLsbD 0) (outCfg s (n + 4)).1 else s
    refreshOuts (freqArm s n) false
  else if indKey .tio 3 0 ≤ k && k < indKey .tio 3 64 then
    let n := (k - indKey .tio 3 0) / 4
    let s := if (k - indKey .tio 3 0) % 4 = 0 then outFresh s (n + 6) (fld old.toNat 1 0 = 1) (outCfg s (n + 6)).1 else s
    refreshOuts s false
  else s

/-- PTP registers and instances (R250, R252, R261). Log entry 72. -/
def ptpWritten (s : State) (k : Nat) (old : Word) : State :=
  if k = Rg.ptpCtrl then instEvalAll s
  else if indKey .ptp 1 0 ≤ k && k < indKey .ptp 1 256 then
    let i := Fin.ofNat 16 ((k - indKey .ptp 1 0) / 16)
    let s := if (k - indKey .ptp 1 0) % 16 = 0 && rb s k 10 && !old.getLsbD 10 && getW s Rg.ptpTebOui = 0 then
        emit s .ptp 0x0009 .notice i.val none else s
    instEval s i
  else if indKey .ptp 3 0 ≤ k && k < indKey .ptp 3 256 && old != getW s k then
    masterListed s (Fin.ofNat 16 ((k - indKey .ptp 3 0) / 16)) (Fin.ofNat 4 ((k - indKey .ptp 3 0) / 4))
  else s

/-- Ports whose effective enable changed start or go down (R289, R290). -/
def portsGate (s0 s : State) : State :=
  (List.finRange 9).foldl (fun s p =>
    if portEn s p && !portEn s0 p then portStart s p
    else if portEn s0 p && !portEn s p then portDown s p else s) s

/-- ETH registers and port configuration (R90, R289, R307, R309): a change of ESMC_OPT maps the quality level anew. -/
def ethWritten (s0 s : State) (k : Nat) (old : Word) : State :=
  if k = Rg.ethCtrl then portsGate s0 s
  else if indKey .eth 1 0 ≤ k && k < indKey .eth 1 72 && (k - indKey .eth 1 0) % 8 = 0 then
    let p := Fin.ofNat 9 ((k - indKey .eth 1 0) / 8)
    let s := if rb s k 11 && !old.getLsbD 11 then modPort s p fun q => { q with notUsed := false, esmcAt := s.now }
      else if old.getLsbD 11 && !rb s k 11 then
        let q := ethPort s p
        setQl s p q.ssm (if q.extSeen then some q.essm else none) false true
      else if rb s k 13 != old.getLsbD 13 && rb s k 11 then
        let q := ethPort s p
        let e := if q.extSeen then some q.essm else none
        setQl s p q.ssm e (q.failed && (qlRank (old.getLsbD 13) q.ssm.toNat (e.map BitVec.toNat)).isSome) q.notUsed
      else s
    portsGate s0 s
  else s

/-- HIF_CTRL: DMA_EN rises, and what waits for the rings goes on (R434, R556, R565). -/
def hifWritten (s : State) (k : Nat) (old : Word) : State :=
  if k = Rg.hifCtrl && rb s k 0 && !old.getLsbD 0 then sampleDrain (evDrain s)
  else if 0xE8000 ≤ k && k < 0xE8400 && k % 16 = 12 && !rb s k 0 then
    let v := (k - 0xE8000) / 16
    if s.hif.pba.getLsbD v then
      emitOut { s with hif := { s.hif with pba := s.hif.pba &&& ~~~(BitVec.ofNat 64 (2 ^ v)) } } (.msix v)
    else s
  else s

/-- What the write of a stored word brings about; `s0` is the state before it. -/
def afterWrite (s0 s : State) (k : Nat) : State :=
  let old := getW s0 k
  match keyBlk k with
  | some .tco => tcoWritten s k old
  | some .refs => refsWritten s k old
  | some .gbb => gbbWritten s k old
  | some .tio => tioWritten s k old
  | some .ptp => ptpWritten s k old
  | some .eth => ethWritten s0 s k old
  | some .lnk =>
    if k = Rg.lnkCtrl then linkGates s
    else if k = Rg.lnkNodeCfg then
      let s := nodeChanged s (nodeId s0)
      if shelfNum s = shelfNum s0 then s else shelfUpdates s
    else s
  | some .key => if k = Rg.keyCtrl && rb s k 0 && !old.getLsbD 0 then keyBack s else s
  | some .hif => hifWritten s k old
  | some .perf =>
    let p := 2 ^ rf s Rg.perfCtrl 12 8
    if old = getW s k then s else { s with perf := { s.perf with lastDump := some (msOf s.tco.counter / p * p) } }
  | _ => s

/-- A write of a stored word, with its range rule, its adjustment and what it brings about. -/
def applyWord (s : State) (k : Nat) (v : Word) : State :=
  match keyDef k with
  | none => s
  | some d =>
    let s := if indKey .svc 2 0 ≤ k && k < indKey .svc 2 16 then svcRefill s else s
    let (w, s) := adjustWord s k v.toNat (d.store v)
    afterWrite s (putW s k w) k

/-! ## Ring configuration (R434, R458) -/

/-- RING_BUSY (R434, R456). -/
def ringBusy (s : State) (r w : Nat) : State := emit s .hif 0x0005 .notice (r + w * 256) none

/-- A command of a command ring is outstanding (R434). -/
def ringOutstanding (s : State) (r : Nat) : Bool :=
  s.hif.inflight.any (fun c => c.1.ring.val = r) || s.hif.done.any (fun d => d.hd.ring.val = r)

/-- A write of a ring's word 4 (R434): SIZE_LOG holds while EN is 1; a completion ring stops only when its command ring has
    stopped and nothing of it is outstanding; both indices are 0 from the rise of EN. -/
def ringEnable (s : State) (r : Nat) (v : Word) : State :=
  let k := indKey .hif 1 (8 * r + 4)
  let old := getW s k
  match keyDef k with
  | none => s
  | some d =>
    let w := d.store v
    if old.getLsbD 8 then
      let held := 4 ≤ r && r < 8 && !w.getLsbD 8 && (ringEn s (r - 4) || ringOutstanding s (r - 4))
      if held then ringBusy s r 4
      else
        let s := if fld w.toNat 4 0 = fld old.toNat 4 0 then s else ringBusy s r 4
        putW s k (BitVec.ofNat 32 (fld old.toNat 4 0 + flag (w.getLsbD 8) 8))
    else
      let s := putW s k w
      if w.getLsbD 8 then
        let s := modRing s r fun _ => Ring.reset
        if r = 8 then evDrain s else if r = 10 then sampleDrain s else s
      else s

/-- A write of a ring's configuration (R434): the base and the write-back address hold while EN is 1. Log entry 40. -/
def ringWrite (s : State) (i : Nat) (v : Word) : State :=
  let r := i / 8
  let w := i % 8
  if w = 4 then ringEnable s r v
  else if w < 4 && ringEn s r then ringBusy s r w
  else applyWord s (indKey .hif 1 i) v

/-! ## Host stores and the mirror (R373, R377) -/

/-- A stored word is written by the host or by a tunnelled access: a standby's mirrored words are not the host's to write;
    the active mirrors what it stored. -/
def storeWord (s : State) (k : Nat) (v : Word) : State :=
  if standbyHeld s && mirroredKeys.contains k then emit s .pair 0x000D .notice (keyOffset k) none
  else
    let s := if indKey .hif 1 0 ≤ k && k < indKey .hif 1 120 then ringWrite s (k - indKey .hif 1 0) v else applyWord s k v
    if mirrorOn s && mirroredKeys.contains k then mirrorSend s (.word k (getW s k)) else s

end Sys2Proof.Machine
end

