-- ==== Sys2Proof/Machine/Svc.lean ====
section
/-! DEFINITION. The commands and events of the NTP and NTS service (06_nts_ntp_service.md R211 to R248). -/
namespace Sys2Proof.Machine

/-- POLICING (R216): once per second, one event for each port that dropped; bit 8 names the protocol of which more were
    dropped, plain where they are even. Log entry 71. -/
def execPolicing (s : State) : Ans :=
  .next (
    if s.now < s.svc.polAt + ticksS 1 then s else
    let s := modSvc s fun v => { v with polAt := s.now }
    (List.range 8).foldl (fun s p =>
      let b := vget s.svc.ports Buckets.reset p
      let s := modSvc s fun v => { v with ports := vmod v.ports p fun b => { b with dropPlain := 0, dropNts := 0 } }
      let n := b.dropPlain + b.dropNts
      if n = 0 then s
      else emit s .svc 0x0004 .notice (p + flag (decide (b.dropPlain < b.dropNts)) 8 + sat32 n * 2 ^ 32) (some 3)) s)

/-- KOD_CAP (R230): once per second, the answers dropped. -/
def execKodCap (s : State) : Ans :=
  .next (
    if s.svc.kodDrop = 0 || s.now < s.svc.capAt + ticksS 1 then s
    else
      let n := s.svc.kodDrop
      emit (modSvc s fun v => { v with kodDrop := 0, capAt := s.now }) .svc 0x0005 .notice (sat32 n * 2 ^ 32) (some 4))

/-- COOKIE_ROTATE_INSTANT (R236). -/
def execCookieRotateInstant (s : State) : Ans :=
  .next (match s.svc.rotate with
    | some (i, t) => if t ≤ totNs s.tco.counter then mirrorCookie (cookieRotate s i t) i false else s
    | none => s)

/-- COOKIE_RETIRE_INSTANT (R236). -/
def execCookieRetireInstant (entry : Fin 16) (s : State) : Ans :=
  .next (match s.svc.keys[entry].retireAt with
    | some t => if t ≤ totNs s.tco.counter then mirrorCookie (cookieRetire s entry false t) entry false else s
    | none => s)

/-- RL_SWEEP (R239): the background sweep ages every cell. -/
def execRlSweep (s : State) : Ans :=
  .next (modSvc s fun v => { v with sketch := (v.sketch.map fun c => (c.1, ageCell (rlEpoch s) c.2)).filter fun c => c.2 != Cell.zero })

/-- COOKIE_MINT (R237, R243, R244): `keys` names C2S and S2C in host memory. -/
def execCookieMint (hd : Hdr) (aead : BitVec 16) (count : BitVec 8) (keys : HostBytes) (addr : BitVec 64) (len : BitVec 32)
    (s : State) : Ans :=
  cmd s hd 0x60 (badIf (!aeadOn s aead.toNat || count = 0 || decide (8 < count.toNat)
      || decide (len.toNat < count.toNat * cookieLen aead.toNat))) fun s =>
    match mintEntry s (cookieTable s (nowNs s)) (nowNs s) with
    | none => fin s hd 0x60 Status.state
    | some e =>
      let k := aeadKeyLen aead.toNat
      let s := hostRead s keys.addr.toNat (2 * k)
      if tamperWaits s then fin s hd 0x60 Status.aborted else
      let c : CookieKeys := { aead := aead.toNat, c2s := beAt keys.data 0 k, s2c := beAt keys.data k k }
      let (l, s) := mintN count.toNat s e (nowNs s) c false
      complete (hostDma s addr.toNat l) hd 0x60 Status.ok 12
        (pack [(0, count.toNat), (4, e.keyId.toNat), (8, l.length)])

def entry16 (b : BitVec 8) : Option (Fin 16) := if h : b.toNat < 16 then some ⟨b.toNat, h⟩ else none

/-- COOKIE_KEY_LOAD (R236, R244). -/
def execCookieKeyLoad (hd : Hdr) (entry slot : BitVec 8) (keyId : BitVec 32) (s : State) : Ans :=
  let dup := (List.finRange 16).any fun i => s.svc.keys[i].st != .empty && s.svc.keys[i].keyId = keyId
  cmd s hd 0x61 (badIf ((entry16 entry).isNone || keyId = 0 || dup)) fun s =>
    match entry16 entry with
    | none => s
    | some i =>
      if s.svc.keys[i].st ≠ .empty || standbyHeld s then fin s hd 0x61 Status.state
      else if !cookieUsable s slot.toNat then fin s hd 0x61 Status.refused
      else
        let s := modCk s i fun _ => { keyId := keyId, slot := slot, st := .accept, unsealed := 0, retireAt := none }
        fin (mirrorCookie s i false) hd 0x61 Status.ok

/-- The instant of a rotation or retirement in counter nanoseconds: both 0 mean at execution (R244). -/
def atInstant (s : State) (sec : BitVec 64) (ns : BitVec 32) : Nat :=
  if sec = 0 && ns = 0 then totNs s.tco.counter else sec.toNat * 1000000000 + ns.toNat

/-- TS128 of an instant in counter nanoseconds, with the present state and TEB. -/
def tsAt (s : State) (t : Nat) : BitVec 128 := mkTs128 (t * 2 ^ 48) (coasting s 0) s.tco.st s.tco.teb.toNat

/-- COOKIE_ROTATE (R236, R244). -/
def execCookieRotate (hd : Hdr) (entry : BitVec 8) (sec : BitVec 64) (ns : BitVec 32) (s : State) : Ans :=
  cmd s hd 0x62 (badIf ((entry16 entry).isNone || decide (1000000000 ≤ ns.toNat))) fun s =>
    match entry16 entry with
    | none => s
    | some i =>
      let t := atInstant s sec ns
      if s.svc.keys[i].st ≠ .accept || standbyHeld s then fin s hd 0x62 Status.state
      else if s.svc.rotate.isSome then fin s hd 0x62 Status.busy
      else if t < totNs s.tco.counter then fin s hd 0x62 Status.refused
      else
        let s := modSvc s fun v => { v with rotate := some (i, t) }
        let s := if t = totNs s.tco.counter then mirrorCookie (cookieRotate s i t) i false else s
        complete s hd 0x62 Status.ok 16 (tsAt s t).toNat

/-- COOKIE_KEY_RETIRE (R236, R244). -/
def execCookieKeyRetire (hd : Hdr) (entry : BitVec 8) (sec : BitVec 64) (ns : BitVec 32) (s : State) : Ans :=
  cmd s hd 0x63 (badIf ((entry16 entry).isNone || decide (1000000000 ≤ ns.toNat))) fun s =>
    match entry16 entry with
    | none => s
    | some i =>
      let t := atInstant s sec ns
      let st := s.svc.keys[i].st
      if st = .empty || st = .retiring || standbyHeld s then fin s hd 0x63 Status.state
      else if t < totNs s.tco.counter then fin s hd 0x63 Status.refused
      else
        let s := modCk s i fun k => { k with st := .retiring, retireAt := some t }
        let s := if t = totNs s.tco.counter then cookieRetire s i false t else s
        complete (mirrorCookie s i false) hd 0x63 Status.ok 16 (tsAt s t).toNat

/-- RL_QUERY (R239, R244). IPv4 stands in the first four bytes. -/
def execRlQuery (hd : Hdr) (fam : BitVec 8) (addr : BitVec 128) (s : State) : Ans :=
  cmd s hd 0x64 (badIf (decide (1 < fam.toNat))) fun s =>
    let bytes := leBytes 16 addr.toNat
    let a : BitVec 128 := BitVec.ofNat 128 (if fam = 1 then beNat bytes else beNat (bytes.take 4))
    let e := rlEstimate s (fam = 1) a
    complete s hd 0x64 Status.ok 2 (pack [(0, e), (1, if rf s Rg.svcRlCfg 5 0 ≤ e then 1 else 0)])

/-- RL_CLEAR (R238): the sketch is cleared and a new hash key drawn. -/
def execRlClear (hd : Hdr) (s : State) : Ans :=
  cmd s hd 0x65 none fun s =>
    let (x, s) := draw s
    fin (modSvc s fun v => { v with sketch := [], hashKey := x % 2 ^ 64 }) hd 0x65 Status.ok

end Sys2Proof.Machine
end

