-- ==== Sys2Proof/Machine/MbxOps.lean ====
section
/-! DEFINITION. The wide values behind the mailbox: every selector of the chapters with its width and its side effect
(R76, R126, R176, R210, R248, R286, R324, R360, R388, R424, R459, R475, R487, R518, R543, R581). -/
namespace Sys2Proof.Machine

/-- A selected wide value: its width code (1 64 bits, 2 128 bits), the value, and the state after the latch, which takes
    the side effect (R475). -/
structure Wide where
  width : BitVec 2
  value : Nat
  after : State
  deriving DecidableEq, Repr

def wide64 (s : State) (v : Nat) : Wide := { width := 1, value := v % 2 ^ 64, after := s }

def wide128 (s : State) (v : BitVec 128) : Wide := { width := 2, value := v.toNat, after := s }

/-- A signed 64-bit value. -/
def wideInt (s : State) (v : Int) : Wide := wide64 s (uInt 64 v)

/-- The pop of a transmit timestamp queue (R313). -/
def popStamp (s : State) (p : Fin 9) : Wide :=
  match (ethPort s p).stamps with
  | [] => wide128 { s with eth := { s.eth with txtsLast := 0 } } 0
  | x :: r =>
    let s := modPort s p fun k => { k with stamps := r }
    wide128 { s with eth := { s.eth with txtsLast := BitVec.ofNat 32 (x.id.toNat + p.val * 2 ^ 16 + 2 ^ 20) } } x.ts

/-- The earliest pending retire instant. -/
def earliestRetire (s : State) : Option Nat :=
  s.svc.keys.toList.foldl (fun a k => match a, k.retireAt with
    | some x, some y => some (min x y) | none, y => y | x, none => x) none

def tsOpt (s : State) (t : Option Nat) : BitVec 128 := match t with | some t => tsAt s t | none => 0

/-- A counter of the HIF mailbox, latched and cleared (R459). Log entry 60. -/
def hifCount (s : State) (i : Nat) : Wide :=
  wide64 { s with hif := { s.hif with cnt := vset s.hif.cnt i 0 } } (vget s.hif.cnt 0 i)

/-- A counter of a link, latched and cleared (R360). -/
def lnkCount (s : State) (l : Fin 4) (c : Nat) : Wide :=
  wide64 (modLink s l fun k => { k with cnt := vset k.cnt c 0 }) (vget (link s l).cnt 0 c)

/-- ECC counts of a partition, latched and cleared (R581). -/
def memCount (s : State) (uncorr : Bool) (p : Nat) : Wide :=
  if uncorr then wide64 { s with mem := { s.mem with uncorr := vset s.mem.uncorr p 0 } } (vget s.mem.uncorr 0 p)
  else wide64 { s with mem := { s.mem with corr := vset s.mem.corr p 0 } } (vget s.mem.corr 0 p)

/-- Selectors 0x01 to 0x05: GLB, CLK, PWR, TCO and REFS. DESIGN CHOICE (entry 62): the remaining slew phase of 0x0404, for
    which R76 gives no rounding, is floored to 2^-16 ns. Log entries 8, 62. -/
def wideTime (s : State) (sel : Nat) : Option Wide :=
  match sel with
  | 0x0101 => some (wide64 s Config.identity.toNat)
  | 0x0102 => some (wide64 { s with glb := { s.glb with access := 0 } } s.glb.access)
  | 0x0201 => some (wide128 s s.clk.lastCoast)
  | 0x0301 => some (wide128 s s.pwr.lastChange)
  | 0x0302 => some (wide64 s (s.pwr.readyMs.toNat + s.pwr.fallbacks.toNat * 2 ^ 32))
  | 0x0401 => some (wide128 s (tsNow s))
  | 0x0402 => some (wideInt s (appliedWord s))
  | 0x0403 => some (wide128 s s.tco.lastContr)
  | 0x0404 => some (wideInt s (match s.tco.slew with | some k => k.remain / (2 ^ 32 : Nat) | none => 0))
  | 0x0501 => some (wideInt s (clampI (-wMax) wMax (holdWord s (modelHere s) s.now)))
  | 0x0502 => some (wide64 s (if ageValid s then uInt 64 (ageLearned s) else 2 ^ 63))
  | 0x0503 => some (wideInt s s.refs.lastDelta)
  | 0x0504 => some (wide128 s s.refs.lastCommit)
  | _ => none

/-- o or B_m of a group's last solution (R176). -/
def wideSol (s : State) (g : Bool) (bound : Bool) : Wide :=
  match (group s g).last with
  | some l => if bound then wide64 s l.bm else wideInt s l.o
  | none => wide64 s 0

/-- Selectors 0x06 to 0x09: GBB, TIO, SVC and PTP. -/
def wideService (s : State) (sel : Nat) : Option Wide :=
  if sel = 0x0601 then some (wide128 s s.gbb.lastLatchTs)
  else if 0x0602 ≤ sel && sel ≤ 0x0603 then some (wideSol s (sel = 0x0603) false)
  else if 0x0604 ≤ sel && sel ≤ 0x0605 then some (wideSol s (sel = 0x0605) true)
  else if 0x0701 ≤ sel && sel ≤ 0x0704 then some (wide128 s (vget s.tio.lastEdge 0 (sel - 0x0701)))
  else if sel = 0x0705 then
    some (wide64 s ((List.range 4).map fun i => (vget s.tio.lastQ 0 i).toNat * 2 ^ (16 * i)).sum)
  else if 0x0801 ≤ sel && sel ≤ 0x0826 then
    some (wide64 (modSvc s fun v => { v with cnt := aset 0 v.cnt (sel - 0x0800) 0 }) (aget 0 s.svc.cnt (sel - 0x0800)))
  else if sel = 0x0840 then some (wide128 s (tsOpt s (s.svc.rotate.map Prod.snd)))
  else if sel = 0x0841 then some (wide128 s (tsOpt s (earliestRetire s)))
  else if 0x0901 ≤ sel && sel ≤ 0x0925 then
    some (wide64 (modPtp s fun v => { v with cnt := aset 0 v.cnt (sel - 0x0900) 0 }) (aget 0 s.ptp.cnt (sel - 0x0900)))
  else if sel = 0x0940 then some (wide128 s (tsOpt s (s.ptp.rotate.head?.map Prod.snd)))
  else if 0x0941 ≤ sel && sel ≤ 0x0950 then
    let i := Fin.ofNat 16 (sel - 0x0941)
    some (wideInt s (if isSlave s i then (inst s i).lastO else 0))
  else none

/-- Selectors 0x0A to 0x0D: ETH, LNK, PAIR and KEY. Log entry 62. -/
def wideNet (s : State) (sel : Nat) : Option Wide :=
  if 0x0A00 ≤ sel && sel ≤ 0x0A2F then
    let p := Fin.ofNat 9 (rf s Rg.ethStatSel 3 0)
    some (wide64 (modPort s p fun k => { k with cnt := aset 0 k.cnt (sel - 0x0A00) 0 }) (aget 0 (ethPort s p).cnt (sel - 0x0A00)))
  else if 0x0A40 ≤ sel && sel ≤ 0x0A48 then some (popStamp s (Fin.ofNat 9 (sel - 0x0A40)))
  else if 0x0B01 ≤ sel && sel ≤ 0x0B04 then some (wideInt s (link s (Fin.ofNat 4 (sel - 0x0B01))).o)
  else if 0x0B05 ≤ sel && sel ≤ 0x0B08 then some (wideInt s (link s (Fin.ofNat 4 (sel - 0x0B05))).delay)
  else if 0x0B10 ≤ sel && sel ≤ 0x0B2F then some (lnkCount s (Fin.ofNat 4 ((sel - 0x0B10) / 8)) ((sel - 0x0B10) % 8))
  else if sel = 0x0B30 then
    some (wide64 (modLnk s fun k => { k with noRoute := 0, tunnelLost := 0 }) (sat32 s.lnk.noRoute + sat32 s.lnk.tunnelLost * 2 ^ 32))
  else if sel = 0x0C01 then some (wide64 s (s.pair.peer.getD (partnerIdent s)).toNat)
  else if sel = 0x0C02 then some (wide128 s s.pair.lastHand)
  else if sel = 0x0C03 then some (wideInt s (pairOffset s))
  else if sel = 0x0C04 then some (wide128 s s.pair.partner.lastContr)
  else if sel = 0x0D01 then some (wide128 s s.key.lastTc)
  else if sel = 0x0D02 then some (wide128 s s.key.lastZero)
  else if sel = 0x0D03 then some (wide64 s (s.aon / 32768 * 2 ^ 16 + s.aon % 32768))
  else none

/-- Selectors 0x0E to 0x13: HIF, UPD, PERF, PAN and MEM. -/
def wideHost (s : State) (sel : Nat) : Option Wide :=
  if 0x0E01 ≤ sel && sel ≤ 0x0E08 then some (hifCount s (sel - 0x0E01))
  else if sel = 0x0F01 then some (wide128 s s.upd.lastConfirm)
  else if sel = 0x0F02 then
    some (wide64 s (match bootBest s with | some (_, r) => r.fw[0].toNat + r.fw[1].toNat * 2 ^ 32 | none => 0))
  else if sel = 0x1001 then
    some (wide64 { s with log := { s.log with dropNd := 0, dropSf := 0 } } (sat32 s.log.dropNd + sat32 s.log.dropSf * 2 ^ 32))
  else if sel = 0x1002 then some (wide64 { s with perf := { s.perf with lostSel := 0 } } s.perf.lostSel)
  else if sel = 0x1101 then some (wide128 s s.pan.lastTs)
  else if sel = 0x1102 then some (wide64 s ((panCseq s).toNat + s.pan.log.length * 2 ^ 32))
  else if 0x1301 ≤ sel && sel ≤ 0x1307 then some (memCount s false (sel - 0x1301))
  else if 0x1311 ≤ sel && sel ≤ 0x1317 then some (memCount s true (sel - 0x1311))
  else none

/-- The value of a selector; none where no chapter defines it (R476). -/
def wideOf (s : State) (sel : Nat) : Option Wide :=
  if sel < 0x0600 then wideTime s sel
  else if sel < 0x0A00 then wideService s sel
  else if sel < 0x0E00 then wideNet s sel
  else wideHost s sel

end Sys2Proof.Machine
end

