-- ==== Sys2Proof/Machine/RegAccess.lean ====
section
/-! DEFINITION. How a register access is judged and what it does: direct registers, sequence-clear status registers,
indirect words, the mailbox, the lock and the remote window (R350, R351, R429, R460 to R487, R508, R509, R548, R550). -/
namespace Sys2Proof.Machine

/-! ## Where registers live and which respond -/

/-- A register lives at the offset (R463, R484): a chapter's register, a block's indirect registers, the MSI-X table or
    its pending-bit array. -/
def mapped (off : Nat) : Bool :=
  regOffsets.contains off ||
  (match blkOf (off / 0x10000) with
    | some b => hasInd b && (off % 0x10000 = 0x80 || off % 0x10000 = 0x84 || off % 0x10000 = 0x88)
    | none => false) ||
  (0xE8000 ≤ off && off < 0xE8400) || off = 0xE9000 || off = 0xE9004

/-- The block's region responds (R466, R489, R508, R509). Log entry 36. -/
def regUp (s : State) (b : Blk) : Bool :=
  match s.pwr.phase with
  | .ready => s.pwr.state = .warm || s.pwr.state = .boil
  | .recovery => b = .glb || b = .pwr || b = .hif || b = .upd
  | _ => b = .glb || b = .pwr

/-- Registers with a shadow in a running domain (R317, R422, R466). Log entry 36. -/
def hasShadow (off : Nat) : Bool :=
  off = Rg.keyTamperEn || off = Rg.keyTamperCfg || off = Rg.keyTamperLatch || off = Rg.ethWakeCause

/-- An access record (R464, R486): a GLB Notice, counted in selector 0x0102. -/
def accRec (s : State) (code off be : Nat) (write tun : Bool) (hi : Nat) : State :=
  emit { s with glb := { s.glb with access := s.glb.access + 1 } } .glb code .notice
    (off % 2 ^ 22 + be * 2 ^ 22 + flag write 26 + flag tun 27 + hi * 2 ^ 32) (some (if code = 8 then 1 else 0))

/-- The bytes that the enables select. -/
def beMask (be v : Nat) : Nat :=
  ((List.range 4).map fun i => if be.testBit i then fld v (8 * i + 7) (8 * i) * 2 ^ (8 * i) else 0).sum

/-! ## Indirect access (R472 to R474) -/

def indAddr (s : State) (b : Blk) : Nat := (getW s (blkBase b + 0x80)).toNat

def indAinc (s : State) (b : Blk) : Bool := (getW s (blkBase b + 0x88)).getLsbD 0

/-- The word at IND_ADDR is one that the chapter defines. -/
def indDefined (b : Blk) (a : Nat) : Bool := (indStored b (fld a 31 24) (fld a 23 0)).isSome || indRo b (fld a 31 24) (fld a 23 0)

/-- INDEX advances after a full access, wrapping at 24 bits, whether or not the word exists (R473). -/
def indStep (s : State) (b : Blk) : State :=
  if indAinc s b then
    let a := indAddr s b
    putW s (blkBase b + 0x80) (BitVec.ofNat 32 (fld a 31 24 * 2 ^ 24 + (fld a 23 0 + 1) % 2 ^ 24))
  else s

/-- A read of IND_DATA. -/
def indRead (s : State) (b : Blk) (be : Nat) (tun : Bool) : Nat × State :=
  let a := indAddr s b
  let sp := fld a 31 24
  let i := fld a 23 0
  let (v, s) := if (indStored b sp i).isSome then ((getW s (indKey b sp i)).toNat, s)
    else if indRo b sp i then readInd s b sp i else (0, s)
  let s := if indDefined b a then s else accRec s 7 (blkBase b + 0x84) be false tun a
  (beMask be v, if be = 15 then indStep s b else s)

/-- A full write of IND_DATA: an RO word ignores it, an LK word while locked drops it. -/
def indWrite (s : State) (b : Blk) (v : Word) (tun : Bool) : State :=
  let a := indAddr s b
  let sp := fld a 31 24
  let i := fld a 23 0
  let s := match indStored b sp i with
    | some d => if d.lk && s.glb.lock then accRec s 5 (blkBase b + 0x84) 15 true tun v.toNat else storeWord s (indKey b sp i) v
    | none => if indRo b sp i then s else accRec s 7 (blkBase b + 0x84) 15 true tun a
  indStep s b

/-! ## Sequence-clear (R468, R469, R478, R479, R548, R550) -/

/-- The key of the word that a CFG_PARITY record names (R467). -/
def parityKey (b : Blk) (detail : Nat) : Nat :=
  if detail.testBit 22 then indKey b (fld detail 55 48) (fld detail 47 24) else fld detail 21 0

/-- The lasting condition behind a fault is still present (R550): a coasting loop, a failed sample port, a link that is
    DOWN, a missing key, a failed entropy source until its next reseed (R409), a parity mismatch. Log entry 44. -/
def causeLasts (s : State) (b : Blk) (u : Unack) : Bool :=
  let d := u.detail.toNat
  if u.code = 0x0F0 then s.mismatch.contains (parityKey b d)
  else match b with
    | .clk => u.code = 1 && coasting s (d % 4)
    | .gbb => (u.code = 4 || u.code = 6) && (gspPort s (Fin.ofNat 4 d)).failed
    | .lnk => u.code = 2 && (link s (Fin.ofNat 4 d)).st = .down
    | .svc => u.code = 3 && (mintEntry s (s.svc.keys, s.svc.cur) (nowNs s)).isNone
    | .ptp => u.code = 7 && (inst s (Fin.ofNat 16 d)).noKey
    | .key => u.code = 4 && !s.key.rngOk
    | _ => false

/-- A cleared fault whose cause lasts is recorded afresh and does not escalate (R550). Log entry 44. -/
def recordAfresh (s : State) (b : Blk) (u : Unack) : State :=
  let held := (blkStat s b).unack
  let s := emit (modBlk s b fun k => { k with unack := [] }) b u.code.toNat u.base u.detail.toNat u.bit
  modBlk s b fun k => { k with unack := held ++ k.unack }

/-- A guarded word of the block is known to mismatch. -/
def guardedBad (s : State) (b : Blk) : Bool := s.mismatch.any fun k => keyBlk k = some b && keyGuarded k

/-- A block leaves its safe state (R469), and what the safe state held goes on. -/
def leaveSafe (s : State) (b : Blk) : State :=
  let s := modBlk s b fun k => { k with safe := false }
  match b with
  | .tco => clockEval s
  | .refs => selEval s
  | .tio => refreshOuts s false
  | .key => keyBack s
  | _ => s

/-- A write of an SQ status register (R478, R548, R550, R469). -/
def sqClear (s : State) (b : Blk) (v : Word) : State :=
  let k := blkStat s b
  if k.seq != v.extractLsb' 24 8 || !k.readMark then s
  else
    let mask := v.extractLsb' 0 24
    let acked := fun (u : Unack) => match u.bit with | some i => mask.getLsbD i | none => true
    let gone := ((k.unack.filter acked).map fun u => { u with esc := false }).eraseDups
    let s := modBlk s b fun k => { k with bits := k.bits &&& ~~~mask, unack := k.unack.filter fun u => !acked u }
    let s := gone.foldl (fun s u => if causeLasts s b u then recordAfresh s b u else s) s
    match safeBit b with
    | some i => if mask.getLsbD i && k.bits.getLsbD i && safe s b && !guardedBad s b then leaveSafe s b else s
    | none => s

/-! ## The mailbox (R475 to R477) -/

/-- MBX_DISCARD (R477, R486). Log entry 39. -/
def mbxDiscard (s : State) (sel : Nat) (busy tun : Bool) : State :=
  accRec s 8 Rg.glbMbxCtrl 15 true tun (sel + flag busy 16)

/-- The latch at GO (R475): the value and its side effect; DATA0 to 3 fill within 2 µs. -/
def mbxLatch (s : State) (width : BitVec 2) (err : Bool) (data : Nat) : State :=
  { s with glb := { s.glb with mbx := { sel := BitVec.ofNat 16 (rf s Rg.glbMbxSel 15 0), width := width, err := err, busy := true,
                                        valid := false, data := BitVec.ofNat 128 data, dueBy := s.now + ticksUs 2 } } }

/-- GO (R475 to R477). -/
def mbxGo (s : State) (tun : Bool) : State :=
  let sel := rf s Rg.glbMbxSel 15 0
  if s.glb.mbx.busy then mbxDiscard s sel true tun
  else
    let s := if s.glb.mbx.valid then mbxDiscard s s.glb.mbx.sel.toNat false tun else s
    match wideOf s sel with
    | none => mbxLatch (accRec s 1 Rg.glbMbxCtrl 15 true tun sel) 0 true 0
    | some w =>
      match blkOf (sel / 256) with
      | some b =>
        if regUp s b then mbxLatch w.after w.width false w.value
        else mbxLatch (accRec s 6 Rg.glbMbxCtrl 15 true tun sel) w.width true (2 ^ 128 - 1)
      | none => s

/-- The latched value fills DATA0 to 3 (R475). Log entry 39. -/
def mbxReady (s : State) : State :=
  if s.glb.mbx.busy then { s with glb := { s.glb with mbx := { s.glb.mbx with busy := false, valid := true } } } else s

/-- ACK (R475). -/
def mbxAckWrite (s : State) : State :=
  if s.glb.mbx.valid then { s with glb := { s.glb with mbx := { s.glb.mbx with valid := false, data := 0 } } } else s

/-! ## Special registers -/

/-- A started checker test (R558): open test window, and no traffic in Boil. -/
def chkMay (s : State) : Bool :=
  s.glb.testUntil.isSome && !(s.pwr.state = .boil && (rb s Rg.svcCtrl 0 || rb s Rg.ptpCtrl 0))

/-- A write of MEM_FLT_CHKTEST (R558): GO while a test runs changes nothing. Log entry 39. -/
def chkWrite (s : State) (v : Word) : State :=
  let s := applyWord s Rg.memFltChktest v
  if !v.getLsbD 31 then s
  else if chkMay s then
    if s.mem.testBy.isSome then s
    else { s with mem := { s.mem with result := 1, testBy := some (s.now + ticksUs 10, getW s Rg.memFltChktest) } }
  else if s.mem.testBy.isSome then s
  else { s with mem := { s.mem with result := 4 } }

/-- GLB_TEST_KEY (R485): the key opens the checker test for 1 s, any other value closes it. -/
def testKeyWrite (s : State) (v : Word) : State :=
  { s with glb := { s.glb with testUntil := if v = 0x71207E57 then some (s.now + ticksS 1) else none } }

/-- KEY_TAMPER_EN (R412): a KEYED store holds set bits; bit 12 is always armed. -/
def tamperEnWrite (s : State) (v : Word) : State :=
  let w : BitVec 13 := v.extractLsb' 0 13 ||| 0x1000
  let cut := s.key.tamperEn &&& ~~~w
  if s.key.store = .keyed && cut != 0 then
    emit (modKey s fun k => { k with tamperEn := w ||| cut }) .key 0x0006 .notice cut.toNat none
  else modKey s fun k => { k with tamperEn := w }

/-- A register that is lockable (R460, R471). Log entry 35. -/
def isLk (b : Blk) (off : Nat) : Bool :=
  off = Rg.glbTestKey || off = Rg.pwrSwrst || off = Rg.keyTamperEn ||
  (match (storedRegs b).lookup off with | some d => d.lk | none => false)

/-- An accepted full write of a register. -/
def regApply (s : State) (b : Blk) (off : Nat) (v : Word) (tun : Bool) : State :=
  if off = Rg.glbLock then reparity { s with glb := { s.glb with lockWritten := true, lock := v.getLsbD 0 } } off
  else if off = Rg.glbTestKey then testKeyWrite s v
  else if off = Rg.glbMbxCtrl then (if v.getLsbD 0 then mbxGo s tun else s)
  else if off = Rg.glbMbxAck then mbxAckWrite s
  else if off = Rg.pwrSwrst then
    (if v = 0x71205A5A then { s with pwr := { s.pwr with swrst := some (s.now + ticksUs 1) } } else s)
  else if off = Rg.perfWrapClr then { s with perf := { s.perf with wrap := 0 } }
  else if off = Rg.memFltChktest then chkWrite s v
  else if off = Rg.keyTamperEn then tamperEnWrite (reparity s off) v
  else if off = Rg.keyTamperCfg then modKey (reparity s off) fun k => { k with tamperCfg := v &&& 0x01FFFFEF }
  else if off % 0x10000 = 4 then sqClear s b v
  else if hasInd b && off % 0x10000 = 0x84 then indWrite s b v tun
  else if isStored b off then storeWord s off v
  else s

/-! ## Units (R461 to R466) -/

/-- A read of the register has a side effect: RC, and IND_DATA with AINC = 1 (R463). -/
def readActs (s : State) (b : Blk) (off : Nat) : Bool :=
  off = Rg.pwrRail || off = Rg.tioDrop || (hasInd b && off % 0x10000 = 0x84 && indAinc s b)

/-- What a full read does besides returning the value: the read mark of an SQ register (R479), RC (R460). -/
def readEffect (s : State) (b : Blk) (off : Nat) : State :=
  if off % 0x10000 = 4 then modBlk s b fun k => { k with readMark := true }
  else if off = Rg.pwrRail then { s with pwr := { s.pwr with warned := 0 } }
  else if off = Rg.tioDrop then { s with tio := { s.tio with dropCap := 0, dropEdge := 0 } }
  else s

/-- One unit of a read (R463): its value and the state after it. -/
def unitRead (s : State) (off be : Nat) (tun : Bool) : Nat × State :=
  match blkOf (off / 0x10000) with
  | none => (0, accRec s 1 off be false tun 0)
  | some b =>
    if !mapped off then (0, accRec s 1 off be false tun 0)
    else if !regUp s b && !hasShadow off then (beMask be 0xFFFFFFFF, accRec s 6 off be false tun 0)
    else if be != 15 && readActs s b off then (0, accRec s 2 off be false tun 0)
    else if hasInd b && off % 0x10000 = 0x84 then indRead s b be tun
    else (beMask be (readReg s b off), if be = 15 then readEffect s b off else s)

/-- One unit of a write (R463). -/
def unitWrite (s : State) (off be : Nat) (v : Word) (tun : Bool) : State :=
  match blkOf (off / 0x10000) with
  | none => accRec s 1 off be true tun v.toNat
  | some b =>
    if !mapped off then accRec s 1 off be true tun v.toNat
    else if !regUp s b && !hasShadow off then accRec s 6 off be true tun v.toNat
    else if be != 15 then accRec s 3 off be true tun v.toNat
    else if off = Rg.glbLock && s.glb.lockWritten then accRec s 4 off be true tun v.toNat
    else if isLk b off && s.glb.lock then accRec s 5 off be true tun v.toNat
    else regApply s b off v tun

/-! ## The remote window (R350, R351, R429) -/

/-- NO_ROUTE among the HIF counters (R459). -/
def hifNoRoute (s : State) : State := { s with hif := { s.hif with cnt := vmod s.hif.cnt 4 (· + 1) } }

/-- Host data of a read: what the host gets. -/
def readOut (s : State) (addr v : Nat) : State := emitOut s (.read addr (BitVec.ofNat 32 v))

/-- One unit of an access of this engine's own space by the host: a read returns its value to the host at `addr`. -/
def ownUnit (s : State) (addr off be : Nat) (w : Option Word) : State :=
  match w with
  | some v => unitWrite s off be v false
  | none => let (v, s) := unitRead s off be false; readOut s addr v

/-- One unit of a window access at an offset of the window. Log entries 37, 38. -/
def windowUnit (s : State) (addr off be : Nat) (w : Option Word) : State :=
  let sel := getW s Rg.hifWinSel
  let slot := fld sel.toNat 5 0
  let fail := fun (s : State) => let s := hifNoRoute s; if w.isNone then readOut s addr (beMask be 0xFFFFFFFF) else s
  if !regUp s .hif || !sel.getLsbD 8 then fail s
  else if slot = 0 then ownUnit s addr off be w
  else match routeTo s slot with
    | none => fail s
    | some l =>
      if !rb s Rg.hifCtrl 1 || !s.hif.slots.getLsbD slot then fail s
      else
        let tag := s.lnk.dmaTag
        let s := perfAdd (modLnk s fun k => { k with dmaTag := tag + 1 }) 339 1
        let t : Tunnel := match w with
          | some v => .regWr (BitVec.ofNat 32 off) (BitVec.ofNat 4 be) v
          | none => .regRd (BitVec.ofNat 32 off) (BitVec.ofNat 4 be)
        let a : RemoteAcc := { slot := slot, tag := tag, addr := addr, write := w.isSome, be := BitVec.ofNat 4 be,
                               deadline := s.now + ticksUs 20 }
        linkSend { s with hif := { s.hif with remote := s.hif.remote ++ [a] } } l (.tunnel (BitVec.ofNat 8 slot) 0 tag t)

/-- One unit of a host access at a BAR0 offset (R428, R483). -/
def hostUnit (s : State) (off be : Nat) (w : Option Word) : State :=
  if 0x200000 ≤ off && off < 0x400000 then windowUnit s off (off - 0x200000) be w else ownUnit s off off be w

/-- The host reaches the registers directly over PCIe. Log entry 36. -/
def hostLink (s : State) : Bool := s.glb.pcie && s.hif.linkUp

/-! ## Whole accesses (R462) -/

/-- The units that an access of `len` bytes at an address covers: aligned offsets in address order, with byte enables. -/
def unitsOf (addr len : Nat) : List (Nat × Nat) :=
  if len = 0 then [] else
  (List.range ((addr + len - 1) / 4 - addr / 4 + 1)).map fun i =>
    let o := 4 * (addr / 4 + i)
    (o, flags ((List.range 4).map fun j => decide (addr ≤ o + j) && decide (o + j < addr + len)))

/-- The word that a unit of a write carries, in the byte lanes of its enables. -/
def unitWord (addr : Nat) (data : List Byte) (o : Nat) : Word :=
  BitVec.ofNat 32 (((List.range 4).map fun j =>
    if addr ≤ o + j then (data.getD (o + j - addr) 0).toNat * 2 ^ (8 * j) else 0).sum)

/-- A host read. -/
def hostRd (s : State) (addr len : Nat) : State :=
  if hostLink s then (unitsOf addr len).foldl (fun s u => hostUnit s u.1 u.2 none) s else s

/-- A host write. -/
def hostWr (s : State) (addr : Nat) (data : List Byte) : State :=
  if hostLink s then (unitsOf addr data.length).foldl (fun s u => hostUnit s u.1 u.2 (some (unitWord addr data u.1))) s else s

/-- A full host write of one register. -/
def hostWr32 (s : State) (off : Nat) (v : Word) : State := if hostLink s then hostUnit s off 15 (some v) else s

end Sys2Proof.Machine
end

