-- ==== Sys2Proof/Machine/HifOps.lean ====
section
/-! DEFINITION. The host interface's shared operations (12_host_rings.md): doorbells, command descriptors, completion
entries, and the reset of every ring. -/
namespace Sys2Proof.Machine

def modHif (s : State) (f : Hif → Hif) : State := { s with hif := f s.hif }

/-! ## Doorbells (R435 to R437) -/

/-- The engine's slot as records name it. -/
def ownSlot (s : State) : Nat := (slotNum s).getD 0

/-- DB_RANGE, counted (R435, R456). -/
def dbRange (s : State) (slot r : Nat) (v : BitVec 32) : State :=
  emit (modHif s fun h => { h with cnt := vmod h.cnt 1 (· + 1) }) .hif 0x0002 .notice (slot + r * 256 + v.toNat * 2 ^ 32) (some 1)

/-- The host fills the ring (R430). -/
def hostFills (r : Nat) : Bool := r < 4 || r = 9 || 11 ≤ r

/-- A doorbell value is within the ring's size on the proper side and does not move back (R435). -/
def dbOk (s : State) (r : Nat) (v : BitVec 32) : Bool :=
  let k := ring s r
  if hostFills r then decide ((v - k.eng).toNat ≤ ringSize s r) && decide ((k.host - k.eng).toNat ≤ (v - k.eng).toNat)
  else decide ((k.eng - v).toNat ≤ (k.eng - k.host).toNat)

/-- A write that waits at this tick disables the ring, where it may be disabled (R434, R455): a completion ring only
    without its command ring and its commands. Log entry 34. -/
def ringCutWaits (s : State) (r : Nat) : Bool :=
  let a := 0x1000000 + 8 * r + 4
  let off := fun (w : Word) => !w.getLsbD 8
  (s.pending.any fun c => match c with
    | .ringEnable q w => q.val = r && off w
    | .indDataAccess .hif be (some w) => be = 15 && indAddr s .hif = a && off w
    | .registerWrite addr data => addr = blkBase .hif + 0x84 && data.length = 4 && indAddr s .hif = a && off (unitWord addr data addr)
    | _ => false) &&
  hostLink s && regUp s .hif && !(4 ≤ r && r < 8 && (ringEn s (r - 4) || ringOutstanding s (r - 4)))

/-- A doorbell acts on this engine's ring (R435); one for a disabled ring, or for one that is disabled at this tick, is
    ignored and not counted (R455). Log entry 40. -/
def applyDoorbell (s : State) (r : Nat) (v : BitVec 32) : State :=
  let s := perfAdd s 338 1
  if !ringEn s r || ringCutWaits s r then s
  else if dbOk s r v then
    let s := modRing s r fun k => { k with host := v }
    if r = 8 then evDrain s else if r = 10 then sampleDrain s else s
  else dbRange s (ownSlot s) r v

/-- The ring whose doorbell lies at an offset of a group's page (R436). -/
def dbRing (g off : Nat) : Option Nat :=
  match off with
  | 0x000 => some g
  | 0x040 => some (4 + g)
  | 0x080 => if g < 3 then some (8 + g) else none
  | 0x0C0 => if 2 ≤ g then some (9 + g) else none
  | 0x100 => if 2 ≤ g then some (11 + g) else none
  | _ => none

/-- The doorbells of this engine's ring that wait at this tick: on BAR4, or in a TUNNEL frame. -/
def doorbellsOf (s : State) (r : Nat) : List (BitVec 32) :=
  s.pending.filterMap fun c => match c with
    | .doorbell off v =>
      if hostLink s && regUp s .hif && decide (off < 0x4000) && dbRing (off / 0x1000) (off % 0x1000) = some r then some v else none
    | .linkFrameRx l _ _ f => match f.body with
      | .tunnel dst _ _ (.doorbell q v) =>
        if f.crcOk && f.lseq = (link s l).rxSeq + 1 && !s.glb.pcie && slotNum s = some dst.toNat && q.toNat = r then some v else none
      | _ => none
    | _ => none

/-- The host's index of a ring after the doorbells that wait at this tick, which come first (R455). Log entry 34. -/
def takeDoorbells (s : State) (r : Nat) : State :=
  if !ringEn s r || ringCutWaits s r then s
  else (doorbellsOf s r).foldl (fun s v => if dbOk s r v then modRing s r fun k => { k with host := v } else s) s

/-- A doorbell toward a cascaded slot (R437). Log entry 43. -/
def forwardDoorbell (s : State) (slot r : Nat) (v : BitVec 32) : State :=
  match routeTo s slot with
  | some l =>
    if rb s Rg.hifCtrl 1 && s.hif.slots.getLsbD slot then
      linkSend (modHif s fun h => { h with cnt := vmod h.cnt 6 (· + 1) }) l
        (.tunnel (BitVec.ofNat 8 slot) 0 0 (.doorbell (BitVec.ofNat 16 r) v))
    else hifNoRoute s
  | none => hifNoRoute s

/-! ## Command descriptors (R438, R443, R444) -/

/-- The bytes of ARGS that a command defines, as (offset, length); none for an opcode that R444 does not name. -/
def argBytes (op : Nat) : Option (List (Nat × Nat)) :=
  match op / 16 with
  | 0 => if op < 2 then some [] else none
  | 1 => match op with
    | 0x10 => some [(0, 1)] | 0x11 => some [] | 0x12 => some [(0, 1)] | 0x13 => some [] | _ => none
  | 2 => match op with
    | 0x20 => some [] | 0x21 => some [(0, 14), (16, 4)] | 0x22 => some [(0, 10)] | 0x23 => some [(0, 10)]
    | 0x24 => some [(0, 8)] | 0x25 => some [(0, 2)] | 0x26 => some [] | 0x27 => some [(0, 3), (4, 4)] | _ => none
  | 3 => match op with
    | 0x30 => some [(0, 1)] | 0x31 => some [(0, 2)] | 0x32 => some [(0, 1)] | 0x33 => some [(0, 2), (4, 4)]
    | 0x34 => some [(0, 1)] | 0x35 => some [(0, 1)] | 0x36 => some [(0, 4)] | 0x37 => some [(0, 3)] | 0x38 => some []
    | _ => none
  | 4 => match op with
    | 0x40 => some [(0, 2)] | 0x41 => some [(0, 1)] | 0x42 => some [(0, 12)] | 0x43 => some [(0, 4)]
    | 0x44 => some [(0, 4), (8, 8), (16, 4)] | 0x45 => some [(0, 6), (8, 8)] | 0x46 => some [(0, 10)]
    | 0x47 => some [(0, 1), (8, 8)] | 0x48 => some [(0, 1)] | 0x49 => some [(0, 1)] | 0x4A => some [(0, 3)]
    | 0x4B => some [(0, 1)] | _ => none
  | 5 => match op with
    | 0x50 => some [(0, 1), (8, 8)] | 0x51 => some [(0, 2), (8, 12)] | 0x52 => some [(0, 2), (8, 8)]
    | 0x53 => some [(0, 2), (8, 8)] | 0x54 => some [(0, 1)] | _ => none
  | 6 => match op with
    | 0x60 => some [(0, 3), (8, 20)] | 0x61 => some [(0, 2), (4, 4)] | 0x62 => some [(0, 1), (8, 12)]
    | 0x63 => some [(0, 1), (8, 12)] | 0x64 => some [(0, 1), (4, 16)] | 0x65 => some [] | _ => none
  | 7 => match op with
    | 0x70 => some [(0, 2), (4, 18)] | 0x71 => some [(0, 5)] | 0x72 => some [(0, 16)] | 0x73 => some [(0, 8)]
    | 0x74 => some [(0, 1), (8, 12)] | 0x75 => some [(0, 1), (8, 12)] | 0x76 => some [(0, 1)] | _ => none
  | 8 => match op with
    | 0x80 => some [(0, 1)] | 0x81 => some [(0, 7), (8, 8)] | 0x82 => some [(0, 3), (4, 5)] | 0x83 => some [(0, 1)]
    | _ => none
  | 9 => match op with
    | 0x90 => some [(0, 1)] | 0x91 => some [(0, 3)] | 0x92 => some [(0, 1)] | 0x93 => some [(0, 4), (8, 8)]
    | 0x94 => some [(0, 1), (4, 16)] | _ => none
  | 0xA => match op with
    | 0xA0 => some [] | 0xA1 => some [(0, 1), (8, 8)] | 0xA2 => some [] | 0xA3 => some [] | 0xA4 => some []
    | 0xA5 => some [] | _ => none
  | 0xB => match op with
    | 0xB0 => some [(0, 1)] | 0xB1 => some [(0, 1), (4, 4)] | 0xB2 => some [(0, 2), (8, 12)]
    | 0xB3 => some [(0, 3), (4, 14)] | 0xB4 => some [(0, 2), (8, 12)] | 0xB5 => some [(0, 1)]
    | 0xB6 => some [(0, 1), (8, 16)] | 0xB7 => some [(0, 1), (8, 8)] | 0xB8 => some [(0, 1), (8, 16)]
    | 0xB9 => some [(0, 8)] | 0xBA => some [(0, 8)] | 0xBB => some [(0, 2)] | _ => none
  | 0xC => match op with
    | 0xC0 => some [(0, 3)] | 0xC1 => some [(0, 16)] | 0xC2 => some [] | 0xC3 => some [(0, 2)] | 0xC4 => some []
    | 0xC5 => some [] | 0xC6 => some [] | _ => none
  | 0xD => match op with
    | 0xD0 => some [(0, 1), (8, 8)] | 0xD1 => some [(0, 1), (4, 16)] | 0xD2 => some []
    | 0xD3 => some [(0, 2), (4, 8)] | 0xD4 => some [] | _ => none
  | _ => none

/-- Byte `i` of a descriptor. -/
def descByte (d : BitVec 256) (i : Nat) : Nat := fld d.toNat (8 * i + 7) (8 * i)

/-- A command descriptor that is not valid (R443). -/
def cmdMalformed (d : BitVec 256) : Bool :=
  match argBytes (descByte d 0) with
  | none => true
  | some l =>
    4 ≤ descByte d 1 ||
      (List.range 28).any fun i => descByte d (4 + i) != 0 && !l.any fun r => decide (r.1 ≤ i) && decide (i < r.1 + r.2)

/-- Commands of a ring that are taken and whose completions are not yet written. -/
def ringTaken (s : State) (r : Fin 4) : Nat :=
  s.hif.inflight.countP (fun c => c.1.ring = r) + s.hif.done.countP (fun d => d.hd.ring = r)

/-! ## Completion entries (R439 to R441) -/

/-- The first entry of a completion, and the second where RLEN exceeds 24. -/
def cplBytes (d : Done) : List Byte :=
  let ext := 24 < d.rlen
  leBytes 2 d.hd.tag.toNat ++ [d.op, d.status, BitVec.ofNat 8 (flag ext 0), BitVec.ofNat 8 d.hd.ring.val, BitVec.ofNat 8 d.rlen, 0]
    ++ leBytes (if ext then 56 else 24) d.result

/-- Entries that a completion takes: one or two, and a SKIP entry at the wrap. -/
def cplNeed (s : State) (d : Done) : Nat :=
  let r := 4 + d.hd.ring.val
  if d.rlen ≤ 24 then 1 else if (ring s r).eng.toNat % ringSize s r = ringSize s r - 1 then 3 else 2

/-- A completion can be written: its ring runs and holds room. -/
def cplReady (s : State) (d : Done) : Bool := ringRuns s (4 + d.hd.ring.val) && decide (cplNeed s d ≤ ringFree s (4 + d.hd.ring.val))

/-- The ring has a descriptor, and room for its completion (R441). -/
def ringOffers (s : State) (r : Fin 4) : Bool :=
  ringRuns s r.val && ringPosted s r.val != 0 && ringRuns s (4 + r.val) && decide (3 * (ringTaken s r + 1) ≤ ringFree s (4 + r.val))

/-- A command ring whose turn comes before that of `r` is sure to give a descriptor: no FENCE can hold it back (R441).
    Log entry 41. -/
def ringAhead (s : State) (r : Fin 4) : Bool :=
  let q := (List.finRange 4).map fun i => s.hif.turn + 1 + i
  (q.takeWhile (· != r)).any fun q => ringOffers s q && ringTaken s q = 0

/-- Writes a completion with its SKIP entry, then the index, then the interrupt (R433). Log entry 41. -/
def cplWrite (s : State) (d : Done) : State :=
  let r := 4 + d.hd.ring.val
  let n := cplNeed s d
  let s := if n = 3 then ringAdvance (hostDma s (ringEntryAddr s r) ([0, 0, 0, 0, 2] ++ List.replicate 27 0)) r 1 else s
  let s := ringAdvance (hostDma s (ringEntryAddr s r) (cplBytes d)) r (min n 2)
  ringNotify s r (if d.hd.noirq then 0 else n)

/-- What runs from the writing of a completion: the 10 ms to the power-down of the domains, and those to the reset of
    UPD_ACTIVATE (R494, R531). -/
def cplTimers (s : State) (d : Done) : State :=
  if d.status != Status.ok then s
  else if d.op = 0x10 then { s with pwr := { s.pwr with down := s.pwr.down.map fun x => (x.1, s.now + ticksMs 10) } }
  else if d.op = 0xC3 then { s with upd := { s.upd with resetAt := s.upd.resetAt.map fun _ => s.now + ticksMs 10 } }
  else s

/-- The completion OK of a command with an opcode is not yet written. -/
def cplOwed (s : State) (op : BitVec 8) : Bool := s.hif.done.any fun d => d.op = op && d.status = Status.ok

/-! ## Resets (R454) -/

/-- Every ring is disabled, outstanding commands complete nowhere, the window closes and the MSI-X table is cleared.
    Log entry 42. -/
def hifReset (s : State) : State :=
  let s := (List.range 15).foldl (fun s r =>
    let k := indKey .hif 1 (8 * r + 4)
    putW s k (getW s k &&& 0x1F)) s
  let inTable := fun (k : Nat) => decide (0xE8000 ≤ k) && decide (k < 0xE8400)
  let s := putW s Rg.hifWinSel (getW s Rg.hifWinSel &&& 0x3F)
  let s := { s with words := s.words.filter fun p => !inTable p.1, mismatch := s.mismatch.filter fun k => !inTable k }
  modHif s fun h => { h with discard := h.discard ++ h.inflight.map Prod.fst, inflight := [], done := [], pba := 0, remote := [] }

end Sys2Proof.Machine
end

