-- ==== Sys2Proof/Machine/Hif.lean ====
section
/-! DEFINITION. The host interface's commands and events (12_host_rings.md). -/
namespace Sys2Proof.Machine

/-- NOP (R445). -/
def execNop (hd : Hdr) (s : State) : Ans := cmd s hd 0x00 none fun s => complete s hd 0x00 Status.ok 16 (tsNow s).toNat

/-- ENGINE_QUERY (R445). -/
def execEngineQuery (hd : Hdr) (s : State) : Ans :=
  cmd s hd 0x01 none fun s =>
    complete s hd 0x01 Status.ok 18 (pack
      [(0, Config.identity.toNat), (8, s.ctl.fw.toNat), (12, 0x0B), (13, s.pwr.state.code), (14, (nodeId s).toNat),
       (16, flag (acting s) 0 + flag s.glb.pcie 1), (17, s.upd.running.val)])

/-- DOORBELL (R435 to R437): a 32-bit host write at an offset of BAR4. Log entry 40. -/
def execDoorbell (off : Nat) (value : BitVec 32) (s : State) : Ans :=
  .next (if !hostLink s || !regUp s .hif || decide (0x100000 ≤ off) then s else
    let slot := off / 0x4000
    match dbRing (off / 0x1000 % 4) (off % 0x1000) with
    | none => modHif s fun h => { h with cnt := vmod h.cnt 1 (· + 1) }
    | some r => if slot = 0 then applyDoorbell s r value else forwardDoorbell s slot r value)

/-- COMMAND_FETCH (R438, R441, R443): the next descriptor of a command ring whose turn it is, with three entries of the
    completion ring reserved for it. Log entry 41. -/
def execCommandFetch (ring : Fin 4) (desc : BitVec 256) (s : State) : Ans :=
  .next (
    let r := ring.val
    let s := takeDoorbells s (4 + r)
    let fence := (descByte desc 1).testBit 0 && descByte desc 1 < 4
    if !(s.pwr.phase = .ready || (s.pwr.phase = .recovery && r = 0)) then s
    else if !ringOffers s ring || (s.pwr.phase = .ready && ringAhead s ring) || (fence && 0 < ringTaken s ring) then s
    else
      let s := modHif s fun h => { h with turn := ring }
      let op := descByte desc 0
      let tag := descByte desc 2 + 256 * descByte desc 3
      let hd : Hdr := { ring := ring, tag := BitVec.ofNat 16 tag, noirq := (descByte desc 1).testBit 1 }
      let s := ringNotify (ringAdvance (ringReads s r 1) r 1) r 0
      if cmdMalformed desc then
        let s := hifMalformed s r op tag
        modHif s fun h => { h with done := h.done ++ [{ hd := hd, op := BitVec.ofNat 8 op, status := Status.malformed, rlen := 0, result := 0 }] }
      else modHif s fun h => { h with inflight := h.inflight ++ [(hd, BitVec.ofNat 8 op)] })

/-- COMMAND_COMPLETE (R439, R440): the oldest completion whose ring can take it is written, with the entries that a doorbell
    of this tick frees (R455). Log entry 41. -/
def execCommandComplete (s : State) : Ans :=
  let s := [4, 5, 6, 7].foldl takeDoorbells s
  .next (match s.hif.done.findIdx? (cplReady s) with
    | some i => match s.hif.done[i]? with
      | some d => cplTimers (cplWrite (modHif s fun h => { h with done := h.done.eraseIdx i }) d) d
      | none => s
    | none => s)

/-- MOD_TIME_EXPIRY (R452). -/
def execModTimeExpiry (ring : Fin 15) (s : State) : Ans :=
  .next (match (Machine.ring s ring.val).since with
    | some t =>
      if t + ticksUs (fld (ringWord s ring.val 5) 25 16) ≤ s.now then
        fireSrc (modRing s ring.val fun k => { k with cnt := 0, since := none }) (ringSrc ring.val)
      else s
    | none => s)

/-- BLOCK_IRQ_HOLDOFF_END (R452). -/
def execBlockIrqHoldoffEnd (blk : Blk) (s : State) : Ans :=
  .next (match (blkStat s blk).irqUntil with
    | some u =>
      if u ≤ s.now then
        let owed := (blkStat s blk).irqPend
        let s := modBlk s blk fun k => { k with irqUntil := none, irqPend := false }
        if owed then blkIrq s blk else s
      else s
    | none => s)

/-- A release of POR_N: the whole engine resets (R602). -/
def porReset : Instr → Bool
  | .porRelease _ => true
  | _ => false

/-- FLR (R454, R602): a Function Level Reset, or with `loss` the loss of the PCIe link, which then trains to `gen` and `width`
    or, with `gen` 0, stays down. Log entries 42, 81. -/
def execFlr (loss : Bool) (gen width : BitVec 4) (s : State) : Ans :=
  .next (if !s.glb.pcie || !regUp s .hif || s.pending.any porReset || (!s.hif.linkUp && (!loss || gen = 0)) then s
    else if !s.hif.linkUp then modHif s fun h => { h with linkUp := true, gen := gen, width := width }
    else
      let s := hifReset s
      let s := s.lnk.routes.foldl (fun s r =>
        if s.hif.slots.getLsbD r.1 then linkSend s r.2 (.hostReset (BitVec.ofNat 6 r.1)) else s) s
      let s := emit s .hif 0x0007 .notice (flag (!loss) 0) (some 4)
      if loss then modHif s fun h => { h with linkUp := gen != 0, gen := gen, width := width } else s)

/-- DMA_READ_COMPLETION (R443, R456): `cause` 0 is data as asked, 1 to 4 an error, which ends the command it was for. A
    read forwarded for a cascaded slot is answered with an error, its tag given in the header. Log entries 27, 43. -/
def execDmaReadCompletion (hd : Hdr) (slot : BitVec 6) (cause : BitVec 4) (s : State) : Ans :=
  .next (if !regUp s .hif || cause = 0 || 4 < cause.toNat then s else
    let s := modHif s fun h => { h with cnt := vmod h.cnt 2 (· + 1) }
    let s := emit s .hif 0x0003 .degraded (slot.toNat + hd.ring.val * 256 + cause.toNat * 4096) (some 2)
    if slot.toNat = ownSlot s then
      match s.hif.inflight.find? (fun c => c.1 = hd) with
      | some c => fin s hd c.2.toNat Status.aborted
      | none => s
    else match routeTo s slot.toNat with
      | some l => linkSend s l (.tunnel (BitVec.ofNat 8 slot.toNat) 0 hd.tag (.dmaCpl Status.aborted true 0 []))
      | none => s)

end Sys2Proof.Machine
end

