-- ==== Sys2Proof/Machine/HostRegs.lean ====
section
/-! DEFINITION. Host accesses of registers, the mailbox, the remote window and BAR2, and the two scrubbers
(R22, R23, R429, R434, R460 to R487, R504, R557 to R562). -/
namespace Sys2Proof.Machine

/-! ## Register accesses -/

/-- REGISTER_READ (R462, R463). -/
def execRegisterRead (addr len : Nat) (s : State) : Ans := .next (hostRd s addr len)

/-- REGISTER_WRITE (R462, R463). -/
def execRegisterWrite (addr : Nat) (data : List Byte) (s : State) : Ans := .next (hostWr s addr data)

/-- SQ_CLEAR (R478): a write of a block's SQ status register. -/
def execSqClear (blk : Blk) (word : Word) (s : State) : Ans := .next (hostWr32 s (blkBase blk + 4) word)

/-- RC_READ (R460): a full read of a register. -/
def execRcRead (addr : Nat) (s : State) : Ans := .next (hostRd s (addr / 4 * 4) 4)

/-- IND_DATA_ACCESS (R472 to R474): a read, or a write of `data`. -/
def execIndDataAccess (blk : Blk) (be : BitVec 4) (data : Option Word) (s : State) : Ans :=
  .next (if hostLink s then hostUnit s (blkBase blk + 0x84) be.toNat data else s)

/-- MBX_GO (R475): a write of GLB_MBX_CTRL. -/
def execMbxGo (word : Word) (s : State) : Ans := .next (hostWr32 s Rg.glbMbxCtrl word)

/-- MBX_DATA_READY (R475): within 2 µs of GO. -/
def execMbxDataReady (s : State) : Ans := .next (mbxReady s)

/-- MBX_ACK (R475). -/
def execMbxAck (word : Word) (s : State) : Ans := .next (hostWr32 s Rg.glbMbxAck word)

/-- GLB_LOCK_WRITE (R470, R471). -/
def execGlbLockWrite (word : Word) (s : State) : Ans := .next (hostWr32 s Rg.glbLock word)

/-- TEST_KEY_WRITE (R485). -/
def execTestKeyWrite (word : Word) (s : State) : Ans := .next (hostWr32 s Rg.glbTestKey word)

/-- TEST_WINDOW_CLOSE (R485): 1 s after the key. -/
def execTestWindowClose (s : State) : Ans :=
  .next (match s.glb.testUntil with
    | some t => if t ≤ s.now then { s with glb := { s.glb with testUntil := none } } else s
    | none => s)

/-- PWR_SWRST_WRITE (R504). -/
def execPwrSwrstWrite (word : Word) (s : State) : Ans := .next (hostWr32 s Rg.pwrSwrst word)

/-- PERF_WRAP_CLR_WRITE (R561). -/
def execPerfWrapClrWrite (word : Word) (s : State) : Ans := .next (hostWr32 s Rg.perfWrapClr word)

/-- CHKTEST_GO (R558). -/
def execChktestGo (word : Word) (s : State) : Ans := .next (hostWr32 s Rg.memFltChktest word)

/-- RING_ENABLE (R434): a write of a ring's word 4. -/
def execRingEnable (ring : Fin 15) (word : Word) (s : State) : Ans :=
  .next (if hostLink s && regUp s .hif then storeWord s (indKey .hif 1 (8 * ring.val + 4)) word else s)

/-- REMOTE_WINDOW_ACCESS (R429): a unit at an offset of the window. -/
def execRemoteWindowAccess (off : Nat) (be : BitVec 4) (data : Option Word) (s : State) : Ans :=
  .next (if hostLink s && decide (off < 0x200000) then windowUnit s (0x200000 + off / 4 * 4) (off / 4 * 4) be.toNat data else s)

/-! ## BAR2 (R562) -/

/-- A word of the BAR2 page. -/
def bar2Word (s : State) (o : Nat) : Nat × State :=
  if o < 0x1000 then let (c, _, s) := perfPair s (o / 4); (c, s)
  else if o < 0x2000 then let (_, h, s) := perfPair s ((o - 0x1000) / 4); (h, s)
  else if o < 0x2080 then (fld s.perf.wrap.toNat (8 * (o - 0x2000) + 31) (8 * (o - 0x2000)), s)
  else if o = 0x2080 then (flag (bringUp s) 0 + flag (rb s Rg.perfCtrl 0) 1, s)
  else if o = 0x2084 then ((ts32 s).toNat, s)
  else (0, s)

/-- USER_DENIED, at most once per second (R562). Log entry 60. -/
def userDenied (s : State) (off : Nat) (write : Bool) : State :=
  let due := match s.perf.denied with | some t => decide (t + ticksS 1 ≤ s.now) | none => true
  if due then
    emit { s with perf := { s.perf with denied := some s.now } } .perf 0x0001 .notice (off % 65536 + flag write 16) (some 0)
  else s

/-- BAR2_ACCESS (R562). The host sees BAR2's data at 2^32 + offset (entry 3). Log entry 60. -/
def execBar2Access (off : Nat) (data : Option (List Byte)) (len : Nat) (s : State) : Ans :=
  .next (if !hostLink s || decide (0x10000 ≤ off) then s else
    let opened := rb s Rg.perfCtrl 0
    match data with
    | some _ => if opened then s else userDenied s off true
    | none =>
      (unitsOf off len).foldl (fun s u =>
        if opened then
          let (v, s) := bar2Word s u.1
          readOut s (2 ^ 32 + u.1) (beMask u.2 v)
        else readOut (userDenied s off false) (2 ^ 32 + u.1) 0) s)

/-! ## The configuration scrubber (R467 to R469) -/

/-- CFG_PARITY's detail (R467). -/
def parityDetail (k : Nat) : Nat :=
  keyOffset k + flag (keyGuarded k) 23 +
    (if 2 ^ 40 ≤ k then 2 ^ 22 + fld k 23 0 * 2 ^ 24 + fld k 31 24 * 2 ^ 48 else 0)

/-- What a block's entry into its safe state brings about at once (R468). -/
def safeEntered (s : State) (b : Blk) : State :=
  match b with
  | .tco => clockEval s
  | .refs => refsSafe s
  | _ => s

/-- A word is found with a parity mismatch (R467, R468). -/
def parityFault (s : State) (k : Nat) (b : Blk) : State :=
  let was := safe s b
  let s := emit { s with mismatch := s.mismatch ++ [k] } b 0x0F0 .severe (parityDetail k) none
  let s := if keyGuarded k then enterSafe s b else s
  if safe s b && !was then safeEntered s b else s

/-- SAFE is set again while a guarded word of a block in its safe state still mismatches (R469). -/
def safeAgain (s : State) (b : Blk) : State :=
  match safeBit b with
  | some i =>
    if safe s b && guardedBad s b && !(blkStat s b).bits.getLsbD i then blkIrq (seqAdvance s b (some i)) b else s
  | none => s

def allBlks : List Blk :=
  [.glb, .clk, .pwr, .tco, .refs, .gbb, .tio, .svc, .ptp, .eth, .lnk, .pair, .key, .hif, .upd, .perf, .pan, .ctl, .mem]

/-- A host write of a stored word waits at this tick: it wins over the scrubber's check of the word (R482). Log entry 34. -/
def writeWaits (s : State) (k : Nat) : Bool :=
  hostLink s && s.pending.any fun c => match c with
    | .registerWrite addr data =>
      decide (addr ≤ k ∧ k + 4 ≤ addr + data.length) && !(s.glb.lock && (keyBlk k).any fun b => isLk b k)
    | .indDataAccess b be (some _) => be = 15 && k = indKey b (fld (indAddr s b) 31 24) (fld (indAddr s b) 23 0)
    | _ => false

/-- PARITY_SCRUB (R467): a pass of the scrubber; `bad` names a stored word whose parity bit does not match. -/
def execParityScrub (bad : Option Nat) (s : State) : Ans :=
  .next (
    let s := allBlks.foldl safeAgain s
    match bad with
    | none => s
    | some k => match keyBlk k with
      | some b => if hasParity k && (regUp s b || hasShadow k) && !s.mismatch.contains k && !writeWaits s k then parityFault s k b else s
      | none => s)

/-! ## SRAM and its ECC (R21 to R23, R578) -/

/-- A control core halts (R516). -/
def coreHalt (s : State) (n cause : Nat) : State :=
  if !coreUp s n then s else
  let s := { s with ctl := { s.ctl with run := vset s.ctl.run n 3, cause := vset s.ctl.cause n (BitVec.ofNat 2 cause) } }
  emit s .ctl 0x0001 .severe (n + cause * 256) (some 0)

/-- The frame at the head of a port's queues is dropped (R23). -/
def dropHead (s : State) (p : Fin 9) : State :=
  match (ethPort s p).qT, (ethPort s p).qM with
  | x :: r, _ => discardTx (modPort s p fun k => { k with qT := r }) x
  | [], y :: q => discardTx (modPort s p fun k => { k with qM := q }) y
  | [], [] => s

/-- The class of a double-bit error (R23, R578). Log entry 59. -/
def eccClass (part : Nat) : Cls :=
  match part with
  | 0 => .severe | 1 => .degraded | 2 => .notice | 3 => .degraded | 4 => .degraded | _ => .severe

/-- The partition of an internal SRAM address (R21); a microcode store is kind 6 (R578). Log entry 59. -/
def partAt (store : Option (Fin 3)) (addr : Nat) : Option (Fin 7) :=
  match store with
  | some n => if addr < (if n = 2 then 32768 else 65536) then some 6 else none
  | none =>
    if addr < 0x01000000 then some 0 else if addr < 0x02000000 then some 1 else if addr < 0x02800000 then some 2
    else if addr < 0x02E00000 then some 3 else if addr < 0x02F00000 then some 4 else if addr < 0x03000000 then some 5 else none

/-- The part of the navigation store that an address falls in, in the order of R154's table: a page, by its place in
    the ring, a latch record or a parameter set, by `entry`. Log entry 59. -/
def navDiscard (g : Gbb) (off entry : Nat) : Gbb :=
  if off < 0x80000 then { g with pages := g.pages.filter fun p => p.pseq.toNat % 4096 ≠ off / 128 }
  else if off < 0xE0000 then { g with latches := g.latches.eraseIdx entry }
  else { g with params := g.params.eraseIdx entry }

/-- What a double-bit error brings about (R23, R578): the address gives the session entry and the sketch cell; `entry`
    names the core, the record of the navigation store, the port with the frame that the buffer holds (9 more: the
    frame that it receives), or the function. Log entry 59. -/
def eccEffect (s : State) (part : Nat) (store : Fin 3) (addr entry : Nat) : State :=
  match part with
  | 0 => coreHalt s (entry % 4) 1
  | 1 => cancelEntry s ((addr - 0x01000000) / 256) false
  | 2 => putCell s (addr - 0x02000000) Cell.zero
  | 3 => if 9 ≤ entry then modPort s (Fin.ofNat 9 (entry - 9)) fun k => { k with rxBad := true } else dropHead s (Fin.ofNat 9 entry)
  | 4 => modGbb s fun g => navDiscard g (addr - 0x02E00000) entry
  | 5 => { s with mem := { s.mem with misc := vset s.mem.misc (entry % 3) true } }
  | _ =>
    let s := { s with mem := { s.mem with dead := s.mem.dead.set store true } }
    if store = 1 then instEvalAll s else s

/-- The scrubber meets an error (R23): it is counted, recorded and has its effect. Log entry 59. -/
def eccMeet (s : State) (double : Bool) (part : Fin 7) (store : Fin 3) (addr : BitVec 32) (entry : Nat) : State :=
  let p := part.val
  let detail := p + (if p = 6 then store.val * 16 else 0) + addr.toNat * 2 ^ 32
  if double then
    let s := { s with mem := { s.mem with uncorr := s.mem.uncorr.set part (s.mem.uncorr[part] + 1) } }
    let s := emit (if p < 6 then perfAdd s (390 + p) 1 else s) .mem 0x0002 (eccClass p) detail (some 1)
    eccEffect s p store addr.toNat entry
  else
    let s := { s with mem := { s.mem with corr := s.mem.corr.set part (s.mem.corr[part] + 1) } }
    emit (if p < 6 then perfAdd s (384 + p) 1 else s) .mem 0x0001 .notice detail (some 0)

/-- SRAM_SCRUB (R22, R23): whether the scrubber meets an error at an address of the SRAM or of a microcode store,
    and the end of a pass. No word exists outside them. Log entry 59. -/
def execSramScrub (store : Option (Fin 3)) (met double : Bool) (addr : BitVec 32) (entry : Nat) (pass : Bool) (s : State) : Ans :=
  .next (if s.pwr.phase != .ready && s.pwr.phase != .recovery then s else
    let s := match met, partAt store addr.toNat with
      | true, some part => eccMeet s double part (store.getD 0) addr entry
      | _, _ => s
    if pass then perfAdd { s with mem := { s.mem with scrub := sat32 (s.mem.scrub + 1) } } 396 1 else s)

/-! ## Checker testing (R557, R558) -/

/-- The block of a TEST record and the class of the real error (R557); none where no such checker exists. Log entry 59. -/
def checkerOf (kind inst : Nat) (double : Bool) : Option (Blk × Cls) :=
  match kind with
  | 0 => (blkOf inst).map fun b => (b, .severe)
  | 1 => if inst < 6 then some (.mem, if double then eccClass inst else .notice) else none
  | 2 => if inst < 3 then some (.mem, if double then .severe else .notice) else none
  | 3 => if inst < 4 then some (.lnk, .notice) else none
  | 4 => if inst < 9 then some (.eth, .notice) else none
  | 5 => if inst = 0 then some (.pan, if double then .severe else .notice) else none
  | _ => none

/-- CHKTEST_END (R558): a test ends within 10 µs; a checker that does not exist detects nothing. Log entry 59. -/
def execChktestEnd (detected : Bool) (s : State) : Ans :=
  .next (match s.mem.testBy with
    | none => s
    | some (_, w) =>
      let kind := fld w.toNat 23 20
      let inst := fld w.toNat 7 0
      let dbl := w.getLsbD 19
      let detail := kind + inst * 256 + flag dbl 16
      let s := { s with mem := { s.mem with testBy := none } }
      match checkerOf kind inst dbl, detected with
      | some (b, c), true => emitPlain { s with mem := { s.mem with result := 2 } } b 0x0F1 c true detail
      | _, _ => emit { s with mem := { s.mem with result := 3 } } .mem 0x0003 .severe detail (some 2))

end Sys2Proof.Machine
end

