-- ==== Sys2Proof/Machine/Key.lean ====
section
/-! DEFINITION. The commands and events of the key store (11_key_store.md R389 to R424). -/
namespace Sys2Proof.Machine

/-- The sources detected at this tick whose commands wait, with one of them (R419). Log entry 34. -/
def tamperGroup (s : State) (source : Fin 13) : List (Fin 13) :=
  (List.finRange 13).filter fun k => tamperActs s k && (k = source || s.pending.contains (.tamperDetect k))

/-- TAMPER_DETECT (R410 to R416): a source's filter ends. Source 10 and 11 need main power; 12 is found at start. The
    sources of one tick are logged together, in code order (R419). -/
def execTamperDetect (source : Fin 13) (s : State) : Ans :=
  .next (
    let seen : BitVec 13 := match s.key.tickSeen with | some (t, m) => if t = s.now then m else 0 | none => 0
    let l := (tamperGroup s source).filter fun k => !seen.getLsbD k.val
    if !tamperActs s source || seen.getLsbD source.val then s
    else
      let ph := tamperPhase s
      let s := modKey s fun k => { k with tickSeen := some (s.now, l.foldl (fun m k => m ||| BitVec.ofNat 13 (2 ^ k.val)) seen) }
      l.foldl (fun s k => tamper s k.val ph) s)

/-- INVALIDATE_COMMIT (R401, R402): the oldest invalidation whose T_c the counter has reached; a tamper of that tick wins
    (R419). -/
def execInvalidateCommit (s : State) : Ans :=
  .next (
    match s.key.inval.find? fun v => !v.committed && decide (v.tc ≤ nowNs s) with
    | none => s
    | some v =>
      if tamperWaits s then s
      else commitInval (modKey s fun k => { k with inval := k.inval.erase v }) v)

/-- KEY_MATERIAL_ZERO (R402). -/
def execKeyMaterialZero (s : State) : Ans :=
  .next (
    let due := s.key.inval.filter fun v => v.committed && decide (v.zeroAt ≤ nowNs s)
    let s := modKey s fun k => { k with inval := k.inval.filter fun v => !(v.committed && decide (v.zeroAt ≤ nowNs s)) }
    due.foldl (fun s v => zeroMaterial s v.slots) s)

/-- DRBG_RESEED (R408, R409). -/
def execDrbgReseed (s : State) : Ans :=
  .next (
    if s.key.entropyBad || !mainUp s || (decide (s.now < s.key.reseedAt + ticksS 1) && decide (s.key.generates < 2 ^ 20)) then s
    else perfAdd (modKey s fun k => { k with generates := 0, reseedAt := s.now, rngOk := true }) 427 1)

/-- RNG_FAIL (R409, R421): the repetition-count or the adaptive-proportion test fails. -/
def execRngFail (rep adapt : Bool) (s : State) : Ans :=
  .next (
    if s.key.entropyBad || !mainUp s || (!rep && !adapt) then s
    else emit (modKey s fun k => { k with rngOk := false, entropyBad := true, restartAt := s.now }) .key 0x0004 .severe
      (flag rep 0 + flag adapt 1) (some 3))

/-- ENTROPY_RESTART (R409): the restarted source passes its health tests or not. -/
def execEntropyRestart (ok : Bool) (s : State) : Ans :=
  .next (
    if !s.key.entropyBad || decide (s.now < s.key.restartAt + ticksS 1) then s
    else modKey s fun k => { k with entropyBad := !ok, restartAt := s.now })

/-- DRBG_EXHAUSTED (R409, R410): a tamper of source 11, if that is armed; a reseed of that tick wins (R419). -/
def execDrbgExhausted (s : State) : Ans :=
  .next (
    if s.key.generates < 2 ^ 32 || !mainUp s || !s.key.tamperEn.getLsbD 11 || (!s.key.entropyBad && s.pending.contains .drbgReseed) then s
    else tamper (modKey s fun k => { k with generates := 0 }) 11 (tamperPhase s))

/-! ## Commands (R420) -/

/-- A key command, counted; `keyed` says that it needs a KEYED store: such an operation aborts where a tamper of this tick
    zeroises the store (R415, R419). -/
def keyCmd (s : State) (hd : Hdr) (op : Nat) (pre : Option (BitVec 8)) (keyed : Bool) (body : State → State) : Ans :=
  cmd s hd op pre fun s =>
    let s := perfAdd s 428 1
    if keyed && storeState s != .keyed then fin s hd op Status.state
    else if keyed && tamperWaits s then fin s hd op Status.aborted
    else body s

/-- The result of a command that fills a slot: its attribute word and check value. -/
def keyResult (s : State) (hd : Hdr) (op slot : Nat) : State :=
  let k := keySlot s slot
  complete s hd op Status.ok 16 (pack [(0, k.attr.toNat), (8, leNat (checkValue k))])

/-- KEY_QUERY (R394, R405). -/
def execKeyQuery (hd : Hdr) (slot : BitVec 8) (s : State) : Ans :=
  keyCmd s hd 0xB0 (badIf (slot = 0)) false fun s => keyResult s hd 0xB0 slot.toNat

/-- KEY_GEN (R395, R397). -/
def execKeyGen (hd : Hdr) (slot : BitVec 8) (attr : BitVec 32) (s : State) : Ans :=
  keyCmd s hd 0xB1 (badIf (decide (slot.toNat < 3) || !attrOk attr.toNat)) true fun s =>
    if (keySlot s slot.toNat).valid then fin s hd 0xB1 Status.state
    else
      let (x, s) := draw s
      keyResult (fillSlot s slot.toNat 0 0 attr.toNat (keyFrom attr.toNat x)) hd 0xB1 slot.toNat

/-- KEY_IMPORT (R396, R399, R400): `blob` is what host memory holds. -/
def execKeyImport (hd : Hdr) (slot wrap : BitVec 8) (addr : BitVec 64) (len : BitVec 32) (blob : List Byte) (s : State) : Ans :=
  keyCmd s hd 0xB2 (badIf (decide (slot.toNat < 3) || wrap = 0)) true fun s =>
    let w := keySlot s wrap.toNat
    if (keySlot s slot.toNat).valid then fin s hd 0xB2 Status.state
    else if !w.valid || !w.use 4 then fin s hd 0xB2 Status.refused
    else
      let s := hostRead s addr.toNat len.toNat
      match openBlob s (blob.take len.toNat) wrap.toNat with
      | .error e => fin s hd 0xB2 e
      | .ok (a, k) => keyResult (fillSlot s slot.toNat wrap.toNat 1 a k) hd 0xB2 slot.toNat

/-- The output of a key derivation (R398). -/
def kdfOut (kdf : Nat) (parent : KeySlot) (ctx : List Byte) (bytes : Nat) : Nat :=
  (if kdf = 0 then Config.hkdf parent.key (List.replicate 32 0) ctx bytes else Config.kdf108 parent.key ctx bytes) % 2 ^ (8 * bytes)

/-- KEY_DERIVE (R398): `ctx` is what host memory holds. -/
def execKeyDerive (hd : Hdr) (slot parent kdf : BitVec 8) (attr : BitVec 32) (addr : BitVec 64) (len : BitVec 16) (ctx : List Byte)
    (s : State) : Ans :=
  let p := keySlot s parent.toNat
  let bad := decide (slot.toNat < 3) || parent = 0 || decide (1 < kdf.toNat) || !attrOk attr.toNat || attr.getLsbD 15
    || decide (256 < len.toNat) || (p.valid && decide (8 ≤ keyDepth 256 s parent.toNat)) || (p.valid && kdf = 1 && 2 < p.len)
  keyCmd s hd 0xB3 (badIf bad) true fun s =>
    if (keySlot s slot.toNat).valid then fin s hd 0xB3 Status.state
    else if !p.valid || p.p384 || !p.use 3 then fin s hd 0xB3 Status.refused
    else
      let s := hostRead s addr.toNat len.toNat
      keyResult (fillSlot s slot.toNat parent.toNat 2 attr.toNat (kdfOut kdf.toNat p (ctx.take len.toNat) (lenBytes (fld attr.toNat 14 12))))
        hd 0xB3 slot.toNat

/-- KEY_EXPORT (R399). -/
def execKeyExport (hd : Hdr) (slot wrap : BitVec 8) (addr : BitVec 64) (len : BitVec 32) (s : State) : Ans :=
  let k := keySlot s slot.toNat
  keyCmd s hd 0xB4 (badIf (slot = 0 || wrap = 0 || (k.valid && decide (len.toNat < 48 + lenBytes k.len)))) true fun s =>
    let w := keySlot s wrap.toNat
    if !k.valid || !k.attr.getLsbD 8 || !w.valid || w.p384 || !w.use 4 then fin s hd 0xB4 Status.refused
    else
      let (b, s) := wrapBlob s slot.toNat wrap.toNat
      complete (hostDma s addr.toNat b) hd 0xB4 Status.ok 4 b.length

/-- KEY_INVALIDATE (R401): it completes at the commit instant. -/
def execKeyInvalidate (hd : Hdr) (slot : BitVec 8) (s : State) : Ans :=
  let k := keySlot s slot.toNat
  keyCmd s hd 0xB5 (if slot = 0 then some Status.badArg else if !k.valid then some Status.notFound else none) true fun s =>
    if slot.toNat < 3 || k.attr.getLsbD 9 then fin s hd 0xB5 Status.refused
    else beginInval s (some hd) slot.toNat

/-- KEY_ATTEST (R404): `nonce` is what host memory holds. -/
def execKeyAttest (hd : Hdr) (slot : BitVec 8) (nonceAddr addr : BitVec 64) (nonce : List Byte) (s : State) : Ans :=
  let k := keySlot s slot.toNat
  keyCmd s hd 0xB6 (if slot = 0 then some Status.badArg else if !k.valid then some Status.notFound else none) true fun s =>
    let s := hostRead s nonceAddr.toNat 32
    let n := nonce.take 32 ++ List.replicate (32 - nonce.length) 0
    let st := statement s 1 0 n (List.replicate 32 0) slot.toNat k.attr.toNat (keyRef k)
    let (sig, s) := signDigest s 1 (Config.sha384 st)
    complete (hostDma s addr.toNat (st ++ sig)) hd 0xB6 Status.ok 4 272

/-- KEY_PUBLIC (R420). -/
def execKeyPublic (hd : Hdr) (slot : BitVec 8) (addr : BitVec 64) (s : State) : Ans :=
  let k := keySlot s slot.toNat
  keyCmd s hd 0xB7 (badIf (slot = 0)) true fun s =>
    if !k.valid || !k.p384 then fin s hd 0xB7 Status.refused
    else complete (hostDma s addr.toNat (beBytes 97 (Config.p384Pub k.key))) hd 0xB7 Status.ok 4 97

/-- KEY_SIGN (R420): `digest` is what host memory holds. -/
def execKeySign (hd : Hdr) (slot : BitVec 8) (dAddr addr : BitVec 64) (digest : List Byte) (s : State) : Ans :=
  let k := keySlot s slot.toNat
  keyCmd s hd 0xB8 (badIf (slot = 0)) true fun s =>
    if slot = 1 || !k.valid || !k.use 2 then fin s hd 0xB8 Status.refused
    else
      let s := hostRead s dAddr.toNat 48
      let (sig, s) := signDigest s slot.toNat (beNat (digest.take 48))
      complete (hostDma s addr.toNat sig) hd 0xB8 Status.ok 4 96

/-- KEY_PROVISION (R407): `hit` is a tamper source detected while it runs; only an armed one detects (R412). Log entry 79. -/
def execKeyProvision (hd : Hdr) (addr : BitVec 64) (hit : Option (Fin 13)) (s : State) : Ans :=
  keyCmd s hd 0xB9 none false fun s =>
    if s.key.store = .keyed || safe s .key || !rb s Rg.keyCtrl 1 then fin s hd 0xB9 Status.state
    else if s.key.latch != 0 then fin s hd 0xB9 Status.refused
    else match hit.filter (fun src => s.key.tamperEn.getLsbD src.val && src.val != 12) with
      | some src => fin (tamper s src.val 3) hd 0xB9 Status.aborted
      | none =>
        let (x, s) := draw s
        let s := deriveFixed (modKey s fun k => { k with root := some (BitVec.ofNat 256 x), provCount := k.provCount + 1 })
        let s := hostDma s addr.toNat (beBytes 48 (Config.sha384 (beBytes 97 (Config.p384Pub (keySlot s 1).key))))
        let s := emit s .key 0x0005 .notice s.key.provCount.toNat (some 4)
        complete s hd 0xB9 Status.ok 4 s.key.provCount.toNat

/-- The 64 bytes of the tamper log (R414). -/
def tamperLogBytes (s : State) : List Byte :=
  leBytes 4 s.key.logTotal.toNat ++ [BitVec.ofNat 8 s.key.logNext, 0, 0, 0] ++
  (s.key.log.toList.map fun e => leBytes 4 e.aonS.toNat ++ [e.source, e.power, e.phase, e.repeat_]).flatten

/-- KEY_TAMPER_READ (R414). -/
def execKeyTamperRead (hd : Hdr) (addr : BitVec 64) (s : State) : Ans :=
  keyCmd s hd 0xBA none false fun s =>
    complete (hostDma s addr.toNat (tamperLogBytes s)) hd 0xBA Status.ok 4 s.key.logTotal.toNat

/-- TAMPER_CLEAR (R413): `active` are the sources whose cause is present; a detection of this tick wins (R419). Log
    entry 79. -/
def execTamperClear (hd : Hdr) (mask : BitVec 16) (active : BitVec 13) (s : State) : Ans :=
  keyCmd s hd 0xBB none false fun s =>
    let hit := ((List.finRange 13).map fun k => flag (tamperActs s k && s.pending.contains (.tamperDetect k)) k.val).foldl (· + ·) 0
    let gone := s.key.latch &&& mask.setWidth 13 &&& ~~~active &&& ~~~(BitVec.ofNat 13 hit)
    let s := modKey s fun k => { k with latch := k.latch &&& ~~~gone }
    let s := emit s .key 0x0007 .notice (gone.toNat + s.key.latch.toNat * 65536) none
    complete s hd 0xBB Status.ok 2 s.key.latch.toNat

end Sys2Proof.Machine
end

