-- ==== Sys2Proof/Machine/MirrorRx.lean ====
section
/-! DEFINITION. What a standby does with mirror records (10_redundant_pair.md R373 to R377). -/
namespace Sys2Proof.Machine

/-! ## Keys under the pair key (R374, R375) -/

/-- Opens a mirrored blob under the pair key's slot (R373, R400); WGEN is the producer's, whose slot counts its own
    generations. Log entry 47. -/
def openMirrored (s : State) (blob : List Byte) (w : Nat) : Except (BitVec 8) (Nat × Nat) :=
  let k := keySlot s w
  let gen : BitVec 32 := BitVec.ofNat 32 (leAt blob 13 1 * 2 ^ 24)
  openBlob (setSlot s w { k with attr := (k.attr &&& 0x00FFFFFF) ||| gen }) blob w

/-- The key that stands in a slot goes with its descendants before an import (R375, R401). Log entry 47. -/
def displace (s : State) (n : Nat) : State :=
  if (keySlot s n).valid then
    let tc := ceilDiv (s.tco.counter + 2000 * 2 ^ 48) (1000 * 2 ^ 48) * 1000
    let v : Inval := { host := none, named := BitVec.ofNat 8 n, slots := keyFamily s n, tc := tc, committed := true, zeroAt := tc + 2000, old := [] }
    commitInval s v
  else s

/-- An invalidation takes a slot, or one of this tick waits that will (R419). Log entry 34. -/
def invalTakes (s : State) (n : Nat) : Bool :=
  s.key.inval.any (fun v => !v.committed && v.slots.contains n) ||
  s.pending.any fun c => match c with | .keyInvalidate _ k => (keyFamily s k.toNat).contains n | _ => false

/-- Imports a mirrored key slot: the slot that the entry then names, 0 for one marked unusable. Log entry 47. -/
def importMirrored (s : State) (n : Nat) (blob : List Byte) (usable : Bool) : Nat × State :=
  match s.pair.keySlot, usable with
  | some w, true =>
    if n < 3 || ((keySlot s n).valid && (keySlot s n).attr.getLsbD 9) then (0, emit s .pair 0x000B .notice n none)
    else if !keyServed s || !(keySlot s w.toNat).valid || invalTakes s n || invalTakes s w.toNat then (0, s)
    else match openMirrored s blob w.toNat with
      | .error _ => (0, s)
      | .ok (a, k) => (n, fillSlot (displace s n) n w.toNat 1 a k)
  | _, _ => (0, s)

def useOf : Nat → KeyUse
  | 0 => .empty | 1 => .current | 2 => .accept | _ => .retiring

/-- A cookie key entry as mirrored (R235, R373): one entry is CURRENT. Log entry 48. -/
def mirroredCookie (s : State) (i : Fin 16) (keyId : BitVec 32) (slot : BitVec 8) (st : KeyUse) (retire : Option Nat)
    (blob : List Byte) (usable : Bool) : State :=
  let (n, s) := if st = .empty then (0, s) else importMirrored s slot.toNat blob usable
  let s := match st, s.svc.cur with
    | .current, some j => if j = i then s else modCk s j fun k => if k.st = .current then { k with st := .accept } else k
    | _, _ => s
  let s := modCk s i fun k => { keyId := keyId, slot := BitVec.ofNat 8 n, st := st, retireAt := retire,
                                unsealed := if k.keyId = keyId then k.unsealed else 0 }
  modSvc s fun v => match st with
    | .current => { v with cur := some i, lastCur := i }
    | _ => if v.cur = some i then { v with cur := none, lastCur := i } else v

/-- A security key entry as mirrored (R270, R373): one entry of an SPP is CURRENT. Log entry 48. -/
def mirroredSec (s : State) (e : Fin 64) (keyId : BitVec 32) (slot spp : BitVec 8) (cmac : Bool) (st : KeyUse) (retire : Option Nat)
    (blob : List Byte) (usable : Bool) : State :=
  let (n, s) := if st = .empty then (0, s) else importMirrored s slot.toNat blob usable
  let s := if st = .current then
      modPtp s fun p => { p with keys := p.keys.map fun k => if k.st = .current && k.spp = spp then { k with st := .accept } else k }
    else s
  keyBack (modSec s e fun k =>
    { keyId := keyId, slot := BitVec.ofNat 8 n, spp := spp, cmac := cmac, st := st, retireAt := retire,
      verified := if k.keyId = keyId then k.verified else 0, icvFail := if k.keyId = keyId then k.icvFail else 0 })

/-! ## Records (R373) -/

/-- The active's time state (R373); UTC and a pending leap as by LEAP_SET, under R70. Log entry 48. -/
def mirroredActive (s : State) (teb : BitVec 32) (cstate : BitVec 8) (w : Int) (utc : BitVec 16) (utcValid : Bool) (pend : BitVec 2)
    (leapAt : BitVec 32) (lastContr : BitVec 128) : State :=
  let s := modPair s fun p => { p with actTeb := teb, actState := cstate, actW := w, partner := { p.partner with lastContr := lastContr } }
  if !utcValid || pend = 3 || (pend != 0 && decide (leapAt.toNat ≤ secOf s.tco.counter % 2 ^ 32)) then s
  else utcWrite s utc pend leapAt false

/-- A mirrored word: of REFS_CTRL only RETURN_MODE and REVERTIVE are mirrored (R373). Log entry 48. -/
def mirroredWord (s : State) (key : Nat) (v : Word) : State :=
  if !mirroredKeys.contains key then s
  else if key = Rg.refsCtrl then applyWord s key ((getW s key &&& ~~~6) ||| (v &&& 6))
  else applyWord s key v

/-- One stream of a mirrored grant; it keeps its next instant where it already runs at that interval. -/
def mirroredStream (s : State) (e : Nat) (old : Option Grant) (r : StreamRec) : Grant :=
  let n := logTicks r.logInt
  { logInt := r.logInt, until_ := s.now + r.remain, seqId := r.seqId,
    next := match old with
      | some g => if g.logInt = r.logInt then g.next else streamNext s e n
      | none => streamNext s e n }

/-- A mirrored grant (R280). -/
def mirroredGrant (s : State) (e : Nat) (g : GrantEntry) (streams : List (Option StreamRec)) : State :=
  let old := grantAt s e
  let at_ := fun (k : GrantKind) (i : Nat) =>
    ((streams[i]?).getD none).map (mirroredStream s e (old.bind fun o => o.get k))
  putGrant s e { g with announce := at_ .announce 0, sync := at_ .sync 1, delayResp := at_ .delayResp 2 }

/-- A mirrored trigger: edges already past count as emitted by the active (R188, R373). Log entry 48. -/
def mirroredTrig (s : State) (pin : Fin 16) (t : Trig) : State :=
  let n := match s.tio.trigs[pin] with
    | some o => if o.startSec = t.startSec && o.startSub = t.startSub && o.per = t.per && o.mode = t.mode then o.j else trigCount t (subNs s.tco.counter)
    | none => trigCount t (subNs s.tco.counter)
  { s with tio := { s.tio with armSeq := s.tio.armSeq + 1,
                               trigs := s.tio.trigs.set pin (some { t with j := n, emitted := n, arm := s.tio.armSeq }) } }

/-- One record is applied on the standby (R373). Log entries 23, 48. -/
def applyRec (s : State) (r : MirrorRec) : State :=
  match r with
  | .active teb cst w utc uv pend leapAt lc => mirroredActive s teb cst w utc uv pend leapAt lc
  | .word key v => mirroredWord s key v
  | .quals mask ranks => modPair s fun p => { p with partner := { p.partner with qual := mask, ranks := ranks } }
  | .cookieKey e keyId slot st ret _ blob usable => mirroredCookie s e keyId slot (useOf st.toNat) ret blob usable
  | .secKey e keyId slot spp cmac st ret _ blob usable => mirroredSec s e keyId slot spp cmac (useOf st.toNat) ret blob usable
  | .grant e i v6 addr udp ident port streams =>
    mirroredGrant s e { inst := i, ipv6 := v6, addr := addr, udpPort := udp, ident := ident, port := port, announce := none,
                        sync := none, delayResp := none } streams
  | .seqs i sy an => modInst s i fun k => { k with seqSync := sy, seqAnn := an }
  | .grantGone e => modPtp s fun p => { p with grants := p.grants.filter fun g => g.1 != e }
  | .nav p => if injectOk p then inject s p else s
  | .trig pin mode rate count sec sub per stop =>
    mirroredTrig s pin { mode := mode, rate := rate, count := count, startSec := sec, startSub := sub, per := per, j := 0, emitted := 0,
                         stopAt := stop, arm := 0 }
  | .trigGone pin => { s with tio := { s.tio with trigs := s.tio.trigs.set pin none } }

/-- A waiting record is applied: the generation advances, and the last record of a snapshot completes the mirror (R376).
    Log entry 49. -/
def applyWaiting (s : State) (r : PairRec) : State :=
  let s := applyRec s r.item
  let s := modPair s fun p => { p with mgen := r.mgen, mirrorDone := if r.snapshot then r.last else p.mirrorDone }
  if r.snapshot && r.last then emit s .pair 0x0006 .notice r.mgen.toNat (some 1) else s

/-- Records are applied by core 2, not in PAIR's safe state, and through the mirror's staging memory. Log entry 49. -/
def mirrorDrain (s : State) : State :=
  if coreUp s 2 && !safe s .pair && !s.mem.misc[2] then
    let l := s.pair.waiting
    pairEval (l.foldl applyWaiting (modPair s fun p => { p with waiting := [] }))
  else s

/-- A MIRROR frame arrives at a paired standby (R373, R376). Log entry 49. -/
def rxMirror (s : State) (mgen : BitVec 32) (snapshot last : Bool) (r : MirrorRec) : State :=
  if s.pair.holding || s.pair.keySlot.isNone then s
  else
    let s := beginMirror s
    mirrorDrain (modPair s fun p =>
      { p with partner := { p.partner with mgen := mgen },
               waiting := p.waiting ++ [{ item := r, mgen := mgen, snapshot := snapshot, last := last, tick := s.now }] })

end Sys2Proof.Machine
end

