-- ==== Sys2Proof/Machine/TunnelOps.lean ====
section
/-! DEFINITION. Cascade tunnels (09_colol_link.md R346 to R353, 12_host_rings.md R453): forwarding by slot, the host
windows, and what a tunnelled transaction does where it ends. -/
namespace Sys2Proof.Machine

/-! ## Host windows (R352, R453) -/

/-- A window of a slot holds the whole transfer. Log entry 38. -/
def inWindow (s : State) (slot w addr len : Nat) : Bool :=
  let i := slot * 16 + w * 4
  let base := ind s .hif 3 i + ind s .hif 3 (i + 1) * 2 ^ 32
  let lg := ind s .hif 3 (i + 2)
  decide (12 ≤ lg) && decide (base ≤ addr) && decide (addr + len ≤ base + 2 ^ lg)

/-- The primary admits a tunnelled DMA (R352, R453, R468). Log entry 43. -/
def dmaAdmitted (s : State) (slot addr len : Nat) : Bool :=
  rb s Rg.hifCtrl 1 && !safe s .hif && decide (1 ≤ slot) && decide (slot < 64) && decide (4 ≤ len) && decide (len ≤ 512) && len % 4 = 0
    && (List.range 4).any fun w => inWindow s slot w addr len

/-- WIN_REFUSED: counted, and told once per second per slot (R453). -/
def winRefuse (s : State) (slot addr : Nat) : State :=
  let s := modHif s fun h => { h with cnt := vmod h.cnt 3 (· + 1) }
  match s.hif.winRefused.lookup slot with
  | some t => if s.now < t + ticksS 1 then s else told s
  | none => told s
where
  /-- The record, and the second that it opens. -/
  told (s : State) : State :=
    emit (modHif s fun h => { h with winRefused := (slot, s.now) :: h.winRefused.filter fun p => p.1 != slot }) .hif 0x0004 .notice
      (slot % 64 + addr / 65536 * 65536) (some 3)

/-- Bytes forwarded for cascaded engines (R459). -/
def dmaBytes (s : State) (n : Nat) : State := modHif s fun h => { h with cnt := vmod h.cnt 7 (· + n) }

/-! ## Forwarding (R348) -/

/-- Where a transaction for a slot goes: here, over a link, or nowhere. -/
inductive Hop where
  | here
  | over (l : Fin 4)
  | lost
  deriving DecidableEq, Repr

def hopFor (s : State) (dst : Nat) : Hop :=
  if slotNum s = some dst then .here
  else match (if dst = 0 then hostPath s else routeTo s dst) with
    | some l => if (link s l).st = .up then .over l else .lost
    | none => .lost

/-- A frame for a slot that is not recorded: dropped and counted; a read or DMA read is answered NOT_FOUND on the link it
    came by. -/
def tunnelLost (s : State) (l : Fin 4) (dst src : BitVec 8) (tag : BitVec 16) (t : Tunnel) : State :=
  let s := modLnk s fun k => { k with noRoute := k.noRoute + 1 }
  match t with
  | .regRd .. => linkSend s l (.tunnel src dst tag (.regCpl Status.notFound 0))
  | .dmaRd .. => linkSend s l (.tunnel src dst tag (.dmaCpl Status.notFound true 0 []))
  | _ => s

/-! ## Where a transaction ends -/

/-- DMA_RD at the primary (R352): what host memory holds is an operand; one that PCIe has not answered well stays for
    DMA_READ_COMPLETION. Log entry 27. -/
def tunnelDmaRd (s : State) (l : Fin 4) (src : BitVec 8) (tag : BitVec 16) (addr len : Nat) (hostData : List Byte) : State :=
  let reply := fun (s : State) (st : BitVec 8) (d : List Byte) => linkSend s l (.tunnel src 0 tag (.dmaCpl st true 0 d))
  if !dmaAdmitted s src.toNat addr len then reply (winRefuse s src.toNat addr) Status.refused []
  else if !s.hif.linkUp then reply s Status.aborted []
  else
    let s := dmaBytes (perfAdd s 335 1) len
    if hostData.length < len then s else reply s Status.ok (hostData.take len)

/-- DMA_WR at the primary (R352). -/
def tunnelDmaWr (s : State) (src : BitVec 8) (addr : Nat) (data : List Byte) : State :=
  if !dmaAdmitted s src.toNat addr data.length then winRefuse s src.toNat addr
  else if !s.hif.linkUp then s
  else emitOut (dmaBytes (perfAdd s 336 1) data.length) (.dma addr data)

/-- REG_CPL at the primary (R351): it is matched to the access by slot and tag; one that matches none is discarded.
    Log entry 37. -/
def tunnelRegCpl (s : State) (src : BitVec 8) (tag : BitVec 16) (st : BitVec 8) (data : Word) : State :=
  match s.hif.remote.find? fun a => a.slot = src.toNat && a.tag = tag with
  | none => s
  | some a =>
    let s := modHif s fun h => { h with remote := h.remote.filter fun x => x != a }
    if a.write then s else readOut s a.addr (beMask a.be.toNat (if st = Status.ok then data.toNat else 0xFFFFFFFF))

/-- A transaction that has come to its slot (R348, R350). -/
def tunnelHere (s : State) (l : Fin 4) (dst src : BitVec 8) (tag : BitVec 16) (t : Tunnel) (hostData : List Byte) : State :=
  match t with
  | .regRd off be =>
    let (v, s) := unitRead s off.toNat be.toNat true
    linkSend s l (.tunnel src dst tag (.regCpl Status.ok (BitVec.ofNat 32 v)))
  | .regWr off be data =>
    linkSend (unitWrite s off.toNat be.toNat data true) l (.tunnel src dst tag (.regCpl Status.ok 0))
  | .regCpl st data => tunnelRegCpl s src tag st data
  | .dmaRd addr len => if s.glb.pcie then tunnelDmaRd s l src tag addr.toNat len hostData else s
  | .dmaWr addr data => if s.glb.pcie then tunnelDmaWr s src addr.toNat data else s
  | .dmaCpl .. => s
  | .msi v => if s.glb.pcie && rb s Rg.hifCtrl 1 && s.hif.linkUp then fireVec s v.toNat else s
  | .doorbell r v => if decide (r.toNat < 15) && !s.glb.pcie then applyDoorbell s r.toNat v else s

/-- A TUNNEL frame arrives (R348): hop by hop to its slot. -/
def rxTunnel (s : State) (l : Fin 4) (dst src : BitVec 8) (tag : BitVec 16) (t : Tunnel) (hostData : List Byte) : State :=
  match hopFor s dst.toNat with
  | .here => tunnelHere s l dst src tag t hostData
  | .over h => linkSend s h (.tunnel dst src tag t)
  | .lost => tunnelLost s l dst src tag t

/-- hostReset (R454): the rings of this slot, or passed on to another. Log entries 42, 50. -/
def rxHostReset (s : State) (slot : BitVec 6) : State :=
  match hopFor s slot.toNat with
  | .here => if s.glb.pcie then s else hifReset s
  | .over h => linkSend s h (.hostReset slot)
  | .lost => s

end Sys2Proof.Machine
end

