-- ==== Sys2Proof/Machine/LinkRx.lean ====
section
/-! DEFINITION. A Colol frame arrives (09_colol_link.md R327 to R343): its checks, its acknowledgement and what it brings
about. -/
namespace Sys2Proof.Machine

/-- A LEN that a TUNNEL subtype cannot have (R348, R349). -/
def bodyFits : LinkBody → Bool
  | .tunnel _ _ _ t => match t with
    | .dmaWr _ d => decide (4 ≤ d.length) && decide (d.length ≤ 512) && d.length % 4 = 0
    | .dmaCpl _ _ _ d => decide (d.length ≤ 512) && d.length % 4 = 0
    | _ => true
  | _ => true

/-- A reliable frame that the role does not allow, or of an unknown SUB (R329, R333). -/
def wrongType (s : State) (l : Fin 4) (b : LinkBody) : Bool :=
  let r := (link s l).role
  match b with
  | .mirror .. => r != .pair
  | .tunnel .. => !(r = .parent || r = .child) || trunkOn s l
  | .unknown .. => true
  | _ => false

/-- A frame with a bad CRC (R333, R354). -/
def crcError (s : State) (l : Fin 4) : State :=
  let s := perfAdd (lnkCnt s l 0 1) (256 + 16 * l.val + 6) 1
  modLink s l fun k => { k with crcSec := k.crcSec + 1, pantryCrc := k.pantryCrc + 1 }

/-- Performance-counter index of a received frame (R560). -/
def rxPerf : LinkBody → Option Nat
  | .timeReq _ | .timeResp .. => some 1
  | .mirror .. => some 3
  | .tunnel .. => some 5
  | _ => none

/-- SWAP_PROPOSE arrives (R379, R468): a READY standby plans the swap, any other unit aborts it. Log entry 50. -/
def rxSwapPropose (s : State) (l : Fin 4) (h : Nat) : State :=
  if !s.pair.holding && s.pair.st = .ready && !safe s .pair && coreUp s 2 && s.pair.swap.isNone then planSwap s h true none
  else linkSend s l (.swapAbort (BitVec.ofNat 11 (selfCheck s)))

/-- SWAP_ACCEPT arrives at the active (R379, R384). -/
def rxSwapAccept (s : State) : State :=
  match s.pair.swap with
  | some w => if w.incoming then s else modPair s fun p => { p with swap := some { w with accepted := true } }
  | none => s

/-- SWAP_ABORT arrives: up to the last call either unit may abort (R379). Log entry 50. -/
def rxSwapAbort (s : State) (mask : BitVec 11) : State :=
  match s.pair.swap with
  | some w => if w.driven || w.handed then s else swapAbort s mask.toNat false
  | none => s

/-- Subtypes of the pair chapter act on a PAIR link (R367, R370, R379, R383). -/
def deliverPair (s : State) (l : Fin 4) (b : LinkBody) : State :=
  match b with
  | .heartbeat _ role pstate flags cstate teb mgen power => rxHeartbeat s role pstate flags cstate teb mgen power
  | .swapPropose h => rxSwapPropose s l h
  | .swapAccept => rxSwapAccept s
  | .swapAbort m => rxSwapAbort s m
  | .swapRequest => if mayPropose s then proposeSwap s none else s
  | .pairHello n => rxPairHello s n
  | .pairAttest pub eph stmt sig => rxPairAttest s pub eph stmt sig
  | .pairConfirm c => rxPairConfirm s c
  | .mirror mgen snap last r => rxMirror s mgen snap last r
  | _ => s

/-- Numbering runs on links between a time source and its dependant (R345). Log entry 50. -/
def deliverNumber (s : State) (l : Fin 4) (b : LinkBody) : State :=
  let r := (link s l).role
  match b with
  | .slotReq ident route => if r = .child && !trunkOn s l then rxSlotReq s l ident route else s
  | .slotAssign ident slot shelf route => if r = .parent then rxSlotAssign s ident slot shelf route else s
  | .shelfReq ident pref route => if r = .child then rxShelfReq s l ident pref route else s
  | .shelfAssign ident shelf route => if r = .parent then rxShelfAssign s ident shelf route else s
  | .shelfUpdate slot shelf => if r = .parent then rxShelfUpdate s slot shelf else s
  | .hostReset slot => if r = .parent then rxHostReset s slot else s
  | _ => s

/-- What a frame that has been accepted brings about. Log entry 50. -/
def deliver (s : State) (l : Fin 4) (phase : Fin 16) (hostData : List Byte) (b : LinkBody) : State :=
  let r := (link s l).role
  let s := match rxPerf b with | some i => perfAdd s (256 + 16 * l.val + i) 1 | none => s
  match b with
  | .idle => s
  | .hello .. => s
  | .unknown .. => s
  | .timeReq seq =>
    if r = .child || r = .pair then
      timeAnswer s l seq (stampSub s (9 + l.val) 0 phase % ((counterMod / 2 ^ 32 : Nat) : Int)).toNat
    else s
  | .timeResp seq t2 t3 teb hops state node =>
    if r = .parent || r = .pair then rxTimeResp s l phase seq t2 t3 teb hops state node else s
  | .tunnel dst src tag t => rxTunnel s l dst src tag t hostData
  | .updOffer len _ => rxUpdOffer s l len.toNat
  | .updReply st => rxUpdReply s l st
  | .updData off d => rxUpdData s l off.toNat d
  | .updEnd a => rxUpdEnd s l a
  | .updResult st c => rxUpdResult s l st c
  | b => if r = .pair then deliverPair s l b else deliverNumber s l b

/-- A frame in HELLO (R327, R336): only HELLO and IDLE pass. -/
def rxInHello (s : State) (l : Fin 4) (f : LinkFrame) : State :=
  let acked := fun (s : State) => if f.ack = 1 then modLink s l fun k => { k with ackOk := true } else s
  match f.body with
  | .hello ident node role flags => rxHello (acked s) l ident node role flags
  | .idle => tryRise (acked s) l
  | _ => s

/-- A frame in UP (R331, R333): a reliable frame is taken only next in order, acknowledged, and then judged by role. -/
def rxInUp (s : State) (l : Fin 4) (phase : Fin 16) (hostData : List Byte) (f : LinkFrame) : State :=
  match f.body with
  | .hello .. => ackHello s l
  | b =>
    let s := rxAck s l f.ack
    if isReliable b then
      if f.lseq != (link s l).rxSeq + 1 then s
      else
        let s := modLink s l fun k => { k with rxSeq := k.rxSeq + 1, ackDue := true }
        if wrongType s l b then lnkCnt s l 5 1 else deliver s l phase hostData b
    else deliver s l phase hostData b

/-- LINK_FRAME_RX (R328 to R333): `phase` places the stamp within the tick (R46); `hostData` is what host memory holds
    where the frame is a DMA_RD. -/
def execLinkFrameRx (lk : Fin 4) (phase : Fin 16) (hostData : List Byte) (frame : LinkFrame) (s : State) : Ans :=
  .next (
    let st := (link s lk).st
    if !(st = .hello || st = .up) || !linksPower s then s
    else if !frame.crcOk then crcError s lk
    else
      let s := modLink s lk fun k => { k with rxAt := s.now }
      if !frame.lenOk || !bodyFits frame.body then lnkCnt s lk 7 1
      else if st = .hello then rxInHello s lk frame
      else rxInUp s lk phase hostData frame)

end Sys2Proof.Machine
end

