-- ==== Sys2Proof/Machine/PwrOps.lean ====
section
/-! DEFINITION. Resets, power-down and the start of the engine (14_power_clocks_startup.md R489 to R509, 15_firmware_update.md
R524 to R527 and R535, 16_faults_diagnostics.md R569 to R575): what a release of POR_N, a soft reset and the power states
share. -/
namespace Sys2Proof.Machine

def modPwr (s : State) (f : Pwr → Pwr) : State := { s with pwr := f s.pwr }

def modPan (s : State) (f : Pan → Pan) : State := { s with pan := f s.pan }

/-! ## What a reset leaves (R489, R391, R422) -/

/-- The key store after a reset: the root and the tamper log stand in BBRAM, the tamper registers in the AON domain, floor
    and revocation in OTP; the slots are empty. Log entry 53. -/
def keyKept (k : Key) : Key :=
  { Key.reset with
    root := k.root, provCount := k.provCount, store := k.store, cause := if k.toEmit.isSome then k.cause else 0xFF,
    draws := k.draws, tamperEn := k.tamperEn, tamperCfg := k.tamperCfg, latch := k.latch, logTotal := k.logTotal,
    logNext := k.logNext, log := k.log, logTick := k.logTick, copied := k.copied, mask10 := k.mask10, toEmit := k.toEmit,
    floor := k.floor, revoked := k.revoked }

/-- The pair after a reset: the line as the partner leaves it, and the wrapped pair key in flash. -/
def pairKept (p : Pair) (now : Nat) : Pair :=
  { Pair.reset with
    line := p.line || p.holding || p.drive, highAt := if p.line || p.holding || p.drive then some now else none,
    refreshAt := now, hbAt := now, heardAt := now, swapAt := now, stored := p.stored,
    keySlot := p.stored.map fun x => x.1, peer := p.stored.map fun x => x.2.1,
    st := if p.stored.isSome then .seeking else .unpaired }

/-- The domains that Simmer and Off do not run lose their contents, and a reset takes them to their reset values: what
    stays is the AON and VBAT domains, BBRAM, OTP, MRAM, flash and the model's own fields (R489, R502). The line is
    released and outputs are high impedance. -/
def resetDomains (s : State) : State :=
  let s := lineRelease s
  let s := (List.range 22).foldl (fun s o =>
    if (vget s.tio.outs OutPin.reset o).level = .highZ then s else emitOut s (.edge o .highZ none (16 * s.now))) s
  { State.reset with
    pending := s.pending, now := s.now, aon := s.aon, aonFrac := s.aonFrac, freeCtr := s.freeCtr, out := s.out,
    log := { Log.reset with fatal := s.log.fatal },
    glb := { Glb.reset with preferred := s.glb.preferred, bootSrc := s.glb.bootSrc, pcie := s.glb.pcie },
    pan := { Pan.reset with copies := s.pan.copies, log := s.pan.log },
    pwr := { Pwr.reset with state := s.pwr.state, cause := s.pwr.cause, pf := s.pwr.pf, therm := s.pwr.therm,
                            failed := s.pwr.failed, thermDead := s.pwr.thermDead, pwrFailLow := s.pwr.pwrFailLow,
                            fallbacks := s.pwr.fallbacks },
    upd := { Upd.reset with copies := s.upd.copies, image := s.upd.image },
    eth := { Eth.reset with wakeCause := s.eth.wakeCause, wakeN := s.eth.wakeN, wake := s.eth.wake },
    pair := pairKept s.pair s.now,
    key := keyKept s.key }

/-! ## Power states (R489 to R494) -/

/-- STATE_CHANGE (R516), and the instant that selector 0x0301 reads. -/
def stateEvent (s : State) (new : PowerState) : State :=
  emit (modPwr s fun p => { p with lastChange := tsNow s }) .pwr 0x0001 .notice
    (s.pwr.state.code + new.code * 4 + (ts32 s).toNat * 2 ^ 32) (some 0)

/-- Warm to Boil (R492): ports come up as R290 gives, PTP instances start. -/
def toBoil (s : State) : State :=
  let s' := modPwr (stateEvent s .boil) fun p => { p with state := .boil }
  instEvalAll (portsGate s s')

/-- Boil to Warm, steps 1 to 3 of R493: PTP instances stop and their grants run out, and queue M is discarded. Log entry 33. -/
def leaveBoil (s : State) : State :=
  let s := (List.finRange 16).foldl (fun s i =>
    modInst s i fun k => { Inst.reset with seqAnn := k.seqAnn, seqSync := k.seqSync, seqDelay := k.seqDelay }) s
  (List.finRange 9).foldl (fun s p => if p.val < 8 then discardQueue s p false else s) s

/-- Every answer admitted to a service port has left (R493 step 1). -/
def answersGone (s : State) : Bool := (List.finRange 9).all fun p => p.val = 8 || (ethPort s p).qT.isEmpty

/-- Boil to Warm, steps 4 and 5 of R493: the service ports go down. Log entry 33. -/
def toWarm (s : State) : State :=
  portsGate s (modPwr (stateEvent s .warm) fun p => { p with state := .warm })

/-- The wake detector's copy of enables, MG's address and the patterns (R317). -/
def wakeCopy (s : State) : WakeCopy :=
  { ctrl := getW s Rg.ethWakeCtrl, mac := portMac s 8,
    pats := (List.range 4).map fun k =>
      (((List.range 32).map fun n => leBytes 4 (ind s .eth 2 (40 * k + n))).flatten,
       (List.range 128).map fun i => (ind s .eth 2 (40 * k + 32 + i / 32)).testBit (i % 32)) }

/-- The domains that a state does not run are powered down (R489, R494, R510). -/
def powerDown (s : State) (target : PowerState) : State :=
  let s := if target = .simmer then
      { s with eth := { s.eth with wake := some (wakeCopy s), wakeCause := 0 } } else s
  modPwr (resetDomains s) fun p => { p with state := target, phase := .reset }

/-- On the way to Simmer or Off (R494 steps 1 to 3, R514): the line goes, a planned swap aborts with item 8, the pantry is
    committed. Log entry 33. -/
def leaveService (s : State) (target : PowerState) : State :=
  let s := swapAbort (lineRelease s) 0x80 true
  let s := stateEvent s target
  modPwr (panCommit s false target) fun p => { p with down := some (target, s.now + ticksMs 10) }

/-- POWER_SET is done (R492, R494, R515). Log entry 33. -/
def powerDone (s : State) (hd : Hdr) (target : PowerState) : State :=
  let s := if target = .warm then s else leaveService s target
  complete s hd 0x10 Status.ok 16 (tsNow s).toNat

/-- A POWER_SET out of Boil goes on once the admitted answers have left, at the latest within the 10 ms of R492, when what
    still waits is discarded (R493). Log entry 33. -/
def transEval (s : State) : State :=
  match s.pwr.trans with
  | some (hd, target, t) =>
    if answersGone s || decide (t ≤ s.now) then powerDone (toWarm (modPwr s fun p => { p with trans := none })) hd target
    else s
  | none => s

/-- The junction has stood at or above 125 °C for 1 ms (R513). -/
def hotOver (s : State) : Bool := match s.pwr.hotAt with | some t => decide (t + ticksMs 1 ≤ s.now) | none => false

/-- A power failure or a thermal shutdown waits at this tick: it wins over POWER_SET and a soft reset (R514). Log entry 34. -/
def failWaits (s : State) : Bool :=
  s.pending.contains .pwrFail || (s.pending.contains .thermalShutdown && hotOver s && mainUp s)

/-! ## The start, step 1: straps and REF (R495, R496, R503, R517) -/

/-- REF as counted against 1,024 cycles of XTAL32, within 0.5 % (R496): 1 10 MHz, 2 20 MHz, 3 25 MHz. -/
def refOf (count : Nat) : Option (BitVec 2) :=
  let near := fun (n : Nat) => decide (n * 995 ≤ count * 1000) && decide (count * 1000 ≤ n * 1005)
  if near 312500 then some 1 else if near 625000 then some 2 else if near 781250 then some 3 else none

/-- PWR_RESET_CAUSE at a start (R517). Log entry 53. -/
def causeWord (s : State) (i : StartIn) (soft : Bool) : BitVec 32 :=
  BitVec.ofNat 32 (flag (!soft && !i.rails) 0 + flag soft 1 + flag s.pwr.pf 2 + flag s.pwr.therm 3 + flag s.log.fatal 4
    + flag (s.pwr.state = .simmer && !s.pwr.failed) 5 + flag i.rails 6)

/-- BBRAM and the AON registers lost their supply: as at the first application of VBAT (R391, R414, R422). Log entry 7. -/
def vbatLoss (s : State) : State :=
  { s with aon := 0, aonFrac := 0,
           pwr := { s.pwr with pf := false, therm := false, fallbacks := 0 },
           eth := { s.eth with wakeCause := 0 },
           key := { Key.reset with store := if s.key.store = .unprovisioned then .unprovisioned else .unkeyed,
                                   draws := s.key.draws, floor := s.key.floor, revoked := s.key.revoked } }

/-- The reset itself: domains at their reset values, PWR_RESET_CAUSE, straps, WAKE_N released. Log entries 4, 9, 53. -/
def startReset (s : State) (i : StartIn) (soft : Bool) : State :=
  let cause := causeWord s i soft
  let s := wakeFirst s
  let s := if i.rails && i.vbatLost then vbatLoss s else s
  let s := resetDomains s
  let s := if s.eth.wakeN then s else emitOut { s with eth := { s.eth with wakeN := true } } (.wake false)
  { s with
    pan := { s.pan with fig := match panBest s with | some k => s.pan.copies[k].fig | none => Figures.zero },
    log := { s.log with fatal := s.log.fatal && !i.rails },
    glb := { s.glb with preferred := i.preferred, bootSrc := i.bootSrc, pcie := i.pcie },
    pwr := { s.pwr with state := .warm, cause := cause, pf := false, therm := false, failed := false, thermDead := false,
                        junction := i.junction, peak := i.junction, railOk := i.railOk, dieAt := s.now },
    tco := { s.tco with tempDie := i.junction.toInt },
    key := { s.key with mask10 := false } }

/-- A start holds in a phase until its cause goes. -/
def hold (s : State) (i : StartIn) (ph : Phase) : State := modPwr s fun p => { p with phase := ph, start := some i }

/-! ## Steps 5 to 8: the image (R525 to R527) -/

/-- What the boot ROM chose: the slot started, the slot chosen first, FALLBACK's cause where one applies, and the first
    slot's cause under R523. -/
structure Boot where
  slot : Fin 2
  first : Fin 2
  fallback : Option Nat
  cause : Nat
  deriving DecidableEq, Repr

/-- A slot that may be tried (R527). -/
def mayTry (s : State) (n : Fin 2) : Bool :=
  match bootBest s with
  | some (_, r) => r.st[n] != .downloading && r.st[n] != .empty
  | none => true

def slotOk (s : State) (n : Fin 2) : Bool := mayTry s n && imgCheck s (slotImage s n) = 0

/-- Tries a slot, then the other; `why` is the cause that the first slot's failure gives. -/
def tryTwo (s : State) (a b : Fin 2) (why : Nat) : Option Boot :=
  if slotOk s a then some { slot := a, first := a, fallback := none, cause := 0 }
  else if slotOk s b then some { slot := b, first := a, fallback := some why, cause := imgCheck s (slotImage s a) }
  else none

/-- The choice of R527; the state is that after CONSUMED is programmed. Log entries 7, 54. -/
def bootChoose (s : State) : Option Boot × State :=
  match bootBest s with
  | none => (tryTwo s 0 1 3, s)
  | some (_, r) =>
    if r.trial then
      if r.consumed = 0xFF then
        let s := recConsume s
        (if r.trialSlot = r.active then (if slotOk s r.active then some { slot := r.active, first := r.active, fallback := none, cause := 0 } else none)
          else tryTwo s r.trialSlot r.active 2, s)
      else (if slotOk s r.active then some { slot := r.active, first := r.trialSlot, fallback := some 1, cause := 0 } else none, s)
    else (tryTwo s r.active (otherSlot r.active) 3, s)

/-! ## Steps 9 to 11 (R19, R505, R524) -/

/-- Entries of the configuration blob that are skipped (R524). -/
def blobSkips (off : Nat) : Bool :=
  off = Rg.glbLock || off = Rg.glbTestKey || off = Rg.pwrSwrst || off = Rg.keyCtrl || off = Rg.updCtrl

def blobApply (s : State) (e : Nat × Nat) : State :=
  if blobSkips e.1 then emit s .upd 0x0008 .notice (e.1 % 2 ^ 22) none
  else unitWrite s e.1 15 (BitVec.ofNat 32 e.2) false

/-- A paired unit reloads its pair key (R372). Log entry 31. -/
def pairReload (s : State) : State :=
  match s.pair.stored with
  | none => s
  | some (slot, _, blob) =>
    match openBlob s blob 2 with
    | .ok (a, k) => if s.key.root.isSome then fillSlot s slot.toNat 0 2 a k else pairFail s 0 6
    | .error _ => pairFail s 0 6

/-- The figures of the pantry continue from the deciding summary; neither copy valid begins a new one (R573). -/
def panStart (s : State) (vbatLost : Bool) : State :=
  match panBest s with
  | some i =>
    let c := s.pan.copies[i]
    let f := s.pan.fig
    let gone := aonSec s - c.aonS
    let f := if !vbatLost && c.entered < 2 && c.aonS.toNat ≤ (aonSec s).toNat then { f with stateS := figAdd f.stateS c.entered gone.toNat } else f
    modPan s fun p => { p with fig := f }
  | none =>
    let d := s.pan.copies[0].cseq.toNat + s.pan.copies[1].cseq.toNat * 2 ^ 32
    let c : PanCopy := { PanCopy.first true 1 with aonS := aonSec s, logUsed := s.pan.log.length }
    let s := modPan s fun p => { p with copies := p.copies.set 0 c }
    panLog (emit s .pan 0x0004 .severe d (some 3)) 7 0 0 0

/-- The start's own entry in the pantry log and figure (R569, R571); RECOVERY runs no slot. Log entry 54. -/
def panStartEntry (s : State) (vbatLost : Bool) (slot : Nat) : State :=
  panLog (modFig s fun f => { f with starts := sat32 (f.starts + 1) }) 1 slot 0
    (s.pwr.cause.toNat % 2 ^ 31 + flag vbatLost 31 + s.ctl.fw.toNat * 2 ^ 32)

/-- Tamper-log entries that the pantry has not seen, newest first, by the detections they hold (R414). -/
def tamperNew : Nat → State → Nat → Nat → List TamperEntry
  | 0, _, _, _ => []
  | n + 1, s, at_, left =>
    if left = 0 then [] else
    let e := vget s.key.log { aonS := 0, source := 0, power := 0, phase := 0, repeat_ := 0 } at_
    e :: tamperNew n s ((at_ + 6) % 7) (left - min left (1 + e.repeat_.toNat))

/-- Core 0 copies unseen tamper-log entries into the pantry; detections that no running core counted enter the figure
    (R414, R569). -/
def panTamper (s : State) : State :=
  let l := (tamperNew 7 s ((s.key.logNext + 6) % 7) (s.key.logTotal.toNat - s.key.copied.toNat)).reverse
  let s := l.foldl (fun s e =>
    let s := if e.power.toNat < 2 || e.phase = 1 then
        modFig s fun f => { f with tamper := figAdd f.tamper e.source.toNat (1 + e.repeat_.toNat) } else s
    panLog s 3 e.source.toNat e.repeat_.toNat
      (e.aonS.toNat + e.source.toNat * 2 ^ 32 + e.power.toNat * 2 ^ 40 + e.phase.toNat * 2 ^ 48 + e.repeat_.toNat * 2 ^ 56)) s
  modKey s fun k => { k with copied := k.logTotal }

/-- Events that a start owes from before it (R317, R417). Log entry 53. -/
def startEvents (s : State) : State :=
  let s := match s.key.toEmit with
    | some d => emit (modKey s fun k => { k with toEmit := none }) .key 0x0001 .severe d.toNat (some 0)
    | none => s
  if s.pwr.cause.getLsbD 5 && s.eth.wakeCause.getLsbD 5 then emit s .eth 0x0006 .notice (s.eth.wakeCause.toNat % 32) (some 5) else s

/-- RECOVERY (R506, R507, R509): `why` is the event's detail. Log entry 54. -/
def enterRecovery (s : State) (i : StartIn) (why : Nat) : State :=
  let s := modPwr s fun p => { p with phase := .recovery, start := none }
  let s := { s with pan := { s.pan with nextAt := s.now + ticksS 600, secAt := s.now / ticksS 1 } }
  let s := panTamper (panStartEntry (panStart s i.vbatLost) i.vbatLost 0xFF)
  startEvents (emit s .pwr 0x0007 .notice why (some 1))

/-- The record that a fallback or a blank flash owes, and FALLBACK (R527). Log entry 54. -/
def bootRecord (s : State) (b : Boot) (blank : Bool) : State :=
  let fw := BitVec.ofNat 32 (imgFw (slotImage s b.slot))
  match b.fallback with
  | some why =>
    let bad := if why = 1 then b.first else otherSlot b.slot
    let s := recWrite s 6 b.slot fun r =>
      { r with active := b.slot, trial := false, st := (if bad = b.slot then r.st else r.st.set bad .failed).set b.slot (if blank then .good else r.st[b.slot]),
               fw := if blank then r.fw.set b.slot fw else r.fw }
    let s := modPwr s fun p => { p with fallbacks := p.fallbacks + 1 }
    emit s .upd 0x0006 .degraded (b.slot.val + why * 256 + b.cause * 65536) (some 3)
  | none =>
    if blank then recWrite s 6 b.slot fun r => { r with active := b.slot, st := r.st.set b.slot .good, fw := r.fw.set b.slot fw } else s

/-- Slots left in DOWNLOADING report UPD_INCOMPLETE (R527, R536). -/
def bootIncomplete (s : State) : State :=
  match bootBest s with
  | none => s
  | some (_, r) => (List.finRange 2).foldl (fun s n =>
      if r.st[n] = .downloading then emit s .upd 0x0002 .degraded n.val (some 3) else s) s

/-- The order in which core 0 loads the section types (R19, R522): its own firmware, the three microcode stores, core 1
    with the time-solution firmware, core 2, core 3. -/
def loadOrder : List Nat := [1, 6, 7, 8, 2, 5, 3, 4]

/-- A section of the image enters its store, or its core's part of control-core memory (R19, R20). -/
def loadSection (img : List Byte) (c : Ctl) (t : Nat) : Ctl :=
  match (imgSections img).find? fun e => e.1 = t with
  | some e => { c with stores := c.stores ++ [(t, slice img e.2.1 e.2.2.1)] }
  | none => c

/-- CTL_CORES.RUN of a core once the sections of its memory are loaded (R19): it is released if all of them verify. -/
def releaseCode (verified : BitVec 8) (types : List Nat) : BitVec 2 :=
  if types.all fun t => verified.getLsbD (t - 1) then 2 else 1

/-- Step 9 (R19, R505): loading, verification and the release of the cores. The spec does not say what follows a failed
    verification: a core that fails stays in RUN 1, a store that fails keeps its pipeline stopped as a double-bit error
    does. Log entry 54. -/
def bootLoad (s : State) (i : StartIn) (img : List Byte) : State :=
  let c := loadOrder.foldl (loadSection img) { s.ctl with stores := [] }
  { s with
    ctl := { c with run := #v[releaseCode i.verified [1], releaseCode i.verified [2, 5], releaseCode i.verified [3], releaseCode i.verified [4]],
                    cause := Vector.replicate 4 0, fw := BitVec.ofNat 32 (imgFw img) },
    mem := { s.mem with dead := #v[!i.verified.getLsbD 5, !i.verified.getLsbD 6, !i.verified.getLsbD 7] } }

/-- Step 9 with a core 0 firmware that does not verify: nothing else is loaded, and the start stays in LOAD. Log entry 54. -/
def bootStuck (s : State) (img : List Byte) : State :=
  modPwr { s with ctl := { loadSection img { s.ctl with stores := [] } 1 with run := vset s.ctl.run 0 1 } } fun p =>
    { p with phase := .load, start := none }

/-- Steps 9 to 11: READY in Warm (R505, R506). A start from RECOVERY is in the pantry already. -/
def bootReady (s : State) (i : StartIn) (b : Boot) (blank wasTrial : Bool) : State :=
  let again := s.pwr.phase = .recovery
  let img := slotImage s b.slot
  if !i.verified.getLsbD 0 then bootStuck s img else
  let s := bootLoad s i img
  let s := modPwr s fun p => { p with phase := .ready, start := none, readyAt := s.now, readyMs := i.ms }
  let s := { s with pan := { s.pan with nextAt := s.now + ticksS 600, secAt := s.now / ticksS 1 } }
  let (h, s) := draw s
  let full : Buckets := { Buckets.reset with plain := bucketFull, nts := bucketFull }
  let s := modSvc s fun v => { v with hashKey := h % 2 ^ 64, refillAt := s.now, ports := Vector.replicate 8 full, engine := full }
  let s := modKey s fun k => { k with rngOk := true, reseedAt := s.now, restartAt := s.now }
  let s := modUpd s fun u => { u with running := b.slot, selfOk := i.selfOk && decide (i.verified = 0xFF), trial := wasTrial, expired := false, hostConfirm := false }
  let s := (imgBlob img).foldl blobApply s
  let s := pairReload s
  let s := panTamper (if again then s else panStartEntry (panStart s i.vbatLost) i.vbatLost b.slot.val)
  let s := bootIncomplete s
  let s := bootRecord s b blank
  let s := if wasTrial then emit s .upd 0x0003 .notice (b.slot.val + imgFw img * 2 ^ 32) none else floorRaise s
  linkGates (startEvents s)

/-- Steps 5 to 11 (R505, R527). -/
def bootImage (s : State) (i : StartIn) : State :=
  let blank := (bootBest s).isNone
  let fresh := match bootBest s with | some (_, r) => r.trial && r.consumed = 0xFF | none => false
  let (b, s) := bootChoose s
  match b with
  | none => enterRecovery s i 2
  | some b => bootReady s i b blank (fresh && b.fallback.isNone)

/-! ## Steps 2 to 4 (R497, R505, R507, R513) -/

/-- Steps 4 to 11 once the junction allows it: core 0 runs the boot ROM (R19). -/
def startKeys (s : State) (i : StartIn) : State :=
  let s := deriveFixed { s with key := { s.key with slots := [] }, ctl := { s.ctl with run := vset s.ctl.run 0 2 } }
  if s.glb.bootSrc = 1 then enterRecovery s i 1
  else if s.glb.bootSrc = 2 then enterRecovery s i 4
  else bootImage s i

/-- Steps 2 to 4: loops lock, the counter starts, the link trains, a Fatal latch and a thermal hold are judged. -/
def startLoops (s : State) (i : StartIn) (ref : BitVec 2) : State :=
  let s := { s with clk := { s.clk with refSel := ref, loops := Vector.replicate 4 { Loop.reset with locked := true } },
                    hif := { s.hif with linkUp := i.pcie && i.gen != 0, gen := i.gen, width := i.width } }
  if s.log.fatal then modPwr s fun p => { p with phase := .fatalHold, start := none }
  else if s.pwr.cause.getLsbD 3 && decide (1600 ≤ i.junction.toInt) then hold s i .rom
  else startKeys s i

/-- Step 1 after the straps: REF is accepted, or the start waits (R496). Log entry 46. -/
def startRef (s : State) (i : StartIn) : State :=
  let s := { s with clk := { s.clk with lastCount := i.refCount, countAt := s.now } }
  match refOf i.refCount with
  | some r => startLoops s i r
  | none => emit (hold s i .waitRef) .clk 0x0003 .degraded (i.refCount % 2 ^ 32) (some 2)

/-- Step 1: a reserved BOOT_SRC is reported (R503), then REF. Log entry 46. -/
def startGo (s : State) (i : StartIn) : State := startRef (if i.bootSrc = 3 then emit s .pwr 0x0006 .notice 3 (some 4) else s) i

/-- A start from its reset on (R495, R502, R503): held in reset while PWR_FAIL_N is low. Log entry 54. -/
def startRun (s : State) (i : StartIn) (soft : Bool) : State :=
  let s := startReset s i soft
  if s.pwr.pwrFailLow then hold s i .reset else startGo s i

end Sys2Proof.Machine
end

