-- ==== Sys2Proof/Machine/PanOps.lean ====
section
/-! DEFINITION. Counter dumps, the sampler and the pantry as the host reads it (16_faults_diagnostics.md R563 to R577). -/
namespace Sys2Proof.Machine

def modPerf (s : State) (f : Perf → Perf) : State := { s with perf := f s.perf }

/-! ## Dumps (R447, R563, R564) -/

/-- The counters of a range as 64-bit values, low byte first; open ones draw free values. -/
def dumpCounts : List Nat → State → List Byte × State
  | [], s => ([], s)
  | i :: r, s =>
    let (c, h, s) := perfPair s i
    let (l, s) := dumpCounts r s
    (leBytes 4 c ++ leBytes 4 h ++ l, s)

/-- The 8,352 bytes of a dump (R564). -/
def dumpBytes (s : State) (now : Bool) : List Byte × State :=
  let head := leBytes 16 (tsNow s).toNat ++ leBytes 4 s.perf.dseq.toNat ++
    leBytes 4 (flag (bringUp s) 0 + flag (s.perf.wrap != 0) 1 + flag s.perf.dumpStep 2 + flag now 3) ++ leBytes 4 8352 ++ leBytes 4 0
  let (c, s) := dumpCounts (List.range 1024) s
  (head ++ c ++ leBytes 128 s.perf.wrap.toNat, s)

/-- A dump descriptor with a byte set that the host's format does not define (R443, R447). -/
def dumpMalformed (d : BitVec 256) : Bool := d.toNat / 2 ^ 96 != 0

/-- The write-back of a dump descriptor (R447). Log entry 58. -/
def dumpBack (s : State) (bytes : Nat) (st : BitVec 8) : State :=
  let s := hostDma s (ringEntryAddr s 9 + 12) (leBytes 4 bytes ++ leBytes 4 s.perf.dseq.toNat ++ [st])
  ringNotify (ringAdvance s 9 1) 9 1

/-- The bank is latched (R447, R563): the next posted descriptor, which host memory gives as `desc`, takes the dump.
    Log entry 58. -/
def dumpLatch (s : State) (now : Bool) (desc : BitVec 256) : State :=
  let s := takeDoorbells (modPerf s fun p => { p with dseq := p.dseq + 1 }) 9
  let (data, s) := dumpBytes s now
  let s := modPerf s fun p => { p with dumpStep := false }
  if !ringRuns s 9 || ringPosted s 9 = 0 then
    emit (modHif s fun h => { h with cnt := vmod h.cnt 5 (· + 1) }) .hif 0x0008 .notice s.perf.dseq.toNat none
  else
    let s := ringReads s 9 1
    if dumpMalformed desc then dumpBack (hifMalformed s 9 0 0) 0 Status.malformed
    else if fld desc.toNat 95 64 < 8352 then dumpBack s 0 Status.badArg
    else dumpBack (hostDma s (fld desc.toNat 63 0) data) 8352 Status.ok

/-! ## The summary and the log as bytes (R568, R571) -/

def vecBytes {n : Nat} (v : Vector Nat n) : List Byte := (v.toList.map (leBytes 4)).flatten

/-- The 4,096 bytes of a summary copy (R568). -/
def panBytes (c : PanCopy) : List Byte :=
  let f := c.fig
  let links := ((List.range 4).map fun i =>
    leBytes 8 (vget f.linkCrc 0 i) ++ leBytes 8 (vget f.linkRes 0 i) ++ leBytes 4 (vget f.linkDown 0 i) ++ leBytes 4 0).flatten
  let b := leBytes 4 0x5357504E ++ leBytes 4 c.cseq.toNat ++ leBytes 4 c.aonS.toNat ++ leBytes 4 (flag c.taiValid 0 + flag c.cut 1) ++
    leBytes 8 c.taiS.toNat ++ leBytes 4 f.starts ++ leBytes 4 c.logUsed ++ vecBytes f.stateS ++ leBytes 16 0 ++
    vecBytes f.tempH ++ vecBytes f.vcoreH ++ vecBytes f.holdH ++ vecBytes f.goutH ++ vecBytes f.swaps ++ vecBytes f.tamper ++
    leBytes 12 0 ++ vecBytes f.faults ++ links ++ leBytes 4 f.holdS ++ leBytes 4 f.goutS ++ List.replicate 3092 0
  b ++ leBytes 4 (crc32 b)

/-- The 16 bytes of a log entry (R571). -/
def panEntryBytes (e : PanEntry) : List Byte := leBytes 4 e.aonS.toNat ++ [e.type, e.sub] ++ leBytes 2 e.aux.toNat ++ leBytes 8 e.data.toNat

/-- The deciding summary copy; an invalid copy 0 where neither is valid. -/
def panCopy (s : State) : PanCopy := s.pan.copies[(panBest s).getD 0]

/-! ## The sampler (R565, R566) -/

/-- A sample enters the buffer, or is counted as lost (R565). Log entry 58. -/
def samplePut (s : State) (x : Sample) : State :=
  let s := modPerf s fun p => { p with sseq := p.sseq + 1, taken := p.taken + 1 }
  if s.perf.buf.length < 4096 then
    sampleDrain (modPerf s fun p => { p with buf := p.buf ++ [{ x with lost := p.lostMark }], lostMark := false })
  else modPerf s fun p => { p with lostMark := true, lost := p.lost + 1, lostSel := p.lostSel + 1, lostSec := p.lostSec + 1 }

end Sys2Proof.Machine
end

