-- ==== Sys2Proof/Machine/Pan.lean ====
section
/-! DEFINITION. Dumps, samples, histories and the pantry: commands and events (16_faults_diagnostics.md R552, R563 to R577). -/
namespace Sys2Proof.Machine

/-- The dump instant that the counter has reached, in whole milliseconds (R563). -/
def dumpInstant (s : State) : Nat :=
  let p := 2 ^ rf s Rg.perfCtrl 12 8
  msOf s.tco.counter / p * p

/-- DUMP_LATCH (R563): an instant of the schedule that has not fired; `desc` is the next descriptor in host memory. -/
def execDumpLatch (desc : BitVec 256) (s : State) : Ans :=
  .next (
    let q := dumpInstant s
    let due := match s.perf.lastDump with | some x => decide (x < q) | none => true
    if s.pwr.phase != .ready || !rb s Rg.perfCtrl 1 || !due then s
    else dumpLatch (modPerf s fun p => { p with lastDump := some q }) false desc)

/-- DUMP_NOW (R563, R577). -/
def execDumpNow (hd : Hdr) (desc : BitVec 256) (s : State) : Ans :=
  cmd s hd 0xD2 none fun s =>
    let s := dumpLatch s true desc
    complete s hd 0xD2 Status.ok 4 s.perf.dseq.toNat

/-- SAMPLE_START (R565, R577). -/
def execSampleStart (hd : Hdr) (mask mode : BitVec 8) (period thresh : BitVec 32) (s : State) : Ans :=
  cmd s hd 0xD3 (badIf (decide (15 < mask.toNat) || decide (2 < mode.toNat) || decide (period.toNat < 1024) || thresh = 0
      || decide (65535 < thresh.toNat))) fun s =>
    if s.perf.sampling.isSome then fin s hd 0xD3 Status.state
    else fin (modPerf s fun p => { p with sampling := some (mask.setWidth 4, mode.toNat, period.toNat, thresh.toNat), taken := 0, lost := 0 })
      hd 0xD3 Status.ok

/-- SAMPLE_STOP (R565, R576). -/
def execSampleStop (hd : Hdr) (s : State) : Ans :=
  cmd s hd 0xD4 none fun s =>
    if s.perf.sampling.isNone then fin s hd 0xD4 Status.state
    else complete (modPerf s fun p => { p with sampling := none }) hd 0xD4 Status.ok 8 (sat32 s.perf.taken + sat32 s.perf.lost * 2 ^ 32)

/-- The cause with which an instruction is sampled (R565): 3 trap, 1 period, 2 latency. Log entry 58. -/
def sampleCause (mode thresh : Nat) (latency : BitVec 32) (due trap : Bool) : Option (BitVec 8) :=
  if trap then some 3
  else if due && (mode = 0 || mode = 2) then some 1
  else if (mode = 1 || mode = 2) && decide (thresh ≤ latency.toNat) then some 2
  else none

/-- SAMPLE_TAKE (R565, R566): an instruction retires; `due` says that PERIOD cycles of its core have passed. Log entry 58. -/
def execSampleTake (core : Fin 4) (insn : BitVec 64) (addr latency : BitVec 32) (due trap : Bool) (s : State) : Ans :=
  .next (match s.perf.sampling with
    | none => s
    | some (mask, mode, _, thresh) =>
      if !mask.getLsbD core.val || !coreUp s core.val then s
      else match sampleCause mode thresh latency due trap with
        | none => s
        | some c => samplePut s { ts := ts32 s, sseq := s.perf.sseq + 1, insn := insn, addr := addr, latency := latency, core := core,
                                  cause := c, lost := false })

/-- SAMPLE_LOST (R565): once per second while samples are being lost. -/
def execSampleLost (s : State) : Ans :=
  .next (if s.perf.lostSec = 0 || s.now < s.perf.lostAt + ticksS 1 then s
    else emit (modPerf s fun p => { p with lostSec := 0, lostAt := s.now }) .perf 0x0002 .notice (sat32 s.perf.lostSec) (some 1))

/-- A commit with its read-backs (R572): a failed one is tried once more. -/
def commitTry (s : State) (readBack : List Bool) : State :=
  let s := panWrite s false s.pwr.state (readBack.getD 0 true)
  if readBack.getD 0 true then s
  else
    let s := panWrite s false s.pwr.state (readBack.getD 1 true)
    if readBack.getD 1 true then s else emit s .pan 0x0002 .degraded (panCseq s + 1).toNat (some 1)

/-- PANTRY_COMMIT (R572, R575, R576: a power failure at this tick makes the one commit): every 600 s, and for a Severe or Fatal record no more than once a second, by core 0 (R24); `readBack` says
    whether each read-back agrees. -/
def execPantryCommit (readBack : List Bool) (s : State) : Ans :=
  .next (if !mainUp s || !coreUp s 0 || s.pending.contains .pwrFail then s
    else if s.pan.nextAt ≤ s.now then commitTry (modPan s fun p => { p with nextAt := p.nextAt + ticksS 600 }) readBack
    else if s.pan.sevDue && (match s.pan.sevAt with | some t => decide (t + ticksS 1 ≤ s.now) | none => true) then
      commitTry (modPan s fun p => { p with sevAt := some s.now }) readBack
    else s)

/-- HIST_READ (R552, R577). Log entry 45. -/
def execHistRead (hd : Hdr) (id : BitVec 8) (addr : BitVec 64) (s : State) : Ans :=
  cmd s hd 0xD0 (badIf (blkOf id.toNat).isNone) fun s =>
    match blkOf id.toNat with
    | none => s
    | some b =>
      let k := blkStat s b
      let held := fun (c : Cls) => min 255 (k.unack.countP fun u => u.base = c)
      let s := if k.hist.isEmpty then s else hostDma s addr.toNat (k.hist.map recBytes).flatten
      complete s hd 0xD0 Status.ok 8 (pack
        [(0, k.hist.length), (1, held .degraded), (2, held .severe), (3, flag s.log.fatal 0 + flag k.safe 1), (4, k.records)])

/-- PANTRY_READ (R577): the deciding summary, or log entries from one on. -/
def execPantryRead (hd : Hdr) (part : BitVec 8) (first : BitVec 32) (addr : BitVec 64) (len : BitVec 32) (s : State) : Ans :=
  cmd s hd 0xD1 (badIf (decide (1 < part.toNat) || (part = 0 && decide (len.toNat < 4096)) || (part = 1 && len.toNat % 16 != 0))) fun s =>
    let used := s.pan.log.length
    if part = 0 then
      complete (hostDma s addr.toNat (panBytes (panCopy s))) hd 0xD1 Status.ok 12 (pack [(0, 4096), (8, used)])
    else
      let l := (s.pan.log.drop first.toNat).take (len.toNat / 16)
      let s := if l.isEmpty then s else hostDma s addr.toNat (l.map panEntryBytes).flatten
      complete s hd 0xD1 Status.ok 12 (pack [(0, 16 * l.length), (4, first.toNat + l.length), (8, used)])

end Sys2Proof.Machine
end

