-- ==== Sys2Proof/Machine/Ptp.lean ====
section
/-! DEFINITION. The commands and events of the PTP service (07_ptp_service.md R249 to R286). -/
namespace Sys2Proof.Machine

/-! ## Scheduled messages -/

/-- PTP_SCHEDULED_SEND (R251, R260, R268): a multicast instance's Sync or Announce, or a granted stream's. -/
def execPtpScheduledSend (inst : Fin 16) (kind : GrantKind) (entry : Option Nat) (s : State) : Ans :=
  .next (
    let k := Machine.inst s inst
    let quiet := fun (tick : Nat) => silenced s inst || !servingAt s (subNs (schedCounter s tick))
    if !k.running || isSlave s inst then s else
    match entry with
    | none =>
      if profile s inst = 2 then s else
      match kind with
      | .sync =>
        if s.now < k.nextSync then s else
        let s := modInst s inst fun k => { k with nextSync := k.nextSync + logTicks (logSync s inst) }
        if quiet k.nextSync then s else
        let s := modInst s inst fun k => { k with seqSync := k.seqSync + 1 }
        mirrorSeqs ((instPorts s inst).foldl (fun s p => sendSync s inst p.val .multicast k.seqSync (logSync s inst) none k.nextSync) s)
          inst false
      | .announce =>
        if s.now < k.nextAnn then s else
        let s := modInst s inst fun k => { k with nextAnn := k.nextAnn + logTicks (logAnn s inst) }
        if quiet k.nextAnn then s else
        let s := modInst s inst fun k => { k with seqAnn := k.seqAnn + 1 }
        mirrorSeqs ((instPorts s inst).foldl (fun s p => sendAnnounce s inst p.val .multicast k.seqAnn (logAnn s inst) none k.nextAnn) s)
          inst false
      | .delayResp => s
    | some e =>
      match grantAt s e with
      | none => s
      | some g =>
        match g.get kind with
        | none => s
        | some x =>
          if g.inst ≠ inst ∨ kind = .delayResp ∨ s.now < x.next ∨ !streamRuns s g kind x then s else
          let next := x.next + logTicks x.logInt
          if quiet x.next || cancelWaits s e g kind then putGrant s e (g.put kind (some { x with next := next })) else
          let s := putGrant s e (g.put kind (some { x with next := next, seqId := x.seqId + 1 }))
          let (d, s) := entryDest s g
          let s := if kind = .sync then sendSync s inst g.port.val d x.seqId x.logInt (some e) x.next
            else sendAnnounce s inst g.port.val d x.seqId x.logInt (some e) x.next
          mirrorGrant s e false)

/-- An owed follow-up may leave: its instance runs and, as a master, serves and is not silenced (R253, R260), and the grant
    of its stream has not ended (R266, R267). -/
def followMay (s : State) (f : FollowUp) : Bool :=
  (inst s f.inst).running && (isSlave s f.inst || (serving s && !silenced s f.inst)) && (match f.entry with
    | some e => (match grantAt s e with
      | some g => g.sync.any (streamRuns s g .sync) && !cancelWaits s e g .sync
      | none => false)
    | none => true)

/-- FOLLOW_UP_SEND (R255, R256): the oldest follow-up that is owed, signed as its event message was decided (R272). -/
def execFollowUpSend (s : State) : Ans :=
  .next (
    match s.ptp.follow with
    | [] => s
    | f :: rest =>
      let s := modPtp s fun p => { p with follow := rest }
      if !followMay s f then pump s (Fin.ofNat 9 f.port.val) else
      let sub := (f.stamp % ((2 ^ 48 * 1000000000 * 65536 : Nat) : Int)).toNat
      let l := if f.pdelay then 0x7F else
        match f.entry.bind (grantAt s) with
        | some g => (match g.sync with | some x => x.logInt | none => logSync s f.inst)
        | none => logSync s f.inst
      let m := { ptpMsg s f.inst f.port.val (if f.pdelay then .pdelayFollow else .followUp) f.seqId l with
        tsSec := sub / (1000000000 * 65536), tsNs := sub / 65536 % 1000000000, corr := f.corr + (sub % 65536 : Nat),
        peer := f.ident, tlvs := tebTlv s f.inst false ++ authTlv f.key }
      let m := setTeb s m f.teb (unitCoast s f.port.val)
      let (d, s) := match f.entry.bind (grantAt s) with
        | some g => entryDest s g
        | none => (PtpDest.multicast, s)
      ptpPut s f.inst f.port.val d m (.general f.inst f.key) (f.entry.map fun e => (e, .sync)) true)

/-- GRANT_EXPIRY (R266): the stream stops, unless a renewal arrives by now (R281); an entry with no running grant is freed. -/
def execGrantExpiry (entry : Nat) (kind : GrantKind) (s : State) : Ans :=
  .next (
    match grantAt s entry with
    | some g => match g.get kind with
      | some x => if streamRuns s g kind x then s else mirrorGrant (putGrant s entry (g.put kind none)) entry false
      | none => s
    | none => s)

/-! ## The slave -/

/-- The grant that a slave holds or asks for. -/
def slaveGrant (s : State) (i : Fin 16) (idx : Fin 4) (kind : GrantKind) : Option SlaveGrant :=
  (inst s i).grants.find? fun g => g.listIdx = idx && g.kind = kind

/-- The list index of a slave's chosen master. -/
def masterIdx (s : State) (i : Fin 16) : Option (Fin 4) :=
  match (inst s i).master with
  | some m => match (inst s i).cands.find? fun c => c.ident = m with | some c => c.listIdx | none => none
  | none => none

/-- GRANT_RENEWAL (R275): a quarter of the duration remains. Log entry 72. -/
def execGrantRenewal (inst : Fin 16) (idx : Fin 4) (kind : GrantKind) (s : State) : Ans :=
  .next (
    match slaveGrant s inst idx kind with
    | some g =>
      if (Machine.inst s inst).running && coreUp s 3 && g.held && !g.asked && decide (s.now < g.until_)
          && decide (4 * (g.until_ - s.now) ≤ g.dur) && (kind = .announce || masterIdx s inst = some idx) then askGrant s inst idx kind
      else s
    | none => s)

/-- The renewal of a slave's grant waits at this tick (R480). Log entry 34. -/
def regrantWaits (s : State) (i : Fin 16) (idx : Fin 4) (kind : GrantKind) : Bool :=
  ptpWaits s i fun x => x.msg.type = .signaling && (match x.ip with | some ip => ip.src = listAddr s i idx | none => false)
    && x.msg.tlvs.any fun t => match t with | .grant k _ d _ => k = some kind && d != 0 | _ => false

/-- GRANT_RETRY (R275): a grant that ended without renewal is lost; a lost one is asked for again after one Announce
    interval, Sync and Delay_Resp of the chosen master only. -/
def execGrantRetry (inst : Fin 16) (idx : Fin 4) (kind : GrantKind) (s : State) : Ans :=
  .next (
    if !(Machine.inst s inst).running || !coreUp s 3 then s else
    match slaveGrant s inst idx kind with
    | some g =>
      if g.held && decide (g.until_ ≤ s.now) then
        if g.until_ = s.now && regrantWaits s inst idx kind then s else
        let retry := s.now + logTicks (logAnn s inst)
        grantLost (modInst s inst fun q => { q with grants := q.grants.map fun g =>
          if g.listIdx = idx && g.kind = kind then { g with held := false, asked := false, retryAt := some retry } else g }) inst kind
      else if !g.held && (match g.retryAt with | some t => decide (t ≤ s.now) | none => false) then
        if kind = .announce || masterIdx s inst = some idx then askGrant s inst idx kind
        else modInst s inst fun q => { q with grants := q.grants.filter fun g => !(g.listIdx = idx && g.kind = kind) }
      else s
    | none => s)

/-- ANNOUNCE_RECEIPT_TIMEOUT (R274): a candidate is lost, unless its Announce arrives by now (R281). -/
def execAnnounceReceiptTimeout (inst : Fin 16) (ident : BitVec 80) (s : State) : Ans :=
  .next (
    let n := fld (ptpCfg s inst 4) 31 24
    match (Machine.inst s inst).cands.find? fun c => c.ident = ident with
    | some c =>
      let end_ := c.last + n * logTicks (logAnn s inst)
      if end_ < s.now || (end_ = s.now && !ptpWaits s inst fun x => x.msg.type = .announce && x.msg.src = ident) then
        selectMaster (modInst s inst fun k => { k with cands := k.cands.filter fun x => x.ident != ident }) inst
      else s
    | none => s)

/-- DELAY_REQ_SEND (R276): Delay_Req, or Pdelay_Req under the power profile, at the delay interval. -/
def execDelayReqSend (inst : Fin 16) (s : State) : Ans :=
  .next (
    let k := Machine.inst s inst
    if !k.running || !isSlave s inst || decide (s.now < k.nextDelay) then s else
    let s := modInst s inst fun k => { k with nextDelay := k.nextDelay + logTicks (logDelay s inst) }
    let p := slavePort s inst
    let granted := match masterIdx s inst with
      | some idx => (match slaveGrant s inst idx .delayResp with | some g => g.held && decide (s.now < g.until_) | none => false)
      | none => false
    if (k.master.isNone && profile s inst ≠ 3) || (profile s inst = 2 && !granted) then s else
    match signKey s inst (totNs (schedCounter s k.nextDelay)) with
    | none => secNoKey s inst
    | some key =>
      let s := modInst s inst fun k => { k with seqDelay := k.seqDelay + 1 }
      let m := { ptpMsg s inst p (if profile s inst = 3 then .pdelayReq else .delayReq) k.seqDelay 0x7F with tlvs := authTlv key }
      let (d, s) := match masterIdx s inst with
        | some idx =>
          let (mac, s) := peerMac s
          (PtpDest.peer mac (instTags s inst) (instFlag s inst 6) (listAddr s inst idx) 319, s)
        | none => (PtpDest.multicast, s)
      ptpPut s inst p d m (.request inst key) none false)

/-! ## Keys and alarms -/

/-- SEC_KEY_ROTATE_INSTANT (R273). -/
def execSecKeyRotateInstant (entry : Fin 64) (s : State) : Ans :=
  .next (match s.ptp.rotate.find? fun r => r.1 = entry with
    | some (_, t) => if t ≤ totNs s.tco.counter then mirrorSec (secRotate s entry t) entry false else s
    | none => s)

/-- SEC_KEY_RETIRE_INSTANT (R273). -/
def execSecKeyRetireInstant (entry : Fin 64) (s : State) : Ans :=
  .next (match s.ptp.keys[entry].retireAt with
    | some t => if t ≤ totNs s.tco.counter then mirrorSec (secRetire s entry false t) entry false else s
    | none => s)

/-- AUTH_ALARM (R278): once per second, each instance's authentication drops. -/
def execAuthAlarm (s : State) : Ans :=
  .next (
    if s.now < s.ptp.alarmAt + ticksS 1 then s else
    let s := modPtp s fun p => { p with alarmAt := s.now }
    (List.finRange 16).foldl (fun s i =>
      let n := (inst s i).authDrops
      if n = 0 then s
      else emit (modInst s i fun k => { k with authDrops := 0 }) .ptp 0x0008 .notice (i.val + sat32 n * 2 ^ 32) (some 6)) s)

/-! ## Commands (R282) -/

/-- The three log intervals and remaining seconds of an entry; 0 for a stream that does not run. Log entry 72. -/
def grantFields (s : State) (g : GrantEntry) : List (Nat × Nat) :=
  [GrantKind.announce, .sync, .delayResp].map fun k => match g.get k with
    | some x => (uInt 8 x.logInt, grantLeft s x)
    | none => (0, 0)

/-- An address argument: IPv4 stands in its first four bytes (R282). -/
def addrArg (v6 : Bool) (a : BitVec 128) : BitVec 128 :=
  let b := leBytes 16 a.toNat
  BitVec.ofNat 128 (if v6 then beNat b else beNat (b.take 4))

/-- GRANT_QUERY (R282). -/
def execGrantQuery (hd : Hdr) (inst fam : BitVec 8) (addr : BitVec 128) (udp : BitVec 16) (s : State) : Ans :=
  let e := (entry16 inst).bind fun i => findGrant s i (fam = 1) (addrArg (fam = 1) addr) udp none
  cmd s hd 0x70 (if (entry16 inst).isNone || decide (1 < fam.toNat) then some Status.badArg
      else if e.isNone then some Status.notFound else none) fun s =>
    match e with
    | none => s
    | some e => match grantAt s e with
      | none => s
      | some g =>
        let f := grantFields s g
        let at_ := fun (n : Nat) => f.getD n (0, 0)
        complete s hd 0x70 Status.ok 28 (pack [(0, e), (4, (at_ 0).1), (8, (at_ 0).2), (12, (at_ 1).1), (16, (at_ 1).2),
          (20, (at_ 2).1), (24, (at_ 2).2)])

/-- GRANT_CANCEL (R267, R282). -/
def execGrantCancel (hd : Hdr) (entry : BitVec 32) (inst : BitVec 8) (s : State) : Ans :=
  let l := if entry = 0xFFFFFFFF then (s.ptp.grants.filter fun x => x.2.inst.val = inst.toNat).map Prod.fst
    else (s.ptp.grants.filter fun x => x.1 = entry.toNat).map Prod.fst
  cmd s hd 0x71 (if l.isEmpty then some Status.notFound else none) fun s =>
    if standbyHeld s then fin s hd 0x71 Status.state
    else complete (l.foldl (fun s e => cancelEntry s e true) s) hd 0x71 Status.ok 4 l.length

/-- The 32-byte summary of an entry (R282). Log entry 72. -/
def grantSummary (s : State) (e : Nat) (g : GrantEntry) : List Byte :=
  let f := grantFields s g
  let live := ([GrantKind.announce, .sync, .delayResp].filterMap g.get).map (grantLeft s)
  leBytes 4 e ++ [BitVec.ofNat 8 g.inst.val, if g.ipv6 then 1 else 0] ++ leBytes 2 g.udpPort.toNat ++
  (if g.ipv6 then beBytes 16 g.addr.toNat else beBytes 4 g.addr.toNat ++ List.replicate 12 0) ++
  f.map (fun x => BitVec.ofNat 8 x.1) ++ [0] ++ leBytes 4 (live.foldl min (live.headD 0))

/-- GRANT_LIST (R282). -/
def execGrantList (hd : Hdr) (first count : BitVec 32) (addr : BitVec 64) (s : State) : Ans :=
  cmd s hd 0x72 none fun s =>
    let l := (s.ptp.grants.filter fun x => first.toNat ≤ x.1).take count.toNat
    let next := match l.getLast? with | some x => x.1 + 1 | none => first.toNat
    let s := if l.isEmpty then s else hostDma s addr.toNat (l.map fun x => grantSummary s x.1 x.2).flatten
    complete s hd 0x72 Status.ok 8 (pack [(0, l.length), (4, next)])

def entry64 (b : BitVec 8) : Option (Fin 64) := if h : b.toNat < 64 then some ⟨b.toNat, h⟩ else none

/-- SEC_KEY_LOAD (R273, R282). -/
def execSecKeyLoad (hd : Hdr) (entry slot spp alg : BitVec 8) (keyId : BitVec 32) (s : State) : Ans :=
  let dup := (List.finRange 64).any fun e =>
    s.ptp.keys[e].st != .empty && s.ptp.keys[e].spp = spp && s.ptp.keys[e].keyId = keyId
  cmd s hd 0x73 (badIf ((entry64 entry).isNone || decide (1 < alg.toNat) || dup)) fun s =>
    match entry64 entry with
    | none => s
    | some e =>
      if s.ptp.keys[e].st ≠ .empty || standbyHeld s then fin s hd 0x73 Status.state
      else if !macUsable s slot.toNat (alg = 1) then fin s hd 0x73 Status.refused
      else
        let s := modSec s e fun _ => { SecKey.empty with keyId := keyId, slot := slot, spp := spp, cmac := alg = 1, st := .accept }
        fin (mirrorSec s e false) hd 0x73 Status.ok

/-- SEC_KEY_ROTATE (R273, R282). -/
def execSecKeyRotate (hd : Hdr) (entry : BitVec 8) (sec : BitVec 64) (ns : BitVec 32) (s : State) : Ans :=
  cmd s hd 0x74 (badIf ((entry64 entry).isNone || decide (1000000000 ≤ ns.toNat))) fun s =>
    match entry64 entry with
    | none => s
    | some e =>
      let t := atInstant s sec ns
      if s.ptp.keys[e].st ≠ .accept || standbyHeld s then fin s hd 0x74 Status.state
      else if s.ptp.rotate.any fun r => s.ptp.keys[r.1].spp = s.ptp.keys[e].spp then fin s hd 0x74 Status.busy
      else if t < totNs s.tco.counter then fin s hd 0x74 Status.refused
      else
        let s := modPtp s fun p => { p with rotate := p.rotate ++ [(e, t)] }
        let s := if t = totNs s.tco.counter then mirrorSec (secRotate s e t) e false else s
        complete s hd 0x74 Status.ok 16 (tsAt s t).toNat

/-- SEC_KEY_RETIRE (R273, R282). -/
def execSecKeyRetire (hd : Hdr) (entry : BitVec 8) (sec : BitVec 64) (ns : BitVec 32) (s : State) : Ans :=
  cmd s hd 0x75 (badIf ((entry64 entry).isNone || decide (1000000000 ≤ ns.toNat))) fun s =>
    match entry64 entry with
    | none => s
    | some e =>
      let t := atInstant s sec ns
      if s.ptp.keys[e].st = .empty || standbyHeld s then fin s hd 0x75 Status.state
      else if t < totNs s.tco.counter then fin s hd 0x75 Status.refused
      else
        let s := modSec s e fun k => { k with retireAt := some t }
        let s := if t = totNs s.tco.counter then secRetire s e false t else s
        complete (mirrorSec s e false) hd 0x75 Status.ok 16 (tsAt s t).toNat

/-- SLAVE_QUERY (R282). -/
def execSlaveQuery (hd : Hdr) (inst : BitVec 8) (s : State) : Ans :=
  cmd s hd 0x76 (badIf (entry16 inst).isNone) fun s =>
    match entry16 inst with
    | none => s
    | some i =>
      let k := Machine.inst s i
      if !k.running || !isSlave s i then fin s hd 0x76 Status.state
      else
        let held := fun kind => k.grants.any fun g => g.kind = kind && g.held && decide (s.now < g.until_)
        complete s hd 0x76 Status.ok 37 (pack [(0, leNat (beBytes 10 (match k.master with | some m => m.toNat | none => 0))),
          (16, uInt 64 k.lastO), (24, uInt 64 k.meanDelay), (32, sat32 k.tM), (36, flag (held .sync) 0 + flag (held .delayResp) 1)])

end Sys2Proof.Machine
end

