-- ==== Sys2Proof/Machine/Pwr.lean ====
section
/-! DEFINITION. Power states, clocks, start-up, supplies and control cores: commands and events
(14_power_clocks_startup.md). -/
namespace Sys2Proof.Machine

/-! ## Power states (R489 to R495) -/

/-- POWER_SET (R492 to R494, R514): out of Boil it lets the admitted answers leave first; toward Simmer or Off it completes
    as the pantry is committed, 10 ms before the domains go. Log entry 33. -/
def execPowerSet (hd : Hdr) (target : BitVec 8) (s : State) : Ans :=
  cmd s hd 0x10 (badIf (decide (3 < target.toNat))) fun s =>
    let t := target.toNat
    let dest : PowerState := if t = 0 then .off else if t = 1 then .simmer else .warm
    let boil := s.pwr.state = .boil
    if failWaits s then s
    else if (t = 3 && (boil || s.pwr.phase = .recovery)) || (t = 2 && !boil) then fin s hd 0x10 Status.state
    else if s.pwr.down.isSome || s.pwr.trans.isSome then fin s hd 0x10 Status.busy
    else if t = 3 then complete (toBoil s) hd 0x10 Status.ok 16 (tsNow s).toNat
    else if boil then transEval (leaveBoil (modPwr s fun p => { p with trans := some (hd, dest, s.now + ticksMs 10) }))
    else powerDone s hd dest

/-- POWER_DOWN_DOMAINS (R494 step 4): 10 ms after the completion is written. Log entry 33. -/
def execPowerDownDomains (s : State) : Ans :=
  .next (match s.pwr.down with
    | some (target, t) => if t ≤ s.now && !cplOwed s 0x10 then powerDown s target else s
    | none => s)

/-- POWER_QUERY (R515). -/
def execPowerQuery (hd : Hdr) (s : State) : Ans :=
  cmd s hd 0x11 none fun s =>
    complete s hd 0x11 Status.ok 14 (pack
      [(0, s.pwr.state.code), (1, s.pwr.phase.code), (2, s.pwr.junction.toNat), (4, s.pwr.cause.toNat),
       (8, if s.pwr.phase = .ready then sat32 ((s.now - s.pwr.readyAt) / ticksS 1) else 0), (12, s.pwr.railOk.toNat)])

/-! ## Clock loops (R496 to R500) -/

def modLoop (s : State) (i : Nat) (f : Loop → Loop) : State := { s with clk := { s.clk with loops := vmod s.clk.loops i f } }

/-- How long a loop has coasted, in ms; 0 if it is locked. -/
def coastMs (s : State) (i : Nat) : Nat := if coasting s i then sat32 ((s.now - (loop s i).coastAt) / ticksMs 1) else 0

/-- LOOP_LOSS (R498, R499; COAST of R608 for the loops that clock a unit): `ref` says that the reference was lost, else lock. Log entry 64. -/
def execLoopLoss (loop : Fin 4) (ref : Bool) (s : State) : Ans :=
  .next (
    let i := loop.val
    if !(Machine.loop s i).locked then s else
    let s := modLoop s i fun k => { k with locked := false, coasting := true, refLoss := ref, coastAt := s.now }
    let s := { s with clk := { s.clk with lastCoast := tsNow s } }
    let s := emit s .clk 0x0001 .severe (i + flag ref 8) (some 0)
    let s := match i with
      | 0 => emit s .tco 0x0003 .notice 0 (some 2)
      | 1 => s
      | n => emit s .tco 0x0003 .notice (n - 1) (some 2)
    if i = 0 then clockEval (publish s s.tco.base.toNat) else s)

/-- LOOP_RESET (R500): `refLost` is what the loop's reference detector shows. Log entries 45, 55. -/
def execLoopReset (hd : Hdr) (loop : BitVec 8) (refLost : Bool) (s : State) : Ans :=
  cmd s hd 0x12 (badIf (decide (3 < loop.toNat))) fun s =>
    let i := loop.toNat
    if !coasting s i then fin s hd 0x12 Status.state
    else if (Machine.loop s i).relock.isSome then fin s hd 0x12 Status.busy
    else if refLost then fin s hd 0x12 Status.refused
    else modLoop s i fun k => { k with relock := some (hd, s.now + ticksMs 10) }

/-- LOOP_LOCKED (R61, R500): coasting ends; MDLL-T's widening enters TEB0 and the law restarts. Log entry 64. -/
def execLoopLocked (loop : Fin 4) (s : State) : Ans :=
  .next (
    let i := loop.val
    match (Machine.loop s i).relock with
    | none => s
    | some (hd, _) =>
      let ms := coastMs s i
      let w := coastWidenAt s 0 0 s.now
      let b := boundNow s
      let s := modLoop s i fun k => { k with locked := true, coasting := false, refLoss := false, relock := none }
      let s := if i = 0 then clockEval (publish (lawRestart s (b + w)) (b + w)) else s
      let s := emit s .clk 0x0002 .notice (i + ms * 2 ^ 32) (some 1)
      complete s hd 0x12 Status.ok 20 (pack [(0, (tsNow s).toNat), (16, ms)]))

/-- LOOP_RESET_TIMEOUT (R500, R514): the loop coasts on; a lock at this tick wins. -/
def execLoopResetTimeout (loop : Fin 4) (s : State) : Ans :=
  .next (match (Machine.loop s loop.val).relock with
    | some (hd, t) =>
      if t ≤ s.now && !s.pending.contains (.loopLocked loop) then fin (modLoop s loop.val fun k => { k with relock := none }) hd 0x12 Status.aborted else s
    | none => s)

/-- CLOCK_QUERY (R515). -/
def execClockQuery (hd : Hdr) (s : State) : Ans :=
  cmd s hd 0x13 none fun s =>
    let hz := match s.clk.refSel.toNat with | 1 => 10000000 | 2 => 20000000 | 3 => 25000000 | _ => 0
    complete s hd 0x13 Status.ok 24 (pack
      [(0, clkStateWord s), (4, hz), (8, coastMs s 0), (12, coastMs s 1), (16, coastMs s 2), (20, coastMs s 3)])

/-- REF_WAIT_RETRY (R496): REF is measured again, 100 ms after the last time. -/
def execRefWaitRetry (count : Nat) (s : State) : Ans :=
  .next (match s.pwr.start with
    | some i => if s.pwr.phase = .waitRef && decide (s.clk.countAt + ticksMs 100 ≤ s.now) then startRef s { i with refCount := count } else s
    | none => s)

/-! ## Starts (R495, R502 to R506) -/

/-- POR_RELEASE (R495, R505, R513): a release of POR_N after a low pulse, or the return of the main rails, which alone ends a
    thermal shutdown. Log entry 81. -/
def execPorRelease (i : StartIn) (s : State) : Ans := .next (if s.pwr.thermDead && !i.rails then s else startRun s i false)

/-- PWR_FAIL_N_HIGH (R502): the engine leaves reset if POR_N was released meanwhile. -/
def execPwrFailNHigh (s : State) : Ans :=
  .next (
    let s := modPwr s fun p => { p with pwrFailLow := false }
    match s.pwr.start with
    | some i => if s.pwr.phase = .reset then startGo s i else s
    | none => s)

/-- BOOT_THERMAL_HOLD_END (R513): the junction has fallen below 100 °C. -/
def execBootThermalHoldEnd (junction : BitVec 16) (s : State) : Ans :=
  .next (match s.pwr.start with
    | some i =>
      if s.pwr.phase = .rom && decide (junction.toInt < 1600) then
        startKeys (modPwr s fun p => { p with junction := junction, start := none }) { i with junction := junction }
      else s
    | none => s)

/-- SOFT_RESET (R504, R514): 1 µs after the write; a power failure at this tick wins. -/
def execSoftReset (i : StartIn) (s : State) : Ans :=
  .next (match s.pwr.swrst with
    | some t => if t ≤ s.now && !failWaits s then startRun s { i with rails := false, vbatLost := false } true else s
    | none => s)

/-! ## Supplies and temperature (R510 to R513, R516) -/

/-- Every output at its inactive level (R510 step 2). -/
def outputsOff (s : State) : State :=
  (List.range 22).foldl (fun s o =>
    let p := vget s.tio.outs OutPin.reset o
    if p.level = .inactive then s
    else driveOut (modOut s o fun p => { p with driving := false, pulseEnd := none }) o .inactive (16 * s.now)) s

/-- The domains but AON go down, one-way until a start (R510 step 4, R511). Log entry 53. -/
def failDown (s : State) : State := modPwr (powerDown s .off) fun p => { p with failed := true }

/-- PWR_FAIL (R510, R511, R514): PWR_FAIL_N has been low for 200 ns. Log entry 53. -/
def execPwrFail (s : State) : Ans :=
  .next (
    let run := mainUp s
    let hot := hotOver s
    let s := { lineRelease s with key := { s.key with mask10 := true } }
    let s := if run then
        emit (panCommit (outputsOff s) true .off) .pwr 0x0004 .severe (flag hot 0) none
      else s
    let s := modPwr s fun p =>
      { p with pwrFailLow := true, pf := true, therm := p.therm || hot, thermDead := p.thermDead || hot,
               cause := p.cause ||| BitVec.ofNat 32 (4 + flag hot 3) }
    failDown s)

/-- THERMAL_SHUTDOWN (R513, R514). -/
def execThermalShutdown (s : State) : Ans :=
  .next (if !mainUp s || !hotOver s then s else
    let s := outputsOff { lineRelease s with key := { s.key with mask10 := true } }
    let s := emit s .pwr 0x0003 .fatal s.pwr.junction.toNat none
    let s := modPwr s fun p => { p with therm := true, thermDead := true, cause := p.cause ||| 8 }
    failDown s)

/-- The bins of R568: a junction in 1/16 °C, and VDD_CORE in 0.1 mV. -/
def tempBin (t : Int) : Nat := if t < -640 then 0 else min 31 ((t + 720) / 80).toNat

def vcoreBin (v : Nat) : Nat := if v < 6750 then 0 else min 31 ((v - 6700) / 50)

/-- The histograms take one reading a second (R569). Log entry 55. -/
def histSample (s : State) (junction vcore : BitVec 16) : State :=
  if s.now / ticksS 1 = s.pan.secAt then s else
  modFig (modPan s fun p => { p with secAt := s.now / ticksS 1 }) fun f =>
    { f with tempH := figAdd f.tempH (tempBin junction.toInt) 1, vcoreH := figAdd f.vcoreH (vcoreBin vcore.toNat) 1 }

/-- The on-die temperature averaged over 1 s (R57). Log entry 9. -/
def dieSample (s : State) (junction : BitVec 16) : State :=
  let s := modPwr s fun p => { p with dieSum := p.dieSum + junction.toInt, dieCount := p.dieCount + 1 }
  if s.pwr.dieAt + ticksS 1 ≤ s.now then
    let m := roundDiv s.pwr.dieSum s.pwr.dieCount
    let s := modPwr s fun p => { p with dieSum := 0, dieCount := 0, dieAt := s.now }
    tempMark (modTco s fun t => { t with tempDie := m })
  else s

/-- THERM_WARN and its rearming (R512). -/
def thermWarn (s : State) (junction : BitVec 16) : State :=
  let warn : Int := (rf s Rg.pwrCtrl 15 8 : Nat)
  if 16 * warn ≤ junction.toInt then
    let s' := modPwr s fun p => { p with armed := false, coolAt := none }
    if s.pwr.armed then emit s' .pwr 0x0002 .degraded junction.toNat (some 2) else s'
  else if junction.toInt ≤ 16 * (warn - 5) then
    let t := s.pwr.coolAt.getD s.now
    modPwr s fun p => { p with coolAt := some t, armed := p.armed || decide (t + ticksS 10 ≤ s.now) }
  else modPwr s fun p => { p with coolAt := none }

/-- THERMAL_SAMPLE (R512, R569): every 10 µs; VDD_CORE in 0.1 mV. Log entries 55, 81. -/
def execThermalSample (junction vcore : BitVec 16) (s : State) : Ans :=
  .next (if !mainUp s then s else
    let s := modPwr s fun p =>
      { p with junction := junction, peak := if p.peak.toInt < junction.toInt then junction else p.peak,
               hotAt := if 2000 ≤ junction.toInt then some (p.hotAt.getD s.now) else none }
    histSample (dieSample (thermWarn s junction) junction) junction vcore)

/-- RAIL_WARN (R516, R517). Log entries 45, 55, 81. -/
def execRailWarn (rail : Fin 8) (high : Bool) (s : State) : Ans :=
  .next (if !mainUp s then s else
    let m : BitVec 8 := BitVec.ofNat 8 (2 ^ rail.val)
    emit (modPwr s fun p => { p with railOk := p.railOk &&& ~~~m, warned := p.warned ||| m }) .pwr 0x0005 .degraded
      (rail.val + flag high 3) (some 3))

/-- CORE_HALT (R516): 1 double-bit ECC, 2 illegal instruction, 3 watchdog, which core 0 does not have. -/
def execCoreHalt (core : Fin 4) (cause : BitVec 2) (s : State) : Ans :=
  .next (if !mainUp s || cause = 0 || (cause = 3 && core = 0) then s else coreHalt s core.val cause.toNat)

end Sys2Proof.Machine
end

