-- ==== Sys2Proof/Machine/Refs.lean ====
section
/-! DEFINITION. The commands and events of REFS (03_reference_selection.md R79 to R122). -/
namespace Sys2Proof.Machine

/-- The slot a command names, when it names one. -/
def slotArg (b : BitVec 8) : Option (Fin 16) := if h : b.toNat < 16 then some ⟨b.toNat, h⟩ else none

/-- REFS_MEASUREMENT (R80). A frequency-only slot's event is clock edges seen: activity (R78). -/
def execRefsMeasurement (slot : Fin 16) (off : Int) (latch bound : Nat) (valid : Bool) (s : State) : Ans :=
  .next (
    if timeCapable slot then measure s slot off (min latch s.now) bound valid
    else if slotEn s slot && freqSource s slot && valid then selEval (judge (activity s slot s.now) slot)
    else s)

/-- SLOT_ACTIVITY_LAPSE (R79): ACT_TO has passed since the last activity. -/
def execSlotActivityLapse (slot : Fin 16) (s : State) : Ans := .next (lapse s slot)

/-- MONITOR_UPDATE (R81): on each second boundary of the counter; `ppt` is what the edge counters of frequency-only
    slots give for the last second. -/
def execMonitorUpdate (ppt : List (Fin 16 × Int)) (s : State) : Ans := .next (monitors s ppt)

/-- SLOT_QUALIFY (R86): active and inside accept for QUAL_TIME. -/
def execSlotQualify (slot : Fin 16) (s : State) : Ans :=
  .next (
    let s := lossFirst s
    match (Machine.slot s slot).insideAt with
    | some t =>
      if slotEn s slot && decide (t + ticksS (getW s Rg.refsQualTime).toNat ≤ s.now) then selEval (qualify s slot) else s
    | none => s)

/-- WTR_EXPIRY (R95 case 3, R121). -/
def execWtrExpiry (s : State) : Ans := .next (selEval (lossFirst s))

/-- TXN_COMMIT (R99, R121): the PREPARE window has ended. -/
def execTxnCommit (s : State) : Ans :=
  .next (
    let s := lossFirst s
    match s.refs.txn with
    | some x => if x.t0 + prepareTicks ≤ s.now then tryCommit s else s
    | none => s)

/-- SETTLE_END (R99 step 5). -/
def execSettleEnd (s : State) : Ans :=
  .next (if s.refs.phase = .settle && s.refs.settleEnd ≤ s.now then selEval (endSettle s) else s)

/-- REFUSED_CLEAR (R104): the offset has stayed within STEP_LIMIT for QUAL_TIME. -/
def execRefusedClear (slot : Fin 16) (s : State) : Ans :=
  .next (
    match (Machine.slot s slot).withinAt with
    | some t =>
      if (Machine.slot s slot).refused && decide (t + ticksS (getW s Rg.refsQualTime).toNat ≤ s.now) then
        selEval (modSlot s slot fun k => { k with refused := false, withinAt := none })
      else s
    | none => s)

/-- HOLDOVER_WORD_UPDATE (R97, R108): once per second, while the TIME selector holds no slot, serves frequency only,
    or REFS is in its safe state. -/
def execHoldoverWordUpdate (s : State) : Ans :=
  .next (
    if !rb s Rg.refsCtrl 0 || !coreUp s 2 || s.now < s.refs.wordAt + ticksS 1 then s else
    let s := modRefs s fun r => { r with wordAt := s.now }
    if safe s .refs then holdNow s
    else match s.refs.timeSlot with
      | some i => if s.refs.freqOnly then servoFreq s i else s
      | none => takeHoldWord s)

/-- STEER_UPDATE (R110, R116, R121): once per STEER_PERIOD; a sample of c while locked, and an update of the code. -/
def execSteerUpdate (s : State) : Ans :=
  .next (
    let s := lossFirst s
    if !coreUp s 2 || s.now < s.refs.steerAt + ticksS (getW s Rg.refsSteerPeriod).toNat then s else
    let per := (getW s Rg.refsSteerPeriod).toNat
    let s := modRefs s fun r => { r with steerAt := s.now }
    let win := ticksS (86400 * (getW s Rg.refsAgeWin).toNat)
    let s := if locked s then
        modRefs s fun r => { r with ageing := (s.now, cNow s, per) :: r.ageing.filter (fun p => decide (s.now < p.1 + win)) }
      else s
    if (steerMode s = 1 || steerMode s = 2) && steerMay s && s.refs.uart.isNone then steerUpdate s else s)

/-- STEER_REPLY (R120): a line arrives. -/
def execSteerReply (line : List Byte) (s : State) : Ans :=
  .next (
    match s.refs.uart with
    | none => s
    | some u => oscTurn (
      if (replyPrefix s (if u.init then 0 else 1)).isPrefixOf line then
        let s := modRefs s fun r => { r with uart := none, initSent := r.initSent || u.init }
        if u.init then sendSet s u.code u.host false else steerDone s u.host
      else steerMiss s u false))

/-- STEER_REPLY_TIMEOUT (R120): a line that arrives in the same tick wins (R480). Log entry 34. -/
def execSteerReplyTimeout (s : State) : Ans :=
  .next (
    match s.refs.uart with
    | some u =>
      let line := s.pending.any fun c => match c with | .steerReply _ => true | _ => false
      if u.deadline ≤ s.now && !(u.deadline = s.now && line) then oscTurn (steerMiss s u true) else s
    | none => s)

/-- REF_QUERY (R122). -/
def execRefQuery (hd : Hdr) (slot : BitVec 8) (s : State) : Ans :=
  cmd s hd 0x30 (badIf (slotArg slot).isNone) fun s =>
    match slotArg slot with
    | none => s
    | some i =>
      let m := (Machine.slot s i).meas.head?
      complete s hd 0x30 Status.ok 28 (pack [(0, slotMon s i 0), (4, slotMon s i 1), (8, slotMon s i 2),
        (12, slotMon s i 3), (16, satInt 64 ((m.map Meas.off).getD 0)), (24, sat32 (ceilDiv ((m.map Meas.bound).getD 0) 4096))])

/-- REF_LOCKOUT (R122): the LOCKOUT bit of the slot's configuration. Log entry 65. -/
def execRefLockout (hd : Hdr) (slot on : BitVec 8) (s : State) : Ans :=
  cmd s hd 0x31 (badIf ((slotArg slot).isNone || decide (1 < on.toNat))) fun s =>
    let k := indKey .refs 1 (8 * slot.toNat)
    let w := getW s k
    let w' := if on = 1 then w ||| 2 else w &&& (~~~(2 : Word))
    if standbyHeld s then fin s hd 0x31 Status.state else
    fin (selEval (mirrorSend (putW s k w') (.word k w'))) hd 0x31 Status.ok

/-- REF_FORCE (R96, R122). -/
def execRefForce (hd : Hdr) (slot : BitVec 8) (s : State) : Ans :=
  cmd s hd 0x32 (badIf ((slotArg slot).isNone && slot != 0xFF)) fun s =>
    fin (selEval (modRefs s fun r => { r with force := slotArg slot })) hd 0x32 Status.ok

/-- ACCEPT_STEP (R106, R122): a transaction toward the slot held for frequency only. -/
def execAcceptStep (hd : Hdr) (slot mode : BitVec 8) (maxNs : BitVec 32) (s : State) : Ans :=
  cmd s hd 0x33 (badIf ((slotArg slot).isNone || decide (1 < mode.toNat))) fun s =>
    match slotArg slot with
    | none => s
    | some i =>
      let s := lossFirst s
      if s.refs.timeSlot ≠ some i || !s.refs.freqOnly || !mayBegin s then fin s hd 0x33 Status.state
      else if s.refs.phase = .prepare || s.refs.commitAt = some s.now then fin s hd 0x33 Status.busy
      else beginTxn s i (.acceptStep hd (mode = 1) maxNs.toNat)

/-- REF_SWITCH (R95 case 5, R122). -/
def execRefSwitch (hd : Hdr) (slot : BitVec 8) (s : State) : Ans :=
  cmd s hd 0x34 (badIf (slotArg slot).isNone) fun s =>
    match slotArg slot with
    | none => s
    | some i =>
      if !eligibleTime s i || !forced s i || !mayBegin s || !rb s Rg.refsCtrl 0 then fin s hd 0x34 Status.state
      else if s.refs.phase ≠ .idle then fin s hd 0x34 Status.busy
      else
        let t := s.refs.timeSlot
        let f := s.refs.freqSlot
        selPost t f (beginTxn s i (.refSwitch hd))

/-- HOLDOVER_FORCE (R122): while in force the TIME selector holds no slot. -/
def execHoldoverForce (hd : Hdr) (on : BitVec 8) (s : State) : Ans :=
  cmd s hd 0x35 (badIf (decide (1 < on.toNat))) fun s =>
    if !s.refs.everLocked then fin s hd 0x35 Status.state
    else fin (selEval (modRefs s fun r => { r with holdForce := on = 1 })) hd 0x35 Status.ok

/-- OSC_SET (R115, R122): a steering value in MANUAL mode; while the exchange of an earlier one waits for its reply the
    command waits its turn (R441). DESIGN CHOICE (entry 66): it sends in holdover and with SEL_EN 0 as well, since R115 gives
    the host alone the steering in MANUAL mode. -/
def execOscSet (hd : Hdr) (code : BitVec 32) (s : State) : Ans :=
  let uart := rb s Rg.refsSteerCtrl 2
  let h : Int := if uart then (getW s Rg.refsUartVmax).toNat else (2 ^ (fld (getW s Rg.refsDacCfg).toNat 4 0 - 1) : Nat)
  let hi := if uart then h else h - 1
  cmd s hd 0x36 (badIf (decide (code.toInt < -h ∨ hi < code.toInt))) fun s =>
    if steerMode s ≠ 3 then fin s hd 0x36 Status.state
    else if s.refs.uart.isSome then modRefs s fun r => { r with oscWait := r.oscWait ++ [(hd, code.toInt)] }
    else sendCode s code.toInt (some hd)

/-- RANK_SET (R91, R122): the run-time override. Log entry 65. -/
def execRankSet (hd : Hdr) (slot rank ovr : BitVec 8) (s : State) : Ans :=
  cmd s hd 0x37 (badIf ((slotArg slot).isNone || decide (1 < ovr.toNat))) fun s =>
    match slotArg slot with
    | none => s
    | some i =>
      fin (selEval (judge (modSlot s i fun k => { k with ovr := if ovr = 1 then some rank else none }) i)) hd 0x37
        Status.ok

/-- AGE_RESET (R110). -/
def execAgeReset (hd : Hdr) (s : State) : Ans :=
  cmd s hd 0x38 none fun s => fin (modRefs s fun r => { r with ageing := [] }) hd 0x38 Status.ok

end Sys2Proof.Machine
end

