-- ==== Sys2Proof/Machine/Tio.lean ====
section
/-! DEFINITION. The commands and events of timed I/O (05_timed_io.md R177 to R210). -/
namespace Sys2Proof.Machine

def modTio (s : State) (f : Tio → Tio) : State := { s with tio := f s.tio }

/-- The engine is ready: TIO's schedules and receivers run. -/
def tioOn (s : State) : Bool := s.pwr.phase = .ready

/-! ## Driven edges -/

/-- The state that a command answers; `s` where it answers none. -/
def outcomeOr (s : State) : Ans → State
  | .next t => t
  | _ => s

/-- The state with the changes of the clock state that wait at this tick. -/
def clockAhead (s : State) : State :=
  s.pending.foldl (fun t c => match c with
    | .tebPublish => outcomeOr t (execTebPublish t)
    | .dwellExpiry => outcomeOr t (execDwellExpiry t)
    | .lockLapse => outcomeOr t (execLockLapse t)
    | .timeInvalidate hd => outcomeOr t (execTimeInvalidate hd t)
    | _ => t) s

/-- A step, or a change of the clock state, waits at this tick: it comes before a leading edge (R205), which its sender
    gives again after it. Log entry 34. -/
def edgeWaits (s : State) : Bool :=
  s.pending.any (fun c => match c with
    | .timeStep .. | .timeSet .. | .txnCommit .. => true | _ => false)
  || (clockAhead s).tco.st != s.tco.st

/-- PPS_OUT_EDGE (R182): the target of the output's next second is placed in the present tick. -/
def execPpsOutEdge (output : Fin 4) (s : State) : Ans :=
  .next (
    match s.tio.ppsNext[output] with
    | none => s
    | some k =>
      let x := ppsTarget s output k
      if tioOn s && (outCfg s output).1 && !edgeWaits s && decide (placeIdx s (x - outDelay s output) 1 < 16) then
        let out := !gateShut s output && edgeMay s output x 1
        let s := leadEdge s output x 1 (8000 * ind s .tio 1 (8 * output.val + 1)) k true
        let s := if out then ppsEmitted s output.val k else s
        modTio s fun t => { t with ppsNext := vset t.ppsNext output.val (some (ppsSkip s output.val (k + 1))) }
      else s)

/-- PULSE_TRAILING_EDGE (R180): the programmed width has elapsed; the frequency outputs' high phases end so too. -/
def execPulseTrailingEdge (output : Fin 22) (s : State) : Ans :=
  .next (
    let p := outPin s output
    match p.pulseEnd with
    | none => s
    | some e =>
      if e < 16 * (s.now + 1) then
        if p.level = .active then
          driveOut (modOut s output fun p => { p with pulseEnd := none }) output .inactive e
        else modOut s output fun p => { p with pulseEnd := none }
      else s)

/-- The next edge of a trigger is placed in the present tick. -/
def trigDue (s : State) (pin : Fin 16) (t : Trig) : Bool :=
  let (n, d) := trigTarget t t.j
  trigHas t t.j && decide (placeIdx s ((n : Int) - outDelay s (pin.val + 6) * (d : Int)) d < 16)

/-- One edge of a trigger (R188, R189): an edge squelched or held inactive is not emitted. -/
def trigFire (s : State) (pin : Fin 16) (t : Trig) : State :=
  let o := pin.val + 6
  let (n, d) := trigTarget t t.j
  let out := !gateShut s o && !outHeld s
  let s := leadEdge s o n d (8 * ind s .tio 3 (4 * pin.val + 1)) t.j (rb s (indKey .tio 3 (4 * pin.val)) 12)
  let t := { t with j := t.j + 1, emitted := t.emitted + (if out then 1 else 0) }
  modTio s fun k => { k with trigs := vset k.trigs pin.val (some t) }

/-- TRIG_EDGE (R189). -/
def execTrigEdge (pin : Fin 16) (s : State) : Ans :=
  .next (
    match s.tio.trigs[pin] with
    | none => s
    | some t =>
      if tioOn s && fld (ind s .tio 3 (4 * pin.val)) 1 0 = 1 && !edgeWaits s && trigDue s pin t then trigSettle (trigFire s pin t) pin else s)

/-! ## Frequency outputs (R185 to R187) -/

/-- A restart at a TIME phase cuts or lengthens the last period: a high phase in progress ends one phase before the
    restart if it has lasted 4 phases by then, and otherwise goes on through it (R187, entry 26). -/
def freqCut (s : State) (n ph : Nat) : State :=
  match (outPin s (n + 4)).pulseEnd with
  | some e =>
    if e < ph then freqRestart s n ph
    else if e - freqPeriod s n / 131072 + 5 ≤ ph then freqRestart (modOut s (n + 4) fun p => { p with pulseEnd := some (ph - 1) }) n ph
    else freqRestart (modOut s (n + 4) fun p => { p with pulseEnd := none, level := .inactive }) n ph
  | none => freqRestart s n ph

/-- The counter second whose edge is placed in the present tick; a grid point that the time base passed over at the tick's
    start, as it advanced by 17 phases, gives the tick's first phase. Log entry 26. -/
def secondHere (s : State) (n : Nat) : Option (Nat × Nat) :=
  [secOf s.tco.counter, secOf s.tco.counter + 1].findSome? fun c =>
    let k := placeIdx s ((c * subSec : Nat) - outDelay s (n + 4)) 1
    if -1 ≤ k ∧ k < 16 then some (c, gridPhase s (max 0 k)) else none

/-- A restart due in the present tick: SECOND mode, or FREQ_SYNC in FREE mode (R186). -/
def freqSecond (s : State) (n : Nat) : State :=
  let g := vget s.tio.freq { acc := 0, next := none, syncArmed := false, lastSec := none } n
  match secondHere s n with
  | some (c, ph) =>
    if g.lastSec != some c && (freqMode s n = 2 || (freqMode s n = 0 && g.syncArmed)) then
      modTio (freqCut s n ph) fun t =>
        { t with freq := vmod t.freq n fun g => { g with lastSec := some c, syncArmed := false } }
    else s
  | none => s

/-- FREQ_OUT_EDGE (R185, R186): the period has ended; a restart that falls in the tick comes first. -/
def execFreqOutEdge (output : Fin 2) (s : State) : Ans :=
  .next (
    let n := output.val
    if !tioOn s || !(outCfg s (n + 4)).1 || edgeWaits s then s else
    let s := freqSecond s n
    let g := s.tio.freq[output]
    match g.next with
    | none => s
    | some ph =>
      if 16 * (s.now + 1) ≤ ph then s else
      let per := freqPeriod s n
      let a := g.acc + per % 65536
      let len := per / 65536 + a / 65536
      let s := modTio s fun t => { t with freq := vset t.freq n { g with acc := a % 65536, next := some (ph + len) } }
      let s := gateEvent s (n + 4)
      if outHeld s then s
      else if gateShut s (n + 4) then
        if outMay s (n + 4) && !(outPin s (n + 4)).driving then
          driveOut (modOut s (n + 4) fun p => { p with driving := true }) (n + 4) .inactive ph
        else s
      else
        let s := modOut s (n + 4) fun p => { p with pulseEnd := some (ph + (len + 1) / 2) }
        if outMay s (n + 4) then
          driveOut (modOut s (n + 4) fun p => { p with driving := true }) (n + 4) .active ph
        else s)

/-- SYNC_IN_EDGE (R186): frequency outputs in PIN mode restart SYNC_DLY phases after the edge's grid point. -/
def execSyncInEdge (phase : Fin 16) (s : State) : Ans :=
  .next (
    if !tioOn s then s else
    (List.range 2).foldl (fun s n =>
      if (outCfg s (n + 4)).1 && freqMode s n = 1 then
        freqCut s n (16 * s.now + phase.val + ind s .tio 2 (8 * n + 3))
      else s) s)

/-! ## Captures -/

/-- CAPTURE_EDGE (R193, R194). Log entry 70. -/
def execCaptureEdge (pin : Fin 16) (rising : Bool) (phase : Fin 16) (s : State) : Ans :=
  .next (
    let w := ind s .tio 3 (4 * pin.val)
    let sel := fld w 4 3
    let ph := 16 * s.now + phase.val
    if !tioOn s || !rb s Rg.tioCtrl 1 || fld w 1 0 != 2 || !(if rising then sel.testBit 0 else sel.testBit 1) then s
    else if (match s.tio.capLast[pin] with
        | some l => decide (ph < l + 8 * ind s .tio 3 (4 * pin.val + 2)) | none => false) then
      modTio s fun t => { t with capIgnored := t.capIgnored + 1 }
    else
      let c := stampCounter s (13 + pin.val) 0 phase
      let s := perfAdd (modTio s fun t => { t with capLast := vset t.capLast pin.val (some ph) }) (644 + pin.val) 1
      if 512 ≤ s.tio.capQ.length then
        let s := modTio s fun t =>
          { t with capLostMark := true, capLost := t.capLost + 1, dropCap := BitVec.ofNat 16 (min 0xFFFF (t.dropCap.toNat + 1)) }
        if (blkStat s .tio).bits.getLsbD 0 then s else emit s .tio 0x0003 .degraded pin.val (some 0)
      else
        let r : CapRec :=
          { ts32 := ts32Of c, frac := BitVec.ofNat 16 (fracOf c), pin := pin, rising := rising, coast := unitCoast s (13 + pin.val),
            lost := s.tio.capLostMark, st := BitVec.ofNat 3 s.tco.st.code,
            teb := BitVec.ofNat 32 (unitTeb s (13 + pin.val)), cseq := s.tio.cseq }
        let s := modTio s fun t => { t with capQ := t.capQ ++ [r], cseq := t.cseq + 1, capLostMark := false }
        if s.tio.capQ.length = (getW s Rg.tioCapWm).toNat then emit s .tio 0x0008 .notice s.tio.capQ.length none else s)

/-! ## PPS and time-of-day inputs (R195 to R199, R613) -/

def modIn (s : State) (n : Fin 4) (f : PpsIn → PpsIn) : State := modTio s fun t => { t with ppsIn := vmod t.ppsIn n.val f }

def todErr (s : State) (n : Fin 4) (cause : Nat) : State := emit s .tio 0x0005 .notice (n.val + cause * 256) (some 3)

/-- TOD_UTC when the offset or the leap flags differ from the previous accepted message's (R199). -/
def todUtc (s : State) (n : Fin 4) (m : TodMsg) : State :=
  let s := perfAdd s 664 1
  if s.tio.ppsIn[n].lastUtc = some (m.utc, m.leap) then s
  else emit (modIn s n fun p => { p with lastUtc := some (m.utc, m.leap) }) .tio 0x0006 .notice
    (n.val + m.utc.toNat * 2 ^ 16 + m.leap.toNat * 2 ^ 32) none

/-- A pulse and the messages that name it (R196 to R198): one message makes a measurement. Log entry 70. -/
def todJudge (s : State) (n : Fin 4) (p : Pulse) (msgs : List TodMsg) : State :=
  match msgs with
  | [] => todErr s n 2
  | [m] =>
    let bound := ceilDiv (ind s .tio 4 (4 * n.val + 2) * 65536) 1000 + 4096 * ind s .tco 2 (29 + n.val)
    measure (todUtc s n m) (Fin.ofNat 16 (6 + n.val)) (wrapSub ((m.sec * subSec : Nat) - (p.stamp : Int))) p.tick bound true
  | _ => todErr s n 4

def todRef (s : State) (n : Fin 4) : Bool := (ind s .tio 4 (4 * n.val)).testBit 1

/-- PPS_IN_EDGE (R196, R613): the active edge, at most one in 500 ms. Log entry 70. -/
def execPpsInEdge (input : Fin 4) (rising : Bool) (phase : Fin 16) (s : State) : Ans :=
  .next (
    let k := s.tio.ppsIn[input]
    if !tioOn s || (ind s .tio 4 (4 * input.val)).testBit 0 = rising then s
    else if (match k.lastTick with | some t => decide (s.now < t + ticksMs 500) | none => false) then
      modIn s input fun p => { p with ignored := p.ignored + 1 }
    else
      let st := (stampSub s (29 + input.val) 0 phase % (subMod : Int)).toNat
      let new : Pulse := { stamp := st, tick := s.now, msgs := [] }
      let s := perfAdd (modIn s input fun p => { p with lastTick := some s.now, pulses := p.pulses + 1 }) (660 + input.val) 1
      if !rb s Rg.tioCtrl 2 then s
      else if todRef s input then
        let s := if k.begun then todJudge s input new k.early else s
        modIn s input fun p => { p with begun := true, early := [], pulse := none }
      else
        let s := match k.pulse with | some q => todJudge s input q q.msgs | none => s
        modIn s input fun p => { p with begun := true, early := [], pulse := some new })

/-- TOD_WIN in ticks. -/
def todWin (s : State) (n : Fin 4) : Nat := ticksMs (ind s .tio 4 (4 * n.val + 1))

/-- A time event message of an input completes at this tick and waits: it counts before the end of TOD_WIN (R205).
    Log entry 34. -/
def todWaits (s : State) (n : Fin 4) : Bool :=
  s.pending.any fun c => match c with | .todMessage k (.event ..) => k = n | _ => false

/-- TOD_WIN_EXPIRY (R196, R198): the pulse is judged with what named it. -/
def execTodWinExpiry (input : Fin 4) (s : State) : Ans :=
  .next (
    match s.tio.ppsIn[input].pulse with
    | some p =>
      if rb s Rg.tioCtrl 2 && decide (p.tick + todWin s input ≤ s.now) && !(decide (s.now = p.tick + todWin s input) && todWaits s input) then
        modIn (todJudge s input p p.msgs) input fun k => { k with pulse := none }
      else s
    | none => s)

/-- TOD_MESSAGE (R195 to R199). Log entry 70. -/
def execTodMessage (input : Fin 4) (msg : TodIn) (s : State) : Ans :=
  .next (
    let k := s.tio.ppsIn[input]
    if !tioOn s || !rb s Rg.tioCtrl 2 then s else
    match msg with
    | .bad => todErr s input 1
    | .other => todErr (modIn s input fun p => { p with unsupported := p.unsupported + 1 }) input 5
    | .announce cls acc var => advertise (perfAdd s 664 1) (Fin.ofNat 16 (6 + input.val)) (ptpRank cls acc var)
    | .event sec utc leap =>
      let m : TodMsg := { sec := sec, utc := utc, leap := leap }
      if !k.begun then s
      else if todRef s input then modIn s input fun p => { p with early := p.early ++ [m] }
      else match k.pulse with
        | some p =>
          if s.now ≤ p.tick + todWin s input then modIn s input fun k => { k with pulse := some { p with msgs := p.msgs ++ [m] } }
          else todErr (modIn (todJudge s input p p.msgs) input fun k => { k with pulse := none }) input 3
        | none => todErr s input 3)

/-! ## Commands (R206) -/

/-- The trigger of a block of R206, none where a field is outside R188 and R189 (R190, entry 16). -/
def trigBlock (s : State) (pin : BitVec 8) (block : BitVec 256) : Option Trig :=
  let b := block.toNat
  let mode := fld b 7 0
  let form := fld b 15 8
  let count := fld b 63 32
  let sec := fld b 127 64
  let ns := fld b 159 128
  let per := fld b 255 192
  let width := ind s .tio 3 (4 * pin.toNat + 1)
  let fits := mode = 0 || (if form = 1 then decide ((width + 8) * per ≤ 1000000000) else decide ((width + 8) * 65536 ≤ per))
  if decide (pin.toNat < 16) && fld (ind s .tio 3 (4 * pin.toNat)) 1 0 = 1 && decide (mode ≤ 2) && decide (form ≤ 1)
      && decide (sec < 2 ^ 48) && decide (ns < 1000000000) && (form = 0 || decide (1 ≤ per ∧ per ≤ 10000000)) && fits
      && (mode != 2 || count != 0) && decide (8 ≤ width) then
    some { mode := BitVec.ofNat 2 mode, rate := form = 1, count := count, startSec := sec,
           startSub := ns * 65536 + fld b 175 160, per := per, j := 0, emitted := 0, stopAt := none, arm := s.tio.armSeq }
  else none

/-- TRIG_ARM (R190). Log entry 70. -/
def execTrigArm (hd : Hdr) (pin : BitVec 8) (block : HostBlock) (s : State) : Ans :=
  let t := trigBlock s pin block.data
  cmd s hd 0x50 (badIf t.isNone) fun s =>
    let s := hostRead s block.addr.toNat 32
    match t with
    | none => s
    | some t =>
      if !rb s Rg.tioCtrl 0 || standbyHeld s then fin s hd 0x50 Status.state
      else if (vget s.tio.trigs none pin.toNat).isSome then fin s hd 0x50 Status.busy
      else if t.startSec * subSec + t.startSub < subNs s.tco.counter + 10000 * 65536 then fin s hd 0x50 Status.refused
      else
        let s := modTio s fun k => { k with trigs := vset k.trigs pin.toNat (some t), armSeq := k.armSeq + 1 }
        complete (mirrorTrig s pin.toNat t) hd 0x50 Status.ok 4 t.arm.toNat

/-- TRIG_STOP (R191, R205): at once, after an edge of the present tick; or at an instant, from which on no edge is
    emitted. Log entry 70. -/
def execTrigStop (hd : Hdr) (pin mode : BitVec 8) (sec : BitVec 64) (ns : BitVec 32) (s : State) : Ans :=
  let bad := decide (15 < pin.toNat) || decide (1 < mode.toNat) || decide (2 ^ 48 ≤ sec.toNat) || decide (1000000000 ≤ ns.toNat)
  cmd s hd 0x51 (if bad then some Status.badArg
      else if (vget s.tio.trigs none pin.toNat).isNone then some Status.notFound else none) fun s =>
    let p : Fin 16 := Fin.ofNat 16 pin.toNat
    match vget s.tio.trigs none pin.toNat with
    | none => s
    | some t =>
      if standbyHeld s then fin s hd 0x51 Status.state
      else if mode = 0 then
        let s := if trigDue s p t then trigFire s p t else s
        let n := (match vget s.tio.trigs none pin.toNat with | some t => t.emitted | none => t.emitted)
        complete (trigEnd s pin.toNat n) hd 0x51 Status.ok 4 (sat32 n)
      else
        let x := sec.toNat * subSec + ns.toNat * 65536
        let t' := { t with stopAt := some x }
        let s := modTio s fun k => { k with trigs := vset k.trigs pin.toNat (some t') }
        complete (trigSettle (mirrorTrig s pin.toNat t') pin.toNat) hd 0x51 Status.ok 4 (sat32 t.emitted)

/-- A capture record's 16 bytes (R193). -/
def CapRec.bytes (r : CapRec) : List Byte :=
  leBytes 4 r.ts32.toNat ++ leBytes 2 r.frac.toNat ++ [BitVec.ofNat 8 r.pin.val,
    BitVec.ofNat 8 (flag r.rising 0 + flag r.coast 1 + flag r.lost 2 + r.st.toNat * 8)] ++
  leBytes 4 r.teb.toNat ++ leBytes 4 r.cseq.toNat

/-- An edge report's 32 bytes (R183). -/
def EdgeRep.bytes (r : EdgeRep) : List Byte :=
  leBytes 16 r.edge.toNat ++ leBytes 4 r.q.toNat ++ leBytes 4 r.seq.toNat ++ [r.source,
    BitVec.ofNat 8 (flag r.missed 0 + flag r.notEmitted 1 + flag r.stepped 2 + flag r.standby 3), 0, 0] ++
  leBytes 4 r.index.toNat

/-- CAP_READ (R206). -/
def execCapRead (hd : Hdr) (count : BitVec 16) (addr : BitVec 64) (s : State) : Ans :=
  cmd s hd 0x52 none fun s =>
    let l := s.tio.capQ.take count.toNat
    let lost := s.tio.capLost
    let s := if l.isEmpty then s else hostDma s addr.toNat (l.map CapRec.bytes).flatten
    complete (modTio s fun t => { t with capQ := t.capQ.drop count.toNat, capLost := 0 }) hd 0x52 Status.ok 8
      (pack [(0, l.length), (4, sat32 lost)])

/-- EDGE_READ (R184, R206). -/
def execEdgeRead (hd : Hdr) (count : BitVec 16) (addr : BitVec 64) (s : State) : Ans :=
  cmd s hd 0x53 none fun s =>
    let l := s.tio.edgeQ.take count.toNat
    let lost := s.tio.edgeDrop
    let s := if l.isEmpty then s else hostDma s addr.toNat (l.map EdgeRep.bytes).flatten
    complete (modTio s fun t => { t with edgeQ := t.edgeQ.drop count.toNat, edgeDrop := 0 }) hd 0x53 Status.ok 8
      (pack [(0, l.length), (4, sat32 lost)])

/-- FREQ_SYNC (R186): the named outputs restart at the next counter second. -/
def execFreqSync (hd : Hdr) (mask : BitVec 8) (s : State) : Ans :=
  cmd s hd 0x54 (badIf (decide (3 < mask.toNat))) fun s =>
    if (List.range 2).any (fun n => mask.getLsbD n && freqMode s n != 0) then fin s hd 0x54 Status.state
    else
      let sec := secOf s.tco.counter
      let arm := fun (s : State) (n : Nat) =>
        if mask.getLsbD n then
          modTio s fun t => { t with freq := vmod t.freq n fun g => { g with syncArmed := true, lastSec := some sec } }
        else s
      fin (arm (arm s 0) 1) hd 0x54 Status.ok

end Sys2Proof.Machine
end

