-- ==== Sys2Proof/Machine/Upd.lean ====
section
/-! DEFINITION. Image slots and update: commands and events (15_firmware_update.md R528 to R540). -/
namespace Sys2Proof.Machine

/-- A host session (R528). -/
def hostSession (s : State) : Option Session :=
  match s.upd.session with
  | some x => if x.peer.isNone then some x else none
  | none => none

def inRecovery (s : State) : Bool := s.pwr.phase = .recovery

/-- UPD_OPEN (R528, R529, R537): receive opens a session into the slot not running, in RECOVERY the named one; push offers the
    running image to a peer and completes with its reply. -/
def execUpdOpen (hd : Hdr) (mode link slot : BitVec 8) (s : State) : Ans :=
  cmd s hd 0xC0 (badIf (decide (1 < mode.toNat) || (mode = 1 && decide (3 < link.toNat))
      || (if inRecovery s then decide (1 < slot.toNat) else slot != 0xFF))) fun s =>
    if trialRuns s then fin s hd 0xC0 Status.state
    else if mode = 1 then
      let l := Fin.ofNat 4 link.toNat
      if inRecovery s || (Machine.link s l).st != .up then fin s hd 0xC0 Status.state
      else if s.upd.push.isSome then fin s hd 0xC0 Status.busy
      else
        let b := slotImage s s.upd.running
        linkSend (modUpd s fun u => { u with push := some { link := l, open_ := some hd, verify := none } }) l
          (.updOffer (BitVec.ofNat 32 (imgLen b)) (BitVec.ofNat 32 (imgFw b)))
    else if s.upd.session.isSome then fin s hd 0xC0 Status.busy
    else
      let n := if inRecovery s then Fin.ofNat 2 slot.toNat else otherSlot s.upd.running
      complete (sessionOpen s none n 0) hd 0xC0 Status.ok 1 n.val

/-- UPD_WRITE (R529): `data` is what host memory holds. -/
def execUpdWrite (hd : Hdr) (off len : BitVec 32) (addr : BitVec 64) (data : List Byte) (s : State) : Ans :=
  cmd s hd 0xC1 (badIf (decide (len.toNat < 4) || decide (65536 < len.toNat) || len.toNat % 4 != 0
      || (match hostSession s with | some x => !writeFits x off.toNat len.toNat | none => false))) fun s =>
    match hostSession s with
    | some x =>
      let s := hostRead s addr.toNat len.toNat
      let b := data.take len.toNat ++ List.replicate (len.toNat - data.length) 0
      complete (sessionWrite s x b) hd 0xC1 Status.ok 4 (x.written + len.toNat)
    | none => fin s hd 0xC1 Status.state

/-- UPD_VERIFY (R530, R537, R540). -/
def execUpdVerify (hd : Hdr) (s : State) : Ans :=
  cmd s hd 0xC2 none fun s =>
    match hostSession s, s.upd.push with
    | some x, _ =>
      let b := slotImage s x.slot
      let (c, s) := sessionVerify s x
      complete s hd 0xC2 (causeStatus c) 6 (verifyResult b c)
    | none, some p =>
      if p.open_.isSome || p.verify.isSome then fin s hd 0xC2 Status.state
      else linkSend (modUpd s fun u => { u with push := some { p with verify := some hd } }) p.link (.updEnd false)
    | none, none => fin s hd 0xC2 Status.state

/-- UPD_ACTIVATE (R531, R539): with BOOT_SRC = 2 the engine starts at once from step 6 of R505. Log entry 54. -/
def execUpdActivate (hd : Hdr) (slot flags : BitVec 8) (i : StartIn) (s : State) : Ans :=
  cmd s hd 0xC3 (badIf (decide (1 < slot.toNat) || decide (1 < flags.toNat))) fun s =>
    let n := Fin.ofNat 2 slot.toNat
    let st := (recNow s).st[n]
    if trialRuns s || (st != .verified && st != .good) then fin s hd 0xC3 Status.state
    else if s.upd.session.isSome then fin s hd 0xC3 Status.busy
    else
      let s := recWrite s 3 n fun r => { r with trial := true, trialSlot := n }
      let s := fin s hd 0xC3 Status.ok
      if inRecovery s && s.glb.bootSrc = 2 then bootImage s { i with vbatLost := false }
      else if flags = 1 then modUpd s fun u => { u with resetAt := some (s.now + ticksMs 10) }
      else s

/-- The end of CONFIRM_WINDOW (R534). -/
def windowEnd (s : State) : Nat := s.pwr.readyAt + ticksS (getW s Rg.updConfirmWin).toNat

/-- CONFIRM_WINDOW has ended (R534, R539): confirmation wins where its last condition comes true on the same tick, else the
    fallback record is written. Log entry 57. -/
def trialExpire (s : State) : State :=
  if !trialRuns s || s.now < windowEnd s then s
  else if s.now = windowEnd s && confirmOk s then confirmTrial s
  else
    let n := s.upd.running
    let s := recWrite s 6 n fun r => { r with trial := false, st := r.st.set n .failed }
    emit (modUpd s fun u => { u with expired := true }) .upd 0x0005 .degraded n.val (some 2)

/-- UPD_CONFIRM (R533, R539): a window that has ended is decided first. -/
def execUpdConfirm (hd : Hdr) (s : State) : Ans :=
  cmd s hd 0xC4 none fun s =>
    let s := trialExpire s
    if !trialRuns s then fin s hd 0xC4 Status.state
    else
      let s := modUpd s fun u => { u with hostConfirm := true }
      if confirmOk s then complete (confirmTrial s) hd 0xC4 Status.ok 1 1 else complete s hd 0xC4 Status.ok 1 0

/-- UPD_CLOSE (R528, R537). -/
def execUpdClose (hd : Hdr) (s : State) : Ans :=
  cmd s hd 0xC5 none fun s =>
    match hostSession s, s.upd.push with
    | some _, _ => fin (sessionEnd s Status.ok) hd 0xC5 Status.ok
    | none, some p =>
      if p.open_.isSome || p.verify.isSome then fin s hd 0xC5 Status.state
      else fin (linkSend (modUpd s fun u => { u with push := none }) p.link (.updEnd true)) hd 0xC5 Status.ok
    | none, none => fin s hd 0xC5 Status.state

/-- UPD_QUERY (R540). -/
def execUpdQuery (hd : Hdr) (s : State) : Ans :=
  cmd s hd 0xC6 none fun s =>
    let r := recNow s
    complete s hd 0xC6 Status.ok 28 (pack
      [(0, r.seq.toNat), (4, r.active.val), (5, flag r.trial 0), (6, r.trialSlot.val), (7, r.st[0].code), (8, r.st[1].code),
       (9, updHolder s), (10, s.upd.running.val), (11, s.key.floor.toNat), (12, r.fw[0].toNat), (16, r.fw[1].toNat),
       (20, match s.upd.session with | some x => x.written | none => 0),
       (24, if trialRuns s then sat32 ((windowEnd s - s.now) / ticksS 1) else 0)])

/-- UPD_ACTIVATE_RESET (R514, R531): 10 ms after the completion is written. -/
def execUpdActivateReset (i : StartIn) (s : State) : Ans :=
  .next (match s.upd.resetAt with
    | some t => if t ≤ s.now && !cplOwed s 0xC3 && !failWaits s then startRun s { i with rails := false, vbatLost := false } true else s
    | none => s)

/-- A write of the session waits at this tick: it wins over the session's timeout (R539). Log entry 34. -/
def updWriteWaits (s : State) (x : Session) : Bool :=
  match x.peer with
  | none => coreUp s 0 && s.pending.any fun c => match c with
    | .updWrite _ off len _ _ => writeFits x off.toNat len.toNat
    | _ => false
  | some l => linkWaits s l fun f => match f.body with
    | .updData off data => writeFits x off.toNat data.length && f.lseq = (Machine.link s l).rxSeq + 1
    | _ => false

/-- UPD_SESSION_TIMEOUT (R528, R539). -/
def execUpdSessionTimeout (s : State) : Ans :=
  .next (match s.upd.session with
    | some x => if x.lastWrite + ticksS (getW s Rg.updSessionTo).toNat ≤ s.now && !updWriteWaits s x then sessionEnd s Status.aborted else s
    | none => s)

/-- TRIAL_CONFIRM (R533). -/
def execTrialConfirm (s : State) : Ans := .next (if mainUp s && trialRuns s && confirmOk s then confirmTrial s else s)

/-- TRIAL_EXPIRED (R534, R539). -/
def execTrialExpired (s : State) : Ans := .next (trialExpire s)

end Sys2Proof.Machine
end

