-- ==== Sys2Proof/Machine/Dispatch.lean ====
section
/-! DEFINITION. The dispatch of every command to its meaning. -/
namespace Sys2Proof.Machine

def exec (i : Instr) (s : State) : Host.Outcome State Fault Refusal :=
  match i with
  | .nop hd => Sys2Proof.Machine.execNop hd s
  | .engineQuery hd => Sys2Proof.Machine.execEngineQuery hd s
  | .powerSet hd target => Sys2Proof.Machine.execPowerSet hd target s
  | .powerQuery hd => Sys2Proof.Machine.execPowerQuery hd s
  | .loopReset hd loop refLost => Sys2Proof.Machine.execLoopReset hd loop refLost s
  | .clockQuery hd => Sys2Proof.Machine.execClockQuery hd s
  | .timeGet hd => Sys2Proof.Machine.execTimeGet hd s
  | .timeSet hd sec ns frac teb => Sys2Proof.Machine.execTimeSet hd sec ns frac teb s
  | .timeStep hd ns frac => Sys2Proof.Machine.execTimeStep hd ns frac s
  | .timeSlew hd ns frac => Sys2Proof.Machine.execTimeSlew hd ns frac s
  | .freqSet hd w => Sys2Proof.Machine.execFreqSet hd w s
  | .tempSupply hd temp => Sys2Proof.Machine.execTempSupply hd temp s
  | .timeInvalidate hd => Sys2Proof.Machine.execTimeInvalidate hd s
  | .leapSet hd off pend leapAt => Sys2Proof.Machine.execLeapSet hd off pend leapAt s
  | .tebPublish => Sys2Proof.Machine.execTebPublish s
  | .dwellExpiry => Sys2Proof.Machine.execDwellExpiry s
  | .lockLapse => Sys2Proof.Machine.execLockLapse s
  | .leapDone => Sys2Proof.Machine.execLeapDone s
  | .tempFallback => Sys2Proof.Machine.execTempFallback s
  | .slewComplete => Sys2Proof.Machine.execSlewComplete s
  | .refsMeasurement slot off latch bound valid => Sys2Proof.Machine.execRefsMeasurement slot off latch bound valid s
  | .loopLoss loop ref => Sys2Proof.Machine.execLoopLoss loop ref s
  | .loopLocked loop => Sys2Proof.Machine.execLoopLocked loop s
  | .loopResetTimeout loop => Sys2Proof.Machine.execLoopResetTimeout loop s
  | .refWaitRetry count => Sys2Proof.Machine.execRefWaitRetry count s
  | .sramScrub store met double addr entry pass => Sys2Proof.Machine.execSramScrub store met double addr entry pass s
  | .slotActivityLapse slot => Sys2Proof.Machine.execSlotActivityLapse slot s
  | .monitorUpdate ppt => Sys2Proof.Machine.execMonitorUpdate ppt s
  | .slotQualify slot => Sys2Proof.Machine.execSlotQualify slot s
  | .wtrExpiry => Sys2Proof.Machine.execWtrExpiry s
  | .txnCommit => Sys2Proof.Machine.execTxnCommit s
  | .settleEnd => Sys2Proof.Machine.execSettleEnd s
  | .refusedClear slot => Sys2Proof.Machine.execRefusedClear slot s
  | .holdoverWordUpdate => Sys2Proof.Machine.execHoldoverWordUpdate s
  | .steerUpdate => Sys2Proof.Machine.execSteerUpdate s
  | .steerReply line => Sys2Proof.Machine.execSteerReply line s
  | .steerReplyTimeout => Sys2Proof.Machine.execSteerReplyTimeout s
  | .refQuery hd slot => Sys2Proof.Machine.execRefQuery hd slot s
  | .refLockout hd slot on => Sys2Proof.Machine.execRefLockout hd slot on s
  | .refForce hd slot => Sys2Proof.Machine.execRefForce hd slot s
  | .acceptStep hd slot mode maxNs => Sys2Proof.Machine.execAcceptStep hd slot mode maxNs s
  | .refSwitch hd slot => Sys2Proof.Machine.execRefSwitch hd slot s
  | .holdoverForce hd on => Sys2Proof.Machine.execHoldoverForce hd on s
  | .oscSet hd code => Sys2Proof.Machine.execOscSet hd code s
  | .rankSet hd slot rank ovr => Sys2Proof.Machine.execRankSet hd slot rank ovr s
  | .ageReset hd => Sys2Proof.Machine.execAgeReset hd s
  | .gspPortFail port rate rateHz => Sys2Proof.Machine.execGspPortFail port rate rateHz s
  | .gspClkOk port rateHz => Sys2Proof.Machine.execGspClkOk port rateHz s
  | .acqSearchDone rise fall => Sys2Proof.Machine.execAcqSearchDone rise fall s
  | .carrierLock obs => Sys2Proof.Machine.execCarrierLock obs s
  | .pullInTimeout chan => Sys2Proof.Machine.execPullInTimeout chan s
  | .channelLoss chan obs => Sys2Proof.Machine.execChannelLoss chan obs s
  | .reacqTimeout chan => Sys2Proof.Machine.execReacqTimeout chan s
  | .symbolSync obs => Sys2Proof.Machine.execSymbolSync obs s
  | .towDecoded obs => Sys2Proof.Machine.execTowDecoded obs s
  | .measLatch obs => Sys2Proof.Machine.execMeasLatch obs s
  | .navPage chan page => Sys2Proof.Machine.execNavPage chan page s
  | .solutionDone group sol => Sys2Proof.Machine.execSolutionDone group sol s
  | .exclHoldExpiry group sys sv => Sys2Proof.Machine.execExclHoldExpiry group sys sv s
  | .gnssStart hd mask kind => Sys2Proof.Machine.execGnssStart hd mask kind s
  | .gnssStop hd mask => Sys2Proof.Machine.execGnssStop hd mask s
  | .acqSearch hd addr len req => Sys2Proof.Machine.execAcqSearch hd addr len req s
  | .chanPin hd port signal sv on => Sys2Proof.Machine.execChanPin hd port signal sv on s
  | .measRead hd seq addr len => Sys2Proof.Machine.execMeasRead hd seq addr len s
  | .navRead hd first count addr => Sys2Proof.Machine.execNavRead hd first count addr s
  | .navInject hd pages => Sys2Proof.Machine.execNavInject hd pages s
  | .posSet hd group x y z unc => Sys2Proof.Machine.execPosSet hd group x y z unc s
  | .surveyStart hd group => Sys2Proof.Machine.execSurveyStart hd group s
  | .solQuery hd group => Sys2Proof.Machine.execSolQuery hd group s
  | .svExclude hd sys sv on => Sys2Proof.Machine.execSvExclude hd sys sv on s
  | .gnssClear hd mask => Sys2Proof.Machine.execGnssClear hd mask s
  | .ppsOutEdge output => Sys2Proof.Machine.execPpsOutEdge output s
  | .pulseTrailingEdge output => Sys2Proof.Machine.execPulseTrailingEdge output s
  | .trigEdge pin => Sys2Proof.Machine.execTrigEdge pin s
  | .syncInEdge phase => Sys2Proof.Machine.execSyncInEdge phase s
  | .captureEdge pin rising phase => Sys2Proof.Machine.execCaptureEdge pin rising phase s
  | .ppsInEdge input rising phase => Sys2Proof.Machine.execPpsInEdge input rising phase s
  | .todMessage input msg => Sys2Proof.Machine.execTodMessage input msg s
  | .todWinExpiry input => Sys2Proof.Machine.execTodWinExpiry input s
  | .trigArm hd pin block => Sys2Proof.Machine.execTrigArm hd pin block s
  | .trigStop hd pin mode sec ns => Sys2Proof.Machine.execTrigStop hd pin mode sec ns s
  | .capRead hd count addr => Sys2Proof.Machine.execCapRead hd count addr s
  | .edgeRead hd count addr => Sys2Proof.Machine.execEdgeRead hd count addr s
  | .freqSync hd mask => Sys2Proof.Machine.execFreqSync hd mask s
  | .frameReceive port phase taken fecOk fecBad descs frame => Sys2Proof.Machine.execFrameReceive port phase taken fecOk fecBad descs frame s
  | .policing => Sys2Proof.Machine.execPolicing s
  | .kodCap => Sys2Proof.Machine.execKodCap s
  | .cookieRotateInstant => Sys2Proof.Machine.execCookieRotateInstant s
  | .cookieRetireInstant entry => Sys2Proof.Machine.execCookieRetireInstant entry s
  | .rlSweep => Sys2Proof.Machine.execRlSweep s
  | .cookieMint hd aead count keys addr len => Sys2Proof.Machine.execCookieMint hd aead count keys addr len s
  | .cookieKeyLoad hd entry slot keyId => Sys2Proof.Machine.execCookieKeyLoad hd entry slot keyId s
  | .cookieRotate hd entry sec ns => Sys2Proof.Machine.execCookieRotate hd entry sec ns s
  | .cookieKeyRetire hd entry sec ns => Sys2Proof.Machine.execCookieKeyRetire hd entry sec ns s
  | .rlQuery hd fam addr => Sys2Proof.Machine.execRlQuery hd fam addr s
  | .rlClear hd => Sys2Proof.Machine.execRlClear hd s
  | .ptpScheduledSend inst kind entry => Sys2Proof.Machine.execPtpScheduledSend inst kind entry s
  | .followUpSend => Sys2Proof.Machine.execFollowUpSend s
  | .grantExpiry entry kind => Sys2Proof.Machine.execGrantExpiry entry kind s
  | .grantRenewal inst idx kind => Sys2Proof.Machine.execGrantRenewal inst idx kind s
  | .grantRetry inst idx kind => Sys2Proof.Machine.execGrantRetry inst idx kind s
  | .announceReceiptTimeout inst ident => Sys2Proof.Machine.execAnnounceReceiptTimeout inst ident s
  | .delayReqSend inst => Sys2Proof.Machine.execDelayReqSend inst s
  | .secKeyRotateInstant entry => Sys2Proof.Machine.execSecKeyRotateInstant entry s
  | .secKeyRetireInstant entry => Sys2Proof.Machine.execSecKeyRetireInstant entry s
  | .authAlarm => Sys2Proof.Machine.execAuthAlarm s
  | .grantQuery hd inst fam addr udp => Sys2Proof.Machine.execGrantQuery hd inst fam addr udp s
  | .grantCancel hd entry inst => Sys2Proof.Machine.execGrantCancel hd entry inst s
  | .grantList hd first count addr => Sys2Proof.Machine.execGrantList hd first count addr s
  | .secKeyLoad hd entry slot spp alg keyId => Sys2Proof.Machine.execSecKeyLoad hd entry slot spp alg keyId s
  | .secKeyRotate hd entry sec ns => Sys2Proof.Machine.execSecKeyRotate hd entry sec ns s
  | .secKeyRetire hd entry sec ns => Sys2Proof.Machine.execSecKeyRetire hd entry sec ns s
  | .slaveQuery hd inst => Sys2Proof.Machine.execSlaveQuery hd inst s
  | .pauseExpiry port => Sys2Proof.Machine.execPauseExpiry port s
  | .pauseWdExpiry port => Sys2Proof.Machine.execPauseWdExpiry port s
  | .wdHoldExpiry port => Sys2Proof.Machine.execWdHoldExpiry port s
  | .txPauseSend port share => Sys2Proof.Machine.execTxPauseSend port share s
  | .esmcTimeout port => Sys2Proof.Machine.execEsmcTimeout port s
  | .esmcInfoSend port => Sys2Proof.Machine.execEsmcInfoSend port s
  | .esmcEventSend port => Sys2Proof.Machine.execEsmcEventSend port s
  | .portLinkUp port anDone speed => Sys2Proof.Machine.execPortLinkUp port anDone speed s
  | .portLinkDown port cut => Sys2Proof.Machine.execPortLinkDown port cut s
  | .hostTxFrame ring descs data => Sys2Proof.Machine.execHostTxFrame ring descs data s
  | .wakeMatch frame => Sys2Proof.Machine.execWakeMatch frame s
  | .portQuery hd port => Sys2Proof.Machine.execPortQuery hd port s
  | .modI2c hd bus addr rd len off width buf ack inTime data => Sys2Proof.Machine.execModI2c hd bus addr rd len off width buf ack inTime data s
  | .modMdio hd clause port dev reg data rd val => Sys2Proof.Machine.execModMdio hd clause port dev reg data rd val s
  | .portRestart hd port => Sys2Proof.Machine.execPortRestart hd port s
  | .linkAligned lk => Sys2Proof.Machine.execLinkAligned lk s
  | .linkHelloSend lk => Sys2Proof.Machine.execLinkHelloSend lk s
  | .linkRetrain lk => Sys2Proof.Machine.execLinkRetrain lk s
  | .linkFrameRx lk phase hostData frame => Sys2Proof.Machine.execLinkFrameRx lk phase hostData frame s
  | .timeReqSend lk => Sys2Proof.Machine.execTimeReqSend lk s
  | .exchangeLost lk => Sys2Proof.Machine.execExchangeLost lk s
  | .linkIdleSend lk => Sys2Proof.Machine.execLinkIdleSend lk s
  | .retryTimeout lk => Sys2Proof.Machine.execRetryTimeout lk s
  | .linkDeadTimeout lk => Sys2Proof.Machine.execLinkDeadTimeout lk s
  | .linkLockLoss lk => Sys2Proof.Machine.execLinkLockLoss lk s
  | .remoteTimeout => Sys2Proof.Machine.execRemoteTimeout s
  | .shelfReqPeriodic => Sys2Proof.Machine.execShelfReqPeriodic s
  | .linkErrors lk => Sys2Proof.Machine.execLinkErrors lk s
  | .linkQuery hd lk => Sys2Proof.Machine.execLinkQuery hd lk s
  | .linkRoleSet hd lk role flags => Sys2Proof.Machine.execLinkRoleSet hd lk role flags s
  | .linkRestart hd lk => Sys2Proof.Machine.execLinkRestart hd lk s
  | .shelfPin hd table pin num ident => Sys2Proof.Machine.execShelfPin hd table pin num ident s
  | .enumList hd table first addr count => Sys2Proof.Machine.execEnumList hd table first addr count s
  | .heartbeatSend => Sys2Proof.Machine.execHeartbeatSend s
  | .heartbeatMiss held => Sys2Proof.Machine.execHeartbeatMiss held s
  | .claimWaitExpiry => Sys2Proof.Machine.execClaimWaitExpiry s
  | .claimCheck low => Sys2Proof.Machine.execClaimCheck low s
  | .holdWatchdogLapse => Sys2Proof.Machine.execHoldWatchdogLapse s
  | .lineStuckLow => Sys2Proof.Machine.execLineStuckLow s
  | .pairCeremonyTimeout => Sys2Proof.Machine.execPairCeremonyTimeout s
  | .swapPeriodExpiry => Sys2Proof.Machine.execSwapPeriodExpiry s
  | .swapSelfCheck => Sys2Proof.Machine.execSwapSelfCheck s
  | .swapLastCall => Sys2Proof.Machine.execSwapLastCall s
  | .swapDrive => Sys2Proof.Machine.execSwapDrive s
  | .swapHandover => Sys2Proof.Machine.execSwapHandover s
  | .swapLineCheck low => Sys2Proof.Machine.execSwapLineCheck low s
  | .swapRequestSend => Sys2Proof.Machine.execSwapRequestSend s
  | .pairQuery hd => Sys2Proof.Machine.execPairQuery hd s
  | .pairBegin hd slot addr hash => Sys2Proof.Machine.execPairBegin hd slot addr hash s
  | .pairForget hd => Sys2Proof.Machine.execPairForget hd s
  | .pairSwap hd => Sys2Proof.Machine.execPairSwap hd s
  | .pairRelease hd => Sys2Proof.Machine.execPairRelease hd s
  | .pairResync hd => Sys2Proof.Machine.execPairResync hd s
  | .tamperDetect source => Sys2Proof.Machine.execTamperDetect source s
  | .invalidateCommit => Sys2Proof.Machine.execInvalidateCommit s
  | .keyMaterialZero => Sys2Proof.Machine.execKeyMaterialZero s
  | .drbgReseed => Sys2Proof.Machine.execDrbgReseed s
  | .rngFail rep adapt => Sys2Proof.Machine.execRngFail rep adapt s
  | .entropyRestart ok => Sys2Proof.Machine.execEntropyRestart ok s
  | .drbgExhausted => Sys2Proof.Machine.execDrbgExhausted s
  | .keyQuery hd slot => Sys2Proof.Machine.execKeyQuery hd slot s
  | .keyGen hd slot attr => Sys2Proof.Machine.execKeyGen hd slot attr s
  | .keyImport hd slot wrap addr len blob => Sys2Proof.Machine.execKeyImport hd slot wrap addr len blob s
  | .keyDerive hd slot parent kdf attr addr len ctx => Sys2Proof.Machine.execKeyDerive hd slot parent kdf attr addr len ctx s
  | .keyExport hd slot wrap addr len => Sys2Proof.Machine.execKeyExport hd slot wrap addr len s
  | .keyInvalidate hd slot => Sys2Proof.Machine.execKeyInvalidate hd slot s
  | .keyAttest hd slot nonceAddr addr nonce => Sys2Proof.Machine.execKeyAttest hd slot nonceAddr addr nonce s
  | .keyPublic hd slot addr => Sys2Proof.Machine.execKeyPublic hd slot addr s
  | .keySign hd slot dAddr addr digest => Sys2Proof.Machine.execKeySign hd slot dAddr addr digest s
  | .keyProvision hd addr hit => Sys2Proof.Machine.execKeyProvision hd addr hit s
  | .keyTamperRead hd addr => Sys2Proof.Machine.execKeyTamperRead hd addr s
  | .tamperClear hd mask active => Sys2Proof.Machine.execTamperClear hd mask active s
  | .doorbell off value => Sys2Proof.Machine.execDoorbell off value s
  | .commandFetch ring desc => Sys2Proof.Machine.execCommandFetch ring desc s
  | .commandComplete => Sys2Proof.Machine.execCommandComplete s
  | .modTimeExpiry ring => Sys2Proof.Machine.execModTimeExpiry ring s
  | .blockIrqHoldoffEnd blk => Sys2Proof.Machine.execBlockIrqHoldoffEnd blk s
  | .flr loss gen width => Sys2Proof.Machine.execFlr loss gen width s
  | .remoteWindowAccess off be data => Sys2Proof.Machine.execRemoteWindowAccess off be data s
  | .ringEnable ring word => Sys2Proof.Machine.execRingEnable ring word s
  | .registerWrite addr data => Sys2Proof.Machine.execRegisterWrite addr data s
  | .sqClear blk word => Sys2Proof.Machine.execSqClear blk word s
  | .rcRead addr => Sys2Proof.Machine.execRcRead addr s
  | .indDataAccess blk be data => Sys2Proof.Machine.execIndDataAccess blk be data s
  | .mbxGo word => Sys2Proof.Machine.execMbxGo word s
  | .mbxDataReady => Sys2Proof.Machine.execMbxDataReady s
  | .mbxAck word => Sys2Proof.Machine.execMbxAck word s
  | .glbLockWrite word => Sys2Proof.Machine.execGlbLockWrite word s
  | .testKeyWrite word => Sys2Proof.Machine.execTestKeyWrite word s
  | .testWindowClose => Sys2Proof.Machine.execTestWindowClose s
  | .parityScrub bad => Sys2Proof.Machine.execParityScrub bad s
  | .porRelease inp => Sys2Proof.Machine.execPorRelease inp s
  | .powerDownDomains => Sys2Proof.Machine.execPowerDownDomains s
  | .pwrFail => Sys2Proof.Machine.execPwrFail s
  | .thermalSample junction vcore => Sys2Proof.Machine.execThermalSample junction vcore s
  | .thermalShutdown => Sys2Proof.Machine.execThermalShutdown s
  | .coreHalt core cause => Sys2Proof.Machine.execCoreHalt core cause s
  | .railWarn rail high => Sys2Proof.Machine.execRailWarn rail high s
  | .pwrSwrstWrite word => Sys2Proof.Machine.execPwrSwrstWrite word s
  | .softReset inp => Sys2Proof.Machine.execSoftReset inp s
  | .updOpen hd mode link slot => Sys2Proof.Machine.execUpdOpen hd mode link slot s
  | .updWrite hd off len addr data => Sys2Proof.Machine.execUpdWrite hd off len addr data s
  | .updVerify hd => Sys2Proof.Machine.execUpdVerify hd s
  | .updActivate hd slot flags inp => Sys2Proof.Machine.execUpdActivate hd slot flags inp s
  | .updConfirm hd => Sys2Proof.Machine.execUpdConfirm hd s
  | .updClose hd => Sys2Proof.Machine.execUpdClose hd s
  | .updQuery hd => Sys2Proof.Machine.execUpdQuery hd s
  | .updActivateReset inp => Sys2Proof.Machine.execUpdActivateReset inp s
  | .updSessionTimeout => Sys2Proof.Machine.execUpdSessionTimeout s
  | .trialConfirm => Sys2Proof.Machine.execTrialConfirm s
  | .trialExpired => Sys2Proof.Machine.execTrialExpired s
  | .dumpLatch desc => Sys2Proof.Machine.execDumpLatch desc s
  | .sampleTake core insn addr latency due trap => Sys2Proof.Machine.execSampleTake core insn addr latency due trap s
  | .sampleLost => Sys2Proof.Machine.execSampleLost s
  | .pantryCommit readBack => Sys2Proof.Machine.execPantryCommit readBack s
  | .chktestGo word => Sys2Proof.Machine.execChktestGo word s
  | .chktestEnd detected => Sys2Proof.Machine.execChktestEnd detected s
  | .perfWrapClrWrite word => Sys2Proof.Machine.execPerfWrapClrWrite word s
  | .bar2Access off data len => Sys2Proof.Machine.execBar2Access off data len s
  | .histRead hd id addr => Sys2Proof.Machine.execHistRead hd id addr s
  | .pantryRead hd part first addr len => Sys2Proof.Machine.execPantryRead hd part first addr len s
  | .dumpNow hd desc => Sys2Proof.Machine.execDumpNow hd desc s
  | .sampleStart hd mask mode period thresh => Sys2Proof.Machine.execSampleStart hd mask mode period thresh s
  | .sampleStop hd => Sys2Proof.Machine.execSampleStop hd s
  | .registerRead addr len => Sys2Proof.Machine.execRegisterRead addr len s
  | .freqOutEdge output => Sys2Proof.Machine.execFreqOutEdge output s
  | .activeNReadHigh => Sys2Proof.Machine.execActiveNReadHigh s
  | .dmaReadCompletion hd slot cause => Sys2Proof.Machine.execDmaReadCompletion hd slot cause s
  | .pwrFailNHigh => Sys2Proof.Machine.execPwrFailNHigh s
  | .bootThermalHoldEnd junction => Sys2Proof.Machine.execBootThermalHoldEnd junction s

end Sys2Proof.Machine
end

