-- ==== Sys2Proof/Machine/Tick.lean ====
section
/-! DEFINITION. The idle tick: what one TIME tick brings about whatever is commanded (02_time_core.md R31, R38;
16_faults_diagnostics.md R560, R568). DESIGN CHOICE (entry 1): an empty queue lets time pass. -/
namespace Sys2Proof.Machine

/-- Cycles per TIME tick of the domains that counters 1 to 6 count (R11, R560): CORE, CTL, GBB, HOST, LINK and PERI as
    fractions of 500 MHz. -/
def domainRatio : List (Nat × Nat × Nat) :=
  [(1, 12, 5), (2, 8, 5), (3, 4, 5), (4, 2, 1), (5, 40283, 50000), (6, 1, 5)]

/-- The cycle counters of one TIME tick (R560). Log entry 1. -/
def tickCycles (s : State) : State :=
  domainRatio.foldl (fun s r => perfAdd s r.1 ((s.now + 1) * r.2.1 / r.2.2 - s.now * r.2.1 / r.2.2)) (perfAdd s 0 1)

/-- MDLL-T has locked since the start: the counter runs, in RECOVERY and in the holds as well (R35, R497, R505).
    Log entry 1. -/
def timeRuns (s : State) : Bool := (loop s 0).locked || (loop s 0).coasting

/-- The AON domain gets `n` TIME ticks further: 32,768 cycles to 500,000,000 ticks. -/
def aonAdvance (s : State) (n : Nat) : State :=
  let f := s.aonFrac + n * 32768
  let k := f / 500000000
  let s := { s with aon := s.aon + k, aonFrac := f % 500000000 }
  if timeRuns s then perfAdd s 7 k else s

/-- The main domains' part of a tick: the counter advances, cycles are counted, a whole second enters the pantry's
    figures where core 0 holds them, and a channel whose transmit time the time base resolves becomes READY (R31, R146,
    R508, R560, R568, R574). Log entries 1, 39. -/
def mainTick (s : State) : State :=
  let s := fixReadyAll (tickCycles (tickCounter s))
  if (s.now + 1) % 500000000 = 0 && coreUp s 0 then modFig s fun f => { f with stateS := figAdd f.stateS s.pwr.state.code 1 } else s

/-- Host commands that TCO put off come to the queue with the tick (R74). Log entry 34. -/
def tcoLater (s : State) : State :=
  if s.tco.later.isEmpty then s
  else { modTco s fun t => { t with later := [] } with pending := s.pending ++ s.tco.later }

/-- TIME ticks to the next AON cycle. -/
def toAonCycle (s : State) : Nat := ceilDiv (500000000 - s.aonFrac % 500000000) 32768

/-- Time passes on an empty queue (entry 1): one TIME tick, or in Simmer and Off one AON cycle. A POWER_SET out of Boil goes
    on with it (R493). -/
def idleTick (s : State) : State :=
  if s.pwr.state = .simmer || s.pwr.state = .off then
    let n := toAonCycle s
    { aonAdvance s n with now := s.now + n }
  else
    let s := if timeRuns s then mainTick s else s
    let s : State := tcoLater { aonAdvance s 1 with now := s.now + 1 }
    transEval (if s.glb.mbx.busy && decide (s.glb.mbx.dueBy ≤ s.now) then mbxReady s else s)

end Sys2Proof.Machine
end

