-- ==== Sys2Proof/Safety.lean ====
section
/-! DEFINITION. What claims call a safe run, the invariants that statements name, and the shapes of next states that
statements share. -/
namespace Sys2Proof.Safety
open Sys2Proof.Machine

/-- Stored words stand in canonical form: rising keys, and none equal to its reset value. -/
def wordsCanonical (s : State) : Bool := awf (fun k => BitVec.ofNat 32 (wordReset k)) s.words

/-- The counter is below its modulus of 2^48 seconds (R603). -/
def counterBound (s : State) : Bool := decide (s.tco.counter < counterMod)

/-- A run of `n` steps that meets no fault and no refusal. -/
def runs : Nat → State → Prop
  | 0, _ => True
  | n + 1, s => ∃ t, step s = .next t ∧ runs n t

/-- A host command reaches its executor: the engine is READY, the core that executes the opcode runs, and no FLR has
    discarded the command's completion (R444, R454, R507, R516). -/
structure Accepts (s : State) (hd : Hdr) (op : Nat) : Prop where
  ready : s.pwr.phase = .ready
  core : opRuns s op = true
  kept : s.hif.discard.contains hd = false

/-- The state in which a command has completed with a status and a result, and nothing else has changed (R439). -/
def answered (s : State) (hd : Hdr) (op : Nat) (status : BitVec 8) (rlen result : Nat) : State :=
  { s with hif := { s.hif with
    inflight := s.hif.inflight.filter (fun p => p.1 != hd),
    done := s.hif.done ++ [{ hd := hd, op := BitVec.ofNat 8 op, status := status, rlen := rlen, result := result }] } }

/-- The last completion that waits is this command's, with this status. -/
def Ends (t : State) (hd : Hdr) (op : Nat) (status : BitVec 8) : Prop :=
  ∃ rlen result, t.hif.done.getLast? =
    some { hd := hd, op := BitVec.ofNat 8 op, status := status, rlen := rlen, result := result }

/-- What a record, its interrupt and its class bring about leaves the rest of the engine as it was: only queues and rings
    toward the host, counters, the pantry, frames under way, the role line and the outputs' pins can differ (R547 to
    R556, R364, R368). -/
structure RecordsOnly (s t : State) : Prop where
  pending : t.pending = s.pending
  now : t.now = s.now
  aon : t.aon = s.aon
  aonFrac : t.aonFrac = s.aonFrac
  freeCtr : t.freeCtr = s.freeCtr
  words : t.words = s.words
  mismatch : t.mismatch = s.mismatch
  glb : t.glb = s.glb
  mem : t.mem = s.mem
  clk : t.clk = s.clk
  pwr : t.pwr = s.pwr
  ctl : t.ctl = s.ctl
  upd : t.upd = s.upd
  tco : t.tco = s.tco
  refs : t.refs = s.refs
  gbb : t.gbb = s.gbb
  svc : t.svc = s.svc
  ptp : t.ptp = s.ptp
  eth : t.eth = s.eth
  key : t.key = s.key
  hif : t.hif = { s.hif with rings := t.hif.rings, pba := t.hif.pba }
  perf : t.perf = { s.perf with cnt := t.perf.cnt, chain := t.perf.chain, wrap := t.perf.wrap }
  tio : t.tio = { s.tio with outs := t.tio.outs }

/-- The parts of the state that operations touch as a whole. -/
inductive Part where
  | pending | time | free | out | words | mismatch | glb | mem | clk | pwr | ctl | upd | tco | refs | gbb | svc | ptp
  | eth | key | pan | log
  /-- The pair's role line and the line's own times; the rest of PAIR. -/
  | line | pair
  /-- The links' own states; the rest of LNK. -/
  | links | lnk
  /-- The rings' indices and the pending-bit array; the rest of HIF. -/
  | rings | hif
  /-- The counters; the rest of PERF. -/
  | cnt | perf
  /-- The outputs' pins; the rest of TIO. -/
  | outs | tio
  deriving DecidableEq, Repr

/-- A part is the same in two states. -/
def Part.same : Part → State → State → Prop
  | .pending, s, t => t.pending = s.pending
  | .time, s, t => t.now = s.now ∧ t.aon = s.aon ∧ t.aonFrac = s.aonFrac
  | .free, s, t => t.freeCtr = s.freeCtr
  | .out, s, t => t.out = s.out
  | .words, s, t => t.words = s.words
  | .mismatch, s, t => t.mismatch = s.mismatch
  | .glb, s, t => t.glb = s.glb
  | .mem, s, t => t.mem = s.mem
  | .clk, s, t => t.clk = s.clk
  | .pwr, s, t => t.pwr = s.pwr
  | .ctl, s, t => t.ctl = s.ctl
  | .upd, s, t => t.upd = s.upd
  | .tco, s, t => t.tco = s.tco
  | .refs, s, t => t.refs = s.refs
  | .gbb, s, t => t.gbb = s.gbb
  | .svc, s, t => t.svc = s.svc
  | .ptp, s, t => t.ptp = s.ptp
  | .eth, s, t => t.eth = s.eth
  | .key, s, t => t.key = s.key
  | .pan, s, t => t.pan = s.pan
  | .log, s, t => t.log = s.log
  | .line, s, t => t.pair.line = s.pair.line ∧ t.pair.drive = s.pair.drive ∧ t.pair.holding = s.pair.holding ∧
      t.pair.highAt = s.pair.highAt ∧ t.pair.lowAt = s.pair.lowAt ∧ t.pair.driveAt = s.pair.driveAt ∧
      t.pair.demotedAt = s.pair.demotedAt
  | .pair, s, t => t.pair = { s.pair with line := t.pair.line, drive := t.pair.drive, holding := t.pair.holding, highAt := t.pair.highAt, lowAt := t.pair.lowAt, driveAt := t.pair.driveAt, demotedAt := t.pair.demotedAt }
  | .links, s, t => t.lnk.links = s.lnk.links
  | .lnk, s, t => t.lnk = { s.lnk with links := t.lnk.links }
  | .rings, s, t => t.hif.rings = s.hif.rings ∧ t.hif.pba = s.hif.pba
  | .hif, s, t => t.hif = { s.hif with rings := t.hif.rings, pba := t.hif.pba }
  | .cnt, s, t => t.perf.cnt = s.perf.cnt ∧ t.perf.chain = s.perf.chain ∧ t.perf.wrap = s.perf.wrap
  | .perf, s, t => t.perf = { s.perf with cnt := t.perf.cnt, chain := t.perf.chain, wrap := t.perf.wrap }
  | .outs, s, t => t.tio.outs = s.tio.outs
  | .tio, s, t => t.tio = { s.tio with outs := t.tio.outs }


/-- What a record, its interrupt and its class can reach (RecordsOnly). -/
def records : List Part := [.out, .log, .pan, .line, .links, .rings, .cnt, .outs]

/-- The parts that each command or event can reach; every other part of the state stays as it was. -/
def touched (c : Sys2Proof.Instr) : List Part :=
  match c with
  | .nop .. | .engineQuery .. | .powerQuery .. | .clockQuery .. | .timeGet .. | .refQuery .. | .solQuery .. |
    .rlQuery .. | .grantQuery .. | .slaveQuery .. | .portQuery .. | .linkQuery .. | .pairQuery .. | .updQuery .. =>
      [.hif]
  | .powerSet .. =>
      [.free, .pwr, .tco, .refs, .svc, .ptp, .eth, .pair, .lnk, .hif] ++ records
  | .loopReset .. | .loopResetTimeout .. =>
      [.clk, .hif]
  | .timeSet .. | .timeStep .. =>
      [.tco, .refs, .gbb, .pair, .hif, .perf, .tio] ++ records
  | .timeSlew .. | .leapSet .. | .slewComplete =>
      [.tco, .hif] ++ records
  | .freqSet .. | .timeInvalidate .. | .refSwitch .. =>
      [.tco, .refs, .hif] ++ records
  | .tempSupply .. =>
      [.tco, .hif]
  | .tebPublish | .dwellExpiry | .lockLapse | .holdoverWordUpdate =>
      [.tco, .refs] ++ records
  | .leapDone | .tempFallback =>
      [.tco] ++ records
  | .refsMeasurement .. | .ppsInEdge .. | .todMessage .. | .todWinExpiry .. =>
      [.free, .tco, .refs, .gbb, .pair, .lnk, .hif, .perf, .tio] ++ records
  | .loopLoss .. =>
      [.clk, .tco, .refs] ++ records
  | .loopLocked .. =>
      [.clk, .tco, .refs, .hif] ++ records
  | .refWaitRetry .. | .pwrFailNHigh =>
      [.free, .words, .mismatch, .glb, .mem, .clk, .pwr, .ctl, .upd, .tco, .refs, .gbb, .svc, .ptp, .eth, .key,
       .pair, .lnk, .hif, .perf, .tio] ++ records
  | .sramScrub .. =>
      [.free, .mem, .ctl, .gbb, .svc, .ptp, .eth, .pair] ++ records
  | .slotActivityLapse .. | .monitorUpdate .. | .slotQualify .. | .wtrExpiry | .settleEnd | .refusedClear .. |
    .steerUpdate | .refForce .. | .acceptStep .. | .holdoverForce .. | .rankSet .. =>
      [.tco, .refs, .lnk, .hif] ++ records
  | .txnCommit =>
      [.tco, .refs, .gbb, .pair, .lnk, .hif, .perf, .tio] ++ records
  | .steerReply .. | .steerReplyTimeout =>
      [.refs, .hif] ++ records
  | .refLockout .. =>
      [.words, .mismatch, .tco, .refs, .pair, .lnk, .hif] ++ records
  | .oscSet .. =>
      [.out, .refs, .hif, .cnt]
  | .ageReset .. =>
      [.refs, .hif]
  | .gspPortFail .. | .gspClkOk .. | .exclHoldExpiry .. =>
      [.gbb] ++ records
  | .acqSearchDone .. =>
      [.out, .gbb, .links, .hif, .cnt]
  | .carrierLock .. | .pullInTimeout .. | .reacqTimeout .. | .symbolSync .. | .towDecoded .. =>
      [.gbb]
  | .channelLoss .. =>
      [.gbb, .cnt]
  | .measLatch .. =>
      [.words, .mismatch, .gbb] ++ records
  | .navPage .. =>
      [.tco, .gbb, .pair] ++ records
  | .solutionDone .. =>
      [.free, .words, .mismatch, .tco, .refs, .gbb, .pair, .lnk, .hif, .perf, .tio] ++ records
  | .gnssStart .. | .gnssStop .. | .acqSearch .. | .chanPin .. | .surveyStart .. | .gnssClear .. =>
      [.gbb, .hif]
  | .measRead .. | .navRead .. | .grantList .. | .enumList .. | .keyPublic .. | .keyTamperRead .. | .histRead .. |
    .pantryRead .. =>
      [.out, .links, .hif, .cnt]
  | .navInject .. =>
      [.tco, .gbb, .pair, .hif] ++ records
  | .posSet .. =>
      [.words, .mismatch, .gbb, .hif]
  | .svExclude .. =>
      [.gbb, .hif] ++ records
  | .ppsOutEdge .. | .captureEdge .. | .freqOutEdge .. =>
      [.tio] ++ records
  | .pulseTrailingEdge .. =>
      [.out, .outs]
  | .trigEdge .. =>
      [.pair, .tio] ++ records
  | .syncInEdge .. =>
      [.outs, .tio]
  | .trigArm .. =>
      [.out, .pair, .links, .lnk, .hif, .cnt, .tio]
  | .trigStop .. =>
      [.pair, .hif, .tio] ++ records
  | .capRead .. | .edgeRead .. =>
      [.out, .links, .hif, .cnt, .tio]
  | .freqSync .. =>
      [.hif, .tio]
  | .frameReceive .. =>
      [.free, .tco, .refs, .gbb, .svc, .ptp, .eth, .key, .pair, .lnk, .hif, .perf, .tio] ++ records
  | .policing | .kodCap =>
      [.svc] ++ records
  | .cookieRotateInstant | .cookieRetireInstant .. =>
      [.svc, .key, .pair] ++ records
  | .rlSweep =>
      [.svc]
  | .cookieMint .. =>
      [.out, .svc, .key, .links, .lnk, .hif, .cnt]
  | .cookieKeyLoad .. | .cookieRotate .. | .cookieKeyRetire .. =>
      [.svc, .key, .pair, .hif] ++ records
  | .rlClear .. =>
      [.svc, .key, .hif, .cnt]
  | .ptpScheduledSend .. =>
      [.free, .ptp, .eth, .pair] ++ records
  | .followUpSend | .grantRenewal .. | .grantRetry .. | .delayReqSend .. | .pauseExpiry .. | .pauseWdExpiry .. |
    .esmcInfoSend .. | .esmcEventSend .. =>
      [.free, .ptp, .eth] ++ records
  | .grantExpiry .. =>
      [.out, .ptp, .pair, .links, .cnt]
  | .announceReceiptTimeout .. =>
      [.free, .tco, .refs, .ptp, .eth, .lnk, .hif] ++ records
  | .secKeyRotateInstant .. | .secKeyRetireInstant .. | .claimCheck .. =>
      [.ptp, .key, .pair] ++ records
  | .authAlarm =>
      [.ptp] ++ records
  | .grantCancel .. =>
      [.free, .ptp, .eth, .pair, .hif] ++ records
  | .secKeyLoad .. | .secKeyRotate .. | .secKeyRetire .. =>
      [.ptp, .key, .pair, .hif] ++ records
  | .wdHoldExpiry .. =>
      [.eth]
  | .txPauseSend .. =>
      [.out, .eth, .cnt]
  | .esmcTimeout .. =>
      [.tco, .refs, .eth, .lnk, .hif] ++ records
  | .portLinkUp .. =>
      [.eth] ++ records
  | .portLinkDown .. | .portRestart .. =>
      [.tco, .refs, .svc, .ptp, .eth, .lnk, .hif] ++ records
  | .hostTxFrame .. =>
      [.free, .ptp, .eth, .lnk, .hif] ++ records
  | .wakeMatch .. =>
      [.out, .eth]
  | .modI2c .. =>
      [.out, .links, .lnk, .hif, .cnt]
  | .modMdio .. =>
      [.out, .hif]
  | .linkAligned .. | .linkRetrain .. | .exchangeLost .. =>
      [.links]
  | .linkHelloSend .. =>
      [.out, .links]
  | .linkFrameRx .. | .remoteWindowAccess .. | .registerWrite .. | .sqClear .. | .rcRead .. | .indDataAccess .. |
    .mbxGo .. | .mbxAck .. | .glbLockWrite .. | .testKeyWrite .. | .pwrSwrstWrite .. | .chktestGo .. |
    .perfWrapClrWrite .. | .registerRead .. =>
      [.free, .words, .mismatch, .glb, .mem, .pwr, .upd, .tco, .refs, .gbb, .svc, .ptp, .eth, .key, .pair, .lnk,
       .hif, .perf, .tio] ++ records
  | .timeReqSend .. =>
      [.free, .out, .links, .cnt]
  | .linkIdleSend .. =>
      [.out, .links, .cnt]
  | .retryTimeout .. | .linkDeadTimeout .. | .linkLockLoss .. | .linkRestart .. =>
      [.upd, .pair, .lnk, .hif] ++ records
  | .remoteTimeout | .dmaReadCompletion .. =>
      [.hif] ++ records
  | .shelfReqPeriodic =>
      [.out, .links, .lnk, .cnt]
  | .linkErrors .. | .pantryCommit .. | .activeNReadHigh =>
      records
  | .linkRoleSet .. =>
      [.upd, .tco, .refs, .pair, .lnk, .hif] ++ records
  | .shelfPin .. =>
      [.links, .lnk, .hif]
  | .heartbeatSend | .swapRequestSend =>
      [.out, .pair, .links, .cnt]
  | .heartbeatMiss .. | .swapSelfCheck | .swapLastCall | .pairSwap .. | .pairRelease .. =>
      [.pair, .hif] ++ records
  | .claimWaitExpiry | .swapDrive =>
      [.out, .line, .pair]
  | .holdWatchdogLapse =>
      [.out, .line, .outs]
  | .lineStuckLow | .swapPeriodExpiry =>
      [.pair] ++ records
  | .pairCeremonyTimeout | .swapLineCheck .. | .pairResync .. =>
      [.key, .pair, .hif] ++ records
  | .swapHandover =>
      [.out, .line, .pair, .outs]
  | .pairBegin .. =>
      [.out, .key, .pair, .links, .lnk, .hif, .cnt]
  | .pairForget .. =>
      [.key, .pair, .hif]
  | .tamperDetect .. | .drbgExhausted | .keyProvision .. =>
      [.svc, .ptp, .eth, .key, .pair, .hif] ++ records
  | .invalidateCommit =>
      [.svc, .ptp, .key, .pair, .hif] ++ records
  | .keyMaterialZero | .entropyRestart .. =>
      [.key]
  | .drbgReseed =>
      [.key, .cnt]
  | .rngFail .. =>
      [.key] ++ records
  | .keyQuery .. =>
      [.hif, .cnt]
  | .keyGen .. | .keyInvalidate .. =>
      [.key, .hif, .cnt]
  | .keyImport .. | .keyDerive .. | .keyAttest .. | .keySign .. =>
      [.out, .key, .links, .lnk, .hif, .cnt]
  | .keyExport .. =>
      [.out, .key, .links, .hif, .cnt]
  | .tamperClear .. =>
      [.key, .hif] ++ records
  | .doorbell .. =>
      [.hif, .perf] ++ records
  | .commandFetch .. =>
      [.lnk, .hif] ++ records
  | .commandComplete =>
      [.out, .pwr, .upd, .links, .rings, .hif, .cnt]
  | .modTimeExpiry .. =>
      [.out, .links, .rings, .cnt]
  | .blockIrqHoldoffEnd .. =>
      [.out, .log, .links, .rings, .cnt]
  | .flr .. =>
      [.words, .mismatch, .hif] ++ records
  | .ringEnable .. =>
      [.free, .words, .mismatch, .upd, .tco, .refs, .gbb, .svc, .ptp, .eth, .pair, .lnk, .hif, .perf, .tio] ++
       records
  | .mbxDataReady | .testWindowClose =>
      [.glb]
  | .parityScrub .. =>
      [.mismatch, .tco, .refs, .lnk, .hif] ++ records
  | .porRelease .. | .softReset .. | .updActivateReset .. =>
      [.time, .free, .words, .mismatch, .glb, .mem, .clk, .pwr, .ctl, .upd, .tco, .refs, .gbb, .svc, .ptp, .eth,
       .key, .pair, .lnk, .hif, .perf, .tio] ++ records
  | .powerDownDomains | .pwrFail | .thermalShutdown =>
      [.words, .mismatch, .glb, .mem, .clk, .pwr, .ctl, .upd, .tco, .refs, .gbb, .svc, .ptp, .eth, .key, .pair,
       .lnk, .hif, .perf, .tio] ++ records
  | .thermalSample .. =>
      [.pwr, .tco] ++ records
  | .coreHalt .. =>
      [.ctl] ++ records
  | .railWarn .. =>
      [.pwr] ++ records
  | .updOpen .. | .updVerify .. | .updClose .. =>
      [.upd, .hif] ++ records
  | .updWrite .. =>
      [.out, .upd, .links, .lnk, .hif, .cnt]
  | .updActivate .. | .bootThermalHoldEnd .. =>
      [.free, .words, .mismatch, .glb, .mem, .pwr, .ctl, .upd, .tco, .refs, .gbb, .svc, .ptp, .eth, .key, .pair,
       .lnk, .hif, .perf, .tio] ++ records
  | .updConfirm .. =>
      [.upd, .key, .hif] ++ records
  | .updSessionTimeout =>
      [.upd] ++ records
  | .trialConfirm | .trialExpired =>
      [.upd, .key] ++ records
  | .dumpLatch .. | .dumpNow .. =>
      [.free, .lnk, .hif, .perf] ++ records
  | .sampleTake .. =>
      [.out, .links, .rings, .cnt, .perf]
  | .sampleLost =>
      [.perf] ++ records
  | .chktestEnd .. =>
      [.mem] ++ records
  | .bar2Access .. =>
      [.free, .perf] ++ records
  | .sampleStart .. | .sampleStop .. =>
      [.hif, .perf]

end Sys2Proof.Safety
end

