-- ==== Sys2Proof/Certificates/Slice0/Obligations.lean ====
section
/-! DEFINITION. The statements for the provers, family by family. -/
open Sys2Proof
open Sys2Proof.Machine
open Sys2Proof.Safety

/-! ## The machine -/

/-- A step runs the command at the front of the queue on the state with the queue's rest. -/
def Obligations.StepRunsFront : Prop :=
  ∀ (c : Instr) (rest : List Instr) (s : State),
    step { s with pending := c :: rest } = exec c { s with pending := rest }

/-- On an empty queue time passes: one TIME tick, or in Simmer and Off one AON cycle (entry 1, the model's choice). -/
def Obligations.IdleStepTakesTime : Prop :=
  ∀ s : State, s.pending = [] → s.aonFrac < 500000000 → ∃ t, step s = .next t ∧
    ((s.pwr.state = .warm ∨ s.pwr.state = .boil) → t.now = s.now + 1) ∧
    ((s.pwr.state = .simmer ∨ s.pwr.state = .off) → t.aon = s.aon + 1)

/-- R31, R34, R35, R603: while MDLL-T runs, one TIME tick adds 2 ns and the applied word, in units of 2^-48 ns, modulo 2^48 seconds. -/
def Obligations.TickAddsIncrement : Prop :=
  ∀ s : State, s.pending = [] → timeRuns s = true → (s.pwr.state = .warm ∨ s.pwr.state = .boil) → s.pwr.trans = none →
    (∃ t, step s = .next t ∧
      (t.tco.counter : Int) = ((s.tco.counter : Int) + 2 ^ 49 + appliedWord s) % (2 ^ 48 * 1000000000 * 2 ^ 48)) ∧
    (s.tco.slew = none → s.tco.wOver = 0 → s.tco.owed = 0 → -wMax ≤ s.tco.w → s.tco.w ≤ wMax → appliedWord s = s.tco.w)

/-- Every command has an effect: no step faults and none is refused. -/
def Obligations.EveryStepHasNext : Prop :=
  ∀ s : State, ∃ t, step s = .next t

/-- R460, R603: every step keeps the stored words in canonical form and the counter below 2^48 seconds. -/
def Obligations.EveryStepKeepsForm : Prop :=
  ∀ s t : State, wordsCanonical s = true → counterBound s = true → step s = .next t →
    wordsCanonical t = true ∧ counterBound t = true

/-- The frame of every command: what Safety.touched does not list for it is as before. -/
def Obligations.CommandsTouchOnly : Prop :=
  ∀ (c : Instr) (s t : State), exec c s = .next t → ∀ p : Part, p ∉ touched c → Part.same p s t

/-- R491, R494, R504, R531: only POWER_SET (and its end, POWER_DOWN_DOMAINS), a start (a release of POR_N, or a reset of the engine that acts as one),
    a power failure and a thermal shutdown change the power state.
    The model's readings in it, which are no rule of the spec: log entries 53, 54. -/
def Obligations.PowerStateHeld : Prop :=
  ∀ (c : Instr) (s t : State), exec c s = .next t → t.pwr.state ≠ s.pwr.state →
    (∃ hd target, c = .powerSet hd target) ∨ c = .powerDownDomains ∨ c = .pwrFail ∨ c = .thermalShutdown ∨
    (∃ i, c = .porRelease i) ∨ (∃ i, c = .softReset i) ∨ (∃ i, c = .updActivateReset i)

/-- The invariant of EveryStepKeepsForm holds at reset. -/
def Obligations.ResetHasForm : Prop :=
  wordsCanonical State.reset = true ∧ counterBound State.reset = true

/-- R30, R35, R51, R62, R361, R434, R478: what reset leaves where the spec gives a value: an empty queue, the counter and W at 0, an unbounded TEB, the
    state NIGHT, every word at its row's reset value, no ring running, every loop unlocked, no slot active, no slot held, the line not driven, every SEQ 0
    and history empty.
    The model's readings in it, which are no rule of the spec: log entry 6. -/
def Obligations.ResetLeaves : Prop :=
  State.reset.pending = [] ∧ State.reset.tco.counter = 0 ∧ State.reset.tco.w = 0 ∧
  State.reset.tco.teb = 0xFFFFFFFF ∧ State.reset.tco.st = .night ∧ State.reset.pwr.phase = .reset ∧
  (∀ k : Nat, getW State.reset k = BitVec.ofNat 32 (wordReset k)) ∧
  (∀ r : Fin 15, ringEn State.reset r.val = false) ∧
  (∀ l : Fin 4, (loop State.reset l.val).locked = false) ∧
  (∀ i : Fin 16, (slot State.reset i).active = false ∧ (slot State.reset i).qualified = false) ∧
  State.reset.refs.timeSlot = none ∧ State.reset.pair.holding = false ∧ State.reset.pair.drive = false ∧
  (∀ b : Blk, (blkStat State.reset b).seq = 0 ∧ (blkStat State.reset b).hist = [])

/-- A stored word reads back what was last written, every other word is as before, and the parity mark goes (R460, R467). -/
def Obligations.WordsReadBack : Prop :=
  ∀ (s : State) (k : Nat) (v : Word), wordsCanonical s = true →
    getW (putW s k v) k = v ∧ (∀ j, j ≠ k → getW (putW s k v) j = getW s j) ∧
    wordsCanonical (putW s k v) = true ∧ k ∉ (putW s k v).mismatch

/-! ## Records -/

/-- R478: an event of a block sets its status bit and advances SEQ modulo 256; a write {SEQ, mask} of the status register
    clears the bits in mask where SEQ is the current one and the read mark of R479 stands, and is ignored without any record
    otherwise; a clear leaves SEQ. (PERF's own events are left out of the first clause: its drop notice can come first; the
    second is for a block without unacknowledged faults and outside its safe state; the last is for every block: it names what
    an acknowledgement brings about, R469, R550.) -/
def Obligations.SequenceClear : Prop :=
  (∀ (s : State) (b : Blk) (code : Nat) (cls : Cls) (detail : Nat) (i : Nat), b ≠ .perf → i < 24 →
    (blkStat (emit s b code cls detail (some i)) b).seq = (blkStat s b).seq + 1 ∧
    (blkStat (emit s b code cls detail (some i)) b).bits.getLsbD i = true ∧
    (blkStat (emit s b code cls detail (some i)) b).readMark = false) ∧
  (∀ (s : State) (b : Blk) (seq : BitVec 8) (mask : BitVec 24), s.glb.pcie = true → s.hif.linkUp = true → regUp s b = true →
    (blkStat s b).unack = [] → safe s b = false → (blkStat s b).readMark = true → seq = (blkStat s b).seq →
    exec (.sqClear b (seq ++ mask)) s = .next (modBlk s b fun k => { k with bits := k.bits &&& ~~~mask, unack := [] })) ∧
  (∀ (s : State) (b : Blk) (seq : BitVec 8) (mask : BitVec 24), s.glb.pcie = true → s.hif.linkUp = true → regUp s b = true →
    ((blkStat s b).readMark = false ∨ seq ≠ (blkStat s b).seq) → exec (.sqClear b (seq ++ mask)) s = .next s) ∧
  (∀ (s : State) (b : Blk) (word : Word), s.glb.pcie = true → s.hif.linkUp = true → regUp s b = true →
    exec (.sqClear b word) s = .next (sqClear s b word))

/-- A record of any block and class touches no state but what records reach: the frame of every command that reports. -/
def Obligations.RecordsTouchOnlyRecords : Prop :=
  ∀ (s : State) (b : Blk) (code : Nat) (cls : Cls) (detail : Nat) (bit : Option Nat),
    RecordsOnly s (emit s b code cls detail bit)

/-- Commands are taken from their rings, completions written, interrupts fired.
    - R433, R352: on a PCIe engine a write to host memory is one transfer of the bytes at the address; nothing else changes but a performance counter.
    - R438, R441, R443, R455: HIF takes the next descriptor of the ring whose turn it is, once three entries of the completion ring are free for it
      (those that a doorbell of this tick frees count) and no FENCE holds it: it joins the commands under way, or where it is malformed completes
      MALFORMED, and the ring's index moves by one. In RECOVERY ring 0 is served.
    - R439, R440, R455: the completion that has waited longest of those whose ring has room, with the entries that the doorbells of this tick free, is
      written and leaves the list, and what runs from its writing begins.
    - R452: an entry that has waited MOD_TIME fires its ring's interrupt and both counts restart; the holdoff of a block's interrupt ends, and an
      interrupt that it covered fires.
    The model's readings in it, which are no rule of the spec: log entry 41. -/
def Obligations.CommandPath : Prop :=
  (∀ (s : State) (addr : Nat) (data : List Byte), s.glb.pcie = true →
    (hostDma s addr data).out = .dma addr data :: s.out ∧
    hostDma s addr data = { s with out := (hostDma s addr data).out, perf := (hostDma s addr data).perf }) ∧
  (∀ (ring_ : Fin 4) (desc : BitVec 256) (s u : State), u = takeDoorbells s (4 + ring_.val) →
    (s.pwr.phase = .ready ∧ ringAhead u ring_ = false ∨ s.pwr.phase = .recovery ∧ ring_ = 0) → ringOffers u ring_ = true →
    ((descByte desc 1).testBit 0 = false ∨ ringTaken u ring_ = 0) →
    (cmdMalformed desc = false → ∃ t, exec (.commandFetch ring_ desc) s = .next t ∧
      t.hif.inflight = s.hif.inflight ++ [(Hdr.mk ring_ (BitVec.ofNat 16 (descByte desc 2 + 256 * descByte desc 3))
        ((descByte desc 1).testBit 1), BitVec.ofNat 8 (descByte desc 0))] ∧
      (ring t ring_.val).eng = (ring s ring_.val).eng + 1 ∧ t.hif.turn = ring_ ∧ t.hif.done = s.hif.done ∧ t.words = s.words ∧ t.tco = s.tco) ∧
    (cmdMalformed desc = true → ∃ t, exec (.commandFetch ring_ desc) s = .next t ∧ t.hif.inflight = s.hif.inflight ∧
      Ends t (Hdr.mk ring_ (BitVec.ofNat 16 (descByte desc 2 + 256 * descByte desc 3)) ((descByte desc 1).testBit 1)) (descByte desc 0) Status.malformed ∧
      (ring t ring_.val).eng = (ring s ring_.val).eng + 1 ∧ t.words = s.words ∧ t.tco = s.tco)) ∧
  ((∀ (s u : State) (i : Nat) (d : Done), u = [4, 5, 6, 7].foldl takeDoorbells s → u.hif.done.findIdx? (cplReady u) = some i → u.hif.done[i]? = some d →
    exec .commandComplete s = .next (cplTimers (cplWrite { u with hif := { u.hif with done := u.hif.done.eraseIdx i } } d) d)) ∧
  (∀ (s : State) (d : Done) (rest : List Done), s.pending = [] → s.hif.done = d :: rest → cplReady s d = true →
    ∃ t, exec .commandComplete s = .next t ∧ t.hif.done = rest ∧ t.hif.inflight = s.hif.inflight ∧
      (ring t (4 + d.hd.ring.val)).eng = (ring s (4 + d.hd.ring.val)).eng + BitVec.ofNat 32 (cplNeed s d) ∧
      t.words = s.words ∧ t.tco = s.tco ∧ t.log = s.log)) ∧
  ((∀ (r : Fin 15) (s : State) (t0 : Nat), (ring s r.val).since = some t0 →
    t0 + ticksUs (fld (ringWord s r.val 5) 25 16) ≤ s.now →
    ∃ t, exec (.modTimeExpiry r) s = .next t ∧ t = fireSrc (modRing s r.val fun k => { k with cnt := 0, since := none }) (ringSrc r.val) ∧
      (ring t r.val).cnt = 0 ∧ (ring t r.val).since = none) ∧
  (∀ (b : Blk) (s : State) (u : Nat), (blkStat s b).irqUntil = some u → u ≤ s.now →
    (((blkStat s b).irqPend = false → ∃ t, exec (.blockIrqHoldoffEnd b) s = .next t ∧ (blkStat t b).irqUntil = none) ∧
     ((blkStat s b).irqPend = true → ∃ t, exec (.blockIrqHoldoffEnd b) s = .next t ∧
        (blkStat t b).irqUntil = some (s.now + ticksUs 10) ∧ (blkStat t b).irqPend = false))))

/-! ## Host interface -/

/-- R445, R515, R71: NOP, ENGINE_QUERY, POWER_QUERY, CLOCK_QUERY and TIME_GET answer with what their tables name (of CLOCK_QUERY the first word) and
    change nothing else.
    The model's readings in it, which are no rule of the spec: log entry 64. -/
def Obligations.EngineQueriesAnswer : Prop :=
  ∀ (hd : Hdr) (s : State),
    (Accepts s hd 0x00 → exec (.nop hd) s = .next (answered s hd 0x00 Status.ok 16 (tsNow s).toNat)) ∧
    (Accepts s hd 0x01 → exec (.engineQuery hd) s = .next (answered s hd 0x01 Status.ok 18 (pack
      [(0, Config.identity.toNat), (8, s.ctl.fw.toNat), (12, 0x0B), (13, s.pwr.state.code), (14, (nodeId s).toNat),
       (16, flag (acting s) 0 + flag s.glb.pcie 1), (17, s.upd.running.val)]))) ∧
    (Accepts s hd 0x11 → exec (.powerQuery hd) s = .next (answered s hd 0x11 Status.ok 14 (pack
      [(0, s.pwr.state.code), (1, s.pwr.phase.code), (2, s.pwr.junction.toNat), (4, s.pwr.cause.toNat),
       (8, sat32 ((s.now - s.pwr.readyAt) / ticksS 1)), (12, s.pwr.railOk.toNat)]))) ∧
    (Accepts s hd 0x13 → ∃ r, exec (.clockQuery hd) s = .next (answered s hd 0x13 Status.ok 24 r) ∧ r % 2 ^ 32 = clkStateWord s % 2 ^ 32) ∧
    (Accepts s hd 0x20 → exec (.timeGet hd) s = .next (answered s hd 0x20 Status.ok 24 (pack
      [(0, (tsNow s).toNat), (16, uInt 64 (appliedWord s))])))

/-- A doorbell moves the host's index of a running ring, a rise of EN starts a ring at 0, a Function Level Reset disables every ring.
    - R435, R437, R455: a doorbell of the host's own slot for a ring that runs, and that no write of this tick disables, becomes the host's index
      where its value lies within the ring on the proper side and does not move back; the event and sample rings then drain; another value is counted
      and reported; a doorbell of another slot is forwarded, and one at an offset without a ring is counted.
    - R434: a rise of EN starts a ring with both indices 0; while EN is 1 a write keeps SIZE_LOG. Every write of the word is one of a stored word,
      with what a ring's words bring about.
    - R454: a Function Level Reset, or the loss of the PCIe link, of a primary disables every ring, ends the commands' completions, closes the window
      and clears the MSI-X words; time, references and outputs continue; a link that was lost comes up again. (With POR_N released at the same tick
      the whole engine resets, R602.)
    The model's readings in it, which are no rule of the spec: log entry 40. -/
def Obligations.RingsAndDoorbells : Prop :=
  ((∀ (s : State) (off : Nat) (v : BitVec 32) (r : Nat), s.glb.pcie = true → s.hif.linkUp = true → regUp s .hif = true →
    off < 0x4000 → dbRing (off / 0x1000) (off % 0x1000) = some r → ringEn s r = true → ringCutWaits s r = false →
    (r ≠ 8 → r ≠ 10 → dbOk s r v = true → ∃ t, exec (.doorbell off v) s = .next t ∧ (ring t r).host = v ∧ (ring t r).eng = (ring s r).eng ∧
      (∀ q, q ≠ r → ring t q = ring s q) ∧ t.hif.cnt = s.hif.cnt ∧ t.log = s.log ∧ t.tco = s.tco ∧ t.words = s.words) ∧
    (r ≠ 8 → r ≠ 10 → dbOk s r v = false → ∃ t, exec (.doorbell off v) s = .next t ∧ (ring t r).host = (ring s r).host ∧
      t.hif.cnt = vmod s.hif.cnt 1 (· + 1) ∧ (blkStat t .hif).seq = (blkStat s .hif).seq + 1) ∧
    (r = 8 → dbOk s r v = true → exec (.doorbell off v) s = .next (evDrain (modRing (perfAdd s 338 1) r fun k => { k with host := v }))) ∧
    (r = 10 → dbOk s r v = true → exec (.doorbell off v) s = .next (sampleDrain (modRing (perfAdd s 338 1) r fun k => { k with host := v })))) ∧
  (∀ (s : State) (off : Nat) (v : BitVec 32), s.glb.pcie = true → s.hif.linkUp = true → regUp s .hif = true → off < 0x100000 →
    (∀ r : Nat, 0x4000 ≤ off → dbRing (off / 0x1000 % 4) (off % 0x1000) = some r → exec (.doorbell off v) s =
      .next (forwardDoorbell s (off / 0x4000) r v)) ∧
    (dbRing (off / 0x1000 % 4) (off % 0x1000) = none → exec (.doorbell off v) s =
      .next { s with hif := { s.hif with cnt := vmod s.hif.cnt 1 (· + 1) } }))) ∧
  ((∀ (s : State) (r : Fin 15) (size : Nat), wordsCanonical s = true → s.glb.pcie = true → s.hif.linkUp = true → regUp s .hif = true →
    standbyHeld s = false → mirrorOn s = false → 6 ≤ size → size ≤ 16 → r.val ≠ 8 → r.val ≠ 10 → ringEn s r.val = false →
    ∃ t, exec (.ringEnable r (BitVec.ofNat 32 (256 + size))) s = .next t ∧ ring t r.val = Ring.reset ∧ ringEn t r.val = true ∧
      ringSize t r.val = 2 ^ size ∧ (∀ q, q ≠ r.val → ring t q = ring s q) ∧ t.tco = s.tco) ∧
  (∀ (s : State) (r : Fin 15) (word : Word), s.glb.pcie = true → s.hif.linkUp = true → regUp s .hif = true →
    exec (.ringEnable r word) s = .next (storeWord s (indKey .hif 1 (8 * r.val + 4)) word))) ∧
  ((∀ (s : State) (loss : Bool) (gen width : BitVec 4), wordsCanonical s = true → s.glb.pcie = true → s.hif.linkUp = true → regUp s .hif = true →
    s.pending.any porReset = false →
    ∃ t, exec (.flr loss gen width) s = .next t ∧ (∀ r : Fin 15, ringEn t r.val = false) ∧
      t.hif.done = [] ∧ t.hif.inflight = [] ∧ t.hif.linkUp = (!loss || gen != 0) ∧
      (getW t Rg.hifWinSel).getLsbD 8 = false ∧ (∀ v : Fin 64, rb t (0xE8000 + 16 * v.val + 12) 0 = true) ∧
      t.tco = s.tco ∧ t.refs = s.refs ∧ t.svc = s.svc ∧ t.ptp = s.ptp ∧ t.eth = s.eth) ∧
  (∀ (s : State) (gen width : BitVec 4), s.glb.pcie = true → s.hif.linkUp = false → regUp s .hif = true → s.pending.any porReset = false → gen ≠ 0 →
    exec (.flr true gen width) s = .next { s with hif := { s.hif with linkUp := true, gen := gen, width := width } }))

/-- R350, R429, R443: a window access of slot 0 acts on this engine's own register, one of a slot with a route leaves as a tunnelled access that waits for
    its REG_CPL 20 µs, and one without a route is counted and a read returns all ones; a DMA read that ends in an error ends the
    command it was for ABORTED, of a cascaded slot it is answered with an error, and a read that gives its data changes nothing.
    The model's readings in it, which are no rule of the spec: log entries 27, 38. -/
def Obligations.WindowAndDmaEnd : Prop :=
  (∀ (s : State) (off : Nat) (be : BitVec 4) (data : Option Word), s.glb.pcie = true → s.hif.linkUp = true →
    regUp s .hif = true → off < 0x200000 → off % 4 = 0 → (getW s Rg.hifWinSel).getLsbD 8 = true →
    (fld (getW s Rg.hifWinSel).toNat 5 0 = 0 → exec (.remoteWindowAccess off be data) s = .next (ownUnit s (0x200000 + off) off be.toNat data)) ∧
    (∀ l : Fin 4, fld (getW s Rg.hifWinSel).toNat 5 0 ≠ 0 → routeTo s (fld (getW s Rg.hifWinSel).toNat 5 0) = some l → rb s Rg.hifCtrl 1 = true →
      s.hif.slots.getLsbD (fld (getW s Rg.hifWinSel).toNat 5 0) = true → ∃ t a, exec (.remoteWindowAccess off be data) s = .next t ∧
        t.hif.remote = s.hif.remote ++ [a] ∧ a.slot = fld (getW s Rg.hifWinSel).toNat 5 0 ∧ a.addr = 0x200000 + off ∧ a.write = data.isSome ∧ a.be = be ∧
        a.tag = s.lnk.dmaTag ∧ a.deadline = s.now + ticksUs 20 ∧ t.words = s.words ∧ t.tco = s.tco) ∧
    (fld (getW s Rg.hifWinSel).toNat 5 0 ≠ 0 → routeTo s (fld (getW s Rg.hifWinSel).toNat 5 0) = none → ∃ t, exec (.remoteWindowAccess off be data) s = .next t ∧
      t.hif = { s.hif with cnt := vmod s.hif.cnt 4 (· + 1) } ∧ t.words = s.words)) ∧
  (∀ (s : State) (hd : Hdr) (slot_ : BitVec 6) (cause : BitVec 4), regUp s .hif = true → cause ≠ 0 → cause.toNat ≤ 4 →
    (∀ op : BitVec 8, slot_.toNat = ownSlot s → s.hif.inflight.find? (fun c => c.1 = hd) = some (hd, op) → s.hif.discard.contains hd = false →
    ∃ t, exec (.dmaReadCompletion hd slot_ cause) s = .next t ∧ Ends t hd op.toNat Status.aborted ∧
      t.hif.inflight = s.hif.inflight.filter (fun p => p.1 != hd) ∧ t.hif.cnt = vmod s.hif.cnt 2 (· + 1) ∧
      t.words = s.words ∧ t.tco = s.tco) ∧
    (∀ l : Fin 4, slot_.toNat ≠ ownSlot s → routeTo s slot_.toNat = some l → ∃ t, exec (.dmaReadCompletion hd slot_ cause) s = .next t ∧
      t.hif.inflight = s.hif.inflight ∧ t.hif.cnt = vmod s.hif.cnt 2 (· + 1) ∧ (blkStat t .hif).bits.getLsbD 2 = true ∧ t.words = s.words ∧ t.tco = s.tco)) ∧
  (∀ (s : State) (hd : Hdr) (slot_ : BitVec 6), exec (.dmaReadCompletion hd slot_ 0) s = .next s)

/-! ## Registers -/

/-- R373, R377, R463: a full write of a stored register stores the value that its row's range rules give and changes no other register
    and nothing else (the blocks whose stored registers have no further effect); a mirrored word is not a standby's host's to write, and the active mirrors what it stored. -/
def Obligations.FullWriteStores : Prop :=
  ∀ (s : State) (b : Blk) (k : Nat) (d : WordDef) (v : Word), (b = .svc ∨ b = .pair ∨ b = .upd ∨ b = .pwr) →
    s.glb.pcie = true → s.hif.linkUp = true → regUp s b = true → k % 4 = 0 → k / 0x10000 = Blk.id b → mapped k = true → (storedRegs b).lookup k = some d →
    (s.glb.lock = false ∨ d.lk = false) →
    (standbyHeld s = false ∨ mirroredKeys.contains k = false → mirrorOn s = false ∨ mirroredKeys.contains k = false →
      exec (.registerWrite k (leBytes 4 v.toNat)) s = .next (putW s k (d.store v))) ∧
    (standbyHeld s = true → mirroredKeys.contains k = true → exec (.registerWrite k (leBytes 4 v.toNat)) s = .next (emit s .pair 0x000D .notice (keyOffset k) none)) ∧
    (mirrorOn s = true → mirroredKeys.contains k = true → exec (.registerWrite k (leBytes 4 v.toNat)) s =
      .next (mirrorSend (putW s k (d.store v)) (.word k (getW (putW s k (d.store v)) k))))

/-- LK registers under LOCK and registers of a domain that is down.
    - R471: with LOCK at 1 a full write of an LK register is dropped with WRITE_LOCKED: every register keeps its value.
    - R463, R466: a unit whose block's domain is down reads all ones and writes nothing, with DOMAIN_DOWN.
    The model's readings in it, which are no rule of the spec: log entry 35. -/
def Obligations.LockedAndDownUnits : Prop :=
  (∀ (s : State) (b : Blk) (k : Nat) (v : Word), s.glb.pcie = true → s.hif.linkUp = true → s.glb.lock = true →
    (regUp s b = true ∨ hasShadow k = true) → k % 4 = 0 → k / 0x10000 = Blk.id b → mapped k = true → isLk b k = true →
    ∃ t, exec (.registerWrite k (leBytes 4 v.toNat)) s = .next t ∧ t = accRec s 5 k 15 true false v.toNat ∧
      t.words = s.words ∧ t.glb = { s.glb with access := s.glb.access + 1 } ∧ t.pwr = s.pwr ∧ t.key = s.key) ∧
  (∀ (s : State) (b : Blk) (k : Nat) (v : Word), s.glb.pcie = true → s.hif.linkUp = true → regUp s b = false → hasShadow k = false →
    k % 4 = 0 → k / 0x10000 = Blk.id b → mapped k = true →
    exec (.registerRead k 4) s = .next (emitOut (accRec s 6 k 15 false false 0) (.read k 0xFFFFFFFF)) ∧
    exec (.registerWrite k (leBytes 4 v.toNat)) s = .next (accRec s 6 k 15 true false v.toNat))

/-- Full reads of direct registers and of IND_DATA.
    - R460, R462, R463, R479: a full read of a direct register returns its value; of a status register it sets the read mark; of a clear-on-read
      register it zeroes it. An access of any length acts unit by unit, in address order.
    - R472, R473: a full read of IND_DATA returns the stored word that IND_ADDR names, and with AINC the index advances by one, wrapping at 24 bits,
      and nothing else changes; without AINC nothing changes. A full read of any word, and a full write, act as the word's kind says. -/
def Obligations.ReadsReturn : Prop :=
  ((∀ (s : State) (b : Blk) (k : Nat), s.glb.pcie = true → s.hif.linkUp = true → regUp s b = true → k % 4 = 0 →
    k / 0x10000 = Blk.id b → mapped k = true → k % 0x10000 ≠ 0x84 →
    exec (.registerRead k 4) s = .next (emitOut (readEffect s b k) (.read k (BitVec.ofNat 32 (readReg s b k)))) ∧
    (k % 0x10000 = 4 → (blkStat (readEffect s b k) b).readMark = true) ∧
    exec (.rcRead k) s = .next (emitOut (readEffect s b k) (.read k (BitVec.ofNat 32 (readReg s b k))))) ∧
  (∀ s : State, s.glb.pcie = true → s.hif.linkUp = true → regUp s .pwr = true →
    ∃ t, exec (.rcRead Rg.pwrRail) s = .next t ∧ t.pwr = { s.pwr with warned := 0 } ∧
      t.out = .read Rg.pwrRail (BitVec.ofNat 32 (readReg s .pwr Rg.pwrRail)) :: s.out) ∧
  (∀ s : State, s.glb.pcie = true → s.hif.linkUp = true → regUp s .tio = true →
    ∃ t, exec (.rcRead Rg.tioDrop) s = .next t ∧ t.tio = { s.tio with dropCap := 0, dropEdge := 0 } ∧
      t.out = .read Rg.tioDrop (BitVec.ofNat 32 (readReg s .tio Rg.tioDrop)) :: s.out) ∧
  (∀ (s : State) (addr len : Nat) (data : List Byte), s.glb.pcie = true → s.hif.linkUp = true →
    exec (.registerRead addr len) s = .next ((unitsOf addr len).foldl (fun s u => hostUnit s u.1 u.2 none) s) ∧
    exec (.registerWrite addr data) s =
      .next ((unitsOf addr data.length).foldl (fun s u => hostUnit s u.1 u.2 (some (unitWord addr data u.1))) s))) ∧
  (∀ (s : State) (b : Blk), s.glb.pcie = true → s.hif.linkUp = true → regUp s b = true → hasInd b = true → mapped (blkBase b + 0x84) = true →
    (∀ d : WordDef, indStored b (fld (indAddr s b) 31 24) (fld (indAddr s b) 23 0) = some d →
    ∃ t, exec (.indDataAccess b 15 none) s = .next t ∧
      t.out = .read (blkBase b + 0x84) (getW s (indKey b (fld (indAddr s b) 31 24) (fld (indAddr s b) 23 0))) :: s.out ∧
      (indAinc s b = false → t = { s with out := t.out }) ∧
      (indAinc s b = true → { t with out := s.out } = putW s (blkBase b + 0x80)
        (BitVec.ofNat 32 (fld (indAddr s b) 31 24 * 2 ^ 24 + (fld (indAddr s b) 23 0 + 1) % 2 ^ 24)))) ∧
    exec (.indDataAccess b 15 none) s = .next (emitOut (indRead s b 15 false).2 (.read (blkBase b + 0x84) (BitVec.ofNat 32 (indRead s b 15 false).1))) ∧
    (∀ v : Word, s.glb.lock = false → exec (.indDataAccess b 15 (some v)) s = .next (indWrite s b v false)))

/-- R475 to R477: GO latches the selected value and sets BUSY; the data then stands with VALID; ACK clears VALID and the data. GO on a selector that names
    nothing, or while the last value stands, acts as R476 and R477 say.
    The model's readings in it, which are no rule of the spec: log entry 39. -/
def Obligations.MailboxCycle : Prop :=
  (∀ (s : State) (w : Wide) (b : Blk) (word : Word), s.glb.pcie = true → s.hif.linkUp = true → regUp s .glb = true → word.getLsbD 0 = true →
    s.glb.mbx.busy = false → s.glb.mbx.valid = false → wideOf s (rf s Rg.glbMbxSel 15 0) = some w →
    blkOf (rf s Rg.glbMbxSel 15 0 / 256) = some b → regUp s b = true →
    ∃ t, exec (.mbxGo word) s = .next t ∧ 
      t.glb.mbx = Mbx.mk (BitVec.ofNat 16 (rf w.after Rg.glbMbxSel 15 0)) w.width false true false (BitVec.ofNat 128 w.value)
        (w.after.now + ticksUs 2)) ∧
  (∀ s : State, s.glb.mbx.busy = true → exec .mbxDataReady s =
    .next { s with glb := { s.glb with mbx := { s.glb.mbx with busy := false, valid := true } } }) ∧
  (∀ (s : State) (word : Word), s.glb.pcie = true → s.hif.linkUp = true → regUp s .glb = true → s.glb.mbx.valid = true →
    exec (.mbxAck word) s = .next { s with glb := { s.glb with mbx := { s.glb.mbx with valid := false, data := 0 } } }) ∧
  (∀ (s : State) (word : Word), s.glb.pcie = true → s.hif.linkUp = true → regUp s .glb = true → word.getLsbD 0 = true →
    exec (.mbxGo word) s = .next (mbxGo s false))

/-- R470, R471, R485, R504, R561: the first write of GLB_LOCK takes LOCK and no later one does; the checker test's key opens the
    window for 1 s; a write of PERF_WRAP_CLR clears every WRAP bit; the key of PWR_SWRST schedules the reset 1 µs on. -/
def Obligations.KeyedWrites : Prop :=
  ∀ (s : State) (w : Word), s.glb.pcie = true → s.hif.linkUp = true → regUp s .glb = true →
    (s.glb.lockWritten = false → ∃ t, exec (.glbLockWrite w) s = .next t ∧ t.glb = { s.glb with lockWritten := true, lock := w.getLsbD 0 } ∧
      t.words = s.words ∧ t.tco = s.tco) ∧
    (s.glb.lockWritten = true → exec (.glbLockWrite w) s = .next (accRec s 4 Rg.glbLock 15 true false w.toNat)) ∧
    (s.glb.lock = false → exec (.testKeyWrite w) s =
      .next { s with glb := { s.glb with testUntil := if w = 0x71207E57 then some (s.now + ticksS 1) else none } }) ∧
    (∀ u, s.glb.testUntil = some u → u ≤ s.now → exec .testWindowClose s = .next { s with glb := { s.glb with testUntil := none } }) ∧
    (regUp s .perf = true → exec (.perfWrapClrWrite w) s = .next { s with perf := { s.perf with wrap := 0 } }) ∧
    (regUp s .pwr = true → s.glb.lock = false → exec (.pwrSwrstWrite w) s = .next (if w = 0x71205A5A then
      { s with pwr := { s.pwr with swrst := some (s.now + ticksUs 1) } } else s))

/-- Parity marks, the scrubber, the user page and checker tests.
    - R467, R468: a stored word found with a mismatch is marked, its value stays in use, and a guarded word takes its block into its safe state (of
      REFS, whose safe state ends transactions, and of PERF the last clause says it); a pass that finds none changes only what R469 asks.
    - R21 to R23, R562, R578: the scrubber counts what it corrects and what it cannot, by the partition or store of its address, and ends its passes;
      BAR2 returns a counter while PERF_USER is 1, and 0 while it is 0, and a write changes nothing but what it is denied with.
    - R557, R558: GO starts a checker test while the window is open and no test runs, and the result then reads 1; a test ends with a TEST record and
      result 2, or with CHK_DEAD and result 3. A write of the register stores its fields, and GO outside the window reads 4.
    The model's readings in it, which are no rule of the spec: log entry 59. -/
def Obligations.MemoryFaultsAndTests : Prop :=
  ((∀ (s : State) (k : Nat) (b : Blk), keyBlk k = some b → b ≠ .refs → b ≠ .perf → s.mismatch = [] → hasParity k = true → regUp s b = true → writeWaits s k = false →
    ∃ t, exec (.parityScrub (some k)) s = .next t ∧ t.mismatch = [k] ∧ t.words = s.words ∧
      (keyGuarded k = true → (safeBit b).isSome = true → safe t b = true)) ∧
  (∀ s : State, exec (.parityScrub none) s = .next (allBlks.foldl safeAgain s)) ∧
  (∀ (s : State) (k : Nat) (b : Blk), keyBlk k = some b → hasParity k = true → (regUp s b = true ∨ hasShadow k = true) → s.mismatch = [] → writeWaits s k = false →
    exec (.parityScrub (some k)) s = .next (parityFault (allBlks.foldl safeAgain s) k b))) ∧
  ((∀ (s : State) (store : Option (Fin 3)) (addr : BitVec 32) (part : Fin 7) (entry : Nat), (s.pwr.phase = .ready ∨ s.pwr.phase = .recovery) →
    partAt store addr.toNat = some part →
    (∃ t, exec (.sramScrub store true false addr entry false) s = .next t ∧ t.words = s.words ∧
      t.mem = { s.mem with corr := s.mem.corr.set part (s.mem.corr[part] + 1) } ∧
      (blkStat t .mem).seq = (blkStat s .mem).seq + 1) ∧
    (∃ t, exec (.sramScrub store true true addr entry false) s = .next t ∧ t.mem.uncorr = s.mem.uncorr.set part (s.mem.uncorr[part] + 1) ∧
      t.mem.corr = s.mem.corr ∧ t.words = s.words) ∧
    (∀ double : Bool, exec (.sramScrub store true double addr entry false) s = .next (eccMeet s double part (store.getD 0) addr entry) ∧
      exec (.sramScrub store true double addr entry true) s = .next (perfAdd
        { eccMeet s double part (store.getD 0) addr entry with mem := { (eccMeet s double part (store.getD 0) addr entry).mem with
            scrub := sat32 ((eccMeet s double part (store.getD 0) addr entry).mem.scrub + 1) } } 396 1))) ∧
  (∀ (s : State) (store : Option (Fin 3)) (double : Bool) (addr : BitVec 32) (entry : Nat), (s.pwr.phase = .ready ∨ s.pwr.phase = .recovery) →
    ∃ t, exec (.sramScrub store false double addr entry true) s = .next t ∧ t.mem = { s.mem with scrub := sat32 (s.mem.scrub + 1) } ∧ t.log = s.log) ∧
  (∀ (s : State) (n : Nat), s.glb.pcie = true → s.hif.linkUp = true → n < 1024 → perfOpen n = false →
    (rb s Rg.perfCtrl 0 = true → exec (.bar2Access (4 * n) none 4) s =
      .next (emitOut s (.read (2 ^ 32 + 4 * n) (BitVec.ofNat 32 (aget 0 s.perf.cnt n))))) ∧
    (rb s Rg.perfCtrl 0 = false → ∃ t, exec (.bar2Access (4 * n) none 4) s = .next t ∧
      t.out.head? = some (.read (2 ^ 32 + 4 * n) 0) ∧ t.perf.sampling = s.perf.sampling ∧ t.words = s.words)) ∧
  (∀ (s : State) (off len : Nat) (data : List Byte), s.glb.pcie = true → s.hif.linkUp = true → off < 0x10000 →
    (rb s Rg.perfCtrl 0 = true → exec (.bar2Access off (some data) len) s = .next s ∧
      exec (.bar2Access off none len) s = .next ((unitsOf off len).foldl (fun s u => readOut (bar2Word s u.1).2 (2 ^ 32 + u.1) (beMask u.2 (bar2Word s u.1).1)) s)) ∧
    (rb s Rg.perfCtrl 0 = false → exec (.bar2Access off (some data) len) s = .next (userDenied s off true) ∧
      exec (.bar2Access off none len) s = .next ((unitsOf off len).foldl (fun s u => readOut (userDenied s off false) (2 ^ 32 + u.1) 0) s)))) ∧
  ((∀ (s : State) (w : Word), s.glb.pcie = true → s.hif.linkUp = true → regUp s .mem = true → s.glb.lock = false → standbyHeld s = false →
    w.getLsbD 31 = true → s.glb.testUntil ≠ none → s.pwr.state = .warm → s.mem.testBy = none →
    ∃ t, exec (.chktestGo w) s = .next t ∧ t.mem.result = 1 ∧ t.mem.testBy ≠ none ∧ t.tco = s.tco) ∧
  (∀ (s : State) (by_ : Nat) (w : Word) (b : Blk) (c : Cls), s.mem.testBy = some (by_, w) →
    checkerOf (fld w.toNat 23 20) (fld w.toNat 7 0) (w.getLsbD 19) = some (b, c) →
    (∃ t, exec (.chktestEnd true) s = .next t ∧ t.mem = { s.mem with testBy := none, result := 2 } ∧
      (blkStat t b).seq = (blkStat s b).seq ∧ t.words = s.words) ∧
    (∃ t, exec (.chktestEnd false) s = .next t ∧ t.mem = { s.mem with testBy := none, result := 3 } ∧
      (blkStat t .mem).seq = (blkStat s .mem).seq + 1 ∧ t.words = s.words)) ∧
  (∀ (s : State) (w : Word), s.glb.pcie = true → s.hif.linkUp = true → regUp s .mem = true → s.glb.lock = false →
    exec (.chktestGo w) s = .next (chkWrite s w)))

/-! ## Power, clocks and starts -/

/-- R492 to R494, R514: POWER_SET moves a Warm engine to Boil; out of Boil it stops the instances and goes on once the admitted answers have left; toward Off or
    Simmer it releases the line and completes, the domains going 10 ms later (entry 33, the model's reading), when POWER_DOWN_DOMAINS resets them but for
    the pantry's log and the key store's root. A power failure of the same tick comes first. -/
def Obligations.PowerSetMoves : Prop :=
  (∀ (s : State) (hd : Hdr), Accepts s hd 0x10 → s.pwr.state = .warm → s.pwr.down = none → s.pwr.trans = none → failWaits s = false →
    exec (.powerSet hd 3) s = .next (complete (toBoil s) hd 0x10 Status.ok 16 (tsNow s).toNat) ∧ (toBoil s).pwr.state = .boil) ∧
  (∀ (s u : State) (hd : Hdr) (code : BitVec 8) (target : PowerState), Accepts s hd 0x10 → s.pwr.state = .boil → s.pwr.down = none → s.pwr.trans = none →
    failWaits s = false → (code = 0 ∧ target = .off ∨ code = 1 ∧ target = .simmer ∨ code = 2 ∧ target = .warm) →
    u = leaveBoil { s with pwr := { s.pwr with trans := some (hd, target, s.now + ticksMs 10) } } →
    (answersGone u = true → exec (.powerSet hd code) s = .next (powerDone (toWarm { u with pwr := { u.pwr with trans := none } }) hd target)) ∧
    (answersGone u = false → exec (.powerSet hd code) s = .next u ∧ u.pwr.trans = some (hd, target, s.now + ticksMs 10))) ∧
  (∀ (s : State) (hd : Hdr), Accepts s hd 0x10 → s.pwr.state = .warm → s.pwr.down = none → s.pwr.trans = none → failWaits s = false →
    (∃ t, exec (.powerSet hd 0) s = .next t ∧ t.pwr.state = .warm ∧ t.pwr.down = some (.off, s.now + ticksMs 10) ∧ t.pair.holding = false ∧
      Ends t hd 0x10 Status.ok) ∧
    (∃ t, exec (.powerSet hd 1) s = .next t ∧ t.pwr.state = .warm ∧ t.pwr.down = some (.simmer, s.now + ticksMs 10) ∧ t.pair.holding = false ∧
      Ends t hd 0x10 Status.ok)) ∧
  (∀ (s : State) (target : PowerState) (t0 : Nat), s.pwr.down = some (target, t0) → t0 ≤ s.now → cplOwed s 0x10 = false →
    ∃ t, exec .powerDownDomains s = .next t ∧ t.pwr.state = target ∧ t.pwr.phase = .reset ∧ t.words = [] ∧ t.tco = Tco.reset ∧
      t.pan.log = s.pan.log ∧ t.key.root = s.key.root ∧ t.key.slots = [])

/-- R498 to R500, R514: a loop that loses lock or reference coasts from that tick, with LOOP_COAST; LOOP_RESET begins to relock it; it is then locked, and the
    command completes OK, or after 10 ms the command completes ABORTED and the loop is as before (a lock of that very tick wins).
    The model's readings in it, which are no rule of the spec: log entries 55, 64. -/
def Obligations.LoopsCoastAndRelock : Prop :=
  (∀ (s : State) (i : Fin 4) (ref : Bool), (loop s i.val).locked = true →
    ∃ t, exec (.loopLoss i ref) s = .next t ∧ (loop t i.val).locked = false ∧ coasting t i.val = true ∧
      (loop t i.val).refLoss = ref ∧ (loop t i.val).coastAt = s.now ∧ (blkStat t .clk).seq = (blkStat s .clk).seq + 1 ∧
      (blkStat t .clk).bits.getLsbD 0 = true ∧ t.tco.counter = s.tco.counter ∧ (i.val ≠ 0 → t.tco = s.tco)) ∧
  (∀ (s : State) (hd : Hdr) (i : Fin 4), Accepts s hd 0x12 → coasting s i.val = true → (loop s i.val).relock = none →
    exec (.loopReset hd (BitVec.ofNat 8 i.val) false) s =
      .next (modLoop s i.val fun k => { k with relock := some (hd, s.now + ticksMs 10) })) ∧
  (∀ (s : State) (hd : Hdr) (i : Fin 4) (u : Nat), (loop s i.val).relock = some (hd, u) → s.hif.discard.contains hd = false →
    (∃ t, exec (.loopLocked i) s = .next t ∧ (loop t i.val).locked = true ∧ coasting t i.val = false ∧ Ends t hd 0x12 Status.ok ∧
      t.tco.counter = s.tco.counter ∧ (i.val ≠ 0 → t.tco = s.tco)) ∧
    (u ≤ s.now → s.pending.contains (.loopLocked i) = false → ∃ t, exec (.loopResetTimeout i) s = .next t ∧ coasting t i.val = coasting s i.val ∧
      (loop t i.val).relock = none ∧ Ends t hd 0x12 Status.aborted ∧ t.tco = s.tco))

/-- R495, R496, R502, R505 to R507, R513, R514: a release of POR_N with PWR_FAIL_N low is held in reset; with no recognised REF it waits for one, with REF_WAIT,
    and measures it again each 100 ms; PWR_FAIL_N's rise and a recognised count go on with the start; with a Fatal latch it ends in FATAL_HOLD, with BOOT_SRC 1
    in RECOVERY; the thermal hold ends below 100 °C; a soft reset starts again, unless power fails at that tick.
    The model's readings in it, which are no rule of the spec: log entries 1, 46, 54. -/
def Obligations.StartsBegin : Prop :=
  (∀ (s : State) (i : StartIn), s.pwr.thermDead = false → s.pwr.pwrFailLow = true →
    ∃ t, exec (.porRelease i) s = .next t ∧ t.pwr.phase = .reset ∧ t.pwr.start = some i ∧ t.words = [] ∧ t.tco.st = .night ∧
      t.tco.teb = 0xFFFFFFFF ∧ t.pwr.state = .warm) ∧
  (∀ (s : State) (i : StartIn), s.pwr.thermDead = false → s.pwr.pwrFailLow = false → i.bootSrc ≠ 3 → refOf i.refCount = none →
    ∃ t, exec (.porRelease i) s = .next t ∧ t.pwr.phase = .waitRef ∧ t.pwr.start = some i ∧ t.clk.lastCount = i.refCount ∧
      (blkStat t .clk).bits.getLsbD 2 = true) ∧
  (∀ (s : State) (i : StartIn), s.pwr.start = some i → s.pwr.phase = .reset →
    exec .pwrFailNHigh s = .next (startGo { s with pwr := { s.pwr with pwrFailLow := false } } i)) ∧
  (∀ (s : State) (i : StartIn) (n : Nat), s.pwr.start = some i → s.pwr.phase = .waitRef → s.clk.countAt + ticksMs 100 ≤ s.now →
    exec (.refWaitRetry n) s = .next (startRef s { i with refCount := n })) ∧
  (∀ (s : State) (i : StartIn) (n : Nat) (r : BitVec 2), s.pwr.start = some i → s.pwr.phase = .waitRef → s.clk.countAt + ticksMs 100 ≤ s.now → refOf n = some r →
    s.log.fatal = true → ∃ t, exec (.refWaitRetry n) s = .next t ∧ t.pwr.phase = .fatalHold ∧ t.clk.refSel = r ∧
      (∀ l : Fin 4, (loop t l.val).locked = true)) ∧
  (∀ (s : State) (i : StartIn) (n : Nat) (r : BitVec 2), s.pwr.start = some i → s.pwr.phase = .waitRef → s.clk.countAt + ticksMs 100 ≤ s.now → refOf n = some r →
    s.log.fatal = false → s.pwr.cause.getLsbD 3 = false → s.glb.bootSrc = 1 → ∃ t, exec (.refWaitRetry n) s = .next t ∧ t.pwr.phase = .recovery ∧
      t.pwr.start = none ∧ coreUp t 0 = true ∧ (blkStat t .pwr).bits.getLsbD 1 = true) ∧
  (∀ (s : State) (i : StartIn) (j : BitVec 16), s.pwr.start = some i → s.pwr.phase = .rom → j.toInt < 1600 →
    exec (.bootThermalHoldEnd j) s =
      .next (startKeys { s with pwr := { s.pwr with junction := j, start := none } } { i with junction := j })) ∧
  (∀ (s : State) (i : StartIn) (u : Nat), s.pwr.swrst = some u → u ≤ s.now → failWaits s = false →
    exec (.softReset i) s = .next (startRun s { i with rails := false, vbatLost := false } true)) ∧
  (∀ (s : State) (i : StartIn), (s.pwr.thermDead = false ∨ i.rails = true) → exec (.porRelease i) s = .next (startRun s i false)) ∧
  (∀ s : State, (s.pwr.start = none ∨ s.pwr.phase ≠ .reset) → exec .pwrFailNHigh s = .next { s with pwr := { s.pwr with pwrFailLow := false } })

/-- Power failure, thermal shutdown, readings, rails and halted cores.
    - R510, R513: PWR_FAIL_N low, and a junction of 125 °C for 1 ms, release the line and leave the engine in Off with its domains reset, the cause
      noted for the next start.
    - R512, R516: a junction reading is kept with its peak; a rail out of tolerance and a halted core are recorded, and a halted core runs nothing.
    The model's readings in it, which are no rule of the spec: log entries 53, 55. -/
def Obligations.SupplyFaultsAct : Prop :=
  ((∀ s : State, ∃ t, exec .pwrFail s = .next t ∧ t.pwr.state = .off ∧ t.pwr.phase = .reset ∧ t.pwr.failed = true ∧ t.pwr.pf = true ∧
      t.pwr.pwrFailLow = true ∧ t.pair.holding = false ∧ t.pair.drive = false ∧ t.key.mask10 = true ∧ t.words = []) ∧
  (∀ s : State, mainUp s = true → hotOver s = true → ∃ t, exec .thermalShutdown s = .next t ∧ t.pwr.state = .off ∧
      t.pwr.therm = true ∧ t.pwr.thermDead = true ∧ t.pwr.failed = true ∧ t.pair.holding = false ∧ t.words = [])) ∧
  ((∀ (s : State) (j v : BitVec 16), mainUp s = true → ∃ t, exec (.thermalSample j v) s = .next t ∧ t.pwr.junction = j ∧
      t.pwr.peak = (if s.pwr.peak.toInt < j.toInt then j else s.pwr.peak) ∧ t.tco.counter = s.tco.counter ∧ t.words = s.words) ∧
  (∀ (s : State) (r : Fin 8) (high : Bool), mainUp s = true → ∃ t, exec (.railWarn r high) s = .next t ∧
      t.pwr.railOk = s.pwr.railOk &&& ~~~(BitVec.ofNat 8 (2 ^ r.val)) ∧ t.pwr.warned = s.pwr.warned ||| BitVec.ofNat 8 (2 ^ r.val) ∧
      (blkStat t .pwr).bits.getLsbD 3 = true ∧ t.tco = s.tco) ∧
  (∀ (s : State) (n : Fin 4) (cause : BitVec 2), mainUp s = true → cause ≠ 0 → ¬(cause = 3 ∧ n = 0) → coreUp s n.val = true →
    ∃ t, exec (.coreHalt n cause) s = .next t ∧ coreUp t n.val = false ∧ vget t.ctl.cause 0 n.val = cause ∧
      (∀ m : Fin 4, m ≠ n → coreUp t m.val = coreUp s m.val) ∧ (blkStat t .ctl).bits.getLsbD 0 = true ∧ t.tco = s.tco))

/-! ## Time core -/

/-- R42, R44: TEB30 is the TEB over 4, rounded up and saturating, and unbounded from 0xFFFFFFF9 on; the State field is the clock state's code, 0 to 4;
    a TS32 is seconds × 10^9 + nanoseconds modulo 2^32. -/
def Obligations.StampWords : Prop :=
  (∀ (c : Nat) (coast : Bool) (st : ClockState) (teb : BitVec 32),
    ((mkTs128 c coast st teb.toNat).extractLsb' 0 30).toNat = min ((teb.toNat + 3) / 4) 0x3FFFFFFF ∧
    (((mkTs128 c coast st teb.toNat).extractLsb' 0 30).toNat = 0x3FFFFFFF ↔ 0xFFFFFFF9 ≤ teb.toNat) ∧
    ((mkTs128 c coast st teb.toNat).extractLsb' 30 3).toNat = st.code ∧ st.code ≤ 4) ∧
  (∀ c : Nat, (ts32Of c).toNat = (secOf c * 1000000000 + nsOf c) % 2 ^ 32)

/-- R39, R74: a step while a host slew is in progress ends the slew: what is left of it is dropped, its command completes ABORTED, and the step is applied
    in full (a REFS step on the tick of a TIME_SET is left out of the first clause: it leaves the value set, R74). Every step (a REFS commit, TIME_STEP,
    TIME_SET) is applyStep; the second clause says it of TIME_STEP. -/
def Obligations.StepEndsHostSlew : Prop :=
  (∀ (s : State) (src : Nat) (delta : Int) (h : Hdr) (r : Int) (e : Option (BitVec 128)), s.tco.slew = some { host := some h, remain := r, endTs := e } →
    s.hif.discard.contains h = false → (src ≠ 0 ∨ s.tco.marks.set ≠ some s.now) → ((applyStep s src delta).tco.slew = none ∧
    (applyStep s src delta).tco.counter = moveCounter s.tco.counter delta ∧ Ends (applyStep s src delta) h 0x23 Status.aborted)) ∧
  (∀ (s : State) (hd h : Hdr) (ns : BitVec 64) (frac : BitVec 16) (r : Int) (e : Option (BitVec 128)), Accepts s hd 0x22 → s.tco.marks.host ≠ some s.now →
    s.refs.timeSlot = none → s.refs.phase = .idle → overLimit s (hostDelta ns frac) = false → s.tco.slew = some { host := some h, remain := r, endTs := e } →
    s.hif.discard.contains h = false → ∃ t, exec (.timeStep hd ns frac) s = .next t ∧ t.tco.slew = none ∧
      (t.tco.counter : Int) = ((s.tco.counter : Int) + hostDelta ns frac * 2 ^ 32) % (counterMod : Int) ∧
      (t.hif.done.any fun d => d.hd = h && d.op = 0x23 && d.status = Status.aborted) = true ∧ Ends t hd 0x22 Status.ok)

/-- The commands of the time core.
    - R72, R74: TIME_SET in NIGHT is a step to the value given; TEB and TEB0 take the value given and the growth law restarts from there (where MDLL-T
      does not coast, so that no widening is added, and no contraction of this tick stands).
    - R36, R37: TIME_STEP within STEP_LIMIT moves the counter by Δ, modulo 2^48 s, and adds |Δ|, rounded up to 62.5 ps and saturating, to the TEB;
      beyond the limit it is REFUSED and nothing else changes.
    - R38, R57, R64, R71, R74: TIME_SLEW starts a host slew of the whole Δ and moves nothing yet; FREQ_SET in NIGHT sets W; TEMP_SUPPLY sets the
      temperature in use; TIME_INVALIDATE makes the time invalid, and a state that is not NIGHT becomes STORM. A second command of one tick waits for
      the next.
    The model's readings in it, which are no rule of the spec: log entry 64. -/
def Obligations.HostTimeCommands : Prop :=
  (∀ (s : State) (hd : Hdr) (sec : BitVec 64) (ns : BitVec 32) (frac : BitVec 16) (teb : BitVec 32), Accepts s hd 0x21 → s.tco.marks.host ≠ some s.now →
    s.tco.st = .night → ns.toNat < 1000000000 → sec.toNat < 2 ^ 48 →
    ∃ t, exec (.timeSet hd sec ns frac teb) s = .next t ∧ Ends t hd 0x21 Status.ok ∧
      t.tco.counter = sec.toNat * unitsPerSec + ns.toNat * 2 ^ 48 + frac.toNat * 2 ^ 32 ∧
      (coasting s 0 = false → s.tco.marks.contr ≠ some s.now → t.tco.teb = teb ∧ t.tco.teb0 = teb ∧ t.tco.lawT = 0 ∧ t.tco.dtMax = 0) ∧
      t.words = s.words ∧ t.key = s.key ∧ t.upd = s.upd) ∧
  (∀ (s : State) (hd : Hdr) (ns : BitVec 64) (frac : BitVec 16), Accepts s hd 0x22 → s.tco.marks.host ≠ some s.now → s.refs.timeSlot = none → s.refs.phase = .idle →
    (overLimit s (hostDelta ns frac) = true → exec (.timeStep hd ns frac) s = .next (answered s hd 0x22 Status.refused 0 0)) ∧
    (overLimit s (hostDelta ns frac) = false → ∃ t, exec (.timeStep hd ns frac) s = .next t ∧ Ends t hd 0x22 Status.ok ∧
      (t.tco.counter : Int) = ((s.tco.counter : Int) + hostDelta ns frac * 2 ^ 32) % (counterMod : Int) ∧
      t.tco.teb.toNat = min (s.tco.teb.toNat + ((hostDelta ns frac).natAbs + 4095) / 4096) 0xFFFFFFFF ∧
      t.tco.w = s.tco.w ∧ t.words = s.words)) ∧
  (∀ (s : State) (hd : Hdr), s.tco.marks.host ≠ some s.now →
    (∀ (ns : BitVec 64) (frac : BitVec 16), Accepts s hd 0x23 → s.refs.timeSlot = none → s.refs.phase = .idle → hostSlewing s = false →
      overLimit s (hostDelta ns frac) = false → ∃ t, exec (.timeSlew hd ns frac) s = .next t ∧
        t.tco.slew = some { host := some hd, remain := hostDelta ns frac * 2 ^ 32, endTs := none } ∧
        t.tco.counter = s.tco.counter ∧ t.tco.w = s.tco.w ∧ t.tco.teb = s.tco.teb ∧ t.hif.done = s.hif.done) ∧
    (∀ w : BitVec 64, Accepts s hd 0x24 → s.tco.st = .night → -wMax ≤ w.toInt → w.toInt ≤ wMax →
      ∃ t, exec (.freqSet hd w) s = .next t ∧ Ends t hd 0x24 Status.ok ∧ t.tco.w = w.toInt ∧ t.tco.counter = s.tco.counter ∧
        t.tco.teb = s.tco.teb) ∧
    (∀ temp : BitVec 16, Accepts s hd 0x25 → rb s Rg.tcoCtrl 1 = true →
      ∃ t, exec (.tempSupply hd temp) s = .next t ∧ Ends t hd 0x25 Status.ok ∧ tempNow t = temp.toInt ∧ t.tco.tempAt = some s.now ∧
        t.tco.counter = s.tco.counter ∧ t.tco.teb = s.tco.teb) ∧
    (Accepts s hd 0x26 → ∃ t, exec (.timeInvalidate hd) s = .next t ∧ Ends t hd 0x26 Status.ok ∧ timeInvalid t = true ∧
      (s.tco.contracted = true → s.tco.st ≠ .night → t.tco.st = .storm) ∧ t.tco.counter = s.tco.counter ∧ t.tco.teb = s.tco.teb) ∧
    (∀ (v : State) (w : BitVec 64), v.pwr.phase = .ready → v.tco.marks.host = some v.now → exec (.freqSet hd w) v =
      .next { v with tco := { v.tco with later := v.tco.later ++ [.freqSet hd w] } }))

/-- R54, R59: at a new millisecond boundary, while the growth law is programmed and the maximum of R59 holds, the published TEB never
    falls below the value before it nor below the law's value (a coasting MDLL-T adds to it). At every new boundary it is published anew and the clock
    state judged. -/
def Obligations.TebNeverFalls : Prop :=
  (∀ s : State, s.tco.lastMs ≠ some (msOf s.tco.counter) → rb s Rg.tcoCtrl 0 = true → s.tco.noMax = false →
    ∃ t, exec .tebPublish s = .next t ∧ s.tco.base.toNat ≤ t.tco.teb.toNat ∧ lawValue s ≤ t.tco.teb.toNat ∧
      (coasting s 0 = false → t.tco.teb.toNat = max s.tco.base.toNat (lawValue s)) ∧
      t.tco.lastMs = some (msOf s.tco.counter) ∧ t.tco.counter = s.tco.counter ∧ t.tco.teb0 = s.tco.teb0) ∧
  (∀ s : State, s.tco.lastMs ≠ some (msOf s.tco.counter) → exec .tebPublish s = .next (clockEval (msBoundary s)))

/-- Leap seconds, temperature, slews and the clock state.
    - R69, R71: LEAP_SET sets TAI − UTC and a pending leap, or none; when the counter's seconds reach LEAP_AT, +1 or −1 is added and nothing is
      pending; the counter itself does not change.
    - R57, R38, R480: 5 s without a host temperature, where none comes on that very tick, the on-die value is in use again; a slew whose offset is
      removed ends, and a host's command completes OK.
    - R63, R65, R480: after TCO_DWELL in better states the reported state becomes the underlying one; 4 s after the newest measurement, where none
      comes on that very tick, the time core is no longer locked.
    The model's readings in it, which are no rule of the spec: log entry 34. -/
def Obligations.TimeEventsAct : Prop :=
  ((∀ (s : State) (hd : Hdr) (off : BitVec 16) (pend : BitVec 8) (leapAt : BitVec 32), Accepts s hd 0x27 → s.tco.marks.host ≠ some s.now → standbyHeld s = false →
    ((pend = 1 ∨ pend = 2) → secOf s.tco.counter % 2 ^ 32 < leapAt.toNat →
    ∃ t, exec (.leapSet hd off pend leapAt) s = .next t ∧ Ends t hd 0x27 Status.ok ∧ t.tco.utcOff = off ∧ t.tco.utcValid = true ∧
      t.tco.pend.toNat = pend.toNat ∧ t.tco.leapAt = leapAt ∧ t.tco.counter = s.tco.counter) ∧
    (pend = 0 → ∃ t, exec (.leapSet hd off pend leapAt) s = .next t ∧ Ends t hd 0x27 Status.ok ∧ t.tco.utcOff = off ∧ t.tco.utcValid = true ∧
      t.tco.pend = 0 ∧ t.tco.counter = s.tco.counter)) ∧
  (∀ s : State, s.tco.leapAt.toNat ≤ secOf s.tco.counter % 2 ^ 32 → (s.tco.pend = 1 ∨ s.tco.pend = 2) →
    ∃ t, exec .leapDone s = .next t ∧ t.tco.utcOff = s.tco.utcOff + (if s.tco.pend = 1 then 1 else 0xFFFF) ∧ t.tco.pend = 0 ∧
      t.tco.counter = s.tco.counter ∧ (blkStat t .tco).bits.getLsbD 5 = true)) ∧
  ((∀ (s : State) (u : Nat), s.tco.tempAt = some u → rb s Rg.tcoCtrl 1 = true → u + ticksS 5 ≤ s.now → (u + ticksS 5 < s.now ∨ tempWaits s = false) →
    ∃ t, exec .tempFallback s = .next t ∧ t.tco.tempHost = none ∧ tempNow t = s.tco.tempDie ∧
      (blkStat t .tco).seq = (blkStat s .tco).seq + 1 ∧ t.tco.counter = s.tco.counter) ∧
  (∀ (s : State) (hd : Hdr) (e : Option (BitVec 128)), s.tco.slew = some { host := some hd, remain := 0, endTs := e } →
    s.hif.discard.contains hd = false → ∃ t, exec .slewComplete s = .next t ∧ t.tco.slew = none ∧ Ends t hd 0x23 Status.ok ∧
      t.tco.counter = s.tco.counter ∧ t.tco.w = s.tco.w) ∧
  (∀ (s : State) (e : Option (BitVec 128)), s.tco.slew = some { host := none, remain := 0, endTs := e } → ∃ t, exec .slewComplete s = .next t ∧
    t.tco.slew = none ∧ t.tco.counter = s.tco.counter ∧ t.tco.w = s.tco.w ∧ t.hif.done = s.hif.done)) ∧
  ((∀ (s : State) (d : Nat), s.tco.dwellAt = some d → s.tco.st.rank < (underlying s).rank →
    d + ticksMs (getW s Rg.tcoDwell).toNat ≤ s.now → ∃ t, exec .dwellExpiry s = .next t ∧ t.tco.st = underlying s ∧
      t.tco.dwellAt = none ∧ t.tco.counter = s.tco.counter ∧ t.tco.teb = s.tco.teb) ∧
  (∀ (s : State) (u : Nat), s.tco.lockUntil = some u → u ≤ s.now → locked s = false → ∃ t, exec .lockLapse s = .next t ∧ t.tco.lockUntil = none ∧
    locked t = false ∧ t.tco.counter = s.tco.counter ∧ t.tco.teb = s.tco.teb))

/-! ## References and steering -/

/-- R78 to R80: a measurement that is not newer than its slot's newest is discarded and counted; an invalid one orders, and shows that a PTP or Colol slot
    is active; a valid one is taken by the slot; every one of a slot that gives time is measured, and one of a frequency source shows that it is active.
    The model's readings in it, which are no rule of the spec: log entry 65. -/
def Obligations.MeasurementsOrdered : Prop :=
  (∀ (s : State) (i : Fin 16) (off : Int) (latch bound : Nat), timeCapable i = true → slotEn s i = true → latch ≤ s.now →
    s.refs.timeSlot ≠ some i →
    (∀ (l : Nat) (valid : Bool), (slot s i).lastLatch = some l → latch ≤ l → exec (.refsMeasurement i off latch bound valid) s =
      .next (modSlot (perfAdd s (576 + i.val) 1) i fun k => { k with discarded := k.discarded + 1 })) ∧
    ((slot s i).lastLatch = none → i.val < 2 → exec (.refsMeasurement i off latch bound false) s =
      .next (modSlot (perfAdd s (576 + i.val) 1) i fun k => { k with lastLatch := some latch })) ∧
    ((slot s i).lastLatch = none → 2 ≤ i.val → exec (.refsMeasurement i off latch bound false) s =
      .next (active_ (modSlot (perfAdd s (576 + i.val) 1) i fun k => { k with lastLatch := some latch }) i latch)) ∧
    ((slot s i).lastLatch = none → s.refs.txn = none → ∃ t, exec (.refsMeasurement i off latch bound true) s = .next t ∧
      (slot t i).lastLatch = some latch ∧ (slot t i).active = true ∧ (slot t i).meas.head? = some { off := off, latch := latch, bound := bound } ∧
      t.tco.counter = s.tco.counter)) ∧
  (∀ (s : State) (i : Fin 16) (off : Int) (latch bound : Nat) (valid : Bool), timeCapable i = true →
    exec (.refsMeasurement i off latch bound valid) s = .next (measure s i off (min latch s.now) bound valid)) ∧
  (∀ (s : State) (i : Fin 16) (off : Int) (latch bound : Nat), timeCapable i = false → slotEn s i = true → freqSource s i = true →
    exec (.refsMeasurement i off latch bound true) s = .next (selEval (judge (activity s i s.now) i)))

/-- R79, R81, R83, R86, R93, R104, R121: a slot whose activity lapses, with no measurement of it on that tick, is inactive with empty windows and is judged; the
    monitors run once a counter second; a slot inside its limits for QUAL_TIME qualifies; a refused one within STEP_LIMIT for QUAL_TIME is no longer refused;
    the selectors are then evaluated, as they are at the end of WTR_TIME. A loss of the same tick comes first (lossFirst).
    The model's readings in it, which are no rule of the spec: log entries 34, 65. -/
def Obligations.SlotEventsAct : Prop :=
  (∀ (s : State) (i : Fin 16), (slot s i).active = true → (slot s i).lastAct + ticksMs (slotCfg s i 1) ≤ s.now →
    ((slot s i).lastAct + ticksMs (slotCfg s i 1) < s.now ∨ s.pending.any (brings i) = false) →
    exec (.slotActivityLapse i) s = .next (selEval (judge (modSlot s i fun k => { k with active := false, fast := none, slow := none }) i))) ∧
  (∀ (s : State) (ppt : List (Fin 16 × Int)), s.refs.monSec ≠ some (secOf s.tco.counter) → exec (.monitorUpdate ppt) s =
    .next (selEval ((List.finRange 16).foldl monitorSlot (ppt.foldl (fun s p => freqCount s p.1 p.2)
      (modRefs s fun r => { r with monSec := some (secOf s.tco.counter) }))))) ∧
  (∀ (s v : State) (i : Fin 16) (u : Nat), v = lossFirst s → (slot v i).insideAt = some u → slotEn v i = true →
    u + ticksS (getW v Rg.refsQualTime).toNat ≤ v.now → exec (.slotQualify i) s = .next (selEval (qualify v i)) ∧
      (slot (qualify v i) i).qualified = true ∧ (slot (qualify v i) i).qualAt = v.now) ∧
  (∀ (s : State) (i : Fin 16) (u : Nat), (slot s i).withinAt = some u → (slot s i).refused = true →
    u + ticksS (getW s Rg.refsQualTime).toNat ≤ s.now → exec (.refusedClear i) s =
      .next (selEval (modSlot s i fun k => { k with refused := false, withinAt := none }))) ∧
  (∀ s : State, exec .wtrExpiry s = .next (selEval (lossFirst s)))

/-- R97, R99, R107, R108, R121: a transaction whose PREPARE window has ended and that has an offset commits, and the selectors are evaluated; one without
    any is extended; SETTLE ends; once a second, without a slot the holdover word is recomputed, in the safe state from the model alone, and with a slot held for
    frequency only it follows that slot. A loss of the same tick comes first (lossFirst).
    The model's readings in it, which are no rule of the spec: log entry 34. -/
def Obligations.TransactionsCommit : Prop :=
  (∀ (s v : State) (x : Txn) (d : Int) (b : Nat), v = lossFirst s → v.refs.txn = some x → x.t0 + prepareTicks ≤ v.now → txnDelta v x = some (d, b) →
    exec .txnCommit s = .next (selEval (selPost v.refs.timeSlot v.refs.freqSlot (commitTxn v x d b)))) ∧
  (∀ (s v : State) (x : Txn), v = lossFirst s → v.refs.txn = some x → x.t0 + prepareTicks ≤ v.now → txnDelta v x = none →
    exec .txnCommit s = .next (modRefs v fun r => { r with txn := some { x with extended := true } })) ∧
  (∀ s : State, s.refs.phase = .settle → s.refs.settleEnd ≤ s.now → exec .settleEnd s = .next (selEval (endSettle s)) ∧
    (endSettle s).refs.phase = .idle) ∧
  (∀ s : State, rb s Rg.refsCtrl 0 = true → coreUp s 2 = true → s.refs.wordAt + ticksS 1 ≤ s.now →
    (safe s .refs = false → s.refs.timeSlot = none → exec .holdoverWordUpdate s = .next (takeHoldWord (modRefs s fun r => { r with wordAt := s.now }))) ∧
    (safe s .refs = true → exec .holdoverWordUpdate s = .next (holdNow (modRefs s fun r => { r with wordAt := s.now }))) ∧
    (∀ i : Fin 16, safe s .refs = false → s.refs.timeSlot = some i → s.refs.freqOnly = true →
      exec .holdoverWordUpdate s = .next (servoFreq (modRefs s fun r => { r with wordAt := s.now }) i)))

/-- R110, R115, R116, R118 to R121: once a period, with a sample of c while the time core is locked, the steering code is computed anew and sent, the first time
    CODE0 (entry 65, the model's choice), and nothing is sent while the time core is not locked; a UART reply that matches ends the exchange, or after
    template 0 sends the value; another line, and none in time, sends again and the second time fails; OSC_SET in MANUAL mode sends over SPI at once and over
    UART with the exchange, and waits its turn behind one.
    The model's readings in it, which are no rule of the spec: log entry 66. -/
def Obligations.SteeringActs : Prop :=
  (∀ s v : State, v = lossFirst s → coreUp v 2 = true → v.refs.steerAt + ticksS (getW v Rg.refsSteerPeriod).toNat ≤ v.now →
    (locked v = false → exec .steerUpdate s = .next (modRefs v fun r => { r with steerAt := v.now })) ∧
    (∀ x : State, locked v = true → x = modRefs v (fun r => { r with steerAt := v.now, ageing := (v.now, cNow v, (getW v Rg.refsSteerPeriod).toNat) :: v.refs.ageing.filter (fun p => decide (v.now < p.1 + ticksS (86400 * (getW v Rg.refsAgeWin).toNat))) }) →
      ((steerMode x = 1 ∨ steerMode x = 2) → steerMay x = true → x.refs.uart = none → exec .steerUpdate s = .next (steerUpdate x)) ∧
      ((steerMode x ≠ 1 ∧ steerMode x ≠ 2 ∨ steerMay x = false ∨ x.refs.uart ≠ none) → exec .steerUpdate s = .next x))) ∧
  (∀ s : State, oscGain s ≠ 0 → s.refs.steerRetry = none →
    (s.refs.steerStarted = false → (steerUpdate s).refs.steerStarted = true ∧ (steerUpdate s).tco.counter = s.tco.counter ∧
      (steerUart s = false → (steerUpdate s).refs.code = clampI (codeRange s).1 (codeRange s).2 (sInt 32 (getW s Rg.refsCode0).toNat))) ∧
    (∀ (c : Int) (clamped : Bool), s.refs.steerStarted = true → steerNext s = some (c, clamped) → steerUart s = false →
      (steerUpdate s).refs.code = c ∧ (steerUpdate s).tco.counter = s.tco.counter)) ∧
  (∀ (s : State) (u : UartWait) (line : List Byte), s.refs.uart = some u →
    (u.init = false → (replyPrefix s 1).isPrefixOf line = true → exec (.steerReply line) s =
      .next (oscTurn (steerDone (modRefs s fun r => { r with uart := none }) u.host))) ∧
    (u.init = true → (replyPrefix s 0).isPrefixOf line = true → exec (.steerReply line) s =
      .next (oscTurn (sendSet (modRefs s fun r => { r with uart := none, initSent := true }) u.code u.host false))) ∧
    ((replyPrefix s (if u.init then 0 else 1)).isPrefixOf line = false → exec (.steerReply line) s = .next (oscTurn (steerMiss s u false)))) ∧
  (∀ (s : State) (u : UartWait), s.refs.uart = some u → u.deadline ≤ s.now →
    (u.deadline < s.now ∨ (s.pending.any fun c => match c with | .steerReply _ => true | _ => false) = false) →
    exec .steerReplyTimeout s = .next (oscTurn (steerMiss s u true)) ∧
    (u.resent = true → u.host = none → s.refs.oscWait = [] → ∃ t, exec .steerReplyTimeout s = .next t ∧ t.refs.uart = none ∧ t.refs.steerRetry = some u.code ∧
      (blkStat t .refs).bits.getLsbD 5 = true ∧ t.refs.code = s.refs.code)) ∧
  (∀ (s : State) (hd : Hdr) (code : BitVec 32), Accepts s hd 0x36 → steerMode s = 3 →
    (rb s Rg.refsSteerCtrl 2 = false → -(2 ^ (fld (getW s Rg.refsDacCfg).toNat 4 0 - 1) : Int) ≤ code.toInt →
      code.toInt < 2 ^ (fld (getW s Rg.refsDacCfg).toNat 4 0 - 1) →
      (s.refs.uart = none → exec (.oscSet hd code) s = .next (sendCode s code.toInt (some hd)) ∧ ∃ t, exec (.oscSet hd code) s = .next t ∧
        t.refs.code = code.toInt ∧ Ends t hd 0x36 Status.ok ∧ t.out.head? = some (.spi (spiFrame t code.toInt) (fld (getW s Rg.refsDacCfg).toNat 13 8)
          (fld (getW s Rg.refsDacCfg).toNat 7 6) (fld (getW s Rg.refsDacCfg).toNat 27 24)) ∧ t.tco.w = s.tco.w) ∧
      (s.refs.uart ≠ none → exec (.oscSet hd code) s = .next (modRefs s fun r => { r with oscWait := r.oscWait ++ [(hd, code.toInt)] }))) ∧
    (rb s Rg.refsSteerCtrl 2 = true → -((getW s Rg.refsUartVmax).toNat : Int) ≤ code.toInt → code.toInt ≤ (getW s Rg.refsUartVmax).toNat →
      (s.refs.uart = none → exec (.oscSet hd code) s = .next (sendCode s code.toInt (some hd))) ∧
      (s.refs.uart ≠ none → exec (.oscSet hd code) s = .next (modRefs s fun r => { r with oscWait := r.oscWait ++ [(hd, code.toInt)] }))))

/-- R95, R96, R106, R110, R121, R122: the commands of REFS act on the slot they name and complete OK.
    The model's readings in it, which are no rule of the spec: log entry 65. -/
def Obligations.RefCommandsAct : Prop :=
  ∀ (s : State) (hd : Hdr) (i : Fin 16), s.hif.discard.contains hd = false → s.pwr.phase = .ready → coreUp s 2 = true →
    (∃ r, exec (.refQuery hd (BitVec.ofNat 8 i.val)) s = .next (answered s hd 0x30 Status.ok 28 r)) ∧
    (standbyHeld s = false → ∀ (on : BitVec 8) (w : Word), on.toNat ≤ 1 →
      w = (if on = 1 then getW s (indKey .refs 1 (8 * i.val)) ||| 2 else getW s (indKey .refs 1 (8 * i.val)) &&& ~~~(2 : Word)) →
      exec (.refLockout hd (BitVec.ofNat 8 i.val) on) s = .next (fin (selEval (mirrorSend (putW s (indKey .refs 1 (8 * i.val)) w)
        (.word (indKey .refs 1 (8 * i.val)) w))) hd 0x31 Status.ok)) ∧
    exec (.refForce hd (BitVec.ofNat 8 i.val)) s = .next (fin (selEval (modRefs s fun r => { r with force := some i })) hd 0x32 Status.ok) ∧
    exec (.refForce hd 0xFF) s = .next (fin (selEval (modRefs s fun r => { r with force := none })) hd 0x32 Status.ok) ∧
    (∀ (v : State) (mode : BitVec 8) (mx : BitVec 32), v = lossFirst s → v.refs.timeSlot = some i → v.refs.freqOnly = true → mayBegin v = true →
      v.refs.phase ≠ .prepare → v.refs.commitAt ≠ some v.now → mode.toNat ≤ 1 →
      exec (.acceptStep hd (BitVec.ofNat 8 i.val) mode mx) s = .next (beginTxn v i (.acceptStep hd (mode = 1) mx.toNat)) ∧
      (beginTxn v i (.acceptStep hd (mode = 1) mx.toNat)).refs.phase = .prepare) ∧
    (eligibleTime s i = true → forced s i = true → mayBegin s = true → rb s Rg.refsCtrl 0 = true → s.refs.phase = .idle →
      exec (.refSwitch hd (BitVec.ofNat 8 i.val)) s = .next (selPost s.refs.timeSlot s.refs.freqSlot (beginTxn s i (.refSwitch hd)))) ∧
    (s.refs.everLocked = true → ∀ on : BitVec 8, on.toNat ≤ 1 → exec (.holdoverForce hd on) s =
      .next (fin (selEval (modRefs s fun r => { r with holdForce := on = 1 })) hd 0x35 Status.ok)) ∧
    (∀ (rank_ ovr : BitVec 8), ovr.toNat ≤ 1 → exec (.rankSet hd (BitVec.ofNat 8 i.val) rank_ ovr) s =
      .next (fin (selEval (judge (modSlot s i fun k => { k with ovr := if ovr = 1 then some rank_ else none }) i)) hd 0x37 Status.ok)) ∧
    exec (.ageReset hd) s = .next (answered (modRefs s fun r => { r with ageing := [] }) hd 0x38 Status.ok 0 0)

/-! ## GNSS baseband -/

/-- What happens of itself in the baseband.
    - R144 to R147, R172: a tracking channel's transitions: lock from PULL_IN on a port that gives samples, the third failed pull-in (a failed
      reacquisition attempt falls back to LOST), loss by either condition, the end of REACQ_TO, symbol and time-of-week synchronisation. A lock of the
      same tick wins over a timeout.
    - R135: a sample port without a clock edge, or whose rate is off by more than 200 ppm, is marked, its channels are lost and it is recorded; a rate
      within 200 ppm is shown; 100 ms without either condition clear it.
    - R140, R141, R148 to R151, R153 to R155, R160, R162: the running search ends with its hits and the next one runs; a latch takes the next sequence
      number; a page that passes its check is stored with the next PSEQ, a bad one is counted; a solution in progress ends; an exclusion whose hold
      ends is lifted.
    The model's readings in it, which are no rule of the spec: log entries 67, 68. -/
def Obligations.ChannelsAndSearches : Prop :=
  (∀ (s : State) (n : Fin 512), gbbOn s = true →
    (∀ (d : SigDef) (ind ms : Nat) (raw : List Corr), (chan s n.val).st = .pullIn → sigOf (chan s n.val).signal.toNat = some d →
      portLive s (chan s n.val).port = true → 800 ≤ ind → 100 ≤ ms → exec (.carrierLock ⟨n, ind, ms, raw⟩) s =
      .next (fixReady (setChan s n.val (loopTo s d true raw (16 * s.now) { chan s n.val with st := .track, lockAt := s.now, fails := 0, reacq := false })) n.val)) ∧
    ((chan s n.val).st = .pullIn → (chan s n.val).pullAt + ticksMs 500 ≤ s.now → lockWaits s n.val = false → exec (.pullInTimeout n) s = .next (setChan s n.val
      (if (chan s n.val).reacq then { chan s n.val with st := .lost, reacq := false }
        else if 2 ≤ (chan s n.val).fails then { Chan.idle with cause := (chan s n.val).cause }
        else { chan s n.val with st := .acquire, fails := (chan s n.val).fails + 1 }))) ∧
    ((chan s n.val).st.tracks = true → ∀ ind indMs cn0 cn0Ms : Nat,
      (ind < 500 → 200 ≤ indMs → exec (.channelLoss n ⟨ind, indMs, cn0, cn0Ms⟩) s = .next (loseChan s n.val 1)) ∧
      (500 ≤ ind → cn0 < rf s Rg.gbbTrack 7 0 * 100 → 500 ≤ cn0Ms → exec (.channelLoss n ⟨ind, indMs, cn0, cn0Ms⟩) s = .next (loseChan s n.val 2))) ∧
    (((chan s n.val).st = .lost ∨ ((chan s n.val).st = .pullIn ∧ (chan s n.val).reacq = true ∧ lockWaits s n.val = false)) →
      (chan s n.val).lostAt + ticksS (rf s Rg.gbbTrack 31 24) ≤ s.now → exec (.reacqTimeout n) s =
      .next (setChan s n.val { Chan.idle with cause := (chan s n.val).cause })) ∧
    (∀ ms : Nat, (chan s n.val).st = .track → exec (.symbolSync ⟨n, ms⟩) s =
      .next (setChan s n.val { chan s n.val with st := .sync, txEdge := wholeMs (chan s n.val) ms })) ∧
    (∀ ms : Nat, (chan s n.val).st = .sync → coreUp s 1 = true → exec (.towDecoded ⟨n, ms⟩) s =
      .next (setChan s n.val { chan s n.val with st := .ready, txEdge := wholeMs (chan s n.val) (ms % 604800000) }))) ∧
  ((∀ (s : State) (p : Fin 4) (rate : Bool) (hz : BitVec 32), gbbOn s = true → rb s (Rg.gbbPortCfg0 + 4 * p.val) 0 = true →
    ((rate = false ∨ rateOff s p hz.toNat = true) → (gspPort s p).failed = false → ∃ t, exec (.gspPortFail p rate hz) s = .next t ∧ (gspPort t p).failed = true ∧
      (gspPort t p).rateKhz = hz.toNat / 1000 ∧ t.gbb.latchPortFail = true ∧ (blkStat t .gbb).bits.getLsbD 1 = true ∧ t.tco = s.tco ∧
      (∀ c ∈ t.gbb.chans, c.2.port = p → c.2.st = .idle ∨ c.2.st = .lost)) ∧
    ((rate = false ∨ rateOff s p hz.toNat = true) → (gspPort s p).failed = true → exec (.gspPortFail p rate hz) s = .next (modGbb s fun g =>
      { g with ports := g.ports.set p { failed := true, rateKhz := hz.toNat / 1000, cleanAt := some s.now }, latchPortFail := true })) ∧
    (rate = true → rateOff s p hz.toNat = false → exec (.gspPortFail p rate hz) s = .next (modGbb s fun g =>
      { g with ports := g.ports.set p { gspPort s p with rateKhz := hz.toNat / 1000 } }))) ∧
  (∀ (s : State) (p : Fin 4) (hz : BitVec 32) (u : Nat), gbbOn s = true → (gspPort s p).failed = true → (gspPort s p).cleanAt = some u →
    u + ticksMs 100 ≤ s.now → rateOff s p hz.toNat = false → ∃ t, exec (.gspClkOk p hz) s = .next t ∧ (gspPort t p).failed = false ∧
      (blkStat t .gbb).seq = (blkStat s .gbb).seq + 1 ∧ t.gbb.chans = s.gbb.chans ∧ t.tco = s.tco)) ∧
  ((∀ (s : State) (x : Search) (rest : List Search) (rise fall : List (BitVec 4)), gbbOn s = true → s.gbb.searches = x :: rest → s.gbb.searchEnd ≤ s.now →
    ∃ t, exec (.acqSearchDone rise fall) s = .next t ∧ t.gbb.searches = rest ∧ (∀ hd ∈ x.host, s.hif.discard.contains hd = false → Ends t hd 0x42 Status.ok) ∧
      (∀ y ∈ rest.head?, t.gbb.searchEnd = s.gbb.searchEnd + ticksUs (searchUs y)) ∧ t.tco = s.tco) ∧
  (∀ (s : State) (obs : List ChanObs) (l b : Nat), gbbOn s = true → b = totNs s.tco.counter / (1000000000 / latchRate s) * (1000000000 / latchRate s) →
    s.gbb.lastLatch = some l → l < b → latchFired s b = false → ∃ t, exec (.measLatch obs) s = .next t ∧
      t.gbb.latchSeq = s.gbb.latchSeq + 1 ∧ (t.gbb.latches.head?.map LatchRec.seq) = some s.gbb.latchSeq ∧ t.gbb.latches.length ≤ 16 ∧
      t.gbb.lastLatch = some b ∧ t.gbb.latchStep = false ∧ t.tco = s.tco) ∧
  (∀ (s : State) (n : Fin 512) (p : NavIn), gbbFw s = true → ((chan s n.val).st = .sync ∨ (chan s n.val).st = .ready) →
    (pageOk (chan s n.val).signal p = false → ∃ t, exec (.navPage n p) s = .next t ∧ t.gbb.pagesBad = s.gbb.pagesBad + 1 ∧ t.gbb.pages = s.gbb.pages ∧
      t.gbb.params = s.gbb.params) ∧
    (pageOk (chan s n.val).signal p = true → ∃ t x, exec (.navPage n p) s = .next t ∧
      t.gbb.pages = (if s.gbb.pages.length < 4096 then s.gbb.pages else s.gbb.pages.drop 1) ++ [x] ∧ x.pseq = s.gbb.pseq ∧ x.payload = p.payload ∧
      x.signal = (chan s n.val).signal ∧ x.sv = (chan s n.val).sv ∧ x.rxTs32 = ts32 s ∧ t.gbb.pseq = s.gbb.pseq + 1 ∧ t.gbb.pagesBad = s.gbb.pagesBad)) ∧
  (∀ (s : State) (g : Bool) (x : SolIn) (w : SolWork), gbbFw s = true → (group s g).work = some w → ∃ t, exec (.solutionDone g x) s = .next t ∧
    (group t g).work = none ∧ (group t g).integrity = integrityOf (((solve s w g x).out.map fun m => (m.sys, m.sv)).foldl (fwExclude g) s) g (solve s w g x) ∧
    t.gbb.latches = s.gbb.latches ∧ t.gbb.params = s.gbb.params) ∧
  (∀ (s : State) (g : Bool) (sys sv : Nat), gbbFw s = true →
    (s.gbb.excl.any fun e => e.group = g && e.sys = sys && e.sv = sv && !e.host && decide (e.until_ ≤ s.now)) = true →
    ∃ t, exec (.exclHoldExpiry g sys sv) s = .next t ∧
      t.gbb.excl = s.gbb.excl.filter (fun e => !(e.group = g && e.sys = sys && e.sv = sv && !e.host && decide (e.until_ ≤ s.now))) ∧
      (blkStat t .gbb).bits.getLsbD 2 = true))

/-- R137, R140, R143, R154, R156, R162, R168, R169, R172, R173: the commands of the baseband act on the groups, channel or store that they name.
    The model's readings in it, which are no rule of the spec: log entries 67, 68. -/
def Obligations.GnssCommandsAct : Prop :=
  ∀ (s : State) (hd : Hdr), s.hif.discard.contains hd = false → s.pwr.phase = .ready → coreUp s 1 = true →
    (∀ mask kind : BitVec 8, mask ≠ 0 → mask.toNat ≤ 3 → kind.toNat ≤ 2 → rb s Rg.gbbCtrl 0 = true → (mask.getLsbD 0 = true → (group s false).running = false) →
      (mask.getLsbD 1 = true → (group s true).running = false) → ∃ t, exec (.gnssStart hd mask kind) s = .next t ∧ Ends t hd 0x40 Status.ok ∧
      (group t false).running = ((group s false).running || mask.getLsbD 0) ∧ (group t true).running = ((group s true).running || mask.getLsbD 1) ∧ t.tco = s.tco) ∧
    (∀ mask : BitVec 8, mask.toNat ≤ 3 → (mask.getLsbD 0 = true ∧ (group s false).running = true ∨ mask.getLsbD 1 = true ∧ (group s true).running = true) →
      ∃ t, exec (.gnssStop hd mask) s = .next (answered t hd 0x41 Status.ok 0 0) ∧
      (mask.getLsbD 0 = true → (group t false).running = false ∧ (group t false).work = none) ∧ (mask.getLsbD 0 = false → group t false = group s false) ∧
      (mask.getLsbD 1 = true → (group t true).running = false ∧ (group t true).work = none) ∧ (mask.getLsbD 1 = false → group t true = group s true) ∧
      t.gbb.latches = s.gbb.latches) ∧
    (∀ (addr : BitVec 64) (len : BitVec 32) (req : BitVec 256) (x : Search), searchReq s hd addr len req = some x → searchesFull s = false →
      exec (.acqSearch hd addr len req) s = .next (modGbb s fun g => { g with searches := g.searches ++ [x], searchEnd := if g.searches.isEmpty then s.now + ticksUs (searchUs x) else g.searchEnd })) ∧
    (∀ (port signal sv : BitVec 8) (d : SigDef) (n : Nat), port.toNat < 4 → sigOf signal.toNat = some d → receivable s port.toNat d = true →
      svOk (sysOf signal) sv.toNat = true →
      (findChan s (Fin.ofNat 4 port.toNat) signal sv (fun c => c.st != .idle) = none → freeChan s = some n →
      exec (.chanPin hd port signal sv 1) s = .next (answered (setChan s n (newChan s (Fin.ofNat 4 port.toNat) signal sv .acquire true)) hd 0x43 Status.ok 2 n)) ∧
      (findChan s (Fin.ofNat 4 port.toNat) signal sv (fun c => c.st != .idle) = some n → exec (.chanPin hd port signal sv 1) s =
        .next (answered (setChan s n { chan s n with pinned := true }) hd 0x43 Status.ok 2 n)) ∧
      (findChan s (Fin.ofNat 4 port.toNat) signal sv (fun c => c.pinned) = some n → exec (.chanPin hd port signal sv 0) s =
        .next (answered (setChan s n { Chan.idle with cause := 3 }) hd 0x43 Status.ok 2 n))) ∧
    (∀ pages : List NavInject, standbyHeld s = false → exec (.navInject hd pages) s = .next (complete ((pages.filter injectOk).foldl inject s) hd 0x46 Status.ok 4
      (pack [(0, (pages.filter injectOk).length), (2, pages.length - (pages.filter injectOk).length)]))) ∧
    (∀ (g : Bool) (x y z : BitVec 64) (unc : BitVec 32), ((group s g).work.isSome = true → ∃ t, exec (.posSet hd (if g then 1 else 0) x y z unc) s =
      .next (answered t hd 0x47 Status.ok 0 0) ∧ (group t g).nextPos = some { x := x.toInt, y := y.toInt, z := z.toInt, unc := unc.toNat } ∧
        group t (!g) = group s (!g) ∧ t.words = s.words) ∧
      ((group s g).work = none → exec (.posSet hd (if g then 1 else 0) x y z unc) s =
        .next (answered (putPos s g { x := x.toInt, y := y.toInt, z := z.toInt, unc := unc.toNat }) hd 0x47 Status.ok 0 0))) ∧
    (∀ g : Bool, ∃ t, exec (.surveyStart hd (if g then 1 else 0)) s = .next (answered t hd 0x48 Status.ok 0 0) ∧ (group t g).fixed = false ∧
      (group t g).surveyAt = s.now ∧ (group t g).surveyN = 0 ∧ group t (!g) = group s (!g)) ∧
    (∀ (g : Bool) (r : Sol), (group s g).last = some r → ∃ v, exec (.solQuery hd (if g then 1 else 0)) s = .next (answered s hd 0x49 Status.ok 28 v)) ∧
    (∀ sys sv on : BitVec 8, svOk sys.toNat sv.toNat = true → on.toNat ≤ 1 → ∃ t, exec (.svExclude hd sys sv on) s = .next t ∧ Ends t hd 0x4A Status.ok ∧
      (∀ g : Bool, (group s g).work = none → on = 1 → isExcl t g sys.toNat sv.toNat = true) ∧
      (∀ g : Bool, (group s g).work.isSome = true → (group t g).nextExcl = (group s g).nextExcl ++ [(sys.toNat, sv.toNat, decide (on = 1))]) ∧ t.words = s.words) ∧
    (∀ mask : BitVec 8, (group s false).running = false → (group s true).running = false → standbyHeld s = false → ∃ t, exec (.gnssClear hd mask) s =
      .next (answered t hd 0x4B Status.ok 0 0) ∧ (mask.getLsbD 0 = true → ∀ p ∈ t.gbb.params, p.kind ≠ .ephemeris) ∧
      (mask.getLsbD 1 = true → ∀ p ∈ t.gbb.params, p.kind ≠ .almanac) ∧ (mask.getLsbD 2 = true → ∀ p ∈ t.gbb.params, p.kind ≠ .utc ∧ p.kind ≠ .iono) ∧
      (∀ p ∈ s.gbb.params, (p.kind = .clock ∨ p.kind = .groupDelay) → p ∈ t.gbb.params) ∧ t.gbb.pages = s.gbb.pages)

/-- R150, R155, R172, R184, R193, R282, R356, R414, R552, R577: a command that reads a queue, a table or a store completes OK with the figures of its table, and
    what it reads is written at the address it names.
    The model's readings in it, which are no rule of the spec: log entries 27, 68. -/
def Obligations.ReadsIntoHostMemory : Prop :=
  ∀ (s : State) (hd : Hdr) (addr : BitVec 64), s.hif.discard.contains hd = false → s.pwr.phase = .ready →
    (∀ (r : LatchRec) (seq len : BitVec 32), coreUp s 1 = true → (if seq = 0xFFFFFFFF then s.gbb.latches.head? else s.gbb.latches.find? fun r => r.seq = seq) = some r →
      r.length ≤ len.toNat →
      exec (.measRead hd seq addr len) s = .next (complete (hostDma s addr.toNat r.bytes) hd 0x44 Status.ok 8 (pack [(0, r.seq.toNat), (4, r.length)]))) ∧
    (∀ (first : BitVec 32) (c : BitVec 16), coreUp s 1 = true → s.gbb.pages = [] → first = s.gbb.pseq →
      exec (.navRead hd first c addr) s = .next (answered s hd 0x45 Status.ok 12 (pack [(0, 0), (4, s.gbb.pseq.toNat), (8, 0)]))) ∧
    (∀ (first : BitVec 32) (c : BitVec 16) (ahead held : Nat) (l : List Page), coreUp s 1 = true →
      ahead = (if 2 ^ 31 ≤ (s.gbb.pseq - first).toNat then 0 else (s.gbb.pseq - first).toNat) → held = min ahead s.gbb.pages.length →
      l = (s.gbb.pages.drop (s.gbb.pages.length - held)).take c.toNat →
      exec (.navRead hd first c addr) s = .next (complete (if l.isEmpty then s else hostDma s addr.toNat (l.map Page.bytes).flatten) hd 0x45 Status.ok 12
        (pack [(0, l.length), (4, (if held = 0 then first + BitVec.ofNat 32 (ahead - held) else s.gbb.pseq - BitVec.ofNat 32 held + BitVec.ofNat 32 l.length).toNat),
          (8, ahead - held)]))) ∧
    (∀ c : BitVec 16, opRuns s 0x52 = true → ∃ t, exec (.capRead hd c addr) s = .next t ∧ t.tio = { s.tio with capQ := s.tio.capQ.drop c.toNat, capLost := 0 } ∧
      Ends t hd 0x52 Status.ok ∧ (s.glb.pcie = true → s.tio.capQ.take c.toNat ≠ [] → t.out = .dma addr.toNat ((s.tio.capQ.take c.toNat).map CapRec.bytes).flatten :: s.out)) ∧
    (∀ c : BitVec 16, opRuns s 0x53 = true → ∃ t, exec (.edgeRead hd c addr) s = .next t ∧ t.tio = { s.tio with edgeQ := s.tio.edgeQ.drop c.toNat, edgeDrop := 0 } ∧
      Ends t hd 0x53 Status.ok ∧ (s.glb.pcie = true → s.tio.edgeQ.take c.toNat ≠ [] → t.out = .dma addr.toNat ((s.tio.edgeQ.take c.toNat).map EdgeRep.bytes).flatten :: s.out)) ∧
    (∀ first count : BitVec 32, opRuns s 0x72 = true → ∃ t, exec (.grantList hd first count addr) s = .next t ∧ Ends t hd 0x72 Status.ok ∧ t.ptp = s.ptp ∧
      (s.ptp.grants = [] → t = answered s hd 0x72 Status.ok 8 (pack [(0, 0), (4, first.toNat)]))) ∧
    (∀ (table : BitVec 8) (first count : BitVec 32), table.toNat ≤ 1 → enumHere s (table = 1) = true → opRuns s 0x94 = true → ∃ t, exec (.enumList hd table first addr count) s = .next t ∧ Ends t hd 0x94 Status.ok ∧ t.lnk.slots = s.lnk.slots ∧ t.lnk.shelves = s.lnk.shelves) ∧
    (∀ b : Blk, opRuns s 0xD0 = true → ∃ t, exec (.histRead hd (BitVec.ofNat 8 (Blk.id b)) addr) s = .next t ∧ Ends t hd 0xD0 Status.ok ∧ t.log = s.log ∧
      ((blkStat s b).hist ≠ [] → s.glb.pcie = true → t.out = .dma addr.toNat ((blkStat s b).hist.map recBytes).flatten :: s.out)) ∧
    (∀ len : BitVec 32, opRuns s 0xD1 = true → 4096 ≤ len.toNat → exec (.pantryRead hd 0 0 addr len) s =
      .next (complete (hostDma s addr.toNat (panBytes (panCopy s))) hd 0xD1 Status.ok 12 (pack [(0, 4096), (8, s.pan.log.length)]))) ∧
    (∀ first len : BitVec 32, opRuns s 0xD1 = true → len.toNat % 16 = 0 → exec (.pantryRead hd 1 first addr len) s = .next (complete
      (if ((s.pan.log.drop first.toNat).take (len.toNat / 16)).isEmpty then s
        else hostDma s addr.toNat (((s.pan.log.drop first.toNat).take (len.toNat / 16)).map panEntryBytes).flatten) hd 0xD1 Status.ok 12
      (pack [(0, 16 * ((s.pan.log.drop first.toNat).take (len.toNat / 16)).length),
        (4, first.toNat + ((s.pan.log.drop first.toNat).take (len.toNat / 16)).length), (8, s.pan.log.length)]))) ∧
    (opRuns s 0xBA = true → ∃ t, exec (.keyTamperRead hd addr) s = .next t ∧ Ends t hd 0xBA Status.ok ∧ t.key = s.key ∧
      (s.glb.pcie = true → t.out = .dma addr.toNat (tamperLogBytes s) :: s.out))

/-! ## Timed I/O -/

/-- R180, R182, R185, R186, R188, R189, R205: a PPS output's edge that is placed in the present tick moves its schedule on to a later second,
    the next one where none later has been emitted; a pulse's end takes
    the pin inactive; an edge of a trigger is fired and counted; a restart in PIN mode falls SYNC_DLY phases after the edge; a frequency output's next
    edge follows its period with the accumulator's carry, after a restart that falls in the tick. A step or a change of the clock state that waits at the
    tick comes before a leading edge.
    The model's readings in it, which are no rule of the spec: log entries 26, 80. -/
def Obligations.OutputEdgesPlaced : Prop :=
  (∀ (s : State) (o : Fin 4) (k : Nat), s.tio.ppsNext[o] = some k → tioOn s = true → (outCfg s o.val).1 = true → edgeWaits s = false →
    placeIdx s (ppsTarget s o.val k - outDelay s o.val) 1 < 16 → ∃ t n, exec (.ppsOutEdge o) s = .next t ∧ t.tio.ppsNext[o] = some n ∧ k < n ∧
      (((ppsRuns s o.val).all fun r => decide (r.2 ≤ k)) = true → n = k + 1) ∧ t.tco = s.tco ∧ t.words = s.words) ∧
  (∀ (s : State) (o : Fin 22) (e : Nat), (outPin s o.val).pulseEnd = some e → e < 16 * (s.now + 1) →
    ((outPin s o.val).level = .active → exec (.pulseTrailingEdge o) s = .next (driveOut (modOut s o.val fun p => { p with pulseEnd := none }) o.val .inactive e)) ∧
    ((outPin s o.val).level ≠ .active → exec (.pulseTrailingEdge o) s = .next (modOut s o.val fun p => { p with pulseEnd := none }))) ∧
  (∀ (s : State) (p : Fin 16) (x : Trig), s.tio.trigs[p] = some x → tioOn s = true → fld (ind s .tio 3 (4 * p.val)) 1 0 = 1 → edgeWaits s = false → trigDue s p x = true →
    exec (.trigEdge p) s = .next (trigSettle (trigFire s p x) p.val) ∧ ((trigFire s p x).tio.trigs[p].map Trig.j) = some (x.j + 1)) ∧
  (∀ (s : State) (ph : Fin 16), tioOn s = true → exec (.syncInEdge ph) s = .next ((List.range 2).foldl (fun u n =>
    if (outCfg u (n + 4)).1 && freqMode u n = 1 then freqCut u n (16 * u.now + ph.val + ind u .tio 2 (8 * n + 3)) else u) s)) ∧
  (∀ (s u : State) (n : Fin 2) (ph : Nat), tioOn s = true → (outCfg s (n.val + 4)).1 = true → edgeWaits s = false → u = freqSecond s n.val → u.tio.freq[n].next = some ph →
    ph < 16 * (s.now + 1) → ∃ t a, exec (.freqOutEdge n) s = .next t ∧ t.tio.freq[n].acc = a % 65536 ∧
      t.tio.freq[n].next = some (ph + (freqPeriod s n.val / 65536 + a / 65536)) ∧ a = u.tio.freq[n].acc + freqPeriod s n.val % 65536 ∧ t.tco = s.tco)

/-- R193, R194: an edge that the pin captures outside the dead time makes one record with the next CSEQ where the queue has room, and is counted as lost where
    it has none; R196, R613: an active PPS edge outside 500 ms of the last is stamped and counted; R195, R197 to R199: a time message joins the pulse that
    it names, or is late; an announcement gives its rank; a message of a kind that is not supported, and a faulty one, are reported; a pulse whose window
    ends is judged with its messages.
    The model's readings in it, which are no rule of the spec: log entries 70, 80. -/
def Obligations.InputEdgesStamped : Prop :=
  (∀ (s : State) (p ph : Fin 16) (rising : Bool), tioOn s = true → rb s Rg.tioCtrl 1 = true → fld (ind s .tio 3 (4 * p.val)) 1 0 = 2 →
    (fld (ind s .tio 3 (4 * p.val)) 4 3).testBit (if rising then 0 else 1) = true →
    (∀ l : Nat, s.tio.capLast[p] = some l → 16 * s.now + ph.val < l + 8 * ind s .tio 3 (4 * p.val + 2) → exec (.captureEdge p rising ph) s =
      .next { s with tio := { s.tio with capIgnored := s.tio.capIgnored + 1 } }) ∧
    ((∀ l ∈ s.tio.capLast[p], l + 8 * ind s .tio 3 (4 * p.val + 2) ≤ 16 * s.now + ph.val) →
      (s.tio.capQ.length < 512 → ∃ t r, exec (.captureEdge p rising ph) s = .next t ∧ t.tio.capQ = s.tio.capQ ++ [r] ∧ r.pin = p ∧ r.rising = rising ∧ r.cseq = s.tio.cseq ∧
        r.ts32 = ts32Of (stampCounter s (13 + p.val) 0 ph) ∧ r.lost = s.tio.capLostMark ∧ t.tio.cseq = s.tio.cseq + 1 ∧
        t.tio.capLast[p] = some (16 * s.now + ph.val) ∧ t.tco = s.tco) ∧
      (512 ≤ s.tio.capQ.length → ∃ t, exec (.captureEdge p rising ph) s = .next t ∧ t.tio.capQ = s.tio.capQ ∧ t.tio.capLost = s.tio.capLost + 1 ∧ t.tio.capLostMark = true ∧
        t.tio.capLast[p] = some (16 * s.now + ph.val) ∧ t.tco = s.tco))) ∧
  (∀ (s : State) (n : Fin 4) (rising : Bool) (ph : Fin 16), tioOn s = true → (ind s .tio 4 (4 * n.val)).testBit 0 ≠ rising →
    (∀ l : Nat, s.tio.ppsIn[n].lastTick = some l → s.now < l + ticksMs 500 → ∃ t, exec (.ppsInEdge n rising ph) s = .next t ∧
      t.tio.ppsIn[n].ignored = s.tio.ppsIn[n].ignored + 1 ∧ t.tio.ppsIn[n].pulses = s.tio.ppsIn[n].pulses ∧ t.refs = s.refs) ∧
    ((s.tio.ppsIn[n].lastTick.all fun l => decide (l + ticksMs 500 ≤ s.now)) = true → ∃ t, exec (.ppsInEdge n rising ph) s = .next t ∧ t.tio.ppsIn[n].lastTick = some s.now ∧
      t.tio.ppsIn[n].pulses = s.tio.ppsIn[n].pulses + 1 ∧ (rb s Rg.tioCtrl 2 = false → t.refs = s.refs ∧ t.tco = s.tco) ∧
      (rb s Rg.tioCtrl 2 = true → t.tio.ppsIn[n].begun = true))) ∧
  (∀ (s : State) (n : Fin 4), tioOn s = true → rb s Rg.tioCtrl 2 = true →
    (∃ t, exec (.todMessage n .other) s = .next t ∧
      t.tio.ppsIn[n].unsupported = s.tio.ppsIn[n].unsupported + 1 ∧ (blkStat t .tio).bits.getLsbD 3 = true ∧ t.refs = s.refs) ∧
    exec (.todMessage n .bad) s = .next (todErr s n 1) ∧
    (∀ cls acc var : Nat, exec (.todMessage n (.announce cls acc var)) s =
      .next (advertise (perfAdd s 664 1) (Fin.ofNat 16 (6 + n.val)) (ptpRank cls acc var))) ∧
    (∀ (sec : Nat) (utc : BitVec 16) (leap : BitVec 2) (q : Pulse), s.tio.ppsIn[n].begun = true →
      (todRef s n = true → exec (.todMessage n (.event sec utc leap)) s =
        .next (modIn s n fun p => { p with early := p.early ++ [{ sec := sec, utc := utc, leap := leap }] })) ∧
      (todRef s n = false → s.tio.ppsIn[n].pulse = some q → s.now ≤ q.tick + todWin s n → exec (.todMessage n (.event sec utc leap)) s =
        .next (modIn s n fun k => { k with pulse := some { q with msgs := q.msgs ++ [{ sec := sec, utc := utc, leap := leap }] } })) ∧
      (todRef s n = false → s.tio.ppsIn[n].pulse = none → exec (.todMessage n (.event sec utc leap)) s = .next (todErr s n 3)))) ∧
  (∀ (s : State) (n : Fin 4) (q : Pulse), s.tio.ppsIn[n].pulse = some q → rb s Rg.tioCtrl 2 = true → q.tick + todWin s n ≤ s.now →
    (q.tick + todWin s n < s.now ∨ todWaits s n = false) →
    exec (.todWinExpiry n) s = .next (modIn (todJudge s n q q.msgs) n fun k => { k with pulse := none }) ∧
    (q.msgs = [] → ∃ t, exec (.todWinExpiry n) s = .next t ∧ t.tio.ppsIn[n].pulse = none ∧ (blkStat t .tio).bits.getLsbD 3 = true ∧ t.refs = s.refs))

/-- R186, R190, R191, R205: TRIG_ARM arms a free pin 10 µs or more ahead and answers with the arm's number; TRIG_STOP at once ends it, after an edge of the
    present tick, or sets the instant from which on no edge is emitted; FREQ_SYNC arms a restart of FREE outputs.
    The model's readings in it, which are no rule of the spec: log entry 70. -/
def Obligations.TriggerCommandsAct : Prop :=
  ∀ (s : State) (hd : Hdr), Accepts s hd 0x50 → standbyHeld s = false →
    (∀ (p : Fin 16) (addr : BitVec 64) (block : BitVec 256) (x : Trig), rb s Rg.tioCtrl 0 = true → trigBlock s (BitVec.ofNat 8 p.val) block = some x → s.tio.trigs[p] = none →
      subNs s.tco.counter + 10000 * 65536 ≤ x.startSec * subSec + x.startSub →
      ∃ t, exec (.trigArm hd (BitVec.ofNat 8 p.val) ⟨addr, block⟩) s = .next (answered t hd 0x50 Status.ok 4 x.arm.toNat) ∧ t.tio.trigs[p] = some x ∧
        t.tio.armSeq = s.tio.armSeq + 1 ∧ x.arm = s.tio.armSeq ∧ t.tco = s.tco ∧ t.tio.capQ = s.tio.capQ) ∧
    (∀ (p : Fin 16) (x : Trig) (sec : BitVec 64) (ns : BitVec 32), s.tio.trigs[p] = some x → sec.toNat < 2 ^ 48 → ns.toNat < 1000000000 →
      (∃ t, exec (.trigStop hd (BitVec.ofNat 8 p.val) 0 sec ns) s = .next t ∧ t.tio.trigs[p] = none ∧ Ends t hd 0x51 Status.ok ∧ t.tco = s.tco) ∧
      exec (.trigStop hd (BitVec.ofNat 8 p.val) 1 sec ns) s = .next (complete (trigSettle (mirrorTrig
        { s with tio := { s.tio with trigs := s.tio.trigs.set p (some { x with stopAt := some (sec.toNat * subSec + ns.toNat * 65536) }) } } p.val
        { x with stopAt := some (sec.toNat * subSec + ns.toNat * 65536) }) p.val) hd 0x51 Status.ok 4 (sat32 x.emitted))) ∧
    (∀ mask : BitVec 8, mask.toNat ≤ 3 → (∀ n : Fin 2, mask.getLsbD n.val = true → freqMode s n.val = 0) → ∃ t, exec (.freqSync hd mask) s =
      .next (answered t hd 0x54 Status.ok 0 0) ∧ (∀ n : Fin 2, (mask.getLsbD n.val = true → t.tio.freq[n].syncArmed = true) ∧
        (mask.getLsbD n.val = false → t.tio.freq[n] = s.tio.freq[n])) ∧ t.tco = s.tco)

/-! ## NTP and NTS service -/

/-- R216, R230, R236, R238, R239: the drops of a second are reported and counted anew, those of the buckets and those over SVC_KOD_MAX; a rotation and a
    retirement of cookie keys take effect at their instants; the sweep ages the sketch. -/
def Obligations.ServiceEventsAct : Prop :=
  (∀ s : State, s.svc.polAt + ticksS 1 ≤ s.now → ∃ t, exec .policing s = .next t ∧ t.svc.polAt = s.now ∧
    (∀ p : Fin 8, t.svc.ports[p].dropPlain = 0 ∧ t.svc.ports[p].dropNts = 0 ∧ t.svc.ports[p].plain = s.svc.ports[p].plain) ∧ t.svc.keys = s.svc.keys) ∧
  (∀ s : State, s.svc.kodDrop ≠ 0 → s.svc.capAt + ticksS 1 ≤ s.now → ∃ t, exec .kodCap s = .next t ∧ t.svc = { s.svc with kodDrop := 0, capAt := s.now } ∧
    (blkStat t .svc).bits.getLsbD 4 = true) ∧
  (∀ (s : State) (i : Fin 16) (u : Nat), s.svc.rotate = some (i, u) → u ≤ totNs s.tco.counter →
    ∃ t, exec .cookieRotateInstant s = .next t ∧ t.svc.cur = some i ∧ t.svc.keys[i].st = .current ∧ t.svc.rotate = none ∧
      (∀ j, s.svc.cur = some j → j ≠ i → s.svc.keys[j].st = .current → t.svc.keys[j].st = .accept) ∧ t.key = s.key) ∧
  (∀ (s : State) (i : Fin 16) (u : Nat), s.svc.keys[i].retireAt = some u → u ≤ totNs s.tco.counter →
    ∃ t, exec (.cookieRetireInstant i) s = .next t ∧ t.svc.keys[i] = { keyId := 0, slot := 0, st := .empty, unsealed := 0, retireAt := none } ∧
      (s.svc.cur = some i → t.svc.cur = none) ∧ (∀ j, j ≠ i → t.svc.keys[j] = s.svc.keys[j]) ∧ t.key = s.key) ∧
  (∀ s : State, ∃ t, exec .rlSweep s = .next t ∧ (∀ c ∈ t.svc.sketch, c.2.tag = BitVec.ofNat 2 (rlEpoch s)) ∧ t.svc.keys = s.svc.keys ∧ t.svc.hashKey = s.svc.hashKey)

/-- R225, R236 to R239, R243, R244: the commands of the service act on the cookie entry or the sketch and complete OK; a rotation or retirement named for now
    takes effect at once.
    The model's readings in it, which are no rule of the spec: log entries 19, 27. -/
def Obligations.ServiceCommandsAct : Prop :=
  ∀ (s : State) (hd : Hdr), s.hif.discard.contains hd = false → s.pwr.phase = .ready → coreUp s 3 = true →
    (∀ (e : CookieKey) (aead : BitVec 16) (count : BitVec 8) (keys : List Byte) (src addr : BitVec 64) (len : BitVec 32),
      mintEntry s (cookieTable s (nowNs s)) (nowNs s) = some e → aeadOn s aead.toNat = true → count ≠ 0 → count.toNat ≤ 8 →
      count.toNat * cookieLen aead.toNat ≤ len.toNat → tamperWaits (hostRead s src.toNat (2 * aeadKeyLen aead.toNat)) = false →
      ∃ t, exec (.cookieMint hd aead count ⟨src, keys⟩ addr len) s = .next t ∧ Ends t hd 0x60 Status.ok ∧ t.svc.cur = s.svc.cur ∧ t.tco = s.tco) ∧
    (∀ (i : Fin 16) (slot_ : BitVec 8) (keyId : BitVec 32), standbyHeld s = false → s.svc.keys[i].st = .empty → keyId ≠ 0 → cookieUsable s slot_.toNat = true →
      (∀ j : Fin 16, s.svc.keys[j].st = .empty ∨ s.svc.keys[j].keyId ≠ keyId) →
      ∃ t, exec (.cookieKeyLoad hd (BitVec.ofNat 8 i.val) slot_ keyId) s = .next (answered t hd 0x61 Status.ok 0 0) ∧
        t.svc.keys[i] = { keyId := keyId, slot := slot_, st := .accept, unsealed := 0, retireAt := none } ∧ t.svc.cur = s.svc.cur ∧ t.key = s.key) ∧
    (∀ (i : Fin 16) (sec : BitVec 64) (ns : BitVec 32) (u : Nat), standbyHeld s = false → s.svc.keys[i].st = .accept → s.svc.rotate = none → ns.toNat < 1000000000 →
      u = atInstant s sec ns →
      (totNs s.tco.counter < u → ∃ t r, exec (.cookieRotate hd (BitVec.ofNat 8 i.val) sec ns) s = .next (answered t hd 0x62 Status.ok 16 r) ∧
        t.svc.rotate = some (i, u) ∧ t.svc.keys = s.svc.keys ∧ t.svc.cur = s.svc.cur) ∧
      (u = totNs s.tco.counter → ∃ t r, exec (.cookieRotate hd (BitVec.ofNat 8 i.val) sec ns) s = .next (answered t hd 0x62 Status.ok 16 r) ∧
        t.svc.rotate = none ∧ t.svc.cur = some i ∧ t.svc.keys[i].st = .current)) ∧
    (∀ (i : Fin 16) (sec : BitVec 64) (ns : BitVec 32) (u : Nat), standbyHeld s = false → (s.svc.keys[i].st = .accept ∨ s.svc.keys[i].st = .current) → ns.toNat < 1000000000 →
      u = atInstant s sec ns →
      (totNs s.tco.counter < u → ∃ t r, exec (.cookieKeyRetire hd (BitVec.ofNat 8 i.val) sec ns) s = .next (answered t hd 0x63 Status.ok 16 r) ∧
        t.svc.keys[i].st = .retiring ∧ t.svc.keys[i].retireAt = some u ∧ (∀ j, j ≠ i → t.svc.keys[j] = s.svc.keys[j])) ∧
      (u = totNs s.tco.counter → ∃ t r, exec (.cookieKeyRetire hd (BitVec.ofNat 8 i.val) sec ns) s = .next (answered t hd 0x63 Status.ok 16 r) ∧
        t.svc.keys[i].st = .empty ∧ (∀ j, j ≠ i → t.svc.keys[j] = s.svc.keys[j]))) ∧
    (∀ (fam : BitVec 8) (addr : BitVec 128), fam.toNat ≤ 1 → ∃ r, exec (.rlQuery hd fam addr) s = .next (answered s hd 0x64 Status.ok 2 r)) ∧
    (∃ t, exec (.rlClear hd) s = .next (answered t hd 0x65 Status.ok 0 0) ∧ t.svc.sketch = [] ∧ t.svc.keys = s.svc.keys)

/-! ## PTP service -/

/-- What happens of itself in the PTP instances, grants and keys.
    - R251, R253, R255, R256, R260, R266 to R269, R281: at its instant a Sync or Announce stream, of an instance's ports or of a grant, sends with the
      next sequence number, or sends nothing while the instance is silenced or does not serve, and its next instant follows its interval; the oldest
      follow-up leaves its queue; a grant whose time is up ends; the alarm takes each instance's drops.
    - R273 to R276, R281, R480: a slave asks again for a grant with a quarter left (of Sync and Delay_Resp only at the chosen master), loses one that
      ended, asks for a lost one after an Announce interval, loses a candidate after its receipt timeout, and sends its delay request, with the next
      sequence number, at the interval if it has a master and, where it needs one, the grant; rotations and retirements of security keys take effect
      at their instants.
    The model's readings in it, which are no rule of the spec: log entry 22. -/
def Obligations.PtpEventsAct : Prop :=
  ((∀ (s : State) (i : Fin 16), (inst s i).running = true → isSlave s i = false → profile s i ≠ 2 → (inst s i).nextSync ≤ s.now →
    (silenced s i = true ∨ servingAt s (subNs (schedCounter s (inst s i).nextSync)) = false) →
    exec (.ptpScheduledSend i .sync none) s = .next (modInst s i fun k => { k with nextSync := k.nextSync + logTicks (logSync s i) })) ∧
  (∀ (s : State) (i : Fin 16), (inst s i).running = true → isSlave s i = false → profile s i ≠ 2 → (inst s i).nextAnn ≤ s.now →
    (silenced s i = true ∨ servingAt s (subNs (schedCounter s (inst s i).nextAnn)) = false) →
    exec (.ptpScheduledSend i .announce none) s = .next (modInst s i fun k => { k with nextAnn := k.nextAnn + logTicks (logAnn s i) })) ∧
  (∀ (s v : State) (i : Fin 16), (inst s i).running = true → isSlave s i = false → profile s i ≠ 2 → (inst s i).nextSync ≤ s.now → silenced s i = false →
    servingAt s (subNs (schedCounter s (inst s i).nextSync)) = true →
    v = modInst (modInst s i fun k => { k with nextSync := k.nextSync + logTicks (logSync s i) }) i (fun k => { k with seqSync := k.seqSync + 1 }) →
    exec (.ptpScheduledSend i .sync none) s = .next (mirrorSeqs ((instPorts v i).foldl (fun u p => sendSync u i p.val .multicast (inst s i).seqSync
        (logSync v i) none (inst s i).nextSync) v) i false)) ∧
  (∀ (s v : State) (i : Fin 16), (inst s i).running = true → isSlave s i = false → profile s i ≠ 2 → (inst s i).nextAnn ≤ s.now → silenced s i = false →
    servingAt s (subNs (schedCounter s (inst s i).nextAnn)) = true →
    v = modInst (modInst s i fun k => { k with nextAnn := k.nextAnn + logTicks (logAnn s i) }) i (fun k => { k with seqAnn := k.seqAnn + 1 }) →
    exec (.ptpScheduledSend i .announce none) s = .next (mirrorSeqs ((instPorts v i).foldl (fun u p => sendAnnounce u i p.val .multicast (inst s i).seqAnn
        (logAnn v i) none (inst s i).nextAnn) v) i false)) ∧
  (∀ (s : State) (i : Fin 16) (e : Nat) (g : GrantEntry) (kind : GrantKind) (x : Grant), (inst s i).running = true → isSlave s i = false → grantAt s e = some g →
    g.get kind = some x → g.inst = i → kind ≠ .delayResp → x.next ≤ s.now → streamRuns s g kind x = true →
    ((silenced s i = true ∨ servingAt s (subNs (schedCounter s x.next)) = false ∨ cancelWaits s e g kind = true) → exec (.ptpScheduledSend i kind (some e)) s =
      .next (putGrant s e (g.put kind (some { x with next := x.next + logTicks x.logInt })))) ∧
    (∀ v : State, silenced s i = false → servingAt s (subNs (schedCounter s x.next)) = true → cancelWaits s e g kind = false →
      v = putGrant s e (g.put kind (some { x with next := x.next + logTicks x.logInt, seqId := x.seqId + 1 })) → exec (.ptpScheduledSend i kind (some e)) s =
      .next (mirrorGrant (if kind = .sync then sendSync (entryDest v g).2 i g.port.val (entryDest v g).1 x.seqId x.logInt (some e) x.next
        else sendAnnounce (entryDest v g).2 i g.port.val (entryDest v g).1 x.seqId x.logInt (some e) x.next) e false))) ∧
  (∀ (s : State) (f : FollowUp) (rest : List FollowUp), s.ptp.follow = f :: rest →
    (followMay { s with ptp := { s.ptp with follow := rest } } f = false → exec .followUpSend s =
      .next (pump { s with ptp := { s.ptp with follow := rest } } (Fin.ofNat 9 f.port.val))) ∧
    (followMay { s with ptp := { s.ptp with follow := rest } } f = true → ∃ t, exec .followUpSend s = .next t ∧ rest.isPrefixOf t.ptp.follow = true ∧
      t.ptp.keys = s.ptp.keys)) ∧
  (∀ (s : State) (e : Nat) (g : GrantEntry) (kind : GrantKind) (x : Grant), grantAt s e = some g → g.get kind = some x → streamRuns s g kind x = false →
    exec (.grantExpiry e kind) s = .next (mirrorGrant (putGrant s e (g.put kind none)) e false)) ∧
  (∀ s : State, s.ptp.alarmAt + ticksS 1 ≤ s.now → ∃ t, exec .authAlarm s = .next t ∧ t.ptp.alarmAt = s.now ∧ (∀ i : Fin 16, (inst t i).authDrops = 0) ∧
    t.ptp.keys = s.ptp.keys ∧ t.ptp.grants = s.ptp.grants)) ∧
  ((∀ (s : State) (i : Fin 16) (k : Fin 4) (kind : GrantKind) (g : SlaveGrant), slaveGrant s i k kind = some g → (inst s i).running = true → coreUp s 3 = true →
    g.held = true → g.asked = false → s.now < g.until_ → 4 * (g.until_ - s.now) ≤ g.dur → (kind = .announce ∨ masterIdx s i = some k) → exec (.grantRenewal i k kind) s = .next (askGrant s i k kind)) ∧
  (∀ (s : State) (i : Fin 16) (k : Fin 4) (kind : GrantKind) (g : SlaveGrant), slaveGrant s i k kind = some g → (inst s i).running = true → coreUp s 3 = true →
    (g.held = true → g.until_ ≤ s.now → (g.until_ < s.now ∨ regrantWaits s i k kind = false) → ∃ t, exec (.grantRetry i k kind) s = .next t ∧
      (∀ x ∈ (inst t i).grants, x.listIdx = k → x.kind = kind → x.held = false) ∧ (blkStat t .ptp).bits.getLsbD 3 = true ∧ t.ptp.keys = s.ptp.keys) ∧
    (∀ u : Nat, g.held = false → g.retryAt = some u → u ≤ s.now → (kind = .announce ∨ masterIdx s i = some k) → exec (.grantRetry i k kind) s = .next (askGrant s i k kind))) ∧
  (∀ (s : State) (i : Fin 16) (c : Candidate), (inst s i).cands.find? (fun x => x.ident = c.ident) = some c →
    c.last + fld (ptpCfg s i 4) 31 24 * logTicks (logAnn s i) ≤ s.now → (c.last + fld (ptpCfg s i 4) 31 24 * logTicks (logAnn s i) < s.now ∨
      ptpWaits s i (fun x => x.msg.type = .announce && x.msg.src = c.ident) = false) → exec (.announceReceiptTimeout i c.ident) s =
      .next (selectMaster (modInst s i fun k => { k with cands := k.cands.filter fun x => x.ident != c.ident }) i)) ∧
  (∀ (s : State) (i : Fin 16), (inst s i).running = true → isSlave s i = true → (inst s i).nextDelay ≤ s.now → (inst s i).master = none → profile s i ≠ 3 →
    exec (.delayReqSend i) s = .next (modInst s i fun k => { k with nextDelay := k.nextDelay + logTicks (logDelay s i) })) ∧
  (∀ (s : State) (i : Fin 16), (inst s i).running = true → isSlave s i = true → (inst s i).nextDelay ≤ s.now →
    ((inst s i).master.isSome = true ∨ profile s i = 3) →
    (profile s i ≠ 2 ∨ (match masterIdx s i with
      | some idx => (slaveGrant s i idx .delayResp).any fun g => g.held && decide (s.now < g.until_)
      | none => false) = true) →
    (∀ key : Option SecKey, signKey s i (totNs (schedCounter s (inst s i).nextDelay)) = some key → ∃ t, exec (.delayReqSend i) s = .next t ∧
      (inst t i).seqDelay = (inst s i).seqDelay + 1 ∧ (inst t i).nextDelay = (inst s i).nextDelay + logTicks (logDelay s i) ∧ t.ptp.keys = s.ptp.keys ∧ t.tco = s.tco) ∧
    (signKey s i (totNs (schedCounter s (inst s i).nextDelay)) = none → exec (.delayReqSend i) s =
      .next (secNoKey (modInst s i fun k => { k with nextDelay := k.nextDelay + logTicks (logDelay s i) }) i))) ∧
  (∀ (s : State) (e : Fin 64) (u : Nat), s.ptp.rotate.find? (fun r => r.1 = e) = some (e, u) → u ≤ totNs s.tco.counter → ∃ t, exec (.secKeyRotateInstant e) s = .next t ∧
    t.ptp.keys[e].st = .current ∧ (∀ r ∈ t.ptp.rotate, r.1 ≠ e) ∧ (∀ j : Fin 64, j ≠ e → t.ptp.keys[j].spp = s.ptp.keys[e].spp → t.ptp.keys[j].st ≠ .current) ∧ t.key = s.key) ∧
  (∀ (s : State) (e : Fin 64) (u : Nat), s.ptp.keys[e].retireAt = some u → u ≤ totNs s.tco.counter → ∃ t, exec (.secKeyRetireInstant e) s = .next t ∧
    t.ptp.keys[e] = SecKey.empty ∧ (∀ j : Fin 64, j ≠ e → t.ptp.keys[j] = s.ptp.keys[j]) ∧ t.key = s.key) ∧
  (∀ (s : State) (i : Fin 16) (k : Fin 4) (kind : GrantKind), kind ≠ .announce → masterIdx s i ≠ some k → exec (.grantRenewal i k kind) s = .next s))

/-- R267, R273, R282: the commands of the PTP service answer for, cancel, load, rotate and retire what they name; a rotation or retirement named for now takes
    effect at once.
    The model's readings in it, which are no rule of the spec: log entry 72. -/
def Obligations.PtpCommandsAct : Prop :=
  ∀ (s : State) (hd : Hdr), s.hif.discard.contains hd = false → s.pwr.phase = .ready → coreUp s 3 = true →
    (∀ (i : Fin 16) (fam : BitVec 8) (addr : BitVec 128) (udp : BitVec 16) (e : Nat) (g : GrantEntry), fam.toNat ≤ 1 →
      findGrant s i (fam = 1) (addrArg (fam = 1) addr) udp none = some e → grantAt s e = some g →
      ∃ r, exec (.grantQuery hd (BitVec.ofNat 8 i.val) fam addr udp) s = .next (answered s hd 0x70 Status.ok 28 r)) ∧
    (∀ (entry : BitVec 32) (inst_ : BitVec 8) (l : List Nat), standbyHeld s = false → l ≠ [] → l = (if entry = 0xFFFFFFFF then
        (s.ptp.grants.filter fun x => x.2.inst.val = inst_.toNat).map Prod.fst else (s.ptp.grants.filter fun x => x.1 = entry.toNat).map Prod.fst) →
      exec (.grantCancel hd entry inst_) s = .next (complete (l.foldl (fun u e => cancelEntry u e true) s) hd 0x71 Status.ok 4 l.length)) ∧
    (∀ (e : Fin 64) (slot_ spp alg : BitVec 8) (keyId : BitVec 32), standbyHeld s = false → s.ptp.keys[e].st = .empty → alg.toNat ≤ 1 → macUsable s slot_.toNat (alg = 1) = true →
      (∀ j : Fin 64, s.ptp.keys[j].st = .empty ∨ s.ptp.keys[j].spp ≠ spp ∨ s.ptp.keys[j].keyId ≠ keyId) →
      ∃ t, exec (.secKeyLoad hd (BitVec.ofNat 8 e.val) slot_ spp alg keyId) s = .next (answered t hd 0x73 Status.ok 0 0) ∧
        t.ptp.keys[e].st = .accept ∧ t.ptp.keys[e].keyId = keyId ∧ t.ptp.keys[e].slot = slot_ ∧ t.ptp.keys[e].spp = spp ∧
        (∀ j : Fin 64, j ≠ e → t.ptp.keys[j] = s.ptp.keys[j]) ∧ t.key = s.key) ∧
    (∀ (e : Fin 64) (sec : BitVec 64) (ns : BitVec 32) (u : Nat), standbyHeld s = false → s.ptp.keys[e].st = .accept →
      (s.ptp.rotate.any fun r => s.ptp.keys[r.1].spp = s.ptp.keys[e].spp) = false → ns.toNat < 1000000000 → u = atInstant s sec ns →
      (totNs s.tco.counter < u → ∃ t r, exec (.secKeyRotate hd (BitVec.ofNat 8 e.val) sec ns) s = .next (answered t hd 0x74 Status.ok 16 r) ∧
        t.ptp.rotate = s.ptp.rotate ++ [(e, u)] ∧ t.ptp.keys = s.ptp.keys) ∧
      (u = totNs s.tco.counter → ∃ t r, exec (.secKeyRotate hd (BitVec.ofNat 8 e.val) sec ns) s = .next (answered t hd 0x74 Status.ok 16 r) ∧
        t.ptp.keys[e].st = .current)) ∧
    (∀ (e : Fin 64) (sec : BitVec 64) (ns : BitVec 32) (u : Nat), standbyHeld s = false → s.ptp.keys[e].st ≠ .empty → ns.toNat < 1000000000 → u = atInstant s sec ns →
      (totNs s.tco.counter < u → ∃ t r, exec (.secKeyRetire hd (BitVec.ofNat 8 e.val) sec ns) s = .next (answered t hd 0x75 Status.ok 16 r) ∧
        t.ptp.keys[e].retireAt = some u ∧ t.ptp.keys[e].st = s.ptp.keys[e].st) ∧
      (u = totNs s.tco.counter → ∃ t r, exec (.secKeyRetire hd (BitVec.ofNat 8 e.val) sec ns) s = .next (answered t hd 0x75 Status.ok 16 r) ∧
        t.ptp.keys[e] = SecKey.empty)) ∧
    (∀ i : Fin 16, (inst s i).running = true → isSlave s i = true → ∃ r, exec (.slaveQuery hd (BitVec.ofNat 8 i.val)) s = .next (answered s hd 0x76 Status.ok 37 r))

/-! ## Ethernet ports -/

/-- Frames, pauses and states of the service ports.
    - R17, R23, R294, R295, R297, R302 to R305, R319, R448 to R450: a frame with a fault reaches no block and no ring, and one whose buffer is damaged
      neither; one without goes to what takes it; a frame to the port's own address that no block takes goes into the host's ring 14; pauses whose
      time is up end and the queues resume, the watchdog ends a long one with PAUSE_BREAK, and its hold ends; a full buffer sends a pause once in 100
      µs, an emptied one the end of it; a host frame for a port that does not run completes STATE, and one for a port that is up joins its queue.
    - R289, R309, R310, R315, R317, R319: five seconds without a PDU fail a port's quality level; a PDU leaves once a second and on a change of level;
      a link that comes up or goes down shows at its port and in the status; a matching frame in Simmer drives WAKE_N low.
    The model's readings in it, which are no rule of the spec: log entries 22, 74 to 76. -/
def Obligations.PortsFollow : Prop :=
  ((∀ (s : State) (p : Fin 9) (ph : Fin 16) (tk : Bool) (ok bad : Nat) (ds : List (BitVec 256)) (f : EthFrame), portRuns s p = true → (ethPort s p).up = true →
    f.len ≠ 0 →
    (∀ c : Nat, (ethPort s p).rxBad = false → rxFault s p f = some c → ∃ t, exec (.frameReceive p ph tk ok bad ds f) s = .next t ∧ t.out = s.out ∧ t.hif = s.hif ∧
      t.svc = s.svc ∧ t.ptp = s.ptp ∧ t.tco = s.tco ∧ t.words = s.words) ∧
    ((ethPort s p).rxBad = true → ∃ t, exec (.frameReceive p ph tk ok bad ds f) s = .next t ∧ (ethPort t p).rxBad = false ∧ t.out = s.out ∧ t.hif = s.hif ∧
      t.svc = s.svc ∧ t.ptp = s.ptp ∧ t.tco = s.tco ∧ t.words = s.words) ∧
    (∀ u : State, u = perfAdd (ethCnt (ethCnt s p 9 ok) p 10 bad) (112 + 16 * p.val) 1 → (ethPort u p).rxBad = false → rxFault u p f = none →
      exec (.frameReceive p ph tk ok bad ds f) s = .next (rxFrame u p ph tk f ds))) ∧
  (∀ (s : State) (p : Fin 9) (ph : Fin 16) (tk : Bool) (ok bad : Nat) (d : BitVec 256) (f : EthFrame) (et : BitVec 16) (ip : Option IpHdr), portRuns s p = true →
    (ethPort s p).up = true → f.len ≠ 0 → (ethPort s p).rxBad = false → rxFault s p f = none → f.body = .other et ip → f.tags = [] → f.dst = portMac s p →
    f.dst ≠ 0x0180C2000001 → f.raw ≠ [] →
    (List.range 32).find? (filterMatch s p f) = none → s.glb.pcie = true → ringRuns s 14 = true → ringPosted s 14 ≠ 0 → rxMalformed d = false →
    f.raw.length ≤ fld d.toNat 79 64 → ∃ t, exec (.frameReceive p ph tk ok bad [d] f) s = .next t ∧ (ring t 14).eng = (ring s 14).eng + 1 ∧
      (.dma (fld d.toNat 63 0) f.raw) ∈ t.out ∧ t.hif.rxSeq = vmod s.hif.rxSeq 1 (· + 1) ∧ t.tco = s.tco ∧ t.words = s.words) ∧
  (∀ (s : State) (p : Fin 9), exec (.pauseExpiry p) s = .next (pump (modPort s p fun k =>
      { k with pause := k.pause.map (lapsed s), pauseAll := lapsed s k.pauseAll, pauseAllT := lapsed s k.pauseAllT }) p) ∧
    ((ethPort s p).qT = [] → (ethPort s p).qM = [] → ∃ t, exec (.pauseExpiry p) s = .next t ∧
      (∀ u, (ethPort t p).pauseAll = some u → s.now < u) ∧ (ethPort t p).wdHold = (ethPort s p).wdHold ∧ t.tco = s.tco)) ∧
  (∀ (s : State) (p : Fin 9) (u : Nat), (ethPort s p).wdAt = some u → pausedT s p = true → (ethPort s p).qT ≠ [] → u + ticksUs (ethCfg s p 2) ≤ s.now →
    pauseEndWaits s p = false → ∃ t, exec (.pauseWdExpiry p) s = .next t ∧ (blkStat t .eth).bits.getLsbD 1 = true ∧ (ethPort t p).pauseAllT = none ∧ t.tco = s.tco) ∧
  (∀ (s : State) (p : Fin 9), exec (.wdHoldExpiry p) s = .next (modPort s p fun k => { k with wdHold := lapsed s k.wdHold })) ∧
  (∀ (s : State) (p : Fin 9) (share : Nat), portRuns s p = true → (ethPort s p).up = true → (fcMode s p = 1 ∨ fcMode s p = 2) → (ethCfg s p 0).testBit 10 = true →
    (75 < share → ((ethPort s p).txPausing = false ∨ (ethPort s p).txPauseAt ≤ s.now) → exec (.txPauseSend p share) s =
      .next (sendPause (modPort s p fun k => { k with txPausing := true, txPauseAt := s.now + ticksUs 100 }) p 0xFFFF)) ∧
    (share < 50 → (ethPort s p).txPausing = true → exec (.txPauseSend p share) s = .next (sendPause (modPort s p fun k => { k with txPausing := false }) p 0))) ∧
  (∀ (s u : State) (r : Fin 2) (descs ds : List (BitVec 256)) (p : Fin 9) (data bytes : List Byte), s.pwr.phase = .ready → ringRuns s (11 + r.val) = true →
    (r.val = 1 → txAhead s descs = false) → txFrameDescs (descs.take (ringPosted s (11 + r.val))) = some ds → ds ≠ [] → ds.length ≤ 8 → ds.any txMalformed = false →
    (ds.all fun d => txPort d = p.val && txLen d != 0 && decide (txLen d ≤ 9212)) = true →
    bytes = data.take ((ds.map txLen).foldl (· + ·) 0) ++ List.replicate ((ds.map txLen).foldl (· + ·) 0 - data.length) 0 → bytes.length + 4 ≤ ethCfg s p 1 →
    u = ringAdvance (ds.foldl (fun v d => hostRead v (txAddr d) (txLen d)) (ringReads s (11 + r.val) ds.length)) (11 + r.val) ds.length →
    (portRuns s p = false → exec (.hostTxFrame r descs data) s = .next (hostTxDone u r ((ring s (11 + r.val)).eng + BitVec.ofNat 32 (ds.length - 1)) Status.state)) ∧
    (portRuns s p = true → (ethPort s p).up = true →
      (if classT s p (framePcp s p (hostFrame bytes)) then fullT s p (hostFrame bytes).len else fullM s p (hostFrame bytes).len) = false →
      exec (.hostTxFrame r descs data) s = .next (txPut (if bytes.length < 60 then ethCnt u p 35 1 else u) p (classT s p (framePcp s p (hostFrame bytes)))
        { frame := hostFrame bytes, bytes := (hostFrame bytes).len, fill := .none,
          host := some (r, (ring s (11 + r.val)).eng + BitVec.ofNat 32 (ds.length - 1), (ds.find? fun d => (txFlags d).testBit 1).map fun d => BitVec.ofNat 16 (txId d)),
          grant := none })))) ∧
  ((∀ (s : State) (p : Fin 9), p.val < 8 → s.pwr.phase = .ready → (ethPort s p).esmcAt + ticksS 5 ≤ s.now → ((ethPort s p).esmcAt + ticksS 5 < s.now ∨ esmcWaits s p = false) →
    exec (.esmcTimeout p) s = .next (failQl s p)) ∧
  (∀ (s : State) (p : Fin 9), esmcPort s p = true → serving s = true → (ethCfg s p 0).testBit 12 = true →
    ((ethPort s p).infoAt + ticksS 1 ≤ s.now → exec (.esmcInfoSend p) s = .next (sendEsmc s p false)) ∧
    ((ethPort s p).qlSent.isSome = true → (ethPort s p).qlSent ≠ some (qlToSend s p) → exec (.esmcEventSend p) s = .next (sendEsmc s p true))) ∧
  (∀ (s : State) (p : Fin 9) (an : Bool) (speed : BitVec 2), portRuns s p = true → (ethPort s p).up = false → ∃ t, exec (.portLinkUp p an speed) s = .next t ∧
    (ethPort t p).up = true ∧ (blkStat t .eth).bits.getLsbD 0 = true ∧ t.tco = s.tco) ∧
  (∀ (s : State) (p : Fin 9) (cut : Bool), (ethPort s p).up = true → ∃ t, exec (.portLinkDown p cut) s = .next t ∧ t = portDown (if cut then ethCnt s p 47 1 else s) p ∧
    (ethPort t p).up = false) ∧
  (∀ (s : State) (w : WakeCopy) (f : EthFrame), s.eth.wake = some w → s.pwr.state = .simmer → s.eth.wakeN = true → f.fcsOk = true → wakeCauseOf w f.raw ≠ 0 →
    exec (.wakeMatch f) s = .next (emitOut { s with eth := { s.eth with wakeN := false, wakeCause := BitVec.ofNat 32 (wakeCauseOf w f.raw + 32) } } (.wake true))))

/-- R289, R318, R320: PORT_QUERY answers; a module transfer that is acknowledged in time moves its bytes and completes OK; PORT_RESTART starts the port anew.
    The model's readings in it, which are no rule of the spec: log entries 27, 76. -/
def Obligations.PortCommandsAct : Prop :=
  ∀ (s : State) (hd : Hdr) (p : Fin 9), s.hif.discard.contains hd = false → s.pwr.phase = .ready →
    (opRuns s 0x80 = true → exec (.portQuery hd (BitVec.ofNat 8 p.val)) s = .next (answered s hd 0x80 Status.ok 16 (pack [(0, portWord2 s p), (4, (ethPort s p).ssm.toNat),
      (5, (ethPort s p).essm.toNat), (8, (ethPort s p).changeTs.toNat)]))) ∧
    (∀ (bus addr len width : BitVec 8) (off : BitVec 16) (buf : BitVec 64) (data b : List Byte), opRuns s 0x81 = true → bus.toNat ≤ 1 → addr.toNat ≤ 127 → len ≠ 0 → len.toNat ≤ 128 →
      (width = 1 ∧ off.toNat ≤ 255 ∨ width = 2) → b = data.take len.toNat ++ List.replicate (len.toNat - data.length) 0 →
      exec (.modI2c hd bus addr 0 len off width buf true true data) s = .next (complete (emitOut (hostRead s buf.toNat len.toNat) (.i2c bus.toNat
        (if rb s Rg.ethSbCfg bus.toNat then 400 else 100) addr (beBytes width.toNat off.toNat) b 0)) hd 0x81 Status.ok 1 len.toNat) ∧
      exec (.modI2c hd bus addr 1 len off width buf true true data) s = .next (complete (hostDma (emitOut s (.i2c bus.toNat
        (if rb s Rg.ethSbCfg bus.toNat then 400 else 100) addr (beBytes width.toNat off.toNat) [] len.toNat)) buf.toNat b) hd 0x81 Status.ok 1 len.toNat)) ∧
    (∀ (clause port dev : BitVec 8) (reg data val : BitVec 16), opRuns s 0x82 = true → (clause = 22 ∨ clause = 45) → port.toNat ≤ 31 → dev.toNat ≤ 31 →
      exec (.modMdio hd clause port dev reg data 1 val) s =
        .next (answered (emitOut s (.mdio clause port dev (if clause = 45 then reg else 0) none)) hd 0x82 Status.ok 2 val.toNat) ∧
      exec (.modMdio hd clause port dev reg data 0 val) s =
        .next (answered (emitOut s (.mdio clause port dev (if clause = 45 then reg else 0) (some data))) hd 0x82 Status.ok 2 0)) ∧
    (opRuns s 0x83 = true → portPower s p = true → exec (.portRestart hd (BitVec.ofNat 8 p.val)) s = .next (fin (portStart s p) hd 0x83 Status.ok))

/-! ## Colol links -/

/-- R327, R330, R332, R336, R346, R355: the states of a link: HELLO from TRAIN, TRAIN 1 ms after a fall, its HELLO each 1 ms, IDLE after 4 µs or for an ACK that is due, a resend at
    RETRY_TO and after eight a fall, a fall at LNK_DEAD_TO, and on a loss of lock a fall from UP, and TRAIN from HELLO. What is awaited and waits at the tick wins.
    The model's readings in it, which are no rule of the spec: log entries 22, 29, 78. -/
def Obligations.LinkStatesFollow : Prop :=
  ∀ (s : State) (l : Fin 4),
    ((link s l).st = .train → ∃ t, exec (.linkAligned l) s = .next t ∧ (link t l).st = .hello ∧ (link t l).rxSeq = 0 ∧ (∀ m, m ≠ l → link t m = link s m) ∧ t.tco = s.tco) ∧
    ((link s l).st = .hello → (link s l).helloAt + ticksMs 1 ≤ s.now → exec (.linkHelloSend l) s = .next (sendHello s l)) ∧
    ((link s l).st = .down → (link s l).downAt + ticksMs 1 ≤ s.now → exec (.linkRetrain l) s = .next (modLink s l fun k => { k with st := .train })) ∧
    (((link s l).st = .up ∨ (link s l).st = .hello) → ((link s l).txAt + ticksUs 4 ≤ s.now ∨ (link s l).ackDue = true) → exec (.linkIdleSend l) s = .next (sendNow s l .idle)) ∧
    (∀ (u : Unacked) (r : List Unacked), (link s l).retry = u :: r → (link s l).st = .up → u.sent + ticksUs (retryUs (link s l)) ≤ s.now →
      (u.sent + ticksUs (retryUs (link s l)) < s.now ∨ ackWaits s l = false) →
      ((link s l).resends < 8 → exec (.retryTimeout l) s = .next (resendAll s l) ∧ (link (resendAll s l) l).resends = (link s l).resends + 1) ∧
      (8 ≤ (link s l).resends → exec (.retryTimeout l) s = .next (linkFall s l 3))) ∧
    ((link s l).st = .up → (link s l).rxAt + ticksUs (getW s Rg.lnkDeadTo).toNat ≤ s.now →
      ((link s l).rxAt + ticksUs (getW s Rg.lnkDeadTo).toNat < s.now ∨ linkWaits s l (fun _ => true) = false) → exec (.linkDeadTimeout l) s = .next (linkFall s l 2)) ∧
    ((link s l).st = .hello → ∃ t, exec (.linkLockLoss l) s = .next t ∧ (link t l).st = .train ∧ (∀ m, m ≠ l → link t m = link s m)) ∧
    ((link s l).st = .up → ∃ t, exec (.linkLockLoss l) s = .next t ∧ (link t l).st = .down ∧ (link t l).retry = [] ∧ (blkStat t .lnk).bits.getLsbD 0 = true ∧
      t.words = s.words)

/-- Exchanges over the links and their ends.
    - R331, R333, R338, R339, R341, R354, R355: a frame with a bad CRC is counted and goes no further, one of a wrong length is counted, another acts
      by its kind in the link's state, and an IDLE keeps its link up; a TIME_REQ leaves each period with the next SEQ; TIME_RESPs that do not come in
      time are lost; the CRC errors of a second are counted anew, and reported above the limit.
    - R345, R351, R429, R480: a tunnelled access without its REG_CPL for 20 µs is recorded, and a read returns all ones to the host; a primary with a
      TRUNK parent asks for its shelf every 60 s.
    The model's readings in it, which are no rule of the spec: log entries 22, 37, 78. -/
def Obligations.LinkExchangesAct : Prop :=
  ((∀ (s : State) (l : Fin 4) (ph : Fin 16) (hostData : List Byte) (f : LinkFrame), ((link s l).st = .up ∨ (link s l).st = .hello) → linksPower s = true →
    (f.crcOk = false → exec (.linkFrameRx l ph hostData f) s = .next (crcError s l)) ∧
    (f.crcOk = true → (f.lenOk = false ∨ bodyFits f.body = false) → ∃ t, exec (.linkFrameRx l ph hostData f) s = .next t ∧ (link t l).rxAt = s.now ∧
      (link t l).rxSeq = (link s l).rxSeq ∧ t.out = s.out ∧ t.pair = s.pair) ∧
    (f.crcOk = true → f.lenOk = true → bodyFits f.body = true → exec (.linkFrameRx l ph hostData f) s = .next (if (link s l).st = .hello
      then rxInHello (modLink s l fun k => { k with rxAt := s.now }) l f else rxInUp (modLink s l fun k => { k with rxAt := s.now }) l ph hostData f))) ∧
  (∀ (s : State) (l : Fin 4) (ph : Fin 16) (hostData : List Byte) (f : LinkFrame), (link s l).st = .up → linksPower s = true →
    (f.crcOk = false → ∃ t, exec (.linkFrameRx l ph hostData f) s = .next t ∧ (link t l).crcSec = (link s l).crcSec + 1 ∧ (link t l).rxSeq = (link s l).rxSeq ∧
      (link t l).rxAt = (link s l).rxAt ∧ t.out = s.out ∧ t.pair = s.pair) ∧
    (f.crcOk = true → f.lenOk = true → f.body = .idle → (link s l).retry = [] → (link s l).waiting = [] → ∃ t, exec (.linkFrameRx l ph hostData f) s = .next t ∧
      (link t l).rxAt = s.now ∧ (link t l).st = .up ∧ t.tco = s.tco ∧ t.pair = s.pair)) ∧
  (∀ (s : State) (l : Fin 4), (link s l).st = .up → ((link s l).role = .parent ∨ (link s l).role = .pair) → (link s l).lastReq ≠ some (txIndexNow s l) →
    (link s l).exch.length < 8 →
    ∃ t e, exec (.timeReqSend l) s = .next t ∧ (link t l).seq = (link s l).seq + 1 ∧ (link t l).exch = (link s l).exch ++ [e] ∧ e.seq = (link s l).seq + 1 ∧ e.tick = s.now ∧
      (link t l).lastReq = some (txIndexNow s l) ∧ t.tco = s.tco) ∧
  (∀ (s : State) (l : Fin 4) (e : Exchange), e ∈ (link s l).exch → e.tick + max (8 * txPeriod s l) (ticksMs 1) < s.now →
    ∃ t, exec (.exchangeLost l) s = .next t ∧ e ∉ (link t l).exch ∧ (∀ m, m ≠ l → link t m = link s m) ∧ t.tco = s.tco) ∧
  (∀ (s : State) (l : Fin 4), (link s l).errAt + ticksS 1 ≤ s.now → (link s l).crcSec ≤ (getW s Rg.lnkErrLimit).toNat →
    exec (.linkErrors l) s = .next (modLink s l fun k => { k with crcSec := 0, errAt := s.now })) ∧
  (∀ (s : State) (l : Fin 4), (link s l).errAt + ticksS 1 ≤ s.now → (getW s Rg.lnkErrLimit).toNat < (link s l).crcSec → ∃ t, exec (.linkErrors l) s = .next t ∧
    (link t l).crcSec = 0 ∧ (link t l).errAt = s.now ∧ (blkStat t .lnk).bits.getLsbD 2 = true ∧ (blkStat t .lnk).seq = (blkStat s .lnk).seq + 1 ∧ t.tco = s.tco)) ∧
  ((∀ (s : State) (a : RemoteAcc) (r : List RemoteAcc), s.hif.remote = a :: r → a.deadline ≤ s.now → (a.deadline < s.now ∨ cplWaits s a = false) →
    (a.write = false → ∃ t, exec .remoteTimeout s = .next t ∧ t.hif.remote = r ∧ (.read a.addr 0xFFFFFFFF) ∈ t.out ∧ (blkStat t .lnk).bits.getLsbD 5 = true ∧ t.tco = s.tco ∧
      t.words = s.words) ∧
    (a.write = true → ∃ t, exec .remoteTimeout s = .next t ∧ t.hif.remote = r ∧ (blkStat t .lnk).bits.getLsbD 5 = true ∧ t.tco = s.tco ∧ t.words = s.words)) ∧
  (∀ s : State, s.lnk.shelfReqAt + ticksS 60 ≤ s.now → exec .shelfReqPeriodic s = .next (shelfRequest s)) ∧
  (∀ (s : State) (l : Fin 4), trunkParent s = some l → s.glb.pcie = true → rb s Rg.lnkNodeCfg 17 = false → rb s Rg.lnkNodeCfg 16 = false →
    shelfRequest s = linkSend (modLnk s fun k => { k with shelfReqAt := s.now }) l (.shelfReq Config.identity s.lnk.shelf [])))

/-- R25, R345, R346, R356: LINK_QUERY answers; LINK_ROLE_SET gives a link a role that fits, with its TRUNK and FEC bits; LINK_RESTART takes a link down with
    cause 4, and out of HELLO to TRAIN; SHELF_PIN pins a number to an identity, which no other entry keeps, or unpins an entry, in the table that the node keeps.
    The model's readings in it, which are no rule of the spec: log entries 77, 78. -/
def Obligations.LinkCommandsAct : Prop :=
  ∀ (s : State) (hd : Hdr) (l : Fin 4), s.hif.discard.contains hd = false → s.pwr.phase = .ready → coreUp s 3 = true →
    (∃ r, exec (.linkQuery hd (BitVec.ofNat 8 l.val)) s = .next (answered s hd 0x90 Status.ok 38 r)) ∧
    (∀ (r : LinkRole) (flags : BitVec 8), roleFits s l r = true → exec (.linkRoleSet hd (BitVec.ofNat 8 l.val) (BitVec.ofNat 8 r.code) flags) s =
      .next (fin (setRole s l r (flags.getLsbD 0) (flags.getLsbD 1)) hd 0x91 Status.ok)) ∧
    ((link s l).st ≠ .off → exec (.linkRestart hd (BitVec.ofNat 8 l.val)) s = .next (fin (helloToTrain (linkFall s l 4) l) hd 0x92 Status.ok)) ∧
    (∀ (num : BitVec 16) (ident : BitVec 64), s.glb.pcie = true → num ≠ 0 → num.toNat ≤ 63 → ∃ t e, exec (.shelfPin hd 0 1 num ident) s = .next (answered t hd 0x93 Status.ok 0 0) ∧
      t.lnk.slots.head? = some e ∧ e.ident = ident ∧ e.num = num.toNat ∧ e.pinned = true ∧
      (∀ x ∈ t.lnk.slots, (x.ident = ident ∨ x.num = num.toNat) → x = e) ∧ t.lnk.shelves = s.lnk.shelves ∧ t.lnk.links = s.lnk.links) ∧
    (∀ (num : BitVec 16) (ident : BitVec 64), isRoot s = true → num ≠ 0 → num.toNat ≤ 1023 → ∃ t e, exec (.shelfPin hd 1 1 num ident) s = .next (answered t hd 0x93 Status.ok 0 0) ∧
      t.lnk.shelves.head? = some e ∧ e.ident = ident ∧ e.num = num.toNat ∧ e.pinned = true ∧
      (∀ x ∈ t.lnk.shelves, (x.ident = ident ∨ x.num = num.toNat) → x = e) ∧ t.lnk.slots = s.lnk.slots ∧ t.lnk.links = s.lnk.links) ∧
    (∀ (table : BitVec 8) (num : BitVec 16) (ident : BitVec 64), table.toNat ≤ 1 → num ≠ 0 → num.toNat ≤ (if table = 1 then 1023 else 63) → enumHere s (table = 1) = true →
      ((enumTable s (table = 1)).any fun e => e.ident = ident && e.pinned) = true → exec (.shelfPin hd table 0 num ident) s =
      .next (answered (setEnumTable s (table = 1) ((enumTable s (table = 1)).map fun e => if e.ident = ident then { e with pinned := false } else e)) hd 0x93 Status.ok 0 0))

/-! ## Redundant pair -/

/-- The ACTIVE_N line and the heartbeats.
    - R363, R364, R365, R369, R480: after CLAIM_WAIT the line is driven low, and 1 µs later it is held or released with LINE_FAULT; ten HB_PERIODs
      without a refresh release it, a refresh of that tick winning; a unit that holds it and reads it high stops acting at once; a line stuck low is
      recorded.
    - R365, R367, R370, R383, R384, R480: a heartbeat is sent each HB_PERIOD and refreshes the hold; each HB_PERIOD without one counts, and three lose
      the partner, where no heartbeat of that tick comes first; a ceremony that does not come to its end in 5 s is abandoned with the reason of the
      step that it waits in, where no CONFIRM of that tick comes first; a preferred standby asks for the swap PAIR_WTR_TIME after READY, and again
      each 60 s.
    The model's readings in it, which are no rule of the spec: log entry 51. -/
def Obligations.PairLineAndHeartbeats : Prop :=
  ((∀ s : State, pairLive s = true → rb s Rg.pairCtrl 0 = true → s.pair.holding = false → s.pair.drive = false → safe s .pair = false →
    (∀ t0 ∈ s.pair.highAt, t0 + ticksUs (if preferredNow s then 10 else 60) ≤ s.now) → s.pwr.pwrFailLow = false → s.pwr.failed = false →
    exec .claimWaitExpiry s = .next (emitOut (modPair s fun p => { p with drive := true, driveAt := some s.now, line := false, highAt := none, stuckAt := none }) (.line true))) ∧
  (∀ (s : State) (t0 : Nat), s.pair.driveAt = some t0 → s.pair.holding = false → s.pair.drive = true → t0 + ticksUs 1 ≤ s.now →
    (∃ t, exec (.claimCheck true) s = .next t ∧ t = promote s ∧ t.pair.holding = true) ∧
    (∃ t, exec (.claimCheck false) s = .next t ∧ t = lineFault (dropLine s true) 2 ∧ t.pair.holding = false ∧ t.pair.drive = false ∧ (blkStat t .pair).bits.getLsbD 5 = true)) ∧
  (∀ s : State, s.pair.holding = true → s.pair.refreshAt + 10 * hbTicks s ≤ s.now →
    (s.pair.refreshAt + 10 * hbTicks s < s.now ∨ pairLive s = false ∨ coreUp s 2 = false ∨ s.pending.contains .heartbeatSend = false) →
    ∃ t, exec .holdWatchdogLapse s = .next t ∧ t = lineRelease s ∧ t.pair.holding = false ∧ t.pair.drive = false ∧ t.tco = s.tco ∧ t.key = s.key) ∧
  (∀ s : State, s.pair.holding = true → ∃ t, exec .activeNReadHigh s = .next t ∧ t = lineFault (dropLine s true) 2 ∧ t.pair.holding = false ∧ t.pair.drive = false ∧
    t.pair.line = true ∧ (blkStat t .pair).bits.getLsbD 5 = true ∧ t.tco = s.tco) ∧
  (∀ s : State, pairLive s = true → s.pair.drive = false → s.pair.partner.seen = true → s.pair.partner.flags.getLsbD 0 = false → s.pair.stuckAt = none →
    ∃ t, exec .lineStuckLow s = .next t ∧ t = lineFault (modPair s fun p => { p with line := false, stuckAt := some s.now }) 1 ∧ t.pair.stuckAt = some s.now ∧
      (s.pair.holding = false → t.pair.line = false) ∧ (blkStat t .pair).bits.getLsbD 5 = true)) ∧
  ((∀ s : State, pairLive s = true → coreUp s 2 = true → s.pair.hbAt + hbTicks s ≤ s.now → exec .heartbeatSend s = .next (heartbeat s) ∧
    (heartbeat s).pair.refreshAt = s.now ∧ (heartbeat s).pair.hbAt = s.now) ∧
  (∀ (s : State) (held : Bool), pairLive s = true → s.pair.partner.seen = true → s.pair.heardAt + (s.pair.missed + 1) * hbTicks s ≤ s.now →
    (s.pair.heardAt + (s.pair.missed + 1) * hbTicks s < s.now ∨ beatWaits s = false) →
    (s.pair.missed < 2 → exec (.heartbeatMiss held) s = .next (modPair s fun p => { p with missed := p.missed + 1 })) ∧
    (2 ≤ s.pair.missed → ∃ t, exec (.heartbeatMiss held) s = .next t ∧ t.pair.partner.seen = false ∧ t.pair.missed = s.pair.missed + 1 ∧ t.pair.lostFirst = held ∧
      t.pair.line = !held ∧ t.pair.st ≠ .ready ∧ t.pair.st ≠ .mirroring ∧ (blkStat t .pair).bits.getLsbD 3 = true)) ∧
  (∀ (s : State) (c : Ceremony), s.pair.cer = some c → c.started + ticksS 5 ≤ s.now → (c.started + ticksS 5 < s.now ∨ confirmWaits s c = false) →
    exec .pairCeremonyTimeout s = .next (ceremonyFail s c (if c.peerNonce = none then 2 else if c.key = none then 3 else 5) 4 Status.aborted)) ∧
  (∀ (s : State) (t0 : Nat) (l : Fin 4), s.pair.readyAt = some t0 → pairLink s = some l → pairLive s = true → coreUp s 2 = true → s.pair.holding = false → s.pair.st = .ready →
    preferredNow s = true → rb s Rg.pairCtrl 1 = false →
    (s.pair.reqAt = none → t0 + ticksS (getW s Rg.pairWtrTime).toNat ≤ s.now →
      exec .swapRequestSend s = .next (linkSend (modPair s fun p => { p with reqAt := some s.now }) l .swapRequest)) ∧
    (∀ r : Nat, s.pair.reqAt = some r → r + ticksS 60 ≤ s.now →
      exec .swapRequestSend s = .next (linkSend (modPair s fun p => { p with reqAt := some s.now }) l .swapRequest))))

/-- R378 to R381, R383, R384, R514: a swap goes through its instants: the period proposes it, or an hour after an abort; at H − o − 200 ms the standby checks itself and accepts or
    aborts; at H − o − 100 ms the active aborts unless it was accepted; at H − o − 10 µs the line is driven; at H it changes hands, unless a way down waits; at H + 1 µs the line
    tells whether the swap is done.
    The model's readings in it, which are no rule of the spec: log entries 50, 51. -/
def Obligations.SwapStepsRun : Prop :=
  (∀ s : State, pairLive s = true → getW s Rg.pairSwapPeriod ≠ 0 → s.pair.holding = true → s.pair.swap = none →
    (s.pair.swapRetry = none → s.pair.swapAt + ticksS (getW s Rg.pairSwapPeriod).toNat ≤ s.now) → (∀ r ∈ s.pair.swapRetry, r ≤ s.now) →
    exec .swapPeriodExpiry s = .next (if mayPropose s then proposeSwap s none else modPair s fun q => { q with swapRetry := some (s.now + ticksS 3600) })) ∧
  (∀ (s : State) (w : Swap), s.pair.swap = some w → w.incoming = true → w.checked = false → coreUp s 2 = true → reached s (hMinus s w 200000000) = true → selfCheck s = 0 →
    ∃ t, exec .swapSelfCheck s = .next t ∧ t.pair.swap = some { w with checked := true, accepted := true } ∧ t.pair.check = 0 ∧
      (∀ l ∈ pairLink s, t = linkSend (modPair s fun p => { p with check := 0, swap := some { w with checked := true, accepted := true } }) l .swapAccept)) ∧
  (∀ (s : State) (w : Swap), s.pair.swap = some w → w.incoming = true → w.checked = false → coreUp s 2 = true → reached s (hMinus s w 200000000) = true → selfCheck s ≠ 0 →
    ∃ t, exec .swapSelfCheck s = .next t ∧ t.pair.swap = none ∧ t.pair.holding = s.pair.holding ∧ (blkStat t .pair).bits.getLsbD 2 = true ∧
      t = swapAbort (modPair s fun p => { p with check := BitVec.ofNat 11 (selfCheck s), swap := some { w with checked := true, accepted := false } }) (selfCheck s) true) ∧
  (∀ (s : State) (w : Swap), s.pair.swap = some w → w.incoming = false → w.accepted = false → acceptWaits s = false → reached s (hMinus s w 100000000) = true →
    ∃ t, exec .swapLastCall s = .next t ∧ t = swapAbort s (if s.pair.partner.seen then 0 else 0x100) true ∧ t.pair.swap = none ∧ t.pair.holding = s.pair.holding ∧
      (blkStat t .pair).bits.getLsbD 2 = true) ∧
  (∀ (s : State) (w : Swap), s.pair.swap = some w → w.incoming = true → w.accepted = true → w.driven = false → reached s (hMinus s w 10000) = true →
    exec .swapDrive s = .next (emitOut (modPair s fun p => { p with drive := true, line := false, swap := some { w with driven := true } }) (.line true))) ∧
  (∀ (s : State) (w : Swap), s.pair.swap = some w → w.handed = false → w.accepted = true → reached s (hMinus s w 0) = true → powerWaits s = false →
    (w.incoming = true → w.driven = true → ∃ t, exec .swapHandover s = .next t ∧ t.pair.holding = true ∧ t.pair.refreshAt = s.now ∧
      t = refreshOuts (modPair s fun p => { p with holding := true, refreshAt := s.now, swap := some { w with handed := true } }) true) ∧
    (w.incoming = false → ∃ t, exec .swapHandover s = .next t ∧ t.pair.holding = false ∧ t.pair.drive = false ∧
      t = refreshOuts (emitOut (modPair s fun p => { p with drive := false, holding := false, swap := some { w with handed := true } }) (.line false)) false)) ∧
  (∀ (s : State) (w : Swap), s.pair.swap = some w → w.handed = true → reached s (hMinus s w 0 + 65536000) = true →
    (∃ t, exec (.swapLineCheck true) s = .next t ∧ t = swapDone s w w.incoming ∧ t.pair.swap = none ∧ t.pair.holding = s.pair.holding) ∧
    (w.incoming = true → ∃ t, exec (.swapLineCheck false) s = .next t ∧ t = swapAbort (lineFault (dropLine s true) 2) 0x400 false ∧ t.pair.swap = none ∧
      t.pair.holding = false ∧ t.pair.drive = false) ∧
    (w.incoming = false → ∃ t, exec (.swapLineCheck false) s = .next t ∧ t.pair.swap = none ∧ t.pair.holding = true ∧ t.pair.drive = true))

/-- R364, R370, R372, R373, R378, R387: PAIR_QUERY answers; PAIR_BEGIN starts a ceremony, and sends its ATTEST where the partner's HELLO has come; PAIR_FORGET drops the pair key;
    PAIR_SWAP proposes a swap; PAIR_RELEASE lets the line go and PAIR_RESYNC sends a snapshot.
    The model's readings in it, which are no rule of the spec: log entries 51, 52. -/
def Obligations.PairCommandsAct : Prop :=
  ∀ (s : State) (hd : Hdr), s.hif.discard.contains hd = false → s.pwr.phase = .ready → coreUp s 2 = true →
    (exec (.pairQuery hd) s = .next (answered s hd 0xA0 Status.ok 26 (pack [(0, pairStateWord s), (4, s.pair.partner.teb.toNat), (8, s.pair.mgen.toNat),
      (12, selfCheck s), (16, uInt 64 (pairOffset s)), (24, s.pair.partner.qual.toNat)]))) ∧
    (∀ (slot_ : BitVec 8) (addr : BitVec 64) (hash : List Byte) (l : Fin 4), 3 ≤ slot_.toNat → pairLink s = some l → storeState s = .keyed → keyServed s = true → s.pair.cer = none →
      tamperWaits s = false → ∃ t c, exec (.pairBegin hd slot_ addr hash) s = .next t ∧ t.pair.cer = some c ∧ c.host = hd ∧ c.slot = slot_ ∧ c.started = s.now ∧
        c.hash = BitVec.ofNat 384 (beNat (hash.take 48)) ∧ c.peerEph = none ∧ c.key = none ∧ t.pair.st = .pairing ∧ t.pair.heldHello = none ∧ t.key.slots = s.key.slots ∧
        (s.pair.heldHello = none → c.peerNonce = none) ∧ (∀ x ∈ s.pair.heldHello, c.peerNonce = if s.now ≤ x.2 + ticksS 5 then some x.1 else none)) ∧
    (∀ k : BitVec 8, s.pair.keySlot = some k → ∃ t, exec (.pairForget hd) s = .next (answered t hd 0xA2 Status.ok 0 0) ∧ t.pair.keySlot = none ∧ t.pair.peer = none ∧
      t.pair.stored = none ∧ t.pair.st = (if s.pair.cer.isSome then .pairing else .unpaired) ∧ t.pair.holding = s.pair.holding ∧ t.pair.cer = s.pair.cer ∧
      t.key = (if (keySlot s k.toNat).valid then beginInval s none k.toNat else s).key) ∧
    (s.pair.holding = true → partnerReady s = true → safe s .pair = false → s.pair.swap = none → exec (.pairSwap hd) s = .next (proposeSwap s (some hd))) ∧
    (s.pair.holding = true → ∃ t, exec (.pairRelease hd) s = .next t ∧ t.pair.holding = false ∧ t.pair.drive = false ∧ t.pair.lastHand = tsNow s ∧
      t = complete (roleChange (modPair (lineRelease s) fun p => { p with lastHand := tsNow s }) false 5 false (ts32 s)) hd 0xA4 Status.ok 16 (tsNow s).toNat ∧
      Ends t hd 0xA4 Status.ok ∧ t.tco = s.tco) ∧
    (s.pair.holding = true → s.pair.partner.seen = true → exec (.pairResync hd) s = .next (complete (snapshot s) hd 0xA5 Status.ok 4 (snapshot s).pair.mgen.toNat))

/-! ## Key store -/

/-- R412: a write of KEY_TAMPER_EN sets bits in any store state; while the store is KEYED a bit that it would clear stays and TAMPER_HOLD is logged; in the
    other states it clears (source 12 stays armed, R411); with GLB_LOCK it is dropped. -/
def Obligations.TamperEnableWrites : Prop :=
  ∀ (s : State) (w : Word), s.glb.pcie = true → s.hif.linkUp = true → regUp s .key = true →
    (s.glb.lock = false → s.key.store = .keyed → ∃ t, exec (.registerWrite Rg.keyTamperEn (leBytes 4 w.toNat)) s = .next t ∧
      t.key = { s.key with tamperEn := s.key.tamperEn ||| w.extractLsb' 0 13 ||| 0x1000 } ∧ t.words = s.words ∧
      (s.key.tamperEn &&& ~~~(w.extractLsb' 0 13 ||| 0x1000) = 0 → (blkStat t .key).seq = (blkStat s .key).seq) ∧
      (s.key.tamperEn &&& ~~~(w.extractLsb' 0 13 ||| 0x1000) ≠ 0 → (blkStat t .key).seq = (blkStat s .key).seq + 1 ∧
        t = emit { s with key := { s.key with tamperEn := s.key.tamperEn ||| w.extractLsb' 0 13 ||| 0x1000 } } .key 0x0006 .notice
          (s.key.tamperEn &&& ~~~(w.extractLsb' 0 13 ||| 0x1000)).toNat none)) ∧
    (s.glb.lock = false → s.key.store ≠ .keyed → exec (.registerWrite Rg.keyTamperEn (leBytes 4 w.toNat)) s =
      .next { s with key := { s.key with tamperEn := w.extractLsb' 0 13 ||| 0x1000 } }) ∧
    (s.glb.lock = true → exec (.registerWrite Rg.keyTamperEn (leBytes 4 w.toNat)) s = .next (accRec s 5 Rg.keyTamperEn 15 true false w.toNat))

/-- R410 to R416: a detection of an armed source latches it, counts it in the log, and takes the root and every slot; without a root it is logged and latched only. The sources of
    one tick are logged together, each once (log entry 34). -/
def Obligations.TamperZeroises : Prop :=
  ∀ (s : State) (src : Fin 13), tamperActs s src = true → (∀ x ∈ s.key.tickSeen, x.1 = s.now → x.2 = 0) →
    (∀ k : Fin 13, k ≠ src → s.pending.contains (.tamperDetect k) = false) →
    (s.key.root = none → ∃ t, exec (.tamperDetect src) s = .next t ∧ t.key.latch = s.key.latch ||| BitVec.ofNat 13 (2 ^ src.val) ∧ t.log = s.log ∧
      t.key.logTotal.toNat = min (s.key.logTotal.toNat + 1) 0xFFFFFFFF ∧ t.key.store = s.key.store ∧ t.key.slots = s.key.slots ∧ t.key.root = none ∧ t.svc = s.svc ∧ t.ptp = s.ptp ∧
      t.hif = s.hif) ∧
    (s.key.root.isSome = true → ∃ t, exec (.tamperDetect src) s = .next t ∧ t.key.latch = s.key.latch ||| BitVec.ofNat 13 (2 ^ src.val) ∧ t.key.root = none ∧ t.key.slots = [] ∧ t.key.store = .unkeyed ∧
      t.key.cause = BitVec.ofNat 8 src.val ∧ t.key.inval = [] ∧ t.key.logTotal.toNat = min (s.key.logTotal.toNat + 1) 0xFFFFFFFF ∧ t.tco = s.tco ∧ t.words = s.words)

/-- R401, R402, R408 to R410, R419, R421: at T_c an invalidation of the oldest due is committed, and 2 µs later its material is zero; the DRBG reseeds once a second or after 2^20
    outputs; a failed health test stops the random source until it restarts; an exhausted DRBG is a tamper. What a tamper of the tick takes does not commit.
    The model's readings in it, which are no rule of the spec: log entries 17, 19, 79. -/
def Obligations.KeyEventsAct : Prop :=
  (∀ (s : State) (a : List Inval) (v : Inval) (b : List Inval), s.key.inval = a ++ v :: b → (∀ x ∈ a, x.committed = true ∨ nowNs s < x.tc) → v.committed = false → v.tc ≤ nowNs s →
    tamperWaits s = false → exec .invalidateCommit s = .next (commitInval (modKey s fun k => { k with inval := a ++ b }) v)) ∧
  (∀ (s : State) (v : Inval), v ∈ s.key.inval → v.committed = true → v.zeroAt ≤ nowNs s → ∃ t, exec .keyMaterialZero s = .next t ∧
    t.key.inval = s.key.inval.filter (fun x => !(x.committed && decide (x.zeroAt ≤ nowNs s))) ∧
    (∀ n ∈ v.slots, (keySlot s n).valid = false → (keySlot t n).key = 0) ∧ (∀ n, (keySlot s n).valid = true → keySlot t n = keySlot s n) ∧ t.tco = s.tco ∧ t.out = s.out) ∧
  (∀ s : State, s.key.entropyBad = false → mainUp s = true → (s.key.reseedAt + ticksS 1 ≤ s.now ∨ 2 ^ 20 ≤ s.key.generates) → ∃ t, exec .drbgReseed s = .next t ∧
    t = perfAdd (modKey s fun k => { k with generates := 0, reseedAt := s.now, rngOk := true }) 427 1 ∧
    t.key = { s.key with generates := 0, reseedAt := s.now, rngOk := true } ∧ t.log = s.log) ∧
  (∀ (s : State) (rep adapt : Bool), s.key.entropyBad = false → mainUp s = true → (rep = true ∨ adapt = true) → ∃ t, exec (.rngFail rep adapt) s = .next t ∧ t.key.rngOk = false ∧
    t.key.entropyBad = true ∧ t = emit (modKey s fun k => { k with rngOk := false, entropyBad := true, restartAt := s.now }) .key 0x0004 .severe
      ((if rep then 1 else 0) + (if adapt then 2 else 0)) (some 3) ∧ (blkStat t .key).bits.getLsbD 3 = true ∧ t.key.slots = s.key.slots) ∧
  (∀ (s : State) (ok : Bool), s.key.entropyBad = true → s.key.restartAt + ticksS 1 ≤ s.now → exec (.entropyRestart ok) s =
    .next (modKey s fun k => { k with entropyBad := !ok, restartAt := s.now })) ∧
  (∀ s : State, 2 ^ 32 ≤ s.key.generates → mainUp s = true → s.key.tamperEn.getLsbD 11 = true → (s.key.entropyBad = true ∨ s.pending.contains .drbgReseed = false) →
    exec .drbgExhausted s = .next (tamper (modKey s fun k => { k with generates := 0 }) 11 (tamperPhase s)))

/-- The commands of the key store.
    - R394 to R405, R415, R418, R420: with a KEYED store the commands that fill a slot need it not VALID and answer with its attribute word and check
      value.
    - R399, R401, R404, R407, R413, R415, R419, R420: the commands that use a slot's key, invalidate it, provision the store, read the tamper log and
      clear the tamper latches.
    The model's readings in it, which are no rule of the spec: log entries 17, 19, 79. -/
def Obligations.KeyCommandsAct : Prop :=
  ((∀ (s : State) (hd : Hdr) (slot_ : BitVec 8), Accepts s hd 0xB0 → slot_ ≠ 0 →
    exec (.keyQuery hd slot_) s = .next (answered (perfAdd s 428 1) hd 0xB0 Status.ok 16
      (pack [(0, (keySlot s slot_.toNat).attr.toNat), (8, leNat (checkValue (keySlot s slot_.toNat)))]))) ∧
  (∀ (s : State) (hd : Hdr) (slot_ : BitVec 8) (addr : BitVec 64), s.pwr.phase = .ready → storeState s = .keyed → tamperWaits s = false → 3 ≤ slot_.toNat →
    (keySlot s slot_.toNat).valid = false →
    (∀ attr : BitVec 32, attrOk attr.toNat = true → exec (.keyGen hd slot_ attr) s = .next (keyResult (fillSlot (draw (perfAdd s 428 1)).2 slot_.toNat 0 0 attr.toNat
      (keyFrom attr.toNat (draw (perfAdd s 428 1)).1)) hd 0xB1 slot_.toNat)) ∧
    (∀ (wrap : BitVec 8) (len : BitVec 32) (blob : List Byte), wrap ≠ 0 → (keySlot s wrap.toNat).valid = true → (keySlot s wrap.toNat).use 4 = true →
      exec (.keyImport hd slot_ wrap addr len blob) s = .next (match openBlob (hostRead (perfAdd s 428 1) addr.toNat len.toNat) (blob.take len.toNat) wrap.toNat with
        | .error e => fin (hostRead (perfAdd s 428 1) addr.toNat len.toNat) hd 0xB2 e
        | .ok (a, k) => keyResult (fillSlot (hostRead (perfAdd s 428 1) addr.toNat len.toNat) slot_.toNat wrap.toNat 1 a k) hd 0xB2 slot_.toNat)) ∧
    (∀ (parent kdf : BitVec 8) (attr : BitVec 32) (len : BitVec 16) (ctx : List Byte), parent ≠ 0 → (keySlot s parent.toNat).valid = true → (keySlot s parent.toNat).p384 = false →
      (keySlot s parent.toNat).use 3 = true → kdf.toNat ≤ 1 → (kdf = 1 → (keySlot s parent.toNat).len ≤ 2) → attrOk attr.toNat = true → attr.getLsbD 15 = false → len.toNat ≤ 256 →
      keyDepth 256 s parent.toNat < 8 →
      exec (.keyDerive hd slot_ parent kdf attr addr len ctx) s = .next (keyResult (fillSlot (hostRead (perfAdd s 428 1) addr.toNat len.toNat) slot_.toNat parent.toNat 2 attr.toNat
        (kdfOut kdf.toNat (keySlot s parent.toNat) (ctx.take len.toNat) (lenBytes (fld attr.toNat 14 12)))) hd 0xB3 slot_.toNat)))) ∧
  (∀ (s : State) (hd : Hdr) (slot_ : BitVec 8) (addr addr2 : BitVec 64) (data : List Byte), s.hif.discard.contains hd = false → s.pwr.phase = .ready →
    (storeState s = .keyed → tamperWaits s = false → slot_ ≠ 0 → (keySlot s slot_.toNat).valid = true →
      (∀ (wrap : BitVec 8) (len : BitVec 32), wrap ≠ 0 → 48 + lenBytes (keySlot s slot_.toNat).len ≤ len.toNat → (keySlot s slot_.toNat).attr.getLsbD 8 = true →
        (keySlot s wrap.toNat).valid = true → (keySlot s wrap.toNat).p384 = false → (keySlot s wrap.toNat).use 4 = true →
        ∃ t, exec (.keyExport hd slot_ wrap addr len) s = .next t ∧ t = complete (hostDma (wrapBlob (perfAdd s 428 1) slot_.toNat wrap.toNat).2 addr.toNat
            (wrapBlob (perfAdd s 428 1) slot_.toNat wrap.toNat).1) hd 0xB4 Status.ok 4 (wrapBlob (perfAdd s 428 1) slot_.toNat wrap.toNat).1.length ∧
          Ends t hd 0xB4 Status.ok ∧ t.key.slots = s.key.slots ∧ t.tco = s.tco) ∧
      (3 ≤ slot_.toNat → (keySlot s slot_.toNat).attr.getLsbD 9 = false → exec (.keyInvalidate hd slot_) s = .next (beginInval (perfAdd s 428 1) (some hd) slot_.toNat)) ∧
      (coreUp s 0 = true → ∃ t, exec (.keyAttest hd slot_ addr2 addr data) s = .next t ∧ Ends t hd 0xB6 Status.ok ∧ t.key.slots = s.key.slots ∧ t.tco = s.tco ∧
        ∃ st sig, st = statement (hostRead (perfAdd s 428 1) addr2.toNat 32) 1 0 (data.take 32 ++ List.replicate (32 - data.length) 0) (List.replicate 32 0) slot_.toNat
            (keySlot s slot_.toNat).attr.toNat (keyRef (keySlot s slot_.toNat)) ∧
          sig = (signDigest (hostRead (perfAdd s 428 1) addr2.toNat 32) 1 (Config.sha384 st)).1 ∧
          t = complete (hostDma (signDigest (hostRead (perfAdd s 428 1) addr2.toNat 32) 1 (Config.sha384 st)).2 addr.toNat (st ++ sig)) hd 0xB6 Status.ok 4 272) ∧
      ((keySlot s slot_.toNat).p384 = true → exec (.keyPublic hd slot_ addr) s = .next (complete (hostDma (perfAdd s 428 1) addr.toNat
        (beBytes 97 (Config.p384Pub (keySlot s slot_.toNat).key))) hd 0xB7 Status.ok 4 97)) ∧
      (slot_ ≠ 1 → (keySlot s slot_.toNat).use 2 = true → ∃ t, exec (.keySign hd slot_ addr2 addr data) s = .next t ∧
        t = complete (hostDma (signDigest (hostRead (perfAdd s 428 1) addr2.toNat 48) slot_.toNat (beNat (data.take 48))).2 addr.toNat
          (signDigest (hostRead (perfAdd s 428 1) addr2.toNat 48) slot_.toNat (beNat (data.take 48))).1) hd 0xB8 Status.ok 4 96 ∧ Ends t hd 0xB8 Status.ok ∧
        t.key.slots = s.key.slots ∧ t.tco = s.tco)) ∧
    (coreUp s 0 = true → s.key.store ≠ .keyed → safe s .key = false → rb s Rg.keyCtrl 1 = true → s.key.latch = 0 →
      (∀ hit : Option (Fin 13), (∀ src ∈ hit, s.key.tamperEn.getLsbD src.val = false ∨ src = 12) → ∃ t, exec (.keyProvision hd addr hit) s = .next t ∧ Ends t hd 0xB9 Status.ok ∧
        t.key.store = .keyed ∧ t.key.root.isSome = true ∧ t.key.provCount = s.key.provCount + 1 ∧ t.key.latch = 0) ∧
      (∀ src : Fin 13, s.key.tamperEn.getLsbD src.val = true → src ≠ 12 → exec (.keyProvision hd addr (some src)) s =
        .next (fin (tamper (perfAdd s 428 1) src.val 3) hd 0xB9 Status.aborted))) ∧
    exec (.keyTamperRead hd addr) s = .next (complete (hostDma (perfAdd s 428 1) addr.toNat (tamperLogBytes s)) hd 0xBA Status.ok 4 s.key.logTotal.toNat) ∧
    (∀ (mask : BitVec 16) (active : BitVec 13), (∀ k : Fin 13, tamperActs s k = true → s.pending.contains (.tamperDetect k) = false) →
      ∃ t, exec (.tamperClear hd mask active) s = .next t ∧ Ends t hd 0xBB Status.ok ∧
      t.key.latch = s.key.latch &&& ~~~(mask.setWidth 13 &&& ~~~active) ∧ t.key.slots = s.key.slots ∧ t.key.root = s.key.root))

/-! ## Firmware update -/

/-- Image slots: commands and events.
    - R528 to R533, R537, R540: a session opens into the slot that does not run, takes pieces in order, is verified and closed; a push goes to a peer
      and its verification and end with it; UPD_ACTIVATE sets a trial, and resets the engine later with FLAGS 1; UPD_CONFIRM is kept or confirms;
      UPD_QUERY answers.
    - R514, R528, R531, R533, R534, R539: a session without a write for UPD_SESSION_TO ends, a write of that tick winning; 10 ms after an activate's
      completion the engine resets; a trial confirms when its conditions hold, and expires with its window.
    The model's readings in it, which are no rule of the spec: log entries 27, 56, 57. -/
def Obligations.UpdatesAct : Prop :=
  (∀ (s : State) (hd : Hdr), s.hif.discard.contains hd = false → s.pwr.phase = .ready → coreUp s 0 = true →
    (trialRuns s = false → s.upd.session = none → ∀ lk : BitVec 8, ∃ t x, exec (.updOpen hd 0 lk 0xFF) s = .next t ∧ Ends t hd 0xC0 Status.ok ∧ t.upd.session = some x ∧ x.peer = none ∧
      x.slot = otherSlot s.upd.running ∧ x.written = 0 ∧ x.lastWrite = s.now ∧ t.upd.image[x.slot] = [] ∧ t.upd.running = s.upd.running ∧ t.tco = s.tco) ∧
    (∀ l : Fin 4, trialRuns s = false → s.upd.push = none → (link s l).st = .up → exec (.updOpen hd 1 (BitVec.ofNat 8 l.val) 0xFF) s =
      .next (linkSend (modUpd s fun u => { u with push := some { link := l, open_ := some hd, verify := none } }) l
        (.updOffer (BitVec.ofNat 32 (imgLen (slotImage s s.upd.running))) (BitVec.ofNat 32 (imgFw (slotImage s s.upd.running)))))) ∧
    (∀ (x : Session) (off len : BitVec 32) (addr : BitVec 64) (data : List Byte), s.upd.session = some x → x.peer = none → writeFits x off.toNat len.toNat = true →
      ∃ t, exec (.updWrite hd off len addr data) s = .next t ∧ Ends t hd 0xC1 Status.ok ∧
        t.upd.image[x.slot] = s.upd.image[x.slot] ++ (data.take len.toNat ++ List.replicate (len.toNat - data.length) 0) ∧
        (∃ y, t.upd.session = some y ∧ y.peer = none ∧ y.slot = x.slot ∧ y.written = x.written + len.toNat ∧ y.lastWrite = s.now) ∧ t.upd.copies = s.upd.copies ∧ t.tco = s.tco) ∧
    (∀ x : Session, s.upd.session = some x → x.peer = none → ∃ t, exec (.updVerify hd) s = .next t ∧ Ends t hd 0xC2 (causeStatus (imgCheck s (slotImage s x.slot))) ∧ t.upd.session = none ∧
      t.upd.image = s.upd.image ∧ t.tco = s.tco ∧
      (imgCheck s (slotImage s x.slot) = 0 → (recNow t).st[x.slot] = .verified ∧ (recNow t).fw[x.slot] = BitVec.ofNat 32 (imgFw (slotImage s x.slot)))) ∧
    (∀ p : Push, hostSession s = none → s.upd.push = some p → p.open_ = none → p.verify = none →
      exec (.updVerify hd) s = .next (linkSend (modUpd s fun u => { u with push := some { p with verify := some hd } }) p.link (.updEnd false)) ∧
      exec (.updClose hd) s = .next (fin (linkSend (modUpd s fun u => { u with push := none }) p.link (.updEnd true)) hd 0xC5 Status.ok)) ∧
    (∀ (n : Fin 2) (i : StartIn), trialRuns s = false → s.upd.session = none → ((recNow s).st[n] = .verified ∨ (recNow s).st[n] = .good) →
      (∃ t, exec (.updActivate hd (BitVec.ofNat 8 n.val) 1 i) s = .next t ∧ Ends t hd 0xC3 Status.ok ∧ t.upd.resetAt = some (s.now + ticksMs 10) ∧
        (recNow t).seq = (recNow s).seq + 1 ∧ (recNow t).trial = true ∧ (recNow t).trialSlot = n ∧ t.upd.image = s.upd.image) ∧
      (exec (.updActivate hd (BitVec.ofNat 8 n.val) 0 i) s = .next (fin (recWrite s 3 n fun r => { r with trial := true, trialSlot := n }) hd 0xC3 Status.ok))) ∧
    (trialRuns s = true → s.now < windowEnd s →
      (confirmOk (modUpd s fun u => { u with hostConfirm := true }) = false → exec (.updConfirm hd) s =
        .next (answered (modUpd s fun u => { u with hostConfirm := true }) hd 0xC4 Status.ok 1 0)) ∧
      (confirmOk (modUpd s fun u => { u with hostConfirm := true }) = true → exec (.updConfirm hd) s =
        .next (complete (confirmTrial (modUpd s fun u => { u with hostConfirm := true })) hd 0xC4 Status.ok 1 1))) ∧
    (∀ x : Session, s.upd.session = some x → x.peer = none → ∃ t, exec (.updClose hd) s = .next t ∧ Ends t hd 0xC5 Status.ok ∧ t.upd.session = none ∧ t.upd.image = s.upd.image ∧
      t.upd.copies = s.upd.copies) ∧
    (exec (.updQuery hd) s = .next (answered s hd 0xC6 Status.ok 28 (pack
      [(0, (recNow s).seq.toNat), (4, (recNow s).active.val), (5, if (recNow s).trial then 1 else 0), (6, (recNow s).trialSlot.val), (7, (recNow s).st[0].code), (8, (recNow s).st[1].code),
       (9, updHolder s), (10, s.upd.running.val), (11, s.key.floor.toNat), (12, (recNow s).fw[0].toNat), (16, (recNow s).fw[1].toNat),
       (20, match s.upd.session with | some x => x.written | none => 0),
       (24, if trialRuns s then sat32 ((windowEnd s - s.now) / ticksS 1) else 0)]))) ∧
    (trialRuns s = true → windowEnd s < s.now → ∃ t, exec (.updConfirm hd) s = .next t ∧ Ends t hd 0xC4 Status.state ∧ t.upd.expired = true ∧ t.upd.running = s.upd.running)) ∧
  ((∀ (s : State) (x : Session), s.upd.session = some x → x.lastWrite + ticksS (getW s Rg.updSessionTo).toNat ≤ s.now → updWriteWaits s x = false →
    ∃ t, exec .updSessionTimeout s = .next t ∧ t = sessionEnd s Status.aborted ∧ t.upd.session = none ∧
    t.upd.image = s.upd.image ∧ t.upd.copies = s.upd.copies ∧ (blkStat t .upd).bits.getLsbD 0 = true) ∧
  (∀ (s : State) (i : StartIn) (u : Nat), s.upd.resetAt = some u → u ≤ s.now → cplOwed s 0xC3 = false → failWaits s = false →
    exec (.updActivateReset i) s = .next (startRun s { i with rails := false, vbatLost := false } true)) ∧
  (∀ s : State, mainUp s = true → trialRuns s = true → confirmOk s = true → ∃ t, exec .trialConfirm s = .next t ∧ t = confirmTrial s ∧ t.upd.trial = false ∧
    (recNow t).trial = false ∧ (recNow t).active = s.upd.running) ∧
  (∀ s : State, trialRuns s = true →
    (windowEnd s < s.now ∨ (windowEnd s = s.now ∧ confirmOk s = false) → ∃ t, exec .trialExpired s = .next t ∧ t.upd.expired = true ∧ trialRuns t = false ∧
      (blkStat t .upd).bits.getLsbD 2 = true ∧ (recNow t).st[s.upd.running] = .failed ∧ t.upd.image = s.upd.image ∧ t.upd.running = s.upd.running) ∧
    (windowEnd s = s.now → confirmOk s = true → exec .trialExpired s = .next (confirmTrial s))))

/-! ## Diagnostics -/

/-- R447, R552, R563, R565, R572, R575 to R577: a dump takes the next sequence number and fills the ring's next buffer with its 8,352 bytes, or is counted as missed without one;
    sampling starts, takes what its cause selects, reports losses and stops with its figures; the pantry is committed every 600 s, and for a Severe or Fatal record no more than once a
    second.
    The model's readings in it, which are no rule of the spec: log entry 58. -/
def Obligations.DiagnosticsAct : Prop :=
  (∀ (s : State) (d : BitVec 256), s.pwr.phase = .ready → rb s Rg.perfCtrl 1 = true → (∀ x ∈ s.perf.lastDump, x < dumpInstant s) →
    ∃ t, exec (.dumpLatch d) s = .next t ∧ t = dumpLatch (modPerf s fun p => { p with lastDump := some (dumpInstant s) }) false d ∧
    t.perf.dseq = s.perf.dseq + 1 ∧ t.perf.dumpStep = false ∧ t.perf.lastDump = some (dumpInstant s) ∧ t.tco = s.tco) ∧
  (∀ (s : State) (d : BitVec 256), s.pwr.phase = .ready → rb s Rg.perfCtrl 1 = true → (∀ x ∈ s.perf.lastDump, x < dumpInstant s) → doorbellsOf s 9 = [] →
    ringRuns s 9 = false → ∃ t, exec (.dumpLatch d) s = .next t ∧ t.hif.cnt = vmod s.hif.cnt 5 (· + 1)) ∧
  (∀ (s : State) (d : BitVec 256), s.pwr.phase = .ready → rb s Rg.perfCtrl 1 = true → (∀ x ∈ s.perf.lastDump, x < dumpInstant s) → doorbellsOf s 9 = [] → s.glb.pcie = true →
    ringRuns s 9 = true → ringPosted s 9 ≠ 0 → dumpMalformed d = false → 8352 ≤ fld d.toNat 95 64 → ∃ t, exec (.dumpLatch d) s = .next t ∧
      (ring t 9).eng = (ring s 9).eng + 1 ∧ (t.out.any fun e => match e with | .dma a l => a = fld d.toNat 63 0 && l.length = 8352 | _ => false) = true) ∧
  (∀ (s : State) (hd : Hdr) (d : BitVec 256), Accepts s hd 0xD2 → ∃ t, exec (.dumpNow hd d) s = .next t ∧
    t = complete (dumpLatch s true d) hd 0xD2 Status.ok 4 (dumpLatch s true d).perf.dseq.toNat ∧ t.perf.dseq = s.perf.dseq + 1 ∧ Ends t hd 0xD2 Status.ok ∧ t.tco = s.tco) ∧
  (∀ (s : State) (hd : Hdr) (mask mode : BitVec 8) (period thresh : BitVec 32), Accepts s hd 0xD3 → s.perf.sampling = none → mask.toNat ≤ 15 → mode.toNat ≤ 2 → 1024 ≤ period.toNat → thresh ≠ 0 →
    thresh.toNat ≤ 65535 → exec (.sampleStart hd mask mode period thresh) s = .next (answered { s with perf :=
      { s.perf with sampling := some (mask.setWidth 4, mode.toNat, period.toNat, thresh.toNat), taken := 0, lost := 0 } } hd 0xD3 Status.ok 0 0)) ∧
  (∀ (s : State) (hd : Hdr), Accepts s hd 0xD4 → s.perf.sampling ≠ none → exec (.sampleStop hd) s = .next (answered { s with perf := { s.perf with sampling := none } } hd 0xD4 Status.ok 8
    (sat32 s.perf.taken + sat32 s.perf.lost * 2 ^ 32))) ∧
  (∀ (s : State) (c : Fin 4) (mask : BitVec 4) (mode period thresh : Nat) (insn : BitVec 64) (addr latency : BitVec 32) (due trap : Bool) (k : BitVec 8),
    s.perf.sampling = some (mask, mode, period, thresh) → mask.getLsbD c.val = true → coreUp s c.val = true → sampleCause mode thresh latency due trap = some k →
    (∃ t, exec (.sampleTake c insn addr latency due trap) s = .next t ∧ t.perf.sseq = s.perf.sseq + 1 ∧ t.perf.taken = s.perf.taken + 1 ∧ t.tco = s.tco) ∧
    (s.perf.buf.length < 4096 → ringRuns s 10 = false → ∃ t x, exec (.sampleTake c insn addr latency due trap) s = .next t ∧
      t.perf.buf = s.perf.buf ++ [x] ∧ x.insn = insn ∧ x.addr = addr ∧ x.latency = latency ∧ x.core = c ∧ x.cause = k ∧ x.sseq = s.perf.sseq + 1 ∧ x.lost = s.perf.lostMark ∧
      t.perf.lostMark = false) ∧
    (4096 ≤ s.perf.buf.length → ∃ t, exec (.sampleTake c insn addr latency due trap) s = .next t ∧ t.perf.buf = s.perf.buf ∧ t.perf.lostMark = true ∧ t.perf.lost = s.perf.lost + 1)) ∧
  (∀ s : State, s.perf.lostSec ≠ 0 → s.perf.lostAt + ticksS 1 ≤ s.now → ∃ t, exec .sampleLost s = .next t ∧ t.perf.lostSec = 0 ∧ t.perf.lostAt = s.now ∧ t.perf.lost = s.perf.lost ∧ (blkStat t .perf).bits.getLsbD 1 = true) ∧
  (∀ (s : State) (rest : List Bool), mainUp s = true → coreUp s 0 = true → s.pending.contains .pwrFail = false →
    (s.pan.nextAt ≤ s.now → ∃ t, exec (.pantryCommit (true :: rest)) s = .next t ∧ t.pan.nextAt = s.pan.nextAt + ticksS 600 ∧ panCseq t = panCseq s + 1 ∧
      t.pan.log = s.pan.log ∧ t.tco = s.tco ∧ t.words = s.words) ∧
    (s.now < s.pan.nextAt → s.pan.sevDue = true → (∀ x ∈ s.pan.sevAt, x + ticksS 1 ≤ s.now) → ∃ t, exec (.pantryCommit (true :: rest)) s = .next t ∧
      t.pan.sevAt = some s.now ∧ panCseq t = panCseq s + 1 ∧ t.tco = s.tco ∧ t.words = s.words) ∧
    (∀ back : List Bool, s.pan.nextAt ≤ s.now → exec (.pantryCommit back) s = .next (commitTry (modPan s fun p => { p with nextAt := p.nextAt + ticksS 600 }) back)))
end

