-- ==== Sys2Proof/Laws/Words.lean ====
section
/-! SUPPORT. The laws of the canonical sorted lists and of vectors indexed by numbers. -/
namespace Sys2Proof.Machine

theorem awfFrom_weaken {α : Type} [DecidableEq α] (d : Nat → α) (l : List (Nat × α)) (lo : Option Nat) (x : Nat)
    (hx : ∀ b, lo = some b → b < x) (h : awfFrom d (some x) l = true) : awfFrom d lo l = true := by
  cases l with
  | nil => rfl
  | cons p r =>
    obtain ⟨k, v⟩ := p
    simp only [awfFrom, Bool.and_eq_true, decide_eq_true_eq] at h ⊢
    refine ⟨⟨?_, h.1.2⟩, h.2⟩
    cases lo with
    | none => rfl
    | some b => simp only [decide_eq_true_eq]; exact Nat.lt_trans (hx b rfl) h.1.1

/-- A write keeps the canonical form. -/
theorem aset_awfFrom {α : Type} [DecidableEq α] (d : Nat → α) (x : Nat) (a : α) (l : List (Nat × α)) :
    ∀ lo : Option Nat, (∀ b, lo = some b → b < x) → awfFrom d lo l = true → awfFrom d lo (aset (d x) l x a) = true := by
  induction l with
  | nil =>
    intro lo hlo _
    unfold aset
    by_cases ha : a = d x
    · rw [if_pos ha]; rfl
    · rw [if_neg ha]
      cases lo with
      | none => simp [awfFrom, ha]
      | some b => simp [awfFrom, ha, hlo b rfl]
  | cons p r ih =>
    obtain ⟨k, v⟩ := p
    intro lo hlo h
    simp only [awfFrom, Bool.and_eq_true, bne_iff_ne, ne_eq] at h
    obtain ⟨⟨hk, hv⟩, hr⟩ := h
    unfold aset
    by_cases h1 : x < k
    · rw [if_pos h1]
      by_cases ha : a = d x
      · rw [if_pos ha]; simp only [awfFrom, Bool.and_eq_true, bne_iff_ne, ne_eq]; exact ⟨⟨hk, hv⟩, hr⟩
      · rw [if_neg ha]
        simp only [awfFrom, Bool.and_eq_true, bne_iff_ne, ne_eq, decide_eq_true_eq]
        refine ⟨⟨?_, ha⟩, ⟨h1, hv⟩, hr⟩
        cases lo with
        | none => rfl
        | some b => simpa using hlo b rfl
    · rw [if_neg h1]
      by_cases h2 : x = k
      · subst h2
        rw [if_pos rfl]
        by_cases ha : a = d x
        · rw [if_pos ha]; exact awfFrom_weaken d r lo x hlo hr
        · rw [if_neg ha]; simp only [awfFrom, Bool.and_eq_true, bne_iff_ne, ne_eq]; exact ⟨⟨hk, ha⟩, hr⟩
      · rw [if_neg h2]
        simp only [awfFrom, Bool.and_eq_true, bne_iff_ne, ne_eq]
        exact ⟨⟨hk, hv⟩, ih (some k) (fun b hb => by cases hb; omega) hr⟩

theorem aset_awf {α : Type} [DecidableEq α] (d : Nat → α) (l : List (Nat × α)) (x : Nat) (a : α)
    (h : awf d l = true) : awf d (aset (d x) l x a) = true :=
  aset_awfFrom d x a l none (fun _ hb => by cases hb) h

/-- Removing entries keeps the canonical form. -/
theorem filter_awfFrom {α : Type} [DecidableEq α] (d : Nat → α) (p : Nat × α → Bool) (l : List (Nat × α)) :
    ∀ lo : Option Nat, awfFrom d lo l = true → awfFrom d lo (l.filter p) = true := by
  induction l with
  | nil => intro lo _; rfl
  | cons q r ih =>
    obtain ⟨k, v⟩ := q
    intro lo h
    simp only [awfFrom, Bool.and_eq_true, bne_iff_ne, ne_eq] at h
    obtain ⟨⟨hk, hv⟩, hr⟩ := h
    by_cases hp : p (k, v) = true
    · rw [List.filter_cons_of_pos hp]
      simp only [awfFrom, Bool.and_eq_true, bne_iff_ne, ne_eq]
      exact ⟨⟨hk, hv⟩, ih (some k) hr⟩
    · rw [List.filter_cons_of_neg hp]
      refine awfFrom_weaken d _ lo k ?_ (ih (some k) hr)
      intro b hb
      subst hb
      simpa using hk

theorem filter_awf {α : Type} [DecidableEq α] (d : Nat → α) (p : Nat × α → Bool) (l : List (Nat × α))
    (h : awf d l = true) : awf d (l.filter p) = true := filter_awfFrom d p l none h

/-- A key at or below the floor of a canonical list is not listed. -/
theorem aget_below {α : Type} [DecidableEq α] (d : Nat → α) (e : α) (l : List (Nat × α)) :
    ∀ b x : Nat, x ≤ b → awfFrom d (some b) l = true → aget e l x = e := by
  induction l with
  | nil => intro b x _ _; rfl
  | cons q r ih =>
    obtain ⟨k, v⟩ := q
    intro b x hx h
    simp only [awfFrom, Bool.and_eq_true, decide_eq_true_eq] at h
    have hk : k ≠ x := by omega
    rw [aget, if_neg hk]
    exact ih k x (by omega) h.2

/-- A read after a write to the same key gives the value written. -/
theorem aget_aset_same {α : Type} [DecidableEq α] (d : Nat → α) (x : Nat) (a : α) (l : List (Nat × α)) :
    ∀ lo : Option Nat, awfFrom d lo l = true → aget (d x) (aset (d x) l x a) x = a := by
  induction l with
  | nil => intro lo _; unfold aset; split <;> simp_all [aget]
  | cons q r ih =>
    obtain ⟨k, v⟩ := q
    intro lo h
    simp only [awfFrom, Bool.and_eq_true] at h
    unfold aset
    by_cases h1 : x < k
    · rw [if_pos h1]
      by_cases ha : a = d x
      · have hk : k ≠ x := by omega
        rw [if_pos ha, aget, if_neg hk, aget_below d (d x) r k x (by omega) h.2, ha]
      · rw [if_neg ha, aget, if_pos rfl]
    · rw [if_neg h1]
      by_cases h2 : x = k
      · subst h2
        rw [if_pos rfl]
        by_cases ha : a = d x
        · rw [if_pos ha, aget_below d (d x) r x x (Nat.le_refl x) h.2, ha]
        · rw [if_neg ha, aget, if_pos rfl]
      · rw [if_neg h2, aget, if_neg (fun hk => h2 hk.symm)]
        exact ih (some k) h.2

/-- A write leaves every other key as it was. -/
theorem aget_aset_other {α : Type} [DecidableEq α] (e d : α) (x y : Nat) (a : α) (hxy : y ≠ x) (l : List (Nat × α)) :
    aget e (aset d l x a) y = aget e l y := by
  induction l with
  | nil => unfold aset; split <;> simp [aget, Ne.symm hxy]
  | cons q r ih =>
    obtain ⟨k, v⟩ := q
    unfold aset
    by_cases h1 : x < k
    · rw [if_pos h1]; split <;> simp [aget, Ne.symm hxy]
    · rw [if_neg h1]
      by_cases h2 : x = k
      · subst h2; rw [if_pos rfl]; split <;> simp [aget, Ne.symm hxy]
      · rw [if_neg h2, aget, aget, ih]

theorem vget_lt {α : Type} {n : Nat} (v : Vector α n) (d : α) (i : Nat) (h : i < n) : vget v d i = v[i] := dif_pos h

theorem vget_vmod {α : Type} {n : Nat} (v : Vector α n) (d : α) (i j : Nat) (f : α → α) :
    vget (vmod v i f) d j = if i = j ∧ i < n then f (vget v d j) else vget v d j := by
  unfold vget vmod
  by_cases hi : i < n
  · by_cases hj : j < n
    · by_cases hij : i = j
      · subst hij; simp [hi]
      · simp [hi, hj, hij]
    · by_cases hij : i = j
      · subst hij; exact absurd hi hj
      · simp [hi, hj, hij]
  · by_cases hj : j < n <;> simp [hi, hj]

theorem vget_vset {α : Type} {n : Nat} (v : Vector α n) (d : α) (i j : Nat) (a : α) :
    vget (vset v i a) d j = if i = j ∧ i < n then a else vget v d j := by
  unfold vget vset
  by_cases hi : i < n
  · by_cases hj : j < n
    · by_cases hij : i = j
      · subst hij; simp [hi]
      · simp [hi, hj, hij]
    · by_cases hij : i = j
      · subst hij; exact absurd hi hj
      · simp [hi, hj, hij]
  · by_cases hj : j < n <;> simp [hi, hj]

/-- The two readings of a vector's element agree. -/
theorem getElem_vmod {α : Type} {n : Nat} (v : Vector α n) (i j : Nat) (f : α → α) (h : j < n) :
    (vmod v i f)[j] = if i = j then f v[j] else v[j] := by
  unfold vmod
  by_cases hi : i < n
  · by_cases hij : i = j
    · subst hij; simp [hi]
    · simp [hi, hij]
  · have : i ≠ j := by omega
    simp [hi, this]

end Sys2Proof.Machine
end

