-- ==== Sys2Proof/Laws/Only.lean ====
section
/-! SUPPORT. What an operation can touch: the parts of the state, the relation "only these parts differ", and how it
composes. The relation also carries the invariants of stored words and counter. -/
namespace Sys2Proof.Laws
open Sys2Proof.Machine
open Sys2Proof.Safety

theorem part_same_refl (p : Part) (s : State) : p.same s s := by cases p <;> simp [Part.same]

theorem part_same_trans (p : Part) {s t u : State} (h : p.same s t) (k : p.same t u) : p.same s u := by
  cases p <;> simp only [Part.same] at h k ⊢ <;> first
    | exact k.trans h
    | (rw [k, h])
    | (obtain ⟨a1, a2, a3⟩ := h; obtain ⟨b1, b2, b3⟩ := k; exact ⟨b1.trans a1, b2.trans a2, b3.trans a3⟩)
    | (obtain ⟨a1, a2⟩ := h; obtain ⟨b1, b2⟩ := k; exact ⟨b1.trans a1, b2.trans a2⟩)
    | (obtain ⟨a1, a2, a3, a4, a5, a6, a7⟩ := h; obtain ⟨b1, b2, b3, b4, b5, b6, b7⟩ := k
       exact ⟨b1.trans a1, b2.trans a2, b3.trans a3, b4.trans a4, b5.trans a5, b6.trans a6, b7.trans a7⟩)

/-- Only the parts listed can differ between two states; the stored words stay in canonical form and the counter below
    its modulus. -/
structure Only (L : List Part) (s t : State) : Prop where
  same : ∀ p, p ∉ L → p.same s t
  form : wordsCanonical s = true → wordsCanonical t = true
  bound : counterBound s = true → counterBound t = true

theorem Only.refl (L : List Part) (s : State) : Only L s s :=
  ⟨fun p _ => part_same_refl p s, id, id⟩

/-- One more step, whose parts are among those listed. -/
theorem Only.step {L M : List Part} {s t u : State} (h : Only L s t) (k : Only M t u) (sub : ∀ p ∈ M, p ∈ L) : Only L s u :=
  ⟨fun p hp => part_same_trans p (h.same p hp) (k.same p fun hm => hp (sub p hm)), fun w => k.form (h.form w),
   fun b => k.bound (h.bound b)⟩

theorem Only.mono {L M : List Part} {s t : State} (h : Only M s t) (sub : ∀ p ∈ M, p ∈ L) : Only L s t :=
  Only.step (Only.refl L s) h sub

/-- A change outside words and time core. -/
theorem Only.of {L : List Part} {s t : State} (h : ∀ p, p ∉ L → p.same s t) (hw : t.words = s.words) (hc : t.tco.counter = s.tco.counter) :
    Only L s t :=
  ⟨h, fun w => by unfold wordsCanonical at *; rw [hw]; exact w, fun b => by unfold counterBound at *; rw [hc]; exact b⟩

theorem Only.foldl {α : Type} {L : List Part} {s t : State} (f : State → α → State) (l : List α)
    (hf : ∀ u a, Only L s u → Only L s (f u a)) (h : Only L s t) : Only L s (l.foldl f t) := by
  induction l generalizing t with
  | nil => exact h
  | cons a r ih => exact ih (hf t a h)

/-- A fold whose first component is the state. -/
theorem Only.foldlFst {α β : Type} {L : List Part} {s : State} (f : State × β → α → State × β) (l : List α) (p : State × β)
    (hf : ∀ u a, Only L s u.1 → Only L s (f u a).1) (h : Only L s p.1) : Only L s (l.foldl f p).1 := by
  induction l generalizing p with
  | nil => exact h
  | cons a r ih => exact ih (f p a) (hf p a h)

theorem Only.ite {L : List Part} {s a b : State} {c : Prop} [Decidable c] (ha : c → Only L s a) (hb : ¬c → Only L s b) :
    Only L s (if c then a else b) := by
  by_cases h : c
  · rw [if_pos h]; exact ha h
  · rw [if_neg h]; exact hb h

/-- A named intermediate state. -/
theorem Only.cut {L : List Part} {s x : State} {P : Prop} (a : Only L s x) (b : Only L s x → P) : P := b a

/-- A state that a pair names. -/
theorem Only.sndEq {α : Type} {L : List Part} {s t : State} {p : α × State} {a : α} (h : p = (a, t)) (k : Only L s p.2) :
    Only L s t := by rw [h] at k; exact k

theorem Only.fstEq {α : Type} {L : List Part} {s t : State} {p : State × α} {a : α} (h : p = (t, a)) (k : Only L s p.1) :
    Only L s t := by rw [h] at k; exact k

/-- A named truth value. -/
theorem Only.named {b : Bool} {P : Prop} (h : P) : P := by cases b <;> exact h

/-! ## Single fields -/

/-- An update whose words and counter are those before: `t` is read off from the queue, which it leaves. -/
theorem Only.upd {L : List Part} {s t u : State} (h : Only L s t) (_ : u.pending = t.pending) (hw : u.words = t.words)
    (hc : u.tco.counter = t.tco.counter) (hp : ∀ p, p ∉ L → p.same t u) : Only L s u :=
  ⟨fun p q => part_same_trans p (h.same p q) (hp p q),
   fun w => by have w' := h.form w; unfold wordsCanonical at *; rw [hw]; exact w',
   fun b => by have b' := h.bound b; unfold counterBound at *; rw [hc]; exact b'⟩

theorem set_log_only (s : State) (x : Log) : Only [.log] s { s with log := x } :=
  Only.of (fun p hp => by cases p <;> first | exact absurd (by decide) hp | simp [Part.same]) rfl rfl

theorem set_glb_only (s : State) (x : Glb) : Only [.glb] s { s with glb := x } :=
  Only.of (fun p hp => by cases p <;> first | exact absurd (by decide) hp | simp [Part.same]) rfl rfl

theorem set_pan_only (s : State) (x : Pan) : Only [.pan] s { s with pan := x } :=
  Only.of (fun p hp => by cases p <;> first | exact absurd (by decide) hp | simp [Part.same]) rfl rfl

theorem set_mem_only (s : State) (x : Mem) : Only [.mem] s { s with mem := x } :=
  Only.of (fun p hp => by cases p <;> first | exact absurd (by decide) hp | simp [Part.same]) rfl rfl

theorem set_clk_only (s : State) (x : Clk) : Only [.clk] s { s with clk := x } :=
  Only.of (fun p hp => by cases p <;> first | exact absurd (by decide) hp | simp [Part.same]) rfl rfl

theorem set_pwr_only (s : State) (x : Pwr) : Only [.pwr] s { s with pwr := x } :=
  Only.of (fun p hp => by cases p <;> first | exact absurd (by decide) hp | simp [Part.same]) rfl rfl

theorem set_ctl_only (s : State) (x : Ctl) : Only [.ctl] s { s with ctl := x } :=
  Only.of (fun p hp => by cases p <;> first | exact absurd (by decide) hp | simp [Part.same]) rfl rfl

theorem set_upd_only (s : State) (x : Upd) : Only [.upd] s { s with upd := x } :=
  Only.of (fun p hp => by cases p <;> first | exact absurd (by decide) hp | simp [Part.same]) rfl rfl

theorem set_refs_only (s : State) (x : Refs) : Only [.refs] s { s with refs := x } :=
  Only.of (fun p hp => by cases p <;> first | exact absurd (by decide) hp | simp [Part.same]) rfl rfl

theorem set_gbb_only (s : State) (x : Gbb) : Only [.gbb] s { s with gbb := x } :=
  Only.of (fun p hp => by cases p <;> first | exact absurd (by decide) hp | simp [Part.same]) rfl rfl

theorem set_svc_only (s : State) (x : Svc) : Only [.svc] s { s with svc := x } :=
  Only.of (fun p hp => by cases p <;> first | exact absurd (by decide) hp | simp [Part.same]) rfl rfl

theorem set_ptp_only (s : State) (x : Ptp) : Only [.ptp] s { s with ptp := x } :=
  Only.of (fun p hp => by cases p <;> first | exact absurd (by decide) hp | simp [Part.same]) rfl rfl

theorem set_eth_only (s : State) (x : Eth) : Only [.eth] s { s with eth := x } :=
  Only.of (fun p hp => by cases p <;> first | exact absurd (by decide) hp | simp [Part.same]) rfl rfl

theorem set_key_only (s : State) (x : Key) : Only [.key] s { s with key := x } :=
  Only.of (fun p hp => by cases p <;> first | exact absurd (by decide) hp | simp [Part.same]) rfl rfl

theorem set_out_only (s : State) (x : List Out) : Only [.out] s { s with out := x } :=
  Only.of (fun p hp => by cases p <;> first | exact absurd (by decide) hp | simp [Part.same]) rfl rfl

theorem set_mismatch_only (s : State) (x : List Nat) : Only [.mismatch] s { s with mismatch := x } :=
  Only.of (fun p hp => by cases p <;> first | exact absurd (by decide) hp | simp [Part.same]) rfl rfl

theorem set_pending_only (s : State) (x : List Sys2Proof.Instr) : Only [.pending] s { s with pending := x } :=
  Only.of (fun p hp => by cases p <;> first | exact absurd (by decide) hp | simp [Part.same]) rfl rfl

theorem set_freeCtr_only (s : State) (x : Nat) : Only [.free] s { s with freeCtr := x } :=
  Only.of (fun p hp => by cases p <;> first | exact absurd (by decide) hp | simp [Part.same]) rfl rfl

theorem set_hif_only_hif (s : State) (x : Hif) (h : x = { x with rings := s.hif.rings, pba := s.hif.pba }) : Only [.hif] s { s with hif := x } :=
  Only.of (fun p hp => by
    cases p <;> first | exact absurd (by decide) hp | (simp only [Part.same] <;> first | trivial | (rw [h]; done) | (rw [h]; simp; done))) rfl rfl

theorem set_hif_only_rings (s : State) (x : Hif) (h : x = { s.hif with rings := x.rings, pba := x.pba }) : Only [.rings] s { s with hif := x } :=
  Only.of (fun p hp => by
    cases p <;> first | exact absurd (by decide) hp | (simp only [Part.same] <;> first | trivial | exact h)) rfl rfl

theorem set_hif_only (s : State) (x : Hif) : Only [.rings, .hif] s { s with hif := x } :=
  Only.of (fun p hp => by cases p <;> first | exact absurd (by decide) hp | simp [Part.same]) rfl rfl

theorem set_perf_only_perf (s : State) (x : Perf) (h : x = { x with cnt := s.perf.cnt, chain := s.perf.chain, wrap := s.perf.wrap }) : Only [.perf] s { s with perf := x } :=
  Only.of (fun p hp => by
    cases p <;> first | exact absurd (by decide) hp | (simp only [Part.same] <;> first | trivial | (rw [h]; done) | (rw [h]; simp; done))) rfl rfl

theorem set_perf_only_cnt (s : State) (x : Perf) (h : x = { s.perf with cnt := x.cnt, chain := x.chain, wrap := x.wrap }) : Only [.cnt] s { s with perf := x } :=
  Only.of (fun p hp => by
    cases p <;> first | exact absurd (by decide) hp | (simp only [Part.same] <;> first | trivial | exact h)) rfl rfl

theorem set_perf_only (s : State) (x : Perf) : Only [.cnt, .perf] s { s with perf := x } :=
  Only.of (fun p hp => by cases p <;> first | exact absurd (by decide) hp | simp [Part.same]) rfl rfl

theorem set_tio_only_tio (s : State) (x : Tio) (h : x = { x with outs := s.tio.outs }) : Only [.tio] s { s with tio := x } :=
  Only.of (fun p hp => by
    cases p <;> first | exact absurd (by decide) hp | (simp only [Part.same] <;> first | trivial | (rw [h]; done) | (rw [h]; simp; done))) rfl rfl

theorem set_tio_only_outs (s : State) (x : Tio) (h : x = { s.tio with outs := x.outs }) : Only [.outs] s { s with tio := x } :=
  Only.of (fun p hp => by
    cases p <;> first | exact absurd (by decide) hp | (simp only [Part.same] <;> first | trivial | exact h)) rfl rfl

theorem set_tio_only (s : State) (x : Tio) : Only [.outs, .tio] s { s with tio := x } :=
  Only.of (fun p hp => by cases p <;> first | exact absurd (by decide) hp | simp [Part.same]) rfl rfl

theorem set_lnk_only_lnk (s : State) (x : Lnk) (h : x = { x with links := s.lnk.links }) : Only [.lnk] s { s with lnk := x } :=
  Only.of (fun p hp => by
    cases p <;> first | exact absurd (by decide) hp | (simp only [Part.same] <;> first | trivial | (rw [h]; done) | (rw [h]; simp; done))) rfl rfl

theorem set_lnk_only_links (s : State) (x : Lnk) (h : x = { s.lnk with links := x.links }) : Only [.links] s { s with lnk := x } :=
  Only.of (fun p hp => by
    cases p <;> first | exact absurd (by decide) hp | (simp only [Part.same] <;> first | trivial | exact h)) rfl rfl

theorem set_lnk_only (s : State) (x : Lnk) : Only [.links, .lnk] s { s with lnk := x } :=
  Only.of (fun p hp => by cases p <;> first | exact absurd (by decide) hp | simp [Part.same]) rfl rfl

theorem set_pair_only_pair (s : State) (x : Pair) (h : x = { x with line := s.pair.line, drive := s.pair.drive, holding := s.pair.holding, highAt := s.pair.highAt, lowAt := s.pair.lowAt, driveAt := s.pair.driveAt, demotedAt := s.pair.demotedAt }) : Only [.pair] s { s with pair := x } :=
  Only.of (fun p hp => by
    cases p <;> first | exact absurd (by decide) hp | (simp only [Part.same] <;> first | trivial | (rw [h]; done) | (rw [h]; simp; done))) rfl rfl

theorem set_pair_only_line (s : State) (x : Pair) (h : x = { s.pair with line := x.line, drive := x.drive, holding := x.holding, highAt := x.highAt, lowAt := x.lowAt, driveAt := x.driveAt, demotedAt := x.demotedAt }) : Only [.line] s { s with pair := x } :=
  Only.of (fun p hp => by
    cases p <;> first | exact absurd (by decide) hp | (simp only [Part.same] <;> first | trivial | exact h)) rfl rfl

theorem set_pair_only (s : State) (x : Pair) : Only [.line, .pair] s { s with pair := x } :=
  Only.of (fun p hp => by cases p <;> first | exact absurd (by decide) hp | simp [Part.same]) rfl rfl

theorem set_tco_only (s : State) (x : Tco) (h : x.counter = s.tco.counter) : Only [.tco] s { s with tco := x } :=
  Only.of (fun p hp => by cases p <;> first | exact absurd (by decide) hp | simp [Part.same]) rfl h

/-- A write of a stored word touches the words and their parity marks. -/
theorem putW_only (s : State) (k : Nat) (v : Word) : Only [.words, .mismatch] s (putW s k v) :=
  ⟨fun p hp => by cases p <;> first | exact absurd (by decide) hp | simp [Part.same, putW],
   fun w => aset_awf (fun k => BitVec.ofNat 32 (wordReset k)) s.words k v w, id⟩

/-- Dropping stored words keeps their form. -/
theorem dropWords_only (s : State) (p : Nat × Word → Bool) (m : List Nat) :
    Only [.words, .mismatch] s { s with words := s.words.filter p, mismatch := m } :=
  ⟨fun p hp => by cases p <;> first | exact absurd (by decide) hp | simp [Part.same],
   fun w => filter_awf (fun k => BitVec.ofNat 32 (wordReset k)) p s.words w, id⟩

end Sys2Proof.Laws
end

