-- ==== Sys2Proof/Laws/Ops.lean ====
section
/-! SUPPORT. What each operation of Machine/Ops.lean can touch, once for each. -/
set_option linter.unusedTactic false
set_option linter.unreachableTactic false
namespace Sys2Proof.Laws
open Sys2Proof
open Sys2Proof.Machine
open Sys2Proof.Safety

theorem complete_only (s : State) (hd : Hdr) (op : Nat) (status : BitVec 8) (rlen : Nat) (result : Nat)  : Only [.hif] s (complete s hd op status rlen result) := by
  unfold complete
  repeat' first
    | ((fail_if_no_progress extract_lets +onlyGivenNames x); refine Only.cut (L := [.hif]) (s := s) (x := x) ?_ ?_; rotate_left; intro hx; clear_value x; rotate_left; dsimp only [x])
    | ((fail_if_no_progress extract_lets +onlyGivenNames x); refine Only.named (b := x.not) ?_; clear_value x)
    | (fail_if_no_progress extract_lets +onlyGivenNames x)
    | with_reducible apply Only.refl
    | with_reducible assumption
    | (with_reducible apply Only.ite <;> intro _)
    | (fail_if_no_progress (with_reducible (apply Only.step (M := [.hif]); rotate_left; apply set_hif_only_hif; rfl; decide)))
    | with_reducible (refine Only.sndEq (by assumption) ?_)
    | with_reducible (refine Only.fstEq (by assumption) ?_)
    | dsimp only
    | dsimp +zetaDelta only
    | split
    | (clear_value *; split)

theorem fin_only (s : State) (hd : Hdr) (op : Nat) (status : BitVec 8)  : Only [.hif] s (fin s hd op status) := by
  unfold fin
  repeat' first
    | ((fail_if_no_progress extract_lets +onlyGivenNames x); refine Only.cut (L := [.hif]) (s := s) (x := x) ?_ ?_; rotate_left; intro hx; clear_value x; rotate_left; dsimp only [x])
    | ((fail_if_no_progress extract_lets +onlyGivenNames x); refine Only.named (b := x.not) ?_; clear_value x)
    | (fail_if_no_progress extract_lets +onlyGivenNames x)
    | with_reducible apply Only.refl
    | with_reducible assumption
    | (with_reducible apply Only.ite <;> intro _)
    | with_reducible (apply Only.step (M := [.hif]); rotate_left; apply complete_only; decide)
    | with_reducible (refine Only.sndEq (by assumption) ?_)
    | with_reducible (refine Only.fstEq (by assumption) ?_)
    | dsimp only
    | dsimp +zetaDelta only
    | split
    | (clear_value *; split)

theorem perfAdd_only (s : State) (i : Nat) (n : Nat)  : Only [.cnt] s (perfAdd s i n) := by
  unfold perfAdd
  repeat' first
    | ((fail_if_no_progress extract_lets +onlyGivenNames x); refine Only.cut (L := [.cnt]) (s := s) (x := x) ?_ ?_; rotate_left; intro hx; clear_value x; rotate_left; dsimp only [x])
    | ((fail_if_no_progress extract_lets +onlyGivenNames x); refine Only.named (b := x.not) ?_; clear_value x)
    | (fail_if_no_progress extract_lets +onlyGivenNames x)
    | with_reducible apply Only.refl
    | with_reducible assumption
    | (with_reducible apply Only.ite <;> intro _)
    | (fail_if_no_progress (with_reducible (apply Only.step (M := [.cnt]); rotate_left; apply set_perf_only_cnt; rfl; decide)))
    | (fail_if_no_progress (with_reducible (apply Only.step (M := [.perf]); rotate_left; apply set_perf_only_perf; rfl; decide)))
    | (fail_if_no_progress (with_reducible (apply Only.step (M := [.cnt, .perf]); rotate_left; apply set_perf_only; decide)))
    | with_reducible (refine Only.sndEq (by assumption) ?_)
    | with_reducible (refine Only.fstEq (by assumption) ?_)
    | dsimp only
    | dsimp +zetaDelta only
    | split
    | (clear_value *; split)

theorem modBlk_only (s : State) (b : Blk) (f : BlkStat → BlkStat)  : Only [.log] s (modBlk s b f) := by
  unfold modBlk
  repeat' first
    | ((fail_if_no_progress extract_lets +onlyGivenNames x); refine Only.cut (L := [.log]) (s := s) (x := x) ?_ ?_; rotate_left; intro hx; clear_value x; rotate_left; dsimp only [x])
    | ((fail_if_no_progress extract_lets +onlyGivenNames x); refine Only.named (b := x.not) ?_; clear_value x)
    | (fail_if_no_progress extract_lets +onlyGivenNames x)
    | with_reducible apply Only.refl
    | with_reducible assumption
    | (with_reducible apply Only.ite <;> intro _)
    | (fail_if_no_progress (with_reducible (apply Only.step (M := [.log]); rotate_left; apply set_log_only; decide)))
    | with_reducible (refine Only.sndEq (by assumption) ?_)
    | with_reducible (refine Only.fstEq (by assumption) ?_)
    | dsimp only
    | dsimp +zetaDelta only
    | split
    | (clear_value *; split)

theorem seqAdvance_only (s : State) (b : Blk) (bit : Option Nat)  : Only [.log] s (seqAdvance s b bit) := by
  unfold seqAdvance
  repeat' first
    | ((fail_if_no_progress extract_lets +onlyGivenNames x); refine Only.cut (L := [.log]) (s := s) (x := x) ?_ ?_; rotate_left; intro hx; clear_value x; rotate_left; dsimp only [x])
    | ((fail_if_no_progress extract_lets +onlyGivenNames x); refine Only.named (b := x.not) ?_; clear_value x)
    | (fail_if_no_progress extract_lets +onlyGivenNames x)
    | with_reducible apply Only.refl
    | with_reducible assumption
    | (with_reducible apply Only.ite <;> intro _)
    | with_reducible (apply Only.step (M := [.log]); rotate_left; apply modBlk_only; decide)
    | with_reducible (refine Only.sndEq (by assumption) ?_)
    | with_reducible (refine Only.fstEq (by assumption) ?_)
    | dsimp only
    | dsimp +zetaDelta only
    | split
    | (clear_value *; split)

theorem emitOut_only (s : State) (o : Out)  : Only [.out] s (emitOut s o) := by
  unfold emitOut
  repeat' first
    | ((fail_if_no_progress extract_lets +onlyGivenNames x); refine Only.cut (L := [.out]) (s := s) (x := x) ?_ ?_; rotate_left; intro hx; clear_value x; rotate_left; dsimp only [x])
    | ((fail_if_no_progress extract_lets +onlyGivenNames x); refine Only.named (b := x.not) ?_; clear_value x)
    | (fail_if_no_progress extract_lets +onlyGivenNames x)
    | with_reducible apply Only.refl
    | with_reducible assumption
    | (with_reducible apply Only.ite <;> intro _)
    | (fail_if_no_progress (with_reducible (apply Only.step (M := [.out]); rotate_left; apply set_out_only; decide)))
    | with_reducible (refine Only.sndEq (by assumption) ?_)
    | with_reducible (refine Only.fstEq (by assumption) ?_)
    | dsimp only
    | dsimp +zetaDelta only
    | split
    | (clear_value *; split)

theorem modLink_only (s : State) (l : Fin 4) (f : Link → Link)  : Only [.links] s (modLink s l f) := by
  unfold modLink
  repeat' first
    | ((fail_if_no_progress extract_lets +onlyGivenNames x); refine Only.cut (L := [.links]) (s := s) (x := x) ?_ ?_; rotate_left; intro hx; clear_value x; rotate_left; dsimp only [x])
    | ((fail_if_no_progress extract_lets +onlyGivenNames x); refine Only.named (b := x.not) ?_; clear_value x)
    | (fail_if_no_progress extract_lets +onlyGivenNames x)
    | with_reducible apply Only.refl
    | with_reducible assumption
    | (with_reducible apply Only.ite <;> intro _)
    | (fail_if_no_progress (with_reducible (apply Only.step (M := [.links]); rotate_left; apply set_lnk_only_links; rfl; decide)))
    | with_reducible (refine Only.sndEq (by assumption) ?_)
    | with_reducible (refine Only.fstEq (by assumption) ?_)
    | dsimp only
    | dsimp +zetaDelta only
    | split
    | (clear_value *; split)

theorem outLink_only (s : State) (l : Fin 4) (f : LinkFrame)  : Only [.out] s (outLink s l f) := by
  unfold outLink
  repeat' first
    | ((fail_if_no_progress extract_lets +onlyGivenNames x); refine Only.cut (L := [.out]) (s := s) (x := x) ?_ ?_; rotate_left; intro hx; clear_value x; rotate_left; dsimp only [x])
    | ((fail_if_no_progress extract_lets +onlyGivenNames x); refine Only.named (b := x.not) ?_; clear_value x)
    | (fail_if_no_progress extract_lets +onlyGivenNames x)
    | with_reducible apply Only.refl
    | with_reducible assumption
    | (with_reducible apply Only.ite <;> intro _)
    | with_reducible (apply Only.step (M := [.out]); rotate_left; apply emitOut_only; decide)
    | with_reducible (refine Only.sndEq (by assumption) ?_)
    | with_reducible (refine Only.fstEq (by assumption) ?_)
    | dsimp only
    | dsimp +zetaDelta only
    | split
    | (clear_value *; split)

theorem sendNow_only (s : State) (l : Fin 4) (b : LinkBody)  : Only [.out, .links, .cnt] s (sendNow s l b) := by
  unfold sendNow
  repeat' first
    | ((fail_if_no_progress extract_lets +onlyGivenNames x); refine Only.cut (L := [.out, .links, .cnt]) (s := s) (x := x) ?_ ?_; rotate_left; intro hx; clear_value x; rotate_left; dsimp only [x])
    | ((fail_if_no_progress extract_lets +onlyGivenNames x); refine Only.named (b := x.not) ?_; clear_value x)
    | (fail_if_no_progress extract_lets +onlyGivenNames x)
    | with_reducible apply Only.refl
    | with_reducible assumption
    | (with_reducible apply Only.ite <;> intro _)
    | with_reducible (apply Only.step (M := [.links]); rotate_left; apply modLink_only; decide)
    | with_reducible (apply Only.step (M := [.cnt]); rotate_left; apply perfAdd_only; decide)
    | with_reducible (apply Only.step (M := [.out]); rotate_left; apply outLink_only; decide)
    | with_reducible (refine Only.sndEq (by assumption) ?_)
    | with_reducible (refine Only.fstEq (by assumption) ?_)
    | dsimp only
    | dsimp +zetaDelta only
    | split
    | (clear_value *; split)

theorem pumpWaiting_only (a1 : Nat) (a2 : State) (a3 : Fin 4)  : Only [.out, .links, .cnt] a2 (pumpWaiting a1 a2 a3) := by
  induction a1 generalizing a2 a3 with
  | zero => unfold pumpWaiting; exact Only.refl _ _
  | succ n ih =>
    unfold pumpWaiting
    repeat' first
      | ((fail_if_no_progress extract_lets +onlyGivenNames x); refine Only.cut (L := [.out, .links, .cnt]) (s := a2) (x := x) ?_ ?_; rotate_left; intro hx; clear_value x; rotate_left; dsimp only [x])
      | ((fail_if_no_progress extract_lets +onlyGivenNames x); refine Only.named (b := x.not) ?_; clear_value x)
      | (fail_if_no_progress extract_lets +onlyGivenNames x)
      | with_reducible apply Only.refl
      | with_reducible assumption
      | (with_reducible (apply Only.step; rotate_left; apply ih; exact (fun _ h => h)))
      | (with_reducible apply Only.ite <;> intro _)
      | with_reducible (apply Only.step (M := [.links]); rotate_left; apply modLink_only; decide)
      | with_reducible (apply Only.step (M := [.out, .links, .cnt]); rotate_left; apply sendNow_only; decide)
      | with_reducible (refine Only.sndEq (by assumption) ?_)
      | with_reducible (refine Only.fstEq (by assumption) ?_)
      | dsimp only
      | dsimp +zetaDelta only
      | split
      | (clear_value *; split)

theorem linkSend_only (s : State) (l : Fin 4) (b : LinkBody)  : Only [.out, .links, .cnt] s (linkSend s l b) := by
  unfold linkSend
  repeat' first
    | ((fail_if_no_progress extract_lets +onlyGivenNames x); refine Only.cut (L := [.out, .links, .cnt]) (s := s) (x := x) ?_ ?_; rotate_left; intro hx; clear_value x; rotate_left; dsimp only [x])
    | ((fail_if_no_progress extract_lets +onlyGivenNames x); refine Only.named (b := x.not) ?_; clear_value x)
    | (fail_if_no_progress extract_lets +onlyGivenNames x)
    | with_reducible apply Only.refl
    | with_reducible assumption
    | (with_reducible apply Only.ite <;> intro _)
    | with_reducible (apply Only.step (M := [.out, .links, .cnt]); rotate_left; apply pumpWaiting_only; decide)
    | with_reducible (apply Only.step (M := [.links]); rotate_left; apply modLink_only; decide)
    | with_reducible (apply Only.step (M := [.out, .links, .cnt]); rotate_left; apply sendNow_only; decide)
    | with_reducible (refine Only.sndEq (by assumption) ?_)
    | with_reducible (refine Only.fstEq (by assumption) ?_)
    | dsimp only
    | dsimp +zetaDelta only
    | split
    | (clear_value *; split)

theorem tunnelUp_only (s : State) (tag : BitVec 16) (t : Tunnel)  : Only [.out, .links, .cnt] s (tunnelUp s tag t) := by
  unfold tunnelUp
  repeat' first
    | ((fail_if_no_progress extract_lets +onlyGivenNames x); refine Only.cut (L := [.out, .links, .cnt]) (s := s) (x := x) ?_ ?_; rotate_left; intro hx; clear_value x; rotate_left; dsimp only [x])
    | ((fail_if_no_progress extract_lets +onlyGivenNames x); refine Only.named (b := x.not) ?_; clear_value x)
    | (fail_if_no_progress extract_lets +onlyGivenNames x)
    | with_reducible apply Only.refl
    | with_reducible assumption
    | (with_reducible apply Only.ite <;> intro _)
    | with_reducible (apply Only.step (M := [.out, .links, .cnt]); rotate_left; apply linkSend_only; decide)
    | with_reducible (refine Only.sndEq (by assumption) ?_)
    | with_reducible (refine Only.fstEq (by assumption) ?_)
    | dsimp only
    | dsimp +zetaDelta only
    | split
    | (clear_value *; split)

theorem fireVec_only (s : State) (v : Nat)  : Only [.out, .links, .rings, .cnt] s (fireVec s v) := by
  unfold fireVec
  repeat' first
    | ((fail_if_no_progress extract_lets +onlyGivenNames x); refine Only.cut (L := [.out, .links, .rings, .cnt]) (s := s) (x := x) ?_ ?_; rotate_left; intro hx; clear_value x; rotate_left; dsimp only [x])
    | ((fail_if_no_progress extract_lets +onlyGivenNames x); refine Only.named (b := x.not) ?_; clear_value x)
    | (fail_if_no_progress extract_lets +onlyGivenNames x)
    | with_reducible apply Only.refl
    | with_reducible assumption
    | (with_reducible apply Only.ite <;> intro _)
    | with_reducible (apply Only.step (M := [.cnt]); rotate_left; apply perfAdd_only; decide)
    | with_reducible (apply Only.step (M := [.out]); rotate_left; apply emitOut_only; decide)
    | with_reducible (apply Only.step (M := [.out, .links, .cnt]); rotate_left; apply tunnelUp_only; decide)
    | (fail_if_no_progress (with_reducible (apply Only.step (M := [.rings]); rotate_left; apply set_hif_only_rings; rfl; decide)))
    | with_reducible (refine Only.sndEq (by assumption) ?_)
    | with_reducible (refine Only.fstEq (by assumption) ?_)
    | dsimp only
    | dsimp +zetaDelta only
    | split
    | (clear_value *; split)

theorem fireSrc_only (s : State) (src : Nat)  : Only [.out, .links, .rings, .cnt] s (fireSrc s src) := by
  unfold fireSrc
  repeat' first
    | ((fail_if_no_progress extract_lets +onlyGivenNames x); refine Only.cut (L := [.out, .links, .rings, .cnt]) (s := s) (x := x) ?_ ?_; rotate_left; intro hx; clear_value x; rotate_left; dsimp only [x])
    | ((fail_if_no_progress extract_lets +onlyGivenNames x); refine Only.named (b := x.not) ?_; clear_value x)
    | (fail_if_no_progress extract_lets +onlyGivenNames x)
    | with_reducible apply Only.refl
    | with_reducible assumption
    | (with_reducible apply Only.ite <;> intro _)
    | with_reducible (apply Only.step (M := [.out, .links, .rings, .cnt]); rotate_left; apply fireVec_only; decide)
    | with_reducible (refine Only.sndEq (by assumption) ?_)
    | with_reducible (refine Only.fstEq (by assumption) ?_)
    | dsimp only
    | dsimp +zetaDelta only
    | split
    | (clear_value *; split)

theorem blkIrq_only (s : State) (b : Blk)  : Only [.out, .log, .links, .rings, .cnt] s (blkIrq s b) := by
  unfold blkIrq
  repeat' first
    | ((fail_if_no_progress extract_lets +onlyGivenNames x); refine Only.cut (L := [.out, .log, .links, .rings, .cnt]) (s := s) (x := x) ?_ ?_; rotate_left; intro hx; clear_value x; rotate_left; dsimp only [x])
    | ((fail_if_no_progress extract_lets +onlyGivenNames x); refine Only.named (b := x.not) ?_; clear_value x)
    | (fail_if_no_progress extract_lets +onlyGivenNames x)
    | with_reducible apply Only.refl
    | with_reducible assumption
    | (with_reducible apply Only.ite <;> intro _)
    | with_reducible (apply Only.step (M := [.out, .links, .rings, .cnt]); rotate_left; apply fireSrc_only; decide)
    | with_reducible (apply Only.step (M := [.log]); rotate_left; apply modBlk_only; decide)
    | with_reducible (refine Only.sndEq (by assumption) ?_)
    | with_reducible (refine Only.fstEq (by assumption) ?_)
    | dsimp only
    | dsimp +zetaDelta only
    | split
    | (clear_value *; split)

theorem hostDma_only (s : State) (addr : Nat) (data : List Byte)  : Only [.out, .links, .cnt] s (hostDma s addr data) := by
  unfold hostDma
  repeat' first
    | ((fail_if_no_progress extract_lets +onlyGivenNames x); refine Only.cut (L := [.out, .links, .cnt]) (s := s) (x := x) ?_ ?_; rotate_left; intro hx; clear_value x; rotate_left; dsimp only [x])
    | ((fail_if_no_progress extract_lets +onlyGivenNames x); refine Only.named (b := x.not) ?_; clear_value x)
    | (fail_if_no_progress extract_lets +onlyGivenNames x)
    | (with_reducible apply Only.foldl; (intro _ _ _))
    | (with_reducible apply Only.foldlFst; (intro _ _ _))
    | with_reducible apply Only.refl
    | with_reducible assumption
    | (with_reducible apply Only.ite <;> intro _)
    | with_reducible (apply Only.step (M := [.cnt]); rotate_left; apply perfAdd_only; decide)
    | with_reducible (apply Only.step (M := [.out]); rotate_left; apply emitOut_only; decide)
    | with_reducible (apply Only.step (M := [.out, .links, .cnt]); rotate_left; apply tunnelUp_only; decide)
    | with_reducible (refine Only.sndEq (by assumption) ?_)
    | with_reducible (refine Only.fstEq (by assumption) ?_)
    | dsimp only
    | dsimp +zetaDelta only
    | split
    | (clear_value *; split)

theorem modRing_only (s : State) (r : Nat) (f : Ring → Ring)  : Only [.rings] s (modRing s r f) := by
  unfold modRing
  repeat' first
    | ((fail_if_no_progress extract_lets +onlyGivenNames x); refine Only.cut (L := [.rings]) (s := s) (x := x) ?_ ?_; rotate_left; intro hx; clear_value x; rotate_left; dsimp only [x])
    | ((fail_if_no_progress extract_lets +onlyGivenNames x); refine Only.named (b := x.not) ?_; clear_value x)
    | (fail_if_no_progress extract_lets +onlyGivenNames x)
    | with_reducible apply Only.refl
    | with_reducible assumption
    | (with_reducible apply Only.ite <;> intro _)
    | (fail_if_no_progress (with_reducible (apply Only.step (M := [.rings]); rotate_left; apply set_hif_only_rings; rfl; decide)))
    | with_reducible (refine Only.sndEq (by assumption) ?_)
    | with_reducible (refine Only.fstEq (by assumption) ?_)
    | dsimp only
    | dsimp +zetaDelta only
    | split
    | (clear_value *; split)

theorem ringNotifyAt_only (s : State) (r : Nat) (idx : BitVec 32) (count : Nat)  : Only [.out, .links, .rings, .cnt] s (ringNotifyAt s r idx count) := by
  unfold ringNotifyAt
  repeat' first
    | ((fail_if_no_progress extract_lets +onlyGivenNames x); refine Only.cut (L := [.out, .links, .rings, .cnt]) (s := s) (x := x) ?_ ?_; rotate_left; intro hx; clear_value x; rotate_left; dsimp only [x])
    | ((fail_if_no_progress extract_lets +onlyGivenNames x); refine Only.named (b := x.not) ?_; clear_value x)
    | (fail_if_no_progress extract_lets +onlyGivenNames x)
    | with_reducible apply Only.refl
    | with_reducible assumption
    | (with_reducible apply Only.ite <;> intro _)
    | with_reducible (apply Only.step (M := [.out, .links, .cnt]); rotate_left; apply hostDma_only; decide)
    | with_reducible (apply Only.step (M := [.out, .links, .rings, .cnt]); rotate_left; apply fireSrc_only; decide)
    | with_reducible (apply Only.step (M := [.rings]); rotate_left; apply modRing_only; decide)
    | with_reducible (refine Only.sndEq (by assumption) ?_)
    | with_reducible (refine Only.fstEq (by assumption) ?_)
    | dsimp only
    | dsimp +zetaDelta only
    | split
    | (clear_value *; split)

theorem ringNotify_only (s : State) (r : Nat) (count : Nat)  : Only [.out, .links, .rings, .cnt] s (ringNotify s r count) := by
  unfold ringNotify
  repeat' first
    | ((fail_if_no_progress extract_lets +onlyGivenNames x); refine Only.cut (L := [.out, .links, .rings, .cnt]) (s := s) (x := x) ?_ ?_; rotate_left; intro hx; clear_value x; rotate_left; dsimp only [x])
    | ((fail_if_no_progress extract_lets +onlyGivenNames x); refine Only.named (b := x.not) ?_; clear_value x)
    | (fail_if_no_progress extract_lets +onlyGivenNames x)
    | with_reducible apply Only.refl
    | with_reducible assumption
    | (with_reducible apply Only.ite <;> intro _)
    | with_reducible (apply Only.step (M := [.out, .links, .rings, .cnt]); rotate_left; apply ringNotifyAt_only; decide)
    | with_reducible (refine Only.sndEq (by assumption) ?_)
    | with_reducible (refine Only.fstEq (by assumption) ?_)
    | dsimp only
    | dsimp +zetaDelta only
    | split
    | (clear_value *; split)

theorem ringAdvance_only (s : State) (r : Nat) (n : Nat)  : Only [.rings, .cnt] s (ringAdvance s r n) := by
  unfold ringAdvance
  repeat' first
    | ((fail_if_no_progress extract_lets +onlyGivenNames x); refine Only.cut (L := [.rings, .cnt]) (s := s) (x := x) ?_ ?_; rotate_left; intro hx; clear_value x; rotate_left; dsimp only [x])
    | ((fail_if_no_progress extract_lets +onlyGivenNames x); refine Only.named (b := x.not) ?_; clear_value x)
    | (fail_if_no_progress extract_lets +onlyGivenNames x)
    | with_reducible apply Only.refl
    | with_reducible assumption
    | (with_reducible apply Only.ite <;> intro _)
    | with_reducible (apply Only.step (M := [.cnt]); rotate_left; apply perfAdd_only; decide)
    | with_reducible (apply Only.step (M := [.rings]); rotate_left; apply modRing_only; decide)
    | with_reducible (refine Only.sndEq (by assumption) ?_)
    | with_reducible (refine Only.fstEq (by assumption) ?_)
    | dsimp only
    | dsimp +zetaDelta only
    | split
    | (clear_value *; split)

theorem ringPut_only (s : State) (r : Nat) (data : List Byte)  : Only [.out, .links, .rings, .cnt] s (ringPut s r data) := by
  unfold ringPut
  repeat' first
    | ((fail_if_no_progress extract_lets +onlyGivenNames x); refine Only.cut (L := [.out, .links, .rings, .cnt]) (s := s) (x := x) ?_ ?_; rotate_left; intro hx; clear_value x; rotate_left; dsimp only [x])
    | ((fail_if_no_progress extract_lets +onlyGivenNames x); refine Only.named (b := x.not) ?_; clear_value x)
    | (fail_if_no_progress extract_lets +onlyGivenNames x)
    | with_reducible apply Only.refl
    | with_reducible assumption
    | (with_reducible apply Only.ite <;> intro _)
    | with_reducible (apply Only.step (M := [.out, .links, .rings, .cnt]); rotate_left; apply ringNotify_only; decide)
    | with_reducible (apply Only.step (M := [.rings, .cnt]); rotate_left; apply ringAdvance_only; decide)
    | with_reducible (apply Only.step (M := [.out, .links, .cnt]); rotate_left; apply hostDma_only; decide)
    | with_reducible (refine Only.sndEq (by assumption) ?_)
    | with_reducible (refine Only.fstEq (by assumption) ?_)
    | dsimp only
    | dsimp +zetaDelta only
    | split
    | (clear_value *; split)

theorem evWrite_only (s : State) (r : Rec)  : Only [.out, .log, .links, .rings, .cnt] s (evWrite s r) := by
  unfold evWrite
  repeat' first
    | ((fail_if_no_progress extract_lets +onlyGivenNames x); refine Only.cut (L := [.out, .log, .links, .rings, .cnt]) (s := s) (x := x) ?_ ?_; rotate_left; intro hx; clear_value x; rotate_left; dsimp only [x])
    | ((fail_if_no_progress extract_lets +onlyGivenNames x); refine Only.named (b := x.not) ?_; clear_value x)
    | (fail_if_no_progress extract_lets +onlyGivenNames x)
    | with_reducible apply Only.refl
    | with_reducible assumption
    | (with_reducible apply Only.ite <;> intro _)
    | with_reducible (apply Only.step (M := [.out, .links, .rings, .cnt]); rotate_left; apply ringPut_only; decide)
    | (fail_if_no_progress (with_reducible (apply Only.step (M := [.log]); rotate_left; apply set_log_only; decide)))
    | with_reducible (refine Only.sndEq (by assumption) ?_)
    | with_reducible (refine Only.fstEq (by assumption) ?_)
    | dsimp only
    | dsimp +zetaDelta only
    | split
    | (clear_value *; split)

theorem modFig_only (s : State) (f : Figures → Figures)  : Only [.pan] s (modFig s f) := by
  unfold modFig
  repeat' first
    | ((fail_if_no_progress extract_lets +onlyGivenNames x); refine Only.cut (L := [.pan]) (s := s) (x := x) ?_ ?_; rotate_left; intro hx; clear_value x; rotate_left; dsimp only [x])
    | ((fail_if_no_progress extract_lets +onlyGivenNames x); refine Only.named (b := x.not) ?_; clear_value x)
    | (fail_if_no_progress extract_lets +onlyGivenNames x)
    | with_reducible apply Only.refl
    | with_reducible assumption
    | (with_reducible apply Only.ite <;> intro _)
    | (fail_if_no_progress (with_reducible (apply Only.step (M := [.pan]); rotate_left; apply set_pan_only; decide)))
    | with_reducible (refine Only.sndEq (by assumption) ?_)
    | with_reducible (refine Only.fstEq (by assumption) ?_)
    | dsimp only
    | dsimp +zetaDelta only
    | split
    | (clear_value *; split)

theorem figFault_only (s : State) (b : Blk) (cls : Cls)  : Only [.pan] s (figFault s b cls) := by
  unfold figFault
  repeat' first
    | ((fail_if_no_progress extract_lets +onlyGivenNames x); refine Only.cut (L := [.pan]) (s := s) (x := x) ?_ ?_; rotate_left; intro hx; clear_value x; rotate_left; dsimp only [x])
    | ((fail_if_no_progress extract_lets +onlyGivenNames x); refine Only.named (b := x.not) ?_; clear_value x)
    | (fail_if_no_progress extract_lets +onlyGivenNames x)
    | with_reducible apply Only.refl
    | with_reducible assumption
    | (with_reducible apply Only.ite <;> intro _)
    | with_reducible (apply Only.step (M := [.pan]); rotate_left; apply modFig_only; decide)
    | with_reducible (refine Only.sndEq (by assumption) ?_)
    | with_reducible (refine Only.fstEq (by assumption) ?_)
    | dsimp only
    | dsimp +zetaDelta only
    | split
    | (clear_value *; split)

theorem histPut_only (s : State) (r : Rec)  : Only [.log] s (histPut s r) := by
  unfold histPut
  repeat' first
    | ((fail_if_no_progress extract_lets +onlyGivenNames x); refine Only.cut (L := [.log]) (s := s) (x := x) ?_ ?_; rotate_left; intro hx; clear_value x; rotate_left; dsimp only [x])
    | ((fail_if_no_progress extract_lets +onlyGivenNames x); refine Only.named (b := x.not) ?_; clear_value x)
    | (fail_if_no_progress extract_lets +onlyGivenNames x)
    | with_reducible apply Only.refl
    | with_reducible assumption
    | (with_reducible apply Only.ite <;> intro _)
    | with_reducible (apply Only.step (M := [.log]); rotate_left; apply modBlk_only; decide)
    | with_reducible (refine Only.sndEq (by assumption) ?_)
    | with_reducible (refine Only.fstEq (by assumption) ?_)
    | dsimp only
    | dsimp +zetaDelta only
    | split
    | (clear_value *; split)

theorem drainCoal_only (a1 : Nat) (a2 : State)  : Only [.out, .pan, .log, .links, .rings, .cnt] a2 (drainCoal a1 a2) := by
  induction a1 generalizing a2 with
  | zero => unfold drainCoal; exact Only.refl _ _
  | succ n ih =>
    unfold drainCoal
    repeat' first
      | ((fail_if_no_progress extract_lets +onlyGivenNames x); refine Only.cut (L := [.out, .pan, .log, .links, .rings, .cnt]) (s := a2) (x := x) ?_ ?_; rotate_left; intro hx; clear_value x; rotate_left; dsimp only [x])
      | ((fail_if_no_progress extract_lets +onlyGivenNames x); refine Only.named (b := x.not) ?_; clear_value x)
      | (fail_if_no_progress extract_lets +onlyGivenNames x)
      | with_reducible apply Only.refl
      | with_reducible assumption
      | (with_reducible (apply Only.step; rotate_left; apply ih; exact (fun _ h => h)))
      | (with_reducible apply Only.ite <;> intro _)
      | with_reducible (apply Only.step (M := [.out, .log, .links, .rings, .cnt]); rotate_left; apply evWrite_only; decide)
      | with_reducible (apply Only.step (M := [.pan]); rotate_left; apply figFault_only; decide)
      | with_reducible (apply Only.step (M := [.log]); rotate_left; apply histPut_only; decide)
      | (fail_if_no_progress (with_reducible (apply Only.step (M := [.log]); rotate_left; apply set_log_only; decide)))
      | with_reducible (refine Only.sndEq (by assumption) ?_)
      | with_reducible (refine Only.fstEq (by assumption) ?_)
      | dsimp only
      | dsimp +zetaDelta only
      | split
      | (clear_value *; split)

theorem drainPend_only (a1 : Nat) (a2 : State)  : Only [.out, .log, .links, .rings, .cnt] a2 (drainPend a1 a2) := by
  induction a1 generalizing a2 with
  | zero => unfold drainPend; exact Only.refl _ _
  | succ n ih =>
    unfold drainPend
    repeat' first
      | ((fail_if_no_progress extract_lets +onlyGivenNames x); refine Only.cut (L := [.out, .log, .links, .rings, .cnt]) (s := a2) (x := x) ?_ ?_; rotate_left; intro hx; clear_value x; rotate_left; dsimp only [x])
      | ((fail_if_no_progress extract_lets +onlyGivenNames x); refine Only.named (b := x.not) ?_; clear_value x)
      | (fail_if_no_progress extract_lets +onlyGivenNames x)
      | with_reducible apply Only.refl
      | with_reducible assumption
      | (with_reducible (apply Only.step; rotate_left; apply ih; exact (fun _ h => h)))
      | (with_reducible apply Only.ite <;> intro _)
      | with_reducible (apply Only.step (M := [.out, .log, .links, .rings, .cnt]); rotate_left; apply evWrite_only; decide)
      | (fail_if_no_progress (with_reducible (apply Only.step (M := [.log]); rotate_left; apply set_log_only; decide)))
      | with_reducible (refine Only.sndEq (by assumption) ?_)
      | with_reducible (refine Only.fstEq (by assumption) ?_)
      | dsimp only
      | dsimp +zetaDelta only
      | split
      | (clear_value *; split)

theorem evDrain_only (s : State)  : Only [.out, .pan, .log, .links, .rings, .cnt] s (evDrain s) := by
  unfold evDrain
  repeat' first
    | ((fail_if_no_progress extract_lets +onlyGivenNames x); refine Only.cut (L := [.out, .pan, .log, .links, .rings, .cnt]) (s := s) (x := x) ?_ ?_; rotate_left; intro hx; clear_value x; rotate_left; dsimp only [x])
    | ((fail_if_no_progress extract_lets +onlyGivenNames x); refine Only.named (b := x.not) ?_; clear_value x)
    | (fail_if_no_progress extract_lets +onlyGivenNames x)
    | with_reducible apply Only.refl
    | with_reducible assumption
    | (with_reducible apply Only.ite <;> intro _)
    | with_reducible (apply Only.step (M := [.log]); rotate_left; apply seqAdvance_only; decide)
    | with_reducible (apply Only.step (M := [.out, .log, .links, .rings, .cnt]); rotate_left; apply blkIrq_only; decide)
    | with_reducible (apply Only.step (M := [.out, .log, .links, .rings, .cnt]); rotate_left; apply evWrite_only; decide)
    | with_reducible (apply Only.step (M := [.pan]); rotate_left; apply figFault_only; decide)
    | with_reducible (apply Only.step (M := [.log]); rotate_left; apply histPut_only; decide)
    | with_reducible (apply Only.step (M := [.out, .pan, .log, .links, .rings, .cnt]); rotate_left; apply drainCoal_only; decide)
    | with_reducible (apply Only.step (M := [.out, .log, .links, .rings, .cnt]); rotate_left; apply drainPend_only; decide)
    | (fail_if_no_progress (with_reducible (apply Only.step (M := [.log]); rotate_left; apply set_log_only; decide)))
    | with_reducible (refine Only.sndEq (by assumption) ?_)
    | with_reducible (refine Only.fstEq (by assumption) ?_)
    | dsimp only
    | dsimp +zetaDelta only
    | split
    | (clear_value *; split)

theorem refreshOut_only (s : State) (start : Bool) (o : Nat)  : Only [.out, .outs] s (refreshOut s start o) := by
  unfold refreshOut
  repeat' first
    | ((fail_if_no_progress extract_lets +onlyGivenNames x); refine Only.cut (L := [.out, .outs]) (s := s) (x := x) ?_ ?_; rotate_left; intro hx; clear_value x; rotate_left; dsimp only [x])
    | ((fail_if_no_progress extract_lets +onlyGivenNames x); refine Only.named (b := x.not) ?_; clear_value x)
    | (fail_if_no_progress extract_lets +onlyGivenNames x)
    | with_reducible apply Only.refl
    | with_reducible assumption
    | (with_reducible apply Only.ite <;> intro _)
    | with_reducible (apply Only.step (M := [.out]); rotate_left; apply emitOut_only; decide)
    | (fail_if_no_progress (with_reducible (apply Only.step (M := [.outs]); rotate_left; apply set_tio_only_outs; rfl; decide)))
    | with_reducible (refine Only.sndEq (by assumption) ?_)
    | with_reducible (refine Only.fstEq (by assumption) ?_)
    | dsimp only
    | dsimp +zetaDelta only
    | split
    | (clear_value *; split)

theorem refreshOuts_only (s : State) (start : Bool)  : Only [.out, .outs] s (refreshOuts s start) := by
  unfold refreshOuts
  repeat' first
    | ((fail_if_no_progress extract_lets +onlyGivenNames x); refine Only.cut (L := [.out, .outs]) (s := s) (x := x) ?_ ?_; rotate_left; intro hx; clear_value x; rotate_left; dsimp only [x])
    | ((fail_if_no_progress extract_lets +onlyGivenNames x); refine Only.named (b := x.not) ?_; clear_value x)
    | (fail_if_no_progress extract_lets +onlyGivenNames x)
    | (with_reducible apply Only.foldl; (intro _ _ _))
    | (with_reducible apply Only.foldlFst; (intro _ _ _))
    | with_reducible apply Only.refl
    | with_reducible assumption
    | (with_reducible apply Only.ite <;> intro _)
    | with_reducible (apply Only.step (M := [.out, .outs]); rotate_left; apply refreshOut_only; decide)
    | with_reducible (refine Only.sndEq (by assumption) ?_)
    | with_reducible (refine Only.fstEq (by assumption) ?_)
    | dsimp only
    | dsimp +zetaDelta only
    | split
    | (clear_value *; split)

theorem lineRelease_only (s : State)  : Only [.out, .line, .outs] s (lineRelease s) := by
  unfold lineRelease
  repeat' first
    | ((fail_if_no_progress extract_lets +onlyGivenNames x); refine Only.cut (L := [.out, .line, .outs]) (s := s) (x := x) ?_ ?_; rotate_left; intro hx; clear_value x; rotate_left; dsimp only [x])
    | ((fail_if_no_progress extract_lets +onlyGivenNames x); refine Only.named (b := x.not) ?_; clear_value x)
    | (fail_if_no_progress extract_lets +onlyGivenNames x)
    | with_reducible apply Only.refl
    | with_reducible assumption
    | (with_reducible apply Only.ite <;> intro _)
    | with_reducible (apply Only.step (M := [.out, .outs]); rotate_left; apply refreshOuts_only; decide)
    | with_reducible (apply Only.step (M := [.out]); rotate_left; apply emitOut_only; decide)
    | (fail_if_no_progress (with_reducible (apply Only.step (M := [.line]); rotate_left; apply set_pair_only_line; rfl; decide)))
    | with_reducible (refine Only.sndEq (by assumption) ?_)
    | with_reducible (refine Only.fstEq (by assumption) ?_)
    | dsimp only
    | dsimp +zetaDelta only
    | split
    | (clear_value *; split)

theorem enterSafe_only (s : State) (b : Blk) : Only [.out, .log, .outs] s (enterSafe s b) := by
  unfold enterSafe
  split
  · split
    · exact Only.step (Only.mono (modBlk_only s b _) (by decide)) (refreshOuts_only _ _) (by decide)
    · exact Only.mono (modBlk_only s b _) (by decide)
  · exact Only.refl _ _

theorem panWrite_only (s : State) (cut : Bool) (entered : PowerState) (readBack : Bool) :
    Only [.pan, .links] s (panWrite s cut entered readBack) := by
  unfold panWrite
  exact Only.ite (fun _ => Only.refl _ _) (fun _ => Only.of (fun p hp => by cases p <;> first | exact absurd (by decide) hp | exact rfl | exact ⟨rfl, rfl⟩ | exact ⟨rfl, rfl, rfl⟩ | exact ⟨rfl, rfl, rfl, rfl, rfl, rfl, rfl⟩) rfl rfl)

theorem panCommit_only (s : State) (cut : Bool) (entered : PowerState)  : Only [.pan, .links] s (panCommit s cut entered) := by
  unfold panCommit
  repeat' first
    | ((fail_if_no_progress extract_lets +onlyGivenNames x); refine Only.cut (L := [.pan, .links]) (s := s) (x := x) ?_ ?_; rotate_left; intro hx; clear_value x; rotate_left; dsimp only [x])
    | ((fail_if_no_progress extract_lets +onlyGivenNames x); refine Only.named (b := x.not) ?_; clear_value x)
    | (fail_if_no_progress extract_lets +onlyGivenNames x)
    | with_reducible apply Only.refl
    | with_reducible assumption
    | (with_reducible apply Only.ite <;> intro _)
    | with_reducible (apply Only.step (M := [.pan, .links]); rotate_left; apply panWrite_only; decide)
    | with_reducible (refine Only.sndEq (by assumption) ?_)
    | with_reducible (refine Only.fstEq (by assumption) ?_)
    | dsimp only
    | dsimp +zetaDelta only
    | split
    | (clear_value *; split)

theorem panAppend_only (s : State) (type : Nat) (sub : Nat) (aux : Nat) (data : Nat)  : Only [.pan] s (panAppend s type sub aux data) := by
  unfold panAppend
  repeat' first
    | ((fail_if_no_progress extract_lets +onlyGivenNames x); refine Only.cut (L := [.pan]) (s := s) (x := x) ?_ ?_; rotate_left; intro hx; clear_value x; rotate_left; dsimp only [x])
    | ((fail_if_no_progress extract_lets +onlyGivenNames x); refine Only.named (b := x.not) ?_; clear_value x)
    | (fail_if_no_progress extract_lets +onlyGivenNames x)
    | with_reducible apply Only.refl
    | with_reducible assumption
    | (with_reducible apply Only.ite <;> intro _)
    | (fail_if_no_progress (with_reducible (apply Only.step (M := [.pan]); rotate_left; apply set_pan_only; decide)))
    | with_reducible (refine Only.sndEq (by assumption) ?_)
    | with_reducible (refine Only.fstEq (by assumption) ?_)
    | dsimp only
    | dsimp +zetaDelta only
    | split
    | (clear_value *; split)

theorem faultEffects_only (s : State) (r : Rec)  : Only [.out, .pan, .log, .line, .links, .outs] s (faultEffects s r) := by
  unfold faultEffects
  repeat' first
    | ((fail_if_no_progress extract_lets +onlyGivenNames x); refine Only.cut (L := [.out, .pan, .log, .line, .links, .outs]) (s := s) (x := x) ?_ ?_; rotate_left; intro hx; clear_value x; rotate_left; dsimp only [x])
    | ((fail_if_no_progress extract_lets +onlyGivenNames x); refine Only.named (b := x.not) ?_; clear_value x)
    | (fail_if_no_progress extract_lets +onlyGivenNames x)
    | with_reducible apply Only.refl
    | with_reducible assumption
    | (with_reducible apply Only.ite <;> intro _)
    | with_reducible (apply Only.step (M := [.out, .line, .outs]); rotate_left; apply lineRelease_only; decide)
    | with_reducible (apply Only.step (M := [.out, .log, .outs]); rotate_left; apply enterSafe_only; decide)
    | with_reducible (apply Only.step (M := [.pan, .links]); rotate_left; apply panCommit_only; decide)
    | with_reducible (apply Only.step (M := [.pan]); rotate_left; apply panAppend_only; decide)
    | (fail_if_no_progress (with_reducible (apply Only.step (M := [.log]); rotate_left; apply set_log_only; decide)))
    | (fail_if_no_progress (with_reducible (apply Only.step (M := [.pan]); rotate_left; apply set_pan_only; decide)))
    | with_reducible (refine Only.sndEq (by assumption) ?_)
    | with_reducible (refine Only.fstEq (by assumption) ?_)
    | dsimp only
    | dsimp +zetaDelta only
    | split
    | (clear_value *; split)

theorem evDrop_only (s : State) (high : Bool)  : Only [.log] s (evDrop s high) := by
  unfold evDrop
  repeat' first
    | ((fail_if_no_progress extract_lets +onlyGivenNames x); refine Only.cut (L := [.log]) (s := s) (x := x) ?_ ?_; rotate_left; intro hx; clear_value x; rotate_left; dsimp only [x])
    | ((fail_if_no_progress extract_lets +onlyGivenNames x); refine Only.named (b := x.not) ?_; clear_value x)
    | (fail_if_no_progress extract_lets +onlyGivenNames x)
    | with_reducible apply Only.refl
    | with_reducible assumption
    | (with_reducible apply Only.ite <;> intro _)
    | (fail_if_no_progress (with_reducible (apply Only.step (M := [.log]); rotate_left; apply set_log_only; decide)))
    | with_reducible (refine Only.sndEq (by assumption) ?_)
    | with_reducible (refine Only.fstEq (by assumption) ?_)
    | dsimp only
    | dsimp +zetaDelta only
    | split
    | (clear_value *; split)

theorem pendPut_only (s : State) (r : Rec)  : Only [.log] s (pendPut s r) := by
  unfold pendPut
  repeat' first
    | ((fail_if_no_progress extract_lets +onlyGivenNames x); refine Only.cut (L := [.log]) (s := s) (x := x) ?_ ?_; rotate_left; intro hx; clear_value x; rotate_left; dsimp only [x])
    | ((fail_if_no_progress extract_lets +onlyGivenNames x); refine Only.named (b := x.not) ?_; clear_value x)
    | (fail_if_no_progress extract_lets +onlyGivenNames x)
    | with_reducible apply Only.refl
    | with_reducible assumption
    | (with_reducible apply Only.ite <;> intro _)
    | with_reducible (apply Only.step (M := [.log]); rotate_left; apply evDrop_only; decide)
    | (fail_if_no_progress (with_reducible (apply Only.step (M := [.log]); rotate_left; apply set_log_only; decide)))
    | with_reducible (refine Only.sndEq (by assumption) ?_)
    | with_reducible (refine Only.fstEq (by assumption) ?_)
    | dsimp only
    | dsimp +zetaDelta only
    | split
    | (clear_value *; split)

theorem coalPut_only (s : State) (r : Rec)  : Only [.log] s (coalPut s r) := by
  unfold coalPut
  repeat' first
    | ((fail_if_no_progress extract_lets +onlyGivenNames x); refine Only.cut (L := [.log]) (s := s) (x := x) ?_ ?_; rotate_left; intro hx; clear_value x; rotate_left; dsimp only [x])
    | ((fail_if_no_progress extract_lets +onlyGivenNames x); refine Only.named (b := x.not) ?_; clear_value x)
    | (fail_if_no_progress extract_lets +onlyGivenNames x)
    | with_reducible apply Only.refl
    | with_reducible assumption
    | (with_reducible apply Only.ite <;> intro _)
    | with_reducible (apply Only.step (M := [.log]); rotate_left; apply evDrop_only; decide)
    | (fail_if_no_progress (with_reducible (apply Only.step (M := [.log]); rotate_left; apply set_log_only; decide)))
    | with_reducible (refine Only.sndEq (by assumption) ?_)
    | with_reducible (refine Only.fstEq (by assumption) ?_)
    | dsimp only
    | dsimp +zetaDelta only
    | split
    | (clear_value *; split)

theorem evRoute_only (s : State) (r : Rec)  : Only [.out, .log, .links, .rings, .cnt] s (evRoute s r) := by
  unfold evRoute
  repeat' first
    | ((fail_if_no_progress extract_lets +onlyGivenNames x); refine Only.cut (L := [.out, .log, .links, .rings, .cnt]) (s := s) (x := x) ?_ ?_; rotate_left; intro hx; clear_value x; rotate_left; dsimp only [x])
    | ((fail_if_no_progress extract_lets +onlyGivenNames x); refine Only.named (b := x.not) ?_; clear_value x)
    | (fail_if_no_progress extract_lets +onlyGivenNames x)
    | with_reducible apply Only.refl
    | with_reducible assumption
    | (with_reducible apply Only.ite <;> intro _)
    | with_reducible (apply Only.step (M := [.out, .log, .links, .rings, .cnt]); rotate_left; apply evWrite_only; decide)
    | with_reducible (apply Only.step (M := [.log]); rotate_left; apply pendPut_only; decide)
    | with_reducible (apply Only.step (M := [.log]); rotate_left; apply coalPut_only; decide)
    | with_reducible (refine Only.sndEq (by assumption) ?_)
    | with_reducible (refine Only.fstEq (by assumption) ?_)
    | dsimp only
    | dsimp +zetaDelta only
    | split
    | (clear_value *; split)

theorem emitCore_only (s : State) (b : Blk) (code : Nat) (base : Cls) (detail : Nat) (bit : Option Nat)  : Only [.out, .pan, .log, .line, .links, .rings, .cnt, .outs] s (emitCore s b code base detail bit) := by
  unfold emitCore
  repeat' first
    | ((fail_if_no_progress extract_lets +onlyGivenNames x); refine Only.cut (L := [.out, .pan, .log, .line, .links, .rings, .cnt, .outs]) (s := s) (x := x) ?_ ?_; rotate_left; intro hx; clear_value x; rotate_left; dsimp only [x])
    | ((fail_if_no_progress extract_lets +onlyGivenNames x); refine Only.named (b := x.not) ?_; clear_value x)
    | (fail_if_no_progress extract_lets +onlyGivenNames x)
    | with_reducible apply Only.refl
    | with_reducible assumption
    | (with_reducible apply Only.ite <;> intro _)
    | with_reducible (apply Only.step (M := [.out, .pan, .log, .links, .rings, .cnt]); rotate_left; apply evDrain_only; decide)
    | with_reducible (apply Only.step (M := [.log]); rotate_left; apply seqAdvance_only; decide)
    | with_reducible (apply Only.step (M := [.log]); rotate_left; apply histPut_only; decide)
    | with_reducible (apply Only.step (M := [.log]); rotate_left; apply modBlk_only; decide)
    | with_reducible (apply Only.step (M := [.pan]); rotate_left; apply figFault_only; decide)
    | with_reducible (apply Only.step (M := [.out, .log, .links, .rings, .cnt]); rotate_left; apply blkIrq_only; decide)
    | with_reducible (apply Only.step (M := [.out, .pan, .log, .line, .links, .outs]); rotate_left; apply faultEffects_only; decide)
    | with_reducible (apply Only.step (M := [.out, .log, .links, .rings, .cnt]); rotate_left; apply evRoute_only; decide)
    | with_reducible (refine Only.sndEq (by assumption) ?_)
    | with_reducible (refine Only.fstEq (by assumption) ?_)
    | dsimp only
    | dsimp +zetaDelta only
    | split
    | (clear_value *; split)

theorem panLog_only (s : State) (type : Nat) (sub : Nat) (aux : Nat) (data : Nat)  : Only [.out, .pan, .log, .line, .links, .rings, .cnt, .outs] s (panLog s type sub aux data) := by
  unfold panLog
  repeat' first
    | ((fail_if_no_progress extract_lets +onlyGivenNames x); refine Only.cut (L := [.out, .pan, .log, .line, .links, .rings, .cnt, .outs]) (s := s) (x := x) ?_ ?_; rotate_left; intro hx; clear_value x; rotate_left; dsimp only [x])
    | ((fail_if_no_progress extract_lets +onlyGivenNames x); refine Only.named (b := x.not) ?_; clear_value x)
    | (fail_if_no_progress extract_lets +onlyGivenNames x)
    | with_reducible apply Only.refl
    | with_reducible assumption
    | (with_reducible apply Only.ite <;> intro _)
    | with_reducible (apply Only.step (M := [.pan]); rotate_left; apply panAppend_only; decide)
    | with_reducible (apply Only.step (M := [.out, .pan, .log, .line, .links, .rings, .cnt, .outs]); rotate_left; apply emitCore_only; decide)
    | (fail_if_no_progress (with_reducible (apply Only.step (M := [.pan]); rotate_left; apply set_pan_only; decide)))
    | with_reducible (refine Only.sndEq (by assumption) ?_)
    | with_reducible (refine Only.fstEq (by assumption) ?_)
    | dsimp only
    | dsimp +zetaDelta only
    | split
    | (clear_value *; split)

theorem roleChange_only (s : State) (active : Bool) (cause : Nat) (incomplete : Bool) (ts : BitVec 32)  : Only [.out, .pan, .log, .line, .links, .rings, .cnt, .outs] s (roleChange s active cause incomplete ts) := by
  unfold roleChange
  repeat' first
    | ((fail_if_no_progress extract_lets +onlyGivenNames x); refine Only.cut (L := [.out, .pan, .log, .line, .links, .rings, .cnt, .outs]) (s := s) (x := x) ?_ ?_; rotate_left; intro hx; clear_value x; rotate_left; dsimp only [x])
    | ((fail_if_no_progress extract_lets +onlyGivenNames x); refine Only.named (b := x.not) ?_; clear_value x)
    | (fail_if_no_progress extract_lets +onlyGivenNames x)
    | with_reducible apply Only.refl
    | with_reducible assumption
    | (with_reducible apply Only.ite <;> intro _)
    | with_reducible (apply Only.step (M := [.out, .pan, .log, .line, .links, .rings, .cnt, .outs]); rotate_left; apply panLog_only; decide)
    | with_reducible (apply Only.step (M := [.out, .pan, .log, .line, .links, .rings, .cnt, .outs]); rotate_left; apply emitCore_only; decide)
    | with_reducible (refine Only.sndEq (by assumption) ?_)
    | with_reducible (refine Only.fstEq (by assumption) ?_)
    | dsimp only
    | dsimp +zetaDelta only
    | split
    | (clear_value *; split)

theorem demote_only (s : State)  : Only [.out, .pan, .log, .line, .links, .rings, .cnt, .outs] s (demote s) := by
  unfold demote
  repeat' first
    | ((fail_if_no_progress extract_lets +onlyGivenNames x); refine Only.cut (L := [.out, .pan, .log, .line, .links, .rings, .cnt, .outs]) (s := s) (x := x) ?_ ?_; rotate_left; intro hx; clear_value x; rotate_left; dsimp only [x])
    | ((fail_if_no_progress extract_lets +onlyGivenNames x); refine Only.named (b := x.not) ?_; clear_value x)
    | (fail_if_no_progress extract_lets +onlyGivenNames x)
    | with_reducible apply Only.refl
    | with_reducible assumption
    | (with_reducible apply Only.ite <;> intro _)
    | with_reducible (apply Only.step (M := [.out, .pan, .log, .line, .links, .rings, .cnt, .outs]); rotate_left; apply roleChange_only; decide)
    | with_reducible (apply Only.step (M := [.out, .line, .outs]); rotate_left; apply lineRelease_only; decide)
    | with_reducible (apply Only.step (M := [.pan]); rotate_left; apply modFig_only; decide)
    | (fail_if_no_progress (with_reducible (apply Only.step (M := [.line]); rotate_left; apply set_pair_only_line; rfl; decide)))
    | with_reducible (refine Only.sndEq (by assumption) ?_)
    | with_reducible (refine Only.fstEq (by assumption) ?_)
    | dsimp only
    | dsimp +zetaDelta only
    | split
    | (clear_value *; split)

theorem emit_only (s : State) (b : Blk) (code : Nat) (base : Cls) (detail : Nat) (bit : Option Nat)  : Only [.out, .pan, .log, .line, .links, .rings, .cnt, .outs] s (emit s b code base detail bit) := by
  unfold emit
  repeat' first
    | ((fail_if_no_progress extract_lets +onlyGivenNames x); refine Only.cut (L := [.out, .pan, .log, .line, .links, .rings, .cnt, .outs]) (s := s) (x := x) ?_ ?_; rotate_left; intro hx; clear_value x; rotate_left; dsimp only [x])
    | ((fail_if_no_progress extract_lets +onlyGivenNames x); refine Only.named (b := x.not) ?_; clear_value x)
    | (fail_if_no_progress extract_lets +onlyGivenNames x)
    | with_reducible apply Only.refl
    | with_reducible assumption
    | (with_reducible apply Only.ite <;> intro _)
    | with_reducible (apply Only.step (M := [.out, .pan, .log, .line, .links, .rings, .cnt, .outs]); rotate_left; apply emitCore_only; decide)
    | with_reducible (apply Only.step (M := [.out, .pan, .log, .line, .links, .rings, .cnt, .outs]); rotate_left; apply demote_only; decide)
    | with_reducible (refine Only.sndEq (by assumption) ?_)
    | with_reducible (refine Only.fstEq (by assumption) ?_)
    | dsimp only
    | dsimp +zetaDelta only
    | split
    | (clear_value *; split)

theorem keepHops_only (s : State)  : Only [.lnk] s (keepHops s) := by
  unfold keepHops
  repeat' first
    | ((fail_if_no_progress extract_lets +onlyGivenNames x); refine Only.cut (L := [.lnk]) (s := s) (x := x) ?_ ?_; rotate_left; intro hx; clear_value x; rotate_left; dsimp only [x])
    | ((fail_if_no_progress extract_lets +onlyGivenNames x); refine Only.named (b := x.not) ?_; clear_value x)
    | (fail_if_no_progress extract_lets +onlyGivenNames x)
    | with_reducible apply Only.refl
    | with_reducible assumption
    | (with_reducible apply Only.ite <;> intro _)
    | (fail_if_no_progress (with_reducible (apply Only.step (M := [.lnk]); rotate_left; apply set_lnk_only_lnk; rfl; decide)))
    | with_reducible (refine Only.sndEq (by assumption) ?_)
    | with_reducible (refine Only.fstEq (by assumption) ?_)
    | dsimp only
    | dsimp +zetaDelta only
    | split
    | (clear_value *; split)

theorem freeN_only (s : State)  : Only [.free] s (freeN s).2 := by
  unfold freeN
  repeat' first
    | ((fail_if_no_progress extract_lets +onlyGivenNames x); refine Only.cut (L := [.free]) (s := s) (x := x) ?_ ?_; rotate_left; intro hx; clear_value x; rotate_left; dsimp only [x])
    | ((fail_if_no_progress extract_lets +onlyGivenNames x); refine Only.named (b := x.not) ?_; clear_value x)
    | (fail_if_no_progress extract_lets +onlyGivenNames x)
    | with_reducible apply Only.refl
    | with_reducible assumption
    | (with_reducible apply Only.ite <;> intro _)
    | (fail_if_no_progress (with_reducible (apply Only.step (M := [.free]); rotate_left; apply set_freeCtr_only; decide)))
    | with_reducible (refine Only.sndEq (by assumption) ?_)
    | with_reducible (refine Only.fstEq (by assumption) ?_)
    | dsimp only
    | dsimp +zetaDelta only
    | split
    | (clear_value *; split)
theorem freeN_only_eq {s : State} {r1} {t0 : State} (hEq : freeN s = (r1, t0)) : Only [.free] s t0 := by
  have k0 := freeN_only s
  rw [hEq] at k0; exact k0


theorem freeI_only (s : State)  : Only [.free] s (freeI s).2 := by
  unfold freeI
  repeat' first
    | ((fail_if_no_progress extract_lets +onlyGivenNames x); refine Only.cut (L := [.free]) (s := s) (x := x) ?_ ?_; rotate_left; intro hx; clear_value x; rotate_left; dsimp only [x])
    | ((fail_if_no_progress extract_lets +onlyGivenNames x); refine Only.named (b := x.not) ?_; clear_value x)
    | (fail_if_no_progress extract_lets +onlyGivenNames x)
    | with_reducible apply Only.refl
    | with_reducible assumption
    | (with_reducible apply Only.ite <;> intro _)
    | (fail_if_no_progress (with_reducible (apply Only.step (M := [.free]); rotate_left; apply set_freeCtr_only; decide)))
    | with_reducible (refine Only.sndEq (by assumption) ?_)
    | with_reducible (refine Only.fstEq (by assumption) ?_)
    | dsimp only
    | dsimp +zetaDelta only
    | split
    | (clear_value *; split)
theorem freeI_only_eq {s : State} {r1} {t0 : State} (hEq : freeI s = (r1, t0)) : Only [.free] s t0 := by
  have k0 := freeI_only s
  rw [hEq] at k0; exact k0

theorem hostRead_only (s : State) (addr : Nat) (len : Nat)  : Only [.out, .links, .lnk, .cnt] s (hostRead s addr len) := by
  unfold hostRead
  repeat' first
    | ((fail_if_no_progress extract_lets +onlyGivenNames x); refine Only.cut (L := [.out, .links, .lnk, .cnt]) (s := s) (x := x) ?_ ?_; rotate_left; intro hx; clear_value x; rotate_left; dsimp only [x])
    | ((fail_if_no_progress extract_lets +onlyGivenNames x); refine Only.named (b := x.not) ?_; clear_value x)
    | (fail_if_no_progress extract_lets +onlyGivenNames x)
    | (with_reducible apply Only.foldl; (intro _ _ _))
    | (with_reducible apply Only.foldlFst; (intro _ _ _))
    | with_reducible apply Only.refl
    | with_reducible assumption
    | (with_reducible apply Only.ite <;> intro _)
    | with_reducible (apply Only.step (M := [.cnt]); rotate_left; apply perfAdd_only; decide)
    | with_reducible (apply Only.step (M := [.out, .links, .cnt]); rotate_left; apply tunnelUp_only; decide)
    | (fail_if_no_progress (with_reducible (apply Only.step (M := [.lnk]); rotate_left; apply set_lnk_only_lnk; rfl; decide)))
    | with_reducible (refine Only.sndEq (by assumption) ?_)
    | with_reducible (refine Only.fstEq (by assumption) ?_)
    | dsimp only
    | dsimp +zetaDelta only
    | split
    | (clear_value *; split)

theorem ringReads_only (s : State) (r : Nat) (n : Nat)  : Only [.out, .links, .lnk, .cnt] s (ringReads s r n) := by
  unfold ringReads
  repeat' first
    | ((fail_if_no_progress extract_lets +onlyGivenNames x); refine Only.cut (L := [.out, .links, .lnk, .cnt]) (s := s) (x := x) ?_ ?_; rotate_left; intro hx; clear_value x; rotate_left; dsimp only [x])
    | ((fail_if_no_progress extract_lets +onlyGivenNames x); refine Only.named (b := x.not) ?_; clear_value x)
    | (fail_if_no_progress extract_lets +onlyGivenNames x)
    | (with_reducible apply Only.foldl; (intro _ _ _))
    | (with_reducible apply Only.foldlFst; (intro _ _ _))
    | with_reducible apply Only.refl
    | with_reducible assumption
    | (with_reducible apply Only.ite <;> intro _)
    | with_reducible (apply Only.step (M := [.out, .links, .lnk, .cnt]); rotate_left; apply hostRead_only; decide)
    | with_reducible (refine Only.sndEq (by assumption) ?_)
    | with_reducible (refine Only.fstEq (by assumption) ?_)
    | dsimp only
    | dsimp +zetaDelta only
    | split
    | (clear_value *; split)

theorem emitPlain_only (s : State) (b : Blk) (code : Nat) (cls : Cls) (test : Bool) (detail : Nat)  : Only [.out, .pan, .log, .links, .rings, .cnt] s (emitPlain s b code cls test detail) := by
  unfold emitPlain
  repeat' first
    | ((fail_if_no_progress extract_lets +onlyGivenNames x); refine Only.cut (L := [.out, .pan, .log, .links, .rings, .cnt]) (s := s) (x := x) ?_ ?_; rotate_left; intro hx; clear_value x; rotate_left; dsimp only [x])
    | ((fail_if_no_progress extract_lets +onlyGivenNames x); refine Only.named (b := x.not) ?_; clear_value x)
    | (fail_if_no_progress extract_lets +onlyGivenNames x)
    | with_reducible apply Only.refl
    | with_reducible assumption
    | (with_reducible apply Only.ite <;> intro _)
    | with_reducible (apply Only.step (M := [.out, .pan, .log, .links, .rings, .cnt]); rotate_left; apply evDrain_only; decide)
    | with_reducible (apply Only.step (M := [.out, .log, .links, .rings, .cnt]); rotate_left; apply evRoute_only; decide)
    | with_reducible (apply Only.step (M := [.log]); rotate_left; apply histPut_only; decide)
    | with_reducible (refine Only.sndEq (by assumption) ?_)
    | with_reducible (refine Only.fstEq (by assumption) ?_)
    | dsimp only
    | dsimp +zetaDelta only
    | split
    | (clear_value *; split)

end Sys2Proof.Laws
end

