-- ==== Sys2Proof/Laws/CryptoOps.lean ====
section
/-! SUPPORT. What each operation of Machine/CryptoOps.lean can touch, once for each. -/
set_option linter.unusedTactic false
set_option linter.unreachableTactic false
namespace Sys2Proof.Laws
open Sys2Proof
open Sys2Proof.Machine
open Sys2Proof.Safety

theorem modKey_only (s : State) (f : Key → Key)  : Only [.key] s (modKey s f) := by
  unfold modKey
  repeat' first
    | ((fail_if_no_progress extract_lets +onlyGivenNames x); refine Only.cut (L := [.key]) (s := s) (x := x) ?_ ?_; rotate_left; intro hx; clear_value x; rotate_left; dsimp only [x])
    | ((fail_if_no_progress extract_lets +onlyGivenNames x); refine Only.named (b := x.not) ?_; clear_value x)
    | (fail_if_no_progress extract_lets +onlyGivenNames x)
    | with_reducible apply Only.refl
    | with_reducible assumption
    | (with_reducible apply Only.ite <;> intro _)
    | (fail_if_no_progress (with_reducible (apply Only.step (M := [.key]); rotate_left; apply set_key_only; decide)))
    | with_reducible (refine Only.sndEq (by assumption) ?_)
    | with_reducible (refine Only.fstEq (by assumption) ?_)
    | dsimp only
    | dsimp +zetaDelta only
    | split
    | (clear_value *; split)

theorem setSlot_only (s : State) (n : Nat) (k : KeySlot)  : Only [.key] s (setSlot s n k) := by
  unfold setSlot
  repeat' first
    | ((fail_if_no_progress extract_lets +onlyGivenNames x); refine Only.cut (L := [.key]) (s := s) (x := x) ?_ ?_; rotate_left; intro hx; clear_value x; rotate_left; dsimp only [x])
    | ((fail_if_no_progress extract_lets +onlyGivenNames x); refine Only.named (b := x.not) ?_; clear_value x)
    | (fail_if_no_progress extract_lets +onlyGivenNames x)
    | with_reducible apply Only.refl
    | with_reducible assumption
    | (with_reducible apply Only.ite <;> intro _)
    | with_reducible (apply Only.step (M := [.key]); rotate_left; apply modKey_only; decide)
    | with_reducible (refine Only.sndEq (by assumption) ?_)
    | with_reducible (refine Only.fstEq (by assumption) ?_)
    | dsimp only
    | dsimp +zetaDelta only
    | split
    | (clear_value *; split)

theorem draw_only (s : State)  : Only [.key, .cnt] s (draw s).2 := by
  unfold draw
  repeat' first
    | ((fail_if_no_progress extract_lets +onlyGivenNames x); refine Only.cut (L := [.key, .cnt]) (s := s) (x := x) ?_ ?_; rotate_left; intro hx; clear_value x; rotate_left; dsimp only [x])
    | ((fail_if_no_progress extract_lets +onlyGivenNames x); refine Only.named (b := x.not) ?_; clear_value x)
    | (fail_if_no_progress extract_lets +onlyGivenNames x)
    | with_reducible apply Only.refl
    | with_reducible assumption
    | (with_reducible apply Only.ite <;> intro _)
    | with_reducible (apply Only.step (M := [.cnt]); rotate_left; apply perfAdd_only; decide)
    | with_reducible (apply Only.step (M := [.key]); rotate_left; apply modKey_only; decide)
    | with_reducible (refine Only.sndEq (by assumption) ?_)
    | with_reducible (refine Only.fstEq (by assumption) ?_)
    | dsimp only
    | dsimp +zetaDelta only
    | split
    | (clear_value *; split)
theorem draw_only_eq {s : State} {r1} {t0 : State} (hEq : draw s = (r1, t0)) : Only [.key, .cnt] s t0 := by
  have k0 := draw_only s
  rw [hEq] at k0; exact k0

theorem drawBytes_only (s : State) (n : Nat)  : Only [.key, .cnt] s (drawBytes s n).2 := by
  unfold drawBytes
  repeat' first
    | ((fail_if_no_progress extract_lets +onlyGivenNames x); refine Only.cut (L := [.key, .cnt]) (s := s) (x := x) ?_ ?_; rotate_left; intro hx; clear_value x; rotate_left; dsimp only [x])
    | ((fail_if_no_progress extract_lets +onlyGivenNames x); refine Only.named (b := x.not) ?_; clear_value x)
    | (fail_if_no_progress extract_lets +onlyGivenNames x)
    | with_reducible apply Only.refl
    | with_reducible assumption
    | (with_reducible apply Only.ite <;> intro _)
    | with_reducible (apply Only.step (M := [.key, .cnt]); rotate_left; exact draw_only_eq ‹_›; decide)
    | with_reducible (apply Only.step (M := [.key, .cnt]); rotate_left; apply draw_only; decide)
    | with_reducible (refine Only.sndEq (by assumption) ?_)
    | with_reducible (refine Only.fstEq (by assumption) ?_)
    | dsimp only
    | dsimp +zetaDelta only
    | split
    | (clear_value *; split)
theorem drawBytes_only_eq {s : State} {n : Nat} {r1} {t0 : State} (hEq : drawBytes s n = (r1, t0)) : Only [.key, .cnt] s t0 := by
  have k0 := drawBytes_only s n
  rw [hEq] at k0; exact k0

theorem wrapBlob_only (s : State) (slot : Nat) (wrap : Nat)  : Only [.key, .cnt] s (wrapBlob s slot wrap).2 := by
  unfold wrapBlob
  repeat' first
    | ((fail_if_no_progress extract_lets +onlyGivenNames x); refine Only.cut (L := [.key, .cnt]) (s := s) (x := x) ?_ ?_; rotate_left; intro hx; clear_value x; rotate_left; dsimp only [x])
    | ((fail_if_no_progress extract_lets +onlyGivenNames x); refine Only.named (b := x.not) ?_; clear_value x)
    | (fail_if_no_progress extract_lets +onlyGivenNames x)
    | with_reducible apply Only.refl
    | with_reducible assumption
    | (with_reducible apply Only.ite <;> intro _)
    | with_reducible (apply Only.step (M := [.key, .cnt]); rotate_left; exact drawBytes_only_eq ‹_›; decide)
    | with_reducible (apply Only.step (M := [.key, .cnt]); rotate_left; apply drawBytes_only; decide)
    | with_reducible (refine Only.sndEq (by assumption) ?_)
    | with_reducible (refine Only.fstEq (by assumption) ?_)
    | dsimp only
    | dsimp +zetaDelta only
    | split
    | (clear_value *; split)
theorem wrapBlob_only_eq {s : State} {slot : Nat} {wrap : Nat} {r1} {t0 : State} (hEq : wrapBlob s slot wrap = (r1, t0)) : Only [.key, .cnt] s t0 := by
  have k0 := wrapBlob_only s slot wrap
  rw [hEq] at k0; exact k0

end Sys2Proof.Laws
end

