-- ==== Sys2Proof/Laws/MirrorOps.lean ====
section
/-! SUPPORT. What each operation of Machine/MirrorOps.lean can touch, once for each. -/
set_option linter.unusedTactic false
set_option linter.unreachableTactic false
namespace Sys2Proof.Laws
open Sys2Proof
open Sys2Proof.Machine
open Sys2Proof.Safety

theorem modPair_only_pair (s : State) (f : Pair → Pair) (h : ∀ k, f k = { f k with demotedAt := k.demotedAt, drive := k.drive, driveAt := k.driveAt, highAt := k.highAt, holding := k.holding, line := k.line, lowAt := k.lowAt }) : Only [.pair] s (modPair s f) :=
  set_pair_only_pair s (f s.pair) (h s.pair)
theorem modPair_only_line (s : State) (f : Pair → Pair) (h : ∀ k, f k = { k with demotedAt := (f k).demotedAt, drive := (f k).drive, driveAt := (f k).driveAt, highAt := (f k).highAt, holding := (f k).holding, line := (f k).line, lowAt := (f k).lowAt }) : Only [.line] s (modPair s f) :=
  set_pair_only_line s (f s.pair) (h s.pair)
theorem modPair_only (s : State) (f : Pair → Pair) : Only [.line, .pair] s (modPair s f) := set_pair_only s (f s.pair)

theorem mirrorPut_only (s : State) (snapshot : Bool) (last : Bool) (r : MirrorRec)  : Only [.out, .pair, .links, .cnt] s (mirrorPut s snapshot last r) := by
  unfold mirrorPut
  repeat' first
    | ((fail_if_no_progress extract_lets +onlyGivenNames x); refine Only.cut (L := [.out, .pair, .links, .cnt]) (s := s) (x := x) ?_ ?_; rotate_left; intro hx; clear_value x; rotate_left; dsimp only [x])
    | ((fail_if_no_progress extract_lets +onlyGivenNames x); refine Only.named (b := x.not) ?_; clear_value x)
    | (fail_if_no_progress extract_lets +onlyGivenNames x)
    | with_reducible apply Only.refl
    | with_reducible assumption
    | (with_reducible apply Only.ite <;> intro _)
    | with_reducible (apply Only.step (M := [.out, .links, .cnt]); rotate_left; apply linkSend_only; decide)
    | with_reducible (apply Only.step (M := [.pair]); rotate_left; exact modPair_only_pair _ _ (by intro k; rfl); decide)
    | with_reducible (apply Only.step (M := [.line]); rotate_left; exact modPair_only_line _ _ (by intro k; rfl); decide)
    | with_reducible (apply Only.step (M := [.line, .pair]); rotate_left; apply modPair_only; decide)
    | with_reducible (refine Only.sndEq (by assumption) ?_)
    | with_reducible (refine Only.fstEq (by assumption) ?_)
    | dsimp only
    | dsimp +zetaDelta only
    | split
    | (clear_value *; split)

theorem mirrorKey_only (s : State) (slot : Nat)  : Only [.out, .key, .pan, .log, .line, .links, .rings, .cnt, .outs] s (mirrorKey s slot).2.2.2 := by
  unfold mirrorKey
  repeat' first
    | ((fail_if_no_progress extract_lets +onlyGivenNames x); refine Only.cut (L := [.out, .key, .pan, .log, .line, .links, .rings, .cnt, .outs]) (s := s) (x := x) ?_ ?_; rotate_left; intro hx; clear_value x; rotate_left; dsimp only [x])
    | ((fail_if_no_progress extract_lets +onlyGivenNames x); refine Only.named (b := x.not) ?_; clear_value x)
    | (fail_if_no_progress extract_lets +onlyGivenNames x)
    | with_reducible apply Only.refl
    | with_reducible assumption
    | (with_reducible apply Only.ite <;> intro _)
    | with_reducible (apply Only.step (M := [.key, .cnt]); rotate_left; exact wrapBlob_only_eq ‹_›; decide)
    | with_reducible (apply Only.step (M := [.key, .cnt]); rotate_left; apply wrapBlob_only; decide)
    | with_reducible (apply Only.step (M := [.out, .pan, .log, .line, .links, .rings, .cnt, .outs]); rotate_left; apply emit_only; decide)
    | with_reducible (refine Only.sndEq (by assumption) ?_)
    | with_reducible (refine Only.fstEq (by assumption) ?_)
    | dsimp only
    | dsimp +zetaDelta only
    | split
    | (clear_value *; split)
theorem mirrorKey_only_eq {s : State} {slot : Nat} {r1} {r2} {r3} {t0 : State} (hEq : mirrorKey s slot = (r1, (r2, (r3, t0)))) : Only [.out, .key, .pan, .log, .line, .links, .rings, .cnt, .outs] s t0 := by
  have k0 := mirrorKey_only s slot
  rw [hEq] at k0; exact k0

theorem mirrorCookie_only (s : State) (i : Fin 16) (snapshot : Bool)  : Only [.out, .key, .pan, .log, .line, .pair, .links, .rings, .cnt, .outs] s (mirrorCookie s i snapshot) := by
  unfold mirrorCookie
  repeat' first
    | ((fail_if_no_progress extract_lets +onlyGivenNames x); refine Only.cut (L := [.out, .key, .pan, .log, .line, .pair, .links, .rings, .cnt, .outs]) (s := s) (x := x) ?_ ?_; rotate_left; intro hx; clear_value x; rotate_left; dsimp only [x])
    | ((fail_if_no_progress extract_lets +onlyGivenNames x); refine Only.named (b := x.not) ?_; clear_value x)
    | (fail_if_no_progress extract_lets +onlyGivenNames x)
    | with_reducible apply Only.refl
    | with_reducible assumption
    | (with_reducible apply Only.ite <;> intro _)
    | with_reducible (apply Only.step (M := [.out, .key, .pan, .log, .line, .links, .rings, .cnt, .outs]); rotate_left; exact mirrorKey_only_eq ‹_›; decide)
    | with_reducible (apply Only.step (M := [.out, .key, .pan, .log, .line, .links, .rings, .cnt, .outs]); rotate_left; apply mirrorKey_only; decide)
    | with_reducible (apply Only.step (M := [.out, .pair, .links, .cnt]); rotate_left; apply mirrorPut_only; decide)
    | with_reducible (refine Only.sndEq (by assumption) ?_)
    | with_reducible (refine Only.fstEq (by assumption) ?_)
    | dsimp only
    | dsimp +zetaDelta only
    | split
    | (clear_value *; split)

theorem mirrorSec_only (s : State) (i : Fin 64) (snapshot : Bool)  : Only [.out, .key, .pan, .log, .line, .pair, .links, .rings, .cnt, .outs] s (mirrorSec s i snapshot) := by
  unfold mirrorSec
  repeat' first
    | ((fail_if_no_progress extract_lets +onlyGivenNames x); refine Only.cut (L := [.out, .key, .pan, .log, .line, .pair, .links, .rings, .cnt, .outs]) (s := s) (x := x) ?_ ?_; rotate_left; intro hx; clear_value x; rotate_left; dsimp only [x])
    | ((fail_if_no_progress extract_lets +onlyGivenNames x); refine Only.named (b := x.not) ?_; clear_value x)
    | (fail_if_no_progress extract_lets +onlyGivenNames x)
    | with_reducible apply Only.refl
    | with_reducible assumption
    | (with_reducible apply Only.ite <;> intro _)
    | with_reducible (apply Only.step (M := [.out, .key, .pan, .log, .line, .links, .rings, .cnt, .outs]); rotate_left; exact mirrorKey_only_eq ‹_›; decide)
    | with_reducible (apply Only.step (M := [.out, .key, .pan, .log, .line, .links, .rings, .cnt, .outs]); rotate_left; apply mirrorKey_only; decide)
    | with_reducible (apply Only.step (M := [.out, .pair, .links, .cnt]); rotate_left; apply mirrorPut_only; decide)
    | with_reducible (refine Only.sndEq (by assumption) ?_)
    | with_reducible (refine Only.fstEq (by assumption) ?_)
    | dsimp only
    | dsimp +zetaDelta only
    | split
    | (clear_value *; split)

theorem mirrorSend_only (s : State) (r : MirrorRec)  : Only [.out, .pair, .links, .cnt] s (mirrorSend s r) := by
  unfold mirrorSend
  repeat' first
    | ((fail_if_no_progress extract_lets +onlyGivenNames x); refine Only.cut (L := [.out, .pair, .links, .cnt]) (s := s) (x := x) ?_ ?_; rotate_left; intro hx; clear_value x; rotate_left; dsimp only [x])
    | ((fail_if_no_progress extract_lets +onlyGivenNames x); refine Only.named (b := x.not) ?_; clear_value x)
    | (fail_if_no_progress extract_lets +onlyGivenNames x)
    | with_reducible apply Only.refl
    | with_reducible assumption
    | (with_reducible apply Only.ite <;> intro _)
    | with_reducible (apply Only.step (M := [.out, .pair, .links, .cnt]); rotate_left; apply mirrorPut_only; decide)
    | with_reducible (refine Only.sndEq (by assumption) ?_)
    | with_reducible (refine Only.fstEq (by assumption) ?_)
    | dsimp only
    | dsimp +zetaDelta only
    | split
    | (clear_value *; split)

end Sys2Proof.Laws
end

