-- ==== Sys2Proof/Laws/TioOps.lean ====
section
/-! SUPPORT. What each operation of Machine/TioOps.lean can touch, once for each. -/
set_option linter.unusedTactic false
set_option linter.unreachableTactic false
namespace Sys2Proof.Laws
open Sys2Proof
open Sys2Proof.Machine
open Sys2Proof.Safety

theorem modOut_only (s : State) (o : Nat) (f : OutPin → OutPin)  : Only [.outs] s (modOut s o f) := by
  unfold modOut
  repeat' first
    | ((fail_if_no_progress extract_lets +onlyGivenNames x); refine Only.cut (L := [.outs]) (s := s) (x := x) ?_ ?_; rotate_left; intro hx; clear_value x; rotate_left; dsimp only [x])
    | ((fail_if_no_progress extract_lets +onlyGivenNames x); refine Only.named (b := x.not) ?_; clear_value x)
    | (fail_if_no_progress extract_lets +onlyGivenNames x)
    | with_reducible apply Only.refl
    | with_reducible assumption
    | (with_reducible apply Only.ite <;> intro _)
    | (fail_if_no_progress (with_reducible (apply Only.step (M := [.outs]); rotate_left; apply set_tio_only_outs; rfl; decide)))
    | with_reducible (refine Only.sndEq (by assumption) ?_)
    | with_reducible (refine Only.fstEq (by assumption) ?_)
    | dsimp only
    | dsimp +zetaDelta only
    | split
    | (clear_value *; split)

theorem ppsArm_only (s : State) (n : Nat)  : Only [.tio] s (ppsArm s n) := by
  unfold ppsArm
  repeat' first
    | ((fail_if_no_progress extract_lets +onlyGivenNames x); refine Only.cut (L := [.tio]) (s := s) (x := x) ?_ ?_; rotate_left; intro hx; clear_value x; rotate_left; dsimp only [x])
    | ((fail_if_no_progress extract_lets +onlyGivenNames x); refine Only.named (b := x.not) ?_; clear_value x)
    | (fail_if_no_progress extract_lets +onlyGivenNames x)
    | with_reducible apply Only.refl
    | with_reducible assumption
    | (with_reducible apply Only.ite <;> intro _)
    | (fail_if_no_progress (with_reducible (apply Only.step (M := [.tio]); rotate_left; apply set_tio_only_tio; rfl; decide)))
    | with_reducible (refine Only.sndEq (by assumption) ?_)
    | with_reducible (refine Only.fstEq (by assumption) ?_)
    | dsimp only
    | dsimp +zetaDelta only
    | split
    | (clear_value *; split)

theorem freqRestart_only (s : State) (n : Nat) (ph : Nat)  : Only [.tio] s (freqRestart s n ph) := by
  unfold freqRestart
  repeat' first
    | ((fail_if_no_progress extract_lets +onlyGivenNames x); refine Only.cut (L := [.tio]) (s := s) (x := x) ?_ ?_; rotate_left; intro hx; clear_value x; rotate_left; dsimp only [x])
    | ((fail_if_no_progress extract_lets +onlyGivenNames x); refine Only.named (b := x.not) ?_; clear_value x)
    | (fail_if_no_progress extract_lets +onlyGivenNames x)
    | with_reducible apply Only.refl
    | with_reducible assumption
    | (with_reducible apply Only.ite <;> intro _)
    | (fail_if_no_progress (with_reducible (apply Only.step (M := [.tio]); rotate_left; apply set_tio_only_tio; rfl; decide)))
    | with_reducible (refine Only.sndEq (by assumption) ?_)
    | with_reducible (refine Only.fstEq (by assumption) ?_)
    | dsimp only
    | dsimp +zetaDelta only
    | split
    | (clear_value *; split)

theorem freqArm_only (s : State) (n : Nat)  : Only [.free, .out, .pan, .log, .line, .links, .rings, .cnt, .outs, .tio] s (freqArm s n) := by
  unfold freqArm
  repeat' first
    | ((fail_if_no_progress extract_lets +onlyGivenNames x); refine Only.cut (L := [.free, .out, .pan, .log, .line, .links, .rings, .cnt, .outs, .tio]) (s := s) (x := x) ?_ ?_; rotate_left; intro hx; clear_value x; rotate_left; dsimp only [x])
    | ((fail_if_no_progress extract_lets +onlyGivenNames x); refine Only.named (b := x.not) ?_; clear_value x)
    | (fail_if_no_progress extract_lets +onlyGivenNames x)
    | with_reducible apply Only.refl
    | with_reducible assumption
    | (with_reducible apply Only.ite <;> intro _)
    | with_reducible (apply Only.step (M := [.free]); rotate_left; exact freeN_only_eq ‹_›; decide)
    | with_reducible (apply Only.step (M := [.free]); rotate_left; apply freeN_only; decide)
    | with_reducible (apply Only.step (M := [.tio]); rotate_left; apply freqRestart_only; decide)
    | with_reducible (apply Only.step (M := [.out, .pan, .log, .line, .links, .rings, .cnt, .outs]); rotate_left; apply emit_only; decide)
    | (fail_if_no_progress (with_reducible (apply Only.step (M := [.tio]); rotate_left; apply set_tio_only_tio; rfl; decide)))
    | with_reducible (refine Only.sndEq (by assumption) ?_)
    | with_reducible (refine Only.fstEq (by assumption) ?_)
    | dsimp only
    | dsimp +zetaDelta only
    | split
    | (clear_value *; split)

theorem reportPut_only (s : State) (o : Nat) (r : EdgeRep)  : Only [.out, .pan, .log, .line, .links, .rings, .cnt, .outs, .tio] s (reportPut s o r) := by
  unfold reportPut
  repeat' first
    | ((fail_if_no_progress extract_lets +onlyGivenNames x); refine Only.cut (L := [.out, .pan, .log, .line, .links, .rings, .cnt, .outs, .tio]) (s := s) (x := x) ?_ ?_; rotate_left; intro hx; clear_value x; rotate_left; dsimp only [x])
    | ((fail_if_no_progress extract_lets +onlyGivenNames x); refine Only.named (b := x.not) ?_; clear_value x)
    | (fail_if_no_progress extract_lets +onlyGivenNames x)
    | with_reducible apply Only.refl
    | with_reducible assumption
    | (with_reducible apply Only.ite <;> intro _)
    | with_reducible (apply Only.step (M := [.outs]); rotate_left; apply modOut_only; decide)
    | with_reducible (apply Only.step (M := [.out, .pan, .log, .line, .links, .rings, .cnt, .outs]); rotate_left; apply emit_only; decide)
    | (fail_if_no_progress (with_reducible (apply Only.step (M := [.outs]); rotate_left; apply set_tio_only_outs; rfl; decide)))
    | (fail_if_no_progress (with_reducible (apply Only.step (M := [.tio]); rotate_left; apply set_tio_only_tio; rfl; decide)))
    | (fail_if_no_progress (with_reducible (apply Only.step (M := [.outs, .tio]); rotate_left; apply set_tio_only; decide)))
    | with_reducible (refine Only.sndEq (by assumption) ?_)
    | with_reducible (refine Only.fstEq (by assumption) ?_)
    | dsimp only
    | dsimp +zetaDelta only
    | split
    | (clear_value *; split)

theorem missedReport_only (s : State) (o : Nat) (x : Int) (index : Nat)  : Only [.out, .pan, .log, .line, .links, .rings, .cnt, .outs, .tio] s (missedReport s o x index) := by
  unfold missedReport
  repeat' first
    | ((fail_if_no_progress extract_lets +onlyGivenNames x); refine Only.cut (L := [.out, .pan, .log, .line, .links, .rings, .cnt, .outs, .tio]) (s := s) (x := x) ?_ ?_; rotate_left; intro hx; clear_value x; rotate_left; dsimp only [x])
    | ((fail_if_no_progress extract_lets +onlyGivenNames x); refine Only.named (b := x.not) ?_; clear_value x)
    | (fail_if_no_progress extract_lets +onlyGivenNames x)
    | with_reducible apply Only.refl
    | with_reducible assumption
    | (with_reducible apply Only.ite <;> intro _)
    | with_reducible (apply Only.step (M := [.out, .pan, .log, .line, .links, .rings, .cnt, .outs, .tio]); rotate_left; apply reportPut_only; decide)
    | with_reducible (refine Only.sndEq (by assumption) ?_)
    | with_reducible (refine Only.fstEq (by assumption) ?_)
    | dsimp only
    | dsimp +zetaDelta only
    | split
    | (clear_value *; split)

theorem ppsStep_only (back : Bool) (s : State) (n : Nat)  : Only [.out, .pan, .log, .line, .links, .rings, .cnt, .outs, .tio] s (ppsStep back s n) := by
  unfold ppsStep
  repeat' first
    | ((fail_if_no_progress extract_lets +onlyGivenNames x); refine Only.cut (L := [.out, .pan, .log, .line, .links, .rings, .cnt, .outs, .tio]) (s := s) (x := x) ?_ ?_; rotate_left; intro hx; clear_value x; rotate_left; dsimp only [x])
    | ((fail_if_no_progress extract_lets +onlyGivenNames x); refine Only.named (b := x.not) ?_; clear_value x)
    | (fail_if_no_progress extract_lets +onlyGivenNames x)
    | (with_reducible apply Only.foldl; (intro _ _ _))
    | (with_reducible apply Only.foldlFst; (intro _ _ _))
    | with_reducible apply Only.refl
    | with_reducible assumption
    | (with_reducible apply Only.ite <;> intro _)
    | with_reducible (apply Only.step (M := [.out, .pan, .log, .line, .links, .rings, .cnt, .outs, .tio]); rotate_left; apply missedReport_only; decide)
    | with_reducible (apply Only.step (M := [.out, .pan, .log, .line, .links, .rings, .cnt, .outs]); rotate_left; apply emit_only; decide)
    | (fail_if_no_progress (with_reducible (apply Only.step (M := [.tio]); rotate_left; apply set_tio_only_tio; rfl; decide)))
    | with_reducible (refine Only.sndEq (by assumption) ?_)
    | with_reducible (refine Only.fstEq (by assumption) ?_)
    | dsimp only
    | dsimp +zetaDelta only
    | split
    | (clear_value *; split)

theorem trigEnd_only (s : State) (p_ : Nat) (emitted : Nat)  : Only [.out, .pan, .log, .line, .pair, .links, .rings, .cnt, .outs, .tio] s (trigEnd s p_ emitted) := by
  unfold trigEnd
  repeat' first
    | ((fail_if_no_progress extract_lets +onlyGivenNames x); refine Only.cut (L := [.out, .pan, .log, .line, .pair, .links, .rings, .cnt, .outs, .tio]) (s := s) (x := x) ?_ ?_; rotate_left; intro hx; clear_value x; rotate_left; dsimp only [x])
    | ((fail_if_no_progress extract_lets +onlyGivenNames x); refine Only.named (b := x.not) ?_; clear_value x)
    | (fail_if_no_progress extract_lets +onlyGivenNames x)
    | with_reducible apply Only.refl
    | with_reducible assumption
    | (with_reducible apply Only.ite <;> intro _)
    | with_reducible (apply Only.step (M := [.out, .pair, .links, .cnt]); rotate_left; apply mirrorSend_only; decide)
    | with_reducible (apply Only.step (M := [.out, .pan, .log, .line, .links, .rings, .cnt, .outs]); rotate_left; apply emit_only; decide)
    | (fail_if_no_progress (with_reducible (apply Only.step (M := [.tio]); rotate_left; apply set_tio_only_tio; rfl; decide)))
    | with_reducible (refine Only.sndEq (by assumption) ?_)
    | with_reducible (refine Only.fstEq (by assumption) ?_)
    | dsimp only
    | dsimp +zetaDelta only
    | split
    | (clear_value *; split)

theorem trigSettle_only (s : State) (p_ : Nat)  : Only [.out, .pan, .log, .line, .pair, .links, .rings, .cnt, .outs, .tio] s (trigSettle s p_) := by
  unfold trigSettle
  repeat' first
    | ((fail_if_no_progress extract_lets +onlyGivenNames x); refine Only.cut (L := [.out, .pan, .log, .line, .pair, .links, .rings, .cnt, .outs, .tio]) (s := s) (x := x) ?_ ?_; rotate_left; intro hx; clear_value x; rotate_left; dsimp only [x])
    | ((fail_if_no_progress extract_lets +onlyGivenNames x); refine Only.named (b := x.not) ?_; clear_value x)
    | (fail_if_no_progress extract_lets +onlyGivenNames x)
    | with_reducible apply Only.refl
    | with_reducible assumption
    | (with_reducible apply Only.ite <;> intro _)
    | with_reducible (apply Only.step (M := [.out, .pan, .log, .line, .pair, .links, .rings, .cnt, .outs, .tio]); rotate_left; apply trigEnd_only; decide)
    | with_reducible (refine Only.sndEq (by assumption) ?_)
    | with_reducible (refine Only.fstEq (by assumption) ?_)
    | dsimp only
    | dsimp +zetaDelta only
    | split
    | (clear_value *; split)

theorem trigStep_only (s : State) (p_ : Nat)  : Only [.out, .pan, .log, .line, .pair, .links, .rings, .cnt, .outs, .tio] s (trigStep s p_) := by
  unfold trigStep
  repeat' first
    | ((fail_if_no_progress extract_lets +onlyGivenNames x); refine Only.cut (L := [.out, .pan, .log, .line, .pair, .links, .rings, .cnt, .outs, .tio]) (s := s) (x := x) ?_ ?_; rotate_left; intro hx; clear_value x; rotate_left; dsimp only [x])
    | ((fail_if_no_progress extract_lets +onlyGivenNames x); refine Only.named (b := x.not) ?_; clear_value x)
    | (fail_if_no_progress extract_lets +onlyGivenNames x)
    | with_reducible apply Only.refl
    | with_reducible assumption
    | (with_reducible apply Only.ite <;> intro _)
    | with_reducible (apply Only.step (M := [.out, .pan, .log, .line, .links, .rings, .cnt, .outs, .tio]); rotate_left; apply missedReport_only; decide)
    | with_reducible (apply Only.step (M := [.out, .pan, .log, .line, .pair, .links, .rings, .cnt, .outs, .tio]); rotate_left; apply trigSettle_only; decide)
    | with_reducible (apply Only.step (M := [.out, .pan, .log, .line, .links, .rings, .cnt, .outs]); rotate_left; apply emit_only; decide)
    | (fail_if_no_progress (with_reducible (apply Only.step (M := [.tio]); rotate_left; apply set_tio_only_tio; rfl; decide)))
    | with_reducible (refine Only.sndEq (by assumption) ?_)
    | with_reducible (refine Only.fstEq (by assumption) ?_)
    | dsimp only
    | dsimp +zetaDelta only
    | split
    | (clear_value *; split)

theorem tioStep_only (back : Bool) (s : State)  : Only [.out, .pan, .log, .line, .pair, .links, .rings, .cnt, .outs, .tio] s (tioStep back s) := by
  unfold tioStep
  repeat' first
    | ((fail_if_no_progress extract_lets +onlyGivenNames x); refine Only.cut (L := [.out, .pan, .log, .line, .pair, .links, .rings, .cnt, .outs, .tio]) (s := s) (x := x) ?_ ?_; rotate_left; intro hx; clear_value x; rotate_left; dsimp only [x])
    | ((fail_if_no_progress extract_lets +onlyGivenNames x); refine Only.named (b := x.not) ?_; clear_value x)
    | (fail_if_no_progress extract_lets +onlyGivenNames x)
    | (with_reducible apply Only.foldl; (intro _ _ _))
    | (with_reducible apply Only.foldlFst; (intro _ _ _))
    | with_reducible apply Only.refl
    | with_reducible assumption
    | (with_reducible apply Only.ite <;> intro _)
    | with_reducible (apply Only.step (M := [.out, .pan, .log, .line, .links, .rings, .cnt, .outs, .tio]); rotate_left; apply ppsStep_only; decide)
    | with_reducible (apply Only.step (M := [.out, .pan, .log, .line, .pair, .links, .rings, .cnt, .outs, .tio]); rotate_left; apply trigStep_only; decide)
    | (fail_if_no_progress (with_reducible (apply Only.step (M := [.outs]); rotate_left; apply set_tio_only_outs; rfl; decide)))
    | with_reducible (refine Only.sndEq (by assumption) ?_)
    | with_reducible (refine Only.fstEq (by assumption) ?_)
    | dsimp only
    | dsimp +zetaDelta only
    | split
    | (clear_value *; split)

theorem driveOut_only (s : State) (o : Nat) (l : Level) (ph : Nat)  : Only [.out, .outs] s (driveOut s o l ph) := by
  unfold driveOut
  repeat' first
    | ((fail_if_no_progress extract_lets +onlyGivenNames x); refine Only.cut (L := [.out, .outs]) (s := s) (x := x) ?_ ?_; rotate_left; intro hx; clear_value x; rotate_left; dsimp only [x])
    | ((fail_if_no_progress extract_lets +onlyGivenNames x); refine Only.named (b := x.not) ?_; clear_value x)
    | (fail_if_no_progress extract_lets +onlyGivenNames x)
    | with_reducible apply Only.refl
    | with_reducible assumption
    | (with_reducible apply Only.ite <;> intro _)
    | with_reducible (apply Only.step (M := [.out]); rotate_left; apply emitOut_only; decide)
    | with_reducible (apply Only.step (M := [.outs]); rotate_left; apply modOut_only; decide)
    | with_reducible (refine Only.sndEq (by assumption) ?_)
    | with_reducible (refine Only.fstEq (by assumption) ?_)
    | dsimp only
    | dsimp +zetaDelta only
    | split
    | (clear_value *; split)

theorem gateEvent_only (s : State) (o : Nat)  : Only [.out, .pan, .log, .line, .links, .rings, .cnt, .outs] s (gateEvent s o) := by
  unfold gateEvent
  repeat' first
    | ((fail_if_no_progress extract_lets +onlyGivenNames x); refine Only.cut (L := [.out, .pan, .log, .line, .links, .rings, .cnt, .outs]) (s := s) (x := x) ?_ ?_; rotate_left; intro hx; clear_value x; rotate_left; dsimp only [x])
    | ((fail_if_no_progress extract_lets +onlyGivenNames x); refine Only.named (b := x.not) ?_; clear_value x)
    | (fail_if_no_progress extract_lets +onlyGivenNames x)
    | with_reducible apply Only.refl
    | with_reducible assumption
    | (with_reducible apply Only.ite <;> intro _)
    | with_reducible (apply Only.step (M := [.out, .pan, .log, .line, .links, .rings, .cnt, .outs]); rotate_left; apply emit_only; decide)
    | with_reducible (apply Only.step (M := [.outs]); rotate_left; apply modOut_only; decide)
    | with_reducible (refine Only.sndEq (by assumption) ?_)
    | with_reducible (refine Only.fstEq (by assumption) ?_)
    | dsimp only
    | dsimp +zetaDelta only
    | split
    | (clear_value *; split)

theorem leadEdge_only (s : State) (o : Nat) (num : Int) (den : Nat) (width : Nat) (index : Nat) (report : Bool)  : Only [.out, .pan, .log, .line, .links, .rings, .cnt, .outs, .tio] s (leadEdge s o num den width index report) := by
  unfold leadEdge
  repeat' first
    | ((fail_if_no_progress extract_lets +onlyGivenNames x); refine Only.cut (L := [.out, .pan, .log, .line, .links, .rings, .cnt, .outs, .tio]) (s := s) (x := x) ?_ ?_; rotate_left; intro hx; clear_value x; rotate_left; dsimp only [x])
    | ((fail_if_no_progress extract_lets +onlyGivenNames x); refine Only.named (b := x.not) ?_; clear_value x)
    | (fail_if_no_progress extract_lets +onlyGivenNames x)
    | with_reducible apply Only.refl
    | with_reducible assumption
    | (with_reducible apply Only.ite <;> intro _)
    | with_reducible (apply Only.step (M := [.out, .pan, .log, .line, .links, .rings, .cnt, .outs]); rotate_left; apply gateEvent_only; decide)
    | with_reducible (apply Only.step (M := [.out, .outs]); rotate_left; apply driveOut_only; decide)
    | with_reducible (apply Only.step (M := [.outs]); rotate_left; apply modOut_only; decide)
    | with_reducible (apply Only.step (M := [.cnt]); rotate_left; apply perfAdd_only; decide)
    | with_reducible (apply Only.step (M := [.out, .pan, .log, .line, .links, .rings, .cnt, .outs, .tio]); rotate_left; apply reportPut_only; decide)
    | with_reducible (refine Only.sndEq (by assumption) ?_)
    | with_reducible (refine Only.fstEq (by assumption) ?_)
    | dsimp only
    | dsimp +zetaDelta only
    | split
    | (clear_value *; split)

theorem ppsEmitted_only (s : State) (n : Nat) (k : Nat)  : Only [.tio] s (ppsEmitted s n k) := by
  unfold ppsEmitted
  repeat' first
    | ((fail_if_no_progress extract_lets +onlyGivenNames x); refine Only.cut (L := [.tio]) (s := s) (x := x) ?_ ?_; rotate_left; intro hx; clear_value x; rotate_left; dsimp only [x])
    | ((fail_if_no_progress extract_lets +onlyGivenNames x); refine Only.named (b := x.not) ?_; clear_value x)
    | (fail_if_no_progress extract_lets +onlyGivenNames x)
    | with_reducible apply Only.refl
    | with_reducible assumption
    | (with_reducible apply Only.ite <;> intro _)
    | (fail_if_no_progress (with_reducible (apply Only.step (M := [.tio]); rotate_left; apply set_tio_only_tio; rfl; decide)))
    | with_reducible (refine Only.sndEq (by assumption) ?_)
    | with_reducible (refine Only.fstEq (by assumption) ?_)
    | dsimp only
    | dsimp +zetaDelta only
    | split
    | (clear_value *; split)

theorem mirrorTrig_only (s : State) (p_ : Nat) (t : Trig)  : Only [.out, .pair, .links, .cnt] s (mirrorTrig s p_ t) := by
  unfold mirrorTrig
  repeat' first
    | ((fail_if_no_progress extract_lets +onlyGivenNames x); refine Only.cut (L := [.out, .pair, .links, .cnt]) (s := s) (x := x) ?_ ?_; rotate_left; intro hx; clear_value x; rotate_left; dsimp only [x])
    | ((fail_if_no_progress extract_lets +onlyGivenNames x); refine Only.named (b := x.not) ?_; clear_value x)
    | (fail_if_no_progress extract_lets +onlyGivenNames x)
    | with_reducible apply Only.refl
    | with_reducible assumption
    | (with_reducible apply Only.ite <;> intro _)
    | with_reducible (apply Only.step (M := [.out, .pair, .links, .cnt]); rotate_left; apply mirrorSend_only; decide)
    | with_reducible (refine Only.sndEq (by assumption) ?_)
    | with_reducible (refine Only.fstEq (by assumption) ?_)
    | dsimp only
    | dsimp +zetaDelta only
    | split
    | (clear_value *; split)

end Sys2Proof.Laws
end

