-- ==== Sys2Proof/Laws/TcoOps.lean ====
section
/-! SUPPORT. What each operation of Machine/TcoOps.lean can touch, once for each. -/
set_option linter.unusedTactic false
set_option linter.unreachableTactic false
namespace Sys2Proof.Laws
open Sys2Proof
open Sys2Proof.Machine
open Sys2Proof.Safety

theorem modTco_only (s : State) (f : Tco → Tco) (h : (f s.tco).counter = s.tco.counter) : Only [.tco] s (modTco s f) :=
  set_tco_only s (f s.tco) h
/-- A counter that is moved stays below its modulus. -/
theorem moveCounter_lt (c : Nat) (d : Int) : moveCounter c d < counterMod := by
  have h : (0 : Int) < (counterMod : Int) := by decide
  unfold moveCounter
  have a := Int.emod_lt_of_pos ((c : Int) + d) h
  have b := Int.emod_nonneg ((c : Int) + d) (by omega : (counterMod : Int) ≠ 0)
  omega
theorem modTco_move_only (s : State) (f : Tco → Tco) (c : Nat) (d : Int) (h : (f s.tco).counter = moveCounter c d) :
    Only [.tco] s (modTco s f) :=
  ⟨(fun p hp => by cases p <;> first | exact absurd (by decide) hp | exact rfl | exact ⟨rfl, rfl⟩ | exact ⟨rfl, rfl, rfl⟩ | exact ⟨rfl, rfl, rfl, rfl, rfl, rfl, rfl⟩), id,
   fun _ => by unfold Sys2Proof.Safety.counterBound; rw [decide_eq_true_eq]; show (f s.tco).counter < _; rw [h]; exact moveCounter_lt c d⟩
theorem stepMarks_only (s : State) (g : Gbb) (l : Vector Link 4) :
    Only [.gbb, .perf, .links] s { s with gbb := g, perf := { s.perf with dumpStep := true }, lnk := { s.lnk with links := l } } :=
  Only.of (fun p hp => by cases p <;> first | exact absurd (by decide) hp | exact rfl | exact ⟨rfl, rfl⟩ | exact ⟨rfl, rfl, rfl⟩ | exact ⟨rfl, rfl, rfl, rfl, rfl, rfl, rfl⟩) rfl rfl

theorem stMark_only (s : State)  : Only [.tco] s (stMark s) := by
  unfold stMark
  repeat' first
    | ((fail_if_no_progress extract_lets +onlyGivenNames x); refine Only.cut (L := [.tco]) (s := s) (x := x) ?_ ?_; rotate_left; intro hx; clear_value x; rotate_left; dsimp only [x])
    | ((fail_if_no_progress extract_lets +onlyGivenNames x); refine Only.named (b := x.not) ?_; clear_value x)
    | (fail_if_no_progress extract_lets +onlyGivenNames x)
    | with_reducible apply Only.refl
    | with_reducible assumption
    | (with_reducible apply Only.ite <;> intro _)
    | with_reducible (apply Only.step (M := [.tco]); rotate_left; exact modTco_only _ _ (by rfl); decide)
    | with_reducible (refine Only.sndEq (by assumption) ?_)
    | with_reducible (refine Only.fstEq (by assumption) ?_)
    | dsimp only
    | dsimp +zetaDelta only
    | split
    | (clear_value *; split)

theorem clogPush_only (s : State)  : Only [.refs] s (clogPush s) := by
  unfold clogPush
  repeat' first
    | ((fail_if_no_progress extract_lets +onlyGivenNames x); refine Only.cut (L := [.refs]) (s := s) (x := x) ?_ ?_; rotate_left; intro hx; clear_value x; rotate_left; dsimp only [x])
    | ((fail_if_no_progress extract_lets +onlyGivenNames x); refine Only.named (b := x.not) ?_; clear_value x)
    | (fail_if_no_progress extract_lets +onlyGivenNames x)
    | with_reducible apply Only.refl
    | with_reducible assumption
    | (with_reducible apply Only.ite <;> intro _)
    | (fail_if_no_progress (with_reducible (apply Only.step (M := [.refs]); rotate_left; apply set_refs_only; decide)))
    | with_reducible (refine Only.sndEq (by assumption) ?_)
    | with_reducible (refine Only.fstEq (by assumption) ?_)
    | dsimp only
    | dsimp +zetaDelta only
    | split
    | (clear_value *; split)

theorem clogMark_only (s : State)  : Only [.refs] s (clogMark s) := by
  unfold clogMark
  repeat' first
    | ((fail_if_no_progress extract_lets +onlyGivenNames x); refine Only.cut (L := [.refs]) (s := s) (x := x) ?_ ?_; rotate_left; intro hx; clear_value x; rotate_left; dsimp only [x])
    | ((fail_if_no_progress extract_lets +onlyGivenNames x); refine Only.named (b := x.not) ?_; clear_value x)
    | (fail_if_no_progress extract_lets +onlyGivenNames x)
    | with_reducible apply Only.refl
    | with_reducible assumption
    | (with_reducible apply Only.ite <;> intro _)
    | with_reducible (apply Only.step (M := [.refs]); rotate_left; apply clogPush_only; decide)
    | with_reducible (refine Only.sndEq (by assumption) ?_)
    | with_reducible (refine Only.fstEq (by assumption) ?_)
    | dsimp only
    | dsimp +zetaDelta only
    | split
    | (clear_value *; split)

theorem stateChange_only (s : State) (n : ClockState)  : Only [.out, .tco, .pan, .log, .line, .links, .rings, .cnt, .outs] s (stateChange s n) := by
  unfold stateChange
  repeat' first
    | ((fail_if_no_progress extract_lets +onlyGivenNames x); refine Only.cut (L := [.out, .tco, .pan, .log, .line, .links, .rings, .cnt, .outs]) (s := s) (x := x) ?_ ?_; rotate_left; intro hx; clear_value x; rotate_left; dsimp only [x])
    | ((fail_if_no_progress extract_lets +onlyGivenNames x); refine Only.named (b := x.not) ?_; clear_value x)
    | (fail_if_no_progress extract_lets +onlyGivenNames x)
    | with_reducible apply Only.refl
    | with_reducible assumption
    | (with_reducible apply Only.ite <;> intro _)
    | with_reducible (apply Only.step (M := [.out, .pan, .log, .line, .links, .rings, .cnt, .outs]); rotate_left; apply emit_only; decide)
    | with_reducible (apply Only.step (M := [.tco]); rotate_left; exact modTco_only _ _ (by rfl); decide)
    | with_reducible (refine Only.sndEq (by assumption) ?_)
    | with_reducible (refine Only.fstEq (by assumption) ?_)
    | dsimp only
    | dsimp +zetaDelta only
    | split
    | (clear_value *; split)

theorem clockJudge_only (s : State)  : Only [.out, .tco, .refs, .pan, .log, .line, .links, .rings, .cnt, .outs] s (clockJudge s) := by
  unfold clockJudge
  repeat' first
    | ((fail_if_no_progress extract_lets +onlyGivenNames x); refine Only.cut (L := [.out, .tco, .refs, .pan, .log, .line, .links, .rings, .cnt, .outs]) (s := s) (x := x) ?_ ?_; rotate_left; intro hx; clear_value x; rotate_left; dsimp only [x])
    | ((fail_if_no_progress extract_lets +onlyGivenNames x); refine Only.named (b := x.not) ?_; clear_value x)
    | (fail_if_no_progress extract_lets +onlyGivenNames x)
    | with_reducible apply Only.refl
    | with_reducible assumption
    | (with_reducible apply Only.ite <;> intro _)
    | with_reducible (apply Only.step (M := [.refs]); rotate_left; apply clogMark_only; decide)
    | with_reducible (apply Only.step (M := [.out, .tco, .pan, .log, .line, .links, .rings, .cnt, .outs]); rotate_left; apply stateChange_only; decide)
    | with_reducible (apply Only.step (M := [.tco]); rotate_left; exact modTco_only _ _ (by rfl); decide)
    | with_reducible (refine Only.sndEq (by assumption) ?_)
    | with_reducible (refine Only.fstEq (by assumption) ?_)
    | dsimp only
    | dsimp +zetaDelta only
    | split
    | (clear_value *; split)

theorem clockEval_only (s : State)  : Only [.out, .tco, .refs, .pan, .log, .line, .links, .rings, .cnt, .outs] s (clockEval s) := by
  unfold clockEval
  repeat' first
    | ((fail_if_no_progress extract_lets +onlyGivenNames x); refine Only.cut (L := [.out, .tco, .refs, .pan, .log, .line, .links, .rings, .cnt, .outs]) (s := s) (x := x) ?_ ?_; rotate_left; intro hx; clear_value x; rotate_left; dsimp only [x])
    | ((fail_if_no_progress extract_lets +onlyGivenNames x); refine Only.named (b := x.not) ?_; clear_value x)
    | (fail_if_no_progress extract_lets +onlyGivenNames x)
    | with_reducible apply Only.refl
    | with_reducible assumption
    | (with_reducible apply Only.ite <;> intro _)
    | with_reducible (apply Only.step (M := [.tco]); rotate_left; apply stMark_only; decide)
    | with_reducible (apply Only.step (M := [.out, .tco, .refs, .pan, .log, .line, .links, .rings, .cnt, .outs]); rotate_left; apply clockJudge_only; decide)
    | with_reducible (refine Only.sndEq (by assumption) ?_)
    | with_reducible (refine Only.fstEq (by assumption) ?_)
    | dsimp only
    | dsimp +zetaDelta only
    | split
    | (clear_value *; split)

theorem lawRestart_only (s : State) (teb0 : Nat)  : Only [.tco] s (lawRestart s teb0) := by
  unfold lawRestart
  repeat' first
    | ((fail_if_no_progress extract_lets +onlyGivenNames x); refine Only.cut (L := [.tco]) (s := s) (x := x) ?_ ?_; rotate_left; intro hx; clear_value x; rotate_left; dsimp only [x])
    | ((fail_if_no_progress extract_lets +onlyGivenNames x); refine Only.named (b := x.not) ?_; clear_value x)
    | (fail_if_no_progress extract_lets +onlyGivenNames x)
    | with_reducible apply Only.refl
    | with_reducible assumption
    | (with_reducible apply Only.ite <;> intro _)
    | with_reducible (apply Only.step (M := [.tco]); rotate_left; exact modTco_only _ _ (by rfl); decide)
    | with_reducible (refine Only.sndEq (by assumption) ?_)
    | with_reducible (refine Only.fstEq (by assumption) ?_)
    | dsimp only
    | dsimp +zetaDelta only
    | split
    | (clear_value *; split)

theorem fassistEval_only (s : State)  : Only [.tco] s (fassistEval s) := by
  unfold fassistEval
  repeat' first
    | ((fail_if_no_progress extract_lets +onlyGivenNames x); refine Only.cut (L := [.tco]) (s := s) (x := x) ?_ ?_; rotate_left; intro hx; clear_value x; rotate_left; dsimp only [x])
    | ((fail_if_no_progress extract_lets +onlyGivenNames x); refine Only.named (b := x.not) ?_; clear_value x)
    | (fail_if_no_progress extract_lets +onlyGivenNames x)
    | with_reducible apply Only.refl
    | with_reducible assumption
    | (with_reducible apply Only.ite <;> intro _)
    | with_reducible (apply Only.step (M := [.tco]); rotate_left; exact modTco_only _ _ (by rfl); decide)
    | with_reducible (apply Only.step (M := [.tco]); rotate_left; apply lawRestart_only; decide)
    | with_reducible (refine Only.sndEq (by assumption) ?_)
    | with_reducible (refine Only.fstEq (by assumption) ?_)
    | dsimp only
    | dsimp +zetaDelta only
    | split
    | (clear_value *; split)

theorem freqCheck_only (s : State) (u : Int)  : Only [.out, .tco, .pan, .log, .line, .links, .rings, .cnt, .outs] s (freqCheck s u) := by
  unfold freqCheck
  repeat' first
    | ((fail_if_no_progress extract_lets +onlyGivenNames x); refine Only.cut (L := [.out, .tco, .pan, .log, .line, .links, .rings, .cnt, .outs]) (s := s) (x := x) ?_ ?_; rotate_left; intro hx; clear_value x; rotate_left; dsimp only [x])
    | ((fail_if_no_progress extract_lets +onlyGivenNames x); refine Only.named (b := x.not) ?_; clear_value x)
    | (fail_if_no_progress extract_lets +onlyGivenNames x)
    | with_reducible apply Only.refl
    | with_reducible assumption
    | (with_reducible apply Only.ite <;> intro _)
    | with_reducible (apply Only.step (M := [.tco]); rotate_left; exact modTco_only _ _ (by rfl); decide)
    | with_reducible (apply Only.step (M := [.out, .pan, .log, .line, .links, .rings, .cnt, .outs]); rotate_left; apply emit_only; decide)
    | with_reducible (refine Only.sndEq (by assumption) ?_)
    | with_reducible (refine Only.fstEq (by assumption) ?_)
    | dsimp only
    | dsimp +zetaDelta only
    | split
    | (clear_value *; split)

theorem clearSlew_only (s : State)  : Only [.out, .tco, .pan, .log, .line, .links, .rings, .cnt, .outs] s (clearSlew s) := by
  unfold clearSlew
  repeat' first
    | ((fail_if_no_progress extract_lets +onlyGivenNames x); refine Only.cut (L := [.out, .tco, .pan, .log, .line, .links, .rings, .cnt, .outs]) (s := s) (x := x) ?_ ?_; rotate_left; intro hx; clear_value x; rotate_left; dsimp only [x])
    | ((fail_if_no_progress extract_lets +onlyGivenNames x); refine Only.named (b := x.not) ?_; clear_value x)
    | (fail_if_no_progress extract_lets +onlyGivenNames x)
    | with_reducible apply Only.refl
    | with_reducible assumption
    | (with_reducible apply Only.ite <;> intro _)
    | with_reducible (apply Only.step (M := [.tco]); rotate_left; exact modTco_only _ _ (by rfl); decide)
    | with_reducible (apply Only.step (M := [.out, .tco, .pan, .log, .line, .links, .rings, .cnt, .outs]); rotate_left; apply freqCheck_only; decide)
    | with_reducible (refine Only.sndEq (by assumption) ?_)
    | with_reducible (refine Only.fstEq (by assumption) ?_)
    | dsimp only
    | dsimp +zetaDelta only
    | split
    | (clear_value *; split)

theorem slewAbort_only (s : State)  : Only [.out, .tco, .pan, .log, .line, .links, .rings, .hif, .cnt, .outs] s (slewAbort s) := by
  unfold slewAbort
  repeat' first
    | ((fail_if_no_progress extract_lets +onlyGivenNames x); refine Only.cut (L := [.out, .tco, .pan, .log, .line, .links, .rings, .hif, .cnt, .outs]) (s := s) (x := x) ?_ ?_; rotate_left; intro hx; clear_value x; rotate_left; dsimp only [x])
    | ((fail_if_no_progress extract_lets +onlyGivenNames x); refine Only.named (b := x.not) ?_; clear_value x)
    | (fail_if_no_progress extract_lets +onlyGivenNames x)
    | with_reducible apply Only.refl
    | with_reducible assumption
    | (with_reducible apply Only.ite <;> intro _)
    | with_reducible (apply Only.step (M := [.out, .tco, .pan, .log, .line, .links, .rings, .cnt, .outs]); rotate_left; apply clearSlew_only; decide)
    | with_reducible (apply Only.step (M := [.hif]); rotate_left; apply fin_only; decide)
    | with_reducible (refine Only.sndEq (by assumption) ?_)
    | with_reducible (refine Only.fstEq (by assumption) ?_)
    | dsimp only
    | dsimp +zetaDelta only
    | split
    | (clear_value *; split)

theorem setWord_only (s : State) (w : Int)  : Only [.out, .tco, .refs, .pan, .log, .line, .links, .rings, .cnt, .outs] s (setWord s w) := by
  unfold setWord
  repeat' first
    | ((fail_if_no_progress extract_lets +onlyGivenNames x); refine Only.cut (L := [.out, .tco, .refs, .pan, .log, .line, .links, .rings, .cnt, .outs]) (s := s) (x := x) ?_ ?_; rotate_left; intro hx; clear_value x; rotate_left; dsimp only [x])
    | ((fail_if_no_progress extract_lets +onlyGivenNames x); refine Only.named (b := x.not) ?_; clear_value x)
    | (fail_if_no_progress extract_lets +onlyGivenNames x)
    | with_reducible apply Only.refl
    | with_reducible assumption
    | (with_reducible apply Only.ite <;> intro _)
    | with_reducible (apply Only.step (M := [.tco]); rotate_left; exact modTco_only _ _ (by rfl); decide)
    | with_reducible (apply Only.step (M := [.refs]); rotate_left; apply clogPush_only; decide)
    | with_reducible (apply Only.step (M := [.out, .tco, .pan, .log, .line, .links, .rings, .cnt, .outs]); rotate_left; apply freqCheck_only; decide)
    | with_reducible (refine Only.sndEq (by assumption) ?_)
    | with_reducible (refine Only.fstEq (by assumption) ?_)
    | dsimp only
    | dsimp +zetaDelta only
    | split
    | (clear_value *; split)

theorem tempMark_only (s : State)  : Only [.tco] s (tempMark s) := by
  unfold tempMark
  repeat' first
    | ((fail_if_no_progress extract_lets +onlyGivenNames x); refine Only.cut (L := [.tco]) (s := s) (x := x) ?_ ?_; rotate_left; intro hx; clear_value x; rotate_left; dsimp only [x])
    | ((fail_if_no_progress extract_lets +onlyGivenNames x); refine Only.named (b := x.not) ?_; clear_value x)
    | (fail_if_no_progress extract_lets +onlyGivenNames x)
    | with_reducible apply Only.refl
    | with_reducible assumption
    | (with_reducible apply Only.ite <;> intro _)
    | with_reducible (apply Only.step (M := [.tco]); rotate_left; exact modTco_only _ _ (by rfl); decide)
    | with_reducible (refine Only.sndEq (by assumption) ?_)
    | with_reducible (refine Only.fstEq (by assumption) ?_)
    | dsimp only
    | dsimp +zetaDelta only
    | split
    | (clear_value *; split)

theorem utcWrite_only (s : State) (off : BitVec 16) (pend : BitVec 2) (leapAt : BitVec 32) (solution : Bool)  : Only [.out, .tco, .pan, .log, .line, .links, .rings, .cnt, .outs] s (utcWrite s off pend leapAt solution) := by
  unfold utcWrite
  repeat' first
    | ((fail_if_no_progress extract_lets +onlyGivenNames x); refine Only.cut (L := [.out, .tco, .pan, .log, .line, .links, .rings, .cnt, .outs]) (s := s) (x := x) ?_ ?_; rotate_left; intro hx; clear_value x; rotate_left; dsimp only [x])
    | ((fail_if_no_progress extract_lets +onlyGivenNames x); refine Only.named (b := x.not) ?_; clear_value x)
    | (fail_if_no_progress extract_lets +onlyGivenNames x)
    | with_reducible apply Only.refl
    | with_reducible assumption
    | (with_reducible apply Only.ite <;> intro _)
    | with_reducible (apply Only.step (M := [.tco]); rotate_left; exact modTco_only _ _ (by rfl); decide)
    | with_reducible (apply Only.step (M := [.out, .pan, .log, .line, .links, .rings, .cnt, .outs]); rotate_left; apply emit_only; decide)
    | with_reducible (refine Only.sndEq (by assumption) ?_)
    | with_reducible (refine Only.fstEq (by assumption) ?_)
    | dsimp only
    | dsimp +zetaDelta only
    | split
    | (clear_value *; split)

theorem leapDone_only (s : State)  : Only [.out, .tco, .pan, .log, .line, .links, .rings, .cnt, .outs] s (leapDone s) := by
  unfold leapDone
  repeat' first
    | ((fail_if_no_progress extract_lets +onlyGivenNames x); refine Only.cut (L := [.out, .tco, .pan, .log, .line, .links, .rings, .cnt, .outs]) (s := s) (x := x) ?_ ?_; rotate_left; intro hx; clear_value x; rotate_left; dsimp only [x])
    | ((fail_if_no_progress extract_lets +onlyGivenNames x); refine Only.named (b := x.not) ?_; clear_value x)
    | (fail_if_no_progress extract_lets +onlyGivenNames x)
    | with_reducible apply Only.refl
    | with_reducible assumption
    | (with_reducible apply Only.ite <;> intro _)
    | with_reducible (apply Only.step (M := [.out, .pan, .log, .line, .links, .rings, .cnt, .outs]); rotate_left; apply emit_only; decide)
    | with_reducible (apply Only.step (M := [.tco]); rotate_left; exact modTco_only _ _ (by rfl); decide)
    | with_reducible (refine Only.sndEq (by assumption) ?_)
    | with_reducible (refine Only.fstEq (by assumption) ?_)
    | dsimp only
    | dsimp +zetaDelta only
    | split
    | (clear_value *; split)

theorem applyStep_only (s : State) (src : Nat) (d0 : Int)  : Only [.out, .tco, .gbb, .pan, .log, .line, .pair, .links, .rings, .hif, .cnt, .perf, .outs, .tio] s (applyStep s src d0) := by
  unfold applyStep
  repeat' first
    | ((fail_if_no_progress extract_lets +onlyGivenNames x); refine Only.cut (L := [.out, .tco, .gbb, .pan, .log, .line, .pair, .links, .rings, .hif, .cnt, .perf, .outs, .tio]) (s := s) (x := x) ?_ ?_; rotate_left; intro hx; clear_value x; rotate_left; dsimp only [x])
    | ((fail_if_no_progress extract_lets +onlyGivenNames x); refine Only.named (b := x.not) ?_; clear_value x)
    | (fail_if_no_progress extract_lets +onlyGivenNames x)
    | with_reducible apply Only.refl
    | with_reducible assumption
    | (with_reducible apply Only.ite <;> intro _)
    | with_reducible (apply Only.step (M := [.tco]); rotate_left; exact modTco_move_only _ _ _ _ (by rfl); decide)
    | with_reducible (apply Only.step (M := [.gbb, .perf, .links]); rotate_left; apply stepMarks_only; decide)
    | with_reducible (apply Only.step (M := [.out, .tco, .pan, .log, .line, .links, .rings, .hif, .cnt, .outs]); rotate_left; apply slewAbort_only; decide)
    | with_reducible (apply Only.step (M := [.cnt]); rotate_left; apply perfAdd_only; decide)
    | with_reducible (apply Only.step (M := [.tco]); rotate_left; exact modTco_only _ _ (by rfl); decide)
    | with_reducible (apply Only.step (M := [.out, .pan, .log, .line, .links, .rings, .cnt, .outs]); rotate_left; apply emit_only; decide)
    | with_reducible (apply Only.step (M := [.out, .pan, .log, .line, .pair, .links, .rings, .cnt, .outs, .tio]); rotate_left; apply tioStep_only; decide)
    | with_reducible (apply Only.step (M := [.out, .tco, .pan, .log, .line, .links, .rings, .cnt, .outs]); rotate_left; apply leapDone_only; decide)
    | (fail_if_no_progress (with_reducible (apply Only.step (M := [.gbb]); rotate_left; apply set_gbb_only; decide)))
    | (fail_if_no_progress (with_reducible (apply Only.step (M := [.links]); rotate_left; apply set_lnk_only_links; rfl; decide)))
    | (fail_if_no_progress (with_reducible (apply Only.step (M := [.perf]); rotate_left; apply set_perf_only_perf; rfl; decide)))
    | with_reducible (refine Only.sndEq (by assumption) ?_)
    | with_reducible (refine Only.fstEq (by assumption) ?_)
    | dsimp only
    | dsimp +zetaDelta only
    | split
    | (clear_value *; split)

theorem publish_only (s : State) (base : Nat)  : Only [.tco] s (publish s base) := by
  unfold publish
  repeat' first
    | ((fail_if_no_progress extract_lets +onlyGivenNames x); refine Only.cut (L := [.tco]) (s := s) (x := x) ?_ ?_; rotate_left; intro hx; clear_value x; rotate_left; dsimp only [x])
    | ((fail_if_no_progress extract_lets +onlyGivenNames x); refine Only.named (b := x.not) ?_; clear_value x)
    | (fail_if_no_progress extract_lets +onlyGivenNames x)
    | with_reducible apply Only.refl
    | with_reducible assumption
    | (with_reducible apply Only.ite <;> intro _)
    | with_reducible (apply Only.step (M := [.tco]); rotate_left; exact modTco_only _ _ (by rfl); decide)
    | with_reducible (refine Only.sndEq (by assumption) ?_)
    | with_reducible (refine Only.fstEq (by assumption) ?_)
    | dsimp only
    | dsimp +zetaDelta only
    | split
    | (clear_value *; split)

theorem msBoundary_only (s : State)  : Only [.tco] s (msBoundary s) := by
  unfold msBoundary
  repeat' first
    | ((fail_if_no_progress extract_lets +onlyGivenNames x); refine Only.cut (L := [.tco]) (s := s) (x := x) ?_ ?_; rotate_left; intro hx; clear_value x; rotate_left; dsimp only [x])
    | ((fail_if_no_progress extract_lets +onlyGivenNames x); refine Only.named (b := x.not) ?_; clear_value x)
    | (fail_if_no_progress extract_lets +onlyGivenNames x)
    | with_reducible apply Only.refl
    | with_reducible assumption
    | (with_reducible apply Only.ite <;> intro _)
    | with_reducible (apply Only.step (M := [.tco]); rotate_left; apply publish_only; decide)
    | with_reducible (apply Only.step (M := [.tco]); rotate_left; exact modTco_only _ _ (by rfl); decide)
    | with_reducible (refine Only.sndEq (by assumption) ?_)
    | with_reducible (refine Only.fstEq (by assumption) ?_)
    | dsimp only
    | dsimp +zetaDelta only
    | split
    | (clear_value *; split)

theorem slewStart_only (s : State) (host : Option Hdr) (delta48 : Int)  : Only [.out, .tco, .pan, .log, .line, .links, .rings, .cnt, .outs] s (slewStart s host delta48) := by
  unfold slewStart
  repeat' first
    | ((fail_if_no_progress extract_lets +onlyGivenNames x); refine Only.cut (L := [.out, .tco, .pan, .log, .line, .links, .rings, .cnt, .outs]) (s := s) (x := x) ?_ ?_; rotate_left; intro hx; clear_value x; rotate_left; dsimp only [x])
    | ((fail_if_no_progress extract_lets +onlyGivenNames x); refine Only.named (b := x.not) ?_; clear_value x)
    | (fail_if_no_progress extract_lets +onlyGivenNames x)
    | with_reducible apply Only.refl
    | with_reducible assumption
    | (with_reducible apply Only.ite <;> intro _)
    | with_reducible (apply Only.step (M := [.tco]); rotate_left; exact modTco_only _ _ (by rfl); decide)
    | with_reducible (apply Only.step (M := [.out, .tco, .pan, .log, .line, .links, .rings, .cnt, .outs]); rotate_left; apply freqCheck_only; decide)
    | with_reducible (refine Only.sndEq (by assumption) ?_)
    | with_reducible (refine Only.fstEq (by assumption) ?_)
    | dsimp only
    | dsimp +zetaDelta only
    | split
    | (clear_value *; split)

theorem lawFrom_only (s : State) (c : Nat) (latch : Nat)  : Only [.tco] s (lawFrom s c latch) := by
  unfold lawFrom
  repeat' first
    | ((fail_if_no_progress extract_lets +onlyGivenNames x); refine Only.cut (L := [.tco]) (s := s) (x := x) ?_ ?_; rotate_left; intro hx; clear_value x; rotate_left; dsimp only [x])
    | ((fail_if_no_progress extract_lets +onlyGivenNames x); refine Only.named (b := x.not) ?_; clear_value x)
    | (fail_if_no_progress extract_lets +onlyGivenNames x)
    | (with_reducible apply Only.foldl; (intro _ _ _))
    | (with_reducible apply Only.foldlFst; (intro _ _ _))
    | with_reducible apply Only.refl
    | with_reducible assumption
    | (with_reducible apply Only.ite <;> intro _)
    | with_reducible (apply Only.step (M := [.tco]); rotate_left; exact modTco_only _ _ (by rfl); decide)
    | with_reducible (refine Only.sndEq (by assumption) ?_)
    | with_reducible (refine Only.fstEq (by assumption) ?_)
    | dsimp only
    | dsimp +zetaDelta only
    | split
    | (clear_value *; split)

theorem tebExceed_only (s : State) (at_ : BitVec 32) (excess : Int)  : Only [.out, .tco, .pan, .log, .line, .links, .rings, .cnt, .outs] s (tebExceed s at_ excess) := by
  unfold tebExceed
  repeat' first
    | ((fail_if_no_progress extract_lets +onlyGivenNames x); refine Only.cut (L := [.out, .tco, .pan, .log, .line, .links, .rings, .cnt, .outs]) (s := s) (x := x) ?_ ?_; rotate_left; intro hx; clear_value x; rotate_left; dsimp only [x])
    | ((fail_if_no_progress extract_lets +onlyGivenNames x); refine Only.named (b := x.not) ?_; clear_value x)
    | (fail_if_no_progress extract_lets +onlyGivenNames x)
    | with_reducible apply Only.refl
    | with_reducible assumption
    | (with_reducible apply Only.ite <;> intro _)
    | with_reducible (apply Only.step (M := [.out, .pan, .log, .line, .links, .rings, .cnt, .outs]); rotate_left; apply emit_only; decide)
    | with_reducible (apply Only.step (M := [.tco]); rotate_left; exact modTco_only _ _ (by rfl); decide)
    | with_reducible (refine Only.sndEq (by assumption) ?_)
    | with_reducible (refine Only.fstEq (by assumption) ?_)
    | dsimp only
    | dsimp +zetaDelta only
    | split
    | (clear_value *; split)

theorem contractAt_only (s : State) (c : Nat) (latch : Nat)  : Only [.tco, .cnt] s (contractAt s c latch) := by
  unfold contractAt
  repeat' first
    | ((fail_if_no_progress extract_lets +onlyGivenNames x); refine Only.cut (L := [.tco, .cnt]) (s := s) (x := x) ?_ ?_; rotate_left; intro hx; clear_value x; rotate_left; dsimp only [x])
    | ((fail_if_no_progress extract_lets +onlyGivenNames x); refine Only.named (b := x.not) ?_; clear_value x)
    | (fail_if_no_progress extract_lets +onlyGivenNames x)
    | with_reducible apply Only.refl
    | with_reducible assumption
    | (with_reducible apply Only.ite <;> intro _)
    | with_reducible (apply Only.step (M := [.tco]); rotate_left; apply lawFrom_only; decide)
    | with_reducible (apply Only.step (M := [.cnt]); rotate_left; apply perfAdd_only; decide)
    | with_reducible (apply Only.step (M := [.tco]); rotate_left; exact modTco_only _ _ (by rfl); decide)
    | with_reducible (refine Only.sndEq (by assumption) ?_)
    | with_reducible (refine Only.fstEq (by assumption) ?_)
    | dsimp only
    | dsimp +zetaDelta only
    | split
    | (clear_value *; split)

theorem contract_only (s : State) (i : Fin 16) (off : Int) (bound : Nat) (eres : Int) (latch : Nat)  : Only [.out, .tco, .refs, .pan, .log, .line, .links, .rings, .cnt, .outs] s (contract s i off bound eres latch) := by
  unfold contract
  repeat' first
    | ((fail_if_no_progress extract_lets +onlyGivenNames x); refine Only.cut (L := [.out, .tco, .refs, .pan, .log, .line, .links, .rings, .cnt, .outs]) (s := s) (x := x) ?_ ?_; rotate_left; intro hx; clear_value x; rotate_left; dsimp only [x])
    | ((fail_if_no_progress extract_lets +onlyGivenNames x); refine Only.named (b := x.not) ?_; clear_value x)
    | (fail_if_no_progress extract_lets +onlyGivenNames x)
    | with_reducible apply Only.refl
    | with_reducible assumption
    | (with_reducible apply Only.ite <;> intro _)
    | with_reducible (apply Only.step (M := [.tco, .cnt]); rotate_left; apply contractAt_only; decide)
    | with_reducible (apply Only.step (M := [.out, .tco, .pan, .log, .line, .links, .rings, .cnt, .outs]); rotate_left; apply tebExceed_only; decide)
    | with_reducible (apply Only.step (M := [.out, .tco, .refs, .pan, .log, .line, .links, .rings, .cnt, .outs]); rotate_left; apply clockEval_only; decide)
    | with_reducible (apply Only.step (M := [.tco]); rotate_left; exact modTco_only _ _ (by rfl); decide)
    | with_reducible (refine Only.sndEq (by assumption) ?_)
    | with_reducible (refine Only.fstEq (by assumption) ?_)
    | dsimp only
    | dsimp +zetaDelta only
    | split
    | (clear_value *; split)

theorem hostStepTeb_only (s : State) (delta16 : Int)  : Only [.tco] s (hostStepTeb s delta16) := by
  unfold hostStepTeb
  repeat' first
    | ((fail_if_no_progress extract_lets +onlyGivenNames x); refine Only.cut (L := [.tco]) (s := s) (x := x) ?_ ?_; rotate_left; intro hx; clear_value x; rotate_left; dsimp only [x])
    | ((fail_if_no_progress extract_lets +onlyGivenNames x); refine Only.named (b := x.not) ?_; clear_value x)
    | (fail_if_no_progress extract_lets +onlyGivenNames x)
    | with_reducible apply Only.refl
    | with_reducible assumption
    | (with_reducible apply Only.ite <;> intro _)
    | with_reducible (apply Only.step (M := [.tco]); rotate_left; exact modTco_only _ _ (by rfl); decide)
    | with_reducible (refine Only.sndEq (by assumption) ?_)
    | with_reducible (refine Only.fstEq (by assumption) ?_)
    | dsimp only
    | dsimp +zetaDelta only
    | split
    | (clear_value *; split)

theorem tickCounter_only (s : State)  : Only [.tco] s (tickCounter s) := by
  unfold tickCounter
  repeat' first
    | ((fail_if_no_progress extract_lets +onlyGivenNames x); refine Only.cut (L := [.tco]) (s := s) (x := x) ?_ ?_; rotate_left; intro hx; clear_value x; rotate_left; dsimp only [x])
    | ((fail_if_no_progress extract_lets +onlyGivenNames x); refine Only.named (b := x.not) ?_; clear_value x)
    | (fail_if_no_progress extract_lets +onlyGivenNames x)
    | with_reducible apply Only.refl
    | with_reducible assumption
    | (with_reducible apply Only.ite <;> intro _)
    | with_reducible (apply Only.step (M := [.tco]); rotate_left; exact modTco_move_only _ _ _ _ (by rfl); decide)
    | with_reducible (apply Only.step (M := [.tco]); rotate_left; exact modTco_only _ _ (by rfl); decide)
    | with_reducible (refine Only.sndEq (by assumption) ?_)
    | with_reducible (refine Only.fstEq (by assumption) ?_)
    | dsimp only
    | dsimp +zetaDelta only
    | split
    | (clear_value *; split)

end Sys2Proof.Laws
end

