-- ==== Sys2Proof/Laws/RefsOps.lean ====
section
/-! SUPPORT. What each operation of Machine/RefsOps.lean can touch, once for each. -/
set_option linter.unusedTactic false
set_option linter.unreachableTactic false
namespace Sys2Proof.Laws
open Sys2Proof
open Sys2Proof.Machine
open Sys2Proof.Safety

theorem modRefs_only (s : State) (f : Refs → Refs)  : Only [.refs] s (modRefs s f) := by
  unfold modRefs
  repeat' first
    | ((fail_if_no_progress extract_lets +onlyGivenNames x); refine Only.cut (L := [.refs]) (s := s) (x := x) ?_ ?_; rotate_left; intro hx; clear_value x; rotate_left; dsimp only [x])
    | ((fail_if_no_progress extract_lets +onlyGivenNames x); refine Only.named (b := x.not) ?_; clear_value x)
    | (fail_if_no_progress extract_lets +onlyGivenNames x)
    | with_reducible apply Only.refl
    | with_reducible assumption
    | (with_reducible apply Only.ite <;> intro _)
    | (fail_if_no_progress (with_reducible (apply Only.step (M := [.refs]); rotate_left; apply set_refs_only; decide)))
    | with_reducible (refine Only.sndEq (by assumption) ?_)
    | with_reducible (refine Only.fstEq (by assumption) ?_)
    | dsimp only
    | dsimp +zetaDelta only
    | split
    | (clear_value *; split)

theorem txnAnswer_only (s : State) (o : TxnOrigin) (st : BitVec 8)  : Only [.hif] s (txnAnswer s o st) := by
  unfold txnAnswer
  repeat' first
    | ((fail_if_no_progress extract_lets +onlyGivenNames x); refine Only.cut (L := [.hif]) (s := s) (x := x) ?_ ?_; rotate_left; intro hx; clear_value x; rotate_left; dsimp only [x])
    | ((fail_if_no_progress extract_lets +onlyGivenNames x); refine Only.named (b := x.not) ?_; clear_value x)
    | (fail_if_no_progress extract_lets +onlyGivenNames x)
    | with_reducible apply Only.refl
    | with_reducible assumption
    | (with_reducible apply Only.ite <;> intro _)
    | with_reducible (apply Only.step (M := [.hif]); rotate_left; apply fin_only; decide)
    | with_reducible (refine Only.sndEq (by assumption) ?_)
    | with_reducible (refine Only.fstEq (by assumption) ?_)
    | dsimp only
    | dsimp +zetaDelta only
    | split
    | (clear_value *; split)

theorem txnEvent_only (s : State) (t : Fin 16) (kind : Nat) (stepped : Bool) (slewed : Bool) (delta : Int)  : Only [.out, .pan, .log, .line, .links, .rings, .cnt, .outs] s (txnEvent s t kind stepped slewed delta) := by
  unfold txnEvent
  repeat' first
    | ((fail_if_no_progress extract_lets +onlyGivenNames x); refine Only.cut (L := [.out, .pan, .log, .line, .links, .rings, .cnt, .outs]) (s := s) (x := x) ?_ ?_; rotate_left; intro hx; clear_value x; rotate_left; dsimp only [x])
    | ((fail_if_no_progress extract_lets +onlyGivenNames x); refine Only.named (b := x.not) ?_; clear_value x)
    | (fail_if_no_progress extract_lets +onlyGivenNames x)
    | with_reducible apply Only.refl
    | with_reducible assumption
    | (with_reducible apply Only.ite <;> intro _)
    | with_reducible (apply Only.step (M := [.out, .pan, .log, .line, .links, .rings, .cnt, .outs]); rotate_left; apply emit_only; decide)
    | with_reducible (refine Only.sndEq (by assumption) ?_)
    | with_reducible (refine Only.fstEq (by assumption) ?_)
    | dsimp only
    | dsimp +zetaDelta only
    | split
    | (clear_value *; split)

theorem abortTxn_only (s : State) (delta : Int) (st : BitVec 8)  : Only [.out, .refs, .pan, .log, .line, .links, .rings, .hif, .cnt, .outs] s (abortTxn s delta st) := by
  unfold abortTxn
  repeat' first
    | ((fail_if_no_progress extract_lets +onlyGivenNames x); refine Only.cut (L := [.out, .refs, .pan, .log, .line, .links, .rings, .hif, .cnt, .outs]) (s := s) (x := x) ?_ ?_; rotate_left; intro hx; clear_value x; rotate_left; dsimp only [x])
    | ((fail_if_no_progress extract_lets +onlyGivenNames x); refine Only.named (b := x.not) ?_; clear_value x)
    | (fail_if_no_progress extract_lets +onlyGivenNames x)
    | with_reducible apply Only.refl
    | with_reducible assumption
    | (with_reducible apply Only.ite <;> intro _)
    | with_reducible (apply Only.step (M := [.cnt]); rotate_left; apply perfAdd_only; decide)
    | with_reducible (apply Only.step (M := [.refs]); rotate_left; apply modRefs_only; decide)
    | with_reducible (apply Only.step (M := [.hif]); rotate_left; apply txnAnswer_only; decide)
    | with_reducible (apply Only.step (M := [.out, .pan, .log, .line, .links, .rings, .cnt, .outs]); rotate_left; apply txnEvent_only; decide)
    | with_reducible (refine Only.sndEq (by assumption) ?_)
    | with_reducible (refine Only.fstEq (by assumption) ?_)
    | dsimp only
    | dsimp +zetaDelta only
    | split
    | (clear_value *; split)

theorem selPost_only (t : Option (Fin 16)) (f : Option (Fin 16)) (s : State)  : Only [.out, .tco, .refs, .pan, .log, .line, .links, .rings, .cnt, .outs] s (selPost t f s) := by
  unfold selPost
  repeat' first
    | ((fail_if_no_progress extract_lets +onlyGivenNames x); refine Only.cut (L := [.out, .tco, .refs, .pan, .log, .line, .links, .rings, .cnt, .outs]) (s := s) (x := x) ?_ ?_; rotate_left; intro hx; clear_value x; rotate_left; dsimp only [x])
    | ((fail_if_no_progress extract_lets +onlyGivenNames x); refine Only.named (b := x.not) ?_; clear_value x)
    | (fail_if_no_progress extract_lets +onlyGivenNames x)
    | with_reducible apply Only.refl
    | with_reducible assumption
    | (with_reducible apply Only.ite <;> intro _)
    | with_reducible (apply Only.step (M := [.out, .pan, .log, .line, .links, .rings, .cnt, .outs]); rotate_left; apply emit_only; decide)
    | with_reducible (apply Only.step (M := [.out, .tco, .refs, .pan, .log, .line, .links, .rings, .cnt, .outs]); rotate_left; apply clockEval_only; decide)
    | with_reducible (apply Only.step (M := [.tco]); rotate_left; apply fassistEval_only; decide)
    | with_reducible (refine Only.sndEq (by assumption) ?_)
    | with_reducible (refine Only.fstEq (by assumption) ?_)
    | dsimp only
    | dsimp +zetaDelta only
    | split
    | (clear_value *; split)

theorem steerHalt_only (s : State)  : Only [.refs] s (steerHalt s) := by
  unfold steerHalt
  repeat' first
    | ((fail_if_no_progress extract_lets +onlyGivenNames x); refine Only.cut (L := [.refs]) (s := s) (x := x) ?_ ?_; rotate_left; intro hx; clear_value x; rotate_left; dsimp only [x])
    | ((fail_if_no_progress extract_lets +onlyGivenNames x); refine Only.named (b := x.not) ?_; clear_value x)
    | (fail_if_no_progress extract_lets +onlyGivenNames x)
    | with_reducible apply Only.refl
    | with_reducible assumption
    | (with_reducible apply Only.ite <;> intro _)
    | with_reducible (apply Only.step (M := [.refs]); rotate_left; apply modRefs_only; decide)
    | with_reducible (refine Only.sndEq (by assumption) ?_)
    | with_reducible (refine Only.fstEq (by assumption) ?_)
    | dsimp only
    | dsimp +zetaDelta only
    | split
    | (clear_value *; split)

theorem episodeEnd_only (s : State)  : Only [.refs, .pan] s (episodeEnd s) := by
  unfold episodeEnd
  repeat' first
    | ((fail_if_no_progress extract_lets +onlyGivenNames x); refine Only.cut (L := [.refs, .pan]) (s := s) (x := x) ?_ ?_; rotate_left; intro hx; clear_value x; rotate_left; dsimp only [x])
    | ((fail_if_no_progress extract_lets +onlyGivenNames x); refine Only.named (b := x.not) ?_; clear_value x)
    | (fail_if_no_progress extract_lets +onlyGivenNames x)
    | with_reducible apply Only.refl
    | with_reducible assumption
    | (with_reducible apply Only.ite <;> intro _)
    | with_reducible (apply Only.step (M := [.pan]); rotate_left; apply modFig_only; decide)
    | with_reducible (apply Only.step (M := [.refs]); rotate_left; apply modRefs_only; decide)
    | with_reducible (refine Only.sndEq (by assumption) ?_)
    | with_reducible (refine Only.fstEq (by assumption) ?_)
    | dsimp only
    | dsimp +zetaDelta only
    | split
    | (clear_value *; split)

theorem endHold_only (s : State)  : Only [.refs] s (endHold s) := by
  unfold endHold
  repeat' first
    | ((fail_if_no_progress extract_lets +onlyGivenNames x); refine Only.cut (L := [.refs]) (s := s) (x := x) ?_ ?_; rotate_left; intro hx; clear_value x; rotate_left; dsimp only [x])
    | ((fail_if_no_progress extract_lets +onlyGivenNames x); refine Only.named (b := x.not) ?_; clear_value x)
    | (fail_if_no_progress extract_lets +onlyGivenNames x)
    | with_reducible apply Only.refl
    | with_reducible assumption
    | (with_reducible apply Only.ite <;> intro _)
    | with_reducible (apply Only.step (M := [.refs]); rotate_left; apply modRefs_only; decide)
    | with_reducible (refine Only.sndEq (by assumption) ?_)
    | with_reducible (refine Only.fstEq (by assumption) ?_)
    | dsimp only
    | dsimp +zetaDelta only
    | split
    | (clear_value *; split)

theorem endSettle_only (s : State)  : Only [.out, .refs, .pan, .log, .line, .links, .rings, .cnt, .outs] s (endSettle s) := by
  unfold endSettle
  repeat' first
    | ((fail_if_no_progress extract_lets +onlyGivenNames x); refine Only.cut (L := [.out, .refs, .pan, .log, .line, .links, .rings, .cnt, .outs]) (s := s) (x := x) ?_ ?_; rotate_left; intro hx; clear_value x; rotate_left; dsimp only [x])
    | ((fail_if_no_progress extract_lets +onlyGivenNames x); refine Only.named (b := x.not) ?_; clear_value x)
    | (fail_if_no_progress extract_lets +onlyGivenNames x)
    | with_reducible apply Only.refl
    | with_reducible assumption
    | (with_reducible apply Only.ite <;> intro _)
    | with_reducible (apply Only.step (M := [.out, .pan, .log, .line, .links, .rings, .cnt, .outs]); rotate_left; apply txnEvent_only; decide)
    | with_reducible (apply Only.step (M := [.refs]); rotate_left; apply modRefs_only; decide)
    | with_reducible (refine Only.sndEq (by assumption) ?_)
    | with_reducible (refine Only.fstEq (by assumption) ?_)
    | dsimp only
    | dsimp +zetaDelta only
    | split
    | (clear_value *; split)

theorem selOff_only (s : State)  : Only [.out, .tco, .refs, .pan, .log, .line, .links, .lnk, .rings, .hif, .cnt, .outs] s (selOff s) := by
  unfold selOff
  repeat' first
    | ((fail_if_no_progress extract_lets +onlyGivenNames x); refine Only.cut (L := [.out, .tco, .refs, .pan, .log, .line, .links, .lnk, .rings, .hif, .cnt, .outs]) (s := s) (x := x) ?_ ?_; rotate_left; intro hx; clear_value x; rotate_left; dsimp only [x])
    | ((fail_if_no_progress extract_lets +onlyGivenNames x); refine Only.named (b := x.not) ?_; clear_value x)
    | (fail_if_no_progress extract_lets +onlyGivenNames x)
    | with_reducible apply Only.refl
    | with_reducible assumption
    | (with_reducible apply Only.ite <;> intro _)
    | with_reducible (apply Only.step (M := [.out, .refs, .pan, .log, .line, .links, .rings, .hif, .cnt, .outs]); rotate_left; apply abortTxn_only; decide)
    | with_reducible (apply Only.step (M := [.refs]); rotate_left; apply steerHalt_only; decide)
    | with_reducible (apply Only.step (M := [.refs, .pan]); rotate_left; apply episodeEnd_only; decide)
    | with_reducible (apply Only.step (M := [.refs]); rotate_left; apply endHold_only; decide)
    | with_reducible (apply Only.step (M := [.out, .refs, .pan, .log, .line, .links, .rings, .cnt, .outs]); rotate_left; apply endSettle_only; decide)
    | with_reducible (apply Only.step (M := [.out, .tco, .pan, .log, .line, .links, .rings, .hif, .cnt, .outs]); rotate_left; apply slewAbort_only; decide)
    | with_reducible (apply Only.step (M := [.refs]); rotate_left; apply modRefs_only; decide)
    | with_reducible (apply Only.step (M := [.lnk]); rotate_left; apply keepHops_only; decide)
    | with_reducible (refine Only.sndEq (by assumption) ?_)
    | with_reducible (refine Only.fstEq (by assumption) ?_)
    | dsimp only
    | dsimp +zetaDelta only
    | split
    | (clear_value *; split)

theorem holdNow_only (s : State)  : Only [.out, .tco, .refs, .pan, .log, .line, .links, .rings, .cnt, .outs] s (holdNow s) := by
  unfold holdNow
  repeat' first
    | ((fail_if_no_progress extract_lets +onlyGivenNames x); refine Only.cut (L := [.out, .tco, .refs, .pan, .log, .line, .links, .rings, .cnt, .outs]) (s := s) (x := x) ?_ ?_; rotate_left; intro hx; clear_value x; rotate_left; dsimp only [x])
    | ((fail_if_no_progress extract_lets +onlyGivenNames x); refine Only.named (b := x.not) ?_; clear_value x)
    | (fail_if_no_progress extract_lets +onlyGivenNames x)
    | with_reducible apply Only.refl
    | with_reducible assumption
    | (with_reducible apply Only.ite <;> intro _)
    | with_reducible (apply Only.step (M := [.out, .tco, .refs, .pan, .log, .line, .links, .rings, .cnt, .outs]); rotate_left; apply setWord_only; decide)
    | with_reducible (refine Only.sndEq (by assumption) ?_)
    | with_reducible (refine Only.fstEq (by assumption) ?_)
    | dsimp only
    | dsimp +zetaDelta only
    | split
    | (clear_value *; split)

theorem dropSlot_only (s : State) (h : Fin 16) (cause : Nat)  : Only [.refs, .lnk] s (dropSlot s h cause) := by
  unfold dropSlot
  repeat' first
    | ((fail_if_no_progress extract_lets +onlyGivenNames x); refine Only.cut (L := [.refs, .lnk]) (s := s) (x := x) ?_ ?_; rotate_left; intro hx; clear_value x; rotate_left; dsimp only [x])
    | ((fail_if_no_progress extract_lets +onlyGivenNames x); refine Only.named (b := x.not) ?_; clear_value x)
    | (fail_if_no_progress extract_lets +onlyGivenNames x)
    | with_reducible apply Only.refl
    | with_reducible assumption
    | (with_reducible apply Only.ite <;> intro _)
    | with_reducible (apply Only.step (M := [.refs]); rotate_left; apply modRefs_only; decide)
    | with_reducible (apply Only.step (M := [.lnk]); rotate_left; apply keepHops_only; decide)
    | with_reducible (refine Only.sndEq (by assumption) ?_)
    | with_reducible (refine Only.fstEq (by assumption) ?_)
    | dsimp only
    | dsimp +zetaDelta only
    | split
    | (clear_value *; split)

theorem servoFreq_only (s : State) (i : Fin 16)  : Only [.out, .tco, .refs, .pan, .log, .line, .links, .rings, .cnt, .outs] s (servoFreq s i) := by
  unfold servoFreq
  repeat' first
    | ((fail_if_no_progress extract_lets +onlyGivenNames x); refine Only.cut (L := [.out, .tco, .refs, .pan, .log, .line, .links, .rings, .cnt, .outs]) (s := s) (x := x) ?_ ?_; rotate_left; intro hx; clear_value x; rotate_left; dsimp only [x])
    | ((fail_if_no_progress extract_lets +onlyGivenNames x); refine Only.named (b := x.not) ?_; clear_value x)
    | (fail_if_no_progress extract_lets +onlyGivenNames x)
    | with_reducible apply Only.refl
    | with_reducible assumption
    | (with_reducible apply Only.ite <;> intro _)
    | with_reducible (apply Only.step (M := [.out, .tco, .refs, .pan, .log, .line, .links, .rings, .cnt, .outs]); rotate_left; apply setWord_only; decide)
    | with_reducible (apply Only.step (M := [.refs]); rotate_left; apply modRefs_only; decide)
    | with_reducible (refine Only.sndEq (by assumption) ?_)
    | with_reducible (refine Only.fstEq (by assumption) ?_)
    | dsimp only
    | dsimp +zetaDelta only
    | split
    | (clear_value *; split)

theorem takeHoldWord_only (s : State)  : Only [.out, .tco, .refs, .pan, .log, .line, .links, .rings, .cnt, .outs] s (takeHoldWord s) := by
  unfold takeHoldWord
  repeat' first
    | ((fail_if_no_progress extract_lets +onlyGivenNames x); refine Only.cut (L := [.out, .tco, .refs, .pan, .log, .line, .links, .rings, .cnt, .outs]) (s := s) (x := x) ?_ ?_; rotate_left; intro hx; clear_value x; rotate_left; dsimp only [x])
    | ((fail_if_no_progress extract_lets +onlyGivenNames x); refine Only.named (b := x.not) ?_; clear_value x)
    | (fail_if_no_progress extract_lets +onlyGivenNames x)
    | with_reducible apply Only.refl
    | with_reducible assumption
    | (with_reducible apply Only.ite <;> intro _)
    | with_reducible (apply Only.step (M := [.out, .tco, .refs, .pan, .log, .line, .links, .rings, .cnt, .outs]); rotate_left; apply servoFreq_only; decide)
    | with_reducible (apply Only.step (M := [.out, .tco, .refs, .pan, .log, .line, .links, .rings, .cnt, .outs]); rotate_left; apply holdNow_only; decide)
    | with_reducible (refine Only.sndEq (by assumption) ?_)
    | with_reducible (refine Only.fstEq (by assumption) ?_)
    | dsimp only
    | dsimp +zetaDelta only
    | split
    | (clear_value *; split)

theorem enterHold_only (s : State) (h : Fin 16) (cause : Nat)  : Only [.out, .tco, .refs, .pan, .log, .line, .links, .rings, .cnt, .outs] s (enterHold s h cause) := by
  unfold enterHold
  repeat' first
    | ((fail_if_no_progress extract_lets +onlyGivenNames x); refine Only.cut (L := [.out, .tco, .refs, .pan, .log, .line, .links, .rings, .cnt, .outs]) (s := s) (x := x) ?_ ?_; rotate_left; intro hx; clear_value x; rotate_left; dsimp only [x])
    | ((fail_if_no_progress extract_lets +onlyGivenNames x); refine Only.named (b := x.not) ?_; clear_value x)
    | (fail_if_no_progress extract_lets +onlyGivenNames x)
    | with_reducible apply Only.refl
    | with_reducible assumption
    | (with_reducible apply Only.ite <;> intro _)
    | with_reducible (apply Only.step (M := [.refs]); rotate_left; apply modRefs_only; decide)
    | with_reducible (apply Only.step (M := [.refs]); rotate_left; apply steerHalt_only; decide)
    | with_reducible (apply Only.step (M := [.out, .pan, .log, .line, .links, .rings, .cnt, .outs]); rotate_left; apply emit_only; decide)
    | with_reducible (apply Only.step (M := [.out, .tco, .refs, .pan, .log, .line, .links, .rings, .cnt, .outs]); rotate_left; apply takeHoldWord_only; decide)
    | with_reducible (refine Only.sndEq (by assumption) ?_)
    | with_reducible (refine Only.fstEq (by assumption) ?_)
    | dsimp only
    | dsimp +zetaDelta only
    | split
    | (clear_value *; split)

theorem enterHoldLast_only (s : State) (target : Fin 16)  : Only [.out, .tco, .refs, .pan, .log, .line, .links, .rings, .cnt, .outs] s (enterHoldLast s target) := by
  unfold enterHoldLast
  repeat' first
    | ((fail_if_no_progress extract_lets +onlyGivenNames x); refine Only.cut (L := [.out, .tco, .refs, .pan, .log, .line, .links, .rings, .cnt, .outs]) (s := s) (x := x) ?_ ?_; rotate_left; intro hx; clear_value x; rotate_left; dsimp only [x])
    | ((fail_if_no_progress extract_lets +onlyGivenNames x); refine Only.named (b := x.not) ?_; clear_value x)
    | (fail_if_no_progress extract_lets +onlyGivenNames x)
    | with_reducible apply Only.refl
    | with_reducible assumption
    | (with_reducible apply Only.ite <;> intro _)
    | with_reducible (apply Only.step (M := [.out, .tco, .refs, .pan, .log, .line, .links, .rings, .cnt, .outs]); rotate_left; apply enterHold_only; decide)
    | with_reducible (refine Only.sndEq (by assumption) ?_)
    | with_reducible (refine Only.fstEq (by assumption) ?_)
    | dsimp only
    | dsimp +zetaDelta only
    | split
    | (clear_value *; split)

theorem beginTxn_only (s : State) (t : Fin 16) (o : TxnOrigin)  : Only [.out, .tco, .refs, .pan, .log, .line, .links, .rings, .cnt, .outs] s (beginTxn s t o) := by
  unfold beginTxn
  repeat' first
    | ((fail_if_no_progress extract_lets +onlyGivenNames x); refine Only.cut (L := [.out, .tco, .refs, .pan, .log, .line, .links, .rings, .cnt, .outs]) (s := s) (x := x) ?_ ?_; rotate_left; intro hx; clear_value x; rotate_left; dsimp only [x])
    | ((fail_if_no_progress extract_lets +onlyGivenNames x); refine Only.named (b := x.not) ?_; clear_value x)
    | (fail_if_no_progress extract_lets +onlyGivenNames x)
    | with_reducible apply Only.refl
    | with_reducible assumption
    | (with_reducible apply Only.ite <;> intro _)
    | with_reducible (apply Only.step (M := [.refs]); rotate_left; apply endHold_only; decide)
    | with_reducible (apply Only.step (M := [.out, .refs, .pan, .log, .line, .links, .rings, .cnt, .outs]); rotate_left; apply endSettle_only; decide)
    | with_reducible (apply Only.step (M := [.out, .tco, .refs, .pan, .log, .line, .links, .rings, .cnt, .outs]); rotate_left; apply holdNow_only; decide)
    | with_reducible (apply Only.step (M := [.cnt]); rotate_left; apply perfAdd_only; decide)
    | with_reducible (apply Only.step (M := [.refs]); rotate_left; apply modRefs_only; decide)
    | with_reducible (apply Only.step (M := [.out, .pan, .log, .line, .links, .rings, .cnt, .outs]); rotate_left; apply txnEvent_only; decide)
    | with_reducible (refine Only.sndEq (by assumption) ?_)
    | with_reducible (refine Only.fstEq (by assumption) ?_)
    | dsimp only
    | dsimp +zetaDelta only
    | split
    | (clear_value *; split)

theorem selPrepare_only (s : State) (x : Txn)  : Only [.out, .tco, .refs, .pan, .log, .line, .links, .lnk, .rings, .hif, .cnt, .outs] s (selPrepare s x) := by
  unfold selPrepare
  repeat' first
    | ((fail_if_no_progress extract_lets +onlyGivenNames x); refine Only.cut (L := [.out, .tco, .refs, .pan, .log, .line, .links, .lnk, .rings, .hif, .cnt, .outs]) (s := s) (x := x) ?_ ?_; rotate_left; intro hx; clear_value x; rotate_left; dsimp only [x])
    | ((fail_if_no_progress extract_lets +onlyGivenNames x); refine Only.named (b := x.not) ?_; clear_value x)
    | (fail_if_no_progress extract_lets +onlyGivenNames x)
    | with_reducible apply Only.refl
    | with_reducible assumption
    | (with_reducible apply Only.ite <;> intro _)
    | with_reducible (apply Only.step (M := [.out, .tco, .refs, .pan, .log, .line, .links, .rings, .cnt, .outs]); rotate_left; apply holdNow_only; decide)
    | with_reducible (apply Only.step (M := [.refs, .lnk]); rotate_left; apply dropSlot_only; decide)
    | with_reducible (apply Only.step (M := [.out, .tco, .refs, .pan, .log, .line, .links, .rings, .cnt, .outs]); rotate_left; apply enterHoldLast_only; decide)
    | with_reducible (apply Only.step (M := [.out, .refs, .pan, .log, .line, .links, .rings, .hif, .cnt, .outs]); rotate_left; apply abortTxn_only; decide)
    | with_reducible (apply Only.step (M := [.out, .tco, .refs, .pan, .log, .line, .links, .rings, .cnt, .outs]); rotate_left; apply beginTxn_only; decide)
    | with_reducible (refine Only.sndEq (by assumption) ?_)
    | with_reducible (refine Only.fstEq (by assumption) ?_)
    | dsimp only
    | dsimp +zetaDelta only
    | split
    | (clear_value *; split)

theorem selIdle_only (s : State)  : Only [.out, .tco, .refs, .pan, .log, .line, .links, .lnk, .rings, .cnt, .outs] s (selIdle s) := by
  unfold selIdle
  repeat' first
    | ((fail_if_no_progress extract_lets +onlyGivenNames x); refine Only.cut (L := [.out, .tco, .refs, .pan, .log, .line, .links, .lnk, .rings, .cnt, .outs]) (s := s) (x := x) ?_ ?_; rotate_left; intro hx; clear_value x; rotate_left; dsimp only [x])
    | ((fail_if_no_progress extract_lets +onlyGivenNames x); refine Only.named (b := x.not) ?_; clear_value x)
    | (fail_if_no_progress extract_lets +onlyGivenNames x)
    | with_reducible apply Only.refl
    | with_reducible assumption
    | (with_reducible apply Only.ite <;> intro _)
    | with_reducible (apply Only.step (M := [.refs, .lnk]); rotate_left; apply dropSlot_only; decide)
    | with_reducible (apply Only.step (M := [.out, .refs, .pan, .log, .line, .links, .rings, .cnt, .outs]); rotate_left; apply endSettle_only; decide)
    | with_reducible (apply Only.step (M := [.out, .tco, .refs, .pan, .log, .line, .links, .rings, .cnt, .outs]); rotate_left; apply beginTxn_only; decide)
    | with_reducible (apply Only.step (M := [.out, .tco, .refs, .pan, .log, .line, .links, .rings, .cnt, .outs]); rotate_left; apply enterHold_only; decide)
    | with_reducible (apply Only.step (M := [.out, .tco, .refs, .pan, .log, .line, .links, .rings, .cnt, .outs]); rotate_left; apply takeHoldWord_only; decide)
    | with_reducible (refine Only.sndEq (by assumption) ?_)
    | with_reducible (refine Only.fstEq (by assumption) ?_)
    | dsimp only
    | dsimp +zetaDelta only
    | split
    | (clear_value *; split)

theorem selEval_only (s : State)  : Only [.out, .tco, .refs, .pan, .log, .line, .links, .lnk, .rings, .hif, .cnt, .outs] s (selEval s) := by
  unfold selEval
  repeat' first
    | ((fail_if_no_progress extract_lets +onlyGivenNames x); refine Only.cut (L := [.out, .tco, .refs, .pan, .log, .line, .links, .lnk, .rings, .hif, .cnt, .outs]) (s := s) (x := x) ?_ ?_; rotate_left; intro hx; clear_value x; rotate_left; dsimp only [x])
    | ((fail_if_no_progress extract_lets +onlyGivenNames x); refine Only.named (b := x.not) ?_; clear_value x)
    | (fail_if_no_progress extract_lets +onlyGivenNames x)
    | with_reducible apply Only.refl
    | with_reducible assumption
    | (with_reducible apply Only.ite <;> intro _)
    | with_reducible (apply Only.step (M := [.out, .tco, .refs, .pan, .log, .line, .links, .rings, .cnt, .outs]); rotate_left; apply selPost_only; decide)
    | with_reducible (apply Only.step (M := [.out, .tco, .refs, .pan, .log, .line, .links, .lnk, .rings, .hif, .cnt, .outs]); rotate_left; apply selOff_only; decide)
    | with_reducible (apply Only.step (M := [.refs]); rotate_left; apply modRefs_only; decide)
    | with_reducible (apply Only.step (M := [.out, .tco, .refs, .pan, .log, .line, .links, .lnk, .rings, .hif, .cnt, .outs]); rotate_left; apply selPrepare_only; decide)
    | with_reducible (apply Only.step (M := [.out, .tco, .refs, .pan, .log, .line, .links, .lnk, .rings, .cnt, .outs]); rotate_left; apply selIdle_only; decide)
    | with_reducible (refine Only.sndEq (by assumption) ?_)
    | with_reducible (refine Only.fstEq (by assumption) ?_)
    | dsimp only
    | dsimp +zetaDelta only
    | split
    | (clear_value *; split)

theorem modSlot_only (s : State) (i : Fin 16) (f : Slot → Slot)  : Only [.refs] s (modSlot s i f) := by
  unfold modSlot
  repeat' first
    | ((fail_if_no_progress extract_lets +onlyGivenNames x); refine Only.cut (L := [.refs]) (s := s) (x := x) ?_ ?_; rotate_left; intro hx; clear_value x; rotate_left; dsimp only [x])
    | ((fail_if_no_progress extract_lets +onlyGivenNames x); refine Only.named (b := x.not) ?_; clear_value x)
    | (fail_if_no_progress extract_lets +onlyGivenNames x)
    | with_reducible apply Only.refl
    | with_reducible assumption
    | (with_reducible apply Only.ite <;> intro _)
    | with_reducible (apply Only.step (M := [.refs]); rotate_left; apply modRefs_only; decide)
    | with_reducible (refine Only.sndEq (by assumption) ?_)
    | with_reducible (refine Only.fstEq (by assumption) ?_)
    | dsimp only
    | dsimp +zetaDelta only
    | split
    | (clear_value *; split)

theorem slotQual_only (s : State) (i : Fin 16) (on : Bool) (cause : Nat)  : Only [.out, .pan, .log, .line, .links, .rings, .cnt, .outs] s (slotQual s i on cause) := by
  unfold slotQual
  repeat' first
    | ((fail_if_no_progress extract_lets +onlyGivenNames x); refine Only.cut (L := [.out, .pan, .log, .line, .links, .rings, .cnt, .outs]) (s := s) (x := x) ?_ ?_; rotate_left; intro hx; clear_value x; rotate_left; dsimp only [x])
    | ((fail_if_no_progress extract_lets +onlyGivenNames x); refine Only.named (b := x.not) ?_; clear_value x)
    | (fail_if_no_progress extract_lets +onlyGivenNames x)
    | with_reducible apply Only.refl
    | with_reducible assumption
    | (with_reducible apply Only.ite <;> intro _)
    | with_reducible (apply Only.step (M := [.out, .pan, .log, .line, .links, .rings, .cnt, .outs]); rotate_left; apply emit_only; decide)
    | with_reducible (refine Only.sndEq (by assumption) ?_)
    | with_reducible (refine Only.fstEq (by assumption) ?_)
    | dsimp only
    | dsimp +zetaDelta only
    | split
    | (clear_value *; split)

theorem gnssTrack_only (s : State)  : Only [.pan] s (gnssTrack s) := by
  unfold gnssTrack
  repeat' first
    | ((fail_if_no_progress extract_lets +onlyGivenNames x); refine Only.cut (L := [.pan]) (s := s) (x := x) ?_ ?_; rotate_left; intro hx; clear_value x; rotate_left; dsimp only [x])
    | ((fail_if_no_progress extract_lets +onlyGivenNames x); refine Only.named (b := x.not) ?_; clear_value x)
    | (fail_if_no_progress extract_lets +onlyGivenNames x)
    | with_reducible apply Only.refl
    | with_reducible assumption
    | (with_reducible apply Only.ite <;> intro _)
    | with_reducible (apply Only.step (M := [.pan]); rotate_left; apply modFig_only; decide)
    | (fail_if_no_progress (with_reducible (apply Only.step (M := [.pan]); rotate_left; apply set_pan_only; decide)))
    | with_reducible (refine Only.sndEq (by assumption) ?_)
    | with_reducible (refine Only.fstEq (by assumption) ?_)
    | dsimp only
    | dsimp +zetaDelta only
    | split
    | (clear_value *; split)

theorem disqualify_only (s : State) (i : Fin 16) (cause : Nat)  : Only [.out, .refs, .pan, .log, .line, .links, .rings, .cnt, .outs] s (disqualify s i cause) := by
  unfold disqualify
  repeat' first
    | ((fail_if_no_progress extract_lets +onlyGivenNames x); refine Only.cut (L := [.out, .refs, .pan, .log, .line, .links, .rings, .cnt, .outs]) (s := s) (x := x) ?_ ?_; rotate_left; intro hx; clear_value x; rotate_left; dsimp only [x])
    | ((fail_if_no_progress extract_lets +onlyGivenNames x); refine Only.named (b := x.not) ?_; clear_value x)
    | (fail_if_no_progress extract_lets +onlyGivenNames x)
    | with_reducible apply Only.refl
    | with_reducible assumption
    | (with_reducible apply Only.ite <;> intro _)
    | with_reducible (apply Only.step (M := [.out, .pan, .log, .line, .links, .rings, .cnt, .outs]); rotate_left; apply slotQual_only; decide)
    | with_reducible (apply Only.step (M := [.refs]); rotate_left; apply modSlot_only; decide)
    | with_reducible (apply Only.step (M := [.pan]); rotate_left; apply gnssTrack_only; decide)
    | with_reducible (refine Only.sndEq (by assumption) ?_)
    | with_reducible (refine Only.fstEq (by assumption) ?_)
    | dsimp only
    | dsimp +zetaDelta only
    | split
    | (clear_value *; split)

theorem judge_only (s : State) (i : Fin 16)  : Only [.out, .refs, .pan, .log, .line, .links, .rings, .cnt, .outs] s (judge s i) := by
  unfold judge
  repeat' first
    | ((fail_if_no_progress extract_lets +onlyGivenNames x); refine Only.cut (L := [.out, .refs, .pan, .log, .line, .links, .rings, .cnt, .outs]) (s := s) (x := x) ?_ ?_; rotate_left; intro hx; clear_value x; rotate_left; dsimp only [x])
    | ((fail_if_no_progress extract_lets +onlyGivenNames x); refine Only.named (b := x.not) ?_; clear_value x)
    | (fail_if_no_progress extract_lets +onlyGivenNames x)
    | with_reducible apply Only.refl
    | with_reducible assumption
    | (with_reducible apply Only.ite <;> intro _)
    | with_reducible (apply Only.step (M := [.refs]); rotate_left; apply modSlot_only; decide)
    | with_reducible (apply Only.step (M := [.out, .refs, .pan, .log, .line, .links, .rings, .cnt, .outs]); rotate_left; apply disqualify_only; decide)
    | with_reducible (refine Only.sndEq (by assumption) ?_)
    | with_reducible (refine Only.fstEq (by assumption) ?_)
    | dsimp only
    | dsimp +zetaDelta only
    | split
    | (clear_value *; split)

theorem activity_only (s : State) (i : Fin 16) (latch : Nat)  : Only [.refs] s (activity s i latch) := by
  unfold activity
  repeat' first
    | ((fail_if_no_progress extract_lets +onlyGivenNames x); refine Only.cut (L := [.refs]) (s := s) (x := x) ?_ ?_; rotate_left; intro hx; clear_value x; rotate_left; dsimp only [x])
    | ((fail_if_no_progress extract_lets +onlyGivenNames x); refine Only.named (b := x.not) ?_; clear_value x)
    | (fail_if_no_progress extract_lets +onlyGivenNames x)
    | with_reducible apply Only.refl
    | with_reducible assumption
    | (with_reducible apply Only.ite <;> intro _)
    | with_reducible (apply Only.step (M := [.refs]); rotate_left; apply modSlot_only; decide)
    | with_reducible (refine Only.sndEq (by assumption) ?_)
    | with_reducible (refine Only.fstEq (by assumption) ?_)
    | dsimp only
    | dsimp +zetaDelta only
    | split
    | (clear_value *; split)

theorem active__only (s : State) (i : Fin 16) (latch : Nat)  : Only [.out, .tco, .refs, .pan, .log, .line, .links, .lnk, .rings, .hif, .cnt, .outs] s (active_ s i latch) := by
  unfold active_
  repeat' first
    | ((fail_if_no_progress extract_lets +onlyGivenNames x); refine Only.cut (L := [.out, .tco, .refs, .pan, .log, .line, .links, .lnk, .rings, .hif, .cnt, .outs]) (s := s) (x := x) ?_ ?_; rotate_left; intro hx; clear_value x; rotate_left; dsimp only [x])
    | ((fail_if_no_progress extract_lets +onlyGivenNames x); refine Only.named (b := x.not) ?_; clear_value x)
    | (fail_if_no_progress extract_lets +onlyGivenNames x)
    | with_reducible apply Only.refl
    | with_reducible assumption
    | (with_reducible apply Only.ite <;> intro _)
    | with_reducible (apply Only.step (M := [.out, .tco, .refs, .pan, .log, .line, .links, .lnk, .rings, .hif, .cnt, .outs]); rotate_left; apply selEval_only; decide)
    | with_reducible (apply Only.step (M := [.out, .refs, .pan, .log, .line, .links, .rings, .cnt, .outs]); rotate_left; apply judge_only; decide)
    | with_reducible (apply Only.step (M := [.refs]); rotate_left; apply activity_only; decide)
    | with_reducible (refine Only.sndEq (by assumption) ?_)
    | with_reducible (refine Only.fstEq (by assumption) ?_)
    | dsimp only
    | dsimp +zetaDelta only
    | split
    | (clear_value *; split)

theorem advertise_only (s : State) (i : Fin 16) (r : BitVec 8)  : Only [.out, .tco, .refs, .pan, .log, .line, .links, .lnk, .rings, .hif, .cnt, .outs] s (advertise s i r) := by
  unfold advertise
  repeat' first
    | ((fail_if_no_progress extract_lets +onlyGivenNames x); refine Only.cut (L := [.out, .tco, .refs, .pan, .log, .line, .links, .lnk, .rings, .hif, .cnt, .outs]) (s := s) (x := x) ?_ ?_; rotate_left; intro hx; clear_value x; rotate_left; dsimp only [x])
    | ((fail_if_no_progress extract_lets +onlyGivenNames x); refine Only.named (b := x.not) ?_; clear_value x)
    | (fail_if_no_progress extract_lets +onlyGivenNames x)
    | with_reducible apply Only.refl
    | with_reducible assumption
    | (with_reducible apply Only.ite <;> intro _)
    | with_reducible (apply Only.step (M := [.out, .tco, .refs, .pan, .log, .line, .links, .lnk, .rings, .hif, .cnt, .outs]); rotate_left; apply selEval_only; decide)
    | with_reducible (apply Only.step (M := [.out, .refs, .pan, .log, .line, .links, .rings, .cnt, .outs]); rotate_left; apply judge_only; decide)
    | with_reducible (apply Only.step (M := [.refs]); rotate_left; apply modSlot_only; decide)
    | with_reducible (refine Only.sndEq (by assumption) ?_)
    | with_reducible (refine Only.fstEq (by assumption) ?_)
    | dsimp only
    | dsimp +zetaDelta only
    | split
    | (clear_value *; split)

theorem uartOut_only (s : State) (data : List Byte)  : Only [.out] s (uartOut s data) := by
  unfold uartOut
  repeat' first
    | ((fail_if_no_progress extract_lets +onlyGivenNames x); refine Only.cut (L := [.out]) (s := s) (x := x) ?_ ?_; rotate_left; intro hx; clear_value x; rotate_left; dsimp only [x])
    | ((fail_if_no_progress extract_lets +onlyGivenNames x); refine Only.named (b := x.not) ?_; clear_value x)
    | (fail_if_no_progress extract_lets +onlyGivenNames x)
    | with_reducible apply Only.refl
    | with_reducible assumption
    | (with_reducible apply Only.ite <;> intro _)
    | with_reducible (apply Only.step (M := [.out]); rotate_left; apply emitOut_only; decide)
    | with_reducible (refine Only.sndEq (by assumption) ?_)
    | with_reducible (refine Only.fstEq (by assumption) ?_)
    | dsimp only
    | dsimp +zetaDelta only
    | split
    | (clear_value *; split)

theorem codeInForce_only (s : State) (code : Int)  : Only [.refs] s (codeInForce s code) := by
  unfold codeInForce
  repeat' first
    | ((fail_if_no_progress extract_lets +onlyGivenNames x); refine Only.cut (L := [.refs]) (s := s) (x := x) ?_ ?_; rotate_left; intro hx; clear_value x; rotate_left; dsimp only [x])
    | ((fail_if_no_progress extract_lets +onlyGivenNames x); refine Only.named (b := x.not) ?_; clear_value x)
    | (fail_if_no_progress extract_lets +onlyGivenNames x)
    | with_reducible apply Only.refl
    | with_reducible assumption
    | (with_reducible apply Only.ite <;> intro _)
    | with_reducible (apply Only.step (M := [.refs]); rotate_left; apply clogMark_only; decide)
    | with_reducible (apply Only.step (M := [.refs]); rotate_left; apply modRefs_only; decide)
    | with_reducible (refine Only.sndEq (by assumption) ?_)
    | with_reducible (refine Only.fstEq (by assumption) ?_)
    | dsimp only
    | dsimp +zetaDelta only
    | split
    | (clear_value *; split)

theorem steerDone_only (s : State) (host : Option Hdr)  : Only [.hif] s (steerDone s host) := by
  unfold steerDone
  repeat' first
    | ((fail_if_no_progress extract_lets +onlyGivenNames x); refine Only.cut (L := [.hif]) (s := s) (x := x) ?_ ?_; rotate_left; intro hx; clear_value x; rotate_left; dsimp only [x])
    | ((fail_if_no_progress extract_lets +onlyGivenNames x); refine Only.named (b := x.not) ?_; clear_value x)
    | (fail_if_no_progress extract_lets +onlyGivenNames x)
    | with_reducible apply Only.refl
    | with_reducible assumption
    | (with_reducible apply Only.ite <;> intro _)
    | with_reducible (apply Only.step (M := [.hif]); rotate_left; apply fin_only; decide)
    | with_reducible (refine Only.sndEq (by assumption) ?_)
    | with_reducible (refine Only.fstEq (by assumption) ?_)
    | dsimp only
    | dsimp +zetaDelta only
    | split
    | (clear_value *; split)

theorem sendSet_only (s : State) (code : Int) (host : Option Hdr) (resent : Bool)  : Only [.out, .refs, .hif] s (sendSet s code host resent) := by
  unfold sendSet
  repeat' first
    | ((fail_if_no_progress extract_lets +onlyGivenNames x); refine Only.cut (L := [.out, .refs, .hif]) (s := s) (x := x) ?_ ?_; rotate_left; intro hx; clear_value x; rotate_left; dsimp only [x])
    | ((fail_if_no_progress extract_lets +onlyGivenNames x); refine Only.named (b := x.not) ?_; clear_value x)
    | (fail_if_no_progress extract_lets +onlyGivenNames x)
    | with_reducible apply Only.refl
    | with_reducible assumption
    | (with_reducible apply Only.ite <;> intro _)
    | with_reducible (apply Only.step (M := [.out]); rotate_left; apply uartOut_only; decide)
    | with_reducible (apply Only.step (M := [.refs]); rotate_left; apply codeInForce_only; decide)
    | with_reducible (apply Only.step (M := [.hif]); rotate_left; apply steerDone_only; decide)
    | with_reducible (apply Only.step (M := [.refs]); rotate_left; apply modRefs_only; decide)
    | with_reducible (refine Only.sndEq (by assumption) ?_)
    | with_reducible (refine Only.fstEq (by assumption) ?_)
    | dsimp only
    | dsimp +zetaDelta only
    | split
    | (clear_value *; split)

theorem sendInit_only (s : State) (code : Int) (host : Option Hdr) (resent : Bool)  : Only [.out, .refs, .hif] s (sendInit s code host resent) := by
  unfold sendInit
  repeat' first
    | ((fail_if_no_progress extract_lets +onlyGivenNames x); refine Only.cut (L := [.out, .refs, .hif]) (s := s) (x := x) ?_ ?_; rotate_left; intro hx; clear_value x; rotate_left; dsimp only [x])
    | ((fail_if_no_progress extract_lets +onlyGivenNames x); refine Only.named (b := x.not) ?_; clear_value x)
    | (fail_if_no_progress extract_lets +onlyGivenNames x)
    | with_reducible apply Only.refl
    | with_reducible assumption
    | (with_reducible apply Only.ite <;> intro _)
    | with_reducible (apply Only.step (M := [.out]); rotate_left; apply uartOut_only; decide)
    | with_reducible (apply Only.step (M := [.out, .refs, .hif]); rotate_left; apply sendSet_only; decide)
    | with_reducible (apply Only.step (M := [.refs]); rotate_left; apply modRefs_only; decide)
    | with_reducible (refine Only.sndEq (by assumption) ?_)
    | with_reducible (refine Only.fstEq (by assumption) ?_)
    | dsimp only
    | dsimp +zetaDelta only
    | split
    | (clear_value *; split)

theorem sendCode_only (s : State) (code : Int) (host : Option Hdr)  : Only [.out, .refs, .hif, .cnt] s (sendCode s code host) := by
  unfold sendCode
  repeat' first
    | ((fail_if_no_progress extract_lets +onlyGivenNames x); refine Only.cut (L := [.out, .refs, .hif, .cnt]) (s := s) (x := x) ?_ ?_; rotate_left; intro hx; clear_value x; rotate_left; dsimp only [x])
    | ((fail_if_no_progress extract_lets +onlyGivenNames x); refine Only.named (b := x.not) ?_; clear_value x)
    | (fail_if_no_progress extract_lets +onlyGivenNames x)
    | with_reducible apply Only.refl
    | with_reducible assumption
    | (with_reducible apply Only.ite <;> intro _)
    | with_reducible (apply Only.step (M := [.cnt]); rotate_left; apply perfAdd_only; decide)
    | with_reducible (apply Only.step (M := [.out, .refs, .hif]); rotate_left; apply sendInit_only; decide)
    | with_reducible (apply Only.step (M := [.out, .refs, .hif]); rotate_left; apply sendSet_only; decide)
    | with_reducible (apply Only.step (M := [.hif]); rotate_left; apply steerDone_only; decide)
    | with_reducible (apply Only.step (M := [.out]); rotate_left; apply emitOut_only; decide)
    | with_reducible (apply Only.step (M := [.refs]); rotate_left; apply codeInForce_only; decide)
    | with_reducible (refine Only.sndEq (by assumption) ?_)
    | with_reducible (refine Only.fstEq (by assumption) ?_)
    | dsimp only
    | dsimp +zetaDelta only
    | split
    | (clear_value *; split)

theorem oscDrain_only (a1 : Nat) (a2 : State)  : Only [.out, .refs, .hif, .cnt] a2 (oscDrain a1 a2) := by
  induction a1 generalizing a2 with
  | zero => unfold oscDrain; exact Only.refl _ _
  | succ n ih =>
    unfold oscDrain
    repeat' first
      | ((fail_if_no_progress extract_lets +onlyGivenNames x); refine Only.cut (L := [.out, .refs, .hif, .cnt]) (s := a2) (x := x) ?_ ?_; rotate_left; intro hx; clear_value x; rotate_left; dsimp only [x])
      | ((fail_if_no_progress extract_lets +onlyGivenNames x); refine Only.named (b := x.not) ?_; clear_value x)
      | (fail_if_no_progress extract_lets +onlyGivenNames x)
      | with_reducible apply Only.refl
      | with_reducible assumption
      | (with_reducible (apply Only.step; rotate_left; apply ih; exact (fun _ h => h)))
      | (with_reducible apply Only.ite <;> intro _)
      | with_reducible (apply Only.step (M := [.hif]); rotate_left; apply fin_only; decide)
      | with_reducible (apply Only.step (M := [.refs]); rotate_left; apply modRefs_only; decide)
      | with_reducible (apply Only.step (M := [.out, .refs, .hif, .cnt]); rotate_left; apply sendCode_only; decide)
      | with_reducible (refine Only.sndEq (by assumption) ?_)
      | with_reducible (refine Only.fstEq (by assumption) ?_)
      | dsimp only
      | dsimp +zetaDelta only
      | split
      | (clear_value *; split)

theorem oscTurn_only (s : State)  : Only [.out, .refs, .hif, .cnt] s (oscTurn s) := by
  unfold oscTurn
  repeat' first
    | ((fail_if_no_progress extract_lets +onlyGivenNames x); refine Only.cut (L := [.out, .refs, .hif, .cnt]) (s := s) (x := x) ?_ ?_; rotate_left; intro hx; clear_value x; rotate_left; dsimp only [x])
    | ((fail_if_no_progress extract_lets +onlyGivenNames x); refine Only.named (b := x.not) ?_; clear_value x)
    | (fail_if_no_progress extract_lets +onlyGivenNames x)
    | with_reducible apply Only.refl
    | with_reducible assumption
    | (with_reducible apply Only.ite <;> intro _)
    | with_reducible (apply Only.step (M := [.out, .refs, .hif, .cnt]); rotate_left; apply oscDrain_only; decide)
    | with_reducible (refine Only.sndEq (by assumption) ?_)
    | with_reducible (refine Only.fstEq (by assumption) ?_)
    | dsimp only
    | dsimp +zetaDelta only
    | split
    | (clear_value *; split)

theorem slotGone_only (s : State) (i : Fin 16) (cause : Nat)  : Only [.out, .tco, .refs, .pan, .log, .line, .links, .lnk, .rings, .hif, .cnt, .outs] s (slotGone s i cause) := by
  unfold slotGone
  repeat' first
    | ((fail_if_no_progress extract_lets +onlyGivenNames x); refine Only.cut (L := [.out, .tco, .refs, .pan, .log, .line, .links, .lnk, .rings, .hif, .cnt, .outs]) (s := s) (x := x) ?_ ?_; rotate_left; intro hx; clear_value x; rotate_left; dsimp only [x])
    | ((fail_if_no_progress extract_lets +onlyGivenNames x); refine Only.named (b := x.not) ?_; clear_value x)
    | (fail_if_no_progress extract_lets +onlyGivenNames x)
    | with_reducible apply Only.refl
    | with_reducible assumption
    | (with_reducible apply Only.ite <;> intro _)
    | with_reducible (apply Only.step (M := [.out, .refs, .pan, .log, .line, .links, .rings, .cnt, .outs]); rotate_left; apply disqualify_only; decide)
    | with_reducible (apply Only.step (M := [.out, .tco, .refs, .pan, .log, .line, .links, .lnk, .rings, .hif, .cnt, .outs]); rotate_left; apply selEval_only; decide)
    | with_reducible (apply Only.step (M := [.refs]); rotate_left; apply modSlot_only; decide)
    | with_reducible (refine Only.sndEq (by assumption) ?_)
    | with_reducible (refine Only.fstEq (by assumption) ?_)
    | dsimp only
    | dsimp +zetaDelta only
    | split
    | (clear_value *; split)

theorem slotWritten_only (s : State) (i : Fin 16) (w : Nat) (old : Word)  : Only [.out, .tco, .refs, .pan, .log, .line, .links, .lnk, .rings, .hif, .cnt, .outs] s (slotWritten s i w old) := by
  unfold slotWritten
  repeat' first
    | ((fail_if_no_progress extract_lets +onlyGivenNames x); refine Only.cut (L := [.out, .tco, .refs, .pan, .log, .line, .links, .lnk, .rings, .hif, .cnt, .outs]) (s := s) (x := x) ?_ ?_; rotate_left; intro hx; clear_value x; rotate_left; dsimp only [x])
    | ((fail_if_no_progress extract_lets +onlyGivenNames x); refine Only.named (b := x.not) ?_; clear_value x)
    | (fail_if_no_progress extract_lets +onlyGivenNames x)
    | with_reducible apply Only.refl
    | with_reducible assumption
    | (with_reducible apply Only.ite <;> intro _)
    | with_reducible (apply Only.step (M := [.out, .tco, .refs, .pan, .log, .line, .links, .lnk, .rings, .hif, .cnt, .outs]); rotate_left; apply slotGone_only; decide)
    | with_reducible (apply Only.step (M := [.out, .tco, .refs, .pan, .log, .line, .links, .lnk, .rings, .hif, .cnt, .outs]); rotate_left; apply selEval_only; decide)
    | with_reducible (apply Only.step (M := [.out, .refs, .pan, .log, .line, .links, .rings, .cnt, .outs]); rotate_left; apply judge_only; decide)
    | with_reducible (apply Only.step (M := [.out, .pan, .log, .line, .links, .rings, .cnt, .outs]); rotate_left; apply emit_only; decide)
    | with_reducible (refine Only.sndEq (by assumption) ?_)
    | with_reducible (refine Only.fstEq (by assumption) ?_)
    | dsimp only
    | dsimp +zetaDelta only
    | split
    | (clear_value *; split)

theorem holdExit_only (s : State) (t : Fin 16)  : Only [.out, .refs, .pan, .log, .line, .links, .rings, .cnt, .outs] s (holdExit s t) := by
  unfold holdExit
  repeat' first
    | ((fail_if_no_progress extract_lets +onlyGivenNames x); refine Only.cut (L := [.out, .refs, .pan, .log, .line, .links, .rings, .cnt, .outs]) (s := s) (x := x) ?_ ?_; rotate_left; intro hx; clear_value x; rotate_left; dsimp only [x])
    | ((fail_if_no_progress extract_lets +onlyGivenNames x); refine Only.named (b := x.not) ?_; clear_value x)
    | (fail_if_no_progress extract_lets +onlyGivenNames x)
    | with_reducible apply Only.refl
    | with_reducible assumption
    | (with_reducible apply Only.ite <;> intro _)
    | with_reducible (apply Only.step (M := [.out, .pan, .log, .line, .links, .rings, .cnt, .outs]); rotate_left; apply emit_only; decide)
    | with_reducible (apply Only.step (M := [.refs, .pan]); rotate_left; apply episodeEnd_only; decide)
    | with_reducible (refine Only.sndEq (by assumption) ?_)
    | with_reducible (refine Only.fstEq (by assumption) ?_)
    | dsimp only
    | dsimp +zetaDelta only
    | split
    | (clear_value *; split)

theorem commitTxn_only (s : State) (x : Txn) (delta : Int) (bound : Nat)  : Only [.out, .tco, .refs, .gbb, .pan, .log, .line, .pair, .links, .rings, .hif, .cnt, .perf, .outs, .tio] s (commitTxn s x delta bound) := by
  unfold commitTxn
  repeat' first
    | ((fail_if_no_progress extract_lets +onlyGivenNames x); refine Only.cut (L := [.out, .tco, .refs, .gbb, .pan, .log, .line, .pair, .links, .rings, .hif, .cnt, .perf, .outs, .tio]) (s := s) (x := x) ?_ ?_; rotate_left; intro hx; clear_value x; rotate_left; dsimp only [x])
    | ((fail_if_no_progress extract_lets +onlyGivenNames x); refine Only.named (b := x.not) ?_; clear_value x)
    | (fail_if_no_progress extract_lets +onlyGivenNames x)
    | with_reducible apply Only.refl
    | with_reducible assumption
    | (with_reducible apply Only.ite <;> intro _)
    | with_reducible (apply Only.step (M := [.out, .refs, .pan, .log, .line, .links, .rings, .hif, .cnt, .outs]); rotate_left; apply abortTxn_only; decide)
    | with_reducible (apply Only.step (M := [.out, .tco, .pan, .log, .line, .links, .rings, .hif, .cnt, .outs]); rotate_left; apply slewAbort_only; decide)
    | with_reducible (apply Only.step (M := [.refs]); rotate_left; apply modRefs_only; decide)
    | with_reducible (apply Only.step (M := [.out, .pan, .log, .line, .links, .rings, .cnt, .outs]); rotate_left; apply txnEvent_only; decide)
    | with_reducible (apply Only.step (M := [.out, .pan, .log, .line, .links, .rings, .cnt, .outs]); rotate_left; apply emit_only; decide)
    | with_reducible (apply Only.step (M := [.refs]); rotate_left; apply modSlot_only; decide)
    | with_reducible (apply Only.step (M := [.out, .tco, .pan, .log, .line, .links, .rings, .cnt, .outs]); rotate_left; apply slewStart_only; decide)
    | with_reducible (apply Only.step (M := [.out, .tco, .gbb, .pan, .log, .line, .pair, .links, .rings, .hif, .cnt, .perf, .outs, .tio]); rotate_left; apply applyStep_only; decide)
    | with_reducible (apply Only.step (M := [.tco]); rotate_left; apply lawFrom_only; decide)
    | with_reducible (apply Only.step (M := [.out, .tco, .pan, .log, .line, .links, .rings, .cnt, .outs]); rotate_left; apply tebExceed_only; decide)
    | with_reducible (apply Only.step (M := [.out, .refs, .pan, .log, .line, .links, .rings, .cnt, .outs]); rotate_left; apply holdExit_only; decide)
    | with_reducible (apply Only.step (M := [.hif]); rotate_left; apply complete_only; decide)
    | with_reducible (apply Only.step (M := [.hif]); rotate_left; apply finTs_only; decide)
    | with_reducible (apply Only.step (M := [.hif]); rotate_left; apply fin_only; decide)
    | with_reducible (refine Only.sndEq (by assumption) ?_)
    | with_reducible (refine Only.fstEq (by assumption) ?_)
    | dsimp only
    | dsimp +zetaDelta only
    | split
    | (clear_value *; split)

theorem monitored_only (s : State) (i : Fin 16) (m : Meas)  : Only [.out, .refs, .pan, .log, .line, .links, .rings, .cnt, .outs] s (monitored s i m) := by
  unfold monitored
  repeat' first
    | ((fail_if_no_progress extract_lets +onlyGivenNames x); refine Only.cut (L := [.out, .refs, .pan, .log, .line, .links, .rings, .cnt, .outs]) (s := s) (x := x) ?_ ?_; rotate_left; intro hx; clear_value x; rotate_left; dsimp only [x])
    | ((fail_if_no_progress extract_lets +onlyGivenNames x); refine Only.named (b := x.not) ?_; clear_value x)
    | (fail_if_no_progress extract_lets +onlyGivenNames x)
    | with_reducible apply Only.refl
    | with_reducible assumption
    | (with_reducible apply Only.ite <;> intro _)
    | with_reducible (apply Only.step (M := [.refs]); rotate_left; apply activity_only; decide)
    | with_reducible (apply Only.step (M := [.refs]); rotate_left; apply modSlot_only; decide)
    | with_reducible (apply Only.step (M := [.refs]); rotate_left; apply modRefs_only; decide)
    | with_reducible (apply Only.step (M := [.out, .refs, .pan, .log, .line, .links, .rings, .cnt, .outs]); rotate_left; apply judge_only; decide)
    | with_reducible (refine Only.sndEq (by assumption) ?_)
    | with_reducible (refine Only.fstEq (by assumption) ?_)
    | dsimp only
    | dsimp +zetaDelta only
    | split
    | (clear_value *; split)

theorem tryCommit_only (s : State)  : Only [.out, .tco, .refs, .gbb, .pan, .log, .line, .pair, .links, .lnk, .rings, .hif, .cnt, .perf, .outs, .tio] s (tryCommit s) := by
  unfold tryCommit
  repeat' first
    | ((fail_if_no_progress extract_lets +onlyGivenNames x); refine Only.cut (L := [.out, .tco, .refs, .gbb, .pan, .log, .line, .pair, .links, .lnk, .rings, .hif, .cnt, .perf, .outs, .tio]) (s := s) (x := x) ?_ ?_; rotate_left; intro hx; clear_value x; rotate_left; dsimp only [x])
    | ((fail_if_no_progress extract_lets +onlyGivenNames x); refine Only.named (b := x.not) ?_; clear_value x)
    | (fail_if_no_progress extract_lets +onlyGivenNames x)
    | with_reducible apply Only.refl
    | with_reducible assumption
    | (with_reducible apply Only.ite <;> intro _)
    | with_reducible (apply Only.step (M := [.out, .tco, .refs, .pan, .log, .line, .links, .lnk, .rings, .hif, .cnt, .outs]); rotate_left; apply selEval_only; decide)
    | with_reducible (apply Only.step (M := [.out, .tco, .refs, .pan, .log, .line, .links, .rings, .cnt, .outs]); rotate_left; apply selPost_only; decide)
    | with_reducible (apply Only.step (M := [.out, .tco, .refs, .gbb, .pan, .log, .line, .pair, .links, .rings, .hif, .cnt, .perf, .outs, .tio]); rotate_left; apply commitTxn_only; decide)
    | with_reducible (apply Only.step (M := [.refs]); rotate_left; apply modRefs_only; decide)
    | with_reducible (refine Only.sndEq (by assumption) ?_)
    | with_reducible (refine Only.fstEq (by assumption) ?_)
    | dsimp only
    | dsimp +zetaDelta only
    | split
    | (clear_value *; split)

theorem servoPhase_only (s : State) (off : Int) (ticks : Nat)  : Only [.out, .tco, .refs, .pan, .log, .line, .links, .rings, .cnt, .outs] s (servoPhase s off ticks) := by
  unfold servoPhase
  repeat' first
    | ((fail_if_no_progress extract_lets +onlyGivenNames x); refine Only.cut (L := [.out, .tco, .refs, .pan, .log, .line, .links, .rings, .cnt, .outs]) (s := s) (x := x) ?_ ?_; rotate_left; intro hx; clear_value x; rotate_left; dsimp only [x])
    | ((fail_if_no_progress extract_lets +onlyGivenNames x); refine Only.named (b := x.not) ?_; clear_value x)
    | (fail_if_no_progress extract_lets +onlyGivenNames x)
    | with_reducible apply Only.refl
    | with_reducible assumption
    | (with_reducible apply Only.ite <;> intro _)
    | with_reducible (apply Only.step (M := [.out, .tco, .refs, .pan, .log, .line, .links, .rings, .cnt, .outs]); rotate_left; apply setWord_only; decide)
    | with_reducible (apply Only.step (M := [.refs]); rotate_left; apply modRefs_only; decide)
    | with_reducible (refine Only.sndEq (by assumption) ?_)
    | with_reducible (refine Only.fstEq (by assumption) ?_)
    | dsimp only
    | dsimp +zetaDelta only
    | split
    | (clear_value *; split)

theorem measure_only (s : State) (i : Fin 16) (off : Int) (latch : Nat) (bound : Nat) (valid : Bool)  : Only [.free, .out, .tco, .refs, .gbb, .pan, .log, .line, .pair, .links, .lnk, .rings, .hif, .cnt, .perf, .outs, .tio] s (Sys2Proof.Machine.measure s i off latch bound valid) := by
  unfold Sys2Proof.Machine.measure
  repeat' first
    | ((fail_if_no_progress extract_lets +onlyGivenNames x); refine Only.cut (L := [.free, .out, .tco, .refs, .gbb, .pan, .log, .line, .pair, .links, .lnk, .rings, .hif, .cnt, .perf, .outs, .tio]) (s := s) (x := x) ?_ ?_; rotate_left; intro hx; clear_value x; rotate_left; dsimp only [x])
    | ((fail_if_no_progress extract_lets +onlyGivenNames x); refine Only.named (b := x.not) ?_; clear_value x)
    | (fail_if_no_progress extract_lets +onlyGivenNames x)
    | with_reducible apply Only.refl
    | with_reducible assumption
    | (with_reducible apply Only.ite <;> intro _)
    | with_reducible (apply Only.step (M := [.cnt]); rotate_left; apply perfAdd_only; decide)
    | with_reducible (apply Only.step (M := [.refs]); rotate_left; apply modSlot_only; decide)
    | with_reducible (apply Only.step (M := [.out, .tco, .refs, .pan, .log, .line, .links, .lnk, .rings, .hif, .cnt, .outs]); rotate_left; apply active__only; decide)
    | with_reducible (apply Only.step (M := [.out, .refs, .pan, .log, .line, .links, .rings, .cnt, .outs]); rotate_left; apply monitored_only; decide)
    | with_reducible (apply Only.step (M := [.refs]); rotate_left; apply modRefs_only; decide)
    | with_reducible (apply Only.step (M := [.out, .tco, .refs, .pan, .log, .line, .links, .lnk, .rings, .hif, .cnt, .outs]); rotate_left; apply selEval_only; decide)
    | with_reducible (apply Only.step (M := [.out, .tco, .refs, .gbb, .pan, .log, .line, .pair, .links, .lnk, .rings, .hif, .cnt, .perf, .outs, .tio]); rotate_left; apply tryCommit_only; decide)
    | with_reducible (apply Only.step (M := [.out, .tco, .refs, .pan, .log, .line, .links, .rings, .cnt, .outs]); rotate_left; apply servoPhase_only; decide)
    | with_reducible (apply Only.step (M := [.free]); rotate_left; exact freeI_only_eq ‹_›; decide)
    | with_reducible (apply Only.step (M := [.free]); rotate_left; apply freeI_only; decide)
    | with_reducible (apply Only.step (M := [.out, .tco, .refs, .pan, .log, .line, .links, .rings, .cnt, .outs]); rotate_left; apply contract_only; decide)
    | with_reducible (refine Only.sndEq (by assumption) ?_)
    | with_reducible (refine Only.fstEq (by assumption) ?_)
    | dsimp only
    | dsimp +zetaDelta only
    | split
    | (clear_value *; split)

theorem lapse_only (s : State) (i : Fin 16)  : Only [.out, .tco, .refs, .pan, .log, .line, .links, .lnk, .rings, .hif, .cnt, .outs] s (lapse s i) := by
  unfold lapse
  repeat' first
    | ((fail_if_no_progress extract_lets +onlyGivenNames x); refine Only.cut (L := [.out, .tco, .refs, .pan, .log, .line, .links, .lnk, .rings, .hif, .cnt, .outs]) (s := s) (x := x) ?_ ?_; rotate_left; intro hx; clear_value x; rotate_left; dsimp only [x])
    | ((fail_if_no_progress extract_lets +onlyGivenNames x); refine Only.named (b := x.not) ?_; clear_value x)
    | (fail_if_no_progress extract_lets +onlyGivenNames x)
    | with_reducible apply Only.refl
    | with_reducible assumption
    | (with_reducible apply Only.ite <;> intro _)
    | with_reducible (apply Only.step (M := [.out, .tco, .refs, .pan, .log, .line, .links, .lnk, .rings, .hif, .cnt, .outs]); rotate_left; apply selEval_only; decide)
    | with_reducible (apply Only.step (M := [.out, .refs, .pan, .log, .line, .links, .rings, .cnt, .outs]); rotate_left; apply judge_only; decide)
    | with_reducible (apply Only.step (M := [.refs]); rotate_left; apply modSlot_only; decide)
    | with_reducible (refine Only.sndEq (by assumption) ?_)
    | with_reducible (refine Only.fstEq (by assumption) ?_)
    | dsimp only
    | dsimp +zetaDelta only
    | split
    | (clear_value *; split)

theorem freqCount_only (s : State) (i : Fin 16) (y : Int)  : Only [.refs] s (freqCount s i y) := by
  unfold freqCount
  repeat' first
    | ((fail_if_no_progress extract_lets +onlyGivenNames x); refine Only.cut (L := [.refs]) (s := s) (x := x) ?_ ?_; rotate_left; intro hx; clear_value x; rotate_left; dsimp only [x])
    | ((fail_if_no_progress extract_lets +onlyGivenNames x); refine Only.named (b := x.not) ?_; clear_value x)
    | (fail_if_no_progress extract_lets +onlyGivenNames x)
    | with_reducible apply Only.refl
    | with_reducible assumption
    | (with_reducible apply Only.ite <;> intro _)
    | with_reducible (apply Only.step (M := [.refs]); rotate_left; apply activity_only; decide)
    | with_reducible (apply Only.step (M := [.refs]); rotate_left; apply modSlot_only; decide)
    | with_reducible (refine Only.sndEq (by assumption) ?_)
    | with_reducible (refine Only.fstEq (by assumption) ?_)
    | dsimp only
    | dsimp +zetaDelta only
    | split
    | (clear_value *; split)

theorem monitorSlot_only (s : State) (i : Fin 16)  : Only [.out, .refs, .pan, .log, .line, .links, .rings, .cnt, .outs] s (monitorSlot s i) := by
  unfold monitorSlot
  repeat' first
    | ((fail_if_no_progress extract_lets +onlyGivenNames x); refine Only.cut (L := [.out, .refs, .pan, .log, .line, .links, .rings, .cnt, .outs]) (s := s) (x := x) ?_ ?_; rotate_left; intro hx; clear_value x; rotate_left; dsimp only [x])
    | ((fail_if_no_progress extract_lets +onlyGivenNames x); refine Only.named (b := x.not) ?_; clear_value x)
    | (fail_if_no_progress extract_lets +onlyGivenNames x)
    | with_reducible apply Only.refl
    | with_reducible assumption
    | (with_reducible apply Only.ite <;> intro _)
    | with_reducible (apply Only.step (M := [.refs]); rotate_left; apply modSlot_only; decide)
    | with_reducible (apply Only.step (M := [.out, .refs, .pan, .log, .line, .links, .rings, .cnt, .outs]); rotate_left; apply judge_only; decide)
    | with_reducible (refine Only.sndEq (by assumption) ?_)
    | with_reducible (refine Only.fstEq (by assumption) ?_)
    | dsimp only
    | dsimp +zetaDelta only
    | split
    | (clear_value *; split)

theorem monitors_only (s : State) (ppt : List (Fin 16 × Int))  : Only [.out, .tco, .refs, .pan, .log, .line, .links, .lnk, .rings, .hif, .cnt, .outs] s (monitors s ppt) := by
  unfold monitors
  repeat' first
    | ((fail_if_no_progress extract_lets +onlyGivenNames x); refine Only.cut (L := [.out, .tco, .refs, .pan, .log, .line, .links, .lnk, .rings, .hif, .cnt, .outs]) (s := s) (x := x) ?_ ?_; rotate_left; intro hx; clear_value x; rotate_left; dsimp only [x])
    | ((fail_if_no_progress extract_lets +onlyGivenNames x); refine Only.named (b := x.not) ?_; clear_value x)
    | (fail_if_no_progress extract_lets +onlyGivenNames x)
    | (with_reducible apply Only.foldl; (intro _ _ _))
    | (with_reducible apply Only.foldlFst; (intro _ _ _))
    | with_reducible apply Only.refl
    | with_reducible assumption
    | (with_reducible apply Only.ite <;> intro _)
    | with_reducible (apply Only.step (M := [.refs]); rotate_left; apply modRefs_only; decide)
    | with_reducible (apply Only.step (M := [.refs]); rotate_left; apply freqCount_only; decide)
    | with_reducible (apply Only.step (M := [.out, .tco, .refs, .pan, .log, .line, .links, .lnk, .rings, .hif, .cnt, .outs]); rotate_left; apply selEval_only; decide)
    | with_reducible (apply Only.step (M := [.out, .refs, .pan, .log, .line, .links, .rings, .cnt, .outs]); rotate_left; apply monitorSlot_only; decide)
    | with_reducible (refine Only.sndEq (by assumption) ?_)
    | with_reducible (refine Only.fstEq (by assumption) ?_)
    | dsimp only
    | dsimp +zetaDelta only
    | split
    | (clear_value *; split)

theorem lossFirst_only (s : State)  : Only [.out, .tco, .refs, .pan, .log, .line, .links, .lnk, .rings, .hif, .cnt, .outs] s (lossFirst s) := by
  unfold lossFirst
  repeat' first
    | ((fail_if_no_progress extract_lets +onlyGivenNames x); refine Only.cut (L := [.out, .tco, .refs, .pan, .log, .line, .links, .lnk, .rings, .hif, .cnt, .outs]) (s := s) (x := x) ?_ ?_; rotate_left; intro hx; clear_value x; rotate_left; dsimp only [x])
    | ((fail_if_no_progress extract_lets +onlyGivenNames x); refine Only.named (b := x.not) ?_; clear_value x)
    | (fail_if_no_progress extract_lets +onlyGivenNames x)
    | (with_reducible apply Only.foldl; (intro _ _ _))
    | (with_reducible apply Only.foldlFst; (intro _ _ _))
    | with_reducible apply Only.refl
    | with_reducible assumption
    | (with_reducible apply Only.ite <;> intro _)
    | with_reducible (apply Only.step (M := [.out, .tco, .refs, .pan, .log, .line, .links, .lnk, .rings, .hif, .cnt, .outs]); rotate_left; apply lapse_only; decide)
    | with_reducible (apply Only.step (M := [.out, .tco, .refs, .pan, .log, .line, .links, .lnk, .rings, .hif, .cnt, .outs]); rotate_left; apply monitors_only; decide)
    | with_reducible (refine Only.sndEq (by assumption) ?_)
    | with_reducible (refine Only.fstEq (by assumption) ?_)
    | dsimp only
    | dsimp +zetaDelta only
    | split
    | (clear_value *; split)

theorem qualify_only (s : State) (i : Fin 16)  : Only [.out, .refs, .pan, .log, .line, .links, .rings, .cnt, .outs] s (qualify s i) := by
  unfold qualify
  repeat' first
    | ((fail_if_no_progress extract_lets +onlyGivenNames x); refine Only.cut (L := [.out, .refs, .pan, .log, .line, .links, .rings, .cnt, .outs]) (s := s) (x := x) ?_ ?_; rotate_left; intro hx; clear_value x; rotate_left; dsimp only [x])
    | ((fail_if_no_progress extract_lets +onlyGivenNames x); refine Only.named (b := x.not) ?_; clear_value x)
    | (fail_if_no_progress extract_lets +onlyGivenNames x)
    | with_reducible apply Only.refl
    | with_reducible assumption
    | (with_reducible apply Only.ite <;> intro _)
    | with_reducible (apply Only.step (M := [.pan]); rotate_left; apply gnssTrack_only; decide)
    | with_reducible (apply Only.step (M := [.out, .pan, .log, .line, .links, .rings, .cnt, .outs]); rotate_left; apply slotQual_only; decide)
    | with_reducible (apply Only.step (M := [.refs]); rotate_left; apply modSlot_only; decide)
    | with_reducible (refine Only.sndEq (by assumption) ?_)
    | with_reducible (refine Only.fstEq (by assumption) ?_)
    | dsimp only
    | dsimp +zetaDelta only
    | split
    | (clear_value *; split)

theorem steerSend_only (s : State) (code : Int) (clamped : Bool)  : Only [.out, .refs, .pan, .log, .line, .links, .rings, .hif, .cnt, .outs] s (steerSend s code clamped) := by
  unfold steerSend
  repeat' first
    | ((fail_if_no_progress extract_lets +onlyGivenNames x); refine Only.cut (L := [.out, .refs, .pan, .log, .line, .links, .rings, .hif, .cnt, .outs]) (s := s) (x := x) ?_ ?_; rotate_left; intro hx; clear_value x; rotate_left; dsimp only [x])
    | ((fail_if_no_progress extract_lets +onlyGivenNames x); refine Only.named (b := x.not) ?_; clear_value x)
    | (fail_if_no_progress extract_lets +onlyGivenNames x)
    | with_reducible apply Only.refl
    | with_reducible assumption
    | (with_reducible apply Only.ite <;> intro _)
    | with_reducible (apply Only.step (M := [.out, .refs, .hif, .cnt]); rotate_left; apply sendCode_only; decide)
    | with_reducible (apply Only.step (M := [.out, .pan, .log, .line, .links, .rings, .cnt, .outs]); rotate_left; apply emit_only; decide)
    | with_reducible (refine Only.sndEq (by assumption) ?_)
    | with_reducible (refine Only.fstEq (by assumption) ?_)
    | dsimp only
    | dsimp +zetaDelta only
    | split
    | (clear_value *; split)

theorem steerUpdate_only (s : State)  : Only [.out, .refs, .pan, .log, .line, .links, .rings, .hif, .cnt, .outs] s (steerUpdate s) := by
  unfold steerUpdate
  repeat' first
    | ((fail_if_no_progress extract_lets +onlyGivenNames x); refine Only.cut (L := [.out, .refs, .pan, .log, .line, .links, .rings, .hif, .cnt, .outs]) (s := s) (x := x) ?_ ?_; rotate_left; intro hx; clear_value x; rotate_left; dsimp only [x])
    | ((fail_if_no_progress extract_lets +onlyGivenNames x); refine Only.named (b := x.not) ?_; clear_value x)
    | (fail_if_no_progress extract_lets +onlyGivenNames x)
    | with_reducible apply Only.refl
    | with_reducible assumption
    | (with_reducible apply Only.ite <;> intro _)
    | with_reducible (apply Only.step (M := [.out, .pan, .log, .line, .links, .rings, .cnt, .outs]); rotate_left; apply emit_only; decide)
    | with_reducible (apply Only.step (M := [.refs]); rotate_left; apply modRefs_only; decide)
    | with_reducible (apply Only.step (M := [.out, .refs, .hif, .cnt]); rotate_left; apply sendCode_only; decide)
    | with_reducible (apply Only.step (M := [.out, .refs, .pan, .log, .line, .links, .rings, .hif, .cnt, .outs]); rotate_left; apply steerSend_only; decide)
    | with_reducible (refine Only.sndEq (by assumption) ?_)
    | with_reducible (refine Only.fstEq (by assumption) ?_)
    | dsimp only
    | dsimp +zetaDelta only
    | split
    | (clear_value *; split)

theorem steerFail_only (s : State) (u : UartWait) (timeout : Bool)  : Only [.out, .refs, .pan, .log, .line, .links, .rings, .hif, .cnt, .outs] s (steerFail s u timeout) := by
  unfold steerFail
  repeat' first
    | ((fail_if_no_progress extract_lets +onlyGivenNames x); refine Only.cut (L := [.out, .refs, .pan, .log, .line, .links, .rings, .hif, .cnt, .outs]) (s := s) (x := x) ?_ ?_; rotate_left; intro hx; clear_value x; rotate_left; dsimp only [x])
    | ((fail_if_no_progress extract_lets +onlyGivenNames x); refine Only.named (b := x.not) ?_; clear_value x)
    | (fail_if_no_progress extract_lets +onlyGivenNames x)
    | with_reducible apply Only.refl
    | with_reducible assumption
    | (with_reducible apply Only.ite <;> intro _)
    | with_reducible (apply Only.step (M := [.refs]); rotate_left; apply modRefs_only; decide)
    | with_reducible (apply Only.step (M := [.out, .pan, .log, .line, .links, .rings, .cnt, .outs]); rotate_left; apply emit_only; decide)
    | with_reducible (apply Only.step (M := [.hif]); rotate_left; apply fin_only; decide)
    | with_reducible (refine Only.sndEq (by assumption) ?_)
    | with_reducible (refine Only.fstEq (by assumption) ?_)
    | dsimp only
    | dsimp +zetaDelta only
    | split
    | (clear_value *; split)

theorem steerMiss_only (s : State) (u : UartWait) (timeout : Bool)  : Only [.out, .refs, .pan, .log, .line, .links, .rings, .hif, .cnt, .outs] s (steerMiss s u timeout) := by
  unfold steerMiss
  repeat' first
    | ((fail_if_no_progress extract_lets +onlyGivenNames x); refine Only.cut (L := [.out, .refs, .pan, .log, .line, .links, .rings, .hif, .cnt, .outs]) (s := s) (x := x) ?_ ?_; rotate_left; intro hx; clear_value x; rotate_left; dsimp only [x])
    | ((fail_if_no_progress extract_lets +onlyGivenNames x); refine Only.named (b := x.not) ?_; clear_value x)
    | (fail_if_no_progress extract_lets +onlyGivenNames x)
    | with_reducible apply Only.refl
    | with_reducible assumption
    | (with_reducible apply Only.ite <;> intro _)
    | with_reducible (apply Only.step (M := [.out, .refs, .pan, .log, .line, .links, .rings, .hif, .cnt, .outs]); rotate_left; apply steerFail_only; decide)
    | with_reducible (apply Only.step (M := [.out, .refs, .hif]); rotate_left; apply sendInit_only; decide)
    | with_reducible (apply Only.step (M := [.out, .refs, .hif]); rotate_left; apply sendSet_only; decide)
    | with_reducible (refine Only.sndEq (by assumption) ?_)
    | with_reducible (refine Only.fstEq (by assumption) ?_)
    | dsimp only
    | dsimp +zetaDelta only
    | split
    | (clear_value *; split)

theorem masterChange_only (s : State) (i : Fin 16)  : Only [.out, .tco, .refs, .pan, .log, .line, .links, .lnk, .rings, .hif, .cnt, .outs] s (masterChange s i) := by
  unfold masterChange
  repeat' first
    | ((fail_if_no_progress extract_lets +onlyGivenNames x); refine Only.cut (L := [.out, .tco, .refs, .pan, .log, .line, .links, .lnk, .rings, .hif, .cnt, .outs]) (s := s) (x := x) ?_ ?_; rotate_left; intro hx; clear_value x; rotate_left; dsimp only [x])
    | ((fail_if_no_progress extract_lets +onlyGivenNames x); refine Only.named (b := x.not) ?_; clear_value x)
    | (fail_if_no_progress extract_lets +onlyGivenNames x)
    | with_reducible apply Only.refl
    | with_reducible assumption
    | (with_reducible apply Only.ite <;> intro _)
    | with_reducible (apply Only.step (M := [.refs]); rotate_left; apply modSlot_only; decide)
    | with_reducible (apply Only.step (M := [.out, .pan, .log, .line, .links, .rings, .cnt, .outs]); rotate_left; apply emit_only; decide)
    | with_reducible (apply Only.step (M := [.cnt]); rotate_left; apply perfAdd_only; decide)
    | with_reducible (apply Only.step (M := [.out, .pan, .log, .line, .links, .rings, .cnt, .outs]); rotate_left; apply txnEvent_only; decide)
    | with_reducible (apply Only.step (M := [.out, .tco, .refs, .pan, .log, .line, .links, .rings, .cnt, .outs]); rotate_left; apply selPost_only; decide)
    | with_reducible (apply Only.step (M := [.out, .tco, .refs, .pan, .log, .line, .links, .rings, .cnt, .outs]); rotate_left; apply beginTxn_only; decide)
    | with_reducible (apply Only.step (M := [.out, .refs, .pan, .log, .line, .links, .rings, .hif, .cnt, .outs]); rotate_left; apply abortTxn_only; decide)
    | with_reducible (apply Only.step (M := [.out, .refs, .pan, .log, .line, .links, .rings, .cnt, .outs]); rotate_left; apply disqualify_only; decide)
    | with_reducible (apply Only.step (M := [.out, .tco, .refs, .pan, .log, .line, .links, .lnk, .rings, .hif, .cnt, .outs]); rotate_left; apply selEval_only; decide)
    | with_reducible (apply Only.step (M := [.out, .refs, .pan, .log, .line, .links, .rings, .cnt, .outs]); rotate_left; apply judge_only; decide)
    | with_reducible (refine Only.sndEq (by assumption) ?_)
    | with_reducible (refine Only.fstEq (by assumption) ?_)
    | dsimp only
    | dsimp +zetaDelta only
    | split
    | (clear_value *; split)

theorem refsSafe_only (s : State)  : Only [.out, .tco, .refs, .pan, .log, .line, .links, .lnk, .rings, .hif, .cnt, .outs] s (refsSafe s) := by
  unfold refsSafe
  repeat' first
    | ((fail_if_no_progress extract_lets +onlyGivenNames x); refine Only.cut (L := [.out, .tco, .refs, .pan, .log, .line, .links, .lnk, .rings, .hif, .cnt, .outs]) (s := s) (x := x) ?_ ?_; rotate_left; intro hx; clear_value x; rotate_left; dsimp only [x])
    | ((fail_if_no_progress extract_lets +onlyGivenNames x); refine Only.named (b := x.not) ?_; clear_value x)
    | (fail_if_no_progress extract_lets +onlyGivenNames x)
    | with_reducible apply Only.refl
    | with_reducible assumption
    | (with_reducible apply Only.ite <;> intro _)
    | with_reducible (apply Only.step (M := [.refs]); rotate_left; apply modRefs_only; decide)
    | with_reducible (apply Only.step (M := [.out, .tco, .refs, .pan, .log, .line, .links, .lnk, .rings, .hif, .cnt, .outs]); rotate_left; apply selEval_only; decide)
    | with_reducible (apply Only.step (M := [.out, .tco, .refs, .pan, .log, .line, .links, .rings, .cnt, .outs]); rotate_left; apply holdNow_only; decide)
    | with_reducible (refine Only.sndEq (by assumption) ?_)
    | with_reducible (refine Only.fstEq (by assumption) ?_)
    | dsimp only
    | dsimp +zetaDelta only
    | split
    | (clear_value *; split)

end Sys2Proof.Laws
end

