-- ==== Sys2Proof/Laws/EthOps.lean ====
section
/-! SUPPORT. What each operation of Machine/EthOps.lean can touch, once for each. -/
set_option linter.unusedTactic false
set_option linter.unreachableTactic false
namespace Sys2Proof.Laws
open Sys2Proof
open Sys2Proof.Machine
open Sys2Proof.Safety

theorem modSvc_only (s : State) (f : Svc → Svc)  : Only [.svc] s (modSvc s f) := by
  unfold modSvc
  repeat' first
    | ((fail_if_no_progress extract_lets +onlyGivenNames x); refine Only.cut (L := [.svc]) (s := s) (x := x) ?_ ?_; rotate_left; intro hx; clear_value x; rotate_left; dsimp only [x])
    | ((fail_if_no_progress extract_lets +onlyGivenNames x); refine Only.named (b := x.not) ?_; clear_value x)
    | (fail_if_no_progress extract_lets +onlyGivenNames x)
    | with_reducible apply Only.refl
    | with_reducible assumption
    | (with_reducible apply Only.ite <;> intro _)
    | (fail_if_no_progress (with_reducible (apply Only.step (M := [.svc]); rotate_left; apply set_svc_only; decide)))
    | with_reducible (refine Only.sndEq (by assumption) ?_)
    | with_reducible (refine Only.fstEq (by assumption) ?_)
    | dsimp only
    | dsimp +zetaDelta only
    | split
    | (clear_value *; split)

theorem svcCount_only (s : State) (code : Nat) (n : Nat)  : Only [.svc, .cnt] s (svcCount s code n) := by
  unfold svcCount
  repeat' first
    | ((fail_if_no_progress extract_lets +onlyGivenNames x); refine Only.cut (L := [.svc, .cnt]) (s := s) (x := x) ?_ ?_; rotate_left; intro hx; clear_value x; rotate_left; dsimp only [x])
    | ((fail_if_no_progress extract_lets +onlyGivenNames x); refine Only.named (b := x.not) ?_; clear_value x)
    | (fail_if_no_progress extract_lets +onlyGivenNames x)
    | with_reducible apply Only.refl
    | with_reducible assumption
    | (with_reducible apply Only.ite <;> intro _)
    | with_reducible (apply Only.step (M := [.cnt]); rotate_left; apply perfAdd_only; decide)
    | with_reducible (apply Only.step (M := [.svc]); rotate_left; apply modSvc_only; decide)
    | with_reducible (refine Only.sndEq (by assumption) ?_)
    | with_reducible (refine Only.fstEq (by assumption) ?_)
    | dsimp only
    | dsimp +zetaDelta only
    | split
    | (clear_value *; split)

theorem modPort_only (s : State) (p_ : Fin 9) (f : EthPort → EthPort)  : Only [.eth] s (modPort s p_ f) := by
  unfold modPort
  repeat' first
    | ((fail_if_no_progress extract_lets +onlyGivenNames x); refine Only.cut (L := [.eth]) (s := s) (x := x) ?_ ?_; rotate_left; intro hx; clear_value x; rotate_left; dsimp only [x])
    | ((fail_if_no_progress extract_lets +onlyGivenNames x); refine Only.named (b := x.not) ?_; clear_value x)
    | (fail_if_no_progress extract_lets +onlyGivenNames x)
    | with_reducible apply Only.refl
    | with_reducible assumption
    | (with_reducible apply Only.ite <;> intro _)
    | (fail_if_no_progress (with_reducible (apply Only.step (M := [.eth]); rotate_left; apply set_eth_only; decide)))
    | with_reducible (refine Only.sndEq (by assumption) ?_)
    | with_reducible (refine Only.fstEq (by assumption) ?_)
    | dsimp only
    | dsimp +zetaDelta only
    | split
    | (clear_value *; split)

theorem wdUpdate_only (s : State) (p_ : Fin 9)  : Only [.eth] s (wdUpdate s p_) := by
  unfold wdUpdate
  repeat' first
    | ((fail_if_no_progress extract_lets +onlyGivenNames x); refine Only.cut (L := [.eth]) (s := s) (x := x) ?_ ?_; rotate_left; intro hx; clear_value x; rotate_left; dsimp only [x])
    | ((fail_if_no_progress extract_lets +onlyGivenNames x); refine Only.named (b := x.not) ?_; clear_value x)
    | (fail_if_no_progress extract_lets +onlyGivenNames x)
    | with_reducible apply Only.refl
    | with_reducible assumption
    | (with_reducible apply Only.ite <;> intro _)
    | with_reducible (apply Only.step (M := [.eth]); rotate_left; apply modPort_only; decide)
    | with_reducible (refine Only.sndEq (by assumption) ?_)
    | with_reducible (refine Only.fstEq (by assumption) ?_)
    | dsimp only
    | dsimp +zetaDelta only
    | split
    | (clear_value *; split)

theorem modPtp_only (s : State) (f : Ptp → Ptp)  : Only [.ptp] s (modPtp s f) := by
  unfold modPtp
  repeat' first
    | ((fail_if_no_progress extract_lets +onlyGivenNames x); refine Only.cut (L := [.ptp]) (s := s) (x := x) ?_ ?_; rotate_left; intro hx; clear_value x; rotate_left; dsimp only [x])
    | ((fail_if_no_progress extract_lets +onlyGivenNames x); refine Only.named (b := x.not) ?_; clear_value x)
    | (fail_if_no_progress extract_lets +onlyGivenNames x)
    | with_reducible apply Only.refl
    | with_reducible assumption
    | (with_reducible apply Only.ite <;> intro _)
    | (fail_if_no_progress (with_reducible (apply Only.step (M := [.ptp]); rotate_left; apply set_ptp_only; decide)))
    | with_reducible (refine Only.sndEq (by assumption) ?_)
    | with_reducible (refine Only.fstEq (by assumption) ?_)
    | dsimp only
    | dsimp +zetaDelta only
    | split
    | (clear_value *; split)

theorem modInst_only (s : State) (i : Fin 16) (f : Inst → Inst)  : Only [.ptp] s (modInst s i f) := by
  unfold modInst
  repeat' first
    | ((fail_if_no_progress extract_lets +onlyGivenNames x); refine Only.cut (L := [.ptp]) (s := s) (x := x) ?_ ?_; rotate_left; intro hx; clear_value x; rotate_left; dsimp only [x])
    | ((fail_if_no_progress extract_lets +onlyGivenNames x); refine Only.named (b := x.not) ?_; clear_value x)
    | (fail_if_no_progress extract_lets +onlyGivenNames x)
    | with_reducible apply Only.refl
    | with_reducible assumption
    | (with_reducible apply Only.ite <;> intro _)
    | (fail_if_no_progress (with_reducible (apply Only.step (M := [.ptp]); rotate_left; apply set_ptp_only; decide)))
    | with_reducible (refine Only.sndEq (by assumption) ?_)
    | with_reducible (refine Only.fstEq (by assumption) ?_)
    | dsimp only
    | dsimp +zetaDelta only
    | split
    | (clear_value *; split)

theorem afterEgress_only (s : State) (p_ : Fin 9) (x : TxFrame) (m : PtpMsg) (st : Int) (teb : BitVec 32)  : Only [.ptp] s (afterEgress s p_ x m st teb) := by
  unfold afterEgress
  repeat' first
    | ((fail_if_no_progress extract_lets +onlyGivenNames x); refine Only.cut (L := [.ptp]) (s := s) (x := x) ?_ ?_; rotate_left; intro hx; clear_value x; rotate_left; dsimp only [x])
    | ((fail_if_no_progress extract_lets +onlyGivenNames x); refine Only.named (b := x.not) ?_; clear_value x)
    | (fail_if_no_progress extract_lets +onlyGivenNames x)
    | with_reducible apply Only.refl
    | with_reducible assumption
    | (with_reducible apply Only.ite <;> intro _)
    | with_reducible (apply Only.step (M := [.ptp]); rotate_left; apply modPtp_only; decide)
    | with_reducible (apply Only.step (M := [.ptp]); rotate_left; apply modInst_only; decide)
    | with_reducible (refine Only.sndEq (by assumption) ?_)
    | with_reducible (refine Only.fstEq (by assumption) ?_)
    | dsimp only
    | dsimp +zetaDelta only
    | split
    | (clear_value *; split)

theorem ptpCount_only (s : State) (code : Nat) (n : Nat)  : Only [.ptp, .cnt] s (ptpCount s code n) := by
  unfold ptpCount
  repeat' first
    | ((fail_if_no_progress extract_lets +onlyGivenNames x); refine Only.cut (L := [.ptp, .cnt]) (s := s) (x := x) ?_ ?_; rotate_left; intro hx; clear_value x; rotate_left; dsimp only [x])
    | ((fail_if_no_progress extract_lets +onlyGivenNames x); refine Only.named (b := x.not) ?_; clear_value x)
    | (fail_if_no_progress extract_lets +onlyGivenNames x)
    | with_reducible apply Only.refl
    | with_reducible assumption
    | (with_reducible apply Only.ite <;> intro _)
    | with_reducible (apply Only.step (M := [.cnt]); rotate_left; apply perfAdd_only; decide)
    | with_reducible (apply Only.step (M := [.ptp]); rotate_left; apply modPtp_only; decide)
    | with_reducible (refine Only.sndEq (by assumption) ?_)
    | with_reducible (refine Only.fstEq (by assumption) ?_)
    | dsimp only
    | dsimp +zetaDelta only
    | split
    | (clear_value *; split)

theorem ethCnt_only (s : State) (p_ : Fin 9) (i : Nat) (n : Nat)  : Only [.eth] s (ethCnt s p_ i n) := by
  unfold ethCnt
  repeat' first
    | ((fail_if_no_progress extract_lets +onlyGivenNames x); refine Only.cut (L := [.eth]) (s := s) (x := x) ?_ ?_; rotate_left; intro hx; clear_value x; rotate_left; dsimp only [x])
    | ((fail_if_no_progress extract_lets +onlyGivenNames x); refine Only.named (b := x.not) ?_; clear_value x)
    | (fail_if_no_progress extract_lets +onlyGivenNames x)
    | with_reducible apply Only.refl
    | with_reducible assumption
    | (with_reducible apply Only.ite <;> intro _)
    | with_reducible (apply Only.step (M := [.eth]); rotate_left; apply modPort_only; decide)
    | with_reducible (refine Only.sndEq (by assumption) ?_)
    | with_reducible (refine Only.fstEq (by assumption) ?_)
    | dsimp only
    | dsimp +zetaDelta only
    | split
    | (clear_value *; split)

theorem behindM_only (s : State) (p_ : Fin 9)  : Only [.eth] s (behindM s p_) := by
  unfold behindM
  repeat' first
    | ((fail_if_no_progress extract_lets +onlyGivenNames x); refine Only.cut (L := [.eth]) (s := s) (x := x) ?_ ?_; rotate_left; intro hx; clear_value x; rotate_left; dsimp only [x])
    | ((fail_if_no_progress extract_lets +onlyGivenNames x); refine Only.named (b := x.not) ?_; clear_value x)
    | (fail_if_no_progress extract_lets +onlyGivenNames x)
    | with_reducible apply Only.refl
    | with_reducible assumption
    | (with_reducible apply Only.ite <;> intro _)
    | with_reducible (apply Only.step (M := [.eth]); rotate_left; apply ethCnt_only; decide)
    | with_reducible (refine Only.sndEq (by assumption) ?_)
    | with_reducible (refine Only.fstEq (by assumption) ?_)
    | dsimp only
    | dsimp +zetaDelta only
    | split
    | (clear_value *; split)

theorem outFrame_only (s : State) (p_ : Fin 9) (f : EthFrame)  : Only [.out] s (outFrame s p_ f) := by
  unfold outFrame
  repeat' first
    | ((fail_if_no_progress extract_lets +onlyGivenNames x); refine Only.cut (L := [.out]) (s := s) (x := x) ?_ ?_; rotate_left; intro hx; clear_value x; rotate_left; dsimp only [x])
    | ((fail_if_no_progress extract_lets +onlyGivenNames x); refine Only.named (b := x.not) ?_; clear_value x)
    | (fail_if_no_progress extract_lets +onlyGivenNames x)
    | with_reducible apply Only.refl
    | with_reducible assumption
    | (with_reducible apply Only.ite <;> intro _)
    | with_reducible (apply Only.step (M := [.out]); rotate_left; apply emitOut_only; decide)
    | with_reducible (refine Only.sndEq (by assumption) ?_)
    | with_reducible (refine Only.fstEq (by assumption) ?_)
    | dsimp only
    | dsimp +zetaDelta only
    | split
    | (clear_value *; split)

theorem txStamp_only (s : State) (p_ : Fin 9) (id : BitVec 16) (ts : BitVec 128)  : Only [.out, .eth, .pan, .log, .line, .links, .rings, .cnt, .outs] s (txStamp s p_ id ts) := by
  unfold txStamp
  repeat' first
    | ((fail_if_no_progress extract_lets +onlyGivenNames x); refine Only.cut (L := [.out, .eth, .pan, .log, .line, .links, .rings, .cnt, .outs]) (s := s) (x := x) ?_ ?_; rotate_left; intro hx; clear_value x; rotate_left; dsimp only [x])
    | ((fail_if_no_progress extract_lets +onlyGivenNames x); refine Only.named (b := x.not) ?_; clear_value x)
    | (fail_if_no_progress extract_lets +onlyGivenNames x)
    | with_reducible apply Only.refl
    | with_reducible assumption
    | (with_reducible apply Only.ite <;> intro _)
    | with_reducible (apply Only.step (M := [.eth]); rotate_left; apply ethCnt_only; decide)
    | with_reducible (apply Only.step (M := [.eth]); rotate_left; apply modPort_only; decide)
    | with_reducible (apply Only.step (M := [.out, .pan, .log, .line, .links, .rings, .cnt, .outs]); rotate_left; apply emit_only; decide)
    | with_reducible (refine Only.sndEq (by assumption) ?_)
    | with_reducible (refine Only.fstEq (by assumption) ?_)
    | dsimp only
    | dsimp +zetaDelta only
    | split
    | (clear_value *; split)

theorem hostTxDone_only (s : State) (r : Fin 2) (idx : BitVec 32) (st : BitVec 8)  : Only [.out, .links, .rings, .cnt] s (hostTxDone s r idx st) := by
  unfold hostTxDone
  repeat' first
    | ((fail_if_no_progress extract_lets +onlyGivenNames x); refine Only.cut (L := [.out, .links, .rings, .cnt]) (s := s) (x := x) ?_ ?_; rotate_left; intro hx; clear_value x; rotate_left; dsimp only [x])
    | ((fail_if_no_progress extract_lets +onlyGivenNames x); refine Only.named (b := x.not) ?_; clear_value x)
    | (fail_if_no_progress extract_lets +onlyGivenNames x)
    | with_reducible apply Only.refl
    | with_reducible assumption
    | (with_reducible apply Only.ite <;> intro _)
    | with_reducible (apply Only.step (M := [.out, .links, .cnt]); rotate_left; apply hostDma_only; decide)
    | with_reducible (apply Only.step (M := [.out, .links, .rings, .cnt]); rotate_left; apply ringNotifyAt_only; decide)
    | with_reducible (refine Only.sndEq (by assumption) ?_)
    | with_reducible (refine Only.fstEq (by assumption) ?_)
    | dsimp only
    | dsimp +zetaDelta only
    | split
    | (clear_value *; split)

theorem egress_only (s : State) (p_ : Fin 9) (t : Bool) (x : TxFrame)  : Only [.free, .out, .ptp, .eth, .pan, .log, .line, .links, .rings, .cnt, .outs] s (egress s p_ t x) := by
  unfold egress
  repeat' first
    | ((fail_if_no_progress extract_lets +onlyGivenNames x); refine Only.cut (L := [.free, .out, .ptp, .eth, .pan, .log, .line, .links, .rings, .cnt, .outs]) (s := s) (x := x) ?_ ?_; rotate_left; intro hx; clear_value x; rotate_left; dsimp only [x])
    | ((fail_if_no_progress extract_lets +onlyGivenNames x); refine Only.named (b := x.not) ?_; clear_value x)
    | (fail_if_no_progress extract_lets +onlyGivenNames x)
    | with_reducible apply Only.refl
    | with_reducible assumption
    | (with_reducible apply Only.ite <;> intro _)
    | with_reducible (apply Only.step (M := [.free]); rotate_left; exact freeN_only_eq ‹_›; decide)
    | with_reducible (apply Only.step (M := [.free]); rotate_left; apply freeN_only; decide)
    | with_reducible (apply Only.step (M := [.eth]); rotate_left; apply ethCnt_only; decide)
    | with_reducible (apply Only.step (M := [.cnt]); rotate_left; apply perfAdd_only; decide)
    | with_reducible (apply Only.step (M := [.out]); rotate_left; apply outFrame_only; decide)
    | with_reducible (apply Only.step (M := [.out, .eth, .pan, .log, .line, .links, .rings, .cnt, .outs]); rotate_left; apply txStamp_only; decide)
    | with_reducible (apply Only.step (M := [.out, .links, .rings, .cnt]); rotate_left; apply hostTxDone_only; decide)
    | with_reducible (apply Only.step (M := [.ptp, .cnt]); rotate_left; apply ptpCount_only; decide)
    | with_reducible (apply Only.step (M := [.ptp]); rotate_left; apply afterEgress_only; decide)
    | with_reducible (refine Only.sndEq (by assumption) ?_)
    | with_reducible (refine Only.fstEq (by assumption) ?_)
    | dsimp only
    | dsimp +zetaDelta only
    | split
    | (clear_value *; split)

theorem sendsM_only (s : State) (p_ : Fin 9) (len : Nat)  : Only [.eth] s (sendsM s p_ len) := by
  unfold sendsM
  repeat' first
    | ((fail_if_no_progress extract_lets +onlyGivenNames x); refine Only.cut (L := [.eth]) (s := s) (x := x) ?_ ?_; rotate_left; intro hx; clear_value x; rotate_left; dsimp only [x])
    | ((fail_if_no_progress extract_lets +onlyGivenNames x); refine Only.named (b := x.not) ?_; clear_value x)
    | (fail_if_no_progress extract_lets +onlyGivenNames x)
    | with_reducible apply Only.refl
    | with_reducible assumption
    | (with_reducible apply Only.ite <;> intro _)
    | with_reducible (apply Only.step (M := [.eth]); rotate_left; apply modPort_only; decide)
    | with_reducible (refine Only.sndEq (by assumption) ?_)
    | with_reducible (refine Only.fstEq (by assumption) ?_)
    | dsimp only
    | dsimp +zetaDelta only
    | split
    | (clear_value *; split)

theorem pumpN_only (a1 : Nat) (a2 : State) (a3 : Fin 9)  : Only [.free, .out, .ptp, .eth, .pan, .log, .line, .links, .rings, .cnt, .outs] a2 (pumpN a1 a2 a3) := by
  induction a1 generalizing a2 a3 with
  | zero => unfold pumpN; exact Only.refl _ _
  | succ n ih =>
    unfold pumpN
    repeat' first
      | ((fail_if_no_progress extract_lets +onlyGivenNames x); refine Only.cut (L := [.free, .out, .ptp, .eth, .pan, .log, .line, .links, .rings, .cnt, .outs]) (s := a2) (x := x) ?_ ?_; rotate_left; intro hx; clear_value x; rotate_left; dsimp only [x])
      | ((fail_if_no_progress extract_lets +onlyGivenNames x); refine Only.named (b := x.not) ?_; clear_value x)
      | (fail_if_no_progress extract_lets +onlyGivenNames x)
      | with_reducible apply Only.refl
      | with_reducible assumption
      | (with_reducible (apply Only.step; rotate_left; apply ih; exact (fun _ h => h)))
      | (with_reducible apply Only.ite <;> intro _)
      | with_reducible (apply Only.step (M := [.eth]); rotate_left; apply behindM_only; decide)
      | with_reducible (apply Only.step (M := [.free, .out, .ptp, .eth, .pan, .log, .line, .links, .rings, .cnt, .outs]); rotate_left; apply egress_only; decide)
      | with_reducible (apply Only.step (M := [.eth]); rotate_left; apply modPort_only; decide)
      | with_reducible (apply Only.step (M := [.eth]); rotate_left; apply sendsM_only; decide)
      | with_reducible (refine Only.sndEq (by assumption) ?_)
      | with_reducible (refine Only.fstEq (by assumption) ?_)
      | dsimp only
      | dsimp +zetaDelta only
      | split
      | (clear_value *; split)

theorem pump_only (s : State) (p_ : Fin 9)  : Only [.free, .out, .ptp, .eth, .pan, .log, .line, .links, .rings, .cnt, .outs] s (pump s p_) := by
  unfold pump
  repeat' first
    | ((fail_if_no_progress extract_lets +onlyGivenNames x); refine Only.cut (L := [.free, .out, .ptp, .eth, .pan, .log, .line, .links, .rings, .cnt, .outs]) (s := s) (x := x) ?_ ?_; rotate_left; intro hx; clear_value x; rotate_left; dsimp only [x])
    | ((fail_if_no_progress extract_lets +onlyGivenNames x); refine Only.named (b := x.not) ?_; clear_value x)
    | (fail_if_no_progress extract_lets +onlyGivenNames x)
    | with_reducible apply Only.refl
    | with_reducible assumption
    | (with_reducible apply Only.ite <;> intro _)
    | with_reducible (apply Only.step (M := [.eth]); rotate_left; apply wdUpdate_only; decide)
    | with_reducible (apply Only.step (M := [.free, .out, .ptp, .eth, .pan, .log, .line, .links, .rings, .cnt, .outs]); rotate_left; apply pumpN_only; decide)
    | with_reducible (refine Only.sndEq (by assumption) ?_)
    | with_reducible (refine Only.fstEq (by assumption) ?_)
    | dsimp only
    | dsimp +zetaDelta only
    | split
    | (clear_value *; split)

theorem txFront_only (s : State) (p_ : Fin 9) (x : TxFrame)  : Only [.free, .out, .ptp, .eth, .pan, .log, .line, .links, .rings, .cnt, .outs] s (txFront s p_ x) := by
  unfold txFront
  repeat' first
    | ((fail_if_no_progress extract_lets +onlyGivenNames x); refine Only.cut (L := [.free, .out, .ptp, .eth, .pan, .log, .line, .links, .rings, .cnt, .outs]) (s := s) (x := x) ?_ ?_; rotate_left; intro hx; clear_value x; rotate_left; dsimp only [x])
    | ((fail_if_no_progress extract_lets +onlyGivenNames x); refine Only.named (b := x.not) ?_; clear_value x)
    | (fail_if_no_progress extract_lets +onlyGivenNames x)
    | with_reducible apply Only.refl
    | with_reducible assumption
    | (with_reducible apply Only.ite <;> intro _)
    | with_reducible (apply Only.step (M := [.free, .out, .ptp, .eth, .pan, .log, .line, .links, .rings, .cnt, .outs]); rotate_left; apply pump_only; decide)
    | with_reducible (apply Only.step (M := [.eth]); rotate_left; apply modPort_only; decide)
    | with_reducible (refine Only.sndEq (by assumption) ?_)
    | with_reducible (refine Only.fstEq (by assumption) ?_)
    | dsimp only
    | dsimp +zetaDelta only
    | split
    | (clear_value *; split)

theorem txPut_only (s : State) (p_ : Fin 9) (t : Bool) (x : TxFrame)  : Only [.free, .out, .ptp, .eth, .pan, .log, .line, .links, .rings, .cnt, .outs] s (txPut s p_ t x) := by
  unfold txPut
  repeat' first
    | ((fail_if_no_progress extract_lets +onlyGivenNames x); refine Only.cut (L := [.free, .out, .ptp, .eth, .pan, .log, .line, .links, .rings, .cnt, .outs]) (s := s) (x := x) ?_ ?_; rotate_left; intro hx; clear_value x; rotate_left; dsimp only [x])
    | ((fail_if_no_progress extract_lets +onlyGivenNames x); refine Only.named (b := x.not) ?_; clear_value x)
    | (fail_if_no_progress extract_lets +onlyGivenNames x)
    | with_reducible apply Only.refl
    | with_reducible assumption
    | (with_reducible apply Only.ite <;> intro _)
    | with_reducible (apply Only.step (M := [.free, .out, .ptp, .eth, .pan, .log, .line, .links, .rings, .cnt, .outs]); rotate_left; apply pump_only; decide)
    | with_reducible (apply Only.step (M := [.eth]); rotate_left; apply modPort_only; decide)
    | with_reducible (refine Only.sndEq (by assumption) ?_)
    | with_reducible (refine Only.fstEq (by assumption) ?_)
    | dsimp only
    | dsimp +zetaDelta only
    | split
    | (clear_value *; split)

theorem qlRemap_only (s : State) (p_ : Fin 9)  : Only [.out, .tco, .refs, .pan, .log, .line, .links, .lnk, .rings, .hif, .cnt, .outs] s (qlRemap s p_) := by
  unfold qlRemap
  repeat' first
    | ((fail_if_no_progress extract_lets +onlyGivenNames x); refine Only.cut (L := [.out, .tco, .refs, .pan, .log, .line, .links, .lnk, .rings, .hif, .cnt, .outs]) (s := s) (x := x) ?_ ?_; rotate_left; intro hx; clear_value x; rotate_left; dsimp only [x])
    | ((fail_if_no_progress extract_lets +onlyGivenNames x); refine Only.named (b := x.not) ?_; clear_value x)
    | (fail_if_no_progress extract_lets +onlyGivenNames x)
    | (with_reducible apply Only.foldl; (intro _ _ _))
    | (with_reducible apply Only.foldlFst; (intro _ _ _))
    | with_reducible apply Only.refl
    | with_reducible assumption
    | (with_reducible apply Only.ite <;> intro _)
    | with_reducible (apply Only.step (M := [.out, .tco, .refs, .pan, .log, .line, .links, .lnk, .rings, .hif, .cnt, .outs]); rotate_left; apply selEval_only; decide)
    | with_reducible (apply Only.step (M := [.out, .refs, .pan, .log, .line, .links, .rings, .cnt, .outs]); rotate_left; apply judge_only; decide)
    | with_reducible (apply Only.step (M := [.refs]); rotate_left; apply modSlot_only; decide)
    | with_reducible (refine Only.sndEq (by assumption) ?_)
    | with_reducible (refine Only.fstEq (by assumption) ?_)
    | dsimp only
    | dsimp +zetaDelta only
    | split
    | (clear_value *; split)

theorem setQl_only (s : State) (p_ : Fin 9) (ssm : BitVec 4) (ext : Option (BitVec 8)) (failed : Bool) (notUsed : Bool)  : Only [.out, .tco, .refs, .eth, .pan, .log, .line, .links, .lnk, .rings, .hif, .cnt, .outs] s (setQl s p_ ssm ext failed notUsed) := by
  unfold setQl
  repeat' first
    | ((fail_if_no_progress extract_lets +onlyGivenNames x); refine Only.cut (L := [.out, .tco, .refs, .eth, .pan, .log, .line, .links, .lnk, .rings, .hif, .cnt, .outs]) (s := s) (x := x) ?_ ?_; rotate_left; intro hx; clear_value x; rotate_left; dsimp only [x])
    | ((fail_if_no_progress extract_lets +onlyGivenNames x); refine Only.named (b := x.not) ?_; clear_value x)
    | (fail_if_no_progress extract_lets +onlyGivenNames x)
    | with_reducible apply Only.refl
    | with_reducible assumption
    | (with_reducible apply Only.ite <;> intro _)
    | with_reducible (apply Only.step (M := [.eth]); rotate_left; apply modPort_only; decide)
    | with_reducible (apply Only.step (M := [.out, .tco, .refs, .pan, .log, .line, .links, .lnk, .rings, .hif, .cnt, .outs]); rotate_left; apply qlRemap_only; decide)
    | with_reducible (apply Only.step (M := [.out, .pan, .log, .line, .links, .rings, .cnt, .outs]); rotate_left; apply emit_only; decide)
    | with_reducible (refine Only.sndEq (by assumption) ?_)
    | with_reducible (refine Only.fstEq (by assumption) ?_)
    | dsimp only
    | dsimp +zetaDelta only
    | split
    | (clear_value *; split)

theorem failQl_only (s : State) (p_ : Fin 9)  : Only [.out, .tco, .refs, .eth, .pan, .log, .line, .links, .lnk, .rings, .hif, .cnt, .outs] s (failQl s p_) := by
  unfold failQl
  repeat' first
    | ((fail_if_no_progress extract_lets +onlyGivenNames x); refine Only.cut (L := [.out, .tco, .refs, .eth, .pan, .log, .line, .links, .lnk, .rings, .hif, .cnt, .outs]) (s := s) (x := x) ?_ ?_; rotate_left; intro hx; clear_value x; rotate_left; dsimp only [x])
    | ((fail_if_no_progress extract_lets +onlyGivenNames x); refine Only.named (b := x.not) ?_; clear_value x)
    | (fail_if_no_progress extract_lets +onlyGivenNames x)
    | with_reducible apply Only.refl
    | with_reducible assumption
    | (with_reducible apply Only.ite <;> intro _)
    | with_reducible (apply Only.step (M := [.eth]); rotate_left; apply ethCnt_only; decide)
    | with_reducible (apply Only.step (M := [.out, .tco, .refs, .eth, .pan, .log, .line, .links, .lnk, .rings, .hif, .cnt, .outs]); rotate_left; apply setQl_only; decide)
    | with_reducible (refine Only.sndEq (by assumption) ?_)
    | with_reducible (refine Only.fstEq (by assumption) ?_)
    | dsimp only
    | dsimp +zetaDelta only
    | split
    | (clear_value *; split)

theorem sendEsmc_only (s : State) (p_ : Fin 9) (event : Bool)  : Only [.free, .out, .ptp, .eth, .pan, .log, .line, .links, .rings, .cnt, .outs] s (sendEsmc s p_ event) := by
  unfold sendEsmc
  repeat' first
    | ((fail_if_no_progress extract_lets +onlyGivenNames x); refine Only.cut (L := [.free, .out, .ptp, .eth, .pan, .log, .line, .links, .rings, .cnt, .outs]) (s := s) (x := x) ?_ ?_; rotate_left; intro hx; clear_value x; rotate_left; dsimp only [x])
    | ((fail_if_no_progress extract_lets +onlyGivenNames x); refine Only.named (b := x.not) ?_; clear_value x)
    | (fail_if_no_progress extract_lets +onlyGivenNames x)
    | with_reducible apply Only.refl
    | with_reducible assumption
    | (with_reducible apply Only.ite <;> intro _)
    | with_reducible (apply Only.step (M := [.eth]); rotate_left; apply modPort_only; decide)
    | with_reducible (apply Only.step (M := [.free, .out, .ptp, .eth, .pan, .log, .line, .links, .rings, .cnt, .outs]); rotate_left; apply txPut_only; decide)
    | with_reducible (refine Only.sndEq (by assumption) ?_)
    | with_reducible (refine Only.fstEq (by assumption) ?_)
    | dsimp only
    | dsimp +zetaDelta only
    | split
    | (clear_value *; split)

theorem wakeHit_only (s : State) (frame : EthFrame)  : Only [.out, .eth] s (wakeHit s frame) := by
  unfold wakeHit
  repeat' first
    | ((fail_if_no_progress extract_lets +onlyGivenNames x); refine Only.cut (L := [.out, .eth]) (s := s) (x := x) ?_ ?_; rotate_left; intro hx; clear_value x; rotate_left; dsimp only [x])
    | ((fail_if_no_progress extract_lets +onlyGivenNames x); refine Only.named (b := x.not) ?_; clear_value x)
    | (fail_if_no_progress extract_lets +onlyGivenNames x)
    | with_reducible apply Only.refl
    | with_reducible assumption
    | (with_reducible apply Only.ite <;> intro _)
    | with_reducible (apply Only.step (M := [.out]); rotate_left; apply emitOut_only; decide)
    | (fail_if_no_progress (with_reducible (apply Only.step (M := [.eth]); rotate_left; apply set_eth_only; decide)))
    | with_reducible (refine Only.sndEq (by assumption) ?_)
    | with_reducible (refine Only.fstEq (by assumption) ?_)
    | dsimp only
    | dsimp +zetaDelta only
    | split
    | (clear_value *; split)

theorem wakeFirst_only (s : State)  : Only [.out, .eth] s (wakeFirst s) := by
  unfold wakeFirst
  repeat' first
    | ((fail_if_no_progress extract_lets +onlyGivenNames x); refine Only.cut (L := [.out, .eth]) (s := s) (x := x) ?_ ?_; rotate_left; intro hx; clear_value x; rotate_left; dsimp only [x])
    | ((fail_if_no_progress extract_lets +onlyGivenNames x); refine Only.named (b := x.not) ?_; clear_value x)
    | (fail_if_no_progress extract_lets +onlyGivenNames x)
    | (with_reducible apply Only.foldl; (intro _ _ _))
    | (with_reducible apply Only.foldlFst; (intro _ _ _))
    | with_reducible apply Only.refl
    | with_reducible assumption
    | (with_reducible apply Only.ite <;> intro _)
    | with_reducible (apply Only.step (M := [.out, .eth]); rotate_left; apply wakeHit_only; decide)
    | with_reducible (refine Only.sndEq (by assumption) ?_)
    | with_reducible (refine Only.fstEq (by assumption) ?_)
    | dsimp only
    | dsimp +zetaDelta only
    | split
    | (clear_value *; split)

end Sys2Proof.Laws
end

