-- ==== Sys2Proof/Laws/PtpOps.lean ====
section
/-! SUPPORT. What each operation of Machine/PtpOps.lean can touch, once for each. -/
set_option linter.unusedTactic false
set_option linter.unreachableTactic false
namespace Sys2Proof.Laws
open Sys2Proof
open Sys2Proof.Machine
open Sys2Proof.Safety

theorem peerMac_only (s : State)  : Only [.free] s (peerMac s).2 := by
  unfold peerMac
  repeat' first
    | ((fail_if_no_progress extract_lets +onlyGivenNames x); refine Only.cut (L := [.free]) (s := s) (x := x) ?_ ?_; rotate_left; intro hx; clear_value x; rotate_left; dsimp only [x])
    | ((fail_if_no_progress extract_lets +onlyGivenNames x); refine Only.named (b := x.not) ?_; clear_value x)
    | (fail_if_no_progress extract_lets +onlyGivenNames x)
    | with_reducible apply Only.refl
    | with_reducible assumption
    | (with_reducible apply Only.ite <;> intro _)
    | with_reducible (apply Only.step (M := [.free]); rotate_left; exact freeN_only_eq ‹_›; decide)
    | with_reducible (apply Only.step (M := [.free]); rotate_left; apply freeN_only; decide)
    | with_reducible (refine Only.sndEq (by assumption) ?_)
    | with_reducible (refine Only.fstEq (by assumption) ?_)
    | dsimp only
    | dsimp +zetaDelta only
    | split
    | (clear_value *; split)
theorem peerMac_only_eq {s : State} {r1} {t0 : State} (hEq : peerMac s = (r1, t0)) : Only [.free] s t0 := by
  have k0 := peerMac_only s
  rw [hEq] at k0; exact k0

theorem secNoKey_only (s : State) (i : Fin 16)  : Only [.out, .ptp, .pan, .log, .line, .links, .rings, .cnt, .outs] s (secNoKey s i) := by
  unfold secNoKey
  repeat' first
    | ((fail_if_no_progress extract_lets +onlyGivenNames x); refine Only.cut (L := [.out, .ptp, .pan, .log, .line, .links, .rings, .cnt, .outs]) (s := s) (x := x) ?_ ?_; rotate_left; intro hx; clear_value x; rotate_left; dsimp only [x])
    | ((fail_if_no_progress extract_lets +onlyGivenNames x); refine Only.named (b := x.not) ?_; clear_value x)
    | (fail_if_no_progress extract_lets +onlyGivenNames x)
    | with_reducible apply Only.refl
    | with_reducible assumption
    | (with_reducible apply Only.ite <;> intro _)
    | with_reducible (apply Only.step (M := [.out, .pan, .log, .line, .links, .rings, .cnt, .outs]); rotate_left; apply emit_only; decide)
    | with_reducible (apply Only.step (M := [.ptp]); rotate_left; apply modInst_only; decide)
    | with_reducible (refine Only.sndEq (by assumption) ?_)
    | with_reducible (refine Only.fstEq (by assumption) ?_)
    | dsimp only
    | dsimp +zetaDelta only
    | split
    | (clear_value *; split)

theorem ptpPut_only (s : State) (i : Fin 16) (p_ : Nat) (d : PtpDest) (m : PtpMsg) (fill : Fill) (grant : Option (Nat × GrantKind)) (front : Bool)  : Only [.free, .out, .ptp, .eth, .pan, .log, .line, .links, .rings, .cnt, .outs] s (ptpPut s i p_ d m fill grant front) := by
  unfold ptpPut
  repeat' first
    | ((fail_if_no_progress extract_lets +onlyGivenNames x); refine Only.cut (L := [.free, .out, .ptp, .eth, .pan, .log, .line, .links, .rings, .cnt, .outs]) (s := s) (x := x) ?_ ?_; rotate_left; intro hx; clear_value x; rotate_left; dsimp only [x])
    | ((fail_if_no_progress extract_lets +onlyGivenNames x); refine Only.named (b := x.not) ?_; clear_value x)
    | (fail_if_no_progress extract_lets +onlyGivenNames x)
    | with_reducible apply Only.refl
    | with_reducible assumption
    | (with_reducible apply Only.ite <;> intro _)
    | with_reducible (apply Only.step (M := [.ptp, .cnt]); rotate_left; apply ptpCount_only; decide)
    | with_reducible (apply Only.step (M := [.free, .out, .ptp, .eth, .pan, .log, .line, .links, .rings, .cnt, .outs]); rotate_left; apply txFront_only; decide)
    | with_reducible (apply Only.step (M := [.free, .out, .ptp, .eth, .pan, .log, .line, .links, .rings, .cnt, .outs]); rotate_left; apply txPut_only; decide)
    | with_reducible (refine Only.sndEq (by assumption) ?_)
    | with_reducible (refine Only.fstEq (by assumption) ?_)
    | dsimp only
    | dsimp +zetaDelta only
    | split
    | (clear_value *; split)

theorem sendSignal_only (s : State) (i : Fin 16) (p_ : Nat) (d : PtpDest) (target : BitVec 80) (tlvs : List PtpTlv) (ns : Nat)  : Only [.free, .out, .ptp, .eth, .pan, .log, .line, .links, .rings, .cnt, .outs] s (sendSignal s i p_ d target tlvs ns) := by
  unfold sendSignal
  repeat' first
    | ((fail_if_no_progress extract_lets +onlyGivenNames x); refine Only.cut (L := [.free, .out, .ptp, .eth, .pan, .log, .line, .links, .rings, .cnt, .outs]) (s := s) (x := x) ?_ ?_; rotate_left; intro hx; clear_value x; rotate_left; dsimp only [x])
    | ((fail_if_no_progress extract_lets +onlyGivenNames x); refine Only.named (b := x.not) ?_; clear_value x)
    | (fail_if_no_progress extract_lets +onlyGivenNames x)
    | with_reducible apply Only.refl
    | with_reducible assumption
    | (with_reducible apply Only.ite <;> intro _)
    | with_reducible (apply Only.step (M := [.out, .ptp, .pan, .log, .line, .links, .rings, .cnt, .outs]); rotate_left; apply secNoKey_only; decide)
    | with_reducible (apply Only.step (M := [.free, .out, .ptp, .eth, .pan, .log, .line, .links, .rings, .cnt, .outs]); rotate_left; apply ptpPut_only; decide)
    | with_reducible (refine Only.sndEq (by assumption) ?_)
    | with_reducible (refine Only.fstEq (by assumption) ?_)
    | dsimp only
    | dsimp +zetaDelta only
    | split
    | (clear_value *; split)

theorem askGrant_only (s : State) (i : Fin 16) (k : Fin 4) (kind : GrantKind)  : Only [.free, .out, .ptp, .eth, .pan, .log, .line, .links, .rings, .cnt, .outs] s (askGrant s i k kind) := by
  unfold askGrant
  repeat' first
    | ((fail_if_no_progress extract_lets +onlyGivenNames x); refine Only.cut (L := [.free, .out, .ptp, .eth, .pan, .log, .line, .links, .rings, .cnt, .outs]) (s := s) (x := x) ?_ ?_; rotate_left; intro hx; clear_value x; rotate_left; dsimp only [x])
    | ((fail_if_no_progress extract_lets +onlyGivenNames x); refine Only.named (b := x.not) ?_; clear_value x)
    | (fail_if_no_progress extract_lets +onlyGivenNames x)
    | with_reducible apply Only.refl
    | with_reducible assumption
    | (with_reducible apply Only.ite <;> intro _)
    | with_reducible (apply Only.step (M := [.free]); rotate_left; exact peerMac_only_eq ‹_›; decide)
    | with_reducible (apply Only.step (M := [.free]); rotate_left; apply peerMac_only; decide)
    | with_reducible (apply Only.step (M := [.free, .out, .ptp, .eth, .pan, .log, .line, .links, .rings, .cnt, .outs]); rotate_left; apply sendSignal_only; decide)
    | with_reducible (apply Only.step (M := [.ptp]); rotate_left; apply modInst_only; decide)
    | with_reducible (refine Only.sndEq (by assumption) ?_)
    | with_reducible (refine Only.fstEq (by assumption) ?_)
    | dsimp only
    | dsimp +zetaDelta only
    | split
    | (clear_value *; split)

theorem entryDest_only (s : State) (g : GrantEntry)  : Only [.free] s (entryDest s g).2 := by
  unfold entryDest
  repeat' first
    | ((fail_if_no_progress extract_lets +onlyGivenNames x); refine Only.cut (L := [.free]) (s := s) (x := x) ?_ ?_; rotate_left; intro hx; clear_value x; rotate_left; dsimp only [x])
    | ((fail_if_no_progress extract_lets +onlyGivenNames x); refine Only.named (b := x.not) ?_; clear_value x)
    | (fail_if_no_progress extract_lets +onlyGivenNames x)
    | with_reducible apply Only.refl
    | with_reducible assumption
    | (with_reducible apply Only.ite <;> intro _)
    | with_reducible (apply Only.step (M := [.free]); rotate_left; exact peerMac_only_eq ‹_›; decide)
    | with_reducible (apply Only.step (M := [.free]); rotate_left; apply peerMac_only; decide)
    | with_reducible (refine Only.sndEq (by assumption) ?_)
    | with_reducible (refine Only.fstEq (by assumption) ?_)
    | dsimp only
    | dsimp +zetaDelta only
    | split
    | (clear_value *; split)
theorem entryDest_only_eq {s : State} {g : GrantEntry} {r1} {t0 : State} (hEq : entryDest s g = (r1, t0)) : Only [.free] s t0 := by
  have k0 := entryDest_only s g
  rw [hEq] at k0; exact k0

theorem mirrorGrant_only (s : State) (e : Nat) (snapshot : Bool)  : Only [.out, .pair, .links, .cnt] s (mirrorGrant s e snapshot) := by
  unfold mirrorGrant
  repeat' first
    | ((fail_if_no_progress extract_lets +onlyGivenNames x); refine Only.cut (L := [.out, .pair, .links, .cnt]) (s := s) (x := x) ?_ ?_; rotate_left; intro hx; clear_value x; rotate_left; dsimp only [x])
    | ((fail_if_no_progress extract_lets +onlyGivenNames x); refine Only.named (b := x.not) ?_; clear_value x)
    | (fail_if_no_progress extract_lets +onlyGivenNames x)
    | with_reducible apply Only.refl
    | with_reducible assumption
    | (with_reducible apply Only.ite <;> intro _)
    | with_reducible (apply Only.step (M := [.out, .pair, .links, .cnt]); rotate_left; apply mirrorPut_only; decide)
    | with_reducible (refine Only.sndEq (by assumption) ?_)
    | with_reducible (refine Only.fstEq (by assumption) ?_)
    | dsimp only
    | dsimp +zetaDelta only
    | split
    | (clear_value *; split)

theorem putGrant_only (s : State) (e : Nat) (g : GrantEntry)  : Only [.ptp] s (putGrant s e g) := by
  unfold putGrant
  repeat' first
    | ((fail_if_no_progress extract_lets +onlyGivenNames x); refine Only.cut (L := [.ptp]) (s := s) (x := x) ?_ ?_; rotate_left; intro hx; clear_value x; rotate_left; dsimp only [x])
    | ((fail_if_no_progress extract_lets +onlyGivenNames x); refine Only.named (b := x.not) ?_; clear_value x)
    | (fail_if_no_progress extract_lets +onlyGivenNames x)
    | with_reducible apply Only.refl
    | with_reducible assumption
    | (with_reducible apply Only.ite <;> intro _)
    | with_reducible (apply Only.step (M := [.ptp]); rotate_left; apply modPtp_only; decide)
    | with_reducible (refine Only.sndEq (by assumption) ?_)
    | with_reducible (refine Only.fstEq (by assumption) ?_)
    | dsimp only
    | dsimp +zetaDelta only
    | split
    | (clear_value *; split)

theorem cancelEntry_only (s : State) (e : Nat) (tell : Bool)  : Only [.free, .out, .ptp, .eth, .pan, .log, .line, .pair, .links, .rings, .cnt, .outs] s (cancelEntry s e tell) := by
  unfold cancelEntry
  repeat' first
    | ((fail_if_no_progress extract_lets +onlyGivenNames x); refine Only.cut (L := [.free, .out, .ptp, .eth, .pan, .log, .line, .pair, .links, .rings, .cnt, .outs]) (s := s) (x := x) ?_ ?_; rotate_left; intro hx; clear_value x; rotate_left; dsimp only [x])
    | ((fail_if_no_progress extract_lets +onlyGivenNames x); refine Only.named (b := x.not) ?_; clear_value x)
    | (fail_if_no_progress extract_lets +onlyGivenNames x)
    | (with_reducible apply Only.foldl; (intro _ _ _))
    | (with_reducible apply Only.foldlFst; (intro _ _ _))
    | with_reducible apply Only.refl
    | with_reducible assumption
    | (with_reducible apply Only.ite <;> intro _)
    | with_reducible (apply Only.step (M := [.free]); rotate_left; exact entryDest_only_eq ‹_›; decide)
    | with_reducible (apply Only.step (M := [.free]); rotate_left; apply entryDest_only; decide)
    | with_reducible (apply Only.step (M := [.free, .out, .ptp, .eth, .pan, .log, .line, .links, .rings, .cnt, .outs]); rotate_left; apply sendSignal_only; decide)
    | with_reducible (apply Only.step (M := [.out, .pair, .links, .cnt]); rotate_left; apply mirrorGrant_only; decide)
    | with_reducible (apply Only.step (M := [.ptp]); rotate_left; apply putGrant_only; decide)
    | with_reducible (refine Only.sndEq (by assumption) ?_)
    | with_reducible (refine Only.fstEq (by assumption) ?_)
    | dsimp only
    | dsimp +zetaDelta only
    | split
    | (clear_value *; split)

theorem instEval_only (s : State) (i : Fin 16)  : Only [.free, .out, .ptp, .eth, .pan, .log, .line, .pair, .links, .rings, .cnt, .outs] s (instEval s i) := by
  unfold instEval
  repeat' first
    | ((fail_if_no_progress extract_lets +onlyGivenNames x); refine Only.cut (L := [.free, .out, .ptp, .eth, .pan, .log, .line, .pair, .links, .rings, .cnt, .outs]) (s := s) (x := x) ?_ ?_; rotate_left; intro hx; clear_value x; rotate_left; dsimp only [x])
    | ((fail_if_no_progress extract_lets +onlyGivenNames x); refine Only.named (b := x.not) ?_; clear_value x)
    | (fail_if_no_progress extract_lets +onlyGivenNames x)
    | (with_reducible apply Only.foldl; (intro _ _ _))
    | (with_reducible apply Only.foldlFst; (intro _ _ _))
    | with_reducible apply Only.refl
    | with_reducible assumption
    | (with_reducible apply Only.ite <;> intro _)
    | with_reducible (apply Only.step (M := [.out, .pan, .log, .line, .links, .rings, .cnt, .outs]); rotate_left; apply emit_only; decide)
    | with_reducible (apply Only.step (M := [.ptp]); rotate_left; apply modInst_only; decide)
    | with_reducible (apply Only.step (M := [.free, .out, .ptp, .eth, .pan, .log, .line, .links, .rings, .cnt, .outs]); rotate_left; apply askGrant_only; decide)
    | with_reducible (apply Only.step (M := [.free, .out, .ptp, .eth, .pan, .log, .line, .pair, .links, .rings, .cnt, .outs]); rotate_left; apply cancelEntry_only; decide)
    | with_reducible (apply Only.step (M := [.free, .out, .ptp, .eth, .pan, .log, .line, .links, .rings, .cnt, .outs]); rotate_left; apply pump_only; decide)
    | with_reducible (apply Only.step (M := [.ptp]); rotate_left; apply modPtp_only; decide)
    | with_reducible (refine Only.sndEq (by assumption) ?_)
    | with_reducible (refine Only.fstEq (by assumption) ?_)
    | dsimp only
    | dsimp +zetaDelta only
    | split
    | (clear_value *; split)

theorem instEvalAll_only (s : State)  : Only [.free, .out, .ptp, .eth, .pan, .log, .line, .pair, .links, .rings, .cnt, .outs] s (instEvalAll s) := by
  unfold instEvalAll
  repeat' first
    | ((fail_if_no_progress extract_lets +onlyGivenNames x); refine Only.cut (L := [.free, .out, .ptp, .eth, .pan, .log, .line, .pair, .links, .rings, .cnt, .outs]) (s := s) (x := x) ?_ ?_; rotate_left; intro hx; clear_value x; rotate_left; dsimp only [x])
    | ((fail_if_no_progress extract_lets +onlyGivenNames x); refine Only.named (b := x.not) ?_; clear_value x)
    | (fail_if_no_progress extract_lets +onlyGivenNames x)
    | (with_reducible apply Only.foldl; (intro _ _ _))
    | (with_reducible apply Only.foldlFst; (intro _ _ _))
    | with_reducible apply Only.refl
    | with_reducible assumption
    | (with_reducible apply Only.ite <;> intro _)
    | with_reducible (apply Only.step (M := [.free, .out, .ptp, .eth, .pan, .log, .line, .pair, .links, .rings, .cnt, .outs]); rotate_left; apply instEval_only; decide)
    | with_reducible (refine Only.sndEq (by assumption) ?_)
    | with_reducible (refine Only.fstEq (by assumption) ?_)
    | dsimp only
    | dsimp +zetaDelta only
    | split
    | (clear_value *; split)

theorem masterListed_only (s : State) (i : Fin 16) (k : Fin 4)  : Only [.free, .out, .ptp, .eth, .pan, .log, .line, .links, .rings, .cnt, .outs] s (masterListed s i k) := by
  unfold masterListed
  repeat' first
    | ((fail_if_no_progress extract_lets +onlyGivenNames x); refine Only.cut (L := [.free, .out, .ptp, .eth, .pan, .log, .line, .links, .rings, .cnt, .outs]) (s := s) (x := x) ?_ ?_; rotate_left; intro hx; clear_value x; rotate_left; dsimp only [x])
    | ((fail_if_no_progress extract_lets +onlyGivenNames x); refine Only.named (b := x.not) ?_; clear_value x)
    | (fail_if_no_progress extract_lets +onlyGivenNames x)
    | with_reducible apply Only.refl
    | with_reducible assumption
    | (with_reducible apply Only.ite <;> intro _)
    | with_reducible (apply Only.step (M := [.ptp]); rotate_left; apply modInst_only; decide)
    | with_reducible (apply Only.step (M := [.free, .out, .ptp, .eth, .pan, .log, .line, .links, .rings, .cnt, .outs]); rotate_left; apply askGrant_only; decide)
    | with_reducible (refine Only.sndEq (by assumption) ?_)
    | with_reducible (refine Only.fstEq (by assumption) ?_)
    | dsimp only
    | dsimp +zetaDelta only
    | split
    | (clear_value *; split)

theorem keyBack_only (s : State)  : Only [.ptp] s (keyBack s) := by
  unfold keyBack
  repeat' first
    | ((fail_if_no_progress extract_lets +onlyGivenNames x); refine Only.cut (L := [.ptp]) (s := s) (x := x) ?_ ?_; rotate_left; intro hx; clear_value x; rotate_left; dsimp only [x])
    | ((fail_if_no_progress extract_lets +onlyGivenNames x); refine Only.named (b := x.not) ?_; clear_value x)
    | (fail_if_no_progress extract_lets +onlyGivenNames x)
    | (with_reducible apply Only.foldl; (intro _ _ _))
    | (with_reducible apply Only.foldlFst; (intro _ _ _))
    | with_reducible apply Only.refl
    | with_reducible assumption
    | (with_reducible apply Only.ite <;> intro _)
    | with_reducible (apply Only.step (M := [.ptp]); rotate_left; apply modInst_only; decide)
    | with_reducible (refine Only.sndEq (by assumption) ?_)
    | with_reducible (refine Only.fstEq (by assumption) ?_)
    | dsimp only
    | dsimp +zetaDelta only
    | split
    | (clear_value *; split)

theorem answerDelay_only (s : State) (i : Fin 16) (x : PtpIn) (entry : Option Nat)  : Only [.free, .out, .ptp, .eth, .pan, .log, .line, .links, .rings, .cnt, .outs] s (answerDelay s i x entry) := by
  unfold answerDelay
  repeat' first
    | ((fail_if_no_progress extract_lets +onlyGivenNames x); refine Only.cut (L := [.free, .out, .ptp, .eth, .pan, .log, .line, .links, .rings, .cnt, .outs]) (s := s) (x := x) ?_ ?_; rotate_left; intro hx; clear_value x; rotate_left; dsimp only [x])
    | ((fail_if_no_progress extract_lets +onlyGivenNames x); refine Only.named (b := x.not) ?_; clear_value x)
    | (fail_if_no_progress extract_lets +onlyGivenNames x)
    | with_reducible apply Only.refl
    | with_reducible assumption
    | (with_reducible apply Only.ite <;> intro _)
    | with_reducible (apply Only.step (M := [.out, .ptp, .pan, .log, .line, .links, .rings, .cnt, .outs]); rotate_left; apply secNoKey_only; decide)
    | with_reducible (apply Only.step (M := [.free, .out, .ptp, .eth, .pan, .log, .line, .links, .rings, .cnt, .outs]); rotate_left; apply ptpPut_only; decide)
    | with_reducible (refine Only.sndEq (by assumption) ?_)
    | with_reducible (refine Only.fstEq (by assumption) ?_)
    | dsimp only
    | dsimp +zetaDelta only
    | split
    | (clear_value *; split)

theorem answerPdelay_only (s : State) (i : Fin 16) (x : PtpIn)  : Only [.free, .out, .ptp, .eth, .pan, .log, .line, .links, .rings, .cnt, .outs] s (answerPdelay s i x) := by
  unfold answerPdelay
  repeat' first
    | ((fail_if_no_progress extract_lets +onlyGivenNames x); refine Only.cut (L := [.free, .out, .ptp, .eth, .pan, .log, .line, .links, .rings, .cnt, .outs]) (s := s) (x := x) ?_ ?_; rotate_left; intro hx; clear_value x; rotate_left; dsimp only [x])
    | ((fail_if_no_progress extract_lets +onlyGivenNames x); refine Only.named (b := x.not) ?_; clear_value x)
    | (fail_if_no_progress extract_lets +onlyGivenNames x)
    | with_reducible apply Only.refl
    | with_reducible assumption
    | (with_reducible apply Only.ite <;> intro _)
    | with_reducible (apply Only.step (M := [.out, .ptp, .pan, .log, .line, .links, .rings, .cnt, .outs]); rotate_left; apply secNoKey_only; decide)
    | with_reducible (apply Only.step (M := [.free, .out, .ptp, .eth, .pan, .log, .line, .links, .rings, .cnt, .outs]); rotate_left; apply ptpPut_only; decide)
    | with_reducible (refine Only.sndEq (by assumption) ?_)
    | with_reducible (refine Only.fstEq (by assumption) ?_)
    | dsimp only
    | dsimp +zetaDelta only
    | split
    | (clear_value *; split)

theorem modSec_only (s : State) (e : Fin 64) (f : SecKey → SecKey)  : Only [.ptp] s (modSec s e f) := by
  unfold modSec
  repeat' first
    | ((fail_if_no_progress extract_lets +onlyGivenNames x); refine Only.cut (L := [.ptp]) (s := s) (x := x) ?_ ?_; rotate_left; intro hx; clear_value x; rotate_left; dsimp only [x])
    | ((fail_if_no_progress extract_lets +onlyGivenNames x); refine Only.named (b := x.not) ?_; clear_value x)
    | (fail_if_no_progress extract_lets +onlyGivenNames x)
    | with_reducible apply Only.refl
    | with_reducible assumption
    | (with_reducible apply Only.ite <;> intro _)
    | with_reducible (apply Only.step (M := [.ptp]); rotate_left; apply modPtp_only; decide)
    | with_reducible (refine Only.sndEq (by assumption) ?_)
    | with_reducible (refine Only.fstEq (by assumption) ?_)
    | dsimp only
    | dsimp +zetaDelta only
    | split
    | (clear_value *; split)

theorem keepSecs_only (s : State) (t : Nat)  : Only [.ptp] s (keepSecs s t) := by
  unfold keepSecs
  repeat' first
    | ((fail_if_no_progress extract_lets +onlyGivenNames x); refine Only.cut (L := [.ptp]) (s := s) (x := x) ?_ ?_; rotate_left; intro hx; clear_value x; rotate_left; dsimp only [x])
    | ((fail_if_no_progress extract_lets +onlyGivenNames x); refine Only.named (b := x.not) ?_; clear_value x)
    | (fail_if_no_progress extract_lets +onlyGivenNames x)
    | with_reducible apply Only.refl
    | with_reducible assumption
    | (with_reducible apply Only.ite <;> intro _)
    | with_reducible (apply Only.step (M := [.ptp]); rotate_left; apply modPtp_only; decide)
    | with_reducible (refine Only.sndEq (by assumption) ?_)
    | with_reducible (refine Only.fstEq (by assumption) ?_)
    | dsimp only
    | dsimp +zetaDelta only
    | split
    | (clear_value *; split)

theorem secRetire_only (s : State) (e : Fin 64) (byStore : Bool) (t : Nat)  : Only [.out, .ptp, .pan, .log, .line, .links, .rings, .cnt, .outs] s (secRetire s e byStore t) := by
  unfold secRetire
  repeat' first
    | ((fail_if_no_progress extract_lets +onlyGivenNames x); refine Only.cut (L := [.out, .ptp, .pan, .log, .line, .links, .rings, .cnt, .outs]) (s := s) (x := x) ?_ ?_; rotate_left; intro hx; clear_value x; rotate_left; dsimp only [x])
    | ((fail_if_no_progress extract_lets +onlyGivenNames x); refine Only.named (b := x.not) ?_; clear_value x)
    | (fail_if_no_progress extract_lets +onlyGivenNames x)
    | with_reducible apply Only.refl
    | with_reducible assumption
    | (with_reducible apply Only.ite <;> intro _)
    | with_reducible (apply Only.step (M := [.ptp]); rotate_left; apply modPtp_only; decide)
    | with_reducible (apply Only.step (M := [.ptp]); rotate_left; apply modSec_only; decide)
    | with_reducible (apply Only.step (M := [.ptp]); rotate_left; apply keepSecs_only; decide)
    | with_reducible (apply Only.step (M := [.out, .pan, .log, .line, .links, .rings, .cnt, .outs]); rotate_left; apply emit_only; decide)
    | with_reducible (refine Only.sndEq (by assumption) ?_)
    | with_reducible (refine Only.fstEq (by assumption) ?_)
    | dsimp only
    | dsimp +zetaDelta only
    | split
    | (clear_value *; split)

theorem ptpSample_only (s : State) (code : Nat) (p_ : Nat) (ty : Nat) (src : Nat)  : Only [.ptp, .log] s (ptpSample s code p_ ty src) := by
  unfold ptpSample
  repeat' first
    | ((fail_if_no_progress extract_lets +onlyGivenNames x); refine Only.cut (L := [.ptp, .log]) (s := s) (x := x) ?_ ?_; rotate_left; intro hx; clear_value x; rotate_left; dsimp only [x])
    | ((fail_if_no_progress extract_lets +onlyGivenNames x); refine Only.named (b := x.not) ?_; clear_value x)
    | (fail_if_no_progress extract_lets +onlyGivenNames x)
    | with_reducible apply Only.refl
    | with_reducible assumption
    | (with_reducible apply Only.ite <;> intro _)
    | with_reducible (apply Only.step (M := [.ptp]); rotate_left; apply modPtp_only; decide)
    | with_reducible (apply Only.step (M := [.log]); rotate_left; apply histPut_only; decide)
    | with_reducible (refine Only.sndEq (by assumption) ?_)
    | with_reducible (refine Only.fstEq (by assumption) ?_)
    | dsimp only
    | dsimp +zetaDelta only
    | split
    | (clear_value *; split)

theorem ptpDrop_only (s : State) (x : PtpIn) (code : Nat)  : Only [.ptp, .log, .cnt] s (ptpDrop s x code) := by
  unfold ptpDrop
  repeat' first
    | ((fail_if_no_progress extract_lets +onlyGivenNames x); refine Only.cut (L := [.ptp, .log, .cnt]) (s := s) (x := x) ?_ ?_; rotate_left; intro hx; clear_value x; rotate_left; dsimp only [x])
    | ((fail_if_no_progress extract_lets +onlyGivenNames x); refine Only.named (b := x.not) ?_; clear_value x)
    | (fail_if_no_progress extract_lets +onlyGivenNames x)
    | with_reducible apply Only.refl
    | with_reducible assumption
    | (with_reducible apply Only.ite <;> intro _)
    | with_reducible (apply Only.step (M := [.ptp, .log]); rotate_left; apply ptpSample_only; decide)
    | with_reducible (apply Only.step (M := [.ptp, .cnt]); rotate_left; apply ptpCount_only; decide)
    | with_reducible (refine Only.sndEq (by assumption) ?_)
    | with_reducible (refine Only.fstEq (by assumption) ?_)
    | dsimp only
    | dsimp +zetaDelta only
    | split
    | (clear_value *; split)

theorem authDrop_only (s : State) (i : Fin 16) (x : PtpIn) (code : Nat)  : Only [.ptp, .log, .cnt] s (authDrop s i x code) := by
  unfold authDrop
  repeat' first
    | ((fail_if_no_progress extract_lets +onlyGivenNames x); refine Only.cut (L := [.ptp, .log, .cnt]) (s := s) (x := x) ?_ ?_; rotate_left; intro hx; clear_value x; rotate_left; dsimp only [x])
    | ((fail_if_no_progress extract_lets +onlyGivenNames x); refine Only.named (b := x.not) ?_; clear_value x)
    | (fail_if_no_progress extract_lets +onlyGivenNames x)
    | with_reducible apply Only.refl
    | with_reducible assumption
    | (with_reducible apply Only.ite <;> intro _)
    | with_reducible (apply Only.step (M := [.ptp]); rotate_left; apply modInst_only; decide)
    | with_reducible (apply Only.step (M := [.ptp, .log, .cnt]); rotate_left; apply ptpDrop_only; decide)
    | with_reducible (refine Only.sndEq (by assumption) ?_)
    | with_reducible (refine Only.fstEq (by assumption) ?_)
    | dsimp only
    | dsimp +zetaDelta only
    | split
    | (clear_value *; split)

theorem mirrorSeqs_only (s : State) (i : Fin 16) (snapshot : Bool)  : Only [.out, .pair, .links, .cnt] s (mirrorSeqs s i snapshot) := by
  unfold mirrorSeqs
  repeat' first
    | ((fail_if_no_progress extract_lets +onlyGivenNames x); refine Only.cut (L := [.out, .pair, .links, .cnt]) (s := s) (x := x) ?_ ?_; rotate_left; intro hx; clear_value x; rotate_left; dsimp only [x])
    | ((fail_if_no_progress extract_lets +onlyGivenNames x); refine Only.named (b := x.not) ?_; clear_value x)
    | (fail_if_no_progress extract_lets +onlyGivenNames x)
    | with_reducible apply Only.refl
    | with_reducible assumption
    | (with_reducible apply Only.ite <;> intro _)
    | with_reducible (apply Only.step (M := [.out, .pair, .links, .cnt]); rotate_left; apply mirrorPut_only; decide)
    | with_reducible (refine Only.sndEq (by assumption) ?_)
    | with_reducible (refine Only.fstEq (by assumption) ?_)
    | dsimp only
    | dsimp +zetaDelta only
    | split
    | (clear_value *; split)

theorem checkAuth_only (s : State) (i : Fin 16) (m : PtpMsg) (ns : Nat)  : Only [.ptp] s (checkAuth s i m ns).1 := by
  unfold checkAuth
  repeat' first
    | ((fail_if_no_progress extract_lets +onlyGivenNames x); refine Only.cut (L := [.ptp]) (s := s) (x := x) ?_ ?_; rotate_left; intro hx; clear_value x; rotate_left; dsimp only [x])
    | ((fail_if_no_progress extract_lets +onlyGivenNames x); refine Only.named (b := x.not) ?_; clear_value x)
    | (fail_if_no_progress extract_lets +onlyGivenNames x)
    | with_reducible apply Only.refl
    | with_reducible assumption
    | (with_reducible apply Only.ite <;> intro _)
    | with_reducible (apply Only.step (M := [.ptp]); rotate_left; apply modPtp_only; decide)
    | with_reducible (refine Only.sndEq (by assumption) ?_)
    | with_reducible (refine Only.fstEq (by assumption) ?_)
    | dsimp only
    | dsimp +zetaDelta only
    | split
    | (clear_value *; split)
theorem checkAuth_only_eq {s : State} {i : Fin 16} {m : PtpMsg} {ns : Nat} {r1} {t0 : State} (hEq : checkAuth s i m ns = (t0, r1)) : Only [.ptp] s t0 := by
  have k0 := checkAuth_only s i m ns
  rw [hEq] at k0; exact k0

theorem delayCap_only (s : State) (i : Fin 16)  : Only [.ptp] s (delayCap s i).1 := by
  unfold delayCap
  repeat' first
    | ((fail_if_no_progress extract_lets +onlyGivenNames x); refine Only.cut (L := [.ptp]) (s := s) (x := x) ?_ ?_; rotate_left; intro hx; clear_value x; rotate_left; dsimp only [x])
    | ((fail_if_no_progress extract_lets +onlyGivenNames x); refine Only.named (b := x.not) ?_; clear_value x)
    | (fail_if_no_progress extract_lets +onlyGivenNames x)
    | with_reducible apply Only.refl
    | with_reducible assumption
    | (with_reducible apply Only.ite <;> intro _)
    | with_reducible (apply Only.step (M := [.ptp]); rotate_left; apply modInst_only; decide)
    | with_reducible (refine Only.sndEq (by assumption) ?_)
    | with_reducible (refine Only.fstEq (by assumption) ?_)
    | dsimp only
    | dsimp +zetaDelta only
    | split
    | (clear_value *; split)
theorem delayCap_only_eq {s : State} {i : Fin 16} {r1} {t0 : State} (hEq : delayCap s i = (t0, r1)) : Only [.ptp] s t0 := by
  have k0 := delayCap_only s i
  rw [hEq] at k0; exact k0

theorem slaveAdvert_only (s : State) (i : Fin 16)  : Only [.out, .tco, .refs, .pan, .log, .line, .links, .lnk, .rings, .hif, .cnt, .outs] s (slaveAdvert s i) := by
  unfold slaveAdvert
  repeat' first
    | ((fail_if_no_progress extract_lets +onlyGivenNames x); refine Only.cut (L := [.out, .tco, .refs, .pan, .log, .line, .links, .lnk, .rings, .hif, .cnt, .outs]) (s := s) (x := x) ?_ ?_; rotate_left; intro hx; clear_value x; rotate_left; dsimp only [x])
    | ((fail_if_no_progress extract_lets +onlyGivenNames x); refine Only.named (b := x.not) ?_; clear_value x)
    | (fail_if_no_progress extract_lets +onlyGivenNames x)
    | (with_reducible apply Only.foldl; (intro _ _ _))
    | (with_reducible apply Only.foldlFst; (intro _ _ _))
    | with_reducible apply Only.refl
    | with_reducible assumption
    | (with_reducible apply Only.ite <;> intro _)
    | with_reducible (apply Only.step (M := [.out, .tco, .refs, .pan, .log, .line, .links, .lnk, .rings, .hif, .cnt, .outs]); rotate_left; apply advertise_only; decide)
    | with_reducible (refine Only.sndEq (by assumption) ?_)
    | with_reducible (refine Only.fstEq (by assumption) ?_)
    | dsimp only
    | dsimp +zetaDelta only
    | split
    | (clear_value *; split)

theorem selectMaster_only (s : State) (i : Fin 16)  : Only [.free, .out, .tco, .refs, .ptp, .eth, .pan, .log, .line, .links, .lnk, .rings, .hif, .cnt, .outs] s (selectMaster s i) := by
  unfold selectMaster
  repeat' first
    | ((fail_if_no_progress extract_lets +onlyGivenNames x); refine Only.cut (L := [.free, .out, .tco, .refs, .ptp, .eth, .pan, .log, .line, .links, .lnk, .rings, .hif, .cnt, .outs]) (s := s) (x := x) ?_ ?_; rotate_left; intro hx; clear_value x; rotate_left; dsimp only [x])
    | ((fail_if_no_progress extract_lets +onlyGivenNames x); refine Only.named (b := x.not) ?_; clear_value x)
    | (fail_if_no_progress extract_lets +onlyGivenNames x)
    | (with_reducible apply Only.foldl; (intro _ _ _))
    | (with_reducible apply Only.foldlFst; (intro _ _ _))
    | with_reducible apply Only.refl
    | with_reducible assumption
    | (with_reducible apply Only.ite <;> intro _)
    | with_reducible (apply Only.step (M := [.out, .tco, .refs, .pan, .log, .line, .links, .lnk, .rings, .hif, .cnt, .outs]); rotate_left; apply slaveAdvert_only; decide)
    | with_reducible (apply Only.step (M := [.ptp]); rotate_left; apply modInst_only; decide)
    | with_reducible (apply Only.step (M := [.out, .pan, .log, .line, .links, .rings, .cnt, .outs]); rotate_left; apply emit_only; decide)
    | with_reducible (apply Only.step (M := [.out, .tco, .refs, .pan, .log, .line, .links, .lnk, .rings, .hif, .cnt, .outs]); rotate_left; apply masterChange_only; decide)
    | with_reducible (apply Only.step (M := [.free, .out, .ptp, .eth, .pan, .log, .line, .links, .rings, .cnt, .outs]); rotate_left; apply askGrant_only; decide)
    | with_reducible (refine Only.sndEq (by assumption) ?_)
    | with_reducible (refine Only.fstEq (by assumption) ?_)
    | dsimp only
    | dsimp +zetaDelta only
    | split
    | (clear_value *; split)

theorem hearAnnounce_only (s : State) (i : Fin 16) (addr : BitVec 128) (m : PtpMsg)  : Only [.free, .out, .tco, .refs, .ptp, .eth, .pan, .log, .line, .links, .lnk, .rings, .hif, .cnt, .outs] s (hearAnnounce s i addr m) := by
  unfold hearAnnounce
  repeat' first
    | ((fail_if_no_progress extract_lets +onlyGivenNames x); refine Only.cut (L := [.free, .out, .tco, .refs, .ptp, .eth, .pan, .log, .line, .links, .lnk, .rings, .hif, .cnt, .outs]) (s := s) (x := x) ?_ ?_; rotate_left; intro hx; clear_value x; rotate_left; dsimp only [x])
    | ((fail_if_no_progress extract_lets +onlyGivenNames x); refine Only.named (b := x.not) ?_; clear_value x)
    | (fail_if_no_progress extract_lets +onlyGivenNames x)
    | with_reducible apply Only.refl
    | with_reducible assumption
    | (with_reducible apply Only.ite <;> intro _)
    | with_reducible (apply Only.step (M := [.ptp]); rotate_left; apply modInst_only; decide)
    | with_reducible (apply Only.step (M := [.free, .out, .tco, .refs, .ptp, .eth, .pan, .log, .line, .links, .lnk, .rings, .hif, .cnt, .outs]); rotate_left; apply selectMaster_only; decide)
    | with_reducible (refine Only.sndEq (by assumption) ?_)
    | with_reducible (refine Only.fstEq (by assumption) ?_)
    | dsimp only
    | dsimp +zetaDelta only
    | split
    | (clear_value *; split)

theorem foreignMaster_only (s : State) (i : Fin 16) (port : Nat) (src : BitVec 80)  : Only [.out, .ptp, .pan, .log, .line, .links, .rings, .cnt, .outs] s (foreignMaster s i port src) := by
  unfold foreignMaster
  repeat' first
    | ((fail_if_no_progress extract_lets +onlyGivenNames x); refine Only.cut (L := [.out, .ptp, .pan, .log, .line, .links, .rings, .cnt, .outs]) (s := s) (x := x) ?_ ?_; rotate_left; intro hx; clear_value x; rotate_left; dsimp only [x])
    | ((fail_if_no_progress extract_lets +onlyGivenNames x); refine Only.named (b := x.not) ?_; clear_value x)
    | (fail_if_no_progress extract_lets +onlyGivenNames x)
    | with_reducible apply Only.refl
    | with_reducible assumption
    | (with_reducible apply Only.ite <;> intro _)
    | with_reducible (apply Only.step (M := [.ptp]); rotate_left; apply modInst_only; decide)
    | with_reducible (apply Only.step (M := [.ptp, .cnt]); rotate_left; apply ptpCount_only; decide)
    | with_reducible (apply Only.step (M := [.out, .pan, .log, .line, .links, .rings, .cnt, .outs]); rotate_left; apply emit_only; decide)
    | with_reducible (refine Only.sndEq (by assumption) ?_)
    | with_reducible (refine Only.fstEq (by assumption) ?_)
    | dsimp only
    | dsimp +zetaDelta only
    | split
    | (clear_value *; split)

theorem grantLost_only (s : State) (i : Fin 16) (k : GrantKind)  : Only [.out, .pan, .log, .line, .links, .rings, .cnt, .outs] s (grantLost s i k) := by
  unfold grantLost
  repeat' first
    | ((fail_if_no_progress extract_lets +onlyGivenNames x); refine Only.cut (L := [.out, .pan, .log, .line, .links, .rings, .cnt, .outs]) (s := s) (x := x) ?_ ?_; rotate_left; intro hx; clear_value x; rotate_left; dsimp only [x])
    | ((fail_if_no_progress extract_lets +onlyGivenNames x); refine Only.named (b := x.not) ?_; clear_value x)
    | (fail_if_no_progress extract_lets +onlyGivenNames x)
    | with_reducible apply Only.refl
    | with_reducible assumption
    | (with_reducible apply Only.ite <;> intro _)
    | with_reducible (apply Only.step (M := [.out, .pan, .log, .line, .links, .rings, .cnt, .outs]); rotate_left; apply emit_only; decide)
    | with_reducible (refine Only.sndEq (by assumption) ?_)
    | with_reducible (refine Only.fstEq (by assumption) ?_)
    | dsimp only
    | dsimp +zetaDelta only
    | split
    | (clear_value *; split)

theorem slaveSignal_only (s : State) (i : Fin 16) (x : PtpIn) (ip : IpHdr)  : Only [.free, .out, .ptp, .eth, .pan, .log, .line, .links, .rings, .cnt, .outs] s (slaveSignal s i x ip) := by
  unfold slaveSignal
  repeat' first
    | ((fail_if_no_progress extract_lets +onlyGivenNames x); refine Only.cut (L := [.free, .out, .ptp, .eth, .pan, .log, .line, .links, .rings, .cnt, .outs]) (s := s) (x := x) ?_ ?_; rotate_left; intro hx; clear_value x; rotate_left; dsimp only [x])
    | ((fail_if_no_progress extract_lets +onlyGivenNames x); refine Only.named (b := x.not) ?_; clear_value x)
    | (fail_if_no_progress extract_lets +onlyGivenNames x)
    | (with_reducible apply Only.foldl; (intro _ _ _))
    | (with_reducible apply Only.foldlFst; (intro _ _ _))
    | with_reducible apply Only.refl
    | with_reducible assumption
    | (with_reducible apply Only.ite <;> intro _)
    | with_reducible (apply Only.step (M := [.cnt]); rotate_left; apply perfAdd_only; decide)
    | with_reducible (apply Only.step (M := [.ptp]); rotate_left; apply modInst_only; decide)
    | with_reducible (apply Only.step (M := [.out, .pan, .log, .line, .links, .rings, .cnt, .outs]); rotate_left; apply grantLost_only; decide)
    | with_reducible (apply Only.step (M := [.free, .out, .ptp, .eth, .pan, .log, .line, .links, .rings, .cnt, .outs]); rotate_left; apply sendSignal_only; decide)
    | with_reducible (refine Only.sndEq (by assumption) ?_)
    | with_reducible (refine Only.fstEq (by assumption) ?_)
    | dsimp only
    | dsimp +zetaDelta only
    | split
    | (clear_value *; split)

theorem grantFull_only (s : State) (i : Fin 16)  : Only [.out, .ptp, .pan, .log, .line, .links, .rings, .cnt, .outs] s (grantFull s i) := by
  unfold grantFull
  repeat' first
    | ((fail_if_no_progress extract_lets +onlyGivenNames x); refine Only.cut (L := [.out, .ptp, .pan, .log, .line, .links, .rings, .cnt, .outs]) (s := s) (x := x) ?_ ?_; rotate_left; intro hx; clear_value x; rotate_left; dsimp only [x])
    | ((fail_if_no_progress extract_lets +onlyGivenNames x); refine Only.named (b := x.not) ?_; clear_value x)
    | (fail_if_no_progress extract_lets +onlyGivenNames x)
    | with_reducible apply Only.refl
    | with_reducible assumption
    | (with_reducible apply Only.ite <;> intro _)
    | with_reducible (apply Only.step (M := [.out, .pan, .log, .line, .links, .rings, .cnt, .outs]); rotate_left; apply emit_only; decide)
    | with_reducible (apply Only.step (M := [.ptp]); rotate_left; apply modPtp_only; decide)
    | with_reducible (refine Only.sndEq (by assumption) ?_)
    | with_reducible (refine Only.fstEq (by assumption) ?_)
    | dsimp only
    | dsimp +zetaDelta only
    | split
    | (clear_value *; split)

theorem grantRequest_only (s : State) (i : Fin 16) (ip : IpHdr) (udp : BitVec 16) (port : Fin 8) (src : BitVec 80) (kind : Option GrantKind) (logInt : Int) (dur : Nat)  : Only [.out, .ptp, .pan, .log, .line, .pair, .links, .rings, .cnt, .outs] s (grantRequest s i ip udp port src kind logInt dur).1 := by
  unfold grantRequest
  repeat' first
    | ((fail_if_no_progress extract_lets +onlyGivenNames x); refine Only.cut (L := [.out, .ptp, .pan, .log, .line, .pair, .links, .rings, .cnt, .outs]) (s := s) (x := x) ?_ ?_; rotate_left; intro hx; clear_value x; rotate_left; dsimp only [x])
    | ((fail_if_no_progress extract_lets +onlyGivenNames x); refine Only.named (b := x.not) ?_; clear_value x)
    | (fail_if_no_progress extract_lets +onlyGivenNames x)
    | with_reducible apply Only.refl
    | with_reducible assumption
    | (with_reducible apply Only.ite <;> intro _)
    | with_reducible (apply Only.step (M := [.ptp, .cnt]); rotate_left; apply ptpCount_only; decide)
    | with_reducible (apply Only.step (M := [.out, .ptp, .pan, .log, .line, .links, .rings, .cnt, .outs]); rotate_left; apply grantFull_only; decide)
    | with_reducible (apply Only.step (M := [.out, .pair, .links, .cnt]); rotate_left; apply mirrorGrant_only; decide)
    | with_reducible (apply Only.step (M := [.ptp]); rotate_left; apply putGrant_only; decide)
    | with_reducible (refine Only.sndEq (by assumption) ?_)
    | with_reducible (refine Only.fstEq (by assumption) ?_)
    | dsimp only
    | dsimp +zetaDelta only
    | split
    | (clear_value *; split)
theorem grantRequest_only_eq {s : State} {i : Fin 16} {ip : IpHdr} {udp : BitVec 16} {port : Fin 8} {src : BitVec 80} {kind : Option GrantKind} {logInt : Int} {dur : Nat} {r1} {t0 : State} (hEq : grantRequest s i ip udp port src kind logInt dur = (t0, r1)) : Only [.out, .ptp, .pan, .log, .line, .pair, .links, .rings, .cnt, .outs] s t0 := by
  have k0 := grantRequest_only s i ip udp port src kind logInt dur
  rw [hEq] at k0; exact k0

theorem signalTlv_only (i : Fin 16) (x : PtpIn) (ip : IpHdr) (q : State × List PtpTlv) (t : PtpTlv) :
    Only [.out, .ptp, .pan, .log, .line, .pair, .links, .rings, .cnt, .outs] q.1 (signalTlv i x ip q t).1 := by
  unfold signalTlv
  split
  · exact Only.mono (grantRequest_only ..) (by decide)
  · dsimp only
    split
    · split
      · exact Only.step (Only.mono (putGrant_only ..) (by decide)) (mirrorGrant_only ..) (by decide)
      · exact Only.refl _ _
    · exact Only.refl _ _
  · exact Only.refl _ _

theorem masterSignal_only (s : State) (i : Fin 16) (x : PtpIn) (ip : IpHdr)  : Only [.free, .out, .ptp, .eth, .pan, .log, .line, .pair, .links, .rings, .cnt, .outs] s (masterSignal s i x ip) := by
  unfold masterSignal
  repeat' first
    | ((fail_if_no_progress extract_lets +onlyGivenNames x); refine Only.cut (L := [.free, .out, .ptp, .eth, .pan, .log, .line, .pair, .links, .rings, .cnt, .outs]) (s := s) (x := x) ?_ ?_; rotate_left; intro hx; clear_value x; rotate_left; dsimp only [x])
    | ((fail_if_no_progress extract_lets +onlyGivenNames x); refine Only.named (b := x.not) ?_; clear_value x)
    | (fail_if_no_progress extract_lets +onlyGivenNames x)
    | (with_reducible apply Only.foldl; (intro _ _ _))
    | (with_reducible apply Only.foldlFst; (intro _ _ _))
    | with_reducible apply Only.refl
    | with_reducible assumption
    | (with_reducible apply Only.ite <;> intro _)
    | with_reducible (apply Only.step (M := [.ptp]); rotate_left; apply modPtp_only; decide)
    | with_reducible (apply Only.step (M := [.cnt]); rotate_left; apply perfAdd_only; decide)
    | with_reducible (apply Only.step (M := [.ptp, .cnt]); rotate_left; apply ptpCount_only; decide)
    | with_reducible (apply Only.step (M := [.out, .ptp, .pan, .log, .line, .pair, .links, .rings, .cnt, .outs]); rotate_left; exact signalTlv_only_eq ‹_›; decide)
    | with_reducible (apply Only.step (M := [.out, .ptp, .pan, .log, .line, .pair, .links, .rings, .cnt, .outs]); rotate_left; apply signalTlv_only; decide)
    | with_reducible (apply Only.step (M := [.free, .out, .ptp, .eth, .pan, .log, .line, .links, .rings, .cnt, .outs]); rotate_left; apply sendSignal_only; decide)
    | with_reducible (refine Only.sndEq (by assumption) ?_)
    | with_reducible (refine Only.fstEq (by assumption) ?_)
    | dsimp only
    | dsimp +zetaDelta only
    | split
    | (clear_value *; split)

theorem slaveMeasure_only (s : State) (i : Fin 16) (t1 : Int) (t2 : Int) (tick : Nat) (teb : Option Nat)  : Only [.free, .out, .tco, .refs, .gbb, .ptp, .pan, .log, .line, .pair, .links, .lnk, .rings, .hif, .cnt, .perf, .outs, .tio] s (slaveMeasure s i t1 t2 tick teb) := by
  unfold slaveMeasure
  repeat' first
    | ((fail_if_no_progress extract_lets +onlyGivenNames x); refine Only.cut (L := [.free, .out, .tco, .refs, .gbb, .ptp, .pan, .log, .line, .pair, .links, .lnk, .rings, .hif, .cnt, .perf, .outs, .tio]) (s := s) (x := x) ?_ ?_; rotate_left; intro hx; clear_value x; rotate_left; dsimp only [x])
    | ((fail_if_no_progress extract_lets +onlyGivenNames x); refine Only.named (b := x.not) ?_; clear_value x)
    | (fail_if_no_progress extract_lets +onlyGivenNames x)
    | (with_reducible apply Only.foldl; (intro _ _ _))
    | (with_reducible apply Only.foldlFst; (intro _ _ _))
    | with_reducible apply Only.refl
    | with_reducible assumption
    | (with_reducible apply Only.ite <;> intro _)
    | with_reducible (apply Only.step (M := [.ptp]); rotate_left; apply modInst_only; decide)
    | with_reducible (apply Only.step (M := [.ptp, .cnt]); rotate_left; apply ptpCount_only; decide)
    | with_reducible (apply Only.step (M := [.free, .out, .tco, .refs, .gbb, .pan, .log, .line, .pair, .links, .lnk, .rings, .hif, .cnt, .perf, .outs, .tio]); rotate_left; apply measure_only; decide)
    | with_reducible (refine Only.sndEq (by assumption) ?_)
    | with_reducible (refine Only.fstEq (by assumption) ?_)
    | dsimp only
    | dsimp +zetaDelta only
    | split
    | (clear_value *; split)

theorem slaveSync_only (s : State) (i : Fin 16) (x : PtpIn)  : Only [.free, .out, .tco, .refs, .gbb, .ptp, .pan, .log, .line, .pair, .links, .lnk, .rings, .hif, .cnt, .perf, .outs, .tio] s (slaveSync s i x) := by
  unfold slaveSync
  repeat' first
    | ((fail_if_no_progress extract_lets +onlyGivenNames x); refine Only.cut (L := [.free, .out, .tco, .refs, .gbb, .ptp, .pan, .log, .line, .pair, .links, .lnk, .rings, .hif, .cnt, .perf, .outs, .tio]) (s := s) (x := x) ?_ ?_; rotate_left; intro hx; clear_value x; rotate_left; dsimp only [x])
    | ((fail_if_no_progress extract_lets +onlyGivenNames x); refine Only.named (b := x.not) ?_; clear_value x)
    | (fail_if_no_progress extract_lets +onlyGivenNames x)
    | with_reducible apply Only.refl
    | with_reducible assumption
    | (with_reducible apply Only.ite <;> intro _)
    | with_reducible (apply Only.step (M := [.ptp]); rotate_left; apply modInst_only; decide)
    | with_reducible (apply Only.step (M := [.free, .out, .tco, .refs, .gbb, .ptp, .pan, .log, .line, .pair, .links, .lnk, .rings, .hif, .cnt, .perf, .outs, .tio]); rotate_left; apply slaveMeasure_only; decide)
    | with_reducible (refine Only.sndEq (by assumption) ?_)
    | with_reducible (refine Only.fstEq (by assumption) ?_)
    | dsimp only
    | dsimp +zetaDelta only
    | split
    | (clear_value *; split)

theorem slaveAnswer_only (s : State) (i : Fin 16) (x : PtpIn)  : Only [.free, .out, .tco, .refs, .gbb, .ptp, .pan, .log, .line, .pair, .links, .lnk, .rings, .hif, .cnt, .perf, .outs, .tio] s (slaveAnswer s i x) := by
  unfold slaveAnswer
  repeat' first
    | ((fail_if_no_progress extract_lets +onlyGivenNames x); refine Only.cut (L := [.free, .out, .tco, .refs, .gbb, .ptp, .pan, .log, .line, .pair, .links, .lnk, .rings, .hif, .cnt, .perf, .outs, .tio]) (s := s) (x := x) ?_ ?_; rotate_left; intro hx; clear_value x; rotate_left; dsimp only [x])
    | ((fail_if_no_progress extract_lets +onlyGivenNames x); refine Only.named (b := x.not) ?_; clear_value x)
    | (fail_if_no_progress extract_lets +onlyGivenNames x)
    | with_reducible apply Only.refl
    | with_reducible assumption
    | (with_reducible apply Only.ite <;> intro _)
    | with_reducible (apply Only.step (M := [.ptp, .log, .cnt]); rotate_left; apply ptpDrop_only; decide)
    | with_reducible (apply Only.step (M := [.free, .out, .tco, .refs, .gbb, .ptp, .pan, .log, .line, .pair, .links, .lnk, .rings, .hif, .cnt, .perf, .outs, .tio]); rotate_left; apply slaveMeasure_only; decide)
    | with_reducible (apply Only.step (M := [.ptp]); rotate_left; apply modInst_only; decide)
    | with_reducible (refine Only.sndEq (by assumption) ?_)
    | with_reducible (refine Only.fstEq (by assumption) ?_)
    | dsimp only
    | dsimp +zetaDelta only
    | split
    | (clear_value *; split)

theorem ptpAct_only (s : State) (i : Fin 16) (x : PtpIn) (toHost : State → State) (hT : ∀ u, Only [.out, .eth, .pan, .log, .line, .links, .lnk, .rings, .hif, .cnt, .outs] u (toHost u)) : Only [.free, .out, .tco, .refs, .gbb, .ptp, .eth, .pan, .log, .line, .pair, .links, .lnk, .rings, .hif, .cnt, .perf, .outs, .tio] s (ptpAct s i x toHost) := by
  unfold ptpAct
  repeat' first
    | ((fail_if_no_progress extract_lets +onlyGivenNames x); refine Only.cut (L := [.free, .out, .tco, .refs, .gbb, .ptp, .eth, .pan, .log, .line, .pair, .links, .lnk, .rings, .hif, .cnt, .perf, .outs, .tio]) (s := s) (x := x) ?_ ?_; rotate_left; intro hx; clear_value x; rotate_left; dsimp only [x])
    | ((fail_if_no_progress extract_lets +onlyGivenNames x); refine Only.named (b := x.not) ?_; clear_value x)
    | (fail_if_no_progress extract_lets +onlyGivenNames x)
    | with_reducible apply Only.refl
    | with_reducible assumption
    | (with_reducible apply Only.ite <;> intro _)
    | with_reducible (apply Only.step (M := [.out, .eth, .pan, .log, .line, .links, .lnk, .rings, .hif, .cnt, .outs]); rotate_left; apply hT; decide)
    | with_reducible (apply Only.step (M := [.ptp, .log, .cnt]); rotate_left; apply ptpDrop_only; decide)
    | with_reducible (apply Only.step (M := [.ptp]); rotate_left; exact delayCap_only_eq ‹_›; decide)
    | with_reducible (apply Only.step (M := [.ptp]); rotate_left; apply delayCap_only; decide)
    | with_reducible (apply Only.step (M := [.free, .out, .ptp, .eth, .pan, .log, .line, .links, .rings, .cnt, .outs]); rotate_left; apply answerDelay_only; decide)
    | with_reducible (apply Only.step (M := [.free, .out, .ptp, .eth, .pan, .log, .line, .links, .rings, .cnt, .outs]); rotate_left; apply answerPdelay_only; decide)
    | with_reducible (apply Only.step (M := [.free, .out, .tco, .refs, .ptp, .eth, .pan, .log, .line, .links, .lnk, .rings, .hif, .cnt, .outs]); rotate_left; apply hearAnnounce_only; decide)
    | with_reducible (apply Only.step (M := [.out, .ptp, .pan, .log, .line, .links, .rings, .cnt, .outs]); rotate_left; apply foreignMaster_only; decide)
    | with_reducible (apply Only.step (M := [.free, .out, .ptp, .eth, .pan, .log, .line, .links, .rings, .cnt, .outs]); rotate_left; apply slaveSignal_only; decide)
    | with_reducible (apply Only.step (M := [.free, .out, .ptp, .eth, .pan, .log, .line, .pair, .links, .rings, .cnt, .outs]); rotate_left; apply masterSignal_only; decide)
    | with_reducible (apply Only.step (M := [.free, .out, .tco, .refs, .gbb, .ptp, .pan, .log, .line, .pair, .links, .lnk, .rings, .hif, .cnt, .perf, .outs, .tio]); rotate_left; apply slaveSync_only; decide)
    | with_reducible (apply Only.step (M := [.free, .out, .tco, .refs, .gbb, .ptp, .pan, .log, .line, .pair, .links, .lnk, .rings, .hif, .cnt, .perf, .outs, .tio]); rotate_left; apply slaveAnswer_only; decide)
    | with_reducible (refine Only.sndEq (by assumption) ?_)
    | with_reducible (refine Only.fstEq (by assumption) ?_)
    | dsimp only
    | dsimp +zetaDelta only
    | split
    | (clear_value *; split)

theorem ptpFrameIn_only (s : State) (x : PtpIn) (taken : Bool) (toHost : State → State) (hT : ∀ u, Only [.out, .eth, .pan, .log, .line, .links, .lnk, .rings, .hif, .cnt, .outs] u (toHost u)) : Only [.free, .out, .tco, .refs, .gbb, .ptp, .eth, .pan, .log, .line, .pair, .links, .lnk, .rings, .hif, .cnt, .perf, .outs, .tio] s (ptpFrameIn s x taken toHost) := by
  unfold ptpFrameIn
  repeat' first
    | ((fail_if_no_progress extract_lets +onlyGivenNames x); refine Only.cut (L := [.free, .out, .tco, .refs, .gbb, .ptp, .eth, .pan, .log, .line, .pair, .links, .lnk, .rings, .hif, .cnt, .perf, .outs, .tio]) (s := s) (x := x) ?_ ?_; rotate_left; intro hx; clear_value x; rotate_left; dsimp only [x])
    | ((fail_if_no_progress extract_lets +onlyGivenNames x); refine Only.named (b := x.not) ?_; clear_value x)
    | (fail_if_no_progress extract_lets +onlyGivenNames x)
    | with_reducible apply Only.refl
    | with_reducible assumption
    | (with_reducible apply Only.ite <;> intro _)
    | with_reducible (apply Only.step (M := [.out, .eth, .pan, .log, .line, .links, .lnk, .rings, .hif, .cnt, .outs]); rotate_left; apply hT; decide)
    | with_reducible (apply Only.step (M := [.eth]); rotate_left; apply ethCnt_only; decide)
    | with_reducible (apply Only.step (M := [.ptp, .log, .cnt]); rotate_left; apply ptpDrop_only; decide)
    | with_reducible (apply Only.step (M := [.ptp]); rotate_left; exact checkAuth_only_eq ‹_›; decide)
    | with_reducible (apply Only.step (M := [.ptp]); rotate_left; apply checkAuth_only; decide)
    | with_reducible (apply Only.step (M := [.ptp, .log, .cnt]); rotate_left; apply authDrop_only; decide)
    | with_reducible (apply Only.step (M := [.free, .out, .tco, .refs, .gbb, .ptp, .eth, .pan, .log, .line, .pair, .links, .lnk, .rings, .hif, .cnt, .perf, .outs, .tio]); rotate_left; apply ptpAct_only; (first | assumption | (intro u; apply rxToHost_only)); decide)
    | with_reducible (refine Only.sndEq (by assumption) ?_)
    | with_reducible (refine Only.fstEq (by assumption) ?_)
    | dsimp only
    | dsimp +zetaDelta only
    | split
    | (clear_value *; split)

theorem sendSync_only (s : State) (i : Fin 16) (p_ : Nat) (d : PtpDest) (seq : BitVec 16) (logInt : Int) (entry : Option Nat) (tick : Nat)  : Only [.free, .out, .ptp, .eth, .pan, .log, .line, .links, .rings, .cnt, .outs] s (sendSync s i p_ d seq logInt entry tick) := by
  unfold sendSync
  repeat' first
    | ((fail_if_no_progress extract_lets +onlyGivenNames x); refine Only.cut (L := [.free, .out, .ptp, .eth, .pan, .log, .line, .links, .rings, .cnt, .outs]) (s := s) (x := x) ?_ ?_; rotate_left; intro hx; clear_value x; rotate_left; dsimp only [x])
    | ((fail_if_no_progress extract_lets +onlyGivenNames x); refine Only.named (b := x.not) ?_; clear_value x)
    | (fail_if_no_progress extract_lets +onlyGivenNames x)
    | with_reducible apply Only.refl
    | with_reducible assumption
    | (with_reducible apply Only.ite <;> intro _)
    | with_reducible (apply Only.step (M := [.out, .ptp, .pan, .log, .line, .links, .rings, .cnt, .outs]); rotate_left; apply secNoKey_only; decide)
    | with_reducible (apply Only.step (M := [.free, .out, .ptp, .eth, .pan, .log, .line, .links, .rings, .cnt, .outs]); rotate_left; apply ptpPut_only; decide)
    | with_reducible (refine Only.sndEq (by assumption) ?_)
    | with_reducible (refine Only.fstEq (by assumption) ?_)
    | dsimp only
    | dsimp +zetaDelta only
    | split
    | (clear_value *; split)

theorem sendAnnounce_only (s : State) (i : Fin 16) (p_ : Nat) (d : PtpDest) (seq : BitVec 16) (logInt : Int) (entry : Option Nat) (tick : Nat)  : Only [.free, .out, .ptp, .eth, .pan, .log, .line, .links, .rings, .cnt, .outs] s (sendAnnounce s i p_ d seq logInt entry tick) := by
  unfold sendAnnounce
  repeat' first
    | ((fail_if_no_progress extract_lets +onlyGivenNames x); refine Only.cut (L := [.free, .out, .ptp, .eth, .pan, .log, .line, .links, .rings, .cnt, .outs]) (s := s) (x := x) ?_ ?_; rotate_left; intro hx; clear_value x; rotate_left; dsimp only [x])
    | ((fail_if_no_progress extract_lets +onlyGivenNames x); refine Only.named (b := x.not) ?_; clear_value x)
    | (fail_if_no_progress extract_lets +onlyGivenNames x)
    | with_reducible apply Only.refl
    | with_reducible assumption
    | (with_reducible apply Only.ite <;> intro _)
    | with_reducible (apply Only.step (M := [.out, .ptp, .pan, .log, .line, .links, .rings, .cnt, .outs]); rotate_left; apply secNoKey_only; decide)
    | with_reducible (apply Only.step (M := [.free, .out, .ptp, .eth, .pan, .log, .line, .links, .rings, .cnt, .outs]); rotate_left; apply ptpPut_only; decide)
    | with_reducible (refine Only.sndEq (by assumption) ?_)
    | with_reducible (refine Only.fstEq (by assumption) ?_)
    | dsimp only
    | dsimp +zetaDelta only
    | split
    | (clear_value *; split)

theorem secRotate_only (s : State) (e : Fin 64) (t : Nat)  : Only [.out, .ptp, .pan, .log, .line, .links, .rings, .cnt, .outs] s (secRotate s e t) := by
  unfold secRotate
  repeat' first
    | ((fail_if_no_progress extract_lets +onlyGivenNames x); refine Only.cut (L := [.out, .ptp, .pan, .log, .line, .links, .rings, .cnt, .outs]) (s := s) (x := x) ?_ ?_; rotate_left; intro hx; clear_value x; rotate_left; dsimp only [x])
    | ((fail_if_no_progress extract_lets +onlyGivenNames x); refine Only.named (b := x.not) ?_; clear_value x)
    | (fail_if_no_progress extract_lets +onlyGivenNames x)
    | with_reducible apply Only.refl
    | with_reducible assumption
    | (with_reducible apply Only.ite <;> intro _)
    | with_reducible (apply Only.step (M := [.ptp]); rotate_left; apply modPtp_only; decide)
    | with_reducible (apply Only.step (M := [.ptp]); rotate_left; apply keepSecs_only; decide)
    | with_reducible (apply Only.step (M := [.out, .pan, .log, .line, .links, .rings, .cnt, .outs]); rotate_left; apply emit_only; decide)
    | with_reducible (apply Only.step (M := [.ptp]); rotate_left; apply keyBack_only; decide)
    | with_reducible (refine Only.sndEq (by assumption) ?_)
    | with_reducible (refine Only.fstEq (by assumption) ?_)
    | dsimp only
    | dsimp +zetaDelta only
    | split
    | (clear_value *; split)

end Sys2Proof.Laws
end

