-- ==== Sys2Proof/Laws/SvcOps.lean ====
section
/-! SUPPORT. What each operation of Machine/SvcOps.lean can touch, once for each. -/
set_option linter.unusedTactic false
set_option linter.unreachableTactic false
namespace Sys2Proof.Laws
open Sys2Proof
open Sys2Proof.Machine
open Sys2Proof.Safety

theorem svcRefill_only (s : State)  : Only [.svc] s (svcRefill s) := by
  unfold svcRefill
  repeat' first
    | ((fail_if_no_progress extract_lets +onlyGivenNames x); refine Only.cut (L := [.svc]) (s := s) (x := x) ?_ ?_; rotate_left; intro hx; clear_value x; rotate_left; dsimp only [x])
    | ((fail_if_no_progress extract_lets +onlyGivenNames x); refine Only.named (b := x.not) ?_; clear_value x)
    | (fail_if_no_progress extract_lets +onlyGivenNames x)
    | with_reducible apply Only.refl
    | with_reducible assumption
    | (with_reducible apply Only.ite <;> intro _)
    | with_reducible (apply Only.step (M := [.svc]); rotate_left; apply modSvc_only; decide)
    | with_reducible (refine Only.sndEq (by assumption) ?_)
    | with_reducible (refine Only.fstEq (by assumption) ?_)
    | dsimp only
    | dsimp +zetaDelta only
    | split
    | (clear_value *; split)

theorem modCk_only (s : State) (i : Fin 16) (f : CookieKey → CookieKey)  : Only [.svc] s (modCk s i f) := by
  unfold modCk
  repeat' first
    | ((fail_if_no_progress extract_lets +onlyGivenNames x); refine Only.cut (L := [.svc]) (s := s) (x := x) ?_ ?_; rotate_left; intro hx; clear_value x; rotate_left; dsimp only [x])
    | ((fail_if_no_progress extract_lets +onlyGivenNames x); refine Only.named (b := x.not) ?_; clear_value x)
    | (fail_if_no_progress extract_lets +onlyGivenNames x)
    | with_reducible apply Only.refl
    | with_reducible assumption
    | (with_reducible apply Only.ite <;> intro _)
    | with_reducible (apply Only.step (M := [.svc]); rotate_left; apply modSvc_only; decide)
    | with_reducible (refine Only.sndEq (by assumption) ?_)
    | with_reducible (refine Only.fstEq (by assumption) ?_)
    | dsimp only
    | dsimp +zetaDelta only
    | split
    | (clear_value *; split)

theorem keepCookies_only (s : State) (t : Nat)  : Only [.svc] s (keepCookies s t) := by
  unfold keepCookies
  repeat' first
    | ((fail_if_no_progress extract_lets +onlyGivenNames x); refine Only.cut (L := [.svc]) (s := s) (x := x) ?_ ?_; rotate_left; intro hx; clear_value x; rotate_left; dsimp only [x])
    | ((fail_if_no_progress extract_lets +onlyGivenNames x); refine Only.named (b := x.not) ?_; clear_value x)
    | (fail_if_no_progress extract_lets +onlyGivenNames x)
    | with_reducible apply Only.refl
    | with_reducible assumption
    | (with_reducible apply Only.ite <;> intro _)
    | with_reducible (apply Only.step (M := [.svc]); rotate_left; apply modSvc_only; decide)
    | with_reducible (refine Only.sndEq (by assumption) ?_)
    | with_reducible (refine Only.fstEq (by assumption) ?_)
    | dsimp only
    | dsimp +zetaDelta only
    | split
    | (clear_value *; split)

theorem noKey_only (s : State) (i : Fin 16)  : Only [.out, .svc, .pan, .log, .line, .links, .rings, .cnt, .outs] s (noKey s i) := by
  unfold noKey
  repeat' first
    | ((fail_if_no_progress extract_lets +onlyGivenNames x); refine Only.cut (L := [.out, .svc, .pan, .log, .line, .links, .rings, .cnt, .outs]) (s := s) (x := x) ?_ ?_; rotate_left; intro hx; clear_value x; rotate_left; dsimp only [x])
    | ((fail_if_no_progress extract_lets +onlyGivenNames x); refine Only.named (b := x.not) ?_; clear_value x)
    | (fail_if_no_progress extract_lets +onlyGivenNames x)
    | with_reducible apply Only.refl
    | with_reducible assumption
    | (with_reducible apply Only.ite <;> intro _)
    | with_reducible (apply Only.step (M := [.out, .pan, .log, .line, .links, .rings, .cnt, .outs]); rotate_left; apply emit_only; decide)
    | with_reducible (apply Only.step (M := [.svc]); rotate_left; apply modSvc_only; decide)
    | with_reducible (refine Only.sndEq (by assumption) ?_)
    | with_reducible (refine Only.fstEq (by assumption) ?_)
    | dsimp only
    | dsimp +zetaDelta only
    | split
    | (clear_value *; split)

theorem cookieRetire_only (s : State) (i : Fin 16) (byStore : Bool) (t : Nat)  : Only [.out, .svc, .pan, .log, .line, .links, .rings, .cnt, .outs] s (cookieRetire s i byStore t) := by
  unfold cookieRetire
  repeat' first
    | ((fail_if_no_progress extract_lets +onlyGivenNames x); refine Only.cut (L := [.out, .svc, .pan, .log, .line, .links, .rings, .cnt, .outs]) (s := s) (x := x) ?_ ?_; rotate_left; intro hx; clear_value x; rotate_left; dsimp only [x])
    | ((fail_if_no_progress extract_lets +onlyGivenNames x); refine Only.named (b := x.not) ?_; clear_value x)
    | (fail_if_no_progress extract_lets +onlyGivenNames x)
    | with_reducible apply Only.refl
    | with_reducible assumption
    | (with_reducible apply Only.ite <;> intro _)
    | with_reducible (apply Only.step (M := [.svc]); rotate_left; apply modCk_only; decide)
    | with_reducible (apply Only.step (M := [.svc]); rotate_left; apply keepCookies_only; decide)
    | with_reducible (apply Only.step (M := [.svc]); rotate_left; apply modSvc_only; decide)
    | with_reducible (apply Only.step (M := [.out, .pan, .log, .line, .links, .rings, .cnt, .outs]); rotate_left; apply emit_only; decide)
    | with_reducible (apply Only.step (M := [.out, .svc, .pan, .log, .line, .links, .rings, .cnt, .outs]); rotate_left; apply noKey_only; decide)
    | with_reducible (refine Only.sndEq (by assumption) ?_)
    | with_reducible (refine Only.fstEq (by assumption) ?_)
    | dsimp only
    | dsimp +zetaDelta only
    | split
    | (clear_value *; split)

theorem cookieRotate_only (s : State) (i : Fin 16) (t : Nat)  : Only [.out, .svc, .pan, .log, .line, .links, .rings, .cnt, .outs] s (cookieRotate s i t) := by
  unfold cookieRotate
  repeat' first
    | ((fail_if_no_progress extract_lets +onlyGivenNames x); refine Only.cut (L := [.out, .svc, .pan, .log, .line, .links, .rings, .cnt, .outs]) (s := s) (x := x) ?_ ?_; rotate_left; intro hx; clear_value x; rotate_left; dsimp only [x])
    | ((fail_if_no_progress extract_lets +onlyGivenNames x); refine Only.named (b := x.not) ?_; clear_value x)
    | (fail_if_no_progress extract_lets +onlyGivenNames x)
    | with_reducible apply Only.refl
    | with_reducible assumption
    | (with_reducible apply Only.ite <;> intro _)
    | with_reducible (apply Only.step (M := [.svc]); rotate_left; apply keepCookies_only; decide)
    | with_reducible (apply Only.step (M := [.svc]); rotate_left; apply modCk_only; decide)
    | with_reducible (apply Only.step (M := [.svc]); rotate_left; apply modSvc_only; decide)
    | with_reducible (apply Only.step (M := [.out, .pan, .log, .line, .links, .rings, .cnt, .outs]); rotate_left; apply emit_only; decide)
    | with_reducible (refine Only.sndEq (by assumption) ?_)
    | with_reducible (refine Only.fstEq (by assumption) ?_)
    | dsimp only
    | dsimp +zetaDelta only
    | split
    | (clear_value *; split)

theorem countUnsealed_only (s : State) (i : Fin 16) (id : BitVec 32)  : Only [.svc] s (countUnsealed s i id) := by
  unfold countUnsealed
  repeat' first
    | ((fail_if_no_progress extract_lets +onlyGivenNames x); refine Only.cut (L := [.svc]) (s := s) (x := x) ?_ ?_; rotate_left; intro hx; clear_value x; rotate_left; dsimp only [x])
    | ((fail_if_no_progress extract_lets +onlyGivenNames x); refine Only.named (b := x.not) ?_; clear_value x)
    | (fail_if_no_progress extract_lets +onlyGivenNames x)
    | with_reducible apply Only.refl
    | with_reducible assumption
    | (with_reducible apply Only.ite <;> intro _)
    | with_reducible (apply Only.step (M := [.svc]); rotate_left; apply modSvc_only; decide)
    | with_reducible (refine Only.sndEq (by assumption) ?_)
    | with_reducible (refine Only.fstEq (by assumption) ?_)
    | dsimp only
    | dsimp +zetaDelta only
    | split
    | (clear_value *; split)

theorem putCell_only (s : State) (i : Nat) (c : Cell)  : Only [.svc] s (putCell s i c) := by
  unfold putCell
  repeat' first
    | ((fail_if_no_progress extract_lets +onlyGivenNames x); refine Only.cut (L := [.svc]) (s := s) (x := x) ?_ ?_; rotate_left; intro hx; clear_value x; rotate_left; dsimp only [x])
    | ((fail_if_no_progress extract_lets +onlyGivenNames x); refine Only.named (b := x.not) ?_; clear_value x)
    | (fail_if_no_progress extract_lets +onlyGivenNames x)
    | with_reducible apply Only.refl
    | with_reducible assumption
    | (with_reducible apply Only.ite <;> intro _)
    | with_reducible (apply Only.step (M := [.svc]); rotate_left; apply modSvc_only; decide)
    | with_reducible (refine Only.sndEq (by assumption) ?_)
    | with_reducible (refine Only.fstEq (by assumption) ?_)
    | dsimp only
    | dsimp +zetaDelta only
    | split
    | (clear_value *; split)

theorem svcSample_only (s : State) (code : Nat) (p_ : Nat) (ip : IpHdr)  : Only [.svc, .log] s (svcSample s code p_ ip) := by
  unfold svcSample
  repeat' first
    | ((fail_if_no_progress extract_lets +onlyGivenNames x); refine Only.cut (L := [.svc, .log]) (s := s) (x := x) ?_ ?_; rotate_left; intro hx; clear_value x; rotate_left; dsimp only [x])
    | ((fail_if_no_progress extract_lets +onlyGivenNames x); refine Only.named (b := x.not) ?_; clear_value x)
    | (fail_if_no_progress extract_lets +onlyGivenNames x)
    | with_reducible apply Only.refl
    | with_reducible assumption
    | (with_reducible apply Only.ite <;> intro _)
    | with_reducible (apply Only.step (M := [.svc]); rotate_left; apply modSvc_only; decide)
    | with_reducible (apply Only.step (M := [.log]); rotate_left; apply histPut_only; decide)
    | with_reducible (refine Only.sndEq (by assumption) ?_)
    | with_reducible (refine Only.fstEq (by assumption) ?_)
    | dsimp only
    | dsimp +zetaDelta only
    | split
    | (clear_value *; split)

theorem svcDropAs_only (s : State) (code : Nat) (p_ : Nat) (ip : IpHdr)  : Only [.svc, .log, .cnt] s (svcDropAs s code p_ ip) := by
  unfold svcDropAs
  repeat' first
    | ((fail_if_no_progress extract_lets +onlyGivenNames x); refine Only.cut (L := [.svc, .log, .cnt]) (s := s) (x := x) ?_ ?_; rotate_left; intro hx; clear_value x; rotate_left; dsimp only [x])
    | ((fail_if_no_progress extract_lets +onlyGivenNames x); refine Only.named (b := x.not) ?_; clear_value x)
    | (fail_if_no_progress extract_lets +onlyGivenNames x)
    | with_reducible apply Only.refl
    | with_reducible assumption
    | (with_reducible apply Only.ite <;> intro _)
    | with_reducible (apply Only.step (M := [.svc, .log]); rotate_left; apply svcSample_only; decide)
    | with_reducible (apply Only.step (M := [.svc, .cnt]); rotate_left; apply svcCount_only; decide)
    | with_reducible (refine Only.sndEq (by assumption) ?_)
    | with_reducible (refine Only.fstEq (by assumption) ?_)
    | dsimp only
    | dsimp +zetaDelta only
    | split
    | (clear_value *; split)

theorem police_only (s : State) (p_ : Nat) (nts : Bool)  : Only [.svc] s (police s p_ nts).1 := by
  unfold police
  repeat' first
    | ((fail_if_no_progress extract_lets +onlyGivenNames x); refine Only.cut (L := [.svc]) (s := s) (x := x) ?_ ?_; rotate_left; intro hx; clear_value x; rotate_left; dsimp only [x])
    | ((fail_if_no_progress extract_lets +onlyGivenNames x); refine Only.named (b := x.not) ?_; clear_value x)
    | (fail_if_no_progress extract_lets +onlyGivenNames x)
    | with_reducible apply Only.refl
    | with_reducible assumption
    | (with_reducible apply Only.ite <;> intro _)
    | with_reducible (apply Only.step (M := [.svc]); rotate_left; apply svcRefill_only; decide)
    | with_reducible (apply Only.step (M := [.svc]); rotate_left; apply modSvc_only; decide)
    | with_reducible (refine Only.sndEq (by assumption) ?_)
    | with_reducible (refine Only.fstEq (by assumption) ?_)
    | dsimp only
    | dsimp +zetaDelta only
    | split
    | (clear_value *; split)
theorem police_only_eq {s : State} {p_ : Nat} {nts : Bool} {r1} {t0 : State} (hEq : police s p_ nts = (t0, r1)) : Only [.svc] s t0 := by
  have k0 := police_only s p_ nts
  rw [hEq] at k0; exact k0

theorem kodTake_only (s : State)  : Only [.svc, .cnt] s (kodTake s).1 := by
  unfold kodTake
  repeat' first
    | ((fail_if_no_progress extract_lets +onlyGivenNames x); refine Only.cut (L := [.svc, .cnt]) (s := s) (x := x) ?_ ?_; rotate_left; intro hx; clear_value x; rotate_left; dsimp only [x])
    | ((fail_if_no_progress extract_lets +onlyGivenNames x); refine Only.named (b := x.not) ?_; clear_value x)
    | (fail_if_no_progress extract_lets +onlyGivenNames x)
    | with_reducible apply Only.refl
    | with_reducible assumption
    | (with_reducible apply Only.ite <;> intro _)
    | with_reducible (apply Only.step (M := [.svc]); rotate_left; apply modSvc_only; decide)
    | with_reducible (apply Only.step (M := [.svc, .cnt]); rotate_left; apply svcCount_only; decide)
    | with_reducible (refine Only.sndEq (by assumption) ?_)
    | with_reducible (refine Only.fstEq (by assumption) ?_)
    | dsimp only
    | dsimp +zetaDelta only
    | split
    | (clear_value *; split)
theorem kodTake_only_eq {s : State} {r1} {t0 : State} (hEq : kodTake s = (t0, r1)) : Only [.svc, .cnt] s t0 := by
  have k0 := kodTake_only s
  rw [hEq] at k0; exact k0

theorem ntpRefId_only (s : State)  : Only [.free] s (ntpRefId s).2 := by
  unfold ntpRefId
  repeat' first
    | ((fail_if_no_progress extract_lets +onlyGivenNames x); refine Only.cut (L := [.free]) (s := s) (x := x) ?_ ?_; rotate_left; intro hx; clear_value x; rotate_left; dsimp only [x])
    | ((fail_if_no_progress extract_lets +onlyGivenNames x); refine Only.named (b := x.not) ?_; clear_value x)
    | (fail_if_no_progress extract_lets +onlyGivenNames x)
    | with_reducible apply Only.refl
    | with_reducible assumption
    | (with_reducible apply Only.ite <;> intro _)
    | with_reducible (apply Only.step (M := [.free]); rotate_left; exact freeN_only_eq ‹_›; decide)
    | with_reducible (apply Only.step (M := [.free]); rotate_left; apply freeN_only; decide)
    | with_reducible (refine Only.sndEq (by assumption) ?_)
    | with_reducible (refine Only.fstEq (by assumption) ?_)
    | dsimp only
    | dsimp +zetaDelta only
    | split
    | (clear_value *; split)
theorem ntpRefId_only_eq {s : State} {r1} {t0 : State} (hEq : ntpRefId s = (r1, t0)) : Only [.free] s t0 := by
  have k0 := ntpRefId_only s
  rw [hEq] at k0; exact k0

theorem ntpHeader_only (s : State) (req : List Byte) (ingress : Nat) (form : NtpForm)  : Only [.free] s (ntpHeader s req ingress form).2 := by
  unfold ntpHeader
  repeat' first
    | ((fail_if_no_progress extract_lets +onlyGivenNames x); refine Only.cut (L := [.free]) (s := s) (x := x) ?_ ?_; rotate_left; intro hx; clear_value x; rotate_left; dsimp only [x])
    | ((fail_if_no_progress extract_lets +onlyGivenNames x); refine Only.named (b := x.not) ?_; clear_value x)
    | (fail_if_no_progress extract_lets +onlyGivenNames x)
    | with_reducible apply Only.refl
    | with_reducible assumption
    | (with_reducible apply Only.ite <;> intro _)
    | with_reducible (apply Only.step (M := [.free]); rotate_left; exact freeN_only_eq ‹_›; decide)
    | with_reducible (apply Only.step (M := [.free]); rotate_left; apply freeN_only; decide)
    | with_reducible (apply Only.step (M := [.free]); rotate_left; exact ntpRefId_only_eq ‹_›; decide)
    | with_reducible (apply Only.step (M := [.free]); rotate_left; apply ntpRefId_only; decide)
    | with_reducible (refine Only.sndEq (by assumption) ?_)
    | with_reducible (refine Only.fstEq (by assumption) ?_)
    | dsimp only
    | dsimp +zetaDelta only
    | split
    | (clear_value *; split)
theorem ntpHeader_only_eq {s : State} {req : List Byte} {ingress : Nat} {form : NtpForm} {r1} {t0 : State} (hEq : ntpHeader s req ingress form = (r1, t0)) : Only [.free] s t0 := by
  have k0 := ntpHeader_only s req ingress form
  rw [hEq] at k0; exact k0

theorem svcSend_only (s : State) (r : NtpReq) (pay : List Byte) (form : NtpForm) (tail : Option NtsTail)  : Only [.free, .out, .ptp, .eth, .pan, .log, .line, .links, .rings, .cnt, .outs] s (svcSend s r pay form tail) := by
  unfold svcSend
  repeat' first
    | ((fail_if_no_progress extract_lets +onlyGivenNames x); refine Only.cut (L := [.free, .out, .ptp, .eth, .pan, .log, .line, .links, .rings, .cnt, .outs]) (s := s) (x := x) ?_ ?_; rotate_left; intro hx; clear_value x; rotate_left; dsimp only [x])
    | ((fail_if_no_progress extract_lets +onlyGivenNames x); refine Only.named (b := x.not) ?_; clear_value x)
    | (fail_if_no_progress extract_lets +onlyGivenNames x)
    | with_reducible apply Only.refl
    | with_reducible assumption
    | (with_reducible apply Only.ite <;> intro _)
    | with_reducible (apply Only.step (M := [.free, .out, .ptp, .eth, .pan, .log, .line, .links, .rings, .cnt, .outs]); rotate_left; apply txPut_only; decide)
    | with_reducible (refine Only.sndEq (by assumption) ?_)
    | with_reducible (refine Only.fstEq (by assumption) ?_)
    | dsimp only
    | dsimp +zetaDelta only
    | split
    | (clear_value *; split)

theorem ntsnAnswer_only (s : State) (r : NtpReq) (code : Nat)  : Only [.free, .out, .svc, .ptp, .eth, .pan, .log, .line, .links, .rings, .cnt, .outs] s (ntsnAnswer s r code) := by
  unfold ntsnAnswer
  repeat' first
    | ((fail_if_no_progress extract_lets +onlyGivenNames x); refine Only.cut (L := [.free, .out, .svc, .ptp, .eth, .pan, .log, .line, .links, .rings, .cnt, .outs]) (s := s) (x := x) ?_ ?_; rotate_left; intro hx; clear_value x; rotate_left; dsimp only [x])
    | ((fail_if_no_progress extract_lets +onlyGivenNames x); refine Only.named (b := x.not) ?_; clear_value x)
    | (fail_if_no_progress extract_lets +onlyGivenNames x)
    | with_reducible apply Only.refl
    | with_reducible assumption
    | (with_reducible apply Only.ite <;> intro _)
    | with_reducible (apply Only.step (M := [.svc, .cnt]); rotate_left; apply svcCount_only; decide)
    | with_reducible (apply Only.step (M := [.svc, .cnt]); rotate_left; exact kodTake_only_eq ‹_›; decide)
    | with_reducible (apply Only.step (M := [.svc, .cnt]); rotate_left; apply kodTake_only; decide)
    | with_reducible (apply Only.step (M := [.free]); rotate_left; exact ntpHeader_only_eq ‹_›; decide)
    | with_reducible (apply Only.step (M := [.free]); rotate_left; apply ntpHeader_only; decide)
    | with_reducible (apply Only.step (M := [.free, .out, .ptp, .eth, .pan, .log, .line, .links, .rings, .cnt, .outs]); rotate_left; apply svcSend_only; decide)
    | with_reducible (refine Only.sndEq (by assumption) ?_)
    | with_reducible (refine Only.fstEq (by assumption) ?_)
    | dsimp only
    | dsimp +zetaDelta only
    | split
    | (clear_value *; split)

theorem rlTake_only (s : State) (v6 : Bool) (addr : BitVec 128)  : Only [.svc] s (rlTake s v6 addr).1 := by
  unfold rlTake
  repeat' first
    | ((fail_if_no_progress extract_lets +onlyGivenNames x); refine Only.cut (L := [.svc]) (s := s) (x := x) ?_ ?_; rotate_left; intro hx; clear_value x; rotate_left; dsimp only [x])
    | ((fail_if_no_progress extract_lets +onlyGivenNames x); refine Only.named (b := x.not) ?_; clear_value x)
    | (fail_if_no_progress extract_lets +onlyGivenNames x)
    | with_reducible apply Only.refl
    | with_reducible assumption
    | (with_reducible apply Only.ite <;> intro _)
    | with_reducible (apply Only.step (M := [.svc]); rotate_left; apply putCell_only; decide)
    | with_reducible (refine Only.sndEq (by assumption) ?_)
    | with_reducible (refine Only.fstEq (by assumption) ?_)
    | dsimp only
    | dsimp +zetaDelta only
    | split
    | (clear_value *; split)
theorem rlTake_only_eq {s : State} {v6 : Bool} {addr : BitVec 128} {r1} {t0 : State} (hEq : rlTake s v6 addr = (t0, r1)) : Only [.svc] s t0 := by
  have k0 := rlTake_only s v6 addr
  rw [hEq] at k0; exact k0

theorem mintCookie_only (s : State) (e : CookieKey) (ns : Nat) (c : CookieKeys)  : Only [.svc, .key, .cnt] s (mintCookie s e ns c).2 := by
  unfold mintCookie
  repeat' first
    | ((fail_if_no_progress extract_lets +onlyGivenNames x); refine Only.cut (L := [.svc, .key, .cnt]) (s := s) (x := x) ?_ ?_; rotate_left; intro hx; clear_value x; rotate_left; dsimp only [x])
    | ((fail_if_no_progress extract_lets +onlyGivenNames x); refine Only.named (b := x.not) ?_; clear_value x)
    | (fail_if_no_progress extract_lets +onlyGivenNames x)
    | with_reducible apply Only.refl
    | with_reducible assumption
    | (with_reducible apply Only.ite <;> intro _)
    | with_reducible (apply Only.step (M := [.key, .cnt]); rotate_left; exact drawBytes_only_eq ‹_›; decide)
    | with_reducible (apply Only.step (M := [.key, .cnt]); rotate_left; apply drawBytes_only; decide)
    | with_reducible (apply Only.step (M := [.svc, .cnt]); rotate_left; apply svcCount_only; decide)
    | with_reducible (refine Only.sndEq (by assumption) ?_)
    | with_reducible (refine Only.fstEq (by assumption) ?_)
    | dsimp only
    | dsimp +zetaDelta only
    | split
    | (clear_value *; split)
theorem mintCookie_only_eq {s : State} {e : CookieKey} {ns : Nat} {c : CookieKeys} {r1} {t0 : State} (hEq : mintCookie s e ns c = (r1, t0)) : Only [.svc, .key, .cnt] s t0 := by
  have k0 := mintCookie_only s e ns c
  rw [hEq] at k0; exact k0

theorem mintN_only (a1 : Nat) (a2 : State) (a3 : CookieKey) (a4 : Nat) (a5 : CookieKeys) (a6 : Bool)  : Only [.svc, .key, .cnt] a2 (mintN a1 a2 a3 a4 a5 a6).2 := by
  induction a1 generalizing a2 a3 a4 a5 a6 with
  | zero => unfold mintN; exact Only.refl _ _
  | succ n ih =>
    unfold mintN
    repeat' first
      | ((fail_if_no_progress extract_lets +onlyGivenNames x); refine Only.cut (L := [.svc, .key, .cnt]) (s := a2) (x := x) ?_ ?_; rotate_left; intro hx; clear_value x; rotate_left; dsimp only [x])
      | ((fail_if_no_progress extract_lets +onlyGivenNames x); refine Only.named (b := x.not) ?_; clear_value x)
      | (fail_if_no_progress extract_lets +onlyGivenNames x)
      | with_reducible apply Only.refl
      | with_reducible assumption
      | (with_reducible (apply Only.step; rotate_left; apply ih; exact (fun _ h => h)))
      | (with_reducible apply Only.ite <;> intro _)
      | with_reducible (apply Only.step (M := [.svc, .key, .cnt]); rotate_left; exact mintCookie_only_eq ‹_›; decide)
      | with_reducible (apply Only.step (M := [.svc, .key, .cnt]); rotate_left; apply mintCookie_only; decide)
      | with_reducible (refine Only.sndEq (by assumption) ?_)
      | with_reducible (refine Only.fstEq (by assumption) ?_)
      | dsimp only
      | dsimp +zetaDelta only
      | split
      | (clear_value *; split)
theorem mintN_only_eq {a1 : Nat} {a2 : State} {a3 : CookieKey} {a4 : Nat} {a5 : CookieKeys} {a6 : Bool} {r1} {t0 : State} (hEq : mintN a1 a2 a3 a4 a5 a6 = (r1, t0)) : Only [.svc, .key, .cnt] a2 t0 := by
  have k0 := mintN_only a1 a2 a3 a4 a5 a6
  rw [hEq] at k0; exact k0

theorem ntsAnswer_only (s : State) (r : NtpReq) (e : CookieKey) (c : CookieKeys) (form : NtpForm)  : Only [.free, .out, .svc, .ptp, .eth, .key, .pan, .log, .line, .links, .rings, .cnt, .outs] s (ntsAnswer s r e c form) := by
  unfold ntsAnswer
  repeat' first
    | ((fail_if_no_progress extract_lets +onlyGivenNames x); refine Only.cut (L := [.free, .out, .svc, .ptp, .eth, .key, .pan, .log, .line, .links, .rings, .cnt, .outs]) (s := s) (x := x) ?_ ?_; rotate_left; intro hx; clear_value x; rotate_left; dsimp only [x])
    | ((fail_if_no_progress extract_lets +onlyGivenNames x); refine Only.named (b := x.not) ?_; clear_value x)
    | (fail_if_no_progress extract_lets +onlyGivenNames x)
    | with_reducible apply Only.refl
    | with_reducible assumption
    | (with_reducible apply Only.ite <;> intro _)
    | with_reducible (apply Only.step (M := [.free]); rotate_left; exact ntpHeader_only_eq ‹_›; decide)
    | with_reducible (apply Only.step (M := [.free]); rotate_left; apply ntpHeader_only; decide)
    | with_reducible (apply Only.step (M := [.svc, .key, .cnt]); rotate_left; exact mintN_only_eq ‹_›; decide)
    | with_reducible (apply Only.step (M := [.svc, .key, .cnt]); rotate_left; apply mintN_only; decide)
    | with_reducible (apply Only.step (M := [.key, .cnt]); rotate_left; exact drawBytes_only_eq ‹_›; decide)
    | with_reducible (apply Only.step (M := [.key, .cnt]); rotate_left; apply drawBytes_only; decide)
    | with_reducible (apply Only.step (M := [.free, .out, .ptp, .eth, .pan, .log, .line, .links, .rings, .cnt, .outs]); rotate_left; apply svcSend_only; decide)
    | with_reducible (refine Only.sndEq (by assumption) ?_)
    | with_reducible (refine Only.fstEq (by assumption) ?_)
    | dsimp only
    | dsimp +zetaDelta only
    | split
    | (clear_value *; split)

theorem svcAnswer_only (s : State) (r : NtpReq) (nts : Option (CookieKey × CookieKeys))  : Only [.free, .out, .svc, .ptp, .eth, .key, .pan, .log, .line, .links, .rings, .cnt, .outs] s (svcAnswer s r nts) := by
  unfold svcAnswer
  repeat' first
    | ((fail_if_no_progress extract_lets +onlyGivenNames x); refine Only.cut (L := [.free, .out, .svc, .ptp, .eth, .key, .pan, .log, .line, .links, .rings, .cnt, .outs]) (s := s) (x := x) ?_ ?_; rotate_left; intro hx; clear_value x; rotate_left; dsimp only [x])
    | ((fail_if_no_progress extract_lets +onlyGivenNames x); refine Only.named (b := x.not) ?_; clear_value x)
    | (fail_if_no_progress extract_lets +onlyGivenNames x)
    | with_reducible apply Only.refl
    | with_reducible assumption
    | (with_reducible apply Only.ite <;> intro _)
    | with_reducible (apply Only.step (M := [.svc]); rotate_left; exact rlTake_only_eq ‹_›; decide)
    | with_reducible (apply Only.step (M := [.svc]); rotate_left; apply rlTake_only; decide)
    | with_reducible (apply Only.step (M := [.svc, .cnt]); rotate_left; apply svcCount_only; decide)
    | with_reducible (apply Only.step (M := [.free, .out, .svc, .ptp, .eth, .key, .pan, .log, .line, .links, .rings, .cnt, .outs]); rotate_left; apply ntsAnswer_only; decide)
    | with_reducible (apply Only.step (M := [.free]); rotate_left; exact ntpHeader_only_eq ‹_›; decide)
    | with_reducible (apply Only.step (M := [.free]); rotate_left; apply ntpHeader_only; decide)
    | with_reducible (apply Only.step (M := [.free, .out, .ptp, .eth, .pan, .log, .line, .links, .rings, .cnt, .outs]); rotate_left; apply svcSend_only; decide)
    | with_reducible (apply Only.step (M := [.svc, .cnt]); rotate_left; exact kodTake_only_eq ‹_›; decide)
    | with_reducible (apply Only.step (M := [.svc, .cnt]); rotate_left; apply kodTake_only; decide)
    | with_reducible (refine Only.sndEq (by assumption) ?_)
    | with_reducible (refine Only.fstEq (by assumption) ?_)
    | dsimp only
    | dsimp +zetaDelta only
    | split
    | (clear_value *; split)

theorem ntsRequest_only (s : State) (r : NtpReq) (fields : List ExtField)  : Only [.free, .out, .svc, .ptp, .eth, .key, .pan, .log, .line, .links, .rings, .cnt, .outs] s (ntsRequest s r fields) := by
  unfold ntsRequest
  repeat' first
    | ((fail_if_no_progress extract_lets +onlyGivenNames x); refine Only.cut (L := [.free, .out, .svc, .ptp, .eth, .key, .pan, .log, .line, .links, .rings, .cnt, .outs]) (s := s) (x := x) ?_ ?_; rotate_left; intro hx; clear_value x; rotate_left; dsimp only [x])
    | ((fail_if_no_progress extract_lets +onlyGivenNames x); refine Only.named (b := x.not) ?_; clear_value x)
    | (fail_if_no_progress extract_lets +onlyGivenNames x)
    | with_reducible apply Only.refl
    | with_reducible assumption
    | (with_reducible apply Only.ite <;> intro _)
    | with_reducible (apply Only.step (M := [.svc, .log, .cnt]); rotate_left; apply svcDropAs_only; decide)
    | with_reducible (apply Only.step (M := [.free, .out, .svc, .ptp, .eth, .pan, .log, .line, .links, .rings, .cnt, .outs]); rotate_left; apply ntsnAnswer_only; decide)
    | with_reducible (apply Only.step (M := [.svc]); rotate_left; apply countUnsealed_only; decide)
    | with_reducible (apply Only.step (M := [.svc, .cnt]); rotate_left; apply svcCount_only; decide)
    | with_reducible (apply Only.step (M := [.free, .out, .svc, .ptp, .eth, .key, .pan, .log, .line, .links, .rings, .cnt, .outs]); rotate_left; apply svcAnswer_only; decide)
    | with_reducible (refine Only.sndEq (by assumption) ?_)
    | with_reducible (refine Only.fstEq (by assumption) ?_)
    | dsimp only
    | dsimp +zetaDelta only
    | split
    | (clear_value *; split)

theorem svcFrame_only (s : State) (p_ : Fin 9) (phase : Fin 16) (f : EthFrame) (ip : IpHdr) (sport : BitVec 16) (pay : List Byte) (e : Nat) (taken : Bool)  : Only [.free, .out, .svc, .ptp, .eth, .key, .pan, .log, .line, .links, .rings, .cnt, .outs] s (svcFrame s p_ phase f ip sport pay e taken) := by
  unfold svcFrame
  repeat' first
    | ((fail_if_no_progress extract_lets +onlyGivenNames x); refine Only.cut (L := [.free, .out, .svc, .ptp, .eth, .key, .pan, .log, .line, .links, .rings, .cnt, .outs]) (s := s) (x := x) ?_ ?_; rotate_left; intro hx; clear_value x; rotate_left; dsimp only [x])
    | ((fail_if_no_progress extract_lets +onlyGivenNames x); refine Only.named (b := x.not) ?_; clear_value x)
    | (fail_if_no_progress extract_lets +onlyGivenNames x)
    | with_reducible apply Only.refl
    | with_reducible assumption
    | (with_reducible apply Only.ite <;> intro _)
    | with_reducible (apply Only.step (M := [.eth]); rotate_left; apply ethCnt_only; decide)
    | with_reducible (apply Only.step (M := [.svc, .log, .cnt]); rotate_left; apply svcDropAs_only; decide)
    | with_reducible (apply Only.step (M := [.svc, .cnt]); rotate_left; apply svcCount_only; decide)
    | with_reducible (apply Only.step (M := [.svc]); rotate_left; exact police_only_eq ‹_›; decide)
    | with_reducible (apply Only.step (M := [.svc]); rotate_left; apply police_only; decide)
    | with_reducible (apply Only.step (M := [.free, .out, .svc, .ptp, .eth, .key, .pan, .log, .line, .links, .rings, .cnt, .outs]); rotate_left; apply ntsRequest_only; decide)
    | with_reducible (apply Only.step (M := [.free, .out, .svc, .ptp, .eth, .key, .pan, .log, .line, .links, .rings, .cnt, .outs]); rotate_left; apply svcAnswer_only; decide)
    | with_reducible (refine Only.sndEq (by assumption) ?_)
    | with_reducible (refine Only.fstEq (by assumption) ?_)
    | dsimp only
    | dsimp +zetaDelta only
    | split
    | (clear_value *; split)

end Sys2Proof.Laws
end

