-- ==== Sys2Proof/Laws/KeyOps.lean ====
section
/-! SUPPORT. What each operation of Machine/KeyOps.lean can touch, once for each. -/
set_option linter.unusedTactic false
set_option linter.unreachableTactic false
namespace Sys2Proof.Laws
open Sys2Proof
open Sys2Proof.Machine
open Sys2Proof.Safety

theorem abortInvals_only (s : State)  : Only [.key, .hif] s (abortInvals s) := by
  unfold abortInvals
  repeat' first
    | ((fail_if_no_progress extract_lets +onlyGivenNames x); refine Only.cut (L := [.key, .hif]) (s := s) (x := x) ?_ ?_; rotate_left; intro hx; clear_value x; rotate_left; dsimp only [x])
    | ((fail_if_no_progress extract_lets +onlyGivenNames x); refine Only.named (b := x.not) ?_; clear_value x)
    | (fail_if_no_progress extract_lets +onlyGivenNames x)
    | (with_reducible apply Only.foldl; (intro _ _ _))
    | (with_reducible apply Only.foldlFst; (intro _ _ _))
    | with_reducible apply Only.refl
    | with_reducible assumption
    | (with_reducible apply Only.ite <;> intro _)
    | with_reducible (apply Only.step (M := [.hif]); rotate_left; apply fin_only; decide)
    | with_reducible (apply Only.step (M := [.key]); rotate_left; apply modKey_only; decide)
    | with_reducible (refine Only.sndEq (by assumption) ?_)
    | with_reducible (refine Only.fstEq (by assumption) ?_)
    | dsimp only
    | dsimp +zetaDelta only
    | split
    | (clear_value *; split)

theorem abortSeals_only (s : State)  : Only [.svc, .eth, .cnt] s (abortSeals s) := by
  unfold abortSeals
  repeat' first
    | ((fail_if_no_progress extract_lets +onlyGivenNames x); refine Only.cut (L := [.svc, .eth, .cnt]) (s := s) (x := x) ?_ ?_; rotate_left; intro hx; clear_value x; rotate_left; dsimp only [x])
    | ((fail_if_no_progress extract_lets +onlyGivenNames x); refine Only.named (b := x.not) ?_; clear_value x)
    | (fail_if_no_progress extract_lets +onlyGivenNames x)
    | (with_reducible apply Only.foldl; (intro _ _ _))
    | (with_reducible apply Only.foldlFst; (intro _ _ _))
    | with_reducible apply Only.refl
    | with_reducible assumption
    | (with_reducible apply Only.ite <;> intro _)
    | with_reducible (apply Only.step (M := [.svc, .cnt]); rotate_left; apply svcCount_only; decide)
    | with_reducible (apply Only.step (M := [.eth]); rotate_left; apply wdUpdate_only; decide)
    | with_reducible (apply Only.step (M := [.eth]); rotate_left; apply modPort_only; decide)
    | with_reducible (refine Only.sndEq (by assumption) ?_)
    | with_reducible (refine Only.fstEq (by assumption) ?_)
    | dsimp only
    | dsimp +zetaDelta only
    | split
    | (clear_value *; split)

theorem fillSlot_only (s : State) (slot : Nat) (parent : Nat) (origin : Nat) (bits : Nat) (key : Nat)  : Only [.key] s (fillSlot s slot parent origin bits key) := by
  unfold fillSlot
  repeat' first
    | ((fail_if_no_progress extract_lets +onlyGivenNames x); refine Only.cut (L := [.key]) (s := s) (x := x) ?_ ?_; rotate_left; intro hx; clear_value x; rotate_left; dsimp only [x])
    | ((fail_if_no_progress extract_lets +onlyGivenNames x); refine Only.named (b := x.not) ?_; clear_value x)
    | (fail_if_no_progress extract_lets +onlyGivenNames x)
    | with_reducible apply Only.refl
    | with_reducible assumption
    | (with_reducible apply Only.ite <;> intro _)
    | with_reducible (apply Only.step (M := [.key]); rotate_left; apply setSlot_only; decide)
    | with_reducible (refine Only.sndEq (by assumption) ?_)
    | with_reducible (refine Only.fstEq (by assumption) ?_)
    | dsimp only
    | dsimp +zetaDelta only
    | split
    | (clear_value *; split)

theorem invalidate_only (s : State) (l : List Nat)  : Only [.key] s (invalidate s l) := by
  unfold invalidate
  repeat' first
    | ((fail_if_no_progress extract_lets +onlyGivenNames x); refine Only.cut (L := [.key]) (s := s) (x := x) ?_ ?_; rotate_left; intro hx; clear_value x; rotate_left; dsimp only [x])
    | ((fail_if_no_progress extract_lets +onlyGivenNames x); refine Only.named (b := x.not) ?_; clear_value x)
    | (fail_if_no_progress extract_lets +onlyGivenNames x)
    | (with_reducible apply Only.foldl; (intro _ _ _))
    | (with_reducible apply Only.foldlFst; (intro _ _ _))
    | with_reducible apply Only.refl
    | with_reducible assumption
    | (with_reducible apply Only.ite <;> intro _)
    | with_reducible (apply Only.step (M := [.key]); rotate_left; apply setSlot_only; decide)
    | with_reducible (refine Only.sndEq (by assumption) ?_)
    | with_reducible (refine Only.fstEq (by assumption) ?_)
    | dsimp only
    | dsimp +zetaDelta only
    | split
    | (clear_value *; split)

theorem retireEntries_only (s : State) (tc : Nat) (hit : Nat → Bool)  : Only [.out, .svc, .ptp, .key, .pan, .log, .line, .pair, .links, .rings, .cnt, .outs] s (retireEntries s tc hit) := by
  unfold retireEntries
  repeat' first
    | ((fail_if_no_progress extract_lets +onlyGivenNames x); refine Only.cut (L := [.out, .svc, .ptp, .key, .pan, .log, .line, .pair, .links, .rings, .cnt, .outs]) (s := s) (x := x) ?_ ?_; rotate_left; intro hx; clear_value x; rotate_left; dsimp only [x])
    | ((fail_if_no_progress extract_lets +onlyGivenNames x); refine Only.named (b := x.not) ?_; clear_value x)
    | (fail_if_no_progress extract_lets +onlyGivenNames x)
    | (with_reducible apply Only.foldl; (intro _ _ _))
    | (with_reducible apply Only.foldlFst; (intro _ _ _))
    | with_reducible apply Only.refl
    | with_reducible assumption
    | (with_reducible apply Only.ite <;> intro _)
    | with_reducible (apply Only.step (M := [.out, .key, .pan, .log, .line, .pair, .links, .rings, .cnt, .outs]); rotate_left; apply mirrorCookie_only; decide)
    | with_reducible (apply Only.step (M := [.out, .svc, .pan, .log, .line, .links, .rings, .cnt, .outs]); rotate_left; apply cookieRetire_only; decide)
    | with_reducible (apply Only.step (M := [.out, .key, .pan, .log, .line, .pair, .links, .rings, .cnt, .outs]); rotate_left; apply mirrorSec_only; decide)
    | with_reducible (apply Only.step (M := [.out, .ptp, .pan, .log, .line, .links, .rings, .cnt, .outs]); rotate_left; apply secRetire_only; decide)
    | with_reducible (refine Only.sndEq (by assumption) ?_)
    | with_reducible (refine Only.fstEq (by assumption) ?_)
    | dsimp only
    | dsimp +zetaDelta only
    | split
    | (clear_value *; split)

theorem commitInval_only (s : State) (v : Inval)  : Only [.out, .svc, .ptp, .key, .pan, .log, .line, .pair, .links, .rings, .hif, .cnt, .outs] s (commitInval s v) := by
  unfold commitInval
  repeat' first
    | ((fail_if_no_progress extract_lets +onlyGivenNames x); refine Only.cut (L := [.out, .svc, .ptp, .key, .pan, .log, .line, .pair, .links, .rings, .hif, .cnt, .outs]) (s := s) (x := x) ?_ ?_; rotate_left; intro hx; clear_value x; rotate_left; dsimp only [x])
    | ((fail_if_no_progress extract_lets +onlyGivenNames x); refine Only.named (b := x.not) ?_; clear_value x)
    | (fail_if_no_progress extract_lets +onlyGivenNames x)
    | with_reducible apply Only.refl
    | with_reducible assumption
    | (with_reducible apply Only.ite <;> intro _)
    | with_reducible (apply Only.step (M := [.key]); rotate_left; apply modKey_only; decide)
    | with_reducible (apply Only.step (M := [.key]); rotate_left; apply invalidate_only; decide)
    | with_reducible (apply Only.step (M := [.out, .pan, .log, .line, .links, .rings, .cnt, .outs]); rotate_left; apply emit_only; decide)
    | with_reducible (apply Only.step (M := [.out, .svc, .ptp, .key, .pan, .log, .line, .pair, .links, .rings, .cnt, .outs]); rotate_left; apply retireEntries_only; decide)
    | with_reducible (apply Only.step (M := [.hif]); rotate_left; apply complete_only; decide)
    | with_reducible (refine Only.sndEq (by assumption) ?_)
    | with_reducible (refine Only.fstEq (by assumption) ?_)
    | dsimp only
    | dsimp +zetaDelta only
    | split
    | (clear_value *; split)

theorem beginInval_only (s : State) (host : Option Hdr) (slot : Nat)  : Only [.key] s (beginInval s host slot) := by
  unfold beginInval
  repeat' first
    | ((fail_if_no_progress extract_lets +onlyGivenNames x); refine Only.cut (L := [.key]) (s := s) (x := x) ?_ ?_; rotate_left; intro hx; clear_value x; rotate_left; dsimp only [x])
    | ((fail_if_no_progress extract_lets +onlyGivenNames x); refine Only.named (b := x.not) ?_; clear_value x)
    | (fail_if_no_progress extract_lets +onlyGivenNames x)
    | with_reducible apply Only.refl
    | with_reducible assumption
    | (with_reducible apply Only.ite <;> intro _)
    | with_reducible (apply Only.step (M := [.key]); rotate_left; apply modKey_only; decide)
    | with_reducible (refine Only.sndEq (by assumption) ?_)
    | with_reducible (refine Only.fstEq (by assumption) ?_)
    | dsimp only
    | dsimp +zetaDelta only
    | split
    | (clear_value *; split)

theorem signDigest_only (s : State) (slot : Nat) (digest : Nat)  : Only [.key, .cnt] s (signDigest s slot digest).2 := by
  unfold signDigest
  repeat' first
    | ((fail_if_no_progress extract_lets +onlyGivenNames x); refine Only.cut (L := [.key, .cnt]) (s := s) (x := x) ?_ ?_; rotate_left; intro hx; clear_value x; rotate_left; dsimp only [x])
    | ((fail_if_no_progress extract_lets +onlyGivenNames x); refine Only.named (b := x.not) ?_; clear_value x)
    | (fail_if_no_progress extract_lets +onlyGivenNames x)
    | with_reducible apply Only.refl
    | with_reducible assumption
    | (with_reducible apply Only.ite <;> intro _)
    | with_reducible (apply Only.step (M := [.key, .cnt]); rotate_left; exact draw_only_eq ‹_›; decide)
    | with_reducible (apply Only.step (M := [.key, .cnt]); rotate_left; apply draw_only; decide)
    | with_reducible (refine Only.sndEq (by assumption) ?_)
    | with_reducible (refine Only.fstEq (by assumption) ?_)
    | dsimp only
    | dsimp +zetaDelta only
    | split
    | (clear_value *; split)
theorem signDigest_only_eq {s : State} {slot : Nat} {digest : Nat} {r1} {t0 : State} (hEq : signDigest s slot digest = (r1, t0)) : Only [.key, .cnt] s t0 := by
  have k0 := signDigest_only s slot digest
  rw [hEq] at k0; exact k0

theorem deriveFixed_only (s : State)  : Only [.key] s (deriveFixed s) := by
  unfold deriveFixed
  repeat' first
    | ((fail_if_no_progress extract_lets +onlyGivenNames x); refine Only.cut (L := [.key]) (s := s) (x := x) ?_ ?_; rotate_left; intro hx; clear_value x; rotate_left; dsimp only [x])
    | ((fail_if_no_progress extract_lets +onlyGivenNames x); refine Only.named (b := x.not) ?_; clear_value x)
    | (fail_if_no_progress extract_lets +onlyGivenNames x)
    | with_reducible apply Only.refl
    | with_reducible assumption
    | (with_reducible apply Only.ite <;> intro _)
    | with_reducible (apply Only.step (M := [.key]); rotate_left; apply fillSlot_only; decide)
    | with_reducible (apply Only.step (M := [.key]); rotate_left; apply modKey_only; decide)
    | with_reducible (refine Only.sndEq (by assumption) ?_)
    | with_reducible (refine Only.fstEq (by assumption) ?_)
    | dsimp only
    | dsimp +zetaDelta only
    | split
    | (clear_value *; split)

theorem tamperLog_only (s : State) (source : Nat) (phase : Nat)  : Only [.key] s (tamperLog s source phase) := by
  unfold tamperLog
  repeat' first
    | ((fail_if_no_progress extract_lets +onlyGivenNames x); refine Only.cut (L := [.key]) (s := s) (x := x) ?_ ?_; rotate_left; intro hx; clear_value x; rotate_left; dsimp only [x])
    | ((fail_if_no_progress extract_lets +onlyGivenNames x); refine Only.named (b := x.not) ?_; clear_value x)
    | (fail_if_no_progress extract_lets +onlyGivenNames x)
    | with_reducible apply Only.refl
    | with_reducible assumption
    | (with_reducible apply Only.ite <;> intro _)
    | with_reducible (apply Only.step (M := [.key]); rotate_left; apply modKey_only; decide)
    | with_reducible (refine Only.sndEq (by assumption) ?_)
    | with_reducible (refine Only.fstEq (by assumption) ?_)
    | dsimp only
    | dsimp +zetaDelta only
    | split
    | (clear_value *; split)

theorem zeroise_only (s : State) (source : Nat) (phase : Nat)  : Only [.out, .svc, .ptp, .eth, .key, .pan, .log, .line, .pair, .links, .rings, .hif, .cnt, .outs] s (zeroise s source phase) := by
  unfold zeroise
  repeat' first
    | ((fail_if_no_progress extract_lets +onlyGivenNames x); refine Only.cut (L := [.out, .svc, .ptp, .eth, .key, .pan, .log, .line, .pair, .links, .rings, .hif, .cnt, .outs]) (s := s) (x := x) ?_ ?_; rotate_left; intro hx; clear_value x; rotate_left; dsimp only [x])
    | ((fail_if_no_progress extract_lets +onlyGivenNames x); refine Only.named (b := x.not) ?_; clear_value x)
    | (fail_if_no_progress extract_lets +onlyGivenNames x)
    | with_reducible apply Only.refl
    | with_reducible assumption
    | (with_reducible apply Only.ite <;> intro _)
    | with_reducible (apply Only.step (M := [.svc, .eth, .cnt]); rotate_left; apply abortSeals_only; decide)
    | with_reducible (apply Only.step (M := [.key, .hif]); rotate_left; apply abortInvals_only; decide)
    | with_reducible (apply Only.step (M := [.key]); rotate_left; apply modKey_only; decide)
    | with_reducible (apply Only.step (M := [.out, .pan, .log, .line, .links, .rings, .cnt, .outs]); rotate_left; apply emit_only; decide)
    | with_reducible (apply Only.step (M := [.out, .svc, .ptp, .key, .pan, .log, .line, .pair, .links, .rings, .cnt, .outs]); rotate_left; apply retireEntries_only; decide)
    | (fail_if_no_progress (with_reducible (apply Only.step (M := [.pair]); rotate_left; apply set_pair_only_pair; rfl; decide)))
    | with_reducible (refine Only.sndEq (by assumption) ?_)
    | with_reducible (refine Only.fstEq (by assumption) ?_)
    | dsimp only
    | dsimp +zetaDelta only
    | split
    | (clear_value *; split)

theorem tamper_only (s : State) (source : Nat) (phase : Nat)  : Only [.out, .svc, .ptp, .eth, .key, .pan, .log, .line, .pair, .links, .rings, .hif, .cnt, .outs] s (tamper s source phase) := by
  unfold tamper
  repeat' first
    | ((fail_if_no_progress extract_lets +onlyGivenNames x); refine Only.cut (L := [.out, .svc, .ptp, .eth, .key, .pan, .log, .line, .pair, .links, .rings, .hif, .cnt, .outs]) (s := s) (x := x) ?_ ?_; rotate_left; intro hx; clear_value x; rotate_left; dsimp only [x])
    | ((fail_if_no_progress extract_lets +onlyGivenNames x); refine Only.named (b := x.not) ?_; clear_value x)
    | (fail_if_no_progress extract_lets +onlyGivenNames x)
    | with_reducible apply Only.refl
    | with_reducible assumption
    | (with_reducible apply Only.ite <;> intro _)
    | with_reducible (apply Only.step (M := [.pan]); rotate_left; apply modFig_only; decide)
    | with_reducible (apply Only.step (M := [.key]); rotate_left; apply modKey_only; decide)
    | with_reducible (apply Only.step (M := [.key]); rotate_left; apply tamperLog_only; decide)
    | with_reducible (apply Only.step (M := [.out, .svc, .ptp, .eth, .key, .pan, .log, .line, .pair, .links, .rings, .hif, .cnt, .outs]); rotate_left; apply zeroise_only; decide)
    | with_reducible (refine Only.sndEq (by assumption) ?_)
    | with_reducible (refine Only.fstEq (by assumption) ?_)
    | dsimp only
    | dsimp +zetaDelta only
    | split
    | (clear_value *; split)

theorem zeroMaterial_only (s : State) (l : List Nat)  : Only [.key] s (zeroMaterial s l) := by
  unfold zeroMaterial
  repeat' first
    | ((fail_if_no_progress extract_lets +onlyGivenNames x); refine Only.cut (L := [.key]) (s := s) (x := x) ?_ ?_; rotate_left; intro hx; clear_value x; rotate_left; dsimp only [x])
    | ((fail_if_no_progress extract_lets +onlyGivenNames x); refine Only.named (b := x.not) ?_; clear_value x)
    | (fail_if_no_progress extract_lets +onlyGivenNames x)
    | (with_reducible apply Only.foldl; (intro _ _ _))
    | (with_reducible apply Only.foldlFst; (intro _ _ _))
    | with_reducible apply Only.refl
    | with_reducible assumption
    | (with_reducible apply Only.ite <;> intro _)
    | with_reducible (apply Only.step (M := [.key]); rotate_left; apply setSlot_only; decide)
    | with_reducible (refine Only.sndEq (by assumption) ?_)
    | with_reducible (refine Only.fstEq (by assumption) ?_)
    | dsimp only
    | dsimp +zetaDelta only
    | split
    | (clear_value *; split)

end Sys2Proof.Laws
end

