-- ==== Sys2Proof/Laws/Cmd.lean ====
section
/-! SUPPORT. What an answer can touch, and the forms that every host command shares. -/
namespace Sys2Proof.Laws
open Sys2Proof
open Sys2Proof.Machine
open Sys2Proof.Safety

/-- Where an answer is a next state, only the parts listed differ. -/
def OnlyAns (L : List Part) (s : State) (a : Ans) : Prop := ∀ t, a = .next t → Only L s t

theorem OnlyAns.next {L : List Part} {s t : State} (h : Only L s t) : OnlyAns L s (.next t) := by
  intro u hu; cases hu; exact h

theorem OnlyAns.ite {L : List Part} {s : State} {a b : Ans} {c : Prop} [Decidable c] (ha : c → OnlyAns L s a) (hb : ¬c → OnlyAns L s b) :
    OnlyAns L s (if c then a else b) := by
  by_cases h : c
  · rw [if_pos h]; exact ha h
  · rw [if_neg h]; exact hb h

/-- A host command touches what its body touches, and the completions. -/
theorem OnlyAns.cmd {L : List Part} {s : State} {hd : Hdr} {op : Nat} {pre : Option (BitVec 8)} {body : State → State}
    (sub : ∀ p ∈ [Part.hif], p ∈ L) (h : Only L s (body s)) : OnlyAns L s (Machine.cmd s hd op pre body) := by
  have f : ∀ st, Only L s (fin s hd op st) := fun st => Only.mono (fin_only ..) sub
  unfold Machine.cmd
  split
  · refine OnlyAns.next (Only.ite (fun _ => Only.refl _ _) fun _ => ?_)
    split
    · exact f _
    · exact h
  · refine OnlyAns.next ?_
    split
    · exact f _
    · exact Only.ite (fun _ => h) fun _ => f _
  · exact OnlyAns.next (Only.refl _ _)

/-- A key command counts first. -/
theorem OnlyAns.keyCmd {L : List Part} {s : State} {hd : Hdr} {op : Nat} {pre : Option (BitVec 8)} {keyed : Bool} {body : State → State}
    (sub : ∀ p ∈ [Part.hif, Part.cnt], p ∈ L) (h : Only L s (body (perfAdd s 428 1))) : OnlyAns L s (Machine.keyCmd s hd op pre keyed body) := by
  refine OnlyAns.cmd (fun p hp => sub p (by simp only [List.mem_singleton] at hp; subst hp; decide)) ?_
  have f : ∀ st, Only L s (fin (perfAdd s 428 1) hd op st) := fun st =>
    Only.step (Only.mono (perfAdd_only s 428 1) fun p hp => sub p (by simp only [List.mem_singleton] at hp; subst hp; decide))
      (fin_only ..) fun p hp => sub p (by simp only [List.mem_singleton] at hp; subst hp; decide)
  exact Only.ite (fun _ => f _) fun _ => Only.ite (fun _ => f _) fun _ => h

/-- A host command of the time core waits for the next tick, or runs. -/
theorem OnlyAns.tcoHost {L : List Part} {s : State} {c : Instr} {f : State → Ans} (sub : ∀ p ∈ [Part.tco], p ∈ L) (h : OnlyAns L s (f s)) :
    OnlyAns L s (Machine.tcoHost s c f) :=
  OnlyAns.ite (fun _ => OnlyAns.next (Only.mono (modTco_only s _ (by rfl)) sub)) fun _ => h

end Sys2Proof.Laws
end

