-- ==== Sys2Proof/Laws/NetOps.lean ====
section
/-! SUPPORT. What each operation of Machine/NetOps.lean can touch, once for each. -/
set_option linter.unusedTactic false
set_option linter.unreachableTactic false
namespace Sys2Proof.Laws
open Sys2Proof
open Sys2Proof.Machine
open Sys2Proof.Safety

theorem linkChanged_only (s : State) (p_ : Fin 9) (up : Bool)  : Only [.eth] s (linkChanged s p_ up) := by
  unfold linkChanged
  repeat' first
    | ((fail_if_no_progress extract_lets +onlyGivenNames x); refine Only.cut (L := [.eth]) (s := s) (x := x) ?_ ?_; rotate_left; intro hx; clear_value x; rotate_left; dsimp only [x])
    | ((fail_if_no_progress extract_lets +onlyGivenNames x); refine Only.named (b := x.not) ?_; clear_value x)
    | (fail_if_no_progress extract_lets +onlyGivenNames x)
    | with_reducible apply Only.refl
    | with_reducible assumption
    | (with_reducible apply Only.ite <;> intro _)
    | with_reducible (apply Only.step (M := [.eth]); rotate_left; apply modPort_only; decide)
    | with_reducible (refine Only.sndEq (by assumption) ?_)
    | with_reducible (refine Only.fstEq (by assumption) ?_)
    | dsimp only
    | dsimp +zetaDelta only
    | split
    | (clear_value *; split)

theorem discardTx_only (s : State) (x : TxFrame)  : Only [.out, .svc, .ptp, .links, .rings, .cnt] s (discardTx s x) := by
  unfold discardTx
  repeat' first
    | ((fail_if_no_progress extract_lets +onlyGivenNames x); refine Only.cut (L := [.out, .svc, .ptp, .links, .rings, .cnt]) (s := s) (x := x) ?_ ?_; rotate_left; intro hx; clear_value x; rotate_left; dsimp only [x])
    | ((fail_if_no_progress extract_lets +onlyGivenNames x); refine Only.named (b := x.not) ?_; clear_value x)
    | (fail_if_no_progress extract_lets +onlyGivenNames x)
    | with_reducible apply Only.refl
    | with_reducible assumption
    | (with_reducible apply Only.ite <;> intro _)
    | with_reducible (apply Only.step (M := [.svc, .cnt]); rotate_left; apply svcCount_only; decide)
    | with_reducible (apply Only.step (M := [.out, .links, .rings, .cnt]); rotate_left; apply hostTxDone_only; decide)
    | with_reducible (apply Only.step (M := [.ptp, .cnt]); rotate_left; apply ptpCount_only; decide)
    | with_reducible (refine Only.sndEq (by assumption) ?_)
    | with_reducible (refine Only.fstEq (by assumption) ?_)
    | dsimp only
    | dsimp +zetaDelta only
    | split
    | (clear_value *; split)

theorem discardN_only (a1 : Nat) (a2 : State) (a3 : Fin 9) (a4 : Bool)  : Only [.out, .svc, .ptp, .eth, .links, .rings, .cnt] a2 (discardN a1 a2 a3 a4) := by
  induction a1 generalizing a2 a3 a4 with
  | zero => unfold discardN; exact Only.refl _ _
  | succ n ih =>
    unfold discardN
    repeat' first
      | ((fail_if_no_progress extract_lets +onlyGivenNames x); refine Only.cut (L := [.out, .svc, .ptp, .eth, .links, .rings, .cnt]) (s := a2) (x := x) ?_ ?_; rotate_left; intro hx; clear_value x; rotate_left; dsimp only [x])
      | ((fail_if_no_progress extract_lets +onlyGivenNames x); refine Only.named (b := x.not) ?_; clear_value x)
      | (fail_if_no_progress extract_lets +onlyGivenNames x)
      | with_reducible apply Only.refl
      | with_reducible assumption
      | (with_reducible (apply Only.step; rotate_left; apply ih; exact (fun _ h => h)))
      | (with_reducible apply Only.ite <;> intro _)
      | with_reducible (apply Only.step (M := [.out, .svc, .ptp, .links, .rings, .cnt]); rotate_left; apply discardTx_only; decide)
      | with_reducible (apply Only.step (M := [.eth]); rotate_left; apply modPort_only; decide)
      | with_reducible (refine Only.sndEq (by assumption) ?_)
      | with_reducible (refine Only.fstEq (by assumption) ?_)
      | dsimp only
      | dsimp +zetaDelta only
      | split
      | (clear_value *; split)

theorem discardQueue_only (s : State) (p_ : Fin 9) (t : Bool)  : Only [.out, .svc, .ptp, .eth, .links, .rings, .cnt] s (discardQueue s p_ t) := by
  unfold discardQueue
  repeat' first
    | ((fail_if_no_progress extract_lets +onlyGivenNames x); refine Only.cut (L := [.out, .svc, .ptp, .eth, .links, .rings, .cnt]) (s := s) (x := x) ?_ ?_; rotate_left; intro hx; clear_value x; rotate_left; dsimp only [x])
    | ((fail_if_no_progress extract_lets +onlyGivenNames x); refine Only.named (b := x.not) ?_; clear_value x)
    | (fail_if_no_progress extract_lets +onlyGivenNames x)
    | with_reducible apply Only.refl
    | with_reducible assumption
    | (with_reducible apply Only.ite <;> intro _)
    | with_reducible (apply Only.step (M := [.out, .svc, .ptp, .eth, .links, .rings, .cnt]); rotate_left; apply discardN_only; decide)
    | with_reducible (refine Only.sndEq (by assumption) ?_)
    | with_reducible (refine Only.fstEq (by assumption) ?_)
    | dsimp only
    | dsimp +zetaDelta only
    | split
    | (clear_value *; split)

theorem portDown_only (s : State) (p_ : Fin 9)  : Only [.out, .tco, .refs, .svc, .ptp, .eth, .pan, .log, .line, .links, .lnk, .rings, .hif, .cnt, .outs] s (portDown s p_) := by
  unfold portDown
  repeat' first
    | ((fail_if_no_progress extract_lets +onlyGivenNames x); refine Only.cut (L := [.out, .tco, .refs, .svc, .ptp, .eth, .pan, .log, .line, .links, .lnk, .rings, .hif, .cnt, .outs]) (s := s) (x := x) ?_ ?_; rotate_left; intro hx; clear_value x; rotate_left; dsimp only [x])
    | ((fail_if_no_progress extract_lets +onlyGivenNames x); refine Only.named (b := x.not) ?_; clear_value x)
    | (fail_if_no_progress extract_lets +onlyGivenNames x)
    | with_reducible apply Only.refl
    | with_reducible assumption
    | (with_reducible apply Only.ite <;> intro _)
    | with_reducible (apply Only.step (M := [.eth]); rotate_left; apply linkChanged_only; decide)
    | with_reducible (apply Only.step (M := [.eth]); rotate_left; apply modPort_only; decide)
    | with_reducible (apply Only.step (M := [.out, .svc, .ptp, .eth, .links, .rings, .cnt]); rotate_left; apply discardQueue_only; decide)
    | with_reducible (apply Only.step (M := [.out, .pan, .log, .line, .links, .rings, .cnt, .outs]); rotate_left; apply emit_only; decide)
    | with_reducible (apply Only.step (M := [.eth]); rotate_left; apply ethCnt_only; decide)
    | with_reducible (apply Only.step (M := [.out, .tco, .refs, .eth, .pan, .log, .line, .links, .lnk, .rings, .hif, .cnt, .outs]); rotate_left; apply failQl_only; decide)
    | with_reducible (refine Only.sndEq (by assumption) ?_)
    | with_reducible (refine Only.fstEq (by assumption) ?_)
    | dsimp only
    | dsimp +zetaDelta only
    | split
    | (clear_value *; split)

theorem portStart_only (s : State) (p_ : Fin 9)  : Only [.out, .tco, .refs, .svc, .ptp, .eth, .pan, .log, .line, .links, .lnk, .rings, .hif, .cnt, .outs] s (portStart s p_) := by
  unfold portStart
  repeat' first
    | ((fail_if_no_progress extract_lets +onlyGivenNames x); refine Only.cut (L := [.out, .tco, .refs, .svc, .ptp, .eth, .pan, .log, .line, .links, .lnk, .rings, .hif, .cnt, .outs]) (s := s) (x := x) ?_ ?_; rotate_left; intro hx; clear_value x; rotate_left; dsimp only [x])
    | ((fail_if_no_progress extract_lets +onlyGivenNames x); refine Only.named (b := x.not) ?_; clear_value x)
    | (fail_if_no_progress extract_lets +onlyGivenNames x)
    | with_reducible apply Only.refl
    | with_reducible assumption
    | (with_reducible apply Only.ite <;> intro _)
    | with_reducible (apply Only.step (M := [.out, .tco, .refs, .svc, .ptp, .eth, .pan, .log, .line, .links, .lnk, .rings, .hif, .cnt, .outs]); rotate_left; apply portDown_only; decide)
    | with_reducible (apply Only.step (M := [.eth]); rotate_left; apply modPort_only; decide)
    | with_reducible (refine Only.sndEq (by assumption) ?_)
    | with_reducible (refine Only.fstEq (by assumption) ?_)
    | dsimp only
    | dsimp +zetaDelta only
    | split
    | (clear_value *; split)

theorem hifMalformed_only (s : State) (ring : Nat) (opcode : Nat) (tag : Nat)  : Only [.out, .pan, .log, .line, .links, .rings, .hif, .cnt, .outs] s (hifMalformed s ring opcode tag) := by
  unfold hifMalformed
  repeat' first
    | ((fail_if_no_progress extract_lets +onlyGivenNames x); refine Only.cut (L := [.out, .pan, .log, .line, .links, .rings, .hif, .cnt, .outs]) (s := s) (x := x) ?_ ?_; rotate_left; intro hx; clear_value x; rotate_left; dsimp only [x])
    | ((fail_if_no_progress extract_lets +onlyGivenNames x); refine Only.named (b := x.not) ?_; clear_value x)
    | (fail_if_no_progress extract_lets +onlyGivenNames x)
    | with_reducible apply Only.refl
    | with_reducible assumption
    | (with_reducible apply Only.ite <;> intro _)
    | with_reducible (apply Only.step (M := [.out, .pan, .log, .line, .links, .rings, .cnt, .outs]); rotate_left; apply emit_only; decide)
    | (fail_if_no_progress (with_reducible (apply Only.step (M := [.hif]); rotate_left; apply set_hif_only_hif; rfl; decide)))
    | with_reducible (refine Only.sndEq (by assumption) ?_)
    | with_reducible (refine Only.fstEq (by assumption) ?_)
    | dsimp only
    | dsimp +zetaDelta only
    | split
    | (clear_value *; split)

theorem rxAccepted_only (s : State) (p_ : Fin 9) (f : EthFrame)  : Only [.eth] s (rxAccepted s p_ f) := by
  unfold rxAccepted
  repeat' first
    | ((fail_if_no_progress extract_lets +onlyGivenNames x); refine Only.cut (L := [.eth]) (s := s) (x := x) ?_ ?_; rotate_left; intro hx; clear_value x; rotate_left; dsimp only [x])
    | ((fail_if_no_progress extract_lets +onlyGivenNames x); refine Only.named (b := x.not) ?_; clear_value x)
    | (fail_if_no_progress extract_lets +onlyGivenNames x)
    | with_reducible apply Only.refl
    | with_reducible assumption
    | (with_reducible apply Only.ite <;> intro _)
    | with_reducible (apply Only.step (M := [.eth]); rotate_left; apply ethCnt_only; decide)
    | with_reducible (refine Only.sndEq (by assumption) ?_)
    | with_reducible (refine Only.fstEq (by assumption) ?_)
    | dsimp only
    | dsimp +zetaDelta only
    | split
    | (clear_value *; split)

theorem rxPause_only (s : State) (p_ : Fin 9) (q : Nat)  : Only [.free, .out, .ptp, .eth, .pan, .log, .line, .links, .rings, .cnt, .outs] s (rxPause s p_ q) := by
  unfold rxPause
  repeat' first
    | ((fail_if_no_progress extract_lets +onlyGivenNames x); refine Only.cut (L := [.free, .out, .ptp, .eth, .pan, .log, .line, .links, .rings, .cnt, .outs]) (s := s) (x := x) ?_ ?_; rotate_left; intro hx; clear_value x; rotate_left; dsimp only [x])
    | ((fail_if_no_progress extract_lets +onlyGivenNames x); refine Only.named (b := x.not) ?_; clear_value x)
    | (fail_if_no_progress extract_lets +onlyGivenNames x)
    | with_reducible apply Only.refl
    | with_reducible assumption
    | (with_reducible apply Only.ite <;> intro _)
    | with_reducible (apply Only.step (M := [.eth]); rotate_left; apply ethCnt_only; decide)
    | with_reducible (apply Only.step (M := [.eth]); rotate_left; apply modPort_only; decide)
    | with_reducible (apply Only.step (M := [.free, .out, .ptp, .eth, .pan, .log, .line, .links, .rings, .cnt, .outs]); rotate_left; apply pump_only; decide)
    | with_reducible (refine Only.sndEq (by assumption) ?_)
    | with_reducible (refine Only.fstEq (by assumption) ?_)
    | dsimp only
    | dsimp +zetaDelta only
    | split
    | (clear_value *; split)

theorem rxPfcOne_only (s : State) (p_ : Fin 9) (k : Nat) (q : Nat)  : Only [.eth] s (rxPfcOne s p_ k q) := by
  unfold rxPfcOne
  repeat' first
    | ((fail_if_no_progress extract_lets +onlyGivenNames x); refine Only.cut (L := [.eth]) (s := s) (x := x) ?_ ?_; rotate_left; intro hx; clear_value x; rotate_left; dsimp only [x])
    | ((fail_if_no_progress extract_lets +onlyGivenNames x); refine Only.named (b := x.not) ?_; clear_value x)
    | (fail_if_no_progress extract_lets +onlyGivenNames x)
    | with_reducible apply Only.refl
    | with_reducible assumption
    | (with_reducible apply Only.ite <;> intro _)
    | with_reducible (apply Only.step (M := [.eth]); rotate_left; apply ethCnt_only; decide)
    | with_reducible (apply Only.step (M := [.eth]); rotate_left; apply modPort_only; decide)
    | with_reducible (refine Only.sndEq (by assumption) ?_)
    | with_reducible (refine Only.fstEq (by assumption) ?_)
    | dsimp only
    | dsimp +zetaDelta only
    | split
    | (clear_value *; split)

theorem rxPfc_only (s : State) (p_ : Fin 9) (l : List (Option (BitVec 16)))  : Only [.free, .out, .ptp, .eth, .pan, .log, .line, .links, .rings, .cnt, .outs] s (rxPfc s p_ l) := by
  unfold rxPfc
  repeat' first
    | ((fail_if_no_progress extract_lets +onlyGivenNames x); refine Only.cut (L := [.free, .out, .ptp, .eth, .pan, .log, .line, .links, .rings, .cnt, .outs]) (s := s) (x := x) ?_ ?_; rotate_left; intro hx; clear_value x; rotate_left; dsimp only [x])
    | ((fail_if_no_progress extract_lets +onlyGivenNames x); refine Only.named (b := x.not) ?_; clear_value x)
    | (fail_if_no_progress extract_lets +onlyGivenNames x)
    | (with_reducible apply Only.foldl; (intro _ _ _))
    | (with_reducible apply Only.foldlFst; (intro _ _ _))
    | with_reducible apply Only.refl
    | with_reducible assumption
    | (with_reducible apply Only.ite <;> intro _)
    | with_reducible (apply Only.step (M := [.free, .out, .ptp, .eth, .pan, .log, .line, .links, .rings, .cnt, .outs]); rotate_left; apply pump_only; decide)
    | with_reducible (apply Only.step (M := [.eth]); rotate_left; apply rxPfcOne_only; decide)
    | with_reducible (refine Only.sndEq (by assumption) ?_)
    | with_reducible (refine Only.fstEq (by assumption) ?_)
    | dsimp only
    | dsimp +zetaDelta only
    | split
    | (clear_value *; split)

theorem rxSkip_only (s : State) (r : Nat) (ds : List (BitVec 256))  : Only [.out, .pan, .log, .line, .links, .rings, .hif, .cnt, .outs] s (rxSkip s r ds) := by
  unfold rxSkip
  repeat' first
    | ((fail_if_no_progress extract_lets +onlyGivenNames x); refine Only.cut (L := [.out, .pan, .log, .line, .links, .rings, .hif, .cnt, .outs]) (s := s) (x := x) ?_ ?_; rotate_left; intro hx; clear_value x; rotate_left; dsimp only [x])
    | ((fail_if_no_progress extract_lets +onlyGivenNames x); refine Only.named (b := x.not) ?_; clear_value x)
    | (fail_if_no_progress extract_lets +onlyGivenNames x)
    | (with_reducible apply Only.foldl; (intro _ _ _))
    | (with_reducible apply Only.foldlFst; (intro _ _ _))
    | with_reducible apply Only.refl
    | with_reducible assumption
    | (with_reducible apply Only.ite <;> intro _)
    | with_reducible (apply Only.step (M := [.out, .pan, .log, .line, .links, .rings, .hif, .cnt, .outs]); rotate_left; apply hifMalformed_only; decide)
    | with_reducible (refine Only.sndEq (by assumption) ?_)
    | with_reducible (refine Only.fstEq (by assumption) ?_)
    | dsimp only
    | dsimp +zetaDelta only
    | split
    | (clear_value *; split)

theorem rxPut_only (s : State) (r : Nat) (base : Nat) (x : Nat × BitVec 256 × List Byte) (last : Nat) (port : Nat) (flags : Nat) (reason : Nat) (filter : Nat) (ts : Nat) (frac : Nat) (tci : Nat) (rseq : Nat)  : Only [.out, .links, .cnt] s (rxPut s r base x last port flags reason filter ts frac tci rseq) := by
  unfold rxPut
  repeat' first
    | ((fail_if_no_progress extract_lets +onlyGivenNames x); refine Only.cut (L := [.out, .links, .cnt]) (s := s) (x := x) ?_ ?_; rotate_left; intro hx; clear_value x; rotate_left; dsimp only [x])
    | ((fail_if_no_progress extract_lets +onlyGivenNames x); refine Only.named (b := x.not) ?_; clear_value x)
    | (fail_if_no_progress extract_lets +onlyGivenNames x)
    | with_reducible apply Only.refl
    | with_reducible assumption
    | (with_reducible apply Only.ite <;> intro _)
    | with_reducible (apply Only.step (M := [.out, .links, .cnt]); rotate_left; apply hostDma_only; decide)
    | with_reducible (refine Only.sndEq (by assumption) ?_)
    | with_reducible (refine Only.fstEq (by assumption) ?_)
    | dsimp only
    | dsimp +zetaDelta only
    | split
    | (clear_value *; split)

theorem rxToHost_only (s : State) (q : Fin 2) (p_ : Fin 9) (phase : Fin 16) (f : EthFrame) (reason : Nat) (filter : Nat) (descs : List (BitVec 256))  : Only [.out, .eth, .pan, .log, .line, .links, .lnk, .rings, .hif, .cnt, .outs] s (rxToHost s q p_ phase f reason filter descs) := by
  unfold rxToHost
  repeat' first
    | ((fail_if_no_progress extract_lets +onlyGivenNames x); refine Only.cut (L := [.out, .eth, .pan, .log, .line, .links, .lnk, .rings, .hif, .cnt, .outs]) (s := s) (x := x) ?_ ?_; rotate_left; intro hx; clear_value x; rotate_left; dsimp only [x])
    | ((fail_if_no_progress extract_lets +onlyGivenNames x); refine Only.named (b := x.not) ?_; clear_value x)
    | (fail_if_no_progress extract_lets +onlyGivenNames x)
    | (with_reducible apply Only.foldl; (intro _ _ _))
    | (with_reducible apply Only.foldlFst; (intro _ _ _))
    | with_reducible apply Only.refl
    | with_reducible assumption
    | (with_reducible apply Only.ite <;> intro _)
    | with_reducible (apply Only.step (M := [.eth]); rotate_left; apply ethCnt_only; decide)
    | with_reducible (apply Only.step (M := [.out, .links, .rings, .cnt]); rotate_left; apply ringNotify_only; decide)
    | with_reducible (apply Only.step (M := [.rings, .cnt]); rotate_left; apply ringAdvance_only; decide)
    | with_reducible (apply Only.step (M := [.out, .pan, .log, .line, .links, .rings, .hif, .cnt, .outs]); rotate_left; apply rxSkip_only; decide)
    | with_reducible (apply Only.step (M := [.out, .links, .lnk, .cnt]); rotate_left; apply ringReads_only; decide)
    | with_reducible (apply Only.step (M := [.out, .links, .cnt]); rotate_left; apply rxPut_only; decide)
    | with_reducible (apply Only.step (M := [.cnt]); rotate_left; apply perfAdd_only; decide)
    | (fail_if_no_progress (with_reducible (apply Only.step (M := [.hif]); rotate_left; apply set_hif_only_hif; rfl; decide)))
    | with_reducible (refine Only.sndEq (by assumption) ?_)
    | with_reducible (refine Only.fstEq (by assumption) ?_)
    | dsimp only
    | dsimp +zetaDelta only
    | split
    | (clear_value *; split)

theorem rxClass4_only (s : State) (p_ : Fin 9) (phase : Fin 16) (f : EthFrame) (descs : List (BitVec 256))  : Only [.out, .eth, .pan, .log, .line, .links, .lnk, .rings, .hif, .cnt, .outs] s (rxClass4 s p_ phase f descs) := by
  unfold rxClass4
  repeat' first
    | ((fail_if_no_progress extract_lets +onlyGivenNames x); refine Only.cut (L := [.out, .eth, .pan, .log, .line, .links, .lnk, .rings, .hif, .cnt, .outs]) (s := s) (x := x) ?_ ?_; rotate_left; intro hx; clear_value x; rotate_left; dsimp only [x])
    | ((fail_if_no_progress extract_lets +onlyGivenNames x); refine Only.named (b := x.not) ?_; clear_value x)
    | (fail_if_no_progress extract_lets +onlyGivenNames x)
    | with_reducible apply Only.refl
    | with_reducible assumption
    | (with_reducible apply Only.ite <;> intro _)
    | with_reducible (apply Only.step (M := [.out, .eth, .pan, .log, .line, .links, .lnk, .rings, .hif, .cnt, .outs]); rotate_left; apply rxToHost_only; decide)
    | with_reducible (apply Only.step (M := [.eth]); rotate_left; apply ethCnt_only; decide)
    | with_reducible (refine Only.sndEq (by assumption) ?_)
    | with_reducible (refine Only.fstEq (by assumption) ?_)
    | dsimp only
    | dsimp +zetaDelta only
    | split
    | (clear_value *; split)

theorem rxEsmc_only (s : State) (p_ : Fin 9) (good : Bool) (ssm : BitVec 4) (ext : Option (BitVec 8))  : Only [.out, .tco, .refs, .eth, .pan, .log, .line, .links, .lnk, .rings, .hif, .cnt, .outs] s (rxEsmc s p_ good ssm ext) := by
  unfold rxEsmc
  repeat' first
    | ((fail_if_no_progress extract_lets +onlyGivenNames x); refine Only.cut (L := [.out, .tco, .refs, .eth, .pan, .log, .line, .links, .lnk, .rings, .hif, .cnt, .outs]) (s := s) (x := x) ?_ ?_; rotate_left; intro hx; clear_value x; rotate_left; dsimp only [x])
    | ((fail_if_no_progress extract_lets +onlyGivenNames x); refine Only.named (b := x.not) ?_; clear_value x)
    | (fail_if_no_progress extract_lets +onlyGivenNames x)
    | with_reducible apply Only.refl
    | with_reducible assumption
    | (with_reducible apply Only.ite <;> intro _)
    | with_reducible (apply Only.step (M := [.eth]); rotate_left; apply ethCnt_only; decide)
    | with_reducible (apply Only.step (M := [.eth]); rotate_left; apply modPort_only; decide)
    | with_reducible (apply Only.step (M := [.out, .tco, .refs, .eth, .pan, .log, .line, .links, .lnk, .rings, .hif, .cnt, .outs]); rotate_left; apply setQl_only; decide)
    | with_reducible (refine Only.sndEq (by assumption) ?_)
    | with_reducible (refine Only.fstEq (by assumption) ?_)
    | dsimp only
    | dsimp +zetaDelta only
    | split
    | (clear_value *; split)

theorem rxClassify_only (s : State) (p_ : Fin 9) (phase : Fin 16) (taken : Bool) (f : EthFrame) (descs : List (BitVec 256))  : Only [.free, .out, .tco, .refs, .gbb, .svc, .ptp, .eth, .key, .pan, .log, .line, .pair, .links, .lnk, .rings, .hif, .cnt, .perf, .outs, .tio] s (rxClassify s p_ phase taken f descs) := by
  unfold rxClassify
  repeat' first
    | ((fail_if_no_progress extract_lets +onlyGivenNames x); refine Only.cut (L := [.free, .out, .tco, .refs, .gbb, .svc, .ptp, .eth, .key, .pan, .log, .line, .pair, .links, .lnk, .rings, .hif, .cnt, .perf, .outs, .tio]) (s := s) (x := x) ?_ ?_; rotate_left; intro hx; clear_value x; rotate_left; dsimp only [x])
    | ((fail_if_no_progress extract_lets +onlyGivenNames x); refine Only.named (b := x.not) ?_; clear_value x)
    | (fail_if_no_progress extract_lets +onlyGivenNames x)
    | with_reducible apply Only.refl
    | with_reducible assumption
    | (with_reducible apply Only.ite <;> intro _)
    | with_reducible (apply Only.step (M := [.out, .eth, .pan, .log, .line, .links, .lnk, .rings, .hif, .cnt, .outs]); rotate_left; apply rxClass4_only; decide)
    | with_reducible (apply Only.step (M := [.free, .out, .svc, .ptp, .eth, .key, .pan, .log, .line, .links, .rings, .cnt, .outs]); rotate_left; apply svcFrame_only; decide)
    | with_reducible (apply Only.step (M := [.free, .out, .tco, .refs, .gbb, .ptp, .eth, .pan, .log, .line, .pair, .links, .lnk, .rings, .hif, .cnt, .perf, .outs, .tio]); rotate_left; apply ptpFrameIn_only; (first | assumption | (intro u; apply rxToHost_only)); decide)
    | with_reducible (apply Only.step (M := [.out, .eth, .pan, .log, .line, .links, .lnk, .rings, .hif, .cnt, .outs]); rotate_left; apply rxToHost_only; decide)
    | with_reducible (apply Only.step (M := [.out, .tco, .refs, .eth, .pan, .log, .line, .links, .lnk, .rings, .hif, .cnt, .outs]); rotate_left; apply rxEsmc_only; decide)
    | with_reducible (refine Only.sndEq (by assumption) ?_)
    | with_reducible (refine Only.fstEq (by assumption) ?_)
    | dsimp only
    | dsimp +zetaDelta only
    | split
    | (clear_value *; split)

theorem rxFrame_only (s : State) (p_ : Fin 9) (phase : Fin 16) (taken : Bool) (f : EthFrame) (descs : List (BitVec 256))  : Only [.free, .out, .tco, .refs, .gbb, .svc, .ptp, .eth, .key, .pan, .log, .line, .pair, .links, .lnk, .rings, .hif, .cnt, .perf, .outs, .tio] s (rxFrame s p_ phase taken f descs) := by
  unfold rxFrame
  repeat' first
    | ((fail_if_no_progress extract_lets +onlyGivenNames x); refine Only.cut (L := [.free, .out, .tco, .refs, .gbb, .svc, .ptp, .eth, .key, .pan, .log, .line, .pair, .links, .lnk, .rings, .hif, .cnt, .perf, .outs, .tio]) (s := s) (x := x) ?_ ?_; rotate_left; intro hx; clear_value x; rotate_left; dsimp only [x])
    | ((fail_if_no_progress extract_lets +onlyGivenNames x); refine Only.named (b := x.not) ?_; clear_value x)
    | (fail_if_no_progress extract_lets +onlyGivenNames x)
    | with_reducible apply Only.refl
    | with_reducible assumption
    | (with_reducible apply Only.ite <;> intro _)
    | with_reducible (apply Only.step (M := [.eth]); rotate_left; apply rxAccepted_only; decide)
    | with_reducible (apply Only.step (M := [.eth]); rotate_left; apply ethCnt_only; decide)
    | with_reducible (apply Only.step (M := [.free, .out, .ptp, .eth, .pan, .log, .line, .links, .rings, .cnt, .outs]); rotate_left; apply rxPause_only; decide)
    | with_reducible (apply Only.step (M := [.free, .out, .ptp, .eth, .pan, .log, .line, .links, .rings, .cnt, .outs]); rotate_left; apply rxPfc_only; decide)
    | with_reducible (apply Only.step (M := [.free, .out, .tco, .refs, .gbb, .svc, .ptp, .eth, .key, .pan, .log, .line, .pair, .links, .lnk, .rings, .hif, .cnt, .perf, .outs, .tio]); rotate_left; apply rxClassify_only; decide)
    | with_reducible (refine Only.sndEq (by assumption) ?_)
    | with_reducible (refine Only.fstEq (by assumption) ?_)
    | dsimp only
    | dsimp +zetaDelta only
    | split
    | (clear_value *; split)

end Sys2Proof.Laws
end

