-- ==== Sys2Proof/Laws/CmdEth.lean ====
section
/-! SUPPORT. What each command and event of Machine/Eth.lean can touch. -/
set_option linter.unusedTactic false
set_option linter.unreachableTactic false
namespace Sys2Proof.Laws
open Sys2Proof
open Sys2Proof.Machine
open Sys2Proof.Safety

theorem execFrameReceive_only (port : Fin 9) (phase : Fin 16) (taken : Bool) (fecOk : Nat) (fecBad : Nat) (descs : List (BitVec 256)) (frame : EthFrame) (s : State) : OnlyAns [.free, .out, .tco, .refs, .gbb, .svc, .ptp, .eth, .key, .pan, .log, .line, .pair, .links, .lnk, .rings, .hif, .cnt, .perf, .outs, .tio] s (Sys2Proof.Machine.execFrameReceive port phase taken fecOk fecBad descs frame s) := by
  unfold Sys2Proof.Machine.execFrameReceive
  repeat' first
    | (with_reducible apply OnlyAns.next)
    | (with_reducible apply OnlyAns.cmd)
    | (with_reducible apply OnlyAns.keyCmd)
    | (with_reducible apply OnlyAns.tcoHost)
    | (with_reducible apply OnlyAns.ite <;> intro _)
    | decide
    | with_reducible (apply Only.step (M := [.cnt]); rotate_left; apply perfAdd_only; decide)
    | ((fail_if_no_progress extract_lets +onlyGivenNames x); refine Only.cut (L := [.free, .out, .tco, .refs, .gbb, .svc, .ptp, .eth, .key, .pan, .log, .line, .pair, .links, .lnk, .rings, .hif, .cnt, .perf, .outs, .tio]) (s := s) (x := x) ?_ ?_; rotate_left; intro hx; clear_value x; rotate_left; dsimp only [x])
    | ((fail_if_no_progress extract_lets +onlyGivenNames x); refine Only.named (b := x.not) ?_; clear_value x)
    | (fail_if_no_progress extract_lets +onlyGivenNames x)
    | with_reducible apply Only.refl
    | with_reducible assumption
    | (with_reducible apply Only.ite <;> intro _)
    | with_reducible (apply Only.step (M := [.cnt]); rotate_left; apply perfAdd_only; decide)
    | with_reducible (apply Only.step (M := [.eth]); rotate_left; apply ethCnt_only; decide)
    | with_reducible (apply Only.step (M := [.eth]); rotate_left; apply modPort_only; decide)
    | with_reducible (apply Only.step (M := [.free, .out, .tco, .refs, .gbb, .svc, .ptp, .eth, .key, .pan, .log, .line, .pair, .links, .lnk, .rings, .hif, .cnt, .perf, .outs, .tio]); rotate_left; apply rxFrame_only; decide)
    | with_reducible (refine Only.sndEq (by assumption) ?_)
    | with_reducible (refine Only.fstEq (by assumption) ?_)
    | dsimp only
    | dsimp +zetaDelta only
    | split
    | (clear_value *; split)

theorem execPauseExpiry_only (port : Fin 9) (s : State) : OnlyAns [.free, .out, .ptp, .eth, .pan, .log, .line, .links, .rings, .cnt, .outs] s (Sys2Proof.Machine.execPauseExpiry port s) := by
  unfold Sys2Proof.Machine.execPauseExpiry
  repeat' first
    | (with_reducible apply OnlyAns.next)
    | (with_reducible apply OnlyAns.cmd)
    | (with_reducible apply OnlyAns.keyCmd)
    | (with_reducible apply OnlyAns.tcoHost)
    | (with_reducible apply OnlyAns.ite <;> intro _)
    | decide
    | with_reducible (apply Only.step (M := [.cnt]); rotate_left; apply perfAdd_only; decide)
    | ((fail_if_no_progress extract_lets +onlyGivenNames x); refine Only.cut (L := [.free, .out, .ptp, .eth, .pan, .log, .line, .links, .rings, .cnt, .outs]) (s := s) (x := x) ?_ ?_; rotate_left; intro hx; clear_value x; rotate_left; dsimp only [x])
    | ((fail_if_no_progress extract_lets +onlyGivenNames x); refine Only.named (b := x.not) ?_; clear_value x)
    | (fail_if_no_progress extract_lets +onlyGivenNames x)
    | with_reducible apply Only.refl
    | with_reducible assumption
    | (with_reducible apply Only.ite <;> intro _)
    | with_reducible (apply Only.step (M := [.free, .out, .ptp, .eth, .pan, .log, .line, .links, .rings, .cnt, .outs]); rotate_left; apply pump_only; decide)
    | with_reducible (apply Only.step (M := [.eth]); rotate_left; apply modPort_only; decide)
    | with_reducible (refine Only.sndEq (by assumption) ?_)
    | with_reducible (refine Only.fstEq (by assumption) ?_)
    | dsimp only
    | dsimp +zetaDelta only
    | split
    | (clear_value *; split)

theorem execPauseWdExpiry_only (port : Fin 9) (s : State) : OnlyAns [.free, .out, .ptp, .eth, .pan, .log, .line, .links, .rings, .cnt, .outs] s (Sys2Proof.Machine.execPauseWdExpiry port s) := by
  unfold Sys2Proof.Machine.execPauseWdExpiry
  repeat' first
    | (with_reducible apply OnlyAns.next)
    | (with_reducible apply OnlyAns.cmd)
    | (with_reducible apply OnlyAns.keyCmd)
    | (with_reducible apply OnlyAns.tcoHost)
    | (with_reducible apply OnlyAns.ite <;> intro _)
    | decide
    | with_reducible (apply Only.step (M := [.cnt]); rotate_left; apply perfAdd_only; decide)
    | ((fail_if_no_progress extract_lets +onlyGivenNames x); refine Only.cut (L := [.free, .out, .ptp, .eth, .pan, .log, .line, .links, .rings, .cnt, .outs]) (s := s) (x := x) ?_ ?_; rotate_left; intro hx; clear_value x; rotate_left; dsimp only [x])
    | ((fail_if_no_progress extract_lets +onlyGivenNames x); refine Only.named (b := x.not) ?_; clear_value x)
    | (fail_if_no_progress extract_lets +onlyGivenNames x)
    | with_reducible apply Only.refl
    | with_reducible assumption
    | (with_reducible apply Only.ite <;> intro _)
    | with_reducible (apply Only.step (M := [.eth]); rotate_left; apply modPort_only; decide)
    | with_reducible (apply Only.step (M := [.out, .pan, .log, .line, .links, .rings, .cnt, .outs]); rotate_left; apply emit_only; decide)
    | with_reducible (apply Only.step (M := [.eth]); rotate_left; apply ethCnt_only; decide)
    | with_reducible (apply Only.step (M := [.free, .out, .ptp, .eth, .pan, .log, .line, .links, .rings, .cnt, .outs]); rotate_left; apply pump_only; decide)
    | with_reducible (refine Only.sndEq (by assumption) ?_)
    | with_reducible (refine Only.fstEq (by assumption) ?_)
    | dsimp only
    | dsimp +zetaDelta only
    | split
    | (clear_value *; split)

theorem execWdHoldExpiry_only (port : Fin 9) (s : State) : OnlyAns [.eth] s (Sys2Proof.Machine.execWdHoldExpiry port s) := by
  unfold Sys2Proof.Machine.execWdHoldExpiry
  repeat' first
    | (with_reducible apply OnlyAns.next)
    | (with_reducible apply OnlyAns.cmd)
    | (with_reducible apply OnlyAns.keyCmd)
    | (with_reducible apply OnlyAns.tcoHost)
    | (with_reducible apply OnlyAns.ite <;> intro _)
    | decide
    | with_reducible (apply Only.step (M := [.cnt]); rotate_left; apply perfAdd_only; decide)
    | ((fail_if_no_progress extract_lets +onlyGivenNames x); refine Only.cut (L := [.eth]) (s := s) (x := x) ?_ ?_; rotate_left; intro hx; clear_value x; rotate_left; dsimp only [x])
    | ((fail_if_no_progress extract_lets +onlyGivenNames x); refine Only.named (b := x.not) ?_; clear_value x)
    | (fail_if_no_progress extract_lets +onlyGivenNames x)
    | with_reducible apply Only.refl
    | with_reducible assumption
    | (with_reducible apply Only.ite <;> intro _)
    | with_reducible (apply Only.step (M := [.eth]); rotate_left; apply modPort_only; decide)
    | with_reducible (refine Only.sndEq (by assumption) ?_)
    | with_reducible (refine Only.fstEq (by assumption) ?_)
    | dsimp only
    | dsimp +zetaDelta only
    | split
    | (clear_value *; split)

theorem execTxPauseSend_only (port : Fin 9) (share : Nat) (s : State) : OnlyAns [.out, .eth, .cnt] s (Sys2Proof.Machine.execTxPauseSend port share s) := by
  unfold Sys2Proof.Machine.execTxPauseSend
  repeat' first
    | (with_reducible apply OnlyAns.next)
    | (with_reducible apply OnlyAns.cmd)
    | (with_reducible apply OnlyAns.keyCmd)
    | (with_reducible apply OnlyAns.tcoHost)
    | (with_reducible apply OnlyAns.ite <;> intro _)
    | decide
    | with_reducible (apply Only.step (M := [.cnt]); rotate_left; apply perfAdd_only; decide)
    | ((fail_if_no_progress extract_lets +onlyGivenNames x); refine Only.cut (L := [.out, .eth, .cnt]) (s := s) (x := x) ?_ ?_; rotate_left; intro hx; clear_value x; rotate_left; dsimp only [x])
    | ((fail_if_no_progress extract_lets +onlyGivenNames x); refine Only.named (b := x.not) ?_; clear_value x)
    | (fail_if_no_progress extract_lets +onlyGivenNames x)
    | with_reducible apply Only.refl
    | with_reducible assumption
    | (with_reducible apply Only.ite <;> intro _)
    | with_reducible (apply Only.step (M := [.out, .eth, .cnt]); rotate_left; apply sendPause_only; decide)
    | with_reducible (apply Only.step (M := [.eth]); rotate_left; apply modPort_only; decide)
    | with_reducible (refine Only.sndEq (by assumption) ?_)
    | with_reducible (refine Only.fstEq (by assumption) ?_)
    | dsimp only
    | dsimp +zetaDelta only
    | split
    | (clear_value *; split)

theorem execEsmcTimeout_only (port : Fin 9) (s : State) : OnlyAns [.out, .tco, .refs, .eth, .pan, .log, .line, .links, .lnk, .rings, .hif, .cnt, .outs] s (Sys2Proof.Machine.execEsmcTimeout port s) := by
  unfold Sys2Proof.Machine.execEsmcTimeout
  repeat' first
    | (with_reducible apply OnlyAns.next)
    | (with_reducible apply OnlyAns.cmd)
    | (with_reducible apply OnlyAns.keyCmd)
    | (with_reducible apply OnlyAns.tcoHost)
    | (with_reducible apply OnlyAns.ite <;> intro _)
    | decide
    | with_reducible (apply Only.step (M := [.cnt]); rotate_left; apply perfAdd_only; decide)
    | ((fail_if_no_progress extract_lets +onlyGivenNames x); refine Only.cut (L := [.out, .tco, .refs, .eth, .pan, .log, .line, .links, .lnk, .rings, .hif, .cnt, .outs]) (s := s) (x := x) ?_ ?_; rotate_left; intro hx; clear_value x; rotate_left; dsimp only [x])
    | ((fail_if_no_progress extract_lets +onlyGivenNames x); refine Only.named (b := x.not) ?_; clear_value x)
    | (fail_if_no_progress extract_lets +onlyGivenNames x)
    | with_reducible apply Only.refl
    | with_reducible assumption
    | (with_reducible apply Only.ite <;> intro _)
    | with_reducible (apply Only.step (M := [.out, .tco, .refs, .eth, .pan, .log, .line, .links, .lnk, .rings, .hif, .cnt, .outs]); rotate_left; apply failQl_only; decide)
    | with_reducible (refine Only.sndEq (by assumption) ?_)
    | with_reducible (refine Only.fstEq (by assumption) ?_)
    | dsimp only
    | dsimp +zetaDelta only
    | split
    | (clear_value *; split)

theorem execEsmcInfoSend_only (port : Fin 9) (s : State) : OnlyAns [.free, .out, .ptp, .eth, .pan, .log, .line, .links, .rings, .cnt, .outs] s (Sys2Proof.Machine.execEsmcInfoSend port s) := by
  unfold Sys2Proof.Machine.execEsmcInfoSend
  repeat' first
    | (with_reducible apply OnlyAns.next)
    | (with_reducible apply OnlyAns.cmd)
    | (with_reducible apply OnlyAns.keyCmd)
    | (with_reducible apply OnlyAns.tcoHost)
    | (with_reducible apply OnlyAns.ite <;> intro _)
    | decide
    | with_reducible (apply Only.step (M := [.cnt]); rotate_left; apply perfAdd_only; decide)
    | ((fail_if_no_progress extract_lets +onlyGivenNames x); refine Only.cut (L := [.free, .out, .ptp, .eth, .pan, .log, .line, .links, .rings, .cnt, .outs]) (s := s) (x := x) ?_ ?_; rotate_left; intro hx; clear_value x; rotate_left; dsimp only [x])
    | ((fail_if_no_progress extract_lets +onlyGivenNames x); refine Only.named (b := x.not) ?_; clear_value x)
    | (fail_if_no_progress extract_lets +onlyGivenNames x)
    | with_reducible apply Only.refl
    | with_reducible assumption
    | (with_reducible apply Only.ite <;> intro _)
    | with_reducible (apply Only.step (M := [.free, .out, .ptp, .eth, .pan, .log, .line, .links, .rings, .cnt, .outs]); rotate_left; apply sendEsmc_only; decide)
    | with_reducible (refine Only.sndEq (by assumption) ?_)
    | with_reducible (refine Only.fstEq (by assumption) ?_)
    | dsimp only
    | dsimp +zetaDelta only
    | split
    | (clear_value *; split)

theorem execEsmcEventSend_only (port : Fin 9) (s : State) : OnlyAns [.free, .out, .ptp, .eth, .pan, .log, .line, .links, .rings, .cnt, .outs] s (Sys2Proof.Machine.execEsmcEventSend port s) := by
  unfold Sys2Proof.Machine.execEsmcEventSend
  repeat' first
    | (with_reducible apply OnlyAns.next)
    | (with_reducible apply OnlyAns.cmd)
    | (with_reducible apply OnlyAns.keyCmd)
    | (with_reducible apply OnlyAns.tcoHost)
    | (with_reducible apply OnlyAns.ite <;> intro _)
    | decide
    | with_reducible (apply Only.step (M := [.cnt]); rotate_left; apply perfAdd_only; decide)
    | ((fail_if_no_progress extract_lets +onlyGivenNames x); refine Only.cut (L := [.free, .out, .ptp, .eth, .pan, .log, .line, .links, .rings, .cnt, .outs]) (s := s) (x := x) ?_ ?_; rotate_left; intro hx; clear_value x; rotate_left; dsimp only [x])
    | ((fail_if_no_progress extract_lets +onlyGivenNames x); refine Only.named (b := x.not) ?_; clear_value x)
    | (fail_if_no_progress extract_lets +onlyGivenNames x)
    | with_reducible apply Only.refl
    | with_reducible assumption
    | (with_reducible apply Only.ite <;> intro _)
    | with_reducible (apply Only.step (M := [.free, .out, .ptp, .eth, .pan, .log, .line, .links, .rings, .cnt, .outs]); rotate_left; apply sendEsmc_only; decide)
    | with_reducible (refine Only.sndEq (by assumption) ?_)
    | with_reducible (refine Only.fstEq (by assumption) ?_)
    | dsimp only
    | dsimp +zetaDelta only
    | split
    | (clear_value *; split)

theorem execPortLinkUp_only (port : Fin 9) (anDone : Bool) (speed : BitVec 2) (s : State) : OnlyAns [.out, .eth, .pan, .log, .line, .links, .rings, .cnt, .outs] s (Sys2Proof.Machine.execPortLinkUp port anDone speed s) := by
  unfold Sys2Proof.Machine.execPortLinkUp
  repeat' first
    | (with_reducible apply OnlyAns.next)
    | (with_reducible apply OnlyAns.cmd)
    | (with_reducible apply OnlyAns.keyCmd)
    | (with_reducible apply OnlyAns.tcoHost)
    | (with_reducible apply OnlyAns.ite <;> intro _)
    | decide
    | with_reducible (apply Only.step (M := [.cnt]); rotate_left; apply perfAdd_only; decide)
    | ((fail_if_no_progress extract_lets +onlyGivenNames x); refine Only.cut (L := [.out, .eth, .pan, .log, .line, .links, .rings, .cnt, .outs]) (s := s) (x := x) ?_ ?_; rotate_left; intro hx; clear_value x; rotate_left; dsimp only [x])
    | ((fail_if_no_progress extract_lets +onlyGivenNames x); refine Only.named (b := x.not) ?_; clear_value x)
    | (fail_if_no_progress extract_lets +onlyGivenNames x)
    | with_reducible apply Only.refl
    | with_reducible assumption
    | (with_reducible apply Only.ite <;> intro _)
    | with_reducible (apply Only.step (M := [.eth]); rotate_left; apply modPort_only; decide)
    | with_reducible (apply Only.step (M := [.eth]); rotate_left; apply linkChanged_only; decide)
    | with_reducible (apply Only.step (M := [.out, .pan, .log, .line, .links, .rings, .cnt, .outs]); rotate_left; apply emit_only; decide)
    | with_reducible (refine Only.sndEq (by assumption) ?_)
    | with_reducible (refine Only.fstEq (by assumption) ?_)
    | dsimp only
    | dsimp +zetaDelta only
    | split
    | (clear_value *; split)

theorem execPortLinkDown_only (port : Fin 9) (cut : Bool) (s : State) : OnlyAns [.out, .tco, .refs, .svc, .ptp, .eth, .pan, .log, .line, .links, .lnk, .rings, .hif, .cnt, .outs] s (Sys2Proof.Machine.execPortLinkDown port cut s) := by
  unfold Sys2Proof.Machine.execPortLinkDown
  repeat' first
    | (with_reducible apply OnlyAns.next)
    | (with_reducible apply OnlyAns.cmd)
    | (with_reducible apply OnlyAns.keyCmd)
    | (with_reducible apply OnlyAns.tcoHost)
    | (with_reducible apply OnlyAns.ite <;> intro _)
    | decide
    | with_reducible (apply Only.step (M := [.cnt]); rotate_left; apply perfAdd_only; decide)
    | ((fail_if_no_progress extract_lets +onlyGivenNames x); refine Only.cut (L := [.out, .tco, .refs, .svc, .ptp, .eth, .pan, .log, .line, .links, .lnk, .rings, .hif, .cnt, .outs]) (s := s) (x := x) ?_ ?_; rotate_left; intro hx; clear_value x; rotate_left; dsimp only [x])
    | ((fail_if_no_progress extract_lets +onlyGivenNames x); refine Only.named (b := x.not) ?_; clear_value x)
    | (fail_if_no_progress extract_lets +onlyGivenNames x)
    | with_reducible apply Only.refl
    | with_reducible assumption
    | (with_reducible apply Only.ite <;> intro _)
    | with_reducible (apply Only.step (M := [.out, .tco, .refs, .svc, .ptp, .eth, .pan, .log, .line, .links, .lnk, .rings, .hif, .cnt, .outs]); rotate_left; apply portDown_only; decide)
    | with_reducible (apply Only.step (M := [.eth]); rotate_left; apply ethCnt_only; decide)
    | with_reducible (refine Only.sndEq (by assumption) ?_)
    | with_reducible (refine Only.fstEq (by assumption) ?_)
    | dsimp only
    | dsimp +zetaDelta only
    | split
    | (clear_value *; split)

theorem execHostTxFrame_only (ring : Fin 2) (descs : List (BitVec 256)) (data : List Byte) (s : State) : OnlyAns [.free, .out, .ptp, .eth, .pan, .log, .line, .links, .lnk, .rings, .hif, .cnt, .outs] s (Sys2Proof.Machine.execHostTxFrame ring descs data s) := by
  unfold Sys2Proof.Machine.execHostTxFrame
  repeat' first
    | (with_reducible apply OnlyAns.next)
    | (with_reducible apply OnlyAns.cmd)
    | (with_reducible apply OnlyAns.keyCmd)
    | (with_reducible apply OnlyAns.tcoHost)
    | (with_reducible apply OnlyAns.ite <;> intro _)
    | decide
    | with_reducible (apply Only.step (M := [.cnt]); rotate_left; apply perfAdd_only; decide)
    | ((fail_if_no_progress extract_lets +onlyGivenNames x); refine Only.cut (L := [.free, .out, .ptp, .eth, .pan, .log, .line, .links, .lnk, .rings, .hif, .cnt, .outs]) (s := s) (x := x) ?_ ?_; rotate_left; intro hx; clear_value x; rotate_left; dsimp only [x])
    | ((fail_if_no_progress extract_lets +onlyGivenNames x); refine Only.named (b := x.not) ?_; clear_value x)
    | (fail_if_no_progress extract_lets +onlyGivenNames x)
    | (with_reducible apply Only.foldl; (intro _ _ _))
    | (with_reducible apply Only.foldlFst; (intro _ _ _))
    | with_reducible apply Only.refl
    | with_reducible assumption
    | (with_reducible apply Only.ite <;> intro _)
    | with_reducible (apply Only.step (M := [.rings, .cnt]); rotate_left; apply ringAdvance_only; decide)
    | with_reducible (apply Only.step (M := [.out, .links, .lnk, .cnt]); rotate_left; apply hostRead_only; decide)
    | with_reducible (apply Only.step (M := [.out, .links, .lnk, .cnt]); rotate_left; apply ringReads_only; decide)
    | with_reducible (apply Only.step (M := [.out, .links, .rings, .cnt]); rotate_left; apply hostTxDone_only; decide)
    | with_reducible (apply Only.step (M := [.out, .pan, .log, .line, .links, .rings, .hif, .cnt, .outs]); rotate_left; apply hifMalformed_only; decide)
    | with_reducible (apply Only.step (M := [.eth]); rotate_left; apply ethCnt_only; decide)
    | with_reducible (apply Only.step (M := [.free, .out, .ptp, .eth, .pan, .log, .line, .links, .rings, .cnt, .outs]); rotate_left; apply txPut_only; decide)
    | with_reducible (refine Only.sndEq (by assumption) ?_)
    | with_reducible (refine Only.fstEq (by assumption) ?_)
    | dsimp only
    | dsimp +zetaDelta only
    | split
    | (clear_value *; split)

theorem execWakeMatch_only (frame : EthFrame) (s : State) : OnlyAns [.out, .eth] s (Sys2Proof.Machine.execWakeMatch frame s) := by
  unfold Sys2Proof.Machine.execWakeMatch
  repeat' first
    | (with_reducible apply OnlyAns.next)
    | (with_reducible apply OnlyAns.cmd)
    | (with_reducible apply OnlyAns.keyCmd)
    | (with_reducible apply OnlyAns.tcoHost)
    | (with_reducible apply OnlyAns.ite <;> intro _)
    | decide
    | with_reducible (apply Only.step (M := [.cnt]); rotate_left; apply perfAdd_only; decide)
    | ((fail_if_no_progress extract_lets +onlyGivenNames x); refine Only.cut (L := [.out, .eth]) (s := s) (x := x) ?_ ?_; rotate_left; intro hx; clear_value x; rotate_left; dsimp only [x])
    | ((fail_if_no_progress extract_lets +onlyGivenNames x); refine Only.named (b := x.not) ?_; clear_value x)
    | (fail_if_no_progress extract_lets +onlyGivenNames x)
    | with_reducible apply Only.refl
    | with_reducible assumption
    | (with_reducible apply Only.ite <;> intro _)
    | with_reducible (apply Only.step (M := [.out, .eth]); rotate_left; apply wakeHit_only; decide)
    | with_reducible (refine Only.sndEq (by assumption) ?_)
    | with_reducible (refine Only.fstEq (by assumption) ?_)
    | dsimp only
    | dsimp +zetaDelta only
    | split
    | (clear_value *; split)

theorem execPortQuery_only (hd : Hdr) (port : BitVec 8) (s : State) : OnlyAns [.hif] s (Sys2Proof.Machine.execPortQuery hd port s) := by
  unfold Sys2Proof.Machine.execPortQuery
  repeat' first
    | (with_reducible apply OnlyAns.next)
    | (with_reducible apply OnlyAns.cmd)
    | (with_reducible apply OnlyAns.keyCmd)
    | (with_reducible apply OnlyAns.tcoHost)
    | (with_reducible apply OnlyAns.ite <;> intro _)
    | decide
    | with_reducible (apply Only.step (M := [.cnt]); rotate_left; apply perfAdd_only; decide)
    | ((fail_if_no_progress extract_lets +onlyGivenNames x); refine Only.cut (L := [.hif]) (s := s) (x := x) ?_ ?_; rotate_left; intro hx; clear_value x; rotate_left; dsimp only [x])
    | ((fail_if_no_progress extract_lets +onlyGivenNames x); refine Only.named (b := x.not) ?_; clear_value x)
    | (fail_if_no_progress extract_lets +onlyGivenNames x)
    | with_reducible apply Only.refl
    | with_reducible assumption
    | (with_reducible apply Only.ite <;> intro _)
    | with_reducible (apply Only.step (M := [.hif]); rotate_left; apply complete_only; decide)
    | with_reducible (refine Only.sndEq (by assumption) ?_)
    | with_reducible (refine Only.fstEq (by assumption) ?_)
    | dsimp only
    | dsimp +zetaDelta only
    | split
    | (clear_value *; split)

theorem execModI2c_only (hd : Hdr) (bus : BitVec 8) (addr : BitVec 8) (rd : BitVec 8) (len : BitVec 8) (off : BitVec 16) (width : BitVec 8) (buf : BitVec 64) (ack : Bool) (inTime : Bool) (data : List Byte) (s : State) : OnlyAns [.out, .links, .lnk, .hif, .cnt] s (Sys2Proof.Machine.execModI2c hd bus addr rd len off width buf ack inTime data s) := by
  unfold Sys2Proof.Machine.execModI2c
  repeat' first
    | (with_reducible apply OnlyAns.next)
    | (with_reducible apply OnlyAns.cmd)
    | (with_reducible apply OnlyAns.keyCmd)
    | (with_reducible apply OnlyAns.tcoHost)
    | (with_reducible apply OnlyAns.ite <;> intro _)
    | decide
    | with_reducible (apply Only.step (M := [.cnt]); rotate_left; apply perfAdd_only; decide)
    | ((fail_if_no_progress extract_lets +onlyGivenNames x); refine Only.cut (L := [.out, .links, .lnk, .hif, .cnt]) (s := s) (x := x) ?_ ?_; rotate_left; intro hx; clear_value x; rotate_left; dsimp only [x])
    | ((fail_if_no_progress extract_lets +onlyGivenNames x); refine Only.named (b := x.not) ?_; clear_value x)
    | (fail_if_no_progress extract_lets +onlyGivenNames x)
    | with_reducible apply Only.refl
    | with_reducible assumption
    | (with_reducible apply Only.ite <;> intro _)
    | with_reducible (apply Only.step (M := [.out, .links, .lnk, .cnt]); rotate_left; apply hostRead_only; decide)
    | with_reducible (apply Only.step (M := [.out]); rotate_left; apply emitOut_only; decide)
    | with_reducible (apply Only.step (M := [.hif]); rotate_left; apply fin_only; decide)
    | with_reducible (apply Only.step (M := [.out, .links, .cnt]); rotate_left; apply hostDma_only; decide)
    | with_reducible (apply Only.step (M := [.hif]); rotate_left; apply complete_only; decide)
    | with_reducible (refine Only.sndEq (by assumption) ?_)
    | with_reducible (refine Only.fstEq (by assumption) ?_)
    | dsimp only
    | dsimp +zetaDelta only
    | split
    | (clear_value *; split)

theorem execModMdio_only (hd : Hdr) (clause : BitVec 8) (port : BitVec 8) (dev : BitVec 8) (reg : BitVec 16) (data : BitVec 16) (rd : BitVec 8) (val : BitVec 16) (s : State) : OnlyAns [.out, .hif] s (Sys2Proof.Machine.execModMdio hd clause port dev reg data rd val s) := by
  unfold Sys2Proof.Machine.execModMdio
  repeat' first
    | (with_reducible apply OnlyAns.next)
    | (with_reducible apply OnlyAns.cmd)
    | (with_reducible apply OnlyAns.keyCmd)
    | (with_reducible apply OnlyAns.tcoHost)
    | (with_reducible apply OnlyAns.ite <;> intro _)
    | decide
    | with_reducible (apply Only.step (M := [.cnt]); rotate_left; apply perfAdd_only; decide)
    | ((fail_if_no_progress extract_lets +onlyGivenNames x); refine Only.cut (L := [.out, .hif]) (s := s) (x := x) ?_ ?_; rotate_left; intro hx; clear_value x; rotate_left; dsimp only [x])
    | ((fail_if_no_progress extract_lets +onlyGivenNames x); refine Only.named (b := x.not) ?_; clear_value x)
    | (fail_if_no_progress extract_lets +onlyGivenNames x)
    | with_reducible apply Only.refl
    | with_reducible assumption
    | (with_reducible apply Only.ite <;> intro _)
    | with_reducible (apply Only.step (M := [.out]); rotate_left; apply emitOut_only; decide)
    | with_reducible (apply Only.step (M := [.hif]); rotate_left; apply complete_only; decide)
    | with_reducible (refine Only.sndEq (by assumption) ?_)
    | with_reducible (refine Only.fstEq (by assumption) ?_)
    | dsimp only
    | dsimp +zetaDelta only
    | split
    | (clear_value *; split)

theorem execPortRestart_only (hd : Hdr) (port : BitVec 8) (s : State) : OnlyAns [.out, .tco, .refs, .svc, .ptp, .eth, .pan, .log, .line, .links, .lnk, .rings, .hif, .cnt, .outs] s (Sys2Proof.Machine.execPortRestart hd port s) := by
  unfold Sys2Proof.Machine.execPortRestart
  repeat' first
    | (with_reducible apply OnlyAns.next)
    | (with_reducible apply OnlyAns.cmd)
    | (with_reducible apply OnlyAns.keyCmd)
    | (with_reducible apply OnlyAns.tcoHost)
    | (with_reducible apply OnlyAns.ite <;> intro _)
    | decide
    | with_reducible (apply Only.step (M := [.cnt]); rotate_left; apply perfAdd_only; decide)
    | ((fail_if_no_progress extract_lets +onlyGivenNames x); refine Only.cut (L := [.out, .tco, .refs, .svc, .ptp, .eth, .pan, .log, .line, .links, .lnk, .rings, .hif, .cnt, .outs]) (s := s) (x := x) ?_ ?_; rotate_left; intro hx; clear_value x; rotate_left; dsimp only [x])
    | ((fail_if_no_progress extract_lets +onlyGivenNames x); refine Only.named (b := x.not) ?_; clear_value x)
    | (fail_if_no_progress extract_lets +onlyGivenNames x)
    | with_reducible apply Only.refl
    | with_reducible assumption
    | (with_reducible apply Only.ite <;> intro _)
    | with_reducible (apply Only.step (M := [.hif]); rotate_left; apply fin_only; decide)
    | with_reducible (apply Only.step (M := [.out, .tco, .refs, .svc, .ptp, .eth, .pan, .log, .line, .links, .lnk, .rings, .hif, .cnt, .outs]); rotate_left; apply portStart_only; decide)
    | with_reducible (refine Only.sndEq (by assumption) ?_)
    | with_reducible (refine Only.fstEq (by assumption) ?_)
    | dsimp only
    | dsimp +zetaDelta only
    | split
    | (clear_value *; split)

end Sys2Proof.Laws
end

