-- ==== Sys2Proof/Laws/CmdGbb.lean ====
section
/-! SUPPORT. What each command and event of Machine/Gbb.lean can touch. -/
set_option linter.unusedTactic false
set_option linter.unreachableTactic false
namespace Sys2Proof.Laws
open Sys2Proof
open Sys2Proof.Machine
open Sys2Proof.Safety

theorem execGspPortFail_only (port : Fin 4) (rate : Bool) (rateHz : BitVec 32) (s : State) : OnlyAns [.out, .gbb, .pan, .log, .line, .links, .rings, .cnt, .outs] s (Sys2Proof.Machine.execGspPortFail port rate rateHz s) := by
  unfold Sys2Proof.Machine.execGspPortFail
  repeat' first
    | (with_reducible apply OnlyAns.next)
    | (with_reducible apply OnlyAns.cmd)
    | (with_reducible apply OnlyAns.keyCmd)
    | (with_reducible apply OnlyAns.tcoHost)
    | (with_reducible apply OnlyAns.ite <;> intro _)
    | decide
    | with_reducible (apply Only.step (M := [.cnt]); rotate_left; apply perfAdd_only; decide)
    | ((fail_if_no_progress extract_lets +onlyGivenNames x); refine Only.cut (L := [.out, .gbb, .pan, .log, .line, .links, .rings, .cnt, .outs]) (s := s) (x := x) ?_ ?_; rotate_left; intro hx; clear_value x; rotate_left; dsimp only [x])
    | ((fail_if_no_progress extract_lets +onlyGivenNames x); refine Only.named (b := x.not) ?_; clear_value x)
    | (fail_if_no_progress extract_lets +onlyGivenNames x)
    | with_reducible apply Only.refl
    | with_reducible assumption
    | (with_reducible apply Only.ite <;> intro _)
    | with_reducible (apply Only.step (M := [.gbb]); rotate_left; apply modGbb_only; decide)
    | with_reducible (apply Only.step (M := [.gbb, .cnt]); rotate_left; apply portChannelsLost_only; decide)
    | with_reducible (apply Only.step (M := [.out, .pan, .log, .line, .links, .rings, .cnt, .outs]); rotate_left; apply emit_only; decide)
    | with_reducible (refine Only.sndEq (by assumption) ?_)
    | with_reducible (refine Only.fstEq (by assumption) ?_)
    | dsimp only
    | dsimp +zetaDelta only
    | split
    | (clear_value *; split)

theorem execGspClkOk_only (port : Fin 4) (rateHz : BitVec 32) (s : State) : OnlyAns [.out, .gbb, .pan, .log, .line, .links, .rings, .cnt, .outs] s (Sys2Proof.Machine.execGspClkOk port rateHz s) := by
  unfold Sys2Proof.Machine.execGspClkOk
  repeat' first
    | (with_reducible apply OnlyAns.next)
    | (with_reducible apply OnlyAns.cmd)
    | (with_reducible apply OnlyAns.keyCmd)
    | (with_reducible apply OnlyAns.tcoHost)
    | (with_reducible apply OnlyAns.ite <;> intro _)
    | decide
    | with_reducible (apply Only.step (M := [.cnt]); rotate_left; apply perfAdd_only; decide)
    | ((fail_if_no_progress extract_lets +onlyGivenNames x); refine Only.cut (L := [.out, .gbb, .pan, .log, .line, .links, .rings, .cnt, .outs]) (s := s) (x := x) ?_ ?_; rotate_left; intro hx; clear_value x; rotate_left; dsimp only [x])
    | ((fail_if_no_progress extract_lets +onlyGivenNames x); refine Only.named (b := x.not) ?_; clear_value x)
    | (fail_if_no_progress extract_lets +onlyGivenNames x)
    | with_reducible apply Only.refl
    | with_reducible assumption
    | (with_reducible apply Only.ite <;> intro _)
    | with_reducible (apply Only.step (M := [.gbb]); rotate_left; apply modGbb_only; decide)
    | with_reducible (apply Only.step (M := [.out, .pan, .log, .line, .links, .rings, .cnt, .outs]); rotate_left; apply emit_only; decide)
    | with_reducible (refine Only.sndEq (by assumption) ?_)
    | with_reducible (refine Only.fstEq (by assumption) ?_)
    | dsimp only
    | dsimp +zetaDelta only
    | split
    | (clear_value *; split)

theorem execAcqSearchDone_only (rise : List (BitVec 4)) (fall : List (BitVec 4)) (s : State) : OnlyAns [.out, .gbb, .links, .hif, .cnt] s (Sys2Proof.Machine.execAcqSearchDone rise fall s) := by
  unfold Sys2Proof.Machine.execAcqSearchDone
  repeat' first
    | (with_reducible apply OnlyAns.next)
    | (with_reducible apply OnlyAns.cmd)
    | (with_reducible apply OnlyAns.keyCmd)
    | (with_reducible apply OnlyAns.tcoHost)
    | (with_reducible apply OnlyAns.ite <;> intro _)
    | decide
    | with_reducible (apply Only.step (M := [.cnt]); rotate_left; apply perfAdd_only; decide)
    | ((fail_if_no_progress extract_lets +onlyGivenNames x); refine Only.cut (L := [.out, .gbb, .links, .hif, .cnt]) (s := s) (x := x) ?_ ?_; rotate_left; intro hx; clear_value x; rotate_left; dsimp only [x])
    | ((fail_if_no_progress extract_lets +onlyGivenNames x); refine Only.named (b := x.not) ?_; clear_value x)
    | (fail_if_no_progress extract_lets +onlyGivenNames x)
    | with_reducible apply Only.refl
    | with_reducible assumption
    | (with_reducible apply Only.ite <;> intro _)
    | with_reducible (apply Only.step (M := [.gbb]); rotate_left; apply modGbb_only; decide)
    | with_reducible (apply Only.step (M := [.cnt]); rotate_left; apply perfAdd_only; decide)
    | with_reducible (apply Only.step (M := [.gbb]); rotate_left; exact takeHits_only_eq ‹_›; decide)
    | with_reducible (apply Only.step (M := [.gbb]); rotate_left; apply takeHits_only; decide)
    | with_reducible (apply Only.step (M := [.out, .links, .cnt]); rotate_left; apply hostDma_only; decide)
    | with_reducible (apply Only.step (M := [.hif]); rotate_left; apply complete_only; decide)
    | with_reducible (refine Only.sndEq (by assumption) ?_)
    | with_reducible (refine Only.fstEq (by assumption) ?_)
    | dsimp only
    | dsimp +zetaDelta only
    | split
    | (clear_value *; split)

theorem execCarrierLock_only (obs : LockObs) (s : State) : OnlyAns [.gbb] s (Sys2Proof.Machine.execCarrierLock obs s) := by
  unfold Sys2Proof.Machine.execCarrierLock
  repeat' first
    | (with_reducible apply OnlyAns.next)
    | (with_reducible apply OnlyAns.cmd)
    | (with_reducible apply OnlyAns.keyCmd)
    | (with_reducible apply OnlyAns.tcoHost)
    | (with_reducible apply OnlyAns.ite <;> intro _)
    | decide
    | with_reducible (apply Only.step (M := [.cnt]); rotate_left; apply perfAdd_only; decide)
    | ((fail_if_no_progress extract_lets +onlyGivenNames x); refine Only.cut (L := [.gbb]) (s := s) (x := x) ?_ ?_; rotate_left; intro hx; clear_value x; rotate_left; dsimp only [x])
    | ((fail_if_no_progress extract_lets +onlyGivenNames x); refine Only.named (b := x.not) ?_; clear_value x)
    | (fail_if_no_progress extract_lets +onlyGivenNames x)
    | with_reducible apply Only.refl
    | with_reducible assumption
    | (with_reducible apply Only.ite <;> intro _)
    | with_reducible (apply Only.step (M := [.gbb]); rotate_left; apply fixReady_only; decide)
    | with_reducible (apply Only.step (M := [.gbb]); rotate_left; apply setChan_only; decide)
    | with_reducible (refine Only.sndEq (by assumption) ?_)
    | with_reducible (refine Only.fstEq (by assumption) ?_)
    | dsimp only
    | dsimp +zetaDelta only
    | split
    | (clear_value *; split)

theorem execPullInTimeout_only (chan : Fin 512) (s : State) : OnlyAns [.gbb] s (Sys2Proof.Machine.execPullInTimeout chan s) := by
  unfold Sys2Proof.Machine.execPullInTimeout
  repeat' first
    | (with_reducible apply OnlyAns.next)
    | (with_reducible apply OnlyAns.cmd)
    | (with_reducible apply OnlyAns.keyCmd)
    | (with_reducible apply OnlyAns.tcoHost)
    | (with_reducible apply OnlyAns.ite <;> intro _)
    | decide
    | with_reducible (apply Only.step (M := [.cnt]); rotate_left; apply perfAdd_only; decide)
    | ((fail_if_no_progress extract_lets +onlyGivenNames x); refine Only.cut (L := [.gbb]) (s := s) (x := x) ?_ ?_; rotate_left; intro hx; clear_value x; rotate_left; dsimp only [x])
    | ((fail_if_no_progress extract_lets +onlyGivenNames x); refine Only.named (b := x.not) ?_; clear_value x)
    | (fail_if_no_progress extract_lets +onlyGivenNames x)
    | with_reducible apply Only.refl
    | with_reducible assumption
    | (with_reducible apply Only.ite <;> intro _)
    | with_reducible (apply Only.step (M := [.gbb]); rotate_left; apply setChan_only; decide)
    | with_reducible (refine Only.sndEq (by assumption) ?_)
    | with_reducible (refine Only.fstEq (by assumption) ?_)
    | dsimp only
    | dsimp +zetaDelta only
    | split
    | (clear_value *; split)

theorem execChannelLoss_only (chan : Fin 512) (obs : LossObs) (s : State) : OnlyAns [.gbb, .cnt] s (Sys2Proof.Machine.execChannelLoss chan obs s) := by
  unfold Sys2Proof.Machine.execChannelLoss
  repeat' first
    | (with_reducible apply OnlyAns.next)
    | (with_reducible apply OnlyAns.cmd)
    | (with_reducible apply OnlyAns.keyCmd)
    | (with_reducible apply OnlyAns.tcoHost)
    | (with_reducible apply OnlyAns.ite <;> intro _)
    | decide
    | with_reducible (apply Only.step (M := [.cnt]); rotate_left; apply perfAdd_only; decide)
    | ((fail_if_no_progress extract_lets +onlyGivenNames x); refine Only.cut (L := [.gbb, .cnt]) (s := s) (x := x) ?_ ?_; rotate_left; intro hx; clear_value x; rotate_left; dsimp only [x])
    | ((fail_if_no_progress extract_lets +onlyGivenNames x); refine Only.named (b := x.not) ?_; clear_value x)
    | (fail_if_no_progress extract_lets +onlyGivenNames x)
    | with_reducible apply Only.refl
    | with_reducible assumption
    | (with_reducible apply Only.ite <;> intro _)
    | with_reducible (apply Only.step (M := [.gbb, .cnt]); rotate_left; apply loseChan_only; decide)
    | with_reducible (refine Only.sndEq (by assumption) ?_)
    | with_reducible (refine Only.fstEq (by assumption) ?_)
    | dsimp only
    | dsimp +zetaDelta only
    | split
    | (clear_value *; split)

theorem execReacqTimeout_only (chan : Fin 512) (s : State) : OnlyAns [.gbb] s (Sys2Proof.Machine.execReacqTimeout chan s) := by
  unfold Sys2Proof.Machine.execReacqTimeout
  repeat' first
    | (with_reducible apply OnlyAns.next)
    | (with_reducible apply OnlyAns.cmd)
    | (with_reducible apply OnlyAns.keyCmd)
    | (with_reducible apply OnlyAns.tcoHost)
    | (with_reducible apply OnlyAns.ite <;> intro _)
    | decide
    | with_reducible (apply Only.step (M := [.cnt]); rotate_left; apply perfAdd_only; decide)
    | ((fail_if_no_progress extract_lets +onlyGivenNames x); refine Only.cut (L := [.gbb]) (s := s) (x := x) ?_ ?_; rotate_left; intro hx; clear_value x; rotate_left; dsimp only [x])
    | ((fail_if_no_progress extract_lets +onlyGivenNames x); refine Only.named (b := x.not) ?_; clear_value x)
    | (fail_if_no_progress extract_lets +onlyGivenNames x)
    | with_reducible apply Only.refl
    | with_reducible assumption
    | (with_reducible apply Only.ite <;> intro _)
    | with_reducible (apply Only.step (M := [.gbb]); rotate_left; apply setChan_only; decide)
    | with_reducible (refine Only.sndEq (by assumption) ?_)
    | with_reducible (refine Only.fstEq (by assumption) ?_)
    | dsimp only
    | dsimp +zetaDelta only
    | split
    | (clear_value *; split)

theorem execSymbolSync_only (obs : ChanMs) (s : State) : OnlyAns [.gbb] s (Sys2Proof.Machine.execSymbolSync obs s) := by
  unfold Sys2Proof.Machine.execSymbolSync
  repeat' first
    | (with_reducible apply OnlyAns.next)
    | (with_reducible apply OnlyAns.cmd)
    | (with_reducible apply OnlyAns.keyCmd)
    | (with_reducible apply OnlyAns.tcoHost)
    | (with_reducible apply OnlyAns.ite <;> intro _)
    | decide
    | with_reducible (apply Only.step (M := [.cnt]); rotate_left; apply perfAdd_only; decide)
    | ((fail_if_no_progress extract_lets +onlyGivenNames x); refine Only.cut (L := [.gbb]) (s := s) (x := x) ?_ ?_; rotate_left; intro hx; clear_value x; rotate_left; dsimp only [x])
    | ((fail_if_no_progress extract_lets +onlyGivenNames x); refine Only.named (b := x.not) ?_; clear_value x)
    | (fail_if_no_progress extract_lets +onlyGivenNames x)
    | with_reducible apply Only.refl
    | with_reducible assumption
    | (with_reducible apply Only.ite <;> intro _)
    | with_reducible (apply Only.step (M := [.gbb]); rotate_left; apply setChan_only; decide)
    | with_reducible (refine Only.sndEq (by assumption) ?_)
    | with_reducible (refine Only.fstEq (by assumption) ?_)
    | dsimp only
    | dsimp +zetaDelta only
    | split
    | (clear_value *; split)

theorem execTowDecoded_only (obs : ChanMs) (s : State) : OnlyAns [.gbb] s (Sys2Proof.Machine.execTowDecoded obs s) := by
  unfold Sys2Proof.Machine.execTowDecoded
  repeat' first
    | (with_reducible apply OnlyAns.next)
    | (with_reducible apply OnlyAns.cmd)
    | (with_reducible apply OnlyAns.keyCmd)
    | (with_reducible apply OnlyAns.tcoHost)
    | (with_reducible apply OnlyAns.ite <;> intro _)
    | decide
    | with_reducible (apply Only.step (M := [.cnt]); rotate_left; apply perfAdd_only; decide)
    | ((fail_if_no_progress extract_lets +onlyGivenNames x); refine Only.cut (L := [.gbb]) (s := s) (x := x) ?_ ?_; rotate_left; intro hx; clear_value x; rotate_left; dsimp only [x])
    | ((fail_if_no_progress extract_lets +onlyGivenNames x); refine Only.named (b := x.not) ?_; clear_value x)
    | (fail_if_no_progress extract_lets +onlyGivenNames x)
    | with_reducible apply Only.refl
    | with_reducible assumption
    | (with_reducible apply Only.ite <;> intro _)
    | with_reducible (apply Only.step (M := [.gbb]); rotate_left; apply setChan_only; decide)
    | with_reducible (refine Only.sndEq (by assumption) ?_)
    | with_reducible (refine Only.fstEq (by assumption) ?_)
    | dsimp only
    | dsimp +zetaDelta only
    | split
    | (clear_value *; split)

theorem execMeasLatch_only (obs : List ChanObs) (s : State) : OnlyAns [.out, .words, .mismatch, .gbb, .pan, .log, .line, .links, .rings, .cnt, .outs] s (Sys2Proof.Machine.execMeasLatch obs s) := by
  unfold Sys2Proof.Machine.execMeasLatch
  repeat' first
    | (with_reducible apply OnlyAns.next)
    | (with_reducible apply OnlyAns.cmd)
    | (with_reducible apply OnlyAns.keyCmd)
    | (with_reducible apply OnlyAns.tcoHost)
    | (with_reducible apply OnlyAns.ite <;> intro _)
    | decide
    | with_reducible (apply Only.step (M := [.cnt]); rotate_left; apply perfAdd_only; decide)
    | ((fail_if_no_progress extract_lets +onlyGivenNames x); refine Only.cut (L := [.out, .words, .mismatch, .gbb, .pan, .log, .line, .links, .rings, .cnt, .outs]) (s := s) (x := x) ?_ ?_; rotate_left; intro hx; clear_value x; rotate_left; dsimp only [x])
    | ((fail_if_no_progress extract_lets +onlyGivenNames x); refine Only.named (b := x.not) ?_; clear_value x)
    | (fail_if_no_progress extract_lets +onlyGivenNames x)
    | (with_reducible apply Only.foldl; (intro _ _ _))
    | (with_reducible apply Only.foldlFst; (intro _ _ _))
    | with_reducible apply Only.refl
    | with_reducible assumption
    | (with_reducible apply Only.ite <;> intro _)
    | with_reducible (apply Only.step (M := [.gbb]); rotate_left; apply fixReadyAll_only; decide)
    | with_reducible (apply Only.step (M := [.gbb]); rotate_left; apply observe_only; decide)
    | with_reducible (apply Only.step (M := [.gbb]); rotate_left; apply slipsClear_only; decide)
    | with_reducible (apply Only.step (M := [.out, .gbb, .pan, .log, .line, .links, .rings, .cnt, .outs]); rotate_left; apply groupChanges_only; decide)
    | with_reducible (apply Only.step (M := [.gbb]); rotate_left; apply modGbb_only; decide)
    | with_reducible (apply Only.step (M := [.cnt]); rotate_left; apply perfAdd_only; decide)
    | with_reducible (apply Only.step (M := [.out, .words, .mismatch, .gbb, .pan, .log, .line, .links, .rings, .cnt, .outs]); rotate_left; apply groupLatch_only; decide)
    | with_reducible (apply Only.step (M := [.gbb]); rotate_left; apply reacquire_only; decide)
    | with_reducible (apply Only.step (M := [.gbb]); rotate_left; apply autoAssign_only; decide)
    | with_reducible (refine Only.sndEq (by assumption) ?_)
    | with_reducible (refine Only.fstEq (by assumption) ?_)
    | dsimp only
    | dsimp +zetaDelta only
    | split
    | (clear_value *; split)

theorem execNavPage_only (chan : Fin 512) (page : NavIn) (s : State) : OnlyAns [.out, .tco, .gbb, .pan, .log, .line, .pair, .links, .rings, .cnt, .outs] s (Sys2Proof.Machine.execNavPage chan page s) := by
  unfold Sys2Proof.Machine.execNavPage
  repeat' first
    | (with_reducible apply OnlyAns.next)
    | (with_reducible apply OnlyAns.cmd)
    | (with_reducible apply OnlyAns.keyCmd)
    | (with_reducible apply OnlyAns.tcoHost)
    | (with_reducible apply OnlyAns.ite <;> intro _)
    | decide
    | with_reducible (apply Only.step (M := [.cnt]); rotate_left; apply perfAdd_only; decide)
    | ((fail_if_no_progress extract_lets +onlyGivenNames x); refine Only.cut (L := [.out, .tco, .gbb, .pan, .log, .line, .pair, .links, .rings, .cnt, .outs]) (s := s) (x := x) ?_ ?_; rotate_left; intro hx; clear_value x; rotate_left; dsimp only [x])
    | ((fail_if_no_progress extract_lets +onlyGivenNames x); refine Only.named (b := x.not) ?_; clear_value x)
    | (fail_if_no_progress extract_lets +onlyGivenNames x)
    | with_reducible apply Only.refl
    | with_reducible assumption
    | (with_reducible apply Only.ite <;> intro _)
    | with_reducible (apply Only.step (M := [.out, .tco, .gbb, .pan, .log, .line, .pair, .links, .rings, .cnt, .outs]); rotate_left; apply takePage_only; decide)
    | with_reducible (apply Only.step (M := [.gbb]); rotate_left; apply modGbb_only; decide)
    | with_reducible (apply Only.step (M := [.cnt]); rotate_left; apply perfAdd_only; decide)
    | with_reducible (refine Only.sndEq (by assumption) ?_)
    | with_reducible (refine Only.fstEq (by assumption) ?_)
    | dsimp only
    | dsimp +zetaDelta only
    | split
    | (clear_value *; split)

theorem execSolutionDone_only (group : Bool) (sol : SolIn) (s : State) : OnlyAns [.free, .out, .words, .mismatch, .tco, .refs, .gbb, .pan, .log, .line, .pair, .links, .lnk, .rings, .hif, .cnt, .perf, .outs, .tio] s (Sys2Proof.Machine.execSolutionDone group sol s) := by
  unfold Sys2Proof.Machine.execSolutionDone
  repeat' first
    | (with_reducible apply OnlyAns.next)
    | (with_reducible apply OnlyAns.cmd)
    | (with_reducible apply OnlyAns.keyCmd)
    | (with_reducible apply OnlyAns.tcoHost)
    | (with_reducible apply OnlyAns.ite <;> intro _)
    | decide
    | with_reducible (apply Only.step (M := [.cnt]); rotate_left; apply perfAdd_only; decide)
    | ((fail_if_no_progress extract_lets +onlyGivenNames x); refine Only.cut (L := [.free, .out, .words, .mismatch, .tco, .refs, .gbb, .pan, .log, .line, .pair, .links, .lnk, .rings, .hif, .cnt, .perf, .outs, .tio]) (s := s) (x := x) ?_ ?_; rotate_left; intro hx; clear_value x; rotate_left; dsimp only [x])
    | ((fail_if_no_progress extract_lets +onlyGivenNames x); refine Only.named (b := x.not) ?_; clear_value x)
    | (fail_if_no_progress extract_lets +onlyGivenNames x)
    | (with_reducible apply Only.foldl; (intro _ _ _))
    | (with_reducible apply Only.foldlFst; (intro _ _ _))
    | with_reducible apply Only.refl
    | with_reducible assumption
    | (with_reducible apply Only.ite <;> intro _)
    | with_reducible (apply Only.step (M := [.out, .gbb, .pan, .log, .line, .links, .rings, .cnt, .outs]); rotate_left; apply fwExclude_only; decide)
    | with_reducible (apply Only.step (M := [.gbb]); rotate_left; apply modGroup_only; decide)
    | with_reducible (apply Only.step (M := [.out, .pan, .log, .line, .links, .rings, .cnt, .outs]); rotate_left; apply emit_only; decide)
    | with_reducible (apply Only.step (M := [.out, .words, .mismatch, .gbb, .pan, .log, .line, .links, .rings, .cnt, .outs]); rotate_left; apply surveyEnd_only; decide)
    | with_reducible (apply Only.step (M := [.out, .tco, .refs, .pan, .log, .line, .links, .lnk, .rings, .hif, .cnt, .outs]); rotate_left; apply advertise_only; decide)
    | with_reducible (apply Only.step (M := [.cnt]); rotate_left; apply perfAdd_only; decide)
    | with_reducible (apply Only.step (M := [.free, .out, .tco, .refs, .gbb, .pan, .log, .line, .pair, .links, .lnk, .rings, .hif, .cnt, .perf, .outs, .tio]); rotate_left; apply measure_only; decide)
    | with_reducible (refine Only.sndEq (by assumption) ?_)
    | with_reducible (refine Only.fstEq (by assumption) ?_)
    | dsimp only
    | dsimp +zetaDelta only
    | split
    | (clear_value *; split)

theorem execExclHoldExpiry_only (group : Bool) (sys : Nat) (sv : Nat) (s : State) : OnlyAns [.out, .gbb, .pan, .log, .line, .links, .rings, .cnt, .outs] s (Sys2Proof.Machine.execExclHoldExpiry group sys sv s) := by
  unfold Sys2Proof.Machine.execExclHoldExpiry
  repeat' first
    | (with_reducible apply OnlyAns.next)
    | (with_reducible apply OnlyAns.cmd)
    | (with_reducible apply OnlyAns.keyCmd)
    | (with_reducible apply OnlyAns.tcoHost)
    | (with_reducible apply OnlyAns.ite <;> intro _)
    | decide
    | with_reducible (apply Only.step (M := [.cnt]); rotate_left; apply perfAdd_only; decide)
    | ((fail_if_no_progress extract_lets +onlyGivenNames x); refine Only.cut (L := [.out, .gbb, .pan, .log, .line, .links, .rings, .cnt, .outs]) (s := s) (x := x) ?_ ?_; rotate_left; intro hx; clear_value x; rotate_left; dsimp only [x])
    | ((fail_if_no_progress extract_lets +onlyGivenNames x); refine Only.named (b := x.not) ?_; clear_value x)
    | (fail_if_no_progress extract_lets +onlyGivenNames x)
    | with_reducible apply Only.refl
    | with_reducible assumption
    | (with_reducible apply Only.ite <;> intro _)
    | with_reducible (apply Only.step (M := [.out, .pan, .log, .line, .links, .rings, .cnt, .outs]); rotate_left; apply emit_only; decide)
    | with_reducible (apply Only.step (M := [.gbb]); rotate_left; apply modGbb_only; decide)
    | with_reducible (refine Only.sndEq (by assumption) ?_)
    | with_reducible (refine Only.fstEq (by assumption) ?_)
    | dsimp only
    | dsimp +zetaDelta only
    | split
    | (clear_value *; split)

theorem execGnssStart_only (hd : Hdr) (mask : BitVec 8) (kind : BitVec 8) (s : State) : OnlyAns [.gbb, .hif] s (Sys2Proof.Machine.execGnssStart hd mask kind s) := by
  unfold Sys2Proof.Machine.execGnssStart
  repeat' first
    | (with_reducible apply OnlyAns.next)
    | (with_reducible apply OnlyAns.cmd)
    | (with_reducible apply OnlyAns.keyCmd)
    | (with_reducible apply OnlyAns.tcoHost)
    | (with_reducible apply OnlyAns.ite <;> intro _)
    | decide
    | with_reducible (apply Only.step (M := [.cnt]); rotate_left; apply perfAdd_only; decide)
    | ((fail_if_no_progress extract_lets +onlyGivenNames x); refine Only.cut (L := [.gbb, .hif]) (s := s) (x := x) ?_ ?_; rotate_left; intro hx; clear_value x; rotate_left; dsimp only [x])
    | ((fail_if_no_progress extract_lets +onlyGivenNames x); refine Only.named (b := x.not) ?_; clear_value x)
    | (fail_if_no_progress extract_lets +onlyGivenNames x)
    | with_reducible apply Only.refl
    | with_reducible assumption
    | (with_reducible apply Only.ite <;> intro _)
    | with_reducible (apply Only.step (M := [.hif]); rotate_left; apply fin_only; decide)
    | with_reducible (apply Only.step (M := [.gbb]); rotate_left; apply autoAssign_only; decide)
    | with_reducible (apply Only.step (M := [.gbb]); rotate_left; apply modGroup_only; decide)
    | with_reducible (apply Only.step (M := [.hif]); rotate_left; apply complete_only; decide)
    | with_reducible (refine Only.sndEq (by assumption) ?_)
    | with_reducible (refine Only.fstEq (by assumption) ?_)
    | dsimp only
    | dsimp +zetaDelta only
    | split
    | (clear_value *; split)

theorem execGnssStop_only (hd : Hdr) (mask : BitVec 8) (s : State) : OnlyAns [.gbb, .hif] s (Sys2Proof.Machine.execGnssStop hd mask s) := by
  unfold Sys2Proof.Machine.execGnssStop
  repeat' first
    | (with_reducible apply OnlyAns.next)
    | (with_reducible apply OnlyAns.cmd)
    | (with_reducible apply OnlyAns.keyCmd)
    | (with_reducible apply OnlyAns.tcoHost)
    | (with_reducible apply OnlyAns.ite <;> intro _)
    | decide
    | with_reducible (apply Only.step (M := [.cnt]); rotate_left; apply perfAdd_only; decide)
    | ((fail_if_no_progress extract_lets +onlyGivenNames x); refine Only.cut (L := [.gbb, .hif]) (s := s) (x := x) ?_ ?_; rotate_left; intro hx; clear_value x; rotate_left; dsimp only [x])
    | ((fail_if_no_progress extract_lets +onlyGivenNames x); refine Only.named (b := x.not) ?_; clear_value x)
    | (fail_if_no_progress extract_lets +onlyGivenNames x)
    | with_reducible apply Only.refl
    | with_reducible assumption
    | (with_reducible apply Only.ite <;> intro _)
    | with_reducible (apply Only.step (M := [.hif]); rotate_left; apply fin_only; decide)
    | with_reducible (apply Only.step (M := [.gbb]); rotate_left; apply modGroup_only; decide)
    | with_reducible (refine Only.sndEq (by assumption) ?_)
    | with_reducible (refine Only.fstEq (by assumption) ?_)
    | dsimp only
    | dsimp +zetaDelta only
    | split
    | (clear_value *; split)

theorem execAcqSearch_only (hd : Hdr) (addr : BitVec 64) (len : BitVec 32) (req : BitVec 256) (s : State) : OnlyAns [.gbb, .hif] s (Sys2Proof.Machine.execAcqSearch hd addr len req s) := by
  unfold Sys2Proof.Machine.execAcqSearch
  repeat' first
    | (with_reducible apply OnlyAns.next)
    | (with_reducible apply OnlyAns.cmd)
    | (with_reducible apply OnlyAns.keyCmd)
    | (with_reducible apply OnlyAns.tcoHost)
    | (with_reducible apply OnlyAns.ite <;> intro _)
    | decide
    | with_reducible (apply Only.step (M := [.cnt]); rotate_left; apply perfAdd_only; decide)
    | ((fail_if_no_progress extract_lets +onlyGivenNames x); refine Only.cut (L := [.gbb, .hif]) (s := s) (x := x) ?_ ?_; rotate_left; intro hx; clear_value x; rotate_left; dsimp only [x])
    | ((fail_if_no_progress extract_lets +onlyGivenNames x); refine Only.named (b := x.not) ?_; clear_value x)
    | (fail_if_no_progress extract_lets +onlyGivenNames x)
    | with_reducible apply Only.refl
    | with_reducible assumption
    | (with_reducible apply Only.ite <;> intro _)
    | with_reducible (apply Only.step (M := [.hif]); rotate_left; apply fin_only; decide)
    | with_reducible (apply Only.step (M := [.gbb]); rotate_left; apply queueSearch_only; decide)
    | with_reducible (refine Only.sndEq (by assumption) ?_)
    | with_reducible (refine Only.fstEq (by assumption) ?_)
    | dsimp only
    | dsimp +zetaDelta only
    | split
    | (clear_value *; split)

theorem execChanPin_only (hd : Hdr) (port : BitVec 8) (signal : BitVec 8) (sv : BitVec 8) (on : BitVec 8) (s : State) : OnlyAns [.gbb, .hif] s (Sys2Proof.Machine.execChanPin hd port signal sv on s) := by
  unfold Sys2Proof.Machine.execChanPin
  repeat' first
    | (with_reducible apply OnlyAns.next)
    | (with_reducible apply OnlyAns.cmd)
    | (with_reducible apply OnlyAns.keyCmd)
    | (with_reducible apply OnlyAns.tcoHost)
    | (with_reducible apply OnlyAns.ite <;> intro _)
    | decide
    | with_reducible (apply Only.step (M := [.cnt]); rotate_left; apply perfAdd_only; decide)
    | ((fail_if_no_progress extract_lets +onlyGivenNames x); refine Only.cut (L := [.gbb, .hif]) (s := s) (x := x) ?_ ?_; rotate_left; intro hx; clear_value x; rotate_left; dsimp only [x])
    | ((fail_if_no_progress extract_lets +onlyGivenNames x); refine Only.named (b := x.not) ?_; clear_value x)
    | (fail_if_no_progress extract_lets +onlyGivenNames x)
    | with_reducible apply Only.refl
    | with_reducible assumption
    | (with_reducible apply Only.ite <;> intro _)
    | with_reducible (apply Only.step (M := [.hif]); rotate_left; apply complete_only; decide)
    | with_reducible (apply Only.step (M := [.gbb]); rotate_left; apply setChan_only; decide)
    | with_reducible (apply Only.step (M := [.hif]); rotate_left; apply fin_only; decide)
    | with_reducible (refine Only.sndEq (by assumption) ?_)
    | with_reducible (refine Only.fstEq (by assumption) ?_)
    | dsimp only
    | dsimp +zetaDelta only
    | split
    | (clear_value *; split)

theorem execMeasRead_only (hd : Hdr) (seq : BitVec 32) (addr : BitVec 64) (len : BitVec 32) (s : State) : OnlyAns [.out, .links, .hif, .cnt] s (Sys2Proof.Machine.execMeasRead hd seq addr len s) := by
  unfold Sys2Proof.Machine.execMeasRead
  repeat' first
    | (with_reducible apply OnlyAns.next)
    | (with_reducible apply OnlyAns.cmd)
    | (with_reducible apply OnlyAns.keyCmd)
    | (with_reducible apply OnlyAns.tcoHost)
    | (with_reducible apply OnlyAns.ite <;> intro _)
    | decide
    | with_reducible (apply Only.step (M := [.cnt]); rotate_left; apply perfAdd_only; decide)
    | ((fail_if_no_progress extract_lets +onlyGivenNames x); refine Only.cut (L := [.out, .links, .hif, .cnt]) (s := s) (x := x) ?_ ?_; rotate_left; intro hx; clear_value x; rotate_left; dsimp only [x])
    | ((fail_if_no_progress extract_lets +onlyGivenNames x); refine Only.named (b := x.not) ?_; clear_value x)
    | (fail_if_no_progress extract_lets +onlyGivenNames x)
    | with_reducible apply Only.refl
    | with_reducible assumption
    | (with_reducible apply Only.ite <;> intro _)
    | with_reducible (apply Only.step (M := [.hif]); rotate_left; apply complete_only; decide)
    | with_reducible (apply Only.step (M := [.out, .links, .cnt]); rotate_left; apply hostDma_only; decide)
    | with_reducible (refine Only.sndEq (by assumption) ?_)
    | with_reducible (refine Only.fstEq (by assumption) ?_)
    | dsimp only
    | dsimp +zetaDelta only
    | split
    | (clear_value *; split)

theorem execNavRead_only (hd : Hdr) (first : BitVec 32) (count : BitVec 16) (addr : BitVec 64) (s : State) : OnlyAns [.out, .links, .hif, .cnt] s (Sys2Proof.Machine.execNavRead hd first count addr s) := by
  unfold Sys2Proof.Machine.execNavRead
  repeat' first
    | (with_reducible apply OnlyAns.next)
    | (with_reducible apply OnlyAns.cmd)
    | (with_reducible apply OnlyAns.keyCmd)
    | (with_reducible apply OnlyAns.tcoHost)
    | (with_reducible apply OnlyAns.ite <;> intro _)
    | decide
    | with_reducible (apply Only.step (M := [.cnt]); rotate_left; apply perfAdd_only; decide)
    | ((fail_if_no_progress extract_lets +onlyGivenNames x); refine Only.cut (L := [.out, .links, .hif, .cnt]) (s := s) (x := x) ?_ ?_; rotate_left; intro hx; clear_value x; rotate_left; dsimp only [x])
    | ((fail_if_no_progress extract_lets +onlyGivenNames x); refine Only.named (b := x.not) ?_; clear_value x)
    | (fail_if_no_progress extract_lets +onlyGivenNames x)
    | with_reducible apply Only.refl
    | with_reducible assumption
    | (with_reducible apply Only.ite <;> intro _)
    | with_reducible (apply Only.step (M := [.out, .links, .cnt]); rotate_left; apply hostDma_only; decide)
    | with_reducible (apply Only.step (M := [.hif]); rotate_left; apply complete_only; decide)
    | with_reducible (refine Only.sndEq (by assumption) ?_)
    | with_reducible (refine Only.fstEq (by assumption) ?_)
    | dsimp only
    | dsimp +zetaDelta only
    | split
    | (clear_value *; split)

theorem execNavInject_only (hd : Hdr) (pages : List NavInject) (s : State) : OnlyAns [.out, .tco, .gbb, .pan, .log, .line, .pair, .links, .rings, .hif, .cnt, .outs] s (Sys2Proof.Machine.execNavInject hd pages s) := by
  unfold Sys2Proof.Machine.execNavInject
  repeat' first
    | (with_reducible apply OnlyAns.next)
    | (with_reducible apply OnlyAns.cmd)
    | (with_reducible apply OnlyAns.keyCmd)
    | (with_reducible apply OnlyAns.tcoHost)
    | (with_reducible apply OnlyAns.ite <;> intro _)
    | decide
    | with_reducible (apply Only.step (M := [.cnt]); rotate_left; apply perfAdd_only; decide)
    | ((fail_if_no_progress extract_lets +onlyGivenNames x); refine Only.cut (L := [.out, .tco, .gbb, .pan, .log, .line, .pair, .links, .rings, .hif, .cnt, .outs]) (s := s) (x := x) ?_ ?_; rotate_left; intro hx; clear_value x; rotate_left; dsimp only [x])
    | ((fail_if_no_progress extract_lets +onlyGivenNames x); refine Only.named (b := x.not) ?_; clear_value x)
    | (fail_if_no_progress extract_lets +onlyGivenNames x)
    | (with_reducible apply Only.foldl; (intro _ _ _))
    | (with_reducible apply Only.foldlFst; (intro _ _ _))
    | with_reducible apply Only.refl
    | with_reducible assumption
    | (with_reducible apply Only.ite <;> intro _)
    | with_reducible (apply Only.step (M := [.hif]); rotate_left; apply fin_only; decide)
    | with_reducible (apply Only.step (M := [.out, .tco, .gbb, .pan, .log, .line, .pair, .links, .rings, .cnt, .outs]); rotate_left; apply inject_only; decide)
    | with_reducible (apply Only.step (M := [.hif]); rotate_left; apply complete_only; decide)
    | with_reducible (refine Only.sndEq (by assumption) ?_)
    | with_reducible (refine Only.fstEq (by assumption) ?_)
    | dsimp only
    | dsimp +zetaDelta only
    | split
    | (clear_value *; split)

theorem execPosSet_only (hd : Hdr) (group : BitVec 8) (x : BitVec 64) (y : BitVec 64) (z : BitVec 64) (unc : BitVec 32) (s : State) : OnlyAns [.words, .mismatch, .gbb, .hif] s (Sys2Proof.Machine.execPosSet hd group x y z unc s) := by
  unfold Sys2Proof.Machine.execPosSet
  repeat' first
    | (with_reducible apply OnlyAns.next)
    | (with_reducible apply OnlyAns.cmd)
    | (with_reducible apply OnlyAns.keyCmd)
    | (with_reducible apply OnlyAns.tcoHost)
    | (with_reducible apply OnlyAns.ite <;> intro _)
    | decide
    | with_reducible (apply Only.step (M := [.cnt]); rotate_left; apply perfAdd_only; decide)
    | ((fail_if_no_progress extract_lets +onlyGivenNames x); refine Only.cut (L := [.words, .mismatch, .gbb, .hif]) (s := s) (x := x) ?_ ?_; rotate_left; intro hx; clear_value x; rotate_left; dsimp only [x])
    | ((fail_if_no_progress extract_lets +onlyGivenNames x); refine Only.named (b := x.not) ?_; clear_value x)
    | (fail_if_no_progress extract_lets +onlyGivenNames x)
    | with_reducible apply Only.refl
    | with_reducible assumption
    | (with_reducible apply Only.ite <;> intro _)
    | with_reducible (apply Only.step (M := [.hif]); rotate_left; apply fin_only; decide)
    | with_reducible (apply Only.step (M := [.gbb]); rotate_left; apply modGroup_only; decide)
    | with_reducible (apply Only.step (M := [.words, .mismatch]); rotate_left; apply putPos_only; decide)
    | with_reducible (refine Only.sndEq (by assumption) ?_)
    | with_reducible (refine Only.fstEq (by assumption) ?_)
    | dsimp only
    | dsimp +zetaDelta only
    | split
    | (clear_value *; split)

theorem execSurveyStart_only (hd : Hdr) (group : BitVec 8) (s : State) : OnlyAns [.gbb, .hif] s (Sys2Proof.Machine.execSurveyStart hd group s) := by
  unfold Sys2Proof.Machine.execSurveyStart
  repeat' first
    | (with_reducible apply OnlyAns.next)
    | (with_reducible apply OnlyAns.cmd)
    | (with_reducible apply OnlyAns.keyCmd)
    | (with_reducible apply OnlyAns.tcoHost)
    | (with_reducible apply OnlyAns.ite <;> intro _)
    | decide
    | with_reducible (apply Only.step (M := [.cnt]); rotate_left; apply perfAdd_only; decide)
    | ((fail_if_no_progress extract_lets +onlyGivenNames x); refine Only.cut (L := [.gbb, .hif]) (s := s) (x := x) ?_ ?_; rotate_left; intro hx; clear_value x; rotate_left; dsimp only [x])
    | ((fail_if_no_progress extract_lets +onlyGivenNames x); refine Only.named (b := x.not) ?_; clear_value x)
    | (fail_if_no_progress extract_lets +onlyGivenNames x)
    | with_reducible apply Only.refl
    | with_reducible assumption
    | (with_reducible apply Only.ite <;> intro _)
    | with_reducible (apply Only.step (M := [.hif]); rotate_left; apply fin_only; decide)
    | with_reducible (apply Only.step (M := [.gbb]); rotate_left; apply modGroup_only; decide)
    | with_reducible (refine Only.sndEq (by assumption) ?_)
    | with_reducible (refine Only.fstEq (by assumption) ?_)
    | dsimp only
    | dsimp +zetaDelta only
    | split
    | (clear_value *; split)

theorem execSolQuery_only (hd : Hdr) (group : BitVec 8) (s : State) : OnlyAns [.hif] s (Sys2Proof.Machine.execSolQuery hd group s) := by
  unfold Sys2Proof.Machine.execSolQuery
  repeat' first
    | (with_reducible apply OnlyAns.next)
    | (with_reducible apply OnlyAns.cmd)
    | (with_reducible apply OnlyAns.keyCmd)
    | (with_reducible apply OnlyAns.tcoHost)
    | (with_reducible apply OnlyAns.ite <;> intro _)
    | decide
    | with_reducible (apply Only.step (M := [.cnt]); rotate_left; apply perfAdd_only; decide)
    | ((fail_if_no_progress extract_lets +onlyGivenNames x); refine Only.cut (L := [.hif]) (s := s) (x := x) ?_ ?_; rotate_left; intro hx; clear_value x; rotate_left; dsimp only [x])
    | ((fail_if_no_progress extract_lets +onlyGivenNames x); refine Only.named (b := x.not) ?_; clear_value x)
    | (fail_if_no_progress extract_lets +onlyGivenNames x)
    | with_reducible apply Only.refl
    | with_reducible assumption
    | (with_reducible apply Only.ite <;> intro _)
    | with_reducible (apply Only.step (M := [.hif]); rotate_left; apply fin_only; decide)
    | with_reducible (apply Only.step (M := [.hif]); rotate_left; apply complete_only; decide)
    | with_reducible (refine Only.sndEq (by assumption) ?_)
    | with_reducible (refine Only.fstEq (by assumption) ?_)
    | dsimp only
    | dsimp +zetaDelta only
    | split
    | (clear_value *; split)

theorem execSvExclude_only (hd : Hdr) (sys : BitVec 8) (sv : BitVec 8) (on : BitVec 8) (s : State) : OnlyAns [.out, .gbb, .pan, .log, .line, .links, .rings, .hif, .cnt, .outs] s (Sys2Proof.Machine.execSvExclude hd sys sv on s) := by
  unfold Sys2Proof.Machine.execSvExclude
  repeat' first
    | (with_reducible apply OnlyAns.next)
    | (with_reducible apply OnlyAns.cmd)
    | (with_reducible apply OnlyAns.keyCmd)
    | (with_reducible apply OnlyAns.tcoHost)
    | (with_reducible apply OnlyAns.ite <;> intro _)
    | decide
    | with_reducible (apply Only.step (M := [.cnt]); rotate_left; apply perfAdd_only; decide)
    | ((fail_if_no_progress extract_lets +onlyGivenNames x); refine Only.cut (L := [.out, .gbb, .pan, .log, .line, .links, .rings, .hif, .cnt, .outs]) (s := s) (x := x) ?_ ?_; rotate_left; intro hx; clear_value x; rotate_left; dsimp only [x])
    | ((fail_if_no_progress extract_lets +onlyGivenNames x); refine Only.named (b := x.not) ?_; clear_value x)
    | (fail_if_no_progress extract_lets +onlyGivenNames x)
    | with_reducible apply Only.refl
    | with_reducible assumption
    | (with_reducible apply Only.ite <;> intro _)
    | with_reducible (apply Only.step (M := [.gbb]); rotate_left; apply modGroup_only; decide)
    | with_reducible (apply Only.step (M := [.out, .gbb, .pan, .log, .line, .links, .rings, .cnt, .outs]); rotate_left; apply hostExclude_only; decide)
    | with_reducible (apply Only.step (M := [.hif]); rotate_left; apply fin_only; decide)
    | with_reducible (refine Only.sndEq (by assumption) ?_)
    | with_reducible (refine Only.fstEq (by assumption) ?_)
    | dsimp only
    | dsimp +zetaDelta only
    | split
    | (clear_value *; split)

theorem execGnssClear_only (hd : Hdr) (mask : BitVec 8) (s : State) : OnlyAns [.gbb, .hif] s (Sys2Proof.Machine.execGnssClear hd mask s) := by
  unfold Sys2Proof.Machine.execGnssClear
  repeat' first
    | (with_reducible apply OnlyAns.next)
    | (with_reducible apply OnlyAns.cmd)
    | (with_reducible apply OnlyAns.keyCmd)
    | (with_reducible apply OnlyAns.tcoHost)
    | (with_reducible apply OnlyAns.ite <;> intro _)
    | decide
    | with_reducible (apply Only.step (M := [.cnt]); rotate_left; apply perfAdd_only; decide)
    | ((fail_if_no_progress extract_lets +onlyGivenNames x); refine Only.cut (L := [.gbb, .hif]) (s := s) (x := x) ?_ ?_; rotate_left; intro hx; clear_value x; rotate_left; dsimp only [x])
    | ((fail_if_no_progress extract_lets +onlyGivenNames x); refine Only.named (b := x.not) ?_; clear_value x)
    | (fail_if_no_progress extract_lets +onlyGivenNames x)
    | with_reducible apply Only.refl
    | with_reducible assumption
    | (with_reducible apply Only.ite <;> intro _)
    | with_reducible (apply Only.step (M := [.hif]); rotate_left; apply fin_only; decide)
    | with_reducible (apply Only.step (M := [.gbb]); rotate_left; apply modGbb_only; decide)
    | with_reducible (refine Only.sndEq (by assumption) ?_)
    | with_reducible (refine Only.fstEq (by assumption) ?_)
    | dsimp only
    | dsimp +zetaDelta only
    | split
    | (clear_value *; split)

end Sys2Proof.Laws
end

