-- ==== Sys2Proof/Laws/PairOps.lean ====
section
/-! SUPPORT. What each operation of Machine/PairOps.lean can touch, once for each. -/
set_option linter.unusedTactic false
set_option linter.unreachableTactic false
namespace Sys2Proof.Laws
open Sys2Proof
open Sys2Proof.Machine
open Sys2Proof.Safety

theorem swapAbort_only (s : State) (mask : Nat) (tell : Bool)  : Only [.out, .pan, .log, .line, .pair, .links, .rings, .hif, .cnt, .outs] s (swapAbort s mask tell) := by
  unfold swapAbort
  repeat' first
    | ((fail_if_no_progress extract_lets +onlyGivenNames x); refine Only.cut (L := [.out, .pan, .log, .line, .pair, .links, .rings, .hif, .cnt, .outs]) (s := s) (x := x) ?_ ?_; rotate_left; intro hx; clear_value x; rotate_left; dsimp only [x])
    | ((fail_if_no_progress extract_lets +onlyGivenNames x); refine Only.named (b := x.not) ?_; clear_value x)
    | (fail_if_no_progress extract_lets +onlyGivenNames x)
    | with_reducible apply Only.refl
    | with_reducible assumption
    | (with_reducible apply Only.ite <;> intro _)
    | with_reducible (apply Only.step (M := [.pair]); rotate_left; exact modPair_only_pair _ _ (by intro k; rfl); decide)
    | with_reducible (apply Only.step (M := [.line]); rotate_left; exact modPair_only_line _ _ (by intro k; rfl); decide)
    | with_reducible (apply Only.step (M := [.line, .pair]); rotate_left; apply modPair_only; decide)
    | with_reducible (apply Only.step (M := [.pan]); rotate_left; apply modFig_only; decide)
    | with_reducible (apply Only.step (M := [.out, .pan, .log, .line, .links, .rings, .cnt, .outs]); rotate_left; apply emit_only; decide)
    | with_reducible (apply Only.step (M := [.hif]); rotate_left; apply complete_only; decide)
    | with_reducible (apply Only.step (M := [.out, .links, .cnt]); rotate_left; apply linkSend_only; decide)
    | with_reducible (refine Only.sndEq (by assumption) ?_)
    | with_reducible (refine Only.fstEq (by assumption) ?_)
    | dsimp only
    | dsimp +zetaDelta only
    | split
    | (clear_value *; split)

theorem pairSeek_only (s : State)  : Only [.out, .pan, .log, .line, .pair, .links, .rings, .hif, .cnt, .outs] s (pairSeek s) := by
  unfold pairSeek
  repeat' first
    | ((fail_if_no_progress extract_lets +onlyGivenNames x); refine Only.cut (L := [.out, .pan, .log, .line, .pair, .links, .rings, .hif, .cnt, .outs]) (s := s) (x := x) ?_ ?_; rotate_left; intro hx; clear_value x; rotate_left; dsimp only [x])
    | ((fail_if_no_progress extract_lets +onlyGivenNames x); refine Only.named (b := x.not) ?_; clear_value x)
    | (fail_if_no_progress extract_lets +onlyGivenNames x)
    | with_reducible apply Only.refl
    | with_reducible assumption
    | (with_reducible apply Only.ite <;> intro _)
    | with_reducible (apply Only.step (M := [.pair]); rotate_left; exact modPair_only_pair _ _ (by intro k; rfl); decide)
    | with_reducible (apply Only.step (M := [.line]); rotate_left; exact modPair_only_line _ _ (by intro k; rfl); decide)
    | with_reducible (apply Only.step (M := [.line, .pair]); rotate_left; apply modPair_only; decide)
    | with_reducible (apply Only.step (M := [.out, .pan, .log, .line, .pair, .links, .rings, .hif, .cnt, .outs]); rotate_left; apply swapAbort_only; decide)
    | with_reducible (refine Only.sndEq (by assumption) ?_)
    | with_reducible (refine Only.fstEq (by assumption) ?_)
    | dsimp only
    | dsimp +zetaDelta only
    | split
    | (clear_value *; split)

theorem snapshot_only (s : State)  : Only [.out, .key, .pan, .log, .line, .pair, .links, .rings, .cnt, .outs] s (snapshot s) := by
  unfold snapshot
  repeat' first
    | ((fail_if_no_progress extract_lets +onlyGivenNames x); refine Only.cut (L := [.out, .key, .pan, .log, .line, .pair, .links, .rings, .cnt, .outs]) (s := s) (x := x) ?_ ?_; rotate_left; intro hx; clear_value x; rotate_left; dsimp only [x])
    | ((fail_if_no_progress extract_lets +onlyGivenNames x); refine Only.named (b := x.not) ?_; clear_value x)
    | (fail_if_no_progress extract_lets +onlyGivenNames x)
    | (with_reducible apply Only.foldl; (intro _ _ _))
    | (with_reducible apply Only.foldlFst; (intro _ _ _))
    | with_reducible apply Only.refl
    | with_reducible assumption
    | (with_reducible apply Only.ite <;> intro _)
    | with_reducible (apply Only.step (M := [.out, .pair, .links, .cnt]); rotate_left; apply mirrorPut_only; decide)
    | with_reducible (apply Only.step (M := [.out, .key, .pan, .log, .line, .pair, .links, .rings, .cnt, .outs]); rotate_left; apply mirrorCookie_only; decide)
    | with_reducible (apply Only.step (M := [.out, .key, .pan, .log, .line, .pair, .links, .rings, .cnt, .outs]); rotate_left; apply mirrorSec_only; decide)
    | with_reducible (apply Only.step (M := [.out, .pair, .links, .cnt]); rotate_left; apply mirrorGrant_only; decide)
    | with_reducible (apply Only.step (M := [.out, .pair, .links, .cnt]); rotate_left; apply mirrorSeqs_only; decide)
    | with_reducible (refine Only.sndEq (by assumption) ?_)
    | with_reducible (refine Only.fstEq (by assumption) ?_)
    | dsimp only
    | dsimp +zetaDelta only
    | split
    | (clear_value *; split)

theorem beginMirror_only (s : State)  : Only [.out, .key, .pan, .log, .line, .pair, .links, .rings, .cnt, .outs] s (beginMirror s) := by
  unfold beginMirror
  repeat' first
    | ((fail_if_no_progress extract_lets +onlyGivenNames x); refine Only.cut (L := [.out, .key, .pan, .log, .line, .pair, .links, .rings, .cnt, .outs]) (s := s) (x := x) ?_ ?_; rotate_left; intro hx; clear_value x; rotate_left; dsimp only [x])
    | ((fail_if_no_progress extract_lets +onlyGivenNames x); refine Only.named (b := x.not) ?_; clear_value x)
    | (fail_if_no_progress extract_lets +onlyGivenNames x)
    | with_reducible apply Only.refl
    | with_reducible assumption
    | (with_reducible apply Only.ite <;> intro _)
    | with_reducible (apply Only.step (M := [.pair]); rotate_left; exact modPair_only_pair _ _ (by intro k; rfl); decide)
    | with_reducible (apply Only.step (M := [.line]); rotate_left; exact modPair_only_line _ _ (by intro k; rfl); decide)
    | with_reducible (apply Only.step (M := [.line, .pair]); rotate_left; apply modPair_only; decide)
    | with_reducible (apply Only.step (M := [.out, .key, .pan, .log, .line, .pair, .links, .rings, .cnt, .outs]); rotate_left; apply snapshot_only; decide)
    | with_reducible (refine Only.sndEq (by assumption) ?_)
    | with_reducible (refine Only.fstEq (by assumption) ?_)
    | dsimp only
    | dsimp +zetaDelta only
    | split
    | (clear_value *; split)

theorem pairFail_only (s : State) (step : Nat) (reason : Nat)  : Only [.out, .pan, .log, .line, .links, .rings, .cnt, .outs] s (pairFail s step reason) := by
  unfold pairFail
  repeat' first
    | ((fail_if_no_progress extract_lets +onlyGivenNames x); refine Only.cut (L := [.out, .pan, .log, .line, .links, .rings, .cnt, .outs]) (s := s) (x := x) ?_ ?_; rotate_left; intro hx; clear_value x; rotate_left; dsimp only [x])
    | ((fail_if_no_progress extract_lets +onlyGivenNames x); refine Only.named (b := x.not) ?_; clear_value x)
    | (fail_if_no_progress extract_lets +onlyGivenNames x)
    | with_reducible apply Only.refl
    | with_reducible assumption
    | (with_reducible apply Only.ite <;> intro _)
    | with_reducible (apply Only.step (M := [.out, .pan, .log, .line, .links, .rings, .cnt, .outs]); rotate_left; apply emit_only; decide)
    | with_reducible (refine Only.sndEq (by assumption) ?_)
    | with_reducible (refine Only.fstEq (by assumption) ?_)
    | dsimp only
    | dsimp +zetaDelta only
    | split
    | (clear_value *; split)

theorem ceremonyFail_only (s : State) (c : Ceremony) (step : Nat) (reason : Nat) (st : BitVec 8)  : Only [.out, .key, .pan, .log, .line, .pair, .links, .rings, .hif, .cnt, .outs] s (ceremonyFail s c step reason st) := by
  unfold ceremonyFail
  repeat' first
    | ((fail_if_no_progress extract_lets +onlyGivenNames x); refine Only.cut (L := [.out, .key, .pan, .log, .line, .pair, .links, .rings, .hif, .cnt, .outs]) (s := s) (x := x) ?_ ?_; rotate_left; intro hx; clear_value x; rotate_left; dsimp only [x])
    | ((fail_if_no_progress extract_lets +onlyGivenNames x); refine Only.named (b := x.not) ?_; clear_value x)
    | (fail_if_no_progress extract_lets +onlyGivenNames x)
    | with_reducible apply Only.refl
    | with_reducible assumption
    | (with_reducible apply Only.ite <;> intro _)
    | with_reducible (apply Only.step (M := [.key]); rotate_left; apply setSlot_only; decide)
    | with_reducible (apply Only.step (M := [.pair]); rotate_left; exact modPair_only_pair _ _ (by intro k; rfl); decide)
    | with_reducible (apply Only.step (M := [.line]); rotate_left; exact modPair_only_line _ _ (by intro k; rfl); decide)
    | with_reducible (apply Only.step (M := [.line, .pair]); rotate_left; apply modPair_only; decide)
    | with_reducible (apply Only.step (M := [.hif]); rotate_left; apply fin_only; decide)
    | with_reducible (apply Only.step (M := [.out, .key, .pan, .log, .line, .pair, .links, .rings, .cnt, .outs]); rotate_left; apply beginMirror_only; decide)
    | with_reducible (apply Only.step (M := [.out, .pan, .log, .line, .links, .rings, .cnt, .outs]); rotate_left; apply pairFail_only; decide)
    | with_reducible (refine Only.sndEq (by assumption) ?_)
    | with_reducible (refine Only.fstEq (by assumption) ?_)
    | dsimp only
    | dsimp +zetaDelta only
    | split
    | (clear_value *; split)

theorem pairEval_only (s : State)  : Only [.pair] s (pairEval s) := by
  unfold pairEval
  repeat' first
    | ((fail_if_no_progress extract_lets +onlyGivenNames x); refine Only.cut (L := [.pair]) (s := s) (x := x) ?_ ?_; rotate_left; intro hx; clear_value x; rotate_left; dsimp only [x])
    | ((fail_if_no_progress extract_lets +onlyGivenNames x); refine Only.named (b := x.not) ?_; clear_value x)
    | (fail_if_no_progress extract_lets +onlyGivenNames x)
    | with_reducible apply Only.refl
    | with_reducible assumption
    | (with_reducible apply Only.ite <;> intro _)
    | with_reducible (apply Only.step (M := [.pair]); rotate_left; exact modPair_only_pair _ _ (by intro k; rfl); decide)
    | with_reducible (apply Only.step (M := [.line]); rotate_left; exact modPair_only_line _ _ (by intro k; rfl); decide)
    | with_reducible (apply Only.step (M := [.line, .pair]); rotate_left; apply modPair_only; decide)
    | with_reducible (refine Only.sndEq (by assumption) ?_)
    | with_reducible (refine Only.fstEq (by assumption) ?_)
    | dsimp only
    | dsimp +zetaDelta only
    | split
    | (clear_value *; split)

theorem strapCheck_only (s : State) (flags : BitVec 8)  : Only [.out, .pan, .log, .line, .pair, .links, .rings, .cnt, .outs] s (strapCheck s flags) := by
  unfold strapCheck
  repeat' first
    | ((fail_if_no_progress extract_lets +onlyGivenNames x); refine Only.cut (L := [.out, .pan, .log, .line, .pair, .links, .rings, .cnt, .outs]) (s := s) (x := x) ?_ ?_; rotate_left; intro hx; clear_value x; rotate_left; dsimp only [x])
    | ((fail_if_no_progress extract_lets +onlyGivenNames x); refine Only.named (b := x.not) ?_; clear_value x)
    | (fail_if_no_progress extract_lets +onlyGivenNames x)
    | with_reducible apply Only.refl
    | with_reducible assumption
    | (with_reducible apply Only.ite <;> intro _)
    | with_reducible (apply Only.step (M := [.out, .pan, .log, .line, .links, .rings, .cnt, .outs]); rotate_left; apply emit_only; decide)
    | with_reducible (apply Only.step (M := [.pair]); rotate_left; exact modPair_only_pair _ _ (by intro k; rfl); decide)
    | with_reducible (apply Only.step (M := [.line]); rotate_left; exact modPair_only_line _ _ (by intro k; rfl); decide)
    | with_reducible (apply Only.step (M := [.line, .pair]); rotate_left; apply modPair_only; decide)
    | with_reducible (refine Only.sndEq (by assumption) ?_)
    | with_reducible (refine Only.fstEq (by assumption) ?_)
    | dsimp only
    | dsimp +zetaDelta only
    | split
    | (clear_value *; split)

theorem dropLine_only (s : State) (high : Bool)  : Only [.out, .line, .outs] s (dropLine s high) := by
  unfold dropLine
  repeat' first
    | ((fail_if_no_progress extract_lets +onlyGivenNames x); refine Only.cut (L := [.out, .line, .outs]) (s := s) (x := x) ?_ ?_; rotate_left; intro hx; clear_value x; rotate_left; dsimp only [x])
    | ((fail_if_no_progress extract_lets +onlyGivenNames x); refine Only.named (b := x.not) ?_; clear_value x)
    | (fail_if_no_progress extract_lets +onlyGivenNames x)
    | with_reducible apply Only.refl
    | with_reducible assumption
    | (with_reducible apply Only.ite <;> intro _)
    | with_reducible (apply Only.step (M := [.out]); rotate_left; apply emitOut_only; decide)
    | with_reducible (apply Only.step (M := [.out, .outs]); rotate_left; apply refreshOuts_only; decide)
    | with_reducible (apply Only.step (M := [.pair]); rotate_left; exact modPair_only_pair _ _ (by intro k; rfl); decide)
    | with_reducible (apply Only.step (M := [.line]); rotate_left; exact modPair_only_line _ _ (by intro k; rfl); decide)
    | with_reducible (apply Only.step (M := [.line, .pair]); rotate_left; apply modPair_only; decide)
    | with_reducible (refine Only.sndEq (by assumption) ?_)
    | with_reducible (refine Only.fstEq (by assumption) ?_)
    | dsimp only
    | dsimp +zetaDelta only
    | split
    | (clear_value *; split)

theorem dualCheck_only (s : State) (flags : BitVec 8)  : Only [.out, .pan, .log, .line, .links, .rings, .cnt, .outs] s (dualCheck s flags) := by
  unfold dualCheck
  repeat' first
    | ((fail_if_no_progress extract_lets +onlyGivenNames x); refine Only.cut (L := [.out, .pan, .log, .line, .links, .rings, .cnt, .outs]) (s := s) (x := x) ?_ ?_; rotate_left; intro hx; clear_value x; rotate_left; dsimp only [x])
    | ((fail_if_no_progress extract_lets +onlyGivenNames x); refine Only.named (b := x.not) ?_; clear_value x)
    | (fail_if_no_progress extract_lets +onlyGivenNames x)
    | with_reducible apply Only.refl
    | with_reducible assumption
    | (with_reducible apply Only.ite <;> intro _)
    | with_reducible (apply Only.step (M := [.out, .pan, .log, .line, .links, .rings, .cnt, .outs]); rotate_left; apply emit_only; decide)
    | with_reducible (apply Only.step (M := [.out, .line, .outs]); rotate_left; apply dropLine_only; decide)
    | with_reducible (refine Only.sndEq (by assumption) ?_)
    | with_reducible (refine Only.fstEq (by assumption) ?_)
    | dsimp only
    | dsimp +zetaDelta only
    | split
    | (clear_value *; split)

theorem rxHeartbeat_only (s : State) (role : BitVec 8) (pstate : BitVec 8) (flags : BitVec 8) (cstate : BitVec 8) (teb : BitVec 32) (mgen : BitVec 32) (power : BitVec 8)  : Only [.out, .key, .pan, .log, .line, .pair, .links, .rings, .cnt, .outs] s (rxHeartbeat s role pstate flags cstate teb mgen power) := by
  unfold rxHeartbeat
  repeat' first
    | ((fail_if_no_progress extract_lets +onlyGivenNames x); refine Only.cut (L := [.out, .key, .pan, .log, .line, .pair, .links, .rings, .cnt, .outs]) (s := s) (x := x) ?_ ?_; rotate_left; intro hx; clear_value x; rotate_left; dsimp only [x])
    | ((fail_if_no_progress extract_lets +onlyGivenNames x); refine Only.named (b := x.not) ?_; clear_value x)
    | (fail_if_no_progress extract_lets +onlyGivenNames x)
    | with_reducible apply Only.refl
    | with_reducible assumption
    | (with_reducible apply Only.ite <;> intro _)
    | with_reducible (apply Only.step (M := [.pair]); rotate_left; exact modPair_only_pair _ _ (by intro k; rfl); decide)
    | with_reducible (apply Only.step (M := [.line]); rotate_left; exact modPair_only_line _ _ (by intro k; rfl); decide)
    | with_reducible (apply Only.step (M := [.line, .pair]); rotate_left; apply modPair_only; decide)
    | with_reducible (apply Only.step (M := [.out, .pan, .log, .line, .links, .rings, .cnt, .outs]); rotate_left; apply emit_only; decide)
    | with_reducible (apply Only.step (M := [.out, .pan, .log, .line, .pair, .links, .rings, .cnt, .outs]); rotate_left; apply strapCheck_only; decide)
    | with_reducible (apply Only.step (M := [.out, .pan, .log, .line, .links, .rings, .cnt, .outs]); rotate_left; apply dualCheck_only; decide)
    | with_reducible (apply Only.step (M := [.out, .pan, .log, .line, .links, .rings, .cnt, .outs]); rotate_left; apply pairFail_only; decide)
    | with_reducible (apply Only.step (M := [.pair]); rotate_left; apply pairEval_only; decide)
    | with_reducible (apply Only.step (M := [.out, .key, .pan, .log, .line, .pair, .links, .rings, .cnt, .outs]); rotate_left; apply beginMirror_only; decide)
    | with_reducible (refine Only.sndEq (by assumption) ?_)
    | with_reducible (refine Only.fstEq (by assumption) ?_)
    | dsimp only
    | dsimp +zetaDelta only
    | split
    | (clear_value *; split)

theorem planSwap_only (s : State) (h : Nat) (incoming : Bool) (host : Option Hdr)  : Only [.out, .pan, .log, .line, .pair, .links, .rings, .cnt, .outs] s (planSwap s h incoming host) := by
  unfold planSwap
  repeat' first
    | ((fail_if_no_progress extract_lets +onlyGivenNames x); refine Only.cut (L := [.out, .pan, .log, .line, .pair, .links, .rings, .cnt, .outs]) (s := s) (x := x) ?_ ?_; rotate_left; intro hx; clear_value x; rotate_left; dsimp only [x])
    | ((fail_if_no_progress extract_lets +onlyGivenNames x); refine Only.named (b := x.not) ?_; clear_value x)
    | (fail_if_no_progress extract_lets +onlyGivenNames x)
    | with_reducible apply Only.refl
    | with_reducible assumption
    | (with_reducible apply Only.ite <;> intro _)
    | with_reducible (apply Only.step (M := [.out, .pan, .log, .line, .links, .rings, .cnt, .outs]); rotate_left; apply emit_only; decide)
    | with_reducible (apply Only.step (M := [.pair]); rotate_left; exact modPair_only_pair _ _ (by intro k; rfl); decide)
    | with_reducible (apply Only.step (M := [.line]); rotate_left; exact modPair_only_line _ _ (by intro k; rfl); decide)
    | with_reducible (apply Only.step (M := [.line, .pair]); rotate_left; apply modPair_only; decide)
    | with_reducible (refine Only.sndEq (by assumption) ?_)
    | with_reducible (refine Only.fstEq (by assumption) ?_)
    | dsimp only
    | dsimp +zetaDelta only
    | split
    | (clear_value *; split)

theorem proposeSwap_only (s : State) (host : Option Hdr)  : Only [.out, .pan, .log, .line, .pair, .links, .rings, .cnt, .outs] s (proposeSwap s host) := by
  unfold proposeSwap
  repeat' first
    | ((fail_if_no_progress extract_lets +onlyGivenNames x); refine Only.cut (L := [.out, .pan, .log, .line, .pair, .links, .rings, .cnt, .outs]) (s := s) (x := x) ?_ ?_; rotate_left; intro hx; clear_value x; rotate_left; dsimp only [x])
    | ((fail_if_no_progress extract_lets +onlyGivenNames x); refine Only.named (b := x.not) ?_; clear_value x)
    | (fail_if_no_progress extract_lets +onlyGivenNames x)
    | with_reducible apply Only.refl
    | with_reducible assumption
    | (with_reducible apply Only.ite <;> intro _)
    | with_reducible (apply Only.step (M := [.out, .pan, .log, .line, .pair, .links, .rings, .cnt, .outs]); rotate_left; apply planSwap_only; decide)
    | with_reducible (apply Only.step (M := [.out, .links, .cnt]); rotate_left; apply linkSend_only; decide)
    | with_reducible (refine Only.sndEq (by assumption) ?_)
    | with_reducible (refine Only.fstEq (by assumption) ?_)
    | dsimp only
    | dsimp +zetaDelta only
    | split
    | (clear_value *; split)

theorem sendAttest_only (s : State)  : Only [.out, .key, .links, .cnt] s (sendAttest s) := by
  unfold sendAttest
  repeat' first
    | ((fail_if_no_progress extract_lets +onlyGivenNames x); refine Only.cut (L := [.out, .key, .links, .cnt]) (s := s) (x := x) ?_ ?_; rotate_left; intro hx; clear_value x; rotate_left; dsimp only [x])
    | ((fail_if_no_progress extract_lets +onlyGivenNames x); refine Only.named (b := x.not) ?_; clear_value x)
    | (fail_if_no_progress extract_lets +onlyGivenNames x)
    | with_reducible apply Only.refl
    | with_reducible assumption
    | (with_reducible apply Only.ite <;> intro _)
    | with_reducible (apply Only.step (M := [.key, .cnt]); rotate_left; exact signDigest_only_eq ‹_›; decide)
    | with_reducible (apply Only.step (M := [.key, .cnt]); rotate_left; apply signDigest_only; decide)
    | with_reducible (apply Only.step (M := [.out, .links, .cnt]); rotate_left; apply linkSend_only; decide)
    | with_reducible (refine Only.sndEq (by assumption) ?_)
    | with_reducible (refine Only.fstEq (by assumption) ?_)
    | dsimp only
    | dsimp +zetaDelta only
    | split
    | (clear_value *; split)

theorem rxPairHello_only (s : State) (nonce : BitVec 256)  : Only [.out, .key, .pair, .links, .cnt] s (rxPairHello s nonce) := by
  unfold rxPairHello
  repeat' first
    | ((fail_if_no_progress extract_lets +onlyGivenNames x); refine Only.cut (L := [.out, .key, .pair, .links, .cnt]) (s := s) (x := x) ?_ ?_; rotate_left; intro hx; clear_value x; rotate_left; dsimp only [x])
    | ((fail_if_no_progress extract_lets +onlyGivenNames x); refine Only.named (b := x.not) ?_; clear_value x)
    | (fail_if_no_progress extract_lets +onlyGivenNames x)
    | with_reducible apply Only.refl
    | with_reducible assumption
    | (with_reducible apply Only.ite <;> intro _)
    | with_reducible (apply Only.step (M := [.pair]); rotate_left; exact modPair_only_pair _ _ (by intro k; rfl); decide)
    | with_reducible (apply Only.step (M := [.line]); rotate_left; exact modPair_only_line _ _ (by intro k; rfl); decide)
    | with_reducible (apply Only.step (M := [.line, .pair]); rotate_left; apply modPair_only; decide)
    | with_reducible (apply Only.step (M := [.out, .key, .links, .cnt]); rotate_left; apply sendAttest_only; decide)
    | with_reducible (refine Only.sndEq (by assumption) ?_)
    | with_reducible (refine Only.fstEq (by assumption) ?_)
    | dsimp only
    | dsimp +zetaDelta only
    | split
    | (clear_value *; split)

theorem rxPairAttest_only (s : State) (pub : BitVec 776) (eph : BitVec 776) (stmt : List Byte) (sig : BitVec 768)  : Only [.out, .key, .pan, .log, .line, .pair, .links, .rings, .hif, .cnt, .outs] s (rxPairAttest s pub eph stmt sig) := by
  unfold rxPairAttest
  repeat' first
    | ((fail_if_no_progress extract_lets +onlyGivenNames x); refine Only.cut (L := [.out, .key, .pan, .log, .line, .pair, .links, .rings, .hif, .cnt, .outs]) (s := s) (x := x) ?_ ?_; rotate_left; intro hx; clear_value x; rotate_left; dsimp only [x])
    | ((fail_if_no_progress extract_lets +onlyGivenNames x); refine Only.named (b := x.not) ?_; clear_value x)
    | (fail_if_no_progress extract_lets +onlyGivenNames x)
    | with_reducible apply Only.refl
    | with_reducible assumption
    | (with_reducible apply Only.ite <;> intro _)
    | with_reducible (apply Only.step (M := [.out, .key, .pan, .log, .line, .pair, .links, .rings, .hif, .cnt, .outs]); rotate_left; apply ceremonyFail_only; decide)
    | with_reducible (apply Only.step (M := [.key]); rotate_left; apply fillSlot_only; decide)
    | with_reducible (apply Only.step (M := [.pair]); rotate_left; exact modPair_only_pair _ _ (by intro k; rfl); decide)
    | with_reducible (apply Only.step (M := [.line]); rotate_left; exact modPair_only_line _ _ (by intro k; rfl); decide)
    | with_reducible (apply Only.step (M := [.line, .pair]); rotate_left; apply modPair_only; decide)
    | with_reducible (apply Only.step (M := [.out, .links, .cnt]); rotate_left; apply linkSend_only; decide)
    | with_reducible (refine Only.sndEq (by assumption) ?_)
    | with_reducible (refine Only.fstEq (by assumption) ?_)
    | dsimp only
    | dsimp +zetaDelta only
    | split
    | (clear_value *; split)

theorem rxPairConfirm_only (s : State) (check : BitVec 128) : Only [.out, .key, .pan, .log, .line, .pair, .links, .rings, .hif, .cnt, .outs] s (rxPairConfirm s check) := by
  unfold rxPairConfirm
  cases s.pair.cer with
  | none => exact Only.refl _ _
  | some c =>
    dsimp only
    cases c.key with
    | none => exact Only.refl _ _
    | some k =>
      dsimp only
      refine Only.ite (fun _ => Only.refl _ _) (fun _ => ?_)
      with_reducible apply Only.ite <;> intro _
      · exact Only.mono (ceremonyFail_only ..) (by decide)
      · generalize hb : wrapBlob s c.slot.toNat 2 = b
        obtain ⟨blob, s1⟩ := b
        have h1 := wrapBlob_only_eq hb
        dsimp only
        have h2 := Only.step (L := [.out, .key, .pan, .log, .line, .pair, .links, .rings, .hif, .cnt, .outs]) (Only.mono h1 (by decide)) (modPair_only s1 (fun p => { p with cer := none, keySlot := some c.slot, peer := some (partnerIdent s), stored := some (c.slot, partnerIdent s, blob), st := .mirroring, mirrorDone := p.holding, readyAt := none })) (by decide)
        have h3 := Only.step (Only.step h2 (emit_only (b := .pair) (code := 9) (base := .notice) (detail := (partnerIdent s).toNat) (bit := none) ..) (by decide))
          (complete_only (hd := c.host) (op := 0xA1) (status := Status.ok) (rlen := 8) (result := (partnerIdent s).toNat) ..) (by decide)
        with_reducible apply Only.ite <;> intro _
        · exact Only.step h3 (snapshot_only _) (by decide)
        · exact h3

theorem pairRise_only (s : State) (l : Fin 4)  : Only [.out, .pan, .log, .line, .links, .rings, .cnt, .outs] s (pairRise s l) := by
  unfold pairRise
  repeat' first
    | ((fail_if_no_progress extract_lets +onlyGivenNames x); refine Only.cut (L := [.out, .pan, .log, .line, .links, .rings, .cnt, .outs]) (s := s) (x := x) ?_ ?_; rotate_left; intro hx; clear_value x; rotate_left; dsimp only [x])
    | ((fail_if_no_progress extract_lets +onlyGivenNames x); refine Only.named (b := x.not) ?_; clear_value x)
    | (fail_if_no_progress extract_lets +onlyGivenNames x)
    | with_reducible apply Only.refl
    | with_reducible assumption
    | (with_reducible apply Only.ite <;> intro _)
    | with_reducible (apply Only.step (M := [.links]); rotate_left; apply modLink_only; decide)
    | with_reducible (apply Only.step (M := [.out, .pan, .log, .line, .links, .rings, .cnt, .outs]); rotate_left; apply pairFail_only; decide)
    | with_reducible (refine Only.sndEq (by assumption) ?_)
    | with_reducible (refine Only.fstEq (by assumption) ?_)
    | dsimp only
    | dsimp +zetaDelta only
    | split
    | (clear_value *; split)

theorem heartbeat_only (s : State)  : Only [.out, .pair, .links, .cnt] s (heartbeat s) := by
  unfold heartbeat
  repeat' first
    | ((fail_if_no_progress extract_lets +onlyGivenNames x); refine Only.cut (L := [.out, .pair, .links, .cnt]) (s := s) (x := x) ?_ ?_; rotate_left; intro hx; clear_value x; rotate_left; dsimp only [x])
    | ((fail_if_no_progress extract_lets +onlyGivenNames x); refine Only.named (b := x.not) ?_; clear_value x)
    | (fail_if_no_progress extract_lets +onlyGivenNames x)
    | with_reducible apply Only.refl
    | with_reducible assumption
    | (with_reducible apply Only.ite <;> intro _)
    | with_reducible (apply Only.step (M := [.pair]); rotate_left; exact modPair_only_pair _ _ (by intro k; rfl); decide)
    | with_reducible (apply Only.step (M := [.line]); rotate_left; exact modPair_only_line _ _ (by intro k; rfl); decide)
    | with_reducible (apply Only.step (M := [.line, .pair]); rotate_left; apply modPair_only; decide)
    | with_reducible (apply Only.step (M := [.out, .links, .cnt]); rotate_left; apply linkSend_only; decide)
    | with_reducible (apply Only.step (M := [.out, .pair, .links, .cnt]); rotate_left; apply mirrorSend_only; decide)
    | with_reducible (refine Only.sndEq (by assumption) ?_)
    | with_reducible (refine Only.fstEq (by assumption) ?_)
    | dsimp only
    | dsimp +zetaDelta only
    | split
    | (clear_value *; split)

theorem seqJump_only (s : State)  : Only [.ptp] s (seqJump s) := by
  unfold seqJump
  repeat' first
    | ((fail_if_no_progress extract_lets +onlyGivenNames x); refine Only.cut (L := [.ptp]) (s := s) (x := x) ?_ ?_; rotate_left; intro hx; clear_value x; rotate_left; dsimp only [x])
    | ((fail_if_no_progress extract_lets +onlyGivenNames x); refine Only.named (b := x.not) ?_; clear_value x)
    | (fail_if_no_progress extract_lets +onlyGivenNames x)
    | with_reducible apply Only.refl
    | with_reducible assumption
    | (with_reducible apply Only.ite <;> intro _)
    | with_reducible (apply Only.step (M := [.ptp]); rotate_left; apply modPtp_only; decide)
    | with_reducible (refine Only.sndEq (by assumption) ?_)
    | with_reducible (refine Only.fstEq (by assumption) ?_)
    | dsimp only
    | dsimp +zetaDelta only
    | split
    | (clear_value *; split)

theorem takeMirror_only (s : State)  : Only [.out, .key, .pan, .log, .line, .pair, .links, .rings, .cnt, .outs] s (takeMirror s) := by
  unfold takeMirror
  repeat' first
    | ((fail_if_no_progress extract_lets +onlyGivenNames x); refine Only.cut (L := [.out, .key, .pan, .log, .line, .pair, .links, .rings, .cnt, .outs]) (s := s) (x := x) ?_ ?_; rotate_left; intro hx; clear_value x; rotate_left; dsimp only [x])
    | ((fail_if_no_progress extract_lets +onlyGivenNames x); refine Only.named (b := x.not) ?_; clear_value x)
    | (fail_if_no_progress extract_lets +onlyGivenNames x)
    | with_reducible apply Only.refl
    | with_reducible assumption
    | (with_reducible apply Only.ite <;> intro _)
    | with_reducible (apply Only.step (M := [.pair]); rotate_left; exact modPair_only_pair _ _ (by intro k; rfl); decide)
    | with_reducible (apply Only.step (M := [.line]); rotate_left; exact modPair_only_line _ _ (by intro k; rfl); decide)
    | with_reducible (apply Only.step (M := [.line, .pair]); rotate_left; apply modPair_only; decide)
    | with_reducible (apply Only.step (M := [.out, .key, .pan, .log, .line, .pair, .links, .rings, .cnt, .outs]); rotate_left; apply snapshot_only; decide)
    | with_reducible (refine Only.sndEq (by assumption) ?_)
    | with_reducible (refine Only.fstEq (by assumption) ?_)
    | dsimp only
    | dsimp +zetaDelta only
    | split
    | (clear_value *; split)

theorem promote_only (s : State)  : Only [.out, .ptp, .key, .pan, .log, .line, .pair, .links, .rings, .cnt, .outs] s (promote s) := by
  unfold promote
  repeat' first
    | ((fail_if_no_progress extract_lets +onlyGivenNames x); refine Only.cut (L := [.out, .ptp, .key, .pan, .log, .line, .pair, .links, .rings, .cnt, .outs]) (s := s) (x := x) ?_ ?_; rotate_left; intro hx; clear_value x; rotate_left; dsimp only [x])
    | ((fail_if_no_progress extract_lets +onlyGivenNames x); refine Only.named (b := x.not) ?_; clear_value x)
    | (fail_if_no_progress extract_lets +onlyGivenNames x)
    | with_reducible apply Only.refl
    | with_reducible assumption
    | (with_reducible apply Only.ite <;> intro _)
    | with_reducible (apply Only.step (M := [.pair]); rotate_left; exact modPair_only_pair _ _ (by intro k; rfl); decide)
    | with_reducible (apply Only.step (M := [.line]); rotate_left; exact modPair_only_line _ _ (by intro k; rfl); decide)
    | with_reducible (apply Only.step (M := [.line, .pair]); rotate_left; apply modPair_only; decide)
    | with_reducible (apply Only.step (M := [.pan]); rotate_left; apply modFig_only; decide)
    | with_reducible (apply Only.step (M := [.out, .pan, .log, .line, .links, .rings, .cnt, .outs]); rotate_left; apply roleChange_only; decide)
    | with_reducible (apply Only.step (M := [.ptp]); rotate_left; apply seqJump_only; decide)
    | with_reducible (apply Only.step (M := [.out, .key, .pan, .log, .line, .pair, .links, .rings, .cnt, .outs]); rotate_left; apply takeMirror_only; decide)
    | with_reducible (apply Only.step (M := [.out, .outs]); rotate_left; apply refreshOuts_only; decide)
    | with_reducible (refine Only.sndEq (by assumption) ?_)
    | with_reducible (refine Only.fstEq (by assumption) ?_)
    | dsimp only
    | dsimp +zetaDelta only
    | split
    | (clear_value *; split)

theorem lineFault_only (s : State) (cause : Nat)  : Only [.out, .pan, .log, .line, .links, .rings, .cnt, .outs] s (lineFault s cause) := by
  unfold lineFault
  repeat' first
    | ((fail_if_no_progress extract_lets +onlyGivenNames x); refine Only.cut (L := [.out, .pan, .log, .line, .links, .rings, .cnt, .outs]) (s := s) (x := x) ?_ ?_; rotate_left; intro hx; clear_value x; rotate_left; dsimp only [x])
    | ((fail_if_no_progress extract_lets +onlyGivenNames x); refine Only.named (b := x.not) ?_; clear_value x)
    | (fail_if_no_progress extract_lets +onlyGivenNames x)
    | with_reducible apply Only.refl
    | with_reducible assumption
    | (with_reducible apply Only.ite <;> intro _)
    | with_reducible (apply Only.step (M := [.out, .pan, .log, .line, .links, .rings, .cnt, .outs]); rotate_left; apply emit_only; decide)
    | with_reducible (refine Only.sndEq (by assumption) ?_)
    | with_reducible (refine Only.fstEq (by assumption) ?_)
    | dsimp only
    | dsimp +zetaDelta only
    | split
    | (clear_value *; split)

theorem swapDone_only (s : State) (w : Swap) (active : Bool)  : Only [.out, .key, .pan, .log, .line, .pair, .links, .rings, .hif, .cnt, .outs] s (swapDone s w active) := by
  unfold swapDone
  repeat' first
    | ((fail_if_no_progress extract_lets +onlyGivenNames x); refine Only.cut (L := [.out, .key, .pan, .log, .line, .pair, .links, .rings, .hif, .cnt, .outs]) (s := s) (x := x) ?_ ?_; rotate_left; intro hx; clear_value x; rotate_left; dsimp only [x])
    | ((fail_if_no_progress extract_lets +onlyGivenNames x); refine Only.named (b := x.not) ?_; clear_value x)
    | (fail_if_no_progress extract_lets +onlyGivenNames x)
    | with_reducible apply Only.refl
    | with_reducible assumption
    | (with_reducible apply Only.ite <;> intro _)
    | with_reducible (apply Only.step (M := [.pair]); rotate_left; exact modPair_only_pair _ _ (by intro k; rfl); decide)
    | with_reducible (apply Only.step (M := [.line]); rotate_left; exact modPair_only_line _ _ (by intro k; rfl); decide)
    | with_reducible (apply Only.step (M := [.line, .pair]); rotate_left; apply modPair_only; decide)
    | with_reducible (apply Only.step (M := [.pan]); rotate_left; apply modFig_only; decide)
    | with_reducible (apply Only.step (M := [.out, .pan, .log, .line, .links, .rings, .cnt, .outs]); rotate_left; apply roleChange_only; decide)
    | with_reducible (apply Only.step (M := [.hif]); rotate_left; apply complete_only; decide)
    | with_reducible (apply Only.step (M := [.out, .key, .pan, .log, .line, .pair, .links, .rings, .cnt, .outs]); rotate_left; apply takeMirror_only; decide)
    | with_reducible (refine Only.sndEq (by assumption) ?_)
    | with_reducible (refine Only.fstEq (by assumption) ?_)
    | dsimp only
    | dsimp +zetaDelta only
    | split
    | (clear_value *; split)

end Sys2Proof.Laws
end

