-- ==== Sys2Proof/Laws/LnkOps.lean ====
section
/-! SUPPORT. What each operation of Machine/LnkOps.lean can touch, once for each. -/
set_option linter.unusedTactic false
set_option linter.unreachableTactic false
namespace Sys2Proof.Laws
open Sys2Proof
open Sys2Proof.Machine
open Sys2Proof.Safety

theorem ackHello_only (s : State) (l : Fin 4)  : Only [.out, .links, .cnt] s (ackHello s l) := by
  unfold ackHello
  repeat' first
    | ((fail_if_no_progress extract_lets +onlyGivenNames x); refine Only.cut (L := [.out, .links, .cnt]) (s := s) (x := x) ?_ ?_; rotate_left; intro hx; clear_value x; rotate_left; dsimp only [x])
    | ((fail_if_no_progress extract_lets +onlyGivenNames x); refine Only.named (b := x.not) ?_; clear_value x)
    | (fail_if_no_progress extract_lets +onlyGivenNames x)
    | with_reducible apply Only.refl
    | with_reducible assumption
    | (with_reducible apply Only.ite <;> intro _)
    | with_reducible (apply Only.step (M := [.links]); rotate_left; apply modLink_only; decide)
    | with_reducible (apply Only.step (M := [.out]); rotate_left; apply outLink_only; decide)
    | with_reducible (apply Only.step (M := [.cnt]); rotate_left; apply perfAdd_only; decide)
    | with_reducible (refine Only.sndEq (by assumption) ?_)
    | with_reducible (refine Only.fstEq (by assumption) ?_)
    | dsimp only
    | dsimp +zetaDelta only
    | split
    | (clear_value *; split)

theorem modLnk_only_lnk (s : State) (f : Lnk → Lnk) (h : ∀ k, f k = { f k with links := k.links }) : Only [.lnk] s (modLnk s f) :=
  set_lnk_only_lnk s (f s.lnk) (h s.lnk)
theorem modLnk_only_links (s : State) (f : Lnk → Lnk) (h : ∀ k, f k = { k with links := (f k).links }) : Only [.links] s (modLnk s f) :=
  set_lnk_only_links s (f s.lnk) (h s.lnk)
theorem modLnk_only (s : State) (f : Lnk → Lnk) : Only [.links, .lnk] s (modLnk s f) := set_lnk_only s (f s.lnk)

theorem lnkCnt_only (s : State) (l : Fin 4) (c : Nat) (n : Nat)  : Only [.links] s (lnkCnt s l c n) := by
  unfold lnkCnt
  repeat' first
    | ((fail_if_no_progress extract_lets +onlyGivenNames x); refine Only.cut (L := [.links]) (s := s) (x := x) ?_ ?_; rotate_left; intro hx; clear_value x; rotate_left; dsimp only [x])
    | ((fail_if_no_progress extract_lets +onlyGivenNames x); refine Only.named (b := x.not) ?_; clear_value x)
    | (fail_if_no_progress extract_lets +onlyGivenNames x)
    | with_reducible apply Only.refl
    | with_reducible assumption
    | (with_reducible apply Only.ite <;> intro _)
    | with_reducible (apply Only.step (M := [.links]); rotate_left; apply modLink_only; decide)
    | with_reducible (refine Only.sndEq (by assumption) ?_)
    | with_reducible (refine Only.fstEq (by assumption) ?_)
    | dsimp only
    | dsimp +zetaDelta only
    | split
    | (clear_value *; split)

theorem slotPresent_only (s : State) (slot : Nat) (here : Bool)  : Only [.out, .pan, .log, .line, .links, .lnk, .rings, .hif, .cnt, .outs] s (slotPresent s slot here) := by
  unfold slotPresent
  repeat' first
    | ((fail_if_no_progress extract_lets +onlyGivenNames x); refine Only.cut (L := [.out, .pan, .log, .line, .links, .lnk, .rings, .hif, .cnt, .outs]) (s := s) (x := x) ?_ ?_; rotate_left; intro hx; clear_value x; rotate_left; dsimp only [x])
    | ((fail_if_no_progress extract_lets +onlyGivenNames x); refine Only.named (b := x.not) ?_; clear_value x)
    | (fail_if_no_progress extract_lets +onlyGivenNames x)
    | with_reducible apply Only.refl
    | with_reducible assumption
    | (with_reducible apply Only.ite <;> intro _)
    | with_reducible (apply Only.step (M := [.lnk]); rotate_left; exact modLnk_only_lnk _ _ (by intro k; rfl); decide)
    | with_reducible (apply Only.step (M := [.links]); rotate_left; exact modLnk_only_links _ _ (by intro k; rfl); decide)
    | with_reducible (apply Only.step (M := [.links, .lnk]); rotate_left; apply modLnk_only; decide)
    | with_reducible (apply Only.step (M := [.out, .pan, .log, .line, .links, .rings, .cnt, .outs]); rotate_left; apply emit_only; decide)
    | (fail_if_no_progress (with_reducible (apply Only.step (M := [.hif]); rotate_left; apply set_hif_only_hif; rfl; decide)))
    | with_reducible (refine Only.sndEq (by assumption) ?_)
    | with_reducible (refine Only.fstEq (by assumption) ?_)
    | dsimp only
    | dsimp +zetaDelta only
    | split
    | (clear_value *; split)

theorem dropRoutes_only (s : State) (l : Fin 4)  : Only [.out, .pan, .log, .line, .links, .lnk, .rings, .hif, .cnt, .outs] s (dropRoutes s l) := by
  unfold dropRoutes
  repeat' first
    | ((fail_if_no_progress extract_lets +onlyGivenNames x); refine Only.cut (L := [.out, .pan, .log, .line, .links, .lnk, .rings, .hif, .cnt, .outs]) (s := s) (x := x) ?_ ?_; rotate_left; intro hx; clear_value x; rotate_left; dsimp only [x])
    | ((fail_if_no_progress extract_lets +onlyGivenNames x); refine Only.named (b := x.not) ?_; clear_value x)
    | (fail_if_no_progress extract_lets +onlyGivenNames x)
    | (with_reducible apply Only.foldl; (intro _ _ _))
    | (with_reducible apply Only.foldlFst; (intro _ _ _))
    | with_reducible apply Only.refl
    | with_reducible assumption
    | (with_reducible apply Only.ite <;> intro _)
    | with_reducible (apply Only.step (M := [.lnk]); rotate_left; exact modLnk_only_lnk _ _ (by intro k; rfl); decide)
    | with_reducible (apply Only.step (M := [.links]); rotate_left; exact modLnk_only_links _ _ (by intro k; rfl); decide)
    | with_reducible (apply Only.step (M := [.links, .lnk]); rotate_left; apply modLnk_only; decide)
    | with_reducible (apply Only.step (M := [.out, .pan, .log, .line, .links, .lnk, .rings, .hif, .cnt, .outs]); rotate_left; apply slotPresent_only; decide)
    | with_reducible (refine Only.sndEq (by assumption) ?_)
    | with_reducible (refine Only.fstEq (by assumption) ?_)
    | dsimp only
    | dsimp +zetaDelta only
    | split
    | (clear_value *; split)

theorem slotRequest_only (s : State)  : Only [.out, .links, .cnt] s (slotRequest s) := by
  unfold slotRequest
  repeat' first
    | ((fail_if_no_progress extract_lets +onlyGivenNames x); refine Only.cut (L := [.out, .links, .cnt]) (s := s) (x := x) ?_ ?_; rotate_left; intro hx; clear_value x; rotate_left; dsimp only [x])
    | ((fail_if_no_progress extract_lets +onlyGivenNames x); refine Only.named (b := x.not) ?_; clear_value x)
    | (fail_if_no_progress extract_lets +onlyGivenNames x)
    | with_reducible apply Only.refl
    | with_reducible assumption
    | (with_reducible apply Only.ite <;> intro _)
    | with_reducible (apply Only.step (M := [.out, .links, .cnt]); rotate_left; apply linkSend_only; decide)
    | with_reducible (refine Only.sndEq (by assumption) ?_)
    | with_reducible (refine Only.fstEq (by assumption) ?_)
    | dsimp only
    | dsimp +zetaDelta only
    | split
    | (clear_value *; split)

theorem linkFall_only (s : State) (l : Fin 4) (cause : Nat)  : Only [.out, .upd, .pan, .log, .line, .pair, .links, .lnk, .rings, .hif, .cnt, .outs] s (linkFall s l cause) := by
  unfold linkFall
  repeat' first
    | ((fail_if_no_progress extract_lets +onlyGivenNames x); refine Only.cut (L := [.out, .upd, .pan, .log, .line, .pair, .links, .lnk, .rings, .hif, .cnt, .outs]) (s := s) (x := x) ?_ ?_; rotate_left; intro hx; clear_value x; rotate_left; dsimp only [x])
    | ((fail_if_no_progress extract_lets +onlyGivenNames x); refine Only.named (b := x.not) ?_; clear_value x)
    | (fail_if_no_progress extract_lets +onlyGivenNames x)
    | with_reducible apply Only.refl
    | with_reducible assumption
    | (with_reducible apply Only.ite <;> intro _)
    | with_reducible (apply Only.step (M := [.lnk]); rotate_left; exact modLnk_only_lnk _ _ (by intro k; rfl); decide)
    | with_reducible (apply Only.step (M := [.links]); rotate_left; exact modLnk_only_links _ _ (by intro k; rfl); decide)
    | with_reducible (apply Only.step (M := [.links, .lnk]); rotate_left; apply modLnk_only; decide)
    | with_reducible (apply Only.step (M := [.links]); rotate_left; apply modLink_only; decide)
    | with_reducible (apply Only.step (M := [.out, .pan, .log, .line, .links, .rings, .cnt, .outs]); rotate_left; apply emit_only; decide)
    | with_reducible (apply Only.step (M := [.links]); rotate_left; apply lnkCnt_only; decide)
    | with_reducible (apply Only.step (M := [.out, .pan, .log, .line, .links, .lnk, .rings, .hif, .cnt, .outs]); rotate_left; apply dropRoutes_only; decide)
    | with_reducible (apply Only.step (M := [.out, .upd, .pan, .log, .line, .links, .rings, .hif, .cnt, .outs]); rotate_left; apply updLinkFall_only; decide)
    | with_reducible (apply Only.step (M := [.out, .pan, .log, .line, .pair, .links, .rings, .hif, .cnt, .outs]); rotate_left; apply pairSeek_only; decide)
    | with_reducible (apply Only.step (M := [.out, .links, .cnt]); rotate_left; apply slotRequest_only; decide)
    | with_reducible (refine Only.sndEq (by assumption) ?_)
    | with_reducible (refine Only.fstEq (by assumption) ?_)
    | dsimp only
    | dsimp +zetaDelta only
    | split
    | (clear_value *; split)

theorem linkGate_only (s : State) (l : Fin 4)  : Only [.out, .upd, .pan, .log, .line, .pair, .links, .lnk, .rings, .hif, .cnt, .outs] s (linkGate s l) := by
  unfold linkGate
  repeat' first
    | ((fail_if_no_progress extract_lets +onlyGivenNames x); refine Only.cut (L := [.out, .upd, .pan, .log, .line, .pair, .links, .lnk, .rings, .hif, .cnt, .outs]) (s := s) (x := x) ?_ ?_; rotate_left; intro hx; clear_value x; rotate_left; dsimp only [x])
    | ((fail_if_no_progress extract_lets +onlyGivenNames x); refine Only.named (b := x.not) ?_; clear_value x)
    | (fail_if_no_progress extract_lets +onlyGivenNames x)
    | with_reducible apply Only.refl
    | with_reducible assumption
    | (with_reducible apply Only.ite <;> intro _)
    | with_reducible (apply Only.step (M := [.links]); rotate_left; apply modLink_only; decide)
    | with_reducible (apply Only.step (M := [.out, .upd, .pan, .log, .line, .pair, .links, .lnk, .rings, .hif, .cnt, .outs]); rotate_left; apply linkFall_only; decide)
    | with_reducible (refine Only.sndEq (by assumption) ?_)
    | with_reducible (refine Only.fstEq (by assumption) ?_)
    | dsimp only
    | dsimp +zetaDelta only
    | split
    | (clear_value *; split)

theorem linkGates_only (s : State)  : Only [.out, .upd, .pan, .log, .line, .pair, .links, .lnk, .rings, .hif, .cnt, .outs] s (linkGates s) := by
  unfold linkGates
  repeat' first
    | ((fail_if_no_progress extract_lets +onlyGivenNames x); refine Only.cut (L := [.out, .upd, .pan, .log, .line, .pair, .links, .lnk, .rings, .hif, .cnt, .outs]) (s := s) (x := x) ?_ ?_; rotate_left; intro hx; clear_value x; rotate_left; dsimp only [x])
    | ((fail_if_no_progress extract_lets +onlyGivenNames x); refine Only.named (b := x.not) ?_; clear_value x)
    | (fail_if_no_progress extract_lets +onlyGivenNames x)
    | (with_reducible apply Only.foldl; (intro _ _ _))
    | (with_reducible apply Only.foldlFst; (intro _ _ _))
    | with_reducible apply Only.refl
    | with_reducible assumption
    | (with_reducible apply Only.ite <;> intro _)
    | with_reducible (apply Only.step (M := [.out, .upd, .pan, .log, .line, .pair, .links, .lnk, .rings, .hif, .cnt, .outs]); rotate_left; apply linkGate_only; decide)
    | with_reducible (refine Only.sndEq (by assumption) ?_)
    | with_reducible (refine Only.fstEq (by assumption) ?_)
    | dsimp only
    | dsimp +zetaDelta only
    | split
    | (clear_value *; split)

theorem nodeChanged_only (s : State) (old : BitVec 16)  : Only [.out, .pan, .log, .line, .links, .rings, .cnt, .outs] s (nodeChanged s old) := by
  unfold nodeChanged
  repeat' first
    | ((fail_if_no_progress extract_lets +onlyGivenNames x); refine Only.cut (L := [.out, .pan, .log, .line, .links, .rings, .cnt, .outs]) (s := s) (x := x) ?_ ?_; rotate_left; intro hx; clear_value x; rotate_left; dsimp only [x])
    | ((fail_if_no_progress extract_lets +onlyGivenNames x); refine Only.named (b := x.not) ?_; clear_value x)
    | (fail_if_no_progress extract_lets +onlyGivenNames x)
    | with_reducible apply Only.refl
    | with_reducible assumption
    | (with_reducible apply Only.ite <;> intro _)
    | with_reducible (apply Only.step (M := [.out, .pan, .log, .line, .links, .rings, .cnt, .outs]); rotate_left; apply emit_only; decide)
    | with_reducible (refine Only.sndEq (by assumption) ?_)
    | with_reducible (refine Only.fstEq (by assumption) ?_)
    | dsimp only
    | dsimp +zetaDelta only
    | split
    | (clear_value *; split)

theorem shelfUpdates_only (s : State)  : Only [.out, .links, .cnt] s (shelfUpdates s) := by
  unfold shelfUpdates
  repeat' first
    | ((fail_if_no_progress extract_lets +onlyGivenNames x); refine Only.cut (L := [.out, .links, .cnt]) (s := s) (x := x) ?_ ?_; rotate_left; intro hx; clear_value x; rotate_left; dsimp only [x])
    | ((fail_if_no_progress extract_lets +onlyGivenNames x); refine Only.named (b := x.not) ?_; clear_value x)
    | (fail_if_no_progress extract_lets +onlyGivenNames x)
    | (with_reducible apply Only.foldl; (intro _ _ _))
    | (with_reducible apply Only.foldlFst; (intro _ _ _))
    | with_reducible apply Only.refl
    | with_reducible assumption
    | (with_reducible apply Only.ite <;> intro _)
    | with_reducible (apply Only.step (M := [.out, .links, .cnt]); rotate_left; apply linkSend_only; decide)
    | with_reducible (refine Only.sndEq (by assumption) ?_)
    | with_reducible (refine Only.fstEq (by assumption) ?_)
    | dsimp only
    | dsimp +zetaDelta only
    | split
    | (clear_value *; split)

theorem bindParent_only (s : State) (l : Fin 4)  : Only [.out, .tco, .refs, .pan, .log, .line, .links, .lnk, .rings, .hif, .cnt, .outs] s (bindParent s l) := by
  unfold bindParent
  repeat' first
    | ((fail_if_no_progress extract_lets +onlyGivenNames x); refine Only.cut (L := [.out, .tco, .refs, .pan, .log, .line, .links, .lnk, .rings, .hif, .cnt, .outs]) (s := s) (x := x) ?_ ?_; rotate_left; intro hx; clear_value x; rotate_left; dsimp only [x])
    | ((fail_if_no_progress extract_lets +onlyGivenNames x); refine Only.named (b := x.not) ?_; clear_value x)
    | (fail_if_no_progress extract_lets +onlyGivenNames x)
    | with_reducible apply Only.refl
    | with_reducible assumption
    | (with_reducible apply Only.ite <;> intro _)
    | with_reducible (apply Only.step (M := [.out, .tco, .refs, .pan, .log, .line, .links, .lnk, .rings, .hif, .cnt, .outs]); rotate_left; apply slotGone_only; decide)
    | with_reducible (apply Only.step (M := [.refs]); rotate_left; apply modRefs_only; decide)
    | with_reducible (refine Only.sndEq (by assumption) ?_)
    | with_reducible (refine Only.fstEq (by assumption) ?_)
    | dsimp only
    | dsimp +zetaDelta only
    | split
    | (clear_value *; split)

theorem delayFilter_only (s : State) (l : Fin 4) (d : Int)  : Only [.out, .pan, .log, .line, .links, .rings, .cnt, .outs] s (delayFilter s l d).1 := by
  unfold delayFilter
  repeat' first
    | ((fail_if_no_progress extract_lets +onlyGivenNames x); refine Only.cut (L := [.out, .pan, .log, .line, .links, .rings, .cnt, .outs]) (s := s) (x := x) ?_ ?_; rotate_left; intro hx; clear_value x; rotate_left; dsimp only [x])
    | ((fail_if_no_progress extract_lets +onlyGivenNames x); refine Only.named (b := x.not) ?_; clear_value x)
    | (fail_if_no_progress extract_lets +onlyGivenNames x)
    | with_reducible apply Only.refl
    | with_reducible assumption
    | (with_reducible apply Only.ite <;> intro _)
    | with_reducible (apply Only.step (M := [.links]); rotate_left; apply modLink_only; decide)
    | with_reducible (apply Only.step (M := [.out, .pan, .log, .line, .links, .rings, .cnt, .outs]); rotate_left; apply emit_only; decide)
    | with_reducible (refine Only.sndEq (by assumption) ?_)
    | with_reducible (refine Only.fstEq (by assumption) ?_)
    | dsimp only
    | dsimp +zetaDelta only
    | split
    | (clear_value *; split)
theorem delayFilter_only_eq {s : State} {l : Fin 4} {d : Int} {r1} {t0 : State} (hEq : delayFilter s l d = (t0, r1)) : Only [.out, .pan, .log, .line, .links, .rings, .cnt, .outs] s t0 := by
  have k0 := delayFilter_only s l d
  rw [hEq] at k0; exact k0

theorem timeAnswer_only (s : State) (l : Fin 4) (seq : BitVec 32) (t2 : Nat)  : Only [.free, .out, .links, .cnt] s (timeAnswer s l seq t2) := by
  unfold timeAnswer
  repeat' first
    | ((fail_if_no_progress extract_lets +onlyGivenNames x); refine Only.cut (L := [.free, .out, .links, .cnt]) (s := s) (x := x) ?_ ?_; rotate_left; intro hx; clear_value x; rotate_left; dsimp only [x])
    | ((fail_if_no_progress extract_lets +onlyGivenNames x); refine Only.named (b := x.not) ?_; clear_value x)
    | (fail_if_no_progress extract_lets +onlyGivenNames x)
    | with_reducible apply Only.refl
    | with_reducible assumption
    | (with_reducible apply Only.ite <;> intro _)
    | with_reducible (apply Only.step (M := [.free]); rotate_left; exact freeN_only_eq ‹_›; decide)
    | with_reducible (apply Only.step (M := [.free]); rotate_left; apply freeN_only; decide)
    | with_reducible (apply Only.step (M := [.out, .links, .cnt]); rotate_left; apply linkSend_only; decide)
    | with_reducible (refine Only.sndEq (by assumption) ?_)
    | with_reducible (refine Only.fstEq (by assumption) ?_)
    | dsimp only
    | dsimp +zetaDelta only
    | split
    | (clear_value *; split)

theorem rxTimeResp_only (s : State) (l : Fin 4) (phase : Fin 16) (seq : BitVec 32) (t2 : Nat) (t3 : Nat) (teb : BitVec 32) (hops : BitVec 8) (state : BitVec 8) (node : BitVec 16)  : Only [.free, .out, .tco, .refs, .gbb, .pan, .log, .line, .pair, .links, .lnk, .rings, .hif, .cnt, .perf, .outs, .tio] s (rxTimeResp s l phase seq t2 t3 teb hops state node) := by
  unfold rxTimeResp
  repeat' first
    | ((fail_if_no_progress extract_lets +onlyGivenNames x); refine Only.cut (L := [.free, .out, .tco, .refs, .gbb, .pan, .log, .line, .pair, .links, .lnk, .rings, .hif, .cnt, .perf, .outs, .tio]) (s := s) (x := x) ?_ ?_; rotate_left; intro hx; clear_value x; rotate_left; dsimp only [x])
    | ((fail_if_no_progress extract_lets +onlyGivenNames x); refine Only.named (b := x.not) ?_; clear_value x)
    | (fail_if_no_progress extract_lets +onlyGivenNames x)
    | with_reducible apply Only.refl
    | with_reducible assumption
    | (with_reducible apply Only.ite <;> intro _)
    | with_reducible (apply Only.step (M := [.links]); rotate_left; apply lnkCnt_only; decide)
    | with_reducible (apply Only.step (M := [.links]); rotate_left; apply modLink_only; decide)
    | with_reducible (apply Only.step (M := [.out, .pan, .log, .line, .links, .rings, .cnt, .outs]); rotate_left; exact delayFilter_only_eq ‹_›; decide)
    | with_reducible (apply Only.step (M := [.out, .pan, .log, .line, .links, .rings, .cnt, .outs]); rotate_left; apply delayFilter_only; decide)
    | with_reducible (apply Only.step (M := [.pair]); rotate_left; apply pairEval_only; decide)
    | with_reducible (apply Only.step (M := [.out, .tco, .refs, .pan, .log, .line, .links, .lnk, .rings, .hif, .cnt, .outs]); rotate_left; apply advertise_only; decide)
    | with_reducible (apply Only.step (M := [.free, .out, .tco, .refs, .gbb, .pan, .log, .line, .pair, .links, .lnk, .rings, .hif, .cnt, .perf, .outs, .tio]); rotate_left; apply measure_only; decide)
    | with_reducible (refine Only.sndEq (by assumption) ?_)
    | with_reducible (refine Only.fstEq (by assumption) ?_)
    | dsimp only
    | dsimp +zetaDelta only
    | split
    | (clear_value *; split)

theorem enumRefused_only (s : State) (cause : Nat)  : Only [.out, .pan, .log, .line, .links, .rings, .cnt, .outs] s (enumRefused s cause) := by
  unfold enumRefused
  repeat' first
    | ((fail_if_no_progress extract_lets +onlyGivenNames x); refine Only.cut (L := [.out, .pan, .log, .line, .links, .rings, .cnt, .outs]) (s := s) (x := x) ?_ ?_; rotate_left; intro hx; clear_value x; rotate_left; dsimp only [x])
    | ((fail_if_no_progress extract_lets +onlyGivenNames x); refine Only.named (b := x.not) ?_; clear_value x)
    | (fail_if_no_progress extract_lets +onlyGivenNames x)
    | with_reducible apply Only.refl
    | with_reducible assumption
    | (with_reducible apply Only.ite <;> intro _)
    | with_reducible (apply Only.step (M := [.out, .pan, .log, .line, .links, .rings, .cnt, .outs]); rotate_left; apply emit_only; decide)
    | with_reducible (refine Only.sndEq (by assumption) ?_)
    | with_reducible (refine Only.fstEq (by assumption) ?_)
    | dsimp only
    | dsimp +zetaDelta only
    | split
    | (clear_value *; split)

theorem recordRoute_only (s : State) (slot : Nat) (l : Fin 4)  : Only [.lnk] s (recordRoute s slot l) := by
  unfold recordRoute
  repeat' first
    | ((fail_if_no_progress extract_lets +onlyGivenNames x); refine Only.cut (L := [.lnk]) (s := s) (x := x) ?_ ?_; rotate_left; intro hx; clear_value x; rotate_left; dsimp only [x])
    | ((fail_if_no_progress extract_lets +onlyGivenNames x); refine Only.named (b := x.not) ?_; clear_value x)
    | (fail_if_no_progress extract_lets +onlyGivenNames x)
    | with_reducible apply Only.refl
    | with_reducible assumption
    | (with_reducible apply Only.ite <;> intro _)
    | with_reducible (apply Only.step (M := [.lnk]); rotate_left; exact modLnk_only_lnk _ _ (by intro k; rfl); decide)
    | with_reducible (apply Only.step (M := [.links]); rotate_left; exact modLnk_only_links _ _ (by intro k; rfl); decide)
    | with_reducible (apply Only.step (M := [.links, .lnk]); rotate_left; apply modLnk_only; decide)
    | with_reducible (refine Only.sndEq (by assumption) ?_)
    | with_reducible (refine Only.fstEq (by assumption) ?_)
    | dsimp only
    | dsimp +zetaDelta only
    | split
    | (clear_value *; split)

theorem routeFull_only (s : State)  : Only [.out, .pan, .log, .line, .links, .lnk, .rings, .cnt, .outs] s (routeFull s) := by
  unfold routeFull
  repeat' first
    | ((fail_if_no_progress extract_lets +onlyGivenNames x); refine Only.cut (L := [.out, .pan, .log, .line, .links, .lnk, .rings, .cnt, .outs]) (s := s) (x := x) ?_ ?_; rotate_left; intro hx; clear_value x; rotate_left; dsimp only [x])
    | ((fail_if_no_progress extract_lets +onlyGivenNames x); refine Only.named (b := x.not) ?_; clear_value x)
    | (fail_if_no_progress extract_lets +onlyGivenNames x)
    | with_reducible apply Only.refl
    | with_reducible assumption
    | (with_reducible apply Only.ite <;> intro _)
    | with_reducible (apply Only.step (M := [.out, .pan, .log, .line, .links, .rings, .cnt, .outs]); rotate_left; apply enumRefused_only; decide)
    | with_reducible (apply Only.step (M := [.lnk]); rotate_left; exact modLnk_only_lnk _ _ (by intro k; rfl); decide)
    | with_reducible (apply Only.step (M := [.links]); rotate_left; exact modLnk_only_links _ _ (by intro k; rfl); decide)
    | with_reducible (apply Only.step (M := [.links, .lnk]); rotate_left; apply modLnk_only; decide)
    | with_reducible (refine Only.sndEq (by assumption) ?_)
    | with_reducible (refine Only.fstEq (by assumption) ?_)
    | dsimp only
    | dsimp +zetaDelta only
    | split
    | (clear_value *; split)

theorem rxSlotReq_only (s : State) (l : Fin 4) (ident : BitVec 64) (route : List (Fin 4))  : Only [.out, .pan, .log, .line, .links, .lnk, .rings, .hif, .cnt, .outs] s (rxSlotReq s l ident route) := by
  unfold rxSlotReq
  repeat' first
    | ((fail_if_no_progress extract_lets +onlyGivenNames x); refine Only.cut (L := [.out, .pan, .log, .line, .links, .lnk, .rings, .hif, .cnt, .outs]) (s := s) (x := x) ?_ ?_; rotate_left; intro hx; clear_value x; rotate_left; dsimp only [x])
    | ((fail_if_no_progress extract_lets +onlyGivenNames x); refine Only.named (b := x.not) ?_; clear_value x)
    | (fail_if_no_progress extract_lets +onlyGivenNames x)
    | with_reducible apply Only.refl
    | with_reducible assumption
    | (with_reducible apply Only.ite <;> intro _)
    | with_reducible (apply Only.step (M := [.out, .pan, .log, .line, .links, .rings, .cnt, .outs]); rotate_left; apply enumRefused_only; decide)
    | with_reducible (apply Only.step (M := [.lnk]); rotate_left; exact modLnk_only_lnk _ _ (by intro k; rfl); decide)
    | with_reducible (apply Only.step (M := [.links]); rotate_left; exact modLnk_only_links _ _ (by intro k; rfl); decide)
    | with_reducible (apply Only.step (M := [.links, .lnk]); rotate_left; apply modLnk_only; decide)
    | with_reducible (apply Only.step (M := [.lnk]); rotate_left; apply recordRoute_only; decide)
    | with_reducible (apply Only.step (M := [.out, .pan, .log, .line, .links, .lnk, .rings, .hif, .cnt, .outs]); rotate_left; apply slotPresent_only; decide)
    | with_reducible (apply Only.step (M := [.out, .links, .cnt]); rotate_left; apply linkSend_only; decide)
    | with_reducible (apply Only.step (M := [.out, .pan, .log, .line, .links, .lnk, .rings, .cnt, .outs]); rotate_left; apply routeFull_only; decide)
    | with_reducible (refine Only.sndEq (by assumption) ?_)
    | with_reducible (refine Only.fstEq (by assumption) ?_)
    | dsimp only
    | dsimp +zetaDelta only
    | split
    | (clear_value *; split)

theorem rxSlotAssign_only (s : State) (ident : BitVec 64) (slot : BitVec 6) (shelf : Option (BitVec 10)) (route : List (Fin 4))  : Only [.out, .pan, .log, .line, .links, .lnk, .rings, .cnt, .outs] s (rxSlotAssign s ident slot shelf route) := by
  unfold rxSlotAssign
  repeat' first
    | ((fail_if_no_progress extract_lets +onlyGivenNames x); refine Only.cut (L := [.out, .pan, .log, .line, .links, .lnk, .rings, .cnt, .outs]) (s := s) (x := x) ?_ ?_; rotate_left; intro hx; clear_value x; rotate_left; dsimp only [x])
    | ((fail_if_no_progress extract_lets +onlyGivenNames x); refine Only.named (b := x.not) ?_; clear_value x)
    | (fail_if_no_progress extract_lets +onlyGivenNames x)
    | with_reducible apply Only.refl
    | with_reducible assumption
    | (with_reducible apply Only.ite <;> intro _)
    | with_reducible (apply Only.step (M := [.lnk]); rotate_left; apply recordRoute_only; decide)
    | with_reducible (apply Only.step (M := [.out, .links, .cnt]); rotate_left; apply linkSend_only; decide)
    | with_reducible (apply Only.step (M := [.out, .pan, .log, .line, .links, .rings, .cnt, .outs]); rotate_left; apply nodeChanged_only; decide)
    | with_reducible (apply Only.step (M := [.lnk]); rotate_left; exact modLnk_only_lnk _ _ (by intro k; rfl); decide)
    | with_reducible (apply Only.step (M := [.links]); rotate_left; exact modLnk_only_links _ _ (by intro k; rfl); decide)
    | with_reducible (apply Only.step (M := [.links, .lnk]); rotate_left; apply modLnk_only; decide)
    | with_reducible (refine Only.sndEq (by assumption) ?_)
    | with_reducible (refine Only.fstEq (by assumption) ?_)
    | dsimp only
    | dsimp +zetaDelta only
    | split
    | (clear_value *; split)

theorem rxShelfReq_only (s : State) (l : Fin 4) (ident : BitVec 64) (pref : Option (BitVec 10)) (route : List (Fin 4))  : Only [.out, .pan, .log, .line, .links, .lnk, .rings, .cnt, .outs] s (rxShelfReq s l ident pref route) := by
  unfold rxShelfReq
  repeat' first
    | ((fail_if_no_progress extract_lets +onlyGivenNames x); refine Only.cut (L := [.out, .pan, .log, .line, .links, .lnk, .rings, .cnt, .outs]) (s := s) (x := x) ?_ ?_; rotate_left; intro hx; clear_value x; rotate_left; dsimp only [x])
    | ((fail_if_no_progress extract_lets +onlyGivenNames x); refine Only.named (b := x.not) ?_; clear_value x)
    | (fail_if_no_progress extract_lets +onlyGivenNames x)
    | with_reducible apply Only.refl
    | with_reducible assumption
    | (with_reducible apply Only.ite <;> intro _)
    | with_reducible (apply Only.step (M := [.out, .pan, .log, .line, .links, .rings, .cnt, .outs]); rotate_left; apply enumRefused_only; decide)
    | with_reducible (apply Only.step (M := [.lnk]); rotate_left; exact modLnk_only_lnk _ _ (by intro k; rfl); decide)
    | with_reducible (apply Only.step (M := [.links]); rotate_left; exact modLnk_only_links _ _ (by intro k; rfl); decide)
    | with_reducible (apply Only.step (M := [.links, .lnk]); rotate_left; apply modLnk_only; decide)
    | with_reducible (apply Only.step (M := [.out, .links, .cnt]); rotate_left; apply linkSend_only; decide)
    | with_reducible (apply Only.step (M := [.out, .pan, .log, .line, .links, .lnk, .rings, .cnt, .outs]); rotate_left; apply routeFull_only; decide)
    | with_reducible (refine Only.sndEq (by assumption) ?_)
    | with_reducible (refine Only.fstEq (by assumption) ?_)
    | dsimp only
    | dsimp +zetaDelta only
    | split
    | (clear_value *; split)

theorem rxShelfAssign_only (s : State) (ident : BitVec 64) (shelf : BitVec 10) (route : List (Fin 4))  : Only [.out, .pan, .log, .line, .links, .lnk, .rings, .cnt, .outs] s (rxShelfAssign s ident shelf route) := by
  unfold rxShelfAssign
  repeat' first
    | ((fail_if_no_progress extract_lets +onlyGivenNames x); refine Only.cut (L := [.out, .pan, .log, .line, .links, .lnk, .rings, .cnt, .outs]) (s := s) (x := x) ?_ ?_; rotate_left; intro hx; clear_value x; rotate_left; dsimp only [x])
    | ((fail_if_no_progress extract_lets +onlyGivenNames x); refine Only.named (b := x.not) ?_; clear_value x)
    | (fail_if_no_progress extract_lets +onlyGivenNames x)
    | with_reducible apply Only.refl
    | with_reducible assumption
    | (with_reducible apply Only.ite <;> intro _)
    | with_reducible (apply Only.step (M := [.out, .links, .cnt]); rotate_left; apply linkSend_only; decide)
    | with_reducible (apply Only.step (M := [.out, .pan, .log, .line, .links, .rings, .cnt, .outs]); rotate_left; apply nodeChanged_only; decide)
    | with_reducible (apply Only.step (M := [.lnk]); rotate_left; exact modLnk_only_lnk _ _ (by intro k; rfl); decide)
    | with_reducible (apply Only.step (M := [.links]); rotate_left; exact modLnk_only_links _ _ (by intro k; rfl); decide)
    | with_reducible (apply Only.step (M := [.links, .lnk]); rotate_left; apply modLnk_only; decide)
    | with_reducible (apply Only.step (M := [.out, .links, .cnt]); rotate_left; apply shelfUpdates_only; decide)
    | with_reducible (refine Only.sndEq (by assumption) ?_)
    | with_reducible (refine Only.fstEq (by assumption) ?_)
    | dsimp only
    | dsimp +zetaDelta only
    | split
    | (clear_value *; split)

theorem rxShelfUpdate_only (s : State) (slot : BitVec 6) (shelf : BitVec 10)  : Only [.out, .pan, .log, .line, .links, .lnk, .rings, .cnt, .outs] s (rxShelfUpdate s slot shelf) := by
  unfold rxShelfUpdate
  repeat' first
    | ((fail_if_no_progress extract_lets +onlyGivenNames x); refine Only.cut (L := [.out, .pan, .log, .line, .links, .lnk, .rings, .cnt, .outs]) (s := s) (x := x) ?_ ?_; rotate_left; intro hx; clear_value x; rotate_left; dsimp only [x])
    | ((fail_if_no_progress extract_lets +onlyGivenNames x); refine Only.named (b := x.not) ?_; clear_value x)
    | (fail_if_no_progress extract_lets +onlyGivenNames x)
    | with_reducible apply Only.refl
    | with_reducible assumption
    | (with_reducible apply Only.ite <;> intro _)
    | with_reducible (apply Only.step (M := [.out, .pan, .log, .line, .links, .rings, .cnt, .outs]); rotate_left; apply nodeChanged_only; decide)
    | with_reducible (apply Only.step (M := [.lnk]); rotate_left; exact modLnk_only_lnk _ _ (by intro k; rfl); decide)
    | with_reducible (apply Only.step (M := [.links]); rotate_left; exact modLnk_only_links _ _ (by intro k; rfl); decide)
    | with_reducible (apply Only.step (M := [.links, .lnk]); rotate_left; apply modLnk_only; decide)
    | with_reducible (apply Only.step (M := [.out, .links, .cnt]); rotate_left; apply linkSend_only; decide)
    | with_reducible (refine Only.sndEq (by assumption) ?_)
    | with_reducible (refine Only.fstEq (by assumption) ?_)
    | dsimp only
    | dsimp +zetaDelta only
    | split
    | (clear_value *; split)

theorem sendHello_only (s : State) (l : Fin 4)  : Only [.out, .links] s (sendHello s l) := by
  unfold sendHello
  repeat' first
    | ((fail_if_no_progress extract_lets +onlyGivenNames x); refine Only.cut (L := [.out, .links]) (s := s) (x := x) ?_ ?_; rotate_left; intro hx; clear_value x; rotate_left; dsimp only [x])
    | ((fail_if_no_progress extract_lets +onlyGivenNames x); refine Only.named (b := x.not) ?_; clear_value x)
    | (fail_if_no_progress extract_lets +onlyGivenNames x)
    | with_reducible apply Only.refl
    | with_reducible assumption
    | (with_reducible apply Only.ite <;> intro _)
    | with_reducible (apply Only.step (M := [.links]); rotate_left; apply modLink_only; decide)
    | with_reducible (apply Only.step (M := [.out]); rotate_left; apply outLink_only; decide)
    | with_reducible (refine Only.sndEq (by assumption) ?_)
    | with_reducible (refine Only.fstEq (by assumption) ?_)
    | dsimp only
    | dsimp +zetaDelta only
    | split
    | (clear_value *; split)

theorem shelfRequest_only (s : State)  : Only [.out, .links, .lnk, .cnt] s (shelfRequest s) := by
  unfold shelfRequest
  repeat' first
    | ((fail_if_no_progress extract_lets +onlyGivenNames x); refine Only.cut (L := [.out, .links, .lnk, .cnt]) (s := s) (x := x) ?_ ?_; rotate_left; intro hx; clear_value x; rotate_left; dsimp only [x])
    | ((fail_if_no_progress extract_lets +onlyGivenNames x); refine Only.named (b := x.not) ?_; clear_value x)
    | (fail_if_no_progress extract_lets +onlyGivenNames x)
    | with_reducible apply Only.refl
    | with_reducible assumption
    | (with_reducible apply Only.ite <;> intro _)
    | with_reducible (apply Only.step (M := [.out, .links, .cnt]); rotate_left; apply linkSend_only; decide)
    | with_reducible (apply Only.step (M := [.lnk]); rotate_left; exact modLnk_only_lnk _ _ (by intro k; rfl); decide)
    | with_reducible (apply Only.step (M := [.links]); rotate_left; exact modLnk_only_links _ _ (by intro k; rfl); decide)
    | with_reducible (apply Only.step (M := [.links, .lnk]); rotate_left; apply modLnk_only; decide)
    | with_reducible (refine Only.sndEq (by assumption) ?_)
    | with_reducible (refine Only.fstEq (by assumption) ?_)
    | dsimp only
    | dsimp +zetaDelta only
    | split
    | (clear_value *; split)

theorem linkRise_only (s : State) (l : Fin 4)  : Only [.out, .pan, .log, .line, .links, .lnk, .rings, .cnt, .outs] s (linkRise s l) := by
  unfold linkRise
  repeat' first
    | ((fail_if_no_progress extract_lets +onlyGivenNames x); refine Only.cut (L := [.out, .pan, .log, .line, .links, .lnk, .rings, .cnt, .outs]) (s := s) (x := x) ?_ ?_; rotate_left; intro hx; clear_value x; rotate_left; dsimp only [x])
    | ((fail_if_no_progress extract_lets +onlyGivenNames x); refine Only.named (b := x.not) ?_; clear_value x)
    | (fail_if_no_progress extract_lets +onlyGivenNames x)
    | with_reducible apply Only.refl
    | with_reducible assumption
    | (with_reducible apply Only.ite <;> intro _)
    | with_reducible (apply Only.step (M := [.links]); rotate_left; apply modLink_only; decide)
    | with_reducible (apply Only.step (M := [.out, .pan, .log, .line, .links, .rings, .cnt, .outs]); rotate_left; apply emit_only; decide)
    | with_reducible (apply Only.step (M := [.out, .pan, .log, .line, .links, .rings, .cnt, .outs]); rotate_left; apply pairRise_only; decide)
    | with_reducible (apply Only.step (M := [.out, .links, .cnt]); rotate_left; apply slotRequest_only; decide)
    | with_reducible (apply Only.step (M := [.out, .links, .lnk, .cnt]); rotate_left; apply shelfRequest_only; decide)
    | with_reducible (refine Only.sndEq (by assumption) ?_)
    | with_reducible (refine Only.fstEq (by assumption) ?_)
    | dsimp only
    | dsimp +zetaDelta only
    | split
    | (clear_value *; split)

theorem tryRise_only (s : State) (l : Fin 4)  : Only [.out, .pan, .log, .line, .links, .lnk, .rings, .cnt, .outs] s (tryRise s l) := by
  unfold tryRise
  repeat' first
    | ((fail_if_no_progress extract_lets +onlyGivenNames x); refine Only.cut (L := [.out, .pan, .log, .line, .links, .lnk, .rings, .cnt, .outs]) (s := s) (x := x) ?_ ?_; rotate_left; intro hx; clear_value x; rotate_left; dsimp only [x])
    | ((fail_if_no_progress extract_lets +onlyGivenNames x); refine Only.named (b := x.not) ?_; clear_value x)
    | (fail_if_no_progress extract_lets +onlyGivenNames x)
    | with_reducible apply Only.refl
    | with_reducible assumption
    | (with_reducible apply Only.ite <;> intro _)
    | with_reducible (apply Only.step (M := [.out, .pan, .log, .line, .links, .lnk, .rings, .cnt, .outs]); rotate_left; apply linkRise_only; decide)
    | with_reducible (refine Only.sndEq (by assumption) ?_)
    | with_reducible (refine Only.fstEq (by assumption) ?_)
    | dsimp only
    | dsimp +zetaDelta only
    | split
    | (clear_value *; split)

theorem rxHello_only (s : State) (l : Fin 4) (ident : BitVec 64) (node : BitVec 16) (role : BitVec 8) (flags : BitVec 8)  : Only [.out, .pan, .log, .line, .links, .lnk, .rings, .cnt, .outs] s (rxHello s l ident node role flags) := by
  unfold rxHello
  repeat' first
    | ((fail_if_no_progress extract_lets +onlyGivenNames x); refine Only.cut (L := [.out, .pan, .log, .line, .links, .lnk, .rings, .cnt, .outs]) (s := s) (x := x) ?_ ?_; rotate_left; intro hx; clear_value x; rotate_left; dsimp only [x])
    | ((fail_if_no_progress extract_lets +onlyGivenNames x); refine Only.named (b := x.not) ?_; clear_value x)
    | (fail_if_no_progress extract_lets +onlyGivenNames x)
    | with_reducible apply Only.refl
    | with_reducible assumption
    | (with_reducible apply Only.ite <;> intro _)
    | with_reducible (apply Only.step (M := [.links]); rotate_left; apply modLink_only; decide)
    | with_reducible (apply Only.step (M := [.out, .links, .cnt]); rotate_left; apply ackHello_only; decide)
    | with_reducible (apply Only.step (M := [.out, .pan, .log, .line, .links, .rings, .cnt, .outs]); rotate_left; apply emit_only; decide)
    | with_reducible (apply Only.step (M := [.out, .pan, .log, .line, .links, .lnk, .rings, .cnt, .outs]); rotate_left; apply tryRise_only; decide)
    | with_reducible (refine Only.sndEq (by assumption) ?_)
    | with_reducible (refine Only.fstEq (by assumption) ?_)
    | dsimp only
    | dsimp +zetaDelta only
    | split
    | (clear_value *; split)

theorem rxAck_only (s : State) (l : Fin 4) (ack : BitVec 16)  : Only [.out, .links, .cnt] s (rxAck s l ack) := by
  unfold rxAck
  repeat' first
    | ((fail_if_no_progress extract_lets +onlyGivenNames x); refine Only.cut (L := [.out, .links, .cnt]) (s := s) (x := x) ?_ ?_; rotate_left; intro hx; clear_value x; rotate_left; dsimp only [x])
    | ((fail_if_no_progress extract_lets +onlyGivenNames x); refine Only.named (b := x.not) ?_; clear_value x)
    | (fail_if_no_progress extract_lets +onlyGivenNames x)
    | with_reducible apply Only.refl
    | with_reducible assumption
    | (with_reducible apply Only.ite <;> intro _)
    | with_reducible (apply Only.step (M := [.links]); rotate_left; apply modLink_only; decide)
    | with_reducible (apply Only.step (M := [.out, .links, .cnt]); rotate_left; apply pumpWaiting_only; decide)
    | with_reducible (refine Only.sndEq (by assumption) ?_)
    | with_reducible (refine Only.fstEq (by assumption) ?_)
    | dsimp only
    | dsimp +zetaDelta only
    | split
    | (clear_value *; split)

theorem resendAll_only (s : State) (l : Fin 4)  : Only [.out, .links, .cnt] s (resendAll s l) := by
  unfold resendAll
  repeat' first
    | ((fail_if_no_progress extract_lets +onlyGivenNames x); refine Only.cut (L := [.out, .links, .cnt]) (s := s) (x := x) ?_ ?_; rotate_left; intro hx; clear_value x; rotate_left; dsimp only [x])
    | ((fail_if_no_progress extract_lets +onlyGivenNames x); refine Only.named (b := x.not) ?_; clear_value x)
    | (fail_if_no_progress extract_lets +onlyGivenNames x)
    | (with_reducible apply Only.foldl; (intro _ _ _))
    | (with_reducible apply Only.foldlFst; (intro _ _ _))
    | with_reducible apply Only.refl
    | with_reducible assumption
    | (with_reducible apply Only.ite <;> intro _)
    | with_reducible (apply Only.step (M := [.out]); rotate_left; apply outLink_only; decide)
    | with_reducible (apply Only.step (M := [.links]); rotate_left; apply modLink_only; decide)
    | with_reducible (apply Only.step (M := [.cnt]); rotate_left; apply perfAdd_only; decide)
    | with_reducible (apply Only.step (M := [.links]); rotate_left; apply lnkCnt_only; decide)
    | with_reducible (refine Only.sndEq (by assumption) ?_)
    | with_reducible (refine Only.fstEq (by assumption) ?_)
    | dsimp only
    | dsimp +zetaDelta only
    | split
    | (clear_value *; split)

theorem helloToTrain_only (s : State) (l : Fin 4)  : Only [.links] s (helloToTrain s l) := by
  unfold helloToTrain
  repeat' first
    | ((fail_if_no_progress extract_lets +onlyGivenNames x); refine Only.cut (L := [.links]) (s := s) (x := x) ?_ ?_; rotate_left; intro hx; clear_value x; rotate_left; dsimp only [x])
    | ((fail_if_no_progress extract_lets +onlyGivenNames x); refine Only.named (b := x.not) ?_; clear_value x)
    | (fail_if_no_progress extract_lets +onlyGivenNames x)
    | with_reducible apply Only.refl
    | with_reducible assumption
    | (with_reducible apply Only.ite <;> intro _)
    | with_reducible (apply Only.step (M := [.links]); rotate_left; apply modLink_only; decide)
    | with_reducible (refine Only.sndEq (by assumption) ?_)
    | with_reducible (refine Only.fstEq (by assumption) ?_)
    | dsimp only
    | dsimp +zetaDelta only
    | split
    | (clear_value *; split)

theorem unbindParent_only (s : State) (l : Fin 4)  : Only [.out, .tco, .refs, .pan, .log, .line, .links, .lnk, .rings, .hif, .cnt, .outs] s (unbindParent s l) := by
  unfold unbindParent
  repeat' first
    | ((fail_if_no_progress extract_lets +onlyGivenNames x); refine Only.cut (L := [.out, .tco, .refs, .pan, .log, .line, .links, .lnk, .rings, .hif, .cnt, .outs]) (s := s) (x := x) ?_ ?_; rotate_left; intro hx; clear_value x; rotate_left; dsimp only [x])
    | ((fail_if_no_progress extract_lets +onlyGivenNames x); refine Only.named (b := x.not) ?_; clear_value x)
    | (fail_if_no_progress extract_lets +onlyGivenNames x)
    | with_reducible apply Only.refl
    | with_reducible assumption
    | (with_reducible apply Only.ite <;> intro _)
    | with_reducible (apply Only.step (M := [.refs]); rotate_left; apply modRefs_only; decide)
    | with_reducible (apply Only.step (M := [.out, .tco, .refs, .pan, .log, .line, .links, .lnk, .rings, .hif, .cnt, .outs]); rotate_left; apply slotGone_only; decide)
    | with_reducible (refine Only.sndEq (by assumption) ?_)
    | with_reducible (refine Only.fstEq (by assumption) ?_)
    | dsimp only
    | dsimp +zetaDelta only
    | split
    | (clear_value *; split)

end Sys2Proof.Laws
end

