-- ==== Sys2Proof/Laws/MbxOps.lean ====
section
/-! SUPPORT. What each operation of Machine/MbxOps.lean can touch, once for each. -/
set_option linter.unusedTactic false
set_option linter.unreachableTactic false
namespace Sys2Proof.Laws
open Sys2Proof
open Sys2Proof.Machine
open Sys2Proof.Safety

theorem ifOpt {c : Prop} [Decidable c] {a b : Option Wide} {w : Wide} {P : Prop} (h : (if c then a else b) = some w)
    (ha : a = some w → P) (hb : b = some w → P) : P := by
  by_cases k : c
  · rw [if_pos k] at h; exact ha h
  · rw [if_neg k] at h; exact hb h
/-- The side effect of latching a wide value (R475). -/
theorem wide64_only {L : List Part} {s t : State} {v : Nat} (h : Only L s t) : Only L s (wide64 t v).after := h
theorem wide128_only {L : List Part} {s t : State} {v : BitVec 128} (h : Only L s t) : Only L s (wide128 t v).after := h
theorem wideInt_only {L : List Part} {s t : State} {v : Int} (h : Only L s t) : Only L s (wideInt t v).after := h
theorem popStamp_only (s : State) (p_ : Fin 9) : Only [.eth] s (popStamp s p_).after := by
  unfold popStamp
  split
  · exact wide128_only (set_eth_only s _)
  · exact wide128_only (Only.step (modPort_only s p_ _) (set_eth_only _ _) (by decide))
theorem memCount_only (s : State) (u : Bool) (i : Nat) : Only [.mem] s (memCount s u i).after := by
  unfold memCount
  split
  · exact wide64_only (set_mem_only s _)
  · exact wide64_only (set_mem_only s _)
theorem wideTime_only {s : State} {sel : Nat} {w : Wide} (h : wideTime s sel = some w) : Only [.glb, .svc, .ptp, .eth, .links, .lnk, .hif, .log, .perf, .mem] s w.after := by
  unfold wideTime at h
  split at h
  all_goals first
    | (cases h; done)
    | (obtain rfl := Option.some.inj h; exact Only.refl _ _)
    | (obtain rfl := Option.some.inj h; exact Only.mono (wide64_only (set_glb_only s _)) (by decide))
    | (obtain rfl := Option.some.inj h; split <;> exact Only.refl _ _)
theorem wideService_only {s : State} {sel : Nat} {w : Wide} (h : wideService s sel = some w) : Only [.glb, .svc, .ptp, .eth, .links, .lnk, .hif, .log, .perf, .mem] s w.after := by
  unfold wideService at h
  repeat' (refine ifOpt h (fun h => ?_) (fun h => ?_))
  all_goals first
    | (cases h; done)
    | (obtain rfl := Option.some.inj h; exact Only.refl _ _)
    | (obtain rfl := Option.some.inj h; exact Only.mono (wide64_only (modSvc_only s _)) (by decide))
    | (obtain rfl := Option.some.inj h; exact Only.mono (wide64_only (modPtp_only s _)) (by decide))
    | (obtain rfl := Option.some.inj h; unfold wideSol; split <;> first | exact Only.refl _ _ | (split <;> exact Only.refl _ _))
theorem wideNet_only {s : State} {sel : Nat} {w : Wide} (h : wideNet s sel = some w) : Only [.glb, .svc, .ptp, .eth, .links, .lnk, .hif, .log, .perf, .mem] s w.after := by
  unfold wideNet at h
  repeat' (refine ifOpt h (fun h => ?_) (fun h => ?_))
  all_goals first
    | (cases h; done)
    | (obtain rfl := Option.some.inj h; exact Only.refl _ _)
    | (obtain rfl := Option.some.inj h; exact Only.mono (popStamp_only ..) (by decide))
    | (obtain rfl := Option.some.inj h; exact Only.mono (wide64_only (modPort_only s _ _)) (by decide))
    | (obtain rfl := Option.some.inj h; exact Only.mono (wide64_only (modLink_only s _ _)) (by decide))
    | (obtain rfl := Option.some.inj h; exact Only.mono (wide64_only (modLnk_only s _)) (by decide))
theorem hifCount_only (s : State) (i : Nat) : Only [.hif] s (hifCount s i).after := by
  unfold hifCount
  exact wide64_only (set_hif_only_hif s _ rfl)
theorem wideHost_only {s : State} {sel : Nat} {w : Wide} (h : wideHost s sel = some w) : Only [.glb, .svc, .ptp, .eth, .links, .lnk, .hif, .log, .perf, .mem] s w.after := by
  unfold wideHost at h
  refine ifOpt h (fun h => ?_) (fun h => ?_)
  · obtain rfl := Option.some.inj h
    exact Only.mono (hifCount_only s _) (by decide)
  refine ifOpt h (fun h => ?_) (fun h => ?_)
  · obtain rfl := Option.some.inj h; exact wide128_only (Only.refl _ _)
  refine ifOpt h (fun h => ?_) (fun h => ?_)
  · obtain rfl := Option.some.inj h; exact wide64_only (Only.refl _ _)
  refine ifOpt h (fun h => ?_) (fun h => ?_)
  · obtain rfl := Option.some.inj h; exact Only.mono (wide64_only (set_log_only s _)) (by decide)
  refine ifOpt h (fun h => ?_) (fun h => ?_)
  · obtain rfl := Option.some.inj h; exact Only.mono (wide64_only (set_perf_only_perf s _ rfl)) (by decide)
  refine ifOpt h (fun h => ?_) (fun h => ?_)
  · obtain rfl := Option.some.inj h; exact wide128_only (Only.refl _ _)
  refine ifOpt h (fun h => ?_) (fun h => ?_)
  · obtain rfl := Option.some.inj h; exact wide64_only (Only.refl _ _)
  refine ifOpt h (fun h => ?_) (fun h => ?_)
  · obtain rfl := Option.some.inj h; exact Only.mono (memCount_only ..) (by decide)
  refine ifOpt h (fun h => ?_) (fun h => ?_)
  · obtain rfl := Option.some.inj h; exact Only.mono (memCount_only ..) (by decide)
  · cases h
theorem wideOf_only {s : State} {sel : Nat} {w : Wide} (h : wideOf s sel = some w) : Only [.glb, .svc, .ptp, .eth, .links, .lnk, .hif, .log, .perf, .mem] s w.after := by
  unfold wideOf at h
  split at h
  · exact wideTime_only h
  · split at h
    · exact wideService_only h
    · split at h
      · exact wideNet_only h
      · exact wideHost_only h

end Sys2Proof.Laws
end

