-- ==== Sys2Proof/Laws/RegOps.lean ====
section
/-! SUPPORT. What each operation of Machine/RegOps.lean can touch, once for each. -/
set_option linter.unusedTactic false
set_option linter.unreachableTactic false
namespace Sys2Proof.Laws
open Sys2Proof
open Sys2Proof.Machine
open Sys2Proof.Safety

theorem ethAdjust_only (s : State) (p_ : Nat) (field : Nat)  : Only [.out, .pan, .log, .line, .links, .rings, .cnt, .outs] s (ethAdjust s p_ field) := by
  unfold ethAdjust
  repeat' first
    | ((fail_if_no_progress extract_lets +onlyGivenNames x); refine Only.cut (L := [.out, .pan, .log, .line, .links, .rings, .cnt, .outs]) (s := s) (x := x) ?_ ?_; rotate_left; intro hx; clear_value x; rotate_left; dsimp only [x])
    | ((fail_if_no_progress extract_lets +onlyGivenNames x); refine Only.named (b := x.not) ?_; clear_value x)
    | (fail_if_no_progress extract_lets +onlyGivenNames x)
    | with_reducible apply Only.refl
    | with_reducible assumption
    | (with_reducible apply Only.ite <;> intro _)
    | with_reducible (apply Only.step (M := [.out, .pan, .log, .line, .links, .rings, .cnt, .outs]); rotate_left; apply emit_only; decide)
    | with_reducible (refine Only.sndEq (by assumption) ?_)
    | with_reducible (refine Only.fstEq (by assumption) ?_)
    | dsimp only
    | dsimp +zetaDelta only
    | split
    | (clear_value *; split)

theorem adjustWord_only (s : State) (k : Nat) (raw : Nat) (w : Word)  : Only [.out, .pan, .log, .line, .links, .rings, .cnt, .outs] s (adjustWord s k raw w).2 := by
  unfold adjustWord
  repeat' first
    | ((fail_if_no_progress extract_lets +onlyGivenNames x); refine Only.cut (L := [.out, .pan, .log, .line, .links, .rings, .cnt, .outs]) (s := s) (x := x) ?_ ?_; rotate_left; intro hx; clear_value x; rotate_left; dsimp only [x])
    | ((fail_if_no_progress extract_lets +onlyGivenNames x); refine Only.named (b := x.not) ?_; clear_value x)
    | (fail_if_no_progress extract_lets +onlyGivenNames x)
    | with_reducible apply Only.refl
    | with_reducible assumption
    | (with_reducible apply Only.ite <;> intro _)
    | with_reducible (apply Only.step (M := [.out, .pan, .log, .line, .links, .rings, .cnt, .outs]); rotate_left; apply emit_only; decide)
    | with_reducible (apply Only.step (M := [.out, .pan, .log, .line, .links, .rings, .cnt, .outs]); rotate_left; apply ethAdjust_only; decide)
    | with_reducible (refine Only.sndEq (by assumption) ?_)
    | with_reducible (refine Only.fstEq (by assumption) ?_)
    | dsimp only
    | dsimp +zetaDelta only
    | split
    | (clear_value *; split)
theorem adjustWord_only_eq {s : State} {k : Nat} {raw : Nat} {w : Word} {r1} {t0 : State} (hEq : adjustWord s k raw w = (r1, t0)) : Only [.out, .pan, .log, .line, .links, .rings, .cnt, .outs] s t0 := by
  have k0 := adjustWord_only s k raw w
  rw [hEq] at k0; exact k0

theorem tcoWritten_only (s : State) (k : Nat) (old : Word)  : Only [.out, .tco, .refs, .pan, .log, .line, .links, .rings, .cnt, .outs] s (tcoWritten s k old) := by
  unfold tcoWritten
  repeat' first
    | ((fail_if_no_progress extract_lets +onlyGivenNames x); refine Only.cut (L := [.out, .tco, .refs, .pan, .log, .line, .links, .rings, .cnt, .outs]) (s := s) (x := x) ?_ ?_; rotate_left; intro hx; clear_value x; rotate_left; dsimp only [x])
    | ((fail_if_no_progress extract_lets +onlyGivenNames x); refine Only.named (b := x.not) ?_; clear_value x)
    | (fail_if_no_progress extract_lets +onlyGivenNames x)
    | with_reducible apply Only.refl
    | with_reducible assumption
    | (with_reducible apply Only.ite <;> intro _)
    | with_reducible (apply Only.step (M := [.tco]); rotate_left; exact modTco_only _ _ (by rfl); decide)
    | with_reducible (apply Only.step (M := [.out, .tco, .refs, .pan, .log, .line, .links, .rings, .cnt, .outs]); rotate_left; apply clockEval_only; decide)
    | with_reducible (apply Only.step (M := [.tco]); rotate_left; apply fassistEval_only; decide)
    | with_reducible (apply Only.step (M := [.tco]); rotate_left; apply tempMark_only; decide)
    | with_reducible (apply Only.step (M := [.out, .pan, .log, .line, .links, .rings, .cnt, .outs]); rotate_left; apply emit_only; decide)
    | with_reducible (apply Only.step (M := [.out, .tco, .pan, .log, .line, .links, .rings, .cnt, .outs]); rotate_left; apply freqCheck_only; decide)
    | with_reducible (refine Only.sndEq (by assumption) ?_)
    | with_reducible (refine Only.fstEq (by assumption) ?_)
    | dsimp only
    | dsimp +zetaDelta only
    | split
    | (clear_value *; split)

theorem slotRebound_only (s : State) (i : Fin 16)  : Only [.free, .out, .tco, .refs, .ptp, .eth, .pan, .log, .line, .pair, .links, .lnk, .rings, .hif, .cnt, .outs] s (slotRebound s i) := by
  unfold slotRebound
  repeat' first
    | ((fail_if_no_progress extract_lets +onlyGivenNames x); refine Only.cut (L := [.free, .out, .tco, .refs, .ptp, .eth, .pan, .log, .line, .pair, .links, .lnk, .rings, .hif, .cnt, .outs]) (s := s) (x := x) ?_ ?_; rotate_left; intro hx; clear_value x; rotate_left; dsimp only [x])
    | ((fail_if_no_progress extract_lets +onlyGivenNames x); refine Only.named (b := x.not) ?_; clear_value x)
    | (fail_if_no_progress extract_lets +onlyGivenNames x)
    | with_reducible apply Only.refl
    | with_reducible assumption
    | (with_reducible apply Only.ite <;> intro _)
    | with_reducible (apply Only.step (M := [.out, .tco, .refs, .pan, .log, .line, .links, .lnk, .rings, .hif, .cnt, .outs]); rotate_left; apply slotGone_only; decide)
    | with_reducible (apply Only.step (M := [.out, .tco, .refs, .pan, .log, .line, .links, .lnk, .rings, .hif, .cnt, .outs]); rotate_left; apply selEval_only; decide)
    | with_reducible (apply Only.step (M := [.out, .refs, .pan, .log, .line, .links, .rings, .cnt, .outs]); rotate_left; apply judge_only; decide)
    | with_reducible (apply Only.step (M := [.refs]); rotate_left; apply modSlot_only; decide)
    | with_reducible (apply Only.step (M := [.free, .out, .ptp, .eth, .pan, .log, .line, .pair, .links, .rings, .cnt, .outs]); rotate_left; apply instEvalAll_only; decide)
    | with_reducible (refine Only.sndEq (by assumption) ?_)
    | with_reducible (refine Only.fstEq (by assumption) ?_)
    | dsimp only
    | dsimp +zetaDelta only
    | split
    | (clear_value *; split)

theorem refsWritten_only (s : State) (k : Nat) (old : Word)  : Only [.free, .out, .tco, .refs, .ptp, .eth, .pan, .log, .line, .pair, .links, .lnk, .rings, .hif, .cnt, .outs] s (refsWritten s k old) := by
  unfold refsWritten
  repeat' first
    | ((fail_if_no_progress extract_lets +onlyGivenNames x); refine Only.cut (L := [.free, .out, .tco, .refs, .ptp, .eth, .pan, .log, .line, .pair, .links, .lnk, .rings, .hif, .cnt, .outs]) (s := s) (x := x) ?_ ?_; rotate_left; intro hx; clear_value x; rotate_left; dsimp only [x])
    | ((fail_if_no_progress extract_lets +onlyGivenNames x); refine Only.named (b := x.not) ?_; clear_value x)
    | (fail_if_no_progress extract_lets +onlyGivenNames x)
    | with_reducible apply Only.refl
    | with_reducible assumption
    | (with_reducible apply Only.ite <;> intro _)
    | with_reducible (apply Only.step (M := [.out, .tco, .refs, .pan, .log, .line, .links, .lnk, .rings, .hif, .cnt, .outs]); rotate_left; apply selEval_only; decide)
    | with_reducible (apply Only.step (M := [.refs]); rotate_left; apply modRefs_only; decide)
    | with_reducible (apply Only.step (M := [.out, .refs, .hif, .cnt]); rotate_left; apply oscTurn_only; decide)
    | with_reducible (apply Only.step (M := [.hif]); rotate_left; apply fin_only; decide)
    | with_reducible (apply Only.step (M := [.out, .tco, .refs, .pan, .log, .line, .links, .lnk, .rings, .hif, .cnt, .outs]); rotate_left; apply slotWritten_only; decide)
    | with_reducible (apply Only.step (M := [.free, .out, .tco, .refs, .ptp, .eth, .pan, .log, .line, .pair, .links, .lnk, .rings, .hif, .cnt, .outs]); rotate_left; apply slotRebound_only; decide)
    | with_reducible (refine Only.sndEq (by assumption) ?_)
    | with_reducible (refine Only.fstEq (by assumption) ?_)
    | dsimp only
    | dsimp +zetaDelta only
    | split
    | (clear_value *; split)

theorem gbbWritten_only (s : State) (k : Nat) (old : Word)  : Only [.out, .tco, .gbb, .pan, .log, .line, .links, .rings, .cnt, .outs] s (gbbWritten s k old) := by
  unfold gbbWritten
  repeat' first
    | ((fail_if_no_progress extract_lets +onlyGivenNames x); refine Only.cut (L := [.out, .tco, .gbb, .pan, .log, .line, .links, .rings, .cnt, .outs]) (s := s) (x := x) ?_ ?_; rotate_left; intro hx; clear_value x; rotate_left; dsimp only [x])
    | ((fail_if_no_progress extract_lets +onlyGivenNames x); refine Only.named (b := x.not) ?_; clear_value x)
    | (fail_if_no_progress extract_lets +onlyGivenNames x)
    | with_reducible apply Only.refl
    | with_reducible assumption
    | (with_reducible apply Only.ite <;> intro _)
    | with_reducible (apply Only.step (M := [.out, .tco, .pan, .log, .line, .links, .rings, .cnt, .outs]); rotate_left; apply utcAgain_only; decide)
    | with_reducible (apply Only.step (M := [.gbb]); rotate_left; apply fixReadyAll_only; decide)
    | with_reducible (apply Only.step (M := [.gbb]); rotate_left; apply modGroup_only; decide)
    | (fail_if_no_progress (with_reducible (apply Only.step (M := [.gbb]); rotate_left; apply set_gbb_only; decide)))
    | with_reducible (refine Only.sndEq (by assumption) ?_)
    | with_reducible (refine Only.fstEq (by assumption) ?_)
    | dsimp only
    | dsimp +zetaDelta only
    | split
    | (clear_value *; split)

theorem todRestart_only (s : State)  : Only [.tio] s (todRestart s) := by
  unfold todRestart
  repeat' first
    | ((fail_if_no_progress extract_lets +onlyGivenNames x); refine Only.cut (L := [.tio]) (s := s) (x := x) ?_ ?_; rotate_left; intro hx; clear_value x; rotate_left; dsimp only [x])
    | ((fail_if_no_progress extract_lets +onlyGivenNames x); refine Only.named (b := x.not) ?_; clear_value x)
    | (fail_if_no_progress extract_lets +onlyGivenNames x)
    | with_reducible apply Only.refl
    | with_reducible assumption
    | (with_reducible apply Only.ite <;> intro _)
    | (fail_if_no_progress (with_reducible (apply Only.step (M := [.tio]); rotate_left; apply set_tio_only_tio; rfl; decide)))
    | with_reducible (refine Only.sndEq (by assumption) ?_)
    | with_reducible (refine Only.fstEq (by assumption) ?_)
    | dsimp only
    | dsimp +zetaDelta only
    | split
    | (clear_value *; split)

theorem outFresh_only (s : State) (o : Nat) (old : Bool) (new : Bool)  : Only [.outs] s (outFresh s o old new) := by
  unfold outFresh
  repeat' first
    | ((fail_if_no_progress extract_lets +onlyGivenNames x); refine Only.cut (L := [.outs]) (s := s) (x := x) ?_ ?_; rotate_left; intro hx; clear_value x; rotate_left; dsimp only [x])
    | ((fail_if_no_progress extract_lets +onlyGivenNames x); refine Only.named (b := x.not) ?_; clear_value x)
    | (fail_if_no_progress extract_lets +onlyGivenNames x)
    | with_reducible apply Only.refl
    | with_reducible assumption
    | (with_reducible apply Only.ite <;> intro _)
    | with_reducible (apply Only.step (M := [.outs]); rotate_left; apply modOut_only; decide)
    | with_reducible (refine Only.sndEq (by assumption) ?_)
    | with_reducible (refine Only.fstEq (by assumption) ?_)
    | dsimp only
    | dsimp +zetaDelta only
    | split
    | (clear_value *; split)

theorem tioWritten_only (s : State) (k : Nat) (old : Word)  : Only [.free, .out, .pan, .log, .line, .links, .rings, .cnt, .outs, .tio] s (tioWritten s k old) := by
  unfold tioWritten
  repeat' first
    | ((fail_if_no_progress extract_lets +onlyGivenNames x); refine Only.cut (L := [.free, .out, .pan, .log, .line, .links, .rings, .cnt, .outs, .tio]) (s := s) (x := x) ?_ ?_; rotate_left; intro hx; clear_value x; rotate_left; dsimp only [x])
    | ((fail_if_no_progress extract_lets +onlyGivenNames x); refine Only.named (b := x.not) ?_; clear_value x)
    | (fail_if_no_progress extract_lets +onlyGivenNames x)
    | with_reducible apply Only.refl
    | with_reducible assumption
    | (with_reducible apply Only.ite <;> intro _)
    | with_reducible (apply Only.step (M := [.tio]); rotate_left; apply todRestart_only; decide)
    | with_reducible (apply Only.step (M := [.out, .outs]); rotate_left; apply refreshOuts_only; decide)
    | with_reducible (apply Only.step (M := [.outs]); rotate_left; apply outFresh_only; decide)
    | with_reducible (apply Only.step (M := [.tio]); rotate_left; apply ppsArm_only; decide)
    | with_reducible (apply Only.step (M := [.free, .out, .pan, .log, .line, .links, .rings, .cnt, .outs, .tio]); rotate_left; apply freqArm_only; decide)
    | with_reducible (refine Only.sndEq (by assumption) ?_)
    | with_reducible (refine Only.fstEq (by assumption) ?_)
    | dsimp only
    | dsimp +zetaDelta only
    | split
    | (clear_value *; split)

theorem ptpWritten_only (s : State) (k : Nat) (old : Word)  : Only [.free, .out, .ptp, .eth, .pan, .log, .line, .pair, .links, .rings, .cnt, .outs] s (ptpWritten s k old) := by
  unfold ptpWritten
  repeat' first
    | ((fail_if_no_progress extract_lets +onlyGivenNames x); refine Only.cut (L := [.free, .out, .ptp, .eth, .pan, .log, .line, .pair, .links, .rings, .cnt, .outs]) (s := s) (x := x) ?_ ?_; rotate_left; intro hx; clear_value x; rotate_left; dsimp only [x])
    | ((fail_if_no_progress extract_lets +onlyGivenNames x); refine Only.named (b := x.not) ?_; clear_value x)
    | (fail_if_no_progress extract_lets +onlyGivenNames x)
    | with_reducible apply Only.refl
    | with_reducible assumption
    | (with_reducible apply Only.ite <;> intro _)
    | with_reducible (apply Only.step (M := [.free, .out, .ptp, .eth, .pan, .log, .line, .pair, .links, .rings, .cnt, .outs]); rotate_left; apply instEvalAll_only; decide)
    | with_reducible (apply Only.step (M := [.out, .pan, .log, .line, .links, .rings, .cnt, .outs]); rotate_left; apply emit_only; decide)
    | with_reducible (apply Only.step (M := [.free, .out, .ptp, .eth, .pan, .log, .line, .pair, .links, .rings, .cnt, .outs]); rotate_left; apply instEval_only; decide)
    | with_reducible (apply Only.step (M := [.free, .out, .ptp, .eth, .pan, .log, .line, .links, .rings, .cnt, .outs]); rotate_left; apply masterListed_only; decide)
    | with_reducible (refine Only.sndEq (by assumption) ?_)
    | with_reducible (refine Only.fstEq (by assumption) ?_)
    | dsimp only
    | dsimp +zetaDelta only
    | split
    | (clear_value *; split)

theorem portsGate_only (s0 : State) (s : State)  : Only [.out, .tco, .refs, .svc, .ptp, .eth, .pan, .log, .line, .links, .lnk, .rings, .hif, .cnt, .outs] s (portsGate s0 s) := by
  unfold portsGate
  repeat' first
    | ((fail_if_no_progress extract_lets +onlyGivenNames x); refine Only.cut (L := [.out, .tco, .refs, .svc, .ptp, .eth, .pan, .log, .line, .links, .lnk, .rings, .hif, .cnt, .outs]) (s := s) (x := x) ?_ ?_; rotate_left; intro hx; clear_value x; rotate_left; dsimp only [x])
    | ((fail_if_no_progress extract_lets +onlyGivenNames x); refine Only.named (b := x.not) ?_; clear_value x)
    | (fail_if_no_progress extract_lets +onlyGivenNames x)
    | (with_reducible apply Only.foldl; (intro _ _ _))
    | (with_reducible apply Only.foldlFst; (intro _ _ _))
    | with_reducible apply Only.refl
    | with_reducible assumption
    | (with_reducible apply Only.ite <;> intro _)
    | with_reducible (apply Only.step (M := [.out, .tco, .refs, .svc, .ptp, .eth, .pan, .log, .line, .links, .lnk, .rings, .hif, .cnt, .outs]); rotate_left; apply portStart_only; decide)
    | with_reducible (apply Only.step (M := [.out, .tco, .refs, .svc, .ptp, .eth, .pan, .log, .line, .links, .lnk, .rings, .hif, .cnt, .outs]); rotate_left; apply portDown_only; decide)
    | with_reducible (refine Only.sndEq (by assumption) ?_)
    | with_reducible (refine Only.fstEq (by assumption) ?_)
    | dsimp only
    | dsimp +zetaDelta only
    | split
    | (clear_value *; split)

theorem ethWritten_only (s0 : State) (s : State) (k : Nat) (old : Word)  : Only [.out, .tco, .refs, .svc, .ptp, .eth, .pan, .log, .line, .links, .lnk, .rings, .hif, .cnt, .outs] s (ethWritten s0 s k old) := by
  unfold ethWritten
  repeat' first
    | ((fail_if_no_progress extract_lets +onlyGivenNames x); refine Only.cut (L := [.out, .tco, .refs, .svc, .ptp, .eth, .pan, .log, .line, .links, .lnk, .rings, .hif, .cnt, .outs]) (s := s) (x := x) ?_ ?_; rotate_left; intro hx; clear_value x; rotate_left; dsimp only [x])
    | ((fail_if_no_progress extract_lets +onlyGivenNames x); refine Only.named (b := x.not) ?_; clear_value x)
    | (fail_if_no_progress extract_lets +onlyGivenNames x)
    | with_reducible apply Only.refl
    | with_reducible assumption
    | (with_reducible apply Only.ite <;> intro _)
    | with_reducible (apply Only.step (M := [.out, .tco, .refs, .svc, .ptp, .eth, .pan, .log, .line, .links, .lnk, .rings, .hif, .cnt, .outs]); rotate_left; apply portsGate_only; decide)
    | with_reducible (apply Only.step (M := [.eth]); rotate_left; apply modPort_only; decide)
    | with_reducible (apply Only.step (M := [.out, .tco, .refs, .eth, .pan, .log, .line, .links, .lnk, .rings, .hif, .cnt, .outs]); rotate_left; apply setQl_only; decide)
    | with_reducible (refine Only.sndEq (by assumption) ?_)
    | with_reducible (refine Only.fstEq (by assumption) ?_)
    | dsimp only
    | dsimp +zetaDelta only
    | split
    | (clear_value *; split)

theorem sampleDrainN_only (a1 : Nat) (a2 : State)  : Only [.out, .links, .rings, .cnt, .perf] a2 (sampleDrainN a1 a2) := by
  induction a1 generalizing a2 with
  | zero => unfold sampleDrainN; exact Only.refl _ _
  | succ n ih =>
    unfold sampleDrainN
    repeat' first
      | ((fail_if_no_progress extract_lets +onlyGivenNames x); refine Only.cut (L := [.out, .links, .rings, .cnt, .perf]) (s := a2) (x := x) ?_ ?_; rotate_left; intro hx; clear_value x; rotate_left; dsimp only [x])
      | ((fail_if_no_progress extract_lets +onlyGivenNames x); refine Only.named (b := x.not) ?_; clear_value x)
      | (fail_if_no_progress extract_lets +onlyGivenNames x)
      | with_reducible apply Only.refl
      | with_reducible assumption
      | (with_reducible (apply Only.step; rotate_left; apply ih; exact (fun _ h => h)))
      | (with_reducible apply Only.ite <;> intro _)
      | with_reducible (apply Only.step (M := [.out, .links, .rings, .cnt]); rotate_left; apply ringPut_only; decide)
      | (fail_if_no_progress (with_reducible (apply Only.step (M := [.perf]); rotate_left; apply set_perf_only_perf; rfl; decide)))
      | with_reducible (refine Only.sndEq (by assumption) ?_)
      | with_reducible (refine Only.fstEq (by assumption) ?_)
      | dsimp only
      | dsimp +zetaDelta only
      | split
      | (clear_value *; split)

theorem sampleDrain_only (s : State)  : Only [.out, .links, .rings, .cnt, .perf] s (sampleDrain s) := by
  unfold sampleDrain
  repeat' first
    | ((fail_if_no_progress extract_lets +onlyGivenNames x); refine Only.cut (L := [.out, .links, .rings, .cnt, .perf]) (s := s) (x := x) ?_ ?_; rotate_left; intro hx; clear_value x; rotate_left; dsimp only [x])
    | ((fail_if_no_progress extract_lets +onlyGivenNames x); refine Only.named (b := x.not) ?_; clear_value x)
    | (fail_if_no_progress extract_lets +onlyGivenNames x)
    | with_reducible apply Only.refl
    | with_reducible assumption
    | (with_reducible apply Only.ite <;> intro _)
    | with_reducible (apply Only.step (M := [.out, .links, .rings, .cnt, .perf]); rotate_left; apply sampleDrainN_only; decide)
    | with_reducible (refine Only.sndEq (by assumption) ?_)
    | with_reducible (refine Only.fstEq (by assumption) ?_)
    | dsimp only
    | dsimp +zetaDelta only
    | split
    | (clear_value *; split)

theorem hifWritten_only (s : State) (k : Nat) (old : Word)  : Only [.out, .pan, .log, .links, .rings, .cnt, .perf] s (hifWritten s k old) := by
  unfold hifWritten
  repeat' first
    | ((fail_if_no_progress extract_lets +onlyGivenNames x); refine Only.cut (L := [.out, .pan, .log, .links, .rings, .cnt, .perf]) (s := s) (x := x) ?_ ?_; rotate_left; intro hx; clear_value x; rotate_left; dsimp only [x])
    | ((fail_if_no_progress extract_lets +onlyGivenNames x); refine Only.named (b := x.not) ?_; clear_value x)
    | (fail_if_no_progress extract_lets +onlyGivenNames x)
    | with_reducible apply Only.refl
    | with_reducible assumption
    | (with_reducible apply Only.ite <;> intro _)
    | with_reducible (apply Only.step (M := [.out, .links, .rings, .cnt, .perf]); rotate_left; apply sampleDrain_only; decide)
    | with_reducible (apply Only.step (M := [.out, .pan, .log, .links, .rings, .cnt]); rotate_left; apply evDrain_only; decide)
    | with_reducible (apply Only.step (M := [.out]); rotate_left; apply emitOut_only; decide)
    | (fail_if_no_progress (with_reducible (apply Only.step (M := [.rings]); rotate_left; apply set_hif_only_rings; rfl; decide)))
    | with_reducible (refine Only.sndEq (by assumption) ?_)
    | with_reducible (refine Only.fstEq (by assumption) ?_)
    | dsimp only
    | dsimp +zetaDelta only
    | split
    | (clear_value *; split)

theorem afterWrite_only (s0 : State) (s : State) (k : Nat)  : Only [.free, .out, .upd, .tco, .refs, .gbb, .svc, .ptp, .eth, .pan, .log, .line, .pair, .links, .lnk, .rings, .hif, .cnt, .perf, .outs, .tio] s (afterWrite s0 s k) := by
  unfold afterWrite
  repeat' first
    | ((fail_if_no_progress extract_lets +onlyGivenNames x); refine Only.cut (L := [.free, .out, .upd, .tco, .refs, .gbb, .svc, .ptp, .eth, .pan, .log, .line, .pair, .links, .lnk, .rings, .hif, .cnt, .perf, .outs, .tio]) (s := s) (x := x) ?_ ?_; rotate_left; intro hx; clear_value x; rotate_left; dsimp only [x])
    | ((fail_if_no_progress extract_lets +onlyGivenNames x); refine Only.named (b := x.not) ?_; clear_value x)
    | (fail_if_no_progress extract_lets +onlyGivenNames x)
    | with_reducible apply Only.refl
    | with_reducible assumption
    | (with_reducible apply Only.ite <;> intro _)
    | with_reducible (apply Only.step (M := [.out, .tco, .refs, .pan, .log, .line, .links, .rings, .cnt, .outs]); rotate_left; apply tcoWritten_only; decide)
    | with_reducible (apply Only.step (M := [.free, .out, .tco, .refs, .ptp, .eth, .pan, .log, .line, .pair, .links, .lnk, .rings, .hif, .cnt, .outs]); rotate_left; apply refsWritten_only; decide)
    | with_reducible (apply Only.step (M := [.out, .tco, .gbb, .pan, .log, .line, .links, .rings, .cnt, .outs]); rotate_left; apply gbbWritten_only; decide)
    | with_reducible (apply Only.step (M := [.free, .out, .pan, .log, .line, .links, .rings, .cnt, .outs, .tio]); rotate_left; apply tioWritten_only; decide)
    | with_reducible (apply Only.step (M := [.free, .out, .ptp, .eth, .pan, .log, .line, .pair, .links, .rings, .cnt, .outs]); rotate_left; apply ptpWritten_only; decide)
    | with_reducible (apply Only.step (M := [.out, .tco, .refs, .svc, .ptp, .eth, .pan, .log, .line, .links, .lnk, .rings, .hif, .cnt, .outs]); rotate_left; apply ethWritten_only; decide)
    | with_reducible (apply Only.step (M := [.out, .upd, .pan, .log, .line, .pair, .links, .lnk, .rings, .hif, .cnt, .outs]); rotate_left; apply linkGates_only; decide)
    | with_reducible (apply Only.step (M := [.out, .pan, .log, .line, .links, .rings, .cnt, .outs]); rotate_left; apply nodeChanged_only; decide)
    | with_reducible (apply Only.step (M := [.out, .links, .cnt]); rotate_left; apply shelfUpdates_only; decide)
    | with_reducible (apply Only.step (M := [.ptp]); rotate_left; apply keyBack_only; decide)
    | with_reducible (apply Only.step (M := [.out, .pan, .log, .links, .rings, .cnt, .perf]); rotate_left; apply hifWritten_only; decide)
    | (fail_if_no_progress (with_reducible (apply Only.step (M := [.perf]); rotate_left; apply set_perf_only_perf; rfl; decide)))
    | with_reducible (refine Only.sndEq (by assumption) ?_)
    | with_reducible (refine Only.fstEq (by assumption) ?_)
    | dsimp only
    | dsimp +zetaDelta only
    | split
    | (clear_value *; split)

theorem applyWord_only (s : State) (k : Nat) (v : Word)  : Only [.free, .out, .words, .mismatch, .upd, .tco, .refs, .gbb, .svc, .ptp, .eth, .pan, .log, .line, .pair, .links, .lnk, .rings, .hif, .cnt, .perf, .outs, .tio] s (applyWord s k v) := by
  unfold applyWord
  repeat' first
    | ((fail_if_no_progress extract_lets +onlyGivenNames x); refine Only.cut (L := [.free, .out, .words, .mismatch, .upd, .tco, .refs, .gbb, .svc, .ptp, .eth, .pan, .log, .line, .pair, .links, .lnk, .rings, .hif, .cnt, .perf, .outs, .tio]) (s := s) (x := x) ?_ ?_; rotate_left; intro hx; clear_value x; rotate_left; dsimp only [x])
    | ((fail_if_no_progress extract_lets +onlyGivenNames x); refine Only.named (b := x.not) ?_; clear_value x)
    | (fail_if_no_progress extract_lets +onlyGivenNames x)
    | with_reducible apply Only.refl
    | with_reducible assumption
    | (with_reducible apply Only.ite <;> intro _)
    | with_reducible (apply Only.step (M := [.svc]); rotate_left; apply svcRefill_only; decide)
    | with_reducible (apply Only.step (M := [.out, .pan, .log, .line, .links, .rings, .cnt, .outs]); rotate_left; exact adjustWord_only_eq ‹_›; decide)
    | with_reducible (apply Only.step (M := [.out, .pan, .log, .line, .links, .rings, .cnt, .outs]); rotate_left; apply adjustWord_only; decide)
    | with_reducible (apply Only.step (M := [.free, .out, .upd, .tco, .refs, .gbb, .svc, .ptp, .eth, .pan, .log, .line, .pair, .links, .lnk, .rings, .hif, .cnt, .perf, .outs, .tio]); rotate_left; apply afterWrite_only; decide)
    | with_reducible (apply Only.step (M := [.words, .mismatch]); rotate_left; apply putW_only; decide)
    | with_reducible (refine Only.sndEq (by assumption) ?_)
    | with_reducible (refine Only.fstEq (by assumption) ?_)
    | dsimp only
    | dsimp +zetaDelta only
    | split
    | (clear_value *; split)

theorem reparity_only (s : State) (k : Nat)  : Only [.mismatch] s (reparity s k) := by
  unfold reparity
  repeat' first
    | ((fail_if_no_progress extract_lets +onlyGivenNames x); refine Only.cut (L := [.mismatch]) (s := s) (x := x) ?_ ?_; rotate_left; intro hx; clear_value x; rotate_left; dsimp only [x])
    | ((fail_if_no_progress extract_lets +onlyGivenNames x); refine Only.named (b := x.not) ?_; clear_value x)
    | (fail_if_no_progress extract_lets +onlyGivenNames x)
    | with_reducible apply Only.refl
    | with_reducible assumption
    | (with_reducible apply Only.ite <;> intro _)
    | (fail_if_no_progress (with_reducible (apply Only.step (M := [.mismatch]); rotate_left; apply set_mismatch_only; decide)))
    | with_reducible (refine Only.sndEq (by assumption) ?_)
    | with_reducible (refine Only.fstEq (by assumption) ?_)
    | dsimp only
    | dsimp +zetaDelta only
    | split
    | (clear_value *; split)

theorem ringBusy_only (s : State) (r : Nat) (w : Nat)  : Only [.out, .pan, .log, .line, .links, .rings, .cnt, .outs] s (ringBusy s r w) := by
  unfold ringBusy
  repeat' first
    | ((fail_if_no_progress extract_lets +onlyGivenNames x); refine Only.cut (L := [.out, .pan, .log, .line, .links, .rings, .cnt, .outs]) (s := s) (x := x) ?_ ?_; rotate_left; intro hx; clear_value x; rotate_left; dsimp only [x])
    | ((fail_if_no_progress extract_lets +onlyGivenNames x); refine Only.named (b := x.not) ?_; clear_value x)
    | (fail_if_no_progress extract_lets +onlyGivenNames x)
    | with_reducible apply Only.refl
    | with_reducible assumption
    | (with_reducible apply Only.ite <;> intro _)
    | with_reducible (apply Only.step (M := [.out, .pan, .log, .line, .links, .rings, .cnt, .outs]); rotate_left; apply emit_only; decide)
    | with_reducible (refine Only.sndEq (by assumption) ?_)
    | with_reducible (refine Only.fstEq (by assumption) ?_)
    | dsimp only
    | dsimp +zetaDelta only
    | split
    | (clear_value *; split)

theorem ringEnable_only (s : State) (r : Nat) (v : Word)  : Only [.out, .words, .mismatch, .pan, .log, .line, .links, .rings, .cnt, .perf, .outs] s (ringEnable s r v) := by
  unfold ringEnable
  repeat' first
    | ((fail_if_no_progress extract_lets +onlyGivenNames x); refine Only.cut (L := [.out, .words, .mismatch, .pan, .log, .line, .links, .rings, .cnt, .perf, .outs]) (s := s) (x := x) ?_ ?_; rotate_left; intro hx; clear_value x; rotate_left; dsimp only [x])
    | ((fail_if_no_progress extract_lets +onlyGivenNames x); refine Only.named (b := x.not) ?_; clear_value x)
    | (fail_if_no_progress extract_lets +onlyGivenNames x)
    | with_reducible apply Only.refl
    | with_reducible assumption
    | (with_reducible apply Only.ite <;> intro _)
    | with_reducible (apply Only.step (M := [.out, .pan, .log, .line, .links, .rings, .cnt, .outs]); rotate_left; apply ringBusy_only; decide)
    | with_reducible (apply Only.step (M := [.words, .mismatch]); rotate_left; apply putW_only; decide)
    | with_reducible (apply Only.step (M := [.rings]); rotate_left; apply modRing_only; decide)
    | with_reducible (apply Only.step (M := [.out, .pan, .log, .links, .rings, .cnt]); rotate_left; apply evDrain_only; decide)
    | with_reducible (apply Only.step (M := [.out, .links, .rings, .cnt, .perf]); rotate_left; apply sampleDrain_only; decide)
    | with_reducible (refine Only.sndEq (by assumption) ?_)
    | with_reducible (refine Only.fstEq (by assumption) ?_)
    | dsimp only
    | dsimp +zetaDelta only
    | split
    | (clear_value *; split)

theorem ringWrite_only (s : State) (i : Nat) (v : Word)  : Only [.free, .out, .words, .mismatch, .upd, .tco, .refs, .gbb, .svc, .ptp, .eth, .pan, .log, .line, .pair, .links, .lnk, .rings, .hif, .cnt, .perf, .outs, .tio] s (ringWrite s i v) := by
  unfold ringWrite
  repeat' first
    | ((fail_if_no_progress extract_lets +onlyGivenNames x); refine Only.cut (L := [.free, .out, .words, .mismatch, .upd, .tco, .refs, .gbb, .svc, .ptp, .eth, .pan, .log, .line, .pair, .links, .lnk, .rings, .hif, .cnt, .perf, .outs, .tio]) (s := s) (x := x) ?_ ?_; rotate_left; intro hx; clear_value x; rotate_left; dsimp only [x])
    | ((fail_if_no_progress extract_lets +onlyGivenNames x); refine Only.named (b := x.not) ?_; clear_value x)
    | (fail_if_no_progress extract_lets +onlyGivenNames x)
    | with_reducible apply Only.refl
    | with_reducible assumption
    | (with_reducible apply Only.ite <;> intro _)
    | with_reducible (apply Only.step (M := [.out, .words, .mismatch, .pan, .log, .line, .links, .rings, .cnt, .perf, .outs]); rotate_left; apply ringEnable_only; decide)
    | with_reducible (apply Only.step (M := [.out, .pan, .log, .line, .links, .rings, .cnt, .outs]); rotate_left; apply ringBusy_only; decide)
    | with_reducible (apply Only.step (M := [.free, .out, .words, .mismatch, .upd, .tco, .refs, .gbb, .svc, .ptp, .eth, .pan, .log, .line, .pair, .links, .lnk, .rings, .hif, .cnt, .perf, .outs, .tio]); rotate_left; apply applyWord_only; decide)
    | with_reducible (refine Only.sndEq (by assumption) ?_)
    | with_reducible (refine Only.fstEq (by assumption) ?_)
    | dsimp only
    | dsimp +zetaDelta only
    | split
    | (clear_value *; split)

theorem storeWord_only (s : State) (k : Nat) (v : Word)  : Only [.free, .out, .words, .mismatch, .upd, .tco, .refs, .gbb, .svc, .ptp, .eth, .pan, .log, .line, .pair, .links, .lnk, .rings, .hif, .cnt, .perf, .outs, .tio] s (storeWord s k v) := by
  unfold storeWord
  repeat' first
    | ((fail_if_no_progress extract_lets +onlyGivenNames x); refine Only.cut (L := [.free, .out, .words, .mismatch, .upd, .tco, .refs, .gbb, .svc, .ptp, .eth, .pan, .log, .line, .pair, .links, .lnk, .rings, .hif, .cnt, .perf, .outs, .tio]) (s := s) (x := x) ?_ ?_; rotate_left; intro hx; clear_value x; rotate_left; dsimp only [x])
    | ((fail_if_no_progress extract_lets +onlyGivenNames x); refine Only.named (b := x.not) ?_; clear_value x)
    | (fail_if_no_progress extract_lets +onlyGivenNames x)
    | with_reducible apply Only.refl
    | with_reducible assumption
    | (with_reducible apply Only.ite <;> intro _)
    | with_reducible (apply Only.step (M := [.out, .pan, .log, .line, .links, .rings, .cnt, .outs]); rotate_left; apply emit_only; decide)
    | with_reducible (apply Only.step (M := [.free, .out, .words, .mismatch, .upd, .tco, .refs, .gbb, .svc, .ptp, .eth, .pan, .log, .line, .pair, .links, .lnk, .rings, .hif, .cnt, .perf, .outs, .tio]); rotate_left; apply ringWrite_only; decide)
    | with_reducible (apply Only.step (M := [.free, .out, .words, .mismatch, .upd, .tco, .refs, .gbb, .svc, .ptp, .eth, .pan, .log, .line, .pair, .links, .lnk, .rings, .hif, .cnt, .perf, .outs, .tio]); rotate_left; apply applyWord_only; decide)
    | with_reducible (apply Only.step (M := [.out, .pair, .links, .cnt]); rotate_left; apply mirrorSend_only; decide)
    | with_reducible (refine Only.sndEq (by assumption) ?_)
    | with_reducible (refine Only.fstEq (by assumption) ?_)
    | dsimp only
    | dsimp +zetaDelta only
    | split
    | (clear_value *; split)

end Sys2Proof.Laws
end

