-- ==== Sys2Proof/Laws/RegRead.lean ====
section
/-! SUPPORT. What each operation of Machine/RegRead.lean can touch, once for each. -/
set_option linter.unusedTactic false
set_option linter.unreachableTactic false
namespace Sys2Proof.Laws
open Sys2Proof
open Sys2Proof.Machine
open Sys2Proof.Safety

theorem perfPair_only (s : State) (i : Nat)  : Only [.free] s (perfPair s i).2.2 := by
  unfold perfPair
  repeat' first
    | ((fail_if_no_progress extract_lets +onlyGivenNames x); refine Only.cut (L := [.free]) (s := s) (x := x) ?_ ?_; rotate_left; intro hx; clear_value x; rotate_left; dsimp only [x])
    | ((fail_if_no_progress extract_lets +onlyGivenNames x); refine Only.named (b := x.not) ?_; clear_value x)
    | (fail_if_no_progress extract_lets +onlyGivenNames x)
    | with_reducible apply Only.refl
    | with_reducible assumption
    | (with_reducible apply Only.ite <;> intro _)
    | with_reducible (apply Only.step (M := [.free]); rotate_left; exact freeN_only_eq ‹_›; decide)
    | with_reducible (apply Only.step (M := [.free]); rotate_left; apply freeN_only; decide)
    | with_reducible (refine Only.sndEq (by assumption) ?_)
    | with_reducible (refine Only.fstEq (by assumption) ?_)
    | dsimp only
    | dsimp +zetaDelta only
    | split
    | (clear_value *; split)
theorem perfPair_only_eq {s : State} {i : Nat} {r1} {r2} {t0 : State} (hEq : perfPair s i = (r1, (r2, t0))) : Only [.free] s t0 := by
  have k0 := perfPair_only s i
  rw [hEq] at k0; exact k0

theorem readInd_only (s : State) (b : Blk) (space : Nat) (i : Nat)  : Only [.free] s (readInd s b space i).2 := by
  unfold readInd
  repeat' first
    | ((fail_if_no_progress extract_lets +onlyGivenNames x); refine Only.cut (L := [.free]) (s := s) (x := x) ?_ ?_; rotate_left; intro hx; clear_value x; rotate_left; dsimp only [x])
    | ((fail_if_no_progress extract_lets +onlyGivenNames x); refine Only.named (b := x.not) ?_; clear_value x)
    | (fail_if_no_progress extract_lets +onlyGivenNames x)
    | with_reducible apply Only.refl
    | with_reducible assumption
    | (with_reducible apply Only.ite <;> intro _)
    | with_reducible (apply Only.step (M := [.free]); rotate_left; exact perfPair_only_eq ‹_›; decide)
    | with_reducible (apply Only.step (M := [.free]); rotate_left; apply perfPair_only; decide)
    | with_reducible (refine Only.sndEq (by assumption) ?_)
    | with_reducible (refine Only.fstEq (by assumption) ?_)
    | dsimp only
    | dsimp +zetaDelta only
    | split
    | (clear_value *; split)
theorem readInd_only_eq {s : State} {b : Blk} {space : Nat} {i : Nat} {r1} {t0 : State} (hEq : readInd s b space i = (r1, t0)) : Only [.free] s t0 := by
  have k0 := readInd_only s b space i
  rw [hEq] at k0; exact k0

end Sys2Proof.Laws
end

