-- ==== Sys2Proof/Laws/RegAccess.lean ====
section
/-! SUPPORT. What each operation of Machine/RegAccess.lean can touch, once for each. -/
set_option linter.unusedTactic false
set_option linter.unreachableTactic false
namespace Sys2Proof.Laws
open Sys2Proof
open Sys2Proof.Machine
open Sys2Proof.Safety

theorem accRec_only (s : State) (code : Nat) (off : Nat) (be : Nat) (write : Bool) (tun : Bool) (hi : Nat)  : Only [.out, .glb, .pan, .log, .line, .links, .rings, .cnt, .outs] s (accRec s code off be write tun hi) := by
  unfold accRec
  repeat' first
    | ((fail_if_no_progress extract_lets +onlyGivenNames x); refine Only.cut (L := [.out, .glb, .pan, .log, .line, .links, .rings, .cnt, .outs]) (s := s) (x := x) ?_ ?_; rotate_left; intro hx; clear_value x; rotate_left; dsimp only [x])
    | ((fail_if_no_progress extract_lets +onlyGivenNames x); refine Only.named (b := x.not) ?_; clear_value x)
    | (fail_if_no_progress extract_lets +onlyGivenNames x)
    | with_reducible apply Only.refl
    | with_reducible assumption
    | (with_reducible apply Only.ite <;> intro _)
    | with_reducible (apply Only.step (M := [.out, .pan, .log, .line, .links, .rings, .cnt, .outs]); rotate_left; apply emit_only; decide)
    | (fail_if_no_progress (with_reducible (apply Only.step (M := [.glb]); rotate_left; apply set_glb_only; decide)))
    | with_reducible (refine Only.sndEq (by assumption) ?_)
    | with_reducible (refine Only.fstEq (by assumption) ?_)
    | dsimp only
    | dsimp +zetaDelta only
    | split
    | (clear_value *; split)

theorem testKeyWrite_only (s : State) (v : Word)  : Only [.glb] s (testKeyWrite s v) := by
  unfold testKeyWrite
  repeat' first
    | ((fail_if_no_progress extract_lets +onlyGivenNames x); refine Only.cut (L := [.glb]) (s := s) (x := x) ?_ ?_; rotate_left; intro hx; clear_value x; rotate_left; dsimp only [x])
    | ((fail_if_no_progress extract_lets +onlyGivenNames x); refine Only.named (b := x.not) ?_; clear_value x)
    | (fail_if_no_progress extract_lets +onlyGivenNames x)
    | with_reducible apply Only.refl
    | with_reducible assumption
    | (with_reducible apply Only.ite <;> intro _)
    | (fail_if_no_progress (with_reducible (apply Only.step (M := [.glb]); rotate_left; apply set_glb_only; decide)))
    | with_reducible (refine Only.sndEq (by assumption) ?_)
    | with_reducible (refine Only.fstEq (by assumption) ?_)
    | dsimp only
    | dsimp +zetaDelta only
    | split
    | (clear_value *; split)

theorem mbxDiscard_only (s : State) (sel : Nat) (busy : Bool) (tun : Bool)  : Only [.out, .glb, .pan, .log, .line, .links, .rings, .cnt, .outs] s (mbxDiscard s sel busy tun) := by
  unfold mbxDiscard
  repeat' first
    | ((fail_if_no_progress extract_lets +onlyGivenNames x); refine Only.cut (L := [.out, .glb, .pan, .log, .line, .links, .rings, .cnt, .outs]) (s := s) (x := x) ?_ ?_; rotate_left; intro hx; clear_value x; rotate_left; dsimp only [x])
    | ((fail_if_no_progress extract_lets +onlyGivenNames x); refine Only.named (b := x.not) ?_; clear_value x)
    | (fail_if_no_progress extract_lets +onlyGivenNames x)
    | with_reducible apply Only.refl
    | with_reducible assumption
    | (with_reducible apply Only.ite <;> intro _)
    | with_reducible (apply Only.step (M := [.out, .glb, .pan, .log, .line, .links, .rings, .cnt, .outs]); rotate_left; apply accRec_only; decide)
    | with_reducible (refine Only.sndEq (by assumption) ?_)
    | with_reducible (refine Only.fstEq (by assumption) ?_)
    | dsimp only
    | dsimp +zetaDelta only
    | split
    | (clear_value *; split)

theorem mbxLatch_only (s : State) (width : BitVec 2) (err : Bool) (data : Nat)  : Only [.glb] s (mbxLatch s width err data) := by
  unfold mbxLatch
  repeat' first
    | ((fail_if_no_progress extract_lets +onlyGivenNames x); refine Only.cut (L := [.glb]) (s := s) (x := x) ?_ ?_; rotate_left; intro hx; clear_value x; rotate_left; dsimp only [x])
    | ((fail_if_no_progress extract_lets +onlyGivenNames x); refine Only.named (b := x.not) ?_; clear_value x)
    | (fail_if_no_progress extract_lets +onlyGivenNames x)
    | with_reducible apply Only.refl
    | with_reducible assumption
    | (with_reducible apply Only.ite <;> intro _)
    | (fail_if_no_progress (with_reducible (apply Only.step (M := [.glb]); rotate_left; apply set_glb_only; decide)))
    | with_reducible (refine Only.sndEq (by assumption) ?_)
    | with_reducible (refine Only.fstEq (by assumption) ?_)
    | dsimp only
    | dsimp +zetaDelta only
    | split
    | (clear_value *; split)

theorem mbxGo_only (s : State) (tun : Bool)  : Only [.out, .glb, .mem, .svc, .ptp, .eth, .pan, .log, .line, .links, .lnk, .rings, .hif, .cnt, .perf, .outs] s (mbxGo s tun) := by
  unfold mbxGo
  repeat' first
    | ((fail_if_no_progress extract_lets +onlyGivenNames x); refine Only.cut (L := [.out, .glb, .mem, .svc, .ptp, .eth, .pan, .log, .line, .links, .lnk, .rings, .hif, .cnt, .perf, .outs]) (s := s) (x := x) ?_ ?_; rotate_left; intro hx; clear_value x; rotate_left; dsimp only [x])
    | ((fail_if_no_progress extract_lets +onlyGivenNames x); refine Only.named (b := x.not) ?_; clear_value x)
    | (fail_if_no_progress extract_lets +onlyGivenNames x)
    | with_reducible apply Only.refl
    | with_reducible assumption
    | (with_reducible apply Only.ite <;> intro _)
    | with_reducible (apply Only.step (M := [.glb, .svc, .ptp, .eth, .links, .lnk, .hif, .log, .perf, .mem]); rotate_left; exact wideOf_only ‹_›; decide)
    | with_reducible (apply Only.step (M := [.out, .glb, .pan, .log, .line, .links, .rings, .cnt, .outs]); rotate_left; apply mbxDiscard_only; decide)
    | with_reducible (apply Only.step (M := [.glb]); rotate_left; apply mbxLatch_only; decide)
    | with_reducible (apply Only.step (M := [.out, .glb, .pan, .log, .line, .links, .rings, .cnt, .outs]); rotate_left; apply accRec_only; decide)
    | with_reducible (apply Only.step (M := [.glb, .mem, .svc, .ptp, .eth, .log, .links, .lnk, .hif, .perf]); rotate_left; apply Wide_after_only; decide)
    | with_reducible (refine Only.sndEq (by assumption) ?_)
    | with_reducible (refine Only.fstEq (by assumption) ?_)
    | dsimp only
    | dsimp +zetaDelta only
    | split
    | (clear_value *; split)

theorem mbxAckWrite_only (s : State)  : Only [.glb] s (mbxAckWrite s) := by
  unfold mbxAckWrite
  repeat' first
    | ((fail_if_no_progress extract_lets +onlyGivenNames x); refine Only.cut (L := [.glb]) (s := s) (x := x) ?_ ?_; rotate_left; intro hx; clear_value x; rotate_left; dsimp only [x])
    | ((fail_if_no_progress extract_lets +onlyGivenNames x); refine Only.named (b := x.not) ?_; clear_value x)
    | (fail_if_no_progress extract_lets +onlyGivenNames x)
    | with_reducible apply Only.refl
    | with_reducible assumption
    | (with_reducible apply Only.ite <;> intro _)
    | (fail_if_no_progress (with_reducible (apply Only.step (M := [.glb]); rotate_left; apply set_glb_only; decide)))
    | with_reducible (refine Only.sndEq (by assumption) ?_)
    | with_reducible (refine Only.fstEq (by assumption) ?_)
    | dsimp only
    | dsimp +zetaDelta only
    | split
    | (clear_value *; split)

theorem chkWrite_only (s : State) (v : Word)  : Only [.free, .out, .words, .mismatch, .mem, .upd, .tco, .refs, .gbb, .svc, .ptp, .eth, .pan, .log, .line, .pair, .links, .lnk, .rings, .hif, .cnt, .perf, .outs, .tio] s (chkWrite s v) := by
  unfold chkWrite
  repeat' first
    | ((fail_if_no_progress extract_lets +onlyGivenNames x); refine Only.cut (L := [.free, .out, .words, .mismatch, .mem, .upd, .tco, .refs, .gbb, .svc, .ptp, .eth, .pan, .log, .line, .pair, .links, .lnk, .rings, .hif, .cnt, .perf, .outs, .tio]) (s := s) (x := x) ?_ ?_; rotate_left; intro hx; clear_value x; rotate_left; dsimp only [x])
    | ((fail_if_no_progress extract_lets +onlyGivenNames x); refine Only.named (b := x.not) ?_; clear_value x)
    | (fail_if_no_progress extract_lets +onlyGivenNames x)
    | with_reducible apply Only.refl
    | with_reducible assumption
    | (with_reducible apply Only.ite <;> intro _)
    | with_reducible (apply Only.step (M := [.free, .out, .words, .mismatch, .upd, .tco, .refs, .gbb, .svc, .ptp, .eth, .pan, .log, .line, .pair, .links, .lnk, .rings, .hif, .cnt, .perf, .outs, .tio]); rotate_left; apply applyWord_only; decide)
    | (fail_if_no_progress (with_reducible (apply Only.step (M := [.mem]); rotate_left; apply set_mem_only; decide)))
    | with_reducible (refine Only.sndEq (by assumption) ?_)
    | with_reducible (refine Only.fstEq (by assumption) ?_)
    | dsimp only
    | dsimp +zetaDelta only
    | split
    | (clear_value *; split)

theorem tamperEnWrite_only (s : State) (v : Word)  : Only [.out, .key, .pan, .log, .line, .links, .rings, .cnt, .outs] s (tamperEnWrite s v) := by
  unfold tamperEnWrite
  repeat' first
    | ((fail_if_no_progress extract_lets +onlyGivenNames x); refine Only.cut (L := [.out, .key, .pan, .log, .line, .links, .rings, .cnt, .outs]) (s := s) (x := x) ?_ ?_; rotate_left; intro hx; clear_value x; rotate_left; dsimp only [x])
    | ((fail_if_no_progress extract_lets +onlyGivenNames x); refine Only.named (b := x.not) ?_; clear_value x)
    | (fail_if_no_progress extract_lets +onlyGivenNames x)
    | with_reducible apply Only.refl
    | with_reducible assumption
    | (with_reducible apply Only.ite <;> intro _)
    | with_reducible (apply Only.step (M := [.out, .pan, .log, .line, .links, .rings, .cnt, .outs]); rotate_left; apply emit_only; decide)
    | with_reducible (apply Only.step (M := [.key]); rotate_left; apply modKey_only; decide)
    | with_reducible (refine Only.sndEq (by assumption) ?_)
    | with_reducible (refine Only.fstEq (by assumption) ?_)
    | dsimp only
    | dsimp +zetaDelta only
    | split
    | (clear_value *; split)

theorem recordAfresh_only (s : State) (b : Blk) (u : Unack)  : Only [.out, .pan, .log, .line, .links, .rings, .cnt, .outs] s (recordAfresh s b u) := by
  unfold recordAfresh
  repeat' first
    | ((fail_if_no_progress extract_lets +onlyGivenNames x); refine Only.cut (L := [.out, .pan, .log, .line, .links, .rings, .cnt, .outs]) (s := s) (x := x) ?_ ?_; rotate_left; intro hx; clear_value x; rotate_left; dsimp only [x])
    | ((fail_if_no_progress extract_lets +onlyGivenNames x); refine Only.named (b := x.not) ?_; clear_value x)
    | (fail_if_no_progress extract_lets +onlyGivenNames x)
    | with_reducible apply Only.refl
    | with_reducible assumption
    | (with_reducible apply Only.ite <;> intro _)
    | with_reducible (apply Only.step (M := [.out, .pan, .log, .line, .links, .rings, .cnt, .outs]); rotate_left; apply emit_only; decide)
    | with_reducible (apply Only.step (M := [.log]); rotate_left; apply modBlk_only; decide)
    | with_reducible (refine Only.sndEq (by assumption) ?_)
    | with_reducible (refine Only.fstEq (by assumption) ?_)
    | dsimp only
    | dsimp +zetaDelta only
    | split
    | (clear_value *; split)

theorem leaveSafe_only (s : State) (b : Blk)  : Only [.out, .tco, .refs, .ptp, .pan, .log, .line, .links, .lnk, .rings, .hif, .cnt, .outs] s (leaveSafe s b) := by
  unfold leaveSafe
  repeat' first
    | ((fail_if_no_progress extract_lets +onlyGivenNames x); refine Only.cut (L := [.out, .tco, .refs, .ptp, .pan, .log, .line, .links, .lnk, .rings, .hif, .cnt, .outs]) (s := s) (x := x) ?_ ?_; rotate_left; intro hx; clear_value x; rotate_left; dsimp only [x])
    | ((fail_if_no_progress extract_lets +onlyGivenNames x); refine Only.named (b := x.not) ?_; clear_value x)
    | (fail_if_no_progress extract_lets +onlyGivenNames x)
    | with_reducible apply Only.refl
    | with_reducible assumption
    | (with_reducible apply Only.ite <;> intro _)
    | with_reducible (apply Only.step (M := [.log]); rotate_left; apply modBlk_only; decide)
    | with_reducible (apply Only.step (M := [.out, .tco, .refs, .pan, .log, .line, .links, .rings, .cnt, .outs]); rotate_left; apply clockEval_only; decide)
    | with_reducible (apply Only.step (M := [.out, .tco, .refs, .pan, .log, .line, .links, .lnk, .rings, .hif, .cnt, .outs]); rotate_left; apply selEval_only; decide)
    | with_reducible (apply Only.step (M := [.out, .outs]); rotate_left; apply refreshOuts_only; decide)
    | with_reducible (apply Only.step (M := [.ptp]); rotate_left; apply keyBack_only; decide)
    | with_reducible (refine Only.sndEq (by assumption) ?_)
    | with_reducible (refine Only.fstEq (by assumption) ?_)
    | dsimp only
    | dsimp +zetaDelta only
    | split
    | (clear_value *; split)

theorem sqClear_only (s : State) (b : Blk) (v : Word)  : Only [.out, .tco, .refs, .ptp, .pan, .log, .line, .links, .lnk, .rings, .hif, .cnt, .outs] s (sqClear s b v) := by
  unfold sqClear
  repeat' first
    | ((fail_if_no_progress extract_lets +onlyGivenNames x); refine Only.cut (L := [.out, .tco, .refs, .ptp, .pan, .log, .line, .links, .lnk, .rings, .hif, .cnt, .outs]) (s := s) (x := x) ?_ ?_; rotate_left; intro hx; clear_value x; rotate_left; dsimp only [x])
    | ((fail_if_no_progress extract_lets +onlyGivenNames x); refine Only.named (b := x.not) ?_; clear_value x)
    | (fail_if_no_progress extract_lets +onlyGivenNames x)
    | (with_reducible apply Only.foldl; (intro _ _ _))
    | (with_reducible apply Only.foldlFst; (intro _ _ _))
    | with_reducible apply Only.refl
    | with_reducible assumption
    | (with_reducible apply Only.ite <;> intro _)
    | with_reducible (apply Only.step (M := [.log]); rotate_left; apply modBlk_only; decide)
    | with_reducible (apply Only.step (M := [.out, .pan, .log, .line, .links, .rings, .cnt, .outs]); rotate_left; apply recordAfresh_only; decide)
    | with_reducible (apply Only.step (M := [.out, .tco, .refs, .ptp, .pan, .log, .line, .links, .lnk, .rings, .hif, .cnt, .outs]); rotate_left; apply leaveSafe_only; decide)
    | with_reducible (refine Only.sndEq (by assumption) ?_)
    | with_reducible (refine Only.fstEq (by assumption) ?_)
    | dsimp only
    | dsimp +zetaDelta only
    | split
    | (clear_value *; split)

theorem indStep_only (s : State) (b : Blk)  : Only [.words, .mismatch] s (indStep s b) := by
  unfold indStep
  repeat' first
    | ((fail_if_no_progress extract_lets +onlyGivenNames x); refine Only.cut (L := [.words, .mismatch]) (s := s) (x := x) ?_ ?_; rotate_left; intro hx; clear_value x; rotate_left; dsimp only [x])
    | ((fail_if_no_progress extract_lets +onlyGivenNames x); refine Only.named (b := x.not) ?_; clear_value x)
    | (fail_if_no_progress extract_lets +onlyGivenNames x)
    | with_reducible apply Only.refl
    | with_reducible assumption
    | (with_reducible apply Only.ite <;> intro _)
    | with_reducible (apply Only.step (M := [.words, .mismatch]); rotate_left; apply putW_only; decide)
    | with_reducible (refine Only.sndEq (by assumption) ?_)
    | with_reducible (refine Only.fstEq (by assumption) ?_)
    | dsimp only
    | dsimp +zetaDelta only
    | split
    | (clear_value *; split)

theorem indWrite_only (s : State) (b : Blk) (v : Word) (tun : Bool)  : Only [.free, .out, .words, .mismatch, .glb, .upd, .tco, .refs, .gbb, .svc, .ptp, .eth, .pan, .log, .line, .pair, .links, .lnk, .rings, .hif, .cnt, .perf, .outs, .tio] s (indWrite s b v tun) := by
  unfold indWrite
  repeat' first
    | ((fail_if_no_progress extract_lets +onlyGivenNames x); refine Only.cut (L := [.free, .out, .words, .mismatch, .glb, .upd, .tco, .refs, .gbb, .svc, .ptp, .eth, .pan, .log, .line, .pair, .links, .lnk, .rings, .hif, .cnt, .perf, .outs, .tio]) (s := s) (x := x) ?_ ?_; rotate_left; intro hx; clear_value x; rotate_left; dsimp only [x])
    | ((fail_if_no_progress extract_lets +onlyGivenNames x); refine Only.named (b := x.not) ?_; clear_value x)
    | (fail_if_no_progress extract_lets +onlyGivenNames x)
    | with_reducible apply Only.refl
    | with_reducible assumption
    | (with_reducible apply Only.ite <;> intro _)
    | with_reducible (apply Only.step (M := [.out, .glb, .pan, .log, .line, .links, .rings, .cnt, .outs]); rotate_left; apply accRec_only; decide)
    | with_reducible (apply Only.step (M := [.free, .out, .words, .mismatch, .upd, .tco, .refs, .gbb, .svc, .ptp, .eth, .pan, .log, .line, .pair, .links, .lnk, .rings, .hif, .cnt, .perf, .outs, .tio]); rotate_left; apply storeWord_only; decide)
    | with_reducible (apply Only.step (M := [.words, .mismatch]); rotate_left; apply indStep_only; decide)
    | with_reducible (refine Only.sndEq (by assumption) ?_)
    | with_reducible (refine Only.fstEq (by assumption) ?_)
    | dsimp only
    | dsimp +zetaDelta only
    | split
    | (clear_value *; split)

theorem regApply_only (s : State) (b : Blk) (off : Nat) (v : Word) (tun : Bool)  : Only [.free, .out, .words, .mismatch, .glb, .mem, .pwr, .upd, .tco, .refs, .gbb, .svc, .ptp, .eth, .key, .pan, .log, .line, .pair, .links, .lnk, .rings, .hif, .cnt, .perf, .outs, .tio] s (regApply s b off v tun) := by
  unfold regApply
  repeat' first
    | ((fail_if_no_progress extract_lets +onlyGivenNames x); refine Only.cut (L := [.free, .out, .words, .mismatch, .glb, .mem, .pwr, .upd, .tco, .refs, .gbb, .svc, .ptp, .eth, .key, .pan, .log, .line, .pair, .links, .lnk, .rings, .hif, .cnt, .perf, .outs, .tio]) (s := s) (x := x) ?_ ?_; rotate_left; intro hx; clear_value x; rotate_left; dsimp only [x])
    | ((fail_if_no_progress extract_lets +onlyGivenNames x); refine Only.named (b := x.not) ?_; clear_value x)
    | (fail_if_no_progress extract_lets +onlyGivenNames x)
    | with_reducible apply Only.refl
    | with_reducible assumption
    | (with_reducible apply Only.ite <;> intro _)
    | with_reducible (apply Only.step (M := [.mismatch]); rotate_left; apply reparity_only; decide)
    | with_reducible (apply Only.step (M := [.glb]); rotate_left; apply testKeyWrite_only; decide)
    | with_reducible (apply Only.step (M := [.out, .glb, .mem, .svc, .ptp, .eth, .pan, .log, .line, .links, .lnk, .rings, .hif, .cnt, .perf, .outs]); rotate_left; apply mbxGo_only; decide)
    | with_reducible (apply Only.step (M := [.glb]); rotate_left; apply mbxAckWrite_only; decide)
    | with_reducible (apply Only.step (M := [.free, .out, .words, .mismatch, .mem, .upd, .tco, .refs, .gbb, .svc, .ptp, .eth, .pan, .log, .line, .pair, .links, .lnk, .rings, .hif, .cnt, .perf, .outs, .tio]); rotate_left; apply chkWrite_only; decide)
    | with_reducible (apply Only.step (M := [.out, .key, .pan, .log, .line, .links, .rings, .cnt, .outs]); rotate_left; apply tamperEnWrite_only; decide)
    | with_reducible (apply Only.step (M := [.key]); rotate_left; apply modKey_only; decide)
    | with_reducible (apply Only.step (M := [.out, .tco, .refs, .ptp, .pan, .log, .line, .links, .lnk, .rings, .hif, .cnt, .outs]); rotate_left; apply sqClear_only; decide)
    | with_reducible (apply Only.step (M := [.free, .out, .words, .mismatch, .glb, .upd, .tco, .refs, .gbb, .svc, .ptp, .eth, .pan, .log, .line, .pair, .links, .lnk, .rings, .hif, .cnt, .perf, .outs, .tio]); rotate_left; apply indWrite_only; decide)
    | with_reducible (apply Only.step (M := [.free, .out, .words, .mismatch, .upd, .tco, .refs, .gbb, .svc, .ptp, .eth, .pan, .log, .line, .pair, .links, .lnk, .rings, .hif, .cnt, .perf, .outs, .tio]); rotate_left; apply storeWord_only; decide)
    | (fail_if_no_progress (with_reducible (apply Only.step (M := [.cnt]); rotate_left; apply set_perf_only_cnt; rfl; decide)))
    | (fail_if_no_progress (with_reducible (apply Only.step (M := [.glb]); rotate_left; apply set_glb_only; decide)))
    | (fail_if_no_progress (with_reducible (apply Only.step (M := [.pwr]); rotate_left; apply set_pwr_only; decide)))
    | with_reducible (refine Only.sndEq (by assumption) ?_)
    | with_reducible (refine Only.fstEq (by assumption) ?_)
    | dsimp only
    | dsimp +zetaDelta only
    | split
    | (clear_value *; split)

theorem unitWrite_only (s : State) (off : Nat) (be : Nat) (v : Word) (tun : Bool)  : Only [.free, .out, .words, .mismatch, .glb, .mem, .pwr, .upd, .tco, .refs, .gbb, .svc, .ptp, .eth, .key, .pan, .log, .line, .pair, .links, .lnk, .rings, .hif, .cnt, .perf, .outs, .tio] s (unitWrite s off be v tun) := by
  unfold unitWrite
  repeat' first
    | ((fail_if_no_progress extract_lets +onlyGivenNames x); refine Only.cut (L := [.free, .out, .words, .mismatch, .glb, .mem, .pwr, .upd, .tco, .refs, .gbb, .svc, .ptp, .eth, .key, .pan, .log, .line, .pair, .links, .lnk, .rings, .hif, .cnt, .perf, .outs, .tio]) (s := s) (x := x) ?_ ?_; rotate_left; intro hx; clear_value x; rotate_left; dsimp only [x])
    | ((fail_if_no_progress extract_lets +onlyGivenNames x); refine Only.named (b := x.not) ?_; clear_value x)
    | (fail_if_no_progress extract_lets +onlyGivenNames x)
    | with_reducible apply Only.refl
    | with_reducible assumption
    | (with_reducible apply Only.ite <;> intro _)
    | with_reducible (apply Only.step (M := [.out, .glb, .pan, .log, .line, .links, .rings, .cnt, .outs]); rotate_left; apply accRec_only; decide)
    | with_reducible (apply Only.step (M := [.free, .out, .words, .mismatch, .glb, .mem, .pwr, .upd, .tco, .refs, .gbb, .svc, .ptp, .eth, .key, .pan, .log, .line, .pair, .links, .lnk, .rings, .hif, .cnt, .perf, .outs, .tio]); rotate_left; apply regApply_only; decide)
    | with_reducible (refine Only.sndEq (by assumption) ?_)
    | with_reducible (refine Only.fstEq (by assumption) ?_)
    | dsimp only
    | dsimp +zetaDelta only
    | split
    | (clear_value *; split)

theorem indRead_only (s : State) (b : Blk) (be : Nat) (tun : Bool)  : Only [.free, .out, .words, .mismatch, .glb, .pan, .log, .line, .links, .rings, .cnt, .outs] s (indRead s b be tun).2 := by
  unfold indRead
  repeat' first
    | ((fail_if_no_progress extract_lets +onlyGivenNames x); refine Only.cut (L := [.free, .out, .words, .mismatch, .glb, .pan, .log, .line, .links, .rings, .cnt, .outs]) (s := s) (x := x) ?_ ?_; rotate_left; intro hx; clear_value x; rotate_left; dsimp only [x])
    | ((fail_if_no_progress extract_lets +onlyGivenNames x); refine Only.named (b := x.not) ?_; clear_value x)
    | (fail_if_no_progress extract_lets +onlyGivenNames x)
    | with_reducible apply Only.refl
    | with_reducible assumption
    | (with_reducible apply Only.ite <;> intro _)
    | with_reducible (apply Only.step (M := [.free]); rotate_left; exact readInd_only_eq ‹_›; decide)
    | with_reducible (apply Only.step (M := [.free]); rotate_left; apply readInd_only; decide)
    | with_reducible (apply Only.step (M := [.out, .glb, .pan, .log, .line, .links, .rings, .cnt, .outs]); rotate_left; apply accRec_only; decide)
    | with_reducible (apply Only.step (M := [.words, .mismatch]); rotate_left; apply indStep_only; decide)
    | with_reducible (refine Only.sndEq (by assumption) ?_)
    | with_reducible (refine Only.fstEq (by assumption) ?_)
    | dsimp only
    | dsimp +zetaDelta only
    | split
    | (clear_value *; split)
theorem indRead_only_eq {s : State} {b : Blk} {be : Nat} {tun : Bool} {r1} {t0 : State} (hEq : indRead s b be tun = (r1, t0)) : Only [.free, .out, .words, .mismatch, .glb, .pan, .log, .line, .links, .rings, .cnt, .outs] s t0 := by
  have k0 := indRead_only s b be tun
  rw [hEq] at k0; exact k0

theorem readEffect_only (s : State) (b : Blk) (off : Nat)  : Only [.pwr, .log, .tio] s (readEffect s b off) := by
  unfold readEffect
  repeat' first
    | ((fail_if_no_progress extract_lets +onlyGivenNames x); refine Only.cut (L := [.pwr, .log, .tio]) (s := s) (x := x) ?_ ?_; rotate_left; intro hx; clear_value x; rotate_left; dsimp only [x])
    | ((fail_if_no_progress extract_lets +onlyGivenNames x); refine Only.named (b := x.not) ?_; clear_value x)
    | (fail_if_no_progress extract_lets +onlyGivenNames x)
    | with_reducible apply Only.refl
    | with_reducible assumption
    | (with_reducible apply Only.ite <;> intro _)
    | with_reducible (apply Only.step (M := [.log]); rotate_left; apply modBlk_only; decide)
    | (fail_if_no_progress (with_reducible (apply Only.step (M := [.pwr]); rotate_left; apply set_pwr_only; decide)))
    | (fail_if_no_progress (with_reducible (apply Only.step (M := [.tio]); rotate_left; apply set_tio_only_tio; rfl; decide)))
    | with_reducible (refine Only.sndEq (by assumption) ?_)
    | with_reducible (refine Only.fstEq (by assumption) ?_)
    | dsimp only
    | dsimp +zetaDelta only
    | split
    | (clear_value *; split)

theorem unitRead_only (s : State) (off : Nat) (be : Nat) (tun : Bool)  : Only [.free, .out, .words, .mismatch, .glb, .pwr, .pan, .log, .line, .links, .rings, .cnt, .outs, .tio] s (unitRead s off be tun).2 := by
  unfold unitRead
  repeat' first
    | ((fail_if_no_progress extract_lets +onlyGivenNames x); refine Only.cut (L := [.free, .out, .words, .mismatch, .glb, .pwr, .pan, .log, .line, .links, .rings, .cnt, .outs, .tio]) (s := s) (x := x) ?_ ?_; rotate_left; intro hx; clear_value x; rotate_left; dsimp only [x])
    | ((fail_if_no_progress extract_lets +onlyGivenNames x); refine Only.named (b := x.not) ?_; clear_value x)
    | (fail_if_no_progress extract_lets +onlyGivenNames x)
    | with_reducible apply Only.refl
    | with_reducible assumption
    | (with_reducible apply Only.ite <;> intro _)
    | with_reducible (apply Only.step (M := [.out, .glb, .pan, .log, .line, .links, .rings, .cnt, .outs]); rotate_left; apply accRec_only; decide)
    | with_reducible (apply Only.step (M := [.free, .out, .words, .mismatch, .glb, .pan, .log, .line, .links, .rings, .cnt, .outs]); rotate_left; exact indRead_only_eq ‹_›; decide)
    | with_reducible (apply Only.step (M := [.free, .out, .words, .mismatch, .glb, .pan, .log, .line, .links, .rings, .cnt, .outs]); rotate_left; apply indRead_only; decide)
    | with_reducible (apply Only.step (M := [.pwr, .log, .tio]); rotate_left; apply readEffect_only; decide)
    | with_reducible (refine Only.sndEq (by assumption) ?_)
    | with_reducible (refine Only.fstEq (by assumption) ?_)
    | dsimp only
    | dsimp +zetaDelta only
    | split
    | (clear_value *; split)
theorem unitRead_only_eq {s : State} {off : Nat} {be : Nat} {tun : Bool} {r1} {t0 : State} (hEq : unitRead s off be tun = (r1, t0)) : Only [.free, .out, .words, .mismatch, .glb, .pwr, .pan, .log, .line, .links, .rings, .cnt, .outs, .tio] s t0 := by
  have k0 := unitRead_only s off be tun
  rw [hEq] at k0; exact k0

theorem readOut_only (s : State) (addr : Nat) (v : Nat)  : Only [.out] s (readOut s addr v) := by
  unfold readOut
  repeat' first
    | ((fail_if_no_progress extract_lets +onlyGivenNames x); refine Only.cut (L := [.out]) (s := s) (x := x) ?_ ?_; rotate_left; intro hx; clear_value x; rotate_left; dsimp only [x])
    | ((fail_if_no_progress extract_lets +onlyGivenNames x); refine Only.named (b := x.not) ?_; clear_value x)
    | (fail_if_no_progress extract_lets +onlyGivenNames x)
    | with_reducible apply Only.refl
    | with_reducible assumption
    | (with_reducible apply Only.ite <;> intro _)
    | with_reducible (apply Only.step (M := [.out]); rotate_left; apply emitOut_only; decide)
    | with_reducible (refine Only.sndEq (by assumption) ?_)
    | with_reducible (refine Only.fstEq (by assumption) ?_)
    | dsimp only
    | dsimp +zetaDelta only
    | split
    | (clear_value *; split)

theorem hifNoRoute_only (s : State)  : Only [.hif] s (hifNoRoute s) := by
  unfold hifNoRoute
  repeat' first
    | ((fail_if_no_progress extract_lets +onlyGivenNames x); refine Only.cut (L := [.hif]) (s := s) (x := x) ?_ ?_; rotate_left; intro hx; clear_value x; rotate_left; dsimp only [x])
    | ((fail_if_no_progress extract_lets +onlyGivenNames x); refine Only.named (b := x.not) ?_; clear_value x)
    | (fail_if_no_progress extract_lets +onlyGivenNames x)
    | with_reducible apply Only.refl
    | with_reducible assumption
    | (with_reducible apply Only.ite <;> intro _)
    | (fail_if_no_progress (with_reducible (apply Only.step (M := [.hif]); rotate_left; apply set_hif_only_hif; rfl; decide)))
    | with_reducible (refine Only.sndEq (by assumption) ?_)
    | with_reducible (refine Only.fstEq (by assumption) ?_)
    | dsimp only
    | dsimp +zetaDelta only
    | split
    | (clear_value *; split)

theorem ownUnit_only (s : State) (addr : Nat) (off : Nat) (be : Nat) (w : Option Word)  : Only [.free, .out, .words, .mismatch, .glb, .mem, .pwr, .upd, .tco, .refs, .gbb, .svc, .ptp, .eth, .key, .pan, .log, .line, .pair, .links, .lnk, .rings, .hif, .cnt, .perf, .outs, .tio] s (ownUnit s addr off be w) := by
  unfold ownUnit
  repeat' first
    | ((fail_if_no_progress extract_lets +onlyGivenNames x); refine Only.cut (L := [.free, .out, .words, .mismatch, .glb, .mem, .pwr, .upd, .tco, .refs, .gbb, .svc, .ptp, .eth, .key, .pan, .log, .line, .pair, .links, .lnk, .rings, .hif, .cnt, .perf, .outs, .tio]) (s := s) (x := x) ?_ ?_; rotate_left; intro hx; clear_value x; rotate_left; dsimp only [x])
    | ((fail_if_no_progress extract_lets +onlyGivenNames x); refine Only.named (b := x.not) ?_; clear_value x)
    | (fail_if_no_progress extract_lets +onlyGivenNames x)
    | with_reducible apply Only.refl
    | with_reducible assumption
    | (with_reducible apply Only.ite <;> intro _)
    | with_reducible (apply Only.step (M := [.free, .out, .words, .mismatch, .glb, .mem, .pwr, .upd, .tco, .refs, .gbb, .svc, .ptp, .eth, .key, .pan, .log, .line, .pair, .links, .lnk, .rings, .hif, .cnt, .perf, .outs, .tio]); rotate_left; apply unitWrite_only; decide)
    | with_reducible (apply Only.step (M := [.free, .out, .words, .mismatch, .glb, .pwr, .pan, .log, .line, .links, .rings, .cnt, .outs, .tio]); rotate_left; exact unitRead_only_eq ‹_›; decide)
    | with_reducible (apply Only.step (M := [.free, .out, .words, .mismatch, .glb, .pwr, .pan, .log, .line, .links, .rings, .cnt, .outs, .tio]); rotate_left; apply unitRead_only; decide)
    | with_reducible (apply Only.step (M := [.out]); rotate_left; apply readOut_only; decide)
    | with_reducible (refine Only.sndEq (by assumption) ?_)
    | with_reducible (refine Only.fstEq (by assumption) ?_)
    | dsimp only
    | dsimp +zetaDelta only
    | split
    | (clear_value *; split)

theorem windowUnit_only (s : State) (addr : Nat) (off : Nat) (be : Nat) (w : Option Word)  : Only [.free, .out, .words, .mismatch, .glb, .mem, .pwr, .upd, .tco, .refs, .gbb, .svc, .ptp, .eth, .key, .pan, .log, .line, .pair, .links, .lnk, .rings, .hif, .cnt, .perf, .outs, .tio] s (windowUnit s addr off be w) := by
  unfold windowUnit
  repeat' first
    | ((fail_if_no_progress extract_lets +onlyGivenNames x); refine Only.cut (L := [.free, .out, .words, .mismatch, .glb, .mem, .pwr, .upd, .tco, .refs, .gbb, .svc, .ptp, .eth, .key, .pan, .log, .line, .pair, .links, .lnk, .rings, .hif, .cnt, .perf, .outs, .tio]) (s := s) (x := x) ?_ ?_; rotate_left; intro hx; clear_value x; rotate_left; dsimp only [x])
    | ((fail_if_no_progress extract_lets +onlyGivenNames x); refine Only.named (b := x.not) ?_; clear_value x)
    | (fail_if_no_progress extract_lets +onlyGivenNames x)
    | with_reducible apply Only.refl
    | with_reducible assumption
    | (with_reducible apply Only.ite <;> intro _)
    | with_reducible (apply Only.step (M := [.hif]); rotate_left; apply hifNoRoute_only; decide)
    | with_reducible (apply Only.step (M := [.out]); rotate_left; apply readOut_only; decide)
    | with_reducible (apply Only.step (M := [.free, .out, .words, .mismatch, .glb, .mem, .pwr, .upd, .tco, .refs, .gbb, .svc, .ptp, .eth, .key, .pan, .log, .line, .pair, .links, .lnk, .rings, .hif, .cnt, .perf, .outs, .tio]); rotate_left; apply ownUnit_only; decide)
    | with_reducible (apply Only.step (M := [.cnt]); rotate_left; apply perfAdd_only; decide)
    | with_reducible (apply Only.step (M := [.lnk]); rotate_left; exact modLnk_only_lnk _ _ (by intro k; rfl); decide)
    | with_reducible (apply Only.step (M := [.links]); rotate_left; exact modLnk_only_links _ _ (by intro k; rfl); decide)
    | with_reducible (apply Only.step (M := [.links, .lnk]); rotate_left; apply modLnk_only; decide)
    | with_reducible (apply Only.step (M := [.out, .links, .cnt]); rotate_left; apply linkSend_only; decide)
    | (fail_if_no_progress (with_reducible (apply Only.step (M := [.hif]); rotate_left; apply set_hif_only_hif; rfl; decide)))
    | with_reducible (refine Only.sndEq (by assumption) ?_)
    | with_reducible (refine Only.fstEq (by assumption) ?_)
    | dsimp only
    | dsimp +zetaDelta only
    | split
    | (clear_value *; split)

theorem hostUnit_only (s : State) (off : Nat) (be : Nat) (w : Option Word)  : Only [.free, .out, .words, .mismatch, .glb, .mem, .pwr, .upd, .tco, .refs, .gbb, .svc, .ptp, .eth, .key, .pan, .log, .line, .pair, .links, .lnk, .rings, .hif, .cnt, .perf, .outs, .tio] s (hostUnit s off be w) := by
  unfold hostUnit
  repeat' first
    | ((fail_if_no_progress extract_lets +onlyGivenNames x); refine Only.cut (L := [.free, .out, .words, .mismatch, .glb, .mem, .pwr, .upd, .tco, .refs, .gbb, .svc, .ptp, .eth, .key, .pan, .log, .line, .pair, .links, .lnk, .rings, .hif, .cnt, .perf, .outs, .tio]) (s := s) (x := x) ?_ ?_; rotate_left; intro hx; clear_value x; rotate_left; dsimp only [x])
    | ((fail_if_no_progress extract_lets +onlyGivenNames x); refine Only.named (b := x.not) ?_; clear_value x)
    | (fail_if_no_progress extract_lets +onlyGivenNames x)
    | with_reducible apply Only.refl
    | with_reducible assumption
    | (with_reducible apply Only.ite <;> intro _)
    | with_reducible (apply Only.step (M := [.free, .out, .words, .mismatch, .glb, .mem, .pwr, .upd, .tco, .refs, .gbb, .svc, .ptp, .eth, .key, .pan, .log, .line, .pair, .links, .lnk, .rings, .hif, .cnt, .perf, .outs, .tio]); rotate_left; apply windowUnit_only; decide)
    | with_reducible (apply Only.step (M := [.free, .out, .words, .mismatch, .glb, .mem, .pwr, .upd, .tco, .refs, .gbb, .svc, .ptp, .eth, .key, .pan, .log, .line, .pair, .links, .lnk, .rings, .hif, .cnt, .perf, .outs, .tio]); rotate_left; apply ownUnit_only; decide)
    | with_reducible (refine Only.sndEq (by assumption) ?_)
    | with_reducible (refine Only.fstEq (by assumption) ?_)
    | dsimp only
    | dsimp +zetaDelta only
    | split
    | (clear_value *; split)

theorem hostWr_only (s : State) (addr : Nat) (data : List Byte)  : Only [.free, .out, .words, .mismatch, .glb, .mem, .pwr, .upd, .tco, .refs, .gbb, .svc, .ptp, .eth, .key, .pan, .log, .line, .pair, .links, .lnk, .rings, .hif, .cnt, .perf, .outs, .tio] s (hostWr s addr data) := by
  unfold hostWr
  repeat' first
    | ((fail_if_no_progress extract_lets +onlyGivenNames x); refine Only.cut (L := [.free, .out, .words, .mismatch, .glb, .mem, .pwr, .upd, .tco, .refs, .gbb, .svc, .ptp, .eth, .key, .pan, .log, .line, .pair, .links, .lnk, .rings, .hif, .cnt, .perf, .outs, .tio]) (s := s) (x := x) ?_ ?_; rotate_left; intro hx; clear_value x; rotate_left; dsimp only [x])
    | ((fail_if_no_progress extract_lets +onlyGivenNames x); refine Only.named (b := x.not) ?_; clear_value x)
    | (fail_if_no_progress extract_lets +onlyGivenNames x)
    | (with_reducible apply Only.foldl; (intro _ _ _))
    | (with_reducible apply Only.foldlFst; (intro _ _ _))
    | with_reducible apply Only.refl
    | with_reducible assumption
    | (with_reducible apply Only.ite <;> intro _)
    | with_reducible (apply Only.step (M := [.free, .out, .words, .mismatch, .glb, .mem, .pwr, .upd, .tco, .refs, .gbb, .svc, .ptp, .eth, .key, .pan, .log, .line, .pair, .links, .lnk, .rings, .hif, .cnt, .perf, .outs, .tio]); rotate_left; apply hostUnit_only; decide)
    | with_reducible (refine Only.sndEq (by assumption) ?_)
    | with_reducible (refine Only.fstEq (by assumption) ?_)
    | dsimp only
    | dsimp +zetaDelta only
    | split
    | (clear_value *; split)

theorem hostWr32_only (s : State) (off : Nat) (v : Word)  : Only [.free, .out, .words, .mismatch, .glb, .mem, .pwr, .upd, .tco, .refs, .gbb, .svc, .ptp, .eth, .key, .pan, .log, .line, .pair, .links, .lnk, .rings, .hif, .cnt, .perf, .outs, .tio] s (hostWr32 s off v) := by
  unfold hostWr32
  repeat' first
    | ((fail_if_no_progress extract_lets +onlyGivenNames x); refine Only.cut (L := [.free, .out, .words, .mismatch, .glb, .mem, .pwr, .upd, .tco, .refs, .gbb, .svc, .ptp, .eth, .key, .pan, .log, .line, .pair, .links, .lnk, .rings, .hif, .cnt, .perf, .outs, .tio]) (s := s) (x := x) ?_ ?_; rotate_left; intro hx; clear_value x; rotate_left; dsimp only [x])
    | ((fail_if_no_progress extract_lets +onlyGivenNames x); refine Only.named (b := x.not) ?_; clear_value x)
    | (fail_if_no_progress extract_lets +onlyGivenNames x)
    | with_reducible apply Only.refl
    | with_reducible assumption
    | (with_reducible apply Only.ite <;> intro _)
    | with_reducible (apply Only.step (M := [.free, .out, .words, .mismatch, .glb, .mem, .pwr, .upd, .tco, .refs, .gbb, .svc, .ptp, .eth, .key, .pan, .log, .line, .pair, .links, .lnk, .rings, .hif, .cnt, .perf, .outs, .tio]); rotate_left; apply hostUnit_only; decide)
    | with_reducible (refine Only.sndEq (by assumption) ?_)
    | with_reducible (refine Only.fstEq (by assumption) ?_)
    | dsimp only
    | dsimp +zetaDelta only
    | split
    | (clear_value *; split)

theorem hostRd_only (s : State) (addr : Nat) (len : Nat)  : Only [.free, .out, .words, .mismatch, .glb, .mem, .pwr, .upd, .tco, .refs, .gbb, .svc, .ptp, .eth, .key, .pan, .log, .line, .pair, .links, .lnk, .rings, .hif, .cnt, .perf, .outs, .tio] s (hostRd s addr len) := by
  unfold hostRd
  repeat' first
    | ((fail_if_no_progress extract_lets +onlyGivenNames x); refine Only.cut (L := [.free, .out, .words, .mismatch, .glb, .mem, .pwr, .upd, .tco, .refs, .gbb, .svc, .ptp, .eth, .key, .pan, .log, .line, .pair, .links, .lnk, .rings, .hif, .cnt, .perf, .outs, .tio]) (s := s) (x := x) ?_ ?_; rotate_left; intro hx; clear_value x; rotate_left; dsimp only [x])
    | ((fail_if_no_progress extract_lets +onlyGivenNames x); refine Only.named (b := x.not) ?_; clear_value x)
    | (fail_if_no_progress extract_lets +onlyGivenNames x)
    | (with_reducible apply Only.foldl; (intro _ _ _))
    | (with_reducible apply Only.foldlFst; (intro _ _ _))
    | with_reducible apply Only.refl
    | with_reducible assumption
    | (with_reducible apply Only.ite <;> intro _)
    | with_reducible (apply Only.step (M := [.free, .out, .words, .mismatch, .glb, .mem, .pwr, .upd, .tco, .refs, .gbb, .svc, .ptp, .eth, .key, .pan, .log, .line, .pair, .links, .lnk, .rings, .hif, .cnt, .perf, .outs, .tio]); rotate_left; apply hostUnit_only; decide)
    | with_reducible (refine Only.sndEq (by assumption) ?_)
    | with_reducible (refine Only.fstEq (by assumption) ?_)
    | dsimp only
    | dsimp +zetaDelta only
    | split
    | (clear_value *; split)

theorem mbxReady_only (s : State)  : Only [.glb] s (mbxReady s) := by
  unfold mbxReady
  repeat' first
    | ((fail_if_no_progress extract_lets +onlyGivenNames x); refine Only.cut (L := [.glb]) (s := s) (x := x) ?_ ?_; rotate_left; intro hx; clear_value x; rotate_left; dsimp only [x])
    | ((fail_if_no_progress extract_lets +onlyGivenNames x); refine Only.named (b := x.not) ?_; clear_value x)
    | (fail_if_no_progress extract_lets +onlyGivenNames x)
    | with_reducible apply Only.refl
    | with_reducible assumption
    | (with_reducible apply Only.ite <;> intro _)
    | (fail_if_no_progress (with_reducible (apply Only.step (M := [.glb]); rotate_left; apply set_glb_only; decide)))
    | with_reducible (refine Only.sndEq (by assumption) ?_)
    | with_reducible (refine Only.fstEq (by assumption) ?_)
    | dsimp only
    | dsimp +zetaDelta only
    | split
    | (clear_value *; split)

end Sys2Proof.Laws
end

