-- ==== Sys2Proof/Laws/HifOps.lean ====
section
/-! SUPPORT. What each operation of Machine/HifOps.lean can touch, once for each. -/
set_option linter.unusedTactic false
set_option linter.unreachableTactic false
namespace Sys2Proof.Laws
open Sys2Proof
open Sys2Proof.Machine
open Sys2Proof.Safety

theorem modHif_only_hif (s : State) (f : Hif → Hif) (h : ∀ k, f k = { f k with pba := k.pba, rings := k.rings }) : Only [.hif] s (modHif s f) :=
  set_hif_only_hif s (f s.hif) (h s.hif)
theorem modHif_only_rings (s : State) (f : Hif → Hif) (h : ∀ k, f k = { k with pba := (f k).pba, rings := (f k).rings }) : Only [.rings] s (modHif s f) :=
  set_hif_only_rings s (f s.hif) (h s.hif)
theorem modHif_only (s : State) (f : Hif → Hif) : Only [.rings, .hif] s (modHif s f) := set_hif_only s (f s.hif)

theorem dbRange_only (s : State) (slot : Nat) (r : Nat) (v : BitVec 32)  : Only [.out, .pan, .log, .line, .links, .rings, .hif, .cnt, .outs] s (dbRange s slot r v) := by
  unfold dbRange
  repeat' first
    | ((fail_if_no_progress extract_lets +onlyGivenNames x); refine Only.cut (L := [.out, .pan, .log, .line, .links, .rings, .hif, .cnt, .outs]) (s := s) (x := x) ?_ ?_; rotate_left; intro hx; clear_value x; rotate_left; dsimp only [x])
    | ((fail_if_no_progress extract_lets +onlyGivenNames x); refine Only.named (b := x.not) ?_; clear_value x)
    | (fail_if_no_progress extract_lets +onlyGivenNames x)
    | with_reducible apply Only.refl
    | with_reducible assumption
    | (with_reducible apply Only.ite <;> intro _)
    | with_reducible (apply Only.step (M := [.out, .pan, .log, .line, .links, .rings, .cnt, .outs]); rotate_left; apply emit_only; decide)
    | with_reducible (apply Only.step (M := [.hif]); rotate_left; exact modHif_only_hif _ _ (by intro k; rfl); decide)
    | with_reducible (apply Only.step (M := [.rings]); rotate_left; exact modHif_only_rings _ _ (by intro k; rfl); decide)
    | with_reducible (apply Only.step (M := [.rings, .hif]); rotate_left; apply modHif_only; decide)
    | with_reducible (refine Only.sndEq (by assumption) ?_)
    | with_reducible (refine Only.fstEq (by assumption) ?_)
    | dsimp only
    | dsimp +zetaDelta only
    | split
    | (clear_value *; split)

theorem applyDoorbell_only (s : State) (r : Nat) (v : BitVec 32)  : Only [.out, .pan, .log, .line, .links, .rings, .hif, .cnt, .perf, .outs] s (applyDoorbell s r v) := by
  unfold applyDoorbell
  repeat' first
    | ((fail_if_no_progress extract_lets +onlyGivenNames x); refine Only.cut (L := [.out, .pan, .log, .line, .links, .rings, .hif, .cnt, .perf, .outs]) (s := s) (x := x) ?_ ?_; rotate_left; intro hx; clear_value x; rotate_left; dsimp only [x])
    | ((fail_if_no_progress extract_lets +onlyGivenNames x); refine Only.named (b := x.not) ?_; clear_value x)
    | (fail_if_no_progress extract_lets +onlyGivenNames x)
    | with_reducible apply Only.refl
    | with_reducible assumption
    | (with_reducible apply Only.ite <;> intro _)
    | with_reducible (apply Only.step (M := [.cnt]); rotate_left; apply perfAdd_only; decide)
    | with_reducible (apply Only.step (M := [.rings]); rotate_left; apply modRing_only; decide)
    | with_reducible (apply Only.step (M := [.out, .pan, .log, .links, .rings, .cnt]); rotate_left; apply evDrain_only; decide)
    | with_reducible (apply Only.step (M := [.out, .links, .rings, .cnt, .perf]); rotate_left; apply sampleDrain_only; decide)
    | with_reducible (apply Only.step (M := [.out, .pan, .log, .line, .links, .rings, .hif, .cnt, .outs]); rotate_left; apply dbRange_only; decide)
    | with_reducible (refine Only.sndEq (by assumption) ?_)
    | with_reducible (refine Only.fstEq (by assumption) ?_)
    | dsimp only
    | dsimp +zetaDelta only
    | split
    | (clear_value *; split)

theorem cplTimers_only (s : State) (d : Done)  : Only [.pwr, .upd] s (cplTimers s d) := by
  unfold cplTimers
  repeat' first
    | ((fail_if_no_progress extract_lets +onlyGivenNames x); refine Only.cut (L := [.pwr, .upd]) (s := s) (x := x) ?_ ?_; rotate_left; intro hx; clear_value x; rotate_left; dsimp only [x])
    | ((fail_if_no_progress extract_lets +onlyGivenNames x); refine Only.named (b := x.not) ?_; clear_value x)
    | (fail_if_no_progress extract_lets +onlyGivenNames x)
    | with_reducible apply Only.refl
    | with_reducible assumption
    | (with_reducible apply Only.ite <;> intro _)
    | (fail_if_no_progress (with_reducible (apply Only.step (M := [.pwr]); rotate_left; apply set_pwr_only; decide)))
    | (fail_if_no_progress (with_reducible (apply Only.step (M := [.upd]); rotate_left; apply set_upd_only; decide)))
    | with_reducible (refine Only.sndEq (by assumption) ?_)
    | with_reducible (refine Only.fstEq (by assumption) ?_)
    | dsimp only
    | dsimp +zetaDelta only
    | split
    | (clear_value *; split)

theorem cplWrite_only (s : State) (d : Done)  : Only [.out, .links, .rings, .cnt] s (cplWrite s d) := by
  unfold cplWrite
  repeat' first
    | ((fail_if_no_progress extract_lets +onlyGivenNames x); refine Only.cut (L := [.out, .links, .rings, .cnt]) (s := s) (x := x) ?_ ?_; rotate_left; intro hx; clear_value x; rotate_left; dsimp only [x])
    | ((fail_if_no_progress extract_lets +onlyGivenNames x); refine Only.named (b := x.not) ?_; clear_value x)
    | (fail_if_no_progress extract_lets +onlyGivenNames x)
    | with_reducible apply Only.refl
    | with_reducible assumption
    | (with_reducible apply Only.ite <;> intro _)
    | with_reducible (apply Only.step (M := [.rings, .cnt]); rotate_left; apply ringAdvance_only; decide)
    | with_reducible (apply Only.step (M := [.out, .links, .cnt]); rotate_left; apply hostDma_only; decide)
    | with_reducible (apply Only.step (M := [.out, .links, .rings, .cnt]); rotate_left; apply ringNotify_only; decide)
    | with_reducible (refine Only.sndEq (by assumption) ?_)
    | with_reducible (refine Only.fstEq (by assumption) ?_)
    | dsimp only
    | dsimp +zetaDelta only
    | split
    | (clear_value *; split)

theorem hifReset_only (s : State) : Only [.words, .mismatch, .rings, .hif] s (hifReset s) := by
  unfold hifReset
  extract_lets a f b c
  have h : Only [.words, .mismatch, .rings, .hif] s a :=
    Only.foldl _ _ (fun u r h => Only.step h (putW_only _ _ _) (by decide)) (Only.refl _ _)
  clear_value a
  have h2 : Only [.words, .mismatch, .rings, .hif] s b := Only.step h (putW_only _ _ _) (by decide)
  clear_value b
  exact Only.step (Only.step h2 (dropWords_only _ _ _) (by decide)) (modHif_only _ _) (by decide)

theorem takeDoorbells_only (s : State) (r : Nat)  : Only [.rings] s (takeDoorbells s r) := by
  unfold takeDoorbells
  repeat' first
    | ((fail_if_no_progress extract_lets +onlyGivenNames x); refine Only.cut (L := [.rings]) (s := s) (x := x) ?_ ?_; rotate_left; intro hx; clear_value x; rotate_left; dsimp only [x])
    | ((fail_if_no_progress extract_lets +onlyGivenNames x); refine Only.named (b := x.not) ?_; clear_value x)
    | (fail_if_no_progress extract_lets +onlyGivenNames x)
    | (with_reducible apply Only.foldl; (intro _ _ _))
    | (with_reducible apply Only.foldlFst; (intro _ _ _))
    | with_reducible apply Only.refl
    | with_reducible assumption
    | (with_reducible apply Only.ite <;> intro _)
    | with_reducible (apply Only.step (M := [.rings]); rotate_left; apply modRing_only; decide)
    | with_reducible (refine Only.sndEq (by assumption) ?_)
    | with_reducible (refine Only.fstEq (by assumption) ?_)
    | dsimp only
    | dsimp +zetaDelta only
    | split
    | (clear_value *; split)

theorem forwardDoorbell_only (s : State) (slot : Nat) (r : Nat) (v : BitVec 32)  : Only [.out, .links, .hif, .cnt] s (forwardDoorbell s slot r v) := by
  unfold forwardDoorbell
  repeat' first
    | ((fail_if_no_progress extract_lets +onlyGivenNames x); refine Only.cut (L := [.out, .links, .hif, .cnt]) (s := s) (x := x) ?_ ?_; rotate_left; intro hx; clear_value x; rotate_left; dsimp only [x])
    | ((fail_if_no_progress extract_lets +onlyGivenNames x); refine Only.named (b := x.not) ?_; clear_value x)
    | (fail_if_no_progress extract_lets +onlyGivenNames x)
    | with_reducible apply Only.refl
    | with_reducible assumption
    | (with_reducible apply Only.ite <;> intro _)
    | with_reducible (apply Only.step (M := [.out, .links, .cnt]); rotate_left; apply linkSend_only; decide)
    | with_reducible (apply Only.step (M := [.hif]); rotate_left; exact modHif_only_hif _ _ (by intro k; rfl); decide)
    | with_reducible (apply Only.step (M := [.rings]); rotate_left; exact modHif_only_rings _ _ (by intro k; rfl); decide)
    | with_reducible (apply Only.step (M := [.rings, .hif]); rotate_left; apply modHif_only; decide)
    | with_reducible (apply Only.step (M := [.hif]); rotate_left; apply hifNoRoute_only; decide)
    | with_reducible (refine Only.sndEq (by assumption) ?_)
    | with_reducible (refine Only.fstEq (by assumption) ?_)
    | dsimp only
    | dsimp +zetaDelta only
    | split
    | (clear_value *; split)

end Sys2Proof.Laws
end

