-- ==== Sys2Proof/Laws/CmdHif.lean ====
section
/-! SUPPORT. What each command and event of Machine/Hif.lean can touch. -/
set_option linter.unusedTactic false
set_option linter.unreachableTactic false
namespace Sys2Proof.Laws
open Sys2Proof
open Sys2Proof.Machine
open Sys2Proof.Safety

theorem execNop_only (hd : Hdr) (s : State) : OnlyAns [.hif] s (Sys2Proof.Machine.execNop hd s) := by
  unfold Sys2Proof.Machine.execNop
  repeat' first
    | (with_reducible apply OnlyAns.next)
    | (with_reducible apply OnlyAns.cmd)
    | (with_reducible apply OnlyAns.keyCmd)
    | (with_reducible apply OnlyAns.tcoHost)
    | (with_reducible apply OnlyAns.ite <;> intro _)
    | decide
    | with_reducible (apply Only.step (M := [.cnt]); rotate_left; apply perfAdd_only; decide)
    | ((fail_if_no_progress extract_lets +onlyGivenNames x); refine Only.cut (L := [.hif]) (s := s) (x := x) ?_ ?_; rotate_left; intro hx; clear_value x; rotate_left; dsimp only [x])
    | ((fail_if_no_progress extract_lets +onlyGivenNames x); refine Only.named (b := x.not) ?_; clear_value x)
    | (fail_if_no_progress extract_lets +onlyGivenNames x)
    | with_reducible apply Only.refl
    | with_reducible assumption
    | (with_reducible apply Only.ite <;> intro _)
    | with_reducible (apply Only.step (M := [.hif]); rotate_left; apply complete_only; decide)
    | with_reducible (refine Only.sndEq (by assumption) ?_)
    | with_reducible (refine Only.fstEq (by assumption) ?_)
    | dsimp only
    | dsimp +zetaDelta only
    | split
    | (clear_value *; split)

theorem execEngineQuery_only (hd : Hdr) (s : State) : OnlyAns [.hif] s (Sys2Proof.Machine.execEngineQuery hd s) := by
  unfold Sys2Proof.Machine.execEngineQuery
  repeat' first
    | (with_reducible apply OnlyAns.next)
    | (with_reducible apply OnlyAns.cmd)
    | (with_reducible apply OnlyAns.keyCmd)
    | (with_reducible apply OnlyAns.tcoHost)
    | (with_reducible apply OnlyAns.ite <;> intro _)
    | decide
    | with_reducible (apply Only.step (M := [.cnt]); rotate_left; apply perfAdd_only; decide)
    | ((fail_if_no_progress extract_lets +onlyGivenNames x); refine Only.cut (L := [.hif]) (s := s) (x := x) ?_ ?_; rotate_left; intro hx; clear_value x; rotate_left; dsimp only [x])
    | ((fail_if_no_progress extract_lets +onlyGivenNames x); refine Only.named (b := x.not) ?_; clear_value x)
    | (fail_if_no_progress extract_lets +onlyGivenNames x)
    | with_reducible apply Only.refl
    | with_reducible assumption
    | (with_reducible apply Only.ite <;> intro _)
    | with_reducible (apply Only.step (M := [.hif]); rotate_left; apply complete_only; decide)
    | with_reducible (refine Only.sndEq (by assumption) ?_)
    | with_reducible (refine Only.fstEq (by assumption) ?_)
    | dsimp only
    | dsimp +zetaDelta only
    | split
    | (clear_value *; split)

theorem execDoorbell_only (off : Nat) (value : BitVec 32) (s : State) : OnlyAns [.out, .pan, .log, .line, .links, .rings, .hif, .cnt, .perf, .outs] s (Sys2Proof.Machine.execDoorbell off value s) := by
  unfold Sys2Proof.Machine.execDoorbell
  repeat' first
    | (with_reducible apply OnlyAns.next)
    | (with_reducible apply OnlyAns.cmd)
    | (with_reducible apply OnlyAns.keyCmd)
    | (with_reducible apply OnlyAns.tcoHost)
    | (with_reducible apply OnlyAns.ite <;> intro _)
    | decide
    | with_reducible (apply Only.step (M := [.cnt]); rotate_left; apply perfAdd_only; decide)
    | ((fail_if_no_progress extract_lets +onlyGivenNames x); refine Only.cut (L := [.out, .pan, .log, .line, .links, .rings, .hif, .cnt, .perf, .outs]) (s := s) (x := x) ?_ ?_; rotate_left; intro hx; clear_value x; rotate_left; dsimp only [x])
    | ((fail_if_no_progress extract_lets +onlyGivenNames x); refine Only.named (b := x.not) ?_; clear_value x)
    | (fail_if_no_progress extract_lets +onlyGivenNames x)
    | with_reducible apply Only.refl
    | with_reducible assumption
    | (with_reducible apply Only.ite <;> intro _)
    | with_reducible (apply Only.step (M := [.hif]); rotate_left; exact modHif_only_hif _ _ (by intro k; rfl); decide)
    | with_reducible (apply Only.step (M := [.rings]); rotate_left; exact modHif_only_rings _ _ (by intro k; rfl); decide)
    | with_reducible (apply Only.step (M := [.rings, .hif]); rotate_left; apply modHif_only; decide)
    | with_reducible (apply Only.step (M := [.out, .pan, .log, .line, .links, .rings, .hif, .cnt, .perf, .outs]); rotate_left; apply applyDoorbell_only; decide)
    | with_reducible (apply Only.step (M := [.out, .links, .hif, .cnt]); rotate_left; apply forwardDoorbell_only; decide)
    | with_reducible (refine Only.sndEq (by assumption) ?_)
    | with_reducible (refine Only.fstEq (by assumption) ?_)
    | dsimp only
    | dsimp +zetaDelta only
    | split
    | (clear_value *; split)

theorem execCommandFetch_only (ring : Fin 4) (desc : BitVec 256) (s : State) : OnlyAns [.out, .pan, .log, .line, .links, .lnk, .rings, .hif, .cnt, .outs] s (Sys2Proof.Machine.execCommandFetch ring desc s) := by
  unfold Sys2Proof.Machine.execCommandFetch
  repeat' first
    | (with_reducible apply OnlyAns.next)
    | (with_reducible apply OnlyAns.cmd)
    | (with_reducible apply OnlyAns.keyCmd)
    | (with_reducible apply OnlyAns.tcoHost)
    | (with_reducible apply OnlyAns.ite <;> intro _)
    | decide
    | with_reducible (apply Only.step (M := [.cnt]); rotate_left; apply perfAdd_only; decide)
    | ((fail_if_no_progress extract_lets +onlyGivenNames x); refine Only.cut (L := [.out, .pan, .log, .line, .links, .lnk, .rings, .hif, .cnt, .outs]) (s := s) (x := x) ?_ ?_; rotate_left; intro hx; clear_value x; rotate_left; dsimp only [x])
    | ((fail_if_no_progress extract_lets +onlyGivenNames x); refine Only.named (b := x.not) ?_; clear_value x)
    | (fail_if_no_progress extract_lets +onlyGivenNames x)
    | with_reducible apply Only.refl
    | with_reducible assumption
    | (with_reducible apply Only.ite <;> intro _)
    | with_reducible (apply Only.step (M := [.rings]); rotate_left; apply takeDoorbells_only; decide)
    | with_reducible (apply Only.step (M := [.hif]); rotate_left; exact modHif_only_hif _ _ (by intro k; rfl); decide)
    | with_reducible (apply Only.step (M := [.rings]); rotate_left; exact modHif_only_rings _ _ (by intro k; rfl); decide)
    | with_reducible (apply Only.step (M := [.rings, .hif]); rotate_left; apply modHif_only; decide)
    | with_reducible (apply Only.step (M := [.out, .links, .rings, .cnt]); rotate_left; apply ringNotify_only; decide)
    | with_reducible (apply Only.step (M := [.rings, .cnt]); rotate_left; apply ringAdvance_only; decide)
    | with_reducible (apply Only.step (M := [.out, .links, .lnk, .cnt]); rotate_left; apply ringReads_only; decide)
    | with_reducible (apply Only.step (M := [.out, .pan, .log, .line, .links, .rings, .hif, .cnt, .outs]); rotate_left; apply hifMalformed_only; decide)
    | with_reducible (refine Only.sndEq (by assumption) ?_)
    | with_reducible (refine Only.fstEq (by assumption) ?_)
    | dsimp only
    | dsimp +zetaDelta only
    | split
    | (clear_value *; split)

theorem execCommandComplete_only (s : State) : OnlyAns [.out, .pwr, .upd, .links, .rings, .hif, .cnt] s (Sys2Proof.Machine.execCommandComplete s) := by
  unfold Sys2Proof.Machine.execCommandComplete
  repeat' first
    | (with_reducible apply OnlyAns.next)
    | (with_reducible apply OnlyAns.cmd)
    | (with_reducible apply OnlyAns.keyCmd)
    | (with_reducible apply OnlyAns.tcoHost)
    | (with_reducible apply OnlyAns.ite <;> intro _)
    | decide
    | with_reducible (apply Only.step (M := [.cnt]); rotate_left; apply perfAdd_only; decide)
    | ((fail_if_no_progress extract_lets +onlyGivenNames x); refine Only.cut (L := [.out, .pwr, .upd, .links, .rings, .hif, .cnt]) (s := s) (x := x) ?_ ?_; rotate_left; intro hx; clear_value x; rotate_left; dsimp only [x])
    | ((fail_if_no_progress extract_lets +onlyGivenNames x); refine Only.named (b := x.not) ?_; clear_value x)
    | (fail_if_no_progress extract_lets +onlyGivenNames x)
    | (with_reducible apply Only.foldl; (intro _ _ _))
    | (with_reducible apply Only.foldlFst; (intro _ _ _))
    | with_reducible apply Only.refl
    | with_reducible assumption
    | (with_reducible apply Only.ite <;> intro _)
    | with_reducible (apply Only.step (M := [.rings]); rotate_left; apply takeDoorbells_only; decide)
    | with_reducible (apply Only.step (M := [.pwr, .upd]); rotate_left; apply cplTimers_only; decide)
    | with_reducible (apply Only.step (M := [.out, .links, .rings, .cnt]); rotate_left; apply cplWrite_only; decide)
    | with_reducible (apply Only.step (M := [.hif]); rotate_left; exact modHif_only_hif _ _ (by intro k; rfl); decide)
    | with_reducible (apply Only.step (M := [.rings]); rotate_left; exact modHif_only_rings _ _ (by intro k; rfl); decide)
    | with_reducible (apply Only.step (M := [.rings, .hif]); rotate_left; apply modHif_only; decide)
    | with_reducible (refine Only.sndEq (by assumption) ?_)
    | with_reducible (refine Only.fstEq (by assumption) ?_)
    | dsimp only
    | dsimp +zetaDelta only
    | split
    | (clear_value *; split)

theorem execModTimeExpiry_only (ring : Fin 15) (s : State) : OnlyAns [.out, .links, .rings, .cnt] s (Sys2Proof.Machine.execModTimeExpiry ring s) := by
  unfold Sys2Proof.Machine.execModTimeExpiry
  repeat' first
    | (with_reducible apply OnlyAns.next)
    | (with_reducible apply OnlyAns.cmd)
    | (with_reducible apply OnlyAns.keyCmd)
    | (with_reducible apply OnlyAns.tcoHost)
    | (with_reducible apply OnlyAns.ite <;> intro _)
    | decide
    | with_reducible (apply Only.step (M := [.cnt]); rotate_left; apply perfAdd_only; decide)
    | ((fail_if_no_progress extract_lets +onlyGivenNames x); refine Only.cut (L := [.out, .links, .rings, .cnt]) (s := s) (x := x) ?_ ?_; rotate_left; intro hx; clear_value x; rotate_left; dsimp only [x])
    | ((fail_if_no_progress extract_lets +onlyGivenNames x); refine Only.named (b := x.not) ?_; clear_value x)
    | (fail_if_no_progress extract_lets +onlyGivenNames x)
    | with_reducible apply Only.refl
    | with_reducible assumption
    | (with_reducible apply Only.ite <;> intro _)
    | with_reducible (apply Only.step (M := [.out, .links, .rings, .cnt]); rotate_left; apply fireSrc_only; decide)
    | with_reducible (apply Only.step (M := [.rings]); rotate_left; apply modRing_only; decide)
    | with_reducible (refine Only.sndEq (by assumption) ?_)
    | with_reducible (refine Only.fstEq (by assumption) ?_)
    | dsimp only
    | dsimp +zetaDelta only
    | split
    | (clear_value *; split)

theorem execBlockIrqHoldoffEnd_only (blk : Blk) (s : State) : OnlyAns [.out, .log, .links, .rings, .cnt] s (Sys2Proof.Machine.execBlockIrqHoldoffEnd blk s) := by
  unfold Sys2Proof.Machine.execBlockIrqHoldoffEnd
  repeat' first
    | (with_reducible apply OnlyAns.next)
    | (with_reducible apply OnlyAns.cmd)
    | (with_reducible apply OnlyAns.keyCmd)
    | (with_reducible apply OnlyAns.tcoHost)
    | (with_reducible apply OnlyAns.ite <;> intro _)
    | decide
    | with_reducible (apply Only.step (M := [.cnt]); rotate_left; apply perfAdd_only; decide)
    | ((fail_if_no_progress extract_lets +onlyGivenNames x); refine Only.cut (L := [.out, .log, .links, .rings, .cnt]) (s := s) (x := x) ?_ ?_; rotate_left; intro hx; clear_value x; rotate_left; dsimp only [x])
    | ((fail_if_no_progress extract_lets +onlyGivenNames x); refine Only.named (b := x.not) ?_; clear_value x)
    | (fail_if_no_progress extract_lets +onlyGivenNames x)
    | with_reducible apply Only.refl
    | with_reducible assumption
    | (with_reducible apply Only.ite <;> intro _)
    | with_reducible (apply Only.step (M := [.log]); rotate_left; apply modBlk_only; decide)
    | with_reducible (apply Only.step (M := [.out, .log, .links, .rings, .cnt]); rotate_left; apply blkIrq_only; decide)
    | with_reducible (refine Only.sndEq (by assumption) ?_)
    | with_reducible (refine Only.fstEq (by assumption) ?_)
    | dsimp only
    | dsimp +zetaDelta only
    | split
    | (clear_value *; split)

theorem execFlr_only (loss : Bool) (gen : BitVec 4) (width : BitVec 4) (s : State) : OnlyAns [.out, .words, .mismatch, .pan, .log, .line, .links, .rings, .hif, .cnt, .outs] s (Sys2Proof.Machine.execFlr loss gen width s) := by
  unfold Sys2Proof.Machine.execFlr
  repeat' first
    | (with_reducible apply OnlyAns.next)
    | (with_reducible apply OnlyAns.cmd)
    | (with_reducible apply OnlyAns.keyCmd)
    | (with_reducible apply OnlyAns.tcoHost)
    | (with_reducible apply OnlyAns.ite <;> intro _)
    | decide
    | with_reducible (apply Only.step (M := [.cnt]); rotate_left; apply perfAdd_only; decide)
    | ((fail_if_no_progress extract_lets +onlyGivenNames x); refine Only.cut (L := [.out, .words, .mismatch, .pan, .log, .line, .links, .rings, .hif, .cnt, .outs]) (s := s) (x := x) ?_ ?_; rotate_left; intro hx; clear_value x; rotate_left; dsimp only [x])
    | ((fail_if_no_progress extract_lets +onlyGivenNames x); refine Only.named (b := x.not) ?_; clear_value x)
    | (fail_if_no_progress extract_lets +onlyGivenNames x)
    | (with_reducible apply Only.foldl; (intro _ _ _))
    | (with_reducible apply Only.foldlFst; (intro _ _ _))
    | with_reducible apply Only.refl
    | with_reducible assumption
    | (with_reducible apply Only.ite <;> intro _)
    | with_reducible (apply Only.step (M := [.hif]); rotate_left; exact modHif_only_hif _ _ (by intro k; rfl); decide)
    | with_reducible (apply Only.step (M := [.rings]); rotate_left; exact modHif_only_rings _ _ (by intro k; rfl); decide)
    | with_reducible (apply Only.step (M := [.rings, .hif]); rotate_left; apply modHif_only; decide)
    | with_reducible (apply Only.step (M := [.words, .mismatch, .rings, .hif]); rotate_left; apply hifReset_only; decide)
    | with_reducible (apply Only.step (M := [.out, .links, .cnt]); rotate_left; apply linkSend_only; decide)
    | with_reducible (apply Only.step (M := [.out, .pan, .log, .line, .links, .rings, .cnt, .outs]); rotate_left; apply emit_only; decide)
    | with_reducible (refine Only.sndEq (by assumption) ?_)
    | with_reducible (refine Only.fstEq (by assumption) ?_)
    | dsimp only
    | dsimp +zetaDelta only
    | split
    | (clear_value *; split)

theorem execDmaReadCompletion_only (hd : Hdr) (slot : BitVec 6) (cause : BitVec 4) (s : State) : OnlyAns [.out, .pan, .log, .line, .links, .rings, .hif, .cnt, .outs] s (Sys2Proof.Machine.execDmaReadCompletion hd slot cause s) := by
  unfold Sys2Proof.Machine.execDmaReadCompletion
  repeat' first
    | (with_reducible apply OnlyAns.next)
    | (with_reducible apply OnlyAns.cmd)
    | (with_reducible apply OnlyAns.keyCmd)
    | (with_reducible apply OnlyAns.tcoHost)
    | (with_reducible apply OnlyAns.ite <;> intro _)
    | decide
    | with_reducible (apply Only.step (M := [.cnt]); rotate_left; apply perfAdd_only; decide)
    | ((fail_if_no_progress extract_lets +onlyGivenNames x); refine Only.cut (L := [.out, .pan, .log, .line, .links, .rings, .hif, .cnt, .outs]) (s := s) (x := x) ?_ ?_; rotate_left; intro hx; clear_value x; rotate_left; dsimp only [x])
    | ((fail_if_no_progress extract_lets +onlyGivenNames x); refine Only.named (b := x.not) ?_; clear_value x)
    | (fail_if_no_progress extract_lets +onlyGivenNames x)
    | with_reducible apply Only.refl
    | with_reducible assumption
    | (with_reducible apply Only.ite <;> intro _)
    | with_reducible (apply Only.step (M := [.hif]); rotate_left; exact modHif_only_hif _ _ (by intro k; rfl); decide)
    | with_reducible (apply Only.step (M := [.rings]); rotate_left; exact modHif_only_rings _ _ (by intro k; rfl); decide)
    | with_reducible (apply Only.step (M := [.rings, .hif]); rotate_left; apply modHif_only; decide)
    | with_reducible (apply Only.step (M := [.out, .pan, .log, .line, .links, .rings, .cnt, .outs]); rotate_left; apply emit_only; decide)
    | with_reducible (apply Only.step (M := [.hif]); rotate_left; apply fin_only; decide)
    | with_reducible (apply Only.step (M := [.out, .links, .cnt]); rotate_left; apply linkSend_only; decide)
    | with_reducible (refine Only.sndEq (by assumption) ?_)
    | with_reducible (refine Only.fstEq (by assumption) ?_)
    | dsimp only
    | dsimp +zetaDelta only
    | split
    | (clear_value *; split)

end Sys2Proof.Laws
end

