-- ==== Sys2Proof/Laws/HostRegs.lean ====
section
/-! SUPPORT. What each operation of Machine/HostRegs.lean can touch, once for each. -/
set_option linter.unusedTactic false
set_option linter.unreachableTactic false
namespace Sys2Proof.Laws
open Sys2Proof
open Sys2Proof.Machine
open Sys2Proof.Safety

theorem bar2Word_only (s : State) (o : Nat) : Only [.free] s (bar2Word s o).2 := by
  have h (i : Nat) : Only [.free] s (match perfPair s i with | (c, _, t) => ((c, t) : Nat × State)).2 := perfPair_only s i
  have k (i : Nat) : Only [.free] s (match perfPair s i with | (_, c, t) => ((c, t) : Nat × State)).2 := perfPair_only s i
  unfold bar2Word
  generalize o / 4 = i
  generalize (o - 0x1000) / 4 = j
  by_cases h1 : o < 0x1000
  · rw [if_pos h1]; exact h i
  · rw [if_neg h1]
    by_cases h2 : o < 0x2000
    · rw [if_pos h2]; exact k j
    · rw [if_neg h2]
      by_cases h3 : o < 0x2080
      · rw [if_pos h3]; exact Only.refl _ _
      · rw [if_neg h3]
        by_cases h4 : o = 0x2080
        · rw [if_pos h4]; exact Only.refl _ _
        · rw [if_neg h4]
          by_cases h5 : o = 0x2084
          · rw [if_pos h5]; exact Only.refl _ _
          · rw [if_neg h5]; exact Only.refl _ _
theorem bar2Word_only_eq {s : State} {o : Nat} {r1} {t0 : State} (hEq : bar2Word s o = (r1, t0)) : Only [.free] s t0 := by
  have k0 := bar2Word_only s o
  rw [hEq] at k0; exact k0

theorem coreHalt_only (s : State) (n : Nat) (cause : Nat)  : Only [.out, .ctl, .pan, .log, .line, .links, .rings, .cnt, .outs] s (coreHalt s n cause) := by
  unfold coreHalt
  repeat' first
    | ((fail_if_no_progress extract_lets +onlyGivenNames x); refine Only.cut (L := [.out, .ctl, .pan, .log, .line, .links, .rings, .cnt, .outs]) (s := s) (x := x) ?_ ?_; rotate_left; intro hx; clear_value x; rotate_left; dsimp only [x])
    | ((fail_if_no_progress extract_lets +onlyGivenNames x); refine Only.named (b := x.not) ?_; clear_value x)
    | (fail_if_no_progress extract_lets +onlyGivenNames x)
    | with_reducible apply Only.refl
    | with_reducible assumption
    | (with_reducible apply Only.ite <;> intro _)
    | with_reducible (apply Only.step (M := [.out, .pan, .log, .line, .links, .rings, .cnt, .outs]); rotate_left; apply emit_only; decide)
    | (fail_if_no_progress (with_reducible (apply Only.step (M := [.ctl]); rotate_left; apply set_ctl_only; decide)))
    | with_reducible (refine Only.sndEq (by assumption) ?_)
    | with_reducible (refine Only.fstEq (by assumption) ?_)
    | dsimp only
    | dsimp +zetaDelta only
    | split
    | (clear_value *; split)

theorem dropHead_only (s : State) (p_ : Fin 9)  : Only [.out, .svc, .ptp, .eth, .links, .rings, .cnt] s (dropHead s p_) := by
  unfold dropHead
  repeat' first
    | ((fail_if_no_progress extract_lets +onlyGivenNames x); refine Only.cut (L := [.out, .svc, .ptp, .eth, .links, .rings, .cnt]) (s := s) (x := x) ?_ ?_; rotate_left; intro hx; clear_value x; rotate_left; dsimp only [x])
    | ((fail_if_no_progress extract_lets +onlyGivenNames x); refine Only.named (b := x.not) ?_; clear_value x)
    | (fail_if_no_progress extract_lets +onlyGivenNames x)
    | with_reducible apply Only.refl
    | with_reducible assumption
    | (with_reducible apply Only.ite <;> intro _)
    | with_reducible (apply Only.step (M := [.out, .svc, .ptp, .links, .rings, .cnt]); rotate_left; apply discardTx_only; decide)
    | with_reducible (apply Only.step (M := [.eth]); rotate_left; apply modPort_only; decide)
    | with_reducible (refine Only.sndEq (by assumption) ?_)
    | with_reducible (refine Only.fstEq (by assumption) ?_)
    | dsimp only
    | dsimp +zetaDelta only
    | split
    | (clear_value *; split)

theorem eccEffect_only (s : State) (part : Nat) (store : Fin 3) (addr : Nat) (entry : Nat)  : Only [.free, .out, .mem, .ctl, .gbb, .svc, .ptp, .eth, .pan, .log, .line, .pair, .links, .rings, .cnt, .outs] s (eccEffect s part store addr entry) := by
  unfold eccEffect
  repeat' first
    | ((fail_if_no_progress extract_lets +onlyGivenNames x); refine Only.cut (L := [.free, .out, .mem, .ctl, .gbb, .svc, .ptp, .eth, .pan, .log, .line, .pair, .links, .rings, .cnt, .outs]) (s := s) (x := x) ?_ ?_; rotate_left; intro hx; clear_value x; rotate_left; dsimp only [x])
    | ((fail_if_no_progress extract_lets +onlyGivenNames x); refine Only.named (b := x.not) ?_; clear_value x)
    | (fail_if_no_progress extract_lets +onlyGivenNames x)
    | with_reducible apply Only.refl
    | with_reducible assumption
    | (with_reducible apply Only.ite <;> intro _)
    | with_reducible (apply Only.step (M := [.out, .ctl, .pan, .log, .line, .links, .rings, .cnt, .outs]); rotate_left; apply coreHalt_only; decide)
    | with_reducible (apply Only.step (M := [.free, .out, .ptp, .eth, .pan, .log, .line, .pair, .links, .rings, .cnt, .outs]); rotate_left; apply cancelEntry_only; decide)
    | with_reducible (apply Only.step (M := [.svc]); rotate_left; apply putCell_only; decide)
    | with_reducible (apply Only.step (M := [.eth]); rotate_left; apply modPort_only; decide)
    | with_reducible (apply Only.step (M := [.out, .svc, .ptp, .eth, .links, .rings, .cnt]); rotate_left; apply dropHead_only; decide)
    | with_reducible (apply Only.step (M := [.gbb]); rotate_left; apply modGbb_only; decide)
    | with_reducible (apply Only.step (M := [.free, .out, .ptp, .eth, .pan, .log, .line, .pair, .links, .rings, .cnt, .outs]); rotate_left; apply instEvalAll_only; decide)
    | (fail_if_no_progress (with_reducible (apply Only.step (M := [.mem]); rotate_left; apply set_mem_only; decide)))
    | with_reducible (refine Only.sndEq (by assumption) ?_)
    | with_reducible (refine Only.fstEq (by assumption) ?_)
    | dsimp only
    | dsimp +zetaDelta only
    | split
    | (clear_value *; split)

theorem eccMeet_only (s : State) (double : Bool) (part : Fin 7) (store : Fin 3) (addr : BitVec 32) (entry : Nat)  : Only [.free, .out, .mem, .ctl, .gbb, .svc, .ptp, .eth, .pan, .log, .line, .pair, .links, .rings, .cnt, .outs] s (eccMeet s double part store addr entry) := by
  unfold eccMeet
  repeat' first
    | ((fail_if_no_progress extract_lets +onlyGivenNames x); refine Only.cut (L := [.free, .out, .mem, .ctl, .gbb, .svc, .ptp, .eth, .pan, .log, .line, .pair, .links, .rings, .cnt, .outs]) (s := s) (x := x) ?_ ?_; rotate_left; intro hx; clear_value x; rotate_left; dsimp only [x])
    | ((fail_if_no_progress extract_lets +onlyGivenNames x); refine Only.named (b := x.not) ?_; clear_value x)
    | (fail_if_no_progress extract_lets +onlyGivenNames x)
    | with_reducible apply Only.refl
    | with_reducible assumption
    | (with_reducible apply Only.ite <;> intro _)
    | with_reducible (apply Only.step (M := [.out, .pan, .log, .line, .links, .rings, .cnt, .outs]); rotate_left; apply emit_only; decide)
    | with_reducible (apply Only.step (M := [.cnt]); rotate_left; apply perfAdd_only; decide)
    | with_reducible (apply Only.step (M := [.free, .out, .mem, .ctl, .gbb, .svc, .ptp, .eth, .pan, .log, .line, .pair, .links, .rings, .cnt, .outs]); rotate_left; apply eccEffect_only; decide)
    | (fail_if_no_progress (with_reducible (apply Only.step (M := [.mem]); rotate_left; apply set_mem_only; decide)))
    | with_reducible (refine Only.sndEq (by assumption) ?_)
    | with_reducible (refine Only.fstEq (by assumption) ?_)
    | dsimp only
    | dsimp +zetaDelta only
    | split
    | (clear_value *; split)

theorem safeAgain_only (s : State) (b : Blk)  : Only [.out, .log, .links, .rings, .cnt] s (safeAgain s b) := by
  unfold safeAgain
  repeat' first
    | ((fail_if_no_progress extract_lets +onlyGivenNames x); refine Only.cut (L := [.out, .log, .links, .rings, .cnt]) (s := s) (x := x) ?_ ?_; rotate_left; intro hx; clear_value x; rotate_left; dsimp only [x])
    | ((fail_if_no_progress extract_lets +onlyGivenNames x); refine Only.named (b := x.not) ?_; clear_value x)
    | (fail_if_no_progress extract_lets +onlyGivenNames x)
    | with_reducible apply Only.refl
    | with_reducible assumption
    | (with_reducible apply Only.ite <;> intro _)
    | with_reducible (apply Only.step (M := [.out, .log, .links, .rings, .cnt]); rotate_left; apply blkIrq_only; decide)
    | with_reducible (apply Only.step (M := [.log]); rotate_left; apply seqAdvance_only; decide)
    | with_reducible (refine Only.sndEq (by assumption) ?_)
    | with_reducible (refine Only.fstEq (by assumption) ?_)
    | dsimp only
    | dsimp +zetaDelta only
    | split
    | (clear_value *; split)

theorem safeEntered_only (s : State) (b : Blk)  : Only [.out, .tco, .refs, .pan, .log, .line, .links, .lnk, .rings, .hif, .cnt, .outs] s (safeEntered s b) := by
  unfold safeEntered
  repeat' first
    | ((fail_if_no_progress extract_lets +onlyGivenNames x); refine Only.cut (L := [.out, .tco, .refs, .pan, .log, .line, .links, .lnk, .rings, .hif, .cnt, .outs]) (s := s) (x := x) ?_ ?_; rotate_left; intro hx; clear_value x; rotate_left; dsimp only [x])
    | ((fail_if_no_progress extract_lets +onlyGivenNames x); refine Only.named (b := x.not) ?_; clear_value x)
    | (fail_if_no_progress extract_lets +onlyGivenNames x)
    | with_reducible apply Only.refl
    | with_reducible assumption
    | (with_reducible apply Only.ite <;> intro _)
    | with_reducible (apply Only.step (M := [.out, .tco, .refs, .pan, .log, .line, .links, .rings, .cnt, .outs]); rotate_left; apply clockEval_only; decide)
    | with_reducible (apply Only.step (M := [.out, .tco, .refs, .pan, .log, .line, .links, .lnk, .rings, .hif, .cnt, .outs]); rotate_left; apply refsSafe_only; decide)
    | with_reducible (refine Only.sndEq (by assumption) ?_)
    | with_reducible (refine Only.fstEq (by assumption) ?_)
    | dsimp only
    | dsimp +zetaDelta only
    | split
    | (clear_value *; split)

theorem parityFault_only (s : State) (k : Nat) (b : Blk)  : Only [.out, .mismatch, .tco, .refs, .pan, .log, .line, .links, .lnk, .rings, .hif, .cnt, .outs] s (parityFault s k b) := by
  unfold parityFault
  repeat' first
    | ((fail_if_no_progress extract_lets +onlyGivenNames x); refine Only.cut (L := [.out, .mismatch, .tco, .refs, .pan, .log, .line, .links, .lnk, .rings, .hif, .cnt, .outs]) (s := s) (x := x) ?_ ?_; rotate_left; intro hx; clear_value x; rotate_left; dsimp only [x])
    | ((fail_if_no_progress extract_lets +onlyGivenNames x); refine Only.named (b := x.not) ?_; clear_value x)
    | (fail_if_no_progress extract_lets +onlyGivenNames x)
    | with_reducible apply Only.refl
    | with_reducible assumption
    | (with_reducible apply Only.ite <;> intro _)
    | with_reducible (apply Only.step (M := [.out, .pan, .log, .line, .links, .rings, .cnt, .outs]); rotate_left; apply emit_only; decide)
    | with_reducible (apply Only.step (M := [.out, .log, .outs]); rotate_left; apply enterSafe_only; decide)
    | with_reducible (apply Only.step (M := [.out, .tco, .refs, .pan, .log, .line, .links, .lnk, .rings, .hif, .cnt, .outs]); rotate_left; apply safeEntered_only; decide)
    | (fail_if_no_progress (with_reducible (apply Only.step (M := [.mismatch]); rotate_left; apply set_mismatch_only; decide)))
    | with_reducible (refine Only.sndEq (by assumption) ?_)
    | with_reducible (refine Only.fstEq (by assumption) ?_)
    | dsimp only
    | dsimp +zetaDelta only
    | split
    | (clear_value *; split)

theorem userDenied_only (s : State) (off : Nat) (write : Bool)  : Only [.out, .pan, .log, .line, .links, .rings, .cnt, .perf, .outs] s (userDenied s off write) := by
  unfold userDenied
  repeat' first
    | ((fail_if_no_progress extract_lets +onlyGivenNames x); refine Only.cut (L := [.out, .pan, .log, .line, .links, .rings, .cnt, .perf, .outs]) (s := s) (x := x) ?_ ?_; rotate_left; intro hx; clear_value x; rotate_left; dsimp only [x])
    | ((fail_if_no_progress extract_lets +onlyGivenNames x); refine Only.named (b := x.not) ?_; clear_value x)
    | (fail_if_no_progress extract_lets +onlyGivenNames x)
    | with_reducible apply Only.refl
    | with_reducible assumption
    | (with_reducible apply Only.ite <;> intro _)
    | with_reducible (apply Only.step (M := [.out, .pan, .log, .line, .links, .rings, .cnt, .outs]); rotate_left; apply emit_only; decide)
    | (fail_if_no_progress (with_reducible (apply Only.step (M := [.perf]); rotate_left; apply set_perf_only_perf; rfl; decide)))
    | with_reducible (refine Only.sndEq (by assumption) ?_)
    | with_reducible (refine Only.fstEq (by assumption) ?_)
    | dsimp only
    | dsimp +zetaDelta only
    | split
    | (clear_value *; split)

end Sys2Proof.Laws
end

