-- ==== Sys2Proof/Laws/CmdHostRegs.lean ====
section
/-! SUPPORT. What each command and event of Machine/HostRegs.lean can touch. -/
set_option linter.unusedTactic false
set_option linter.unreachableTactic false
namespace Sys2Proof.Laws
open Sys2Proof
open Sys2Proof.Machine
open Sys2Proof.Safety

theorem execSramScrub_only (store : Option (Fin 3)) (met : Bool) (double : Bool) (addr : BitVec 32) (entry : Nat) (pass : Bool) (s : State) : OnlyAns [.free, .out, .mem, .ctl, .gbb, .svc, .ptp, .eth, .pan, .log, .line, .pair, .links, .rings, .cnt, .outs] s (Sys2Proof.Machine.execSramScrub store met double addr entry pass s) := by
  unfold Sys2Proof.Machine.execSramScrub
  repeat' first
    | (with_reducible apply OnlyAns.next)
    | (with_reducible apply OnlyAns.cmd)
    | (with_reducible apply OnlyAns.keyCmd)
    | (with_reducible apply OnlyAns.tcoHost)
    | (with_reducible apply OnlyAns.ite <;> intro _)
    | decide
    | with_reducible (apply Only.step (M := [.cnt]); rotate_left; apply perfAdd_only; decide)
    | ((fail_if_no_progress extract_lets +onlyGivenNames x); refine Only.cut (L := [.free, .out, .mem, .ctl, .gbb, .svc, .ptp, .eth, .pan, .log, .line, .pair, .links, .rings, .cnt, .outs]) (s := s) (x := x) ?_ ?_; rotate_left; intro hx; clear_value x; rotate_left; dsimp only [x])
    | ((fail_if_no_progress extract_lets +onlyGivenNames x); refine Only.named (b := x.not) ?_; clear_value x)
    | (fail_if_no_progress extract_lets +onlyGivenNames x)
    | with_reducible apply Only.refl
    | with_reducible assumption
    | (with_reducible apply Only.ite <;> intro _)
    | with_reducible (apply Only.step (M := [.free, .out, .mem, .ctl, .gbb, .svc, .ptp, .eth, .pan, .log, .line, .pair, .links, .rings, .cnt, .outs]); rotate_left; apply eccMeet_only; decide)
    | with_reducible (apply Only.step (M := [.cnt]); rotate_left; apply perfAdd_only; decide)
    | (fail_if_no_progress (with_reducible (apply Only.step (M := [.mem]); rotate_left; apply set_mem_only; decide)))
    | with_reducible (refine Only.sndEq (by assumption) ?_)
    | with_reducible (refine Only.fstEq (by assumption) ?_)
    | dsimp only
    | dsimp +zetaDelta only
    | split
    | (clear_value *; split)

theorem execRemoteWindowAccess_only (off : Nat) (be : BitVec 4) (data : Option Word) (s : State) : OnlyAns [.free, .out, .words, .mismatch, .glb, .mem, .pwr, .upd, .tco, .refs, .gbb, .svc, .ptp, .eth, .key, .pan, .log, .line, .pair, .links, .lnk, .rings, .hif, .cnt, .perf, .outs, .tio] s (Sys2Proof.Machine.execRemoteWindowAccess off be data s) := by
  unfold Sys2Proof.Machine.execRemoteWindowAccess
  repeat' first
    | (with_reducible apply OnlyAns.next)
    | (with_reducible apply OnlyAns.cmd)
    | (with_reducible apply OnlyAns.keyCmd)
    | (with_reducible apply OnlyAns.tcoHost)
    | (with_reducible apply OnlyAns.ite <;> intro _)
    | decide
    | with_reducible (apply Only.step (M := [.cnt]); rotate_left; apply perfAdd_only; decide)
    | ((fail_if_no_progress extract_lets +onlyGivenNames x); refine Only.cut (L := [.free, .out, .words, .mismatch, .glb, .mem, .pwr, .upd, .tco, .refs, .gbb, .svc, .ptp, .eth, .key, .pan, .log, .line, .pair, .links, .lnk, .rings, .hif, .cnt, .perf, .outs, .tio]) (s := s) (x := x) ?_ ?_; rotate_left; intro hx; clear_value x; rotate_left; dsimp only [x])
    | ((fail_if_no_progress extract_lets +onlyGivenNames x); refine Only.named (b := x.not) ?_; clear_value x)
    | (fail_if_no_progress extract_lets +onlyGivenNames x)
    | with_reducible apply Only.refl
    | with_reducible assumption
    | (with_reducible apply Only.ite <;> intro _)
    | with_reducible (apply Only.step (M := [.free, .out, .words, .mismatch, .glb, .mem, .pwr, .upd, .tco, .refs, .gbb, .svc, .ptp, .eth, .key, .pan, .log, .line, .pair, .links, .lnk, .rings, .hif, .cnt, .perf, .outs, .tio]); rotate_left; apply windowUnit_only; decide)
    | with_reducible (refine Only.sndEq (by assumption) ?_)
    | with_reducible (refine Only.fstEq (by assumption) ?_)
    | dsimp only
    | dsimp +zetaDelta only
    | split
    | (clear_value *; split)

theorem execRingEnable_only (ring : Fin 15) (word : Word) (s : State) : OnlyAns [.free, .out, .words, .mismatch, .upd, .tco, .refs, .gbb, .svc, .ptp, .eth, .pan, .log, .line, .pair, .links, .lnk, .rings, .hif, .cnt, .perf, .outs, .tio] s (Sys2Proof.Machine.execRingEnable ring word s) := by
  unfold Sys2Proof.Machine.execRingEnable
  repeat' first
    | (with_reducible apply OnlyAns.next)
    | (with_reducible apply OnlyAns.cmd)
    | (with_reducible apply OnlyAns.keyCmd)
    | (with_reducible apply OnlyAns.tcoHost)
    | (with_reducible apply OnlyAns.ite <;> intro _)
    | decide
    | with_reducible (apply Only.step (M := [.cnt]); rotate_left; apply perfAdd_only; decide)
    | ((fail_if_no_progress extract_lets +onlyGivenNames x); refine Only.cut (L := [.free, .out, .words, .mismatch, .upd, .tco, .refs, .gbb, .svc, .ptp, .eth, .pan, .log, .line, .pair, .links, .lnk, .rings, .hif, .cnt, .perf, .outs, .tio]) (s := s) (x := x) ?_ ?_; rotate_left; intro hx; clear_value x; rotate_left; dsimp only [x])
    | ((fail_if_no_progress extract_lets +onlyGivenNames x); refine Only.named (b := x.not) ?_; clear_value x)
    | (fail_if_no_progress extract_lets +onlyGivenNames x)
    | with_reducible apply Only.refl
    | with_reducible assumption
    | (with_reducible apply Only.ite <;> intro _)
    | with_reducible (apply Only.step (M := [.free, .out, .words, .mismatch, .upd, .tco, .refs, .gbb, .svc, .ptp, .eth, .pan, .log, .line, .pair, .links, .lnk, .rings, .hif, .cnt, .perf, .outs, .tio]); rotate_left; apply storeWord_only; decide)
    | with_reducible (refine Only.sndEq (by assumption) ?_)
    | with_reducible (refine Only.fstEq (by assumption) ?_)
    | dsimp only
    | dsimp +zetaDelta only
    | split
    | (clear_value *; split)

theorem execRegisterWrite_only (addr : Nat) (data : List Byte) (s : State) : OnlyAns [.free, .out, .words, .mismatch, .glb, .mem, .pwr, .upd, .tco, .refs, .gbb, .svc, .ptp, .eth, .key, .pan, .log, .line, .pair, .links, .lnk, .rings, .hif, .cnt, .perf, .outs, .tio] s (Sys2Proof.Machine.execRegisterWrite addr data s) := by
  unfold Sys2Proof.Machine.execRegisterWrite
  repeat' first
    | (with_reducible apply OnlyAns.next)
    | (with_reducible apply OnlyAns.cmd)
    | (with_reducible apply OnlyAns.keyCmd)
    | (with_reducible apply OnlyAns.tcoHost)
    | (with_reducible apply OnlyAns.ite <;> intro _)
    | decide
    | with_reducible (apply Only.step (M := [.cnt]); rotate_left; apply perfAdd_only; decide)
    | ((fail_if_no_progress extract_lets +onlyGivenNames x); refine Only.cut (L := [.free, .out, .words, .mismatch, .glb, .mem, .pwr, .upd, .tco, .refs, .gbb, .svc, .ptp, .eth, .key, .pan, .log, .line, .pair, .links, .lnk, .rings, .hif, .cnt, .perf, .outs, .tio]) (s := s) (x := x) ?_ ?_; rotate_left; intro hx; clear_value x; rotate_left; dsimp only [x])
    | ((fail_if_no_progress extract_lets +onlyGivenNames x); refine Only.named (b := x.not) ?_; clear_value x)
    | (fail_if_no_progress extract_lets +onlyGivenNames x)
    | with_reducible apply Only.refl
    | with_reducible assumption
    | (with_reducible apply Only.ite <;> intro _)
    | with_reducible (apply Only.step (M := [.free, .out, .words, .mismatch, .glb, .mem, .pwr, .upd, .tco, .refs, .gbb, .svc, .ptp, .eth, .key, .pan, .log, .line, .pair, .links, .lnk, .rings, .hif, .cnt, .perf, .outs, .tio]); rotate_left; apply hostWr_only; decide)
    | with_reducible (refine Only.sndEq (by assumption) ?_)
    | with_reducible (refine Only.fstEq (by assumption) ?_)
    | dsimp only
    | dsimp +zetaDelta only
    | split
    | (clear_value *; split)

theorem execSqClear_only (blk : Blk) (word : Word) (s : State) : OnlyAns [.free, .out, .words, .mismatch, .glb, .mem, .pwr, .upd, .tco, .refs, .gbb, .svc, .ptp, .eth, .key, .pan, .log, .line, .pair, .links, .lnk, .rings, .hif, .cnt, .perf, .outs, .tio] s (Sys2Proof.Machine.execSqClear blk word s) := by
  unfold Sys2Proof.Machine.execSqClear
  repeat' first
    | (with_reducible apply OnlyAns.next)
    | (with_reducible apply OnlyAns.cmd)
    | (with_reducible apply OnlyAns.keyCmd)
    | (with_reducible apply OnlyAns.tcoHost)
    | (with_reducible apply OnlyAns.ite <;> intro _)
    | decide
    | with_reducible (apply Only.step (M := [.cnt]); rotate_left; apply perfAdd_only; decide)
    | ((fail_if_no_progress extract_lets +onlyGivenNames x); refine Only.cut (L := [.free, .out, .words, .mismatch, .glb, .mem, .pwr, .upd, .tco, .refs, .gbb, .svc, .ptp, .eth, .key, .pan, .log, .line, .pair, .links, .lnk, .rings, .hif, .cnt, .perf, .outs, .tio]) (s := s) (x := x) ?_ ?_; rotate_left; intro hx; clear_value x; rotate_left; dsimp only [x])
    | ((fail_if_no_progress extract_lets +onlyGivenNames x); refine Only.named (b := x.not) ?_; clear_value x)
    | (fail_if_no_progress extract_lets +onlyGivenNames x)
    | with_reducible apply Only.refl
    | with_reducible assumption
    | (with_reducible apply Only.ite <;> intro _)
    | with_reducible (apply Only.step (M := [.free, .out, .words, .mismatch, .glb, .mem, .pwr, .upd, .tco, .refs, .gbb, .svc, .ptp, .eth, .key, .pan, .log, .line, .pair, .links, .lnk, .rings, .hif, .cnt, .perf, .outs, .tio]); rotate_left; apply hostWr32_only; decide)
    | with_reducible (refine Only.sndEq (by assumption) ?_)
    | with_reducible (refine Only.fstEq (by assumption) ?_)
    | dsimp only
    | dsimp +zetaDelta only
    | split
    | (clear_value *; split)

theorem execRcRead_only (addr : Nat) (s : State) : OnlyAns [.free, .out, .words, .mismatch, .glb, .mem, .pwr, .upd, .tco, .refs, .gbb, .svc, .ptp, .eth, .key, .pan, .log, .line, .pair, .links, .lnk, .rings, .hif, .cnt, .perf, .outs, .tio] s (Sys2Proof.Machine.execRcRead addr s) := by
  unfold Sys2Proof.Machine.execRcRead
  repeat' first
    | (with_reducible apply OnlyAns.next)
    | (with_reducible apply OnlyAns.cmd)
    | (with_reducible apply OnlyAns.keyCmd)
    | (with_reducible apply OnlyAns.tcoHost)
    | (with_reducible apply OnlyAns.ite <;> intro _)
    | decide
    | with_reducible (apply Only.step (M := [.cnt]); rotate_left; apply perfAdd_only; decide)
    | ((fail_if_no_progress extract_lets +onlyGivenNames x); refine Only.cut (L := [.free, .out, .words, .mismatch, .glb, .mem, .pwr, .upd, .tco, .refs, .gbb, .svc, .ptp, .eth, .key, .pan, .log, .line, .pair, .links, .lnk, .rings, .hif, .cnt, .perf, .outs, .tio]) (s := s) (x := x) ?_ ?_; rotate_left; intro hx; clear_value x; rotate_left; dsimp only [x])
    | ((fail_if_no_progress extract_lets +onlyGivenNames x); refine Only.named (b := x.not) ?_; clear_value x)
    | (fail_if_no_progress extract_lets +onlyGivenNames x)
    | with_reducible apply Only.refl
    | with_reducible assumption
    | (with_reducible apply Only.ite <;> intro _)
    | with_reducible (apply Only.step (M := [.free, .out, .words, .mismatch, .glb, .mem, .pwr, .upd, .tco, .refs, .gbb, .svc, .ptp, .eth, .key, .pan, .log, .line, .pair, .links, .lnk, .rings, .hif, .cnt, .perf, .outs, .tio]); rotate_left; apply hostRd_only; decide)
    | with_reducible (refine Only.sndEq (by assumption) ?_)
    | with_reducible (refine Only.fstEq (by assumption) ?_)
    | dsimp only
    | dsimp +zetaDelta only
    | split
    | (clear_value *; split)

theorem execIndDataAccess_only (blk : Blk) (be : BitVec 4) (data : Option Word) (s : State) : OnlyAns [.free, .out, .words, .mismatch, .glb, .mem, .pwr, .upd, .tco, .refs, .gbb, .svc, .ptp, .eth, .key, .pan, .log, .line, .pair, .links, .lnk, .rings, .hif, .cnt, .perf, .outs, .tio] s (Sys2Proof.Machine.execIndDataAccess blk be data s) := by
  unfold Sys2Proof.Machine.execIndDataAccess
  repeat' first
    | (with_reducible apply OnlyAns.next)
    | (with_reducible apply OnlyAns.cmd)
    | (with_reducible apply OnlyAns.keyCmd)
    | (with_reducible apply OnlyAns.tcoHost)
    | (with_reducible apply OnlyAns.ite <;> intro _)
    | decide
    | with_reducible (apply Only.step (M := [.cnt]); rotate_left; apply perfAdd_only; decide)
    | ((fail_if_no_progress extract_lets +onlyGivenNames x); refine Only.cut (L := [.free, .out, .words, .mismatch, .glb, .mem, .pwr, .upd, .tco, .refs, .gbb, .svc, .ptp, .eth, .key, .pan, .log, .line, .pair, .links, .lnk, .rings, .hif, .cnt, .perf, .outs, .tio]) (s := s) (x := x) ?_ ?_; rotate_left; intro hx; clear_value x; rotate_left; dsimp only [x])
    | ((fail_if_no_progress extract_lets +onlyGivenNames x); refine Only.named (b := x.not) ?_; clear_value x)
    | (fail_if_no_progress extract_lets +onlyGivenNames x)
    | with_reducible apply Only.refl
    | with_reducible assumption
    | (with_reducible apply Only.ite <;> intro _)
    | with_reducible (apply Only.step (M := [.free, .out, .words, .mismatch, .glb, .mem, .pwr, .upd, .tco, .refs, .gbb, .svc, .ptp, .eth, .key, .pan, .log, .line, .pair, .links, .lnk, .rings, .hif, .cnt, .perf, .outs, .tio]); rotate_left; apply hostUnit_only; decide)
    | with_reducible (refine Only.sndEq (by assumption) ?_)
    | with_reducible (refine Only.fstEq (by assumption) ?_)
    | dsimp only
    | dsimp +zetaDelta only
    | split
    | (clear_value *; split)

theorem execMbxGo_only (word : Word) (s : State) : OnlyAns [.free, .out, .words, .mismatch, .glb, .mem, .pwr, .upd, .tco, .refs, .gbb, .svc, .ptp, .eth, .key, .pan, .log, .line, .pair, .links, .lnk, .rings, .hif, .cnt, .perf, .outs, .tio] s (Sys2Proof.Machine.execMbxGo word s) := by
  unfold Sys2Proof.Machine.execMbxGo
  repeat' first
    | (with_reducible apply OnlyAns.next)
    | (with_reducible apply OnlyAns.cmd)
    | (with_reducible apply OnlyAns.keyCmd)
    | (with_reducible apply OnlyAns.tcoHost)
    | (with_reducible apply OnlyAns.ite <;> intro _)
    | decide
    | with_reducible (apply Only.step (M := [.cnt]); rotate_left; apply perfAdd_only; decide)
    | ((fail_if_no_progress extract_lets +onlyGivenNames x); refine Only.cut (L := [.free, .out, .words, .mismatch, .glb, .mem, .pwr, .upd, .tco, .refs, .gbb, .svc, .ptp, .eth, .key, .pan, .log, .line, .pair, .links, .lnk, .rings, .hif, .cnt, .perf, .outs, .tio]) (s := s) (x := x) ?_ ?_; rotate_left; intro hx; clear_value x; rotate_left; dsimp only [x])
    | ((fail_if_no_progress extract_lets +onlyGivenNames x); refine Only.named (b := x.not) ?_; clear_value x)
    | (fail_if_no_progress extract_lets +onlyGivenNames x)
    | with_reducible apply Only.refl
    | with_reducible assumption
    | (with_reducible apply Only.ite <;> intro _)
    | with_reducible (apply Only.step (M := [.free, .out, .words, .mismatch, .glb, .mem, .pwr, .upd, .tco, .refs, .gbb, .svc, .ptp, .eth, .key, .pan, .log, .line, .pair, .links, .lnk, .rings, .hif, .cnt, .perf, .outs, .tio]); rotate_left; apply hostWr32_only; decide)
    | with_reducible (refine Only.sndEq (by assumption) ?_)
    | with_reducible (refine Only.fstEq (by assumption) ?_)
    | dsimp only
    | dsimp +zetaDelta only
    | split
    | (clear_value *; split)

theorem execMbxDataReady_only (s : State) : OnlyAns [.glb] s (Sys2Proof.Machine.execMbxDataReady s) := by
  unfold Sys2Proof.Machine.execMbxDataReady
  repeat' first
    | (with_reducible apply OnlyAns.next)
    | (with_reducible apply OnlyAns.cmd)
    | (with_reducible apply OnlyAns.keyCmd)
    | (with_reducible apply OnlyAns.tcoHost)
    | (with_reducible apply OnlyAns.ite <;> intro _)
    | decide
    | with_reducible (apply Only.step (M := [.cnt]); rotate_left; apply perfAdd_only; decide)
    | ((fail_if_no_progress extract_lets +onlyGivenNames x); refine Only.cut (L := [.glb]) (s := s) (x := x) ?_ ?_; rotate_left; intro hx; clear_value x; rotate_left; dsimp only [x])
    | ((fail_if_no_progress extract_lets +onlyGivenNames x); refine Only.named (b := x.not) ?_; clear_value x)
    | (fail_if_no_progress extract_lets +onlyGivenNames x)
    | with_reducible apply Only.refl
    | with_reducible assumption
    | (with_reducible apply Only.ite <;> intro _)
    | with_reducible (apply Only.step (M := [.glb]); rotate_left; apply mbxReady_only; decide)
    | with_reducible (refine Only.sndEq (by assumption) ?_)
    | with_reducible (refine Only.fstEq (by assumption) ?_)
    | dsimp only
    | dsimp +zetaDelta only
    | split
    | (clear_value *; split)

theorem execMbxAck_only (word : Word) (s : State) : OnlyAns [.free, .out, .words, .mismatch, .glb, .mem, .pwr, .upd, .tco, .refs, .gbb, .svc, .ptp, .eth, .key, .pan, .log, .line, .pair, .links, .lnk, .rings, .hif, .cnt, .perf, .outs, .tio] s (Sys2Proof.Machine.execMbxAck word s) := by
  unfold Sys2Proof.Machine.execMbxAck
  repeat' first
    | (with_reducible apply OnlyAns.next)
    | (with_reducible apply OnlyAns.cmd)
    | (with_reducible apply OnlyAns.keyCmd)
    | (with_reducible apply OnlyAns.tcoHost)
    | (with_reducible apply OnlyAns.ite <;> intro _)
    | decide
    | with_reducible (apply Only.step (M := [.cnt]); rotate_left; apply perfAdd_only; decide)
    | ((fail_if_no_progress extract_lets +onlyGivenNames x); refine Only.cut (L := [.free, .out, .words, .mismatch, .glb, .mem, .pwr, .upd, .tco, .refs, .gbb, .svc, .ptp, .eth, .key, .pan, .log, .line, .pair, .links, .lnk, .rings, .hif, .cnt, .perf, .outs, .tio]) (s := s) (x := x) ?_ ?_; rotate_left; intro hx; clear_value x; rotate_left; dsimp only [x])
    | ((fail_if_no_progress extract_lets +onlyGivenNames x); refine Only.named (b := x.not) ?_; clear_value x)
    | (fail_if_no_progress extract_lets +onlyGivenNames x)
    | with_reducible apply Only.refl
    | with_reducible assumption
    | (with_reducible apply Only.ite <;> intro _)
    | with_reducible (apply Only.step (M := [.free, .out, .words, .mismatch, .glb, .mem, .pwr, .upd, .tco, .refs, .gbb, .svc, .ptp, .eth, .key, .pan, .log, .line, .pair, .links, .lnk, .rings, .hif, .cnt, .perf, .outs, .tio]); rotate_left; apply hostWr32_only; decide)
    | with_reducible (refine Only.sndEq (by assumption) ?_)
    | with_reducible (refine Only.fstEq (by assumption) ?_)
    | dsimp only
    | dsimp +zetaDelta only
    | split
    | (clear_value *; split)

theorem execGlbLockWrite_only (word : Word) (s : State) : OnlyAns [.free, .out, .words, .mismatch, .glb, .mem, .pwr, .upd, .tco, .refs, .gbb, .svc, .ptp, .eth, .key, .pan, .log, .line, .pair, .links, .lnk, .rings, .hif, .cnt, .perf, .outs, .tio] s (Sys2Proof.Machine.execGlbLockWrite word s) := by
  unfold Sys2Proof.Machine.execGlbLockWrite
  repeat' first
    | (with_reducible apply OnlyAns.next)
    | (with_reducible apply OnlyAns.cmd)
    | (with_reducible apply OnlyAns.keyCmd)
    | (with_reducible apply OnlyAns.tcoHost)
    | (with_reducible apply OnlyAns.ite <;> intro _)
    | decide
    | with_reducible (apply Only.step (M := [.cnt]); rotate_left; apply perfAdd_only; decide)
    | ((fail_if_no_progress extract_lets +onlyGivenNames x); refine Only.cut (L := [.free, .out, .words, .mismatch, .glb, .mem, .pwr, .upd, .tco, .refs, .gbb, .svc, .ptp, .eth, .key, .pan, .log, .line, .pair, .links, .lnk, .rings, .hif, .cnt, .perf, .outs, .tio]) (s := s) (x := x) ?_ ?_; rotate_left; intro hx; clear_value x; rotate_left; dsimp only [x])
    | ((fail_if_no_progress extract_lets +onlyGivenNames x); refine Only.named (b := x.not) ?_; clear_value x)
    | (fail_if_no_progress extract_lets +onlyGivenNames x)
    | with_reducible apply Only.refl
    | with_reducible assumption
    | (with_reducible apply Only.ite <;> intro _)
    | with_reducible (apply Only.step (M := [.free, .out, .words, .mismatch, .glb, .mem, .pwr, .upd, .tco, .refs, .gbb, .svc, .ptp, .eth, .key, .pan, .log, .line, .pair, .links, .lnk, .rings, .hif, .cnt, .perf, .outs, .tio]); rotate_left; apply hostWr32_only; decide)
    | with_reducible (refine Only.sndEq (by assumption) ?_)
    | with_reducible (refine Only.fstEq (by assumption) ?_)
    | dsimp only
    | dsimp +zetaDelta only
    | split
    | (clear_value *; split)

theorem execTestKeyWrite_only (word : Word) (s : State) : OnlyAns [.free, .out, .words, .mismatch, .glb, .mem, .pwr, .upd, .tco, .refs, .gbb, .svc, .ptp, .eth, .key, .pan, .log, .line, .pair, .links, .lnk, .rings, .hif, .cnt, .perf, .outs, .tio] s (Sys2Proof.Machine.execTestKeyWrite word s) := by
  unfold Sys2Proof.Machine.execTestKeyWrite
  repeat' first
    | (with_reducible apply OnlyAns.next)
    | (with_reducible apply OnlyAns.cmd)
    | (with_reducible apply OnlyAns.keyCmd)
    | (with_reducible apply OnlyAns.tcoHost)
    | (with_reducible apply OnlyAns.ite <;> intro _)
    | decide
    | with_reducible (apply Only.step (M := [.cnt]); rotate_left; apply perfAdd_only; decide)
    | ((fail_if_no_progress extract_lets +onlyGivenNames x); refine Only.cut (L := [.free, .out, .words, .mismatch, .glb, .mem, .pwr, .upd, .tco, .refs, .gbb, .svc, .ptp, .eth, .key, .pan, .log, .line, .pair, .links, .lnk, .rings, .hif, .cnt, .perf, .outs, .tio]) (s := s) (x := x) ?_ ?_; rotate_left; intro hx; clear_value x; rotate_left; dsimp only [x])
    | ((fail_if_no_progress extract_lets +onlyGivenNames x); refine Only.named (b := x.not) ?_; clear_value x)
    | (fail_if_no_progress extract_lets +onlyGivenNames x)
    | with_reducible apply Only.refl
    | with_reducible assumption
    | (with_reducible apply Only.ite <;> intro _)
    | with_reducible (apply Only.step (M := [.free, .out, .words, .mismatch, .glb, .mem, .pwr, .upd, .tco, .refs, .gbb, .svc, .ptp, .eth, .key, .pan, .log, .line, .pair, .links, .lnk, .rings, .hif, .cnt, .perf, .outs, .tio]); rotate_left; apply hostWr32_only; decide)
    | with_reducible (refine Only.sndEq (by assumption) ?_)
    | with_reducible (refine Only.fstEq (by assumption) ?_)
    | dsimp only
    | dsimp +zetaDelta only
    | split
    | (clear_value *; split)

theorem execTestWindowClose_only (s : State) : OnlyAns [.glb] s (Sys2Proof.Machine.execTestWindowClose s) := by
  unfold Sys2Proof.Machine.execTestWindowClose
  repeat' first
    | (with_reducible apply OnlyAns.next)
    | (with_reducible apply OnlyAns.cmd)
    | (with_reducible apply OnlyAns.keyCmd)
    | (with_reducible apply OnlyAns.tcoHost)
    | (with_reducible apply OnlyAns.ite <;> intro _)
    | decide
    | with_reducible (apply Only.step (M := [.cnt]); rotate_left; apply perfAdd_only; decide)
    | ((fail_if_no_progress extract_lets +onlyGivenNames x); refine Only.cut (L := [.glb]) (s := s) (x := x) ?_ ?_; rotate_left; intro hx; clear_value x; rotate_left; dsimp only [x])
    | ((fail_if_no_progress extract_lets +onlyGivenNames x); refine Only.named (b := x.not) ?_; clear_value x)
    | (fail_if_no_progress extract_lets +onlyGivenNames x)
    | with_reducible apply Only.refl
    | with_reducible assumption
    | (with_reducible apply Only.ite <;> intro _)
    | (fail_if_no_progress (with_reducible (apply Only.step (M := [.glb]); rotate_left; apply set_glb_only; decide)))
    | with_reducible (refine Only.sndEq (by assumption) ?_)
    | with_reducible (refine Only.fstEq (by assumption) ?_)
    | dsimp only
    | dsimp +zetaDelta only
    | split
    | (clear_value *; split)

theorem execParityScrub_only (bad : Option Nat) (s : State) : OnlyAns [.out, .mismatch, .tco, .refs, .pan, .log, .line, .links, .lnk, .rings, .hif, .cnt, .outs] s (Sys2Proof.Machine.execParityScrub bad s) := by
  unfold Sys2Proof.Machine.execParityScrub
  repeat' first
    | (with_reducible apply OnlyAns.next)
    | (with_reducible apply OnlyAns.cmd)
    | (with_reducible apply OnlyAns.keyCmd)
    | (with_reducible apply OnlyAns.tcoHost)
    | (with_reducible apply OnlyAns.ite <;> intro _)
    | decide
    | with_reducible (apply Only.step (M := [.cnt]); rotate_left; apply perfAdd_only; decide)
    | ((fail_if_no_progress extract_lets +onlyGivenNames x); refine Only.cut (L := [.out, .mismatch, .tco, .refs, .pan, .log, .line, .links, .lnk, .rings, .hif, .cnt, .outs]) (s := s) (x := x) ?_ ?_; rotate_left; intro hx; clear_value x; rotate_left; dsimp only [x])
    | ((fail_if_no_progress extract_lets +onlyGivenNames x); refine Only.named (b := x.not) ?_; clear_value x)
    | (fail_if_no_progress extract_lets +onlyGivenNames x)
    | (with_reducible apply Only.foldl; (intro _ _ _))
    | (with_reducible apply Only.foldlFst; (intro _ _ _))
    | with_reducible apply Only.refl
    | with_reducible assumption
    | (with_reducible apply Only.ite <;> intro _)
    | with_reducible (apply Only.step (M := [.out, .log, .links, .rings, .cnt]); rotate_left; apply safeAgain_only; decide)
    | with_reducible (apply Only.step (M := [.out, .mismatch, .tco, .refs, .pan, .log, .line, .links, .lnk, .rings, .hif, .cnt, .outs]); rotate_left; apply parityFault_only; decide)
    | with_reducible (refine Only.sndEq (by assumption) ?_)
    | with_reducible (refine Only.fstEq (by assumption) ?_)
    | dsimp only
    | dsimp +zetaDelta only
    | split
    | (clear_value *; split)

theorem execPwrSwrstWrite_only (word : Word) (s : State) : OnlyAns [.free, .out, .words, .mismatch, .glb, .mem, .pwr, .upd, .tco, .refs, .gbb, .svc, .ptp, .eth, .key, .pan, .log, .line, .pair, .links, .lnk, .rings, .hif, .cnt, .perf, .outs, .tio] s (Sys2Proof.Machine.execPwrSwrstWrite word s) := by
  unfold Sys2Proof.Machine.execPwrSwrstWrite
  repeat' first
    | (with_reducible apply OnlyAns.next)
    | (with_reducible apply OnlyAns.cmd)
    | (with_reducible apply OnlyAns.keyCmd)
    | (with_reducible apply OnlyAns.tcoHost)
    | (with_reducible apply OnlyAns.ite <;> intro _)
    | decide
    | with_reducible (apply Only.step (M := [.cnt]); rotate_left; apply perfAdd_only; decide)
    | ((fail_if_no_progress extract_lets +onlyGivenNames x); refine Only.cut (L := [.free, .out, .words, .mismatch, .glb, .mem, .pwr, .upd, .tco, .refs, .gbb, .svc, .ptp, .eth, .key, .pan, .log, .line, .pair, .links, .lnk, .rings, .hif, .cnt, .perf, .outs, .tio]) (s := s) (x := x) ?_ ?_; rotate_left; intro hx; clear_value x; rotate_left; dsimp only [x])
    | ((fail_if_no_progress extract_lets +onlyGivenNames x); refine Only.named (b := x.not) ?_; clear_value x)
    | (fail_if_no_progress extract_lets +onlyGivenNames x)
    | with_reducible apply Only.refl
    | with_reducible assumption
    | (with_reducible apply Only.ite <;> intro _)
    | with_reducible (apply Only.step (M := [.free, .out, .words, .mismatch, .glb, .mem, .pwr, .upd, .tco, .refs, .gbb, .svc, .ptp, .eth, .key, .pan, .log, .line, .pair, .links, .lnk, .rings, .hif, .cnt, .perf, .outs, .tio]); rotate_left; apply hostWr32_only; decide)
    | with_reducible (refine Only.sndEq (by assumption) ?_)
    | with_reducible (refine Only.fstEq (by assumption) ?_)
    | dsimp only
    | dsimp +zetaDelta only
    | split
    | (clear_value *; split)

theorem execChktestGo_only (word : Word) (s : State) : OnlyAns [.free, .out, .words, .mismatch, .glb, .mem, .pwr, .upd, .tco, .refs, .gbb, .svc, .ptp, .eth, .key, .pan, .log, .line, .pair, .links, .lnk, .rings, .hif, .cnt, .perf, .outs, .tio] s (Sys2Proof.Machine.execChktestGo word s) := by
  unfold Sys2Proof.Machine.execChktestGo
  repeat' first
    | (with_reducible apply OnlyAns.next)
    | (with_reducible apply OnlyAns.cmd)
    | (with_reducible apply OnlyAns.keyCmd)
    | (with_reducible apply OnlyAns.tcoHost)
    | (with_reducible apply OnlyAns.ite <;> intro _)
    | decide
    | with_reducible (apply Only.step (M := [.cnt]); rotate_left; apply perfAdd_only; decide)
    | ((fail_if_no_progress extract_lets +onlyGivenNames x); refine Only.cut (L := [.free, .out, .words, .mismatch, .glb, .mem, .pwr, .upd, .tco, .refs, .gbb, .svc, .ptp, .eth, .key, .pan, .log, .line, .pair, .links, .lnk, .rings, .hif, .cnt, .perf, .outs, .tio]) (s := s) (x := x) ?_ ?_; rotate_left; intro hx; clear_value x; rotate_left; dsimp only [x])
    | ((fail_if_no_progress extract_lets +onlyGivenNames x); refine Only.named (b := x.not) ?_; clear_value x)
    | (fail_if_no_progress extract_lets +onlyGivenNames x)
    | with_reducible apply Only.refl
    | with_reducible assumption
    | (with_reducible apply Only.ite <;> intro _)
    | with_reducible (apply Only.step (M := [.free, .out, .words, .mismatch, .glb, .mem, .pwr, .upd, .tco, .refs, .gbb, .svc, .ptp, .eth, .key, .pan, .log, .line, .pair, .links, .lnk, .rings, .hif, .cnt, .perf, .outs, .tio]); rotate_left; apply hostWr32_only; decide)
    | with_reducible (refine Only.sndEq (by assumption) ?_)
    | with_reducible (refine Only.fstEq (by assumption) ?_)
    | dsimp only
    | dsimp +zetaDelta only
    | split
    | (clear_value *; split)

theorem execChktestEnd_only (detected : Bool) (s : State) : OnlyAns [.out, .mem, .pan, .log, .line, .links, .rings, .cnt, .outs] s (Sys2Proof.Machine.execChktestEnd detected s) := by
  unfold Sys2Proof.Machine.execChktestEnd
  repeat' first
    | (with_reducible apply OnlyAns.next)
    | (with_reducible apply OnlyAns.cmd)
    | (with_reducible apply OnlyAns.keyCmd)
    | (with_reducible apply OnlyAns.tcoHost)
    | (with_reducible apply OnlyAns.ite <;> intro _)
    | decide
    | with_reducible (apply Only.step (M := [.cnt]); rotate_left; apply perfAdd_only; decide)
    | ((fail_if_no_progress extract_lets +onlyGivenNames x); refine Only.cut (L := [.out, .mem, .pan, .log, .line, .links, .rings, .cnt, .outs]) (s := s) (x := x) ?_ ?_; rotate_left; intro hx; clear_value x; rotate_left; dsimp only [x])
    | ((fail_if_no_progress extract_lets +onlyGivenNames x); refine Only.named (b := x.not) ?_; clear_value x)
    | (fail_if_no_progress extract_lets +onlyGivenNames x)
    | with_reducible apply Only.refl
    | with_reducible assumption
    | (with_reducible apply Only.ite <;> intro _)
    | with_reducible (apply Only.step (M := [.out, .pan, .log, .links, .rings, .cnt]); rotate_left; apply emitPlain_only; decide)
    | with_reducible (apply Only.step (M := [.out, .pan, .log, .line, .links, .rings, .cnt, .outs]); rotate_left; apply emit_only; decide)
    | (fail_if_no_progress (with_reducible (apply Only.step (M := [.mem]); rotate_left; apply set_mem_only; decide)))
    | with_reducible (refine Only.sndEq (by assumption) ?_)
    | with_reducible (refine Only.fstEq (by assumption) ?_)
    | dsimp only
    | dsimp +zetaDelta only
    | split
    | (clear_value *; split)

theorem execPerfWrapClrWrite_only (word : Word) (s : State) : OnlyAns [.free, .out, .words, .mismatch, .glb, .mem, .pwr, .upd, .tco, .refs, .gbb, .svc, .ptp, .eth, .key, .pan, .log, .line, .pair, .links, .lnk, .rings, .hif, .cnt, .perf, .outs, .tio] s (Sys2Proof.Machine.execPerfWrapClrWrite word s) := by
  unfold Sys2Proof.Machine.execPerfWrapClrWrite
  repeat' first
    | (with_reducible apply OnlyAns.next)
    | (with_reducible apply OnlyAns.cmd)
    | (with_reducible apply OnlyAns.keyCmd)
    | (with_reducible apply OnlyAns.tcoHost)
    | (with_reducible apply OnlyAns.ite <;> intro _)
    | decide
    | with_reducible (apply Only.step (M := [.cnt]); rotate_left; apply perfAdd_only; decide)
    | ((fail_if_no_progress extract_lets +onlyGivenNames x); refine Only.cut (L := [.free, .out, .words, .mismatch, .glb, .mem, .pwr, .upd, .tco, .refs, .gbb, .svc, .ptp, .eth, .key, .pan, .log, .line, .pair, .links, .lnk, .rings, .hif, .cnt, .perf, .outs, .tio]) (s := s) (x := x) ?_ ?_; rotate_left; intro hx; clear_value x; rotate_left; dsimp only [x])
    | ((fail_if_no_progress extract_lets +onlyGivenNames x); refine Only.named (b := x.not) ?_; clear_value x)
    | (fail_if_no_progress extract_lets +onlyGivenNames x)
    | with_reducible apply Only.refl
    | with_reducible assumption
    | (with_reducible apply Only.ite <;> intro _)
    | with_reducible (apply Only.step (M := [.free, .out, .words, .mismatch, .glb, .mem, .pwr, .upd, .tco, .refs, .gbb, .svc, .ptp, .eth, .key, .pan, .log, .line, .pair, .links, .lnk, .rings, .hif, .cnt, .perf, .outs, .tio]); rotate_left; apply hostWr32_only; decide)
    | with_reducible (refine Only.sndEq (by assumption) ?_)
    | with_reducible (refine Only.fstEq (by assumption) ?_)
    | dsimp only
    | dsimp +zetaDelta only
    | split
    | (clear_value *; split)

theorem execBar2Access_only (off : Nat) (data : Option (List Byte)) (len : Nat) (s : State) : OnlyAns [.free, .out, .pan, .log, .line, .links, .rings, .cnt, .perf, .outs] s (Sys2Proof.Machine.execBar2Access off data len s) := by
  unfold Sys2Proof.Machine.execBar2Access
  repeat' first
    | (with_reducible apply OnlyAns.next)
    | (with_reducible apply OnlyAns.cmd)
    | (with_reducible apply OnlyAns.keyCmd)
    | (with_reducible apply OnlyAns.tcoHost)
    | (with_reducible apply OnlyAns.ite <;> intro _)
    | decide
    | with_reducible (apply Only.step (M := [.cnt]); rotate_left; apply perfAdd_only; decide)
    | ((fail_if_no_progress extract_lets +onlyGivenNames x); refine Only.cut (L := [.free, .out, .pan, .log, .line, .links, .rings, .cnt, .perf, .outs]) (s := s) (x := x) ?_ ?_; rotate_left; intro hx; clear_value x; rotate_left; dsimp only [x])
    | ((fail_if_no_progress extract_lets +onlyGivenNames x); refine Only.named (b := x.not) ?_; clear_value x)
    | (fail_if_no_progress extract_lets +onlyGivenNames x)
    | (with_reducible apply Only.foldl; (intro _ _ _))
    | (with_reducible apply Only.foldlFst; (intro _ _ _))
    | with_reducible apply Only.refl
    | with_reducible assumption
    | (with_reducible apply Only.ite <;> intro _)
    | with_reducible (apply Only.step (M := [.out, .pan, .log, .line, .links, .rings, .cnt, .perf, .outs]); rotate_left; apply userDenied_only; decide)
    | with_reducible (apply Only.step (M := [.free]); rotate_left; exact bar2Word_only_eq ‹_›; decide)
    | with_reducible (apply Only.step (M := [.free]); rotate_left; apply bar2Word_only; decide)
    | with_reducible (apply Only.step (M := [.out]); rotate_left; apply readOut_only; decide)
    | with_reducible (refine Only.sndEq (by assumption) ?_)
    | with_reducible (refine Only.fstEq (by assumption) ?_)
    | dsimp only
    | dsimp +zetaDelta only
    | split
    | (clear_value *; split)

theorem execRegisterRead_only (addr : Nat) (len : Nat) (s : State) : OnlyAns [.free, .out, .words, .mismatch, .glb, .mem, .pwr, .upd, .tco, .refs, .gbb, .svc, .ptp, .eth, .key, .pan, .log, .line, .pair, .links, .lnk, .rings, .hif, .cnt, .perf, .outs, .tio] s (Sys2Proof.Machine.execRegisterRead addr len s) := by
  unfold Sys2Proof.Machine.execRegisterRead
  repeat' first
    | (with_reducible apply OnlyAns.next)
    | (with_reducible apply OnlyAns.cmd)
    | (with_reducible apply OnlyAns.keyCmd)
    | (with_reducible apply OnlyAns.tcoHost)
    | (with_reducible apply OnlyAns.ite <;> intro _)
    | decide
    | with_reducible (apply Only.step (M := [.cnt]); rotate_left; apply perfAdd_only; decide)
    | ((fail_if_no_progress extract_lets +onlyGivenNames x); refine Only.cut (L := [.free, .out, .words, .mismatch, .glb, .mem, .pwr, .upd, .tco, .refs, .gbb, .svc, .ptp, .eth, .key, .pan, .log, .line, .pair, .links, .lnk, .rings, .hif, .cnt, .perf, .outs, .tio]) (s := s) (x := x) ?_ ?_; rotate_left; intro hx; clear_value x; rotate_left; dsimp only [x])
    | ((fail_if_no_progress extract_lets +onlyGivenNames x); refine Only.named (b := x.not) ?_; clear_value x)
    | (fail_if_no_progress extract_lets +onlyGivenNames x)
    | with_reducible apply Only.refl
    | with_reducible assumption
    | (with_reducible apply Only.ite <;> intro _)
    | with_reducible (apply Only.step (M := [.free, .out, .words, .mismatch, .glb, .mem, .pwr, .upd, .tco, .refs, .gbb, .svc, .ptp, .eth, .key, .pan, .log, .line, .pair, .links, .lnk, .rings, .hif, .cnt, .perf, .outs, .tio]); rotate_left; apply hostRd_only; decide)
    | with_reducible (refine Only.sndEq (by assumption) ?_)
    | with_reducible (refine Only.fstEq (by assumption) ?_)
    | dsimp only
    | dsimp +zetaDelta only
    | split
    | (clear_value *; split)

end Sys2Proof.Laws
end

