-- ==== Sys2Proof/Laws/CmdKey.lean ====
section
/-! SUPPORT. What each command and event of Machine/Key.lean can touch. -/
set_option linter.unusedTactic false
set_option linter.unreachableTactic false
namespace Sys2Proof.Laws
open Sys2Proof
open Sys2Proof.Machine
open Sys2Proof.Safety

theorem execTamperDetect_only (source : Fin 13) (s : State) : OnlyAns [.out, .svc, .ptp, .eth, .key, .pan, .log, .line, .pair, .links, .rings, .hif, .cnt, .outs] s (Sys2Proof.Machine.execTamperDetect source s) := by
  unfold Sys2Proof.Machine.execTamperDetect
  repeat' first
    | (with_reducible apply OnlyAns.next)
    | (with_reducible apply OnlyAns.cmd)
    | (with_reducible apply OnlyAns.keyCmd)
    | (with_reducible apply OnlyAns.tcoHost)
    | (with_reducible apply OnlyAns.ite <;> intro _)
    | decide
    | with_reducible (apply Only.step (M := [.cnt]); rotate_left; apply perfAdd_only; decide)
    | ((fail_if_no_progress extract_lets +onlyGivenNames x); refine Only.cut (L := [.out, .svc, .ptp, .eth, .key, .pan, .log, .line, .pair, .links, .rings, .hif, .cnt, .outs]) (s := s) (x := x) ?_ ?_; rotate_left; intro hx; clear_value x; rotate_left; dsimp only [x])
    | ((fail_if_no_progress extract_lets +onlyGivenNames x); refine Only.named (b := x.not) ?_; clear_value x)
    | (fail_if_no_progress extract_lets +onlyGivenNames x)
    | (with_reducible apply Only.foldl; (intro _ _ _))
    | (with_reducible apply Only.foldlFst; (intro _ _ _))
    | with_reducible apply Only.refl
    | with_reducible assumption
    | (with_reducible apply Only.ite <;> intro _)
    | with_reducible (apply Only.step (M := [.key]); rotate_left; apply modKey_only; decide)
    | with_reducible (apply Only.step (M := [.out, .svc, .ptp, .eth, .key, .pan, .log, .line, .pair, .links, .rings, .hif, .cnt, .outs]); rotate_left; apply tamper_only; decide)
    | with_reducible (refine Only.sndEq (by assumption) ?_)
    | with_reducible (refine Only.fstEq (by assumption) ?_)
    | dsimp only
    | dsimp +zetaDelta only
    | split
    | (clear_value *; split)

theorem execInvalidateCommit_only (s : State) : OnlyAns [.out, .svc, .ptp, .key, .pan, .log, .line, .pair, .links, .rings, .hif, .cnt, .outs] s (Sys2Proof.Machine.execInvalidateCommit s) := by
  unfold Sys2Proof.Machine.execInvalidateCommit
  repeat' first
    | (with_reducible apply OnlyAns.next)
    | (with_reducible apply OnlyAns.cmd)
    | (with_reducible apply OnlyAns.keyCmd)
    | (with_reducible apply OnlyAns.tcoHost)
    | (with_reducible apply OnlyAns.ite <;> intro _)
    | decide
    | with_reducible (apply Only.step (M := [.cnt]); rotate_left; apply perfAdd_only; decide)
    | ((fail_if_no_progress extract_lets +onlyGivenNames x); refine Only.cut (L := [.out, .svc, .ptp, .key, .pan, .log, .line, .pair, .links, .rings, .hif, .cnt, .outs]) (s := s) (x := x) ?_ ?_; rotate_left; intro hx; clear_value x; rotate_left; dsimp only [x])
    | ((fail_if_no_progress extract_lets +onlyGivenNames x); refine Only.named (b := x.not) ?_; clear_value x)
    | (fail_if_no_progress extract_lets +onlyGivenNames x)
    | with_reducible apply Only.refl
    | with_reducible assumption
    | (with_reducible apply Only.ite <;> intro _)
    | with_reducible (apply Only.step (M := [.out, .svc, .ptp, .key, .pan, .log, .line, .pair, .links, .rings, .hif, .cnt, .outs]); rotate_left; apply commitInval_only; decide)
    | with_reducible (apply Only.step (M := [.key]); rotate_left; apply modKey_only; decide)
    | with_reducible (refine Only.sndEq (by assumption) ?_)
    | with_reducible (refine Only.fstEq (by assumption) ?_)
    | dsimp only
    | dsimp +zetaDelta only
    | split
    | (clear_value *; split)

theorem execKeyMaterialZero_only (s : State) : OnlyAns [.key] s (Sys2Proof.Machine.execKeyMaterialZero s) := by
  unfold Sys2Proof.Machine.execKeyMaterialZero
  repeat' first
    | (with_reducible apply OnlyAns.next)
    | (with_reducible apply OnlyAns.cmd)
    | (with_reducible apply OnlyAns.keyCmd)
    | (with_reducible apply OnlyAns.tcoHost)
    | (with_reducible apply OnlyAns.ite <;> intro _)
    | decide
    | with_reducible (apply Only.step (M := [.cnt]); rotate_left; apply perfAdd_only; decide)
    | ((fail_if_no_progress extract_lets +onlyGivenNames x); refine Only.cut (L := [.key]) (s := s) (x := x) ?_ ?_; rotate_left; intro hx; clear_value x; rotate_left; dsimp only [x])
    | ((fail_if_no_progress extract_lets +onlyGivenNames x); refine Only.named (b := x.not) ?_; clear_value x)
    | (fail_if_no_progress extract_lets +onlyGivenNames x)
    | (with_reducible apply Only.foldl; (intro _ _ _))
    | (with_reducible apply Only.foldlFst; (intro _ _ _))
    | with_reducible apply Only.refl
    | with_reducible assumption
    | (with_reducible apply Only.ite <;> intro _)
    | with_reducible (apply Only.step (M := [.key]); rotate_left; apply modKey_only; decide)
    | with_reducible (apply Only.step (M := [.key]); rotate_left; apply zeroMaterial_only; decide)
    | with_reducible (refine Only.sndEq (by assumption) ?_)
    | with_reducible (refine Only.fstEq (by assumption) ?_)
    | dsimp only
    | dsimp +zetaDelta only
    | split
    | (clear_value *; split)

theorem execDrbgReseed_only (s : State) : OnlyAns [.key, .cnt] s (Sys2Proof.Machine.execDrbgReseed s) := by
  unfold Sys2Proof.Machine.execDrbgReseed
  repeat' first
    | (with_reducible apply OnlyAns.next)
    | (with_reducible apply OnlyAns.cmd)
    | (with_reducible apply OnlyAns.keyCmd)
    | (with_reducible apply OnlyAns.tcoHost)
    | (with_reducible apply OnlyAns.ite <;> intro _)
    | decide
    | with_reducible (apply Only.step (M := [.cnt]); rotate_left; apply perfAdd_only; decide)
    | ((fail_if_no_progress extract_lets +onlyGivenNames x); refine Only.cut (L := [.key, .cnt]) (s := s) (x := x) ?_ ?_; rotate_left; intro hx; clear_value x; rotate_left; dsimp only [x])
    | ((fail_if_no_progress extract_lets +onlyGivenNames x); refine Only.named (b := x.not) ?_; clear_value x)
    | (fail_if_no_progress extract_lets +onlyGivenNames x)
    | with_reducible apply Only.refl
    | with_reducible assumption
    | (with_reducible apply Only.ite <;> intro _)
    | with_reducible (apply Only.step (M := [.cnt]); rotate_left; apply perfAdd_only; decide)
    | with_reducible (apply Only.step (M := [.key]); rotate_left; apply modKey_only; decide)
    | with_reducible (refine Only.sndEq (by assumption) ?_)
    | with_reducible (refine Only.fstEq (by assumption) ?_)
    | dsimp only
    | dsimp +zetaDelta only
    | split
    | (clear_value *; split)

theorem execRngFail_only (rep : Bool) (adapt : Bool) (s : State) : OnlyAns [.out, .key, .pan, .log, .line, .links, .rings, .cnt, .outs] s (Sys2Proof.Machine.execRngFail rep adapt s) := by
  unfold Sys2Proof.Machine.execRngFail
  repeat' first
    | (with_reducible apply OnlyAns.next)
    | (with_reducible apply OnlyAns.cmd)
    | (with_reducible apply OnlyAns.keyCmd)
    | (with_reducible apply OnlyAns.tcoHost)
    | (with_reducible apply OnlyAns.ite <;> intro _)
    | decide
    | with_reducible (apply Only.step (M := [.cnt]); rotate_left; apply perfAdd_only; decide)
    | ((fail_if_no_progress extract_lets +onlyGivenNames x); refine Only.cut (L := [.out, .key, .pan, .log, .line, .links, .rings, .cnt, .outs]) (s := s) (x := x) ?_ ?_; rotate_left; intro hx; clear_value x; rotate_left; dsimp only [x])
    | ((fail_if_no_progress extract_lets +onlyGivenNames x); refine Only.named (b := x.not) ?_; clear_value x)
    | (fail_if_no_progress extract_lets +onlyGivenNames x)
    | with_reducible apply Only.refl
    | with_reducible assumption
    | (with_reducible apply Only.ite <;> intro _)
    | with_reducible (apply Only.step (M := [.out, .pan, .log, .line, .links, .rings, .cnt, .outs]); rotate_left; apply emit_only; decide)
    | with_reducible (apply Only.step (M := [.key]); rotate_left; apply modKey_only; decide)
    | with_reducible (refine Only.sndEq (by assumption) ?_)
    | with_reducible (refine Only.fstEq (by assumption) ?_)
    | dsimp only
    | dsimp +zetaDelta only
    | split
    | (clear_value *; split)

theorem execEntropyRestart_only (ok : Bool) (s : State) : OnlyAns [.key] s (Sys2Proof.Machine.execEntropyRestart ok s) := by
  unfold Sys2Proof.Machine.execEntropyRestart
  repeat' first
    | (with_reducible apply OnlyAns.next)
    | (with_reducible apply OnlyAns.cmd)
    | (with_reducible apply OnlyAns.keyCmd)
    | (with_reducible apply OnlyAns.tcoHost)
    | (with_reducible apply OnlyAns.ite <;> intro _)
    | decide
    | with_reducible (apply Only.step (M := [.cnt]); rotate_left; apply perfAdd_only; decide)
    | ((fail_if_no_progress extract_lets +onlyGivenNames x); refine Only.cut (L := [.key]) (s := s) (x := x) ?_ ?_; rotate_left; intro hx; clear_value x; rotate_left; dsimp only [x])
    | ((fail_if_no_progress extract_lets +onlyGivenNames x); refine Only.named (b := x.not) ?_; clear_value x)
    | (fail_if_no_progress extract_lets +onlyGivenNames x)
    | with_reducible apply Only.refl
    | with_reducible assumption
    | (with_reducible apply Only.ite <;> intro _)
    | with_reducible (apply Only.step (M := [.key]); rotate_left; apply modKey_only; decide)
    | with_reducible (refine Only.sndEq (by assumption) ?_)
    | with_reducible (refine Only.fstEq (by assumption) ?_)
    | dsimp only
    | dsimp +zetaDelta only
    | split
    | (clear_value *; split)

theorem execDrbgExhausted_only (s : State) : OnlyAns [.out, .svc, .ptp, .eth, .key, .pan, .log, .line, .pair, .links, .rings, .hif, .cnt, .outs] s (Sys2Proof.Machine.execDrbgExhausted s) := by
  unfold Sys2Proof.Machine.execDrbgExhausted
  repeat' first
    | (with_reducible apply OnlyAns.next)
    | (with_reducible apply OnlyAns.cmd)
    | (with_reducible apply OnlyAns.keyCmd)
    | (with_reducible apply OnlyAns.tcoHost)
    | (with_reducible apply OnlyAns.ite <;> intro _)
    | decide
    | with_reducible (apply Only.step (M := [.cnt]); rotate_left; apply perfAdd_only; decide)
    | ((fail_if_no_progress extract_lets +onlyGivenNames x); refine Only.cut (L := [.out, .svc, .ptp, .eth, .key, .pan, .log, .line, .pair, .links, .rings, .hif, .cnt, .outs]) (s := s) (x := x) ?_ ?_; rotate_left; intro hx; clear_value x; rotate_left; dsimp only [x])
    | ((fail_if_no_progress extract_lets +onlyGivenNames x); refine Only.named (b := x.not) ?_; clear_value x)
    | (fail_if_no_progress extract_lets +onlyGivenNames x)
    | with_reducible apply Only.refl
    | with_reducible assumption
    | (with_reducible apply Only.ite <;> intro _)
    | with_reducible (apply Only.step (M := [.out, .svc, .ptp, .eth, .key, .pan, .log, .line, .pair, .links, .rings, .hif, .cnt, .outs]); rotate_left; apply tamper_only; decide)
    | with_reducible (apply Only.step (M := [.key]); rotate_left; apply modKey_only; decide)
    | with_reducible (refine Only.sndEq (by assumption) ?_)
    | with_reducible (refine Only.fstEq (by assumption) ?_)
    | dsimp only
    | dsimp +zetaDelta only
    | split
    | (clear_value *; split)

theorem execKeyQuery_only (hd : Hdr) (slot : BitVec 8) (s : State) : OnlyAns [.hif, .cnt] s (Sys2Proof.Machine.execKeyQuery hd slot s) := by
  unfold Sys2Proof.Machine.execKeyQuery
  repeat' first
    | (with_reducible apply OnlyAns.next)
    | (with_reducible apply OnlyAns.cmd)
    | (with_reducible apply OnlyAns.keyCmd)
    | (with_reducible apply OnlyAns.tcoHost)
    | (with_reducible apply OnlyAns.ite <;> intro _)
    | decide
    | with_reducible (apply Only.step (M := [.cnt]); rotate_left; apply perfAdd_only; decide)
    | ((fail_if_no_progress extract_lets +onlyGivenNames x); refine Only.cut (L := [.hif, .cnt]) (s := s) (x := x) ?_ ?_; rotate_left; intro hx; clear_value x; rotate_left; dsimp only [x])
    | ((fail_if_no_progress extract_lets +onlyGivenNames x); refine Only.named (b := x.not) ?_; clear_value x)
    | (fail_if_no_progress extract_lets +onlyGivenNames x)
    | with_reducible apply Only.refl
    | with_reducible assumption
    | (with_reducible apply Only.ite <;> intro _)
    | with_reducible (apply Only.step (M := [.hif]); rotate_left; apply keyResult_only; decide)
    | with_reducible (refine Only.sndEq (by assumption) ?_)
    | with_reducible (refine Only.fstEq (by assumption) ?_)
    | dsimp only
    | dsimp +zetaDelta only
    | split
    | (clear_value *; split)

theorem execKeyGen_only (hd : Hdr) (slot : BitVec 8) (attr : BitVec 32) (s : State) : OnlyAns [.key, .hif, .cnt] s (Sys2Proof.Machine.execKeyGen hd slot attr s) := by
  unfold Sys2Proof.Machine.execKeyGen
  repeat' first
    | (with_reducible apply OnlyAns.next)
    | (with_reducible apply OnlyAns.cmd)
    | (with_reducible apply OnlyAns.keyCmd)
    | (with_reducible apply OnlyAns.tcoHost)
    | (with_reducible apply OnlyAns.ite <;> intro _)
    | decide
    | with_reducible (apply Only.step (M := [.cnt]); rotate_left; apply perfAdd_only; decide)
    | ((fail_if_no_progress extract_lets +onlyGivenNames x); refine Only.cut (L := [.key, .hif, .cnt]) (s := s) (x := x) ?_ ?_; rotate_left; intro hx; clear_value x; rotate_left; dsimp only [x])
    | ((fail_if_no_progress extract_lets +onlyGivenNames x); refine Only.named (b := x.not) ?_; clear_value x)
    | (fail_if_no_progress extract_lets +onlyGivenNames x)
    | with_reducible apply Only.refl
    | with_reducible assumption
    | (with_reducible apply Only.ite <;> intro _)
    | with_reducible (apply Only.step (M := [.hif]); rotate_left; apply fin_only; decide)
    | with_reducible (apply Only.step (M := [.key, .cnt]); rotate_left; exact draw_only_eq ‹_›; decide)
    | with_reducible (apply Only.step (M := [.key, .cnt]); rotate_left; apply draw_only; decide)
    | with_reducible (apply Only.step (M := [.hif]); rotate_left; apply keyResult_only; decide)
    | with_reducible (apply Only.step (M := [.key]); rotate_left; apply fillSlot_only; decide)
    | with_reducible (refine Only.sndEq (by assumption) ?_)
    | with_reducible (refine Only.fstEq (by assumption) ?_)
    | dsimp only
    | dsimp +zetaDelta only
    | split
    | (clear_value *; split)

theorem execKeyImport_only (hd : Hdr) (slot : BitVec 8) (wrap : BitVec 8) (addr : BitVec 64) (len : BitVec 32) (blob : List Byte) (s : State) : OnlyAns [.out, .key, .links, .lnk, .hif, .cnt] s (Sys2Proof.Machine.execKeyImport hd slot wrap addr len blob s) := by
  unfold Sys2Proof.Machine.execKeyImport
  repeat' first
    | (with_reducible apply OnlyAns.next)
    | (with_reducible apply OnlyAns.cmd)
    | (with_reducible apply OnlyAns.keyCmd)
    | (with_reducible apply OnlyAns.tcoHost)
    | (with_reducible apply OnlyAns.ite <;> intro _)
    | decide
    | with_reducible (apply Only.step (M := [.cnt]); rotate_left; apply perfAdd_only; decide)
    | ((fail_if_no_progress extract_lets +onlyGivenNames x); refine Only.cut (L := [.out, .key, .links, .lnk, .hif, .cnt]) (s := s) (x := x) ?_ ?_; rotate_left; intro hx; clear_value x; rotate_left; dsimp only [x])
    | ((fail_if_no_progress extract_lets +onlyGivenNames x); refine Only.named (b := x.not) ?_; clear_value x)
    | (fail_if_no_progress extract_lets +onlyGivenNames x)
    | with_reducible apply Only.refl
    | with_reducible assumption
    | (with_reducible apply Only.ite <;> intro _)
    | with_reducible (apply Only.step (M := [.hif]); rotate_left; apply fin_only; decide)
    | with_reducible (apply Only.step (M := [.out, .links, .lnk, .cnt]); rotate_left; apply hostRead_only; decide)
    | with_reducible (apply Only.step (M := [.hif]); rotate_left; apply keyResult_only; decide)
    | with_reducible (apply Only.step (M := [.key]); rotate_left; apply fillSlot_only; decide)
    | with_reducible (refine Only.sndEq (by assumption) ?_)
    | with_reducible (refine Only.fstEq (by assumption) ?_)
    | dsimp only
    | dsimp +zetaDelta only
    | split
    | (clear_value *; split)

theorem execKeyDerive_only (hd : Hdr) (slot : BitVec 8) (parent : BitVec 8) (kdf : BitVec 8) (attr : BitVec 32) (addr : BitVec 64) (len : BitVec 16) (ctx : List Byte) (s : State) : OnlyAns [.out, .key, .links, .lnk, .hif, .cnt] s (Sys2Proof.Machine.execKeyDerive hd slot parent kdf attr addr len ctx s) := by
  unfold Sys2Proof.Machine.execKeyDerive
  repeat' first
    | (with_reducible apply OnlyAns.next)
    | (with_reducible apply OnlyAns.cmd)
    | (with_reducible apply OnlyAns.keyCmd)
    | (with_reducible apply OnlyAns.tcoHost)
    | (with_reducible apply OnlyAns.ite <;> intro _)
    | decide
    | with_reducible (apply Only.step (M := [.cnt]); rotate_left; apply perfAdd_only; decide)
    | ((fail_if_no_progress extract_lets +onlyGivenNames x); refine Only.cut (L := [.out, .key, .links, .lnk, .hif, .cnt]) (s := s) (x := x) ?_ ?_; rotate_left; intro hx; clear_value x; rotate_left; dsimp only [x])
    | ((fail_if_no_progress extract_lets +onlyGivenNames x); refine Only.named (b := x.not) ?_; clear_value x)
    | (fail_if_no_progress extract_lets +onlyGivenNames x)
    | with_reducible apply Only.refl
    | with_reducible assumption
    | (with_reducible apply Only.ite <;> intro _)
    | with_reducible (apply Only.step (M := [.hif]); rotate_left; apply fin_only; decide)
    | with_reducible (apply Only.step (M := [.out, .links, .lnk, .cnt]); rotate_left; apply hostRead_only; decide)
    | with_reducible (apply Only.step (M := [.hif]); rotate_left; apply keyResult_only; decide)
    | with_reducible (apply Only.step (M := [.key]); rotate_left; apply fillSlot_only; decide)
    | with_reducible (refine Only.sndEq (by assumption) ?_)
    | with_reducible (refine Only.fstEq (by assumption) ?_)
    | dsimp only
    | dsimp +zetaDelta only
    | split
    | (clear_value *; split)

theorem execKeyExport_only (hd : Hdr) (slot : BitVec 8) (wrap : BitVec 8) (addr : BitVec 64) (len : BitVec 32) (s : State) : OnlyAns [.out, .key, .links, .hif, .cnt] s (Sys2Proof.Machine.execKeyExport hd slot wrap addr len s) := by
  unfold Sys2Proof.Machine.execKeyExport
  repeat' first
    | (with_reducible apply OnlyAns.next)
    | (with_reducible apply OnlyAns.cmd)
    | (with_reducible apply OnlyAns.keyCmd)
    | (with_reducible apply OnlyAns.tcoHost)
    | (with_reducible apply OnlyAns.ite <;> intro _)
    | decide
    | with_reducible (apply Only.step (M := [.cnt]); rotate_left; apply perfAdd_only; decide)
    | ((fail_if_no_progress extract_lets +onlyGivenNames x); refine Only.cut (L := [.out, .key, .links, .hif, .cnt]) (s := s) (x := x) ?_ ?_; rotate_left; intro hx; clear_value x; rotate_left; dsimp only [x])
    | ((fail_if_no_progress extract_lets +onlyGivenNames x); refine Only.named (b := x.not) ?_; clear_value x)
    | (fail_if_no_progress extract_lets +onlyGivenNames x)
    | with_reducible apply Only.refl
    | with_reducible assumption
    | (with_reducible apply Only.ite <;> intro _)
    | with_reducible (apply Only.step (M := [.hif]); rotate_left; apply fin_only; decide)
    | with_reducible (apply Only.step (M := [.key, .cnt]); rotate_left; exact wrapBlob_only_eq ‹_›; decide)
    | with_reducible (apply Only.step (M := [.key, .cnt]); rotate_left; apply wrapBlob_only; decide)
    | with_reducible (apply Only.step (M := [.hif]); rotate_left; apply complete_only; decide)
    | with_reducible (apply Only.step (M := [.out, .links, .cnt]); rotate_left; apply hostDma_only; decide)
    | with_reducible (refine Only.sndEq (by assumption) ?_)
    | with_reducible (refine Only.fstEq (by assumption) ?_)
    | dsimp only
    | dsimp +zetaDelta only
    | split
    | (clear_value *; split)

theorem execKeyInvalidate_only (hd : Hdr) (slot : BitVec 8) (s : State) : OnlyAns [.key, .hif, .cnt] s (Sys2Proof.Machine.execKeyInvalidate hd slot s) := by
  unfold Sys2Proof.Machine.execKeyInvalidate
  repeat' first
    | (with_reducible apply OnlyAns.next)
    | (with_reducible apply OnlyAns.cmd)
    | (with_reducible apply OnlyAns.keyCmd)
    | (with_reducible apply OnlyAns.tcoHost)
    | (with_reducible apply OnlyAns.ite <;> intro _)
    | decide
    | with_reducible (apply Only.step (M := [.cnt]); rotate_left; apply perfAdd_only; decide)
    | ((fail_if_no_progress extract_lets +onlyGivenNames x); refine Only.cut (L := [.key, .hif, .cnt]) (s := s) (x := x) ?_ ?_; rotate_left; intro hx; clear_value x; rotate_left; dsimp only [x])
    | ((fail_if_no_progress extract_lets +onlyGivenNames x); refine Only.named (b := x.not) ?_; clear_value x)
    | (fail_if_no_progress extract_lets +onlyGivenNames x)
    | with_reducible apply Only.refl
    | with_reducible assumption
    | (with_reducible apply Only.ite <;> intro _)
    | with_reducible (apply Only.step (M := [.hif]); rotate_left; apply fin_only; decide)
    | with_reducible (apply Only.step (M := [.key]); rotate_left; apply beginInval_only; decide)
    | with_reducible (refine Only.sndEq (by assumption) ?_)
    | with_reducible (refine Only.fstEq (by assumption) ?_)
    | dsimp only
    | dsimp +zetaDelta only
    | split
    | (clear_value *; split)

theorem execKeyAttest_only (hd : Hdr) (slot : BitVec 8) (nonceAddr : BitVec 64) (addr : BitVec 64) (nonce : List Byte) (s : State) : OnlyAns [.out, .key, .links, .lnk, .hif, .cnt] s (Sys2Proof.Machine.execKeyAttest hd slot nonceAddr addr nonce s) := by
  unfold Sys2Proof.Machine.execKeyAttest
  repeat' first
    | (with_reducible apply OnlyAns.next)
    | (with_reducible apply OnlyAns.cmd)
    | (with_reducible apply OnlyAns.keyCmd)
    | (with_reducible apply OnlyAns.tcoHost)
    | (with_reducible apply OnlyAns.ite <;> intro _)
    | decide
    | with_reducible (apply Only.step (M := [.cnt]); rotate_left; apply perfAdd_only; decide)
    | ((fail_if_no_progress extract_lets +onlyGivenNames x); refine Only.cut (L := [.out, .key, .links, .lnk, .hif, .cnt]) (s := s) (x := x) ?_ ?_; rotate_left; intro hx; clear_value x; rotate_left; dsimp only [x])
    | ((fail_if_no_progress extract_lets +onlyGivenNames x); refine Only.named (b := x.not) ?_; clear_value x)
    | (fail_if_no_progress extract_lets +onlyGivenNames x)
    | with_reducible apply Only.refl
    | with_reducible assumption
    | (with_reducible apply Only.ite <;> intro _)
    | with_reducible (apply Only.step (M := [.out, .links, .lnk, .cnt]); rotate_left; apply hostRead_only; decide)
    | with_reducible (apply Only.step (M := [.key, .cnt]); rotate_left; exact signDigest_only_eq ‹_›; decide)
    | with_reducible (apply Only.step (M := [.key, .cnt]); rotate_left; apply signDigest_only; decide)
    | with_reducible (apply Only.step (M := [.hif]); rotate_left; apply complete_only; decide)
    | with_reducible (apply Only.step (M := [.out, .links, .cnt]); rotate_left; apply hostDma_only; decide)
    | with_reducible (refine Only.sndEq (by assumption) ?_)
    | with_reducible (refine Only.fstEq (by assumption) ?_)
    | dsimp only
    | dsimp +zetaDelta only
    | split
    | (clear_value *; split)

theorem execKeyPublic_only (hd : Hdr) (slot : BitVec 8) (addr : BitVec 64) (s : State) : OnlyAns [.out, .links, .hif, .cnt] s (Sys2Proof.Machine.execKeyPublic hd slot addr s) := by
  unfold Sys2Proof.Machine.execKeyPublic
  repeat' first
    | (with_reducible apply OnlyAns.next)
    | (with_reducible apply OnlyAns.cmd)
    | (with_reducible apply OnlyAns.keyCmd)
    | (with_reducible apply OnlyAns.tcoHost)
    | (with_reducible apply OnlyAns.ite <;> intro _)
    | decide
    | with_reducible (apply Only.step (M := [.cnt]); rotate_left; apply perfAdd_only; decide)
    | ((fail_if_no_progress extract_lets +onlyGivenNames x); refine Only.cut (L := [.out, .links, .hif, .cnt]) (s := s) (x := x) ?_ ?_; rotate_left; intro hx; clear_value x; rotate_left; dsimp only [x])
    | ((fail_if_no_progress extract_lets +onlyGivenNames x); refine Only.named (b := x.not) ?_; clear_value x)
    | (fail_if_no_progress extract_lets +onlyGivenNames x)
    | with_reducible apply Only.refl
    | with_reducible assumption
    | (with_reducible apply Only.ite <;> intro _)
    | with_reducible (apply Only.step (M := [.hif]); rotate_left; apply fin_only; decide)
    | with_reducible (apply Only.step (M := [.hif]); rotate_left; apply complete_only; decide)
    | with_reducible (apply Only.step (M := [.out, .links, .cnt]); rotate_left; apply hostDma_only; decide)
    | with_reducible (refine Only.sndEq (by assumption) ?_)
    | with_reducible (refine Only.fstEq (by assumption) ?_)
    | dsimp only
    | dsimp +zetaDelta only
    | split
    | (clear_value *; split)

theorem execKeySign_only (hd : Hdr) (slot : BitVec 8) (dAddr : BitVec 64) (addr : BitVec 64) (digest : List Byte) (s : State) : OnlyAns [.out, .key, .links, .lnk, .hif, .cnt] s (Sys2Proof.Machine.execKeySign hd slot dAddr addr digest s) := by
  unfold Sys2Proof.Machine.execKeySign
  repeat' first
    | (with_reducible apply OnlyAns.next)
    | (with_reducible apply OnlyAns.cmd)
    | (with_reducible apply OnlyAns.keyCmd)
    | (with_reducible apply OnlyAns.tcoHost)
    | (with_reducible apply OnlyAns.ite <;> intro _)
    | decide
    | with_reducible (apply Only.step (M := [.cnt]); rotate_left; apply perfAdd_only; decide)
    | ((fail_if_no_progress extract_lets +onlyGivenNames x); refine Only.cut (L := [.out, .key, .links, .lnk, .hif, .cnt]) (s := s) (x := x) ?_ ?_; rotate_left; intro hx; clear_value x; rotate_left; dsimp only [x])
    | ((fail_if_no_progress extract_lets +onlyGivenNames x); refine Only.named (b := x.not) ?_; clear_value x)
    | (fail_if_no_progress extract_lets +onlyGivenNames x)
    | with_reducible apply Only.refl
    | with_reducible assumption
    | (with_reducible apply Only.ite <;> intro _)
    | with_reducible (apply Only.step (M := [.hif]); rotate_left; apply fin_only; decide)
    | with_reducible (apply Only.step (M := [.out, .links, .lnk, .cnt]); rotate_left; apply hostRead_only; decide)
    | with_reducible (apply Only.step (M := [.key, .cnt]); rotate_left; exact signDigest_only_eq ‹_›; decide)
    | with_reducible (apply Only.step (M := [.key, .cnt]); rotate_left; apply signDigest_only; decide)
    | with_reducible (apply Only.step (M := [.hif]); rotate_left; apply complete_only; decide)
    | with_reducible (apply Only.step (M := [.out, .links, .cnt]); rotate_left; apply hostDma_only; decide)
    | with_reducible (refine Only.sndEq (by assumption) ?_)
    | with_reducible (refine Only.fstEq (by assumption) ?_)
    | dsimp only
    | dsimp +zetaDelta only
    | split
    | (clear_value *; split)

theorem execKeyProvision_only (hd : Hdr) (addr : BitVec 64) (hit : Option (Fin 13)) (s : State) : OnlyAns [.out, .svc, .ptp, .eth, .key, .pan, .log, .line, .pair, .links, .rings, .hif, .cnt, .outs] s (Sys2Proof.Machine.execKeyProvision hd addr hit s) := by
  unfold Sys2Proof.Machine.execKeyProvision
  repeat' first
    | (with_reducible apply OnlyAns.next)
    | (with_reducible apply OnlyAns.cmd)
    | (with_reducible apply OnlyAns.keyCmd)
    | (with_reducible apply OnlyAns.tcoHost)
    | (with_reducible apply OnlyAns.ite <;> intro _)
    | decide
    | with_reducible (apply Only.step (M := [.cnt]); rotate_left; apply perfAdd_only; decide)
    | ((fail_if_no_progress extract_lets +onlyGivenNames x); refine Only.cut (L := [.out, .svc, .ptp, .eth, .key, .pan, .log, .line, .pair, .links, .rings, .hif, .cnt, .outs]) (s := s) (x := x) ?_ ?_; rotate_left; intro hx; clear_value x; rotate_left; dsimp only [x])
    | ((fail_if_no_progress extract_lets +onlyGivenNames x); refine Only.named (b := x.not) ?_; clear_value x)
    | (fail_if_no_progress extract_lets +onlyGivenNames x)
    | with_reducible apply Only.refl
    | with_reducible assumption
    | (with_reducible apply Only.ite <;> intro _)
    | with_reducible (apply Only.step (M := [.hif]); rotate_left; apply fin_only; decide)
    | with_reducible (apply Only.step (M := [.out, .svc, .ptp, .eth, .key, .pan, .log, .line, .pair, .links, .rings, .hif, .cnt, .outs]); rotate_left; apply tamper_only; decide)
    | with_reducible (apply Only.step (M := [.key, .cnt]); rotate_left; exact draw_only_eq ‹_›; decide)
    | with_reducible (apply Only.step (M := [.key, .cnt]); rotate_left; apply draw_only; decide)
    | with_reducible (apply Only.step (M := [.key]); rotate_left; apply deriveFixed_only; decide)
    | with_reducible (apply Only.step (M := [.key]); rotate_left; apply modKey_only; decide)
    | with_reducible (apply Only.step (M := [.out, .links, .cnt]); rotate_left; apply hostDma_only; decide)
    | with_reducible (apply Only.step (M := [.out, .pan, .log, .line, .links, .rings, .cnt, .outs]); rotate_left; apply emit_only; decide)
    | with_reducible (apply Only.step (M := [.hif]); rotate_left; apply complete_only; decide)
    | with_reducible (refine Only.sndEq (by assumption) ?_)
    | with_reducible (refine Only.fstEq (by assumption) ?_)
    | dsimp only
    | dsimp +zetaDelta only
    | split
    | (clear_value *; split)

theorem execKeyTamperRead_only (hd : Hdr) (addr : BitVec 64) (s : State) : OnlyAns [.out, .links, .hif, .cnt] s (Sys2Proof.Machine.execKeyTamperRead hd addr s) := by
  unfold Sys2Proof.Machine.execKeyTamperRead
  repeat' first
    | (with_reducible apply OnlyAns.next)
    | (with_reducible apply OnlyAns.cmd)
    | (with_reducible apply OnlyAns.keyCmd)
    | (with_reducible apply OnlyAns.tcoHost)
    | (with_reducible apply OnlyAns.ite <;> intro _)
    | decide
    | with_reducible (apply Only.step (M := [.cnt]); rotate_left; apply perfAdd_only; decide)
    | ((fail_if_no_progress extract_lets +onlyGivenNames x); refine Only.cut (L := [.out, .links, .hif, .cnt]) (s := s) (x := x) ?_ ?_; rotate_left; intro hx; clear_value x; rotate_left; dsimp only [x])
    | ((fail_if_no_progress extract_lets +onlyGivenNames x); refine Only.named (b := x.not) ?_; clear_value x)
    | (fail_if_no_progress extract_lets +onlyGivenNames x)
    | with_reducible apply Only.refl
    | with_reducible assumption
    | (with_reducible apply Only.ite <;> intro _)
    | with_reducible (apply Only.step (M := [.hif]); rotate_left; apply complete_only; decide)
    | with_reducible (apply Only.step (M := [.out, .links, .cnt]); rotate_left; apply hostDma_only; decide)
    | with_reducible (refine Only.sndEq (by assumption) ?_)
    | with_reducible (refine Only.fstEq (by assumption) ?_)
    | dsimp only
    | dsimp +zetaDelta only
    | split
    | (clear_value *; split)

theorem execTamperClear_only (hd : Hdr) (mask : BitVec 16) (active : BitVec 13) (s : State) : OnlyAns [.out, .key, .pan, .log, .line, .links, .rings, .hif, .cnt, .outs] s (Sys2Proof.Machine.execTamperClear hd mask active s) := by
  unfold Sys2Proof.Machine.execTamperClear
  repeat' first
    | (with_reducible apply OnlyAns.next)
    | (with_reducible apply OnlyAns.cmd)
    | (with_reducible apply OnlyAns.keyCmd)
    | (with_reducible apply OnlyAns.tcoHost)
    | (with_reducible apply OnlyAns.ite <;> intro _)
    | decide
    | with_reducible (apply Only.step (M := [.cnt]); rotate_left; apply perfAdd_only; decide)
    | ((fail_if_no_progress extract_lets +onlyGivenNames x); refine Only.cut (L := [.out, .key, .pan, .log, .line, .links, .rings, .hif, .cnt, .outs]) (s := s) (x := x) ?_ ?_; rotate_left; intro hx; clear_value x; rotate_left; dsimp only [x])
    | ((fail_if_no_progress extract_lets +onlyGivenNames x); refine Only.named (b := x.not) ?_; clear_value x)
    | (fail_if_no_progress extract_lets +onlyGivenNames x)
    | (with_reducible apply Only.foldl; (intro _ _ _))
    | (with_reducible apply Only.foldlFst; (intro _ _ _))
    | with_reducible apply Only.refl
    | with_reducible assumption
    | (with_reducible apply Only.ite <;> intro _)
    | with_reducible (apply Only.step (M := [.key]); rotate_left; apply modKey_only; decide)
    | with_reducible (apply Only.step (M := [.out, .pan, .log, .line, .links, .rings, .cnt, .outs]); rotate_left; apply emit_only; decide)
    | with_reducible (apply Only.step (M := [.hif]); rotate_left; apply complete_only; decide)
    | with_reducible (refine Only.sndEq (by assumption) ?_)
    | with_reducible (refine Only.fstEq (by assumption) ?_)
    | dsimp only
    | dsimp +zetaDelta only
    | split
    | (clear_value *; split)

end Sys2Proof.Laws
end

