-- ==== Sys2Proof/Laws/MirrorRx.lean ====
section
/-! SUPPORT. What each operation of Machine/MirrorRx.lean can touch, once for each. -/
set_option linter.unusedTactic false
set_option linter.unreachableTactic false
namespace Sys2Proof.Laws
open Sys2Proof
open Sys2Proof.Machine
open Sys2Proof.Safety

theorem mirroredActive_only (s : State) (teb : BitVec 32) (cstate : BitVec 8) (w : Int) (utc : BitVec 16) (utcValid : Bool) (pend : BitVec 2) (leapAt : BitVec 32) (lastContr : BitVec 128)  : Only [.out, .tco, .pan, .log, .line, .pair, .links, .rings, .cnt, .outs] s (mirroredActive s teb cstate w utc utcValid pend leapAt lastContr) := by
  unfold mirroredActive
  repeat' first
    | ((fail_if_no_progress extract_lets +onlyGivenNames x); refine Only.cut (L := [.out, .tco, .pan, .log, .line, .pair, .links, .rings, .cnt, .outs]) (s := s) (x := x) ?_ ?_; rotate_left; intro hx; clear_value x; rotate_left; dsimp only [x])
    | ((fail_if_no_progress extract_lets +onlyGivenNames x); refine Only.named (b := x.not) ?_; clear_value x)
    | (fail_if_no_progress extract_lets +onlyGivenNames x)
    | with_reducible apply Only.refl
    | with_reducible assumption
    | (with_reducible apply Only.ite <;> intro _)
    | with_reducible (apply Only.step (M := [.pair]); rotate_left; exact modPair_only_pair _ _ (by intro k; rfl); decide)
    | with_reducible (apply Only.step (M := [.line]); rotate_left; exact modPair_only_line _ _ (by intro k; rfl); decide)
    | with_reducible (apply Only.step (M := [.line, .pair]); rotate_left; apply modPair_only; decide)
    | with_reducible (apply Only.step (M := [.out, .tco, .pan, .log, .line, .links, .rings, .cnt, .outs]); rotate_left; apply utcWrite_only; decide)
    | with_reducible (refine Only.sndEq (by assumption) ?_)
    | with_reducible (refine Only.fstEq (by assumption) ?_)
    | dsimp only
    | dsimp +zetaDelta only
    | split
    | (clear_value *; split)

theorem mirroredWord_only (s : State) (key : Nat) (v : Word)  : Only [.free, .out, .words, .mismatch, .upd, .tco, .refs, .gbb, .svc, .ptp, .eth, .pan, .log, .line, .pair, .links, .lnk, .rings, .hif, .cnt, .perf, .outs, .tio] s (mirroredWord s key v) := by
  unfold mirroredWord
  repeat' first
    | ((fail_if_no_progress extract_lets +onlyGivenNames x); refine Only.cut (L := [.free, .out, .words, .mismatch, .upd, .tco, .refs, .gbb, .svc, .ptp, .eth, .pan, .log, .line, .pair, .links, .lnk, .rings, .hif, .cnt, .perf, .outs, .tio]) (s := s) (x := x) ?_ ?_; rotate_left; intro hx; clear_value x; rotate_left; dsimp only [x])
    | ((fail_if_no_progress extract_lets +onlyGivenNames x); refine Only.named (b := x.not) ?_; clear_value x)
    | (fail_if_no_progress extract_lets +onlyGivenNames x)
    | with_reducible apply Only.refl
    | with_reducible assumption
    | (with_reducible apply Only.ite <;> intro _)
    | with_reducible (apply Only.step (M := [.free, .out, .words, .mismatch, .upd, .tco, .refs, .gbb, .svc, .ptp, .eth, .pan, .log, .line, .pair, .links, .lnk, .rings, .hif, .cnt, .perf, .outs, .tio]); rotate_left; apply applyWord_only; decide)
    | with_reducible (refine Only.sndEq (by assumption) ?_)
    | with_reducible (refine Only.fstEq (by assumption) ?_)
    | dsimp only
    | dsimp +zetaDelta only
    | split
    | (clear_value *; split)

theorem displace_only (s : State) (n : Nat)  : Only [.out, .svc, .ptp, .key, .pan, .log, .line, .pair, .links, .rings, .hif, .cnt, .outs] s (displace s n) := by
  unfold displace
  repeat' first
    | ((fail_if_no_progress extract_lets +onlyGivenNames x); refine Only.cut (L := [.out, .svc, .ptp, .key, .pan, .log, .line, .pair, .links, .rings, .hif, .cnt, .outs]) (s := s) (x := x) ?_ ?_; rotate_left; intro hx; clear_value x; rotate_left; dsimp only [x])
    | ((fail_if_no_progress extract_lets +onlyGivenNames x); refine Only.named (b := x.not) ?_; clear_value x)
    | (fail_if_no_progress extract_lets +onlyGivenNames x)
    | with_reducible apply Only.refl
    | with_reducible assumption
    | (with_reducible apply Only.ite <;> intro _)
    | with_reducible (apply Only.step (M := [.out, .svc, .ptp, .key, .pan, .log, .line, .pair, .links, .rings, .hif, .cnt, .outs]); rotate_left; apply commitInval_only; decide)
    | with_reducible (refine Only.sndEq (by assumption) ?_)
    | with_reducible (refine Only.fstEq (by assumption) ?_)
    | dsimp only
    | dsimp +zetaDelta only
    | split
    | (clear_value *; split)

theorem importMirrored_only (s : State) (n : Nat) (blob : List Byte) (usable : Bool)  : Only [.out, .svc, .ptp, .key, .pan, .log, .line, .pair, .links, .rings, .hif, .cnt, .outs] s (importMirrored s n blob usable).2 := by
  unfold importMirrored
  repeat' first
    | ((fail_if_no_progress extract_lets +onlyGivenNames x); refine Only.cut (L := [.out, .svc, .ptp, .key, .pan, .log, .line, .pair, .links, .rings, .hif, .cnt, .outs]) (s := s) (x := x) ?_ ?_; rotate_left; intro hx; clear_value x; rotate_left; dsimp only [x])
    | ((fail_if_no_progress extract_lets +onlyGivenNames x); refine Only.named (b := x.not) ?_; clear_value x)
    | (fail_if_no_progress extract_lets +onlyGivenNames x)
    | with_reducible apply Only.refl
    | with_reducible assumption
    | (with_reducible apply Only.ite <;> intro _)
    | with_reducible (apply Only.step (M := [.out, .pan, .log, .line, .links, .rings, .cnt, .outs]); rotate_left; apply emit_only; decide)
    | with_reducible (apply Only.step (M := [.key]); rotate_left; apply fillSlot_only; decide)
    | with_reducible (apply Only.step (M := [.out, .svc, .ptp, .key, .pan, .log, .line, .pair, .links, .rings, .hif, .cnt, .outs]); rotate_left; apply displace_only; decide)
    | with_reducible (refine Only.sndEq (by assumption) ?_)
    | with_reducible (refine Only.fstEq (by assumption) ?_)
    | dsimp only
    | dsimp +zetaDelta only
    | split
    | (clear_value *; split)
theorem importMirrored_only_eq {s : State} {n : Nat} {blob : List Byte} {usable : Bool} {r1} {t0 : State} (hEq : importMirrored s n blob usable = (r1, t0)) : Only [.out, .svc, .ptp, .key, .pan, .log, .line, .pair, .links, .rings, .hif, .cnt, .outs] s t0 := by
  have k0 := importMirrored_only s n blob usable
  rw [hEq] at k0; exact k0

theorem mirroredCookie_only (s : State) (i : Fin 16) (keyId : BitVec 32) (slot : BitVec 8) (st : KeyUse) (retire : Option Nat) (blob : List Byte) (usable : Bool)  : Only [.out, .svc, .ptp, .key, .pan, .log, .line, .pair, .links, .rings, .hif, .cnt, .outs] s (mirroredCookie s i keyId slot st retire blob usable) := by
  unfold mirroredCookie
  repeat' first
    | ((fail_if_no_progress extract_lets +onlyGivenNames x); refine Only.cut (L := [.out, .svc, .ptp, .key, .pan, .log, .line, .pair, .links, .rings, .hif, .cnt, .outs]) (s := s) (x := x) ?_ ?_; rotate_left; intro hx; clear_value x; rotate_left; dsimp only [x])
    | ((fail_if_no_progress extract_lets +onlyGivenNames x); refine Only.named (b := x.not) ?_; clear_value x)
    | (fail_if_no_progress extract_lets +onlyGivenNames x)
    | with_reducible apply Only.refl
    | with_reducible assumption
    | (with_reducible apply Only.ite <;> intro _)
    | with_reducible (apply Only.step (M := [.out, .svc, .ptp, .key, .pan, .log, .line, .pair, .links, .rings, .hif, .cnt, .outs]); rotate_left; exact importMirrored_only_eq ‹_›; decide)
    | with_reducible (apply Only.step (M := [.out, .svc, .ptp, .key, .pan, .log, .line, .pair, .links, .rings, .hif, .cnt, .outs]); rotate_left; apply importMirrored_only; decide)
    | with_reducible (apply Only.step (M := [.svc]); rotate_left; apply modCk_only; decide)
    | with_reducible (apply Only.step (M := [.svc]); rotate_left; apply modSvc_only; decide)
    | with_reducible (refine Only.sndEq (by assumption) ?_)
    | with_reducible (refine Only.fstEq (by assumption) ?_)
    | dsimp only
    | dsimp +zetaDelta only
    | split
    | (clear_value *; split)

theorem mirroredSec_only (s : State) (e : Fin 64) (keyId : BitVec 32) (slot : BitVec 8) (spp : BitVec 8) (cmac : Bool) (st : KeyUse) (retire : Option Nat) (blob : List Byte) (usable : Bool)  : Only [.out, .svc, .ptp, .key, .pan, .log, .line, .pair, .links, .rings, .hif, .cnt, .outs] s (mirroredSec s e keyId slot spp cmac st retire blob usable) := by
  unfold mirroredSec
  repeat' first
    | ((fail_if_no_progress extract_lets +onlyGivenNames x); refine Only.cut (L := [.out, .svc, .ptp, .key, .pan, .log, .line, .pair, .links, .rings, .hif, .cnt, .outs]) (s := s) (x := x) ?_ ?_; rotate_left; intro hx; clear_value x; rotate_left; dsimp only [x])
    | ((fail_if_no_progress extract_lets +onlyGivenNames x); refine Only.named (b := x.not) ?_; clear_value x)
    | (fail_if_no_progress extract_lets +onlyGivenNames x)
    | with_reducible apply Only.refl
    | with_reducible assumption
    | (with_reducible apply Only.ite <;> intro _)
    | with_reducible (apply Only.step (M := [.out, .svc, .ptp, .key, .pan, .log, .line, .pair, .links, .rings, .hif, .cnt, .outs]); rotate_left; exact importMirrored_only_eq ‹_›; decide)
    | with_reducible (apply Only.step (M := [.out, .svc, .ptp, .key, .pan, .log, .line, .pair, .links, .rings, .hif, .cnt, .outs]); rotate_left; apply importMirrored_only; decide)
    | with_reducible (apply Only.step (M := [.ptp]); rotate_left; apply modPtp_only; decide)
    | with_reducible (apply Only.step (M := [.ptp]); rotate_left; apply keyBack_only; decide)
    | with_reducible (apply Only.step (M := [.ptp]); rotate_left; apply modSec_only; decide)
    | with_reducible (refine Only.sndEq (by assumption) ?_)
    | with_reducible (refine Only.fstEq (by assumption) ?_)
    | dsimp only
    | dsimp +zetaDelta only
    | split
    | (clear_value *; split)

theorem mirroredGrant_only (s : State) (e : Nat) (g : GrantEntry) (streams : List (Option StreamRec))  : Only [.ptp] s (mirroredGrant s e g streams) := by
  unfold mirroredGrant
  repeat' first
    | ((fail_if_no_progress extract_lets +onlyGivenNames x); refine Only.cut (L := [.ptp]) (s := s) (x := x) ?_ ?_; rotate_left; intro hx; clear_value x; rotate_left; dsimp only [x])
    | ((fail_if_no_progress extract_lets +onlyGivenNames x); refine Only.named (b := x.not) ?_; clear_value x)
    | (fail_if_no_progress extract_lets +onlyGivenNames x)
    | with_reducible apply Only.refl
    | with_reducible assumption
    | (with_reducible apply Only.ite <;> intro _)
    | with_reducible (apply Only.step (M := [.ptp]); rotate_left; apply putGrant_only; decide)
    | with_reducible (refine Only.sndEq (by assumption) ?_)
    | with_reducible (refine Only.fstEq (by assumption) ?_)
    | dsimp only
    | dsimp +zetaDelta only
    | split
    | (clear_value *; split)

theorem mirroredTrig_only (s : State) (pin : Fin 16) (t : Trig)  : Only [.tio] s (mirroredTrig s pin t) := by
  unfold mirroredTrig
  repeat' first
    | ((fail_if_no_progress extract_lets +onlyGivenNames x); refine Only.cut (L := [.tio]) (s := s) (x := x) ?_ ?_; rotate_left; intro hx; clear_value x; rotate_left; dsimp only [x])
    | ((fail_if_no_progress extract_lets +onlyGivenNames x); refine Only.named (b := x.not) ?_; clear_value x)
    | (fail_if_no_progress extract_lets +onlyGivenNames x)
    | with_reducible apply Only.refl
    | with_reducible assumption
    | (with_reducible apply Only.ite <;> intro _)
    | (fail_if_no_progress (with_reducible (apply Only.step (M := [.tio]); rotate_left; apply set_tio_only_tio; rfl; decide)))
    | with_reducible (refine Only.sndEq (by assumption) ?_)
    | with_reducible (refine Only.fstEq (by assumption) ?_)
    | dsimp only
    | dsimp +zetaDelta only
    | split
    | (clear_value *; split)

theorem applyRec_only (s : State) (r : MirrorRec)  : Only [.free, .out, .words, .mismatch, .upd, .tco, .refs, .gbb, .svc, .ptp, .eth, .key, .pan, .log, .line, .pair, .links, .lnk, .rings, .hif, .cnt, .perf, .outs, .tio] s (applyRec s r) := by
  unfold applyRec
  repeat' first
    | ((fail_if_no_progress extract_lets +onlyGivenNames x); refine Only.cut (L := [.free, .out, .words, .mismatch, .upd, .tco, .refs, .gbb, .svc, .ptp, .eth, .key, .pan, .log, .line, .pair, .links, .lnk, .rings, .hif, .cnt, .perf, .outs, .tio]) (s := s) (x := x) ?_ ?_; rotate_left; intro hx; clear_value x; rotate_left; dsimp only [x])
    | ((fail_if_no_progress extract_lets +onlyGivenNames x); refine Only.named (b := x.not) ?_; clear_value x)
    | (fail_if_no_progress extract_lets +onlyGivenNames x)
    | with_reducible apply Only.refl
    | with_reducible assumption
    | (with_reducible apply Only.ite <;> intro _)
    | with_reducible (apply Only.step (M := [.out, .tco, .pan, .log, .line, .pair, .links, .rings, .cnt, .outs]); rotate_left; apply mirroredActive_only; decide)
    | with_reducible (apply Only.step (M := [.free, .out, .words, .mismatch, .upd, .tco, .refs, .gbb, .svc, .ptp, .eth, .pan, .log, .line, .pair, .links, .lnk, .rings, .hif, .cnt, .perf, .outs, .tio]); rotate_left; apply mirroredWord_only; decide)
    | with_reducible (apply Only.step (M := [.pair]); rotate_left; exact modPair_only_pair _ _ (by intro k; rfl); decide)
    | with_reducible (apply Only.step (M := [.line]); rotate_left; exact modPair_only_line _ _ (by intro k; rfl); decide)
    | with_reducible (apply Only.step (M := [.line, .pair]); rotate_left; apply modPair_only; decide)
    | with_reducible (apply Only.step (M := [.out, .svc, .ptp, .key, .pan, .log, .line, .pair, .links, .rings, .hif, .cnt, .outs]); rotate_left; apply mirroredCookie_only; decide)
    | with_reducible (apply Only.step (M := [.out, .svc, .ptp, .key, .pan, .log, .line, .pair, .links, .rings, .hif, .cnt, .outs]); rotate_left; apply mirroredSec_only; decide)
    | with_reducible (apply Only.step (M := [.ptp]); rotate_left; apply mirroredGrant_only; decide)
    | with_reducible (apply Only.step (M := [.ptp]); rotate_left; apply modInst_only; decide)
    | with_reducible (apply Only.step (M := [.ptp]); rotate_left; apply modPtp_only; decide)
    | with_reducible (apply Only.step (M := [.out, .tco, .gbb, .pan, .log, .line, .pair, .links, .rings, .cnt, .outs]); rotate_left; apply inject_only; decide)
    | with_reducible (apply Only.step (M := [.tio]); rotate_left; apply mirroredTrig_only; decide)
    | (fail_if_no_progress (with_reducible (apply Only.step (M := [.tio]); rotate_left; apply set_tio_only_tio; rfl; decide)))
    | with_reducible (refine Only.sndEq (by assumption) ?_)
    | with_reducible (refine Only.fstEq (by assumption) ?_)
    | dsimp only
    | dsimp +zetaDelta only
    | split
    | (clear_value *; split)

theorem applyWaiting_only (s : State) (r : PairRec)  : Only [.free, .out, .words, .mismatch, .upd, .tco, .refs, .gbb, .svc, .ptp, .eth, .key, .pan, .log, .line, .pair, .links, .lnk, .rings, .hif, .cnt, .perf, .outs, .tio] s (applyWaiting s r) := by
  unfold applyWaiting
  repeat' first
    | ((fail_if_no_progress extract_lets +onlyGivenNames x); refine Only.cut (L := [.free, .out, .words, .mismatch, .upd, .tco, .refs, .gbb, .svc, .ptp, .eth, .key, .pan, .log, .line, .pair, .links, .lnk, .rings, .hif, .cnt, .perf, .outs, .tio]) (s := s) (x := x) ?_ ?_; rotate_left; intro hx; clear_value x; rotate_left; dsimp only [x])
    | ((fail_if_no_progress extract_lets +onlyGivenNames x); refine Only.named (b := x.not) ?_; clear_value x)
    | (fail_if_no_progress extract_lets +onlyGivenNames x)
    | with_reducible apply Only.refl
    | with_reducible assumption
    | (with_reducible apply Only.ite <;> intro _)
    | with_reducible (apply Only.step (M := [.free, .out, .words, .mismatch, .upd, .tco, .refs, .gbb, .svc, .ptp, .eth, .key, .pan, .log, .line, .pair, .links, .lnk, .rings, .hif, .cnt, .perf, .outs, .tio]); rotate_left; apply applyRec_only; decide)
    | with_reducible (apply Only.step (M := [.pair]); rotate_left; exact modPair_only_pair _ _ (by intro k; rfl); decide)
    | with_reducible (apply Only.step (M := [.line]); rotate_left; exact modPair_only_line _ _ (by intro k; rfl); decide)
    | with_reducible (apply Only.step (M := [.line, .pair]); rotate_left; apply modPair_only; decide)
    | with_reducible (apply Only.step (M := [.out, .pan, .log, .line, .links, .rings, .cnt, .outs]); rotate_left; apply emit_only; decide)
    | with_reducible (refine Only.sndEq (by assumption) ?_)
    | with_reducible (refine Only.fstEq (by assumption) ?_)
    | dsimp only
    | dsimp +zetaDelta only
    | split
    | (clear_value *; split)

theorem mirrorDrain_only (s : State)  : Only [.free, .out, .words, .mismatch, .upd, .tco, .refs, .gbb, .svc, .ptp, .eth, .key, .pan, .log, .line, .pair, .links, .lnk, .rings, .hif, .cnt, .perf, .outs, .tio] s (mirrorDrain s) := by
  unfold mirrorDrain
  repeat' first
    | ((fail_if_no_progress extract_lets +onlyGivenNames x); refine Only.cut (L := [.free, .out, .words, .mismatch, .upd, .tco, .refs, .gbb, .svc, .ptp, .eth, .key, .pan, .log, .line, .pair, .links, .lnk, .rings, .hif, .cnt, .perf, .outs, .tio]) (s := s) (x := x) ?_ ?_; rotate_left; intro hx; clear_value x; rotate_left; dsimp only [x])
    | ((fail_if_no_progress extract_lets +onlyGivenNames x); refine Only.named (b := x.not) ?_; clear_value x)
    | (fail_if_no_progress extract_lets +onlyGivenNames x)
    | (with_reducible apply Only.foldl; (intro _ _ _))
    | (with_reducible apply Only.foldlFst; (intro _ _ _))
    | with_reducible apply Only.refl
    | with_reducible assumption
    | (with_reducible apply Only.ite <;> intro _)
    | with_reducible (apply Only.step (M := [.pair]); rotate_left; apply pairEval_only; decide)
    | with_reducible (apply Only.step (M := [.free, .out, .words, .mismatch, .upd, .tco, .refs, .gbb, .svc, .ptp, .eth, .key, .pan, .log, .line, .pair, .links, .lnk, .rings, .hif, .cnt, .perf, .outs, .tio]); rotate_left; apply applyWaiting_only; decide)
    | with_reducible (apply Only.step (M := [.pair]); rotate_left; exact modPair_only_pair _ _ (by intro k; rfl); decide)
    | with_reducible (apply Only.step (M := [.line]); rotate_left; exact modPair_only_line _ _ (by intro k; rfl); decide)
    | with_reducible (apply Only.step (M := [.line, .pair]); rotate_left; apply modPair_only; decide)
    | with_reducible (refine Only.sndEq (by assumption) ?_)
    | with_reducible (refine Only.fstEq (by assumption) ?_)
    | dsimp only
    | dsimp +zetaDelta only
    | split
    | (clear_value *; split)

theorem rxMirror_only (s : State) (mgen : BitVec 32) (snapshot : Bool) (last : Bool) (r : MirrorRec)  : Only [.free, .out, .words, .mismatch, .upd, .tco, .refs, .gbb, .svc, .ptp, .eth, .key, .pan, .log, .line, .pair, .links, .lnk, .rings, .hif, .cnt, .perf, .outs, .tio] s (rxMirror s mgen snapshot last r) := by
  unfold rxMirror
  repeat' first
    | ((fail_if_no_progress extract_lets +onlyGivenNames x); refine Only.cut (L := [.free, .out, .words, .mismatch, .upd, .tco, .refs, .gbb, .svc, .ptp, .eth, .key, .pan, .log, .line, .pair, .links, .lnk, .rings, .hif, .cnt, .perf, .outs, .tio]) (s := s) (x := x) ?_ ?_; rotate_left; intro hx; clear_value x; rotate_left; dsimp only [x])
    | ((fail_if_no_progress extract_lets +onlyGivenNames x); refine Only.named (b := x.not) ?_; clear_value x)
    | (fail_if_no_progress extract_lets +onlyGivenNames x)
    | with_reducible apply Only.refl
    | with_reducible assumption
    | (with_reducible apply Only.ite <;> intro _)
    | with_reducible (apply Only.step (M := [.out, .key, .pan, .log, .line, .pair, .links, .rings, .cnt, .outs]); rotate_left; apply beginMirror_only; decide)
    | with_reducible (apply Only.step (M := [.free, .out, .words, .mismatch, .upd, .tco, .refs, .gbb, .svc, .ptp, .eth, .key, .pan, .log, .line, .pair, .links, .lnk, .rings, .hif, .cnt, .perf, .outs, .tio]); rotate_left; apply mirrorDrain_only; decide)
    | with_reducible (apply Only.step (M := [.pair]); rotate_left; exact modPair_only_pair _ _ (by intro k; rfl); decide)
    | with_reducible (apply Only.step (M := [.line]); rotate_left; exact modPair_only_line _ _ (by intro k; rfl); decide)
    | with_reducible (apply Only.step (M := [.line, .pair]); rotate_left; apply modPair_only; decide)
    | with_reducible (refine Only.sndEq (by assumption) ?_)
    | with_reducible (refine Only.fstEq (by assumption) ?_)
    | dsimp only
    | dsimp +zetaDelta only
    | split
    | (clear_value *; split)

end Sys2Proof.Laws
end

