-- ==== Sys2Proof/Laws/TunnelOps.lean ====
section
/-! SUPPORT. What each operation of Machine/TunnelOps.lean can touch, once for each. -/
set_option linter.unusedTactic false
set_option linter.unreachableTactic false
namespace Sys2Proof.Laws
open Sys2Proof
open Sys2Proof.Machine
open Sys2Proof.Safety

theorem tunnelRegCpl_only (s : State) (src : BitVec 8) (tag : BitVec 16) (st : BitVec 8) (data : Word)  : Only [.out, .hif] s (tunnelRegCpl s src tag st data) := by
  unfold tunnelRegCpl
  repeat' first
    | ((fail_if_no_progress extract_lets +onlyGivenNames x); refine Only.cut (L := [.out, .hif]) (s := s) (x := x) ?_ ?_; rotate_left; intro hx; clear_value x; rotate_left; dsimp only [x])
    | ((fail_if_no_progress extract_lets +onlyGivenNames x); refine Only.named (b := x.not) ?_; clear_value x)
    | (fail_if_no_progress extract_lets +onlyGivenNames x)
    | with_reducible apply Only.refl
    | with_reducible assumption
    | (with_reducible apply Only.ite <;> intro _)
    | with_reducible (apply Only.step (M := [.hif]); rotate_left; exact modHif_only_hif _ _ (by intro k; rfl); decide)
    | with_reducible (apply Only.step (M := [.rings]); rotate_left; exact modHif_only_rings _ _ (by intro k; rfl); decide)
    | with_reducible (apply Only.step (M := [.rings, .hif]); rotate_left; apply modHif_only; decide)
    | with_reducible (apply Only.step (M := [.out]); rotate_left; apply readOut_only; decide)
    | with_reducible (refine Only.sndEq (by assumption) ?_)
    | with_reducible (refine Only.fstEq (by assumption) ?_)
    | dsimp only
    | dsimp +zetaDelta only
    | split
    | (clear_value *; split)

theorem winRefuse_told_only (slot : Nat) (addr : Nat) (s : State)  : Only [.out, .pan, .log, .line, .links, .rings, .hif, .cnt, .outs] s (winRefuse.told slot addr s) := by
  unfold winRefuse.told
  repeat' first
    | ((fail_if_no_progress extract_lets +onlyGivenNames x); refine Only.cut (L := [.out, .pan, .log, .line, .links, .rings, .hif, .cnt, .outs]) (s := s) (x := x) ?_ ?_; rotate_left; intro hx; clear_value x; rotate_left; dsimp only [x])
    | ((fail_if_no_progress extract_lets +onlyGivenNames x); refine Only.named (b := x.not) ?_; clear_value x)
    | (fail_if_no_progress extract_lets +onlyGivenNames x)
    | with_reducible apply Only.refl
    | with_reducible assumption
    | (with_reducible apply Only.ite <;> intro _)
    | with_reducible (apply Only.step (M := [.out, .pan, .log, .line, .links, .rings, .cnt, .outs]); rotate_left; apply emit_only; decide)
    | with_reducible (apply Only.step (M := [.hif]); rotate_left; exact modHif_only_hif _ _ (by intro k; rfl); decide)
    | with_reducible (apply Only.step (M := [.rings]); rotate_left; exact modHif_only_rings _ _ (by intro k; rfl); decide)
    | with_reducible (apply Only.step (M := [.rings, .hif]); rotate_left; apply modHif_only; decide)
    | with_reducible (refine Only.sndEq (by assumption) ?_)
    | with_reducible (refine Only.fstEq (by assumption) ?_)
    | dsimp only
    | dsimp +zetaDelta only
    | split
    | (clear_value *; split)

theorem winRefuse_only (s : State) (slot : Nat) (addr : Nat)  : Only [.out, .pan, .log, .line, .links, .rings, .hif, .cnt, .outs] s (winRefuse s slot addr) := by
  unfold winRefuse
  repeat' first
    | ((fail_if_no_progress extract_lets +onlyGivenNames x); refine Only.cut (L := [.out, .pan, .log, .line, .links, .rings, .hif, .cnt, .outs]) (s := s) (x := x) ?_ ?_; rotate_left; intro hx; clear_value x; rotate_left; dsimp only [x])
    | ((fail_if_no_progress extract_lets +onlyGivenNames x); refine Only.named (b := x.not) ?_; clear_value x)
    | (fail_if_no_progress extract_lets +onlyGivenNames x)
    | with_reducible apply Only.refl
    | with_reducible assumption
    | (with_reducible apply Only.ite <;> intro _)
    | with_reducible (apply Only.step (M := [.hif]); rotate_left; exact modHif_only_hif _ _ (by intro k; rfl); decide)
    | with_reducible (apply Only.step (M := [.rings]); rotate_left; exact modHif_only_rings _ _ (by intro k; rfl); decide)
    | with_reducible (apply Only.step (M := [.rings, .hif]); rotate_left; apply modHif_only; decide)
    | with_reducible (apply Only.step (M := [.out, .pan, .log, .line, .links, .rings, .hif, .cnt, .outs]); rotate_left; apply winRefuse_told_only; decide)
    | with_reducible (refine Only.sndEq (by assumption) ?_)
    | with_reducible (refine Only.fstEq (by assumption) ?_)
    | dsimp only
    | dsimp +zetaDelta only
    | split
    | (clear_value *; split)

theorem dmaBytes_only (s : State) (n : Nat)  : Only [.hif] s (dmaBytes s n) := by
  unfold dmaBytes
  repeat' first
    | ((fail_if_no_progress extract_lets +onlyGivenNames x); refine Only.cut (L := [.hif]) (s := s) (x := x) ?_ ?_; rotate_left; intro hx; clear_value x; rotate_left; dsimp only [x])
    | ((fail_if_no_progress extract_lets +onlyGivenNames x); refine Only.named (b := x.not) ?_; clear_value x)
    | (fail_if_no_progress extract_lets +onlyGivenNames x)
    | with_reducible apply Only.refl
    | with_reducible assumption
    | (with_reducible apply Only.ite <;> intro _)
    | with_reducible (apply Only.step (M := [.hif]); rotate_left; exact modHif_only_hif _ _ (by intro k; rfl); decide)
    | with_reducible (apply Only.step (M := [.rings]); rotate_left; exact modHif_only_rings _ _ (by intro k; rfl); decide)
    | with_reducible (apply Only.step (M := [.rings, .hif]); rotate_left; apply modHif_only; decide)
    | with_reducible (refine Only.sndEq (by assumption) ?_)
    | with_reducible (refine Only.fstEq (by assumption) ?_)
    | dsimp only
    | dsimp +zetaDelta only
    | split
    | (clear_value *; split)

theorem tunnelDmaRd_only (s : State) (l : Fin 4) (src : BitVec 8) (tag : BitVec 16) (addr : Nat) (len : Nat) (hostData : List Byte)  : Only [.out, .pan, .log, .line, .links, .rings, .hif, .cnt, .outs] s (tunnelDmaRd s l src tag addr len hostData) := by
  unfold tunnelDmaRd
  repeat' first
    | ((fail_if_no_progress extract_lets +onlyGivenNames x); refine Only.cut (L := [.out, .pan, .log, .line, .links, .rings, .hif, .cnt, .outs]) (s := s) (x := x) ?_ ?_; rotate_left; intro hx; clear_value x; rotate_left; dsimp only [x])
    | ((fail_if_no_progress extract_lets +onlyGivenNames x); refine Only.named (b := x.not) ?_; clear_value x)
    | (fail_if_no_progress extract_lets +onlyGivenNames x)
    | with_reducible apply Only.refl
    | with_reducible assumption
    | (with_reducible apply Only.ite <;> intro _)
    | with_reducible (apply Only.step (M := [.out, .links, .cnt]); rotate_left; apply linkSend_only; decide)
    | with_reducible (apply Only.step (M := [.out, .pan, .log, .line, .links, .rings, .hif, .cnt, .outs]); rotate_left; apply winRefuse_only; decide)
    | with_reducible (apply Only.step (M := [.hif]); rotate_left; apply dmaBytes_only; decide)
    | with_reducible (apply Only.step (M := [.cnt]); rotate_left; apply perfAdd_only; decide)
    | with_reducible (refine Only.sndEq (by assumption) ?_)
    | with_reducible (refine Only.fstEq (by assumption) ?_)
    | dsimp only
    | dsimp +zetaDelta only
    | split
    | (clear_value *; split)

theorem tunnelDmaWr_only (s : State) (src : BitVec 8) (addr : Nat) (data : List Byte)  : Only [.out, .pan, .log, .line, .links, .rings, .hif, .cnt, .outs] s (tunnelDmaWr s src addr data) := by
  unfold tunnelDmaWr
  repeat' first
    | ((fail_if_no_progress extract_lets +onlyGivenNames x); refine Only.cut (L := [.out, .pan, .log, .line, .links, .rings, .hif, .cnt, .outs]) (s := s) (x := x) ?_ ?_; rotate_left; intro hx; clear_value x; rotate_left; dsimp only [x])
    | ((fail_if_no_progress extract_lets +onlyGivenNames x); refine Only.named (b := x.not) ?_; clear_value x)
    | (fail_if_no_progress extract_lets +onlyGivenNames x)
    | with_reducible apply Only.refl
    | with_reducible assumption
    | (with_reducible apply Only.ite <;> intro _)
    | with_reducible (apply Only.step (M := [.out, .pan, .log, .line, .links, .rings, .hif, .cnt, .outs]); rotate_left; apply winRefuse_only; decide)
    | with_reducible (apply Only.step (M := [.out]); rotate_left; apply emitOut_only; decide)
    | with_reducible (apply Only.step (M := [.hif]); rotate_left; apply dmaBytes_only; decide)
    | with_reducible (apply Only.step (M := [.cnt]); rotate_left; apply perfAdd_only; decide)
    | with_reducible (refine Only.sndEq (by assumption) ?_)
    | with_reducible (refine Only.fstEq (by assumption) ?_)
    | dsimp only
    | dsimp +zetaDelta only
    | split
    | (clear_value *; split)

theorem tunnelHere_only (s : State) (l : Fin 4) (dst : BitVec 8) (src : BitVec 8) (tag : BitVec 16) (t : Tunnel) (hostData : List Byte)  : Only [.free, .out, .words, .mismatch, .glb, .mem, .pwr, .upd, .tco, .refs, .gbb, .svc, .ptp, .eth, .key, .pan, .log, .line, .pair, .links, .lnk, .rings, .hif, .cnt, .perf, .outs, .tio] s (tunnelHere s l dst src tag t hostData) := by
  unfold tunnelHere
  repeat' first
    | ((fail_if_no_progress extract_lets +onlyGivenNames x); refine Only.cut (L := [.free, .out, .words, .mismatch, .glb, .mem, .pwr, .upd, .tco, .refs, .gbb, .svc, .ptp, .eth, .key, .pan, .log, .line, .pair, .links, .lnk, .rings, .hif, .cnt, .perf, .outs, .tio]) (s := s) (x := x) ?_ ?_; rotate_left; intro hx; clear_value x; rotate_left; dsimp only [x])
    | ((fail_if_no_progress extract_lets +onlyGivenNames x); refine Only.named (b := x.not) ?_; clear_value x)
    | (fail_if_no_progress extract_lets +onlyGivenNames x)
    | with_reducible apply Only.refl
    | with_reducible assumption
    | (with_reducible apply Only.ite <;> intro _)
    | with_reducible (apply Only.step (M := [.free, .out, .words, .mismatch, .glb, .pwr, .pan, .log, .line, .links, .rings, .cnt, .outs, .tio]); rotate_left; exact unitRead_only_eq ‹_›; decide)
    | with_reducible (apply Only.step (M := [.free, .out, .words, .mismatch, .glb, .pwr, .pan, .log, .line, .links, .rings, .cnt, .outs, .tio]); rotate_left; apply unitRead_only; decide)
    | with_reducible (apply Only.step (M := [.out, .links, .cnt]); rotate_left; apply linkSend_only; decide)
    | with_reducible (apply Only.step (M := [.free, .out, .words, .mismatch, .glb, .mem, .pwr, .upd, .tco, .refs, .gbb, .svc, .ptp, .eth, .key, .pan, .log, .line, .pair, .links, .lnk, .rings, .hif, .cnt, .perf, .outs, .tio]); rotate_left; apply unitWrite_only; decide)
    | with_reducible (apply Only.step (M := [.out, .hif]); rotate_left; apply tunnelRegCpl_only; decide)
    | with_reducible (apply Only.step (M := [.out, .pan, .log, .line, .links, .rings, .hif, .cnt, .outs]); rotate_left; apply tunnelDmaRd_only; decide)
    | with_reducible (apply Only.step (M := [.out, .pan, .log, .line, .links, .rings, .hif, .cnt, .outs]); rotate_left; apply tunnelDmaWr_only; decide)
    | with_reducible (apply Only.step (M := [.out, .links, .rings, .cnt]); rotate_left; apply fireVec_only; decide)
    | with_reducible (apply Only.step (M := [.out, .pan, .log, .line, .links, .rings, .hif, .cnt, .perf, .outs]); rotate_left; apply applyDoorbell_only; decide)
    | with_reducible (refine Only.sndEq (by assumption) ?_)
    | with_reducible (refine Only.fstEq (by assumption) ?_)
    | dsimp only
    | dsimp +zetaDelta only
    | split
    | (clear_value *; split)

theorem tunnelLost_only (s : State) (l : Fin 4) (dst : BitVec 8) (src : BitVec 8) (tag : BitVec 16) (t : Tunnel)  : Only [.out, .links, .lnk, .cnt] s (tunnelLost s l dst src tag t) := by
  unfold tunnelLost
  repeat' first
    | ((fail_if_no_progress extract_lets +onlyGivenNames x); refine Only.cut (L := [.out, .links, .lnk, .cnt]) (s := s) (x := x) ?_ ?_; rotate_left; intro hx; clear_value x; rotate_left; dsimp only [x])
    | ((fail_if_no_progress extract_lets +onlyGivenNames x); refine Only.named (b := x.not) ?_; clear_value x)
    | (fail_if_no_progress extract_lets +onlyGivenNames x)
    | with_reducible apply Only.refl
    | with_reducible assumption
    | (with_reducible apply Only.ite <;> intro _)
    | with_reducible (apply Only.step (M := [.lnk]); rotate_left; exact modLnk_only_lnk _ _ (by intro k; rfl); decide)
    | with_reducible (apply Only.step (M := [.links]); rotate_left; exact modLnk_only_links _ _ (by intro k; rfl); decide)
    | with_reducible (apply Only.step (M := [.links, .lnk]); rotate_left; apply modLnk_only; decide)
    | with_reducible (apply Only.step (M := [.out, .links, .cnt]); rotate_left; apply linkSend_only; decide)
    | with_reducible (refine Only.sndEq (by assumption) ?_)
    | with_reducible (refine Only.fstEq (by assumption) ?_)
    | dsimp only
    | dsimp +zetaDelta only
    | split
    | (clear_value *; split)

theorem rxTunnel_only (s : State) (l : Fin 4) (dst : BitVec 8) (src : BitVec 8) (tag : BitVec 16) (t : Tunnel) (hostData : List Byte)  : Only [.free, .out, .words, .mismatch, .glb, .mem, .pwr, .upd, .tco, .refs, .gbb, .svc, .ptp, .eth, .key, .pan, .log, .line, .pair, .links, .lnk, .rings, .hif, .cnt, .perf, .outs, .tio] s (rxTunnel s l dst src tag t hostData) := by
  unfold rxTunnel
  repeat' first
    | ((fail_if_no_progress extract_lets +onlyGivenNames x); refine Only.cut (L := [.free, .out, .words, .mismatch, .glb, .mem, .pwr, .upd, .tco, .refs, .gbb, .svc, .ptp, .eth, .key, .pan, .log, .line, .pair, .links, .lnk, .rings, .hif, .cnt, .perf, .outs, .tio]) (s := s) (x := x) ?_ ?_; rotate_left; intro hx; clear_value x; rotate_left; dsimp only [x])
    | ((fail_if_no_progress extract_lets +onlyGivenNames x); refine Only.named (b := x.not) ?_; clear_value x)
    | (fail_if_no_progress extract_lets +onlyGivenNames x)
    | with_reducible apply Only.refl
    | with_reducible assumption
    | (with_reducible apply Only.ite <;> intro _)
    | with_reducible (apply Only.step (M := [.free, .out, .words, .mismatch, .glb, .mem, .pwr, .upd, .tco, .refs, .gbb, .svc, .ptp, .eth, .key, .pan, .log, .line, .pair, .links, .lnk, .rings, .hif, .cnt, .perf, .outs, .tio]); rotate_left; apply tunnelHere_only; decide)
    | with_reducible (apply Only.step (M := [.out, .links, .cnt]); rotate_left; apply linkSend_only; decide)
    | with_reducible (apply Only.step (M := [.out, .links, .lnk, .cnt]); rotate_left; apply tunnelLost_only; decide)
    | with_reducible (refine Only.sndEq (by assumption) ?_)
    | with_reducible (refine Only.fstEq (by assumption) ?_)
    | dsimp only
    | dsimp +zetaDelta only
    | split
    | (clear_value *; split)

theorem rxHostReset_only (s : State) (slot : BitVec 6)  : Only [.out, .words, .mismatch, .links, .rings, .hif, .cnt] s (rxHostReset s slot) := by
  unfold rxHostReset
  repeat' first
    | ((fail_if_no_progress extract_lets +onlyGivenNames x); refine Only.cut (L := [.out, .words, .mismatch, .links, .rings, .hif, .cnt]) (s := s) (x := x) ?_ ?_; rotate_left; intro hx; clear_value x; rotate_left; dsimp only [x])
    | ((fail_if_no_progress extract_lets +onlyGivenNames x); refine Only.named (b := x.not) ?_; clear_value x)
    | (fail_if_no_progress extract_lets +onlyGivenNames x)
    | with_reducible apply Only.refl
    | with_reducible assumption
    | (with_reducible apply Only.ite <;> intro _)
    | with_reducible (apply Only.step (M := [.words, .mismatch, .rings, .hif]); rotate_left; apply hifReset_only; decide)
    | with_reducible (apply Only.step (M := [.out, .links, .cnt]); rotate_left; apply linkSend_only; decide)
    | with_reducible (refine Only.sndEq (by assumption) ?_)
    | with_reducible (refine Only.fstEq (by assumption) ?_)
    | dsimp only
    | dsimp +zetaDelta only
    | split
    | (clear_value *; split)

end Sys2Proof.Laws
end

