-- ==== Sys2Proof/Laws/LinkRx.lean ====
section
/-! SUPPORT. What each operation of Machine/LinkRx.lean can touch, once for each. -/
set_option linter.unusedTactic false
set_option linter.unreachableTactic false
namespace Sys2Proof.Laws
open Sys2Proof
open Sys2Proof.Machine
open Sys2Proof.Safety

theorem crcError_only (s : State) (l : Fin 4)  : Only [.links, .cnt] s (crcError s l) := by
  unfold crcError
  repeat' first
    | ((fail_if_no_progress extract_lets +onlyGivenNames x); refine Only.cut (L := [.links, .cnt]) (s := s) (x := x) ?_ ?_; rotate_left; intro hx; clear_value x; rotate_left; dsimp only [x])
    | ((fail_if_no_progress extract_lets +onlyGivenNames x); refine Only.named (b := x.not) ?_; clear_value x)
    | (fail_if_no_progress extract_lets +onlyGivenNames x)
    | with_reducible apply Only.refl
    | with_reducible assumption
    | (with_reducible apply Only.ite <;> intro _)
    | with_reducible (apply Only.step (M := [.cnt]); rotate_left; apply perfAdd_only; decide)
    | with_reducible (apply Only.step (M := [.links]); rotate_left; apply lnkCnt_only; decide)
    | with_reducible (apply Only.step (M := [.links]); rotate_left; apply modLink_only; decide)
    | with_reducible (refine Only.sndEq (by assumption) ?_)
    | with_reducible (refine Only.fstEq (by assumption) ?_)
    | dsimp only
    | dsimp +zetaDelta only
    | split
    | (clear_value *; split)

theorem rxSwapPropose_only (s : State) (l : Fin 4) (h : Nat)  : Only [.out, .pan, .log, .line, .pair, .links, .rings, .cnt, .outs] s (rxSwapPropose s l h) := by
  unfold rxSwapPropose
  repeat' first
    | ((fail_if_no_progress extract_lets +onlyGivenNames x); refine Only.cut (L := [.out, .pan, .log, .line, .pair, .links, .rings, .cnt, .outs]) (s := s) (x := x) ?_ ?_; rotate_left; intro hx; clear_value x; rotate_left; dsimp only [x])
    | ((fail_if_no_progress extract_lets +onlyGivenNames x); refine Only.named (b := x.not) ?_; clear_value x)
    | (fail_if_no_progress extract_lets +onlyGivenNames x)
    | with_reducible apply Only.refl
    | with_reducible assumption
    | (with_reducible apply Only.ite <;> intro _)
    | with_reducible (apply Only.step (M := [.out, .pan, .log, .line, .pair, .links, .rings, .cnt, .outs]); rotate_left; apply planSwap_only; decide)
    | with_reducible (apply Only.step (M := [.out, .links, .cnt]); rotate_left; apply linkSend_only; decide)
    | with_reducible (refine Only.sndEq (by assumption) ?_)
    | with_reducible (refine Only.fstEq (by assumption) ?_)
    | dsimp only
    | dsimp +zetaDelta only
    | split
    | (clear_value *; split)

theorem rxSwapAccept_only (s : State)  : Only [.pair] s (rxSwapAccept s) := by
  unfold rxSwapAccept
  repeat' first
    | ((fail_if_no_progress extract_lets +onlyGivenNames x); refine Only.cut (L := [.pair]) (s := s) (x := x) ?_ ?_; rotate_left; intro hx; clear_value x; rotate_left; dsimp only [x])
    | ((fail_if_no_progress extract_lets +onlyGivenNames x); refine Only.named (b := x.not) ?_; clear_value x)
    | (fail_if_no_progress extract_lets +onlyGivenNames x)
    | with_reducible apply Only.refl
    | with_reducible assumption
    | (with_reducible apply Only.ite <;> intro _)
    | with_reducible (apply Only.step (M := [.pair]); rotate_left; exact modPair_only_pair _ _ (by intro k; rfl); decide)
    | with_reducible (apply Only.step (M := [.line]); rotate_left; exact modPair_only_line _ _ (by intro k; rfl); decide)
    | with_reducible (apply Only.step (M := [.line, .pair]); rotate_left; apply modPair_only; decide)
    | with_reducible (refine Only.sndEq (by assumption) ?_)
    | with_reducible (refine Only.fstEq (by assumption) ?_)
    | dsimp only
    | dsimp +zetaDelta only
    | split
    | (clear_value *; split)

theorem rxSwapAbort_only (s : State) (mask : BitVec 11)  : Only [.out, .pan, .log, .line, .pair, .links, .rings, .hif, .cnt, .outs] s (rxSwapAbort s mask) := by
  unfold rxSwapAbort
  repeat' first
    | ((fail_if_no_progress extract_lets +onlyGivenNames x); refine Only.cut (L := [.out, .pan, .log, .line, .pair, .links, .rings, .hif, .cnt, .outs]) (s := s) (x := x) ?_ ?_; rotate_left; intro hx; clear_value x; rotate_left; dsimp only [x])
    | ((fail_if_no_progress extract_lets +onlyGivenNames x); refine Only.named (b := x.not) ?_; clear_value x)
    | (fail_if_no_progress extract_lets +onlyGivenNames x)
    | with_reducible apply Only.refl
    | with_reducible assumption
    | (with_reducible apply Only.ite <;> intro _)
    | with_reducible (apply Only.step (M := [.out, .pan, .log, .line, .pair, .links, .rings, .hif, .cnt, .outs]); rotate_left; apply swapAbort_only; decide)
    | with_reducible (refine Only.sndEq (by assumption) ?_)
    | with_reducible (refine Only.fstEq (by assumption) ?_)
    | dsimp only
    | dsimp +zetaDelta only
    | split
    | (clear_value *; split)

theorem deliverPair_only (s : State) (l : Fin 4) (b : LinkBody) : Only [.free, .out, .words, .mismatch, .upd, .tco, .refs, .gbb, .svc, .ptp, .eth, .key, .pan, .log, .line, .pair, .links, .lnk, .rings, .hif, .cnt, .perf, .outs, .tio] s (deliverPair s l b) := by
  cases b
  case heartbeat => exact Only.mono (rxHeartbeat_only ..) (by decide)
  case swapPropose => exact Only.mono (rxSwapPropose_only ..) (by decide)
  case swapAccept => exact Only.mono (rxSwapAccept_only ..) (by decide)
  case swapAbort => exact Only.mono (rxSwapAbort_only ..) (by decide)
  case swapRequest => exact Only.ite (fun _ => Only.mono (proposeSwap_only ..) (by decide)) fun _ => Only.refl _ _
  case pairHello => exact Only.mono (rxPairHello_only ..) (by decide)
  case pairAttest => exact Only.mono (rxPairAttest_only ..) (by decide)
  case pairConfirm => exact Only.mono (rxPairConfirm_only ..) (by decide)
  case mirror => exact Only.mono (rxMirror_only ..) (by decide)
  all_goals exact Only.refl _ _

theorem deliverNumber_only (s : State) (l : Fin 4) (b : LinkBody)  : Only [.out, .words, .mismatch, .pan, .log, .line, .links, .lnk, .rings, .hif, .cnt, .outs] s (deliverNumber s l b) := by
  unfold deliverNumber
  repeat' first
    | ((fail_if_no_progress extract_lets +onlyGivenNames x); refine Only.cut (L := [.out, .words, .mismatch, .pan, .log, .line, .links, .lnk, .rings, .hif, .cnt, .outs]) (s := s) (x := x) ?_ ?_; rotate_left; intro hx; clear_value x; rotate_left; dsimp only [x])
    | ((fail_if_no_progress extract_lets +onlyGivenNames x); refine Only.named (b := x.not) ?_; clear_value x)
    | (fail_if_no_progress extract_lets +onlyGivenNames x)
    | with_reducible apply Only.refl
    | with_reducible assumption
    | (with_reducible apply Only.ite <;> intro _)
    | with_reducible (apply Only.step (M := [.out, .pan, .log, .line, .links, .lnk, .rings, .hif, .cnt, .outs]); rotate_left; apply rxSlotReq_only; decide)
    | with_reducible (apply Only.step (M := [.out, .pan, .log, .line, .links, .lnk, .rings, .cnt, .outs]); rotate_left; apply rxSlotAssign_only; decide)
    | with_reducible (apply Only.step (M := [.out, .pan, .log, .line, .links, .lnk, .rings, .cnt, .outs]); rotate_left; apply rxShelfReq_only; decide)
    | with_reducible (apply Only.step (M := [.out, .pan, .log, .line, .links, .lnk, .rings, .cnt, .outs]); rotate_left; apply rxShelfAssign_only; decide)
    | with_reducible (apply Only.step (M := [.out, .pan, .log, .line, .links, .lnk, .rings, .cnt, .outs]); rotate_left; apply rxShelfUpdate_only; decide)
    | with_reducible (apply Only.step (M := [.out, .words, .mismatch, .links, .rings, .hif, .cnt]); rotate_left; apply rxHostReset_only; decide)
    | with_reducible (refine Only.sndEq (by assumption) ?_)
    | with_reducible (refine Only.fstEq (by assumption) ?_)
    | dsimp only
    | dsimp +zetaDelta only
    | split
    | (clear_value *; split)

theorem deliver_only (s : State) (l : Fin 4) (phase : Fin 16) (hostData : List Byte) (b : LinkBody)  : Only [.free, .out, .words, .mismatch, .glb, .mem, .pwr, .upd, .tco, .refs, .gbb, .svc, .ptp, .eth, .key, .pan, .log, .line, .pair, .links, .lnk, .rings, .hif, .cnt, .perf, .outs, .tio] s (deliver s l phase hostData b) := by
  unfold deliver
  repeat' first
    | ((fail_if_no_progress extract_lets +onlyGivenNames x); refine Only.cut (L := [.free, .out, .words, .mismatch, .glb, .mem, .pwr, .upd, .tco, .refs, .gbb, .svc, .ptp, .eth, .key, .pan, .log, .line, .pair, .links, .lnk, .rings, .hif, .cnt, .perf, .outs, .tio]) (s := s) (x := x) ?_ ?_; rotate_left; intro hx; clear_value x; rotate_left; dsimp only [x])
    | ((fail_if_no_progress extract_lets +onlyGivenNames x); refine Only.named (b := x.not) ?_; clear_value x)
    | (fail_if_no_progress extract_lets +onlyGivenNames x)
    | with_reducible apply Only.refl
    | with_reducible assumption
    | (with_reducible apply Only.ite <;> intro _)
    | with_reducible (apply Only.step (M := [.cnt]); rotate_left; apply perfAdd_only; decide)
    | with_reducible (apply Only.step (M := [.free, .out, .links, .cnt]); rotate_left; apply timeAnswer_only; decide)
    | with_reducible (apply Only.step (M := [.free, .out, .tco, .refs, .gbb, .pan, .log, .line, .pair, .links, .lnk, .rings, .hif, .cnt, .perf, .outs, .tio]); rotate_left; apply rxTimeResp_only; decide)
    | with_reducible (apply Only.step (M := [.free, .out, .words, .mismatch, .glb, .mem, .pwr, .upd, .tco, .refs, .gbb, .svc, .ptp, .eth, .key, .pan, .log, .line, .pair, .links, .lnk, .rings, .hif, .cnt, .perf, .outs, .tio]); rotate_left; apply rxTunnel_only; decide)
    | with_reducible (apply Only.step (M := [.out, .upd, .pan, .log, .line, .links, .rings, .cnt, .outs]); rotate_left; apply rxUpdOffer_only; decide)
    | with_reducible (apply Only.step (M := [.free, .out, .upd, .links, .hif, .cnt]); rotate_left; apply rxUpdReply_only; decide)
    | with_reducible (apply Only.step (M := [.upd]); rotate_left; apply rxUpdData_only; decide)
    | with_reducible (apply Only.step (M := [.out, .upd, .pan, .log, .line, .links, .rings, .cnt, .outs]); rotate_left; apply rxUpdEnd_only; decide)
    | with_reducible (apply Only.step (M := [.upd, .hif]); rotate_left; apply rxUpdResult_only; decide)
    | with_reducible (apply Only.step (M := [.free, .out, .words, .mismatch, .upd, .tco, .refs, .gbb, .svc, .ptp, .eth, .key, .pan, .log, .line, .pair, .links, .lnk, .rings, .hif, .cnt, .perf, .outs, .tio]); rotate_left; apply deliverPair_only; decide)
    | with_reducible (apply Only.step (M := [.out, .words, .mismatch, .pan, .log, .line, .links, .lnk, .rings, .hif, .cnt, .outs]); rotate_left; apply deliverNumber_only; decide)
    | with_reducible (refine Only.sndEq (by assumption) ?_)
    | with_reducible (refine Only.fstEq (by assumption) ?_)
    | dsimp only
    | dsimp +zetaDelta only
    | split
    | (clear_value *; split)

theorem rxInHello_only (s : State) (l : Fin 4) (f : LinkFrame) : Only [.out, .pan, .log, .line, .links, .lnk, .rings, .cnt, .outs] s (rxInHello s l f) := by
  have h : Only [.out, .pan, .log, .line, .links, .lnk, .rings, .cnt, .outs] s (if f.ack = 1 then modLink s l fun k => { k with ackOk := true } else s) :=
    Only.ite (fun _ => Only.mono (modLink_only ..) (by decide)) fun _ => Only.refl _ _
  unfold rxInHello
  generalize f.body = b
  cases b
  case hello => exact Only.step h (rxHello_only ..) (by decide)
  case idle => exact Only.step h (tryRise_only ..) (by decide)
  all_goals exact Only.refl _ _

theorem rxInUp_only (s : State) (l : Fin 4) (phase : Fin 16) (hostData : List Byte) (f : LinkFrame)  : Only [.free, .out, .words, .mismatch, .glb, .mem, .pwr, .upd, .tco, .refs, .gbb, .svc, .ptp, .eth, .key, .pan, .log, .line, .pair, .links, .lnk, .rings, .hif, .cnt, .perf, .outs, .tio] s (rxInUp s l phase hostData f) := by
  unfold rxInUp
  repeat' first
    | ((fail_if_no_progress extract_lets +onlyGivenNames x); refine Only.cut (L := [.free, .out, .words, .mismatch, .glb, .mem, .pwr, .upd, .tco, .refs, .gbb, .svc, .ptp, .eth, .key, .pan, .log, .line, .pair, .links, .lnk, .rings, .hif, .cnt, .perf, .outs, .tio]) (s := s) (x := x) ?_ ?_; rotate_left; intro hx; clear_value x; rotate_left; dsimp only [x])
    | ((fail_if_no_progress extract_lets +onlyGivenNames x); refine Only.named (b := x.not) ?_; clear_value x)
    | (fail_if_no_progress extract_lets +onlyGivenNames x)
    | with_reducible apply Only.refl
    | with_reducible assumption
    | (with_reducible apply Only.ite <;> intro _)
    | with_reducible (apply Only.step (M := [.out, .links, .cnt]); rotate_left; apply ackHello_only; decide)
    | with_reducible (apply Only.step (M := [.out, .links, .cnt]); rotate_left; apply rxAck_only; decide)
    | with_reducible (apply Only.step (M := [.links]); rotate_left; apply modLink_only; decide)
    | with_reducible (apply Only.step (M := [.links]); rotate_left; apply lnkCnt_only; decide)
    | with_reducible (apply Only.step (M := [.free, .out, .words, .mismatch, .glb, .mem, .pwr, .upd, .tco, .refs, .gbb, .svc, .ptp, .eth, .key, .pan, .log, .line, .pair, .links, .lnk, .rings, .hif, .cnt, .perf, .outs, .tio]); rotate_left; apply deliver_only; decide)
    | with_reducible (refine Only.sndEq (by assumption) ?_)
    | with_reducible (refine Only.fstEq (by assumption) ?_)
    | dsimp only
    | dsimp +zetaDelta only
    | split
    | (clear_value *; split)

end Sys2Proof.Laws
end

