-- ==== Sys2Proof/Laws/Lnk.lean ====
section
/-! SUPPORT. What each operation of Machine/Lnk.lean can touch, once for each. -/
set_option linter.unusedTactic false
set_option linter.unreachableTactic false
namespace Sys2Proof.Laws
open Sys2Proof
open Sys2Proof.Machine
open Sys2Proof.Safety

theorem setRole_only (s : State) (l : Fin 4) (role : LinkRole) (trunk : Bool) (fec : Bool)  : Only [.out, .upd, .tco, .refs, .pan, .log, .line, .pair, .links, .lnk, .rings, .hif, .cnt, .outs] s (setRole s l role trunk fec) := by
  unfold setRole
  repeat' first
    | ((fail_if_no_progress extract_lets +onlyGivenNames x); refine Only.cut (L := [.out, .upd, .tco, .refs, .pan, .log, .line, .pair, .links, .lnk, .rings, .hif, .cnt, .outs]) (s := s) (x := x) ?_ ?_; rotate_left; intro hx; clear_value x; rotate_left; dsimp only [x])
    | ((fail_if_no_progress extract_lets +onlyGivenNames x); refine Only.named (b := x.not) ?_; clear_value x)
    | (fail_if_no_progress extract_lets +onlyGivenNames x)
    | with_reducible apply Only.refl
    | with_reducible assumption
    | (with_reducible apply Only.ite <;> intro _)
    | with_reducible (apply Only.step (M := [.links]); rotate_left; apply helloToTrain_only; decide)
    | with_reducible (apply Only.step (M := [.out, .upd, .pan, .log, .line, .pair, .links, .lnk, .rings, .hif, .cnt, .outs]); rotate_left; apply linkFall_only; decide)
    | with_reducible (apply Only.step (M := [.out, .tco, .refs, .pan, .log, .line, .links, .lnk, .rings, .hif, .cnt, .outs]); rotate_left; apply unbindParent_only; decide)
    | with_reducible (apply Only.step (M := [.out, .line, .outs]); rotate_left; apply lineRelease_only; decide)
    | with_reducible (apply Only.step (M := [.links]); rotate_left; apply modLink_only; decide)
    | with_reducible (apply Only.step (M := [.out, .tco, .refs, .pan, .log, .line, .links, .lnk, .rings, .hif, .cnt, .outs]); rotate_left; apply bindParent_only; decide)
    | with_reducible (apply Only.step (M := [.pair]); rotate_left; exact modPair_only_pair _ _ (by intro k; rfl); decide)
    | with_reducible (apply Only.step (M := [.line]); rotate_left; exact modPair_only_line _ _ (by intro k; rfl); decide)
    | with_reducible (apply Only.step (M := [.line, .pair]); rotate_left; apply modPair_only; decide)
    | with_reducible (apply Only.step (M := [.out, .outs]); rotate_left; apply refreshOuts_only; decide)
    | with_reducible (apply Only.step (M := [.out, .upd, .pan, .log, .line, .pair, .links, .lnk, .rings, .hif, .cnt, .outs]); rotate_left; apply linkGate_only; decide)
    | with_reducible (refine Only.sndEq (by assumption) ?_)
    | with_reducible (refine Only.fstEq (by assumption) ?_)
    | dsimp only
    | dsimp +zetaDelta only
    | split
    | (clear_value *; split)

theorem setEnumTable_only (s : State) (shelves : Bool) (t : List EnumEntry)  : Only [.links, .lnk] s (setEnumTable s shelves t) := by
  unfold setEnumTable
  repeat' first
    | ((fail_if_no_progress extract_lets +onlyGivenNames x); refine Only.cut (L := [.links, .lnk]) (s := s) (x := x) ?_ ?_; rotate_left; intro hx; clear_value x; rotate_left; dsimp only [x])
    | ((fail_if_no_progress extract_lets +onlyGivenNames x); refine Only.named (b := x.not) ?_; clear_value x)
    | (fail_if_no_progress extract_lets +onlyGivenNames x)
    | with_reducible apply Only.refl
    | with_reducible assumption
    | (with_reducible apply Only.ite <;> intro _)
    | with_reducible (apply Only.step (M := [.lnk]); rotate_left; exact modLnk_only_lnk _ _ (by intro k; rfl); decide)
    | with_reducible (apply Only.step (M := [.links]); rotate_left; exact modLnk_only_links _ _ (by intro k; rfl); decide)
    | with_reducible (apply Only.step (M := [.links, .lnk]); rotate_left; apply modLnk_only; decide)
    | with_reducible (refine Only.sndEq (by assumption) ?_)
    | with_reducible (refine Only.fstEq (by assumption) ?_)
    | dsimp only
    | dsimp +zetaDelta only
    | split
    | (clear_value *; split)

end Sys2Proof.Laws
end

