-- ==== Sys2Proof/Laws/PanOps.lean ====
section
/-! SUPPORT. What each operation of Machine/PanOps.lean can touch, once for each. -/
set_option linter.unusedTactic false
set_option linter.unreachableTactic false
namespace Sys2Proof.Laws
open Sys2Proof
open Sys2Proof.Machine
open Sys2Proof.Safety

theorem dumpBack_only (s : State) (bytes : Nat) (st : BitVec 8)  : Only [.out, .links, .rings, .cnt] s (dumpBack s bytes st) := by
  unfold dumpBack
  repeat' first
    | ((fail_if_no_progress extract_lets +onlyGivenNames x); refine Only.cut (L := [.out, .links, .rings, .cnt]) (s := s) (x := x) ?_ ?_; rotate_left; intro hx; clear_value x; rotate_left; dsimp only [x])
    | ((fail_if_no_progress extract_lets +onlyGivenNames x); refine Only.named (b := x.not) ?_; clear_value x)
    | (fail_if_no_progress extract_lets +onlyGivenNames x)
    | with_reducible apply Only.refl
    | with_reducible assumption
    | (with_reducible apply Only.ite <;> intro _)
    | with_reducible (apply Only.step (M := [.out, .links, .cnt]); rotate_left; apply hostDma_only; decide)
    | with_reducible (apply Only.step (M := [.out, .links, .rings, .cnt]); rotate_left; apply ringNotify_only; decide)
    | with_reducible (apply Only.step (M := [.rings, .cnt]); rotate_left; apply ringAdvance_only; decide)
    | with_reducible (refine Only.sndEq (by assumption) ?_)
    | with_reducible (refine Only.fstEq (by assumption) ?_)
    | dsimp only
    | dsimp +zetaDelta only
    | split
    | (clear_value *; split)

theorem dumpCounts_only (l : List Nat) (s : State) : Only [.free] s (dumpCounts l s).2 := by
  induction l generalizing s with
  | nil => unfold dumpCounts; exact Only.refl _ _
  | cons i r ih =>
    unfold dumpCounts
    exact Only.step (perfPair_only s i) (ih _) (by decide)
theorem dumpCounts_only_eq {l : List Nat} {s : State} {r1} {t0 : State} (hEq : dumpCounts l s = (r1, t0)) : Only [.free] s t0 := by
  have k0 := dumpCounts_only l s
  rw [hEq] at k0; exact k0

theorem dumpBytes_only (s : State) (now : Bool)  : Only [.free] s (dumpBytes s now).2 := by
  unfold dumpBytes
  repeat' first
    | ((fail_if_no_progress extract_lets +onlyGivenNames x); refine Only.cut (L := [.free]) (s := s) (x := x) ?_ ?_; rotate_left; intro hx; clear_value x; rotate_left; dsimp only [x])
    | ((fail_if_no_progress extract_lets +onlyGivenNames x); refine Only.named (b := x.not) ?_; clear_value x)
    | (fail_if_no_progress extract_lets +onlyGivenNames x)
    | with_reducible apply Only.refl
    | with_reducible assumption
    | (with_reducible apply Only.ite <;> intro _)
    | with_reducible (apply Only.step (M := [.free]); rotate_left; exact dumpCounts_only_eq ‹_›; decide)
    | with_reducible (apply Only.step (M := [.free]); rotate_left; apply dumpCounts_only; decide)
    | with_reducible (refine Only.sndEq (by assumption) ?_)
    | with_reducible (refine Only.fstEq (by assumption) ?_)
    | dsimp only
    | dsimp +zetaDelta only
    | split
    | (clear_value *; split)
theorem dumpBytes_only_eq {s : State} {now : Bool} {r1} {t0 : State} (hEq : dumpBytes s now = (r1, t0)) : Only [.free] s t0 := by
  have k0 := dumpBytes_only s now
  rw [hEq] at k0; exact k0

theorem modPerf_only_perf (s : State) (f : Perf → Perf) (h : ∀ k, f k = { f k with chain := k.chain, cnt := k.cnt, wrap := k.wrap }) : Only [.perf] s (modPerf s f) :=
  set_perf_only_perf s (f s.perf) (h s.perf)
theorem modPerf_only_cnt (s : State) (f : Perf → Perf) (h : ∀ k, f k = { k with chain := (f k).chain, cnt := (f k).cnt, wrap := (f k).wrap }) : Only [.cnt] s (modPerf s f) :=
  set_perf_only_cnt s (f s.perf) (h s.perf)
theorem modPerf_only (s : State) (f : Perf → Perf) : Only [.cnt, .perf] s (modPerf s f) := set_perf_only s (f s.perf)

theorem dumpLatch_only (s : State) (now : Bool) (desc : BitVec 256)  : Only [.free, .out, .pan, .log, .line, .links, .lnk, .rings, .hif, .cnt, .perf, .outs] s (dumpLatch s now desc) := by
  unfold dumpLatch
  repeat' first
    | ((fail_if_no_progress extract_lets +onlyGivenNames x); refine Only.cut (L := [.free, .out, .pan, .log, .line, .links, .lnk, .rings, .hif, .cnt, .perf, .outs]) (s := s) (x := x) ?_ ?_; rotate_left; intro hx; clear_value x; rotate_left; dsimp only [x])
    | ((fail_if_no_progress extract_lets +onlyGivenNames x); refine Only.named (b := x.not) ?_; clear_value x)
    | (fail_if_no_progress extract_lets +onlyGivenNames x)
    | with_reducible apply Only.refl
    | with_reducible assumption
    | (with_reducible apply Only.ite <;> intro _)
    | with_reducible (apply Only.step (M := [.rings]); rotate_left; apply takeDoorbells_only; decide)
    | with_reducible (apply Only.step (M := [.perf]); rotate_left; exact modPerf_only_perf _ _ (by intro k; rfl); decide)
    | with_reducible (apply Only.step (M := [.cnt]); rotate_left; exact modPerf_only_cnt _ _ (by intro k; rfl); decide)
    | with_reducible (apply Only.step (M := [.cnt, .perf]); rotate_left; apply modPerf_only; decide)
    | with_reducible (apply Only.step (M := [.free]); rotate_left; exact dumpBytes_only_eq ‹_›; decide)
    | with_reducible (apply Only.step (M := [.free]); rotate_left; apply dumpBytes_only; decide)
    | with_reducible (apply Only.step (M := [.out, .pan, .log, .line, .links, .rings, .cnt, .outs]); rotate_left; apply emit_only; decide)
    | with_reducible (apply Only.step (M := [.hif]); rotate_left; exact modHif_only_hif _ _ (by intro k; rfl); decide)
    | with_reducible (apply Only.step (M := [.rings]); rotate_left; exact modHif_only_rings _ _ (by intro k; rfl); decide)
    | with_reducible (apply Only.step (M := [.rings, .hif]); rotate_left; apply modHif_only; decide)
    | with_reducible (apply Only.step (M := [.out, .links, .lnk, .cnt]); rotate_left; apply ringReads_only; decide)
    | with_reducible (apply Only.step (M := [.out, .links, .rings, .cnt]); rotate_left; apply dumpBack_only; decide)
    | with_reducible (apply Only.step (M := [.out, .pan, .log, .line, .links, .rings, .hif, .cnt, .outs]); rotate_left; apply hifMalformed_only; decide)
    | with_reducible (apply Only.step (M := [.out, .links, .cnt]); rotate_left; apply hostDma_only; decide)
    | with_reducible (refine Only.sndEq (by assumption) ?_)
    | with_reducible (refine Only.fstEq (by assumption) ?_)
    | dsimp only
    | dsimp +zetaDelta only
    | split
    | (clear_value *; split)

theorem samplePut_only (s : State) (x : Sample)  : Only [.out, .links, .rings, .cnt, .perf] s (samplePut s x) := by
  unfold samplePut
  repeat' first
    | ((fail_if_no_progress extract_lets +onlyGivenNames x); refine Only.cut (L := [.out, .links, .rings, .cnt, .perf]) (s := s) (x := x) ?_ ?_; rotate_left; intro hx; clear_value x; rotate_left; dsimp only [x])
    | ((fail_if_no_progress extract_lets +onlyGivenNames x); refine Only.named (b := x.not) ?_; clear_value x)
    | (fail_if_no_progress extract_lets +onlyGivenNames x)
    | with_reducible apply Only.refl
    | with_reducible assumption
    | (with_reducible apply Only.ite <;> intro _)
    | with_reducible (apply Only.step (M := [.perf]); rotate_left; exact modPerf_only_perf _ _ (by intro k; rfl); decide)
    | with_reducible (apply Only.step (M := [.cnt]); rotate_left; exact modPerf_only_cnt _ _ (by intro k; rfl); decide)
    | with_reducible (apply Only.step (M := [.cnt, .perf]); rotate_left; apply modPerf_only; decide)
    | with_reducible (apply Only.step (M := [.out, .links, .rings, .cnt, .perf]); rotate_left; apply sampleDrain_only; decide)
    | with_reducible (refine Only.sndEq (by assumption) ?_)
    | with_reducible (refine Only.fstEq (by assumption) ?_)
    | dsimp only
    | dsimp +zetaDelta only
    | split
    | (clear_value *; split)

end Sys2Proof.Laws
end

