-- ==== Sys2Proof/Laws/PwrOps.lean ====
section
/-! SUPPORT. What each operation of Machine/PwrOps.lean can touch, once for each. -/
set_option linter.unusedTactic false
set_option linter.unreachableTactic false
namespace Sys2Proof.Laws
open Sys2Proof
open Sys2Proof.Machine
open Sys2Proof.Safety

theorem blobApply_only (s : State) (e : Nat × Nat)  : Only [.free, .out, .words, .mismatch, .glb, .mem, .pwr, .upd, .tco, .refs, .gbb, .svc, .ptp, .eth, .key, .pan, .log, .line, .pair, .links, .lnk, .rings, .hif, .cnt, .perf, .outs, .tio] s (blobApply s e) := by
  unfold blobApply
  repeat' first
    | ((fail_if_no_progress extract_lets +onlyGivenNames x); refine Only.cut (L := [.free, .out, .words, .mismatch, .glb, .mem, .pwr, .upd, .tco, .refs, .gbb, .svc, .ptp, .eth, .key, .pan, .log, .line, .pair, .links, .lnk, .rings, .hif, .cnt, .perf, .outs, .tio]) (s := s) (x := x) ?_ ?_; rotate_left; intro hx; clear_value x; rotate_left; dsimp only [x])
    | ((fail_if_no_progress extract_lets +onlyGivenNames x); refine Only.named (b := x.not) ?_; clear_value x)
    | (fail_if_no_progress extract_lets +onlyGivenNames x)
    | with_reducible apply Only.refl
    | with_reducible assumption
    | (with_reducible apply Only.ite <;> intro _)
    | with_reducible (apply Only.step (M := [.out, .pan, .log, .line, .links, .rings, .cnt, .outs]); rotate_left; apply emit_only; decide)
    | with_reducible (apply Only.step (M := [.free, .out, .words, .mismatch, .glb, .mem, .pwr, .upd, .tco, .refs, .gbb, .svc, .ptp, .eth, .key, .pan, .log, .line, .pair, .links, .lnk, .rings, .hif, .cnt, .perf, .outs, .tio]); rotate_left; apply unitWrite_only; decide)
    | with_reducible (refine Only.sndEq (by assumption) ?_)
    | with_reducible (refine Only.fstEq (by assumption) ?_)
    | dsimp only
    | dsimp +zetaDelta only
    | split
    | (clear_value *; split)

theorem bootChoose_only (s : State)  : Only [.out, .upd, .pan, .log, .line, .links, .rings, .cnt, .outs] s (bootChoose s).2 := by
  unfold bootChoose
  repeat' first
    | ((fail_if_no_progress extract_lets +onlyGivenNames x); refine Only.cut (L := [.out, .upd, .pan, .log, .line, .links, .rings, .cnt, .outs]) (s := s) (x := x) ?_ ?_; rotate_left; intro hx; clear_value x; rotate_left; dsimp only [x])
    | ((fail_if_no_progress extract_lets +onlyGivenNames x); refine Only.named (b := x.not) ?_; clear_value x)
    | (fail_if_no_progress extract_lets +onlyGivenNames x)
    | with_reducible apply Only.refl
    | with_reducible assumption
    | (with_reducible apply Only.ite <;> intro _)
    | with_reducible (apply Only.step (M := [.out, .upd, .pan, .log, .line, .links, .rings, .cnt, .outs]); rotate_left; apply recConsume_only; decide)
    | with_reducible (refine Only.sndEq (by assumption) ?_)
    | with_reducible (refine Only.fstEq (by assumption) ?_)
    | dsimp only
    | dsimp +zetaDelta only
    | split
    | (clear_value *; split)
theorem bootChoose_only_eq {s : State} {r1} {t0 : State} (hEq : bootChoose s = (r1, t0)) : Only [.out, .upd, .pan, .log, .line, .links, .rings, .cnt, .outs] s t0 := by
  have k0 := bootChoose_only s
  rw [hEq] at k0; exact k0

theorem modPwr_only (s : State) (f : Pwr → Pwr)  : Only [.pwr] s (modPwr s f) := by
  unfold modPwr
  repeat' first
    | ((fail_if_no_progress extract_lets +onlyGivenNames x); refine Only.cut (L := [.pwr]) (s := s) (x := x) ?_ ?_; rotate_left; intro hx; clear_value x; rotate_left; dsimp only [x])
    | ((fail_if_no_progress extract_lets +onlyGivenNames x); refine Only.named (b := x.not) ?_; clear_value x)
    | (fail_if_no_progress extract_lets +onlyGivenNames x)
    | with_reducible apply Only.refl
    | with_reducible assumption
    | (with_reducible apply Only.ite <;> intro _)
    | (fail_if_no_progress (with_reducible (apply Only.step (M := [.pwr]); rotate_left; apply set_pwr_only; decide)))
    | with_reducible (refine Only.sndEq (by assumption) ?_)
    | with_reducible (refine Only.fstEq (by assumption) ?_)
    | dsimp only
    | dsimp +zetaDelta only
    | split
    | (clear_value *; split)

theorem set_clk_hif_only (s : State) (x : Clk) (y : Hif) : Only [.clk, .rings, .hif] s { s with clk := x, hif := y } :=
  Only.of (fun p hp => by cases p <;> first | exact absurd (by decide) hp | simp [Part.same]) rfl rfl
theorem set_ctl_mem_only (s : State) (x : Ctl) (y : Mem) : Only [.ctl, .mem] s { s with ctl := x, mem := y } :=
  Only.of (fun p hp => by cases p <;> first | exact absurd (by decide) hp | simp [Part.same]) rfl rfl
theorem set_key_ctl_only (s : State) (x : Key) (y : Ctl) : Only [.key, .ctl] s { s with key := x, ctl := y } :=
  Only.of (fun p hp => by cases p <;> first | exact absurd (by decide) hp | simp [Part.same]) rfl rfl

theorem panTamper_only (s : State)  : Only [.out, .key, .pan, .log, .line, .links, .rings, .cnt, .outs] s (panTamper s) := by
  unfold panTamper
  repeat' first
    | ((fail_if_no_progress extract_lets +onlyGivenNames x); refine Only.cut (L := [.out, .key, .pan, .log, .line, .links, .rings, .cnt, .outs]) (s := s) (x := x) ?_ ?_; rotate_left; intro hx; clear_value x; rotate_left; dsimp only [x])
    | ((fail_if_no_progress extract_lets +onlyGivenNames x); refine Only.named (b := x.not) ?_; clear_value x)
    | (fail_if_no_progress extract_lets +onlyGivenNames x)
    | (with_reducible apply Only.foldl; (intro _ _ _))
    | (with_reducible apply Only.foldlFst; (intro _ _ _))
    | with_reducible apply Only.refl
    | with_reducible assumption
    | (with_reducible apply Only.ite <;> intro _)
    | with_reducible (apply Only.step (M := [.pan]); rotate_left; apply modFig_only; decide)
    | with_reducible (apply Only.step (M := [.out, .pan, .log, .line, .links, .rings, .cnt, .outs]); rotate_left; apply panLog_only; decide)
    | with_reducible (apply Only.step (M := [.key]); rotate_left; apply modKey_only; decide)
    | with_reducible (refine Only.sndEq (by assumption) ?_)
    | with_reducible (refine Only.fstEq (by assumption) ?_)
    | dsimp only
    | dsimp +zetaDelta only
    | split
    | (clear_value *; split)

theorem panStartEntry_only (s : State) (vbatLost : Bool) (slot : Nat)  : Only [.out, .pan, .log, .line, .links, .rings, .cnt, .outs] s (panStartEntry s vbatLost slot) := by
  unfold panStartEntry
  repeat' first
    | ((fail_if_no_progress extract_lets +onlyGivenNames x); refine Only.cut (L := [.out, .pan, .log, .line, .links, .rings, .cnt, .outs]) (s := s) (x := x) ?_ ?_; rotate_left; intro hx; clear_value x; rotate_left; dsimp only [x])
    | ((fail_if_no_progress extract_lets +onlyGivenNames x); refine Only.named (b := x.not) ?_; clear_value x)
    | (fail_if_no_progress extract_lets +onlyGivenNames x)
    | with_reducible apply Only.refl
    | with_reducible assumption
    | (with_reducible apply Only.ite <;> intro _)
    | with_reducible (apply Only.step (M := [.out, .pan, .log, .line, .links, .rings, .cnt, .outs]); rotate_left; apply panLog_only; decide)
    | with_reducible (apply Only.step (M := [.pan]); rotate_left; apply modFig_only; decide)
    | with_reducible (refine Only.sndEq (by assumption) ?_)
    | with_reducible (refine Only.fstEq (by assumption) ?_)
    | dsimp only
    | dsimp +zetaDelta only
    | split
    | (clear_value *; split)

theorem modPan_only (s : State) (f : Pan → Pan)  : Only [.pan] s (modPan s f) := by
  unfold modPan
  repeat' first
    | ((fail_if_no_progress extract_lets +onlyGivenNames x); refine Only.cut (L := [.pan]) (s := s) (x := x) ?_ ?_; rotate_left; intro hx; clear_value x; rotate_left; dsimp only [x])
    | ((fail_if_no_progress extract_lets +onlyGivenNames x); refine Only.named (b := x.not) ?_; clear_value x)
    | (fail_if_no_progress extract_lets +onlyGivenNames x)
    | with_reducible apply Only.refl
    | with_reducible assumption
    | (with_reducible apply Only.ite <;> intro _)
    | (fail_if_no_progress (with_reducible (apply Only.step (M := [.pan]); rotate_left; apply set_pan_only; decide)))
    | with_reducible (refine Only.sndEq (by assumption) ?_)
    | with_reducible (refine Only.fstEq (by assumption) ?_)
    | dsimp only
    | dsimp +zetaDelta only
    | split
    | (clear_value *; split)

theorem panStart_only (s : State) (vbatLost : Bool)  : Only [.out, .pan, .log, .line, .links, .rings, .cnt, .outs] s (panStart s vbatLost) := by
  unfold panStart
  repeat' first
    | ((fail_if_no_progress extract_lets +onlyGivenNames x); refine Only.cut (L := [.out, .pan, .log, .line, .links, .rings, .cnt, .outs]) (s := s) (x := x) ?_ ?_; rotate_left; intro hx; clear_value x; rotate_left; dsimp only [x])
    | ((fail_if_no_progress extract_lets +onlyGivenNames x); refine Only.named (b := x.not) ?_; clear_value x)
    | (fail_if_no_progress extract_lets +onlyGivenNames x)
    | with_reducible apply Only.refl
    | with_reducible assumption
    | (with_reducible apply Only.ite <;> intro _)
    | with_reducible (apply Only.step (M := [.pan]); rotate_left; apply modPan_only; decide)
    | with_reducible (apply Only.step (M := [.out, .pan, .log, .line, .links, .rings, .cnt, .outs]); rotate_left; apply panLog_only; decide)
    | with_reducible (apply Only.step (M := [.out, .pan, .log, .line, .links, .rings, .cnt, .outs]); rotate_left; apply emit_only; decide)
    | with_reducible (refine Only.sndEq (by assumption) ?_)
    | with_reducible (refine Only.fstEq (by assumption) ?_)
    | dsimp only
    | dsimp +zetaDelta only
    | split
    | (clear_value *; split)

theorem startEvents_only (s : State)  : Only [.out, .key, .pan, .log, .line, .links, .rings, .cnt, .outs] s (startEvents s) := by
  unfold startEvents
  repeat' first
    | ((fail_if_no_progress extract_lets +onlyGivenNames x); refine Only.cut (L := [.out, .key, .pan, .log, .line, .links, .rings, .cnt, .outs]) (s := s) (x := x) ?_ ?_; rotate_left; intro hx; clear_value x; rotate_left; dsimp only [x])
    | ((fail_if_no_progress extract_lets +onlyGivenNames x); refine Only.named (b := x.not) ?_; clear_value x)
    | (fail_if_no_progress extract_lets +onlyGivenNames x)
    | with_reducible apply Only.refl
    | with_reducible assumption
    | (with_reducible apply Only.ite <;> intro _)
    | with_reducible (apply Only.step (M := [.out, .pan, .log, .line, .links, .rings, .cnt, .outs]); rotate_left; apply emit_only; decide)
    | with_reducible (apply Only.step (M := [.key]); rotate_left; apply modKey_only; decide)
    | with_reducible (refine Only.sndEq (by assumption) ?_)
    | with_reducible (refine Only.fstEq (by assumption) ?_)
    | dsimp only
    | dsimp +zetaDelta only
    | split
    | (clear_value *; split)

theorem enterRecovery_only (s : State) (i : StartIn) (why : Nat) : Only [.out, .pwr, .key, .pan, .log, .line, .links, .rings, .cnt, .outs] s (enterRecovery s i why) := by
  have h1 : Only [.out, .pwr, .key, .pan, .log, .line, .links, .rings, .cnt, .outs] s (modPwr s fun p => { p with phase := .recovery, start := none }) := Only.mono (modPwr_only ..) (by decide)
  unfold enterRecovery
  generalize (modPwr s fun p => { p with phase := .recovery, start := none }) = a at h1 ⊢
  have h2 : ∀ y, Only [.out, .pwr, .key, .pan, .log, .line, .links, .rings, .cnt, .outs] s { a with pan := y } := fun y => Only.step h1 (set_pan_only a y) (by decide)
  exact Only.step (Only.step (Only.step (Only.step (Only.step (h2 _) (panStart_only ..) (by decide))
    (panStartEntry_only ..) (by decide)) (panTamper_only _) (by decide)) (emit_only ..) (by decide)) (startEvents_only _) (by decide)

theorem bootStuck_only (s : State) (img : List Byte)  : Only [.pwr, .ctl] s (bootStuck s img) := by
  unfold bootStuck
  repeat' first
    | ((fail_if_no_progress extract_lets +onlyGivenNames x); refine Only.cut (L := [.pwr, .ctl]) (s := s) (x := x) ?_ ?_; rotate_left; intro hx; clear_value x; rotate_left; dsimp only [x])
    | ((fail_if_no_progress extract_lets +onlyGivenNames x); refine Only.named (b := x.not) ?_; clear_value x)
    | (fail_if_no_progress extract_lets +onlyGivenNames x)
    | with_reducible apply Only.refl
    | with_reducible assumption
    | (with_reducible apply Only.ite <;> intro _)
    | with_reducible (apply Only.step (M := [.pwr]); rotate_left; apply modPwr_only; decide)
    | (fail_if_no_progress (with_reducible (apply Only.step (M := [.ctl]); rotate_left; apply set_ctl_only; decide)))
    | with_reducible (refine Only.sndEq (by assumption) ?_)
    | with_reducible (refine Only.fstEq (by assumption) ?_)
    | dsimp only
    | dsimp +zetaDelta only
    | split
    | (clear_value *; split)

theorem bootLoad_only (s : State) (i : StartIn) (img : List Byte) : Only [.mem, .ctl] s (bootLoad s i img) :=
  Only.mono (set_ctl_mem_only s _ _) (by decide)

theorem pairReload_only (s : State)  : Only [.out, .key, .pan, .log, .line, .links, .rings, .cnt, .outs] s (pairReload s) := by
  unfold pairReload
  repeat' first
    | ((fail_if_no_progress extract_lets +onlyGivenNames x); refine Only.cut (L := [.out, .key, .pan, .log, .line, .links, .rings, .cnt, .outs]) (s := s) (x := x) ?_ ?_; rotate_left; intro hx; clear_value x; rotate_left; dsimp only [x])
    | ((fail_if_no_progress extract_lets +onlyGivenNames x); refine Only.named (b := x.not) ?_; clear_value x)
    | (fail_if_no_progress extract_lets +onlyGivenNames x)
    | with_reducible apply Only.refl
    | with_reducible assumption
    | (with_reducible apply Only.ite <;> intro _)
    | with_reducible (apply Only.step (M := [.key]); rotate_left; apply fillSlot_only; decide)
    | with_reducible (apply Only.step (M := [.out, .pan, .log, .line, .links, .rings, .cnt, .outs]); rotate_left; apply pairFail_only; decide)
    | with_reducible (refine Only.sndEq (by assumption) ?_)
    | with_reducible (refine Only.fstEq (by assumption) ?_)
    | dsimp only
    | dsimp +zetaDelta only
    | split
    | (clear_value *; split)

theorem bootIncomplete_only (s : State)  : Only [.out, .pan, .log, .line, .links, .rings, .cnt, .outs] s (bootIncomplete s) := by
  unfold bootIncomplete
  repeat' first
    | ((fail_if_no_progress extract_lets +onlyGivenNames x); refine Only.cut (L := [.out, .pan, .log, .line, .links, .rings, .cnt, .outs]) (s := s) (x := x) ?_ ?_; rotate_left; intro hx; clear_value x; rotate_left; dsimp only [x])
    | ((fail_if_no_progress extract_lets +onlyGivenNames x); refine Only.named (b := x.not) ?_; clear_value x)
    | (fail_if_no_progress extract_lets +onlyGivenNames x)
    | (with_reducible apply Only.foldl; (intro _ _ _))
    | (with_reducible apply Only.foldlFst; (intro _ _ _))
    | with_reducible apply Only.refl
    | with_reducible assumption
    | (with_reducible apply Only.ite <;> intro _)
    | with_reducible (apply Only.step (M := [.out, .pan, .log, .line, .links, .rings, .cnt, .outs]); rotate_left; apply emit_only; decide)
    | with_reducible (refine Only.sndEq (by assumption) ?_)
    | with_reducible (refine Only.fstEq (by assumption) ?_)
    | dsimp only
    | dsimp +zetaDelta only
    | split
    | (clear_value *; split)

theorem bootRecord_only (s : State) (b : Boot) (blank : Bool)  : Only [.out, .pwr, .upd, .pan, .log, .line, .links, .rings, .cnt, .outs] s (bootRecord s b blank) := by
  unfold bootRecord
  repeat' first
    | ((fail_if_no_progress extract_lets +onlyGivenNames x); refine Only.cut (L := [.out, .pwr, .upd, .pan, .log, .line, .links, .rings, .cnt, .outs]) (s := s) (x := x) ?_ ?_; rotate_left; intro hx; clear_value x; rotate_left; dsimp only [x])
    | ((fail_if_no_progress extract_lets +onlyGivenNames x); refine Only.named (b := x.not) ?_; clear_value x)
    | (fail_if_no_progress extract_lets +onlyGivenNames x)
    | with_reducible apply Only.refl
    | with_reducible assumption
    | (with_reducible apply Only.ite <;> intro _)
    | with_reducible (apply Only.step (M := [.out, .upd, .pan, .log, .line, .links, .rings, .cnt, .outs]); rotate_left; apply recWrite_only; decide)
    | with_reducible (apply Only.step (M := [.pwr]); rotate_left; apply modPwr_only; decide)
    | with_reducible (apply Only.step (M := [.out, .pan, .log, .line, .links, .rings, .cnt, .outs]); rotate_left; apply emit_only; decide)
    | with_reducible (refine Only.sndEq (by assumption) ?_)
    | with_reducible (refine Only.fstEq (by assumption) ?_)
    | dsimp only
    | dsimp +zetaDelta only
    | split
    | (clear_value *; split)

theorem bootReady_only (s : State) (i : StartIn) (b : Boot) (blank wasTrial : Bool) : Only [.free, .out, .words, .mismatch, .glb, .mem, .pwr, .ctl, .upd, .tco, .refs, .gbb, .svc, .ptp, .eth, .key, .pan, .log, .line, .pair, .links, .lnk, .rings, .hif, .cnt, .perf, .outs, .tio] s (bootReady s i b blank wasTrial) := by
  unfold bootReady
  refine Only.ite (fun _ => Only.mono (bootStuck_only ..) (by decide)) (fun _ => ?_)
  have h1 : Only [.free, .out, .words, .mismatch, .glb, .mem, .pwr, .ctl, .upd, .tco, .refs, .gbb, .svc, .ptp, .eth, .key, .pan, .log, .line, .pair, .links, .lnk, .rings, .hif, .cnt, .perf, .outs, .tio] s (modPwr (bootLoad s i (slotImage s b.slot)) fun p => { p with phase := .ready, start := none, readyAt := (bootLoad s i (slotImage s b.slot)).now, readyMs := i.ms }) :=
    Only.step (Only.mono (bootLoad_only ..) (by decide)) (modPwr_only ..) (by decide)
  dsimp only
  generalize (modPwr (bootLoad s i (slotImage s b.slot)) fun p => { p with phase := .ready, start := none, readyAt := (bootLoad s i (slotImage s b.slot)).now, readyMs := i.ms }) = a at h1 ⊢
  have h3 : ∀ y, Only [.free, .out, .words, .mismatch, .glb, .mem, .pwr, .ctl, .upd, .tco, .refs, .gbb, .svc, .ptp, .eth, .key, .pan, .log, .line, .pair, .links, .lnk, .rings, .hif, .cnt, .perf, .outs, .tio] s (draw { a with pan := y }).2 := fun y => Only.step (Only.step h1 (set_pan_only a y) (by decide)) (draw_only _) (by decide)
  have h4 : ∀ (c : Prop) [Decidable c] (u : State) (v w : Bool) (y : Nat), Only [.free, .out, .words, .mismatch, .glb, .mem, .pwr, .ctl, .upd, .tco, .refs, .gbb, .svc, .ptp, .eth, .key, .pan, .log, .line, .pair, .links, .lnk, .rings, .hif, .cnt, .perf, .outs, .tio] s u → Only [.free, .out, .words, .mismatch, .glb, .mem, .pwr, .ctl, .upd, .tco, .refs, .gbb, .svc, .ptp, .eth, .key, .pan, .log, .line, .pair, .links, .lnk, .rings, .hif, .cnt, .perf, .outs, .tio] s
      (if c then u else panStartEntry (panStart u v) w y) := fun c _ u v w y h =>
    Only.ite (fun _ => h) fun _ => Only.step (Only.step h (panStart_only ..) (by decide)) (panStartEntry_only ..) (by decide)
  have h5 : ∀ (c : Prop) [Decidable c] (u : State) (x : Nat), Only [.free, .out, .words, .mismatch, .glb, .mem, .pwr, .ctl, .upd, .tco, .refs, .gbb, .svc, .ptp, .eth, .key, .pan, .log, .line, .pair, .links, .lnk, .rings, .hif, .cnt, .perf, .outs, .tio] s u → Only [.free, .out, .words, .mismatch, .glb, .mem, .pwr, .ctl, .upd, .tco, .refs, .gbb, .svc, .ptp, .eth, .key, .pan, .log, .line, .pair, .links, .lnk, .rings, .hif, .cnt, .perf, .outs, .tio] s
      (if c then emit u .upd 0x0003 .notice x none else floorRaise u) := fun c _ u x h =>
    Only.ite (fun _ => Only.step h (emit_only ..) (by decide)) fun _ => Only.step h (floorRaise_only ..) (by decide)
  refine Only.step (Only.step (h5 _ _ _ (Only.step (Only.step (Only.step (h4 _ _ _ _ _ (Only.step (Only.foldl _ _ ?_
    (Only.step (Only.step (Only.step (h3 _) (modSvc_only ..) (by decide)) (modKey_only ..) (by decide)) (modUpd_only ..) (by decide)))
    (pairReload_only _) (by decide))) (panTamper_only _) (by decide)) (bootIncomplete_only _) (by decide))
    (bootRecord_only ..) (by decide))) (startEvents_only _) (by decide)) (linkGates_only _) (by decide)
  exact fun u e h => Only.step h (blobApply_only ..) (by decide)

theorem bootImage_only (s : State) (i : StartIn)  : Only [.free, .out, .words, .mismatch, .glb, .mem, .pwr, .ctl, .upd, .tco, .refs, .gbb, .svc, .ptp, .eth, .key, .pan, .log, .line, .pair, .links, .lnk, .rings, .hif, .cnt, .perf, .outs, .tio] s (bootImage s i) := by
  unfold bootImage
  repeat' first
    | ((fail_if_no_progress extract_lets +onlyGivenNames x); refine Only.cut (L := [.free, .out, .words, .mismatch, .glb, .mem, .pwr, .ctl, .upd, .tco, .refs, .gbb, .svc, .ptp, .eth, .key, .pan, .log, .line, .pair, .links, .lnk, .rings, .hif, .cnt, .perf, .outs, .tio]) (s := s) (x := x) ?_ ?_; rotate_left; intro hx; clear_value x; rotate_left; dsimp only [x])
    | ((fail_if_no_progress extract_lets +onlyGivenNames x); refine Only.named (b := x.not) ?_; clear_value x)
    | (fail_if_no_progress extract_lets +onlyGivenNames x)
    | with_reducible apply Only.refl
    | with_reducible assumption
    | (with_reducible apply Only.ite <;> intro _)
    | with_reducible (apply Only.step (M := [.out, .upd, .pan, .log, .line, .links, .rings, .cnt, .outs]); rotate_left; exact bootChoose_only_eq ‹_›; decide)
    | with_reducible (apply Only.step (M := [.out, .upd, .pan, .log, .line, .links, .rings, .cnt, .outs]); rotate_left; apply bootChoose_only; decide)
    | with_reducible (apply Only.step (M := [.out, .pwr, .key, .pan, .log, .line, .links, .rings, .cnt, .outs]); rotate_left; apply enterRecovery_only; decide)
    | with_reducible (apply Only.step (M := [.free, .out, .words, .mismatch, .glb, .mem, .pwr, .ctl, .upd, .tco, .refs, .gbb, .svc, .ptp, .eth, .key, .pan, .log, .line, .pair, .links, .lnk, .rings, .hif, .cnt, .perf, .outs, .tio]); rotate_left; apply bootReady_only; decide)
    | with_reducible (refine Only.sndEq (by assumption) ?_)
    | with_reducible (refine Only.fstEq (by assumption) ?_)
    | dsimp only
    | dsimp +zetaDelta only
    | split
    | (clear_value *; split)

theorem stateEvent_only (s : State) (new : PowerState)  : Only [.out, .pwr, .pan, .log, .line, .links, .rings, .cnt, .outs] s (stateEvent s new) := by
  unfold stateEvent
  repeat' first
    | ((fail_if_no_progress extract_lets +onlyGivenNames x); refine Only.cut (L := [.out, .pwr, .pan, .log, .line, .links, .rings, .cnt, .outs]) (s := s) (x := x) ?_ ?_; rotate_left; intro hx; clear_value x; rotate_left; dsimp only [x])
    | ((fail_if_no_progress extract_lets +onlyGivenNames x); refine Only.named (b := x.not) ?_; clear_value x)
    | (fail_if_no_progress extract_lets +onlyGivenNames x)
    | with_reducible apply Only.refl
    | with_reducible assumption
    | (with_reducible apply Only.ite <;> intro _)
    | with_reducible (apply Only.step (M := [.out, .pan, .log, .line, .links, .rings, .cnt, .outs]); rotate_left; apply emit_only; decide)
    | with_reducible (apply Only.step (M := [.pwr]); rotate_left; apply modPwr_only; decide)
    | with_reducible (refine Only.sndEq (by assumption) ?_)
    | with_reducible (refine Only.fstEq (by assumption) ?_)
    | dsimp only
    | dsimp +zetaDelta only
    | split
    | (clear_value *; split)

theorem toBoil_only (s : State)  : Only [.free, .out, .pwr, .tco, .refs, .svc, .ptp, .eth, .pan, .log, .line, .pair, .links, .lnk, .rings, .hif, .cnt, .outs] s (toBoil s) := by
  unfold toBoil
  repeat' first
    | ((fail_if_no_progress extract_lets +onlyGivenNames x); refine Only.cut (L := [.free, .out, .pwr, .tco, .refs, .svc, .ptp, .eth, .pan, .log, .line, .pair, .links, .lnk, .rings, .hif, .cnt, .outs]) (s := s) (x := x) ?_ ?_; rotate_left; intro hx; clear_value x; rotate_left; dsimp only [x])
    | ((fail_if_no_progress extract_lets +onlyGivenNames x); refine Only.named (b := x.not) ?_; clear_value x)
    | (fail_if_no_progress extract_lets +onlyGivenNames x)
    | with_reducible apply Only.refl
    | with_reducible assumption
    | (with_reducible apply Only.ite <;> intro _)
    | with_reducible (apply Only.step (M := [.pwr]); rotate_left; apply modPwr_only; decide)
    | with_reducible (apply Only.step (M := [.out, .pwr, .pan, .log, .line, .links, .rings, .cnt, .outs]); rotate_left; apply stateEvent_only; decide)
    | with_reducible (apply Only.step (M := [.free, .out, .ptp, .eth, .pan, .log, .line, .pair, .links, .rings, .cnt, .outs]); rotate_left; apply instEvalAll_only; decide)
    | with_reducible (apply Only.step (M := [.out, .tco, .refs, .svc, .ptp, .eth, .pan, .log, .line, .links, .lnk, .rings, .hif, .cnt, .outs]); rotate_left; apply portsGate_only; decide)
    | with_reducible (refine Only.sndEq (by assumption) ?_)
    | with_reducible (refine Only.fstEq (by assumption) ?_)
    | dsimp only
    | dsimp +zetaDelta only
    | split
    | (clear_value *; split)

theorem leaveService_only (s : State) (target : PowerState)  : Only [.out, .pwr, .pan, .log, .line, .pair, .links, .rings, .hif, .cnt, .outs] s (leaveService s target) := by
  unfold leaveService
  repeat' first
    | ((fail_if_no_progress extract_lets +onlyGivenNames x); refine Only.cut (L := [.out, .pwr, .pan, .log, .line, .pair, .links, .rings, .hif, .cnt, .outs]) (s := s) (x := x) ?_ ?_; rotate_left; intro hx; clear_value x; rotate_left; dsimp only [x])
    | ((fail_if_no_progress extract_lets +onlyGivenNames x); refine Only.named (b := x.not) ?_; clear_value x)
    | (fail_if_no_progress extract_lets +onlyGivenNames x)
    | with_reducible apply Only.refl
    | with_reducible assumption
    | (with_reducible apply Only.ite <;> intro _)
    | with_reducible (apply Only.step (M := [.out, .pan, .log, .line, .pair, .links, .rings, .hif, .cnt, .outs]); rotate_left; apply swapAbort_only; decide)
    | with_reducible (apply Only.step (M := [.out, .line, .outs]); rotate_left; apply lineRelease_only; decide)
    | with_reducible (apply Only.step (M := [.out, .pwr, .pan, .log, .line, .links, .rings, .cnt, .outs]); rotate_left; apply stateEvent_only; decide)
    | with_reducible (apply Only.step (M := [.pwr]); rotate_left; apply modPwr_only; decide)
    | with_reducible (apply Only.step (M := [.pan, .links]); rotate_left; apply panCommit_only; decide)
    | with_reducible (refine Only.sndEq (by assumption) ?_)
    | with_reducible (refine Only.fstEq (by assumption) ?_)
    | dsimp only
    | dsimp +zetaDelta only
    | split
    | (clear_value *; split)

theorem powerDone_only (s : State) (hd : Hdr) (target : PowerState)  : Only [.out, .pwr, .pan, .log, .line, .pair, .links, .rings, .hif, .cnt, .outs] s (powerDone s hd target) := by
  unfold powerDone
  repeat' first
    | ((fail_if_no_progress extract_lets +onlyGivenNames x); refine Only.cut (L := [.out, .pwr, .pan, .log, .line, .pair, .links, .rings, .hif, .cnt, .outs]) (s := s) (x := x) ?_ ?_; rotate_left; intro hx; clear_value x; rotate_left; dsimp only [x])
    | ((fail_if_no_progress extract_lets +onlyGivenNames x); refine Only.named (b := x.not) ?_; clear_value x)
    | (fail_if_no_progress extract_lets +onlyGivenNames x)
    | with_reducible apply Only.refl
    | with_reducible assumption
    | (with_reducible apply Only.ite <;> intro _)
    | with_reducible (apply Only.step (M := [.out, .pwr, .pan, .log, .line, .pair, .links, .rings, .hif, .cnt, .outs]); rotate_left; apply leaveService_only; decide)
    | with_reducible (apply Only.step (M := [.hif]); rotate_left; apply complete_only; decide)
    | with_reducible (refine Only.sndEq (by assumption) ?_)
    | with_reducible (refine Only.fstEq (by assumption) ?_)
    | dsimp only
    | dsimp +zetaDelta only
    | split
    | (clear_value *; split)

theorem toWarm_only (s : State)  : Only [.out, .pwr, .tco, .refs, .svc, .ptp, .eth, .pan, .log, .line, .links, .lnk, .rings, .hif, .cnt, .outs] s (toWarm s) := by
  unfold toWarm
  repeat' first
    | ((fail_if_no_progress extract_lets +onlyGivenNames x); refine Only.cut (L := [.out, .pwr, .tco, .refs, .svc, .ptp, .eth, .pan, .log, .line, .links, .lnk, .rings, .hif, .cnt, .outs]) (s := s) (x := x) ?_ ?_; rotate_left; intro hx; clear_value x; rotate_left; dsimp only [x])
    | ((fail_if_no_progress extract_lets +onlyGivenNames x); refine Only.named (b := x.not) ?_; clear_value x)
    | (fail_if_no_progress extract_lets +onlyGivenNames x)
    | with_reducible apply Only.refl
    | with_reducible assumption
    | (with_reducible apply Only.ite <;> intro _)
    | with_reducible (apply Only.step (M := [.out, .tco, .refs, .svc, .ptp, .eth, .pan, .log, .line, .links, .lnk, .rings, .hif, .cnt, .outs]); rotate_left; apply portsGate_only; decide)
    | with_reducible (apply Only.step (M := [.pwr]); rotate_left; apply modPwr_only; decide)
    | with_reducible (apply Only.step (M := [.out, .pwr, .pan, .log, .line, .links, .rings, .cnt, .outs]); rotate_left; apply stateEvent_only; decide)
    | with_reducible (refine Only.sndEq (by assumption) ?_)
    | with_reducible (refine Only.fstEq (by assumption) ?_)
    | dsimp only
    | dsimp +zetaDelta only
    | split
    | (clear_value *; split)

theorem transEval_only (s : State)  : Only [.out, .pwr, .tco, .refs, .svc, .ptp, .eth, .pan, .log, .line, .pair, .links, .lnk, .rings, .hif, .cnt, .outs] s (transEval s) := by
  unfold transEval
  repeat' first
    | ((fail_if_no_progress extract_lets +onlyGivenNames x); refine Only.cut (L := [.out, .pwr, .tco, .refs, .svc, .ptp, .eth, .pan, .log, .line, .pair, .links, .lnk, .rings, .hif, .cnt, .outs]) (s := s) (x := x) ?_ ?_; rotate_left; intro hx; clear_value x; rotate_left; dsimp only [x])
    | ((fail_if_no_progress extract_lets +onlyGivenNames x); refine Only.named (b := x.not) ?_; clear_value x)
    | (fail_if_no_progress extract_lets +onlyGivenNames x)
    | with_reducible apply Only.refl
    | with_reducible assumption
    | (with_reducible apply Only.ite <;> intro _)
    | with_reducible (apply Only.step (M := [.out, .pwr, .pan, .log, .line, .pair, .links, .rings, .hif, .cnt, .outs]); rotate_left; apply powerDone_only; decide)
    | with_reducible (apply Only.step (M := [.out, .pwr, .tco, .refs, .svc, .ptp, .eth, .pan, .log, .line, .links, .lnk, .rings, .hif, .cnt, .outs]); rotate_left; apply toWarm_only; decide)
    | with_reducible (apply Only.step (M := [.pwr]); rotate_left; apply modPwr_only; decide)
    | with_reducible (refine Only.sndEq (by assumption) ?_)
    | with_reducible (refine Only.fstEq (by assumption) ?_)
    | dsimp only
    | dsimp +zetaDelta only
    | split
    | (clear_value *; split)

theorem leaveBoil_only (s : State)  : Only [.out, .svc, .ptp, .eth, .links, .rings, .cnt] s (leaveBoil s) := by
  unfold leaveBoil
  repeat' first
    | ((fail_if_no_progress extract_lets +onlyGivenNames x); refine Only.cut (L := [.out, .svc, .ptp, .eth, .links, .rings, .cnt]) (s := s) (x := x) ?_ ?_; rotate_left; intro hx; clear_value x; rotate_left; dsimp only [x])
    | ((fail_if_no_progress extract_lets +onlyGivenNames x); refine Only.named (b := x.not) ?_; clear_value x)
    | (fail_if_no_progress extract_lets +onlyGivenNames x)
    | (with_reducible apply Only.foldl; (intro _ _ _))
    | (with_reducible apply Only.foldlFst; (intro _ _ _))
    | with_reducible apply Only.refl
    | with_reducible assumption
    | (with_reducible apply Only.ite <;> intro _)
    | with_reducible (apply Only.step (M := [.ptp]); rotate_left; apply modInst_only; decide)
    | with_reducible (apply Only.step (M := [.out, .svc, .ptp, .eth, .links, .rings, .cnt]); rotate_left; apply discardQueue_only; decide)
    | with_reducible (refine Only.sndEq (by assumption) ?_)
    | with_reducible (refine Only.fstEq (by assumption) ?_)
    | dsimp only
    | dsimp +zetaDelta only
    | split
    | (clear_value *; split)

theorem hold_only (s : State) (i : StartIn) (ph : Phase)  : Only [.pwr] s (hold s i ph) := by
  unfold hold
  repeat' first
    | ((fail_if_no_progress extract_lets +onlyGivenNames x); refine Only.cut (L := [.pwr]) (s := s) (x := x) ?_ ?_; rotate_left; intro hx; clear_value x; rotate_left; dsimp only [x])
    | ((fail_if_no_progress extract_lets +onlyGivenNames x); refine Only.named (b := x.not) ?_; clear_value x)
    | (fail_if_no_progress extract_lets +onlyGivenNames x)
    | with_reducible apply Only.refl
    | with_reducible assumption
    | (with_reducible apply Only.ite <;> intro _)
    | with_reducible (apply Only.step (M := [.pwr]); rotate_left; apply modPwr_only; decide)
    | with_reducible (refine Only.sndEq (by assumption) ?_)
    | with_reducible (refine Only.fstEq (by assumption) ?_)
    | dsimp only
    | dsimp +zetaDelta only
    | split
    | (clear_value *; split)

theorem startKeys_only (s : State) (i : StartIn) : Only [.free, .out, .words, .mismatch, .glb, .mem, .pwr, .ctl, .upd, .tco, .refs, .gbb, .svc, .ptp, .eth, .key, .pan, .log, .line, .pair, .links, .lnk, .rings, .hif, .cnt, .perf, .outs, .tio] s (startKeys s i) := by
  have h : Only [.free, .out, .words, .mismatch, .glb, .mem, .pwr, .ctl, .upd, .tco, .refs, .gbb, .svc, .ptp, .eth, .key, .pan, .log, .line, .pair, .links, .lnk, .rings, .hif, .cnt, .perf, .outs, .tio] s (deriveFixed { s with key := { s.key with slots := [] }, ctl := { s.ctl with run := vset s.ctl.run 0 2 } }) :=
    Only.step (Only.mono (set_key_ctl_only s _ _) (by decide)) (deriveFixed_only _) (by decide)
  exact Only.ite (fun _ => Only.step h (enterRecovery_only ..) (by decide)) fun _ =>
    Only.ite (fun _ => Only.step h (enterRecovery_only ..) (by decide)) fun _ => Only.step h (bootImage_only ..) (by decide)

theorem startLoops_only (s : State) (i : StartIn) (ref : BitVec 2) : Only [.free, .out, .words, .mismatch, .glb, .mem, .clk, .pwr, .ctl, .upd, .tco, .refs, .gbb, .svc, .ptp, .eth, .key, .pan, .log, .line, .pair, .links, .lnk, .rings, .hif, .cnt, .perf, .outs, .tio] s (startLoops s i ref) := by
  have h : ∀ x y, Only [.free, .out, .words, .mismatch, .glb, .mem, .clk, .pwr, .ctl, .upd, .tco, .refs, .gbb, .svc, .ptp, .eth, .key, .pan, .log, .line, .pair, .links, .lnk, .rings, .hif, .cnt, .perf, .outs, .tio] s { s with clk := x, hif := y } := fun x y => Only.mono (set_clk_hif_only s x y) (by decide)
  exact Only.ite (fun _ => Only.step (h _ _) (modPwr_only ..) (by decide)) fun _ =>
    Only.ite (fun _ => Only.step (h _ _) (hold_only ..) (by decide)) fun _ => Only.step (h _ _) (startKeys_only ..) (by decide)

theorem startRef_only (s : State) (i : StartIn)  : Only [.free, .out, .words, .mismatch, .glb, .mem, .clk, .pwr, .ctl, .upd, .tco, .refs, .gbb, .svc, .ptp, .eth, .key, .pan, .log, .line, .pair, .links, .lnk, .rings, .hif, .cnt, .perf, .outs, .tio] s (startRef s i) := by
  unfold startRef
  repeat' first
    | ((fail_if_no_progress extract_lets +onlyGivenNames x); refine Only.cut (L := [.free, .out, .words, .mismatch, .glb, .mem, .clk, .pwr, .ctl, .upd, .tco, .refs, .gbb, .svc, .ptp, .eth, .key, .pan, .log, .line, .pair, .links, .lnk, .rings, .hif, .cnt, .perf, .outs, .tio]) (s := s) (x := x) ?_ ?_; rotate_left; intro hx; clear_value x; rotate_left; dsimp only [x])
    | ((fail_if_no_progress extract_lets +onlyGivenNames x); refine Only.named (b := x.not) ?_; clear_value x)
    | (fail_if_no_progress extract_lets +onlyGivenNames x)
    | with_reducible apply Only.refl
    | with_reducible assumption
    | (with_reducible apply Only.ite <;> intro _)
    | with_reducible (apply Only.step (M := [.free, .out, .words, .mismatch, .glb, .mem, .clk, .pwr, .ctl, .upd, .tco, .refs, .gbb, .svc, .ptp, .eth, .key, .pan, .log, .line, .pair, .links, .lnk, .rings, .hif, .cnt, .perf, .outs, .tio]); rotate_left; apply startLoops_only; decide)
    | with_reducible (apply Only.step (M := [.out, .pan, .log, .line, .links, .rings, .cnt, .outs]); rotate_left; apply emit_only; decide)
    | with_reducible (apply Only.step (M := [.pwr]); rotate_left; apply hold_only; decide)
    | (fail_if_no_progress (with_reducible (apply Only.step (M := [.clk]); rotate_left; apply set_clk_only; decide)))
    | (fail_if_no_progress (with_reducible (apply Only.upd; rotate_left; (dsimp only; try rfl); rfl; rfl); (intro p hp; cases p <;> first | exact absurd (by decide) hp | (simp [Part.same]; done) | exact rfl)))
    | with_reducible (refine Only.sndEq (by assumption) ?_)
    | with_reducible (refine Only.fstEq (by assumption) ?_)
    | dsimp only
    | dsimp +zetaDelta only
    | split
    | (clear_value *; split)

theorem vbatLoss_only (s : State) : Only [.time, .pwr, .eth, .key] s (vbatLoss s) :=
  Only.of (fun p hp => by cases p <;> first | exact absurd (by decide) hp | simp [Part.same, vbatLoss]) rfl rfl

theorem resetDomains_only (s : State) : Only [.out, .words, .mismatch, .glb, .mem, .clk, .pwr, .ctl, .upd, .tco, .refs, .gbb, .svc, .ptp, .eth, .key, .pan, .log, .line, .pair, .links, .lnk, .rings, .hif, .cnt, .perf, .outs, .tio] s (resetDomains s) := by
  have h0 : Only [.out, .line, .outs] s (lineRelease s) := Only.mono (lineRelease_only s) (by decide)
  have h : Only [.out, .line, .outs] s ((List.range 22).foldl (fun s o =>
      if (vget s.tio.outs OutPin.reset o).level = .highZ then s else emitOut s (.edge o .highZ none (16 * s.now))) (lineRelease s)) :=
    Only.foldl _ _ (fun u o h => Only.ite (fun _ => h) fun _ => Only.step h (emitOut_only ..) (by decide)) h0
  unfold resetDomains
  dsimp only
  generalize ((List.range 22).foldl (fun s o =>
      if (vget s.tio.outs OutPin.reset o).level = .highZ then s else emitOut s (.edge o .highZ none (16 * s.now))) (lineRelease s)) = a at h ⊢
  have e1 := h.same .pending (by decide)
  have e2 := h.same .time (by decide)
  have e3 := h.same .free (by decide)
  exact ⟨fun p hp => by cases p <;> first | exact absurd (by decide) hp | exact e1 | exact e2 | exact e3, fun _ => rfl, fun _ => rfl⟩

theorem startReset_only (s : State) (i : StartIn) (soft : Bool) : Only [.time, .out, .words, .mismatch, .glb, .mem, .clk, .pwr, .ctl, .upd, .tco, .refs, .gbb, .svc, .ptp, .eth, .key, .pan, .log, .line, .pair, .links, .lnk, .rings, .hif, .cnt, .perf, .outs, .tio] s (startReset s i soft) := by
  have h1 : ∀ u, Only [.time, .out, .words, .mismatch, .glb, .mem, .clk, .pwr, .ctl, .upd, .tco, .refs, .gbb, .svc, .ptp, .eth, .key, .pan, .log, .line, .pair, .links, .lnk, .rings, .hif, .cnt, .perf, .outs, .tio] s u → Only [.time, .out, .words, .mismatch, .glb, .mem, .clk, .pwr, .ctl, .upd, .tco, .refs, .gbb, .svc, .ptp, .eth, .key, .pan, .log, .line, .pair, .links, .lnk, .rings, .hif, .cnt, .perf, .outs, .tio] s (if u.eth.wakeN then u else emitOut { u with eth := { u.eth with wakeN := true } } (.wake false)) :=
    fun u k => Only.ite (fun _ => k) fun _ => Only.step (Only.step k (set_eth_only u _) (by decide)) (emitOut_only ..) (by decide)
  have hw : Only [.time, .out, .words, .mismatch, .glb, .mem, .clk, .pwr, .ctl, .upd, .tco, .refs, .gbb, .svc, .ptp, .eth, .key, .pan, .log, .line, .pair, .links, .lnk, .rings, .hif, .cnt, .perf, .outs, .tio] s (wakeFirst s) := Only.mono (wakeFirst_only s) (by decide)
  unfold startReset
  dsimp only
  generalize wakeFirst s = w at hw ⊢
  have h0 : Only [.time, .out, .words, .mismatch, .glb, .mem, .clk, .pwr, .ctl, .upd, .tco, .refs, .gbb, .svc, .ptp, .eth, .key, .pan, .log, .line, .pair, .links, .lnk, .rings, .hif, .cnt, .perf, .outs, .tio] s (if (i.rails && i.vbatLost) = true then vbatLoss w else w) :=
    Only.ite (fun _ => Only.step hw (vbatLoss_only w) (by decide)) fun _ => hw
  have h2 : Only [.time, .out, .words, .mismatch, .glb, .mem, .clk, .pwr, .ctl, .upd, .tco, .refs, .gbb, .svc, .ptp, .eth, .key, .pan, .log, .line, .pair, .links, .lnk, .rings, .hif, .cnt, .perf, .outs, .tio] s (resetDomains (if (i.rails && i.vbatLost) = true then vbatLoss w else w)) := Only.step h0 (resetDomains_only _) (by decide)
  generalize resetDomains (if (i.rails && i.vbatLost) = true then vbatLoss w else w) = a at h2 ⊢
  have k := h1 a h2
  generalize (if a.eth.wakeN = true then a else emitOut { a with eth := { a.eth with wakeN := true } } (.wake false)) = v at k ⊢
  refine Only.step (M := [.pan, .log, .glb, .pwr, .tco, .key]) k (Only.of (fun p hp => by cases p <;> first | exact absurd (by decide) hp | simp [Part.same]) rfl rfl) (by decide)

theorem startGo_only (s : State) (i : StartIn)  : Only [.free, .out, .words, .mismatch, .glb, .mem, .clk, .pwr, .ctl, .upd, .tco, .refs, .gbb, .svc, .ptp, .eth, .key, .pan, .log, .line, .pair, .links, .lnk, .rings, .hif, .cnt, .perf, .outs, .tio] s (startGo s i) := by
  unfold startGo
  repeat' first
    | ((fail_if_no_progress extract_lets +onlyGivenNames x); refine Only.cut (L := [.free, .out, .words, .mismatch, .glb, .mem, .clk, .pwr, .ctl, .upd, .tco, .refs, .gbb, .svc, .ptp, .eth, .key, .pan, .log, .line, .pair, .links, .lnk, .rings, .hif, .cnt, .perf, .outs, .tio]) (s := s) (x := x) ?_ ?_; rotate_left; intro hx; clear_value x; rotate_left; dsimp only [x])
    | ((fail_if_no_progress extract_lets +onlyGivenNames x); refine Only.named (b := x.not) ?_; clear_value x)
    | (fail_if_no_progress extract_lets +onlyGivenNames x)
    | with_reducible apply Only.refl
    | with_reducible assumption
    | (with_reducible apply Only.ite <;> intro _)
    | with_reducible (apply Only.step (M := [.free, .out, .words, .mismatch, .glb, .mem, .clk, .pwr, .ctl, .upd, .tco, .refs, .gbb, .svc, .ptp, .eth, .key, .pan, .log, .line, .pair, .links, .lnk, .rings, .hif, .cnt, .perf, .outs, .tio]); rotate_left; apply startRef_only; decide)
    | with_reducible (apply Only.step (M := [.out, .pan, .log, .line, .links, .rings, .cnt, .outs]); rotate_left; apply emit_only; decide)
    | with_reducible (refine Only.sndEq (by assumption) ?_)
    | with_reducible (refine Only.fstEq (by assumption) ?_)
    | dsimp only
    | dsimp +zetaDelta only
    | split
    | (clear_value *; split)

theorem startRun_only (s : State) (i : StartIn) (soft : Bool)  : Only [.time, .free, .out, .words, .mismatch, .glb, .mem, .clk, .pwr, .ctl, .upd, .tco, .refs, .gbb, .svc, .ptp, .eth, .key, .pan, .log, .line, .pair, .links, .lnk, .rings, .hif, .cnt, .perf, .outs, .tio] s (startRun s i soft) := by
  unfold startRun
  repeat' first
    | ((fail_if_no_progress extract_lets +onlyGivenNames x); refine Only.cut (L := [.time, .free, .out, .words, .mismatch, .glb, .mem, .clk, .pwr, .ctl, .upd, .tco, .refs, .gbb, .svc, .ptp, .eth, .key, .pan, .log, .line, .pair, .links, .lnk, .rings, .hif, .cnt, .perf, .outs, .tio]) (s := s) (x := x) ?_ ?_; rotate_left; intro hx; clear_value x; rotate_left; dsimp only [x])
    | ((fail_if_no_progress extract_lets +onlyGivenNames x); refine Only.named (b := x.not) ?_; clear_value x)
    | (fail_if_no_progress extract_lets +onlyGivenNames x)
    | with_reducible apply Only.refl
    | with_reducible assumption
    | (with_reducible apply Only.ite <;> intro _)
    | with_reducible (apply Only.step (M := [.time, .out, .words, .mismatch, .glb, .mem, .clk, .pwr, .ctl, .upd, .tco, .refs, .gbb, .svc, .ptp, .eth, .key, .pan, .log, .line, .pair, .links, .lnk, .rings, .hif, .cnt, .perf, .outs, .tio]); rotate_left; apply startReset_only; decide)
    | with_reducible (apply Only.step (M := [.pwr]); rotate_left; apply hold_only; decide)
    | with_reducible (apply Only.step (M := [.free, .out, .words, .mismatch, .glb, .mem, .clk, .pwr, .ctl, .upd, .tco, .refs, .gbb, .svc, .ptp, .eth, .key, .pan, .log, .line, .pair, .links, .lnk, .rings, .hif, .cnt, .perf, .outs, .tio]); rotate_left; apply startGo_only; decide)
    | with_reducible (refine Only.sndEq (by assumption) ?_)
    | with_reducible (refine Only.fstEq (by assumption) ?_)
    | dsimp only
    | dsimp +zetaDelta only
    | split
    | (clear_value *; split)

theorem powerDown_only (s : State) (target : PowerState)  : Only [.out, .words, .mismatch, .glb, .mem, .clk, .pwr, .ctl, .upd, .tco, .refs, .gbb, .svc, .ptp, .eth, .key, .pan, .log, .line, .pair, .links, .lnk, .rings, .hif, .cnt, .perf, .outs, .tio] s (powerDown s target) := by
  unfold powerDown
  repeat' first
    | ((fail_if_no_progress extract_lets +onlyGivenNames x); refine Only.cut (L := [.out, .words, .mismatch, .glb, .mem, .clk, .pwr, .ctl, .upd, .tco, .refs, .gbb, .svc, .ptp, .eth, .key, .pan, .log, .line, .pair, .links, .lnk, .rings, .hif, .cnt, .perf, .outs, .tio]) (s := s) (x := x) ?_ ?_; rotate_left; intro hx; clear_value x; rotate_left; dsimp only [x])
    | ((fail_if_no_progress extract_lets +onlyGivenNames x); refine Only.named (b := x.not) ?_; clear_value x)
    | (fail_if_no_progress extract_lets +onlyGivenNames x)
    | with_reducible apply Only.refl
    | with_reducible assumption
    | (with_reducible apply Only.ite <;> intro _)
    | with_reducible (apply Only.step (M := [.pwr]); rotate_left; apply modPwr_only; decide)
    | with_reducible (apply Only.step (M := [.out, .words, .mismatch, .glb, .mem, .clk, .pwr, .ctl, .upd, .tco, .refs, .gbb, .svc, .ptp, .eth, .key, .pan, .log, .line, .pair, .links, .lnk, .rings, .hif, .cnt, .perf, .outs, .tio]); rotate_left; apply resetDomains_only; decide)
    | (fail_if_no_progress (with_reducible (apply Only.step (M := [.eth]); rotate_left; apply set_eth_only; decide)))
    | with_reducible (refine Only.sndEq (by assumption) ?_)
    | with_reducible (refine Only.fstEq (by assumption) ?_)
    | dsimp only
    | dsimp +zetaDelta only
    | split
    | (clear_value *; split)

end Sys2Proof.Laws
end

