-- ==== Sys2Proof/Laws/Tio.lean ====
section
/-! SUPPORT. What each operation of Machine/Tio.lean can touch, once for each. -/
set_option linter.unusedTactic false
set_option linter.unreachableTactic false
namespace Sys2Proof.Laws
open Sys2Proof
open Sys2Proof.Machine
open Sys2Proof.Safety



theorem modTio_only_tio (s : State) (f : Tio → Tio) (h : ∀ k, f k = { f k with outs := k.outs }) : Only [.tio] s (modTio s f) :=
  set_tio_only_tio s (f s.tio) (h s.tio)
theorem modTio_only_outs (s : State) (f : Tio → Tio) (h : ∀ k, f k = { k with outs := (f k).outs }) : Only [.outs] s (modTio s f) :=
  set_tio_only_outs s (f s.tio) (h s.tio)
theorem modTio_only (s : State) (f : Tio → Tio) : Only [.outs, .tio] s (modTio s f) := set_tio_only s (f s.tio)

theorem trigFire_only (s : State) (pin : Fin 16) (t : Trig)  : Only [.out, .pan, .log, .line, .links, .rings, .cnt, .outs, .tio] s (trigFire s pin t) := by
  unfold trigFire
  repeat' first
    | ((fail_if_no_progress extract_lets +onlyGivenNames x); refine Only.cut (L := [.out, .pan, .log, .line, .links, .rings, .cnt, .outs, .tio]) (s := s) (x := x) ?_ ?_; rotate_left; intro hx; clear_value x; rotate_left; dsimp only [x])
    | ((fail_if_no_progress extract_lets +onlyGivenNames x); refine Only.named (b := x.not) ?_; clear_value x)
    | (fail_if_no_progress extract_lets +onlyGivenNames x)
    | with_reducible apply Only.refl
    | with_reducible assumption
    | (with_reducible apply Only.ite <;> intro _)
    | with_reducible (apply Only.step (M := [.out, .pan, .log, .line, .links, .rings, .cnt, .outs, .tio]); rotate_left; apply leadEdge_only; decide)
    | with_reducible (apply Only.step (M := [.tio]); rotate_left; exact modTio_only_tio _ _ (by intro k; rfl); decide)
    | with_reducible (apply Only.step (M := [.outs]); rotate_left; exact modTio_only_outs _ _ (by intro k; rfl); decide)
    | with_reducible (apply Only.step (M := [.outs, .tio]); rotate_left; apply modTio_only; decide)
    | with_reducible (refine Only.sndEq (by assumption) ?_)
    | with_reducible (refine Only.fstEq (by assumption) ?_)
    | dsimp only
    | dsimp +zetaDelta only
    | split
    | (clear_value *; split)

theorem freqCut_only (s : State) (n : Nat) (ph : Nat)  : Only [.outs, .tio] s (freqCut s n ph) := by
  unfold freqCut
  repeat' first
    | ((fail_if_no_progress extract_lets +onlyGivenNames x); refine Only.cut (L := [.outs, .tio]) (s := s) (x := x) ?_ ?_; rotate_left; intro hx; clear_value x; rotate_left; dsimp only [x])
    | ((fail_if_no_progress extract_lets +onlyGivenNames x); refine Only.named (b := x.not) ?_; clear_value x)
    | (fail_if_no_progress extract_lets +onlyGivenNames x)
    | with_reducible apply Only.refl
    | with_reducible assumption
    | (with_reducible apply Only.ite <;> intro _)
    | with_reducible (apply Only.step (M := [.tio]); rotate_left; apply freqRestart_only; decide)
    | with_reducible (apply Only.step (M := [.outs]); rotate_left; apply modOut_only; decide)
    | with_reducible (refine Only.sndEq (by assumption) ?_)
    | with_reducible (refine Only.fstEq (by assumption) ?_)
    | dsimp only
    | dsimp +zetaDelta only
    | split
    | (clear_value *; split)

theorem modIn_only (s : State) (n : Fin 4) (f : PpsIn → PpsIn)  : Only [.tio] s (modIn s n f) := by
  unfold modIn
  repeat' first
    | ((fail_if_no_progress extract_lets +onlyGivenNames x); refine Only.cut (L := [.tio]) (s := s) (x := x) ?_ ?_; rotate_left; intro hx; clear_value x; rotate_left; dsimp only [x])
    | ((fail_if_no_progress extract_lets +onlyGivenNames x); refine Only.named (b := x.not) ?_; clear_value x)
    | (fail_if_no_progress extract_lets +onlyGivenNames x)
    | with_reducible apply Only.refl
    | with_reducible assumption
    | (with_reducible apply Only.ite <;> intro _)
    | with_reducible (apply Only.step (M := [.tio]); rotate_left; exact modTio_only_tio _ _ (by intro k; rfl); decide)
    | with_reducible (apply Only.step (M := [.outs]); rotate_left; exact modTio_only_outs _ _ (by intro k; rfl); decide)
    | with_reducible (apply Only.step (M := [.outs, .tio]); rotate_left; apply modTio_only; decide)
    | with_reducible (refine Only.sndEq (by assumption) ?_)
    | with_reducible (refine Only.fstEq (by assumption) ?_)
    | dsimp only
    | dsimp +zetaDelta only
    | split
    | (clear_value *; split)

theorem todErr_only (s : State) (n : Fin 4) (cause : Nat)  : Only [.out, .pan, .log, .line, .links, .rings, .cnt, .outs] s (todErr s n cause) := by
  unfold todErr
  repeat' first
    | ((fail_if_no_progress extract_lets +onlyGivenNames x); refine Only.cut (L := [.out, .pan, .log, .line, .links, .rings, .cnt, .outs]) (s := s) (x := x) ?_ ?_; rotate_left; intro hx; clear_value x; rotate_left; dsimp only [x])
    | ((fail_if_no_progress extract_lets +onlyGivenNames x); refine Only.named (b := x.not) ?_; clear_value x)
    | (fail_if_no_progress extract_lets +onlyGivenNames x)
    | with_reducible apply Only.refl
    | with_reducible assumption
    | (with_reducible apply Only.ite <;> intro _)
    | with_reducible (apply Only.step (M := [.out, .pan, .log, .line, .links, .rings, .cnt, .outs]); rotate_left; apply emit_only; decide)
    | with_reducible (refine Only.sndEq (by assumption) ?_)
    | with_reducible (refine Only.fstEq (by assumption) ?_)
    | dsimp only
    | dsimp +zetaDelta only
    | split
    | (clear_value *; split)

theorem todUtc_only (s : State) (n : Fin 4) (m : TodMsg)  : Only [.out, .pan, .log, .line, .links, .rings, .cnt, .outs, .tio] s (todUtc s n m) := by
  unfold todUtc
  repeat' first
    | ((fail_if_no_progress extract_lets +onlyGivenNames x); refine Only.cut (L := [.out, .pan, .log, .line, .links, .rings, .cnt, .outs, .tio]) (s := s) (x := x) ?_ ?_; rotate_left; intro hx; clear_value x; rotate_left; dsimp only [x])
    | ((fail_if_no_progress extract_lets +onlyGivenNames x); refine Only.named (b := x.not) ?_; clear_value x)
    | (fail_if_no_progress extract_lets +onlyGivenNames x)
    | with_reducible apply Only.refl
    | with_reducible assumption
    | (with_reducible apply Only.ite <;> intro _)
    | with_reducible (apply Only.step (M := [.cnt]); rotate_left; apply perfAdd_only; decide)
    | with_reducible (apply Only.step (M := [.out, .pan, .log, .line, .links, .rings, .cnt, .outs]); rotate_left; apply emit_only; decide)
    | with_reducible (apply Only.step (M := [.tio]); rotate_left; apply modIn_only; decide)
    | with_reducible (refine Only.sndEq (by assumption) ?_)
    | with_reducible (refine Only.fstEq (by assumption) ?_)
    | dsimp only
    | dsimp +zetaDelta only
    | split
    | (clear_value *; split)

theorem todJudge_only (s : State) (n : Fin 4) (p_ : Pulse) (msgs : List TodMsg)  : Only [.free, .out, .tco, .refs, .gbb, .pan, .log, .line, .pair, .links, .lnk, .rings, .hif, .cnt, .perf, .outs, .tio] s (todJudge s n p_ msgs) := by
  unfold todJudge
  repeat' first
    | ((fail_if_no_progress extract_lets +onlyGivenNames x); refine Only.cut (L := [.free, .out, .tco, .refs, .gbb, .pan, .log, .line, .pair, .links, .lnk, .rings, .hif, .cnt, .perf, .outs, .tio]) (s := s) (x := x) ?_ ?_; rotate_left; intro hx; clear_value x; rotate_left; dsimp only [x])
    | ((fail_if_no_progress extract_lets +onlyGivenNames x); refine Only.named (b := x.not) ?_; clear_value x)
    | (fail_if_no_progress extract_lets +onlyGivenNames x)
    | with_reducible apply Only.refl
    | with_reducible assumption
    | (with_reducible apply Only.ite <;> intro _)
    | with_reducible (apply Only.step (M := [.out, .pan, .log, .line, .links, .rings, .cnt, .outs]); rotate_left; apply todErr_only; decide)
    | with_reducible (apply Only.step (M := [.free, .out, .tco, .refs, .gbb, .pan, .log, .line, .pair, .links, .lnk, .rings, .hif, .cnt, .perf, .outs, .tio]); rotate_left; apply measure_only; decide)
    | with_reducible (apply Only.step (M := [.out, .pan, .log, .line, .links, .rings, .cnt, .outs, .tio]); rotate_left; apply todUtc_only; decide)
    | with_reducible (refine Only.sndEq (by assumption) ?_)
    | with_reducible (refine Only.fstEq (by assumption) ?_)
    | dsimp only
    | dsimp +zetaDelta only
    | split
    | (clear_value *; split)

theorem freqSecond_only (s : State) (n : Nat)  : Only [.outs, .tio] s (freqSecond s n) := by
  unfold freqSecond
  repeat' first
    | ((fail_if_no_progress extract_lets +onlyGivenNames x); refine Only.cut (L := [.outs, .tio]) (s := s) (x := x) ?_ ?_; rotate_left; intro hx; clear_value x; rotate_left; dsimp only [x])
    | ((fail_if_no_progress extract_lets +onlyGivenNames x); refine Only.named (b := x.not) ?_; clear_value x)
    | (fail_if_no_progress extract_lets +onlyGivenNames x)
    | with_reducible apply Only.refl
    | with_reducible assumption
    | (with_reducible apply Only.ite <;> intro _)
    | with_reducible (apply Only.step (M := [.tio]); rotate_left; exact modTio_only_tio _ _ (by intro k; rfl); decide)
    | with_reducible (apply Only.step (M := [.outs]); rotate_left; exact modTio_only_outs _ _ (by intro k; rfl); decide)
    | with_reducible (apply Only.step (M := [.outs, .tio]); rotate_left; apply modTio_only; decide)
    | with_reducible (apply Only.step (M := [.outs, .tio]); rotate_left; apply freqCut_only; decide)
    | with_reducible (refine Only.sndEq (by assumption) ?_)
    | with_reducible (refine Only.fstEq (by assumption) ?_)
    | dsimp only
    | dsimp +zetaDelta only
    | split
    | (clear_value *; split)

end Sys2Proof.Laws
end

