-- ==== Sys2Proof/Laws/Upd.lean ====
section
/-! SUPPORT. What each operation of Machine/Upd.lean can touch, once for each. -/
set_option linter.unusedTactic false
set_option linter.unreachableTactic false
namespace Sys2Proof.Laws
open Sys2Proof
open Sys2Proof.Machine
open Sys2Proof.Safety

theorem trialExpire_only (s : State)  : Only [.out, .upd, .key, .pan, .log, .line, .links, .rings, .cnt, .outs] s (trialExpire s) := by
  unfold trialExpire
  repeat' first
    | ((fail_if_no_progress extract_lets +onlyGivenNames x); refine Only.cut (L := [.out, .upd, .key, .pan, .log, .line, .links, .rings, .cnt, .outs]) (s := s) (x := x) ?_ ?_; rotate_left; intro hx; clear_value x; rotate_left; dsimp only [x])
    | ((fail_if_no_progress extract_lets +onlyGivenNames x); refine Only.named (b := x.not) ?_; clear_value x)
    | (fail_if_no_progress extract_lets +onlyGivenNames x)
    | with_reducible apply Only.refl
    | with_reducible assumption
    | (with_reducible apply Only.ite <;> intro _)
    | with_reducible (apply Only.step (M := [.out, .upd, .key, .pan, .log, .line, .links, .rings, .cnt, .outs]); rotate_left; apply confirmTrial_only; decide)
    | with_reducible (apply Only.step (M := [.out, .upd, .pan, .log, .line, .links, .rings, .cnt, .outs]); rotate_left; apply recWrite_only; decide)
    | with_reducible (apply Only.step (M := [.out, .pan, .log, .line, .links, .rings, .cnt, .outs]); rotate_left; apply emit_only; decide)
    | with_reducible (apply Only.step (M := [.upd]); rotate_left; apply modUpd_only; decide)
    | with_reducible (refine Only.sndEq (by assumption) ?_)
    | with_reducible (refine Only.fstEq (by assumption) ?_)
    | dsimp only
    | dsimp +zetaDelta only
    | split
    | (clear_value *; split)

end Sys2Proof.Laws
end

