-- ==== Sys2Proof/Laws/Records.lean ====
section
/-! SUPPORT. What a record does to the status of the blocks: the record's own block advances SEQ, takes its bit and loses
the read mark; every other block but PERF, PAN and PAIR keeps SEQ and read mark. -/
namespace Sys2Proof.Laws
open Sys2Proof
open Sys2Proof.Machine
open Sys2Proof.Safety

/-- A block's SEQ and read mark stand, and no status bit and no safe state is taken away. -/
structure StatKept (b : Blk) (s t : State) : Prop where
  seq : (blkStat t b).seq = (blkStat s b).seq
  mark : (blkStat t b).readMark = (blkStat s b).readMark
  bits : ∀ i, (blkStat s b).bits.getLsbD i = true → (blkStat t b).bits.getLsbD i = true
  safe : (blkStat s b).safe = true → (blkStat t b).safe = true

theorem StatKept.refl (b : Blk) (s : State) : StatKept b s s := ⟨rfl, rfl, fun _ => id, id⟩

theorem StatKept.trans {b : Blk} {s t u : State} (h : StatKept b s t) (k : StatKept b t u) : StatKept b s u :=
  ⟨k.seq.trans h.seq, k.mark.trans h.mark, fun i hi => k.bits i (h.bits i hi), fun x => k.safe (h.safe x)⟩

theorem StatKept.ofStat {b : Blk} {s t : State} (h : blkStat t b = blkStat s b) : StatKept b s t := by
  constructor <;> rw [h] <;> first | rfl | exact fun _ => id | exact id

theorem StatKept.ofLog {b : Blk} {s t : State} (h : t.log = s.log) : StatKept b s t :=
  StatKept.ofStat (by unfold blkStat; rw [h])

theorem StatKept.ofBlks {b : Blk} {s t : State} (h : t.log.blks = s.log.blks) : StatKept b s t :=
  StatKept.ofStat (by unfold blkStat; rw [h])

theorem StatKept.only {b : Blk} {L : List Part} {s t : State} (h : Only L s t) (k : Part.log ∉ L) : StatKept b s t :=
  StatKept.ofLog (h.same .log k)

theorem blk_id_inj (a b : Blk) : Blk.id a - 1 = Blk.id b - 1 ↔ a = b := by
  cases a <;> cases b <;> simp [Blk.id]

theorem blk_id_lt (b : Blk) : Blk.id b - 1 < 19 := by cases b <;> decide

/-- A change of one block's status, as every block sees it. -/
theorem blkStat_modBlk (s : State) (a b : Blk) (f : BlkStat → BlkStat) :
    blkStat (modBlk s a f) b = if a = b then f (blkStat s b) else blkStat s b := by
  unfold blkStat modBlk
  rw [vget_vmod]
  by_cases h : a = b
  · subst h; rw [if_pos ⟨rfl, blk_id_lt a⟩, if_pos rfl]
  · rw [if_neg fun k => h ((blk_id_inj a b).mp k.1), if_neg h]

theorem StatKept.mod {a b : Blk} {s : State} {f : BlkStat → BlkStat} (h : a = b → (f (blkStat s b)).seq = (blkStat s b).seq ∧
    (f (blkStat s b)).readMark = (blkStat s b).readMark ∧ (∀ i, (blkStat s b).bits.getLsbD i = true → (f (blkStat s b)).bits.getLsbD i = true) ∧
    ((blkStat s b).safe = true → (f (blkStat s b)).safe = true)) : StatKept b s (modBlk s a f) := by
  by_cases k : a = b
  · obtain ⟨h1, h2, h3, h4⟩ := h k
    constructor <;> rw [blkStat_modBlk, if_pos k] <;> assumption
  · exact StatKept.ofStat (by rw [blkStat_modBlk, if_neg k])

theorem evWrite_kept (b : Blk) (s : State) (r : Rec) : StatKept b s (evWrite s r) := by
  have h : ∀ (a : State) (d : List Byte), a.log.blks = s.log.blks → (ringPut a 8 d).log.blks = s.log.blks := fun a d k => by
    rw [(ringPut_only a 8 d).same .log (by decide), k]
  exact StatKept.ofBlks (h _ _ rfl)

theorem histPut_kept (b : Blk) (s : State) (r : Rec) : StatKept b s (histPut s r) :=
  StatKept.mod fun _ => ⟨rfl, rfl, fun _ => id, id⟩

theorem figFault_kept (b a : Blk) (s : State) (c : Cls) : StatKept b s (figFault s a c) :=
  StatKept.only (figFault_only ..) (by decide)

theorem evDrop_kept (b : Blk) (s : State) (h : Bool) : StatKept b s (evDrop s h) := by
  unfold evDrop; split <;> exact StatKept.ofBlks rfl

theorem pendPut_kept (b : Blk) (s : State) (r : Rec) : StatKept b s (pendPut s r) := by
  unfold pendPut
  split
  · exact StatKept.ofBlks rfl
  · split
    · split
      · exact StatKept.trans (StatKept.ofBlks (by rfl)) (evDrop_kept b _ false)
      · exact evDrop_kept b s true
    · exact evDrop_kept b s false

theorem coalPut_kept (b : Blk) (s : State) (r : Rec) : StatKept b s (coalPut s r) := by
  unfold coalPut
  split
  · exact StatKept.ofBlks rfl
  · split
    · exact StatKept.ofBlks rfl
    · exact evDrop_kept b s false

theorem evRoute_kept (b : Blk) (s : State) (r : Rec) : StatKept b s (evRoute s r) := by
  unfold evRoute
  repeat' split
  all_goals first
    | exact evWrite_kept b s r
    | exact pendPut_kept b s r
    | exact coalPut_kept b s r
    | exact StatKept.refl b s

theorem drainPend_kept (b : Blk) (n : Nat) (s : State) : StatKept b s (drainPend n s) := by
  induction n generalizing s with
  | zero => exact StatKept.refl b s
  | succ n ih =>
    unfold drainPend
    split
    · exact StatKept.refl b s
    · repeat' split
      all_goals first
        | exact StatKept.refl b s
        | (refine StatKept.trans ?_ (ih _)
           refine StatKept.trans ?_ (evWrite_kept b _ _)
           exact StatKept.ofBlks rfl)

theorem drainCoal_kept (b : Blk) (n : Nat) (s : State) : StatKept b s (drainCoal n s) := by
  induction n generalizing s with
  | zero => exact StatKept.refl b s
  | succ n ih =>
    unfold drainCoal
    split
    · exact StatKept.refl b s
    · split
      · refine StatKept.trans ?_ (ih _)
        refine StatKept.trans ?_ (evWrite_kept b _ _)
        refine StatKept.trans ?_ (figFault_kept b _ _ _)
        refine StatKept.trans ?_ (histPut_kept b _ _)
        exact StatKept.ofBlks rfl
      · exact StatKept.refl b s

theorem blkIrq_kept (b a : Blk) (s : State) : StatKept b s (blkIrq s a) := by
  have h : ∀ f : BlkStat → BlkStat, (∀ k, (f k).seq = k.seq ∧ (f k).readMark = k.readMark ∧ (f k).bits = k.bits ∧ (f k).safe = k.safe) →
      StatKept b s (modBlk s a f) := fun f hf => StatKept.mod fun _ =>
    ⟨(hf _).1, (hf _).2.1, fun i k => by rw [(hf _).2.2.1]; exact k, fun k => by rw [(hf _).2.2.2]; exact k⟩
  have f1 : ∀ (u : State) (n : Nat), StatKept b u (fireSrc u n) := fun u n => StatKept.only (fireSrc_only u n) (by decide)
  unfold blkIrq
  extract_lets k free
  by_cases c : free = true
  · rw [if_pos c]
    refine StatKept.trans ?_ (f1 _ _)
    exact h _ fun k => ⟨rfl, rfl, rfl, rfl⟩
  · rw [if_neg c]; exact h _ fun k => ⟨rfl, rfl, rfl, rfl⟩

theorem seqAdvance_kept (b a : Blk) (h : a ≠ b) (s : State) (bit : Option Nat) : StatKept b s (seqAdvance s a bit) :=
  StatKept.mod fun k => absurd k h

theorem evDrain_kept (b : Blk) (h : b ≠ .perf) (s : State) : StatKept b s (evDrain s) := by
  unfold evDrain
  split
  · refine StatKept.trans ?_ ((drainPend_kept b _ _).trans (drainCoal_kept b _ _))
    split
    · exact StatKept.refl b s
    · refine StatKept.trans ?_ (blkIrq_kept b _ _)
      refine StatKept.trans ?_ (evWrite_kept b _ _)
      refine StatKept.trans ?_ (figFault_kept b _ _ _)
      refine StatKept.trans ?_ (histPut_kept b _ _)
      refine StatKept.trans ?_ (seqAdvance_kept b .perf (Ne.symm h) _ _)
      exact StatKept.ofBlks rfl
  · exact drainPend_kept b _ s

theorem enterSafe_kept (b a : Blk) (s : State) : StatKept b s (enterSafe s a) := by
  unfold enterSafe
  split
  · have h : ∀ i, StatKept b s (modBlk s a fun k => { k with safe := true, bits := k.bits ||| BitVec.ofNat 24 (2 ^ i) }) := fun i =>
      StatKept.mod fun _ => ⟨rfl, rfl, fun j hj => by rw [BitVec.getLsbD_or, hj, Bool.true_or], fun _ => rfl⟩
    split
    · exact (h _).trans (StatKept.only (refreshOuts_only _ _) (by decide))
    · exact h _
  · exact StatKept.refl b s

theorem faultEffects_kept (b : Blk) (s : State) (r : Rec) : StatKept b s (faultEffects s r) := by
  unfold faultEffects
  split
  · have h0 : StatKept b s { s with log := { s.log with fatal := true } } := StatKept.ofBlks rfl
    have h1 := h0.trans (StatKept.only (b := b) (lineRelease_only { s with log := { s.log with fatal := true } }) (by decide))
    have h2 := h1.trans (enterSafe_kept b r.blk _)
    have h3 : ∀ (u : State) (t x a d : Nat), StatKept b u (panAppend u t x a d) := fun u t x a d => StatKept.only (panAppend_only ..) (by decide)
    have h4 : ∀ (u : State) (c : Bool) (e : PowerState), StatKept b u (panCommit u c e) := fun u c e => StatKept.only (panCommit_only ..) (by decide)
    exact (h2.trans (h3 _ _ _ _ _)).trans (h4 _ _ _)
  · exact StatKept.ofLog rfl
  · exact StatKept.refl b s

/-- SEQ, mark and bit of the block that records, and everything after keeps them. -/
theorem emitCore_tail (s : State) (b c : Blk) (code : Nat) (base : Cls) (detail : Nat) (bit : Option Nat) :
    StatKept c (seqAdvance (evDrain s) b bit) (emitCore s b code base detail bit) := by
  unfold emitCore
  extract_lets a esc cls t r u v w
  have h1 : StatKept c t v := by
    unfold v
    split
    · exact (histPut_kept c t r).trans (StatKept.mod fun _ => ⟨rfl, rfl, fun _ => id, id⟩)
    · exact histPut_kept c t r
  have h2 : StatKept c t w := by
    unfold w
    split
    · exact h1
    · exact h1.trans (figFault_kept c b v cls)
  exact ((h2.trans (evRoute_kept c w r)).trans (faultEffects_kept c _ r)).trans (blkIrq_kept c b _)

theorem emitCore_kept (s : State) (b c : Blk) (code : Nat) (base : Cls) (detail : Nat) (bit : Option Nat) (h : b ≠ c) (k : c ≠ .perf) :
    StatKept c s (emitCore s b code base detail bit) :=
  ((evDrain_kept c k s).trans (seqAdvance_kept c b h _ bit)).trans (emitCore_tail s b c code base detail bit)

/-- The status of the block that records: SEQ has advanced, the mark is gone, and its bit stands. -/
structure Advanced (b : Blk) (bit : Option Nat) (s t : State) : Prop where
  seq : (blkStat t b).seq = (blkStat s b).seq + 1
  mark : (blkStat t b).readMark = false
  bit : ∀ i, bit = some i → i < 24 → (blkStat t b).bits.getLsbD i = true
  bits : ∀ i, (blkStat s b).bits.getLsbD i = true → (blkStat t b).bits.getLsbD i = true
  safe : (blkStat s b).safe = true → (blkStat t b).safe = true

theorem Advanced.kept {b : Blk} {bit : Option Nat} {s t u : State} (h : Advanced b bit s t) (k : StatKept b t u) : Advanced b bit s u :=
  ⟨k.seq.trans h.seq, k.mark.trans h.mark, fun i e l => k.bits i (h.bit i e l), fun i e => k.bits i (h.bits i e), fun e => k.safe (h.safe e)⟩

theorem Advanced.after {b : Blk} {bit : Option Nat} {s t u : State} (k : StatKept b s t) (h : Advanced b bit t u) : Advanced b bit s u :=
  ⟨h.seq.trans (by rw [k.seq]), h.mark, h.bit, fun i e => h.bits i (k.bits i e), fun e => h.safe (k.safe e)⟩

theorem seqAdvance_advanced (s : State) (b : Blk) (bit : Option Nat) : Advanced b bit s (seqAdvance s b bit) := by
  have e : blkStat (seqAdvance s b bit) b =
    { blkStat s b with seq := (blkStat s b).seq + 1, readMark := false,
                       bits := match bit with | some i => (blkStat s b).bits ||| BitVec.ofNat 24 (2 ^ i) | none => (blkStat s b).bits } := by
    unfold seqAdvance; rw [blkStat_modBlk, if_pos rfl] <;> rfl
  constructor
  · rw [e]
  · rw [e]
  · intro i hi l
    subst hi
    rw [e, BitVec.getLsbD_or, BitVec.getLsbD_ofNat, Nat.testBit_two_pow_self, decide_eq_true l, Bool.and_self, Bool.or_true]
  · intro i hi
    rw [e]
    cases bit with
    | none => exact hi
    | some j => simp only [BitVec.getLsbD_or, hi, Bool.true_or]
  · intro h; rw [e]; exact h

theorem emitCore_advanced (s : State) (b : Blk) (code : Nat) (base : Cls) (detail : Nat) (bit : Option Nat) (h : b ≠ .perf) :
    Advanced b bit s (emitCore s b code base detail bit) :=
  (Advanced.after (evDrain_kept b h s) (seqAdvance_advanced _ b bit)).kept (emitCore_tail s b b code base detail bit)

theorem panLog_kept (b : Blk) (h : b ≠ .pan) (k : b ≠ .perf) (s : State) (t x a d : Nat) : StatKept b s (panLog s t x a d) := by
  unfold panLog
  split
  · exact StatKept.only (panAppend_only ..) (by decide)
  · split
    · exact StatKept.refl b s
    · refine StatKept.trans ?_ (emitCore_kept _ _ _ _ _ _ _ (Ne.symm h) k)
      exact StatKept.ofLog rfl

theorem roleChange_kept (b : Blk) (h : b ≠ .pan) (k : b ≠ .perf) (j : b ≠ .pair) (s : State) (a : Bool) (c : Nat) (i : Bool) (ts : BitVec 32) :
    StatKept b s (roleChange s a c i ts) :=
  (emitCore_kept _ _ _ _ _ _ _ (Ne.symm j) k).trans (panLog_kept b h k _ _ _ _ _)

theorem demote_kept (b : Blk) (h : b ≠ .pan) (k : b ≠ .perf) (j : b ≠ .pair) (s : State) : StatKept b s (demote s) := by
  unfold demote
  split
  · refine StatKept.trans ?_ (roleChange_kept b h k j _ _ _ _ _)
    refine StatKept.trans ?_ (StatKept.only (lineRelease_only _) (by decide))
    exact StatKept.ofLog rfl
  · exact StatKept.refl b s

/-- A record keeps SEQ and read mark of every block but its own, PERF, PAN and PAIR, and takes no status bit. -/
theorem emit_kept (s : State) (b c : Blk) (code : Nat) (base : Cls) (detail : Nat) (bit : Option Nat) (h : b ≠ c) (k : c ≠ .perf) (p : c ≠ .pan)
    (j : c ≠ .pair) : StatKept c s (emit s b code base detail bit) := by
  unfold emit
  extract_lets before t severe
  have e : StatKept c s t := emitCore_kept s b c code base detail bit h k
  clear_value t
  split
  · exact e.trans (demote_kept c p k j t)
  · exact e

/-- A record's own block, PERF left out. -/
theorem emit_advanced (s : State) (b : Blk) (code : Nat) (base : Cls) (detail : Nat) (bit : Option Nat) (h : b ≠ .perf) :
    Advanced b bit s (emit s b code base detail bit) := by
  unfold emit
  extract_lets before t severe
  have e : Advanced b bit s t := emitCore_advanced s b code base detail bit h
  clear_value t
  split
  · rename_i c
    simp only [Bool.and_eq_true, Bool.or_eq_true, decide_eq_true_eq] at c
    refine e.kept (demote_kept b ?_ h ?_ t) <;> (rintro rfl; simp at c)
  · exact e

end Sys2Proof.Laws
end

