-- ==== Sys2Proof/Laws/State.lean ====
section
/-! SUPPORT. Each field of the state after each of the plain updates: one lemma a field an update, so that no proof
unfolds a record update. -/
namespace Sys2Proof.Machine

/-! putW -/
@[simp] theorem putW_pending (s : State) (k : Nat) (v : Word) : (putW s k v).pending = s.pending := rfl
@[simp] theorem putW_now (s : State) (k : Nat) (v : Word) : (putW s k v).now = s.now := rfl
@[simp] theorem putW_aon (s : State) (k : Nat) (v : Word) : (putW s k v).aon = s.aon := rfl
@[simp] theorem putW_aonFrac (s : State) (k : Nat) (v : Word) : (putW s k v).aonFrac = s.aonFrac := rfl
@[simp] theorem putW_freeCtr (s : State) (k : Nat) (v : Word) : (putW s k v).freeCtr = s.freeCtr := rfl
@[simp] theorem putW_out (s : State) (k : Nat) (v : Word) : (putW s k v).out = s.out := rfl
@[simp] theorem putW_words (s : State) (k : Nat) (v : Word) : (putW s k v).words = aset (BitVec.ofNat 32 (wordReset k)) s.words k v := rfl
@[simp] theorem putW_mismatch (s : State) (k : Nat) (v : Word) : (putW s k v).mismatch = s.mismatch.filter (· != k) := rfl
@[simp] theorem putW_log (s : State) (k : Nat) (v : Word) : (putW s k v).log = s.log := rfl
@[simp] theorem putW_hif (s : State) (k : Nat) (v : Word) : (putW s k v).hif = s.hif := rfl
@[simp] theorem putW_glb (s : State) (k : Nat) (v : Word) : (putW s k v).glb = s.glb := rfl
@[simp] theorem putW_perf (s : State) (k : Nat) (v : Word) : (putW s k v).perf = s.perf := rfl
@[simp] theorem putW_pan (s : State) (k : Nat) (v : Word) : (putW s k v).pan = s.pan := rfl
@[simp] theorem putW_mem (s : State) (k : Nat) (v : Word) : (putW s k v).mem = s.mem := rfl
@[simp] theorem putW_clk (s : State) (k : Nat) (v : Word) : (putW s k v).clk = s.clk := rfl
@[simp] theorem putW_pwr (s : State) (k : Nat) (v : Word) : (putW s k v).pwr = s.pwr := rfl
@[simp] theorem putW_ctl (s : State) (k : Nat) (v : Word) : (putW s k v).ctl = s.ctl := rfl
@[simp] theorem putW_upd (s : State) (k : Nat) (v : Word) : (putW s k v).upd = s.upd := rfl
@[simp] theorem putW_tco (s : State) (k : Nat) (v : Word) : (putW s k v).tco = s.tco := rfl
@[simp] theorem putW_refs (s : State) (k : Nat) (v : Word) : (putW s k v).refs = s.refs := rfl
@[simp] theorem putW_gbb (s : State) (k : Nat) (v : Word) : (putW s k v).gbb = s.gbb := rfl
@[simp] theorem putW_tio (s : State) (k : Nat) (v : Word) : (putW s k v).tio = s.tio := rfl
@[simp] theorem putW_svc (s : State) (k : Nat) (v : Word) : (putW s k v).svc = s.svc := rfl
@[simp] theorem putW_ptp (s : State) (k : Nat) (v : Word) : (putW s k v).ptp = s.ptp := rfl
@[simp] theorem putW_eth (s : State) (k : Nat) (v : Word) : (putW s k v).eth = s.eth := rfl
@[simp] theorem putW_lnk (s : State) (k : Nat) (v : Word) : (putW s k v).lnk = s.lnk := rfl
@[simp] theorem putW_pair (s : State) (k : Nat) (v : Word) : (putW s k v).pair = s.pair := rfl
@[simp] theorem putW_key (s : State) (k : Nat) (v : Word) : (putW s k v).key = s.key := rfl

/-! emitOut -/
@[simp] theorem emitOut_pending (s : State) (o : Out) : (emitOut s o).pending = s.pending := rfl
@[simp] theorem emitOut_now (s : State) (o : Out) : (emitOut s o).now = s.now := rfl
@[simp] theorem emitOut_aon (s : State) (o : Out) : (emitOut s o).aon = s.aon := rfl
@[simp] theorem emitOut_aonFrac (s : State) (o : Out) : (emitOut s o).aonFrac = s.aonFrac := rfl
@[simp] theorem emitOut_freeCtr (s : State) (o : Out) : (emitOut s o).freeCtr = s.freeCtr := rfl
@[simp] theorem emitOut_out (s : State) (o : Out) : (emitOut s o).out = o :: s.out := rfl
@[simp] theorem emitOut_words (s : State) (o : Out) : (emitOut s o).words = s.words := rfl
@[simp] theorem emitOut_mismatch (s : State) (o : Out) : (emitOut s o).mismatch = s.mismatch := rfl
@[simp] theorem emitOut_log (s : State) (o : Out) : (emitOut s o).log = s.log := rfl
@[simp] theorem emitOut_hif (s : State) (o : Out) : (emitOut s o).hif = s.hif := rfl
@[simp] theorem emitOut_glb (s : State) (o : Out) : (emitOut s o).glb = s.glb := rfl
@[simp] theorem emitOut_perf (s : State) (o : Out) : (emitOut s o).perf = s.perf := rfl
@[simp] theorem emitOut_pan (s : State) (o : Out) : (emitOut s o).pan = s.pan := rfl
@[simp] theorem emitOut_mem (s : State) (o : Out) : (emitOut s o).mem = s.mem := rfl
@[simp] theorem emitOut_clk (s : State) (o : Out) : (emitOut s o).clk = s.clk := rfl
@[simp] theorem emitOut_pwr (s : State) (o : Out) : (emitOut s o).pwr = s.pwr := rfl
@[simp] theorem emitOut_ctl (s : State) (o : Out) : (emitOut s o).ctl = s.ctl := rfl
@[simp] theorem emitOut_upd (s : State) (o : Out) : (emitOut s o).upd = s.upd := rfl
@[simp] theorem emitOut_tco (s : State) (o : Out) : (emitOut s o).tco = s.tco := rfl
@[simp] theorem emitOut_refs (s : State) (o : Out) : (emitOut s o).refs = s.refs := rfl
@[simp] theorem emitOut_gbb (s : State) (o : Out) : (emitOut s o).gbb = s.gbb := rfl
@[simp] theorem emitOut_tio (s : State) (o : Out) : (emitOut s o).tio = s.tio := rfl
@[simp] theorem emitOut_svc (s : State) (o : Out) : (emitOut s o).svc = s.svc := rfl
@[simp] theorem emitOut_ptp (s : State) (o : Out) : (emitOut s o).ptp = s.ptp := rfl
@[simp] theorem emitOut_eth (s : State) (o : Out) : (emitOut s o).eth = s.eth := rfl
@[simp] theorem emitOut_lnk (s : State) (o : Out) : (emitOut s o).lnk = s.lnk := rfl
@[simp] theorem emitOut_pair (s : State) (o : Out) : (emitOut s o).pair = s.pair := rfl
@[simp] theorem emitOut_key (s : State) (o : Out) : (emitOut s o).key = s.key := rfl

/-! modBlk -/
@[simp] theorem modBlk_pending (s : State) (b : Blk) (f : BlkStat → BlkStat) : (modBlk s b f).pending = s.pending := rfl
@[simp] theorem modBlk_now (s : State) (b : Blk) (f : BlkStat → BlkStat) : (modBlk s b f).now = s.now := rfl
@[simp] theorem modBlk_aon (s : State) (b : Blk) (f : BlkStat → BlkStat) : (modBlk s b f).aon = s.aon := rfl
@[simp] theorem modBlk_aonFrac (s : State) (b : Blk) (f : BlkStat → BlkStat) : (modBlk s b f).aonFrac = s.aonFrac := rfl
@[simp] theorem modBlk_freeCtr (s : State) (b : Blk) (f : BlkStat → BlkStat) : (modBlk s b f).freeCtr = s.freeCtr := rfl
@[simp] theorem modBlk_out (s : State) (b : Blk) (f : BlkStat → BlkStat) : (modBlk s b f).out = s.out := rfl
@[simp] theorem modBlk_words (s : State) (b : Blk) (f : BlkStat → BlkStat) : (modBlk s b f).words = s.words := rfl
@[simp] theorem modBlk_mismatch (s : State) (b : Blk) (f : BlkStat → BlkStat) : (modBlk s b f).mismatch = s.mismatch := rfl
@[simp] theorem modBlk_log (s : State) (b : Blk) (f : BlkStat → BlkStat) : (modBlk s b f).log = { s.log with blks := vmod s.log.blks (Blk.id b - 1) f } := rfl
@[simp] theorem modBlk_hif (s : State) (b : Blk) (f : BlkStat → BlkStat) : (modBlk s b f).hif = s.hif := rfl
@[simp] theorem modBlk_glb (s : State) (b : Blk) (f : BlkStat → BlkStat) : (modBlk s b f).glb = s.glb := rfl
@[simp] theorem modBlk_perf (s : State) (b : Blk) (f : BlkStat → BlkStat) : (modBlk s b f).perf = s.perf := rfl
@[simp] theorem modBlk_pan (s : State) (b : Blk) (f : BlkStat → BlkStat) : (modBlk s b f).pan = s.pan := rfl
@[simp] theorem modBlk_mem (s : State) (b : Blk) (f : BlkStat → BlkStat) : (modBlk s b f).mem = s.mem := rfl
@[simp] theorem modBlk_clk (s : State) (b : Blk) (f : BlkStat → BlkStat) : (modBlk s b f).clk = s.clk := rfl
@[simp] theorem modBlk_pwr (s : State) (b : Blk) (f : BlkStat → BlkStat) : (modBlk s b f).pwr = s.pwr := rfl
@[simp] theorem modBlk_ctl (s : State) (b : Blk) (f : BlkStat → BlkStat) : (modBlk s b f).ctl = s.ctl := rfl
@[simp] theorem modBlk_upd (s : State) (b : Blk) (f : BlkStat → BlkStat) : (modBlk s b f).upd = s.upd := rfl
@[simp] theorem modBlk_tco (s : State) (b : Blk) (f : BlkStat → BlkStat) : (modBlk s b f).tco = s.tco := rfl
@[simp] theorem modBlk_refs (s : State) (b : Blk) (f : BlkStat → BlkStat) : (modBlk s b f).refs = s.refs := rfl
@[simp] theorem modBlk_gbb (s : State) (b : Blk) (f : BlkStat → BlkStat) : (modBlk s b f).gbb = s.gbb := rfl
@[simp] theorem modBlk_tio (s : State) (b : Blk) (f : BlkStat → BlkStat) : (modBlk s b f).tio = s.tio := rfl
@[simp] theorem modBlk_svc (s : State) (b : Blk) (f : BlkStat → BlkStat) : (modBlk s b f).svc = s.svc := rfl
@[simp] theorem modBlk_ptp (s : State) (b : Blk) (f : BlkStat → BlkStat) : (modBlk s b f).ptp = s.ptp := rfl
@[simp] theorem modBlk_eth (s : State) (b : Blk) (f : BlkStat → BlkStat) : (modBlk s b f).eth = s.eth := rfl
@[simp] theorem modBlk_lnk (s : State) (b : Blk) (f : BlkStat → BlkStat) : (modBlk s b f).lnk = s.lnk := rfl
@[simp] theorem modBlk_pair (s : State) (b : Blk) (f : BlkStat → BlkStat) : (modBlk s b f).pair = s.pair := rfl
@[simp] theorem modBlk_key (s : State) (b : Blk) (f : BlkStat → BlkStat) : (modBlk s b f).key = s.key := rfl

/-! modFig -/
@[simp] theorem modFig_pending (s : State) (f : Figures → Figures) : (modFig s f).pending = s.pending := rfl
@[simp] theorem modFig_now (s : State) (f : Figures → Figures) : (modFig s f).now = s.now := rfl
@[simp] theorem modFig_aon (s : State) (f : Figures → Figures) : (modFig s f).aon = s.aon := rfl
@[simp] theorem modFig_aonFrac (s : State) (f : Figures → Figures) : (modFig s f).aonFrac = s.aonFrac := rfl
@[simp] theorem modFig_freeCtr (s : State) (f : Figures → Figures) : (modFig s f).freeCtr = s.freeCtr := rfl
@[simp] theorem modFig_out (s : State) (f : Figures → Figures) : (modFig s f).out = s.out := rfl
@[simp] theorem modFig_words (s : State) (f : Figures → Figures) : (modFig s f).words = s.words := rfl
@[simp] theorem modFig_mismatch (s : State) (f : Figures → Figures) : (modFig s f).mismatch = s.mismatch := rfl
@[simp] theorem modFig_log (s : State) (f : Figures → Figures) : (modFig s f).log = s.log := rfl
@[simp] theorem modFig_hif (s : State) (f : Figures → Figures) : (modFig s f).hif = s.hif := rfl
@[simp] theorem modFig_glb (s : State) (f : Figures → Figures) : (modFig s f).glb = s.glb := rfl
@[simp] theorem modFig_perf (s : State) (f : Figures → Figures) : (modFig s f).perf = s.perf := rfl
@[simp] theorem modFig_pan (s : State) (f : Figures → Figures) : (modFig s f).pan = { s.pan with fig := f s.pan.fig } := rfl
@[simp] theorem modFig_mem (s : State) (f : Figures → Figures) : (modFig s f).mem = s.mem := rfl
@[simp] theorem modFig_clk (s : State) (f : Figures → Figures) : (modFig s f).clk = s.clk := rfl
@[simp] theorem modFig_pwr (s : State) (f : Figures → Figures) : (modFig s f).pwr = s.pwr := rfl
@[simp] theorem modFig_ctl (s : State) (f : Figures → Figures) : (modFig s f).ctl = s.ctl := rfl
@[simp] theorem modFig_upd (s : State) (f : Figures → Figures) : (modFig s f).upd = s.upd := rfl
@[simp] theorem modFig_tco (s : State) (f : Figures → Figures) : (modFig s f).tco = s.tco := rfl
@[simp] theorem modFig_refs (s : State) (f : Figures → Figures) : (modFig s f).refs = s.refs := rfl
@[simp] theorem modFig_gbb (s : State) (f : Figures → Figures) : (modFig s f).gbb = s.gbb := rfl
@[simp] theorem modFig_tio (s : State) (f : Figures → Figures) : (modFig s f).tio = s.tio := rfl
@[simp] theorem modFig_svc (s : State) (f : Figures → Figures) : (modFig s f).svc = s.svc := rfl
@[simp] theorem modFig_ptp (s : State) (f : Figures → Figures) : (modFig s f).ptp = s.ptp := rfl
@[simp] theorem modFig_eth (s : State) (f : Figures → Figures) : (modFig s f).eth = s.eth := rfl
@[simp] theorem modFig_lnk (s : State) (f : Figures → Figures) : (modFig s f).lnk = s.lnk := rfl
@[simp] theorem modFig_pair (s : State) (f : Figures → Figures) : (modFig s f).pair = s.pair := rfl
@[simp] theorem modFig_key (s : State) (f : Figures → Figures) : (modFig s f).key = s.key := rfl

/-! modLink -/
@[simp] theorem modLink_pending (s : State) (l : Fin 4) (f : Link → Link) : (modLink s l f).pending = s.pending := rfl
@[simp] theorem modLink_now (s : State) (l : Fin 4) (f : Link → Link) : (modLink s l f).now = s.now := rfl
@[simp] theorem modLink_aon (s : State) (l : Fin 4) (f : Link → Link) : (modLink s l f).aon = s.aon := rfl
@[simp] theorem modLink_aonFrac (s : State) (l : Fin 4) (f : Link → Link) : (modLink s l f).aonFrac = s.aonFrac := rfl
@[simp] theorem modLink_freeCtr (s : State) (l : Fin 4) (f : Link → Link) : (modLink s l f).freeCtr = s.freeCtr := rfl
@[simp] theorem modLink_out (s : State) (l : Fin 4) (f : Link → Link) : (modLink s l f).out = s.out := rfl
@[simp] theorem modLink_words (s : State) (l : Fin 4) (f : Link → Link) : (modLink s l f).words = s.words := rfl
@[simp] theorem modLink_mismatch (s : State) (l : Fin 4) (f : Link → Link) : (modLink s l f).mismatch = s.mismatch := rfl
@[simp] theorem modLink_log (s : State) (l : Fin 4) (f : Link → Link) : (modLink s l f).log = s.log := rfl
@[simp] theorem modLink_hif (s : State) (l : Fin 4) (f : Link → Link) : (modLink s l f).hif = s.hif := rfl
@[simp] theorem modLink_glb (s : State) (l : Fin 4) (f : Link → Link) : (modLink s l f).glb = s.glb := rfl
@[simp] theorem modLink_perf (s : State) (l : Fin 4) (f : Link → Link) : (modLink s l f).perf = s.perf := rfl
@[simp] theorem modLink_pan (s : State) (l : Fin 4) (f : Link → Link) : (modLink s l f).pan = s.pan := rfl
@[simp] theorem modLink_mem (s : State) (l : Fin 4) (f : Link → Link) : (modLink s l f).mem = s.mem := rfl
@[simp] theorem modLink_clk (s : State) (l : Fin 4) (f : Link → Link) : (modLink s l f).clk = s.clk := rfl
@[simp] theorem modLink_pwr (s : State) (l : Fin 4) (f : Link → Link) : (modLink s l f).pwr = s.pwr := rfl
@[simp] theorem modLink_ctl (s : State) (l : Fin 4) (f : Link → Link) : (modLink s l f).ctl = s.ctl := rfl
@[simp] theorem modLink_upd (s : State) (l : Fin 4) (f : Link → Link) : (modLink s l f).upd = s.upd := rfl
@[simp] theorem modLink_tco (s : State) (l : Fin 4) (f : Link → Link) : (modLink s l f).tco = s.tco := rfl
@[simp] theorem modLink_refs (s : State) (l : Fin 4) (f : Link → Link) : (modLink s l f).refs = s.refs := rfl
@[simp] theorem modLink_gbb (s : State) (l : Fin 4) (f : Link → Link) : (modLink s l f).gbb = s.gbb := rfl
@[simp] theorem modLink_tio (s : State) (l : Fin 4) (f : Link → Link) : (modLink s l f).tio = s.tio := rfl
@[simp] theorem modLink_svc (s : State) (l : Fin 4) (f : Link → Link) : (modLink s l f).svc = s.svc := rfl
@[simp] theorem modLink_ptp (s : State) (l : Fin 4) (f : Link → Link) : (modLink s l f).ptp = s.ptp := rfl
@[simp] theorem modLink_eth (s : State) (l : Fin 4) (f : Link → Link) : (modLink s l f).eth = s.eth := rfl
@[simp] theorem modLink_lnk (s : State) (l : Fin 4) (f : Link → Link) : (modLink s l f).lnk = { s.lnk with links := vmod s.lnk.links l.val f } := rfl
@[simp] theorem modLink_pair (s : State) (l : Fin 4) (f : Link → Link) : (modLink s l f).pair = s.pair := rfl
@[simp] theorem modLink_key (s : State) (l : Fin 4) (f : Link → Link) : (modLink s l f).key = s.key := rfl

/-! modRing -/
@[simp] theorem modRing_pending (s : State) (r : Nat) (f : Ring → Ring) : (modRing s r f).pending = s.pending := rfl
@[simp] theorem modRing_now (s : State) (r : Nat) (f : Ring → Ring) : (modRing s r f).now = s.now := rfl
@[simp] theorem modRing_aon (s : State) (r : Nat) (f : Ring → Ring) : (modRing s r f).aon = s.aon := rfl
@[simp] theorem modRing_aonFrac (s : State) (r : Nat) (f : Ring → Ring) : (modRing s r f).aonFrac = s.aonFrac := rfl
@[simp] theorem modRing_freeCtr (s : State) (r : Nat) (f : Ring → Ring) : (modRing s r f).freeCtr = s.freeCtr := rfl
@[simp] theorem modRing_out (s : State) (r : Nat) (f : Ring → Ring) : (modRing s r f).out = s.out := rfl
@[simp] theorem modRing_words (s : State) (r : Nat) (f : Ring → Ring) : (modRing s r f).words = s.words := rfl
@[simp] theorem modRing_mismatch (s : State) (r : Nat) (f : Ring → Ring) : (modRing s r f).mismatch = s.mismatch := rfl
@[simp] theorem modRing_log (s : State) (r : Nat) (f : Ring → Ring) : (modRing s r f).log = s.log := rfl
@[simp] theorem modRing_hif (s : State) (r : Nat) (f : Ring → Ring) : (modRing s r f).hif = { s.hif with rings := vmod s.hif.rings r f } := rfl
@[simp] theorem modRing_glb (s : State) (r : Nat) (f : Ring → Ring) : (modRing s r f).glb = s.glb := rfl
@[simp] theorem modRing_perf (s : State) (r : Nat) (f : Ring → Ring) : (modRing s r f).perf = s.perf := rfl
@[simp] theorem modRing_pan (s : State) (r : Nat) (f : Ring → Ring) : (modRing s r f).pan = s.pan := rfl
@[simp] theorem modRing_mem (s : State) (r : Nat) (f : Ring → Ring) : (modRing s r f).mem = s.mem := rfl
@[simp] theorem modRing_clk (s : State) (r : Nat) (f : Ring → Ring) : (modRing s r f).clk = s.clk := rfl
@[simp] theorem modRing_pwr (s : State) (r : Nat) (f : Ring → Ring) : (modRing s r f).pwr = s.pwr := rfl
@[simp] theorem modRing_ctl (s : State) (r : Nat) (f : Ring → Ring) : (modRing s r f).ctl = s.ctl := rfl
@[simp] theorem modRing_upd (s : State) (r : Nat) (f : Ring → Ring) : (modRing s r f).upd = s.upd := rfl
@[simp] theorem modRing_tco (s : State) (r : Nat) (f : Ring → Ring) : (modRing s r f).tco = s.tco := rfl
@[simp] theorem modRing_refs (s : State) (r : Nat) (f : Ring → Ring) : (modRing s r f).refs = s.refs := rfl
@[simp] theorem modRing_gbb (s : State) (r : Nat) (f : Ring → Ring) : (modRing s r f).gbb = s.gbb := rfl
@[simp] theorem modRing_tio (s : State) (r : Nat) (f : Ring → Ring) : (modRing s r f).tio = s.tio := rfl
@[simp] theorem modRing_svc (s : State) (r : Nat) (f : Ring → Ring) : (modRing s r f).svc = s.svc := rfl
@[simp] theorem modRing_ptp (s : State) (r : Nat) (f : Ring → Ring) : (modRing s r f).ptp = s.ptp := rfl
@[simp] theorem modRing_eth (s : State) (r : Nat) (f : Ring → Ring) : (modRing s r f).eth = s.eth := rfl
@[simp] theorem modRing_lnk (s : State) (r : Nat) (f : Ring → Ring) : (modRing s r f).lnk = s.lnk := rfl
@[simp] theorem modRing_pair (s : State) (r : Nat) (f : Ring → Ring) : (modRing s r f).pair = s.pair := rfl
@[simp] theorem modRing_key (s : State) (r : Nat) (f : Ring → Ring) : (modRing s r f).key = s.key := rfl

/-! modLoop -/
@[simp] theorem modLoop_pending (s : State) (i : Nat) (f : Loop → Loop) : (modLoop s i f).pending = s.pending := rfl
@[simp] theorem modLoop_now (s : State) (i : Nat) (f : Loop → Loop) : (modLoop s i f).now = s.now := rfl
@[simp] theorem modLoop_aon (s : State) (i : Nat) (f : Loop → Loop) : (modLoop s i f).aon = s.aon := rfl
@[simp] theorem modLoop_aonFrac (s : State) (i : Nat) (f : Loop → Loop) : (modLoop s i f).aonFrac = s.aonFrac := rfl
@[simp] theorem modLoop_freeCtr (s : State) (i : Nat) (f : Loop → Loop) : (modLoop s i f).freeCtr = s.freeCtr := rfl
@[simp] theorem modLoop_out (s : State) (i : Nat) (f : Loop → Loop) : (modLoop s i f).out = s.out := rfl
@[simp] theorem modLoop_words (s : State) (i : Nat) (f : Loop → Loop) : (modLoop s i f).words = s.words := rfl
@[simp] theorem modLoop_mismatch (s : State) (i : Nat) (f : Loop → Loop) : (modLoop s i f).mismatch = s.mismatch := rfl
@[simp] theorem modLoop_log (s : State) (i : Nat) (f : Loop → Loop) : (modLoop s i f).log = s.log := rfl
@[simp] theorem modLoop_hif (s : State) (i : Nat) (f : Loop → Loop) : (modLoop s i f).hif = s.hif := rfl
@[simp] theorem modLoop_glb (s : State) (i : Nat) (f : Loop → Loop) : (modLoop s i f).glb = s.glb := rfl
@[simp] theorem modLoop_perf (s : State) (i : Nat) (f : Loop → Loop) : (modLoop s i f).perf = s.perf := rfl
@[simp] theorem modLoop_pan (s : State) (i : Nat) (f : Loop → Loop) : (modLoop s i f).pan = s.pan := rfl
@[simp] theorem modLoop_mem (s : State) (i : Nat) (f : Loop → Loop) : (modLoop s i f).mem = s.mem := rfl
@[simp] theorem modLoop_clk (s : State) (i : Nat) (f : Loop → Loop) : (modLoop s i f).clk = { s.clk with loops := vmod s.clk.loops i f } := rfl
@[simp] theorem modLoop_pwr (s : State) (i : Nat) (f : Loop → Loop) : (modLoop s i f).pwr = s.pwr := rfl
@[simp] theorem modLoop_ctl (s : State) (i : Nat) (f : Loop → Loop) : (modLoop s i f).ctl = s.ctl := rfl
@[simp] theorem modLoop_upd (s : State) (i : Nat) (f : Loop → Loop) : (modLoop s i f).upd = s.upd := rfl
@[simp] theorem modLoop_tco (s : State) (i : Nat) (f : Loop → Loop) : (modLoop s i f).tco = s.tco := rfl
@[simp] theorem modLoop_refs (s : State) (i : Nat) (f : Loop → Loop) : (modLoop s i f).refs = s.refs := rfl
@[simp] theorem modLoop_gbb (s : State) (i : Nat) (f : Loop → Loop) : (modLoop s i f).gbb = s.gbb := rfl
@[simp] theorem modLoop_tio (s : State) (i : Nat) (f : Loop → Loop) : (modLoop s i f).tio = s.tio := rfl
@[simp] theorem modLoop_svc (s : State) (i : Nat) (f : Loop → Loop) : (modLoop s i f).svc = s.svc := rfl
@[simp] theorem modLoop_ptp (s : State) (i : Nat) (f : Loop → Loop) : (modLoop s i f).ptp = s.ptp := rfl
@[simp] theorem modLoop_eth (s : State) (i : Nat) (f : Loop → Loop) : (modLoop s i f).eth = s.eth := rfl
@[simp] theorem modLoop_lnk (s : State) (i : Nat) (f : Loop → Loop) : (modLoop s i f).lnk = s.lnk := rfl
@[simp] theorem modLoop_pair (s : State) (i : Nat) (f : Loop → Loop) : (modLoop s i f).pair = s.pair := rfl
@[simp] theorem modLoop_key (s : State) (i : Nat) (f : Loop → Loop) : (modLoop s i f).key = s.key := rfl

/-! modPort -/
@[simp] theorem modPort_pending (s : State) (p : Fin 9) (f : EthPort → EthPort) : (modPort s p f).pending = s.pending := rfl
@[simp] theorem modPort_now (s : State) (p : Fin 9) (f : EthPort → EthPort) : (modPort s p f).now = s.now := rfl
@[simp] theorem modPort_aon (s : State) (p : Fin 9) (f : EthPort → EthPort) : (modPort s p f).aon = s.aon := rfl
@[simp] theorem modPort_aonFrac (s : State) (p : Fin 9) (f : EthPort → EthPort) : (modPort s p f).aonFrac = s.aonFrac := rfl
@[simp] theorem modPort_freeCtr (s : State) (p : Fin 9) (f : EthPort → EthPort) : (modPort s p f).freeCtr = s.freeCtr := rfl
@[simp] theorem modPort_out (s : State) (p : Fin 9) (f : EthPort → EthPort) : (modPort s p f).out = s.out := rfl
@[simp] theorem modPort_words (s : State) (p : Fin 9) (f : EthPort → EthPort) : (modPort s p f).words = s.words := rfl
@[simp] theorem modPort_mismatch (s : State) (p : Fin 9) (f : EthPort → EthPort) : (modPort s p f).mismatch = s.mismatch := rfl
@[simp] theorem modPort_log (s : State) (p : Fin 9) (f : EthPort → EthPort) : (modPort s p f).log = s.log := rfl
@[simp] theorem modPort_hif (s : State) (p : Fin 9) (f : EthPort → EthPort) : (modPort s p f).hif = s.hif := rfl
@[simp] theorem modPort_glb (s : State) (p : Fin 9) (f : EthPort → EthPort) : (modPort s p f).glb = s.glb := rfl
@[simp] theorem modPort_perf (s : State) (p : Fin 9) (f : EthPort → EthPort) : (modPort s p f).perf = s.perf := rfl
@[simp] theorem modPort_pan (s : State) (p : Fin 9) (f : EthPort → EthPort) : (modPort s p f).pan = s.pan := rfl
@[simp] theorem modPort_mem (s : State) (p : Fin 9) (f : EthPort → EthPort) : (modPort s p f).mem = s.mem := rfl
@[simp] theorem modPort_clk (s : State) (p : Fin 9) (f : EthPort → EthPort) : (modPort s p f).clk = s.clk := rfl
@[simp] theorem modPort_pwr (s : State) (p : Fin 9) (f : EthPort → EthPort) : (modPort s p f).pwr = s.pwr := rfl
@[simp] theorem modPort_ctl (s : State) (p : Fin 9) (f : EthPort → EthPort) : (modPort s p f).ctl = s.ctl := rfl
@[simp] theorem modPort_upd (s : State) (p : Fin 9) (f : EthPort → EthPort) : (modPort s p f).upd = s.upd := rfl
@[simp] theorem modPort_tco (s : State) (p : Fin 9) (f : EthPort → EthPort) : (modPort s p f).tco = s.tco := rfl
@[simp] theorem modPort_refs (s : State) (p : Fin 9) (f : EthPort → EthPort) : (modPort s p f).refs = s.refs := rfl
@[simp] theorem modPort_gbb (s : State) (p : Fin 9) (f : EthPort → EthPort) : (modPort s p f).gbb = s.gbb := rfl
@[simp] theorem modPort_tio (s : State) (p : Fin 9) (f : EthPort → EthPort) : (modPort s p f).tio = s.tio := rfl
@[simp] theorem modPort_svc (s : State) (p : Fin 9) (f : EthPort → EthPort) : (modPort s p f).svc = s.svc := rfl
@[simp] theorem modPort_ptp (s : State) (p : Fin 9) (f : EthPort → EthPort) : (modPort s p f).ptp = s.ptp := rfl
@[simp] theorem modPort_eth (s : State) (p : Fin 9) (f : EthPort → EthPort) : (modPort s p f).eth = { s.eth with ports := vmod s.eth.ports p.val f } := rfl
@[simp] theorem modPort_lnk (s : State) (p : Fin 9) (f : EthPort → EthPort) : (modPort s p f).lnk = s.lnk := rfl
@[simp] theorem modPort_pair (s : State) (p : Fin 9) (f : EthPort → EthPort) : (modPort s p f).pair = s.pair := rfl
@[simp] theorem modPort_key (s : State) (p : Fin 9) (f : EthPort → EthPort) : (modPort s p f).key = s.key := rfl

/-! modInst -/
@[simp] theorem modInst_pending (s : State) (i : Fin 16) (f : Inst → Inst) : (modInst s i f).pending = s.pending := rfl
@[simp] theorem modInst_now (s : State) (i : Fin 16) (f : Inst → Inst) : (modInst s i f).now = s.now := rfl
@[simp] theorem modInst_aon (s : State) (i : Fin 16) (f : Inst → Inst) : (modInst s i f).aon = s.aon := rfl
@[simp] theorem modInst_aonFrac (s : State) (i : Fin 16) (f : Inst → Inst) : (modInst s i f).aonFrac = s.aonFrac := rfl
@[simp] theorem modInst_freeCtr (s : State) (i : Fin 16) (f : Inst → Inst) : (modInst s i f).freeCtr = s.freeCtr := rfl
@[simp] theorem modInst_out (s : State) (i : Fin 16) (f : Inst → Inst) : (modInst s i f).out = s.out := rfl
@[simp] theorem modInst_words (s : State) (i : Fin 16) (f : Inst → Inst) : (modInst s i f).words = s.words := rfl
@[simp] theorem modInst_mismatch (s : State) (i : Fin 16) (f : Inst → Inst) : (modInst s i f).mismatch = s.mismatch := rfl
@[simp] theorem modInst_log (s : State) (i : Fin 16) (f : Inst → Inst) : (modInst s i f).log = s.log := rfl
@[simp] theorem modInst_hif (s : State) (i : Fin 16) (f : Inst → Inst) : (modInst s i f).hif = s.hif := rfl
@[simp] theorem modInst_glb (s : State) (i : Fin 16) (f : Inst → Inst) : (modInst s i f).glb = s.glb := rfl
@[simp] theorem modInst_perf (s : State) (i : Fin 16) (f : Inst → Inst) : (modInst s i f).perf = s.perf := rfl
@[simp] theorem modInst_pan (s : State) (i : Fin 16) (f : Inst → Inst) : (modInst s i f).pan = s.pan := rfl
@[simp] theorem modInst_mem (s : State) (i : Fin 16) (f : Inst → Inst) : (modInst s i f).mem = s.mem := rfl
@[simp] theorem modInst_clk (s : State) (i : Fin 16) (f : Inst → Inst) : (modInst s i f).clk = s.clk := rfl
@[simp] theorem modInst_pwr (s : State) (i : Fin 16) (f : Inst → Inst) : (modInst s i f).pwr = s.pwr := rfl
@[simp] theorem modInst_ctl (s : State) (i : Fin 16) (f : Inst → Inst) : (modInst s i f).ctl = s.ctl := rfl
@[simp] theorem modInst_upd (s : State) (i : Fin 16) (f : Inst → Inst) : (modInst s i f).upd = s.upd := rfl
@[simp] theorem modInst_tco (s : State) (i : Fin 16) (f : Inst → Inst) : (modInst s i f).tco = s.tco := rfl
@[simp] theorem modInst_refs (s : State) (i : Fin 16) (f : Inst → Inst) : (modInst s i f).refs = s.refs := rfl
@[simp] theorem modInst_gbb (s : State) (i : Fin 16) (f : Inst → Inst) : (modInst s i f).gbb = s.gbb := rfl
@[simp] theorem modInst_tio (s : State) (i : Fin 16) (f : Inst → Inst) : (modInst s i f).tio = s.tio := rfl
@[simp] theorem modInst_svc (s : State) (i : Fin 16) (f : Inst → Inst) : (modInst s i f).svc = s.svc := rfl
@[simp] theorem modInst_ptp (s : State) (i : Fin 16) (f : Inst → Inst) : (modInst s i f).ptp = { s.ptp with insts := vmod s.ptp.insts i.val f } := rfl
@[simp] theorem modInst_eth (s : State) (i : Fin 16) (f : Inst → Inst) : (modInst s i f).eth = s.eth := rfl
@[simp] theorem modInst_lnk (s : State) (i : Fin 16) (f : Inst → Inst) : (modInst s i f).lnk = s.lnk := rfl
@[simp] theorem modInst_pair (s : State) (i : Fin 16) (f : Inst → Inst) : (modInst s i f).pair = s.pair := rfl
@[simp] theorem modInst_key (s : State) (i : Fin 16) (f : Inst → Inst) : (modInst s i f).key = s.key := rfl

/-! modSlot -/
@[simp] theorem modSlot_pending (s : State) (i : Fin 16) (f : Slot → Slot) : (modSlot s i f).pending = s.pending := rfl
@[simp] theorem modSlot_now (s : State) (i : Fin 16) (f : Slot → Slot) : (modSlot s i f).now = s.now := rfl
@[simp] theorem modSlot_aon (s : State) (i : Fin 16) (f : Slot → Slot) : (modSlot s i f).aon = s.aon := rfl
@[simp] theorem modSlot_aonFrac (s : State) (i : Fin 16) (f : Slot → Slot) : (modSlot s i f).aonFrac = s.aonFrac := rfl
@[simp] theorem modSlot_freeCtr (s : State) (i : Fin 16) (f : Slot → Slot) : (modSlot s i f).freeCtr = s.freeCtr := rfl
@[simp] theorem modSlot_out (s : State) (i : Fin 16) (f : Slot → Slot) : (modSlot s i f).out = s.out := rfl
@[simp] theorem modSlot_words (s : State) (i : Fin 16) (f : Slot → Slot) : (modSlot s i f).words = s.words := rfl
@[simp] theorem modSlot_mismatch (s : State) (i : Fin 16) (f : Slot → Slot) : (modSlot s i f).mismatch = s.mismatch := rfl
@[simp] theorem modSlot_log (s : State) (i : Fin 16) (f : Slot → Slot) : (modSlot s i f).log = s.log := rfl
@[simp] theorem modSlot_hif (s : State) (i : Fin 16) (f : Slot → Slot) : (modSlot s i f).hif = s.hif := rfl
@[simp] theorem modSlot_glb (s : State) (i : Fin 16) (f : Slot → Slot) : (modSlot s i f).glb = s.glb := rfl
@[simp] theorem modSlot_perf (s : State) (i : Fin 16) (f : Slot → Slot) : (modSlot s i f).perf = s.perf := rfl
@[simp] theorem modSlot_pan (s : State) (i : Fin 16) (f : Slot → Slot) : (modSlot s i f).pan = s.pan := rfl
@[simp] theorem modSlot_mem (s : State) (i : Fin 16) (f : Slot → Slot) : (modSlot s i f).mem = s.mem := rfl
@[simp] theorem modSlot_clk (s : State) (i : Fin 16) (f : Slot → Slot) : (modSlot s i f).clk = s.clk := rfl
@[simp] theorem modSlot_pwr (s : State) (i : Fin 16) (f : Slot → Slot) : (modSlot s i f).pwr = s.pwr := rfl
@[simp] theorem modSlot_ctl (s : State) (i : Fin 16) (f : Slot → Slot) : (modSlot s i f).ctl = s.ctl := rfl
@[simp] theorem modSlot_upd (s : State) (i : Fin 16) (f : Slot → Slot) : (modSlot s i f).upd = s.upd := rfl
@[simp] theorem modSlot_tco (s : State) (i : Fin 16) (f : Slot → Slot) : (modSlot s i f).tco = s.tco := rfl
@[simp] theorem modSlot_refs (s : State) (i : Fin 16) (f : Slot → Slot) : (modSlot s i f).refs = { s.refs with slots := vmod s.refs.slots i.val f } := rfl
@[simp] theorem modSlot_gbb (s : State) (i : Fin 16) (f : Slot → Slot) : (modSlot s i f).gbb = s.gbb := rfl
@[simp] theorem modSlot_tio (s : State) (i : Fin 16) (f : Slot → Slot) : (modSlot s i f).tio = s.tio := rfl
@[simp] theorem modSlot_svc (s : State) (i : Fin 16) (f : Slot → Slot) : (modSlot s i f).svc = s.svc := rfl
@[simp] theorem modSlot_ptp (s : State) (i : Fin 16) (f : Slot → Slot) : (modSlot s i f).ptp = s.ptp := rfl
@[simp] theorem modSlot_eth (s : State) (i : Fin 16) (f : Slot → Slot) : (modSlot s i f).eth = s.eth := rfl
@[simp] theorem modSlot_lnk (s : State) (i : Fin 16) (f : Slot → Slot) : (modSlot s i f).lnk = s.lnk := rfl
@[simp] theorem modSlot_pair (s : State) (i : Fin 16) (f : Slot → Slot) : (modSlot s i f).pair = s.pair := rfl
@[simp] theorem modSlot_key (s : State) (i : Fin 16) (f : Slot → Slot) : (modSlot s i f).key = s.key := rfl

/-! modKey -/
@[simp] theorem modKey_pending (s : State) (f : Key → Key) : (modKey s f).pending = s.pending := rfl
@[simp] theorem modKey_now (s : State) (f : Key → Key) : (modKey s f).now = s.now := rfl
@[simp] theorem modKey_aon (s : State) (f : Key → Key) : (modKey s f).aon = s.aon := rfl
@[simp] theorem modKey_aonFrac (s : State) (f : Key → Key) : (modKey s f).aonFrac = s.aonFrac := rfl
@[simp] theorem modKey_freeCtr (s : State) (f : Key → Key) : (modKey s f).freeCtr = s.freeCtr := rfl
@[simp] theorem modKey_out (s : State) (f : Key → Key) : (modKey s f).out = s.out := rfl
@[simp] theorem modKey_words (s : State) (f : Key → Key) : (modKey s f).words = s.words := rfl
@[simp] theorem modKey_mismatch (s : State) (f : Key → Key) : (modKey s f).mismatch = s.mismatch := rfl
@[simp] theorem modKey_log (s : State) (f : Key → Key) : (modKey s f).log = s.log := rfl
@[simp] theorem modKey_hif (s : State) (f : Key → Key) : (modKey s f).hif = s.hif := rfl
@[simp] theorem modKey_glb (s : State) (f : Key → Key) : (modKey s f).glb = s.glb := rfl
@[simp] theorem modKey_perf (s : State) (f : Key → Key) : (modKey s f).perf = s.perf := rfl
@[simp] theorem modKey_pan (s : State) (f : Key → Key) : (modKey s f).pan = s.pan := rfl
@[simp] theorem modKey_mem (s : State) (f : Key → Key) : (modKey s f).mem = s.mem := rfl
@[simp] theorem modKey_clk (s : State) (f : Key → Key) : (modKey s f).clk = s.clk := rfl
@[simp] theorem modKey_pwr (s : State) (f : Key → Key) : (modKey s f).pwr = s.pwr := rfl
@[simp] theorem modKey_ctl (s : State) (f : Key → Key) : (modKey s f).ctl = s.ctl := rfl
@[simp] theorem modKey_upd (s : State) (f : Key → Key) : (modKey s f).upd = s.upd := rfl
@[simp] theorem modKey_tco (s : State) (f : Key → Key) : (modKey s f).tco = s.tco := rfl
@[simp] theorem modKey_refs (s : State) (f : Key → Key) : (modKey s f).refs = s.refs := rfl
@[simp] theorem modKey_gbb (s : State) (f : Key → Key) : (modKey s f).gbb = s.gbb := rfl
@[simp] theorem modKey_tio (s : State) (f : Key → Key) : (modKey s f).tio = s.tio := rfl
@[simp] theorem modKey_svc (s : State) (f : Key → Key) : (modKey s f).svc = s.svc := rfl
@[simp] theorem modKey_ptp (s : State) (f : Key → Key) : (modKey s f).ptp = s.ptp := rfl
@[simp] theorem modKey_eth (s : State) (f : Key → Key) : (modKey s f).eth = s.eth := rfl
@[simp] theorem modKey_lnk (s : State) (f : Key → Key) : (modKey s f).lnk = s.lnk := rfl
@[simp] theorem modKey_pair (s : State) (f : Key → Key) : (modKey s f).pair = s.pair := rfl
@[simp] theorem modKey_key (s : State) (f : Key → Key) : (modKey s f).key = f s.key := rfl

/-! modPtp -/
@[simp] theorem modPtp_pending (s : State) (f : Ptp → Ptp) : (modPtp s f).pending = s.pending := rfl
@[simp] theorem modPtp_now (s : State) (f : Ptp → Ptp) : (modPtp s f).now = s.now := rfl
@[simp] theorem modPtp_aon (s : State) (f : Ptp → Ptp) : (modPtp s f).aon = s.aon := rfl
@[simp] theorem modPtp_aonFrac (s : State) (f : Ptp → Ptp) : (modPtp s f).aonFrac = s.aonFrac := rfl
@[simp] theorem modPtp_freeCtr (s : State) (f : Ptp → Ptp) : (modPtp s f).freeCtr = s.freeCtr := rfl
@[simp] theorem modPtp_out (s : State) (f : Ptp → Ptp) : (modPtp s f).out = s.out := rfl
@[simp] theorem modPtp_words (s : State) (f : Ptp → Ptp) : (modPtp s f).words = s.words := rfl
@[simp] theorem modPtp_mismatch (s : State) (f : Ptp → Ptp) : (modPtp s f).mismatch = s.mismatch := rfl
@[simp] theorem modPtp_log (s : State) (f : Ptp → Ptp) : (modPtp s f).log = s.log := rfl
@[simp] theorem modPtp_hif (s : State) (f : Ptp → Ptp) : (modPtp s f).hif = s.hif := rfl
@[simp] theorem modPtp_glb (s : State) (f : Ptp → Ptp) : (modPtp s f).glb = s.glb := rfl
@[simp] theorem modPtp_perf (s : State) (f : Ptp → Ptp) : (modPtp s f).perf = s.perf := rfl
@[simp] theorem modPtp_pan (s : State) (f : Ptp → Ptp) : (modPtp s f).pan = s.pan := rfl
@[simp] theorem modPtp_mem (s : State) (f : Ptp → Ptp) : (modPtp s f).mem = s.mem := rfl
@[simp] theorem modPtp_clk (s : State) (f : Ptp → Ptp) : (modPtp s f).clk = s.clk := rfl
@[simp] theorem modPtp_pwr (s : State) (f : Ptp → Ptp) : (modPtp s f).pwr = s.pwr := rfl
@[simp] theorem modPtp_ctl (s : State) (f : Ptp → Ptp) : (modPtp s f).ctl = s.ctl := rfl
@[simp] theorem modPtp_upd (s : State) (f : Ptp → Ptp) : (modPtp s f).upd = s.upd := rfl
@[simp] theorem modPtp_tco (s : State) (f : Ptp → Ptp) : (modPtp s f).tco = s.tco := rfl
@[simp] theorem modPtp_refs (s : State) (f : Ptp → Ptp) : (modPtp s f).refs = s.refs := rfl
@[simp] theorem modPtp_gbb (s : State) (f : Ptp → Ptp) : (modPtp s f).gbb = s.gbb := rfl
@[simp] theorem modPtp_tio (s : State) (f : Ptp → Ptp) : (modPtp s f).tio = s.tio := rfl
@[simp] theorem modPtp_svc (s : State) (f : Ptp → Ptp) : (modPtp s f).svc = s.svc := rfl
@[simp] theorem modPtp_ptp (s : State) (f : Ptp → Ptp) : (modPtp s f).ptp = f s.ptp := rfl
@[simp] theorem modPtp_eth (s : State) (f : Ptp → Ptp) : (modPtp s f).eth = s.eth := rfl
@[simp] theorem modPtp_lnk (s : State) (f : Ptp → Ptp) : (modPtp s f).lnk = s.lnk := rfl
@[simp] theorem modPtp_pair (s : State) (f : Ptp → Ptp) : (modPtp s f).pair = s.pair := rfl
@[simp] theorem modPtp_key (s : State) (f : Ptp → Ptp) : (modPtp s f).key = s.key := rfl

/-! modSvc -/
@[simp] theorem modSvc_pending (s : State) (f : Svc → Svc) : (modSvc s f).pending = s.pending := rfl
@[simp] theorem modSvc_now (s : State) (f : Svc → Svc) : (modSvc s f).now = s.now := rfl
@[simp] theorem modSvc_aon (s : State) (f : Svc → Svc) : (modSvc s f).aon = s.aon := rfl
@[simp] theorem modSvc_aonFrac (s : State) (f : Svc → Svc) : (modSvc s f).aonFrac = s.aonFrac := rfl
@[simp] theorem modSvc_freeCtr (s : State) (f : Svc → Svc) : (modSvc s f).freeCtr = s.freeCtr := rfl
@[simp] theorem modSvc_out (s : State) (f : Svc → Svc) : (modSvc s f).out = s.out := rfl
@[simp] theorem modSvc_words (s : State) (f : Svc → Svc) : (modSvc s f).words = s.words := rfl
@[simp] theorem modSvc_mismatch (s : State) (f : Svc → Svc) : (modSvc s f).mismatch = s.mismatch := rfl
@[simp] theorem modSvc_log (s : State) (f : Svc → Svc) : (modSvc s f).log = s.log := rfl
@[simp] theorem modSvc_hif (s : State) (f : Svc → Svc) : (modSvc s f).hif = s.hif := rfl
@[simp] theorem modSvc_glb (s : State) (f : Svc → Svc) : (modSvc s f).glb = s.glb := rfl
@[simp] theorem modSvc_perf (s : State) (f : Svc → Svc) : (modSvc s f).perf = s.perf := rfl
@[simp] theorem modSvc_pan (s : State) (f : Svc → Svc) : (modSvc s f).pan = s.pan := rfl
@[simp] theorem modSvc_mem (s : State) (f : Svc → Svc) : (modSvc s f).mem = s.mem := rfl
@[simp] theorem modSvc_clk (s : State) (f : Svc → Svc) : (modSvc s f).clk = s.clk := rfl
@[simp] theorem modSvc_pwr (s : State) (f : Svc → Svc) : (modSvc s f).pwr = s.pwr := rfl
@[simp] theorem modSvc_ctl (s : State) (f : Svc → Svc) : (modSvc s f).ctl = s.ctl := rfl
@[simp] theorem modSvc_upd (s : State) (f : Svc → Svc) : (modSvc s f).upd = s.upd := rfl
@[simp] theorem modSvc_tco (s : State) (f : Svc → Svc) : (modSvc s f).tco = s.tco := rfl
@[simp] theorem modSvc_refs (s : State) (f : Svc → Svc) : (modSvc s f).refs = s.refs := rfl
@[simp] theorem modSvc_gbb (s : State) (f : Svc → Svc) : (modSvc s f).gbb = s.gbb := rfl
@[simp] theorem modSvc_tio (s : State) (f : Svc → Svc) : (modSvc s f).tio = s.tio := rfl
@[simp] theorem modSvc_svc (s : State) (f : Svc → Svc) : (modSvc s f).svc = f s.svc := rfl
@[simp] theorem modSvc_ptp (s : State) (f : Svc → Svc) : (modSvc s f).ptp = s.ptp := rfl
@[simp] theorem modSvc_eth (s : State) (f : Svc → Svc) : (modSvc s f).eth = s.eth := rfl
@[simp] theorem modSvc_lnk (s : State) (f : Svc → Svc) : (modSvc s f).lnk = s.lnk := rfl
@[simp] theorem modSvc_pair (s : State) (f : Svc → Svc) : (modSvc s f).pair = s.pair := rfl
@[simp] theorem modSvc_key (s : State) (f : Svc → Svc) : (modSvc s f).key = s.key := rfl

/-! modGbb -/
@[simp] theorem modGbb_pending (s : State) (f : Gbb → Gbb) : (modGbb s f).pending = s.pending := rfl
@[simp] theorem modGbb_now (s : State) (f : Gbb → Gbb) : (modGbb s f).now = s.now := rfl
@[simp] theorem modGbb_aon (s : State) (f : Gbb → Gbb) : (modGbb s f).aon = s.aon := rfl
@[simp] theorem modGbb_aonFrac (s : State) (f : Gbb → Gbb) : (modGbb s f).aonFrac = s.aonFrac := rfl
@[simp] theorem modGbb_freeCtr (s : State) (f : Gbb → Gbb) : (modGbb s f).freeCtr = s.freeCtr := rfl
@[simp] theorem modGbb_out (s : State) (f : Gbb → Gbb) : (modGbb s f).out = s.out := rfl
@[simp] theorem modGbb_words (s : State) (f : Gbb → Gbb) : (modGbb s f).words = s.words := rfl
@[simp] theorem modGbb_mismatch (s : State) (f : Gbb → Gbb) : (modGbb s f).mismatch = s.mismatch := rfl
@[simp] theorem modGbb_log (s : State) (f : Gbb → Gbb) : (modGbb s f).log = s.log := rfl
@[simp] theorem modGbb_hif (s : State) (f : Gbb → Gbb) : (modGbb s f).hif = s.hif := rfl
@[simp] theorem modGbb_glb (s : State) (f : Gbb → Gbb) : (modGbb s f).glb = s.glb := rfl
@[simp] theorem modGbb_perf (s : State) (f : Gbb → Gbb) : (modGbb s f).perf = s.perf := rfl
@[simp] theorem modGbb_pan (s : State) (f : Gbb → Gbb) : (modGbb s f).pan = s.pan := rfl
@[simp] theorem modGbb_mem (s : State) (f : Gbb → Gbb) : (modGbb s f).mem = s.mem := rfl
@[simp] theorem modGbb_clk (s : State) (f : Gbb → Gbb) : (modGbb s f).clk = s.clk := rfl
@[simp] theorem modGbb_pwr (s : State) (f : Gbb → Gbb) : (modGbb s f).pwr = s.pwr := rfl
@[simp] theorem modGbb_ctl (s : State) (f : Gbb → Gbb) : (modGbb s f).ctl = s.ctl := rfl
@[simp] theorem modGbb_upd (s : State) (f : Gbb → Gbb) : (modGbb s f).upd = s.upd := rfl
@[simp] theorem modGbb_tco (s : State) (f : Gbb → Gbb) : (modGbb s f).tco = s.tco := rfl
@[simp] theorem modGbb_refs (s : State) (f : Gbb → Gbb) : (modGbb s f).refs = s.refs := rfl
@[simp] theorem modGbb_gbb (s : State) (f : Gbb → Gbb) : (modGbb s f).gbb = f s.gbb := rfl
@[simp] theorem modGbb_tio (s : State) (f : Gbb → Gbb) : (modGbb s f).tio = s.tio := rfl
@[simp] theorem modGbb_svc (s : State) (f : Gbb → Gbb) : (modGbb s f).svc = s.svc := rfl
@[simp] theorem modGbb_ptp (s : State) (f : Gbb → Gbb) : (modGbb s f).ptp = s.ptp := rfl
@[simp] theorem modGbb_eth (s : State) (f : Gbb → Gbb) : (modGbb s f).eth = s.eth := rfl
@[simp] theorem modGbb_lnk (s : State) (f : Gbb → Gbb) : (modGbb s f).lnk = s.lnk := rfl
@[simp] theorem modGbb_pair (s : State) (f : Gbb → Gbb) : (modGbb s f).pair = s.pair := rfl
@[simp] theorem modGbb_key (s : State) (f : Gbb → Gbb) : (modGbb s f).key = s.key := rfl

/-! modHif -/
@[simp] theorem modHif_pending (s : State) (f : Hif → Hif) : (modHif s f).pending = s.pending := rfl
@[simp] theorem modHif_now (s : State) (f : Hif → Hif) : (modHif s f).now = s.now := rfl
@[simp] theorem modHif_aon (s : State) (f : Hif → Hif) : (modHif s f).aon = s.aon := rfl
@[simp] theorem modHif_aonFrac (s : State) (f : Hif → Hif) : (modHif s f).aonFrac = s.aonFrac := rfl
@[simp] theorem modHif_freeCtr (s : State) (f : Hif → Hif) : (modHif s f).freeCtr = s.freeCtr := rfl
@[simp] theorem modHif_out (s : State) (f : Hif → Hif) : (modHif s f).out = s.out := rfl
@[simp] theorem modHif_words (s : State) (f : Hif → Hif) : (modHif s f).words = s.words := rfl
@[simp] theorem modHif_mismatch (s : State) (f : Hif → Hif) : (modHif s f).mismatch = s.mismatch := rfl
@[simp] theorem modHif_log (s : State) (f : Hif → Hif) : (modHif s f).log = s.log := rfl
@[simp] theorem modHif_hif (s : State) (f : Hif → Hif) : (modHif s f).hif = f s.hif := rfl
@[simp] theorem modHif_glb (s : State) (f : Hif → Hif) : (modHif s f).glb = s.glb := rfl
@[simp] theorem modHif_perf (s : State) (f : Hif → Hif) : (modHif s f).perf = s.perf := rfl
@[simp] theorem modHif_pan (s : State) (f : Hif → Hif) : (modHif s f).pan = s.pan := rfl
@[simp] theorem modHif_mem (s : State) (f : Hif → Hif) : (modHif s f).mem = s.mem := rfl
@[simp] theorem modHif_clk (s : State) (f : Hif → Hif) : (modHif s f).clk = s.clk := rfl
@[simp] theorem modHif_pwr (s : State) (f : Hif → Hif) : (modHif s f).pwr = s.pwr := rfl
@[simp] theorem modHif_ctl (s : State) (f : Hif → Hif) : (modHif s f).ctl = s.ctl := rfl
@[simp] theorem modHif_upd (s : State) (f : Hif → Hif) : (modHif s f).upd = s.upd := rfl
@[simp] theorem modHif_tco (s : State) (f : Hif → Hif) : (modHif s f).tco = s.tco := rfl
@[simp] theorem modHif_refs (s : State) (f : Hif → Hif) : (modHif s f).refs = s.refs := rfl
@[simp] theorem modHif_gbb (s : State) (f : Hif → Hif) : (modHif s f).gbb = s.gbb := rfl
@[simp] theorem modHif_tio (s : State) (f : Hif → Hif) : (modHif s f).tio = s.tio := rfl
@[simp] theorem modHif_svc (s : State) (f : Hif → Hif) : (modHif s f).svc = s.svc := rfl
@[simp] theorem modHif_ptp (s : State) (f : Hif → Hif) : (modHif s f).ptp = s.ptp := rfl
@[simp] theorem modHif_eth (s : State) (f : Hif → Hif) : (modHif s f).eth = s.eth := rfl
@[simp] theorem modHif_lnk (s : State) (f : Hif → Hif) : (modHif s f).lnk = s.lnk := rfl
@[simp] theorem modHif_pair (s : State) (f : Hif → Hif) : (modHif s f).pair = s.pair := rfl
@[simp] theorem modHif_key (s : State) (f : Hif → Hif) : (modHif s f).key = s.key := rfl

/-! modLnk -/
@[simp] theorem modLnk_pending (s : State) (f : Lnk → Lnk) : (modLnk s f).pending = s.pending := rfl
@[simp] theorem modLnk_now (s : State) (f : Lnk → Lnk) : (modLnk s f).now = s.now := rfl
@[simp] theorem modLnk_aon (s : State) (f : Lnk → Lnk) : (modLnk s f).aon = s.aon := rfl
@[simp] theorem modLnk_aonFrac (s : State) (f : Lnk → Lnk) : (modLnk s f).aonFrac = s.aonFrac := rfl
@[simp] theorem modLnk_freeCtr (s : State) (f : Lnk → Lnk) : (modLnk s f).freeCtr = s.freeCtr := rfl
@[simp] theorem modLnk_out (s : State) (f : Lnk → Lnk) : (modLnk s f).out = s.out := rfl
@[simp] theorem modLnk_words (s : State) (f : Lnk → Lnk) : (modLnk s f).words = s.words := rfl
@[simp] theorem modLnk_mismatch (s : State) (f : Lnk → Lnk) : (modLnk s f).mismatch = s.mismatch := rfl
@[simp] theorem modLnk_log (s : State) (f : Lnk → Lnk) : (modLnk s f).log = s.log := rfl
@[simp] theorem modLnk_hif (s : State) (f : Lnk → Lnk) : (modLnk s f).hif = s.hif := rfl
@[simp] theorem modLnk_glb (s : State) (f : Lnk → Lnk) : (modLnk s f).glb = s.glb := rfl
@[simp] theorem modLnk_perf (s : State) (f : Lnk → Lnk) : (modLnk s f).perf = s.perf := rfl
@[simp] theorem modLnk_pan (s : State) (f : Lnk → Lnk) : (modLnk s f).pan = s.pan := rfl
@[simp] theorem modLnk_mem (s : State) (f : Lnk → Lnk) : (modLnk s f).mem = s.mem := rfl
@[simp] theorem modLnk_clk (s : State) (f : Lnk → Lnk) : (modLnk s f).clk = s.clk := rfl
@[simp] theorem modLnk_pwr (s : State) (f : Lnk → Lnk) : (modLnk s f).pwr = s.pwr := rfl
@[simp] theorem modLnk_ctl (s : State) (f : Lnk → Lnk) : (modLnk s f).ctl = s.ctl := rfl
@[simp] theorem modLnk_upd (s : State) (f : Lnk → Lnk) : (modLnk s f).upd = s.upd := rfl
@[simp] theorem modLnk_tco (s : State) (f : Lnk → Lnk) : (modLnk s f).tco = s.tco := rfl
@[simp] theorem modLnk_refs (s : State) (f : Lnk → Lnk) : (modLnk s f).refs = s.refs := rfl
@[simp] theorem modLnk_gbb (s : State) (f : Lnk → Lnk) : (modLnk s f).gbb = s.gbb := rfl
@[simp] theorem modLnk_tio (s : State) (f : Lnk → Lnk) : (modLnk s f).tio = s.tio := rfl
@[simp] theorem modLnk_svc (s : State) (f : Lnk → Lnk) : (modLnk s f).svc = s.svc := rfl
@[simp] theorem modLnk_ptp (s : State) (f : Lnk → Lnk) : (modLnk s f).ptp = s.ptp := rfl
@[simp] theorem modLnk_eth (s : State) (f : Lnk → Lnk) : (modLnk s f).eth = s.eth := rfl
@[simp] theorem modLnk_lnk (s : State) (f : Lnk → Lnk) : (modLnk s f).lnk = f s.lnk := rfl
@[simp] theorem modLnk_pair (s : State) (f : Lnk → Lnk) : (modLnk s f).pair = s.pair := rfl
@[simp] theorem modLnk_key (s : State) (f : Lnk → Lnk) : (modLnk s f).key = s.key := rfl

/-! modPair -/
@[simp] theorem modPair_pending (s : State) (f : Pair → Pair) : (modPair s f).pending = s.pending := rfl
@[simp] theorem modPair_now (s : State) (f : Pair → Pair) : (modPair s f).now = s.now := rfl
@[simp] theorem modPair_aon (s : State) (f : Pair → Pair) : (modPair s f).aon = s.aon := rfl
@[simp] theorem modPair_aonFrac (s : State) (f : Pair → Pair) : (modPair s f).aonFrac = s.aonFrac := rfl
@[simp] theorem modPair_freeCtr (s : State) (f : Pair → Pair) : (modPair s f).freeCtr = s.freeCtr := rfl
@[simp] theorem modPair_out (s : State) (f : Pair → Pair) : (modPair s f).out = s.out := rfl
@[simp] theorem modPair_words (s : State) (f : Pair → Pair) : (modPair s f).words = s.words := rfl
@[simp] theorem modPair_mismatch (s : State) (f : Pair → Pair) : (modPair s f).mismatch = s.mismatch := rfl
@[simp] theorem modPair_log (s : State) (f : Pair → Pair) : (modPair s f).log = s.log := rfl
@[simp] theorem modPair_hif (s : State) (f : Pair → Pair) : (modPair s f).hif = s.hif := rfl
@[simp] theorem modPair_glb (s : State) (f : Pair → Pair) : (modPair s f).glb = s.glb := rfl
@[simp] theorem modPair_perf (s : State) (f : Pair → Pair) : (modPair s f).perf = s.perf := rfl
@[simp] theorem modPair_pan (s : State) (f : Pair → Pair) : (modPair s f).pan = s.pan := rfl
@[simp] theorem modPair_mem (s : State) (f : Pair → Pair) : (modPair s f).mem = s.mem := rfl
@[simp] theorem modPair_clk (s : State) (f : Pair → Pair) : (modPair s f).clk = s.clk := rfl
@[simp] theorem modPair_pwr (s : State) (f : Pair → Pair) : (modPair s f).pwr = s.pwr := rfl
@[simp] theorem modPair_ctl (s : State) (f : Pair → Pair) : (modPair s f).ctl = s.ctl := rfl
@[simp] theorem modPair_upd (s : State) (f : Pair → Pair) : (modPair s f).upd = s.upd := rfl
@[simp] theorem modPair_tco (s : State) (f : Pair → Pair) : (modPair s f).tco = s.tco := rfl
@[simp] theorem modPair_refs (s : State) (f : Pair → Pair) : (modPair s f).refs = s.refs := rfl
@[simp] theorem modPair_gbb (s : State) (f : Pair → Pair) : (modPair s f).gbb = s.gbb := rfl
@[simp] theorem modPair_tio (s : State) (f : Pair → Pair) : (modPair s f).tio = s.tio := rfl
@[simp] theorem modPair_svc (s : State) (f : Pair → Pair) : (modPair s f).svc = s.svc := rfl
@[simp] theorem modPair_ptp (s : State) (f : Pair → Pair) : (modPair s f).ptp = s.ptp := rfl
@[simp] theorem modPair_eth (s : State) (f : Pair → Pair) : (modPair s f).eth = s.eth := rfl
@[simp] theorem modPair_lnk (s : State) (f : Pair → Pair) : (modPair s f).lnk = s.lnk := rfl
@[simp] theorem modPair_pair (s : State) (f : Pair → Pair) : (modPair s f).pair = f s.pair := rfl
@[simp] theorem modPair_key (s : State) (f : Pair → Pair) : (modPair s f).key = s.key := rfl

/-! modPerf -/
@[simp] theorem modPerf_pending (s : State) (f : Perf → Perf) : (modPerf s f).pending = s.pending := rfl
@[simp] theorem modPerf_now (s : State) (f : Perf → Perf) : (modPerf s f).now = s.now := rfl
@[simp] theorem modPerf_aon (s : State) (f : Perf → Perf) : (modPerf s f).aon = s.aon := rfl
@[simp] theorem modPerf_aonFrac (s : State) (f : Perf → Perf) : (modPerf s f).aonFrac = s.aonFrac := rfl
@[simp] theorem modPerf_freeCtr (s : State) (f : Perf → Perf) : (modPerf s f).freeCtr = s.freeCtr := rfl
@[simp] theorem modPerf_out (s : State) (f : Perf → Perf) : (modPerf s f).out = s.out := rfl
@[simp] theorem modPerf_words (s : State) (f : Perf → Perf) : (modPerf s f).words = s.words := rfl
@[simp] theorem modPerf_mismatch (s : State) (f : Perf → Perf) : (modPerf s f).mismatch = s.mismatch := rfl
@[simp] theorem modPerf_log (s : State) (f : Perf → Perf) : (modPerf s f).log = s.log := rfl
@[simp] theorem modPerf_hif (s : State) (f : Perf → Perf) : (modPerf s f).hif = s.hif := rfl
@[simp] theorem modPerf_glb (s : State) (f : Perf → Perf) : (modPerf s f).glb = s.glb := rfl
@[simp] theorem modPerf_perf (s : State) (f : Perf → Perf) : (modPerf s f).perf = f s.perf := rfl
@[simp] theorem modPerf_pan (s : State) (f : Perf → Perf) : (modPerf s f).pan = s.pan := rfl
@[simp] theorem modPerf_mem (s : State) (f : Perf → Perf) : (modPerf s f).mem = s.mem := rfl
@[simp] theorem modPerf_clk (s : State) (f : Perf → Perf) : (modPerf s f).clk = s.clk := rfl
@[simp] theorem modPerf_pwr (s : State) (f : Perf → Perf) : (modPerf s f).pwr = s.pwr := rfl
@[simp] theorem modPerf_ctl (s : State) (f : Perf → Perf) : (modPerf s f).ctl = s.ctl := rfl
@[simp] theorem modPerf_upd (s : State) (f : Perf → Perf) : (modPerf s f).upd = s.upd := rfl
@[simp] theorem modPerf_tco (s : State) (f : Perf → Perf) : (modPerf s f).tco = s.tco := rfl
@[simp] theorem modPerf_refs (s : State) (f : Perf → Perf) : (modPerf s f).refs = s.refs := rfl
@[simp] theorem modPerf_gbb (s : State) (f : Perf → Perf) : (modPerf s f).gbb = s.gbb := rfl
@[simp] theorem modPerf_tio (s : State) (f : Perf → Perf) : (modPerf s f).tio = s.tio := rfl
@[simp] theorem modPerf_svc (s : State) (f : Perf → Perf) : (modPerf s f).svc = s.svc := rfl
@[simp] theorem modPerf_ptp (s : State) (f : Perf → Perf) : (modPerf s f).ptp = s.ptp := rfl
@[simp] theorem modPerf_eth (s : State) (f : Perf → Perf) : (modPerf s f).eth = s.eth := rfl
@[simp] theorem modPerf_lnk (s : State) (f : Perf → Perf) : (modPerf s f).lnk = s.lnk := rfl
@[simp] theorem modPerf_pair (s : State) (f : Perf → Perf) : (modPerf s f).pair = s.pair := rfl
@[simp] theorem modPerf_key (s : State) (f : Perf → Perf) : (modPerf s f).key = s.key := rfl

/-! modPwr -/
@[simp] theorem modPwr_pending (s : State) (f : Pwr → Pwr) : (modPwr s f).pending = s.pending := rfl
@[simp] theorem modPwr_now (s : State) (f : Pwr → Pwr) : (modPwr s f).now = s.now := rfl
@[simp] theorem modPwr_aon (s : State) (f : Pwr → Pwr) : (modPwr s f).aon = s.aon := rfl
@[simp] theorem modPwr_aonFrac (s : State) (f : Pwr → Pwr) : (modPwr s f).aonFrac = s.aonFrac := rfl
@[simp] theorem modPwr_freeCtr (s : State) (f : Pwr → Pwr) : (modPwr s f).freeCtr = s.freeCtr := rfl
@[simp] theorem modPwr_out (s : State) (f : Pwr → Pwr) : (modPwr s f).out = s.out := rfl
@[simp] theorem modPwr_words (s : State) (f : Pwr → Pwr) : (modPwr s f).words = s.words := rfl
@[simp] theorem modPwr_mismatch (s : State) (f : Pwr → Pwr) : (modPwr s f).mismatch = s.mismatch := rfl
@[simp] theorem modPwr_log (s : State) (f : Pwr → Pwr) : (modPwr s f).log = s.log := rfl
@[simp] theorem modPwr_hif (s : State) (f : Pwr → Pwr) : (modPwr s f).hif = s.hif := rfl
@[simp] theorem modPwr_glb (s : State) (f : Pwr → Pwr) : (modPwr s f).glb = s.glb := rfl
@[simp] theorem modPwr_perf (s : State) (f : Pwr → Pwr) : (modPwr s f).perf = s.perf := rfl
@[simp] theorem modPwr_pan (s : State) (f : Pwr → Pwr) : (modPwr s f).pan = s.pan := rfl
@[simp] theorem modPwr_mem (s : State) (f : Pwr → Pwr) : (modPwr s f).mem = s.mem := rfl
@[simp] theorem modPwr_clk (s : State) (f : Pwr → Pwr) : (modPwr s f).clk = s.clk := rfl
@[simp] theorem modPwr_pwr (s : State) (f : Pwr → Pwr) : (modPwr s f).pwr = f s.pwr := rfl
@[simp] theorem modPwr_ctl (s : State) (f : Pwr → Pwr) : (modPwr s f).ctl = s.ctl := rfl
@[simp] theorem modPwr_upd (s : State) (f : Pwr → Pwr) : (modPwr s f).upd = s.upd := rfl
@[simp] theorem modPwr_tco (s : State) (f : Pwr → Pwr) : (modPwr s f).tco = s.tco := rfl
@[simp] theorem modPwr_refs (s : State) (f : Pwr → Pwr) : (modPwr s f).refs = s.refs := rfl
@[simp] theorem modPwr_gbb (s : State) (f : Pwr → Pwr) : (modPwr s f).gbb = s.gbb := rfl
@[simp] theorem modPwr_tio (s : State) (f : Pwr → Pwr) : (modPwr s f).tio = s.tio := rfl
@[simp] theorem modPwr_svc (s : State) (f : Pwr → Pwr) : (modPwr s f).svc = s.svc := rfl
@[simp] theorem modPwr_ptp (s : State) (f : Pwr → Pwr) : (modPwr s f).ptp = s.ptp := rfl
@[simp] theorem modPwr_eth (s : State) (f : Pwr → Pwr) : (modPwr s f).eth = s.eth := rfl
@[simp] theorem modPwr_lnk (s : State) (f : Pwr → Pwr) : (modPwr s f).lnk = s.lnk := rfl
@[simp] theorem modPwr_pair (s : State) (f : Pwr → Pwr) : (modPwr s f).pair = s.pair := rfl
@[simp] theorem modPwr_key (s : State) (f : Pwr → Pwr) : (modPwr s f).key = s.key := rfl

/-! modPan -/
@[simp] theorem modPan_pending (s : State) (f : Pan → Pan) : (modPan s f).pending = s.pending := rfl
@[simp] theorem modPan_now (s : State) (f : Pan → Pan) : (modPan s f).now = s.now := rfl
@[simp] theorem modPan_aon (s : State) (f : Pan → Pan) : (modPan s f).aon = s.aon := rfl
@[simp] theorem modPan_aonFrac (s : State) (f : Pan → Pan) : (modPan s f).aonFrac = s.aonFrac := rfl
@[simp] theorem modPan_freeCtr (s : State) (f : Pan → Pan) : (modPan s f).freeCtr = s.freeCtr := rfl
@[simp] theorem modPan_out (s : State) (f : Pan → Pan) : (modPan s f).out = s.out := rfl
@[simp] theorem modPan_words (s : State) (f : Pan → Pan) : (modPan s f).words = s.words := rfl
@[simp] theorem modPan_mismatch (s : State) (f : Pan → Pan) : (modPan s f).mismatch = s.mismatch := rfl
@[simp] theorem modPan_log (s : State) (f : Pan → Pan) : (modPan s f).log = s.log := rfl
@[simp] theorem modPan_hif (s : State) (f : Pan → Pan) : (modPan s f).hif = s.hif := rfl
@[simp] theorem modPan_glb (s : State) (f : Pan → Pan) : (modPan s f).glb = s.glb := rfl
@[simp] theorem modPan_perf (s : State) (f : Pan → Pan) : (modPan s f).perf = s.perf := rfl
@[simp] theorem modPan_pan (s : State) (f : Pan → Pan) : (modPan s f).pan = f s.pan := rfl
@[simp] theorem modPan_mem (s : State) (f : Pan → Pan) : (modPan s f).mem = s.mem := rfl
@[simp] theorem modPan_clk (s : State) (f : Pan → Pan) : (modPan s f).clk = s.clk := rfl
@[simp] theorem modPan_pwr (s : State) (f : Pan → Pan) : (modPan s f).pwr = s.pwr := rfl
@[simp] theorem modPan_ctl (s : State) (f : Pan → Pan) : (modPan s f).ctl = s.ctl := rfl
@[simp] theorem modPan_upd (s : State) (f : Pan → Pan) : (modPan s f).upd = s.upd := rfl
@[simp] theorem modPan_tco (s : State) (f : Pan → Pan) : (modPan s f).tco = s.tco := rfl
@[simp] theorem modPan_refs (s : State) (f : Pan → Pan) : (modPan s f).refs = s.refs := rfl
@[simp] theorem modPan_gbb (s : State) (f : Pan → Pan) : (modPan s f).gbb = s.gbb := rfl
@[simp] theorem modPan_tio (s : State) (f : Pan → Pan) : (modPan s f).tio = s.tio := rfl
@[simp] theorem modPan_svc (s : State) (f : Pan → Pan) : (modPan s f).svc = s.svc := rfl
@[simp] theorem modPan_ptp (s : State) (f : Pan → Pan) : (modPan s f).ptp = s.ptp := rfl
@[simp] theorem modPan_eth (s : State) (f : Pan → Pan) : (modPan s f).eth = s.eth := rfl
@[simp] theorem modPan_lnk (s : State) (f : Pan → Pan) : (modPan s f).lnk = s.lnk := rfl
@[simp] theorem modPan_pair (s : State) (f : Pan → Pan) : (modPan s f).pair = s.pair := rfl
@[simp] theorem modPan_key (s : State) (f : Pan → Pan) : (modPan s f).key = s.key := rfl

/-! modRefs -/
@[simp] theorem modRefs_pending (s : State) (f : Refs → Refs) : (modRefs s f).pending = s.pending := rfl
@[simp] theorem modRefs_now (s : State) (f : Refs → Refs) : (modRefs s f).now = s.now := rfl
@[simp] theorem modRefs_aon (s : State) (f : Refs → Refs) : (modRefs s f).aon = s.aon := rfl
@[simp] theorem modRefs_aonFrac (s : State) (f : Refs → Refs) : (modRefs s f).aonFrac = s.aonFrac := rfl
@[simp] theorem modRefs_freeCtr (s : State) (f : Refs → Refs) : (modRefs s f).freeCtr = s.freeCtr := rfl
@[simp] theorem modRefs_out (s : State) (f : Refs → Refs) : (modRefs s f).out = s.out := rfl
@[simp] theorem modRefs_words (s : State) (f : Refs → Refs) : (modRefs s f).words = s.words := rfl
@[simp] theorem modRefs_mismatch (s : State) (f : Refs → Refs) : (modRefs s f).mismatch = s.mismatch := rfl
@[simp] theorem modRefs_log (s : State) (f : Refs → Refs) : (modRefs s f).log = s.log := rfl
@[simp] theorem modRefs_hif (s : State) (f : Refs → Refs) : (modRefs s f).hif = s.hif := rfl
@[simp] theorem modRefs_glb (s : State) (f : Refs → Refs) : (modRefs s f).glb = s.glb := rfl
@[simp] theorem modRefs_perf (s : State) (f : Refs → Refs) : (modRefs s f).perf = s.perf := rfl
@[simp] theorem modRefs_pan (s : State) (f : Refs → Refs) : (modRefs s f).pan = s.pan := rfl
@[simp] theorem modRefs_mem (s : State) (f : Refs → Refs) : (modRefs s f).mem = s.mem := rfl
@[simp] theorem modRefs_clk (s : State) (f : Refs → Refs) : (modRefs s f).clk = s.clk := rfl
@[simp] theorem modRefs_pwr (s : State) (f : Refs → Refs) : (modRefs s f).pwr = s.pwr := rfl
@[simp] theorem modRefs_ctl (s : State) (f : Refs → Refs) : (modRefs s f).ctl = s.ctl := rfl
@[simp] theorem modRefs_upd (s : State) (f : Refs → Refs) : (modRefs s f).upd = s.upd := rfl
@[simp] theorem modRefs_tco (s : State) (f : Refs → Refs) : (modRefs s f).tco = s.tco := rfl
@[simp] theorem modRefs_refs (s : State) (f : Refs → Refs) : (modRefs s f).refs = f s.refs := rfl
@[simp] theorem modRefs_gbb (s : State) (f : Refs → Refs) : (modRefs s f).gbb = s.gbb := rfl
@[simp] theorem modRefs_tio (s : State) (f : Refs → Refs) : (modRefs s f).tio = s.tio := rfl
@[simp] theorem modRefs_svc (s : State) (f : Refs → Refs) : (modRefs s f).svc = s.svc := rfl
@[simp] theorem modRefs_ptp (s : State) (f : Refs → Refs) : (modRefs s f).ptp = s.ptp := rfl
@[simp] theorem modRefs_eth (s : State) (f : Refs → Refs) : (modRefs s f).eth = s.eth := rfl
@[simp] theorem modRefs_lnk (s : State) (f : Refs → Refs) : (modRefs s f).lnk = s.lnk := rfl
@[simp] theorem modRefs_pair (s : State) (f : Refs → Refs) : (modRefs s f).pair = s.pair := rfl
@[simp] theorem modRefs_key (s : State) (f : Refs → Refs) : (modRefs s f).key = s.key := rfl

/-! modTco -/
@[simp] theorem modTco_pending (s : State) (f : Tco → Tco) : (modTco s f).pending = s.pending := rfl
@[simp] theorem modTco_now (s : State) (f : Tco → Tco) : (modTco s f).now = s.now := rfl
@[simp] theorem modTco_aon (s : State) (f : Tco → Tco) : (modTco s f).aon = s.aon := rfl
@[simp] theorem modTco_aonFrac (s : State) (f : Tco → Tco) : (modTco s f).aonFrac = s.aonFrac := rfl
@[simp] theorem modTco_freeCtr (s : State) (f : Tco → Tco) : (modTco s f).freeCtr = s.freeCtr := rfl
@[simp] theorem modTco_out (s : State) (f : Tco → Tco) : (modTco s f).out = s.out := rfl
@[simp] theorem modTco_words (s : State) (f : Tco → Tco) : (modTco s f).words = s.words := rfl
@[simp] theorem modTco_mismatch (s : State) (f : Tco → Tco) : (modTco s f).mismatch = s.mismatch := rfl
@[simp] theorem modTco_log (s : State) (f : Tco → Tco) : (modTco s f).log = s.log := rfl
@[simp] theorem modTco_hif (s : State) (f : Tco → Tco) : (modTco s f).hif = s.hif := rfl
@[simp] theorem modTco_glb (s : State) (f : Tco → Tco) : (modTco s f).glb = s.glb := rfl
@[simp] theorem modTco_perf (s : State) (f : Tco → Tco) : (modTco s f).perf = s.perf := rfl
@[simp] theorem modTco_pan (s : State) (f : Tco → Tco) : (modTco s f).pan = s.pan := rfl
@[simp] theorem modTco_mem (s : State) (f : Tco → Tco) : (modTco s f).mem = s.mem := rfl
@[simp] theorem modTco_clk (s : State) (f : Tco → Tco) : (modTco s f).clk = s.clk := rfl
@[simp] theorem modTco_pwr (s : State) (f : Tco → Tco) : (modTco s f).pwr = s.pwr := rfl
@[simp] theorem modTco_ctl (s : State) (f : Tco → Tco) : (modTco s f).ctl = s.ctl := rfl
@[simp] theorem modTco_upd (s : State) (f : Tco → Tco) : (modTco s f).upd = s.upd := rfl
@[simp] theorem modTco_tco (s : State) (f : Tco → Tco) : (modTco s f).tco = f s.tco := rfl
@[simp] theorem modTco_refs (s : State) (f : Tco → Tco) : (modTco s f).refs = s.refs := rfl
@[simp] theorem modTco_gbb (s : State) (f : Tco → Tco) : (modTco s f).gbb = s.gbb := rfl
@[simp] theorem modTco_tio (s : State) (f : Tco → Tco) : (modTco s f).tio = s.tio := rfl
@[simp] theorem modTco_svc (s : State) (f : Tco → Tco) : (modTco s f).svc = s.svc := rfl
@[simp] theorem modTco_ptp (s : State) (f : Tco → Tco) : (modTco s f).ptp = s.ptp := rfl
@[simp] theorem modTco_eth (s : State) (f : Tco → Tco) : (modTco s f).eth = s.eth := rfl
@[simp] theorem modTco_lnk (s : State) (f : Tco → Tco) : (modTco s f).lnk = s.lnk := rfl
@[simp] theorem modTco_pair (s : State) (f : Tco → Tco) : (modTco s f).pair = s.pair := rfl
@[simp] theorem modTco_key (s : State) (f : Tco → Tco) : (modTco s f).key = s.key := rfl

/-! modTio -/
@[simp] theorem modTio_pending (s : State) (f : Tio → Tio) : (modTio s f).pending = s.pending := rfl
@[simp] theorem modTio_now (s : State) (f : Tio → Tio) : (modTio s f).now = s.now := rfl
@[simp] theorem modTio_aon (s : State) (f : Tio → Tio) : (modTio s f).aon = s.aon := rfl
@[simp] theorem modTio_aonFrac (s : State) (f : Tio → Tio) : (modTio s f).aonFrac = s.aonFrac := rfl
@[simp] theorem modTio_freeCtr (s : State) (f : Tio → Tio) : (modTio s f).freeCtr = s.freeCtr := rfl
@[simp] theorem modTio_out (s : State) (f : Tio → Tio) : (modTio s f).out = s.out := rfl
@[simp] theorem modTio_words (s : State) (f : Tio → Tio) : (modTio s f).words = s.words := rfl
@[simp] theorem modTio_mismatch (s : State) (f : Tio → Tio) : (modTio s f).mismatch = s.mismatch := rfl
@[simp] theorem modTio_log (s : State) (f : Tio → Tio) : (modTio s f).log = s.log := rfl
@[simp] theorem modTio_hif (s : State) (f : Tio → Tio) : (modTio s f).hif = s.hif := rfl
@[simp] theorem modTio_glb (s : State) (f : Tio → Tio) : (modTio s f).glb = s.glb := rfl
@[simp] theorem modTio_perf (s : State) (f : Tio → Tio) : (modTio s f).perf = s.perf := rfl
@[simp] theorem modTio_pan (s : State) (f : Tio → Tio) : (modTio s f).pan = s.pan := rfl
@[simp] theorem modTio_mem (s : State) (f : Tio → Tio) : (modTio s f).mem = s.mem := rfl
@[simp] theorem modTio_clk (s : State) (f : Tio → Tio) : (modTio s f).clk = s.clk := rfl
@[simp] theorem modTio_pwr (s : State) (f : Tio → Tio) : (modTio s f).pwr = s.pwr := rfl
@[simp] theorem modTio_ctl (s : State) (f : Tio → Tio) : (modTio s f).ctl = s.ctl := rfl
@[simp] theorem modTio_upd (s : State) (f : Tio → Tio) : (modTio s f).upd = s.upd := rfl
@[simp] theorem modTio_tco (s : State) (f : Tio → Tio) : (modTio s f).tco = s.tco := rfl
@[simp] theorem modTio_refs (s : State) (f : Tio → Tio) : (modTio s f).refs = s.refs := rfl
@[simp] theorem modTio_gbb (s : State) (f : Tio → Tio) : (modTio s f).gbb = s.gbb := rfl
@[simp] theorem modTio_tio (s : State) (f : Tio → Tio) : (modTio s f).tio = f s.tio := rfl
@[simp] theorem modTio_svc (s : State) (f : Tio → Tio) : (modTio s f).svc = s.svc := rfl
@[simp] theorem modTio_ptp (s : State) (f : Tio → Tio) : (modTio s f).ptp = s.ptp := rfl
@[simp] theorem modTio_eth (s : State) (f : Tio → Tio) : (modTio s f).eth = s.eth := rfl
@[simp] theorem modTio_lnk (s : State) (f : Tio → Tio) : (modTio s f).lnk = s.lnk := rfl
@[simp] theorem modTio_pair (s : State) (f : Tio → Tio) : (modTio s f).pair = s.pair := rfl
@[simp] theorem modTio_key (s : State) (f : Tio → Tio) : (modTio s f).key = s.key := rfl

/-! modUpd -/
@[simp] theorem modUpd_pending (s : State) (f : Upd → Upd) : (modUpd s f).pending = s.pending := rfl
@[simp] theorem modUpd_now (s : State) (f : Upd → Upd) : (modUpd s f).now = s.now := rfl
@[simp] theorem modUpd_aon (s : State) (f : Upd → Upd) : (modUpd s f).aon = s.aon := rfl
@[simp] theorem modUpd_aonFrac (s : State) (f : Upd → Upd) : (modUpd s f).aonFrac = s.aonFrac := rfl
@[simp] theorem modUpd_freeCtr (s : State) (f : Upd → Upd) : (modUpd s f).freeCtr = s.freeCtr := rfl
@[simp] theorem modUpd_out (s : State) (f : Upd → Upd) : (modUpd s f).out = s.out := rfl
@[simp] theorem modUpd_words (s : State) (f : Upd → Upd) : (modUpd s f).words = s.words := rfl
@[simp] theorem modUpd_mismatch (s : State) (f : Upd → Upd) : (modUpd s f).mismatch = s.mismatch := rfl
@[simp] theorem modUpd_log (s : State) (f : Upd → Upd) : (modUpd s f).log = s.log := rfl
@[simp] theorem modUpd_hif (s : State) (f : Upd → Upd) : (modUpd s f).hif = s.hif := rfl
@[simp] theorem modUpd_glb (s : State) (f : Upd → Upd) : (modUpd s f).glb = s.glb := rfl
@[simp] theorem modUpd_perf (s : State) (f : Upd → Upd) : (modUpd s f).perf = s.perf := rfl
@[simp] theorem modUpd_pan (s : State) (f : Upd → Upd) : (modUpd s f).pan = s.pan := rfl
@[simp] theorem modUpd_mem (s : State) (f : Upd → Upd) : (modUpd s f).mem = s.mem := rfl
@[simp] theorem modUpd_clk (s : State) (f : Upd → Upd) : (modUpd s f).clk = s.clk := rfl
@[simp] theorem modUpd_pwr (s : State) (f : Upd → Upd) : (modUpd s f).pwr = s.pwr := rfl
@[simp] theorem modUpd_ctl (s : State) (f : Upd → Upd) : (modUpd s f).ctl = s.ctl := rfl
@[simp] theorem modUpd_upd (s : State) (f : Upd → Upd) : (modUpd s f).upd = f s.upd := rfl
@[simp] theorem modUpd_tco (s : State) (f : Upd → Upd) : (modUpd s f).tco = s.tco := rfl
@[simp] theorem modUpd_refs (s : State) (f : Upd → Upd) : (modUpd s f).refs = s.refs := rfl
@[simp] theorem modUpd_gbb (s : State) (f : Upd → Upd) : (modUpd s f).gbb = s.gbb := rfl
@[simp] theorem modUpd_tio (s : State) (f : Upd → Upd) : (modUpd s f).tio = s.tio := rfl
@[simp] theorem modUpd_svc (s : State) (f : Upd → Upd) : (modUpd s f).svc = s.svc := rfl
@[simp] theorem modUpd_ptp (s : State) (f : Upd → Upd) : (modUpd s f).ptp = s.ptp := rfl
@[simp] theorem modUpd_eth (s : State) (f : Upd → Upd) : (modUpd s f).eth = s.eth := rfl
@[simp] theorem modUpd_lnk (s : State) (f : Upd → Upd) : (modUpd s f).lnk = s.lnk := rfl
@[simp] theorem modUpd_pair (s : State) (f : Upd → Upd) : (modUpd s f).pair = s.pair := rfl
@[simp] theorem modUpd_key (s : State) (f : Upd → Upd) : (modUpd s f).key = s.key := rfl

end Sys2Proof.Machine
end

