-- ==== Sys2Proof/Laws/Tick.lean ====
section
/-! SUPPORT. What each operation of Machine/Tick.lean can touch, once for each. -/
set_option linter.unusedTactic false
set_option linter.unreachableTactic false
namespace Sys2Proof.Laws
open Sys2Proof
open Sys2Proof.Machine
open Sys2Proof.Safety

theorem set_time_only (s : State) (n a f : Nat) : Only [.time] s { s with now := n, aon := a, aonFrac := f } :=
  Only.of (fun p hp => by cases p <;> first | exact absurd (by decide) hp | simp [Part.same]) rfl rfl
theorem aonAdvance_only (s : State) (n : Nat) : Only [.time, .cnt] s (aonAdvance s n) := by
  have h : ∀ a f, Only [.time, .cnt] s { s with aon := a, aonFrac := f } := fun a f => Only.mono (set_time_only s s.now a f) (by decide)
  exact Only.ite (fun _ => Only.step (h _ _) (perfAdd_only ..) (by decide)) (fun _ => h _ _)

theorem tickCycles_only (s : State)  : Only [.cnt] s (tickCycles s) := by
  unfold tickCycles
  repeat' first
    | ((fail_if_no_progress extract_lets +onlyGivenNames x); refine Only.cut (L := [.cnt]) (s := s) (x := x) ?_ ?_; rotate_left; intro hx; clear_value x; rotate_left; dsimp only [x])
    | ((fail_if_no_progress extract_lets +onlyGivenNames x); refine Only.named (b := x.not) ?_; clear_value x)
    | (fail_if_no_progress extract_lets +onlyGivenNames x)
    | (with_reducible apply Only.foldl; (intro _ _ _))
    | (with_reducible apply Only.foldlFst; (intro _ _ _))
    | with_reducible apply Only.refl
    | with_reducible assumption
    | (with_reducible apply Only.ite <;> intro _)
    | with_reducible (apply Only.step (M := [.cnt]); rotate_left; apply perfAdd_only; decide)
    | with_reducible (refine Only.sndEq (by assumption) ?_)
    | with_reducible (refine Only.fstEq (by assumption) ?_)
    | dsimp only
    | dsimp +zetaDelta only
    | split
    | (clear_value *; split)

theorem mainTick_only (s : State)  : Only [.tco, .gbb, .pan, .cnt] s (mainTick s) := by
  unfold mainTick
  repeat' first
    | ((fail_if_no_progress extract_lets +onlyGivenNames x); refine Only.cut (L := [.tco, .gbb, .pan, .cnt]) (s := s) (x := x) ?_ ?_; rotate_left; intro hx; clear_value x; rotate_left; dsimp only [x])
    | ((fail_if_no_progress extract_lets +onlyGivenNames x); refine Only.named (b := x.not) ?_; clear_value x)
    | (fail_if_no_progress extract_lets +onlyGivenNames x)
    | with_reducible apply Only.refl
    | with_reducible assumption
    | (with_reducible apply Only.ite <;> intro _)
    | with_reducible (apply Only.step (M := [.gbb]); rotate_left; apply fixReadyAll_only; decide)
    | with_reducible (apply Only.step (M := [.cnt]); rotate_left; apply tickCycles_only; decide)
    | with_reducible (apply Only.step (M := [.tco]); rotate_left; apply tickCounter_only; decide)
    | with_reducible (apply Only.step (M := [.pan]); rotate_left; apply modFig_only; decide)
    | with_reducible (refine Only.sndEq (by assumption) ?_)
    | with_reducible (refine Only.fstEq (by assumption) ?_)
    | dsimp only
    | dsimp +zetaDelta only
    | split
    | (clear_value *; split)

theorem tcoLater_only (s : State) : Only [.pending, .tco] s (tcoLater s) := by
  unfold tcoLater
  refine Only.ite (fun _ => Only.refl _ _) (fun _ => ?_)
  exact Only.step (Only.mono (modTco_only s _ (by rfl)) (by decide)) (set_pending_only _ _) (by decide)

theorem idleTick_only (s : State) : Only [.pending, .time, .out, .glb, .pwr, .tco, .refs, .gbb, .svc, .ptp, .eth, .pan, .log, .line, .pair, .links, .lnk, .rings, .hif, .cnt, .outs] s (idleTick s) := by
  unfold idleTick
  refine Only.ite (fun _ => ?_) (fun _ => ?_)
  · have h : Only [.pending, .time, .out, .glb, .pwr, .tco, .refs, .gbb, .svc, .ptp, .eth, .pan, .log, .line, .pair, .links, .lnk, .rings, .hif, .cnt, .outs] s (aonAdvance s (toAonCycle s)) := Only.mono (aonAdvance_only ..) (by decide)
    exact Only.step h (set_time_only _ _ _ _) (by decide)
  · have h : Only [.pending, .time, .out, .glb, .pwr, .tco, .refs, .gbb, .svc, .ptp, .eth, .pan, .log, .line, .pair, .links, .lnk, .rings, .hif, .cnt, .outs] s (if timeRuns s then mainTick s else s) :=
      Only.ite (fun _ => Only.mono (mainTick_only s) (by decide)) (fun _ => Only.refl _ _)
    generalize (if timeRuns s then mainTick s else s) = a at h ⊢
    have h3 : Only [.pending, .time, .out, .glb, .pwr, .tco, .refs, .gbb, .svc, .ptp, .eth, .pan, .log, .line, .pair, .links, .lnk, .rings, .hif, .cnt, .outs] s (aonAdvance a 1) := Only.step h (aonAdvance_only a 1) (by decide)
    dsimp only
    generalize aonAdvance a 1 = c at h3 ⊢
    have h2 : Only [.pending, .time, .out, .glb, .pwr, .tco, .refs, .gbb, .svc, .ptp, .eth, .pan, .log, .line, .pair, .links, .lnk, .rings, .hif, .cnt, .outs] s { c with now := a.now + 1 } := Only.step h3 (set_time_only c (a.now + 1) c.aon c.aonFrac) (by decide)
    have h4 := Only.step h2 (tcoLater_only _) (by decide)
    generalize tcoLater { c with now := a.now + 1 } = d at h4 ⊢
    refine Only.step (M := [.out, .pwr, .tco, .refs, .svc, .ptp, .eth, .pan, .log, .line, .pair, .links, .lnk, .rings, .hif, .cnt, .outs]) ?_ (transEval_only _) (by decide)
    exact Only.ite (fun _ => Only.step h4 (mbxReady_only _) (by decide)) (fun _ => h4)

end Sys2Proof.Laws
end

