-- ==== Sys2Proof/WellFormed.lean ====
section
/-! DEFINITION. Which commands can arrive: the limits that the spec puts on what a command or an event carries, and the
lengths of host memory that a command reads. A command outside them has a meaning too; none of them arrives. -/
namespace Sys2Proof

/-- PCIe generations 1 to 5 and widths of 1, 2, 4 or 8 lanes, or no link (R426, R457). -/
def pcieOk (gen width : BitVec 4) : Bool :=
  decide (gen.toNat ≤ 5) && (width = 0 || width = 1 || width = 2 || width = 4 || width = 8)

/-- A start's inputs: the board presents a PCIe link that exists (R426, R502). -/
def StartIn.wf (i : StartIn) : Bool := pcieOk i.gen i.width

/-- A frame on a Colol link: data in words of 4 bytes and no longer than a frame holds (R328, R349, R537), and a pairing
    statement of 176 bytes before its signature (R370, R404). -/
def LinkBody.wf : LinkBody → Bool
  | .tunnel _ _ _ (.dmaWr _ d) => d.length % 4 = 0 && decide (4 ≤ d.length) && decide (d.length ≤ 512)
  | .tunnel _ _ _ (.dmaCpl _ _ _ d) => d.length % 4 = 0 && decide (d.length ≤ 512)
  | .updData _ d => decide (d.length ≤ 1020)
  | .pairAttest _ _ stmt _ => stmt.length = 176
  | .slotReq _ r => decide (r.length ≤ 32)
  | .slotAssign _ _ _ r => decide (r.length ≤ 32)
  | .shelfReq _ _ r => decide (r.length ≤ 32)
  | .shelfAssign _ _ r => decide (r.length ≤ 32)
  | .unknown _ _ n => n % 4 = 0 && decide (n ≤ 1024)
  | _ => true

/-- A PTP message's timestamp field holds 48-bit seconds and nanoseconds below 10^9 (R255, R277). -/
def PtpMsg.wf (m : PtpMsg) : Bool := decide (m.tsSec < 2 ^ 48) && decide (m.tsNs < 1000000000)

/-- A received frame: its bytes, where given, are LEN less the FCS (R294, R449). -/
def EthFrame.wf (f : EthFrame) : Bool :=
  (f.raw.isEmpty || f.raw.length + 4 = f.len) &&
  (match f.body with
    | .ptpUdp _ _ _ m => m.wf
    | .ptpEth m => m.wf
    | _ => true)

/-- Commands that can arrive. -/
def Instr.wf : Instr → Bool
  | .registerRead _ len => decide (1 ≤ len)
  | .registerWrite _ data => !data.isEmpty
  | .doorbell off _ => decide (off < 0x100000) && off % 4 = 0
  | .remoteWindowAccess off _ _ => decide (off < 0x200000) && off % 4 = 0
  | .bar2Access off _ len => decide (off + len ≤ 0x10000) && decide (1 ≤ len)
  | .flr _ gen width => pcieOk gen width
  | .porRelease i => i.wf
  | .softReset i => i.wf
  | .updActivateReset i => i.wf
  | .updActivate _ _ _ i => i.wf
  | .updWrite _ _ len _ data => data.length = len.toNat
  | .keyImport _ _ _ _ len blob => blob.length = len.toNat
  | .keyDerive _ _ _ _ _ _ len ctx => ctx.length = len.toNat
  | .keyAttest _ _ _ _ nonce => nonce.length = 32
  | .keySign _ _ _ _ digest => digest.length = 48
  | .pairBegin _ _ _ hash => hash.length = 48
  | .measLatch obs => (obs.map fun o => o.chan).eraseDups.length = obs.length
  | .monitorUpdate ppt => (ppt.map Prod.fst).eraseDups.length = ppt.length
  | .linkFrameRx _ _ _ f => !f.crcOk || !f.lenOk || f.body.wf
  | .frameReceive _ _ _ _ _ _ f => f.wf
  | .wakeMatch f => f.wf
  | _ => true

end Sys2Proof
end

