-- ==== Sys2Proof/Tests/Slice0.lean ====
section
/-! SUPPORT. Tests: ill-formed terms that WellFormed refuses, values worked out by hand from the spec, and for every
clause of a statement that has hypotheses a state and operands that meet them together. -/
namespace Sys2Proof.Tests
open Sys2Proof
open Sys2Proof.Machine
open Sys2Proof.Safety

set_option maxRecDepth 10000

/-! ## States for witnesses and tests -/

/-- The header of a host command. -/
def hd0 : Hdr := { ring := 0, tag := 5, noirq := false }

/-- Registers written on a state. -/
def w (s : State) (l : List (Nat × Nat)) : State := l.foldl (fun s p => putW s p.1 (BitVec.ofNat 32 p.2)) s

/-- READY in Boil on a PCIe host, 2,000 s after reset. -/
def up : State :=
  { State.reset with
    now := 1000000000000
    pwr := { State.reset.pwr with phase := .ready, state := .boil }
    glb := { State.reset.glb with pcie := true }
    hif := { State.reset.hif with linkUp := true }
    ctl := { State.reset.ctl with run := Vector.replicate 4 2 } }

/-- The same in Warm. -/
def warm : State := { up with pwr := { up.pwr with state := .warm } }

/-- A ring of 64 entries that runs. -/
def ringOn (s : State) (r : Nat) : State := w s [(indKey .hif 1 (8 * r + 4), 262), (Rg.hifCtrl, 1)]

def withRing (s : State) (r : Nat) (k : Ring) : State := { s with hif := { s.hif with rings := vset s.hif.rings r k } }

def withBlk (s : State) (b : Blk) (k : BlkStat) : State := modBlk s b fun _ => k

def withSlot (s : State) (i : Fin 16) (f : Slot → Slot) : State := modSlot s i f

def withChan (c : Chan) : State := { w up [(Rg.gbbCtrl, 1)] with gbb := { up.gbb with chans := [(3, c)] } }

def withInst (s : State) (k : Inst) : State := { s with ptp := { s.ptp with insts := s.ptp.insts.set 1 k } }

def withPort (s : State) (p : Fin 9) (k : EthPort) : State := { s with eth := { s.eth with ports := s.eth.ports.set p k } }

def withLink (s : State) (k : Link) : State := { s with lnk := { s.lnk with links := s.lnk.links.set 1 k } }

/-- A key slot 5 with an attribute word, in a KEYED store that serves its slots. -/
def withKey (attr : BitVec 32) : State :=
  { w up [(Rg.keyCtrl, 1)] with key := { up.key with store := .keyed, root := some 7, slots := [(5, { attr := attr, key := 99 })] } }

/-- A link in PAIR role that is up, and the unit paired. -/
def paired : State :=
  withLink { up with pair := { up.pair with st := .ready, hbAt := 0, heardAt := 0, refreshAt := 0, partner := { up.pair.partner with seen := true, pstate := 4 } } }
    { up.lnk.links[1] with st := .up, role := .pair }

def holder : State := { paired with pair := { paired.pair with holding := true, drive := true, line := false, st := .seeking } }

def swapOf (incoming accepted checked driven handed : Bool) : Swap :=
  { h := 0, incoming := incoming, accepted := accepted, checked := checked, driven := driven, handed := handed, host := none }

def swapping (s : State) (x : Swap) : State := { s with pair := { s.pair with swap := some x }, tco := { s.tco with counter := 1000 * unitsPerSec } }

def start0 : StartIn :=
  { rails := true, vbatLost := false, preferred := true, bootSrc := 0, pcie := true, refCount := 312500, junction := 400, railOk := 255, verified := 255,
    gen := 4, width := 4, selfOk := true, ms := 100 }

def frame0 : EthFrame :=
  { len := 40, codeOk := true, fcsOk := true, dst := 0, src := 0, tags := [], body := .other 0 none, raw := [] }

/-- READY with MDLL-T locked. -/
def upT : State := { up with clk := { up.clk with loops := Vector.replicate 4 { Loop.reset with locked := true } } }

/-- Slot 3 held with a qualified measurement, REFS steering allowed. -/
def lockedUp (l : List (Nat × Nat)) : State :=
  { w up ((Rg.refsCtrl, 1) :: l) with
    refs := { up.refs with timeSlot := some 3 }
    tco := { up.tco with lockSlot := 3, lockUntil := some 2000000000000 } }

/-- The holder with its mirror ready. -/
def holderR : State := { holder with pair := { holder.pair with st := .ready } }

/-! ## Commands that cannot arrive: one ill-formed term for each check of WellFormed -/

theorem test_wf_read_of_no_byte : (Instr.registerRead 0 0).wf = false := by decide
theorem test_wf_write_of_no_byte : (Instr.registerWrite 0 []).wf = false := by decide
theorem test_wf_doorbell_outside : (Instr.doorbell 0x100000 0).wf = false := by decide
theorem test_wf_doorbell_unaligned : (Instr.doorbell 2 0).wf = false := by decide
theorem test_wf_window_outside : (Instr.remoteWindowAccess 0x200000 15 none).wf = false := by decide
theorem test_wf_window_unaligned : (Instr.remoteWindowAccess 1 15 none).wf = false := by decide
theorem test_wf_bar2_outside : (Instr.bar2Access 0xFFFE none 4).wf = false := by decide
theorem test_wf_bar2_empty : (Instr.bar2Access 0 none 0).wf = false := by decide
theorem test_wf_flr_generation : (Instr.flr false 6 4).wf = false := by decide
theorem test_wf_flr_width : (Instr.flr false 4 3).wf = false := by decide
theorem test_wf_por_width : (Instr.porRelease { start0 with width := 5 }).wf = false := by decide
theorem test_wf_soft_reset_width : (Instr.softReset { start0 with width := 5 }).wf = false := by decide
theorem test_wf_activate_reset_width : (Instr.updActivateReset { start0 with width := 5 }).wf = false := by decide
theorem test_wf_activate_width : (Instr.updActivate hd0 0 0 { start0 with width := 5 }).wf = false := by decide
theorem test_wf_upd_data : (Instr.updWrite hd0 0 4 0 [1, 2, 3]).wf = false := by decide
theorem test_wf_import_blob : (Instr.keyImport hd0 3 1 0 2 [1]).wf = false := by decide
theorem test_wf_derive_context : (Instr.keyDerive hd0 3 1 0 0 0 2 [1]).wf = false := by decide
theorem test_wf_attest_nonce : (Instr.keyAttest hd0 3 0 0 []).wf = false := by decide
theorem test_wf_sign_digest : (Instr.keySign hd0 3 0 0 [1]).wf = false := by decide
theorem test_wf_pair_hash : (Instr.pairBegin hd0 3 0 [1]).wf = false := by decide
theorem test_wf_latch_twice :
    (Instr.measLatch [⟨7, [], 0, 0, false, 0, 0⟩, ⟨7, [], 0, 0, false, 0, 0⟩]).wf = false := by decide
theorem test_wf_monitor_twice : (Instr.monitorUpdate [(3, 1), (3, 2)]).wf = false := by decide
theorem test_wf_link_body : (Instr.linkFrameRx 0 0 [] ⟨0, 0, true, true, .tunnel 0 0 0 (.dmaWr 0 [1, 2, 3])⟩).wf = false := by decide
theorem test_wf_link_statement : (LinkBody.pairAttest 0 0 [] 0).wf = false := by decide
theorem test_wf_frame_bytes : (Instr.frameReceive 0 0 true 0 0 [] { frame0 with raw := [1, 2] }).wf = false := by decide
theorem test_wf_wake_bytes : (Instr.wakeMatch { frame0 with raw := [1, 2] }).wf = false := by decide
theorem test_wf_ptp_nanoseconds : ({ ptpMsg up 0 0 .sync 0 0 with tsNs := 1000000000 } : PtpMsg).wf = false := by decide
theorem test_wf_frame_accepted : (Instr.frameReceive 0 0 true 0 0 [] frame0).wf = true := by decide

/-! ## Values worked out by hand from the spec's tables and formulas -/

/-- What an answer's next state shows. -/
def shows (a : Ans) (p : State → Bool) : Bool := match a with | .next t => p t | _ => false

/-- R42: 5 units of 62.5 ps are 2 of TEB30, and 0xFFFFFFF8 is still a bound. -/
theorem test_teb30 : teb30 5 = 2 ∧ teb30 0xFFFFFFF8 = 0x3FFFFFFE ∧ teb30 0xFFFFFFF9 = 0x3FFFFFFF := by decide

/-- R44: 5 s and 1 ns are 5,000,000,001 − 2^32 = 705,032,705. -/
theorem test_ts32 : ts32Of (5 * unitsPerSec + 2 ^ 48) = 705032705 := by decide

/-- R31: one tick adds 2 ns and W: 2 ns are 2^49 units. -/
theorem test_tick : shows (step { up with clk := { up.clk with loops := up.clk.loops.set 0 { Loop.reset with locked := true } }, tco := { up.tco with w := 1000 } }) (fun t => t.tco.counter = 562949953421312 + 1000) = true := by decide

/-- R603: 1 ns below 0 is 999,999,999 ns in second 2^48 − 1. -/
theorem test_step_below_zero : shows (exec (.timeStep hd0 0xFFFFFFFFFFFFFFFF 0) up) (fun t =>
    secOf t.tco.counter = 281474976710655 ∧ nsOf t.tco.counter = 999999999) = true := by decide

/-- R37: a step of 1 ns adds 16 units of 62.5 ps to the TEB. -/
theorem test_step_teb : shows (exec (.timeStep hd0 1 0) { up with tco := { up.tco with teb := 100 } }) (fun t => t.tco.teb = 116) = true := by decide

/-- R442, R71: TIME_SET of 10^9 ns is BAD_ARG. -/
theorem test_time_set_bad : shows (exec (.timeSet hd0 1 1000000000 0 0) up) (fun t =>
    (t.hif.done.head?.map Done.status) = some Status.badArg ∧ t.tco.counter = 0) = true := by decide

/-- R438 to R441: a command's header is taken from bytes 1 to 3 of its descriptor: opcode 0x20, NOIRQ, tag 0x1234. -/
theorem test_fetch_header : shows (exec (.commandFetch 0 0x12340220) { withRing (w up [(indKey .hif 1 4, 262), (indKey .hif 1 36, 262), (Rg.hifCtrl, 1)]) 0
    { Ring.reset with host := 1 } with glb := up.glb }) (fun t => t.hif.inflight = [({ ring := 0, tag := 0x1234, noirq := true }, 0x20)]) = true := by decide

/-- R435: a doorbell one past a full ring of 64 entries is counted and moves nothing. -/
theorem test_doorbell_range : shows (exec (.doorbell 0 65) (ringOn up 0)) (fun t =>
    (ring t 0).host = 0 ∧ t.hif.cnt = vmod up.hif.cnt 1 (· + 1)) = true := by decide

/-- R466: a unit of a region that is down reads all ones. -/
theorem test_down_reads_ones : shows (exec (.registerRead 0x60000 4) { up with pwr := { up.pwr with phase := .waitRef } })
    (fun t => t.out.head? = some (.read 0x60000 0xFFFFFFFF)) = true := by decide

/-- R463: a read of two bytes is a narrow read: it returns 0. -/
theorem test_narrow_read : shows (exec (.registerRead 0x20000 2) up) (fun t => t.out.head? = some (.read 0x20000 0)) = true := by decide

/-- R504: any value but the key is ignored. -/
theorem test_swrst_key : shows (exec (.pwrSwrstWrite 0x71205A5B) up) (fun t => t.pwr.swrst = none) = true ∧
    shows (exec (.pwrSwrstWrite 0x71205A5A) up) (fun t => t.pwr.swrst = some (1000000000000 + 500)) = true := by decide

/-- R492: Off to Boil is no transition that POWER_SET takes from Warm; target 1 (Simmer) is. -/
theorem test_power_set : shows (exec (.powerSet hd0 4) warm) (fun t => t.pwr.state = .warm ∧ t.pwr.down = none) = true ∧
    shows (exec (.powerSet hd0 1) warm) (fun t => t.pwr.down = some (.simmer, 1000000000000 + 5000000)) = true := by decide

/-- R69: with LEAP_PEND 1 at the second of LEAP_AT, TAI − UTC grows by 1. -/
theorem test_leap : shows (exec .leapDone { up with tco := { up.tco with counter := 9 * unitsPerSec, utcOff := 37, pend := 1, leapAt := 9 } })
    (fun t => t.tco.utcOff = 38 ∧ t.tco.pend = 0) = true := by decide

/-- R137, R138: code of 1 ms, no Doppler range: one bin. -/
theorem test_search_bins : (searchReq (w up [(indKey .gbb 2 0, 1575420000), (indKey .gbb 2 1, 40000000)]) hd0 0 4096
    (BitVec.ofNat 256 (0x100 + 2 ^ 128))).map searchBins = some 1 := by decide

/-- R190: a start less than 10 µs ahead is refused: no trigger is armed. -/
theorem test_trigger_late : shows (exec (.trigArm hd0 2 ⟨0, BitVec.ofNat 256 (2 ^ 32)⟩) (w up [(Rg.tioCtrl, 1), (indKey .tio 3 8, 1), (indKey .tio 3 9, 8)]))
    (fun t => t.tio.trigs[2] = none) = true := by decide

/-- R395: a cookie key has 256 bits; 128 are BAD_ARG. -/
theorem test_key_gen_length : shows (exec (.keyGen hd0 6 0x1020) (withKey 0)) (fun t =>
    (t.hif.done.head?.map Done.status) = some Status.badArg) = true ∧
    shows (exec (.keyGen hd0 6 0x2020) (withKey 0)) (fun t => (t.hif.done.head?.map Done.status) = some Status.ok) = true := by decide

/-- R412: a KEYED store keeps an armed source armed. -/
theorem test_tamper_hold : shows (exec (.registerWrite Rg.keyTamperEn [0, 0, 0, 0]) { up with key := { up.key with store := .keyed, tamperEn := 4 } })
    (fun t => t.key.tamperEn = 0x1004) = true := by decide

/-- R473: the index wraps from 0xFFFFFF to 0 within its space. -/
theorem test_ind_wraps : shows (exec (.indDataAccess .svc 15 none) (w up [(blkBase .svc + 0x80, 0x01FFFFFF), (blkBase .svc + 0x88, 1)])) (fun t =>
    getW t (blkBase .svc + 0x80) = 0x01000000) = true := by decide

/-- R471: LOCK is taken by the first write alone. -/
theorem test_lock_once : shows (exec (.glbLockWrite 1) { up with glb := { up.glb with lockWritten := true } }) (fun t => t.glb.lock = false) = true := by decide

/-- R558: no checker test starts outside the window that the key opens; RESULT becomes 4. -/
theorem test_checker_window : shows (exec (.chktestGo 0x80000000) warm) (fun t => t.mem.result = 4 ∧ t.mem.testBy = none) = true := by decide

/-- R361, R365: a unit that holds ACTIVE_N and reads it high stops driving. -/
theorem test_line_high : shows (exec .activeNReadHigh holder) (fun t => t.pair.drive = false ∧ t.pair.holding = false) = true := by decide

/-- R416: a second detection finds no root: it is latched only. -/
theorem test_second_tamper : shows (exec (.tamperDetect 2) { up with key := { up.key with tamperEn := 4, store := .unkeyed } }) (fun t =>
    t.key.latch = 4 ∧ t.log = up.log) = true := by decide

/-! ## The statements' hypotheses can be met -/

theorem test_wit_everyStepKeepsForm : ∃ (s t : State), wordsCanonical s = true ∧ counterBound s = true ∧ step s = .next t :=
  ⟨up, idleTick up, by decide, by decide, rfl⟩

theorem test_wit_commandsTouchOnly : ∃ (c : Instr) (s t : State) (p : Part), exec c s = .next t ∧ p ∉ touched c :=
  ⟨.mbxDataReady, up, _, .tco, rfl, by decide⟩

theorem test_wit_powerStateHeld : ∃ (c : Instr) (s t : State), exec c s = .next t ∧ t.pwr.state ≠ s.pwr.state :=
  ⟨.powerSet hd0 2, up, _, rfl, by decide⟩

theorem test_wit_idleStepTakesTime1 : ∃ (s : State),
    s.pending = [] ∧ s.aonFrac < 500000000 :=
  ⟨up,
   by decide⟩

theorem test_wit_tickAddsIncrement1 : ∃ (s : State),
    s.pending = [] ∧ timeRuns s = true ∧ (s.pwr.state = .warm ∨ s.pwr.state = .boil) ∧ s.pwr.trans = none :=
  ⟨upT,
   by decide⟩

theorem test_wit_tickAddsIncrement2 : ∃ (s : State),
    s.pending = [] ∧ timeRuns s = true ∧ (s.pwr.state = .warm ∨ s.pwr.state = .boil) ∧ s.pwr.trans = none ∧ s.tco.slew = none ∧ s.tco.wOver = 0 ∧ s.tco.owed = 0 ∧ -wMax ≤ s.tco.w ∧ s.tco.w ≤ wMax :=
  ⟨upT,
   by decide⟩

theorem test_wit_wordsReadBack1 : ∃ (s : State),
    wordsCanonical s = true :=
  ⟨up,
   by decide⟩

theorem test_wit_wordsReadBack2 : ∃ (s : State) (k : Nat) (j : Nat),
    wordsCanonical s = true ∧ j ≠ k :=
  ⟨up, Rg.hifCtrl, Rg.keyCtrl,
   by decide⟩

theorem test_wit_sequenceClear1 : ∃ (b : Blk) (i : Nat),
    b ≠ .perf ∧ i < 24 :=
  ⟨.tco, 0,
   by decide⟩

theorem test_wit_sequenceClear2 : ∃ (s : State) (b : Blk) (seq : BitVec 8),
    s.glb.pcie = true ∧ s.hif.linkUp = true ∧ regUp s b = true ∧ (blkStat s b).unack = [] ∧ safe s b = false ∧ (blkStat s b).readMark = true ∧ seq = (blkStat s b).seq :=
  ⟨withBlk up .svc { BlkStat.reset with readMark := true, seq := 3, bits := 5 }, .svc, 3,
   by decide⟩

theorem test_wit_sequenceClear3 : ∃ (s : State) (b : Blk) (seq : BitVec 8),
    s.glb.pcie = true ∧ s.hif.linkUp = true ∧ regUp s b = true ∧ ((blkStat s b).readMark = false ∨ seq ≠ (blkStat s b).seq) :=
  ⟨up, .svc, 3,
   by decide⟩

theorem test_wit_sequenceClear4 : ∃ (s : State) (b : Blk),
    s.glb.pcie = true ∧ s.hif.linkUp = true ∧ regUp s b = true :=
  ⟨up, .svc,
   by decide⟩

theorem test_wit_commandPath1 : ∃ (s : State),
    s.glb.pcie = true :=
  ⟨up,
   by decide⟩

theorem test_wit_engineQueriesAnswer1 : ∃ (hd : Hdr) (s : State),
    Accepts s hd 0x00 :=
  ⟨hd0, up,
   ⟨rfl, rfl, rfl⟩⟩

theorem test_wit_engineQueriesAnswer2 : ∃ (hd : Hdr) (s : State),
    Accepts s hd 0x01 :=
  ⟨hd0, up,
   ⟨rfl, rfl, rfl⟩⟩

theorem test_wit_engineQueriesAnswer3 : ∃ (hd : Hdr) (s : State),
    Accepts s hd 0x11 :=
  ⟨hd0, up,
   ⟨rfl, rfl, rfl⟩⟩

theorem test_wit_engineQueriesAnswer4 : ∃ (hd : Hdr) (s : State),
    Accepts s hd 0x13 :=
  ⟨hd0, up,
   ⟨rfl, rfl, rfl⟩⟩

theorem test_wit_engineQueriesAnswer5 : ∃ (hd : Hdr) (s : State),
    Accepts s hd 0x20 :=
  ⟨hd0, up,
   ⟨rfl, rfl, rfl⟩⟩

theorem test_wit_ringsAndDoorbells1 : ∃ (s : State) (off : Nat) (v : BitVec 32) (r : Nat),
    s.glb.pcie = true ∧ s.hif.linkUp = true ∧ regUp s .hif = true ∧ off < 0x4000 ∧ dbRing (off / 0x1000) (off % 0x1000) = some r ∧ ringEn s r = true ∧ ringCutWaits s r = false ∧ r ≠ 8 ∧ r ≠ 10 ∧ dbOk s r v = true :=
  ⟨ringOn up 0, 0, 5, 0,
   by decide⟩

theorem test_wit_ringsAndDoorbells2 : ∃ (s : State) (off : Nat) (v : BitVec 32) (r : Nat),
    s.glb.pcie = true ∧ s.hif.linkUp = true ∧ regUp s .hif = true ∧ off < 0x4000 ∧ dbRing (off / 0x1000) (off % 0x1000) = some r ∧ ringEn s r = true ∧ ringCutWaits s r = false ∧ r ≠ 8 ∧ r ≠ 10 ∧ dbOk s r v = false :=
  ⟨ringOn up 0, 0, 65, 0,
   by decide⟩

theorem test_wit_ringsAndDoorbells3 : ∃ (s : State) (off : Nat) (v : BitVec 32) (r : Nat),
    s.glb.pcie = true ∧ s.hif.linkUp = true ∧ regUp s .hif = true ∧ off < 0x4000 ∧ dbRing (off / 0x1000) (off % 0x1000) = some r ∧ ringEn s r = true ∧ ringCutWaits s r = false ∧ r = 8 ∧ dbOk s r v = true :=
  ⟨ringOn up 8, 0x80, 0, 8,
   by decide⟩

theorem test_wit_ringsAndDoorbells4 : ∃ (s : State) (off : Nat) (v : BitVec 32) (r : Nat),
    s.glb.pcie = true ∧ s.hif.linkUp = true ∧ regUp s .hif = true ∧ off < 0x4000 ∧ dbRing (off / 0x1000) (off % 0x1000) = some r ∧ ringEn s r = true ∧ ringCutWaits s r = false ∧ r = 10 ∧ dbOk s r v = true :=
  ⟨ringOn up 10, 0x2080, 0, 10,
   by decide⟩

theorem test_wit_ringsAndDoorbells5 : ∃ (s : State) (off : Nat) (r : Nat),
    s.glb.pcie = true ∧ s.hif.linkUp = true ∧ regUp s .hif = true ∧ off < 0x100000 ∧ 0x4000 ≤ off ∧ dbRing (off / 0x1000 % 4) (off % 0x1000) = some r :=
  ⟨up, 0x4000, 0,
   by decide⟩

theorem test_wit_ringsAndDoorbells6 : ∃ (s : State) (off : Nat),
    s.glb.pcie = true ∧ s.hif.linkUp = true ∧ regUp s .hif = true ∧ off < 0x100000 ∧ dbRing (off / 0x1000 % 4) (off % 0x1000) = none :=
  ⟨up, 0x20,
   by decide⟩

theorem test_wit_commandPath2 : ∃ (ring_ : Fin 4) (desc : BitVec 256) (s : State) (u : State),
    u = takeDoorbells s (4 + ring_.val) ∧ (s.pwr.phase = .ready ∧ ringAhead u ring_ = false ∨ s.pwr.phase = .recovery ∧ ring_ = 0) ∧ ringOffers u ring_ = true ∧ ((descByte desc 1).testBit 0 = false ∨ ringTaken u ring_ = 0) ∧ cmdMalformed desc = false :=
  ⟨0, 0x50000, withRing (ringOn (ringOn up 0) 4) 0 { Ring.reset with host := 1 }, takeDoorbells (withRing (ringOn (ringOn up 0) 4) 0 { Ring.reset with host := 1 }) 4,
   by decide⟩

theorem test_wit_commandPath3 : ∃ (ring_ : Fin 4) (desc : BitVec 256) (s : State) (u : State),
    u = takeDoorbells s (4 + ring_.val) ∧ (s.pwr.phase = .ready ∧ ringAhead u ring_ = false ∨ s.pwr.phase = .recovery ∧ ring_ = 0) ∧ ringOffers u ring_ = true ∧ ((descByte desc 1).testBit 0 = false ∨ ringTaken u ring_ = 0) ∧ cmdMalformed desc = true :=
  ⟨0, BitVec.ofNat 256 (2 ^ 255), withRing (ringOn (ringOn up 0) 4) 0 { Ring.reset with host := 1 }, takeDoorbells (withRing (ringOn (ringOn up 0) 4) 0 { Ring.reset with host := 1 }) 4,
   by decide⟩

theorem test_wit_commandPath4 : ∃ (s : State) (u : State) (i : Nat) (d : Done),
    u = [4, 5, 6, 7].foldl takeDoorbells s ∧ u.hif.done.findIdx? (cplReady u) = some i ∧ u.hif.done[i]? = some d :=
  ⟨{ ringOn up 4 with hif := { (ringOn up 4).hif with done := [{ hd := hd0, op := 0, status := 0, rlen := 16, result := 1 }] } }, [4, 5, 6, 7].foldl takeDoorbells ({ ringOn up 4 with hif := { (ringOn up 4).hif with done := [{ hd := hd0, op := 0, status := 0, rlen := 16, result := 1 }] } }), 0, { hd := hd0, op := 0, status := 0, rlen := 16, result := 1 },
   by decide⟩

theorem test_wit_commandPath5 : ∃ (s : State) (d : Done) (rest : List Done),
    s.pending = [] ∧ s.hif.done = d :: rest ∧ cplReady s d = true :=
  ⟨{ ringOn up 4 with hif := { (ringOn up 4).hif with done := [{ hd := hd0, op := 0, status := 0, rlen := 16, result := 1 }] } }, { hd := hd0, op := 0, status := 0, rlen := 16, result := 1 }, [],
   by decide⟩

theorem test_wit_commandPath6 : ∃ (r : Fin 15) (s : State) (t0 : Nat),
    (ring s r.val).since = some t0 ∧ t0 + ticksUs (fld (ringWord s r.val 5) 25 16) ≤ s.now :=
  ⟨4, withRing (ringOn up 4) 4 { Ring.reset with cnt := 2, since := some 0 }, 0,
   by decide⟩

theorem test_wit_commandPath7 : ∃ (b : Blk) (s : State) (u : Nat),
    (blkStat s b).irqUntil = some u ∧ u ≤ s.now ∧ (blkStat s b).irqPend = false :=
  ⟨.tco, withBlk up .tco { BlkStat.reset with irqUntil := some 7 }, 7,
   by decide⟩

theorem test_wit_commandPath8 : ∃ (b : Blk) (s : State) (u : Nat),
    (blkStat s b).irqUntil = some u ∧ u ≤ s.now ∧ (blkStat s b).irqPend = true :=
  ⟨.tco, withBlk up .tco { BlkStat.reset with irqUntil := some 7, irqPend := true }, 7,
   by decide⟩

theorem test_wit_ringsAndDoorbells7 : ∃ (s : State),
    wordsCanonical s = true ∧ s.glb.pcie = true ∧ s.hif.linkUp = true ∧ regUp s .hif = true ∧ s.pending.any porReset = false :=
  ⟨ringOn up 3,
   by decide⟩

theorem test_wit_ringsAndDoorbells8 : ∃ (s : State) (gen : BitVec 4),
    s.glb.pcie = true ∧ s.hif.linkUp = false ∧ regUp s .hif = true ∧ s.pending.any porReset = false ∧ gen ≠ 0 :=
  ⟨{ up with hif := { up.hif with linkUp := false } }, 4,
   by decide⟩

theorem test_wit_ringsAndDoorbells9 : ∃ (s : State) (r : Fin 15) (size : Nat),
    wordsCanonical s = true ∧ s.glb.pcie = true ∧ s.hif.linkUp = true ∧ regUp s .hif = true ∧ standbyHeld s = false ∧ mirrorOn s = false ∧ 6 ≤ size ∧ size ≤ 16 ∧ r.val ≠ 8 ∧ r.val ≠ 10 ∧ ringEn s r.val = false :=
  ⟨up, 0, 6,
   by decide⟩

theorem test_wit_ringsAndDoorbells10 : ∃ (s : State),
    s.glb.pcie = true ∧ s.hif.linkUp = true ∧ regUp s .hif = true :=
  ⟨up,
   by decide⟩

theorem test_wit_windowAndDmaEnd1 : ∃ (s : State) (off : Nat),
    s.glb.pcie = true ∧ s.hif.linkUp = true ∧ regUp s .hif = true ∧ off < 0x200000 ∧ off % 4 = 0 ∧ (getW s Rg.hifWinSel).getLsbD 8 = true ∧ fld (getW s Rg.hifWinSel).toNat 5 0 = 0 :=
  ⟨w up [(Rg.hifWinSel, 256)], 0x10000,
   by decide⟩

theorem test_wit_windowAndDmaEnd2 : ∃ (s : State) (off : Nat) (l : Fin 4),
    s.glb.pcie = true ∧ s.hif.linkUp = true ∧ regUp s .hif = true ∧ off < 0x200000 ∧ off % 4 = 0 ∧ (getW s Rg.hifWinSel).getLsbD 8 = true ∧ fld (getW s Rg.hifWinSel).toNat 5 0 ≠ 0 ∧ routeTo s (fld (getW s Rg.hifWinSel).toNat 5 0) = some l ∧ rb s Rg.hifCtrl 1 = true ∧ s.hif.slots.getLsbD (fld (getW s Rg.hifWinSel).toNat 5 0) = true :=
  ⟨{ w up [(Rg.hifWinSel, 259), (Rg.hifCtrl, 3)] with hif := { up.hif with slots := 8 }, lnk := { up.lnk with routes := [(3, 0)] } }, 0x10000, 0,
   by decide⟩

theorem test_wit_windowAndDmaEnd3 : ∃ (s : State) (off : Nat),
    s.glb.pcie = true ∧ s.hif.linkUp = true ∧ regUp s .hif = true ∧ off < 0x200000 ∧ off % 4 = 0 ∧ (getW s Rg.hifWinSel).getLsbD 8 = true ∧ fld (getW s Rg.hifWinSel).toNat 5 0 ≠ 0 ∧ routeTo s (fld (getW s Rg.hifWinSel).toNat 5 0) = none :=
  ⟨{ w up [(Rg.hifWinSel, 259), (Rg.hifCtrl, 3)] with hif := { up.hif with slots := 8 } }, 0x10000,
   by decide⟩

theorem test_wit_windowAndDmaEnd4 : ∃ (s : State) (hd : Hdr) (slot_ : BitVec 6) (cause : BitVec 4) (op : BitVec 8),
    regUp s .hif = true ∧ cause ≠ 0 ∧ cause.toNat ≤ 4 ∧ slot_.toNat = ownSlot s ∧ s.hif.inflight.find? (fun c => c.1 = hd) = some (hd, op) ∧ s.hif.discard.contains hd = false :=
  ⟨{ up with hif := { up.hif with inflight := [(hd0, 0x44)] } }, hd0, 0, 2, 0x44,
   by decide⟩

theorem test_wit_windowAndDmaEnd5 : ∃ (s : State) (slot_ : BitVec 6) (cause : BitVec 4) (l : Fin 4),
    regUp s .hif = true ∧ cause ≠ 0 ∧ cause.toNat ≤ 4 ∧ slot_.toNat ≠ ownSlot s ∧ routeTo s slot_.toNat = some l :=
  ⟨{ up with hif := { up.hif with inflight := [(hd0, 0x44)] }, lnk := { up.lnk with routes := [(3, 0)] } }, 3, 2, 0,
   by decide⟩

theorem test_wit_fullWriteStores1 : ∃ (s : State) (b : Blk) (k : Nat) (d : WordDef),
    (b = .svc ∨ b = .pair ∨ b = .upd ∨ b = .pwr) ∧ s.glb.pcie = true ∧ s.hif.linkUp = true ∧ regUp s b = true ∧ k % 4 = 0 ∧ k / 0x10000 = Blk.id b ∧ mapped k = true ∧ (storedRegs b).lookup k = some d ∧ (s.glb.lock = false ∨ d.lk = false) ∧ (standbyHeld s = false ∨ mirroredKeys.contains k = false) ∧ (mirrorOn s = false ∨ mirroredKeys.contains k = false) :=
  ⟨up, .svc, Rg.svcKodMax, ((storedRegs .svc).lookup Rg.svcKodMax).getD ⟨0, [], false, false⟩,
   by decide⟩

theorem test_wit_fullWriteStores2 : ∃ (s : State) (b : Blk) (k : Nat) (d : WordDef),
    (b = .svc ∨ b = .pair ∨ b = .upd ∨ b = .pwr) ∧ s.glb.pcie = true ∧ s.hif.linkUp = true ∧ regUp s b = true ∧ k % 4 = 0 ∧ k / 0x10000 = Blk.id b ∧ mapped k = true ∧ (storedRegs b).lookup k = some d ∧ (s.glb.lock = false ∨ d.lk = false) ∧ standbyHeld s = true ∧ mirroredKeys.contains k = true :=
  ⟨{ up with pair := { up.pair with st := .ready } }, .svc, Rg.svcKodMax, ((storedRegs .svc).lookup Rg.svcKodMax).getD ⟨0, [], false, false⟩,
   by decide⟩

theorem test_wit_fullWriteStores3 : ∃ (s : State) (b : Blk) (k : Nat) (d : WordDef),
    (b = .svc ∨ b = .pair ∨ b = .upd ∨ b = .pwr) ∧ s.glb.pcie = true ∧ s.hif.linkUp = true ∧ regUp s b = true ∧ k % 4 = 0 ∧ k / 0x10000 = Blk.id b ∧ mapped k = true ∧ (storedRegs b).lookup k = some d ∧ (s.glb.lock = false ∨ d.lk = false) ∧ mirrorOn s = true ∧ mirroredKeys.contains k = true :=
  ⟨holderR, .svc, Rg.svcKodMax, ((storedRegs .svc).lookup Rg.svcKodMax).getD ⟨0, [], false, false⟩,
   by decide⟩

theorem test_wit_lockedAndDownUnits1 : ∃ (s : State) (b : Blk) (k : Nat),
    s.glb.pcie = true ∧ s.hif.linkUp = true ∧ s.glb.lock = true ∧ (regUp s b = true ∨ hasShadow k = true) ∧ k % 4 = 0 ∧ k / 0x10000 = Blk.id b ∧ mapped k = true ∧ isLk b k = true :=
  ⟨{ up with glb := { up.glb with lock := true } }, .key, Rg.keyTamperEn,
   by decide⟩

theorem test_wit_lockedAndDownUnits2 : ∃ (s : State) (b : Blk) (k : Nat),
    s.glb.pcie = true ∧ s.hif.linkUp = true ∧ regUp s b = false ∧ hasShadow k = false ∧ k % 4 = 0 ∧ k / 0x10000 = Blk.id b ∧ mapped k = true :=
  ⟨{ State.reset with glb := { State.reset.glb with pcie := true }, hif := { State.reset.hif with linkUp := true } }, .svc, Rg.svcKodMax,
   by decide⟩

theorem test_wit_readsReturn1 : ∃ (s : State) (b : Blk) (k : Nat),
    s.glb.pcie = true ∧ s.hif.linkUp = true ∧ regUp s b = true ∧ k % 4 = 0 ∧ k / 0x10000 = Blk.id b ∧ mapped k = true ∧ k % 0x10000 ≠ 0x84 :=
  ⟨up, .svc, Rg.svcKodMax,
   by decide⟩

theorem test_wit_readsReturn2 : ∃ (s : State) (b : Blk) (k : Nat),
    s.glb.pcie = true ∧ s.hif.linkUp = true ∧ regUp s b = true ∧ k % 4 = 0 ∧ k / 0x10000 = Blk.id b ∧ mapped k = true ∧ k % 0x10000 ≠ 0x84 ∧ k % 0x10000 = 4 :=
  ⟨up, .svc, Rg.svcStatus,
   by decide⟩

theorem test_wit_readsReturn3 : ∃ (s : State),
    s.glb.pcie = true ∧ s.hif.linkUp = true ∧ regUp s .pwr = true :=
  ⟨up,
   by decide⟩

theorem test_wit_readsReturn4 : ∃ (s : State),
    s.glb.pcie = true ∧ s.hif.linkUp = true ∧ regUp s .tio = true :=
  ⟨up,
   by decide⟩

theorem test_wit_readsReturn5 : ∃ (s : State),
    s.glb.pcie = true ∧ s.hif.linkUp = true :=
  ⟨up,
   by decide⟩

theorem test_wit_readsReturn6 : ∃ (s : State) (b : Blk) (d : WordDef),
    s.glb.pcie = true ∧ s.hif.linkUp = true ∧ regUp s b = true ∧ hasInd b = true ∧ mapped (blkBase b + 0x84) = true ∧ indStored b (fld (indAddr s b) 31 24) (fld (indAddr s b) 23 0) = some d :=
  ⟨w up [(Rg.tcoCtrl + 0x80, 0x01000002)], .tco, ((indStored .tco 1 2)).getD ⟨0, [], false, false⟩,
   by decide⟩

theorem test_wit_readsReturn7 : ∃ (s : State) (b : Blk),
    s.glb.pcie = true ∧ s.hif.linkUp = true ∧ regUp s b = true ∧ hasInd b = true ∧ mapped (blkBase b + 0x84) = true :=
  ⟨w up [(Rg.tcoCtrl + 0x80, 0x01000002)], .tco,
   by decide⟩

theorem test_wit_readsReturn8 : ∃ (s : State) (b : Blk),
    s.glb.pcie = true ∧ s.hif.linkUp = true ∧ regUp s b = true ∧ hasInd b = true ∧ mapped (blkBase b + 0x84) = true ∧ s.glb.lock = false :=
  ⟨w up [(Rg.tcoCtrl + 0x80, 0x01000002)], .tco,
   by decide⟩

theorem test_wit_mailboxCycle1 : ∃ (s : State) (w : Wide) (b : Blk) (word : Word),
    s.glb.pcie = true ∧ s.hif.linkUp = true ∧ regUp s .glb = true ∧ word.getLsbD 0 = true ∧ s.glb.mbx.busy = false ∧ s.glb.mbx.valid = false ∧ wideOf s (rf s Rg.glbMbxSel 15 0) = some w ∧ blkOf (rf s Rg.glbMbxSel 15 0 / 256) = some b ∧ regUp s b = true :=
  ⟨w up [(Rg.glbMbxSel, 0x0401)], (wideOf (w up [(Rg.glbMbxSel, 0x0401)]) 0x0401).getD (wide64 (w up [(Rg.glbMbxSel, 0x0401)]) 0), .tco, 1,
   by decide⟩

theorem test_wit_mailboxCycle2 : ∃ (s : State),
    s.glb.mbx.busy = true :=
  ⟨{ up with glb := { up.glb with mbx := { up.glb.mbx with busy := true } } },
   by decide⟩

theorem test_wit_mailboxCycle3 : ∃ (s : State),
    s.glb.pcie = true ∧ s.hif.linkUp = true ∧ regUp s .glb = true ∧ s.glb.mbx.valid = true :=
  ⟨{ up with glb := { up.glb with mbx := { up.glb.mbx with valid := true } } },
   by decide⟩

theorem test_wit_mailboxCycle4 : ∃ (s : State) (word : Word),
    s.glb.pcie = true ∧ s.hif.linkUp = true ∧ regUp s .glb = true ∧ word.getLsbD 0 = true :=
  ⟨up, 1,
   by decide⟩

theorem test_wit_keyedWrites1 : ∃ (s : State),
    s.glb.pcie = true ∧ s.hif.linkUp = true ∧ regUp s .glb = true ∧ s.glb.lockWritten = false :=
  ⟨up,
   by decide⟩

theorem test_wit_keyedWrites2 : ∃ (s : State),
    s.glb.pcie = true ∧ s.hif.linkUp = true ∧ regUp s .glb = true ∧ s.glb.lockWritten = true :=
  ⟨{ up with glb := { up.glb with lockWritten := true } },
   by decide⟩

theorem test_wit_keyedWrites3 : ∃ (s : State),
    s.glb.pcie = true ∧ s.hif.linkUp = true ∧ regUp s .glb = true ∧ s.glb.lock = false :=
  ⟨up,
   by decide⟩

theorem test_wit_keyedWrites4 : ∃ (s : State) (u : Nat),
    s.glb.pcie = true ∧ s.hif.linkUp = true ∧ regUp s .glb = true ∧ s.glb.testUntil = some u ∧ u ≤ s.now :=
  ⟨{ up with glb := { up.glb with testUntil := some 5 } }, 5,
   by decide⟩

theorem test_wit_keyedWrites5 : ∃ (s : State),
    s.glb.pcie = true ∧ s.hif.linkUp = true ∧ regUp s .glb = true ∧ regUp s .perf = true :=
  ⟨up,
   by decide⟩

theorem test_wit_keyedWrites6 : ∃ (s : State),
    s.glb.pcie = true ∧ s.hif.linkUp = true ∧ regUp s .glb = true ∧ regUp s .pwr = true ∧ s.glb.lock = false :=
  ⟨up,
   by decide⟩

theorem test_wit_memoryFaultsAndTests1 : ∃ (s : State) (w : Word),
    s.glb.pcie = true ∧ s.hif.linkUp = true ∧ regUp s .mem = true ∧ s.glb.lock = false ∧ standbyHeld s = false ∧ w.getLsbD 31 = true ∧ s.glb.testUntil ≠ none ∧ s.pwr.state = .warm ∧ s.mem.testBy = none :=
  ⟨{ warm with glb := { warm.glb with testUntil := some 2000000000000 } }, 0x80400000,
   by decide⟩

theorem test_wit_memoryFaultsAndTests2 : ∃ (s : State) (by_ : Nat) (w : Word) (b : Blk) (c : Cls),
    s.mem.testBy = some (by_, w) ∧ checkerOf (fld w.toNat 23 20) (fld w.toNat 7 0) (w.getLsbD 19) = some (b, c) :=
  ⟨{ warm with mem := { warm.mem with result := 1, testBy := some (19, 0x80000004) } }, 19, 0x80000004, .tco, .severe,
   by decide⟩

theorem test_wit_memoryFaultsAndTests3 : ∃ (s : State),
    s.glb.pcie = true ∧ s.hif.linkUp = true ∧ regUp s .mem = true ∧ s.glb.lock = false :=
  ⟨{ warm with glb := { warm.glb with testUntil := some 2000000000000 } },
   by decide⟩

theorem test_wit_memoryFaultsAndTests4 : ∃ (s : State) (k : Nat) (b : Blk),
    keyBlk k = some b ∧ b ≠ .refs ∧ b ≠ .perf ∧ s.mismatch = [] ∧ hasParity k = true ∧ regUp s b = true ∧ writeWaits s k = false :=
  ⟨up, Rg.tcoDwell, .tco,
   by decide⟩

theorem test_wit_memoryFaultsAndTests5 : ∃ (s : State) (k : Nat) (b : Blk),
    keyBlk k = some b ∧ hasParity k = true ∧ (regUp s b = true ∨ hasShadow k = true) ∧ s.mismatch = [] ∧ writeWaits s k = false :=
  ⟨up, Rg.tcoDwell, .tco,
   by decide⟩

theorem test_wit_memoryFaultsAndTests6 : ∃ (s : State) (store : Option (Fin 3)) (addr : BitVec 32) (part : Fin 7),
    (s.pwr.phase = .ready ∨ s.pwr.phase = .recovery) ∧ partAt store addr.toNat = some part :=
  ⟨up, none, 64, 0,
   by decide⟩

theorem test_wit_memoryFaultsAndTests7 : ∃ (s : State) (store : Option (Fin 3)) (addr : BitVec 32) (part : Fin 7),
    (s.pwr.phase = .ready ∨ s.pwr.phase = .recovery) ∧ partAt store addr.toNat = some part :=
  ⟨up, some 1, 64, 6,
   by decide⟩

theorem test_wit_memoryFaultsAndTests8 : ∃ (s : State),
    (s.pwr.phase = .ready ∨ s.pwr.phase = .recovery) :=
  ⟨up,
   by decide⟩

theorem test_wit_memoryFaultsAndTests9 : ∃ (s : State) (n : Nat),
    s.glb.pcie = true ∧ s.hif.linkUp = true ∧ n < 1024 ∧ perfOpen n = false ∧ rb s Rg.perfCtrl 0 = true :=
  ⟨w up [(Rg.perfCtrl, 1)], 0,
   by decide⟩

theorem test_wit_memoryFaultsAndTests10 : ∃ (s : State) (n : Nat),
    s.glb.pcie = true ∧ s.hif.linkUp = true ∧ n < 1024 ∧ perfOpen n = false ∧ rb s Rg.perfCtrl 0 = false :=
  ⟨up, 0,
   by decide⟩

theorem test_wit_memoryFaultsAndTests11 : ∃ (s : State) (off : Nat),
    s.glb.pcie = true ∧ s.hif.linkUp = true ∧ off < 0x10000 ∧ rb s Rg.perfCtrl 0 = true :=
  ⟨w up [(Rg.perfCtrl, 1)], 0x1000,
   by decide⟩

theorem test_wit_memoryFaultsAndTests12 : ∃ (s : State) (off : Nat),
    s.glb.pcie = true ∧ s.hif.linkUp = true ∧ off < 0x10000 ∧ rb s Rg.perfCtrl 0 = false :=
  ⟨up, 0x1000,
   by decide⟩

theorem test_wit_powerSetMoves1 : ∃ (s : State) (hd : Hdr),
    Accepts s hd 0x10 ∧ s.pwr.state = .warm ∧ s.pwr.down = none ∧ s.pwr.trans = none ∧ failWaits s = false :=
  ⟨warm, hd0,
   ⟨rfl, rfl, rfl⟩, by decide, by decide, by decide, by decide⟩

theorem test_wit_powerSetMoves2 : ∃ (s : State) (u : State) (hd : Hdr) (code : BitVec 8) (target : PowerState),
    Accepts s hd 0x10 ∧ s.pwr.state = .boil ∧ s.pwr.down = none ∧ s.pwr.trans = none ∧ failWaits s = false ∧ (code = 0 ∧ target = .off ∨ code = 1 ∧ target = .simmer ∨ code = 2 ∧ target = .warm) ∧ u = leaveBoil { s with pwr := { s.pwr with trans := some (hd, target, s.now + ticksMs 10) } } ∧ answersGone u = true :=
  ⟨up, leaveBoil { (up) with pwr := { ((up)).pwr with trans := some (hd0, .warm, ((up)).now + ticksMs 10) } }, hd0, 2, .warm,
   ⟨rfl, rfl, rfl⟩, by decide, by decide, by decide, by decide, by decide, by decide, by decide⟩

theorem test_wit_powerSetMoves3 : ∃ (s : State) (u : State) (hd : Hdr) (code : BitVec 8) (target : PowerState),
    Accepts s hd 0x10 ∧ s.pwr.state = .boil ∧ s.pwr.down = none ∧ s.pwr.trans = none ∧ failWaits s = false ∧ (code = 0 ∧ target = .off ∨ code = 1 ∧ target = .simmer ∨ code = 2 ∧ target = .warm) ∧ u = leaveBoil { s with pwr := { s.pwr with trans := some (hd, target, s.now + ticksMs 10) } } ∧ answersGone u = false :=
  ⟨withPort up 0 { up.eth.ports[0] with mode := 4, up := true, qT := [{ frame := frame0, bytes := 64, fill := .none, host := none, grant := none }] }, leaveBoil { (withPort up 0 { up.eth.ports[0] with mode := 4, up := true, qT := [{ frame := frame0, bytes := 64, fill := .none, host := none, grant := none }] }) with pwr := { ((withPort up 0 { up.eth.ports[0] with mode := 4, up := true, qT := [{ frame := frame0, bytes := 64, fill := .none, host := none, grant := none }] })).pwr with trans := some (hd0, .warm, ((withPort up 0 { up.eth.ports[0] with mode := 4, up := true, qT := [{ frame := frame0, bytes := 64, fill := .none, host := none, grant := none }] })).now + ticksMs 10) } }, hd0, 2, .warm,
   ⟨rfl, rfl, rfl⟩, by decide, by decide, by decide, by decide, by decide, by decide, by decide⟩

theorem test_wit_powerSetMoves4 : ∃ (s : State) (target : PowerState) (t0 : Nat),
    s.pwr.down = some (target, t0) ∧ t0 ≤ s.now ∧ cplOwed s 0x10 = false :=
  ⟨{ warm with pwr := { warm.pwr with down := some (.off, 5) } }, .off, 5,
   by decide⟩

theorem test_wit_loopsCoastAndRelock1 : ∃ (s : State) (i : Fin 4),
    (loop s i.val).locked = true :=
  ⟨{ up with clk := { up.clk with loops := Vector.replicate 4 { Loop.reset with locked := true } } }, 2,
   by decide⟩

theorem test_wit_loopsCoastAndRelock2 : ∃ (s : State) (hd : Hdr) (i : Fin 4),
    Accepts s hd 0x12 ∧ coasting s i.val = true ∧ (loop s i.val).relock = none :=
  ⟨{ up with clk := { up.clk with loops := Vector.replicate 4 { Loop.reset with locked := false, coasting := true } } }, hd0, 2,
   ⟨rfl, rfl, rfl⟩, by decide, by decide⟩

theorem test_wit_loopsCoastAndRelock3 : ∃ (s : State) (hd : Hdr) (i : Fin 4) (u : Nat),
    (loop s i.val).relock = some (hd, u) ∧ s.hif.discard.contains hd = false :=
  ⟨{ up with clk := { up.clk with loops := Vector.replicate 4 { Loop.reset with locked := false, coasting := true, relock := some (hd0, 5) } } }, hd0, 2, 5,
   by decide⟩

theorem test_wit_loopsCoastAndRelock4 : ∃ (s : State) (hd : Hdr) (i : Fin 4) (u : Nat),
    (loop s i.val).relock = some (hd, u) ∧ s.hif.discard.contains hd = false ∧ u ≤ s.now ∧ s.pending.contains (.loopLocked i) = false :=
  ⟨{ up with clk := { up.clk with loops := Vector.replicate 4 { Loop.reset with locked := false, coasting := true, relock := some (hd0, 5) } } }, hd0, 2, 5,
   by decide⟩

theorem test_wit_startsBegin1 : ∃ (s : State),
    s.pwr.thermDead = false ∧ s.pwr.pwrFailLow = true :=
  ⟨{ State.reset with pwr := { State.reset.pwr with pwrFailLow := true } },
   by decide⟩

theorem test_wit_startsBegin2 : ∃ (s : State) (i : StartIn),
    s.pwr.thermDead = false ∧ s.pwr.pwrFailLow = false ∧ i.bootSrc ≠ 3 ∧ refOf i.refCount = none :=
  ⟨State.reset, { start0 with refCount := 7 },
   by decide⟩

theorem test_wit_startsBegin3 : ∃ (s : State) (i : StartIn),
    s.pwr.start = some i ∧ s.pwr.phase = .reset :=
  ⟨{ State.reset with pwr := { State.reset.pwr with phase := .reset, start := some start0 } }, start0,
   by decide⟩

theorem test_wit_startsBegin4 : ∃ (s : State) (i : StartIn),
    s.pwr.start = some i ∧ s.pwr.phase = .waitRef ∧ s.clk.countAt + ticksMs 100 ≤ s.now :=
  ⟨{ State.reset with now := 100000000, pwr := { State.reset.pwr with phase := .waitRef, start := some start0 } }, start0,
   by decide⟩

theorem test_wit_startsBegin5 : ∃ (s : State) (i : StartIn) (n : Nat) (r : BitVec 2),
    s.pwr.start = some i ∧ s.pwr.phase = .waitRef ∧ s.clk.countAt + ticksMs 100 ≤ s.now ∧ refOf n = some r ∧ s.log.fatal = true :=
  ⟨{ State.reset with now := 100000000, pwr := { State.reset.pwr with phase := .waitRef, start := some start0 }, log := { State.reset.log with fatal := true } }, start0, 312500, 1,
   by decide⟩

theorem test_wit_startsBegin6 : ∃ (s : State) (i : StartIn) (n : Nat) (r : BitVec 2),
    s.pwr.start = some i ∧ s.pwr.phase = .waitRef ∧ s.clk.countAt + ticksMs 100 ≤ s.now ∧ refOf n = some r ∧ s.log.fatal = false ∧ s.pwr.cause.getLsbD 3 = false ∧ s.glb.bootSrc = 1 :=
  ⟨{ State.reset with now := 100000000, pwr := { State.reset.pwr with phase := .waitRef, start := some start0 }, glb := { State.reset.glb with bootSrc := 1 } }, start0, 312500, 1,
   by decide⟩

theorem test_wit_startsBegin7 : ∃ (s : State) (i : StartIn) (j : BitVec 16),
    s.pwr.start = some i ∧ s.pwr.phase = .rom ∧ j.toInt < 1600 :=
  ⟨{ State.reset with pwr := { State.reset.pwr with phase := .rom, start := some start0 } }, start0, 500,
   by decide⟩

theorem test_wit_startsBegin8 : ∃ (s : State) (u : Nat),
    s.pwr.swrst = some u ∧ u ≤ s.now ∧ failWaits s = false :=
  ⟨{ up with pwr := { up.pwr with swrst := some 5 } }, 5,
   by decide⟩

theorem test_wit_startsBegin9 : ∃ (s : State) (i : StartIn),
    (s.pwr.thermDead = false ∨ i.rails = true) :=
  ⟨{ State.reset with pwr := { State.reset.pwr with pwrFailLow := true } }, start0,
   by decide⟩

theorem test_wit_startsBegin10 : ∃ (s : State),
    (s.pwr.start = none ∨ s.pwr.phase ≠ .reset) :=
  ⟨up,
   by decide⟩

theorem test_wit_supplyFaultsAct1 : ∃ (s : State),
    mainUp s = true ∧ hotOver s = true :=
  ⟨{ up with pwr := { up.pwr with hotAt := some 5 } },
   by decide⟩

theorem test_wit_supplyFaultsAct2 : ∃ (s : State),
    mainUp s = true :=
  ⟨up,
   by decide⟩

theorem test_wit_supplyFaultsAct3 : ∃ (s : State) (n : Fin 4) (cause : BitVec 2),
    mainUp s = true ∧ cause ≠ 0 ∧ (¬(cause = 3 ∧ n = 0)) ∧ coreUp s n.val = true :=
  ⟨up, 1, 3,
   by decide⟩

theorem test_wit_stepEndsHostSlew1 : ∃ (s : State) (src : Nat) (h : Hdr) (r : Int) (e : Option (BitVec 128)),
    s.tco.slew = some { host := some h, remain := r, endTs := e } ∧ s.hif.discard.contains h = false ∧ (src ≠ 0 ∨ s.tco.marks.set ≠ some s.now) :=
  ⟨{ warm with tco := { warm.tco with slew := some { host := some { ring := 2, tag := 7, noirq := false }, remain := 5, endTs := none } } }, 1, { ring := 2, tag := 7, noirq := false }, 5, none,
   by decide⟩

theorem test_wit_stepEndsHostSlew2 : ∃ (s : State) (hd : Hdr) (h : Hdr) (ns : BitVec 64) (frac : BitVec 16) (r : Int) (e : Option (BitVec 128)),
    Accepts s hd 0x22 ∧ s.tco.marks.host ≠ some s.now ∧ s.refs.timeSlot = none ∧ s.refs.phase = .idle ∧ overLimit s (hostDelta ns frac) = false ∧ s.tco.slew = some { host := some h, remain := r, endTs := e } ∧ s.hif.discard.contains h = false :=
  ⟨{ warm with tco := { warm.tco with slew := some { host := some { ring := 2, tag := 7, noirq := false }, remain := 5, endTs := none } } }, hd0, { ring := 2, tag := 7, noirq := false }, 1000, 0, 5, none,
   ⟨rfl, rfl, rfl⟩, by decide, by decide, by decide, by decide, by decide, by decide⟩

theorem test_wit_hostTimeCommands1 : ∃ (s : State) (hd : Hdr) (sec : BitVec 64) (ns : BitVec 32),
    Accepts s hd 0x21 ∧ s.tco.marks.host ≠ some s.now ∧ s.tco.st = .night ∧ ns.toNat < 1000000000 ∧ sec.toNat < 2 ^ 48 :=
  ⟨up, hd0, 100, 5,
   ⟨rfl, rfl, rfl⟩, by decide, by decide, by decide, by decide⟩

theorem test_wit_hostTimeCommands2 : ∃ (s : State) (hd : Hdr) (ns : BitVec 64) (frac : BitVec 16),
    Accepts s hd 0x22 ∧ s.tco.marks.host ≠ some s.now ∧ s.refs.timeSlot = none ∧ s.refs.phase = .idle ∧ overLimit s (hostDelta ns frac) = true :=
  ⟨up, hd0, 2000000000, 0,
   ⟨rfl, rfl, rfl⟩, by decide, by decide, by decide, by decide⟩

theorem test_wit_hostTimeCommands3 : ∃ (s : State) (hd : Hdr) (ns : BitVec 64) (frac : BitVec 16),
    Accepts s hd 0x22 ∧ s.tco.marks.host ≠ some s.now ∧ s.refs.timeSlot = none ∧ s.refs.phase = .idle ∧ overLimit s (hostDelta ns frac) = false :=
  ⟨up, hd0, 1000, 0,
   ⟨rfl, rfl, rfl⟩, by decide, by decide, by decide, by decide⟩

theorem test_wit_hostTimeCommands4 : ∃ (s : State) (hd : Hdr) (ns : BitVec 64) (frac : BitVec 16),
    s.tco.marks.host ≠ some s.now ∧ Accepts s hd 0x23 ∧ s.refs.timeSlot = none ∧ s.refs.phase = .idle ∧ hostSlewing s = false ∧ overLimit s (hostDelta ns frac) = false :=
  ⟨w up [(Rg.refsStepLimit, 1000)], hd0, 500, 1,
   by decide, ⟨rfl, rfl, rfl⟩, by decide, by decide, by decide, by decide⟩

theorem test_wit_hostTimeCommands5 : ∃ (s : State) (hd : Hdr) (w : BitVec 64),
    s.tco.marks.host ≠ some s.now ∧ Accepts s hd 0x24 ∧ s.tco.st = .night ∧ -wMax ≤ w.toInt ∧ w.toInt ≤ wMax :=
  ⟨up, hd0, 1000,
   by decide, ⟨rfl, rfl, rfl⟩, by decide, by decide, by decide⟩

theorem test_wit_hostTimeCommands6 : ∃ (s : State) (hd : Hdr),
    s.tco.marks.host ≠ some s.now ∧ Accepts s hd 0x25 ∧ rb s Rg.tcoCtrl 1 = true :=
  ⟨w up [(Rg.tcoCtrl, 2)], hd0,
   by decide, ⟨rfl, rfl, rfl⟩, by decide⟩

theorem test_wit_hostTimeCommands7 : ∃ (s : State) (hd : Hdr),
    s.tco.marks.host ≠ some s.now ∧ Accepts s hd 0x26 :=
  ⟨up, hd0,
   by decide, ⟨rfl, rfl, rfl⟩⟩

theorem test_wit_hostTimeCommands8 : ∃ (s : State) (v : State),
    s.tco.marks.host ≠ some s.now ∧ v.pwr.phase = .ready ∧ v.tco.marks.host = some v.now :=
  ⟨up, { up with tco := { up.tco with marks := { up.tco.marks with host := some up.now } } },
   by decide⟩

theorem test_wit_tebNeverFalls1 : ∃ (s : State),
    s.tco.lastMs ≠ some (msOf s.tco.counter) ∧ rb s Rg.tcoCtrl 0 = true ∧ s.tco.noMax = false :=
  ⟨{ w up [(Rg.tcoCtrl, 1)] with tco := { up.tco with base := 100, teb := 100 } },
   by decide⟩

theorem test_wit_tebNeverFalls2 : ∃ (s : State),
    s.tco.lastMs ≠ some (msOf s.tco.counter) :=
  ⟨{ w up [(Rg.tcoCtrl, 1)] with tco := { up.tco with base := 100, teb := 100 } },
   by decide⟩

theorem test_wit_timeEventsAct1 : ∃ (s : State) (d : Nat),
    s.tco.dwellAt = some d ∧ s.tco.st.rank < (underlying s).rank ∧ d + ticksMs (getW s Rg.tcoDwell).toNat ≤ s.now :=
  ⟨{ up with tco := { up.tco with dwellAt := some 0, contracted := true, st := .night, teb := 10 } }, 0,
   by decide⟩

theorem test_wit_timeEventsAct2 : ∃ (s : State) (u : Nat),
    s.tco.lockUntil = some u ∧ u ≤ s.now ∧ locked s = false :=
  ⟨{ up with tco := { up.tco with lockUntil := some 5 } }, 5,
   by decide⟩

theorem test_wit_timeEventsAct3 : ∃ (s : State) (hd : Hdr) (pend : BitVec 8) (leapAt : BitVec 32),
    Accepts s hd 0x27 ∧ s.tco.marks.host ≠ some s.now ∧ standbyHeld s = false ∧ (pend = 1 ∨ pend = 2) ∧ secOf s.tco.counter % 2 ^ 32 < leapAt.toNat :=
  ⟨up, hd0, 1, 500,
   ⟨rfl, rfl, rfl⟩, by decide, by decide, by decide, by decide⟩

theorem test_wit_timeEventsAct4 : ∃ (s : State) (hd : Hdr) (pend : BitVec 8),
    Accepts s hd 0x27 ∧ s.tco.marks.host ≠ some s.now ∧ standbyHeld s = false ∧ pend = 0 :=
  ⟨up, hd0, 0,
   ⟨rfl, rfl, rfl⟩, by decide, by decide, by decide⟩

theorem test_wit_timeEventsAct5 : ∃ (s : State),
    s.tco.leapAt.toNat ≤ secOf s.tco.counter % 2 ^ 32 ∧ (s.tco.pend = 1 ∨ s.tco.pend = 2) :=
  ⟨{ up with tco := { up.tco with pend := 1, utcOff := 37 } },
   by decide⟩

theorem test_wit_timeEventsAct6 : ∃ (s : State) (u : Nat),
    s.tco.tempAt = some u ∧ rb s Rg.tcoCtrl 1 = true ∧ u + ticksS 5 ≤ s.now ∧ (u + ticksS 5 < s.now ∨ tempWaits s = false) :=
  ⟨{ w up [(Rg.tcoCtrl, 2)] with tco := { up.tco with tempAt := some 5, tempHost := some 400 } }, 5,
   by decide⟩

theorem test_wit_timeEventsAct7 : ∃ (s : State) (hd : Hdr) (e : Option (BitVec 128)),
    s.tco.slew = some { host := some hd, remain := 0, endTs := e } ∧ s.hif.discard.contains hd = false :=
  ⟨{ up with tco := { up.tco with slew := some { host := some hd0, remain := 0, endTs := none } } }, hd0, none,
   by decide⟩

theorem test_wit_timeEventsAct8 : ∃ (s : State) (e : Option (BitVec 128)),
    s.tco.slew = some { host := none, remain := 0, endTs := e } :=
  ⟨{ up with tco := { up.tco with slew := some { host := none, remain := 0, endTs := none } } }, none,
   by decide⟩

theorem test_wit_measurementsOrdered1 : ∃ (s : State) (i : Fin 16) (latch : Nat) (l : Nat),
    timeCapable i = true ∧ slotEn s i = true ∧ latch ≤ s.now ∧ s.refs.timeSlot ≠ some i ∧ (slot s i).lastLatch = some l ∧ latch ≤ l :=
  ⟨withSlot (w up [(indKey .refs 1 0, 1)]) 0 fun k => { k with lastLatch := some 500 }, 0, 400, 500,
   by decide⟩

theorem test_wit_measurementsOrdered2 : ∃ (s : State) (i : Fin 16) (latch : Nat),
    timeCapable i = true ∧ slotEn s i = true ∧ latch ≤ s.now ∧ s.refs.timeSlot ≠ some i ∧ (slot s i).lastLatch = none ∧ i.val < 2 :=
  ⟨w up [(indKey .refs 1 0, 1)], 0, 400,
   by decide⟩

theorem test_wit_measurementsOrdered3 : ∃ (s : State) (i : Fin 16) (latch : Nat),
    timeCapable i = true ∧ slotEn s i = true ∧ latch ≤ s.now ∧ s.refs.timeSlot ≠ some i ∧ (slot s i).lastLatch = none ∧ 2 ≤ i.val :=
  ⟨w up [(indKey .refs 1 16, 1)], 2, 400,
   by decide⟩

theorem test_wit_measurementsOrdered4 : ∃ (s : State) (i : Fin 16) (latch : Nat),
    timeCapable i = true ∧ slotEn s i = true ∧ latch ≤ s.now ∧ s.refs.timeSlot ≠ some i ∧ (slot s i).lastLatch = none ∧ s.refs.txn = none :=
  ⟨{ w up [(indKey .refs 1 0, 1)] with ctl := { up.ctl with run := #v[2, 2, 1, 2] } }, 0, 400,
   by decide⟩

theorem test_wit_measurementsOrdered5 : ∃ (i : Fin 16),
    timeCapable i = true :=
  ⟨2,
   by decide⟩

theorem test_wit_measurementsOrdered6 : ∃ (s : State) (i : Fin 16),
    timeCapable i = false ∧ slotEn s i = true ∧ freqSource s i = true :=
  ⟨w up [(indKey .refs 1 80, 1)], 10,
   by decide⟩

theorem test_wit_slotEventsAct1 : ∃ (s : State) (i : Fin 16),
    (slot s i).active = true ∧ (slot s i).lastAct + ticksMs (slotCfg s i 1) ≤ s.now ∧ ((slot s i).lastAct + ticksMs (slotCfg s i 1) < s.now ∨ s.pending.any (brings i) = false) :=
  ⟨withSlot up 0 fun k => { k with active := true }, 0,
   by decide⟩

theorem test_wit_slotEventsAct2 : ∃ (s : State),
    s.refs.monSec ≠ some (secOf s.tco.counter) :=
  ⟨up,
   by decide⟩

theorem test_wit_slotEventsAct3 : ∃ (s : State) (v : State) (i : Fin 16) (u : Nat),
    v = lossFirst s ∧ (slot v i).insideAt = some u ∧ slotEn v i = true ∧ u + ticksS (getW v Rg.refsQualTime).toNat ≤ v.now :=
  ⟨withSlot (w up [(indKey .refs 1 0, 1), (indKey .refs 1 16, 1), (indKey .refs 1 80, 1)]) 0 fun k => { k with insideAt := some 0 }, lossFirst (withSlot (w up [(indKey .refs 1 0, 1), (indKey .refs 1 16, 1), (indKey .refs 1 80, 1)]) 0 fun k => { k with insideAt := some 0 }), 0, 0,
   by decide⟩

theorem test_wit_slotEventsAct4 : ∃ (s : State) (i : Fin 16) (u : Nat),
    (slot s i).withinAt = some u ∧ (slot s i).refused = true ∧ u + ticksS (getW s Rg.refsQualTime).toNat ≤ s.now :=
  ⟨withSlot up 0 fun k => { k with refused := true, withinAt := some 0 }, 0, 0,
   by decide⟩

theorem test_wit_transactionsCommit1 : ∃ (s : State) (v : State) (x : Txn) (d : Int) (b : Nat),
    v = lossFirst s ∧ v.refs.txn = some x ∧ x.t0 + prepareTicks ≤ v.now ∧ txnDelta v x = some (d, b) :=
  ⟨{ up with refs := { up.refs with phase := .prepare, txn := some { target := 0, t0 := 0, origin := .selector, got := [{ off := 65536, latch := 0, bound := 10 }], extended := false } } }, lossFirst ({ up with refs := { up.refs with phase := .prepare, txn := some { target := 0, t0 := 0, origin := .selector, got := [{ off := 65536, latch := 0, bound := 10 }], extended := false } } }), { target := 0, t0 := 0, origin := .selector, got := [{ off := 65536, latch := 0, bound := 10 }], extended := false }, 65536, 10,
   by decide⟩

theorem test_wit_transactionsCommit2 : ∃ (s : State) (v : State) (x : Txn),
    v = lossFirst s ∧ v.refs.txn = some x ∧ x.t0 + prepareTicks ≤ v.now ∧ txnDelta v x = none :=
  ⟨{ up with refs := { up.refs with phase := .prepare, txn := some { target := 0, t0 := 0, origin := .selector, got := [], extended := false } } }, lossFirst ({ up with refs := { up.refs with phase := .prepare, txn := some { target := 0, t0 := 0, origin := .selector, got := [], extended := false } } }), { target := 0, t0 := 0, origin := .selector, got := [], extended := false },
   by decide⟩

theorem test_wit_transactionsCommit3 : ∃ (s : State),
    s.refs.phase = .settle ∧ s.refs.settleEnd ≤ s.now :=
  ⟨{ up with refs := { up.refs with phase := .settle } },
   by decide⟩

theorem test_wit_transactionsCommit4 : ∃ (s : State),
    rb s Rg.refsCtrl 0 = true ∧ coreUp s 2 = true ∧ s.refs.wordAt + ticksS 1 ≤ s.now ∧ safe s .refs = false ∧ s.refs.timeSlot = none :=
  ⟨w up [(Rg.refsCtrl, 1)],
   by decide⟩

theorem test_wit_transactionsCommit5 : ∃ (s : State),
    rb s Rg.refsCtrl 0 = true ∧ coreUp s 2 = true ∧ s.refs.wordAt + ticksS 1 ≤ s.now ∧ safe s .refs = true :=
  ⟨withBlk (w up [(Rg.refsCtrl, 1)]) .refs { BlkStat.reset with safe := true },
   by decide⟩

theorem test_wit_transactionsCommit6 : ∃ (s : State) (i : Fin 16),
    rb s Rg.refsCtrl 0 = true ∧ coreUp s 2 = true ∧ s.refs.wordAt + ticksS 1 ≤ s.now ∧ safe s .refs = false ∧ s.refs.timeSlot = some i ∧ s.refs.freqOnly = true :=
  ⟨{ w up [(Rg.refsCtrl, 1)] with refs := { up.refs with timeSlot := some 10, freqOnly := true } }, 10,
   by decide⟩

theorem test_wit_steeringActs1 : ∃ (s : State) (v : State),
    v = lossFirst s ∧ coreUp v 2 = true ∧ v.refs.steerAt + ticksS (getW v Rg.refsSteerPeriod).toNat ≤ v.now ∧ locked v = false :=
  ⟨up, lossFirst (up),
   by decide⟩

theorem test_wit_steeringActs2 : ∃ (s : State) (v : State) (x : State),
    v = lossFirst s ∧ coreUp v 2 = true ∧ v.refs.steerAt + ticksS (getW v Rg.refsSteerPeriod).toNat ≤ v.now ∧ locked v = true ∧ x = modRefs v (fun r => { r with steerAt := v.now, ageing := (v.now, cNow v, (getW v Rg.refsSteerPeriod).toNat) :: v.refs.ageing.filter (fun p => decide (v.now < p.1 + ticksS (86400 * (getW v Rg.refsAgeWin).toNat))) }) ∧ (steerMode x = 1 ∨ steerMode x = 2) ∧ steerMay x = true ∧ x.refs.uart = none :=
  ⟨lockedUp [(Rg.refsSteerCtrl, 1)], lossFirst (lockedUp [(Rg.refsSteerCtrl, 1)]), modRefs (lossFirst (lockedUp [(Rg.refsSteerCtrl, 1)])) (fun r => { r with steerAt := (lossFirst (lockedUp [(Rg.refsSteerCtrl, 1)])).now, ageing := ((lossFirst (lockedUp [(Rg.refsSteerCtrl, 1)])).now, cNow (lossFirst (lockedUp [(Rg.refsSteerCtrl, 1)])), (getW (lossFirst (lockedUp [(Rg.refsSteerCtrl, 1)])) Rg.refsSteerPeriod).toNat) :: (lossFirst (lockedUp [(Rg.refsSteerCtrl, 1)])).refs.ageing.filter (fun p => decide ((lossFirst (lockedUp [(Rg.refsSteerCtrl, 1)])).now < p.1 + ticksS (86400 * (getW (lossFirst (lockedUp [(Rg.refsSteerCtrl, 1)])) Rg.refsAgeWin).toNat))) }),
   by decide⟩

theorem test_wit_steeringActs3 : ∃ (s : State) (v : State) (x : State),
    v = lossFirst s ∧ coreUp v 2 = true ∧ v.refs.steerAt + ticksS (getW v Rg.refsSteerPeriod).toNat ≤ v.now ∧ locked v = true ∧ x = modRefs v (fun r => { r with steerAt := v.now, ageing := (v.now, cNow v, (getW v Rg.refsSteerPeriod).toNat) :: v.refs.ageing.filter (fun p => decide (v.now < p.1 + ticksS (86400 * (getW v Rg.refsAgeWin).toNat))) }) ∧ (steerMode x ≠ 1 ∧ steerMode x ≠ 2 ∨ steerMay x = false ∨ x.refs.uart ≠ none) :=
  ⟨lockedUp [(Rg.refsSteerCtrl, 0)], lossFirst (lockedUp [(Rg.refsSteerCtrl, 0)]), modRefs (lossFirst (lockedUp [(Rg.refsSteerCtrl, 0)])) (fun r => { r with steerAt := (lossFirst (lockedUp [(Rg.refsSteerCtrl, 0)])).now, ageing := ((lossFirst (lockedUp [(Rg.refsSteerCtrl, 0)])).now, cNow (lossFirst (lockedUp [(Rg.refsSteerCtrl, 0)])), (getW (lossFirst (lockedUp [(Rg.refsSteerCtrl, 0)])) Rg.refsSteerPeriod).toNat) :: (lossFirst (lockedUp [(Rg.refsSteerCtrl, 0)])).refs.ageing.filter (fun p => decide ((lossFirst (lockedUp [(Rg.refsSteerCtrl, 0)])).now < p.1 + ticksS (86400 * (getW (lossFirst (lockedUp [(Rg.refsSteerCtrl, 0)])) Rg.refsAgeWin).toNat))) }),
   by decide⟩

theorem test_wit_steeringActs4 : ∃ (s : State),
    oscGain s ≠ 0 ∧ s.refs.steerRetry = none ∧ s.refs.steerStarted = false :=
  ⟨(lockedUp [(Rg.refsSteerCtrl, 0x8001), (Rg.refsDacCfg, 16), (Rg.refsOscGain, 1000), (Rg.refsSteerMax, 10000000), (Rg.refsCode0, 40000)]),
   by decide⟩

theorem test_wit_steeringActs5 : ∃ (s : State),
    oscGain s ≠ 0 ∧ s.refs.steerRetry = none ∧ s.refs.steerStarted = false ∧ steerUart s = false :=
  ⟨(lockedUp [(Rg.refsSteerCtrl, 0x8001), (Rg.refsDacCfg, 16), (Rg.refsOscGain, 1000), (Rg.refsSteerMax, 10000000), (Rg.refsCode0, 40000)]),
   by decide⟩

theorem test_wit_steeringActs6 : ∃ (s : State) (c : Int) (clamped : Bool),
    oscGain s ≠ 0 ∧ s.refs.steerRetry = none ∧ s.refs.steerStarted = true ∧ steerNext s = some (c, clamped) ∧ steerUart s = false :=
  ⟨{ (lockedUp [(Rg.refsSteerCtrl, 0x8001), (Rg.refsDacCfg, 16), (Rg.refsOscGain, 1000), (Rg.refsSteerMax, 10000000), (Rg.refsCode0, 40000)]) with refs := { (lockedUp [(Rg.refsSteerCtrl, 0x8001), (Rg.refsDacCfg, 16), (Rg.refsOscGain, 1000), (Rg.refsSteerMax, 10000000), (Rg.refsCode0, 40000)]).refs with steerStarted := true, clog := [{ tick := 0, w := 1000000, code := 0, locked := true }] } }, 888, false,
   by decide⟩

theorem test_wit_steeringActs7 : ∃ (s : State) (u : UartWait) (line : List Byte),
    s.refs.uart = some u ∧ u.init = false ∧ (replyPrefix s 1).isPrefixOf line = true :=
  ⟨{ up with refs := { up.refs with uart := some { init := false, resent := false, deadline := 5, code := 0, host := none } } }, { init := false, resent := false, deadline := 5, code := 0, host := none }, [],
   by decide⟩

theorem test_wit_steeringActs8 : ∃ (s : State) (u : UartWait) (line : List Byte),
    s.refs.uart = some u ∧ u.init = true ∧ (replyPrefix s 0).isPrefixOf line = true :=
  ⟨{ up with refs := { up.refs with uart := some { init := true, resent := false, deadline := 5, code := 0, host := none } } }, { init := true, resent := false, deadline := 5, code := 0, host := none }, replyPrefix ({ up with refs := { up.refs with uart := some { init := true, resent := false, deadline := 5, code := 0, host := none } } }) 0,
   by decide⟩

theorem test_wit_steeringActs9 : ∃ (s : State) (u : UartWait) (line : List Byte),
    s.refs.uart = some u ∧ (replyPrefix s (if u.init then 0 else 1)).isPrefixOf line = false :=
  ⟨{ w up [(indKey .refs 3 31, 2)] with refs := { up.refs with uart := some { init := false, resent := false, deadline := 5, code := 0, host := none } } }, { init := false, resent := false, deadline := 5, code := 0, host := none }, [1, 2, 3, 4, 5, 6, 7, 8],
   by decide⟩

theorem test_wit_steeringActs10 : ∃ (s : State) (u : UartWait),
    s.refs.uart = some u ∧ u.deadline ≤ s.now ∧ (u.deadline < s.now ∨ (s.pending.any fun c => match c with | .steerReply _ => true | _ => false) = false) :=
  ⟨{ up with refs := { up.refs with uart := some { init := false, resent := true, deadline := 5, code := 0, host := none } } }, { init := false, resent := true, deadline := 5, code := 0, host := none },
   by decide⟩

theorem test_wit_steeringActs11 : ∃ (s : State) (u : UartWait),
    s.refs.uart = some u ∧ u.deadline ≤ s.now ∧ (u.deadline < s.now ∨ (s.pending.any fun c => match c with | .steerReply _ => true | _ => false) = false) ∧ u.resent = true ∧ u.host = none ∧ s.refs.oscWait = [] :=
  ⟨{ up with refs := { up.refs with uart := some { init := false, resent := true, deadline := 5, code := 0, host := none } } }, { init := false, resent := true, deadline := 5, code := 0, host := none },
   by decide⟩

theorem test_wit_steeringActs12 : ∃ (s : State) (hd : Hdr) (code : BitVec 32),
    Accepts s hd 0x36 ∧ steerMode s = 3 ∧ rb s Rg.refsSteerCtrl 2 = false ∧ -(2 ^ (fld (getW s Rg.refsDacCfg).toNat 4 0 - 1) : Int) ≤ code.toInt ∧ code.toInt < 2 ^ (fld (getW s Rg.refsDacCfg).toNat 4 0 - 1) ∧ s.refs.uart = none :=
  ⟨w up [(Rg.refsSteerCtrl, 3), (Rg.refsDacCfg, 16)], hd0, 100,
   ⟨rfl, rfl, rfl⟩, by decide, by decide, by decide, by decide, by decide⟩

theorem test_wit_steeringActs13 : ∃ (s : State) (hd : Hdr) (code : BitVec 32),
    Accepts s hd 0x36 ∧ steerMode s = 3 ∧ rb s Rg.refsSteerCtrl 2 = false ∧ -(2 ^ (fld (getW s Rg.refsDacCfg).toNat 4 0 - 1) : Int) ≤ code.toInt ∧ code.toInt < 2 ^ (fld (getW s Rg.refsDacCfg).toNat 4 0 - 1) ∧ s.refs.uart ≠ none :=
  ⟨{ w up [(Rg.refsSteerCtrl, 3), (Rg.refsDacCfg, 16)] with refs := { up.refs with uart := some { init := false, resent := false, deadline := 5, code := 0, host := none } } }, hd0, 100,
   ⟨rfl, rfl, rfl⟩, by decide, by decide, by decide, by decide, by decide⟩

theorem test_wit_steeringActs14 : ∃ (s : State) (hd : Hdr) (code : BitVec 32),
    Accepts s hd 0x36 ∧ steerMode s = 3 ∧ rb s Rg.refsSteerCtrl 2 = true ∧ -((getW s Rg.refsUartVmax).toNat : Int) ≤ code.toInt ∧ code.toInt ≤ (getW s Rg.refsUartVmax).toNat ∧ s.refs.uart = none :=
  ⟨w up [(Rg.refsSteerCtrl, 7), (Rg.refsUartVmax, 1000)], hd0, 100,
   ⟨rfl, rfl, rfl⟩, by decide, by decide, by decide, by decide, by decide⟩

theorem test_wit_steeringActs15 : ∃ (s : State) (hd : Hdr) (code : BitVec 32),
    Accepts s hd 0x36 ∧ steerMode s = 3 ∧ rb s Rg.refsSteerCtrl 2 = true ∧ -((getW s Rg.refsUartVmax).toNat : Int) ≤ code.toInt ∧ code.toInt ≤ (getW s Rg.refsUartVmax).toNat ∧ s.refs.uart ≠ none :=
  ⟨{ w up [(Rg.refsSteerCtrl, 7), (Rg.refsUartVmax, 1000)] with refs := { up.refs with uart := some { init := false, resent := false, deadline := 5, code := 0, host := none } } }, hd0, 100,
   ⟨rfl, rfl, rfl⟩, by decide, by decide, by decide, by decide, by decide⟩

theorem test_wit_refCommandsAct1 : ∃ (s : State) (hd : Hdr),
    s.hif.discard.contains hd = false ∧ s.pwr.phase = .ready ∧ coreUp s 2 = true :=
  ⟨up, hd0,
   by decide⟩

theorem test_wit_refCommandsAct2 : ∃ (s : State) (hd : Hdr) (i : Fin 16) (on : BitVec 8) (w : Word),
    s.hif.discard.contains hd = false ∧ s.pwr.phase = .ready ∧ coreUp s 2 = true ∧ standbyHeld s = false ∧ on.toNat ≤ 1 ∧ w = (if on = 1 then getW s (indKey .refs 1 (8 * i.val)) ||| 2 else getW s (indKey .refs 1 (8 * i.val)) &&& ~~~(2 : Word)) :=
  ⟨up, hd0, 3, 1, getW (up) (indKey .refs 1 24) ||| 2,
   by decide⟩

theorem test_wit_refCommandsAct3 : ∃ (s : State) (hd : Hdr) (i : Fin 16) (v : State) (mode : BitVec 8),
    s.hif.discard.contains hd = false ∧ s.pwr.phase = .ready ∧ coreUp s 2 = true ∧ v = lossFirst s ∧ v.refs.timeSlot = some i ∧ v.refs.freqOnly = true ∧ mayBegin v = true ∧ v.refs.phase ≠ .prepare ∧ v.refs.commitAt ≠ some v.now ∧ mode.toNat ≤ 1 :=
  ⟨{ up with refs := { up.refs with timeSlot := some 3, freqOnly := true } }, hd0, 3, lossFirst ({ up with refs := { up.refs with timeSlot := some 3, freqOnly := true } }), 1,
   by decide⟩

theorem test_wit_refCommandsAct4 : ∃ (s : State) (hd : Hdr) (i : Fin 16),
    s.hif.discard.contains hd = false ∧ s.pwr.phase = .ready ∧ coreUp s 2 = true ∧ eligibleTime s i = true ∧ forced s i = true ∧ mayBegin s = true ∧ rb s Rg.refsCtrl 0 = true ∧ s.refs.phase = .idle :=
  ⟨withSlot (w up [(Rg.refsCtrl, 1), (indKey .refs 1 24, 1)]) 3 fun k => { k with active := true, qualified := true, ovr := some 1 }, hd0, 3,
   by decide⟩

theorem test_wit_refCommandsAct5 : ∃ (s : State) (hd : Hdr) (on : BitVec 8),
    s.hif.discard.contains hd = false ∧ s.pwr.phase = .ready ∧ coreUp s 2 = true ∧ s.refs.everLocked = true ∧ on.toNat ≤ 1 :=
  ⟨{ up with refs := { up.refs with everLocked := true } }, hd0, 1,
   by decide⟩

theorem test_wit_refCommandsAct6 : ∃ (s : State) (hd : Hdr) (ovr : BitVec 8),
    s.hif.discard.contains hd = false ∧ s.pwr.phase = .ready ∧ coreUp s 2 = true ∧ ovr.toNat ≤ 1 :=
  ⟨up, hd0, 1,
   by decide⟩

theorem test_wit_channelsAndSearches1 : ∃ (s : State) (n : Fin 512) (d : SigDef) (ind : Nat) (ms : Nat),
    gbbOn s = true ∧ (chan s n.val).st = .pullIn ∧ sigOf (chan s n.val).signal.toNat = some d ∧ portLive s (chan s n.val).port = true ∧ 800 ≤ ind ∧ 100 ≤ ms :=
  ⟨{ w (withChan { Chan.idle with st := .pullIn, signal := 1, sv := 5, pullAt := 0, lostAt := 0 }) [(Rg.gbbPortCfg0, 1)] with now := 1000000000001 }, 3, ⟨0, 1575420, 1023, 1023, 1, false, 2⟩, 900, 100,
   by decide⟩

theorem test_wit_channelsAndSearches2 : ∃ (s : State) (n : Fin 512),
    gbbOn s = true ∧ (chan s n.val).st = .pullIn ∧ (chan s n.val).pullAt + ticksMs 500 ≤ s.now ∧ lockWaits s n.val = false :=
  ⟨withChan { Chan.idle with st := .pullIn, signal := 1, sv := 5, pullAt := 0, lostAt := 0 }, 3,
   by decide⟩

theorem test_wit_channelsAndSearches3 : ∃ (s : State) (n : Fin 512) (ind : Nat) (indMs : Nat),
    gbbOn s = true ∧ (chan s n.val).st.tracks = true ∧ ind < 500 ∧ 200 ≤ indMs :=
  ⟨{ w (withChan { Chan.idle with st := .ready, signal := 1, sv := 5, pullAt := 0, lostAt := 0 }) [(Rg.gbbPortCfg0, 1)] with now := 1000000000001 }, 3, 400, 300,
   by decide⟩

theorem test_wit_channelsAndSearches4 : ∃ (s : State) (n : Fin 512) (ind : Nat) (cn0 : Nat) (cn0Ms : Nat),
    gbbOn s = true ∧ (chan s n.val).st.tracks = true ∧ 500 ≤ ind ∧ cn0 < rf s Rg.gbbTrack 7 0 * 100 ∧ 500 ≤ cn0Ms :=
  ⟨{ w (withChan { Chan.idle with st := .ready, signal := 1, sv := 5, pullAt := 0, lostAt := 0 }) [(Rg.gbbPortCfg0, 1)] with now := 1000000000001 }, 3, 900, 100, 600,
   by decide⟩

theorem test_wit_channelsAndSearches5 : ∃ (s : State) (n : Fin 512),
    gbbOn s = true ∧ ((chan s n.val).st = .lost ∨ ((chan s n.val).st = .pullIn ∧ (chan s n.val).reacq = true ∧ lockWaits s n.val = false)) ∧ (chan s n.val).lostAt + ticksS (rf s Rg.gbbTrack 31 24) ≤ s.now :=
  ⟨withChan { Chan.idle with st := .lost, signal := 1, sv := 5, pullAt := 0, lostAt := 0 }, 3,
   by decide⟩

theorem test_wit_channelsAndSearches6 : ∃ (s : State) (n : Fin 512),
    gbbOn s = true ∧ (chan s n.val).st = .track :=
  ⟨{ w (withChan { Chan.idle with st := .track, signal := 1, sv := 5, pullAt := 0, lostAt := 0 }) [(Rg.gbbPortCfg0, 1)] with now := 1000000000001 }, 3,
   by decide⟩

theorem test_wit_channelsAndSearches7 : ∃ (s : State) (n : Fin 512),
    gbbOn s = true ∧ (chan s n.val).st = .sync ∧ coreUp s 1 = true :=
  ⟨{ w (withChan { Chan.idle with st := .sync, signal := 1, sv := 5, pullAt := 0, lostAt := 0 }) [(Rg.gbbPortCfg0, 1)] with now := 1000000000001 }, 3,
   by decide⟩

theorem test_wit_channelsAndSearches8 : ∃ (s : State) (p : Fin 4) (rate : Bool) (hz : BitVec 32),
    gbbOn s = true ∧ rb s (Rg.gbbPortCfg0 + 4 * p.val) 0 = true ∧ (rate = false ∨ rateOff s p hz.toNat = true) ∧ (gspPort s p).failed = false :=
  ⟨w up [(Rg.gbbCtrl, 1), (Rg.gbbPortCfg0, 1)], 0, true, 20000000,
   by decide⟩

theorem test_wit_channelsAndSearches9 : ∃ (s : State) (p : Fin 4) (rate : Bool) (hz : BitVec 32),
    gbbOn s = true ∧ rb s (Rg.gbbPortCfg0 + 4 * p.val) 0 = true ∧ (rate = false ∨ rateOff s p hz.toNat = true) ∧ (gspPort s p).failed = true :=
  ⟨{ w up [(Rg.gbbCtrl, 1), (Rg.gbbPortCfg0, 1), (indKey .gbb 2 1, 40920000)] with gbb := { up.gbb with ports := up.gbb.ports.set 0 { failed := true, rateKhz := 0, cleanAt := some 5 } } }, 0, false, 20000000,
   by decide⟩

theorem test_wit_channelsAndSearches10 : ∃ (s : State) (p : Fin 4) (rate : Bool) (hz : BitVec 32),
    gbbOn s = true ∧ rb s (Rg.gbbPortCfg0 + 4 * p.val) 0 = true ∧ rate = true ∧ rateOff s p hz.toNat = false :=
  ⟨w up [(Rg.gbbCtrl, 1), (Rg.gbbPortCfg0, 1), (indKey .gbb 2 1, 40920000)], 0, true, 40920000,
   by decide⟩

theorem test_wit_channelsAndSearches11 : ∃ (s : State) (p : Fin 4) (hz : BitVec 32) (u : Nat),
    gbbOn s = true ∧ (gspPort s p).failed = true ∧ (gspPort s p).cleanAt = some u ∧ u + ticksMs 100 ≤ s.now ∧ rateOff s p hz.toNat = false :=
  ⟨{ w up [(Rg.gbbCtrl, 1), (Rg.gbbPortCfg0, 1), (indKey .gbb 2 1, 40920000)] with gbb := { up.gbb with ports := up.gbb.ports.set 0 { failed := true, rateKhz := 0, cleanAt := some 5 } } }, 0, 40920000, 5,
   by decide⟩

theorem test_wit_channelsAndSearches12 : ∃ (s : State) (x : Search) (rest : List Search),
    gbbOn s = true ∧ s.gbb.searches = x :: rest ∧ s.gbb.searchEnd ≤ s.now :=
  ⟨{ w up [(Rg.gbbCtrl, 1)] with gbb := { up.gbb with searches := [{ host := some hd0, addr := 0, len := 4096, port := 0, signal := 1, tCoh := 1, nNc := 8, thresh := 40, assign := false, centre := 0, half := 0, bin := 0, mask := 1 }] } }, { host := some hd0, addr := 0, len := 4096, port := 0, signal := 1, tCoh := 1, nNc := 8, thresh := 40, assign := false, centre := 0, half := 0, bin := 0, mask := 1 }, [],
   by decide⟩

theorem test_wit_channelsAndSearches13 : ∃ (s : State) (l : Nat) (b : Nat),
    gbbOn s = true ∧ b = totNs s.tco.counter / (1000000000 / latchRate s) * (1000000000 / latchRate s) ∧ s.gbb.lastLatch = some l ∧ l < b ∧ latchFired s b = false :=
  ⟨{ w up [(Rg.gbbCtrl, 1)] with gbb := { up.gbb with lastLatch := some 0 }, tco := { up.tco with counter := 1000 * unitsPerSec } }, 0, 1000000000000,
   by decide⟩

theorem test_wit_channelsAndSearches14 : ∃ (s : State) (n : Fin 512) (p : NavIn),
    gbbFw s = true ∧ ((chan s n.val).st = .sync ∨ (chan s n.val).st = .ready) ∧ pageOk (chan s n.val).signal p = false :=
  ⟨{ w (withChan { Chan.idle with st := .ready, signal := 1, sv := 5, pullAt := 0, lostAt := 0 }) [(Rg.gbbPortCfg0, 1)] with now := 1000000000001 }, 3, { bits := 300, payload := 0, passed := [], dec := [], utc := none },
   by decide⟩

theorem test_wit_channelsAndSearches15 : ∃ (s : State) (n : Fin 512) (p : NavIn),
    gbbFw s = true ∧ ((chan s n.val).st = .sync ∨ (chan s n.val).st = .ready) ∧ pageOk (chan s n.val).signal p = true :=
  ⟨{ w (withChan { Chan.idle with st := .ready, signal := 1, sv := 5, pullAt := 0, lostAt := 0 }) [(Rg.gbbPortCfg0, 1)] with now := 1000000000001 }, 3, { bits := 300, payload := 5, passed := checksOf 1, dec := [], utc := none },
   by decide⟩

theorem test_wit_channelsAndSearches16 : ∃ (s : State) (g : Bool) (w : SolWork),
    gbbFw s = true ∧ (group s g).work = some w :=
  ⟨{ w up [(Rg.gbbCtrl, 1)] with gbb := { up.gbb with groups := up.gbb.groups.set 0 { up.gbb.groups[0] with running := true, fixed := true, work := some { seq := 1, tick := 0, instant := 0, coast := false } } } }, false, { seq := 1, tick := 0, instant := 0, coast := false },
   by decide⟩

theorem test_wit_channelsAndSearches17 : ∃ (s : State) (g : Bool) (sys : Nat) (sv : Nat),
    gbbFw s = true ∧ (s.gbb.excl.any fun e => e.group = g && e.sys = sys && e.sv = sv && !e.host && decide (e.until_ ≤ s.now)) = true :=
  ⟨{ w up [(Rg.gbbCtrl, 1)] with gbb := { up.gbb with excl := [{ group := false, sys := 0, sv := 5, host := false, until_ := 0 }] } }, false, 0, 5,
   by decide⟩

theorem test_wit_gnssCommandsAct1 : ∃ (s : State) (hd : Hdr) (mask : BitVec 8) (kind : BitVec 8),
    s.hif.discard.contains hd = false ∧ s.pwr.phase = .ready ∧ coreUp s 1 = true ∧ mask ≠ 0 ∧ mask.toNat ≤ 3 ∧ kind.toNat ≤ 2 ∧ rb s Rg.gbbCtrl 0 = true ∧ (mask.getLsbD 0 = true → (group s false).running = false) ∧ (mask.getLsbD 1 = true → (group s true).running = false) :=
  ⟨w up [(Rg.gbbCtrl, 1)], hd0, 1, 0,
   by decide⟩

theorem test_wit_gnssCommandsAct2 : ∃ (s : State) (hd : Hdr) (mask : BitVec 8),
    s.hif.discard.contains hd = false ∧ s.pwr.phase = .ready ∧ coreUp s 1 = true ∧ mask.toNat ≤ 3 ∧ (mask.getLsbD 0 = true ∧ (group s false).running = true ∨ mask.getLsbD 1 = true ∧ (group s true).running = true) :=
  ⟨modGroup up true fun g => { g with running := true }, hd0, 2,
   by decide⟩

theorem test_wit_gnssCommandsAct3 : ∃ (s : State) (hd : Hdr) (addr : BitVec 64) (len : BitVec 32) (req : BitVec 256) (x : Search),
    s.hif.discard.contains hd = false ∧ s.pwr.phase = .ready ∧ coreUp s 1 = true ∧ searchReq s hd addr len req = some x ∧ searchesFull s = false :=
  ⟨w up [(Rg.gbbCtrl, 1), (indKey .gbb 2 0, 1575420000), (indKey .gbb 2 1, 40000000)], hd0, 0, 4096, BitVec.ofNat 256 (0x100 + 2 ^ 128), { host := some hd0, addr := 0, len := 4096, port := 0, signal := 1, tCoh := 1, nNc := 8, thresh := 40, assign := false, centre := 0, half := 0, bin := 0, mask := 1 },
   by decide⟩

theorem test_wit_gnssCommandsAct4 : ∃ (s : State) (hd : Hdr) (port : BitVec 8) (signal : BitVec 8) (sv : BitVec 8) (d : SigDef) (n : Nat),
    s.hif.discard.contains hd = false ∧ s.pwr.phase = .ready ∧ coreUp s 1 = true ∧ port.toNat < 4 ∧ sigOf signal.toNat = some d ∧ receivable s port.toNat d = true ∧ svOk (sysOf signal) sv.toNat = true ∧ findChan s (Fin.ofNat 4 port.toNat) signal sv (fun c => c.st != .idle) = none ∧ freeChan s = some n :=
  ⟨w up [(Rg.gbbCtrl, 1), (Rg.gbbPortCfg0, 1), (indKey .gbb 2 0, 1575420000), (indKey .gbb 2 1, 40000000)], hd0, 0, 1, 5, ⟨0, 1575420, 1023, 1023, 1, false, 2⟩, 0,
   by decide⟩

theorem test_wit_gnssCommandsAct5 : ∃ (s : State) (hd : Hdr) (port : BitVec 8) (signal : BitVec 8) (sv : BitVec 8) (d : SigDef) (n : Nat),
    s.hif.discard.contains hd = false ∧ s.pwr.phase = .ready ∧ coreUp s 1 = true ∧ port.toNat < 4 ∧ sigOf signal.toNat = some d ∧ receivable s port.toNat d = true ∧ svOk (sysOf signal) sv.toNat = true ∧ findChan s (Fin.ofNat 4 port.toNat) signal sv (fun c => c.st != .idle) = some n :=
  ⟨{ w up [(Rg.gbbCtrl, 1), (Rg.gbbPortCfg0, 1), (indKey .gbb 2 0, 1575420000), (indKey .gbb 2 1, 40920000)] with gbb := { up.gbb with chans := [(3, { Chan.idle with st := .track, signal := 1, sv := 5, pinned := true })] } }, hd0, 0, 1, 5, ⟨0, 1575420, 1023, 1023, 1, false, 2⟩, 3,
   by decide⟩

theorem test_wit_gnssCommandsAct6 : ∃ (s : State) (hd : Hdr) (port : BitVec 8) (signal : BitVec 8) (sv : BitVec 8) (d : SigDef) (n : Nat),
    s.hif.discard.contains hd = false ∧ s.pwr.phase = .ready ∧ coreUp s 1 = true ∧ port.toNat < 4 ∧ sigOf signal.toNat = some d ∧ receivable s port.toNat d = true ∧ svOk (sysOf signal) sv.toNat = true ∧ findChan s (Fin.ofNat 4 port.toNat) signal sv (fun c => c.pinned) = some n :=
  ⟨{ w up [(Rg.gbbCtrl, 1), (Rg.gbbPortCfg0, 1), (indKey .gbb 2 0, 1575420000), (indKey .gbb 2 1, 40920000)] with gbb := { up.gbb with chans := [(3, { Chan.idle with st := .track, signal := 1, sv := 5, pinned := true })] } }, hd0, 0, 1, 5, ⟨0, 1575420, 1023, 1023, 1, false, 2⟩, 3,
   by decide⟩

theorem test_wit_gnssCommandsAct7 : ∃ (s : State) (hd : Hdr),
    s.hif.discard.contains hd = false ∧ s.pwr.phase = .ready ∧ coreUp s 1 = true ∧ standbyHeld s = false :=
  ⟨up, hd0,
   by decide⟩

theorem test_wit_gnssCommandsAct8 : ∃ (s : State) (hd : Hdr) (g : Bool),
    s.hif.discard.contains hd = false ∧ s.pwr.phase = .ready ∧ coreUp s 1 = true ∧ (group s g).work.isSome = true :=
  ⟨modGroup up true fun g => { g with work := some { seq := 1, tick := 0, instant := 0, coast := false } }, hd0, true,
   by decide⟩

theorem test_wit_gnssCommandsAct9 : ∃ (s : State) (hd : Hdr) (g : Bool),
    s.hif.discard.contains hd = false ∧ s.pwr.phase = .ready ∧ coreUp s 1 = true ∧ (group s g).work = none :=
  ⟨up, hd0, true,
   by decide⟩

theorem test_wit_gnssCommandsAct10 : ∃ (s : State) (hd : Hdr),
    s.hif.discard.contains hd = false ∧ s.pwr.phase = .ready ∧ coreUp s 1 = true :=
  ⟨up, hd0,
   by decide⟩

theorem test_wit_gnssCommandsAct11 : ∃ (s : State) (hd : Hdr) (g : Bool) (r : Sol),
    s.hif.discard.contains hd = false ∧ s.pwr.phase = .ready ∧ coreUp s 1 = true ∧ (group s g).last = some r :=
  ⟨modGroup up false fun g => { g with last := some { o := 0, bm := 1, sigmaPs := 0, integrity := 0, used := 4, excluded := 0, systems := 1, latchSeq := 1, rmsPs := 0 } }, hd0, false, { o := 0, bm := 1, sigmaPs := 0, integrity := 0, used := 4, excluded := 0, systems := 1, latchSeq := 1, rmsPs := 0 },
   by decide⟩

theorem test_wit_gnssCommandsAct12 : ∃ (s : State) (hd : Hdr) (sys : BitVec 8) (sv : BitVec 8) (on : BitVec 8),
    s.hif.discard.contains hd = false ∧ s.pwr.phase = .ready ∧ coreUp s 1 = true ∧ svOk sys.toNat sv.toNat = true ∧ on.toNat ≤ 1 :=
  ⟨up, hd0, 0, 5, 1,
   by decide⟩

theorem test_wit_gnssCommandsAct13 : ∃ (s : State) (hd : Hdr),
    s.hif.discard.contains hd = false ∧ s.pwr.phase = .ready ∧ coreUp s 1 = true ∧ (group s false).running = false ∧ (group s true).running = false ∧ standbyHeld s = false :=
  ⟨up, hd0,
   by decide⟩

theorem test_wit_readsIntoHostMemory1 : ∃ (s : State) (hd : Hdr) (r : LatchRec) (seq : BitVec 32) (len : BitVec 32),
    s.hif.discard.contains hd = false ∧ s.pwr.phase = .ready ∧ coreUp s 1 = true ∧ (if seq = 0xFFFFFFFF then s.gbb.latches.head? else s.gbb.latches.find? fun r => r.seq = seq) = some r ∧ r.length ≤ len.toNat :=
  ⟨{ up with gbb := { up.gbb with latches := [{ tick := 0, instant := 0, seq := 4, whole := true, coast := false, step := false, portFail := false, entries := [] }] } }, hd0, { tick := 0, instant := 0, seq := 4, whole := true, coast := false, step := false, portFail := false, entries := [] }, 4, 4096,
   by decide⟩

theorem test_wit_readsIntoHostMemory2 : ∃ (s : State) (hd : Hdr) (first : BitVec 32),
    s.hif.discard.contains hd = false ∧ s.pwr.phase = .ready ∧ coreUp s 1 = true ∧ s.gbb.pages = [] ∧ first = s.gbb.pseq :=
  ⟨up, hd0, 0,
   by decide⟩

theorem test_wit_readsIntoHostMemory3 : ∃ (s : State) (hd : Hdr) (first : BitVec 32) (c : BitVec 16) (ahead : Nat) (held : Nat) (l : List Page),
    s.hif.discard.contains hd = false ∧ s.pwr.phase = .ready ∧ coreUp s 1 = true ∧ ahead = (if 2 ^ 31 ≤ (s.gbb.pseq - first).toNat then 0 else (s.gbb.pseq - first).toNat) ∧ held = min ahead s.gbb.pages.length ∧ l = (s.gbb.pages.drop (s.gbb.pages.length - held)).take c.toNat :=
  ⟨{ up with gbb := { up.gbb with pseq := 5, pages := [{ rxTs32 := 0, signal := 1, sv := 5, bits := 300, pseq := 4, chan := 3, injected := false, payload := 5 }] } }, hd0, 4, 9, 1, 1, [{ rxTs32 := 0, signal := 1, sv := 5, bits := 300, pseq := 4, chan := 3, injected := false, payload := 5 }],
   by decide⟩

theorem test_wit_readsIntoHostMemory4 : ∃ (s : State) (hd : Hdr),
    s.hif.discard.contains hd = false ∧ s.pwr.phase = .ready ∧ opRuns s 0x52 = true :=
  ⟨{ up with tio := { up.tio with capQ := [{ ts32 := 1, frac := 0, pin := 2, rising := true, coast := false, lost := false, st := 0, teb := 5, cseq := 0 }] } }, hd0,
   by decide⟩

theorem test_wit_readsIntoHostMemory5 : ∃ (s : State) (hd : Hdr),
    s.hif.discard.contains hd = false ∧ s.pwr.phase = .ready ∧ opRuns s 0x53 = true :=
  ⟨{ up with tio := { up.tio with edgeQ := [{ edge := 1, q := 0, seq := 0, source := 1, missed := false, notEmitted := false, stepped := false, standby := false, index := 0 }] } }, hd0,
   by decide⟩

theorem test_wit_readsIntoHostMemory6 : ∃ (s : State) (hd : Hdr),
    s.hif.discard.contains hd = false ∧ s.pwr.phase = .ready ∧ opRuns s 0x72 = true :=
  ⟨up, hd0,
   by decide⟩

theorem test_wit_readsIntoHostMemory7 : ∃ (s : State) (hd : Hdr) (table : BitVec 8),
    s.hif.discard.contains hd = false ∧ s.pwr.phase = .ready ∧ table.toNat ≤ 1 ∧ enumHere s (table = 1) = true ∧ opRuns s 0x94 = true :=
  ⟨up, hd0, 0,
   by decide⟩

theorem test_wit_readsIntoHostMemory8 : ∃ (s : State) (hd : Hdr),
    s.hif.discard.contains hd = false ∧ s.pwr.phase = .ready ∧ opRuns s 0xD0 = true :=
  ⟨withBlk up .tco { BlkStat.reset with hist := [{ ts := 0, blk := .tco, seq := 1, code := 1, cls := .notice, esc := false, test := false, detail := 0 }] }, hd0,
   by decide⟩

theorem test_wit_readsIntoHostMemory9 : ∃ (s : State) (hd : Hdr) (len : BitVec 32),
    s.hif.discard.contains hd = false ∧ s.pwr.phase = .ready ∧ opRuns s 0xD1 = true ∧ 4096 ≤ len.toNat :=
  ⟨up, hd0, 4096,
   by decide⟩

theorem test_wit_readsIntoHostMemory10 : ∃ (s : State) (hd : Hdr) (len : BitVec 32),
    s.hif.discard.contains hd = false ∧ s.pwr.phase = .ready ∧ opRuns s 0xD1 = true ∧ len.toNat % 16 = 0 :=
  ⟨up, hd0, 4096,
   by decide⟩

theorem test_wit_readsIntoHostMemory11 : ∃ (s : State) (hd : Hdr),
    s.hif.discard.contains hd = false ∧ s.pwr.phase = .ready ∧ opRuns s 0xBA = true :=
  ⟨up, hd0,
   by decide⟩

theorem test_wit_outputEdgesPlaced1 : ∃ (s : State) (o : Fin 4) (k : Nat),
    s.tio.ppsNext[o] = some k ∧ tioOn s = true ∧ (outCfg s o.val).1 = true ∧ edgeWaits s = false ∧ placeIdx s (ppsTarget s o.val k - outDelay s o.val) 1 < 16 :=
  ⟨{ w up [(Rg.tioCtrl, 1), (indKey .tio 1 0, 1)] with tio := { up.tio with ppsNext := up.tio.ppsNext.set 0 (some 0) } }, 0, 0,
   by decide⟩

theorem test_wit_outputEdgesPlaced2 : ∃ (s : State) (o : Fin 22) (e : Nat),
    (outPin s o.val).pulseEnd = some e ∧ e < 16 * (s.now + 1) ∧ (outPin s o.val).level = .active :=
  ⟨{ up with tio := { up.tio with outs := up.tio.outs.set 7 { OutPin.reset with level := .active, pulseEnd := some 5 } } }, 7, 5,
   by decide⟩

theorem test_wit_outputEdgesPlaced3 : ∃ (s : State) (o : Fin 22) (e : Nat),
    (outPin s o.val).pulseEnd = some e ∧ e < 16 * (s.now + 1) ∧ (outPin s o.val).level ≠ .active :=
  ⟨{ up with tio := { up.tio with outs := up.tio.outs.set 7 { OutPin.reset with level := .inactive, pulseEnd := some 5 } } }, 7, 5,
   by decide⟩

theorem test_wit_outputEdgesPlaced4 : ∃ (s : State) (p : Fin 16) (x : Trig),
    s.tio.trigs[p] = some x ∧ tioOn s = true ∧ fld (ind s .tio 3 (4 * p.val)) 1 0 = 1 ∧ edgeWaits s = false ∧ trigDue s p x = true :=
  ⟨{ w up [(Rg.tioCtrl, 1), (indKey .tio 3 8, 1)] with tio := { up.tio with trigs := up.tio.trigs.set 2 (some { mode := 0, rate := false, count := 1, startSec := 0, startSub := 0, per := 0, j := 0, emitted := 0, stopAt := none, arm := 0 }) } }, 2, { mode := 0, rate := false, count := 1, startSec := 0, startSub := 0, per := 0, j := 0, emitted := 0, stopAt := none, arm := 0 },
   by decide⟩

theorem test_wit_outputEdgesPlaced5 : ∃ (s : State),
    tioOn s = true :=
  ⟨w up [(Rg.tioCtrl, 1), (indKey .tio 2 0, 3)],
   by decide⟩

theorem test_wit_outputEdgesPlaced6 : ∃ (s : State) (u : State) (n : Fin 2) (ph : Nat),
    tioOn s = true ∧ (outCfg s (n.val + 4)).1 = true ∧ edgeWaits s = false ∧ u = freqSecond s n.val ∧ u.tio.freq[n].next = some ph ∧ ph < 16 * (s.now + 1) :=
  ⟨{ w up [(Rg.tioCtrl, 1), (indKey .tio 2 0, 1), (indKey .tio 2 1, 65536)] with tio := { up.tio with freq := up.tio.freq.set 0 { up.tio.freq[0] with next := some 5 } }, tco := { up.tco with counter := unitsPerSec / 2 } }, freqSecond ({ w up [(Rg.tioCtrl, 1), (indKey .tio 2 0, 1), (indKey .tio 2 1, 65536)] with tio := { up.tio with freq := up.tio.freq.set 0 { up.tio.freq[0] with next := some 5 } }, tco := { up.tco with counter := unitsPerSec / 2 } }) 0, 0, 5,
   by decide⟩

theorem test_wit_inputEdgesStamped1 : ∃ (s : State) (p : Fin 16) (ph : Fin 16) (rising : Bool) (l : Nat),
    tioOn s = true ∧ rb s Rg.tioCtrl 1 = true ∧ fld (ind s .tio 3 (4 * p.val)) 1 0 = 2 ∧ (fld (ind s .tio 3 (4 * p.val)) 4 3).testBit (if rising then 0 else 1) = true ∧ s.tio.capLast[p] = some l ∧ 16 * s.now + ph.val < l + 8 * ind s .tio 3 (4 * p.val + 2) :=
  ⟨{ w up [(Rg.tioCtrl, 3), (indKey .tio 3 8, 10), (indKey .tio 3 10, 100)] with tio := { up.tio with capLast := up.tio.capLast.set 2 (some 16000000000000) } }, 2, 4, true, 16000000000000,
   by decide⟩

theorem test_wit_inputEdgesStamped2 : ∃ (s : State) (p : Fin 16) (ph : Fin 16) (rising : Bool),
    tioOn s = true ∧ rb s Rg.tioCtrl 1 = true ∧ fld (ind s .tio 3 (4 * p.val)) 1 0 = 2 ∧ (fld (ind s .tio 3 (4 * p.val)) 4 3).testBit (if rising then 0 else 1) = true ∧ (∀ l ∈ s.tio.capLast[p], l + 8 * ind s .tio 3 (4 * p.val + 2) ≤ 16 * s.now + ph.val) ∧ s.tio.capQ.length < 512 :=
  ⟨w up [(Rg.tioCtrl, 3), (indKey .tio 3 8, 10), (indKey .tio 3 10, 100)], 2, 4, true,
   by decide⟩

theorem test_wit_inputEdgesStamped3 : ∃ (s : State) (p : Fin 16) (ph : Fin 16) (rising : Bool),
    tioOn s = true ∧ rb s Rg.tioCtrl 1 = true ∧ fld (ind s .tio 3 (4 * p.val)) 1 0 = 2 ∧ (fld (ind s .tio 3 (4 * p.val)) 4 3).testBit (if rising then 0 else 1) = true ∧ (∀ l ∈ s.tio.capLast[p], l + 8 * ind s .tio 3 (4 * p.val + 2) ≤ 16 * s.now + ph.val) ∧ 512 ≤ s.tio.capQ.length :=
  ⟨{ w up [(Rg.tioCtrl, 3), (indKey .tio 3 8, 10), (indKey .tio 3 10, 100)] with tio := { up.tio with capQ := List.replicate 512 { ts32 := 1, frac := 0, pin := 2, rising := true, coast := false, lost := false, st := 0, teb := 5, cseq := 0 } } }, 2, 4, true,
   by decide⟩

theorem test_wit_inputEdgesStamped4 : ∃ (s : State) (n : Fin 4) (rising : Bool) (l : Nat),
    tioOn s = true ∧ (ind s .tio 4 (4 * n.val)).testBit 0 ≠ rising ∧ s.tio.ppsIn[n].lastTick = some l ∧ s.now < l + ticksMs 500 :=
  ⟨{ w up [(Rg.tioCtrl, 5)] with tio := { up.tio with ppsIn := up.tio.ppsIn.set 1 { up.tio.ppsIn[1] with lastTick := some 1000000000000 } } }, 1, true, 1000000000000,
   by decide⟩

theorem test_wit_inputEdgesStamped5 : ∃ (s : State) (n : Fin 4) (rising : Bool),
    tioOn s = true ∧ (ind s .tio 4 (4 * n.val)).testBit 0 ≠ rising ∧ (s.tio.ppsIn[n].lastTick.all fun l => decide (l + ticksMs 500 ≤ s.now)) = true :=
  ⟨{ w up [(Rg.tioCtrl, 5)] with tio := { up.tio with ppsIn := up.tio.ppsIn.set 1 { up.tio.ppsIn[1] with begun := true } } }, 1, true,
   by decide⟩

theorem test_wit_inputEdgesStamped6 : ∃ (s : State),
    tioOn s = true ∧ rb s Rg.tioCtrl 2 = true :=
  ⟨w up [(Rg.tioCtrl, 4)],
   by decide⟩

theorem test_wit_inputEdgesStamped7 : ∃ (s : State),
    tioOn s = true ∧ rb s Rg.tioCtrl 2 = true :=
  ⟨w up [(Rg.tioCtrl, 5)],
   by decide⟩

theorem test_wit_inputEdgesStamped8 : ∃ (s : State) (n : Fin 4),
    tioOn s = true ∧ rb s Rg.tioCtrl 2 = true ∧ s.tio.ppsIn[n].begun = true ∧ todRef s n = true :=
  ⟨{ w up [(Rg.tioCtrl, 5), (indKey .tio 4 4, 2)] with tio := { up.tio with ppsIn := up.tio.ppsIn.set 1 { up.tio.ppsIn[1] with begun := true } } }, 1,
   by decide⟩

theorem test_wit_inputEdgesStamped9 : ∃ (s : State) (n : Fin 4) (q : Pulse),
    tioOn s = true ∧ rb s Rg.tioCtrl 2 = true ∧ s.tio.ppsIn[n].begun = true ∧ todRef s n = false ∧ s.tio.ppsIn[n].pulse = some q ∧ s.now ≤ q.tick + todWin s n :=
  ⟨{ w up [(Rg.tioCtrl, 5), (indKey .tio 4 5, 100)] with tio := { up.tio with ppsIn := up.tio.ppsIn.set 1 { up.tio.ppsIn[1] with begun := true, pulse := some { stamp := 0, tick := 1000000000000, msgs := [] } } } }, 1, { stamp := 0, tick := 1000000000000, msgs := [] },
   by decide⟩

theorem test_wit_inputEdgesStamped10 : ∃ (s : State) (n : Fin 4),
    tioOn s = true ∧ rb s Rg.tioCtrl 2 = true ∧ s.tio.ppsIn[n].begun = true ∧ todRef s n = false ∧ s.tio.ppsIn[n].pulse = none :=
  ⟨{ w up [(Rg.tioCtrl, 5)] with tio := { up.tio with ppsIn := up.tio.ppsIn.set 1 { up.tio.ppsIn[1] with begun := true } } }, 1,
   by decide⟩

theorem test_wit_inputEdgesStamped11 : ∃ (s : State) (n : Fin 4) (q : Pulse),
    s.tio.ppsIn[n].pulse = some q ∧ rb s Rg.tioCtrl 2 = true ∧ q.tick + todWin s n ≤ s.now ∧ (q.tick + todWin s n < s.now ∨ todWaits s n = false) :=
  ⟨{ w up [(Rg.tioCtrl, 4)] with tio := { up.tio with ppsIn := up.tio.ppsIn.set 1 { up.tio.ppsIn[1] with pulse := some { stamp := 0, tick := 0, msgs := [] } } } }, 1, { stamp := 0, tick := 0, msgs := [] },
   by decide⟩

theorem test_wit_inputEdgesStamped12 : ∃ (s : State) (n : Fin 4) (q : Pulse),
    s.tio.ppsIn[n].pulse = some q ∧ rb s Rg.tioCtrl 2 = true ∧ q.tick + todWin s n ≤ s.now ∧ (q.tick + todWin s n < s.now ∨ todWaits s n = false) ∧ q.msgs = [] :=
  ⟨{ w up [(Rg.tioCtrl, 4)] with tio := { up.tio with ppsIn := up.tio.ppsIn.set 1 { up.tio.ppsIn[1] with pulse := some { stamp := 0, tick := 0, msgs := [] } } } }, 1, { stamp := 0, tick := 0, msgs := [] },
   by decide⟩

theorem test_wit_triggerCommandsAct1 : ∃ (s : State) (hd : Hdr) (p : Fin 16) (block : BitVec 256) (x : Trig),
    Accepts s hd 0x50 ∧ standbyHeld s = false ∧ rb s Rg.tioCtrl 0 = true ∧ trigBlock s (BitVec.ofNat 8 p.val) block = some x ∧ s.tio.trigs[p] = none ∧ subNs s.tco.counter + 10000 * 65536 ≤ x.startSec * subSec + x.startSub :=
  ⟨w up [(Rg.tioCtrl, 1), (indKey .tio 3 8, 1), (indKey .tio 3 9, 8)], hd0, 2, BitVec.ofNat 256 (100 * 2 ^ 64 + 2 ^ 32), { mode := 0, rate := false, count := 1, startSec := 100, startSub := 0, per := 0, j := 0, emitted := 0, stopAt := none, arm := 0 },
   ⟨rfl, rfl, rfl⟩, by decide, by decide, by decide, by decide, by decide⟩

theorem test_wit_triggerCommandsAct2 : ∃ (s : State) (hd : Hdr) (p : Fin 16) (x : Trig) (sec : BitVec 64) (ns : BitVec 32),
    Accepts s hd 0x50 ∧ standbyHeld s = false ∧ s.tio.trigs[p] = some x ∧ sec.toNat < 2 ^ 48 ∧ ns.toNat < 1000000000 :=
  ⟨{ up with tio := { up.tio with trigs := up.tio.trigs.set 2 (some { mode := 0, rate := false, count := 1, startSec := 100, startSub := 0, per := 0, j := 0, emitted := 0, stopAt := none, arm := 0 }) } }, hd0, 2, { mode := 0, rate := false, count := 1, startSec := 100, startSub := 0, per := 0, j := 0, emitted := 0, stopAt := none, arm := 0 }, 200, 5,
   ⟨rfl, rfl, rfl⟩, by decide, by decide, by decide, by decide⟩

theorem test_wit_triggerCommandsAct3 : ∃ (s : State) (hd : Hdr) (mask : BitVec 8),
    Accepts s hd 0x50 ∧ standbyHeld s = false ∧ mask.toNat ≤ 3 ∧ (∀ n : Fin 2, mask.getLsbD n.val = true → freqMode s n.val = 0) :=
  ⟨w up [(indKey .tio 2 0, 1)], hd0, 1,
   ⟨rfl, rfl, rfl⟩, by decide, by decide, by decide⟩

theorem test_wit_serviceEventsAct1 : ∃ (s : State),
    s.svc.polAt + ticksS 1 ≤ s.now :=
  ⟨up,
   by decide⟩

theorem test_wit_serviceEventsAct2 : ∃ (s : State),
    s.svc.kodDrop ≠ 0 ∧ s.svc.capAt + ticksS 1 ≤ s.now :=
  ⟨{ up with svc := { up.svc with kodDrop := 3 } },
   by decide⟩

theorem test_wit_serviceEventsAct3 : ∃ (s : State) (i : Fin 16) (u : Nat),
    s.svc.rotate = some (i, u) ∧ u ≤ totNs s.tco.counter :=
  ⟨{ up with svc := { up.svc with keys := up.svc.keys.set 1 { keyId := 9, slot := 5, st := .accept, unsealed := 0, retireAt := none }, rotate := some (1, 0) } }, 1, 0,
   by decide⟩

theorem test_wit_serviceEventsAct4 : ∃ (s : State) (i : Fin 16) (u : Nat),
    s.svc.keys[i].retireAt = some u ∧ u ≤ totNs s.tco.counter :=
  ⟨{ up with svc := { up.svc with keys := up.svc.keys.set 1 { keyId := 9, slot := 5, st := .retiring, unsealed := 0, retireAt := some 0 } } }, 1, 0,
   by decide⟩

theorem test_wit_serviceCommandsAct1 : ∃ (s : State) (hd : Hdr) (e : CookieKey) (aead : BitVec 16) (count : BitVec 8) (src : BitVec 64) (len : BitVec 32),
    s.hif.discard.contains hd = false ∧ s.pwr.phase = .ready ∧ coreUp s 3 = true ∧ mintEntry s (cookieTable s (nowNs s)) (nowNs s) = some e ∧ aeadOn s aead.toNat = true ∧ count ≠ 0 ∧ count.toNat ≤ 8 ∧ count.toNat * cookieLen aead.toNat ≤ len.toNat ∧ tamperWaits (hostRead s src.toNat (2 * aeadKeyLen aead.toNat)) = false :=
  ⟨{ w (withKey 0x2420) [(Rg.svcCtrl, 15)] with svc := { up.svc with cur := some 1, keys := up.svc.keys.set 1 { keyId := 9, slot := 5, st := .current, unsealed := 0, retireAt := none } } }, hd0, { keyId := 9, slot := 5, st := .current, unsealed := 0, retireAt := none }, 15, 1, 64, 400,
   by decide +kernel⟩

theorem test_wit_serviceCommandsAct2 : ∃ (s : State) (hd : Hdr) (i : Fin 16) (slot_ : BitVec 8) (keyId : BitVec 32),
    s.hif.discard.contains hd = false ∧ s.pwr.phase = .ready ∧ coreUp s 3 = true ∧ standbyHeld s = false ∧ s.svc.keys[i].st = .empty ∧ keyId ≠ 0 ∧ cookieUsable s slot_.toNat = true ∧ (∀ j : Fin 16, s.svc.keys[j].st = .empty ∨ s.svc.keys[j].keyId ≠ keyId) :=
  ⟨withKey 0x2420, hd0, 1, 5, 9,
   by decide⟩

theorem test_wit_serviceCommandsAct3 : ∃ (s : State) (hd : Hdr) (i : Fin 16) (sec : BitVec 64) (ns : BitVec 32) (u : Nat),
    s.hif.discard.contains hd = false ∧ s.pwr.phase = .ready ∧ coreUp s 3 = true ∧ standbyHeld s = false ∧ s.svc.keys[i].st = .accept ∧ s.svc.rotate = none ∧ ns.toNat < 1000000000 ∧ u = atInstant s sec ns ∧ totNs s.tco.counter < u :=
  ⟨{ up with svc := { up.svc with keys := up.svc.keys.set 1 { keyId := 9, slot := 5, st := .accept, unsealed := 0, retireAt := none } } }, hd0, 1, 100, 5, 100000000005,
   by decide⟩

theorem test_wit_serviceCommandsAct4 : ∃ (s : State) (hd : Hdr) (i : Fin 16) (sec : BitVec 64) (ns : BitVec 32) (u : Nat),
    s.hif.discard.contains hd = false ∧ s.pwr.phase = .ready ∧ coreUp s 3 = true ∧ standbyHeld s = false ∧ s.svc.keys[i].st = .accept ∧ s.svc.rotate = none ∧ ns.toNat < 1000000000 ∧ u = atInstant s sec ns ∧ u = totNs s.tco.counter :=
  ⟨{ up with svc := { up.svc with keys := up.svc.keys.set 1 { keyId := 9, slot := 5, st := .accept, unsealed := 0, retireAt := none } } }, hd0, 1, 0, 0, 0,
   by decide⟩

theorem test_wit_serviceCommandsAct5 : ∃ (s : State) (hd : Hdr) (i : Fin 16) (sec : BitVec 64) (ns : BitVec 32) (u : Nat),
    s.hif.discard.contains hd = false ∧ s.pwr.phase = .ready ∧ coreUp s 3 = true ∧ standbyHeld s = false ∧ (s.svc.keys[i].st = .accept ∨ s.svc.keys[i].st = .current) ∧ ns.toNat < 1000000000 ∧ u = atInstant s sec ns ∧ totNs s.tco.counter < u :=
  ⟨{ up with svc := { up.svc with keys := up.svc.keys.set 1 { keyId := 9, slot := 5, st := .accept, unsealed := 0, retireAt := none } } }, hd0, 1, 100, 5, 100000000005,
   by decide⟩

theorem test_wit_serviceCommandsAct6 : ∃ (s : State) (hd : Hdr) (i : Fin 16) (sec : BitVec 64) (ns : BitVec 32) (u : Nat),
    s.hif.discard.contains hd = false ∧ s.pwr.phase = .ready ∧ coreUp s 3 = true ∧ standbyHeld s = false ∧ (s.svc.keys[i].st = .accept ∨ s.svc.keys[i].st = .current) ∧ ns.toNat < 1000000000 ∧ u = atInstant s sec ns ∧ u = totNs s.tco.counter :=
  ⟨{ up with svc := { up.svc with keys := up.svc.keys.set 1 { keyId := 9, slot := 5, st := .accept, unsealed := 0, retireAt := none } } }, hd0, 1, 0, 0, 0,
   by decide⟩

theorem test_wit_serviceCommandsAct7 : ∃ (s : State) (hd : Hdr) (fam : BitVec 8),
    s.hif.discard.contains hd = false ∧ s.pwr.phase = .ready ∧ coreUp s 3 = true ∧ fam.toNat ≤ 1 :=
  ⟨up, hd0, 0,
   by decide⟩

theorem test_wit_serviceCommandsAct8 : ∃ (s : State) (hd : Hdr),
    s.hif.discard.contains hd = false ∧ s.pwr.phase = .ready ∧ coreUp s 3 = true :=
  ⟨up, hd0,
   by decide⟩

theorem test_wit_ptpEventsAct1 : ∃ (s : State) (i : Fin 16),
    (inst s i).running = true ∧ isSlave s i = false ∧ profile s i ≠ 2 ∧ (inst s i).nextSync ≤ s.now ∧ (silenced s i = true ∨ servingAt s (subNs (schedCounter s (inst s i).nextSync)) = false) :=
  ⟨withInst (w up [(indKey .ptp 1 16, 0x01000001), (indKey .ptp 1 21, 0x01000000)]) { up.ptp.insts[1] with running := true }, 1,
   by decide⟩

theorem test_wit_ptpEventsAct2 : ∃ (s : State) (i : Fin 16),
    (inst s i).running = true ∧ isSlave s i = false ∧ profile s i ≠ 2 ∧ (inst s i).nextAnn ≤ s.now ∧ (silenced s i = true ∨ servingAt s (subNs (schedCounter s (inst s i).nextAnn)) = false) :=
  ⟨withInst (w up [(indKey .ptp 1 16, 0x01000001), (indKey .ptp 1 21, 0x01000000)]) { up.ptp.insts[1] with running := true }, 1,
   by decide⟩

theorem test_wit_ptpEventsAct3 : ∃ (s : State) (v : State) (i : Fin 16),
    (inst s i).running = true ∧ isSlave s i = false ∧ profile s i ≠ 2 ∧ (inst s i).nextSync ≤ s.now ∧ silenced s i = false ∧ servingAt s (subNs (schedCounter s (inst s i).nextSync)) = true ∧ v = modInst (modInst s i fun k => { k with nextSync := k.nextSync + logTicks (logSync s i) }) i (fun k => { k with seqSync := k.seqSync + 1 }) :=
  ⟨{ withInst (w up [(Rg.ptpCtrl, 3), (indKey .ptp 1 16, 0x01000001), (indKey .ptp 1 21, 0x00000000)]) { up.ptp.insts[1] with running := true } with tco := { up.tco with st := .clear, teb := 5 } }, modInst (modInst ({ withInst (w up [(Rg.ptpCtrl, 3), (indKey .ptp 1 16, 0x01000001), (indKey .ptp 1 21, 0x00000000)]) { up.ptp.insts[1] with running := true } with tco := { up.tco with st := .clear, teb := 5 } }) 1 fun k => { k with nextSync := k.nextSync + logTicks (logSync ({ withInst (w up [(Rg.ptpCtrl, 3), (indKey .ptp 1 16, 0x01000001), (indKey .ptp 1 21, 0x00000000)]) { up.ptp.insts[1] with running := true } with tco := { up.tco with st := .clear, teb := 5 } }) 1) }) 1 (fun k => { k with seqSync := k.seqSync + 1 }), 1,
   by decide⟩

theorem test_wit_ptpEventsAct4 : ∃ (s : State) (v : State) (i : Fin 16),
    (inst s i).running = true ∧ isSlave s i = false ∧ profile s i ≠ 2 ∧ (inst s i).nextAnn ≤ s.now ∧ silenced s i = false ∧ servingAt s (subNs (schedCounter s (inst s i).nextAnn)) = true ∧ v = modInst (modInst s i fun k => { k with nextAnn := k.nextAnn + logTicks (logAnn s i) }) i (fun k => { k with seqAnn := k.seqAnn + 1 }) :=
  ⟨{ withInst (w up [(Rg.ptpCtrl, 3), (indKey .ptp 1 16, 0x01000001), (indKey .ptp 1 21, 0x00000000)]) { up.ptp.insts[1] with running := true } with tco := { up.tco with st := .clear, teb := 5 } }, modInst (modInst ({ withInst (w up [(Rg.ptpCtrl, 3), (indKey .ptp 1 16, 0x01000001), (indKey .ptp 1 21, 0x00000000)]) { up.ptp.insts[1] with running := true } with tco := { up.tco with st := .clear, teb := 5 } }) 1 fun k => { k with nextAnn := k.nextAnn + logTicks (logAnn ({ withInst (w up [(Rg.ptpCtrl, 3), (indKey .ptp 1 16, 0x01000001), (indKey .ptp 1 21, 0x00000000)]) { up.ptp.insts[1] with running := true } with tco := { up.tco with st := .clear, teb := 5 } }) 1) }) 1 (fun k => { k with seqAnn := k.seqAnn + 1 }), 1,
   by decide⟩

theorem test_wit_ptpEventsAct5 : ∃ (s : State) (i : Fin 16) (e : Nat) (g : GrantEntry) (kind : GrantKind) (x : Grant),
    (inst s i).running = true ∧ isSlave s i = false ∧ grantAt s e = some g ∧ g.get kind = some x ∧ g.inst = i ∧ kind ≠ .delayResp ∧ x.next ≤ s.now ∧ streamRuns s g kind x = true ∧ (silenced s i = true ∨ servingAt s (subNs (schedCounter s x.next)) = false ∨ cancelWaits s e g kind = true) :=
  ⟨{ withInst (w up [(Rg.ptpCtrl, 3), (indKey .ptp 1 16, 0x01000005), (indKey .ptp 1 21, 0x01000000)]) { up.ptp.insts[1] with running := true } with ptp := { (withInst (w up [(Rg.ptpCtrl, 3), (indKey .ptp 1 16, 0x01000005), (indKey .ptp 1 21, 0x01000000)]) { up.ptp.insts[1] with running := true }).ptp with grants := [(0, { inst := 1, ipv6 := false, addr := 0x0A000001, udpPort := 320, ident := 0, port := 0, announce := none, sync := some { logInt := 0, until_ := 2000000000000, seqId := 0, next := 0 }, delayResp := none })] } }, 1, 0, { inst := 1, ipv6 := false, addr := 0x0A000001, udpPort := 320, ident := 0, port := 0, announce := none, sync := some { logInt := 0, until_ := 2000000000000, seqId := 0, next := 0 }, delayResp := none }, .sync, { logInt := 0, until_ := 2000000000000, seqId := 0, next := 0 },
   by decide⟩

theorem test_wit_ptpEventsAct6 : ∃ (s : State) (i : Fin 16) (e : Nat) (g : GrantEntry) (kind : GrantKind) (x : Grant) (v : State),
    (inst s i).running = true ∧ isSlave s i = false ∧ grantAt s e = some g ∧ g.get kind = some x ∧ g.inst = i ∧ kind ≠ .delayResp ∧ x.next ≤ s.now ∧ streamRuns s g kind x = true ∧ silenced s i = false ∧ servingAt s (subNs (schedCounter s x.next)) = true ∧ cancelWaits s e g kind = false ∧ v = putGrant s e (g.put kind (some { x with next := x.next + logTicks x.logInt, seqId := x.seqId + 1 })) :=
  ⟨{ withInst (w up [(Rg.ptpCtrl, 3), (indKey .ptp 1 16, 0x01000005), (indKey .ptp 1 21, 0x00000000)]) { up.ptp.insts[1] with running := true } with ptp := { (withInst (w up [(Rg.ptpCtrl, 3), (indKey .ptp 1 16, 0x01000005), (indKey .ptp 1 21, 0x00000000)]) { up.ptp.insts[1] with running := true }).ptp with grants := [(0, { inst := 1, ipv6 := false, addr := 0x0A000001, udpPort := 320, ident := 0, port := 0, announce := none, sync := some { logInt := 0, until_ := 2000000000000, seqId := 0, next := 0 }, delayResp := none })] }, tco := { up.tco with st := .clear, teb := 5 } }, 1, 0, { inst := 1, ipv6 := false, addr := 0x0A000001, udpPort := 320, ident := 0, port := 0, announce := none, sync := some { logInt := 0, until_ := 2000000000000, seqId := 0, next := 0 }, delayResp := none }, .sync, { logInt := 0, until_ := 2000000000000, seqId := 0, next := 0 }, putGrant ({ withInst (w up [(Rg.ptpCtrl, 3), (indKey .ptp 1 16, 0x01000005), (indKey .ptp 1 21, 0x00000000)]) { up.ptp.insts[1] with running := true } with ptp := { (withInst (w up [(Rg.ptpCtrl, 3), (indKey .ptp 1 16, 0x01000005), (indKey .ptp 1 21, 0x00000000)]) { up.ptp.insts[1] with running := true }).ptp with grants := [(0, { inst := 1, ipv6 := false, addr := 0x0A000001, udpPort := 320, ident := 0, port := 0, announce := none, sync := some { logInt := 0, until_ := 2000000000000, seqId := 0, next := 0 }, delayResp := none })] }, tco := { up.tco with st := .clear, teb := 5 } }) 0 (({ inst := 1, ipv6 := false, addr := 0x0A000001, udpPort := 320, ident := 0, port := 0, announce := none, sync := some { logInt := 0, until_ := 2000000000000, seqId := 0, next := 0 }, delayResp := none } : GrantEntry).put .sync (some { ({ logInt := 0, until_ := 2000000000000, seqId := 0, next := 0 } : Grant) with next := ({ logInt := 0, until_ := 2000000000000, seqId := 0, next := 0 } : Grant).next + logTicks ({ logInt := 0, until_ := 2000000000000, seqId := 0, next := 0 } : Grant).logInt, seqId := ({ logInt := 0, until_ := 2000000000000, seqId := 0, next := 0 } : Grant).seqId + 1 })),
   by decide⟩

theorem test_wit_ptpEventsAct7 : ∃ (s : State) (f : FollowUp) (rest : List FollowUp),
    s.ptp.follow = f :: rest ∧ followMay { s with ptp := { s.ptp with follow := rest } } f = false :=
  ⟨{ up with ptp := { up.ptp with follow := [{ inst := 1, port := 0, pdelay := false, entry := none, seqId := 3, stamp := 0, corr := 0, teb := 5, ident := 0, decided := 0, key := none }] } }, { inst := 1, port := 0, pdelay := false, entry := none, seqId := 3, stamp := 0, corr := 0, teb := 5, ident := 0, decided := 0, key := none }, [],
   by decide⟩

theorem test_wit_ptpEventsAct8 : ∃ (s : State) (f : FollowUp) (rest : List FollowUp),
    s.ptp.follow = f :: rest ∧ followMay { s with ptp := { s.ptp with follow := rest } } f = true :=
  ⟨{ withInst (w up [(Rg.ptpCtrl, 3), (indKey .ptp 1 16, 0x01000005), (indKey .ptp 1 21, 0x00000000)]) { up.ptp.insts[1] with running := true } with ptp := { (withInst (w up [(Rg.ptpCtrl, 3), (indKey .ptp 1 16, 0x01000005), (indKey .ptp 1 21, 0x00000000)]) { up.ptp.insts[1] with running := true }).ptp with follow := [{ inst := 1, port := 0, pdelay := false, entry := none, seqId := 3, stamp := 0, corr := 0, teb := 5, ident := 0, decided := 0, key := none }] }, tco := { up.tco with st := .clear, teb := 5 } }, { inst := 1, port := 0, pdelay := false, entry := none, seqId := 3, stamp := 0, corr := 0, teb := 5, ident := 0, decided := 0, key := none }, [],
   by decide⟩

theorem test_wit_ptpEventsAct9 : ∃ (s : State) (e : Nat) (g : GrantEntry) (kind : GrantKind) (x : Grant),
    grantAt s e = some g ∧ g.get kind = some x ∧ streamRuns s g kind x = false :=
  ⟨{ withInst (w up [(Rg.ptpCtrl, 3), (indKey .ptp 1 16, 0x01000005), (indKey .ptp 1 21, 0x00000000)]) { up.ptp.insts[1] with running := true } with ptp := { (withInst (w up [(Rg.ptpCtrl, 3), (indKey .ptp 1 16, 0x01000005), (indKey .ptp 1 21, 0x00000000)]) { up.ptp.insts[1] with running := true }).ptp with grants := [(0, { inst := 1, ipv6 := false, addr := 0x0A000001, udpPort := 320, ident := 0, port := 0, announce := none, sync := some { logInt := 0, until_ := 0, seqId := 0, next := 0 }, delayResp := none })] } }, 0, { inst := 1, ipv6 := false, addr := 0x0A000001, udpPort := 320, ident := 0, port := 0, announce := none, sync := some { logInt := 0, until_ := 0, seqId := 0, next := 0 }, delayResp := none }, .sync, { logInt := 0, until_ := 0, seqId := 0, next := 0 },
   by decide⟩

theorem test_wit_ptpEventsAct10 : ∃ (s : State),
    s.ptp.alarmAt + ticksS 1 ≤ s.now :=
  ⟨up,
   by decide⟩

theorem test_wit_ptpEventsAct11 : ∃ (s : State) (i : Fin 16) (k : Fin 4) (kind : GrantKind) (g : SlaveGrant),
    slaveGrant s i k kind = some g ∧ (inst s i).running = true ∧ coreUp s 3 = true ∧ g.held = true ∧ g.asked = false ∧ s.now < g.until_ ∧ 4 * (g.until_ - s.now) ≤ g.dur ∧ (kind = .announce ∨ masterIdx s i = some k) :=
  ⟨withInst up { up.ptp.insts[1] with running := true, grants := [{ listIdx := 0, kind := .announce, held := true, until_ := 1000000000010, dur := 100, retryAt := none, asked := false }] }, 1, 0, .announce, { listIdx := 0, kind := .announce, held := true, until_ := 1000000000010, dur := 100, retryAt := none, asked := false },
   by decide⟩

theorem test_wit_ptpEventsAct12 : ∃ (s : State) (i : Fin 16) (k : Fin 4) (kind : GrantKind) (g : SlaveGrant),
    slaveGrant s i k kind = some g ∧ (inst s i).running = true ∧ coreUp s 3 = true ∧ g.held = true ∧ g.until_ ≤ s.now ∧ (g.until_ < s.now ∨ regrantWaits s i k kind = false) :=
  ⟨withInst up { up.ptp.insts[1] with running := true, grants := [{ listIdx := 0, kind := .sync, held := true, until_ := 10, dur := 100, retryAt := none, asked := false }] }, 1, 0, .sync, { listIdx := 0, kind := .sync, held := true, until_ := 10, dur := 100, retryAt := none, asked := false },
   by decide⟩

theorem test_wit_ptpEventsAct13 : ∃ (s : State) (i : Fin 16) (k : Fin 4) (kind : GrantKind) (g : SlaveGrant) (u : Nat),
    slaveGrant s i k kind = some g ∧ (inst s i).running = true ∧ coreUp s 3 = true ∧ g.held = false ∧ g.retryAt = some u ∧ u ≤ s.now ∧ (kind = .announce ∨ masterIdx s i = some k) :=
  ⟨withInst up { up.ptp.insts[1] with running := true, grants := [{ listIdx := 0, kind := .announce, held := false, until_ := 10, dur := 100, retryAt := some 5, asked := false }] }, 1, 0, .announce, { listIdx := 0, kind := .announce, held := false, until_ := 10, dur := 100, retryAt := some 5, asked := false }, 5,
   by decide⟩

theorem test_wit_ptpEventsAct14 : ∃ (s : State) (i : Fin 16) (c : Candidate),
    (inst s i).cands.find? (fun x => x.ident = c.ident) = some c ∧ c.last + fld (ptpCfg s i 4) 31 24 * logTicks (logAnn s i) ≤ s.now ∧ (c.last + fld (ptpCfg s i 4) 31 24 * logTicks (logAnn s i) < s.now ∨ ptpWaits s i (fun x => x.msg.type = .announce && x.msg.src = c.ident) = false) :=
  ⟨withInst up { up.ptp.insts[1] with running := true, cands := [{ ident := 7, addr := 1, listIdx := none, data := { prio1 := 1, cls := 6, acc := 0x20, var := 1, prio2 := 1, gmIdent := 7, steps := 0 }, last := 0, prev := none }] }, 1, { ident := 7, addr := 1, listIdx := none, data := { prio1 := 1, cls := 6, acc := 0x20, var := 1, prio2 := 1, gmIdent := 7, steps := 0 }, last := 0, prev := none },
   by decide⟩

theorem test_wit_ptpEventsAct15 : ∃ (s : State) (i : Fin 16),
    (inst s i).running = true ∧ isSlave s i = true ∧ (inst s i).nextDelay ≤ s.now ∧ (inst s i).master = none ∧ profile s i ≠ 3 :=
  ⟨withInst (w up [(indKey .ptp 1 16, 0x01000011)]) { up.ptp.insts[1] with running := true }, 1,
   by decide⟩

theorem test_wit_ptpEventsAct16 : ∃ (s : State) (i : Fin 16) (key : Option SecKey),
    (inst s i).running = true ∧ isSlave s i = true ∧ (inst s i).nextDelay ≤ s.now ∧ ((inst s i).master.isSome = true ∨ profile s i = 3) ∧ (profile s i ≠ 2 ∨ (match masterIdx s i with | some idx => (slaveGrant s i idx .delayResp).any fun g => g.held && decide (s.now < g.until_) | none => false) = true) ∧ signKey s i (totNs (schedCounter s (inst s i).nextDelay)) = some key :=
  ⟨withInst (w up [(indKey .ptp 1 16, 0x01000011)]) { up.ptp.insts[1] with running := true, master := some 5 }, 1, none,
   by decide⟩

theorem test_wit_ptpEventsAct17 : ∃ (s : State) (i : Fin 16),
    (inst s i).running = true ∧ isSlave s i = true ∧ (inst s i).nextDelay ≤ s.now ∧ ((inst s i).master.isSome = true ∨ profile s i = 3) ∧ (profile s i ≠ 2 ∨ (match masterIdx s i with | some idx => (slaveGrant s i idx .delayResp).any fun g => g.held && decide (s.now < g.until_) | none => false) = true) ∧ signKey s i (totNs (schedCounter s (inst s i).nextDelay)) = none :=
  ⟨withInst (w up [(indKey .ptp 1 16, 0x01000091)]) { up.ptp.insts[1] with running := true, master := some 5 }, 1,
   by decide +kernel⟩

theorem test_wit_ptpEventsAct18 : ∃ (s : State) (e : Fin 64) (u : Nat),
    s.ptp.rotate.find? (fun r => r.1 = e) = some (e, u) ∧ u ≤ totNs s.tco.counter :=
  ⟨{ up with ptp := { up.ptp with keys := up.ptp.keys.set 1 { keyId := 9, slot := 5, spp := 1, cmac := false, st := .accept, verified := 0, icvFail := 0, retireAt := none }, rotate := [(1, 0)] } }, 1, 0,
   by decide⟩

theorem test_wit_ptpEventsAct19 : ∃ (s : State) (e : Fin 64) (u : Nat),
    s.ptp.keys[e].retireAt = some u ∧ u ≤ totNs s.tco.counter :=
  ⟨{ up with ptp := { up.ptp with keys := up.ptp.keys.set 1 { keyId := 9, slot := 5, spp := 1, cmac := false, st := .retiring, verified := 0, icvFail := 0, retireAt := some 0 } } }, 1, 0,
   by decide⟩

theorem test_wit_ptpEventsAct20 : ∃ (s : State) (i : Fin 16) (k : Fin 4) (kind : GrantKind),
    kind ≠ .announce ∧ masterIdx s i ≠ some k :=
  ⟨up, 1, 0, .sync,
   by decide⟩

theorem test_wit_ptpCommandsAct1 : ∃ (s : State) (hd : Hdr) (i : Fin 16) (fam : BitVec 8) (addr : BitVec 128) (udp : BitVec 16) (e : Nat) (g : GrantEntry),
    s.hif.discard.contains hd = false ∧ s.pwr.phase = .ready ∧ coreUp s 3 = true ∧ fam.toNat ≤ 1 ∧ findGrant s i (fam = 1) (addrArg (fam = 1) addr) udp none = some e ∧ grantAt s e = some g :=
  ⟨{ up with ptp := { up.ptp with grants := [(0, { inst := 1, ipv6 := false, addr := 0x0100000A, udpPort := 320, ident := 0, port := 0, announce := none, sync := some { logInt := 0, until_ := 2000000000000, seqId := 0, next := 0 }, delayResp := none })] } }, hd0, 1, 0, 0x0A000001, 320, 0, { inst := 1, ipv6 := false, addr := 0x0100000A, udpPort := 320, ident := 0, port := 0, announce := none, sync := some { logInt := 0, until_ := 2000000000000, seqId := 0, next := 0 }, delayResp := none },
   by decide⟩

theorem test_wit_ptpCommandsAct2 : ∃ (s : State) (hd : Hdr) (entry : BitVec 32) (inst_ : BitVec 8) (l : List Nat),
    s.hif.discard.contains hd = false ∧ s.pwr.phase = .ready ∧ coreUp s 3 = true ∧ standbyHeld s = false ∧ l ≠ [] ∧ l = (if entry = 0xFFFFFFFF then (s.ptp.grants.filter fun x => x.2.inst.val = inst_.toNat).map Prod.fst else (s.ptp.grants.filter fun x => x.1 = entry.toNat).map Prod.fst) :=
  ⟨{ up with ptp := { up.ptp with grants := [(0, { inst := 1, ipv6 := false, addr := 0x0A000001, udpPort := 320, ident := 0, port := 0, announce := none, sync := some { logInt := 0, until_ := 2000000000000, seqId := 0, next := 0 }, delayResp := none })] } }, hd0, 0, 1, [0],
   by decide⟩

theorem test_wit_ptpCommandsAct3 : ∃ (s : State) (hd : Hdr) (e : Fin 64) (slot_ : BitVec 8) (spp : BitVec 8) (alg : BitVec 8) (keyId : BitVec 32),
    s.hif.discard.contains hd = false ∧ s.pwr.phase = .ready ∧ coreUp s 3 = true ∧ standbyHeld s = false ∧ s.ptp.keys[e].st = .empty ∧ alg.toNat ≤ 1 ∧ macUsable s slot_.toNat (alg = 1) = true ∧ (∀ j : Fin 64, s.ptp.keys[j].st = .empty ∨ s.ptp.keys[j].spp ≠ spp ∨ s.ptp.keys[j].keyId ≠ keyId) :=
  ⟨withKey 0x2402, hd0, 1, 5, 1, 0, 9,
   by decide⟩

theorem test_wit_ptpCommandsAct4 : ∃ (s : State) (hd : Hdr) (e : Fin 64) (sec : BitVec 64) (ns : BitVec 32) (u : Nat),
    s.hif.discard.contains hd = false ∧ s.pwr.phase = .ready ∧ coreUp s 3 = true ∧ standbyHeld s = false ∧ s.ptp.keys[e].st = .accept ∧ (s.ptp.rotate.any fun r => s.ptp.keys[r.1].spp = s.ptp.keys[e].spp) = false ∧ ns.toNat < 1000000000 ∧ u = atInstant s sec ns ∧ totNs s.tco.counter < u :=
  ⟨{ up with ptp := { up.ptp with keys := up.ptp.keys.set 1 { keyId := 9, slot := 5, spp := 1, cmac := false, st := .accept, verified := 0, icvFail := 0, retireAt := none } } }, hd0, 1, 100, 5, 100000000005,
   by decide⟩

theorem test_wit_ptpCommandsAct5 : ∃ (s : State) (hd : Hdr) (e : Fin 64) (sec : BitVec 64) (ns : BitVec 32) (u : Nat),
    s.hif.discard.contains hd = false ∧ s.pwr.phase = .ready ∧ coreUp s 3 = true ∧ standbyHeld s = false ∧ s.ptp.keys[e].st = .accept ∧ (s.ptp.rotate.any fun r => s.ptp.keys[r.1].spp = s.ptp.keys[e].spp) = false ∧ ns.toNat < 1000000000 ∧ u = atInstant s sec ns ∧ u = totNs s.tco.counter :=
  ⟨{ up with ptp := { up.ptp with keys := up.ptp.keys.set 1 { keyId := 9, slot := 5, spp := 1, cmac := false, st := .accept, verified := 0, icvFail := 0, retireAt := none } } }, hd0, 1, 0, 0, 0,
   by decide⟩

theorem test_wit_ptpCommandsAct6 : ∃ (s : State) (hd : Hdr) (e : Fin 64) (sec : BitVec 64) (ns : BitVec 32) (u : Nat),
    s.hif.discard.contains hd = false ∧ s.pwr.phase = .ready ∧ coreUp s 3 = true ∧ standbyHeld s = false ∧ s.ptp.keys[e].st ≠ .empty ∧ ns.toNat < 1000000000 ∧ u = atInstant s sec ns ∧ totNs s.tco.counter < u :=
  ⟨{ up with ptp := { up.ptp with keys := up.ptp.keys.set 1 { keyId := 9, slot := 5, spp := 1, cmac := false, st := .accept, verified := 0, icvFail := 0, retireAt := none } } }, hd0, 1, 100, 5, 100000000005,
   by decide⟩

theorem test_wit_ptpCommandsAct7 : ∃ (s : State) (hd : Hdr) (e : Fin 64) (sec : BitVec 64) (ns : BitVec 32) (u : Nat),
    s.hif.discard.contains hd = false ∧ s.pwr.phase = .ready ∧ coreUp s 3 = true ∧ standbyHeld s = false ∧ s.ptp.keys[e].st ≠ .empty ∧ ns.toNat < 1000000000 ∧ u = atInstant s sec ns ∧ u = totNs s.tco.counter :=
  ⟨{ up with ptp := { up.ptp with keys := up.ptp.keys.set 1 { keyId := 9, slot := 5, spp := 1, cmac := false, st := .accept, verified := 0, icvFail := 0, retireAt := none } } }, hd0, 1, 0, 0, 0,
   by decide⟩

theorem test_wit_ptpCommandsAct8 : ∃ (s : State) (hd : Hdr) (i : Fin 16),
    s.hif.discard.contains hd = false ∧ s.pwr.phase = .ready ∧ coreUp s 3 = true ∧ (inst s i).running = true ∧ isSlave s i = true :=
  ⟨withInst (w up [(indKey .ptp 1 16, 0x01000011)]) { up.ptp.insts[1] with running := true }, hd0, 1,
   by decide⟩

theorem test_wit_portsFollow1 : ∃ (s : State) (p : Fin 9) (f : EthFrame) (c : Nat),
    portRuns s p = true ∧ (ethPort s p).up = true ∧ f.len ≠ 0 ∧ (ethPort s p).rxBad = false ∧ rxFault s p f = some c :=
  ⟨withPort (w up [(Rg.ethCtrl, 3), (indKey .eth 1 0, 1), (indKey .eth 1 1, 1522)]) 0 { up.eth.ports[0] with mode := 4, up := true }, 0, frame0, 5,
   by decide⟩

theorem test_wit_portsFollow2 : ∃ (s : State) (p : Fin 9) (f : EthFrame),
    portRuns s p = true ∧ (ethPort s p).up = true ∧ f.len ≠ 0 ∧ (ethPort s p).rxBad = true :=
  ⟨withPort (w up [(Rg.ethCtrl, 3), (indKey .eth 1 0, 1), (indKey .eth 1 1, 1522)]) 0 { up.eth.ports[0] with mode := 4, up := true, rxBad := true }, 0, frame0,
   by decide⟩

theorem test_wit_portsFollow3 : ∃ (s : State) (p : Fin 9) (ok : Nat) (bad : Nat) (f : EthFrame) (u : State),
    portRuns s p = true ∧ (ethPort s p).up = true ∧ f.len ≠ 0 ∧ u = perfAdd (ethCnt (ethCnt s p 9 ok) p 10 bad) (112 + 16 * p.val) 1 ∧ (ethPort u p).rxBad = false ∧ rxFault u p f = none :=
  ⟨withPort (w up [(Rg.ethCtrl, 3), (indKey .eth 1 0, 1), (indKey .eth 1 1, 1522)]) 0 { up.eth.ports[0] with mode := 4, up := true }, 0, 1, 0, { frame0 with len := 68 }, perfAdd (ethCnt (ethCnt (withPort (w up [(Rg.ethCtrl, 3), (indKey .eth 1 0, 1), (indKey .eth 1 1, 1522)]) 0 { up.eth.ports[0] with mode := 4, up := true }) 0 9 1) 0 10 0) 112 1,
   by decide⟩

theorem test_wit_portsFollow4 : ∃ (s : State) (p : Fin 9) (d : BitVec 256) (f : EthFrame) (et : BitVec 16) (ip : Option IpHdr),
    portRuns s p = true ∧ (ethPort s p).up = true ∧ f.len ≠ 0 ∧ (ethPort s p).rxBad = false ∧ rxFault s p f = none ∧ f.body = .other et ip ∧ f.tags = [] ∧ f.dst = portMac s p ∧ f.dst ≠ 0x0180C2000001 ∧ f.raw ≠ [] ∧ (List.range 32).find? (filterMatch s p f) = none ∧ s.glb.pcie = true ∧ ringRuns s 14 = true ∧ ringPosted s 14 ≠ 0 ∧ rxMalformed d = false ∧ f.raw.length ≤ fld d.toNat 79 64 :=
  ⟨withRing (withPort (w (ringOn up 14) [(Rg.ethCtrl, 3), (indKey .eth 1 0, 1), (indKey .eth 1 1, 1522), (indKey .eth 1 4, 0), (indKey .eth 1 5, 0x11223344)]) 0 { up.eth.ports[0] with mode := 4, up := true }) 14 { Ring.reset with host := 1 }, 0, BitVec.ofNat 256 (128 * 2 ^ 64 + 0x2000), { frame0 with len := 68, dst := 0x000011223344, raw := List.replicate 64 7 }, 0, none,
   by decide⟩

theorem test_wit_portsFollow5 : ∃ (s : State) (p : Fin 9),
    (ethPort s p).qT = [] ∧ (ethPort s p).qM = [] :=
  ⟨up, 0,
   by decide⟩

theorem test_wit_portsFollow6 : ∃ (s : State) (p : Fin 9) (u : Nat),
    (ethPort s p).wdAt = some u ∧ pausedT s p = true ∧ (ethPort s p).qT ≠ [] ∧ u + ticksUs (ethCfg s p 2) ≤ s.now ∧ pauseEndWaits s p = false :=
  ⟨withPort up 0 { up.eth.ports[0] with wdAt := some 0, pauseAllT := some 2000000000000, qT := [{ frame := frame0, bytes := 64, fill := .none, host := none, grant := none }] }, 0, 0,
   by decide⟩

theorem test_wit_portsFollow7 : ∃ (s : State) (p : Fin 9) (share : Nat),
    portRuns s p = true ∧ (ethPort s p).up = true ∧ (fcMode s p = 1 ∨ fcMode s p = 2) ∧ (ethCfg s p 0).testBit 10 = true ∧ 75 < share ∧ ((ethPort s p).txPausing = false ∨ (ethPort s p).txPauseAt ≤ s.now) :=
  ⟨withPort (w up [(Rg.ethCtrl, 3), (indKey .eth 1 0, 0x501), (indKey .eth 1 1, 1522)]) 0 { up.eth.ports[0] with mode := 4, up := true }, 0, 80,
   by decide⟩

theorem test_wit_portsFollow8 : ∃ (s : State) (p : Fin 9) (share : Nat),
    portRuns s p = true ∧ (ethPort s p).up = true ∧ (fcMode s p = 1 ∨ fcMode s p = 2) ∧ (ethCfg s p 0).testBit 10 = true ∧ share < 50 ∧ (ethPort s p).txPausing = true :=
  ⟨withPort (w up [(Rg.ethCtrl, 3), (indKey .eth 1 0, 0x501), (indKey .eth 1 1, 1522)]) 0 { up.eth.ports[0] with mode := 4, up := true, txPausing := true }, 0, 10,
   by decide⟩

theorem test_wit_portsFollow9 : ∃ (s : State) (u : State) (r : Fin 2) (descs : List (BitVec 256)) (ds : List (BitVec 256)) (p : Fin 9) (data : List Byte) (bytes : List Byte),
    s.pwr.phase = .ready ∧ ringRuns s (11 + r.val) = true ∧ (r.val = 1 → txAhead s descs = false) ∧ txFrameDescs (descs.take (ringPosted s (11 + r.val))) = some ds ∧ ds ≠ [] ∧ ds.length ≤ 8 ∧ ds.any txMalformed = false ∧ (ds.all fun d => txPort d = p.val && txLen d != 0 && decide (txLen d ≤ 9212)) = true ∧ bytes = data.take ((ds.map txLen).foldl (· + ·) 0) ++ List.replicate ((ds.map txLen).foldl (· + ·) 0 - data.length) 0 ∧ bytes.length + 4 ≤ ethCfg s p 1 ∧ u = ringAdvance (ds.foldl (fun v d => hostRead v (txAddr d) (txLen d)) (ringReads s (11 + r.val) ds.length)) (11 + r.val) ds.length ∧ portRuns s p = false :=
  ⟨withRing (ringOn (w up [(indKey .eth 1 1, 1522)]) 11) 11 { Ring.reset with host := 1 }, ringAdvance (hostRead (ringReads (withRing (ringOn (w up [(indKey .eth 1 1, 1522)]) 11) 11 { Ring.reset with host := 1 }) 11 1) (txAddr (BitVec.ofNat 256 (0x40 * 2 ^ 64))) (txLen (BitVec.ofNat 256 (0x40 * 2 ^ 64)))) 11 1, 0, [BitVec.ofNat 256 (0x40 * 2 ^ 64)], [BitVec.ofNat 256 (0x40 * 2 ^ 64)], 0, List.replicate 64 1, List.replicate 64 1,
   by decide⟩

theorem test_wit_portsFollow10 : ∃ (s : State) (u : State) (r : Fin 2) (descs : List (BitVec 256)) (ds : List (BitVec 256)) (p : Fin 9) (data : List Byte) (bytes : List Byte),
    s.pwr.phase = .ready ∧ ringRuns s (11 + r.val) = true ∧ (r.val = 1 → txAhead s descs = false) ∧ txFrameDescs (descs.take (ringPosted s (11 + r.val))) = some ds ∧ ds ≠ [] ∧ ds.length ≤ 8 ∧ ds.any txMalformed = false ∧ (ds.all fun d => txPort d = p.val && txLen d != 0 && decide (txLen d ≤ 9212)) = true ∧ bytes = data.take ((ds.map txLen).foldl (· + ·) 0) ++ List.replicate ((ds.map txLen).foldl (· + ·) 0 - data.length) 0 ∧ bytes.length + 4 ≤ ethCfg s p 1 ∧ u = ringAdvance (ds.foldl (fun v d => hostRead v (txAddr d) (txLen d)) (ringReads s (11 + r.val) ds.length)) (11 + r.val) ds.length ∧ portRuns s p = true ∧ (ethPort s p).up = true ∧ (if classT s p (framePcp s p (hostFrame bytes)) then fullT s p (hostFrame bytes).len else fullM s p (hostFrame bytes).len) = false :=
  ⟨withRing (ringOn (withPort (w up [(Rg.ethCtrl, 3), (indKey .eth 1 0, 1), (indKey .eth 1 1, 1522)]) 0 { up.eth.ports[0] with mode := 4, up := true }) 11) 11 { Ring.reset with host := 1 }, ringAdvance (hostRead (ringReads (withRing (ringOn (withPort (w up [(Rg.ethCtrl, 3), (indKey .eth 1 0, 1), (indKey .eth 1 1, 1522)]) 0 { up.eth.ports[0] with mode := 4, up := true }) 11) 11 { Ring.reset with host := 1 }) 11 1) (txAddr (BitVec.ofNat 256 (0x40 * 2 ^ 64))) (txLen (BitVec.ofNat 256 (0x40 * 2 ^ 64)))) 11 1, 0, [BitVec.ofNat 256 (0x40 * 2 ^ 64)], [BitVec.ofNat 256 (0x40 * 2 ^ 64)], 0, List.replicate 64 1, List.replicate 64 1,
   by decide⟩

theorem test_wit_portsFollow11 : ∃ (s : State) (p : Fin 9),
    p.val < 8 ∧ s.pwr.phase = .ready ∧ (ethPort s p).esmcAt + ticksS 5 ≤ s.now ∧ ((ethPort s p).esmcAt + ticksS 5 < s.now ∨ esmcWaits s p = false) :=
  ⟨up, 0,
   by decide⟩

theorem test_wit_portsFollow12 : ∃ (s : State) (p : Fin 9),
    esmcPort s p = true ∧ serving s = true ∧ (ethCfg s p 0).testBit 12 = true ∧ (ethPort s p).infoAt + ticksS 1 ≤ s.now :=
  ⟨withPort (w up [(Rg.ethCtrl, 3), (indKey .eth 1 0, 0x1001), (indKey .eth 1 1, 1522)]) 0 { up.eth.ports[0] with mode := 4, up := true }, 0,
   by decide⟩

theorem test_wit_portsFollow13 : ∃ (s : State) (p : Fin 9),
    esmcPort s p = true ∧ serving s = true ∧ (ethCfg s p 0).testBit 12 = true ∧ (ethPort s p).qlSent.isSome = true ∧ (ethPort s p).qlSent ≠ some (qlToSend s p) :=
  ⟨withPort (w up [(Rg.ethCtrl, 3), (indKey .eth 1 0, 0x1001), (indKey .eth 1 1, 1522)]) 0 { up.eth.ports[0] with mode := 4, up := true, qlSent := some (1, 1) }, 0,
   by decide⟩

theorem test_wit_portsFollow14 : ∃ (s : State) (p : Fin 9),
    portRuns s p = true ∧ (ethPort s p).up = false :=
  ⟨withPort (w up [(Rg.ethCtrl, 3), (indKey .eth 1 0, 1), (indKey .eth 1 1, 1522)]) 0 { up.eth.ports[0] with mode := 4 }, 0,
   by decide⟩

theorem test_wit_portsFollow15 : ∃ (s : State) (p : Fin 9),
    (ethPort s p).up = true :=
  ⟨withPort up 0 { up.eth.ports[0] with up := true }, 0,
   by decide⟩

theorem test_wit_portsFollow16 : ∃ (s : State) (w : WakeCopy) (f : EthFrame),
    s.eth.wake = some w ∧ s.pwr.state = .simmer ∧ s.eth.wakeN = true ∧ f.fcsOk = true ∧ wakeCauseOf w f.raw ≠ 0 :=
  ⟨{ up with pwr := { up.pwr with state := .simmer }, eth := { up.eth with wake := some { ctrl := 0xFFFF, mac := 0x010203040506, pats := [] } } }, { ctrl := 0xFFFF, mac := 0x010203040506, pats := [] }, { frame0 with raw := List.replicate 20 0xFF ++ (List.replicate 16 [1, 2, 3, 4, 5, 6]).flatten },
   by decide⟩

theorem test_wit_portCommandsAct1 : ∃ (s : State) (hd : Hdr),
    s.hif.discard.contains hd = false ∧ s.pwr.phase = .ready ∧ opRuns s 0x80 = true :=
  ⟨up, hd0,
   by decide⟩

theorem test_wit_portCommandsAct2 : ∃ (s : State) (hd : Hdr) (bus : BitVec 8) (addr : BitVec 8) (len : BitVec 8) (width : BitVec 8) (off : BitVec 16) (data : List Byte) (b : List Byte),
    s.hif.discard.contains hd = false ∧ s.pwr.phase = .ready ∧ opRuns s 0x81 = true ∧ bus.toNat ≤ 1 ∧ addr.toNat ≤ 127 ∧ len ≠ 0 ∧ len.toNat ≤ 128 ∧ (width = 1 ∧ off.toNat ≤ 255 ∨ width = 2) ∧ b = data.take len.toNat ++ List.replicate (len.toNat - data.length) 0 :=
  ⟨up, hd0, 0, 80, 4, 1, 0, [1, 2, 3, 4], [1, 2, 3, 4],
   by decide⟩

theorem test_wit_portCommandsAct3 : ∃ (s : State) (hd : Hdr) (clause : BitVec 8) (port : BitVec 8) (dev : BitVec 8),
    s.hif.discard.contains hd = false ∧ s.pwr.phase = .ready ∧ opRuns s 0x82 = true ∧ (clause = 22 ∨ clause = 45) ∧ port.toNat ≤ 31 ∧ dev.toNat ≤ 31 :=
  ⟨up, hd0, 22, 1, 2,
   by decide⟩

theorem test_wit_portCommandsAct4 : ∃ (s : State) (hd : Hdr) (p : Fin 9),
    s.hif.discard.contains hd = false ∧ s.pwr.phase = .ready ∧ opRuns s 0x83 = true ∧ portPower s p = true :=
  ⟨up, hd0, 0,
   by decide⟩

theorem test_wit_linkStatesFollow1 : ∃ (s : State) (l : Fin 4),
    (link s l).st = .train :=
  ⟨withLink up { up.lnk.links[1] with st := .train, role := .parent }, 1,
   by decide⟩

theorem test_wit_linkStatesFollow2 : ∃ (s : State) (l : Fin 4),
    (link s l).st = .hello ∧ (link s l).helloAt + ticksMs 1 ≤ s.now :=
  ⟨withLink up { up.lnk.links[1] with st := .hello }, 1,
   by decide⟩

theorem test_wit_linkStatesFollow3 : ∃ (s : State) (l : Fin 4),
    (link s l).st = .down ∧ (link s l).downAt + ticksMs 1 ≤ s.now :=
  ⟨withLink up { up.lnk.links[1] with st := .down }, 1,
   by decide⟩

theorem test_wit_linkStatesFollow4 : ∃ (s : State) (l : Fin 4),
    ((link s l).st = .up ∨ (link s l).st = .hello) ∧ ((link s l).txAt + ticksUs 4 ≤ s.now ∨ (link s l).ackDue = true) :=
  ⟨withLink up { up.lnk.links[1] with st := .up }, 1,
   by decide⟩

theorem test_wit_linkStatesFollow5 : ∃ (s : State) (l : Fin 4) (u : Unacked) (r : List Unacked),
    (link s l).retry = u :: r ∧ (link s l).st = .up ∧ u.sent + ticksUs (retryUs (link s l)) ≤ s.now ∧ (u.sent + ticksUs (retryUs (link s l)) < s.now ∨ ackWaits s l = false) ∧ (link s l).resends < 8 :=
  ⟨withLink up { up.lnk.links[1] with st := .up, retry := [{ lseq := 2, body := .swapAccept, len := 8, sent := 0 }] }, 1, { lseq := 2, body := .swapAccept, len := 8, sent := 0 }, [],
   by decide⟩

theorem test_wit_linkStatesFollow6 : ∃ (s : State) (l : Fin 4) (u : Unacked) (r : List Unacked),
    (link s l).retry = u :: r ∧ (link s l).st = .up ∧ u.sent + ticksUs (retryUs (link s l)) ≤ s.now ∧ (u.sent + ticksUs (retryUs (link s l)) < s.now ∨ ackWaits s l = false) ∧ 8 ≤ (link s l).resends :=
  ⟨withLink up { up.lnk.links[1] with st := .up, resends := 8, retry := [{ lseq := 2, body := .swapAccept, len := 8, sent := 0 }] }, 1, { lseq := 2, body := .swapAccept, len := 8, sent := 0 }, [],
   by decide⟩

theorem test_wit_linkStatesFollow7 : ∃ (s : State) (l : Fin 4),
    (link s l).st = .up ∧ (link s l).rxAt + ticksUs (getW s Rg.lnkDeadTo).toNat ≤ s.now ∧ ((link s l).rxAt + ticksUs (getW s Rg.lnkDeadTo).toNat < s.now ∨ linkWaits s l (fun _ => true) = false) :=
  ⟨withLink up { up.lnk.links[1] with st := .up }, 1,
   by decide⟩

theorem test_wit_linkStatesFollow8 : ∃ (s : State) (l : Fin 4),
    (link s l).st = .hello :=
  ⟨withLink up { up.lnk.links[1] with st := .hello }, 1,
   by decide⟩

theorem test_wit_linkStatesFollow9 : ∃ (s : State) (l : Fin 4),
    (link s l).st = .up :=
  ⟨withLink up { up.lnk.links[1] with st := .up }, 1,
   by decide⟩

theorem test_wit_linkExchangesAct1 : ∃ (s : State) (l : Fin 4) (f : LinkFrame),
    ((link s l).st = .up ∨ (link s l).st = .hello) ∧ linksPower s = true ∧ f.crcOk = false :=
  ⟨withLink up { up.lnk.links[1] with st := .up }, 1, { lseq := 0, ack := 0, crcOk := false, lenOk := true, body := .idle },
   by decide⟩

theorem test_wit_linkExchangesAct2 : ∃ (s : State) (l : Fin 4) (f : LinkFrame),
    ((link s l).st = .up ∨ (link s l).st = .hello) ∧ linksPower s = true ∧ f.crcOk = true ∧ (f.lenOk = false ∨ bodyFits f.body = false) :=
  ⟨withLink up { up.lnk.links[1] with st := .up }, 1, { lseq := 0, ack := 0, crcOk := true, lenOk := false, body := .idle },
   by decide⟩

theorem test_wit_linkExchangesAct3 : ∃ (s : State) (l : Fin 4) (f : LinkFrame),
    ((link s l).st = .up ∨ (link s l).st = .hello) ∧ linksPower s = true ∧ f.crcOk = true ∧ f.lenOk = true ∧ bodyFits f.body = true :=
  ⟨withLink up { up.lnk.links[1] with st := .up }, 1, { lseq := 0, ack := 0, crcOk := true, lenOk := true, body := .idle },
   by decide⟩

theorem test_wit_linkExchangesAct4 : ∃ (s : State) (l : Fin 4) (f : LinkFrame),
    (link s l).st = .up ∧ linksPower s = true ∧ f.crcOk = false :=
  ⟨withLink up { up.lnk.links[1] with st := .up }, 1, { lseq := 0, ack := 0, crcOk := false, lenOk := true, body := .idle },
   by decide⟩

theorem test_wit_linkExchangesAct5 : ∃ (s : State) (l : Fin 4) (f : LinkFrame),
    (link s l).st = .up ∧ linksPower s = true ∧ f.crcOk = true ∧ f.lenOk = true ∧ f.body = .idle ∧ (link s l).retry = [] ∧ (link s l).waiting = [] :=
  ⟨withLink up { up.lnk.links[1] with st := .up }, 1, { lseq := 0, ack := 0, crcOk := true, lenOk := true, body := .idle },
   by decide⟩

theorem test_wit_linkExchangesAct6 : ∃ (s : State) (l : Fin 4),
    (link s l).st = .up ∧ ((link s l).role = .parent ∨ (link s l).role = .pair) ∧ (link s l).lastReq ≠ some (txIndexNow s l) ∧ (link s l).exch.length < 8 :=
  ⟨withLink up { up.lnk.links[1] with st := .up, role := .parent }, 1,
   by decide⟩

theorem test_wit_linkExchangesAct7 : ∃ (s : State) (l : Fin 4) (e : Exchange),
    e ∈ (link s l).exch ∧ e.tick + max (8 * txPeriod s l) (ticksMs 1) < s.now :=
  ⟨withLink up { up.lnk.links[1] with st := .up, exch := [{ seq := 1, t1 := 0, tick := 0, stepped := false }] }, 1, { seq := 1, t1 := 0, tick := 0, stepped := false },
   by decide⟩

theorem test_wit_linkExchangesAct8 : ∃ (s : State) (l : Fin 4),
    (link s l).errAt + ticksS 1 ≤ s.now ∧ (link s l).crcSec ≤ (getW s Rg.lnkErrLimit).toNat :=
  ⟨withLink up { up.lnk.links[1] with st := .up }, 1,
   by decide⟩

theorem test_wit_linkExchangesAct9 : ∃ (s : State) (l : Fin 4),
    (link s l).errAt + ticksS 1 ≤ s.now ∧ (getW s Rg.lnkErrLimit).toNat < (link s l).crcSec :=
  ⟨withLink up { up.lnk.links[1] with st := .up, crcSec := 5000 }, 1,
   by decide⟩

theorem test_wit_linkExchangesAct10 : ∃ (s : State) (a : RemoteAcc) (r : List RemoteAcc),
    s.hif.remote = a :: r ∧ a.deadline ≤ s.now ∧ (a.deadline < s.now ∨ cplWaits s a = false) ∧ a.write = false :=
  ⟨{ up with hif := { up.hif with remote := [{ slot := 3, tag := 1, addr := 0x200000, write := false, be := 15, deadline := 5 }] } }, { slot := 3, tag := 1, addr := 0x200000, write := false, be := 15, deadline := 5 }, [],
   by decide⟩

theorem test_wit_linkExchangesAct11 : ∃ (s : State) (a : RemoteAcc) (r : List RemoteAcc),
    s.hif.remote = a :: r ∧ a.deadline ≤ s.now ∧ (a.deadline < s.now ∨ cplWaits s a = false) ∧ a.write = true :=
  ⟨{ up with hif := { up.hif with remote := [{ slot := 3, tag := 1, addr := 0x200000, write := true, be := 15, deadline := 5 }] } }, { slot := 3, tag := 1, addr := 0x200000, write := true, be := 15, deadline := 5 }, [],
   by decide⟩

theorem test_wit_linkExchangesAct12 : ∃ (s : State),
    s.lnk.shelfReqAt + ticksS 60 ≤ s.now :=
  ⟨up,
   by decide⟩

theorem test_wit_linkExchangesAct13 : ∃ (s : State) (l : Fin 4),
    trunkParent s = some l ∧ s.glb.pcie = true ∧ rb s Rg.lnkNodeCfg 17 = false ∧ rb s Rg.lnkNodeCfg 16 = false :=
  ⟨w (withLink up { up.lnk.links[1] with st := .up, role := .parent, trunk := true }) [(indKey .lnk 1 4, 4)], 1,
   by decide⟩

theorem test_wit_linkCommandsAct1 : ∃ (s : State) (hd : Hdr),
    s.hif.discard.contains hd = false ∧ s.pwr.phase = .ready ∧ coreUp s 3 = true :=
  ⟨up, hd0,
   by decide⟩

theorem test_wit_linkCommandsAct2 : ∃ (s : State) (hd : Hdr) (l : Fin 4) (r : LinkRole),
    s.hif.discard.contains hd = false ∧ s.pwr.phase = .ready ∧ coreUp s 3 = true ∧ roleFits s l r = true :=
  ⟨up, hd0, 1, .child,
   by decide⟩

theorem test_wit_linkCommandsAct3 : ∃ (s : State) (hd : Hdr) (l : Fin 4),
    s.hif.discard.contains hd = false ∧ s.pwr.phase = .ready ∧ coreUp s 3 = true ∧ (link s l).st ≠ .off :=
  ⟨withLink up { up.lnk.links[1] with st := .up }, hd0, 1,
   by decide⟩

theorem test_wit_linkCommandsAct4 : ∃ (s : State) (hd : Hdr) (num : BitVec 16),
    s.hif.discard.contains hd = false ∧ s.pwr.phase = .ready ∧ coreUp s 3 = true ∧ s.glb.pcie = true ∧ num ≠ 0 ∧ num.toNat ≤ 63 :=
  ⟨up, hd0, 5,
   by decide⟩

theorem test_wit_linkCommandsAct5 : ∃ (s : State) (hd : Hdr) (num : BitVec 16),
    s.hif.discard.contains hd = false ∧ s.pwr.phase = .ready ∧ coreUp s 3 = true ∧ isRoot s = true ∧ num ≠ 0 ∧ num.toNat ≤ 1023 :=
  ⟨w up [(Rg.lnkNodeCfg, 0x20000)], hd0, 5,
   by decide⟩

theorem test_wit_linkCommandsAct6 : ∃ (s : State) (hd : Hdr) (table : BitVec 8) (num : BitVec 16) (ident : BitVec 64),
    s.hif.discard.contains hd = false ∧ s.pwr.phase = .ready ∧ coreUp s 3 = true ∧ table.toNat ≤ 1 ∧ num ≠ 0 ∧ num.toNat ≤ (if table = 1 then 1023 else 63) ∧ enumHere s (table = 1) = true ∧ ((enumTable s (table = 1)).any fun e => e.ident = ident && e.pinned) = true :=
  ⟨{ up with lnk := { up.lnk with slots := [{ ident := 77, num := 5, pinned := true, present := true }] } }, hd0, 0, 5, 77,
   by decide⟩

theorem test_wit_pairLineAndHeartbeats1 : ∃ (s : State),
    pairLive s = true ∧ rb s Rg.pairCtrl 0 = true ∧ s.pair.holding = false ∧ s.pair.drive = false ∧ safe s .pair = false ∧ (∀ t0 ∈ s.pair.highAt, t0 + ticksUs (if preferredNow s then 10 else 60) ≤ s.now) ∧ s.pwr.pwrFailLow = false ∧ s.pwr.failed = false :=
  ⟨{ w paired [(Rg.pairCtrl, 1)] with pair := { paired.pair with highAt := some 0 } },
   by decide⟩

theorem test_wit_pairLineAndHeartbeats2 : ∃ (s : State) (t0 : Nat),
    s.pair.driveAt = some t0 ∧ s.pair.holding = false ∧ s.pair.drive = true ∧ t0 + ticksUs 1 ≤ s.now :=
  ⟨{ paired with pair := { paired.pair with drive := true, driveAt := some 0 } }, 0,
   by decide⟩

theorem test_wit_pairLineAndHeartbeats3 : ∃ (s : State),
    s.pair.holding = true ∧ s.pair.refreshAt + 10 * hbTicks s ≤ s.now ∧ (s.pair.refreshAt + 10 * hbTicks s < s.now ∨ pairLive s = false ∨ coreUp s 2 = false ∨ s.pending.contains .heartbeatSend = false) :=
  ⟨holder,
   by decide⟩

theorem test_wit_pairLineAndHeartbeats4 : ∃ (s : State),
    s.pair.holding = true :=
  ⟨holder,
   by decide⟩

theorem test_wit_pairLineAndHeartbeats5 : ∃ (s : State),
    pairLive s = true ∧ s.pair.drive = false ∧ s.pair.partner.seen = true ∧ s.pair.partner.flags.getLsbD 0 = false ∧ s.pair.stuckAt = none :=
  ⟨paired,
   by decide⟩

theorem test_wit_pairLineAndHeartbeats6 : ∃ (s : State),
    pairLive s = true ∧ coreUp s 2 = true ∧ s.pair.hbAt + hbTicks s ≤ s.now :=
  ⟨paired,
   by decide⟩

theorem test_wit_pairLineAndHeartbeats7 : ∃ (s : State),
    pairLive s = true ∧ s.pair.partner.seen = true ∧ s.pair.heardAt + (s.pair.missed + 1) * hbTicks s ≤ s.now ∧ (s.pair.heardAt + (s.pair.missed + 1) * hbTicks s < s.now ∨ beatWaits s = false) ∧ s.pair.missed < 2 :=
  ⟨{ paired with pair := { paired.pair with missed := 1 } },
   by decide⟩

theorem test_wit_pairLineAndHeartbeats8 : ∃ (s : State),
    pairLive s = true ∧ s.pair.partner.seen = true ∧ s.pair.heardAt + (s.pair.missed + 1) * hbTicks s ≤ s.now ∧ (s.pair.heardAt + (s.pair.missed + 1) * hbTicks s < s.now ∨ beatWaits s = false) ∧ 2 ≤ s.pair.missed :=
  ⟨{ paired with pair := { paired.pair with missed := 2 } },
   by decide⟩

theorem test_wit_pairLineAndHeartbeats9 : ∃ (s : State) (c : Ceremony),
    s.pair.cer = some c ∧ c.started + ticksS 5 ≤ s.now ∧ (c.started + ticksS 5 < s.now ∨ confirmWaits s c = false) :=
  ⟨{ paired with pair := { paired.pair with cer := some { host := hd0, slot := 6, hash := 0, started := 0, nonce := 1, ephPriv := 2, peerNonce := none, peerEph := none, key := none, prior := KeySlot.empty } } }, { host := hd0, slot := 6, hash := 0, started := 0, nonce := 1, ephPriv := 2, peerNonce := none, peerEph := none, key := none, prior := KeySlot.empty },
   by decide⟩

theorem test_wit_pairLineAndHeartbeats10 : ∃ (s : State) (t0 : Nat) (l : Fin 4),
    s.pair.readyAt = some t0 ∧ pairLink s = some l ∧ pairLive s = true ∧ coreUp s 2 = true ∧ s.pair.holding = false ∧ s.pair.st = .ready ∧ preferredNow s = true ∧ rb s Rg.pairCtrl 1 = false ∧ s.pair.reqAt = none ∧ t0 + ticksS (getW s Rg.pairWtrTime).toNat ≤ s.now :=
  ⟨{ paired with pair := { paired.pair with readyAt := some 0 }, glb := { paired.glb with preferred := true } }, 0, 1,
   by decide⟩

theorem test_wit_pairLineAndHeartbeats11 : ∃ (s : State) (t0 : Nat) (l : Fin 4) (r : Nat),
    s.pair.readyAt = some t0 ∧ pairLink s = some l ∧ pairLive s = true ∧ coreUp s 2 = true ∧ s.pair.holding = false ∧ s.pair.st = .ready ∧ preferredNow s = true ∧ rb s Rg.pairCtrl 1 = false ∧ s.pair.reqAt = some r ∧ r + ticksS 60 ≤ s.now :=
  ⟨{ paired with pair := { paired.pair with readyAt := some 0, reqAt := some 5 }, glb := { paired.glb with preferred := true } }, 0, 1, 5,
   by decide⟩

theorem test_wit_swapStepsRun1 : ∃ (s : State),
    pairLive s = true ∧ getW s Rg.pairSwapPeriod ≠ 0 ∧ s.pair.holding = true ∧ s.pair.swap = none ∧ (s.pair.swapRetry = none → s.pair.swapAt + ticksS (getW s Rg.pairSwapPeriod).toNat ≤ s.now) ∧ (∀ r ∈ s.pair.swapRetry, r ≤ s.now) :=
  ⟨w holder [(Rg.pairSwapPeriod, 60)],
   by decide⟩

theorem test_wit_swapStepsRun2 : ∃ (s : State) (w : Swap),
    s.pair.swap = some w ∧ w.incoming = true ∧ w.checked = false ∧ coreUp s 2 = true ∧ reached s (hMinus s w 200000000) = true ∧ selfCheck s = 0 :=
  ⟨swapping { withLink paired { paired.lnk.links[1] with offs := List.replicate 16 0 } with pair := { paired.pair with mirrorDone := true, partner := { paired.pair.partner with power := 3 } }, tco := { paired.tco with st := .clear, teb := 5 } } (swapOf true false false false false), swapOf true false false false false,
   by decide⟩

theorem test_wit_swapStepsRun3 : ∃ (s : State) (w : Swap),
    s.pair.swap = some w ∧ w.incoming = true ∧ w.checked = false ∧ coreUp s 2 = true ∧ reached s (hMinus s w 200000000) = true ∧ selfCheck s ≠ 0 :=
  ⟨swapping paired (swapOf true false false false false), swapOf true false false false false,
   by decide⟩

theorem test_wit_swapStepsRun4 : ∃ (s : State) (w : Swap),
    s.pair.swap = some w ∧ w.incoming = false ∧ w.accepted = false ∧ acceptWaits s = false ∧ reached s (hMinus s w 100000000) = true :=
  ⟨swapping holder (swapOf false false false false false), swapOf false false false false false,
   by decide⟩

theorem test_wit_swapStepsRun5 : ∃ (s : State) (w : Swap),
    s.pair.swap = some w ∧ w.incoming = true ∧ w.accepted = true ∧ w.driven = false ∧ reached s (hMinus s w 10000) = true :=
  ⟨swapping paired (swapOf true true true false false), swapOf true true true false false,
   by decide⟩

theorem test_wit_swapStepsRun6 : ∃ (s : State) (w : Swap),
    s.pair.swap = some w ∧ w.handed = false ∧ w.accepted = true ∧ reached s (hMinus s w 0) = true ∧ powerWaits s = false ∧ w.incoming = true ∧ w.driven = true :=
  ⟨swapping paired (swapOf true true true true false), swapOf true true true true false,
   by decide⟩

theorem test_wit_swapStepsRun7 : ∃ (s : State) (w : Swap),
    s.pair.swap = some w ∧ w.handed = false ∧ w.accepted = true ∧ reached s (hMinus s w 0) = true ∧ powerWaits s = false ∧ w.incoming = false :=
  ⟨swapping holder (swapOf false true false false false), swapOf false true false false false,
   by decide⟩

theorem test_wit_swapStepsRun8 : ∃ (s : State) (w : Swap),
    s.pair.swap = some w ∧ w.handed = true ∧ reached s (hMinus s w 0 + 65536000) = true :=
  ⟨swapping paired (swapOf false true false false true), swapOf false true false false true,
   by decide⟩

theorem test_wit_swapStepsRun9 : ∃ (s : State) (w : Swap),
    s.pair.swap = some w ∧ w.handed = true ∧ reached s (hMinus s w 0 + 65536000) = true ∧ w.incoming = true :=
  ⟨swapping paired (swapOf true true true true true), swapOf true true true true true,
   by decide⟩

theorem test_wit_swapStepsRun10 : ∃ (s : State) (w : Swap),
    s.pair.swap = some w ∧ w.handed = true ∧ reached s (hMinus s w 0 + 65536000) = true ∧ w.incoming = false :=
  ⟨swapping paired (swapOf false true false false true), swapOf false true false false true,
   by decide⟩

theorem test_wit_pairCommandsAct1 : ∃ (s : State) (hd : Hdr),
    s.hif.discard.contains hd = false ∧ s.pwr.phase = .ready ∧ coreUp s 2 = true :=
  ⟨up, hd0,
   by decide⟩

theorem test_wit_pairCommandsAct2 : ∃ (s : State) (hd : Hdr) (slot_ : BitVec 8) (l : Fin 4),
    s.hif.discard.contains hd = false ∧ s.pwr.phase = .ready ∧ coreUp s 2 = true ∧ 3 ≤ slot_.toNat ∧ pairLink s = some l ∧ storeState s = .keyed ∧ keyServed s = true ∧ s.pair.cer = none ∧ tamperWaits s = false :=
  ⟨withLink (withKey 0) { up.lnk.links[1] with st := .up, role := .pair }, hd0, 6, 1,
   by decide⟩

theorem test_wit_pairCommandsAct3 : ∃ (s : State) (hd : Hdr) (k : BitVec 8),
    s.hif.discard.contains hd = false ∧ s.pwr.phase = .ready ∧ coreUp s 2 = true ∧ s.pair.keySlot = some k :=
  ⟨{ up with pair := { up.pair with keySlot := some 6, st := .seeking } }, hd0, 6,
   by decide⟩

theorem test_wit_pairCommandsAct4 : ∃ (s : State) (hd : Hdr),
    s.hif.discard.contains hd = false ∧ s.pwr.phase = .ready ∧ coreUp s 2 = true ∧ s.pair.holding = true ∧ partnerReady s = true ∧ safe s .pair = false ∧ s.pair.swap = none :=
  ⟨holder, hd0,
   by decide⟩

theorem test_wit_pairCommandsAct5 : ∃ (s : State) (hd : Hdr),
    s.hif.discard.contains hd = false ∧ s.pwr.phase = .ready ∧ coreUp s 2 = true ∧ s.pair.holding = true :=
  ⟨holder, hd0,
   by decide⟩

theorem test_wit_pairCommandsAct6 : ∃ (s : State) (hd : Hdr),
    s.hif.discard.contains hd = false ∧ s.pwr.phase = .ready ∧ coreUp s 2 = true ∧ s.pair.holding = true ∧ s.pair.partner.seen = true :=
  ⟨holder, hd0,
   by decide⟩

theorem test_wit_tamperEnableWrites1 : ∃ (s : State),
    s.glb.pcie = true ∧ s.hif.linkUp = true ∧ regUp s .key = true ∧ s.glb.lock = false ∧ s.key.store = .keyed :=
  ⟨{ up with key := { up.key with store := .keyed, tamperEn := 7 } },
   by decide⟩

theorem test_wit_tamperEnableWrites2 : ∃ (s : State),
    s.glb.pcie = true ∧ s.hif.linkUp = true ∧ regUp s .key = true ∧ s.glb.lock = false ∧ s.key.store ≠ .keyed :=
  ⟨{ up with key := { up.key with store := .unkeyed, tamperEn := 7 } },
   by decide⟩

theorem test_wit_tamperEnableWrites3 : ∃ (s : State),
    s.glb.pcie = true ∧ s.hif.linkUp = true ∧ regUp s .key = true ∧ s.glb.lock = true :=
  ⟨{ up with glb := { up.glb with lock := true } },
   by decide⟩

theorem test_wit_tamperZeroises1 : ∃ (s : State) (src : Fin 13),
    tamperActs s src = true ∧ (∀ x ∈ s.key.tickSeen, x.1 = s.now → x.2 = 0) ∧ (∀ k : Fin 13, k ≠ src → s.pending.contains (.tamperDetect k) = false) ∧ s.key.root = none :=
  ⟨{ up with key := { up.key with tamperEn := 4, store := .unkeyed } }, 2,
   by decide⟩

theorem test_wit_tamperZeroises2 : ∃ (s : State) (src : Fin 13),
    tamperActs s src = true ∧ (∀ x ∈ s.key.tickSeen, x.1 = s.now → x.2 = 0) ∧ (∀ k : Fin 13, k ≠ src → s.pending.contains (.tamperDetect k) = false) ∧ s.key.root.isSome = true :=
  ⟨{ withKey 0x2420 with key := { (withKey 0x2420).key with tamperEn := 4 } }, 2,
   by decide⟩

theorem test_wit_keyEventsAct1 : ∃ (s : State) (a : List Inval) (v : Inval) (b : List Inval),
    s.key.inval = a ++ v :: b ∧ (∀ x ∈ a, x.committed = true ∨ nowNs s < x.tc) ∧ v.committed = false ∧ v.tc ≤ nowNs s ∧ tamperWaits s = false :=
  ⟨{ withKey 0x2420 with key := { (withKey 0x2420).key with inval := [{ host := none, named := 5, slots := [5], tc := 0, committed := true, zeroAt := 0, old := [] }, { host := none, named := 5, slots := [5], tc := 0, committed := false, zeroAt := 0, old := [] }] } }, [{ host := none, named := 5, slots := [5], tc := 0, committed := true, zeroAt := 0, old := [] }], { host := none, named := 5, slots := [5], tc := 0, committed := false, zeroAt := 0, old := [] }, [],
   by decide⟩

theorem test_wit_keyEventsAct2 : ∃ (s : State) (v : Inval),
    v ∈ s.key.inval ∧ v.committed = true ∧ v.zeroAt ≤ nowNs s :=
  ⟨{ withKey 0x2020 with key := { (withKey 0x2020).key with inval := [{ host := none, named := 5, slots := [5], tc := 0, committed := true, zeroAt := 0, old := [] }] } }, { host := none, named := 5, slots := [5], tc := 0, committed := true, zeroAt := 0, old := [] },
   by decide⟩

theorem test_wit_keyEventsAct3 : ∃ (s : State),
    s.key.entropyBad = false ∧ mainUp s = true ∧ (s.key.reseedAt + ticksS 1 ≤ s.now ∨ 2 ^ 20 ≤ s.key.generates) :=
  ⟨up,
   by decide⟩

theorem test_wit_keyEventsAct4 : ∃ (s : State) (rep : Bool) (adapt : Bool),
    s.key.entropyBad = false ∧ mainUp s = true ∧ (rep = true ∨ adapt = true) :=
  ⟨up, true, false,
   by decide⟩

theorem test_wit_keyEventsAct5 : ∃ (s : State),
    s.key.entropyBad = true ∧ s.key.restartAt + ticksS 1 ≤ s.now :=
  ⟨{ up with key := { up.key with entropyBad := true } },
   by decide⟩

theorem test_wit_keyEventsAct6 : ∃ (s : State),
    2 ^ 32 ≤ s.key.generates ∧ mainUp s = true ∧ s.key.tamperEn.getLsbD 11 = true ∧ (s.key.entropyBad = true ∨ s.pending.contains .drbgReseed = false) :=
  ⟨{ up with key := { up.key with generates := 0x100000000, tamperEn := 0x800 } },
   by decide⟩

theorem test_wit_keyCommandsAct1 : ∃ (s : State) (hd : Hdr) (slot_ : BitVec 8),
    Accepts s hd 0xB0 ∧ slot_ ≠ 0 :=
  ⟨withKey 0x2420, hd0, 5,
   ⟨rfl, rfl, rfl⟩, by decide⟩

theorem test_wit_keyCommandsAct2 : ∃ (s : State) (slot_ : BitVec 8) (attr : BitVec 32),
    s.pwr.phase = .ready ∧ storeState s = .keyed ∧ tamperWaits s = false ∧ 3 ≤ slot_.toNat ∧ (keySlot s slot_.toNat).valid = false ∧ attrOk attr.toNat = true :=
  ⟨withKey 0x2420, 6, 0x2020,
   by decide⟩

theorem test_wit_keyCommandsAct3 : ∃ (s : State) (slot_ : BitVec 8) (wrap : BitVec 8),
    s.pwr.phase = .ready ∧ storeState s = .keyed ∧ tamperWaits s = false ∧ 3 ≤ slot_.toNat ∧ (keySlot s slot_.toNat).valid = false ∧ wrap ≠ 0 ∧ (keySlot s wrap.toNat).valid = true ∧ (keySlot s wrap.toNat).use 4 = true :=
  ⟨withKey 0x2410, 6, 5,
   by decide⟩

theorem test_wit_keyCommandsAct4 : ∃ (s : State) (slot_ : BitVec 8) (parent : BitVec 8) (kdf : BitVec 8) (attr : BitVec 32) (len : BitVec 16),
    s.pwr.phase = .ready ∧ storeState s = .keyed ∧ tamperWaits s = false ∧ 3 ≤ slot_.toNat ∧ (keySlot s slot_.toNat).valid = false ∧ parent ≠ 0 ∧ (keySlot s parent.toNat).valid = true ∧ (keySlot s parent.toNat).p384 = false ∧ (keySlot s parent.toNat).use 3 = true ∧ kdf.toNat ≤ 1 ∧ (kdf = 1 → (keySlot s parent.toNat).len ≤ 2) ∧ attrOk attr.toNat = true ∧ attr.getLsbD 15 = false ∧ len.toNat ≤ 256 ∧ keyDepth 256 s parent.toNat < 8 :=
  ⟨withKey 0x2408, 6, 5, 1, 0x2020, 4,
   by decide⟩

theorem test_wit_keyCommandsAct5 : ∃ (s : State) (hd : Hdr) (slot_ : BitVec 8) (wrap : BitVec 8) (len : BitVec 32),
    s.hif.discard.contains hd = false ∧ s.pwr.phase = .ready ∧ storeState s = .keyed ∧ tamperWaits s = false ∧ slot_ ≠ 0 ∧ (keySlot s slot_.toNat).valid = true ∧ wrap ≠ 0 ∧ 48 + lenBytes (keySlot s slot_.toNat).len ≤ len.toNat ∧ (keySlot s slot_.toNat).attr.getLsbD 8 = true ∧ (keySlot s wrap.toNat).valid = true ∧ (keySlot s wrap.toNat).p384 = false ∧ (keySlot s wrap.toNat).use 4 = true :=
  ⟨{ withKey 0x2520 with key := { (withKey 0x2520).key with slots := [(5, { attr := 0x2520, key := 9 }), (6, { attr := 0x2410, key := 8 })] } }, hd0, 5, 6, 100,
   by decide⟩

theorem test_wit_keyCommandsAct6 : ∃ (s : State) (hd : Hdr) (slot_ : BitVec 8),
    s.hif.discard.contains hd = false ∧ s.pwr.phase = .ready ∧ storeState s = .keyed ∧ tamperWaits s = false ∧ slot_ ≠ 0 ∧ (keySlot s slot_.toNat).valid = true ∧ 3 ≤ slot_.toNat ∧ (keySlot s slot_.toNat).attr.getLsbD 9 = false :=
  ⟨withKey 0x2420, hd0, 5,
   by decide⟩

theorem test_wit_keyCommandsAct7 : ∃ (s : State) (hd : Hdr) (slot_ : BitVec 8),
    s.hif.discard.contains hd = false ∧ s.pwr.phase = .ready ∧ storeState s = .keyed ∧ tamperWaits s = false ∧ slot_ ≠ 0 ∧ (keySlot s slot_.toNat).valid = true ∧ coreUp s 0 = true :=
  ⟨withKey 0x2420, hd0, 5,
   by decide⟩

theorem test_wit_keyCommandsAct8 : ∃ (s : State) (hd : Hdr) (slot_ : BitVec 8),
    s.hif.discard.contains hd = false ∧ s.pwr.phase = .ready ∧ storeState s = .keyed ∧ tamperWaits s = false ∧ slot_ ≠ 0 ∧ (keySlot s slot_.toNat).valid = true ∧ (keySlot s slot_.toNat).p384 = true :=
  ⟨withKey 0xB404, hd0, 5,
   by decide⟩

theorem test_wit_keyCommandsAct9 : ∃ (s : State) (hd : Hdr) (slot_ : BitVec 8),
    s.hif.discard.contains hd = false ∧ s.pwr.phase = .ready ∧ storeState s = .keyed ∧ tamperWaits s = false ∧ slot_ ≠ 0 ∧ (keySlot s slot_.toNat).valid = true ∧ slot_ ≠ 1 ∧ (keySlot s slot_.toNat).use 2 = true :=
  ⟨withKey 0xB404, hd0, 5,
   by decide⟩

theorem test_wit_keyCommandsAct10 : ∃ (s : State) (hd : Hdr) (hit : Option (Fin 13)),
    s.hif.discard.contains hd = false ∧ s.pwr.phase = .ready ∧ coreUp s 0 = true ∧ s.key.store ≠ .keyed ∧ safe s .key = false ∧ rb s Rg.keyCtrl 1 = true ∧ s.key.latch = 0 ∧ (∀ src ∈ hit, s.key.tamperEn.getLsbD src.val = false ∨ src = 12) :=
  ⟨w up [(Rg.keyCtrl, 2)], hd0, some 12,
   by decide⟩

theorem test_wit_keyCommandsAct11 : ∃ (s : State) (hd : Hdr) (src : Fin 13),
    s.hif.discard.contains hd = false ∧ s.pwr.phase = .ready ∧ coreUp s 0 = true ∧ s.key.store ≠ .keyed ∧ safe s .key = false ∧ rb s Rg.keyCtrl 1 = true ∧ s.key.latch = 0 ∧ s.key.tamperEn.getLsbD src.val = true ∧ src ≠ 12 :=
  ⟨{ w up [(Rg.keyCtrl, 2)] with key := { up.key with tamperEn := 4 } }, hd0, 2,
   by decide⟩

theorem test_wit_keyCommandsAct12 : ∃ (s : State) (hd : Hdr),
    s.hif.discard.contains hd = false ∧ s.pwr.phase = .ready :=
  ⟨up, hd0,
   by decide⟩

theorem test_wit_keyCommandsAct13 : ∃ (s : State) (hd : Hdr),
    s.hif.discard.contains hd = false ∧ s.pwr.phase = .ready ∧ (∀ k : Fin 13, tamperActs s k = true → s.pending.contains (.tamperDetect k) = false) :=
  ⟨up, hd0,
   by decide⟩

theorem test_wit_updatesAct1 : ∃ (s : State) (hd : Hdr),
    s.hif.discard.contains hd = false ∧ s.pwr.phase = .ready ∧ coreUp s 0 = true ∧ trialRuns s = false ∧ s.upd.session = none :=
  ⟨up, hd0,
   by decide⟩

theorem test_wit_updatesAct2 : ∃ (s : State) (hd : Hdr) (l : Fin 4),
    s.hif.discard.contains hd = false ∧ s.pwr.phase = .ready ∧ coreUp s 0 = true ∧ trialRuns s = false ∧ s.upd.push = none ∧ (link s l).st = .up :=
  ⟨withLink up { up.lnk.links[1] with st := .up }, hd0, 1,
   by decide⟩

theorem test_wit_updatesAct3 : ∃ (s : State) (hd : Hdr) (x : Session) (off : BitVec 32) (len : BitVec 32),
    s.hif.discard.contains hd = false ∧ s.pwr.phase = .ready ∧ coreUp s 0 = true ∧ s.upd.session = some x ∧ x.peer = none ∧ writeFits x off.toNat len.toNat = true :=
  ⟨{ up with upd := { up.upd with session := some { peer := none, slot := 1, written := 0, lastWrite := 0, expect := 0 } } }, hd0, { peer := none, slot := 1, written := 0, lastWrite := 0, expect := 0 }, 0, 4,
   by decide⟩

theorem test_wit_updatesAct4 : ∃ (s : State) (hd : Hdr) (x : Session),
    s.hif.discard.contains hd = false ∧ s.pwr.phase = .ready ∧ coreUp s 0 = true ∧ s.upd.session = some x ∧ x.peer = none :=
  ⟨{ up with upd := { up.upd with session := some { peer := none, slot := 1, written := 0, lastWrite := 0, expect := 0 } } }, hd0, { peer := none, slot := 1, written := 0, lastWrite := 0, expect := 0 },
   by decide⟩

theorem test_wit_updatesAct5 : ∃ (s : State) (hd : Hdr) (p : Push),
    s.hif.discard.contains hd = false ∧ s.pwr.phase = .ready ∧ coreUp s 0 = true ∧ hostSession s = none ∧ s.upd.push = some p ∧ p.open_ = none ∧ p.verify = none :=
  ⟨{ up with upd := { up.upd with push := some { link := 1, open_ := none, verify := none } } }, hd0, { link := 1, open_ := none, verify := none },
   by decide⟩

theorem test_wit_updatesAct6 : ∃ (s : State) (hd : Hdr) (n : Fin 2),
    s.hif.discard.contains hd = false ∧ s.pwr.phase = .ready ∧ coreUp s 0 = true ∧ trialRuns s = false ∧ s.upd.session = none ∧ ((recNow s).st[n] = .verified ∨ (recNow s).st[n] = .good) :=
  ⟨{ up with upd := { up.upd with copies := #v[some { seq := 3, active := 0, trial := false, trialSlot := 0, st := #v[.good, .verified], fw := #v[1, 2], consumed := 0 }, none] } }, hd0, 1,
   by decide⟩

theorem test_wit_updatesAct7 : ∃ (s : State) (hd : Hdr),
    s.hif.discard.contains hd = false ∧ s.pwr.phase = .ready ∧ coreUp s 0 = true ∧ trialRuns s = true ∧ s.now < windowEnd s ∧ confirmOk (modUpd s fun u => { u with hostConfirm := true }) = false :=
  ⟨{ up with pwr := { up.pwr with readyAt := 1000000000000 }, upd := { up.upd with trial := true } }, hd0,
   by decide⟩

theorem test_wit_updatesAct8 : ∃ (s : State) (hd : Hdr),
    s.hif.discard.contains hd = false ∧ s.pwr.phase = .ready ∧ coreUp s 0 = true ∧ trialRuns s = true ∧ s.now < windowEnd s ∧ confirmOk (modUpd s fun u => { u with hostConfirm := true }) = true :=
  ⟨{ up with now := 5, upd := { up.upd with trial := true, selfOk := true }, refs := { up.refs with hold := true, holdover := some { at_ := 0, slot := 0, cause := 0, ran := 0 } } }, hd0,
   by decide⟩

theorem test_wit_updatesAct9 : ∃ (s : State) (hd : Hdr),
    s.hif.discard.contains hd = false ∧ s.pwr.phase = .ready ∧ coreUp s 0 = true :=
  ⟨up, hd0,
   by decide⟩

theorem test_wit_updatesAct10 : ∃ (s : State) (hd : Hdr),
    s.hif.discard.contains hd = false ∧ s.pwr.phase = .ready ∧ coreUp s 0 = true ∧ trialRuns s = true ∧ windowEnd s < s.now :=
  ⟨{ up with now := 10 ^ 15, upd := { up.upd with trial := true } }, hd0,
   by decide⟩

theorem test_wit_updatesAct11 : ∃ (s : State) (x : Session),
    s.upd.session = some x ∧ x.lastWrite + ticksS (getW s Rg.updSessionTo).toNat ≤ s.now ∧ updWriteWaits s x = false :=
  ⟨{ up with upd := { up.upd with session := some { peer := none, slot := 1, written := 0, lastWrite := 0, expect := 0 } } }, { peer := none, slot := 1, written := 0, lastWrite := 0, expect := 0 },
   by decide⟩

theorem test_wit_updatesAct12 : ∃ (s : State) (u : Nat),
    s.upd.resetAt = some u ∧ u ≤ s.now ∧ cplOwed s 0xC3 = false ∧ failWaits s = false :=
  ⟨{ up with upd := { up.upd with resetAt := some 5 } }, 5,
   by decide⟩

theorem test_wit_updatesAct13 : ∃ (s : State),
    mainUp s = true ∧ trialRuns s = true ∧ confirmOk s = true :=
  ⟨{ up with upd := { up.upd with trial := true, selfOk := true, hostConfirm := true }, refs := { up.refs with hold := true } },
   by decide⟩

theorem test_wit_updatesAct14 : ∃ (s : State),
    trialRuns s = true ∧ (windowEnd s < s.now ∨ (windowEnd s = s.now ∧ confirmOk s = false)) :=
  ⟨{ up with upd := { up.upd with trial := true } },
   by decide⟩

theorem test_wit_updatesAct15 : ∃ (s : State),
    trialRuns s = true ∧ windowEnd s = s.now ∧ confirmOk s = true :=
  ⟨{ up with now := ticksS (getW up Rg.updConfirmWin).toNat, upd := { up.upd with trial := true, selfOk := true }, refs := { up.refs with hold := true } },
   by decide⟩

theorem test_wit_diagnosticsAct1 : ∃ (s : State),
    s.pwr.phase = .ready ∧ rb s Rg.perfCtrl 1 = true ∧ (∀ x ∈ s.perf.lastDump, x < dumpInstant s) :=
  ⟨w up [(Rg.perfCtrl, 2)],
   by decide⟩

theorem test_wit_diagnosticsAct2 : ∃ (s : State),
    s.pwr.phase = .ready ∧ rb s Rg.perfCtrl 1 = true ∧ (∀ x ∈ s.perf.lastDump, x < dumpInstant s) ∧ doorbellsOf s 9 = [] ∧ ringRuns s 9 = false :=
  ⟨w up [(Rg.perfCtrl, 2)],
   by decide⟩

theorem test_wit_diagnosticsAct3 : ∃ (s : State) (d : BitVec 256),
    s.pwr.phase = .ready ∧ rb s Rg.perfCtrl 1 = true ∧ (∀ x ∈ s.perf.lastDump, x < dumpInstant s) ∧ doorbellsOf s 9 = [] ∧ s.glb.pcie = true ∧ ringRuns s 9 = true ∧ ringPosted s 9 ≠ 0 ∧ dumpMalformed d = false ∧ 8352 ≤ fld d.toNat 95 64 :=
  ⟨withRing (w (ringOn up 9) [(Rg.perfCtrl, 2)]) 9 { Ring.reset with host := 1 }, BitVec.ofNat 256 (8352 * 2 ^ 64 + 0x1000),
   by decide⟩

theorem test_wit_diagnosticsAct4 : ∃ (s : State) (hd : Hdr),
    Accepts s hd 0xD2 :=
  ⟨up, hd0,
   ⟨rfl, rfl, rfl⟩⟩

theorem test_wit_diagnosticsAct5 : ∃ (s : State) (hd : Hdr) (mask : BitVec 8) (mode : BitVec 8) (period : BitVec 32) (thresh : BitVec 32),
    Accepts s hd 0xD3 ∧ s.perf.sampling = none ∧ mask.toNat ≤ 15 ∧ mode.toNat ≤ 2 ∧ 1024 ≤ period.toNat ∧ thresh ≠ 0 ∧ thresh.toNat ≤ 65535 :=
  ⟨up, hd0, 15, 1, 2048, 5,
   ⟨rfl, rfl, rfl⟩, by decide, by decide, by decide, by decide, by decide, by decide⟩

theorem test_wit_diagnosticsAct6 : ∃ (s : State) (hd : Hdr),
    Accepts s hd 0xD4 ∧ s.perf.sampling ≠ none :=
  ⟨{ up with perf := { up.perf with sampling := some (1, 0, 1024, 5) } }, hd0,
   ⟨rfl, rfl, rfl⟩, by decide⟩

theorem test_wit_diagnosticsAct7 : ∃ (s : State) (c : Fin 4) (mask : BitVec 4) (mode : Nat) (period : Nat) (thresh : Nat) (latency : BitVec 32) (due : Bool) (trap : Bool) (k : BitVec 8),
    s.perf.sampling = some (mask, mode, period, thresh) ∧ mask.getLsbD c.val = true ∧ coreUp s c.val = true ∧ sampleCause mode thresh latency due trap = some k :=
  ⟨{ up with perf := { up.perf with sampling := some (1, 0, 1024, 5) } }, 0, 1, 0, 1024, 5, 9, true, true, 3,
   by decide⟩

theorem test_wit_diagnosticsAct8 : ∃ (s : State) (c : Fin 4) (mask : BitVec 4) (mode : Nat) (period : Nat) (thresh : Nat) (latency : BitVec 32) (due : Bool) (trap : Bool) (k : BitVec 8),
    s.perf.sampling = some (mask, mode, period, thresh) ∧ mask.getLsbD c.val = true ∧ coreUp s c.val = true ∧ sampleCause mode thresh latency due trap = some k ∧ s.perf.buf.length < 4096 ∧ ringRuns s 10 = false :=
  ⟨{ up with perf := { up.perf with sampling := some (1, 0, 1024, 5) } }, 0, 1, 0, 1024, 5, 9, true, true, 3,
   by decide⟩

theorem test_wit_diagnosticsAct9 : ∃ (s : State) (c : Fin 4) (mask : BitVec 4) (mode : Nat) (period : Nat) (thresh : Nat) (latency : BitVec 32) (due : Bool) (trap : Bool) (k : BitVec 8),
    s.perf.sampling = some (mask, mode, period, thresh) ∧ mask.getLsbD c.val = true ∧ coreUp s c.val = true ∧ sampleCause mode thresh latency due trap = some k ∧ 4096 ≤ s.perf.buf.length :=
  ⟨{ up with perf := { up.perf with sampling := some (1, 0, 1024, 5), buf := List.replicate 4096 { ts := 0, sseq := 1, insn := 1, addr := 0, latency := 0, core := 0, cause := 1, lost := false } } }, 0, 1, 0, 1024, 5, 9, true, true, 3,
   rfl, by decide, by decide, by decide, Nat.le_of_eq List.length_replicate.symm⟩

theorem test_wit_diagnosticsAct10 : ∃ (s : State),
    s.perf.lostSec ≠ 0 ∧ s.perf.lostAt + ticksS 1 ≤ s.now :=
  ⟨{ up with perf := { up.perf with lostSec := 3 } },
   by decide⟩

theorem test_wit_diagnosticsAct11 : ∃ (s : State),
    mainUp s = true ∧ coreUp s 0 = true ∧ s.pending.contains .pwrFail = false ∧ s.pan.nextAt ≤ s.now :=
  ⟨up,
   by decide⟩

theorem test_wit_diagnosticsAct12 : ∃ (s : State),
    mainUp s = true ∧ coreUp s 0 = true ∧ s.pending.contains .pwrFail = false ∧ s.now < s.pan.nextAt ∧ s.pan.sevDue = true ∧ (∀ x ∈ s.pan.sevAt, x + ticksS 1 ≤ s.now) :=
  ⟨{ up with pan := { up.pan with nextAt := 2000000000000, sevDue := true } },
   by decide⟩

end Sys2Proof.Tests
end

section
/-! The words of a stamp: the fields of a TS128 and the TS32 (02_time_core.md R41 to R44). -/
namespace Sys2Proof.Proofs.Stamps
open Sys2Proof
open Sys2Proof.Machine

/-- R43: the State field never holds a value above 4. -/
theorem code_le_four (st : ClockState) : st.code ≤ 4 := by cases st <;> decide

/-- TEB30 saturates at the width of its field, so it does not reach into the State field. -/
theorem teb30_lt (teb : Nat) : teb30 teb < 2 ^ 30 := by unfold teb30; omega

/-- R41: seconds, nanoseconds, fraction and the coast flag stand above the State field and TEB30. -/
theorem mkTs128_low_fields (c : Nat) (coast : Bool) (st : ClockState) (teb : Nat) :
    ∃ k, mkTs128 c coast st teb = BitVec.ofNat 128 (k * 2 ^ 33 + st.code * 2 ^ 30 + teb30 teb) := by
  refine ⟨secOf c * 2 ^ 47 + nsOf c * 2 ^ 17 + fracOf c * 2 + coast.toNat, congrArg (BitVec.ofNat 128) ?_⟩
  have hflag : flag coast 33 = coast.toNat * 2 ^ 33 := by cases coast <;> rfl
  rw [hflag]
  ring

/-- Bits [29:0] of a TS128 are TEB30. -/
theorem mkTs128_teb30 (c : Nat) (coast : Bool) (st : ClockState) (teb : Nat) :
    ((mkTs128 c coast st teb).extractLsb' 0 30).toNat = teb30 teb := by
  obtain ⟨k, hk⟩ := mkTs128_low_fields c coast st teb
  have hteb := teb30_lt teb
  rw [hk, BitVec.extractLsb'_toNat, BitVec.toNat_ofNat, Nat.shiftRight_zero]
  omega

/-- Bits [32:30] of a TS128 are the clock state's code. -/
theorem mkTs128_state (c : Nat) (coast : Bool) (st : ClockState) (teb : Nat) :
    ((mkTs128 c coast st teb).extractLsb' 30 3).toNat = st.code := by
  obtain ⟨k, hk⟩ := mkTs128_low_fields c coast st teb
  have hteb := teb30_lt teb
  have hcode := code_le_four st
  rw [hk, BitVec.extractLsb'_toNat, BitVec.toNat_ofNat, Nat.shiftRight_eq_div_pow]
  omega

/-- R42: a full TEB reports as unbounded from 0xFFFFFFF9 on, and only there. -/
theorem teb30_unbounded_iff (teb : Nat) : teb30 teb = 0x3FFFFFFF ↔ 0xFFFFFFF9 ≤ teb := by
  unfold teb30 ceilDiv
  omega

/-- Seconds and nanoseconds are the quotient and the remainder of the counter's whole nanoseconds. -/
theorem secOf_nsOf_eq_totNs (c : Nat) : secOf c * 1000000000 + nsOf c = totNs c := by
  unfold secOf nsOf totNs unitsPerSec
  omega

/-- Settles O27: the fields of a TS128 stand apart, because TEB30 saturates within 30 bits and the code within 3. -/
theorem stampWords : Obligations.StampWords := by
  refine ⟨fun c coast st teb => ⟨?_, ?_, mkTs128_state c coast st teb.toNat, code_le_four st⟩, fun c => ?_⟩
  · rw [mkTs128_teb30]; rfl
  · rw [mkTs128_teb30]; exact teb30_unbounded_iff teb.toNat
  · rw [secOf_nsOf_eq_totNs]; exact BitVec.toNat_ofNat (totNs c) 32

end Sys2Proof.Proofs.Stamps
end

section
/-! How a host command that is accepted runs, and how it completes (R438 to R442, R454, R507). -/
namespace Sys2Proof.Proofs.Commands
open Sys2Proof
open Sys2Proof.Machine
open Sys2Proof.Safety

/-- A command whose completion no FLR has discarded completes, and nothing else changes. -/
theorem complete_eq_answered {s : State} {hd : Hdr} (hkept : s.hif.discard.contains hd = false) (op : Nat)
    (status : BitVec 8) (rlen result : Nat) :
    complete s hd op status rlen result = answered s hd op status rlen result := by
  unfold complete
  rw [hkept]
  rfl

@[simp] theorem answered_tco (s : State) (hd : Hdr) (op : Nat) (status : BitVec 8) (rlen result : Nat) :
    (answered s hd op status rlen result).tco = s.tco := rfl

@[simp] theorem answered_discard (s : State) (hd : Hdr) (op : Nat) (status : BitVec 8) (rlen result : Nat) :
    (answered s hd op status rlen result).hif.discard = s.hif.discard := rfl

@[simp] theorem answered_done (s : State) (hd : Hdr) (op : Nat) (status : BitVec 8) (rlen result : Nat) :
    (answered s hd op status rlen result).hif.done =
      s.hif.done ++ [{ hd := hd, op := BitVec.ofNat 8 op, status := status, rlen := rlen, result := result }] := rfl

theorem ends_answered (s : State) (hd : Hdr) (op : Nat) (status : BitVec 8) (rlen result : Nat) :
    Ends (answered s hd op status rlen result) hd op status :=
  ⟨rlen, result, by rw [answered_done, List.getLast?_concat]⟩

/-- `Ends` looks at the completions that wait and at nothing else. -/
theorem ends_congr {s t : State} (hdone : t.hif.done = s.hif.done) {hd : Hdr} {op : Nat} {status : BitVec 8}
    (h : Ends s hd op status) : Ends t hd op status := by
  unfold Ends
  rw [hdone]
  exact h

/-- The last completion is among those that wait. -/
theorem ends_any {s : State} {hd : Hdr} {op : Nat} {status : BitVec 8} (h : Ends s hd op status) :
    (s.hif.done.any fun d => d.hd = hd && d.op = BitVec.ofNat 8 op && d.status = status) = true := by
  obtain ⟨rlen, result, hlast⟩ := h
  exact List.any_eq_true.mpr ⟨_, List.mem_of_getLast? hlast, by simp⟩

/-- An accepted command whose arguments are in range runs its body. -/
theorem cmd_of_accepts {s : State} {hd : Hdr} {op : Nat} (h : Accepts s hd op) (body : State → State) :
    cmd s hd op none body = .next (body s) := by
  unfold cmd
  simp [h.ready, h.core]

/-- TCO takes a host command on a tick that has taken none (R74). -/
theorem tcoHost_of_free {s : State} (hfree : s.tco.marks.host ≠ some s.now) (c : Instr) (f : State → Ans) :
    tcoHost s c f = f s := by
  unfold tcoHost
  simp [hfree]

end Sys2Proof.Proofs.Commands
end

section
/-! Steps of the counter during a host slew (02_time_core.md R36, R37, R39, R74). -/
namespace Sys2Proof.Proofs.Steps
open Sys2Proof
open Sys2Proof.Machine
open Sys2Proof.Safety
open Sys2Proof.Laws
open Sys2Proof.Proofs.Commands

/-- The counter and the slew stand, and no command completes or loses its completion. -/
structure TimeKept (s t : State) : Prop where
  counter : t.tco.counter = s.tco.counter
  slew : t.tco.slew = s.tco.slew
  done : t.hif.done = s.hif.done
  discard : t.hif.discard = s.hif.discard

theorem TimeKept.refl (s : State) : TimeKept s s := ⟨rfl, rfl, rfl, rfl⟩

theorem TimeKept.trans {s t u : State} (h : TimeKept s t) (k : TimeKept t u) : TimeKept s u :=
  ⟨k.counter.trans h.counter, k.slew.trans h.slew, k.done.trans h.done, k.discard.trans h.discard⟩

/-- What touches neither the time core nor the host interface's commands. -/
theorem TimeKept.ofOnly {L : List Part} {s t : State} (h : Only L s t) (htco : Part.tco ∉ L) (hhif : Part.hif ∉ L) :
    TimeKept s t := by
  have tco : t.tco = s.tco := h.same .tco htco
  have hif : t.hif = { s.hif with rings := t.hif.rings, pba := t.hif.pba } := h.same .hif hhif
  exact ⟨by rw [tco], by rw [tco], by rw [hif], by rw [hif]⟩

theorem TimeKept.modTco {s : State} {f : Tco → Tco} (hc : (f s.tco).counter = s.tco.counter)
    (hs : (f s.tco).slew = s.tco.slew) : TimeKept s (modTco s f) := ⟨hc, hs, rfl, rfl⟩

theorem emit_timeKept (s : State) (b : Blk) (code : Nat) (base : Cls) (detail : Nat) (bit : Option Nat) :
    TimeKept s (emit s b code base detail bit) :=
  TimeKept.ofOnly (emit_only ..) (by decide) (by decide)

theorem perfAdd_timeKept (s : State) (i n : Nat) : TimeKept s (perfAdd s i n) :=
  TimeKept.ofOnly (perfAdd_only ..) (by decide) (by decide)

theorem tioStep_timeKept (back : Bool) (s : State) : TimeKept s (tioStep back s) :=
  TimeKept.ofOnly (tioStep_only ..) (by decide) (by decide)

theorem clogMark_timeKept (s : State) : TimeKept s (clogMark s) :=
  TimeKept.ofOnly (clogMark_only ..) (by decide) (by decide)

theorem leapDone_timeKept (s : State) : TimeKept s (leapDone s) := by
  unfold leapDone
  exact TimeKept.trans (TimeKept.modTco rfl rfl) (emit_timeKept ..)

theorem freqCheck_timeKept (s : State) (u : Int) : TimeKept s (freqCheck s u) := by
  unfold freqCheck
  split
  · exact TimeKept.modTco rfl rfl
  · split
    · exact TimeKept.refl s
    · exact (TimeKept.modTco rfl rfl).trans (emit_timeKept ..)

theorem stateChange_timeKept (s : State) (n : ClockState) : TimeKept s (stateChange s n) := by
  unfold stateChange
  exact TimeKept.trans (TimeKept.modTco rfl rfl) (emit_timeKept ..)

theorem clockJudge_timeKept (s : State) : TimeKept s (clockJudge s) := by
  refine (clogMark_timeKept s).trans ?_
  unfold clockJudge
  extract_lets a u d
  split
  · exact stateChange_timeKept a u
  · split
    · exact TimeKept.modTco rfl rfl
    · split
      · exact stateChange_timeKept a u
      · exact TimeKept.modTco rfl rfl

theorem stMark_timeKept (s : State) : TimeKept s (stMark s) := by
  unfold stMark
  extract_lets e
  split
  · exact TimeKept.refl s
  · exact TimeKept.modTco rfl rfl

theorem clockEval_timeKept (s : State) : TimeKept s (clockEval s) :=
  (clockJudge_timeKept s).trans (stMark_timeKept _)

theorem hostStepTeb_timeKept (s : State) (delta16 : Int) : TimeKept s (hostStepTeb s delta16) := ⟨rfl, rfl, rfl, rfl⟩

theorem clearSlew_timeKept (s : State) : TimeKept (modTco s fun t => { t with slew := none }) (clearSlew s) :=
  freqCheck_timeKept ..

/-- A host slew that is aborted leaves no slew and completes ABORTED; the counter stands. -/
theorem slewAbort_host {s : State} {h : Hdr} {r : Int} {e : Option (BitVec 128)}
    (hslew : s.tco.slew = some { host := some h, remain := r, endTs := e }) (hkept : s.hif.discard.contains h = false) :
    slewAbort s = answered (clearSlew s) h 0x23 Status.aborted 0 0 := by
  have hdiscard : (clearSlew s).hif.discard = s.hif.discard := (clearSlew_timeKept s).discard
  unfold slewAbort
  rw [hslew]
  exact complete_eq_answered (by rw [hdiscard, hkept]) ..

/-- A step of the counter, once a host slew is out of the way: it moves the counter by the whole Δ, and what the step
    sets off leaves slew and completions alone. -/
theorem applyStep_timeKept (s : State) (src : Nat) (delta : Int) (hset : src ≠ 0 ∨ s.tco.marks.set ≠ some s.now) :
    TimeKept (modTco (if hostSlewing s then slewAbort s else s) fun t => { t with counter := moveCounter s.tco.counter delta })
      (applyStep s src delta) := by
  have hfull : (if src = 0 && s.tco.marks.set = some s.now then 0 else delta) = delta :=
    if_neg (by simpa using fun h => hset.resolve_left (not_not_intro h))
  unfold applyStep
  rw [hfull]
  extract_lets old full ended counted moved _ _ _ marked recorded due
  have hcounted : TimeKept ended counted := perfAdd_timeKept ..
  have hmoved : TimeKept (modTco ended fun t => { t with counter := moveCounter s.tco.counter delta }) moved :=
    ⟨rfl, hcounted.slew, hcounted.done, hcounted.discard⟩
  have hmarked : TimeKept moved marked := ⟨rfl, rfl, rfl, rfl⟩
  have hrecorded : TimeKept marked recorded := emit_timeKept ..
  have hleap : TimeKept recorded (if due then leapDone recorded else recorded) := by
    split
    · exact leapDone_timeKept recorded
    · exact TimeKept.refl recorded
  exact (((hmoved.trans hmarked).trans hrecorded).trans hleap).trans (tioStep_timeKept ..)

/-- R39: a step ends a host slew, completes it ABORTED and moves the counter by the whole Δ. -/
theorem applyStep_hostSlew {s : State} {src : Nat} {h : Hdr} {r : Int} {e : Option (BitVec 128)} (delta : Int)
    (hslew : s.tco.slew = some { host := some h, remain := r, endTs := e }) (hkept : s.hif.discard.contains h = false)
    (hset : src ≠ 0 ∨ s.tco.marks.set ≠ some s.now) :
    (applyStep s src delta).tco.slew = none ∧
    (applyStep s src delta).tco.counter = moveCounter s.tco.counter delta ∧
    Ends (applyStep s src delta) h 0x23 Status.aborted ∧
    (applyStep s src delta).hif.discard = s.hif.discard := by
  have hslewing : hostSlewing s = true := by unfold hostSlewing; rw [hslew]; rfl
  have hstep := applyStep_timeKept s src delta hset
  rw [if_pos hslewing, slewAbort_host hslew hkept] at hstep
  have hclear := clearSlew_timeKept s
  exact ⟨hstep.slew.trans hclear.slew, hstep.counter, ends_congr hstep.done (ends_answered ..),
    hstep.discard.trans hclear.discard⟩

/-- A TIME_STEP that TCO takes and STEP_LIMIT allows is a step, growth of the TEB and a completion (R37, R71). -/
theorem exec_timeStep {s : State} {hd : Hdr} {ns : BitVec 64} {frac : BitVec 16} (hacc : Accepts s hd 0x22)
    (hfree : s.tco.marks.host ≠ some s.now) (hslot : s.refs.timeSlot = none) (hidle : s.refs.phase = .idle)
    (hlimit : overLimit s (hostDelta ns frac) = false) :
    ∃ u, TimeKept (applyStep (tcoTake s) 1 (hostDelta ns frac * 2 ^ 32)) u ∧
      exec (.timeStep hd ns frac) s = .next (finTs u hd 0x22 (tsNow u)) := by
  refine ⟨clockEval (hostStepTeb (applyStep (tcoTake s) 1 (hostDelta ns frac * 2 ^ 32)) (hostDelta ns frac)),
    (hostStepTeb_timeKept ..).trans (clockEval_timeKept _), ?_⟩
  change execTimeStep hd ns frac s = _
  unfold execTimeStep
  rw [tcoHost_of_free hfree, cmd_of_accepts hacc]
  simp [hslot, hidle, hlimit]

/-- A counter that is moved is the sum modulo 2^48 s (R603). -/
theorem moveCounter_cast (c : Nat) (d : Int) : (moveCounter c d : Int) = ((c : Int) + d) % (counterMod : Int) :=
  Int.toNat_of_nonneg (Int.emod_nonneg _ (by decide))

/-- Settles O28: a step first aborts the host slew, and everything it sets off afterwards leaves counter, slew and
    completions alone; TIME_STEP adds only its own completion. -/
theorem stepEndsHostSlew : Obligations.StepEndsHostSlew := by
  refine ⟨fun s src delta h r e hslew hkept hset => ?_,
    fun s hd h ns frac r e hacc hfree hslot hidle hlimit hslew hkept => ?_⟩
  · obtain ⟨hnone, hmoved, hends, _⟩ := applyStep_hostSlew delta hslew hkept hset
    exact ⟨hnone, hmoved, hends⟩
  · obtain ⟨u, hu, hexec⟩ := exec_timeStep hacc hfree hslot hidle hlimit
    obtain ⟨hnone, hmoved, hends, hdiscard⟩ :=
      applyStep_hostSlew (s := tcoTake s) (src := 1) (hostDelta ns frac * 2 ^ 32) hslew hkept (Or.inl one_ne_zero)
    have hown : u.hif.discard.contains hd = false := by rw [hu.discard, hdiscard]; exact hacc.kept
    have hanswer : finTs u hd 0x22 (tsNow u) = answered u hd 0x22 Status.ok 16 (tsNow u).toNat :=
      complete_eq_answered hown ..
    rw [hanswer] at hexec
    refine ⟨_, hexec, hu.slew.trans hnone, ?_, ?_, ends_answered ..⟩
    · rw [answered_tco, hu.counter, hmoved]
      exact moveCounter_cast ..
    · have haborted := ends_any (ends_congr hu.done hends)
      rw [answered_done, List.any_append, Bool.or_eq_true]
      exact Or.inl haborted

end Sys2Proof.Proofs.Steps
end

section
/-! A full host write of a register is one unit that carries the word unchanged (11_key_store.md R412; R462, R463). -/
namespace Sys2Proof.Proofs.RegisterWrites
open Sys2Proof
open Sys2Proof.Machine

theorem length_leBytes (n v : Nat) : (leBytes n v).length = n := by
  induction n generalizing v with
  | zero => rfl
  | succ n ih => exact congrArg (· + 1) (ih _)

/-- Four bytes at an aligned offset are one unit with every byte enabled. -/
theorem unitsOf_aligned {k : Nat} (halign : k % 4 = 0) : unitsOf k 4 = [(k, 15)] := by
  have hone : (k + 4 - 1) / 4 - k / 4 + 1 = 1 := by omega
  have hoff : 4 * (k / 4) = k := by omega
  rw [unitsOf, if_neg (by decide), hone]
  simp [hoff, List.range_succ, flags]

/-- The base-256 digits of a number below 2^32 add up to it. -/
theorem bytes_sum {n : Nat} (hn : n < 2 ^ 32) :
    n % 2 ^ 8 + n / 256 % 2 ^ 8 * 2 ^ 8 + n / 256 / 256 % 2 ^ 8 * 2 ^ 16 + n / 256 / 256 / 256 % 2 ^ 8 * 2 ^ 24 = n := by
  omega

/-- A unit at the write's own offset takes the bytes in their order. -/
theorem unitWord_same (k : Nat) (data : List Byte) :
    unitWord k data k = BitVec.ofNat 32 (((List.range 4).map fun j => (data.getD j 0).toNat * 2 ^ (8 * j)).sum) := by
  simp [unitWord]

/-- The bytes of a word, put back into the lanes of its register, are the word. -/
theorem unitWord_leBytes (k : Nat) (v : Word) : unitWord k (leBytes 4 v.toNat) k = v := by
  rw [unitWord_same]
  simp only [List.sum_range_succ, List.range_zero, List.map_nil, List.sum_nil, leBytes, List.getD_cons_zero,
    List.getD_cons_succ, BitVec.toNat_ofNat, Nat.reduceMul, pow_zero, mul_one, mul_zero, zero_add]
  rw [bytes_sum v.isLt, BitVec.ofNat_toNat, BitVec.setWidth_eq]

/-- A full host write over PCIe, outside the remote window, is one write unit (R462). -/
theorem exec_fullWrite {s : State} {k : Nat} (v : Word) (hpcie : s.glb.pcie = true) (hlink : s.hif.linkUp = true)
    (halign : k % 4 = 0) (hown : k < 0x200000) :
    exec (.registerWrite k (leBytes 4 v.toNat)) s = .next (unitWrite s k 15 v false) := by
  have hhost : hostLink s = true := by simp [hostLink, hpcie, hlink]
  have hwindow : ¬ 0x200000 ≤ k := by omega
  change Host.Outcome.next (hostWr s k (leBytes 4 v.toNat)) = _
  simp [hostWr, hhost, length_leBytes, unitsOf_aligned halign, unitWord_leBytes, hostUnit, hwindow, ownUnit]

end Sys2Proof.Proofs.RegisterWrites
end

section
/-! Writes of KEY_TAMPER_EN (11_key_store.md R412) and the parity mark of the word (R467, R469). -/
namespace Sys2Proof.Proofs.TamperEnable
open Sys2Proof
open Sys2Proof.Machine
open Sys2Proof.Safety
open Sys2Proof.Laws
open Sys2Proof.Proofs.RegisterWrites

/-- R412: an unlocked write of KEY_TAMPER_EN renews the word's parity and sets the armed sources. -/
theorem exec_write_keyTamperEn {s : State} (w : Word) (hpcie : s.glb.pcie = true) (hlink : s.hif.linkUp = true)
    (hup : regUp s .key = true) (hlock : s.glb.lock = false) :
    exec (.registerWrite Rg.keyTamperEn (leBytes 4 w.toNat)) s =
      .next (tamperEnWrite (reparity s Rg.keyTamperEn) w) := by
  have hblk : blkOf (Rg.keyTamperEn / 0x10000) = some .key := by decide
  have hmapped : mapped Rg.keyTamperEn = true := by decide
  rw [exec_fullWrite w hpcie hlink (by decide) (by decide)]
  simp [unitWrite, hblk, hmapped, hup, hlock, regApply]

/-- R412: a write of the sources logs TAMPER_HOLD or nothing; it marks no word and unmarks none. -/
theorem tamperEnWrite_mismatch (s : State) (w : Word) : (tamperEnWrite s w).mismatch = s.mismatch :=
  (tamperEnWrite_only s w).same .mismatch (by decide)

/-- R469: a word whose parity is renewed is no longer marked. -/
theorem not_mem_reparity (s : State) (k : Nat) : k ∉ (reparity s k).mismatch := by simp [reparity]

/-- READY in Boil on a PCIe host, everything else as at reset. -/
def running : State :=
  { State.reset with
    pwr := { State.reset.pwr with phase := .ready, state := .boil }
    glb := { State.reset.glb with pcie := true }
    hif := { State.reset.hif with linkUp := true } }

/-- R467: the scrubber marks KEY_TAMPER_EN on a running engine; the host still reaches the register, the store is
    UNPROVISIONED and LOCK is open. -/
theorem parityScrub_marks_keyTamperEn : ∃ t, exec (.parityScrub (some Rg.keyTamperEn)) running = .next t ∧
    Rg.keyTamperEn ∈ t.mismatch ∧ t.glb.pcie = true ∧ t.hif.linkUp = true ∧ regUp t .key = true ∧
    t.glb.lock = false ∧ t.key.store ≠ .keyed :=
  ⟨_, rfl, by decide⟩

/-- Refutes O55: the word carries parity, and a write renews it. After the scrubber has marked the word of `running`,
    whose store is not KEYED, an unlocked write takes the mark away, while the statement lets only the sources change. -/
theorem not_tamperEnableWrites : ¬ Obligations.TamperEnableWrites := by
  intro h
  obtain ⟨t, -, hmark, hpcie, hlink, hup, hlock, hstore⟩ := parityScrub_marks_keyTamperEn
  obtain ⟨-, hclears, -⟩ := h t 0 hpcie hlink hup
  have hwrite := exec_write_keyTamperEn 0 hpcie hlink hup hlock
  have hsame := Host.Outcome.next.inj ((hclears hlock hstore).symm.trans hwrite)
  have hkept : t.mismatch = (tamperEnWrite (reparity t Rg.keyTamperEn) 0).mismatch := (congrArg State.mismatch hsame :)
  rw [tamperEnWrite_mismatch] at hkept
  exact not_mem_reparity t Rg.keyTamperEn (hkept ▸ hmark)

end Sys2Proof.Proofs.TamperEnable
end

section
/-! The frame of every command, and the invariants that it carries with it (R460, R603). -/
-- One proof after another: the whole text is compiled in one process whose memory is bounded.
set_option Elab.async false
namespace Sys2Proof.Proofs.Frames
open Sys2Proof
open Sys2Proof.Machine
open Sys2Proof.Safety
open Sys2Proof.Laws

/-- An answer that reaches only some parts reaches only those of a longer list. The condition is a Boolean that evaluates
    whatever the operands of the command are. -/
theorem OnlyAns.within {L M : List Part} {s : State} {a : Ans} (h : OnlyAns M s a)
    (sub : (M.all fun p => L.contains p) = true) : OnlyAns L s a :=
  fun t ht => Only.mono (h t ht) fun p hp => List.contains_iff_mem.mp (List.all_eq_true.mp sub p hp)

/-- Every command reaches only the parts listed for it. -/
theorem exec_onlyAns (c : Instr) (s : State) : OnlyAns (touched c) s (exec c s) := by
  cases c with
  | nop hd => exact OnlyAns.within (execNop_only hd s) rfl
  | engineQuery hd => exact OnlyAns.within (execEngineQuery_only hd s) rfl
  | powerSet hd target => exact OnlyAns.within (execPowerSet_only hd target s) rfl
  | powerQuery hd => exact OnlyAns.within (execPowerQuery_only hd s) rfl
  | loopReset hd loop refLost => exact OnlyAns.within (execLoopReset_only hd loop refLost s) rfl
  | clockQuery hd => exact OnlyAns.within (execClockQuery_only hd s) rfl
  | timeGet hd => exact OnlyAns.within (execTimeGet_only hd s) rfl
  | timeSet hd sec ns frac teb => exact OnlyAns.within (execTimeSet_only hd sec ns frac teb s) rfl
  | timeStep hd ns frac => exact OnlyAns.within (execTimeStep_only hd ns frac s) rfl
  | timeSlew hd ns frac => exact OnlyAns.within (execTimeSlew_only hd ns frac s) rfl
  | freqSet hd w => exact OnlyAns.within (execFreqSet_only hd w s) rfl
  | tempSupply hd temp => exact OnlyAns.within (execTempSupply_only hd temp s) rfl
  | timeInvalidate hd => exact OnlyAns.within (execTimeInvalidate_only hd s) rfl
  | leapSet hd off pend leapAt => exact OnlyAns.within (execLeapSet_only hd off pend leapAt s) rfl
  | tebPublish => exact OnlyAns.within (execTebPublish_only s) rfl
  | dwellExpiry => exact OnlyAns.within (execDwellExpiry_only s) rfl
  | lockLapse => exact OnlyAns.within (execLockLapse_only s) rfl
  | leapDone => exact OnlyAns.within (execLeapDone_only s) rfl
  | tempFallback => exact OnlyAns.within (execTempFallback_only s) rfl
  | slewComplete => exact OnlyAns.within (execSlewComplete_only s) rfl
  | refsMeasurement slot off latch bound valid => exact OnlyAns.within (execRefsMeasurement_only slot off latch bound valid s) rfl
  | loopLoss loop ref => exact OnlyAns.within (execLoopLoss_only loop ref s) rfl
  | loopLocked loop => exact OnlyAns.within (execLoopLocked_only loop s) rfl
  | loopResetTimeout loop => exact OnlyAns.within (execLoopResetTimeout_only loop s) rfl
  | refWaitRetry count => exact OnlyAns.within (execRefWaitRetry_only count s) rfl
  | sramScrub store met double addr entry pass => exact OnlyAns.within (execSramScrub_only store met double addr entry pass s) rfl
  | slotActivityLapse slot => exact OnlyAns.within (execSlotActivityLapse_only slot s) rfl
  | monitorUpdate ppt => exact OnlyAns.within (execMonitorUpdate_only ppt s) rfl
  | slotQualify slot => exact OnlyAns.within (execSlotQualify_only slot s) rfl
  | wtrExpiry => exact OnlyAns.within (execWtrExpiry_only s) rfl
  | txnCommit => exact OnlyAns.within (execTxnCommit_only s) rfl
  | settleEnd => exact OnlyAns.within (execSettleEnd_only s) rfl
  | refusedClear slot => exact OnlyAns.within (execRefusedClear_only slot s) rfl
  | holdoverWordUpdate => exact OnlyAns.within (execHoldoverWordUpdate_only s) rfl
  | steerUpdate => exact OnlyAns.within (execSteerUpdate_only s) rfl
  | steerReply line => exact OnlyAns.within (execSteerReply_only line s) rfl
  | steerReplyTimeout => exact OnlyAns.within (execSteerReplyTimeout_only s) rfl
  | refQuery hd slot => exact OnlyAns.within (execRefQuery_only hd slot s) rfl
  | refLockout hd slot on => exact OnlyAns.within (execRefLockout_only hd slot on s) rfl
  | refForce hd slot => exact OnlyAns.within (execRefForce_only hd slot s) rfl
  | acceptStep hd slot mode maxNs => exact OnlyAns.within (execAcceptStep_only hd slot mode maxNs s) rfl
  | refSwitch hd slot => exact OnlyAns.within (execRefSwitch_only hd slot s) rfl
  | holdoverForce hd on => exact OnlyAns.within (execHoldoverForce_only hd on s) rfl
  | oscSet hd code => exact OnlyAns.within (execOscSet_only hd code s) rfl
  | rankSet hd slot rank ovr => exact OnlyAns.within (execRankSet_only hd slot rank ovr s) rfl
  | ageReset hd => exact OnlyAns.within (execAgeReset_only hd s) rfl
  | gspPortFail port rate rateHz => exact OnlyAns.within (execGspPortFail_only port rate rateHz s) rfl
  | gspClkOk port rateHz => exact OnlyAns.within (execGspClkOk_only port rateHz s) rfl
  | acqSearchDone rise fall => exact OnlyAns.within (execAcqSearchDone_only rise fall s) rfl
  | carrierLock obs => exact OnlyAns.within (execCarrierLock_only obs s) rfl
  | pullInTimeout chan => exact OnlyAns.within (execPullInTimeout_only chan s) rfl
  | channelLoss chan obs => exact OnlyAns.within (execChannelLoss_only chan obs s) rfl
  | reacqTimeout chan => exact OnlyAns.within (execReacqTimeout_only chan s) rfl
  | symbolSync obs => exact OnlyAns.within (execSymbolSync_only obs s) rfl
  | towDecoded obs => exact OnlyAns.within (execTowDecoded_only obs s) rfl
  | measLatch obs => exact OnlyAns.within (execMeasLatch_only obs s) rfl
  | navPage chan page => exact OnlyAns.within (execNavPage_only chan page s) rfl
  | solutionDone group sol => exact OnlyAns.within (execSolutionDone_only group sol s) rfl
  | exclHoldExpiry group sys sv => exact OnlyAns.within (execExclHoldExpiry_only group sys sv s) rfl
  | gnssStart hd mask kind => exact OnlyAns.within (execGnssStart_only hd mask kind s) rfl
  | gnssStop hd mask => exact OnlyAns.within (execGnssStop_only hd mask s) rfl
  | acqSearch hd addr len req => exact OnlyAns.within (execAcqSearch_only hd addr len req s) rfl
  | chanPin hd port signal sv on => exact OnlyAns.within (execChanPin_only hd port signal sv on s) rfl
  | measRead hd seq addr len => exact OnlyAns.within (execMeasRead_only hd seq addr len s) rfl
  | navRead hd first count addr => exact OnlyAns.within (execNavRead_only hd first count addr s) rfl
  | navInject hd pages => exact OnlyAns.within (execNavInject_only hd pages s) rfl
  | posSet hd group x y z unc => exact OnlyAns.within (execPosSet_only hd group x y z unc s) rfl
  | surveyStart hd group => exact OnlyAns.within (execSurveyStart_only hd group s) rfl
  | solQuery hd group => exact OnlyAns.within (execSolQuery_only hd group s) rfl
  | svExclude hd sys sv on => exact OnlyAns.within (execSvExclude_only hd sys sv on s) rfl
  | gnssClear hd mask => exact OnlyAns.within (execGnssClear_only hd mask s) rfl
  | ppsOutEdge output => exact OnlyAns.within (execPpsOutEdge_only output s) rfl
  | pulseTrailingEdge output => exact OnlyAns.within (execPulseTrailingEdge_only output s) rfl
  | trigEdge pin => exact OnlyAns.within (execTrigEdge_only pin s) rfl
  | syncInEdge phase => exact OnlyAns.within (execSyncInEdge_only phase s) rfl
  | captureEdge pin rising phase => exact OnlyAns.within (execCaptureEdge_only pin rising phase s) rfl
  | ppsInEdge input rising phase => exact OnlyAns.within (execPpsInEdge_only input rising phase s) rfl
  | todMessage input msg => exact OnlyAns.within (execTodMessage_only input msg s) rfl
  | todWinExpiry input => exact OnlyAns.within (execTodWinExpiry_only input s) rfl
  | trigArm hd pin block => exact OnlyAns.within (execTrigArm_only hd pin block s) rfl
  | trigStop hd pin mode sec ns => exact OnlyAns.within (execTrigStop_only hd pin mode sec ns s) rfl
  | capRead hd count addr => exact OnlyAns.within (execCapRead_only hd count addr s) rfl
  | edgeRead hd count addr => exact OnlyAns.within (execEdgeRead_only hd count addr s) rfl
  | freqSync hd mask => exact OnlyAns.within (execFreqSync_only hd mask s) rfl
  | frameReceive port phase taken fecOk fecBad descs frame => exact OnlyAns.within (execFrameReceive_only port phase taken fecOk fecBad descs frame s) rfl
  | policing => exact OnlyAns.within (execPolicing_only s) rfl
  | kodCap => exact OnlyAns.within (execKodCap_only s) rfl
  | cookieRotateInstant => exact OnlyAns.within (execCookieRotateInstant_only s) rfl
  | cookieRetireInstant entry => exact OnlyAns.within (execCookieRetireInstant_only entry s) rfl
  | rlSweep => exact OnlyAns.within (execRlSweep_only s) rfl
  | cookieMint hd aead count keys addr len => exact OnlyAns.within (execCookieMint_only hd aead count keys addr len s) rfl
  | cookieKeyLoad hd entry slot keyId => exact OnlyAns.within (execCookieKeyLoad_only hd entry slot keyId s) rfl
  | cookieRotate hd entry sec ns => exact OnlyAns.within (execCookieRotate_only hd entry sec ns s) rfl
  | cookieKeyRetire hd entry sec ns => exact OnlyAns.within (execCookieKeyRetire_only hd entry sec ns s) rfl
  | rlQuery hd fam addr => exact OnlyAns.within (execRlQuery_only hd fam addr s) rfl
  | rlClear hd => exact OnlyAns.within (execRlClear_only hd s) rfl
  | ptpScheduledSend inst kind entry => exact OnlyAns.within (execPtpScheduledSend_only inst kind entry s) rfl
  | followUpSend => exact OnlyAns.within (execFollowUpSend_only s) rfl
  | grantExpiry entry kind => exact OnlyAns.within (execGrantExpiry_only entry kind s) rfl
  | grantRenewal inst idx kind => exact OnlyAns.within (execGrantRenewal_only inst idx kind s) rfl
  | grantRetry inst idx kind => exact OnlyAns.within (execGrantRetry_only inst idx kind s) rfl
  | announceReceiptTimeout inst ident => exact OnlyAns.within (execAnnounceReceiptTimeout_only inst ident s) rfl
  | delayReqSend inst => exact OnlyAns.within (execDelayReqSend_only inst s) rfl
  | secKeyRotateInstant entry => exact OnlyAns.within (execSecKeyRotateInstant_only entry s) rfl
  | secKeyRetireInstant entry => exact OnlyAns.within (execSecKeyRetireInstant_only entry s) rfl
  | authAlarm => exact OnlyAns.within (execAuthAlarm_only s) rfl
  | grantQuery hd inst fam addr udp => exact OnlyAns.within (execGrantQuery_only hd inst fam addr udp s) rfl
  | grantCancel hd entry inst => exact OnlyAns.within (execGrantCancel_only hd entry inst s) rfl
  | grantList hd first count addr => exact OnlyAns.within (execGrantList_only hd first count addr s) rfl
  | secKeyLoad hd entry slot spp alg keyId => exact OnlyAns.within (execSecKeyLoad_only hd entry slot spp alg keyId s) rfl
  | secKeyRotate hd entry sec ns => exact OnlyAns.within (execSecKeyRotate_only hd entry sec ns s) rfl
  | secKeyRetire hd entry sec ns => exact OnlyAns.within (execSecKeyRetire_only hd entry sec ns s) rfl
  | slaveQuery hd inst => exact OnlyAns.within (execSlaveQuery_only hd inst s) rfl
  | pauseExpiry port => exact OnlyAns.within (execPauseExpiry_only port s) rfl
  | pauseWdExpiry port => exact OnlyAns.within (execPauseWdExpiry_only port s) rfl
  | wdHoldExpiry port => exact OnlyAns.within (execWdHoldExpiry_only port s) rfl
  | txPauseSend port share => exact OnlyAns.within (execTxPauseSend_only port share s) rfl
  | esmcTimeout port => exact OnlyAns.within (execEsmcTimeout_only port s) rfl
  | esmcInfoSend port => exact OnlyAns.within (execEsmcInfoSend_only port s) rfl
  | esmcEventSend port => exact OnlyAns.within (execEsmcEventSend_only port s) rfl
  | portLinkUp port anDone speed => exact OnlyAns.within (execPortLinkUp_only port anDone speed s) rfl
  | portLinkDown port cut => exact OnlyAns.within (execPortLinkDown_only port cut s) rfl
  | hostTxFrame ring descs data => exact OnlyAns.within (execHostTxFrame_only ring descs data s) rfl
  | wakeMatch frame => exact OnlyAns.within (execWakeMatch_only frame s) rfl
  | portQuery hd port => exact OnlyAns.within (execPortQuery_only hd port s) rfl
  | modI2c hd bus addr rd len off width buf ack inTime data => exact OnlyAns.within (execModI2c_only hd bus addr rd len off width buf ack inTime data s) rfl
  | modMdio hd clause port dev reg data rd val => exact OnlyAns.within (execModMdio_only hd clause port dev reg data rd val s) rfl
  | portRestart hd port => exact OnlyAns.within (execPortRestart_only hd port s) rfl
  | linkAligned lk => exact OnlyAns.within (execLinkAligned_only lk s) rfl
  | linkHelloSend lk => exact OnlyAns.within (execLinkHelloSend_only lk s) rfl
  | linkRetrain lk => exact OnlyAns.within (execLinkRetrain_only lk s) rfl
  | linkFrameRx lk phase hostData frame => exact OnlyAns.within (execLinkFrameRx_only lk phase hostData frame s) rfl
  | timeReqSend lk => exact OnlyAns.within (execTimeReqSend_only lk s) rfl
  | exchangeLost lk => exact OnlyAns.within (execExchangeLost_only lk s) rfl
  | linkIdleSend lk => exact OnlyAns.within (execLinkIdleSend_only lk s) rfl
  | retryTimeout lk => exact OnlyAns.within (execRetryTimeout_only lk s) rfl
  | linkDeadTimeout lk => exact OnlyAns.within (execLinkDeadTimeout_only lk s) rfl
  | linkLockLoss lk => exact OnlyAns.within (execLinkLockLoss_only lk s) rfl
  | remoteTimeout => exact OnlyAns.within (execRemoteTimeout_only s) rfl
  | shelfReqPeriodic => exact OnlyAns.within (execShelfReqPeriodic_only s) rfl
  | linkErrors lk => exact OnlyAns.within (execLinkErrors_only lk s) rfl
  | linkQuery hd lk => exact OnlyAns.within (execLinkQuery_only hd lk s) rfl
  | linkRoleSet hd lk role flags => exact OnlyAns.within (execLinkRoleSet_only hd lk role flags s) rfl
  | linkRestart hd lk => exact OnlyAns.within (execLinkRestart_only hd lk s) rfl
  | shelfPin hd table pin num ident => exact OnlyAns.within (execShelfPin_only hd table pin num ident s) rfl
  | enumList hd table first addr count => exact OnlyAns.within (execEnumList_only hd table first addr count s) rfl
  | heartbeatSend => exact OnlyAns.within (execHeartbeatSend_only s) rfl
  | heartbeatMiss held => exact OnlyAns.within (execHeartbeatMiss_only held s) rfl
  | claimWaitExpiry => exact OnlyAns.within (execClaimWaitExpiry_only s) rfl
  | claimCheck low => exact OnlyAns.within (execClaimCheck_only low s) rfl
  | holdWatchdogLapse => exact OnlyAns.within (execHoldWatchdogLapse_only s) rfl
  | lineStuckLow => exact OnlyAns.within (execLineStuckLow_only s) rfl
  | pairCeremonyTimeout => exact OnlyAns.within (execPairCeremonyTimeout_only s) rfl
  | swapPeriodExpiry => exact OnlyAns.within (execSwapPeriodExpiry_only s) rfl
  | swapSelfCheck => exact OnlyAns.within (execSwapSelfCheck_only s) rfl
  | swapLastCall => exact OnlyAns.within (execSwapLastCall_only s) rfl
  | swapDrive => exact OnlyAns.within (execSwapDrive_only s) rfl
  | swapHandover => exact OnlyAns.within (execSwapHandover_only s) rfl
  | swapLineCheck low => exact OnlyAns.within (execSwapLineCheck_only low s) rfl
  | swapRequestSend => exact OnlyAns.within (execSwapRequestSend_only s) rfl
  | pairQuery hd => exact OnlyAns.within (execPairQuery_only hd s) rfl
  | pairBegin hd slot addr hash => exact OnlyAns.within (execPairBegin_only hd slot addr hash s) rfl
  | pairForget hd => exact OnlyAns.within (execPairForget_only hd s) rfl
  | pairSwap hd => exact OnlyAns.within (execPairSwap_only hd s) rfl
  | pairRelease hd => exact OnlyAns.within (execPairRelease_only hd s) rfl
  | pairResync hd => exact OnlyAns.within (execPairResync_only hd s) rfl
  | tamperDetect source => exact OnlyAns.within (execTamperDetect_only source s) rfl
  | invalidateCommit => exact OnlyAns.within (execInvalidateCommit_only s) rfl
  | keyMaterialZero => exact OnlyAns.within (execKeyMaterialZero_only s) rfl
  | drbgReseed => exact OnlyAns.within (execDrbgReseed_only s) rfl
  | rngFail rep adapt => exact OnlyAns.within (execRngFail_only rep adapt s) rfl
  | entropyRestart ok => exact OnlyAns.within (execEntropyRestart_only ok s) rfl
  | drbgExhausted => exact OnlyAns.within (execDrbgExhausted_only s) rfl
  | keyQuery hd slot => exact OnlyAns.within (execKeyQuery_only hd slot s) rfl
  | keyGen hd slot attr => exact OnlyAns.within (execKeyGen_only hd slot attr s) rfl
  | keyImport hd slot wrap addr len blob => exact OnlyAns.within (execKeyImport_only hd slot wrap addr len blob s) rfl
  | keyDerive hd slot parent kdf attr addr len ctx => exact OnlyAns.within (execKeyDerive_only hd slot parent kdf attr addr len ctx s) rfl
  | keyExport hd slot wrap addr len => exact OnlyAns.within (execKeyExport_only hd slot wrap addr len s) rfl
  | keyInvalidate hd slot => exact OnlyAns.within (execKeyInvalidate_only hd slot s) rfl
  | keyAttest hd slot nonceAddr addr nonce => exact OnlyAns.within (execKeyAttest_only hd slot nonceAddr addr nonce s) rfl
  | keyPublic hd slot addr => exact OnlyAns.within (execKeyPublic_only hd slot addr s) rfl
  | keySign hd slot dAddr addr digest => exact OnlyAns.within (execKeySign_only hd slot dAddr addr digest s) rfl
  | keyProvision hd addr hit => exact OnlyAns.within (execKeyProvision_only hd addr hit s) rfl
  | keyTamperRead hd addr => exact OnlyAns.within (execKeyTamperRead_only hd addr s) rfl
  | tamperClear hd mask active => exact OnlyAns.within (execTamperClear_only hd mask active s) rfl
  | doorbell off value => exact OnlyAns.within (execDoorbell_only off value s) rfl
  | commandFetch ring desc => exact OnlyAns.within (execCommandFetch_only ring desc s) rfl
  | commandComplete => exact OnlyAns.within (execCommandComplete_only s) rfl
  | modTimeExpiry ring => exact OnlyAns.within (execModTimeExpiry_only ring s) rfl
  | blockIrqHoldoffEnd blk => exact OnlyAns.within (execBlockIrqHoldoffEnd_only blk s) rfl
  | flr loss gen width => exact OnlyAns.within (execFlr_only loss gen width s) rfl
  | remoteWindowAccess off be data => exact OnlyAns.within (execRemoteWindowAccess_only off be data s) rfl
  | ringEnable ring word => exact OnlyAns.within (execRingEnable_only ring word s) rfl
  | registerWrite addr data => exact OnlyAns.within (execRegisterWrite_only addr data s) rfl
  | sqClear blk word => exact OnlyAns.within (execSqClear_only blk word s) rfl
  | rcRead addr => exact OnlyAns.within (execRcRead_only addr s) rfl
  | indDataAccess blk be data => exact OnlyAns.within (execIndDataAccess_only blk be data s) rfl
  | mbxGo word => exact OnlyAns.within (execMbxGo_only word s) rfl
  | mbxDataReady => exact OnlyAns.within (execMbxDataReady_only s) rfl
  | mbxAck word => exact OnlyAns.within (execMbxAck_only word s) rfl
  | glbLockWrite word => exact OnlyAns.within (execGlbLockWrite_only word s) rfl
  | testKeyWrite word => exact OnlyAns.within (execTestKeyWrite_only word s) rfl
  | testWindowClose => exact OnlyAns.within (execTestWindowClose_only s) rfl
  | parityScrub bad => exact OnlyAns.within (execParityScrub_only bad s) rfl
  | porRelease inp => exact OnlyAns.within (execPorRelease_only inp s) rfl
  | powerDownDomains => exact OnlyAns.within (execPowerDownDomains_only s) rfl
  | pwrFail => exact OnlyAns.within (execPwrFail_only s) rfl
  | thermalSample junction vcore => exact OnlyAns.within (execThermalSample_only junction vcore s) rfl
  | thermalShutdown => exact OnlyAns.within (execThermalShutdown_only s) rfl
  | coreHalt core cause => exact OnlyAns.within (execCoreHalt_only core cause s) rfl
  | railWarn rail high => exact OnlyAns.within (execRailWarn_only rail high s) rfl
  | pwrSwrstWrite word => exact OnlyAns.within (execPwrSwrstWrite_only word s) rfl
  | softReset inp => exact OnlyAns.within (execSoftReset_only inp s) rfl
  | updOpen hd mode link slot => exact OnlyAns.within (execUpdOpen_only hd mode link slot s) rfl
  | updWrite hd off len addr data => exact OnlyAns.within (execUpdWrite_only hd off len addr data s) rfl
  | updVerify hd => exact OnlyAns.within (execUpdVerify_only hd s) rfl
  | updActivate hd slot flags inp => exact OnlyAns.within (execUpdActivate_only hd slot flags inp s) rfl
  | updConfirm hd => exact OnlyAns.within (execUpdConfirm_only hd s) rfl
  | updClose hd => exact OnlyAns.within (execUpdClose_only hd s) rfl
  | updQuery hd => exact OnlyAns.within (execUpdQuery_only hd s) rfl
  | updActivateReset inp => exact OnlyAns.within (execUpdActivateReset_only inp s) rfl
  | updSessionTimeout => exact OnlyAns.within (execUpdSessionTimeout_only s) rfl
  | trialConfirm => exact OnlyAns.within (execTrialConfirm_only s) rfl
  | trialExpired => exact OnlyAns.within (execTrialExpired_only s) rfl
  | dumpLatch desc => exact OnlyAns.within (execDumpLatch_only desc s) rfl
  | sampleTake core insn addr latency due trap => exact OnlyAns.within (execSampleTake_only core insn addr latency due trap s) rfl
  | sampleLost => exact OnlyAns.within (execSampleLost_only s) rfl
  | pantryCommit readBack => exact OnlyAns.within (execPantryCommit_only readBack s) rfl
  | chktestGo word => exact OnlyAns.within (execChktestGo_only word s) rfl
  | chktestEnd detected => exact OnlyAns.within (execChktestEnd_only detected s) rfl
  | perfWrapClrWrite word => exact OnlyAns.within (execPerfWrapClrWrite_only word s) rfl
  | bar2Access off data len => exact OnlyAns.within (execBar2Access_only off data len s) rfl
  | histRead hd id addr => exact OnlyAns.within (execHistRead_only hd id addr s) rfl
  | pantryRead hd part first addr len => exact OnlyAns.within (execPantryRead_only hd part first addr len s) rfl
  | dumpNow hd desc => exact OnlyAns.within (execDumpNow_only hd desc s) rfl
  | sampleStart hd mask mode period thresh => exact OnlyAns.within (execSampleStart_only hd mask mode period thresh s) rfl
  | sampleStop hd => exact OnlyAns.within (execSampleStop_only hd s) rfl
  | registerRead addr len => exact OnlyAns.within (execRegisterRead_only addr len s) rfl
  | freqOutEdge output => exact OnlyAns.within (execFreqOutEdge_only output s) rfl
  | activeNReadHigh => exact OnlyAns.within (execActiveNReadHigh_only s) rfl
  | dmaReadCompletion hd slot cause => exact OnlyAns.within (execDmaReadCompletion_only hd slot cause s) rfl
  | pwrFailNHigh => exact OnlyAns.within (execPwrFailNHigh_only s) rfl
  | bootThermalHoldEnd junction => exact OnlyAns.within (execBootThermalHoldEnd_only junction s) rfl

/-- Settles O6: the frame of every command is what its executor can reach. -/
theorem commandsTouchOnly : Obligations.CommandsTouchOnly :=
  fun c s t hexec p hp => (exec_onlyAns c s t hexec).same p hp

/-- A step keeps the form of the stored words and the counter's bound, with a command and without one. -/
theorem step_keepsForm {s t : State} (hstep : step s = .next t) :
    (wordsCanonical s = true → wordsCanonical t = true) ∧ (counterBound s = true → counterBound t = true) := by
  unfold step at hstep
  split at hstep
  · have hidle : Only _ s t := Host.Outcome.next.inj hstep ▸ idleTick_only s
    exact ⟨hidle.form, hidle.bound⟩
  · next c rest _ =>
    have hcmd : Only (touched c) { s with pending := rest } t := exec_onlyAns c _ t hstep
    exact ⟨hcmd.form, hcmd.bound⟩

/-- Settles O5: both invariants travel with the frame, of a command and of the idle tick. -/
theorem everyStepKeepsForm : Obligations.EveryStepKeepsForm :=
  fun _ _ hwords hcounter hstep => ⟨(step_keepsForm hstep).1 hwords, (step_keepsForm hstep).2 hcounter⟩

end Sys2Proof.Proofs.Frames
end

section
-- One proof after another: the whole text is compiled in one process whose memory is bounded.
set_option Elab.async false
namespace Sys2Proof.Proofs.Totality
open Sys2Proof
open Sys2Proof.Machine

/-- Whatever the phase, and whether its arguments pass or not, a host command answers a next state. -/
theorem cmd_next (s : State) (hd : Hdr) (op : Nat) (pre : Option (BitVec 8)) (body : State → State) :
    ∃ t, cmd s hd op pre body = .next t := by
  unfold cmd
  split <;> exact ⟨_, rfl⟩

theorem keyCmd_next (s : State) (hd : Hdr) (op : Nat) (pre : Option (BitVec 8)) (keyed : Bool) (body : State → State) :
    ∃ t, keyCmd s hd op pre keyed body = .next t := cmd_next ..

/-- A command of the time core that must wait for the next tick waits in a next state. -/
theorem tcoHost_next {s : State} (c : Instr) (f : State → Ans) (h : ∃ t, f s = .next t) :
    ∃ t, tcoHost s c f = .next t := by
  unfold tcoHost
  split
  · exact ⟨_, rfl⟩
  · exact h

/-- Every command answers a next state: a host command through the frame that all of them share, every other row at once. -/
theorem exec_next (c : Instr) (s : State) : ∃ t, exec c s = .next t := by
  unfold exec
  cases c with
  | nop hd => exact cmd_next ..
  | engineQuery hd => exact cmd_next ..
  | powerSet hd target => exact cmd_next ..
  | powerQuery hd => exact cmd_next ..
  | loopReset hd loop refLost => exact cmd_next ..
  | clockQuery hd => exact cmd_next ..
  | timeGet hd => exact cmd_next ..
  | timeSet hd sec ns frac teb => exact tcoHost_next _ _ (cmd_next ..)
  | timeStep hd ns frac => exact tcoHost_next _ _ (cmd_next ..)
  | timeSlew hd ns frac => exact tcoHost_next _ _ (cmd_next ..)
  | freqSet hd w => exact tcoHost_next _ _ (cmd_next ..)
  | tempSupply hd temp => exact tcoHost_next _ _ (cmd_next ..)
  | timeInvalidate hd => exact tcoHost_next _ _ (cmd_next ..)
  | leapSet hd off pend leapAt => exact tcoHost_next _ _ (cmd_next ..)
  | refQuery hd slot => exact cmd_next ..
  | refLockout hd slot on => exact cmd_next ..
  | refForce hd slot => exact cmd_next ..
  | acceptStep hd slot mode maxNs => exact cmd_next ..
  | refSwitch hd slot => exact cmd_next ..
  | holdoverForce hd on => exact cmd_next ..
  | oscSet hd code => dsimp only [execOscSet]; exact cmd_next ..
  | rankSet hd slot rank ovr => exact cmd_next ..
  | ageReset hd => exact cmd_next ..
  | gnssStart hd mask kind => exact cmd_next ..
  | gnssStop hd mask => exact cmd_next ..
  | acqSearch hd addr len req => dsimp only [execAcqSearch]; exact cmd_next ..
  | chanPin hd port signal sv on => dsimp only [execChanPin]; exact cmd_next ..
  | measRead hd seq addr len => dsimp only [execMeasRead]; exact cmd_next ..
  | navRead hd first count addr => exact cmd_next ..
  | navInject hd pages => exact cmd_next ..
  | posSet hd group x y z unc => exact cmd_next ..
  | surveyStart hd group => exact cmd_next ..
  | solQuery hd group => exact cmd_next ..
  | svExclude hd sys sv on => exact cmd_next ..
  | gnssClear hd mask => exact cmd_next ..
  | trigArm hd pin block => dsimp only [execTrigArm]; exact cmd_next ..
  | trigStop hd pin mode sec ns => dsimp only [execTrigStop]; exact cmd_next ..
  | capRead hd count addr => exact cmd_next ..
  | edgeRead hd count addr => exact cmd_next ..
  | freqSync hd mask => exact cmd_next ..
  | cookieMint hd aead count keys addr len => exact cmd_next ..
  | cookieKeyLoad hd entry slot keyId => dsimp only [execCookieKeyLoad]; exact cmd_next ..
  | cookieRotate hd entry sec ns => exact cmd_next ..
  | cookieKeyRetire hd entry sec ns => exact cmd_next ..
  | rlQuery hd fam addr => exact cmd_next ..
  | rlClear hd => exact cmd_next ..
  | grantQuery hd inst fam addr udp => dsimp only [execGrantQuery]; exact cmd_next ..
  | grantCancel hd entry inst => dsimp only [execGrantCancel]; exact cmd_next ..
  | grantList hd first count addr => exact cmd_next ..
  | secKeyLoad hd entry slot spp alg keyId => dsimp only [execSecKeyLoad]; exact cmd_next ..
  | secKeyRotate hd entry sec ns => exact cmd_next ..
  | secKeyRetire hd entry sec ns => exact cmd_next ..
  | slaveQuery hd inst => exact cmd_next ..
  | portQuery hd port => exact cmd_next ..
  | modI2c hd bus addr rd len off width buf ack inTime data => dsimp only [execModI2c]; exact cmd_next ..
  | modMdio hd clause port dev reg data rd val => exact cmd_next ..
  | portRestart hd port => exact cmd_next ..
  | linkQuery hd lk => exact cmd_next ..
  | linkRoleSet hd lk role flags => dsimp only [execLinkRoleSet]; exact cmd_next ..
  | linkRestart hd lk => exact cmd_next ..
  | shelfPin hd table pin num ident => dsimp only [execShelfPin]; exact cmd_next ..
  | enumList hd table first addr count => dsimp only [execEnumList]; exact cmd_next ..
  | pairQuery hd => exact cmd_next ..
  | pairBegin hd slot addr hash => exact cmd_next ..
  | pairForget hd => exact cmd_next ..
  | pairSwap hd => exact cmd_next ..
  | pairRelease hd => exact cmd_next ..
  | pairResync hd => exact cmd_next ..
  | keyQuery hd slot => exact keyCmd_next ..
  | keyGen hd slot attr => exact keyCmd_next ..
  | keyImport hd slot wrap addr len blob => exact keyCmd_next ..
  | keyDerive hd slot parent kdf attr addr len ctx => dsimp only [execKeyDerive]; exact keyCmd_next ..
  | keyExport hd slot wrap addr len => dsimp only [execKeyExport]; exact keyCmd_next ..
  | keyInvalidate hd slot => dsimp only [execKeyInvalidate]; exact keyCmd_next ..
  | keyAttest hd slot nonceAddr addr nonce => dsimp only [execKeyAttest]; exact keyCmd_next ..
  | keyPublic hd slot addr => dsimp only [execKeyPublic]; exact keyCmd_next ..
  | keySign hd slot dAddr addr digest => dsimp only [execKeySign]; exact keyCmd_next ..
  | keyProvision hd addr hit => exact keyCmd_next ..
  | keyTamperRead hd addr => exact keyCmd_next ..
  | tamperClear hd mask active => exact keyCmd_next ..
  | updOpen hd mode link slot => exact cmd_next ..
  | updWrite hd off len addr data => exact cmd_next ..
  | updVerify hd => exact cmd_next ..
  | updActivate hd slot flags inp => exact cmd_next ..
  | updConfirm hd => exact cmd_next ..
  | updClose hd => exact cmd_next ..
  | updQuery hd => exact cmd_next ..
  | histRead hd id addr => exact cmd_next ..
  | pantryRead hd part first addr len => exact cmd_next ..
  | dumpNow hd desc => exact cmd_next ..
  | sampleStart hd mask mode period thresh => exact cmd_next ..
  | sampleStop hd => exact cmd_next ..
  | _ => exact ⟨_, rfl⟩

/-- Settles O4: time passes on an empty queue, and a command at its front answers a next state. -/
theorem everyStepHasNext : Obligations.EveryStepHasNext := by
  intro s
  unfold step
  split
  · exact ⟨_, rfl⟩
  · exact exec_next ..

/-- Settles O1. -/
theorem stepRunsFront : Obligations.StepRunsFront := fun _ _ _ => rfl

end Sys2Proof.Proofs.Totality
end

section
/-! The stored words, what reset leaves, and the passing of time on an empty queue (R30, R31, R34, R460, R467, R603). -/
-- One proof after another: the whole text is compiled in one process whose memory is bounded.
set_option Elab.async false
namespace Sys2Proof.Proofs.Ticks
open Sys2Proof
open Sys2Proof.Machine
open Sys2Proof.Safety
open Sys2Proof.Laws
open Sys2Proof.Proofs.Steps

/-! ## Stored words -/

theorem getW_putW_same {s : State} (hform : wordsCanonical s = true) (k : Nat) (v : Word) : getW (putW s k v) k = v :=
  aget_aset_same (fun j => BitVec.ofNat 32 (wordReset j)) k v s.words none hform

@[simp] theorem getW_putW_other (s : State) {k j : Nat} (v : Word) (hne : j ≠ k) : getW (putW s k v) j = getW s j :=
  aget_aset_other _ _ k j v hne s.words

theorem wordsCanonical_putW {s : State} (hform : wordsCanonical s = true) (k : Nat) (v : Word) :
    wordsCanonical (putW s k v) = true :=
  (putW_only s k v).form hform

/-- Settles O10: the words are a canonical list, which a write keeps and in which a key is found again. -/
theorem wordsReadBack : Obligations.WordsReadBack :=
  fun s k v hform => ⟨getW_putW_same hform k v, fun _ hne => getW_putW_other s v hne, wordsCanonical_putW hform k v,
    by simp⟩

/-! ## Reset -/

/-- Settles O8: no stored word differs from its reset value, and the counter is 0. -/
theorem resetHasForm : Obligations.ResetHasForm := ⟨rfl, by decide⟩

/-- Settles O9: each field as `State.reset` writes it out. -/
theorem resetLeaves : Obligations.ResetLeaves :=
  ⟨rfl, rfl, rfl, rfl, rfl, rfl, fun _ => rfl, by decide, by decide, by decide, rfl, rfl, rfl,
    fun b => by cases b <;> exact ⟨rfl, rfl⟩⟩

/-! ## Time on an empty queue -/

/-- A running engine's tick before what a POWER_SET under way makes of it (R493). -/
def tickBody (s : State) : State :=
  let a := if timeRuns s then mainTick s else s
  let b := tcoLater { aonAdvance a 1 with now := a.now + 1 }
  if b.glb.mbx.busy && decide (b.glb.mbx.dueBy ≤ b.now) then mbxReady b else b

theorem idleTick_running {s : State} (hrun : s.pwr.state = .warm ∨ s.pwr.state = .boil) :
    idleTick s = transEval (tickBody s) := by
  unfold idleTick
  rw [if_neg (by rcases hrun with h | h <;> simp [h])]
  rfl

/-- In Simmer and Off only the AON domain's time passes. -/
theorem idleTick_asleep {s : State} (hsleep : s.pwr.state = .simmer ∨ s.pwr.state = .off) :
    idleTick s = { aonAdvance s (toAonCycle s) with now := s.now + toAonCycle s } := by
  unfold idleTick
  rw [if_pos (by rcases hsleep with h | h <;> simp [h])]

/-- The mailbox's part of a tick is no part of time, power or time core. -/
theorem tickBody_only (s : State) :
    Only [.glb] (tcoLater { aonAdvance (if timeRuns s then mainTick s else s) 1 with
      now := (if timeRuns s then mainTick s else s).now + 1 }) (tickBody s) :=
  Only.ite (fun _ => mbxReady_only _) (fun _ => Only.refl _ _)

/-- One TIME tick passes. -/
theorem tickBody_now (s : State) : (tickBody s).now = s.now + 1 := by
  have hmbx := (tickBody_only s).same .time (by decide)
  have hlater := (tcoLater_only { aonAdvance (if timeRuns s then mainTick s else s) 1 with
      now := (if timeRuns s then mainTick s else s).now + 1 }).same .time (by decide)
  have hmain : (if timeRuns s then mainTick s else s).now = s.now := by
    split
    · exact ((mainTick_only s).same .time (by decide)).1
    · rfl
  rw [hmbx.1, hlater.1]
  exact congrArg (· + 1) hmain

/-- The ticks to the next AON cycle are those that complete one cycle (R601). -/
theorem aonAdvance_toAonCycle {s : State} (hfrac : s.aonFrac < 500000000) :
    (aonAdvance s (toAonCycle s)).aon = s.aon + 1 := by
  have hcycle : (s.aonFrac + toAonCycle s * 32768) / 500000000 = 1 := by
    unfold toAonCycle ceilDiv
    omega
  have hcount : ∀ (u : State) (n : Nat), (perfAdd u 7 n).aon = u.aon := fun u n =>
    ((perfAdd_only u 7 n).same .time (by decide)).2.1
  unfold aonAdvance
  dsimp only
  split
  · rw [hcount, hcycle]
  · rw [hcycle]

/-- Settles O2: a tick in Warm and Boil, an AON cycle in Simmer and Off. -/
theorem idleStepTakesTime : Obligations.IdleStepTakesTime := by
  intro s hempty hfrac
  refine ⟨idleTick s, by simp [step, hempty], fun hrun => ?_, fun hsleep => ?_⟩
  · have htrans := (transEval_only (tickBody s)).same .time (by decide)
    rw [idleTick_running hrun, htrans.1, tickBody_now]
  · rw [idleTick_asleep hsleep]
    exact aonAdvance_toAonCycle hfrac

/-- R31: the counter takes 2 ns and the applied word, whatever becomes of a slew. -/
theorem tickCounter_counter (s : State) :
    (tickCounter s).tco.counter = moveCounter s.tco.counter (2 ^ 49 + appliedWord s) := by
  unfold tickCounter
  dsimp only
  repeat' split
  all_goals rfl

theorem tcoLater_counter (s : State) : (tcoLater s).tco.counter = s.tco.counter := by
  unfold tcoLater
  split <;> rfl

theorem mainTick_counter (s : State) :
    (mainTick s).tco.counter = moveCounter s.tco.counter (2 ^ 49 + appliedWord s) := by
  have hready : (fixReadyAll (tickCycles (tickCounter s))).tco = (tickCounter s).tco :=
    ((fixReadyAll_only _).same .tco (by decide)).trans ((tickCycles_only _).same .tco (by decide))
  have hfig : (mainTick s).tco = (fixReadyAll (tickCycles (tickCounter s))).tco := by
    unfold mainTick
    extract_lets u
    split <;> rfl
  rw [hfig, hready, tickCounter_counter]

theorem tickBody_counter {s : State} (hruns : timeRuns s = true) :
    (tickBody s).tco.counter = moveCounter s.tco.counter (2 ^ 49 + appliedWord s) := by
  have hmbx : (tickBody s).tco = _ := (tickBody_only s).same .tco (by decide)
  have haon : (aonAdvance (mainTick s) 1).tco = (mainTick s).tco := (aonAdvance_only _ 1).same .tco (by decide)
  rw [hmbx, tcoLater_counter, if_pos hruns]
  exact (congrArg Tco.counter haon).trans (mainTick_counter s)

theorem tickBody_pwr (s : State) : (tickBody s).pwr = s.pwr := by
  have hmbx : (tickBody s).pwr = _ := (tickBody_only s).same .pwr (by decide)
  have hlater : ∀ u, (tcoLater u).pwr = u.pwr := fun u => (tcoLater_only u).same .pwr (by decide)
  have haon : ∀ u, (aonAdvance u 1).pwr = u.pwr := fun u => (aonAdvance_only u 1).same .pwr (by decide)
  rw [hmbx, hlater]
  refine (haon _).trans ?_
  split
  · exact (mainTick_only s).same .pwr (by decide)
  · rfl

theorem transEval_none {s : State} (hnone : s.pwr.trans = none) : transEval s = s := by
  unfold transEval
  rw [hnone]

theorem clampI_of_mem {lo hi v : Int} (hlo : lo ≤ v) (hhi : v ≤ hi) : clampI lo hi v = v := by
  unfold clampI
  rw [if_neg (by omega), if_neg (by omega)]

/-- R34: without a slew, with nothing beyond the range and nothing withheld, the word applied is W. -/
theorem appliedWord_eq_w {s : State} (hslew : s.tco.slew = none) (hover : s.tco.wOver = 0) (howed : s.tco.owed = 0)
    (hlo : -wMax ≤ s.tco.w) (hhi : s.tco.w ≤ wMax) : appliedWord s = s.tco.w := by
  have hask : servoAsk s = s.tco.w := by simp [servoAsk, hover, howed]
  have hno : slewWord s = 0 := by simp [slewWord, hslew]
  rw [appliedWord, hask, hno, clampI_of_mem hlo hhi, add_zero, clampI_of_mem hlo hhi]

/-- Settles O3: only the counter's own part of the tick moves the counter. -/
theorem tickAddsIncrement : Obligations.TickAddsIncrement := by
  intro s hempty hruns hrun hnone
  refine ⟨⟨idleTick s, by simp [step, hempty], ?_⟩, appliedWord_eq_w⟩
  rw [idleTick_running hrun, transEval_none (by rw [tickBody_pwr, hnone]), tickBody_counter hruns, moveCounter_cast,
    add_assoc]
  rfl

end Sys2Proof.Proofs.Ticks
end

section
/-! Which commands can change the power state (14_power_clocks_startup.md R491, R494, R504, R531). Everything that does
not touch PWR keeps it; the register accesses, the events of PWR and the later steps of a start touch other fields of PWR. -/
-- One proof after another: the whole text is compiled in one process whose memory is bounded.
set_option Elab.async false
namespace Sys2Proof.Proofs.Power
open Sys2Proof
open Sys2Proof.Machine
open Sys2Proof.Safety
open Sys2Proof.Laws
open Sys2Proof.Proofs.Frames

/-- The power state stands. -/
def PowerKept (s t : State) : Prop := t.pwr.state = s.pwr.state

theorem PowerKept.refl (s : State) : PowerKept s s := rfl

theorem PowerKept.trans {s t u : State} (h : PowerKept s t) (k : PowerKept t u) : PowerKept s u := Eq.trans k h

theorem PowerKept.only {L : List Part} {s t : State} (h : Only L s t) (hpwr : Part.pwr ∉ L := by decide) : PowerKept s t :=
  congrArg Pwr.state (h.same .pwr hpwr)

theorem PowerKept.ite {s a b : State} {c : Prop} [Decidable c] (ha : c → PowerKept s a) (hb : ¬c → PowerKept s b) :
    PowerKept s (if c then a else b) := by
  split
  · next h => exact ha h
  · next h => exact hb h

theorem PowerKept.foldl {α : Type} (f : State → α → State) (l : List α) (hf : ∀ u a, PowerKept u (f u a)) (s : State) :
    PowerKept s (l.foldl f s) := by
  induction l generalizing s with
  | nil => exact PowerKept.refl s
  | cons a r ih => exact (hf s a).trans (ih _)

/-! ## Register accesses -/

/-- R504: of the registers only the reset key reaches PWR, and it schedules a reset. -/
theorem regApply_powerKept (s : State) (b : Blk) (off : Nat) (v : Word) (tun : Bool) :
    PowerKept s (regApply s b off v tun) := by
  have hstored : PowerKept s (storeWord s off v) := PowerKept.only (storeWord_only ..)
  unfold regApply
  refine PowerKept.ite (fun _ => rfl) fun _ => PowerKept.ite (fun _ => rfl) fun _ =>
    PowerKept.ite (fun _ => PowerKept.ite (fun _ => PowerKept.only (mbxGo_only ..)) fun _ => rfl) fun _ =>
    PowerKept.ite (fun _ => PowerKept.only (mbxAckWrite_only ..)) fun _ =>
    PowerKept.ite (fun _ => PowerKept.ite (fun _ => rfl) fun _ => rfl) fun _ =>
    PowerKept.ite (fun _ => rfl) fun _ => PowerKept.ite (fun _ => PowerKept.only (chkWrite_only ..)) fun _ =>
    PowerKept.ite (fun _ => PowerKept.trans (t := reparity s off) rfl (PowerKept.only (tamperEnWrite_only ..))) fun _ =>
    PowerKept.ite (fun _ => rfl) fun _ => PowerKept.ite (fun _ => PowerKept.only (sqClear_only ..)) fun _ =>
    PowerKept.ite (fun _ => PowerKept.only (indWrite_only ..)) fun _ =>
    PowerKept.ite (fun _ => hstored) fun _ => rfl

theorem accRec_powerKept (s : State) (code off be : Nat) (write tun : Bool) (hi : Nat) :
    PowerKept s (accRec s code off be write tun hi) :=
  PowerKept.only (accRec_only ..)

theorem unitWrite_powerKept (s : State) (off be : Nat) (v : Word) (tun : Bool) :
    PowerKept s (unitWrite s off be v tun) := by
  unfold unitWrite
  split
  · exact accRec_powerKept ..
  · refine PowerKept.ite (fun _ => accRec_powerKept ..) fun _ => PowerKept.ite (fun _ => accRec_powerKept ..) fun _ =>
      PowerKept.ite (fun _ => accRec_powerKept ..) fun _ => PowerKept.ite (fun _ => accRec_powerKept ..) fun _ =>
      PowerKept.ite (fun _ => accRec_powerKept ..) fun _ => regApply_powerKept ..

/-- R460: of the reads only that of PWR_RAIL reaches PWR, and it takes the warnings. -/
theorem readEffect_powerKept (s : State) (b : Blk) (off : Nat) : PowerKept s (readEffect s b off) := by
  unfold readEffect
  exact PowerKept.ite (fun _ => rfl) fun _ => PowerKept.ite (fun _ => rfl) fun _ => PowerKept.ite (fun _ => rfl) fun _ => rfl

theorem unitRead_powerKept (s : State) (off be : Nat) (tun : Bool) : PowerKept s (unitRead s off be tun).2 := by
  unfold unitRead
  split
  · exact accRec_powerKept ..
  · repeat' split
    · exact accRec_powerKept ..
    · exact accRec_powerKept ..
    · exact accRec_powerKept ..
    · exact PowerKept.only (indRead_only ..)
    · exact readEffect_powerKept ..
    · exact PowerKept.refl s

theorem linkSend_powerKept (s : State) (l : Fin 4) (b : LinkBody) : PowerKept s (linkSend s l b) :=
  PowerKept.only (linkSend_only ..)

theorem ownUnit_powerKept (s : State) (addr off be : Nat) (w : Option Word) : PowerKept s (ownUnit s addr off be w) := by
  cases w with
  | some v => exact unitWrite_powerKept ..
  | none => exact unitRead_powerKept s off be false

theorem windowUnit_powerKept (s : State) (addr off be : Nat) (w : Option Word) :
    PowerKept s (windowUnit s addr off be w) := by
  have hfail : ∀ v, PowerKept s (if w.isNone then readOut (hifNoRoute s) addr v else hifNoRoute s) :=
    fun v => PowerKept.ite (fun _ => rfl) fun _ => rfl
  unfold windowUnit
  refine PowerKept.ite (fun _ => hfail _) fun _ => PowerKept.ite (fun _ => ownUnit_powerKept ..) fun _ => ?_
  split
  · exact hfail _
  · next l _ =>
    have hcount : PowerKept s (perfAdd (modLnk s fun k => { k with dmaTag := s.lnk.dmaTag + 1 }) 339 1) :=
      PowerKept.only (s := modLnk s _) (perfAdd_only _ 339 1)
    refine PowerKept.ite (fun _ => hfail _) fun _ => ?_
    exact PowerKept.trans (t := { perfAdd (modLnk s fun k => { k with dmaTag := s.lnk.dmaTag + 1 }) 339 1 with hif := _ })
      hcount (linkSend_powerKept ..)

theorem hostUnit_powerKept (s : State) (off be : Nat) (w : Option Word) : PowerKept s (hostUnit s off be w) :=
  PowerKept.ite (fun _ => windowUnit_powerKept ..) fun _ => ownUnit_powerKept ..

theorem hostRd_powerKept (s : State) (addr len : Nat) : PowerKept s (hostRd s addr len) :=
  PowerKept.ite (fun _ => PowerKept.foldl _ _ (fun _ _ => hostUnit_powerKept ..) s) fun _ => rfl

theorem hostWr_powerKept (s : State) (addr : Nat) (data : List Byte) : PowerKept s (hostWr s addr data) :=
  PowerKept.ite (fun _ => PowerKept.foldl _ _ (fun _ _ => hostUnit_powerKept ..) s) fun _ => rfl

theorem hostWr32_powerKept (s : State) (off : Nat) (v : Word) : PowerKept s (hostWr32 s off v) :=
  PowerKept.ite (fun _ => hostUnit_powerKept ..) fun _ => rfl

/-! ## Frames of Colol links, which carry tunnelled register accesses -/

theorem tunnelHere_powerKept (s : State) (l : Fin 4) (dst src : BitVec 8) (tag : BitVec 16) (t : Tunnel)
    (hostData : List Byte) : PowerKept s (tunnelHere s l dst src tag t hostData) := by
  cases t with
  | regRd off be => exact PowerKept.trans (unitRead_powerKept s off.toNat be.toNat true) (linkSend_powerKept ..)
  | regWr off be data => exact PowerKept.trans (unitWrite_powerKept ..) (linkSend_powerKept ..)
  | regCpl st data => exact PowerKept.only (tunnelRegCpl_only ..)
  | dmaRd addr len => exact PowerKept.ite (fun _ => PowerKept.only (tunnelDmaRd_only ..)) fun _ => rfl
  | dmaWr addr data => exact PowerKept.ite (fun _ => PowerKept.only (tunnelDmaWr_only ..)) fun _ => rfl
  | dmaCpl => rfl
  | msi v => exact PowerKept.ite (fun _ => PowerKept.only (fireVec_only ..)) fun _ => rfl
  | doorbell r v => exact PowerKept.ite (fun _ => PowerKept.only (applyDoorbell_only ..)) fun _ => rfl

theorem rxTunnel_powerKept (s : State) (l : Fin 4) (dst src : BitVec 8) (tag : BitVec 16) (t : Tunnel)
    (hostData : List Byte) : PowerKept s (rxTunnel s l dst src tag t hostData) := by
  unfold rxTunnel
  split
  · exact tunnelHere_powerKept ..
  · exact linkSend_powerKept ..
  · exact PowerKept.only (tunnelLost_only ..)

theorem deliver_powerKept (s : State) (l : Fin 4) (phase : Fin 16) (hostData : List Byte) (b : LinkBody) :
    PowerKept s (deliver s l phase hostData b) := by
  have hcount : PowerKept s (match rxPerf b with | some i => perfAdd s (256 + 16 * l.val + i) 1 | none => s) := by
    split
    · exact PowerKept.only (perfAdd_only ..)
    · rfl
  unfold deliver
  extract_lets r u
  refine PowerKept.trans (t := u) hcount ?_
  clear_value u
  cases b with
  | idle | hello | unknown => rfl
  | timeReq seq => exact PowerKept.ite (fun _ => PowerKept.only (timeAnswer_only ..)) fun _ => rfl
  | timeResp seq t2 t3 teb hops state node => exact PowerKept.ite (fun _ => PowerKept.only (rxTimeResp_only ..)) fun _ => rfl
  | tunnel dst src tag t => exact rxTunnel_powerKept ..
  | updOffer len => exact PowerKept.only (rxUpdOffer_only ..)
  | updReply st => exact PowerKept.only (rxUpdReply_only ..)
  | updData off d => exact PowerKept.only (rxUpdData_only ..)
  | updEnd a => exact PowerKept.only (rxUpdEnd_only ..)
  | updResult st c => exact PowerKept.only (rxUpdResult_only ..)
  | _ => exact PowerKept.ite (fun _ => PowerKept.only (deliverPair_only ..)) fun _ => PowerKept.only (deliverNumber_only ..)

theorem rxInUp_powerKept (s : State) (l : Fin 4) (phase : Fin 16) (hostData : List Byte) (f : LinkFrame) :
    PowerKept s (rxInUp s l phase hostData f) := by
  unfold rxInUp
  split
  · exact PowerKept.only (ackHello_only ..)
  · have hack : PowerKept s (rxAck s l f.ack) := PowerKept.only (rxAck_only ..)
    refine hack.trans (PowerKept.ite (fun _ => PowerKept.ite (fun _ => rfl) fun _ => ?_) fun _ => deliver_powerKept ..)
    extract_lets taken
    refine PowerKept.trans (t := taken) rfl ?_
    exact PowerKept.ite (fun _ => PowerKept.only (lnkCnt_only ..)) fun _ => deliver_powerKept ..

theorem execLinkFrameRx_powerKept (lk : Fin 4) (phase : Fin 16) (hostData : List Byte) (frame : LinkFrame) (s t : State)
    (h : execLinkFrameRx lk phase hostData frame s = .next t) : PowerKept s t := by
  obtain rfl := Host.Outcome.next.inj h
  refine PowerKept.ite (fun _ => rfl) fun _ => PowerKept.ite (fun _ => PowerKept.only (crcError_only ..)) fun _ => ?_
  refine PowerKept.trans (t := modLink s lk fun k => { k with rxAt := s.now }) rfl ?_
  exact PowerKept.ite (fun _ => PowerKept.only (lnkCnt_only ..)) fun _ =>
    PowerKept.ite (fun _ => PowerKept.only (rxInHello_only ..)) fun _ => rxInUp_powerKept ..

/-! ## The later steps of a start -/

theorem blobApply_powerKept (s : State) (e : Nat × Nat) : PowerKept s (blobApply s e) :=
  PowerKept.ite (fun _ => PowerKept.only (emit_only ..)) fun _ => unitWrite_powerKept ..

theorem enterRecovery_powerKept (s : State) (i : StartIn) (why : Nat) : PowerKept s (enterRecovery s i why) := by
  unfold enterRecovery
  extract_lets a pan b c
  have hpan : PowerKept b c :=
    ((PowerKept.only (panStart_only b i.vbatLost)).trans (PowerKept.only (panStartEntry_only ..))).trans
      (PowerKept.only (panTamper_only ..))
  exact PowerKept.trans (t := b) rfl (hpan.trans ((PowerKept.only (emit_only ..)).trans (PowerKept.only (startEvents_only ..))))

theorem recWrite_powerKept (s : State) (stage : Nat) (n : Fin 2) (f : BootRec → BootRec) :
    PowerKept s (recWrite s stage n f) := PowerKept.only (recWrite_only ..)

theorem bootRecord_powerKept (s : State) (b : Boot) (blank : Bool) : PowerKept s (bootRecord s b blank) := by
  unfold bootRecord
  extract_lets fw
  split
  · extract_lets bad written counted
    have hcounted : PowerKept written counted := rfl
    exact (recWrite_powerKept s 6 b.slot _).trans (hcounted.trans (PowerKept.only (emit_only ..)))
  · exact PowerKept.ite (fun _ => recWrite_powerKept ..) fun _ => rfl

theorem bootReady_powerKept (s : State) (i : StartIn) (b : Boot) (blank wasTrial : Bool) :
    PowerKept s (bootReady s i b blank wasTrial) := by
  unfold bootReady
  extract_lets _ img load ready _ counted
  refine PowerKept.ite (fun _ => rfl) fun _ => ?_
  have hdraw : PowerKept counted (draw counted).2 := PowerKept.only (draw_only counted)
  refine PowerKept.trans (t := counted) rfl (hdraw.trans ?_)
  obtain ⟨h, drawn⟩ := draw counted
  dsimp -zeta only
  extract_lets _ _ upd blob pair tamper incomplete record reported
  have hblob : PowerKept upd blob := PowerKept.foldl _ _ blobApply_powerKept upd
  have hpair : PowerKept blob pair := PowerKept.only (pairReload_only blob)
  have hpantry : PowerKept pair tamper := by
    refine PowerKept.trans (PowerKept.ite (fun _ => rfl) fun _ => ?_) (PowerKept.only (panTamper_only _))
    exact (PowerKept.only (panStart_only pair i.vbatLost)).trans (PowerKept.only (panStartEntry_only ..))
  have hincomplete : PowerKept tamper incomplete := PowerKept.only (bootIncomplete_only tamper)
  have hrecord : PowerKept incomplete record := bootRecord_powerKept ..
  have hreported : PowerKept record reported :=
    PowerKept.ite (fun _ => PowerKept.only (emit_only ..)) fun _ => PowerKept.only (floorRaise_only ..)
  have hevents : PowerKept reported (linkGates (startEvents reported)) :=
    (PowerKept.only (startEvents_only reported)).trans (PowerKept.only (linkGates_only _))
  exact PowerKept.trans (t := upd) rfl (((((hblob.trans hpair).trans hpantry).trans hincomplete).trans hrecord).trans
    (hreported.trans hevents))

theorem bootImage_powerKept (s : State) (i : StartIn) : PowerKept s (bootImage s i) := by
  have hchoose : PowerKept s (bootChoose s).2 := PowerKept.only (bootChoose_only s)
  unfold bootImage
  extract_lets blank fresh
  refine hchoose.trans ?_
  obtain ⟨choice, u⟩ := bootChoose s
  cases choice with
  | none => exact enterRecovery_powerKept ..
  | some b => exact bootReady_powerKept ..

theorem startKeys_powerKept (s : State) (i : StartIn) : PowerKept s (startKeys s i) := by
  have hfixed : ∀ u : State, PowerKept u (deriveFixed u) := fun u => PowerKept.only (deriveFixed_only u)
  unfold startKeys
  extract_lets _ _ u
  refine PowerKept.trans (t := u) (hfixed { s with key := _, ctl := _ }) ?_
  exact PowerKept.ite (fun _ => enterRecovery_powerKept ..) fun _ =>
    PowerKept.ite (fun _ => enterRecovery_powerKept ..) fun _ => bootImage_powerKept ..

theorem startLoops_powerKept (s : State) (i : StartIn) (ref : BitVec 2) : PowerKept s (startLoops s i ref) := by
  unfold startLoops
  extract_lets _ _ _ u
  refine PowerKept.trans (t := u) rfl ?_
  exact PowerKept.ite (fun _ => rfl) fun _ => PowerKept.ite (fun _ => rfl) fun _ => startKeys_powerKept ..

theorem startRef_powerKept (s : State) (i : StartIn) : PowerKept s (startRef s i) := by
  unfold startRef
  extract_lets _ u
  refine PowerKept.trans (t := u) rfl ?_
  split
  · exact startLoops_powerKept ..
  · exact PowerKept.trans (t := hold u i .waitRef) rfl (PowerKept.only (emit_only ..))

theorem startGo_powerKept (s : State) (i : StartIn) : PowerKept s (startGo s i) :=
  PowerKept.trans (PowerKept.ite (fun _ => PowerKept.only (emit_only ..)) fun _ => rfl) (startRef_powerKept _ i)

/-! ## Events of PWR, and the activation of an image -/

theorem thermWarn_powerKept (s : State) (junction : BitVec 16) : PowerKept s (thermWarn s junction) := by
  unfold thermWarn
  extract_lets warn disarmed
  refine PowerKept.ite (fun _ => ?_) fun _ => PowerKept.ite (fun _ => rfl) fun _ => rfl
  exact PowerKept.trans (t := disarmed) rfl (PowerKept.ite (fun _ => PowerKept.only (emit_only ..)) fun _ => rfl)

theorem dieSample_powerKept (s : State) (junction : BitVec 16) : PowerKept s (dieSample s junction) := by
  unfold dieSample
  extract_lets summed mean rested
  refine PowerKept.ite (fun _ => ?_) fun _ => rfl
  have htemp : ∀ u, (tempMark u).pwr.state = u.pwr.state := fun u => PowerKept.only (tempMark_only u)
  exact PowerKept.trans (t := rested) rfl (htemp _)

theorem cplTimers_powerKept (s : State) (d : Done) : PowerKept s (cplTimers s d) :=
  PowerKept.ite (fun _ => rfl) fun _ => PowerKept.ite (fun _ => rfl) fun _ => PowerKept.ite (fun _ => rfl) fun _ => rfl

theorem execCommandComplete_powerKept (s t : State) (h : execCommandComplete s = .next t) : PowerKept s t := by
  obtain rfl := Host.Outcome.next.inj h
  have htaken : PowerKept s ([4, 5, 6, 7].foldl takeDoorbells s) :=
    PowerKept.foldl _ _ (fun u r => PowerKept.only (takeDoorbells_only u r)) s
  have hwrite : ∀ u d, (cplTimers (cplWrite u d) d).pwr.state = u.pwr.state := fun u d =>
    (PowerKept.only (cplWrite_only u d)).trans (cplTimers_powerKept ..)
  refine htaken.trans ?_
  split
  · split
    · exact hwrite _ _
    · rfl
  · rfl

theorem execThermalSample_powerKept (junction vcore : BitVec 16) (s t : State)
    (h : execThermalSample junction vcore s = .next t) : PowerKept s t := by
  obtain rfl := Host.Outcome.next.inj h
  refine PowerKept.ite (fun _ => rfl) fun _ => ?_
  extract_lets read
  have hsample : ∀ u, (histSample (dieSample (thermWarn u junction) junction) junction vcore).pwr.state = u.pwr.state :=
    fun u => ((thermWarn_powerKept ..).trans (dieSample_powerKept ..)).trans (PowerKept.only (histSample_only ..))
  exact PowerKept.trans (t := read) rfl (hsample read)

theorem execRailWarn_powerKept (rail : Fin 8) (high : Bool) (s t : State) (h : execRailWarn rail high s = .next t) :
    PowerKept s t := by
  obtain rfl := Host.Outcome.next.inj h
  have hrecord : ∀ u code cls d bit, (emit u .pwr code cls d bit).pwr.state = u.pwr.state :=
    fun u code cls d bit => PowerKept.only (emit_only ..)
  exact PowerKept.ite (fun _ => rfl) fun _ => hrecord ..

theorem execRefWaitRetry_powerKept (count : Nat) (s t : State) (h : execRefWaitRetry count s = .next t) :
    PowerKept s t := by
  obtain rfl := Host.Outcome.next.inj h
  split
  · exact PowerKept.ite (fun _ => startRef_powerKept ..) fun _ => rfl
  · rfl

theorem execPwrFailNHigh_powerKept (s t : State) (h : execPwrFailNHigh s = .next t) : PowerKept s t := by
  obtain rfl := Host.Outcome.next.inj h
  extract_lets high
  refine PowerKept.trans (t := high) rfl ?_
  split
  · exact PowerKept.ite (fun _ => startGo_powerKept ..) fun _ => rfl
  · rfl

theorem execBootThermalHoldEnd_powerKept (junction : BitVec 16) (s t : State)
    (h : execBootThermalHoldEnd junction s = .next t) : PowerKept s t := by
  obtain rfl := Host.Outcome.next.inj h
  split
  · have hstart : ∀ u i, (startKeys u i).pwr.state = u.pwr.state := fun u i => startKeys_powerKept u i
    exact PowerKept.ite (fun _ => hstart _ _) fun _ => rfl
  · rfl

/-- A host command keeps the power state where its body does. -/
theorem cmd_powerKept {s t : State} {hd : Hdr} {op : Nat} {pre : Option (BitVec 8)} {body : State → State}
    (hbody : PowerKept s (body s)) (h : cmd s hd op pre body = .next t) : PowerKept s t := by
  have hfin : ∀ st, PowerKept s (fin s hd op st) := fun st => PowerKept.only (fin_only ..)
  unfold cmd at h
  split at h
  all_goals obtain rfl := Host.Outcome.next.inj h
  · refine PowerKept.ite (fun _ => rfl) fun _ => ?_
    cases pre with
    | some st => exact hfin st
    | none => exact hbody
  · cases pre with
    | some st => exact hfin st
    | none => exact PowerKept.ite (fun _ => hbody) fun _ => hfin _
  · rfl

/-- An activation in RECOVERY starts the image at once, in the power state that stands (R531). -/
theorem execUpdActivate_powerKept (hd : Hdr) (slot flags : BitVec 8) (i : StartIn) (s t : State)
    (h : execUpdActivate hd slot flags i s = .next t) : PowerKept s t := by
  have hfin : ∀ u st, PowerKept u (fin u hd 0xC3 st) := fun u st => PowerKept.only (fin_only ..)
  refine cmd_powerKept ?_ h
  refine PowerKept.ite (fun _ => hfin ..) fun _ => PowerKept.ite (fun _ => hfin ..) fun _ => ?_
  extract_lets written completed
  have hcompleted : PowerKept s completed := (recWrite_powerKept s ..).trans (hfin written _)
  refine hcompleted.trans ?_
  exact PowerKept.ite (fun _ => bootImage_powerKept ..) fun _ => PowerKept.ite (fun _ => rfl) fun _ => rfl

/-- A row outside PWR keeps the power state. -/
theorem exec_powerKept {c : Instr} {s t : State} (h : exec c s = .next t) (hpwr : (touched c).contains .pwr = false) :
    PowerKept s t :=
  PowerKept.only (exec_onlyAns c s t h) (by simpa using hpwr)

/-- Settles O7: of the rows that reach PWR, those that the statement does not name keep its state. -/
theorem powerStateHeld : Obligations.PowerStateHeld := by
  intro c s t h hchanged
  have hnot : ¬ PowerKept s t := hchanged
  cases c with
  | powerSet hd target => exact .inl ⟨hd, target, rfl⟩
  | powerDownDomains => exact .inr (.inl rfl)
  | pwrFail => exact .inr (.inr (.inl rfl))
  | thermalShutdown => exact .inr (.inr (.inr (.inl rfl)))
  | porRelease i => exact .inr (.inr (.inr (.inr (.inl ⟨i, rfl⟩))))
  | softReset i => exact .inr (.inr (.inr (.inr (.inr (.inl ⟨i, rfl⟩)))))
  | updActivateReset i => exact .inr (.inr (.inr (.inr (.inr (.inr ⟨i, rfl⟩)))))
  | registerRead addr len => exact absurd (Host.Outcome.next.inj h ▸ hostRd_powerKept ..) hnot
  | rcRead addr => exact absurd (Host.Outcome.next.inj h ▸ hostRd_powerKept ..) hnot
  | registerWrite addr data => exact absurd (Host.Outcome.next.inj h ▸ hostWr_powerKept ..) hnot
  | sqClear | mbxGo | mbxAck | glbLockWrite | testKeyWrite | pwrSwrstWrite | chktestGo | perfWrapClrWrite =>
    exact absurd (Host.Outcome.next.inj h ▸ hostWr32_powerKept ..) hnot
  | indDataAccess b be data =>
    exact absurd (Host.Outcome.next.inj h ▸ PowerKept.ite (fun _ => hostUnit_powerKept ..) fun _ => rfl) hnot
  | remoteWindowAccess off be data =>
    exact absurd (Host.Outcome.next.inj h ▸ PowerKept.ite (fun _ => windowUnit_powerKept ..) fun _ => rfl) hnot
  | linkFrameRx lk phase hostData frame => exact absurd (execLinkFrameRx_powerKept _ _ _ _ s t h) hnot
  | commandComplete => exact absurd (execCommandComplete_powerKept s t h) hnot
  | thermalSample junction vcore => exact absurd (execThermalSample_powerKept _ _ s t h) hnot
  | railWarn rail high => exact absurd (execRailWarn_powerKept _ _ s t h) hnot
  | refWaitRetry count => exact absurd (execRefWaitRetry_powerKept _ s t h) hnot
  | pwrFailNHigh => exact absurd (execPwrFailNHigh_powerKept s t h) hnot
  | bootThermalHoldEnd junction => exact absurd (execBootThermalHoldEnd_powerKept _ s t h) hnot
  | updActivate hd slot flags i => exact absurd (execUpdActivate_powerKept _ _ _ _ s t h) hnot
  | _ => exact absurd (exec_powerKept h rfl) hnot

end Sys2Proof.Proofs.Power
end

section
/-! Host commands that are accepted: the argument check that passes, the answer, and the queries of HIF, PWR, CLK and TCO
(R438 to R445, R515, R71). -/
-- One proof after another: the whole text is compiled in one process whose memory is bounded.
set_option Elab.async false
namespace Sys2Proof.Proofs.Queries
open Sys2Proof
open Sys2Proof.Machine
open Sys2Proof.Safety
open Sys2Proof.Proofs.Commands

/-- A command whose arguments are in range runs its body. -/
theorem cmd_of_inRange {s : State} {hd : Hdr} {op : Nat} (h : Accepts s hd op) {bad : Bool} (hrange : bad = false)
    (body : State → State) : cmd s hd op (badIf bad) body = .next (body s) := by
  subst hrange
  exact cmd_of_accepts h body

/-- An accepted command that completes is answered. -/
theorem complete_of_accepts {s : State} {hd : Hdr} {op : Nat} (h : Accepts s hd op) (status : BitVec 8)
    (rlen result : Nat) : complete s hd op status rlen result = answered s hd op status rlen result :=
  complete_eq_answered h.kept op status rlen result

theorem fin_eq_answered {s : State} {hd : Hdr} (hkept : s.hif.discard.contains hd = false) (op : Nat)
    (status : BitVec 8) : fin s hd op status = answered s hd op status 0 0 :=
  complete_eq_answered hkept op status 0 0

theorem ends_complete {s : State} {hd : Hdr} (hkept : s.hif.discard.contains hd = false) (op : Nat)
    (status : BitVec 8) (rlen result : Nat) : Ends (complete s hd op status rlen result) hd op status := by
  rw [complete_eq_answered hkept]
  exact ends_answered ..

theorem ends_fin {s : State} {hd : Hdr} (hkept : s.hif.discard.contains hd = false) (op : Nat) (status : BitVec 8) :
    Ends (fin s hd op status) hd op status := ends_complete hkept op status 0 0

/-- The field at offset 0 is what a packed result holds below the other fields. -/
theorem pack_mod_word (v : Nat) (l : List (Nat × Nat)) (hl : ∀ p ∈ l, 4 ≤ p.1) :
    pack ((0, v) :: l) % 2 ^ 32 = v % 2 ^ 32 := by
  have htail : pack l % 2 ^ 32 = 0 := by
    induction l with
    | nil => rfl
    | cons p r ih =>
      obtain ⟨hp, hr⟩ := List.forall_mem_cons.mp hl
      obtain ⟨k, hk⟩ := Nat.exists_eq_add_of_le hp
      have hfield : p.2 * 2 ^ (8 * p.1) % 2 ^ 32 = 0 :=
        Nat.mod_eq_zero_of_dvd (Dvd.dvd.mul_left ⟨2 ^ (8 * k), by rw [hk, ← pow_add]; congr 1; omega⟩ _)
      rw [pack, Nat.add_mod, hfield, ih hr]
      rfl
  rw [pack, mul_zero, pow_zero, mul_one, Nat.add_mod, htail, add_zero, Nat.mod_mod]

/-- Settles O14: each query is one answer with the fields of its table; an accepted POWER_QUERY is one in READY. -/
theorem engineQueriesAnswer : Obligations.EngineQueriesAnswer := by
  intro hd s
  refine ⟨fun h => ?_, fun h => ?_, fun h => ?_, fun h => ?_, fun h => ?_⟩
  · change execNop hd s = _
    rw [execNop, cmd_of_accepts h, complete_of_accepts h]
  · change execEngineQuery hd s = _
    rw [execEngineQuery, cmd_of_accepts h, complete_of_accepts h]
  · change execPowerQuery hd s = _
    rw [execPowerQuery, cmd_of_accepts h, complete_of_accepts h, if_pos h.ready]
  · change ∃ r, execClockQuery hd s = _ ∧ _
    rw [execClockQuery, cmd_of_accepts h]
    exact ⟨_, congrArg _ (complete_of_accepts h ..), pack_mod_word _ _ (by simp)⟩
  · change execTimeGet hd s = _
    rw [execTimeGet, cmd_of_accepts h, complete_of_accepts h]

end Sys2Proof.Proofs.Queries
end

section
/-! Host accesses of registers, unit by unit, and what single registers do with them (13_register_behaviour.md R460 to R487,
R504, R561). -/
-- One proof after another: the whole text is compiled in one process whose memory is bounded.
set_option Elab.async false
namespace Sys2Proof.Proofs.Accesses
open Sys2Proof
open Sys2Proof.Machine
open Sys2Proof.Safety
open Sys2Proof.Laws
open Sys2Proof.Proofs.RegisterWrites

/-! ## Offsets -/

theorem blkOf_id (b : Blk) : blkOf (Blk.id b) = some b := by cases b <;> rfl

theorem id_lt (b : Blk) : Blk.id b < 20 := by cases b <;> decide

/-- The registers of the blocks lie below the remote window (R483). -/
theorem own_of_id {b : Blk} {k : Nat} (hid : k / 0x10000 = Blk.id b) : k < 0x200000 := by
  have hlt := id_lt b
  omega

theorem id_of_base (b : Blk) {n : Nat} (hn : n < 0x10000) : (blkBase b + n) / 0x10000 = Blk.id b := by
  unfold blkBase
  omega

theorem mapped_status (b : Blk) : mapped (blkBase b + 4) = true := by cases b <;> decide

theorem isLk_status (b : Blk) : isLk b (blkBase b + 4) = false := by cases b <;> decide

theorem isLk_glbLock (b : Blk) (hid : Rg.glbLock / 0x10000 = Blk.id b) : isLk b Rg.glbLock = false := by
  revert hid
  cases b <;> decide

/-! ## Units -/

theorem hostLink_eq {s : State} (hpcie : s.glb.pcie = true) (hlink : s.hif.linkUp = true) : hostLink s = true := by
  simp [hostLink, hpcie, hlink]

/-- A unit below the remote window acts on this engine's own registers. -/
theorem hostUnit_own {off : Nat} (hown : off < 0x200000) (s : State) (be : Nat) (w : Option Word) :
    hostUnit s off be w = ownUnit s off off be w := by
  unfold hostUnit
  rw [if_neg (by simp; omega)]

/-- A write of a whole register by the host is one unit. -/
theorem hostWr32_own {s : State} {off : Nat} (hhost : hostLink s = true) (hown : off < 0x200000) (v : Word) :
    hostWr32 s off v = unitWrite s off 15 v false := by
  rw [hostWr32, if_pos hhost, hostUnit_own hown]
  rfl

/-- A read of four bytes at an aligned offset is one unit with every byte enabled. -/
theorem hostRd_own {s : State} {k : Nat} (hhost : hostLink s = true) (halign : k % 4 = 0) (hown : k < 0x200000) :
    hostRd s k 4 = readOut (unitRead s k 15 false).2 k (unitRead s k 15 false).1 := by
  rw [hostRd, if_pos hhost, unitsOf_aligned halign, List.foldl_cons, List.foldl_nil, hostUnit_own hown]
  rfl

/-- The register answers: its block's domain runs, or it has a shadow (R466). -/
def Reached (s : State) (b : Blk) (k : Nat) : Prop := regUp s b = true ∨ hasShadow k = true

theorem not_down {s : State} {b : Blk} {k : Nat} (h : Reached s b k) : ¬ (!regUp s b && !hasShadow k) = true := by
  rcases h with h | h <;> simp [h]

/-- A full write that nothing stops acts on its register (R463). -/
theorem unitWrite_open {s : State} {b : Blk} {k : Nat} (hid : k / 0x10000 = Blk.id b) (hmapped : mapped k = true)
    (hreach : Reached s b k) (honce : k = Rg.glbLock → s.glb.lockWritten = false)
    (hopen : s.glb.lock = false ∨ isLk b k = false) (v : Word) (tun : Bool) :
    unitWrite s k 15 v tun = regApply s b k v tun := by
  have hlock : ¬ (isLk b k && s.glb.lock) = true := by rcases hopen with h | h <;> simp [h]
  have hfirst : ¬ (k = Rg.glbLock && s.glb.lockWritten) = true := by simpa using honce
  unfold unitWrite
  rw [hid, blkOf_id]
  dsimp only
  rw [if_neg (by simp [hmapped]), if_neg (not_down hreach), if_neg (by decide), if_neg hfirst, if_neg hlock]

/-- R471: a full write of an LK register under LOCK is dropped with WRITE_LOCKED. -/
theorem unitWrite_locked {s : State} {b : Blk} {k : Nat} (hid : k / 0x10000 = Blk.id b) (hmapped : mapped k = true)
    (hreach : Reached s b k) (hlk : isLk b k = true) (hlock : s.glb.lock = true) (v : Word) (tun : Bool) :
    unitWrite s k 15 v tun = accRec s 5 k 15 true tun v.toNat := by
  have hne : k ≠ Rg.glbLock := by
    rintro rfl
    rw [isLk_glbLock b hid] at hlk
    cases hlk
  unfold unitWrite
  rw [hid, blkOf_id]
  dsimp only
  rw [if_neg (by simp [hmapped]), if_neg (not_down hreach), if_neg (by decide), if_neg (by simp [hne]),
    if_pos (by simp [hlk, hlock])]

/-- R466: a unit of a block whose domain is down writes nothing, with DOMAIN_DOWN. -/
theorem unitWrite_down {s : State} {b : Blk} {k : Nat} (hid : k / 0x10000 = Blk.id b) (hmapped : mapped k = true)
    (hdown : regUp s b = false) (hshadow : hasShadow k = false) (v : Word) (tun : Bool) :
    unitWrite s k 15 v tun = accRec s 6 k 15 true tun v.toNat := by
  unfold unitWrite
  rw [hid, blkOf_id]
  dsimp only
  rw [if_neg (by simp [hmapped]), if_pos (by simp [hdown, hshadow])]

/-- R466: a unit of a block whose domain is down reads all ones, with DOMAIN_DOWN. -/
theorem unitRead_down {s : State} {b : Blk} {k : Nat} (hid : k / 0x10000 = Blk.id b) (hmapped : mapped k = true)
    (hdown : regUp s b = false) (hshadow : hasShadow k = false) (tun : Bool) :
    unitRead s k 15 tun = (0xFFFFFFFF, accRec s 6 k 15 false tun 0) := by
  unfold unitRead
  rw [hid, blkOf_id]
  dsimp only
  rw [if_neg (by simp [hmapped]), if_pos (by simp [hdown, hshadow])]
  exact congrArg (·, _) (by decide)

/-- The low four base-256 digits of a number add up to its remainder by 2^32. -/
theorem low_bytes_sum (v : Nat) :
    v % 256 + (v / 256 % 256 * 256 + (v / 65536 % 256 * 65536 + v / 16777216 % 256 * 16777216)) = v % 4294967296 := by
  omega

/-- The bytes of a value that all enables select are its low 32 bits. -/
theorem beMask_full (v : Nat) : beMask 15 v = v % 4294967296 := by
  have hbyte : ∀ i, (15 : Nat).testBit i = true → (if (15 : Nat).testBit i then fld v (8 * i + 7) (8 * i) * 2 ^ (8 * i) else 0)
      = v / 2 ^ (8 * i) % 2 ^ 8 * 2 ^ (8 * i) := fun i hi => by
    rw [if_pos hi, fld, Nat.shiftRight_eq_div_pow, show 8 * i + 7 + 1 - 8 * i = 8 by omega]
  rw [← low_bytes_sum]
  unfold beMask
  simp only [List.range_succ, List.range_zero, List.nil_append, List.map_append, List.map_cons, List.map_nil,
    List.sum_append, List.sum_cons, List.sum_nil]
  rw [hbyte 0 (by decide), hbyte 1 (by decide), hbyte 2 (by decide), hbyte 3 (by decide)]
  omega

theorem ofNat_beMask_full (v : Nat) : BitVec.ofNat 32 (beMask 15 v) = BitVec.ofNat 32 v := by
  rw [beMask_full]
  exact BitVec.eq_of_toNat_eq (by simp)

/-- A full read of a direct register gives its value, and has the register's effect of a read (R460, R463). -/
theorem unitRead_direct {s : State} {b : Blk} {k : Nat} (hid : k / 0x10000 = Blk.id b) (hmapped : mapped k = true)
    (hup : regUp s b = true) (hdirect : k % 0x10000 ≠ 0x84) (tun : Bool) :
    unitRead s k 15 tun = (beMask 15 (readReg s b k), readEffect s b k) := by
  unfold unitRead
  rw [hid, blkOf_id]
  dsimp only
  rw [if_neg (by simp [hmapped]), if_neg (by simp [hup]), if_neg (by simp), if_neg (by simp [hdirect]), if_pos rfl]

/-- A full read of IND_DATA reads the indirect word (R472). -/
theorem unitRead_indData {s : State} {b : Blk} (hmapped : mapped (blkBase b + 0x84) = true) (hup : regUp s b = true)
    (hind : hasInd b = true) (tun : Bool) : unitRead s (blkBase b + 0x84) 15 tun = indRead s b 15 tun := by
  have hoff : (blkBase b + 0x84) % 0x10000 = 0x84 := by unfold blkBase; omega
  unfold unitRead
  rw [id_of_base b (by decide), blkOf_id]
  dsimp only
  rw [if_neg (by simp [hmapped]), if_neg (by simp [hup]), if_neg (by simp), if_pos (by simp [hind, hoff])]

end Sys2Proof.Proofs.Accesses
end

section
/-! What single registers do with a full access: status registers, LK registers, the keyed registers, stored registers and
IND_DATA (R460 to R463, R470 to R473, R478, R479, R485, R504, R561). -/
-- One proof after another: the whole text is compiled in one process whose memory is bounded.
set_option Elab.async false
namespace Sys2Proof.Proofs.Registers
open Sys2Proof
open Sys2Proof.Machine
open Sys2Proof.Safety
open Sys2Proof.Laws
open Sys2Proof.Proofs.RegisterWrites
open Sys2Proof.Proofs.Accesses

/-! ## Status registers (R478, R479) -/

theorem regApply_status (s : State) (b : Blk) (v : Word) (tun : Bool) :
    regApply s b (blkBase b + 4) v tun = sqClear s b v := by
  cases b <;> rfl

/-- A host write of a block's status register is the sequence-clear write. -/
theorem exec_sqClear {s : State} {b : Blk} (hpcie : s.glb.pcie = true) (hlink : s.hif.linkUp = true)
    (hup : regUp s b = true) (v : Word) : exec (.sqClear b v) s = .next (sqClear s b v) := by
  have hid : (blkBase b + 4) / 0x10000 = Blk.id b := id_of_base b (by decide)
  have hnotLock : blkBase b + 4 ≠ Rg.glbLock := by cases b <;> decide
  change Host.Outcome.next (hostWr32 s (blkBase b + 4) v) = _
  rw [hostWr32_own (hostLink_eq hpcie hlink) (own_of_id hid),
    unitWrite_open hid (mapped_status b) (.inl hup) (fun h => absurd h hnotLock) (.inr (isLk_status b)), regApply_status]

/-- A change of a block's status is known by what it makes of the status that the block has. -/
theorem modBlk_congr {s : State} {b : Blk} {f g : BlkStat → BlkStat} (h : f (blkStat s b) = g (blkStat s b)) :
    modBlk s b f = modBlk s b g := by
  have hlt := blk_id_lt b
  have hstat : blkStat s b = s.log.blks[Blk.id b - 1] := vget_lt ..
  unfold modBlk vmod
  simp only [hlt, dif_pos, ← hstat, h]

/-- R478: a clear with the SEQ that was read takes the bits of the mask and leaves SEQ. -/
theorem sqClear_current {s : State} {b : Blk} (hunack : (blkStat s b).unack = []) (hsafe : safe s b = false)
    (hmark : (blkStat s b).readMark = true) (mask : BitVec 24) :
    sqClear s b ((blkStat s b).seq ++ mask) = modBlk s b fun k => { k with bits := k.bits &&& ~~~mask, unack := [] } := by
  have hgo : ¬ ((blkStat s b).seq != ((blkStat s b).seq ++ mask : Word).extractLsb' 24 8 || !(blkStat s b).readMark) = true := by
    have hseq : ((blkStat s b).seq ++ mask : Word).extractLsb' 24 8 = (blkStat s b).seq := BitVec.extractLsb'_append_eq_left
    simp [hseq, hmark]
  have hstays : safe (modBlk s b fun k => { k with bits := k.bits &&& ~~~mask, unack := [] }) b = false := by
    rw [safe, blkStat_modBlk, if_pos rfl]
    exact hsafe
  unfold sqClear
  extract_lets k read acked gone cleared recorded
  have hread : read = mask := BitVec.extractLsb'_append_eq_right
  have hgone : gone = [] := by simp [gone, k, hunack]
  have hcleared : cleared = modBlk s b fun k => { k with bits := k.bits &&& ~~~mask, unack := [] } :=
    modBlk_congr (by simp [hunack, hread])
  have hrecorded : recorded = cleared := by simp [recorded, hgone]
  rw [if_neg hgo, hrecorded, hcleared]
  split
  · rw [hstays]
    simp
  · rfl

/-- R478, R479: a clear with another SEQ, or without the read mark, changes nothing. -/
theorem sqClear_stale {s : State} {b : Blk} {seq : BitVec 8} (mask : BitVec 24)
    (hstale : (blkStat s b).readMark = false ∨ seq ≠ (blkStat s b).seq) : sqClear s b (seq ++ mask) = s := by
  have hgo : ((blkStat s b).seq != (seq ++ mask : Word).extractLsb' 24 8 || !(blkStat s b).readMark) = true := by
    have hseq : (seq ++ mask : Word).extractLsb' 24 8 = seq := BitVec.extractLsb'_append_eq_left
    rw [hseq]
    rcases hstale with h | h
    · simp [h]
    · simp [h.symm]
  unfold sqClear
  rw [if_pos hgo]

/-- Settles O11: SEQ, bit and mark of the block that records are those of `emit_advanced`; a clear is one unit write. -/
theorem sequenceClear : Obligations.SequenceClear := by
  refine ⟨fun s b code cls detail i hperf hi => ?_, fun s b seq mask hpcie hlink hup hunack hsafe hmark hseq => ?_,
    fun s b seq mask hpcie hlink hup hstale => ?_, fun s b word hpcie hlink hup => exec_sqClear hpcie hlink hup word⟩
  · have hadv := emit_advanced s b code cls detail (some i) hperf
    exact ⟨hadv.seq, hadv.bit i rfl hi, hadv.mark⟩
  · subst hseq
    rw [exec_sqClear hpcie hlink hup, sqClear_current hunack hsafe hmark]
  · rw [exec_sqClear hpcie hlink hup, sqClear_stale mask hstale]

end Sys2Proof.Proofs.Registers
end

section
/-! The keyed registers, LK registers under LOCK, domains that are down, and full reads (13_register_behaviour.md R460 to
R473, R479, R485; R504, R561). -/
-- One proof after another: the whole text is compiled in one process whose memory is bounded.
set_option Elab.async false
namespace Sys2Proof.Proofs.FullAccesses
open Sys2Proof
open Sys2Proof.Machine
open Sys2Proof.Safety
open Sys2Proof.Laws
open Sys2Proof.Proofs.RegisterWrites
open Sys2Proof.Proofs.Accesses
open Sys2Proof.Proofs.Registers

/-! ## Keyed registers -/

/-- A host write of one register that nothing stops acts on the register. -/
theorem hostWr32_open {s : State} {b : Blk} {k : Nat} (hhost : hostLink s = true) (hid : k / 0x10000 = Blk.id b)
    (hmapped : mapped k = true) (hup : regUp s b = true) (honce : k = Rg.glbLock → s.glb.lockWritten = false)
    (hopen : s.glb.lock = false ∨ isLk b k = false) (v : Word) : hostWr32 s k v = regApply s b k v false := by
  rw [hostWr32_own hhost (own_of_id hid), unitWrite_open hid hmapped (.inl hup) honce hopen]

/-- R470: GLB_LOCK takes one write. -/
theorem unitWrite_glbLock_again {s : State} (hup : regUp s .glb = true) (hwritten : s.glb.lockWritten = true) (v : Word) :
    unitWrite s Rg.glbLock 15 v false = accRec s 4 Rg.glbLock 15 true false v.toNat := by
  have hid : Rg.glbLock / 0x10000 = Blk.id .glb := by decide
  have hmapped : mapped Rg.glbLock = true := by decide
  unfold unitWrite
  rw [hid, blkOf_id]
  dsimp only
  rw [if_neg (by simp [hmapped]), if_neg (by simp [hup]), if_neg (by decide), if_pos (by simp [hwritten])]

/-- Settles O21: each keyed register is one unit write. -/
theorem keyedWrites : Obligations.KeyedWrites := by
  intro s w hpcie hlink hup
  have hhost := hostLink_eq hpcie hlink
  refine ⟨fun hfirst => ?_, fun hwritten => ?_, fun hopen => ?_, fun u hu hdue => ?_, fun hperf => ?_, fun hpwr hopen => ?_⟩
  · refine ⟨_, congrArg Host.Outcome.next (hostWr32_open hhost (b := .glb) (k := Rg.glbLock) (by decide) (by decide) hup (fun _ => hfirst)
      (.inr (by decide)) w), rfl, rfl, rfl⟩
  · refine congrArg Host.Outcome.next ?_
    rw [hostWr32_own hhost (by decide), unitWrite_glbLock_again hup hwritten]
  · exact congrArg Host.Outcome.next (hostWr32_open hhost (b := .glb) (k := Rg.glbTestKey) (by decide) (by decide) hup (fun h => absurd h (by decide))
      (.inl hopen) w)
  · change execTestWindowClose s = _
    rw [execTestWindowClose, hu]
    exact congrArg _ (if_pos hdue)
  · exact congrArg Host.Outcome.next (hostWr32_open hhost (b := .perf) (k := Rg.perfWrapClr) (by decide) (by decide) hperf (fun h => absurd h (by decide))
      (.inr (by decide)) w)
  · exact congrArg Host.Outcome.next (hostWr32_open hhost (b := .pwr) (k := Rg.pwrSwrst) (by decide) (by decide) hpwr (fun h => absurd h (by decide))
      (.inl hopen) w)

/-! ## LOCK and domains that are down -/

/-- A record of an access changes of GLB its count of records alone, and no register. -/
theorem accRec_glb (s : State) (code off be : Nat) (write tun : Bool) (hi : Nat) :
    (accRec s code off be write tun hi).glb = { s.glb with access := s.glb.access + 1 } :=
  (emit_only { s with glb := { s.glb with access := s.glb.access + 1 } } ..).same .glb (by decide)

/-- Settles O18: a locked unit and a unit of a domain that is down end in their records. -/
theorem lockedAndDownUnits : Obligations.LockedAndDownUnits := by
  refine ⟨fun s b k v hpcie hlink hlock hreach halign hid hmapped hlk => ?_,
    fun s b k v hpcie hlink hdown hshadow halign hid hmapped => ⟨?_, ?_⟩⟩
  · have honly := accRec_only s 5 k 15 true false v.toNat
    refine ⟨_, ?_, rfl, honly.same .words (by decide), accRec_glb .., honly.same .pwr (by decide),
      honly.same .key (by decide)⟩
    rw [exec_fullWrite v hpcie hlink halign (own_of_id hid), unitWrite_locked hid hmapped hreach hlk hlock]
  · change Host.Outcome.next (hostRd s k 4) = _
    rw [hostRd_own (hostLink_eq hpcie hlink) halign (own_of_id hid), unitRead_down hid hmapped hdown hshadow]
    rfl
  · rw [exec_fullWrite v hpcie hlink halign (own_of_id hid), unitWrite_down hid hmapped hdown hshadow]

/-! ## Full reads -/

/-- A full read of a direct register returns its value to the host. -/
theorem hostRd_direct {s : State} {b : Blk} {k : Nat} (hhost : hostLink s = true) (hup : regUp s b = true)
    (halign : k % 4 = 0) (hid : k / 0x10000 = Blk.id b) (hmapped : mapped k = true) (hdirect : k % 0x10000 ≠ 0x84) :
    hostRd s k 4 = emitOut (readEffect s b k) (.read k (BitVec.ofNat 32 (readReg s b k))) := by
  rw [hostRd_own hhost halign (own_of_id hid), unitRead_direct hid hmapped hup hdirect, readOut, ofNat_beMask_full]

/-- RC_READ of an aligned offset reads that register. -/
theorem exec_rcRead {k : Nat} (halign : k % 4 = 0) (s : State) : exec (.rcRead k) s = .next (hostRd s k 4) := by
  have hk : k / 4 * 4 = k := by omega
  change Host.Outcome.next (hostRd s (k / 4 * 4) 4) = _
  rw [hk]

theorem readEffect_status (s : State) {b : Blk} {k : Nat} (hk : k % 0x10000 = 4) :
    (blkStat (readEffect s b k) b).readMark = true := by
  rw [readEffect, if_pos hk, blkStat_modBlk, if_pos rfl]

/-- An indirect word that is stored is read, and the index steps (R472, R473). -/
theorem indRead_stored {s : State} {b : Blk} {d : WordDef}
    (hstored : indStored b (fld (indAddr s b) 31 24) (fld (indAddr s b) 23 0) = some d) :
    indRead s b 15 false = (beMask 15 (getW s (indKey b (fld (indAddr s b) 31 24) (fld (indAddr s b) 23 0))).toNat,
      indStep s b) := by
  have hdefined : indDefined b (indAddr s b) = true := by simp [indDefined, hstored]
  simp [indRead, hstored, hdefined]

theorem ofNat_beMask_toNat (v : Word) : BitVec.ofNat 32 (beMask 15 v.toNat) = v := by
  rw [ofNat_beMask_full, BitVec.ofNat_toNat, BitVec.setWidth_eq]

/-- A full access of IND_DATA is one unit at its offset. -/
theorem exec_indData {s : State} {b : Blk} (hhost : hostLink s = true) (data : Option Word) :
    exec (.indDataAccess b 15 data) s = .next (ownUnit s (blkBase b + 0x84) (blkBase b + 0x84) 15 data) := by
  change Host.Outcome.next (if hostLink s then hostUnit s (blkBase b + 0x84) 15 data else s) = _
  rw [if_pos hhost, hostUnit_own (own_of_id (id_of_base b (by decide)))]

theorem exec_indData_read {s : State} {b : Blk} (hhost : hostLink s = true) (hup : regUp s b = true)
    (hind : hasInd b = true) (hmapped : mapped (blkBase b + 0x84) = true) :
    exec (.indDataAccess b 15 none) s = .next (emitOut (indRead s b 15 false).2
      (.read (blkBase b + 0x84) (BitVec.ofNat 32 (indRead s b 15 false).1))) := by
  rw [exec_indData hhost, ownUnit, unitRead_indData hmapped hup hind]
  rfl

/-- The registers whose writes have a meaning of their own. -/
def keyedOffsets : List Nat :=
  [Rg.glbLock, Rg.glbTestKey, Rg.glbMbxCtrl, Rg.glbMbxAck, Rg.pwrSwrst, Rg.perfWrapClr, Rg.memFltChktest,
   Rg.keyTamperEn, Rg.keyTamperCfg]

/-- A write of any other register goes by its kind: status, IND_DATA, stored, or read only. -/
theorem regApply_plain {k : Nat} (hplain : k ∉ keyedOffsets) (s : State) (b : Blk) (v : Word) (tun : Bool) :
    regApply s b k v tun = if k % 0x10000 = 4 then sqClear s b v
      else if hasInd b && k % 0x10000 = 0x84 then indWrite s b v tun
      else if isStored b k then storeWord s k v else s := by
  simp only [keyedOffsets, List.mem_cons, List.not_mem_nil, or_false, not_or] at hplain
  obtain ⟨hlock, htest, hgo, hack, hreset, hwrap, hchk, hen, hcfg⟩ := hplain
  simp only [regApply, hlock, htest, hgo, hack, hreset, hwrap, hchk, hen, hcfg, if_false]

theorem indData_plain (b : Blk) : blkBase b + 0x84 ∉ keyedOffsets := by cases b <;> decide

theorem regApply_indData (s : State) {b : Blk} (hind : hasInd b = true) (v : Word) (tun : Bool) :
    regApply s b (blkBase b + 0x84) v tun = indWrite s b v tun := by
  have hoff : (blkBase b + 0x84) % 0x10000 = 0x84 := by unfold blkBase; omega
  rw [regApply_plain (indData_plain b), if_neg (by omega), if_pos (by simp [hind, hoff])]

/-- Settles O19: direct registers and IND_DATA are read by one unit each, longer accesses unit by unit. -/
theorem readsReturn : Obligations.ReadsReturn := by
  refine ⟨⟨fun s b k hpcie hlink hup halign hid hmapped hdirect => ?_, fun s hpcie hlink hup => ?_,
    fun s hpcie hlink hup => ?_, fun s addr len data hpcie hlink => ?_⟩, fun s b hpcie hlink hup hind hmapped => ?_⟩
  · have hread := hostRd_direct (hostLink_eq hpcie hlink) hup halign hid hmapped hdirect
    exact ⟨congrArg Host.Outcome.next hread, readEffect_status s, (exec_rcRead halign s).trans (congrArg Host.Outcome.next hread)⟩
  · have hread := hostRd_direct (hostLink_eq hpcie hlink) hup (k := Rg.pwrRail) (by decide) (by decide) (by decide) (by decide)
    exact ⟨_, (exec_rcRead (by decide) s).trans (congrArg Host.Outcome.next hread), rfl, rfl⟩
  · have hread := hostRd_direct (hostLink_eq hpcie hlink) hup (k := Rg.tioDrop) (by decide) (by decide) (by decide) (by decide)
    exact ⟨_, (exec_rcRead (by decide) s).trans (congrArg Host.Outcome.next hread), rfl, rfl⟩
  · have hhost := hostLink_eq hpcie hlink
    exact ⟨congrArg Host.Outcome.next (if_pos hhost), congrArg Host.Outcome.next (if_pos hhost)⟩
  · have hhost := hostLink_eq hpcie hlink
    have hread := exec_indData_read hhost hup hind hmapped
    refine ⟨fun d hstored => ⟨_, hread, ?_⟩, hread, fun v hopen => ?_⟩
    · rw [indRead_stored hstored, ofNat_beMask_toNat]
      unfold indStep
      refine ⟨?_, fun hstays => ?_, fun hsteps => ?_⟩
      · split <;> rfl
      · rw [if_neg (by simp [hstays])]
        rfl
      · rw [if_pos hsteps]
        rfl
    · rw [exec_indData hhost, ownUnit, unitWrite_open (id_of_base b (by decide)) hmapped (.inl hup)
        (fun h => absurd (h ▸ List.mem_cons_self) (indData_plain b)) (.inl hopen), regApply_indData s hind]

end Sys2Proof.Proofs.FullAccesses
end

section
/-! A full write of a stored register of SVC, PAIR, UPD and PWR stores what its row gives (R373, R377, R460, R463). -/
-- One proof after another: the whole text is compiled in one process whose memory is bounded.
set_option Elab.async false
namespace Sys2Proof.Proofs.StoredWrites
open Sys2Proof
open Sys2Proof.Machine
open Sys2Proof.Safety
open Sys2Proof.Proofs.RegisterWrites
open Sys2Proof.Proofs.Accesses
open Sys2Proof.Proofs.FullAccesses

/-- The blocks whose stored registers have no effect beyond their value. -/
def Quiet (b : Blk) : Prop := b = .svc ∨ b = .pair ∨ b = .upd ∨ b = .pwr

/-- Their stored registers are none that a write treats in a way of its own. -/
theorem storedRegs_plain {b : Blk} (hquiet : Quiet b) : ∀ p ∈ storedRegs b,
    p.1 ∉ keyedOffsets ∧ p.1 % 0x10000 ≠ 4 ∧ p.1 % 0x10000 ≠ 0x84 := by
  obtain rfl | rfl | rfl | rfl := hquiet <;> decide

theorem isLk_stored {b : Blk} {k : Nat} {d : WordDef} (hplain : k ∉ keyedOffsets) (hrow : (storedRegs b).lookup k = some d) :
    isLk b k = d.lk := by
  simp only [keyedOffsets, List.mem_cons, List.not_mem_nil, or_false, not_or] at hplain
  obtain ⟨_, htest, _, _, hreset, _, _, hen, _⟩ := hplain
  simp [isLk, htest, hreset, hen, hrow]

theorem keyBlk_direct {b : Blk} {k : Nat} (hid : k / 0x10000 = Blk.id b) : keyBlk k = some b := by
  have hown := own_of_id hid
  rw [keyBlk, if_neg (by omega), hid, blkOf_id]

theorem keyDef_direct {b : Blk} {k : Nat} {d : WordDef} (hid : k / 0x10000 = Blk.id b)
    (hrow : (storedRegs b).lookup k = some d) : keyDef k = some d := by
  have hown := own_of_id hid
  rw [keyDef, keyBlk_direct hid]
  dsimp only
  rw [if_neg (by omega), hrow]

/-- Outside GBB, LNK and the indirect words no value is adjusted beyond its row. -/
theorem adjustWord_direct {b : Blk} {k : Nat} (hquiet : Quiet b) (hid : k / 0x10000 = Blk.id b) (s : State) (raw : Nat)
    (w : Word) : adjustWord s k raw w = (w, s) := by
  have hown := own_of_id hid
  have hsurvey : k ≠ Rg.gbbSurveyMax := by rintro rfl; revert hid; obtain rfl | rfl | rfl | rfl := hquiet <;> decide
  have hnode : k ≠ Rg.lnkNodeCfg := by rintro rfl; revert hid; obtain rfl | rfl | rfl | rfl := hquiet <;> decide
  have hport : ¬ indKey .eth 1 0 ≤ k := by simp only [indKey, Blk.id]; omega
  simp [adjustWord, hsurvey, hnode, hport]

theorem afterWrite_direct {b : Blk} {k : Nat} (hquiet : Quiet b) (hid : k / 0x10000 = Blk.id b) (s0 s : State) :
    afterWrite s0 s k = s := by
  rw [afterWrite, keyBlk_direct hid]
  obtain rfl | rfl | rfl | rfl := hquiet <;> rfl

theorem applyWord_direct {b : Blk} {k : Nat} {d : WordDef} (hquiet : Quiet b) (hid : k / 0x10000 = Blk.id b)
    (hrow : (storedRegs b).lookup k = some d) (s : State) (v : Word) : applyWord s k v = putW s k (d.store v) := by
  have hown := own_of_id hid
  have hpolice : ¬ (indKey .svc 2 0 ≤ k && k < indKey .svc 2 16) = true := by simp [indKey, Blk.id]; omega
  simp only [applyWord, keyDef_direct hid hrow, if_neg hpolice, adjustWord_direct hquiet hid, afterWrite_direct hquiet hid]

/-- A host or tunnelled write of such a register: the word, mirrored by an active unit (R373). -/
theorem storeWord_direct {b : Blk} {k : Nat} {d : WordDef} (hquiet : Quiet b) (hid : k / 0x10000 = Blk.id b)
    (hrow : (storedRegs b).lookup k = some d) {s : State} (hown : ¬ (standbyHeld s && mirroredKeys.contains k) = true) (v : Word) :
    storeWord s k v = if mirrorOn s && mirroredKeys.contains k
      then mirrorSend (putW s k (d.store v)) (.word k (getW (putW s k (d.store v)) k)) else putW s k (d.store v) := by
  have hbelow := own_of_id hid
  have hring : ¬ (indKey .hif 1 0 ≤ k && k < indKey .hif 1 120) = true := by simp [indKey, Blk.id]; omega
  rw [storeWord, if_neg hown, if_neg hring, applyWord_direct hquiet hid hrow]
  rfl

/-- The unit that acts is no standby in MIRRORING or READY (R362, R377). -/
theorem standbyHeld_of_mirrorOn {s : State} (hmirror : mirrorOn s = true) : standbyHeld s = false := by
  have hholds : s.pair.holding = true := by simp [mirrorOn] at hmirror; tauto
  simp [standbyHeld, hholds]

/-- Settles O17: the full write is one unit, and the unit is a store of the row's value. -/
theorem fullWriteStores : Obligations.FullWriteStores := by
  intro s b k d v hquiet hpcie hlink hup halign hid hmapped hrow hopen
  obtain ⟨before, after, hsplit, _⟩ := List.lookup_eq_some_iff.mp hrow
  have hmem : (k, d) ∈ storedRegs b := hsplit ▸ List.mem_append_right _ List.mem_cons_self
  obtain ⟨hplain, hstatus, hind⟩ := storedRegs_plain hquiet _ hmem
  have hstored : isStored b k = true := by simp [isStored, hrow]
  have hlk : s.glb.lock = false ∨ isLk b k = false := by rwa [isLk_stored hplain hrow]
  have hexec : exec (.registerWrite k (leBytes 4 v.toNat)) s = .next (storeWord s k v) := by
    rw [exec_fullWrite v hpcie hlink halign (own_of_id hid), unitWrite_open hid hmapped (.inl hup)
      (fun h => absurd (h ▸ List.mem_cons_self) hplain) hlk, regApply_plain hplain, if_neg hstatus,
      if_neg (by simp [hind]), if_pos hstored]
  refine ⟨fun hown hmirror => ?_, fun hheld hmirrored => ?_, fun hmirror hmirrored => ?_⟩
  · rw [hexec, storeWord_direct hquiet hid hrow (by rcases hown with h | h <;> rw [h] <;> simp),
      if_neg (by rcases hmirror with h | h <;> rw [h] <;> simp)]
  · rw [hexec, storeWord, if_pos (by rw [hheld, hmirrored]; rfl)]
  · rw [hexec, storeWord_direct hquiet hid hrow (by simp [standbyHeld_of_mirrorOn hmirror]),
      if_pos (by rw [hmirror, hmirrored]; rfl)]

end Sys2Proof.Proofs.StoredWrites
end

section
/-! What a record, a completion and the role line leave as they are, as equations of the fields that later proofs read
(R364, R438 to R442, R547 to R556). -/
-- One proof after another: the whole text is compiled in one process whose memory is bounded.
set_option Elab.async false
namespace Sys2Proof.Proofs.Records
open Sys2Proof
open Sys2Proof.Machine
open Sys2Proof.Safety
open Sys2Proof.Laws

/-! ## Fields that a record leaves -/

section
variable (s : State) (b : Blk) (code : Nat) (base : Cls) (detail : Nat) (bit : Option Nat)

@[simp] theorem emit_pending : (emit s b code base detail bit).pending = s.pending := (emit_only ..).same .pending (by decide)
@[simp] theorem emit_now : (emit s b code base detail bit).now = s.now := ((emit_only ..).same .time (by decide)).1
@[simp] theorem emit_words : (emit s b code base detail bit).words = s.words := (emit_only ..).same .words (by decide)
@[simp] theorem emit_glb : (emit s b code base detail bit).glb = s.glb := (emit_only ..).same .glb (by decide)
@[simp] theorem emit_clk : (emit s b code base detail bit).clk = s.clk := (emit_only ..).same .clk (by decide)
@[simp] theorem emit_pwr : (emit s b code base detail bit).pwr = s.pwr := (emit_only ..).same .pwr (by decide)
@[simp] theorem emit_ctl : (emit s b code base detail bit).ctl = s.ctl := (emit_only ..).same .ctl (by decide)
@[simp] theorem emit_upd : (emit s b code base detail bit).upd = s.upd := (emit_only ..).same .upd (by decide)
@[simp] theorem emit_tco : (emit s b code base detail bit).tco = s.tco := (emit_only ..).same .tco (by decide)
@[simp] theorem emit_refs : (emit s b code base detail bit).refs = s.refs := (emit_only ..).same .refs (by decide)
@[simp] theorem emit_gbb : (emit s b code base detail bit).gbb = s.gbb := (emit_only ..).same .gbb (by decide)
@[simp] theorem emit_svc : (emit s b code base detail bit).svc = s.svc := (emit_only ..).same .svc (by decide)
@[simp] theorem emit_ptp : (emit s b code base detail bit).ptp = s.ptp := (emit_only ..).same .ptp (by decide)
@[simp] theorem emit_eth : (emit s b code base detail bit).eth = s.eth := (emit_only ..).same .eth (by decide)
@[simp] theorem emit_key : (emit s b code base detail bit).key = s.key := (emit_only ..).same .key (by decide)

end

/-- The commands that wait for their completion, and those that an FLR has discarded, are not a record's to change. -/
theorem discard_of_only {L : List Part} {s t : State} (h : Only L s t) (hhif : Part.hif ∉ L := by decide) :
    t.hif.discard = s.hif.discard :=
  (congrArg Hif.discard (h.same .hif hhif : t.hif = _)).trans rfl

@[simp] theorem emit_discard (s : State) (b : Blk) (code : Nat) (base : Cls) (detail : Nat) (bit : Option Nat) :
    (emit s b code base detail bit).hif.discard = s.hif.discard := discard_of_only (emit_only ..)

/-! ## The role line: once let go it stays so -/

/-- The engine neither drives nor holds ACTIVE_N. -/
def LineFree (s : State) : Prop := s.pair.drive = false ∧ s.pair.holding = false

theorem LineFree.only {L : List Part} {s t : State} (h : LineFree s) (k : Only L s t)
    (hline : Part.line ∉ L := by decide) : LineFree t := by
  obtain ⟨-, hdrive, hholding, -⟩ := k.same .line hline
  exact ⟨hdrive.trans h.1, hholding.trans h.2⟩

theorem LineFree.ofPair {s t : State} (h : LineFree s) (hpair : t.pair = s.pair) : LineFree t := by
  unfold LineFree
  rw [hpair]
  exact h

/-- R364: the release lets the line go. -/
theorem lineRelease_lineFree (s : State) : LineFree (lineRelease s) := by
  unfold lineRelease
  split
  · exact LineFree.only (s := emitOut { s with pair := { s.pair with
      drive := false, holding := false, line := true, highAt := some s.now, lowAt := none, driveAt := none } } (.line false))
      ⟨rfl, rfl⟩ (refreshOuts_only ..)
  · next h =>
    rw [Bool.not_eq_true, Bool.or_eq_false_iff] at h
    exact h

theorem LineFree.faultEffects {s : State} (h : LineFree s) (r : Rec) : LineFree (faultEffects s r) := by
  unfold Machine.faultEffects
  split
  · exact (((lineRelease_lineFree _).only (enterSafe_only ..)).only (panAppend_only ..)).only (panCommit_only ..)
  · exact h
  · exact h

theorem LineFree.emitCore {s : State} (h : LineFree s) (b : Blk) (code : Nat) (base : Cls) (detail : Nat)
    (bit : Option Nat) : LineFree (emitCore s b code base detail bit) := by
  unfold Machine.emitCore
  extract_lets a esc cls t r u v w
  have hu : LineFree u := ((h.only (evDrain_only s)).only (seqAdvance_only ..)).only (histPut_only ..)
  have hv : LineFree v := by unfold v; split <;> exact hu
  have hw : LineFree w := by
    unfold w
    split
    · exact hv
    · exact hv.only (figFault_only ..)
  exact ((hw.only (evRoute_only w r)).faultEffects r).only (blkIrq_only ..)

theorem LineFree.panLog {s : State} (h : LineFree s) (type sub aux data : Nat) : LineFree (panLog s type sub aux data) := by
  unfold Machine.panLog
  split
  · exact h.only (panAppend_only ..)
  · split
    · exact h
    · exact LineFree.emitCore (s := { s with pan := { s.pan with full := true } }) h ..

theorem demote_lineFree {s : State} (h : LineFree s) : LineFree (demote s) := by
  unfold demote
  split
  · exact ((lineRelease_lineFree _).emitCore ..).panLog ..
  · exact h

theorem LineFree.emit {s : State} (h : LineFree s) (b : Blk) (code : Nat) (base : Cls) (detail : Nat)
    (bit : Option Nat) : LineFree (emit s b code base detail bit) := by
  unfold Machine.emit
  extract_lets before t severe
  have ht : LineFree t := h.emitCore ..
  split
  · exact demote_lineFree ht
  · exact ht

end Sys2Proof.Proofs.Records
end

section
/-! POWER_SET (14_power_clocks_startup.md R492 to R494, R514). -/
-- One proof after another: the whole text is compiled in one process whose memory is bounded.
set_option Elab.async false
namespace Sys2Proof.Proofs.PowerSet
open Sys2Proof
open Sys2Proof.Machine
open Sys2Proof.Safety
open Sys2Proof.Laws
open Sys2Proof.Proofs.Commands
open Sys2Proof.Proofs.Queries
open Sys2Proof.Proofs.Records

/-! ## A planned swap that aborts -/

/-- A completion takes a command off the list of those that an FLR has discarded, and puts none on it. -/
theorem complete_keeps {s : State} {hd : Hdr} (h : s.hif.discard.contains hd = false) (hd' : Hdr) (op : Nat)
    (status : BitVec 8) (rlen result : Nat) : (complete s hd' op status rlen result).hif.discard.contains hd = false := by
  unfold complete
  split
  · rw [Bool.eq_false_iff, ne_eq, List.contains_iff_mem] at h ⊢
    exact fun hmem => h (List.mem_of_mem_erase hmem)
  · exact h

theorem swapAbort_keeps {s : State} {hd : Hdr} (h : s.hif.discard.contains hd = false) (mask : Nat) (tell : Bool) :
    (swapAbort s mask tell).hif.discard.contains hd = false := by
  unfold swapAbort
  split
  · exact h
  · next w _ =>
    extract_lets a b c d
    have hc : c.hif.discard.contains hd = false := by
      have hdiscard : c.hif.discard = s.hif.discard := emit_discard ..
      rw [hdiscard]
      exact h
    have hd : d.hif.discard.contains hd = false := by
      unfold d
      split
      · exact complete_keeps hc ..
      · exact hc
    split
    · rw [discard_of_only (linkSend_only ..)]
      exact hd
    · exact hd

theorem swapAbort_lineFree {s : State} (h : LineFree s) (mask : Nat) (tell : Bool) : LineFree (swapAbort s mask tell) := by
  unfold swapAbort
  split
  · exact h
  · next w _ =>
    extract_lets a b c d
    have hc : LineFree c := LineFree.emit (s := b) h ..
    have hd : LineFree d := by
      unfold d
      split
      · exact hc.only (complete_only ..)
      · exact hc
    split
    · exact hd.only (linkSend_only ..)
    · exact hd

/-! ## The way to Simmer and Off (R494 steps 1 to 3) -/

theorem stateEvent_state (s : State) (new : PowerState) : (stateEvent s new).pwr.state = s.pwr.state := by
  unfold stateEvent
  rw [emit_pwr, modPwr_pwr]

theorem stateEvent_lineFree {s : State} (h : LineFree s) (new : PowerState) : LineFree (stateEvent s new) := by
  unfold stateEvent
  exact LineFree.emit (h.ofPair (modPwr_pair ..)) ..

/-- R494: the line is let go, the state stands, and the domains go 10 ms later. -/
theorem leaveService_leaves (s : State) (target : PowerState) :
    LineFree (leaveService s target) ∧ (leaveService s target).pwr.state = s.pwr.state ∧
    (leaveService s target).pwr.down = some (target, s.now + ticksMs 10) := by
  have hline : LineFree (swapAbort (lineRelease s) 0x80 true) := swapAbort_lineFree (lineRelease_lineFree s) ..
  have hpath : Only [.out, .pan, .log, .line, .pair, .links, .rings, .hif, .cnt, .outs] s (swapAbort (lineRelease s) 0x80 true) :=
    Only.step (Only.mono (lineRelease_only s) (by decide)) (swapAbort_only ..) (by decide)
  unfold leaveService
  generalize swapAbort (lineRelease s) 0x80 true = a at hline hpath
  have hevent : LineFree (stateEvent a target) :=
    stateEvent_lineFree hline target
  have hnow : (stateEvent a target).now = s.now :=
    ((stateEvent_only a target).same .time (by decide)).1.trans (hpath.same .time (by decide)).1
  have hstate : (stateEvent a target).pwr.state = s.pwr.state :=
    (stateEvent_state a target).trans (congrArg Pwr.state (hpath.same .pwr (by decide)))
  dsimp only
  generalize stateEvent a target = b at hevent hnow hstate
  have hcommit := (panCommit_only b false target).same .pwr (by decide)
  have hfree := hevent.only (panCommit_only b false target)
  generalize panCommit b false target = c at hcommit hfree
  refine ⟨hfree, ?_, ?_⟩
  · exact (congrArg Pwr.state hcommit).trans hstate
  · rw [modPwr_pwr, hnow]

theorem leaveService_keeps {s : State} {hd : Hdr} (h : s.hif.discard.contains hd = false) (target : PowerState) :
    (leaveService s target).hif.discard.contains hd = false := by
  have ha : (swapAbort (lineRelease s) 0x80 true).hif.discard.contains hd = false := by
    refine swapAbort_keeps ?_ ..
    rw [discard_of_only (lineRelease_only s)]
    exact h
  unfold leaveService
  generalize swapAbort (lineRelease s) 0x80 true = a at ha
  change (panCommit (stateEvent a target) false target).hif.discard.contains hd = false
  rw [discard_of_only (panCommit_only ..), discard_of_only (stateEvent_only ..)]
  exact ha

/-- R492, R494: toward Simmer or Off the engine has let the line go and the command has completed; the domains follow. -/
theorem powerDone_leaves {s : State} {hd : Hdr} (hkept : s.hif.discard.contains hd = false) {target : PowerState}
    (htarget : target ≠ .warm) :
    (powerDone s hd target).pwr.state = s.pwr.state ∧ (powerDone s hd target).pwr.down = some (target, s.now + ticksMs 10) ∧
    (powerDone s hd target).pair.holding = false ∧ Ends (powerDone s hd target) hd 0x10 Status.ok := by
  obtain ⟨hline, hstate, hdown⟩ := leaveService_leaves s target
  have hdone : powerDone s hd target = complete (leaveService s target) hd 0x10 Status.ok 16 (tsNow (leaveService s target)).toNat := by
    unfold powerDone
    rw [if_neg htarget]
  have hkept' := leaveService_keeps hkept target
  rw [hdone]
  generalize leaveService s target = a at hline hstate hdown hkept'
  have hpwr := (complete_only a hd 0x10 Status.ok 16 (tsNow a).toNat).same .pwr (by decide)
  refine ⟨(congrArg Pwr.state hpwr).trans hstate, (congrArg Pwr.down hpwr).trans hdown,
    (hline.only (complete_only a hd 0x10 Status.ok 16 _)).2, ends_complete hkept' ..⟩

/-! ## The domains go (R489, R494 step 4) -/

/-- R489: what a reset of the domains leaves. -/
structure DomainsReset (s t : State) : Prop where
  now : t.now = s.now
  words : t.words = []
  tco : t.tco = Tco.reset
  pwr : t.pwr = { Pwr.reset with state := s.pwr.state, cause := s.pwr.cause, pf := s.pwr.pf, therm := s.pwr.therm,
                                 failed := s.pwr.failed, thermDead := s.pwr.thermDead, pwrFailLow := s.pwr.pwrFailLow,
                                 fallbacks := s.pwr.fallbacks }
  line : LineFree t
  panLog : t.pan.log = s.pan.log
  key : t.key = keyKept s.key
  fatal : t.log.fatal = s.log.fatal
  bootSrc : t.glb.bootSrc = s.glb.bootSrc

theorem resetDomains_resets (s : State) : DomainsReset s (resetDomains s) := by
  unfold resetDomains
  extract_lets a b
  have hb : Only [.out, .line, .outs] s b :=
    Only.foldl _ _ (fun u o h => Only.ite (fun _ => h) fun _ => Only.step h (emitOut_only ..) (by decide))
      (Only.mono (lineRelease_only s) (by decide))
  have hnow := (hb.same .time (by decide)).1
  have hpwr := hb.same .pwr (by decide)
  have hpan := hb.same .pan (by decide)
  have hkey := hb.same .key (by decide)
  have hlog := hb.same .log (by decide)
  have hglb := hb.same .glb (by decide)
  clear_value b
  dsimp only [Part.same] at hpwr hpan hkey hlog hglb
  constructor
  case line => exact ⟨rfl, rfl⟩
  all_goals simp +zetaDelta only [hnow, hpwr, hpan, hkey, hlog, hglb, State.reset]

/-- R494, R510: powered down, the engine is in the state that it left for. -/
theorem powerDown_resets (s : State) (target : PowerState) :
    ∃ u, DomainsReset s u ∧ powerDown s target = modPwr u fun p => { p with state := target, phase := .reset } := by
  unfold powerDown
  split
  · have h := resetDomains_resets { s with eth := { s.eth with wake := some (wakeCopy s), wakeCause := 0 } }
    exact ⟨_, ⟨h.now, h.words, h.tco, h.pwr, h.line, h.panLog, h.key, h.fatal, h.bootSrc⟩, rfl⟩
  · exact ⟨_, resetDomains_resets s, rfl⟩

/-! ## The commands -/

/-- R492: ports and PTP instances that come up leave the power state. -/
theorem toBoil_state (s : State) : (toBoil s).pwr.state = .boil := by
  unfold toBoil
  extract_lets u
  have hports := (portsGate_only s u).same .pwr (by decide)
  have hinst := (instEvalAll_only (portsGate s u)).same .pwr (by decide)
  exact (congrArg Pwr.state (hinst.trans hports)).trans rfl

/-- Settles O23: R492 to R494 by the target. Out of Boil the transition is judged at once, and 10 ms lie ahead. -/
theorem powerSetMoves : Obligations.PowerSetMoves := by
  refine ⟨?_, ?_, ?_, ?_⟩
  · intro s hd h hwarm hdown htrans hfail
    refine ⟨?_, toBoil_state s⟩
    change execPowerSet hd 3 s = _
    rw [execPowerSet, cmd_of_inRange h (by decide)]
    simp [hfail, hwarm, h.ready, hdown, htrans]
  · intro s u hd code target h hboil hdown htrans hfail hcode hu
    have hpwr : u.pwr = { s.pwr with trans := some (hd, target, s.now + ticksMs 10) } := by
      rw [hu]
      exact (leaveBoil_only _).same .pwr (by decide)
    have hnow : u.now = s.now := by
      rw [hu]
      exact ((leaveBoil_only _).same .time (by decide)).1
    have hexec : exec (.powerSet hd code) s = .next (transEval u) := by
      change execPowerSet hd code s = _
      rcases hcode with ⟨rfl, rfl⟩ | ⟨rfl, rfl⟩ | ⟨rfl, rfl⟩ <;>
        rw [execPowerSet, cmd_of_inRange h (by decide), hu] <;> simp [hfail, hboil, hdown, htrans, modPwr]
    rw [hexec]
    have heval : transEval u = if answersGone u then powerDone (toWarm { u with pwr := { u.pwr with trans := none } }) hd target else u := by
      unfold transEval
      rw [show u.pwr.trans = some (hd, target, s.now + ticksMs 10) by rw [hpwr]]
      simp [hnow, ticksMs, modPwr]
    refine ⟨fun hgone => by rw [heval, if_pos hgone], fun hwait => ⟨by rw [heval, hwait]; rfl, by rw [hpwr]⟩⟩
  · intro s hd h hwarm hdown htrans hfail
    have hexec : ∀ (code : BitVec 8) (target : PowerState), code = 0 ∧ target = .off ∨ code = 1 ∧ target = .simmer →
        exec (.powerSet hd code) s = .next (powerDone s hd target) := by
      intro code target hcode
      change execPowerSet hd code s = _
      rcases hcode with ⟨rfl, rfl⟩ | ⟨rfl, rfl⟩ <;>
        rw [execPowerSet, cmd_of_inRange h (by decide)] <;> simp [hfail, hwarm, hdown, htrans]
    constructor
    · obtain ⟨hstate, hdown', hhold, hends⟩ := powerDone_leaves h.kept (target := .off) (by decide)
      exact ⟨_, hexec 0 .off (.inl ⟨rfl, rfl⟩), hstate.trans hwarm, hdown', hhold, hends⟩
    · obtain ⟨hstate, hdown', hhold, hends⟩ := powerDone_leaves h.kept (target := .simmer) (by decide)
      exact ⟨_, hexec 1 .simmer (.inr ⟨rfl, rfl⟩), hstate.trans hwarm, hdown', hhold, hends⟩
  · intro s target t0 hdown hdue howed
    obtain ⟨u, hreset, hu⟩ := powerDown_resets s target
    refine ⟨powerDown s target, ?_, ?_⟩
    · change execPowerDownDomains s = _
      unfold execPowerDownDomains
      rw [hdown]
      exact congrArg Host.Outcome.next (if_pos (by rw [howed, decide_eq_true hdue]; rfl))
    · rw [hu]
      refine ⟨rfl, rfl, hreset.words, hreset.tco, hreset.panLog, ?_, ?_⟩
      · exact (congrArg Key.root hreset.key).trans rfl
      · exact (congrArg Key.slots hreset.key).trans rfl

end Sys2Proof.Proofs.PowerSet
end

section
/-! Loops that lose lock or reference, LOOP_RESET and its end (14_power_clocks_startup.md R498 to R500, R514). -/
-- One proof after another: the whole text is compiled in one process whose memory is bounded.
set_option Elab.async false
namespace Sys2Proof.Proofs.Loops
open Sys2Proof
open Sys2Proof.Machine
open Sys2Proof.Safety
open Sys2Proof.Laws
open Sys2Proof.Proofs.Commands
open Sys2Proof.Proofs.Queries
open Sys2Proof.Proofs.Records
open Sys2Proof.Proofs.Steps

theorem loop_modLoop (s : State) (i : Fin 4) (f : Loop → Loop) : loop (modLoop s i.val f) i.val = f (loop s i.val) := by
  unfold loop modLoop
  rw [vget_vmod, if_pos ⟨rfl, i.isLt⟩]

theorem loop_of_clk {s t : State} (h : t.clk.loops = s.clk.loops) (i : Nat) : loop t i = loop s i := by
  unfold loop
  rw [h]

theorem loop_markCoast (s : State) (ts : BitVec 128) (i : Nat) :
    loop { s with clk := { s.clk with lastCoast := ts } } i = loop s i := rfl

/-- A change of the clock state is a record of TCO: the status of the other blocks stands. -/
theorem clockEval_kept (s : State) (b : Blk) (htco : Blk.tco ≠ b) (hperf : b ≠ .perf) (hpan : b ≠ .pan) (hpair : b ≠ .pair) :
    StatKept b s (clockEval s) := by
  have hchange : ∀ (u : State) (n : ClockState), StatKept b u (stateChange u n) := fun u n => by
    unfold stateChange
    exact (StatKept.only (modTco_only u _ rfl) (by decide)).trans (emit_kept _ _ _ _ _ _ _ htco hperf hpan hpair)
  have hjudge : StatKept b s (clockJudge s) := by
    refine (StatKept.only (clogMark_only s) (by decide)).trans ?_
    unfold clockJudge
    extract_lets a u d
    split
    · exact hchange a u
    · split
      · exact StatKept.only (modTco_only a _ rfl) (by decide)
      · split
        · exact hchange a u
        · exact StatKept.only (modTco_only a _ rfl) (by decide)
  exact hjudge.trans (StatKept.only (stMark_only _) (by decide))

theorem publish_timeKept (s : State) (base : Nat) : TimeKept s (publish s base) := by
  unfold publish
  exact TimeKept.modTco rfl rfl

/-- R498: the loop coasts from the present tick, LOOP_COAST stands; only MDLL-T reaches the time core, and not the counter. -/
theorem exec_loopLoss {s : State} {i : Fin 4} (ref : Bool) (hlocked : (loop s i.val).locked = true) :
    ∃ t, exec (.loopLoss i ref) s = .next t ∧
      loop t i.val = { loop s i.val with locked := false, coasting := true, refLoss := ref, coastAt := s.now } ∧
      Advanced .clk (some 0) s t ∧ t.tco.counter = s.tco.counter ∧ (i.val ≠ 0 → t.tco = s.tco) := by
  refine ⟨_, rfl, ?_⟩
  extract_lets j a _ b c d
  rw [hlocked, if_neg (by decide)]
  have hloop : loop b i.val = { loop s i.val with locked := false, coasting := true, refLoss := ref, coastAt := s.now } :=
    (loop_markCoast a _ _).trans (loop_modLoop s i _)
  have hb : Only [.clk] a b := set_clk_only a _
  have htcoB : b.tco = s.tco := hb.same .tco (by decide)
  have hlogB : b.log = s.log := hb.same .log (by decide)
  have hj : j = i.val := rfl
  have hcAdv : Advanced .clk (some 0) s c :=
    Advanced.after (StatKept.ofLog hlogB) (emit_advanced _ _ _ _ _ _ (by decide))
  have hcLoop : loop c i.val = loop b i.val := loop_of_clk (congrArg Clk.loops (emit_clk ..)) _
  have hcTco : c.tco = s.tco := (emit_tco ..).trans htcoB
  clear_value c b j
  have hd : Advanced .clk (some 0) s d ∧ loop d i.val = loop c i.val ∧ d.tco = c.tco := by
    have hrec : ∀ detail, Advanced .clk (some 0) s (emit c .tco 3 .notice detail (some 2)) ∧
        loop (emit c .tco 3 .notice detail (some 2)) i.val = loop c i.val ∧ (emit c .tco 3 .notice detail (some 2)).tco = c.tco :=
      fun detail => ⟨hcAdv.kept (emit_kept _ _ _ _ _ _ _ (by decide) (by decide) (by decide) (by decide)),
        loop_of_clk (congrArg Clk.loops (emit_clk ..)) _, emit_tco ..⟩
    rcases j with _ | _ | n
    · exact hrec 0
    · exact ⟨hcAdv, rfl, rfl⟩
    · exact hrec _
  obtain ⟨hdAdv, hdLoop, hdTco⟩ := hd
  clear_value d
  subst hj
  by_cases hi : i.val = 0
  · rw [if_pos hi]
    have hkept := (publish_timeKept d d.tco.base.toNat).trans (clockEval_timeKept _)
    have hclk := ((clockEval_only (publish d d.tco.base.toNat)).same .clk (by decide)).trans ((publish_only ..).same .clk (by decide))
    exact ⟨(loop_of_clk (congrArg Clk.loops hclk) _).trans (hdLoop.trans (hcLoop.trans hloop)),
      hdAdv.kept ((StatKept.only (publish_only ..) (by decide)).trans
        (clockEval_kept _ _ (by decide) (by decide) (by decide) (by decide))),
      hkept.counter.trans (by rw [hdTco, hcTco]), fun h => absurd hi h⟩
  · rw [if_neg hi]
    exact ⟨hdLoop.trans (hcLoop.trans hloop), hdAdv, by rw [hdTco, hcTco], fun _ => hdTco.trans hcTco⟩

/-- R61, R500: a loop that relocks is locked, and LOOP_RESET completes OK. -/
theorem exec_loopLocked {s : State} {hd : Hdr} {i : Fin 4} {u : Nat} (hrelock : (loop s i.val).relock = some (hd, u))
    (hkept : s.hif.discard.contains hd = false) :
    ∃ t, exec (.loopLocked i) s = .next t ∧
      loop t i.val = { loop s i.val with locked := true, coasting := false, refLoss := false, relock := none } ∧
      Ends t hd 0x12 Status.ok ∧ t.tco.counter = s.tco.counter ∧ (i.val ≠ 0 → t.tco = s.tco) := by
  refine ⟨_, rfl, ?_⟩
  extract_lets j ms w b c d e
  split
  · next h => exact absurd (h.symm.trans hrelock) (by simp)
  · next hd' u' h =>
    obtain ⟨rfl, rfl⟩ : hd' = hd ∧ u' = u := by simpa using h.symm.trans hrelock
    have hcLoop : loop c i.val = { loop s i.val with locked := true, coasting := false, refLoss := false, relock := none } :=
      loop_modLoop s i _
    have hcTco : c.tco = s.tco := rfl
    have hcDiscard : c.hif.discard = s.hif.discard := rfl
    clear_value c
    have hd : loop d i.val = loop c i.val ∧ d.hif.discard = c.hif.discard ∧ d.tco.counter = c.tco.counter ∧
        (i.val ≠ 0 → d.tco = c.tco) := by
      unfold d
      split
      · next hi =>
        have hlaw : TimeKept c (lawRestart c (b + w)) := by unfold lawRestart; exact TimeKept.modTco rfl rfl
        have hpub := publish_timeKept (lawRestart c (b + w)) (b + w)
        have hkept := (hlaw.trans hpub).trans (clockEval_timeKept _)
        have hclk := ((clockEval_only (publish (lawRestart c (b + w)) (b + w))).same .clk (by decide)).trans
          (((publish_only ..).same .clk (by decide)).trans ((lawRestart_only ..).same .clk (by decide)))
        exact ⟨loop_of_clk (congrArg Clk.loops hclk) _, hkept.discard, hkept.counter, fun h => absurd hi h⟩
      · exact ⟨rfl, rfl, rfl, fun _ => rfl⟩
    obtain ⟨hdLoop, hdDiscard, hdCounter, hdTco⟩ := hd
    clear_value d
    have heDiscard : e.hif.discard = d.hif.discard := emit_discard ..
    have heTco : e.tco = d.tco := emit_tco ..
    have heLoop : loop e i.val = loop d i.val := loop_of_clk (congrArg Clk.loops (emit_clk ..)) _
    clear_value e
    have hdone := complete_only e hd' 0x12 Status.ok 20 (pack [(0, (tsNow e).toNat), (16, ms)])
    have htco := hdone.same .tco (by decide)
    refine ⟨(loop_of_clk (congrArg Clk.loops (hdone.same .clk (by decide))) _).trans (heLoop.trans (hdLoop.trans hcLoop)),
      ends_complete ?_ .., ?_, fun hi => ?_⟩
    · rw [heDiscard, hdDiscard, hcDiscard]; exact hkept
    · rw [show _ = _ from htco, heTco, hdCounter, hcTco]
    · exact htco.trans (heTco.trans ((hdTco hi).trans hcTco))

/-- Settles O24: a loss, the reset of a loop that coasts, and its two ends. -/
theorem loopsCoastAndRelock : Obligations.LoopsCoastAndRelock := by
  refine ⟨?_, ?_, ?_⟩
  · intro s i ref hlocked
    obtain ⟨t, hexec, hloop, hadv, hcounter, htco⟩ := exec_loopLoss ref hlocked
    exact ⟨t, hexec, by rw [hloop], by rw [coasting, hloop], by rw [hloop], by rw [hloop], hadv.seq,
      hadv.bit 0 rfl (by decide), hcounter, htco⟩
  · intro s hd i h hcoast hrelock
    have hi : (BitVec.ofNat 8 i.val).toNat = i.val := by
      rw [BitVec.toNat_ofNat]
      exact Nat.mod_eq_of_lt (by omega)
    change execLoopReset hd (BitVec.ofNat 8 i.val) false s = _
    rw [execLoopReset, cmd_of_inRange h (by rw [hi]; simpa using Nat.le_of_lt_succ i.isLt)]
    simp [hi, hcoast, hrelock]
  · intro s hd i u hrelock hkept
    constructor
    · obtain ⟨t, hexec, hloop, hends, hcounter, htco⟩ := exec_loopLocked hrelock hkept
      exact ⟨t, hexec, by rw [hloop], by rw [coasting, hloop], hends, hcounter, htco⟩
    · intro hdue hpending
      refine ⟨fin (modLoop s i.val fun k => { k with relock := none }) hd 0x12 Status.aborted, ?_, ?_⟩
      · change execLoopResetTimeout i s = _
        unfold execLoopResetTimeout
        rw [hrelock]
        exact congrArg Host.Outcome.next (if_pos (by rw [hpending, decide_eq_true hdue]; rfl))
      · rw [fin_eq_answered (by exact hkept)]
        have hloop := loop_modLoop s i fun k => { k with relock := none }
        exact ⟨(congrArg Loop.coasting hloop :), (congrArg Loop.relock hloop :), ends_answered .., rfl⟩

end Sys2Proof.Proofs.Loops
end

section
/-! Supplies, temperature and halted cores, and the steps of a start (14_power_clocks_startup.md R495 to R513, R516). -/
-- One proof after another: the whole text is compiled in one process whose memory is bounded.
set_option Elab.async false
namespace Sys2Proof.Proofs.Supplies
open Sys2Proof
open Sys2Proof.Machine
open Sys2Proof.Safety
open Sys2Proof.Laws
open Sys2Proof.Proofs.Records
open Sys2Proof.Proofs.PowerSet
open Sys2Proof.Proofs.Loops

/-! ## Power failure and thermal shutdown (R510, R513) -/

/-- R510: after a failure the engine is in Off and one-way down; the causes that it noted stand. -/
structure FailedDown (s t : State) : Prop where
  state : t.pwr.state = .off
  phase : t.pwr.phase = .reset
  failed : t.pwr.failed = true
  pf : t.pwr.pf = s.pwr.pf
  therm : t.pwr.therm = s.pwr.therm
  thermDead : t.pwr.thermDead = s.pwr.thermDead
  pwrFailLow : t.pwr.pwrFailLow = s.pwr.pwrFailLow
  line : LineFree t
  mask10 : t.key.mask10 = s.key.mask10
  words : t.words = []

theorem failDown_failedDown (s : State) : FailedDown s (failDown s) := by
  obtain ⟨u, hreset, hu⟩ := powerDown_resets s .off
  unfold failDown
  rw [hu]
  have hpwr := hreset.pwr
  have hkey := hreset.key
  constructor
  case line => exact (hreset.line.ofPair (modPwr_pair ..)).ofPair (modPwr_pair ..)
  case words => exact hreset.words
  case mask10 => rw [modPwr_key, modPwr_key, hkey]; rfl
  all_goals simp only [modPwr_pwr, hpwr]

/-- R510 steps 1 to 3 take the interrupt's mask along whatever is committed and recorded. -/
theorem mask10_of_only {L : List Part} {s t : State} (h : Only L s t) (hkey : Part.key ∉ L := by decide) :
    t.key.mask10 = s.key.mask10 :=
  congrArg Key.mask10 (h.same .key hkey)

/-! ## Junction readings (R512) -/

/-- What a reading keeps besides the junction: the peak, the counter and the words. -/
structure ReadingKept (s t : State) : Prop where
  junction : t.pwr.junction = s.pwr.junction
  peak : t.pwr.peak = s.pwr.peak
  counter : t.tco.counter = s.tco.counter
  words : t.words = s.words

theorem ReadingKept.trans {s t u : State} (h : ReadingKept s t) (k : ReadingKept t u) : ReadingKept s u :=
  ⟨k.junction.trans h.junction, k.peak.trans h.peak, k.counter.trans h.counter, k.words.trans h.words⟩

theorem ReadingKept.modPwr {s : State} {f : Pwr → Pwr} (hj : (f s.pwr).junction = s.pwr.junction)
    (hp : (f s.pwr).peak = s.pwr.peak) : ReadingKept s (modPwr s f) := ⟨hj, hp, rfl, rfl⟩

theorem thermWarn_kept (s : State) (junction : BitVec 16) : ReadingKept s (thermWarn s junction) := by
  unfold thermWarn
  extract_lets warn a t
  have ha : ReadingKept s a := ReadingKept.modPwr rfl rfl
  split
  · split
    · exact ⟨(congrArg Pwr.junction (emit_pwr ..)).trans ha.junction, (congrArg Pwr.peak (emit_pwr ..)).trans ha.peak,
        (congrArg Tco.counter (emit_tco ..)).trans ha.counter, (emit_words ..).trans ha.words⟩
    · exact ha
  · split
    · exact ReadingKept.modPwr rfl rfl
    · exact ReadingKept.modPwr rfl rfl

theorem dieSample_kept (s : State) (junction : BitVec 16) : ReadingKept s (dieSample s junction) := by
  unfold dieSample
  extract_lets a m b
  have ha : ReadingKept s a := ReadingKept.modPwr rfl rfl
  split
  · exact ha.trans ⟨rfl, rfl, rfl, rfl⟩
  · exact ha

theorem histSample_kept (s : State) (junction vcore : BitVec 16) : ReadingKept s (histSample s junction vcore) := by
  have h := histSample_only s junction vcore
  exact ⟨congrArg Pwr.junction (h.same .pwr (by decide)), congrArg Pwr.peak (h.same .pwr (by decide)),
    congrArg Tco.counter (h.same .tco (by decide)), h.same .words (by decide)⟩

/-- Settles O26: a failure ends in `failDown`; readings pass through the warning, the average and the histograms. -/
theorem supplyFaultsAct : Obligations.SupplyFaultsAct := by
  refine ⟨⟨?_, ?_⟩, ?_, ?_, ?_⟩
  · intro s
    refine ⟨_, rfl, ?_⟩
    extract_lets run hot l key a b c
    have ha : a.key.mask10 = true := rfl
    clear_value a
    have hb : b.key.mask10 = true := by
      unfold b
      split
      · rw [emit_key, mask10_of_only (panCommit_only ..), mask10_of_only (outputsOff_only a), ha]
      · exact ha
    clear_value b
    have h := failDown_failedDown c
    exact ⟨h.state, h.phase, h.failed, h.pf, h.pwrFailLow, h.line.2, h.line.1, h.mask10.trans hb, h.words⟩
  · intro s hup hhot
    refine ⟨_, rfl, ?_⟩
    extract_lets l key a b c
    rw [hup, hhot, if_neg (by decide)]
    clear_value b
    have h := failDown_failedDown c
    exact ⟨h.state, h.therm, h.thermDead, h.failed, h.line.2, h.words⟩
  · intro s j v hup
    refine ⟨_, rfl, ?_⟩
    extract_lets a
    rw [hup, if_neg (by decide)]
    have h := ((thermWarn_kept a j).trans (dieSample_kept _ j)).trans (histSample_kept _ j v)
    exact ⟨h.junction, h.peak, h.counter, h.words⟩
  · intro s r high hup
    refine ⟨_, rfl, ?_⟩
    extract_lets m
    rw [hup, if_neg (by decide)]
    have hbit := (emit_advanced (modPwr s fun p => { p with railOk := p.railOk &&& ~~~m, warned := p.warned ||| m })
      .pwr 5 .degraded (r.val + flag high 3) (some 3) (by decide)).bit 3 rfl (by decide)
    exact ⟨by rw [emit_pwr, modPwr_pwr], by rw [emit_pwr, modPwr_pwr], hbit, by rw [emit_tco, modPwr_tco]⟩
  · intro s n cause hup hcause hcore hrun
    have hexec : exec (.coreHalt n cause) s = .next (coreHalt s n.val cause.toNat) := by
      change execCoreHalt n cause s = _
      unfold execCoreHalt
      rw [if_neg]
      simpa [hup] using ⟨hcause, not_and.mp hcore⟩
    refine ⟨_, hexec, ?_⟩
    unfold coreHalt
    extract_lets c a
    rw [hrun, if_neg (by decide)]
    have hctl : a.ctl.run = vset s.ctl.run n.val 3 := rfl
    have hwhy : a.ctl.cause = vset s.ctl.cause n.val (BitVec.ofNat 2 cause.toNat) := rfl
    have htco : a.tco = s.tco := rfl
    clear_value a
    have hup' : ∀ m : Nat, coreUp (emit a .ctl 1 .severe (n.val + cause.toNat * 256) (some 0)) m =
        decide ((if n.val = m ∧ n.val < 4 then 3 else vget s.ctl.run 0 m) = 2) := fun m => by
      unfold coreUp
      rw [emit_ctl, hctl, vget_vset]
    refine ⟨?_, ?_, fun m hm => ?_, (emit_advanced _ _ _ _ _ _ (by decide)).bit 0 rfl (by decide), (emit_tco ..).trans htco⟩
    · rw [hup', if_pos ⟨rfl, n.isLt⟩]; decide
    · rw [emit_ctl, hwhy, vget_vset, if_pos ⟨rfl, n.isLt⟩, BitVec.ofNat_toNat, BitVec.setWidth_eq]
    · rw [hup', if_neg fun h => hm (Fin.ext h.1.symm)]; rfl

/-! ## Starts (R495 to R507) -/

/-- R489, R495: what a start's reset leaves. -/
structure StartReset (s t : State) : Prop where
  words : t.words = []
  night : t.tco.st = .night
  unbounded : t.tco.teb = 0xFFFFFFFF
  warm : t.pwr.state = .warm
  pwrFailLow : t.pwr.pwrFailLow = s.pwr.pwrFailLow

theorem startReset_resets (s : State) (i : StartIn) (soft : Bool) : StartReset s (startReset s i soft) := by
  unfold startReset
  extract_lets cause a b c e d
  have ha : a.pwr = s.pwr := (wakeFirst_only s).same .pwr (by decide)
  have hb : b.pwr.pwrFailLow = s.pwr.pwrFailLow := by
    unfold b
    split
    · exact congrArg Pwr.pwrFailLow ha.symm ▸ rfl
    · exact congrArg Pwr.pwrFailLow ha
  have hreset : DomainsReset b c := resetDomains_resets b
  have hcPwr := hreset.pwr
  have hcTco := hreset.tco
  have hcWords := hreset.words
  clear_value c b
  have hd : d.words = c.words ∧ d.tco = c.tco ∧ d.pwr = c.pwr := by
    unfold d
    split <;> exact ⟨rfl, rfl, rfl⟩
  obtain ⟨hdWords, hdTco, hdPwr⟩ := hd
  clear_value d
  constructor
  · exact hdWords.trans hcWords
  · exact (congrArg Tco.st (hdTco.trans hcTco)).trans rfl
  · exact (congrArg Tco.teb (hdTco.trans hcTco)).trans rfl
  · rfl
  · exact (congrArg Pwr.pwrFailLow (hdPwr.trans hcPwr)).trans hb

/-- Step 1 with a REF that is not recognised: the start waits and REF_WAIT stands (R496). -/
theorem startRef_waits {s : State} {i : StartIn} (href : refOf i.refCount = none) :
    (startRef s i).pwr.phase = .waitRef ∧ (startRef s i).pwr.start = some i ∧ (startRef s i).clk.lastCount = i.refCount ∧
    (blkStat (startRef s i) .clk).bits.getLsbD 2 = true := by
  unfold startRef
  rw [href]
  dsimp -zeta only
  extract_lets c a
  have hclk : a.clk.lastCount = i.refCount := rfl
  clear_value a
  refine ⟨?_, ?_, ?_, (emit_advanced _ _ _ _ _ _ (by decide)).bit 2 rfl (by decide)⟩
  · rw [emit_pwr]; rfl
  · rw [emit_pwr]; rfl
  · rw [emit_clk]; exact hclk

theorem startEvents_kept (s : State) (b : Blk) (hkey : Blk.key ≠ b) (heth : Blk.eth ≠ b) (hperf : b ≠ .perf)
    (hpan : b ≠ .pan) (hpair : b ≠ .pair) : StatKept b s (startEvents s) := by
  unfold startEvents
  extract_lets a
  have ha : StatKept b s a := by
    unfold a
    split
    · exact (StatKept.only (modKey_only ..) (by decide)).trans (emit_kept _ _ _ _ _ _ _ hkey hperf hpan hpair)
    · exact StatKept.refl b s
  split
  · exact ha.trans (emit_kept _ _ _ _ _ _ _ heth hperf hpan hpair)
  · exact ha

/-- R506, R507: RECOVERY is entered with its event, and what the start owes reaches neither PWR nor the cores. -/
theorem enterRecovery_recovers (s : State) (i : StartIn) (why : Nat) :
    (enterRecovery s i why).pwr.phase = .recovery ∧ (enterRecovery s i why).pwr.start = none ∧
    (enterRecovery s i why).ctl = s.ctl ∧ (blkStat (enterRecovery s i why) .pwr).bits.getLsbD 1 = true := by
  unfold enterRecovery
  extract_lets a p b c
  have hb : b.pwr = { s.pwr with phase := .recovery, start := none } := rfl
  have hbCtl : b.ctl = s.ctl := rfl
  clear_value b
  have hc : Only [.out, .key, .pan, .log, .line, .links, .rings, .cnt, .outs] b c :=
    Only.step (Only.step (Only.mono (panStart_only b i.vbatLost) (by decide)) (panStartEntry_only ..) (by decide))
      (panTamper_only _) (by decide)
  have hcPwr := hc.same .pwr (by decide)
  have hcCtl := hc.same .ctl (by decide)
  clear_value c
  have hevents := startEvents_only (emit c .pwr 7 .notice why (some 1))
  have hpwr : (startEvents (emit c .pwr 7 .notice why (some 1))).pwr = b.pwr :=
    (hevents.same .pwr (by decide)).trans ((emit_pwr ..).trans hcPwr)
  have hbit : Advanced .pwr (some 1) c (startEvents (emit c .pwr 7 .notice why (some 1))) :=
    (emit_advanced _ _ _ _ _ _ (by decide)).kept
      (startEvents_kept _ _ (by decide) (by decide) (by decide) (by decide) (by decide))
  exact ⟨by rw [hpwr, hb], by rw [hpwr, hb], (hevents.same .ctl (by decide)).trans ((emit_ctl ..).trans (Eq.trans hcCtl hbCtl)),
    hbit.bit 1 rfl (by decide)⟩

/-- R496, R497: a count that is recognised sets REF, the loops lock and the start goes on. -/
theorem startRef_of_ref {s : State} {i : StartIn} {r : BitVec 2} (href : refOf i.refCount = some r) :
    startRef s i = startLoops { s with clk := { s.clk with lastCount := i.refCount, countAt := s.now } } i r := by
  unfold startRef
  rw [href]

/-- R497: the loops lock; a Fatal latch ends the start, a junction that is too hot after a shutdown holds it (R513). -/
theorem startLoops_goes (s : State) (i : StartIn) (r : BitVec 2) :
    ∃ u : State, (u.clk.refSel = r ∧ u.clk.loops = Vector.replicate 4 { Loop.reset with locked := true }) ∧
      u.log.fatal = s.log.fatal ∧ (u.pwr.cause = s.pwr.cause ∧ u.glb = s.glb) ∧
      startLoops s i r = if u.log.fatal then modPwr u fun p => { p with phase := .fatalHold, start := none }
        else if u.pwr.cause.getLsbD 3 && decide (1600 ≤ i.junction.toInt) then hold u i .rom
        else startKeys u i :=
  ⟨{ s with clk := { s.clk with refSel := r, loops := Vector.replicate 4 { Loop.reset with locked := true } },
            hif := { s.hif with linkUp := i.pcie && i.gen != 0, gen := i.gen, width := i.width } },
    ⟨rfl, rfl⟩, rfl, ⟨rfl, rfl⟩, rfl⟩

theorem exec_refWaitRetry {s : State} {i : StartIn} (n : Nat) (hstart : s.pwr.start = some i)
    (hphase : s.pwr.phase = .waitRef) (hdue : s.clk.countAt + ticksMs 100 ≤ s.now) :
    exec (.refWaitRetry n) s = .next (startRef s { i with refCount := n }) := by
  change execRefWaitRetry n s = _
  unfold execRefWaitRetry
  simp [hstart, hphase, hdue]

theorem exec_porRelease {s : State} {i : StartIn} (h : s.pwr.thermDead = false ∨ i.rails = true) :
    exec (.porRelease i) s = .next (startRun s i false) := by
  change execPorRelease i s = _
  unfold execPorRelease
  rcases h with h | h <;> simp [h]

/-- Settles O25: each phase of a start goes on, waits or ends by its own cause. -/
theorem startsBegin : Obligations.StartsBegin := by
  refine ⟨?_, ?_, ?_, ?_, ?_, ?_, ?_, ?_, ?_, ?_⟩
  · intro s i hdead hlow
    have hreset := startReset_resets s i false
    have hrun : startRun s i false = hold (startReset s i false) i .reset := by
      unfold startRun
      dsimp only
      rw [hreset.pwrFailLow, hlow, if_pos rfl]
    generalize startReset s i false = a at hreset hrun
    exact ⟨_, (exec_porRelease (.inl hdead)).trans (congrArg Host.Outcome.next hrun), rfl, rfl, hreset.words,
      hreset.night, hreset.unbounded, hreset.warm⟩
  · intro s i hdead hlow hboot href
    have hrun : startRun s i false = startRef (startReset s i false) i := by
      unfold startRun startGo
      dsimp only
      rw [(startReset_resets s i false).pwrFailLow, hlow, if_neg hboot, if_neg (by decide)]
    exact ⟨_, (exec_porRelease (.inl hdead)).trans (congrArg Host.Outcome.next hrun), startRef_waits href⟩
  · intro s i hstart hphase
    change execPwrFailNHigh s = _
    unfold execPwrFailNHigh
    simp [modPwr, hstart, hphase]
  · intro s i n hstart hphase hdue
    exact exec_refWaitRetry n hstart hphase hdue
  · intro s i n r hstart hphase hdue href hfatal
    refine ⟨_, (exec_refWaitRetry n hstart hphase hdue).trans (congrArg Host.Outcome.next (startRef_of_ref href)), ?_⟩
    obtain ⟨u, hclk, hlog, -, hgo⟩ := startLoops_goes
      { s with clk := { s.clk with lastCount := n, countAt := s.now } } { i with refCount := n } r
    rw [hgo, if_pos (hlog.trans hfatal)]
    refine ⟨rfl, hclk.1, fun l => ?_⟩
    unfold loop
    rw [modPwr_clk, hclk.2, vget_lt _ _ _ l.isLt, Vector.getElem_replicate]
  · intro s i n r hstart hphase hdue href hfatal hcause hboot
    refine ⟨_, (exec_refWaitRetry n hstart hphase hdue).trans (congrArg Host.Outcome.next (startRef_of_ref href)), ?_⟩
    obtain ⟨u, -, hlog, hkept, hgo⟩ := startLoops_goes
      { s with clk := { s.clk with lastCount := n, countAt := s.now } } { i with refCount := n } r
    obtain ⟨hpwr, hglb⟩ := hkept
    have hclear : u.log.fatal = false := hlog.trans hfatal
    have hcold : u.pwr.cause.getLsbD 3 = false := (congrArg (BitVec.getLsbD · 3) hpwr).trans hcause
    rw [hgo, hclear, hcold, if_neg (by decide), Bool.false_and, if_neg (by decide)]
    unfold startKeys
    extract_lets ctl k d
    have hd := deriveFixed_only { u with key := { k with slots := [] }, ctl := { ctl with run := vset ctl.run 0 2 } }
    have hdGlb : d.glb = u.glb := hd.same .glb (by decide)
    have hdCtl : d.ctl.run = vset u.ctl.run 0 2 := congrArg Ctl.run (hd.same .ctl (by decide))
    clear_value d
    rw [if_pos (by rw [hdGlb, hglb]; exact hboot)]
    obtain ⟨hrec, hnone, hctl, hbit⟩ := enterRecovery_recovers d { i with refCount := n } 1
    refine ⟨hrec, hnone, ?_, hbit⟩
    unfold coreUp
    rw [hctl, hdCtl, vget_vset, if_pos ⟨rfl, by decide⟩]
    rfl
  · intro s i j hstart hphase hcool
    change execBootThermalHoldEnd j s = _
    unfold execBootThermalHoldEnd
    simp [hstart, hphase, hcool, modPwr]
  · intro s i u hset hdue hfail
    change execSoftReset i s = _
    unfold execSoftReset
    simp [hset, hdue, hfail]
  · intro s i h
    exact exec_porRelease h
  · intro s h
    change execPwrFailNHigh s = _
    unfold execPwrFailNHigh
    rcases h with h | h
    · simp [modPwr, h]
    · cases hstart : s.pwr.start <;> simp [modPwr, hstart, h]

end Sys2Proof.Proofs.Supplies
end

section
/-! The host rings' indices: which operations move them (12_host_rings.md R430 to R434, R439, R446). Writes to host memory,
interrupts and counters leave them; a record writes to the event ring alone. -/
-- One proof after another: the whole text is compiled in one process whose memory is bounded.
set_option Elab.async false
namespace Sys2Proof.Proofs.Rings
open Sys2Proof
open Sys2Proof.Machine
open Sys2Proof.Safety
open Sys2Proof.Laws

/-! ## One ring -/

theorem ring_of_only {L : List Part} {s t : State} (h : Only L s t) (q : Nat) (hrings : Part.rings ∉ L := by decide) :
    ring t q = ring s q := by
  unfold ring
  rw [(h.same .rings hrings).1]

theorem ring_modRing (s : State) (r q : Nat) (f : Ring → Ring) :
    ring (modRing s r f) q = if r = q ∧ r < 15 then f (ring s q) else ring s q := by
  unfold ring modRing
  rw [vget_vmod]

theorem ring_modRing_same (s : State) {r : Nat} (hr : r < 15) (f : Ring → Ring) : ring (modRing s r f) r = f (ring s r) := by
  rw [ring_modRing, if_pos ⟨rfl, hr⟩]

theorem ring_modRing_other (s : State) {r q : Nat} (hne : q ≠ r) (f : Ring → Ring) : ring (modRing s r f) q = ring s q := by
  rw [ring_modRing, if_neg fun h => hne h.1.symm]

/-- R451: an interrupt reaches the pending bits, not the indices. -/
theorem ring_fireSrc (s : State) (src q : Nat) : ring (fireSrc s src) q = ring s q := by
  have hvec : ∀ v, ring (fireVec s v) q = ring s q := fun v => by
    have hcount := ring_of_only (perfAdd_only s 337 1) q
    unfold fireVec
    extract_lets a
    split
    · split
      · exact hcount
      · exact hcount
    · exact (ring_of_only (tunnelUp_only ..) q).trans hcount
  unfold fireSrc
  extract_lets w
  split
  · exact hvec _
  · rfl

theorem ring_ringAdvance_same (s : State) {r : Nat} (hr : r < 15) (n : Nat) :
    ring (ringAdvance s r n) r = { ring s r with eng := (ring s r).eng + BitVec.ofNat 32 n } := by
  unfold ringAdvance
  rw [ring_of_only (perfAdd_only ..), ring_modRing_same s hr]

theorem ring_ringAdvance_other (s : State) {r q : Nat} (hne : q ≠ r) (n : Nat) : ring (ringAdvance s r n) q = ring s q := by
  unfold ringAdvance
  rw [ring_of_only (perfAdd_only ..), ring_modRing_other s hne]

/-- R433, R452: the write-back moderates its own ring's interrupt; no index moves. -/
theorem ring_ringNotify (s : State) (r count q : Nat) :
    (ring (ringNotify s r count) q).eng = (ring s q).eng ∧ (q ≠ r → ring (ringNotify s r count) q = ring s q) := by
  unfold ringNotify ringNotifyAt
  extract_lets a k c cfg
  have ha : ring a q = ring s q := ring_of_only (hostDma_only ..) q
  clear_value a
  have hmod : ∀ f : Ring → Ring, (∀ x, (f x).eng = x.eng) → (ring (modRing a r f) q).eng = (ring s q).eng ∧
      (q ≠ r → ring (modRing a r f) q = ring s q) := fun f hf => by
    refine ⟨?_, fun hne => (ring_modRing_other a hne f).trans ha⟩
    rw [ring_modRing, ← ha]
    split
    · exact hf _
    · rfl
  split
  · exact ⟨by rw [ha], fun _ => ha⟩
  · split
    · rw [ring_fireSrc]
      exact hmod _ fun _ => rfl
    · exact hmod _ fun _ => rfl

/-! ## A record reaches the event ring alone -/

/-- Every ring but the event ring is as before. -/
structure EventRingOnly (s t : State) : Prop where
  same : ∀ q, q ≠ 8 → ring t q = ring s q

theorem EventRingOnly.refl (s : State) : EventRingOnly s s := ⟨fun _ _ => rfl⟩

theorem EventRingOnly.ite {s a b : State} {c : Prop} [Decidable c] (ha : EventRingOnly s a) (hb : EventRingOnly s b) :
    EventRingOnly s (if c then a else b) := by
  split
  · exact ha
  · exact hb

theorem EventRingOnly.trans {s t u : State} (h : EventRingOnly s t) (k : EventRingOnly t u) : EventRingOnly s u :=
  ⟨fun q hq => (k.same q hq).trans (h.same q hq)⟩

theorem EventRingOnly.only {L : List Part} {s t : State} (h : Only L s t) (hrings : Part.rings ∉ L := by decide) :
    EventRingOnly s t := ⟨fun q _ => ring_of_only h q hrings⟩

theorem evWrite_eventRingOnly (s : State) (r : Rec) : EventRingOnly s (evWrite s r) := by
  refine ⟨fun q hq => ?_⟩
  unfold evWrite ringPut
  rw [(ring_ringNotify _ 8 1 q).2 hq, ring_ringAdvance_other _ hq, ring_of_only (hostDma_only ..)]
  rfl

theorem blkIrq_eventRingOnly (s : State) (b : Blk) : EventRingOnly s (blkIrq s b) := by
  refine ⟨fun q _ => ?_⟩
  unfold blkIrq
  extract_lets k free
  split
  · rw [ring_fireSrc]
    rfl
  · rfl

theorem drainPend_eventRingOnly (n : Nat) (s : State) : EventRingOnly s (drainPend n s) := by
  induction n generalizing s with
  | zero => exact EventRingOnly.refl s
  | succ n ih =>
    unfold drainPend
    split
    · exact EventRingOnly.refl s
    · next r rest _ =>
      exact EventRingOnly.ite ((EventRingOnly.only (set_log_only s { s.log with pend := rest })).trans
        ((evWrite_eventRingOnly ..).trans (ih _))) (EventRingOnly.refl s)

theorem drainCoal_eventRingOnly (n : Nat) (s : State) : EventRingOnly s (drainCoal n s) := by
  induction n generalizing s with
  | zero => exact EventRingOnly.refl s
  | succ n ih =>
    unfold drainCoal
    split
    · exact EventRingOnly.refl s
    · next c rest _ =>
      split
      · have hlog := EventRingOnly.only (set_log_only s { s.log with coal := rest })
        exact hlog.trans ((EventRingOnly.only (histPut_only ..)).trans ((EventRingOnly.only (figFault_only ..)).trans
          ((evWrite_eventRingOnly ..).trans (ih _))))
      · exact EventRingOnly.refl s

theorem evDrain_eventRingOnly (s : State) : EventRingOnly s (evDrain s) := by
  unfold evDrain
  extract_lets d k u r v
  have hu : EventRingOnly s u :=
    (EventRingOnly.only (set_log_only s { s.log with newNd := 0, newSf := 0 })).trans (EventRingOnly.only (seqAdvance_only ..))
  have hv : EventRingOnly s v := EventRingOnly.ite (EventRingOnly.refl s)
    (hu.trans ((EventRingOnly.only (histPut_only ..)).trans ((EventRingOnly.only (figFault_only ..)).trans
      ((evWrite_eventRingOnly ..).trans (blkIrq_eventRingOnly ..)))))
  exact EventRingOnly.ite (hv.trans ((drainPend_eventRingOnly ..).trans (drainCoal_eventRingOnly ..)))
    (drainPend_eventRingOnly ..)

theorem evRoute_eventRingOnly (s : State) (r : Rec) : EventRingOnly s (evRoute s r) := by
  have hpend : EventRingOnly s (pendPut s r) := EventRingOnly.only (pendPut_only ..)
  have hcoal : EventRingOnly s (coalPut s r) := EventRingOnly.only (coalPut_only ..)
  have hwrite := evWrite_eventRingOnly s r
  unfold evRoute
  split
  · split <;> assumption
  · split
    · exact EventRingOnly.refl s
    · split
      · split <;> assumption
      · split <;> assumption

theorem emitCore_eventRingOnly (s : State) (b : Blk) (code : Nat) (base : Cls) (detail : Nat) (bit : Option Nat) :
    EventRingOnly s (emitCore s b code base detail bit) := by
  unfold emitCore
  extract_lets a esc cls t r u v w
  have hu : EventRingOnly s u :=
    ((evDrain_eventRingOnly s).trans (EventRingOnly.only (seqAdvance_only ..))).trans (EventRingOnly.only (histPut_only ..))
  have hv : EventRingOnly s v := by
    unfold v
    split
    · exact hu.trans (EventRingOnly.only (modBlk_only ..))
    · exact hu
  have hw : EventRingOnly s w := by
    unfold w
    split
    · exact hv
    · exact hv.trans (EventRingOnly.only (figFault_only ..))
  exact ((hw.trans (evRoute_eventRingOnly w r)).trans (EventRingOnly.only (faultEffects_only ..))).trans (blkIrq_eventRingOnly ..)

theorem panLog_eventRingOnly (s : State) (type sub aux data : Nat) : EventRingOnly s (panLog s type sub aux data) := by
  unfold panLog
  split
  · exact EventRingOnly.only (panAppend_only ..)
  · split
    · exact EventRingOnly.refl s
    · exact (EventRingOnly.only (set_pan_only s { s.pan with full := true })).trans (emitCore_eventRingOnly ..)

theorem demote_eventRingOnly (s : State) : EventRingOnly s (demote s) := by
  unfold demote
  split
  · have hnoted : EventRingOnly s { s with pair := { s.pair with demotedAt := some s.now } } := ⟨fun _ _ => rfl⟩
    exact hnoted.trans ((EventRingOnly.only (modFig_only ..)).trans ((EventRingOnly.only (lineRelease_only _)).trans
      ((emitCore_eventRingOnly ..).trans (panLog_eventRingOnly ..))))
  · exact EventRingOnly.refl s

theorem emit_eventRingOnly (s : State) (b : Blk) (code : Nat) (base : Cls) (detail : Nat) (bit : Option Nat) :
    EventRingOnly s (emit s b code base detail bit) := by
  unfold emit
  extract_lets before t severe
  have ht : EventRingOnly s t := emitCore_eventRingOnly ..
  clear_value t
  split
  · exact ht.trans (demote_eventRingOnly t)
  · exact ht

end Sys2Proof.Proofs.Rings
end

section
/-! Commands taken from their rings, completions written, interrupts fired (12_host_rings.md R433, R438 to R443, R452, R455). -/
-- One proof after another: the whole text is compiled in one process whose memory is bounded.
set_option Elab.async false
namespace Sys2Proof.Proofs.CommandRings
open Sys2Proof
open Sys2Proof.Machine
open Sys2Proof.Safety
open Sys2Proof.Laws
open Sys2Proof.Proofs.Records
open Sys2Proof.Proofs.Rings

/-- R560: counting changes the counters alone. -/
theorem perfAdd_eq (s : State) (i n : Nat) : ∃ p, perfAdd s i n = { s with perf := p } := by
  unfold perfAdd
  extract_lets v q p
  split
  · exact ⟨s.perf, rfl⟩
  · split
    · exact ⟨_, rfl⟩
    · split
      · exact ⟨_, rfl⟩
      · exact ⟨_, rfl⟩

/-- R433: on a PCIe engine a write to host memory is one transfer. -/
theorem hostDma_pcie {s : State} (hpcie : s.glb.pcie = true) (addr : Nat) (data : List Byte) :
    (hostDma s addr data).out = .dma addr data :: s.out ∧
    hostDma s addr data = { s with out := (hostDma s addr data).out, perf := (hostDma s addr data).perf } := by
  obtain ⟨p, hp⟩ := perfAdd_eq s 336 1
  have hdma : hostDma s addr data = emitOut { s with perf := p } (.dma addr data) := by
    unfold hostDma
    rw [hp]
    exact if_pos hpcie
  rw [hdma]
  exact ⟨rfl, rfl⟩

/-- R435, R455: the doorbells of a ring move its host index alone. -/
theorem ring_takeDoorbells (s : State) {r q : Nat} (hne : q ≠ r) : ring (takeDoorbells s r) q = ring s q := by
  unfold takeDoorbells
  split
  · rfl
  · next h =>
    clear h
    generalize doorbellsOf s r = l
    induction l generalizing s with
    | nil => rfl
    | cons v l ih =>
      rw [List.foldl_cons, ih]
      split
      · exact ring_modRing_other s hne _
      · rfl

theorem takeDoorbells_quiet {s : State} (hquiet : s.pending = []) (r : Nat) : takeDoorbells s r = s := by
  unfold takeDoorbells doorbellsOf
  rw [hquiet]
  split <;> rfl

/-! ## COMMAND_FETCH (R438, R441, R443) -/

/-- The descriptor's header (R438). -/
def descHdr (ring_ : Fin 4) (desc : BitVec 256) : Hdr :=
  { ring := ring_, tag := BitVec.ofNat 16 (descByte desc 2 + 256 * descByte desc 3), noirq := (descByte desc 1).testBit 1 }

/-- The state in which a descriptor has been read and the ring's index has moved past it. -/
def taken (u : State) (ring_ : Fin 4) : State :=
  ringNotify (ringAdvance (ringReads (modHif u fun h => { h with turn := ring_ }) ring_.val 1) ring_.val 1) ring_.val 0

theorem taken_only (u : State) (ring_ : Fin 4) :
    Only [.out, .links, .lnk, .rings, .cnt] (modHif u fun h => { h with turn := ring_ }) (taken u ring_) :=
  Only.step (Only.step (Only.mono (ringReads_only ..) (by decide)) (ringAdvance_only ..) (by decide)) (ringNotify_only ..) (by decide)

theorem taken_eng (u : State) (ring_ : Fin 4) : (ring (taken u ring_) ring_.val).eng = (ring u ring_.val).eng + 1 := by
  unfold taken
  rw [(ring_ringNotify _ ring_.val 0 ring_.val).1, ring_ringAdvance_same _ (by omega), ring_of_only (ringReads_only ..)]
  rfl

/-- What the taking of a descriptor leaves, from the state before the doorbells of the tick. -/
theorem taken_takeDoorbells (s : State) (ring_ : Fin 4) :
    (ring (taken (takeDoorbells s (4 + ring_.val)) ring_) ring_.val).eng = (ring s ring_.val).eng + 1 ∧
    (taken (takeDoorbells s (4 + ring_.val)) ring_).hif.inflight = s.hif.inflight ∧
    (taken (takeDoorbells s (4 + ring_.val)) ring_).hif.done = s.hif.done ∧
    (taken (takeDoorbells s (4 + ring_.val)) ring_).hif.turn = ring_ ∧
    (taken (takeDoorbells s (4 + ring_.val)) ring_).words = s.words ∧
    (taken (takeDoorbells s (4 + ring_.val)) ring_).tco = s.tco := by
  have hbells := takeDoorbells_only s (4 + ring_.val)
  have hring := ring_takeDoorbells s (r := 4 + ring_.val) (q := ring_.val) (by omega)
  generalize takeDoorbells s (4 + ring_.val) = u at hbells hring
  have htaken := taken_only u ring_
  have hhif : (taken u ring_).hif = _ := htaken.same .hif (by decide)
  have hhif' : u.hif = _ := hbells.same .hif (by decide)
  refine ⟨by rw [taken_eng, hring], ?_, ?_, ?_, ?_, ?_⟩
  · rw [hhif, modHif_hif, hhif']
  · rw [hhif, modHif_hif, hhif']
  · rw [hhif, modHif_hif]
  · exact (htaken.same .words (by decide)).trans (hbells.same .words (by decide))
  · exact (htaken.same .tco (by decide)).trans (hbells.same .tco (by decide))

/-- R443, R456: a malformed descriptor is counted and recorded. -/
theorem hifMalformed_keeps (s : State) (r op tag : Nat) :
    EventRingOnly s (hifMalformed s r op tag) ∧ (hifMalformed s r op tag).hif.inflight = s.hif.inflight := by
  unfold hifMalformed
  extract_lets c a
  have ha : a.hif.rings = s.hif.rings ∧ a.hif.inflight = s.hif.inflight := ⟨rfl, rfl⟩
  clear_value a
  have hcount : EventRingOnly s a := ⟨fun q _ => by unfold ring; rw [ha.1]⟩
  have hhif : (emit a .hif 1 .notice (r + op * 256 + tag * 65536) (some 0)).hif = _ := (emit_only ..).same .hif (by decide)
  exact ⟨hcount.trans (emit_eventRingOnly ..), (congrArg Hif.inflight hhif).trans ha.2⟩

/-- R441: a ring whose turn it is gives its descriptor. -/
theorem exec_commandFetch {ring_ : Fin 4} {desc : BitVec 256} {s u : State} (hu : u = takeDoorbells s (4 + ring_.val))
    (hphase : s.pwr.phase = .ready ∧ ringAhead u ring_ = false ∨ s.pwr.phase = .recovery ∧ ring_ = 0)
    (hoffers : ringOffers u ring_ = true) (hfence : (descByte desc 1).testBit 0 = false ∨ ringTaken u ring_ = 0) :
    exec (.commandFetch ring_ desc) s = .next (if cmdMalformed desc then
        modHif (hifMalformed (taken u ring_) ring_.val (descByte desc 0) (descByte desc 2 + 256 * descByte desc 3)) fun h =>
          { h with done := h.done ++ [{ hd := descHdr ring_ desc, op := BitVec.ofNat 8 (descByte desc 0),
                                        status := Status.malformed, rlen := 0, result := 0 }] }
      else modHif (taken u ring_) fun h => { h with inflight := h.inflight ++ [(descHdr ring_ desc, BitVec.ofNat 8 (descByte desc 0))] }) := by
  have hpwr : u.pwr.phase = s.pwr.phase := by
    rw [hu]
    exact congrArg Pwr.phase ((takeDoorbells_only ..).same .pwr (by decide))
  have hruns : (!(u.pwr.phase = .ready || (u.pwr.phase = .recovery && ring_.val = 0))) = false := by
    rw [hpwr]
    rcases hphase with ⟨h, -⟩ | ⟨h, rfl⟩ <;> rw [h] <;> rfl
  have hahead : (decide (u.pwr.phase = .ready) && ringAhead u ring_) = false := by
    rw [hpwr]
    rcases hphase with ⟨-, h⟩ | ⟨h, -⟩ <;> rw [h]
    · exact Bool.and_false _
    · rfl
  have hheld : ((descByte desc 1).testBit 0 && decide (descByte desc 1 < 4) && decide (0 < ringTaken u ring_)) = false := by
    rcases hfence with h | h <;> rw [h]
    · rfl
    · exact Bool.and_false _
  change execCommandFetch ring_ desc s = _
  unfold execCommandFetch
  dsimp only
  rw [← hu]
  rw [hruns, hoffers, hahead, hheld, if_neg (by decide), if_neg (by decide)]
  rfl

/-! ## COMMAND_COMPLETE (R439, R440) -/

theorem cplNeed_cases (s : State) (d : Done) : cplNeed s d = 1 ∨ cplNeed s d = 2 ∨ cplNeed s d = 3 := by
  unfold cplNeed
  extract_lets r
  split
  · exact .inl rfl
  · split
    · exact .inr (.inr rfl)
    · exact .inr (.inl rfl)

/-- R439, R440: the completion's entries, a SKIP entry at the wrap counted, and no more. -/
theorem cplWrite_eng (s : State) (d : Done) :
    (ring (cplWrite s d) (4 + d.hd.ring.val)).eng = (ring s (4 + d.hd.ring.val)).eng + BitVec.ofNat 32 (cplNeed s d) := by
  have hr : 4 + d.hd.ring.val < 15 := by omega
  have hput : ∀ (u : State) (a : Nat) (l : List Byte) (n : Nat),
      (ring (ringAdvance (hostDma u a l) (4 + d.hd.ring.val) n) (4 + d.hd.ring.val)).eng =
        (ring u (4 + d.hd.ring.val)).eng + BitVec.ofNat 32 n := fun u a l n => by
    rw [ring_ringAdvance_same _ hr, ring_of_only (hostDma_only ..)]
  unfold cplWrite
  extract_lets r n a b
  rw [(ring_ringNotify b r _ r).1, hput]
  have hn : n = 1 ∨ n = 2 ∨ n = 3 := cplNeed_cases s d
  have ha : (ring a r).eng = (ring s r).eng + BitVec.ofNat 32 (n - min n 2) := by
    unfold a
    split
    · next h => rw [hput, h]; rfl
    · next h =>
      have hmin : n - min n 2 = 0 := by omega
      rw [hmin]
      exact (BitVec.add_zero _).symm
  rw [ha, BitVec.add_assoc, ← BitVec.ofNat_add]
  congr 2
  omega

theorem exec_commandComplete {s u : State} {i : Nat} {d : Done} (hu : u = [4, 5, 6, 7].foldl takeDoorbells s)
    (hfind : u.hif.done.findIdx? (cplReady u) = some i) (hget : u.hif.done[i]? = some d) :
    exec .commandComplete s = .next (cplTimers (cplWrite { u with hif := { u.hif with done := u.hif.done.eraseIdx i } } d) d) := by
  change execCommandComplete s = _
  unfold execCommandComplete
  rw [← hu]
  dsimp only
  rw [hfind]
  dsimp only
  rw [hget]
  rfl

/-- R439: what the writing of a completion leaves. -/
theorem cplTimers_cplWrite (s : State) (d : Done) :
    (cplTimers (cplWrite s d) d).hif.done = s.hif.done ∧ (cplTimers (cplWrite s d) d).hif.inflight = s.hif.inflight ∧
    (ring (cplTimers (cplWrite s d) d) (4 + d.hd.ring.val)).eng =
      (ring s (4 + d.hd.ring.val)).eng + BitVec.ofNat 32 (cplNeed s d) ∧
    (cplTimers (cplWrite s d) d).words = s.words ∧ (cplTimers (cplWrite s d) d).tco = s.tco ∧
    (cplTimers (cplWrite s d) d).log = s.log := by
  have heng := cplWrite_eng s d
  have hwrite := cplWrite_only s d
  generalize cplWrite s d = x at heng hwrite
  have htimers := cplTimers_only x d
  have hhif : (cplTimers x d).hif = _ := htimers.same .hif (by decide)
  have hhif' : x.hif = _ := hwrite.same .hif (by decide)
  refine ⟨?_, ?_, ?_, ?_, ?_, ?_⟩
  · rw [hhif, hhif']
  · rw [hhif, hhif']
  · rw [ring_of_only htimers, heng]
  · exact (htimers.same .words (by decide)).trans (hwrite.same .words (by decide))
  · exact (htimers.same .tco (by decide)).trans (hwrite.same .tco (by decide))
  · exact (htimers.same .log (by decide)).trans (hwrite.same .log (by decide))

/-- R452: a block whose holdoff has ended fires, and is held off anew. -/
theorem blkStat_blkIrq {s : State} {b : Blk} (hfree : (blkStat s b).irqUntil = none) :
    blkStat (blkIrq s b) b = { blkStat s b with irqUntil := some (s.now + ticksUs 10), irqPend := false } := by
  have hlog : ∀ y src, blkStat (fireSrc y src) b = blkStat y b := fun y src => by
    unfold blkStat
    rw [show (fireSrc y src).log = y.log from (fireSrc_only ..).same .log (by decide)]
  unfold blkIrq
  dsimp only
  rw [hfree]
  dsimp only
  rw [if_pos rfl, hlog, blkStat_modBlk, if_pos rfl]

/-- Settles O13: each clause is one step of the path from ring to completion. -/
theorem commandPath : Obligations.CommandPath := by
  refine ⟨fun s addr data hpcie => hostDma_pcie hpcie addr data, ?_, ⟨?_, ?_⟩, ?_, ?_⟩
  · intro ring_ desc s u hu hphase hoffers hfence
    have hexec := exec_commandFetch (desc := desc) hu hphase hoffers hfence
    obtain ⟨heng, hinflight, hdone, hturn, hwords, htco⟩ := taken_takeDoorbells s ring_
    rw [← hu] at heng hinflight hdone hturn hwords htco
    generalize taken u ring_ = x at hexec heng hinflight hdone hturn hwords htco
    constructor
    · intro hgood
      rw [hgood, if_neg (by decide)] at hexec
      refine ⟨_, hexec, ?_, heng, hturn, hdone, hwords, htco⟩
      rw [modHif_hif, hinflight]
      rfl
    · intro hbad
      rw [hbad, if_pos rfl] at hexec
      obtain ⟨hrings, hflight⟩ :=
        hifMalformed_keeps x ring_.val (descByte desc 0) (descByte desc 2 + 256 * descByte desc 3)
      have hring := hrings.same ring_.val (by omega)
      have hmal := hifMalformed_only x ring_.val (descByte desc 0) (descByte desc 2 + 256 * descByte desc 3)
      generalize hifMalformed x ring_.val (descByte desc 0) (descByte desc 2 + 256 * descByte desc 3) = y at hexec hring hmal hflight hrings
      refine ⟨_, hexec, hflight.trans hinflight, ⟨0, 0, ?_⟩, ?_, (hmal.same .words (by decide)).trans hwords,
        (hmal.same .tco (by decide)).trans htco⟩
      · rw [modHif_hif, List.getLast?_append]
        rfl
      · exact (congrArg Ring.eng hring).trans heng
  · exact fun s u i d => exec_commandComplete
  · intro s d rest hquiet hdone hready
    have hbells : [4, 5, 6, 7].foldl takeDoorbells s = s := by
      simp only [List.foldl_cons, List.foldl_nil, takeDoorbells_quiet hquiet]
    have hfind : s.hif.done.findIdx? (cplReady s) = some 0 := by rw [hdone, List.findIdx?_cons, hready]; rfl
    have hexec := exec_commandComplete hbells.symm hfind (by rw [hdone]; rfl)
    obtain ⟨hrest, hinflight, heng, hwords, htco, hlog⟩ :=
      cplTimers_cplWrite { s with hif := { s.hif with done := s.hif.done.eraseIdx 0 } } d
    exact ⟨_, hexec, by rw [hrest, hdone]; rfl, hinflight, heng, hwords, htco, hlog⟩
  · intro r s t0 hsince hdue
    refine ⟨_, ?_, rfl, ?_, ?_⟩
    · change execModTimeExpiry r s = _
      unfold execModTimeExpiry
      rw [hsince]
      exact congrArg Host.Outcome.next (if_pos hdue)
    · rw [ring_fireSrc, ring_modRing_same s r.isLt]
    · rw [ring_fireSrc, ring_modRing_same s r.isLt]
  · intro b s u huntil hdue
    have hexec : exec (.blockIrqHoldoffEnd b) s = .next (if (blkStat s b).irqPend then
        blkIrq (modBlk s b fun k => { k with irqUntil := none, irqPend := false }) b
        else modBlk s b fun k => { k with irqUntil := none, irqPend := false }) := by
      change execBlockIrqHoldoffEnd b s = _
      unfold execBlockIrqHoldoffEnd
      rw [huntil]
      exact congrArg Host.Outcome.next (if_pos hdue)
    have hended : blkStat (modBlk s b fun k => { k with irqUntil := none, irqPend := false }) b =
        { blkStat s b with irqUntil := none, irqPend := false } := by rw [blkStat_modBlk, if_pos rfl]
    constructor
    · intro hpend
      rw [hpend, if_neg (by decide)] at hexec
      exact ⟨_, hexec, by rw [hended]⟩
    · intro hpend
      rw [hpend, if_pos rfl] at hexec
      refine ⟨_, hexec, ?_⟩
      have hnow : (modBlk s b fun k => { k with irqUntil := none, irqPend := false }).now = s.now := rfl
      generalize modBlk s b (fun k => { k with irqUntil := none, irqPend := false }) = x at hended hnow
      rw [blkStat_blkIrq (by rw [hended]), hnow]
      exact ⟨rfl, rfl⟩

end Sys2Proof.Proofs.CommandRings
end

section
/-! Doorbells, the rise of EN and a Function Level Reset (12_host_rings.md R434 to R437, R454, R455). -/
-- One proof after another: the whole text is compiled in one process whose memory is bounded.
set_option Elab.async false
namespace Sys2Proof.Proofs.Doorbells
open Sys2Proof
open Sys2Proof.Machine
open Sys2Proof.Safety
open Sys2Proof.Laws
open Sys2Proof.Proofs.Ticks
open Sys2Proof.Proofs.Accesses
open Sys2Proof.Proofs.Records
open Sys2Proof.Proofs.Rings
open Sys2Proof.Proofs.CommandRings

/-! ## Doorbells (R435 to R437) -/

theorem dbRing_lt {g off r : Nat} (hg : g < 4) (h : dbRing g off = some r) : r < 15 := by
  unfold dbRing at h
  split at h <;> simp only [Option.ite_none_right_eq_some, Option.some.injEq, reduceCtorEq] at h <;> omega

/-- R435: a doorbell that acts is judged as before it is counted. -/
theorem applyDoorbell_of_runs {s : State} {r : Nat} (hen : ringEn s r = true) (hcut : ringCutWaits s r = false) (v : BitVec 32) :
    applyDoorbell s r v = if dbOk s r v then
        (let u := modRing (perfAdd s 338 1) r fun k => { k with host := v }
         if r = 8 then evDrain u else if r = 10 then sampleDrain u else u)
      else dbRange (perfAdd s 338 1) (ownSlot (perfAdd s 338 1)) r v := by
  obtain ⟨p, hp⟩ := perfAdd_eq s 338 1
  have hen' : ringEn (perfAdd s 338 1) r = true := by rw [hp]; exact hen
  have hcut' : ringCutWaits (perfAdd s 338 1) r = false := by rw [hp]; exact hcut
  have hok : dbOk (perfAdd s 338 1) r v = dbOk s r v := by rw [hp]; rfl
  unfold applyDoorbell
  dsimp only
  rw [hen', hcut', hok]
  rfl

theorem exec_doorbell {s : State} {off : Nat} (hpcie : s.glb.pcie = true) (hlink : s.hif.linkUp = true)
    (hup : regUp s .hif = true) (hoff : off < 0x100000) (v : BitVec 32) :
    exec (.doorbell off v) s = .next (match dbRing (off / 0x1000 % 4) (off % 0x1000) with
      | none => modHif s fun h => { h with cnt := vmod h.cnt 1 (· + 1) }
      | some r => if off / 0x4000 = 0 then applyDoorbell s r v else forwardDoorbell s (off / 0x4000) r v) := by
  change execDoorbell off v s = _
  unfold execDoorbell
  rw [hostLink_eq hpcie hlink, hup, decide_eq_false (by omega)]
  rfl

/-- R435, R456: a bad value is counted and recorded; the rings but the event ring stand. -/
theorem dbRange_keeps (s : State) (slot r : Nat) (v : BitVec 32) :
    EventRingOnly s (dbRange s slot r v) ∧ (dbRange s slot r v).hif.cnt = vmod s.hif.cnt 1 (· + 1) ∧
    (blkStat (dbRange s slot r v) .hif).seq = (blkStat s .hif).seq + 1 := by
  unfold dbRange
  have ha : (modHif s fun h => { h with cnt := vmod h.cnt 1 (· + 1) }).hif.cnt = vmod s.hif.cnt 1 (· + 1) := rfl
  have hring : EventRingOnly s (modHif s fun h => { h with cnt := vmod h.cnt 1 (· + 1) }) := ⟨fun _ _ => rfl⟩
  have hstat : StatKept .hif s (modHif s fun h => { h with cnt := vmod h.cnt 1 (· + 1) }) := StatKept.ofLog rfl
  generalize (modHif s fun h => { h with cnt := vmod h.cnt 1 (· + 1) }) = a at ha hring hstat
  have hhif : (emit a .hif 2 .notice (slot + r * 256 + v.toNat * 2 ^ 32) (some 1)).hif = _ := (emit_only ..).same .hif (by decide)
  exact ⟨hring.trans (emit_eventRingOnly ..), (congrArg Hif.cnt hhif).trans ha,
    (Advanced.after hstat (emit_advanced a _ _ _ _ _ (by decide))).seq⟩

/-! ## The rise of EN (R434) -/

theorem ringEn_of_word {s t : State} {r : Nat} (h : getW t (indKey .hif 1 (8 * r + 4)) = getW s (indKey .hif 1 (8 * r + 4))) :
    ringEn t r = ringEn s r := by
  unfold ringEn ringWord ind
  rw [h]

/-- The row of a ring's word 4: SIZE_LOG of 6 to 16 and EN. -/
theorem keyDef_ringWord (r : Fin 15) : keyDef (indKey .hif 1 (8 * r.val + 4)) =
    some ⟨6, [⟨4, 0, .rng 6 16⟩, ⟨8, 8, .any⟩], false, false⟩ := by
  revert r
  decide

/-- What the word stores of EN and a size in its range. -/
theorem store_ringWord {size : Nat} (hlo : 6 ≤ size) (hhi : size ≤ 16) :
    WordDef.store ⟨6, [⟨4, 0, .rng 6 16⟩, ⟨8, 8, .any⟩], false, false⟩ (BitVec.ofNat 32 (256 + size)) = BitVec.ofNat 32 (256 + size) ∧
    (BitVec.ofNat 32 (256 + size)).getLsbD 8 = true ∧ fld (BitVec.ofNat 32 (256 + size)).toNat 4 0 = size := by
  interval_cases size <;> decide

theorem exec_ringEnable {s : State} (hpcie : s.glb.pcie = true) (hlink : s.hif.linkUp = true) (hup : regUp s .hif = true)
    (r : Fin 15) (word : Word) : exec (.ringEnable r word) s = .next (storeWord s (indKey .hif 1 (8 * r.val + 4)) word) := by
  change execRingEnable r word s = _
  unfold execRingEnable
  rw [hostLink_eq hpcie hlink, hup]
  rfl

/-- R434: with EN 0 before, the word is stored and both indices start at 0. -/
theorem ringEnable_rise {s : State} {r : Fin 15} {w : Word} (hrings : r.val ≠ 8 ∧ r.val ≠ 10) (hen : ringEn s r.val = false)
    (v : Word) (hstore : WordDef.store ⟨6, [⟨4, 0, .rng 6 16⟩, ⟨8, 8, .any⟩], false, false⟩ v = w) (hw : w.getLsbD 8 = true) :
    ringEnable s r.val v = modRing (putW s (indKey .hif 1 (8 * r.val + 4)) w) r.val fun _ => Ring.reset := by
  have hold : (getW s (indKey .hif 1 (8 * r.val + 4))).getLsbD 8 = false := hen
  unfold ringEnable
  extract_lets k old
  rw [keyDef_ringWord]
  dsimp only
  rw [show old.getLsbD 8 = false from hold, hstore, hw, if_neg (by decide), if_pos rfl, if_neg hrings.1, if_neg hrings.2]

/-- A write of a ring's word 4 by the host of an engine that is no standby and mirrors nothing (R373, R377). -/
theorem storeWord_ring {s t : State} (hheld : standbyHeld s = false) (r : Fin 15) (v : Word) (ht : ringEnable s r.val v = t)
    (hmirror : mirrorOn t = false) : storeWord s (indKey .hif 1 (8 * r.val + 4)) v = t := by
  have hspan : (decide (indKey .hif 1 0 ≤ indKey .hif 1 (8 * r.val + 4)) && decide (indKey .hif 1 (8 * r.val + 4) < indKey .hif 1 120)) = true := by
    rw [Bool.and_eq_true]
    exact ⟨decide_eq_true (by unfold indKey; omega), decide_eq_true (by unfold indKey; omega)⟩
  have hindex : indKey .hif 1 (8 * r.val + 4) - indKey .hif 1 0 = 8 * r.val + 4 := by
    simp only [indKey, Blk.id]
    omega
  have hwrite : ringWrite s (8 * r.val + 4) v = t := by
    unfold ringWrite
    rw [show (8 * r.val + 4) / 8 = r.val by omega, show (8 * r.val + 4) % 8 = 4 by omega]
    exact ht
  unfold storeWord
  rw [hheld, hspan, hindex]
  dsimp only
  rw [if_neg (by simp), if_pos rfl, hwrite, hmirror]
  rfl

/-! ## A reset of every ring (R454) -/

/-- R454: the words of a ring after its EN is taken. -/
theorem ringEn_cut {s : State} (hform : wordsCanonical s = true) (r q : Nat) :
    ringEn (putW s (indKey .hif 1 (8 * r + 4)) (getW s (indKey .hif 1 (8 * r + 4)) &&& 0x1F)) q = if q = r then false else ringEn s q := by
  split
  · next h =>
    subst h
    have hcut : ∀ w : Word, (w &&& 0x1F).toNat.testBit 8 = false := fun w => by
      change (w &&& 0x1F).getLsbD 8 = false
      rw [BitVec.getLsbD_and]
      exact Bool.and_false _
    unfold ringEn ringWord ind
    rw [getW_putW_same hform, hcut]
  · next h =>
    exact ringEn_of_word (getW_putW_other s _ (by simp only [indKey]; omega))

theorem ringsCut {s : State} (hform : wordsCanonical s = true) (l : List Nat) :
    wordsCanonical (l.foldl (fun s r => putW s (indKey .hif 1 (8 * r + 4)) (getW s (indKey .hif 1 (8 * r + 4)) &&& 0x1F)) s) = true ∧
    ∀ q, (q ∈ l ∨ ringEn s q = false) →
      ringEn (l.foldl (fun s r => putW s (indKey .hif 1 (8 * r + 4)) (getW s (indKey .hif 1 (8 * r + 4)) &&& 0x1F)) s) q = false := by
  induction l generalizing s with
  | nil => exact ⟨hform, fun q h => h.resolve_left (List.not_mem_nil)⟩
  | cons r l ih =>
    obtain ⟨hform', hcut⟩ := ih (wordsCanonical_putW hform (indKey .hif 1 (8 * r + 4)) (getW s (indKey .hif 1 (8 * r + 4)) &&& 0x1F))
    refine ⟨hform', fun q hq => hcut q ?_⟩
    rw [ringEn_cut hform]
    rcases hq with hq | hq
    · rcases List.mem_cons.mp hq with rfl | hq
      · exact .inr (if_pos rfl)
      · exact .inl hq
    · exact .inr (by rw [hq]; exact ite_self false)

/-- Words whose keys a reset drops read as their default, and no other word changes. -/
theorem aget_filter {α : Type} (d : α) (l : List (Nat × α)) (drop : Nat → Bool) (x : Nat) :
    aget d (l.filter fun p => !drop p.1) x = if drop x then d else aget d l x := by
  induction l with
  | nil => exact (ite_self d).symm
  | cons p l ih =>
    obtain ⟨k, v⟩ := p
    by_cases hk : drop k = true
    · rw [List.filter_cons_of_neg (by simp [hk]), ih]
      by_cases hx : k = x
      · subst hx; rw [if_pos hk, if_pos hk]
      · rw [aget, if_neg hx]
    · rw [List.filter_cons_of_pos (by simp [hk]), aget, aget, ih]
      by_cases hx : k = x
      · subst hx; rw [if_pos rfl, if_pos rfl, if_neg hk]
      · rw [if_neg hx, if_neg hx]

/-- R454: what a reset of the host interface leaves. -/
structure RingsReset (s t : State) : Prop where
  off : ∀ r : Fin 15, ringEn t r.val = false
  done : t.hif.done = []
  inflight : t.hif.inflight = []
  linkUp : t.hif.linkUp = s.hif.linkUp
  window : (getW t Rg.hifWinSel).getLsbD 8 = false
  masked : ∀ v : Fin 64, rb t (0xE8000 + 16 * v.val + 12) 0 = true

theorem hifReset_resets {s : State} (hform : wordsCanonical s = true) : RingsReset s (hifReset s) := by
  obtain ⟨hform', hcut⟩ := ringsCut hform (List.range 15)
  unfold hifReset
  extract_lets a drop b c
  have haLink : a.hif.linkUp = s.hif.linkUp := by
    have hhif : ∀ l : List Nat, ∀ u : State, (l.foldl (fun s r => putW s (indKey .hif 1 (8 * r + 4)) (getW s (indKey .hif 1 (8 * r + 4)) &&& 0x1F)) u).hif = u.hif :=
      fun l => by
        induction l with
        | nil => exact fun _ => rfl
        | cons r l ih => exact fun u => (ih _).trans rfl
    exact congrArg Hif.linkUp (hhif _ s)
  have haForm : wordsCanonical a = true := hform'
  have haOff : ∀ q, q ∈ List.range 15 → ringEn a q = false := fun q hq => hcut q (.inl hq)
  clear_value a
  have hword : ∀ x, getW c x = if drop x then BitVec.ofNat 32 (wordReset x) else getW b x := fun x => aget_filter ..
  have hbWindow : getW b Rg.hifWinSel = getW a Rg.hifWinSel &&& 0x3F := getW_putW_same haForm ..
  have hbOff : ∀ r : Fin 15, ringEn b r.val = false := fun r => by
    rw [← haOff r.val (List.mem_range.mpr r.isLt)]
    exact ringEn_of_word (getW_putW_other a _ (by simp only [indKey, Blk.id, Rg.hifWinSel]; omega))
  have hbLink : b.hif.linkUp = a.hif.linkUp := rfl
  have hcLink : c.hif.linkUp = b.hif.linkUp := rfl
  have hdropRing : ∀ r : Fin 15, drop (indKey .hif 1 (8 * r.val + 4)) = false := by decide
  have hdropWindow : drop Rg.hifWinSel = false := by decide
  have hdropMsix : ∀ v : Fin 64, drop (0xE8000 + 16 * v.val + 12) = true ∧ (BitVec.ofNat 32 (wordReset (0xE8000 + 16 * v.val + 12))).toNat.testBit 0 = true := by
    decide
  clear_value c b drop
  constructor
  · intro r
    rw [← hbOff r]
    have h := hword (indKey .hif 1 (8 * r.val + 4))
    rw [hdropRing, if_neg (by decide)] at h
    exact ringEn_of_word h
  · rfl
  · rfl
  · exact hcLink.trans (hbLink.trans haLink)
  · have h := hword Rg.hifWinSel
    rw [hdropWindow, if_neg (by decide), hbWindow] at h
    change (getW c Rg.hifWinSel).getLsbD 8 = false
    rw [h, BitVec.getLsbD_and]
    exact Bool.and_false _
  · intro v
    obtain ⟨hdrop, hbit⟩ := hdropMsix v
    have h := hword (0xE8000 + 16 * v.val + 12)
    rw [hdrop, if_pos rfl] at h
    change (getW c _).toNat.testBit 0 = true
    rw [h]
    exact hbit

/-- Host resets sent and the record of the reset reach neither words nor the interface's own state. -/
theorem RingsReset.only {L : List Part} {s t u : State} (h : RingsReset s t) (k : Only L t u)
    (hwords : Part.words ∉ L := by decide) (hhif : Part.hif ∉ L := by decide) : RingsReset s u := by
  have hw : ∀ x, getW u x = getW t x := fun x => congrArg (aget _ · x) (k.same .words hwords)
  have hh : u.hif = _ := k.same .hif hhif
  refine ⟨fun r => (ringEn_of_word (hw _)).trans (h.off r), ?_, ?_, ?_, ?_, fun v => ?_⟩
  · rw [hh]; exact h.done
  · rw [hh]; exact h.inflight
  · rw [hh]; exact h.linkUp
  · rw [hw]; exact h.window
  · unfold rb
    rw [hw]
    exact h.masked v

theorem foldl_hostReset_only (s : State) (l : List (Nat × Fin 4)) :
    Only [.out, .links, .cnt] s (l.foldl (fun s r =>
      if s.hif.slots.getLsbD r.1 then linkSend s r.2 (.hostReset (BitVec.ofNat 6 r.1)) else s) s) :=
  Only.foldl _ _ (fun _ _ h => Only.ite (fun _ => Only.step h (linkSend_only ..) (by decide)) fun _ => h) (Only.refl _ _)

/-- R454: the reset of the host interface, with the resets that it sends and its record. -/
theorem exec_flr {s : State} (hform : wordsCanonical s = true) (hpcie : s.glb.pcie = true) (hlink : s.hif.linkUp = true)
    (hup : regUp s .hif = true) (hpor : s.pending.any porReset = false) (loss : Bool) (gen width : BitVec 4) :
    ∃ t, exec (.flr loss gen width) s = .next (if loss then
        modHif t fun h => { h with linkUp := gen != 0, gen := gen, width := width } else t) ∧
      RingsReset s t ∧ Only [.out, .words, .mismatch, .pan, .log, .line, .links, .rings, .hif, .cnt, .outs] s t := by
  have hreset := hifReset_resets hform
  have hfirst := hifReset_only s
  have hexec : exec (.flr loss gen width) s = .next (
      let u := (hifReset s).lnk.routes.foldl (fun s r =>
        if s.hif.slots.getLsbD r.1 then linkSend s r.2 (.hostReset (BitVec.ofNat 6 r.1)) else s) (hifReset s)
      let u := emit u .hif 0x0007 .notice (flag (!loss) 0) (some 4)
      if loss then modHif u fun h => { h with linkUp := gen != 0, gen := gen, width := width } else u) := by
    change execFlr loss gen width s = _
    unfold execFlr
    rw [hpcie, hup, hpor, hlink]
    rfl
  generalize hifReset s = a at hreset hfirst hexec
  have hsent := foldl_hostReset_only a a.lnk.routes
  generalize a.lnk.routes.foldl _ a = b at hsent hexec
  exact ⟨emit b .hif 7 .notice (flag (!loss) 0) (some 4), hexec, (hreset.only hsent).only (emit_only ..),
    Only.step (Only.step (Only.mono hfirst (by decide)) hsent (by decide)) (emit_only ..) (by decide)⟩

/-- R435, R455: a doorbell of the host's own slot reaches its ring. -/
theorem exec_doorbell_own {s : State} {off : Nat} {v : BitVec 32} {r : Nat} (hpcie : s.glb.pcie = true) (hlink : s.hif.linkUp = true)
    (hup : regUp s .hif = true) (hoff : off < 0x4000) (hring : dbRing (off / 0x1000) (off % 0x1000) = some r) :
    r < 15 ∧ exec (.doorbell off v) s = .next (applyDoorbell s r v) := by
  have hgroup : off / 0x1000 < 4 := by omega
  refine ⟨dbRing_lt hgroup hring, ?_⟩
  rw [exec_doorbell hpcie hlink hup (by omega), Nat.mod_eq_of_lt hgroup, hring]
  exact congrArg Host.Outcome.next (if_pos (by omega))

/-- Settles O15: doorbells by slot and value, the rise of EN, and the reset of every ring. -/
theorem ringsAndDoorbells : Obligations.RingsAndDoorbells := by
  refine ⟨⟨?_, ?_⟩, ⟨?_, ?_⟩, ?_, ?_⟩
  · intro s off v r hpcie hlink hup hoff hring hen hcut
    obtain ⟨hr, hexec⟩ := exec_doorbell_own (v := v) hpcie hlink hup hoff hring
    rw [applyDoorbell_of_runs hen hcut] at hexec
    obtain ⟨p, hp⟩ := perfAdd_eq s 338 1
    rw [hp] at hexec ⊢
    refine ⟨fun h8 h10 hok => ?_, fun h8 h10 hbad => ?_, fun h8 hok => ?_, fun h10 hok => ?_⟩
    · rw [hok, if_pos rfl] at hexec
      dsimp only at hexec
      rw [if_neg h8, if_neg h10] at hexec
      refine ⟨_, hexec, ?_, ?_, fun q hq => ?_, rfl, rfl, rfl, rfl⟩
      · rw [ring_modRing_same _ hr]
      · rw [ring_modRing_same _ hr]; rfl
      · rw [ring_modRing_other _ hq]; rfl
    · rw [hbad, if_neg (by decide)] at hexec
      obtain ⟨hrings, hcnt, hseq⟩ := dbRange_keeps { s with perf := p } (ownSlot { s with perf := p }) r v
      exact ⟨_, hexec, by rw [hrings.same r h8]; rfl, hcnt, hseq⟩
    · rw [hok, if_pos rfl] at hexec
      dsimp only at hexec
      rw [if_pos h8] at hexec
      exact hexec
    · rw [hok, if_pos rfl] at hexec
      dsimp only at hexec
      rw [if_neg (by omega), if_pos h10] at hexec
      exact hexec
  · intro s off v hpcie hlink hup hoff
    have hexec := exec_doorbell hpcie hlink hup hoff v
    refine ⟨fun r hslot hring => ?_, fun hnone => ?_⟩
    · rw [hring] at hexec
      exact hexec.trans (congrArg Host.Outcome.next (if_neg (by omega)))
    · rw [hnone] at hexec
      exact hexec
  · intro s r size hform hpcie hlink hup hheld hmirror hlo hhi h8 h10 hen
    obtain ⟨hstore, hbit, hsize⟩ := store_ringWord hlo hhi
    have hrise := ringEnable_rise ⟨h8, h10⟩ hen _ hstore hbit
    generalize hw : BitVec.ofNat 32 (256 + size) = w at hbit hsize hrise
    have hget := getW_putW_same hform (indKey .hif 1 (8 * r.val + 4)) w
    have hmirror' : mirrorOn (modRing (putW s (indKey .hif 1 (8 * r.val + 4)) w) r.val fun _ => Ring.reset) = false := hmirror
    refine ⟨_, (exec_ringEnable hpcie hlink hup r w).trans (congrArg Host.Outcome.next (storeWord_ring hheld r w hrise hmirror')),
      ring_modRing_same _ r.isLt _, ?_, ?_, fun q hq => (ring_modRing_other _ hq _).trans rfl, rfl⟩
    · exact (congrArg (fun x : Word => x.toNat.testBit 8) hget).trans hbit
    · exact (congrArg (fun x : Word => 2 ^ fld x.toNat 4 0) hget).trans (by rw [hsize])
  · exact fun s r word hpcie hlink hup => exec_ringEnable hpcie hlink hup r word
  · intro s loss gen width hform hpcie hlink hup hpor
    obtain ⟨u, hexec, hreset, honly⟩ := exec_flr hform hpcie hlink hup hpor loss gen width
    have htco := honly.same .tco (by decide)
    have hrefs := honly.same .refs (by decide)
    have hsvc := honly.same .svc (by decide)
    have hptp := honly.same .ptp (by decide)
    have heth := honly.same .eth (by decide)
    cases loss with
    | false =>
      rw [if_neg (by decide)] at hexec
      exact ⟨u, hexec, hreset.off, hreset.done, hreset.inflight, hreset.linkUp.trans hlink, hreset.window, hreset.masked,
        htco, hrefs, hsvc, hptp, heth⟩
    | true =>
      rw [if_pos rfl] at hexec
      exact ⟨_, hexec, hreset.off, hreset.done, hreset.inflight, rfl, hreset.window, hreset.masked,
        htco, hrefs, hsvc, hptp, heth⟩
  · intro s gen width hpcie hlink hup hpor hgen
    change execFlr true gen width s = _
    unfold execFlr
    rw [hpcie, hup, hpor, hlink, decide_eq_false hgen]
    rfl

end Sys2Proof.Proofs.Doorbells
end

section
/-! What the clock state's evaluation leaves of the time core, the events of the time core (02_time_core.md R38, R57, R63,
R65, R69), and a FREQ_SET that finds its tick's mark (R71, R74). -/
-- One proof after another: the whole text is compiled in one process whose memory is bounded.
set_option Elab.async false
namespace Sys2Proof.Proofs.TimeEvents
open Sys2Proof
open Sys2Proof.Machine
open Sys2Proof.Safety
open Sys2Proof.Laws
open Sys2Proof.Proofs.Commands
open Sys2Proof.Proofs.Queries
open Sys2Proof.Proofs.Records
open Sys2Proof.Proofs.Steps
open Sys2Proof.Proofs
open Sys2Proof.Proofs.Loops

/-! ## The evaluation of the clock state (R65, R67) -/

/-- Of the time core only the reported state, its dwell and its log differ. -/
def Judged (s t : State) : Prop :=
  t.tco = { s.tco with st := t.tco.st, dwellAt := t.tco.dwellAt, stLog := t.tco.stLog }

theorem Judged.refl (s : State) : Judged s s := rfl

theorem Judged.trans {s t u : State} (h : Judged s t) (k : Judged t u) : Judged s u := by
  unfold Judged at *
  rw [k, h]

theorem Judged.only {L : List Part} {s t : State} (h : Only L s t) (htco : Part.tco ∉ L := by decide) : Judged s t := by
  unfold Judged
  rw [show t.tco = s.tco from h.same .tco htco]

/-- R67: a change of state is one record; the dwell is over. -/
theorem stateChange_tco (s : State) (n : ClockState) : (stateChange s n).tco = { s.tco with st := n, dwellAt := none } := by
  unfold stateChange
  rw [emit_tco, modTco_tco]

theorem stateChange_judged (s : State) (n : ClockState) : Judged s (stateChange s n) := by
  unfold Judged
  rw [stateChange_tco]

theorem stMark_tco (s : State) : (stMark s).tco = { s.tco with stLog := (stMark s).tco.stLog } := by
  unfold stMark
  extract_lets e
  split <;> rfl

theorem clockJudge_judged (s : State) : Judged s (clockJudge s) := by
  refine (Judged.only (clogMark_only s)).trans ?_
  unfold clockJudge
  extract_lets a u d
  split
  · exact stateChange_judged a u
  · split
    · exact rfl
    · split
      · exact stateChange_judged a u
      · exact rfl

theorem clockEval_judged (s : State) : Judged s (clockEval s) := by
  refine (clockJudge_judged s).trans ?_
  unfold Judged clockEval
  rw [stMark_tco]

/-- The log of the total correction plays no part in the clock state. -/
theorem underlying_clogMark (s : State) : underlying (clogMark s) = underlying s := by
  unfold clogMark
  split
  · split <;> rfl
  · rfl

/-- R65: better states have held for TCO_DWELL: the reported state is the underlying one. -/
theorem clockEval_dwelt {s : State} {d : Nat} (hdwell : s.tco.dwellAt = some d) (hrank : s.tco.st.rank < (underlying s).rank)
    (hdue : d + ticksMs (getW s Rg.tcoDwell).toNat ≤ s.now) :
    (clockEval s).tco.st = underlying s ∧ (clockEval s).tco.dwellAt = none := by
  have hmark := clogMark_only s
  have htco : (clogMark s).tco = s.tco := hmark.same .tco (by decide)
  have hnow : (clogMark s).now = s.now := (hmark.same .time (by decide)).1
  have hword : getW (clogMark s) Rg.tcoDwell = getW s Rg.tcoDwell := congrArg (aget _ · _) (hmark.same .words (by decide))
  have hjudge : clockJudge s = stateChange (clogMark s) (underlying s) := by
    unfold clockJudge
    dsimp only
    rw [underlying_clogMark, htco, hnow, hword, hdwell, if_neg (by omega), if_neg (by rintro h; rw [h] at hrank; omega)]
    exact if_pos hdue
  unfold clockEval
  rw [stMark_tco, hjudge, stateChange_tco]
  exact ⟨rfl, rfl⟩

/-- R63: no lock without the tick to which it lasts. -/
theorem locked_of_lapsed {s : State} (h : s.tco.lockUntil = none) : locked s = false := by
  unfold locked
  rw [h]
  exact Bool.and_false _

/-! ## UTC, temperature and slews -/

/-- R68 to R70: offset and pending leap are as written; a record of a clash is all else. -/
theorem utcWrite_tco (s : State) (off : BitVec 16) (pend : BitVec 2) (leapAt : BitVec 32) (solution : Bool) :
    (utcWrite s off pend leapAt solution).tco = { s.tco with
      utcOff := off, utcValid := true, utcSrc := solution, pend := pend, leapAt := if pend = 0 then 0 else leapAt } := by
  unfold utcWrite
  extract_lets t at_ clash u
  have hu : u.tco = { s.tco with utcOff := off, utcValid := true, utcSrc := solution, pend := pend, leapAt := at_ } := rfl
  clear_value u
  split
  · rw [emit_tco, hu]
  · exact hu

theorem freqCheck_tco (s : State) (u : Int) : (freqCheck s u).tco = { s.tco with clamped := (freqCheck s u).tco.clamped } := by
  unfold freqCheck
  split
  · rfl
  · split
    · rfl
    · rw [emit_tco, modTco_tco]

theorem clearSlew_tco (s : State) :
    (clearSlew s).tco = { s.tco with slew := none, clamped := (clearSlew s).tco.clamped } := by
  unfold clearSlew
  dsimp only
  rw [freqCheck_tco]
  rfl

/-- R69, R71: LEAP_SET writes offset and leap, and completes. -/
theorem exec_leapSet {s : State} {hd : Hdr} {off : BitVec 16} {pend : BitVec 8} {leapAt : BitVec 32} (h : Accepts s hd 0x27)
    (hfree : s.tco.marks.host ≠ some s.now) (hheld : standbyHeld s = false)
    (hrange : decide (2 < pend.toNat ∨ (pend.toNat ≠ 0 ∧ leapAt.toNat ≤ secOf s.tco.counter % 2 ^ 32)) = false) :
    ∃ t, exec (.leapSet hd off pend leapAt) s = .next t ∧ Ends t hd 0x27 Status.ok ∧
      t.tco = (utcWrite (tcoTake s) off (pend.setWidth 2) leapAt false).tco := by
  have hkept : (utcWrite (tcoTake s) off (pend.setWidth 2) leapAt false).hif.discard.contains hd = false := by
    rw [discard_of_only (utcWrite_only ..)]
    exact h.kept
  refine ⟨_, ?_, ends_fin hkept 0x27 Status.ok, (fin_only ..).same .tco (by decide)⟩
  change execLeapSet hd off pend leapAt s = _
  unfold execLeapSet
  rw [tcoHost_of_free hfree, cmd_of_inRange h hrange, if_neg (by rw [hheld]; decide)]

/-- Settles O31: each event of the time core changes its own fields, and the evaluation of the clock state no others. -/
theorem timeEventsAct : Obligations.TimeEventsAct := by
  refine ⟨⟨?_, ?_⟩, ⟨?_, ?_, ?_⟩, ?_, ?_⟩
  · intro s hd off pend leapAt h hfree hheld
    constructor
    · intro hpend hlater
      have hcode : pend.toNat ≤ 2 := by rcases hpend with h | h <;> rw [h] <;> decide
      obtain ⟨t, hexec, hends, htco⟩ := exec_leapSet (off := off) (pend := pend) (leapAt := leapAt) h hfree hheld
        (decide_eq_false (by omega))
      rw [utcWrite_tco] at htco
      refine ⟨t, hexec, hends, ?_⟩
      rw [htco]
      rcases hpend with rfl | rfl <;> exact ⟨rfl, rfl, rfl, rfl, rfl⟩
    · rintro rfl
      obtain ⟨t, hexec, hends, htco⟩ := exec_leapSet (off := off) (leapAt := leapAt) (pend := 0) h hfree hheld (by simp)
      rw [utcWrite_tco] at htco
      refine ⟨t, hexec, hends, ?_⟩
      rw [htco]
      exact ⟨rfl, rfl, rfl, rfl⟩
  · intro s hdue hpend
    have hsome : (s.tco.pend != 0) = true := by rcases hpend with h | h <;> rw [h] <;> decide
    refine ⟨leapDone s, ?_, ?_⟩
    · change execLeapDone s = _
      unfold execLeapDone
      rw [hsome, decide_eq_true hdue]
      rfl
    · have hadd : leapAdd s.tco.pend = if s.tco.pend = 1 then 1 else 0xFFFF := by
        rcases hpend with h | h <;> rw [h] <;> rfl
      unfold leapDone
      extract_lets off p
      have hbit := (emit_advanced (modTco s fun t => { t with utcOff := off, pend := 0, leapAt := 0 }) .tco 6 .notice
        (off.toNat + p.toNat * 2 ^ 16) (some 5) (by decide)).bit 5 rfl (by decide)
      rw [emit_tco, modTco_tco]
      exact ⟨congrArg (s.tco.utcOff + ·) hadd, rfl, rfl, hbit⟩
  · intro s u htemp hsrc hdue hwaits
    have hfirst : (u + ticksS 5 = s.now && tempWaits s) = false := by
      rcases hwaits with h | h
      · rw [decide_eq_false (by omega)]; rfl
      · rw [h]; exact Bool.and_false _
    refine ⟨emit (tempMark (modTco s fun t => { t with tempHost := none, tempAt := none })) .tco 7 .degraded
      (uInt 16 (tempNow (tempMark (modTco s fun t => { t with tempHost := none, tempAt := none })))) none, ?_, ?_⟩
    · change execTempFallback s = _
      unfold execTempFallback
      rw [htemp]
      dsimp only
      rw [hsrc, hfirst, decide_eq_true hdue]
      rfl
    · have hmark : ∀ x : State, (tempMark x).tco.tempHost = x.tco.tempHost ∧ (tempMark x).tco.tempDie = x.tco.tempDie ∧
          (tempMark x).tco.counter = x.tco.counter := fun x => by
        unfold tempMark
        exact ⟨rfl, rfl, rfl⟩
      have hstat := StatKept.only (b := .tco) (tempMark_only (modTco s fun t => { t with tempHost := none, tempAt := none })) (by decide)
      obtain ⟨hhost, hdie, hcounter⟩ := hmark (modTco s fun t => { t with tempHost := none, tempAt := none })
      generalize tempMark (modTco s fun t => { t with tempHost := none, tempAt := none }) = x at hhost hdie hcounter hstat
      have hadv := emit_advanced x .tco 7 .degraded (uInt 16 (tempNow x)) none (by decide)
      refine ⟨?_, ?_, hadv.seq.trans (by rw [hstat.seq]; rfl), ?_⟩
      · rw [emit_tco, hhost, modTco_tco]
      · unfold tempNow
        rw [emit_tco, hhost, hdie, modTco_tco]
      · rw [emit_tco, hcounter, modTco_tco]
  · intro s hd e hslew hkept
    have hkept' : (clearSlew s).hif.discard.contains hd = false := by
      rw [discard_of_only (clearSlew_only s)]
      exact hkept
    have htco := clearSlew_tco s
    refine ⟨finTs (clearSlew s) hd 0x23 (e.getD (tsNow (clearSlew s))), ?_, ?_⟩
    · change execSlewComplete s = _
      unfold execSlewComplete
      rw [hslew]
      rfl
    · unfold finTs
      rw [complete_eq_answered hkept', answered_tco, htco]
      exact ⟨rfl, ends_answered .., rfl, rfl⟩
  · intro s e hslew
    have htco := clearSlew_tco s
    refine ⟨clearSlew s, ?_, ?_⟩
    · change execSlewComplete s = _
      unfold execSlewComplete
      rw [hslew]
      rfl
    · rw [htco]
      exact ⟨rfl, rfl, rfl, (clearSlew_timeKept s).done⟩
  · intro s d hdwell hrank hdue
    obtain ⟨hst, hnone⟩ := clockEval_dwelt hdwell hrank hdue
    refine ⟨clockEval s, ?_, hst, hnone, ?_, ?_⟩
    · change execDwellExpiry s = _
      unfold execDwellExpiry
      rw [hdwell]
    · rw [clockEval_judged s]
    · rw [clockEval_judged s]
  · intro s u huntil hdue hlock
    refine ⟨clockEval (modTco s fun t => { t with lockUntil := none }), ?_, ?_⟩
    · change execLockLapse s = _
      unfold execLockLapse
      rw [huntil]
      dsimp only
      rw [hlock, decide_eq_true hdue]
      rfl
    · have htco := clockEval_judged (modTco s fun t => { t with lockUntil := none })
      have hnone : (clockEval (modTco s fun t => { t with lockUntil := none })).tco.lockUntil = none := by rw [htco]; rfl
      exact ⟨hnone, locked_of_lapsed hnone, by rw [htco]; rfl, by rw [htco]; rfl⟩

/-! ## FREQ_SET on a tick that is marked (R71, R74) -/

/-- READY in Boil and in NIGHT, with the mark of a FREQ_SET on the present tick and without that of a host command. -/
def freqMarked : State :=
  { TamperEnable.running with tco := { Tco.reset with marks := { Tco.reset.marks with freq := some 0 } } }

/-- A FREQ_SET stands for its tick: W is not written again (R74). -/
theorem setWord_marked {s : State} (h : s.tco.marks.freq = some s.now) (w : Int) : setWord s w = s := by
  unfold setWord
  rw [if_pos h]

/-- Refutes O29: in a state with the mark of a FREQ_SET but without that of the host command that set it, which the
    statement admits, FREQ_SET completes OK and W stays at 0. -/
theorem not_hostTimeCommands : ¬ Obligations.HostTimeCommands := by
  intro h
  obtain ⟨-, -, hcommands⟩ := h
  obtain ⟨-, hfreq, -⟩ := hcommands freqMarked ⟨0, 0, false⟩ (by decide)
  obtain ⟨t, hexec, -, hw, -, -⟩ := hfreq 1 ⟨rfl, rfl, rfl⟩ rfl (by decide) (by decide)
  have hset : exec (.freqSet ⟨0, 0, false⟩ 1) freqMarked =
      .next (fin (modTco (tcoTake freqMarked) fun t => { t with marks := { t.marks with freq := some freqMarked.now } })
        ⟨0, 0, false⟩ 0x24 Status.ok) := by
    change execFreqSet ⟨0, 0, false⟩ 1 freqMarked = _
    unfold execFreqSet
    rw [tcoHost_of_free (by decide), cmd_of_inRange ⟨rfl, rfl, rfl⟩ (by decide), if_neg (by decide)]
    dsimp only
    rw [setWord_marked rfl]
    rfl
  rw [hset] at hexec
  have ht := Host.Outcome.next.inj hexec
  rw [← ht, (fin_only ..).same .tco (by decide)] at hw
  exact absurd hw (by decide)

end Sys2Proof.Proofs.TimeEvents
end

section
/-! Slots, transactions, steering and the commands of REFS (03_reference_selection.md R79 to R122). -/
-- One proof after another: the whole text is compiled in one process whose memory is bounded.
set_option Elab.async false
namespace Sys2Proof.Proofs.References
open Sys2Proof
open Sys2Proof.Machine
open Sys2Proof.Safety
open Sys2Proof.Laws
open Sys2Proof.Proofs.Commands
open Sys2Proof.Proofs.Queries
open Sys2Proof.Proofs.Records
open Sys2Proof.Proofs.Steps

/-! ## Slots (R79 to R86, R104) -/

theorem slot_of_refs {s t : State} (h : t.refs = s.refs) (i : Fin 16) : slot t i = slot s i := by
  unfold slot
  rw [h]

theorem slot_modSlot (s : State) (i : Fin 16) (f : Slot → Slot) : slot (modSlot s i f) i = f (slot s i) := by
  unfold slot modSlot
  rw [modRefs_refs]
  exact (getElem_vmod ..).trans (if_pos rfl)

/-- R569: the outage figures leave the slots. -/
theorem gnssTrack_refs (s : State) : (gnssTrack s).refs = s.refs := (gnssTrack_only s).same .refs (by decide)

/-- R86: a slot that qualifies is qualified from the present tick. -/
theorem slot_qualify (s : State) (i : Fin 16) :
    slot (qualify s i) i = { slot s i with qualified := true, qualAt := s.now, insideAt := none } := by
  unfold qualify
  rw [slot_of_refs (gnssTrack_refs _)]
  unfold slotQual
  rw [slot_of_refs (emit_refs ..), slot_modSlot]

/-- Settles O33: each event acts once its time has come, and the selectors are evaluated. -/
theorem slotEventsAct : Obligations.SlotEventsAct := by
  refine ⟨?_, ?_, ?_, ?_, fun s => rfl⟩
  · intro s i hactive hdue hfirst
    have hwins : (decide ((slot s i).lastAct + ticksMs (slotCfg s i 1) = s.now) && s.pending.any (brings i)) = false := by
      rcases hfirst with h | h
      · rw [decide_eq_false (by omega)]; rfl
      · rw [h]; exact Bool.and_false _
    change Host.Outcome.next (lapse s i) = _
    unfold lapse
    dsimp only
    rw [hactive, hwins, decide_eq_true hdue]
    rfl
  · intro s ppt hsec
    change Host.Outcome.next (monitors s ppt) = _
    unfold monitors
    exact congrArg Host.Outcome.next (if_neg hsec)
  · intro s v i u hv hinside hen hdue
    refine ⟨?_, by rw [slot_qualify], by rw [slot_qualify]⟩
    change execSlotQualify i s = _
    unfold execSlotQualify
    rw [← hv]
    dsimp only
    rw [hinside]
    dsimp only
    rw [hen, decide_eq_true hdue]
    rfl
  · intro s i u hwithin hrefused hdue
    change execRefusedClear i s = _
    unfold execRefusedClear
    rw [hwithin]
    dsimp only
    rw [hrefused, decide_eq_true hdue]
    rfl

/-! ## Transactions and the holdover word (R97 to R108) -/

/-- The end of PREPARE, judged after the losses of the tick. -/
theorem exec_txnCommit {s v : State} {x : Txn} (hv : v = lossFirst s) (htxn : v.refs.txn = some x)
    (hdue : x.t0 + prepareTicks ≤ v.now) : exec .txnCommit s = .next (tryCommit v) := by
  change execTxnCommit s = _
  unfold execTxnCommit
  rw [← hv]
  dsimp only
  rw [htxn]
  exact congrArg Host.Outcome.next (if_pos hdue)

theorem endSettle_idle {s : State} (hsettle : s.refs.phase = .settle) : (endSettle s).refs.phase = .idle := by
  unfold endSettle
  rw [if_pos hsettle]
  unfold txnEvent
  rw [emit_refs, modRefs_refs]

/-- Once a second the holdover word is computed anew (R108). -/
theorem exec_holdoverWordUpdate {s : State} (hen : rb s Rg.refsCtrl 0 = true) (hcore : coreUp s 2 = true)
    (hdue : s.refs.wordAt + ticksS 1 ≤ s.now) : exec .holdoverWordUpdate s = .next (
      let u := modRefs s fun r => { r with wordAt := s.now }
      if safe s .refs then holdNow u
      else match s.refs.timeSlot with
        | some i => if s.refs.freqOnly then servoFreq u i else u
        | none => takeHoldWord u) := by
  change execHoldoverWordUpdate s = _
  unfold execHoldoverWordUpdate
  rw [hen, hcore, decide_eq_false (by omega)]
  rfl

/-- Settles O34: a transaction commits or is extended, SETTLE ends, and the holdover word follows its source. -/
theorem transactionsCommit : Obligations.TransactionsCommit := by
  refine ⟨?_, ?_, ?_, ?_⟩
  · intro s v x d b hv htxn hdue hdelta
    rw [exec_txnCommit hv htxn hdue]
    unfold tryCommit
    rw [htxn]
    dsimp only
    rw [hdelta]
  · intro s v x hv htxn hdue hdelta
    rw [exec_txnCommit hv htxn hdue]
    unfold tryCommit
    rw [htxn]
    dsimp only
    rw [hdelta]
  · intro s hsettle hdue
    refine ⟨?_, endSettle_idle hsettle⟩
    change execSettleEnd s = _
    unfold execSettleEnd
    rw [hsettle, decide_eq_true hdue]
    rfl
  · intro s hen hcore hdue
    have hexec := exec_holdoverWordUpdate hen hcore hdue
    refine ⟨fun hsafe hnone => ?_, fun hsafe => ?_, fun i hsafe hheld hfreq => ?_⟩
    · rw [hexec, hsafe, hnone]
      rfl
    · rw [hexec, hsafe]
      rfl
    · rw [hexec, hsafe, hheld, hfreq]
      rfl

end Sys2Proof.Proofs.References
end

section
/-! Oscillator steering and OSC_SET, and the commands of REFS (03_reference_selection.md R95, R96, R106, R110, R115 to
R122). -/
-- One proof after another: the whole text is compiled in one process whose memory is bounded.
set_option Elab.async false
namespace Sys2Proof.Proofs.Steering
open Sys2Proof
open Sys2Proof.Machine
open Sys2Proof.Safety
open Sys2Proof.Laws
open Sys2Proof.Proofs.Commands
open Sys2Proof.Proofs.Queries
open Sys2Proof.Proofs.Records
open Sys2Proof.Proofs.Steps
open Sys2Proof.Proofs.References

/-! ## A value is sent (R116 to R119) -/

/-- R108: a value is in force as it is sent; the log alone follows it. -/
theorem codeInForce_refs (s : State) (code : Int) : (codeInForce s code).refs = { s.refs with
    code := code, clog := (codeInForce s code).refs.clog, everLocked := (codeInForce s code).refs.everLocked } := by
  unfold codeInForce clogMark
  split
  · split <;> rfl
  · rfl

theorem steerDone_refs (s : State) (host : Option Hdr) : (steerDone s host).refs = s.refs :=
  (steerDone_only s host).same .refs (by decide)

theorem sendSet_started (s : State) (code : Int) (host : Option Hdr) (resent : Bool) :
    (sendSet s code host resent).refs.steerStarted = s.refs.steerStarted := by
  have hforce : (codeInForce s code).refs.steerStarted = s.refs.steerStarted := by rw [codeInForce_refs]
  have hout : ∀ d, (uartOut (codeInForce s code) d).refs = (codeInForce s code).refs := fun d => (uartOut_only ..).same .refs (by decide)
  unfold sendSet
  extract_lets u
  have hu : u.refs.steerStarted = s.refs.steerStarted := (congrArg Refs.steerStarted (hout _)).trans hforce
  clear_value u
  split
  · rw [steerDone_refs]
    exact hu
  · exact hu

theorem sendInit_started (s : State) (code : Int) (host : Option Hdr) (resent : Bool) :
    (sendInit s code host resent).refs.steerStarted = s.refs.steerStarted := by
  unfold sendInit
  extract_lets u
  have hu : u.refs = s.refs := (uartOut_only ..).same .refs (by decide)
  clear_value u
  split
  · rw [sendSet_started, modRefs_refs, hu]
  · rw [modRefs_refs, hu]

theorem sendCode_started (s : State) (code : Int) (host : Option Hdr) :
    (sendCode s code host).refs.steerStarted = s.refs.steerStarted := by
  unfold sendCode
  extract_lets u w
  have hu : u.refs = s.refs := (perfAdd_only ..).same .refs (by decide)
  clear_value u
  split
  · split
    · rw [sendInit_started, hu]
    · rw [sendSet_started, hu]
  · rw [steerDone_refs]
    change (codeInForce u code).refs.steerStarted = _
    rw [codeInForce_refs, hu]

/-- R118: over SPI the frame leaves at once, and a command that waited for it completes. -/
theorem sendCode_spi {s : State} (hspi : steerUart s = false) (code : Int) (host : Option Hdr) :
    ∃ u : State, u.refs.code = code ∧ u.words = s.words ∧ u.tco = s.tco ∧ u.hif.discard = s.hif.discard ∧
      sendCode s code host = steerDone (emitOut u (.spi (spiFrame u code) (fld (getW s Rg.refsDacCfg).toNat 13 8)
        (fld (getW s Rg.refsDacCfg).toNat 7 6) (fld (getW s Rg.refsDacCfg).toNat 27 24))) host := by
  have hcount := perfAdd_only s 596 1
  have hwords : (perfAdd s 596 1).words = s.words := hcount.same .words (by decide)
  have hspi' : steerUart (perfAdd s 596 1) = false := by
    unfold steerUart steerMode rb getW at *
    rw [hwords]
    exact hspi
  have hforce := codeInForce_only (perfAdd s 596 1) code
  have hframe : ∀ u : State, u.words = s.words → spiFrame (perfAdd s 596 1) code = spiFrame u code := fun u hu => by
    unfold spiFrame getW
    rw [hwords, hu]
  have huwords : (codeInForce (perfAdd s 596 1) code).words = s.words := (hforce.same .words (by decide)).trans hwords
  refine ⟨codeInForce (perfAdd s 596 1) code, by rw [codeInForce_refs], huwords,
    (hforce.same .tco (by decide)).trans (hcount.same .tco (by decide)),
    (discard_of_only hforce).trans (discard_of_only hcount), ?_⟩
  unfold sendCode
  dsimp only
  rw [hspi', if_neg (by decide), hframe _ huwords]
  unfold getW
  rw [hwords]

theorem steerSend_code {s : State} (hspi : steerUart s = false) (code : Int) (clamped : Bool) :
    (steerSend s code clamped).refs.code = code := by
  obtain ⟨u, hcode, -, -, -, hsend⟩ := sendCode_spi hspi code none
  have hsent : (sendCode s code none).refs.code = code := by
    rw [hsend, steerDone_refs]
    exact hcode
  unfold steerSend
  dsimp only
  split
  · rw [emit_refs, hsent]
  · exact hsent

theorem steerSend_started (s : State) (code : Int) (clamped : Bool) :
    (steerSend s code clamped).refs.steerStarted = s.refs.steerStarted := by
  unfold steerSend
  dsimp only
  split
  · rw [emit_refs, sendCode_started]
  · exact sendCode_started ..

/-! ## One steering period (R110, R115, R116) -/

/-- The state of a period with a gain in which no value waits to be sent again. -/
def steerReady (s : State) : State := modRefs s fun r => { r with steerZero := false, steerRetry := none }

theorem sumC_congr {s t : State} (h : ∀ w code, cVal t w code = cVal s w code) (only : Bool) (a b upto : Nat) (l : List CPt) :
    sumC t only a b upto l = sumC s only a b upto l := by
  induction l generalizing upto with
  | nil => rfl
  | cons c r ih => rw [sumC, sumC, ih, h]

theorem steerNext_steerReady (s : State) : steerNext (steerReady s) = steerNext s := by
  have hsum : ∀ only a b upto l, sumC (steerReady s) only a b upto l = sumC s only a b upto l := fun only a b upto l =>
    sumC_congr (s := s) (t := steerReady s) (fun _ _ => rfl) only a b upto l
  unfold steerNext
  simp only [hsum]
  rfl

/-- The first period sends CODE0, clamped to the range. -/
theorem steerUpdate_first {s : State} (hgain : oscGain s ≠ 0) (hretry : s.refs.steerRetry = none)
    (hfresh : s.refs.steerStarted = false) : ∃ clamped, steerUpdate s =
      steerSend (modRefs (steerReady s) fun r => { r with steerStarted := true })
        (clampI (codeRange s).1 (codeRange s).2 (sInt 32 (getW s Rg.refsCode0).toNat)) clamped := by
  refine ⟨decide (sInt 32 (getW s Rg.refsCode0).toNat < (codeRange s).1 ∨ (codeRange s).2 < sInt 32 (getW s Rg.refsCode0).toNat), ?_⟩
  unfold steerUpdate
  rw [if_neg hgain, hretry]
  dsimp only
  rw [if_pos (by rw [modRefs_refs, hfresh]; rfl)]
  rfl

/-- A later period sends the updated code. -/
theorem steerUpdate_next {s : State} (hgain : oscGain s ≠ 0) (hretry : s.refs.steerRetry = none)
    (hstarted : s.refs.steerStarted = true) {c : Int} {clamped : Bool} (hnext : steerNext s = some (c, clamped)) :
    steerUpdate s = steerSend (steerReady s) c clamped := by
  have hready := (steerNext_steerReady s).trans hnext
  unfold steerUpdate
  rw [if_neg hgain, hretry]
  dsimp only
  rw [if_neg (by rw [modRefs_refs, hstarted]; decide), show (modRefs s fun r => _) = steerReady s from rfl, hready]

theorem steerUpdate_counter (s : State) : (steerUpdate s).tco.counter = s.tco.counter :=
  congrArg Tco.counter ((steerUpdate_only s).same .tco (by decide))

/-- R110, R116, R121: a period that is due, judged after the losses of the tick. -/
theorem exec_steerUpdate {s v : State} (hv : v = lossFirst s) (hcore : coreUp v 2 = true)
    (hdue : v.refs.steerAt + ticksS (getW v Rg.refsSteerPeriod).toNat ≤ v.now) :
    exec .steerUpdate s = .next (
      let u := modRefs v fun r => { r with steerAt := v.now }
      let x := if locked v then modRefs v (fun r => { r with
          steerAt := v.now, ageing := (v.now, cNow v, (getW v Rg.refsSteerPeriod).toNat) ::
            v.refs.ageing.filter (fun p => decide (v.now < p.1 + ticksS (86400 * (getW v Rg.refsAgeWin).toNat))) }) else u
      if (steerMode x = 1 || steerMode x = 2) && steerMay x && x.refs.uart.isNone then steerUpdate x else x) := by
  change execSteerUpdate s = _
  unfold execSteerUpdate
  rw [← hv]
  dsimp only
  rw [hcore, decide_eq_false (by omega)]
  rfl

/-- Without lock nothing is steered (R115). -/
theorem steerMay_unlocked {s : State} (h : locked s = false) : steerMay s = false := by
  unfold steerMay
  rw [h]
  rfl

/-! ## Replies (R120) -/

theorem oscTurn_idle {s : State} (h : s.refs.oscWait = []) : oscTurn s = s := by
  unfold oscTurn
  rw [h]
  rfl

/-- R120: the second failure of an update freezes the steering and keeps the value for the next period. -/
theorem steerMiss_again {s : State} {u : UartWait} (hagain : u.resent = true) (hhost : u.host = none) (timeout : Bool) :
    (steerMiss s u timeout).refs = { s.refs with
      uart := none, steerRetry := some u.code, ageing := s.refs.ageing.filter (fun p => decide (p.1 < s.refs.steerAt)) } ∧
    (blkStat (steerMiss s u timeout) .refs).bits.getLsbD 5 = true := by
  unfold steerMiss steerFail
  rw [if_pos hagain, hhost]
  extract_lets a b
  have hb : b.refs = a.refs := emit_refs ..
  exact ⟨hb, (emit_advanced a _ _ _ _ _ (by decide)).bit 5 rfl (by decide)⟩

/-! ## OSC_SET (R115) -/

/-- The magnitude that bounds the codes of MANUAL mode: Vmax over UART, half the converter's range over SPI. -/
def oscLimit (s : State) : Int :=
  if rb s Rg.refsSteerCtrl 2 then (getW s Rg.refsUartVmax).toNat else (2 ^ (fld (getW s Rg.refsDacCfg).toNat 4 0 - 1) : Nat)

/-- A code in the range of the interface of MANUAL mode is not refused. -/
theorem exec_oscSet {s : State} {hd : Hdr} {code : BitVec 32} (h : Accepts s hd 0x36) (hmode : steerMode s = 3)
    (hlo : -oscLimit s ≤ code.toInt) (hhi : code.toInt ≤ if rb s Rg.refsSteerCtrl 2 then oscLimit s else oscLimit s - 1) :
    (s.refs.uart = none → exec (.oscSet hd code) s = .next (sendCode s code.toInt (some hd))) ∧
    (s.refs.uart ≠ none → exec (.oscSet hd code) s = .next (modRefs s fun r => { r with oscWait := r.oscWait ++ [(hd, code.toInt)] })) := by
  unfold oscLimit at hlo hhi
  have hexec : exec (.oscSet hd code) s = .next (if s.refs.uart.isSome then
      modRefs s fun r => { r with oscWait := r.oscWait ++ [(hd, code.toInt)] } else sendCode s code.toInt (some hd)) := by
    change execOscSet hd code s = _
    unfold execOscSet
    dsimp only
    rw [cmd_of_inRange h (decide_eq_false (not_or.mpr ⟨not_lt.mpr hlo, not_lt.mpr hhi⟩)), if_neg (not_not.mpr hmode)]
  refine ⟨fun hfree => ?_, fun hbusy => ?_⟩
  · rw [hexec, hfree]
    rfl
  · rw [hexec, if_pos (Option.isSome_iff_ne_none.mpr hbusy)]

/-- Settles O35: the periods, the replies and OSC_SET by interface and by what waits on it. -/
theorem steeringActs : Obligations.SteeringActs := by
  refine ⟨?_, ?_, ?_, ?_, ?_⟩
  · intro s v hv hcore hdue
    have hexec := exec_steerUpdate hv hcore hdue
    refine ⟨fun hlock => ?_, fun x hlock hx => ?_⟩
    · have hmay : steerMay (modRefs v fun r => { r with steerAt := v.now }) = false := steerMay_unlocked hlock
      rw [hexec, hlock]
      dsimp only
      rw [if_neg Bool.false_ne_true, hmay, Bool.and_false, Bool.false_and]
      rfl
    · rw [hlock] at hexec
      dsimp only at hexec
      rw [if_pos rfl, ← hx] at hexec
      rw [hexec]
      refine ⟨fun hmode hmay hfree => ?_, fun hnot => ?_⟩
      · rw [hmay, hfree, if_pos (by simpa using hmode)]
      · refine congrArg Host.Outcome.next (if_neg ?_)
        rcases hnot with ⟨h1, h2⟩ | h | h
        · simp [h1, h2]
        · simp [h]
        · simp [Option.isNone_iff_eq_none, h]
  · intro s hgain hretry
    refine ⟨fun hfresh => ?_, fun c clamped hstarted hnext hspi => ⟨?_, steerUpdate_counter s⟩⟩
    · obtain ⟨clamped, hfirst⟩ := steerUpdate_first hgain hretry hfresh
      refine ⟨?_, steerUpdate_counter s, fun hspi => ?_⟩
      · rw [hfirst]
        exact steerSend_started ..
      · rw [hfirst]
        exact steerSend_code (by exact hspi) ..
    · rw [steerUpdate_next hgain hretry hstarted hnext]
      exact steerSend_code (by exact hspi) ..
  · intro s u line huart
    have hexec : exec (.steerReply line) s = .next (oscTurn (
        if (replyPrefix s (if u.init then 0 else 1)).isPrefixOf line then
          let s := modRefs s fun r => { r with uart := none, initSent := r.initSent || u.init }
          if u.init then sendSet s u.code u.host false else steerDone s u.host
        else steerMiss s u false)) := by
      change execSteerReply line s = _
      unfold execSteerReply
      rw [huart]
    refine ⟨fun hset hmatch => ?_, fun hinit hmatch => ?_, fun hother => ?_⟩
    · rw [hexec, hset]
      simp only [Bool.false_eq_true, if_false, hmatch, if_true, Bool.or_false]
    · rw [hexec, hinit]
      simp only [if_true, hmatch, Bool.or_true]
    · rw [hexec, hother]
      rfl
  · intro s u huart hdue hfirst
    have hexec : exec .steerReplyTimeout s = .next (oscTurn (steerMiss s u true)) := by
      change execSteerReplyTimeout s = _
      unfold execSteerReplyTimeout
      rw [huart]
      dsimp only
      refine congrArg Host.Outcome.next (if_pos ?_)
      rw [decide_eq_true hdue, Bool.true_and, Bool.not_eq_true', Bool.and_eq_false_iff]
      rcases hfirst with h | h
      · exact .inl (decide_eq_false (Nat.ne_of_lt h))
      · exact .inr h
    refine ⟨hexec, fun hagain hhost hwait => ?_⟩
    obtain ⟨hrefs, hbit⟩ := steerMiss_again (s := s) hagain hhost true
    rw [oscTurn_idle (by rw [hrefs]; exact hwait)] at hexec
    exact ⟨_, hexec, by rw [hrefs], by rw [hrefs], hbit, by rw [hrefs]⟩
  · intro s hd code h hmode
    refine ⟨fun hdac hlo hhi => ?_, fun huart hlo hhi => ?_⟩
    · have hlimit : oscLimit s = 2 ^ (fld (getW s Rg.refsDacCfg).toNat 4 0 - 1) := by
        unfold oscLimit
        rw [hdac, if_neg Bool.false_ne_true]
        push_cast
        rfl
      obtain ⟨hsend, hwait⟩ := exec_oscSet (code := code) h hmode
        (by rw [hlimit]; exact hlo) (by rw [hdac, hlimit]; exact Int.le_sub_one_of_lt hhi)
      have hspi : steerUart s = false := by
        unfold steerUart
        rw [hdac, Bool.and_false, Bool.or_false, hmode]
        rfl
      refine ⟨fun hfree => ⟨hsend hfree, _, hsend hfree, ?_⟩, hwait⟩
      obtain ⟨u, hcode, hwords, htco, hdiscard, hsent⟩ := sendCode_spi hspi code.toInt (some hd)
      rw [hsent]
      have hkept : (emitOut u (.spi (spiFrame u code.toInt) (fld (getW s Rg.refsDacCfg).toNat 13 8)
          (fld (getW s Rg.refsDacCfg).toNat 7 6) (fld (getW s Rg.refsDacCfg).toNat 27 24))).hif.discard.contains hd = false := by
        change u.hif.discard.contains hd = false
        rw [hdiscard]
        exact h.kept
      unfold steerDone
      dsimp only
      rw [fin_eq_answered hkept]
      exact ⟨hcode, ends_answered .., rfl, congrArg Tco.w htco⟩
    · have hlimit : oscLimit s = (getW s Rg.refsUartVmax).toNat := by
        unfold oscLimit
        rw [huart, if_pos rfl]
      obtain ⟨hsend, hwait⟩ := exec_oscSet (code := code) h hmode
        (by rw [hlimit]; exact hlo) (by rw [huart, hlimit]; exact hhi)
      exact ⟨hsend, hwait⟩

end Sys2Proof.Proofs.Steering
end

section
/-! Image slots: the boot record's number and the commands of the update (15_firmware_update.md R526, R528 to R540). -/
-- One proof after another: the whole text is compiled in one process whose memory is bounded.
set_option Elab.async false
namespace Sys2Proof.Proofs.Updates
open Sys2Proof
open Sys2Proof.Machine
open Sys2Proof.Safety
open Sys2Proof.Laws
open Sys2Proof.Proofs
open Sys2Proof.Proofs.Queries

/-! ## The boot record's copies -/

/-- The record of a state is read from the copies alone. -/
theorem recNow_of_copies {s t : State} (h : t.upd.copies = s.upd.copies) : recNow t = recNow s := by
  unfold recNow bootBest
  rw [h]

/-- The copy that the next record replaces (R526). -/
def nextCopy (s : State) : Fin 2 := match bootBest s with | some (0, _) => 1 | _ => 0

theorem recWrite_copies (s : State) (stage : Nat) (n : Fin 2) (f : BootRec → BootRec) :
    (recWrite s stage n f).upd.copies =
      s.upd.copies.set (nextCopy s) (some { f (recNow s) with seq := (recNow s).seq + 1, consumed := 0xFF }) := by
  unfold recWrite
  dsimp only
  rw [(panLog_only ..).same .upd (by decide), modUpd_upd]
  rfl

/-- UPD_ACTIVATE with FLAGS 1 in READY writes the record, completes and sets the instant of the reset. -/
theorem exec_updActivate_reset {s : State} {hd : Hdr} (h : Accepts s hd 0xC3) {slot_ : BitVec 8} {n : Fin 2} (i : StartIn)
    (hn : Fin.ofNat 2 slot_.toNat = n) (hrange : slot_.toNat ≤ 1) (htrial : trialRuns s = false)
    (hsession : s.upd.session = none) (hst : (recNow s).st[n] = .verified) :
    exec (.updActivate hd slot_ 1 i) s =
      .next (modUpd (fin (recWrite s 3 n fun r => { r with trial := true, trialSlot := n }) hd 0xC3 Status.ok)
        fun u => { u with resetAt := some ((fin (recWrite s 3 n fun r => { r with trial := true, trialSlot := n }) hd 0xC3
          Status.ok).now + ticksMs 10) }) := by
  subst hn
  have hargs : (decide (1 < slot_.toNat) || decide (1 < (1 : BitVec 8).toNat)) = false := by
    rw [decide_eq_false (Nat.not_lt.mpr hrange)]
    rfl
  have hphase : inRecovery (fin (recWrite s 3 (Fin.ofNat 2 slot_.toNat) fun r =>
      { r with trial := true, trialSlot := Fin.ofNat 2 slot_.toNat }) hd 0xC3 Status.ok) = false := by
    unfold inRecovery
    rw [(fin_only ..).same .pwr (by decide), (recWrite_only ..).same .pwr (by decide), h.ready]
    rfl
  change execUpdActivate hd slot_ 1 i s = _
  unfold execUpdActivate
  rw [cmd_of_inRange h hargs]
  dsimp only
  rw [htrial, hst, hsession, hphase]
  rfl

/-! ## The record's number ends (R526) -/

/-- READY in Boil with its cores running; copy 0 of the boot record has the last number that 32 bits hold, and its slot 0
    is VERIFIED. -/
def lastRecord : State :=
  { TamperEnable.running with
    ctl := { Ctl.reset with run := #v[2, 2, 2, 2] }
    upd := { State.reset.upd with copies := #v[some { BootRec.blank with seq := 0xFFFFFFFF, st := #v[.verified, .empty] }, none] } }

/-- The start that would follow the activation. -/
def nextStart : StartIn :=
  { rails := false, vbatLost := false, preferred := true, bootSrc := 0, pcie := true, refCount := 0, junction := 0, railOk := 0,
    gen := 0, width := 0, verified := 0, selfOk := true, ms := 0 }

/-- Refutes O59: SEQ has 32 bits and R526 takes the higher one. After the record 0xFFFFFFFF, which the statement admits,
    UPD_ACTIVATE writes 0, and the old record goes on to decide. -/
theorem not_updatesAct : ¬ Obligations.UpdatesAct := by
  intro h
  have haccepts : Accepts lastRecord ⟨0, 0, false⟩ 0xC3 := ⟨rfl, by decide, by decide⟩
  obtain ⟨hcommands, -⟩ := h
  obtain ⟨-, -, -, -, -, hactivate, -⟩ := hcommands lastRecord ⟨0, 0, false⟩ haccepts.kept rfl (by decide)
  obtain ⟨⟨t, hexec, -, -, hseq, -⟩, -⟩ := hactivate 0 nextStart (by decide) rfl (.inl (by decide))
  have hset := exec_updActivate_reset haccepts (slot_ := 0) (n := 0) nextStart rfl (by decide) (by decide) rfl (by decide)
  have ht := Host.Outcome.next.inj (hset.symm.trans hexec)
  have hcopies : t.upd.copies = lastRecord.upd.copies.set (nextCopy lastRecord)
      (some { recNow lastRecord with trial := true, trialSlot := 0, seq := (recNow lastRecord).seq + 1, consumed := 0xFF }) := by
    rw [← ht, modUpd_upd, (fin_only ..).same .upd (by decide), recWrite_copies]
  have hrec : (recNow t).seq = 0xFFFFFFFF := by
    rw [recNow, bootBest, hcopies]
    decide
  rw [hrec] at hseq
  exact absurd hseq (by decide)

end Sys2Proof.Proofs.Updates
end

section
/-! The pantry's commits (16_faults_diagnostics.md R572). -/
-- One proof after another: the whole text is compiled in one process whose memory is bounded.
set_option Elab.async false
namespace Sys2Proof.Proofs.Diagnostics
open Sys2Proof
open Sys2Proof.Machine
open Sys2Proof.Safety
open Sys2Proof.Laws
open Sys2Proof.Proofs

/-- A commit whose read-back agrees is one summary write. -/
theorem commitTry_agrees (s : State) (rest : List Bool) : commitTry s (true :: rest) = panWrite s false s.pwr.state true := rfl

/-- A pantry commit that is due by its period. -/
theorem exec_pantryCommit_due {s : State} (hup : mainUp s = true) (hcore : coreUp s 0 = true)
    (hfail : s.pending.contains .pwrFail = false) (hdue : s.pan.nextAt ≤ s.now) (rest : List Bool) :
    exec (.pantryCommit (true :: rest)) s =
      .next (panWrite (modPan s fun p => { p with nextAt := p.nextAt + ticksS 600 }) false s.pwr.state true) := by
  change execPantryCommit (true :: rest) s = _
  unfold execPantryCommit
  rw [hup, hcore, hfail, commitTry_agrees]
  exact congrArg Host.Outcome.next (if_pos hdue)

/-- READY in Boil with its cores running and a commit due; summary copy 0 is valid and has the last number that 32 bits
    hold, copy 1 is not valid. -/
def lastSummary : State :=
  { TamperEnable.running with
    ctl := { Ctl.reset with run := #v[2, 2, 2, 2] }
    pan := { State.reset.pan with
      copies := #v[{ State.reset.pan.copies[0] with ok := true, cseq := 0xFFFFFFFF }, { State.reset.pan.copies[0] with ok := false }]
      nextAt := 0 } }

/-- Refutes O60: CSEQ has 32 bits and R572 takes the higher one. After the summary 0xFFFFFFFF, which the statement admits,
    the next one has CSEQ 0, and the old one goes on to decide. -/
theorem not_diagnosticsAct : ¬ Obligations.DiagnosticsAct := by
  intro h
  obtain ⟨-, -, -, -, -, -, -, -, hcommit⟩ := h
  obtain ⟨hdue, -⟩ := hcommit lastSummary [] (by decide) (by decide) (by decide)
  obtain ⟨t, hexec, -, hseq, -⟩ := hdue (by decide)
  have ht := Host.Outcome.next.inj ((exec_pantryCommit_due (by decide) (by decide) (by decide) (by decide) []).symm.trans hexec)
  have hlast : panCseq t = 0xFFFFFFFF := by
    rw [← ht]
    decide
  rw [hlast] at hseq
  exact absurd hseq (by decide)

end Sys2Proof.Proofs.Diagnostics
end

section
/-! The GNSS baseband: its ports' failures (04_gnss_baseband.md R135). -/
-- One proof after another: the whole text is compiled in one process whose memory is bounded.
set_option Elab.async false
namespace Sys2Proof.Proofs.Baseband
open Sys2Proof
open Sys2Proof.Machine
open Sys2Proof.Safety
open Sys2Proof.Laws
open Sys2Proof.Proofs
open Sys2Proof.Proofs.Records

/-! ## A channel that is listed twice (R135) -/

/-- A channel that tracks a signal on a port. -/
def trackingOn (p : Fin 4) : Chan := { Chan.idle with st := .track, port := p }

/-- READY in Boil with the baseband and port 0 enabled; channel 5 stands twice in the list of channels, first on port 1 and
    then on port 0. -/
def listedTwice : State :=
  { TamperEnable.running with
    words := [(Rg.gbbCtrl, 1), (Rg.gbbPortCfg0, 1)]
    gbb := { State.reset.gbb with chans := [(5, trackingOn 1), (5, trackingOn 0)] } }

/-- A port's failure changes nothing where no listed number reads as a channel of the port. -/
theorem portChannelsLost_of_none {s : State} {p : Fin 4} (h : ∀ i ∈ s.gbb.chans.map Prod.fst, (chan s i).port ≠ p) :
    portChannelsLost s p = s := by
  unfold portChannelsLost
  generalize s.gbb.chans.map Prod.fst = l at h
  induction l with
  | nil => rfl
  | cons i r ih =>
    obtain ⟨hi, hr⟩ := List.forall_mem_cons.mp h
    rw [List.foldl_cons]
    dsimp only
    rw [decide_eq_false hi]
    exact ih hr

/-- A sample port without a clock edge fails: its channels are lost, and it is recorded. -/
theorem exec_gspPortFail_clock {s : State} {p : Fin 4} {hz : BitVec 32} (hon : gbbOn s = true)
    (hen : rb s (Rg.gbbPortCfg0 + 4 * p.val) 0 = true) (hok : (gspPort s p).failed = false) :
    exec (.gspPortFail p false hz) s = .next (emit (portChannelsLost (modGbb s fun g =>
      { g with ports := vset g.ports p.val { failed := true, rateKhz := hz.toNat / 1000, cleanAt := some s.now },
               latchPortFail := true }) p) .gbb 0x0004 .degraded p.val (some 1)) := by
  change execGspPortFail p false hz s = _
  unfold execGspPortFail
  dsimp only
  rw [hon, hen, hok]
  rfl

/-- Refutes O37: a state may list a channel twice. The failure of port 0 takes the channel's first entry, which is on
    port 1, and the second one, on port 0, goes on to track. -/
theorem not_channelsAndSearches : ¬ Obligations.ChannelsAndSearches := by
  intro h
  obtain ⟨-, ⟨hport, -⟩, -⟩ := h
  obtain ⟨hfail, -, -⟩ := hport listedTwice 0 false 0 (by decide) (by decide)
  obtain ⟨t, hexec, -, -, -, -, -, hlost⟩ := hfail (.inl rfl) (by decide)
  have hset := exec_gspPortFail_clock (s := listedTwice) (p := 0) (hz := 0) (by decide) (by decide) (by decide)
  have ht := Host.Outcome.next.inj (hset.symm.trans hexec)
  have hchans : t.gbb.chans = listedTwice.gbb.chans := by
    rw [← ht, emit_gbb, portChannelsLost_of_none (by decide)]
    rfl
  rw [hchans] at hlost
  have htrack := hlost (5, trackingOn 0) (List.mem_cons_of_mem _ (List.mem_singleton_self _)) rfl
  exact absurd htrack (by decide)

end Sys2Proof.Proofs.Baseband
end

section
/-! The key store: zeroing of invalidated material, the tamper response and the commands (11_key_store.md R393 to R420). -/
-- One proof after another: the whole text is compiled in one process whose memory is bounded.
set_option Elab.async false
namespace Sys2Proof.Proofs.Keys
open Sys2Proof
open Sys2Proof.Machine
open Sys2Proof.Safety
open Sys2Proof.Laws
open Sys2Proof.Proofs
open Sys2Proof.Proofs.Queries

/-! ## A slot out of order (R402) -/

/-- As at reset, but slot 3, invalid and with material, is listed behind slot 5, and the invalidation that names it is due
    to be zeroed. -/
def slotsUnsorted : State :=
  { State.reset with key := { State.reset.key with
      slots := [(5, { KeySlot.empty with key := 1 }), (3, { KeySlot.empty with key := 7 })]
      inval := [{ host := none, named := 3, slots := [3], tc := 0, committed := true, zeroAt := 0, old := [] }] } }

/-- Refutes O57: in a list of slots out of order an entry behind a higher number is read but not removed. Slot 3 of
    `slotsUnsorted` keeps its material after KEY_MATERIAL_ZERO. -/
theorem not_keyEventsAct : ¬ Obligations.KeyEventsAct := by
  intro h
  obtain ⟨-, hzero, -⟩ := h
  obtain ⟨t, hexec, -, hslots, -⟩ := hzero slotsUnsorted _ (List.mem_singleton_self _) rfl (by decide)
  have ht : exec .keyMaterialZero slotsUnsorted = .next { slotsUnsorted with key := { slotsUnsorted.key with inval := [] } } := rfl
  have hkey := hslots 3 (List.mem_singleton_self _) (by decide)
  rw [← Host.Outcome.next.inj (ht.symm.trans hexec)] at hkey
  exact absurd hkey (by decide)

end Sys2Proof.Proofs.Keys
end

section
/-! The commands of the reference selector (03_reference_selection.md R95, R96, R106, R110, R122). -/
-- One proof after another: the whole text is compiled in one process whose memory is bounded.
set_option Elab.async false
namespace Sys2Proof.Proofs.RefCommands
open Sys2Proof
open Sys2Proof.Machine
open Sys2Proof.Safety
open Sys2Proof.Laws
open Sys2Proof.Proofs.Commands
open Sys2Proof.Proofs.Queries

theorem slotArg_ofNat (i : Fin 16) : slotArg (BitVec.ofNat 8 i.val) = some i := by revert i; decide

theorem toNat_ofNat_slot (i : Fin 16) : (BitVec.ofNat 8 i.val).toNat = i.val := by revert i; decide

/-- A slot's byte and a byte that is 0 or 1 are in range. -/
theorem slotArg_range (i : Fin 16) {b : BitVec 8} (hb : b.toNat ≤ 1) :
    ((slotArg (BitVec.ofNat 8 i.val)).isNone || decide (1 < b.toNat)) = false := by
  rw [slotArg_ofNat, decide_eq_false (Nat.not_lt.mpr hb)]
  rfl

/-- A transaction begins in PREPARE (R98). -/
theorem beginTxn_phase (s : State) (i : Fin 16) (o : TxnOrigin) : (beginTxn s i o).refs.phase = .prepare := by
  unfold beginTxn
  dsimp only
  rw [(txnEvent_only ..).same .refs (by decide), modRefs_refs]

section
variable {s : State} {hd : Hdr} (i : Fin 16)

theorem exec_refQuery (h : Accepts s hd 0x30) :
    ∃ r, exec (.refQuery hd (BitVec.ofNat 8 i.val)) s = .next (answered s hd 0x30 Status.ok 28 r) := by
  have hslot := slotArg_ofNat i
  change ∃ r, execRefQuery hd (BitVec.ofNat 8 i.val) s = _
  unfold execRefQuery
  rw [hslot, cmd_of_inRange (bad := (some i).isNone) h rfl]
  exact ⟨_, congrArg Host.Outcome.next (complete_of_accepts h ..)⟩

theorem exec_refLockout (h : Accepts s hd 0x31) (hfree : standbyHeld s = false) {on : BitVec 8} (hon : on.toNat ≤ 1) {w : Word}
    (hw : w = if on = 1 then getW s (indKey .refs 1 (8 * i.val)) ||| 2 else getW s (indKey .refs 1 (8 * i.val)) &&& ~~~(2 : Word)) :
    exec (.refLockout hd (BitVec.ofNat 8 i.val) on) s = .next (fin (selEval (mirrorSend (putW s (indKey .refs 1 (8 * i.val)) w)
      (.word (indKey .refs 1 (8 * i.val)) w))) hd 0x31 Status.ok) := by
  change execRefLockout hd (BitVec.ofNat 8 i.val) on s = _
  unfold execRefLockout
  rw [cmd_of_inRange h (slotArg_range i hon), toNat_ofNat_slot]
  dsimp only
  rw [hfree, ← hw]
  rfl

theorem exec_refForce (h : Accepts s hd 0x32) (slot_ : BitVec 8) (hslot : slot_ = BitVec.ofNat 8 i.val ∨ slot_ = 0xFF) :
    exec (.refForce hd slot_) s = .next (fin (selEval (modRefs s fun r => { r with force := slotArg slot_ })) hd 0x32 Status.ok) := by
  have hrange : ((slotArg slot_).isNone && slot_ != 0xFF) = false := by
    obtain rfl | rfl := hslot
    · rw [slotArg_ofNat]
      rfl
    · decide
  change execRefForce hd slot_ s = _
  unfold execRefForce
  rw [cmd_of_inRange h hrange]

theorem exec_acceptStep (h : Accepts s hd 0x33) {v : State} (hv : v = lossFirst s) (htime : v.refs.timeSlot = some i)
    (hfreq : v.refs.freqOnly = true) (hmay : mayBegin v = true) (hphase : v.refs.phase ≠ .prepare)
    (hcommit : v.refs.commitAt ≠ some v.now) {mode : BitVec 8} (hmode : mode.toNat ≤ 1) (mx : BitVec 32) :
    exec (.acceptStep hd (BitVec.ofNat 8 i.val) mode mx) s = .next (beginTxn v i (.acceptStep hd (mode = 1) mx.toNat)) := by
  subst hv
  change execAcceptStep hd (BitVec.ofNat 8 i.val) mode mx s = _
  unfold execAcceptStep
  rw [cmd_of_inRange h (slotArg_range i hmode), slotArg_ofNat]
  dsimp only
  rw [hfreq, hmay, decide_eq_false (not_not_intro htime), decide_eq_false hphase, decide_eq_false hcommit]
  rfl

theorem exec_refSwitch (h : Accepts s hd 0x34) (helig : eligibleTime s i = true) (hforced : forced s i = true)
    (hmay : mayBegin s = true) (hen : rb s Rg.refsCtrl 0 = true) (hphase : s.refs.phase = .idle) :
    exec (.refSwitch hd (BitVec.ofNat 8 i.val)) s =
      .next (selPost s.refs.timeSlot s.refs.freqSlot (beginTxn s i (.refSwitch hd))) := by
  have hslot := slotArg_ofNat i
  change execRefSwitch hd (BitVec.ofNat 8 i.val) s = _
  unfold execRefSwitch
  rw [hslot, cmd_of_inRange (bad := (some i).isNone) h rfl]
  dsimp only
  rw [helig, hforced, hmay, hen, if_neg (by decide), if_neg (not_not_intro hphase)]

theorem exec_holdoverForce (h : Accepts s hd 0x35) (hlocked : s.refs.everLocked = true) {on : BitVec 8} (hon : on.toNat ≤ 1) :
    exec (.holdoverForce hd on) s =
      .next (fin (selEval (modRefs s fun r => { r with holdForce := on = 1 })) hd 0x35 Status.ok) := by
  change execHoldoverForce hd on s = _
  unfold execHoldoverForce
  rw [cmd_of_inRange h (decide_eq_false (Nat.not_lt.mpr hon)), hlocked]
  rfl

theorem exec_rankSet (h : Accepts s hd 0x37) (rank_ : BitVec 8) {ovr : BitVec 8} (hovr : ovr.toNat ≤ 1) :
    exec (.rankSet hd (BitVec.ofNat 8 i.val) rank_ ovr) s = .next (fin (selEval (judge
      (modSlot s i fun k => { k with ovr := if ovr = 1 then some rank_ else none }) i)) hd 0x37 Status.ok) := by
  change execRankSet hd (BitVec.ofNat 8 i.val) rank_ ovr s = _
  unfold execRankSet
  rw [cmd_of_inRange h (slotArg_range i hovr), slotArg_ofNat]

theorem exec_ageReset (h : Accepts s hd 0x38) :
    exec (.ageReset hd) s = .next (answered (modRefs s fun r => { r with ageing := [] }) hd 0x38 Status.ok 0 0) := by
  change execAgeReset hd s = _
  unfold execAgeReset
  rw [cmd_of_accepts h]
  exact congrArg Host.Outcome.next (fin_eq_answered (s := modRefs s _) h.kept ..)

end

/-- Settles O36: each command of REFS is one arm; core 2 runs them all. -/
theorem refCommandsAct : Obligations.RefCommandsAct := by
  intro s hd i hkept hready hcore
  have hslot := slotArg_ofNat i
  refine ⟨exec_refQuery i ⟨hready, hcore, hkept⟩, fun hfree on w hon hw => exec_refLockout i ⟨hready, hcore, hkept⟩ hfree hon hw,
    ?_, ?_, fun v mode mx hv htime hfreq hmay hphase hcommit hmode => ⟨?_, beginTxn_phase ..⟩,
    exec_refSwitch i ⟨hready, hcore, hkept⟩, fun hlocked on hon => exec_holdoverForce ⟨hready, hcore, hkept⟩ hlocked hon,
    fun rank_ ovr hovr => exec_rankSet i ⟨hready, hcore, hkept⟩ rank_ hovr, exec_ageReset ⟨hready, hcore, hkept⟩⟩
  · rw [exec_refForce i ⟨hready, hcore, hkept⟩ _ (.inl rfl), hslot]
  · exact exec_refForce i ⟨hready, hcore, hkept⟩ _ (.inr rfl)
  · exact exec_acceptStep i ⟨hready, hcore, hkept⟩ hv htime hfreq hmay hphase hcommit hmode mx

end Sys2Proof.Proofs.RefCommands
end

section
/-! The commands of the Colol links (09_colol_link.md R25, R345, R346, R356). -/
-- One proof after another: the whole text is compiled in one process whose memory is bounded.
set_option Elab.async false
namespace Sys2Proof.Proofs.LinkCommands
open Sys2Proof
open Sys2Proof.Machine
open Sys2Proof.Safety
open Sys2Proof.Laws
open Sys2Proof.Proofs.Commands
open Sys2Proof.Proofs.Queries

theorem linkOf_ofNat (l : Fin 4) : linkOf (BitVec.ofNat 8 l.val) = some l := by revert l; decide

theorem roleOf_code (r : LinkRole) : roleOf (BitVec.ofNat 8 r.code).toNat = some r := by cases r <;> rfl

section
variable {s : State} {hd : Hdr} (l : Fin 4)

theorem exec_linkQuery (h : Accepts s hd 0x90) :
    ∃ r, exec (.linkQuery hd (BitVec.ofNat 8 l.val)) s = .next (answered s hd 0x90 Status.ok 38 r) := by
  have hlink := linkOf_ofNat l
  change ∃ r, execLinkQuery hd (BitVec.ofNat 8 l.val) s = _
  unfold execLinkQuery
  rw [hlink, cmd_of_inRange (bad := (some l).isNone) h rfl]
  exact ⟨_, congrArg Host.Outcome.next (complete_of_accepts h ..)⟩

theorem exec_linkRoleSet (h : Accepts s hd 0x91) {r : LinkRole} (hfits : roleFits s l r = true) (flags : BitVec 8) :
    exec (.linkRoleSet hd (BitVec.ofNat 8 l.val) (BitVec.ofNat 8 r.code) flags) s =
      .next (fin (setRole s l r (flags.getLsbD 0) (flags.getLsbD 1)) hd 0x91 Status.ok) := by
  change execLinkRoleSet hd (BitVec.ofNat 8 l.val) (BitVec.ofNat 8 r.code) flags s = _
  unfold execLinkRoleSet
  rw [linkOf_ofNat, roleOf_code]
  dsimp only
  rw [cmd_of_inRange (bad := !roleFits s l r) h (by rw [hfits]; rfl)]

theorem exec_linkRestart (h : Accepts s hd 0x92) (hst : (link s l).st ≠ .off) :
    exec (.linkRestart hd (BitVec.ofNat 8 l.val)) s = .next (fin (helloToTrain (linkFall s l 4) l) hd 0x92 Status.ok) := by
  have hlink := linkOf_ofNat l
  change execLinkRestart hd (BitVec.ofNat 8 l.val) s = _
  unfold execLinkRestart
  rw [hlink, cmd_of_inRange (bad := (some l).isNone) h rfl]
  exact congrArg Host.Outcome.next (if_neg hst)

end

/-! ## Pinned numbers (R345) -/

/-- The entry that a pin puts at the head of a table. -/
def pinnedEntry (t : List EnumEntry) (ident : BitVec 64) (num : Nat) : EnumEntry :=
  { ident := ident, num := num, pinned := true, present := t.any fun e => e.ident = ident && e.present && e.num = num }

/-- A table after a pin: no other entry keeps the identity or the number. -/
def pinTable (t : List EnumEntry) (ident : BitVec 64) (num : Nat) : List EnumEntry :=
  pinnedEntry t ident num :: t.filter fun e => e.ident != ident && e.num != num

theorem eq_pinnedEntry_of_mem {t : List EnumEntry} {ident : BitVec 64} {num : Nat} {x : EnumEntry} (hx : x ∈ pinTable t ident num)
    (hsame : x.ident = ident ∨ x.num = num) : x = pinnedEntry t ident num := by
  obtain rfl | hrest := List.mem_cons.mp hx
  · rfl
  · have hother := List.of_mem_filter hrest
    rw [Bool.and_eq_true, bne_iff_ne, bne_iff_ne] at hother
    exact (hsame.elim hother.1 hother.2).elim

section
variable {s : State} {hd : Hdr} {table : BitVec 8} {num : BitVec 16}

theorem shelfPin_range (htable : table.toNat ≤ 1) {pin : BitVec 8} (hpin : pin.toNat ≤ 1) (hnum : num ≠ 0)
    (htop : num.toNat ≤ if table = 1 then 1023 else 63) :
    (decide (1 < table.toNat) || decide (1 < pin.toNat) || decide (num = 0) ||
      decide ((if table = 1 then 1023 else 63) < num.toNat)) = false := by
  rw [decide_eq_false (Nat.not_lt.mpr htable), decide_eq_false (Nat.not_lt.mpr hpin), decide_eq_false hnum,
    decide_eq_false (Nat.not_lt.mpr htop)]
  rfl

theorem exec_shelfPin (h : Accepts s hd 0x93) (htable : table.toNat ≤ 1) (hnum : num ≠ 0)
    (htop : num.toNat ≤ if table = 1 then 1023 else 63) (hhere : enumHere s (table = 1) = true) (ident : BitVec 64) :
    exec (.shelfPin hd table 1 num ident) s = .next (answered (setEnumTable s (table = 1)
      (pinTable (enumTable s (table = 1)) ident num.toNat)) hd 0x93 Status.ok 0 0) := by
  change execShelfPin hd table 1 num ident s = _
  unfold execShelfPin
  dsimp only
  rw [shelfPin_range (pin := 1) htable (by decide) hnum htop, if_neg Bool.false_ne_true]
  change cmd s hd 0x93 none _ = _
  rw [cmd_of_accepts h, hhere, if_neg (by decide)]
  exact congrArg Host.Outcome.next (fin_eq_answered (s := setEnumTable s _ _) h.kept ..)

theorem exec_shelfUnpin (h : Accepts s hd 0x93) (htable : table.toNat ≤ 1) (hnum : num ≠ 0)
    (htop : num.toNat ≤ if table = 1 then 1023 else 63) (hhere : enumHere s (table = 1) = true) {ident : BitVec 64}
    (hheld : ((enumTable s (table = 1)).any fun e => e.ident = ident && e.pinned) = true) :
    exec (.shelfPin hd table 0 num ident) s = .next (answered (setEnumTable s (table = 1)
      ((enumTable s (table = 1)).map fun e => if e.ident = ident then { e with pinned := false } else e)) hd 0x93 Status.ok 0 0) := by
  change execShelfPin hd table 0 num ident s = _
  unfold execShelfPin
  dsimp only
  rw [shelfPin_range (pin := 0) htable (by decide) hnum htop, hheld, if_neg Bool.false_ne_true]
  change cmd s hd 0x93 none _ = _
  rw [cmd_of_accepts h, hhere, if_neg (by decide)]
  exact congrArg Host.Outcome.next (fin_eq_answered (s := setEnumTable s _ _) h.kept ..)

end

/-- Settles O51: the commands of a link are its arms; a pin puts its entry at the head of the table that the node keeps. -/
theorem linkCommandsAct : Obligations.LinkCommandsAct := by
  intro s hd l hkept hready hcore
  refine ⟨exec_linkQuery l ⟨hready, rfl, hkept⟩, fun r flags hfits => exec_linkRoleSet l ⟨hready, rfl, hkept⟩ hfits flags,
    exec_linkRestart l ⟨hready, rfl, hkept⟩, fun num ident hpcie hnum htop => ?_, fun num ident hroot hnum htop => ?_,
    fun table num ident htable hnum htop hhere hheld => exec_shelfUnpin ⟨hready, hcore, hkept⟩ htable hnum htop hhere hheld⟩
  · exact ⟨_, _, exec_shelfPin (table := 0) ⟨hready, hcore, hkept⟩ (by decide) hnum htop hpcie ident, rfl, rfl, rfl, rfl,
      fun x hx hsame => eq_pinnedEntry_of_mem hx hsame, rfl, rfl⟩
  · exact ⟨_, _, exec_shelfPin (table := 1) ⟨hready, hcore, hkept⟩ (by decide) hnum htop hroot ident, rfl, rfl, rfl, rfl,
      fun x hx hsame => eq_pinnedEntry_of_mem hx hsame, rfl, rfl⟩

end Sys2Proof.Proofs.LinkCommands
end

section
/-! Reads of stored words depend on the words alone (13_register_behaviour.md R460). -/
-- One proof after another: the whole text is compiled in one process whose memory is bounded.
set_option Elab.async false
namespace Sys2Proof.Proofs.WordReads
open Sys2Proof
open Sys2Proof.Machine

section
variable {s t : State} (h : t.words = s.words)
include h

theorem getW_of_words (k : Nat) : getW t k = getW s k := by
  unfold getW
  rw [h]

theorem rb_of_words (k i : Nat) : rb t k i = rb s k i := by
  unfold rb
  rw [getW_of_words h]

theorem rf_of_words (k hi lo : Nat) : rf t k hi lo = rf s k hi lo := by
  unfold rf
  rw [getW_of_words h]

theorem ind_of_words (b : Blk) (space i : Nat) : ind t b space i = ind s b space i := by
  unfold ind
  rw [getW_of_words h]

end

end Sys2Proof.Proofs.WordReads
end

section
/-! The commands of the Ethernet ports (08_service_ports.md R289, R318, R320). -/
-- One proof after another: the whole text is compiled in one process whose memory is bounded.
set_option Elab.async false
namespace Sys2Proof.Proofs.PortCommands
open Sys2Proof
open Sys2Proof.Machine
open Sys2Proof.Safety
open Sys2Proof.Laws
open Sys2Proof.Proofs.Commands
open Sys2Proof.Proofs.Queries
open Sys2Proof.Proofs.WordReads

theorem portOf_ofNat (p : Fin 9) : portOf (BitVec.ofNat 8 p.val) = some p := by revert p; decide

section
variable {s : State} {hd : Hdr} (p : Fin 9)

theorem exec_portQuery (h : Accepts s hd 0x80) :
    exec (.portQuery hd (BitVec.ofNat 8 p.val)) s = .next (answered s hd 0x80 Status.ok 16 (pack [(0, portWord2 s p),
      (4, (ethPort s p).ssm.toNat), (5, (ethPort s p).essm.toNat), (8, (ethPort s p).changeTs.toNat)])) := by
  have hport := portOf_ofNat p
  change execPortQuery hd (BitVec.ofNat 8 p.val) s = _
  unfold execPortQuery
  rw [hport, cmd_of_inRange (bad := (some p).isNone) h rfl]
  exact congrArg Host.Outcome.next (complete_of_accepts h ..)

theorem exec_portRestart (h : Accepts s hd 0x83) (hpower : portPower s p = true) :
    exec (.portRestart hd (BitVec.ofNat 8 p.val)) s = .next (fin (portStart s p) hd 0x83 Status.ok) := by
  have hport := portOf_ofNat p
  change execPortRestart hd (BitVec.ofNat 8 p.val) s = _
  unfold execPortRestart
  rw [hport, cmd_of_inRange (bad := (some p).isNone) h rfl]
  exact congrArg Host.Outcome.next (if_pos hpower)

end

/-! ## Module transfers (R318) -/

section
variable {s : State} {hd : Hdr} {bus addr len width : BitVec 8} {off : BitVec 16}

/-- What R320 admits of an I2C transfer. -/
theorem modI2c_range (hbus : bus.toNat ≤ 1) (haddr : addr.toNat ≤ 127) (hlen : len ≠ 0) (hmax : len.toNat ≤ 128)
    (hwidth : width = 1 ∧ off.toNat ≤ 255 ∨ width = 2) {rd : BitVec 8} (hrd : rd.toNat ≤ 1) :
    (decide (1 < bus.toNat) || decide (127 < addr.toNat) || decide (1 < rd.toNat) || decide (len.toNat = 0) || decide (128 < len.toNat)
      || decide (width.toNat < 1) || decide (2 < width.toNat) || (decide (width.toNat = 1) && decide (255 < off.toNat))) = false := by
  have hpos : len.toNat ≠ 0 := fun h => hlen (BitVec.eq_of_toNat_eq h)
  obtain ⟨rfl, hoff⟩ | rfl := hwidth
  · simp only [BitVec.reduceToNat, Bool.or_eq_false_iff, Bool.and_eq_false_iff, decide_eq_false_iff_not]
    omega
  · simp only [BitVec.reduceToNat, Bool.or_eq_false_iff, Bool.and_eq_false_iff, decide_eq_false_iff_not]
    omega

theorem exec_modI2c_write (h : Accepts s hd 0x81) (hbus : bus.toNat ≤ 1) (haddr : addr.toNat ≤ 127) (hlen : len ≠ 0)
    (hmax : len.toNat ≤ 128) (hwidth : width = 1 ∧ off.toNat ≤ 255 ∨ width = 2) (buf : BitVec 64) {data b : List Byte}
    (hb : b = data.take len.toNat ++ List.replicate (len.toNat - data.length) 0) :
    exec (.modI2c hd bus addr 0 len off width buf true true data) s =
      .next (complete (emitOut (hostRead s buf.toNat len.toNat) (.i2c bus.toNat (if rb s Rg.ethSbCfg bus.toNat then 400 else 100) addr
        (beBytes width.toNat off.toNat) b 0)) hd 0x81 Status.ok 1 len.toNat) := by
  subst hb
  have hrate := rb_of_words ((hostRead_only s buf.toNat len.toNat).same .words (by decide)) Rg.ethSbCfg bus.toNat
  rw [← hrate]
  change execModI2c hd bus addr 0 len off width buf true true data s = _
  unfold execModI2c
  dsimp only
  rw [cmd_of_inRange h (modI2c_range hbus haddr hlen hmax hwidth (by decide))]
  rfl

theorem exec_modI2c_read (h : Accepts s hd 0x81) (hbus : bus.toNat ≤ 1) (haddr : addr.toNat ≤ 127) (hlen : len ≠ 0)
    (hmax : len.toNat ≤ 128) (hwidth : width = 1 ∧ off.toNat ≤ 255 ∨ width = 2) (buf : BitVec 64) {data b : List Byte}
    (hb : b = data.take len.toNat ++ List.replicate (len.toNat - data.length) 0) :
    exec (.modI2c hd bus addr 1 len off width buf true true data) s =
      .next (complete (hostDma (emitOut s (.i2c bus.toNat (if rb s Rg.ethSbCfg bus.toNat then 400 else 100) addr
        (beBytes width.toNat off.toNat) [] len.toNat)) buf.toNat b) hd 0x81 Status.ok 1 len.toNat) := by
  subst hb
  change execModI2c hd bus addr 1 len off width buf true true data s = _
  unfold execModI2c
  dsimp only
  rw [cmd_of_inRange h (modI2c_range hbus haddr hlen hmax hwidth (by decide))]
  rfl

end

section
variable {s : State} {hd : Hdr} {clause port dev : BitVec 8}

theorem modMdio_range (hclause : clause = 22 ∨ clause = 45) (hport : port.toNat ≤ 31) (hdev : dev.toNat ≤ 31) {rd : BitVec 8}
    (hrd : rd.toNat ≤ 1) : ((clause != 22 && clause != 45) || decide (31 < port.toNat) || decide (31 < dev.toNat) ||
      decide (1 < rd.toNat)) = false := by
  have hknown : (clause != 22 && clause != 45) = false := by obtain rfl | rfl := hclause <;> decide
  rw [hknown, decide_eq_false (Nat.not_lt.mpr hport), decide_eq_false (Nat.not_lt.mpr hdev), decide_eq_false (Nat.not_lt.mpr hrd)]
  rfl

theorem exec_modMdio (h : Accepts s hd 0x82) (hclause : clause = 22 ∨ clause = 45) (hport : port.toNat ≤ 31)
    (hdev : dev.toNat ≤ 31) (reg data val : BitVec 16) {rd : BitVec 8} (hrd : rd.toNat ≤ 1) :
    exec (.modMdio hd clause port dev reg data rd val) s = .next (answered (emitOut s (.mdio clause port dev
      (if clause = 45 then reg else 0) (if rd = 1 then none else some data))) hd 0x82 Status.ok 2 (if rd = 1 then val.toNat else 0)) := by
  change execModMdio hd clause port dev reg data rd val s = _
  unfold execModMdio
  rw [cmd_of_inRange h (modMdio_range hclause hport hdev hrd)]
  exact congrArg Host.Outcome.next (complete_eq_answered (s := emitOut s _) h.kept ..)

end

/-- Settles O48: the commands of a port are their arms; every transfer that is acknowledged in time takes the same one. -/
theorem portCommandsAct : Obligations.PortCommandsAct := by
  intro s hd p hkept hready
  refine ⟨fun hcore => exec_portQuery p ⟨hready, hcore, hkept⟩, fun bus addr len width off buf data b hcore hbus haddr hlen hmax hwidth hb => ?_,
    fun clause port dev reg data val hcore hclause hport hdev => ?_, fun hcore hpower => exec_portRestart p ⟨hready, hcore, hkept⟩ hpower⟩
  · exact ⟨exec_modI2c_write ⟨hready, hcore, hkept⟩ hbus haddr hlen hmax hwidth buf hb,
      exec_modI2c_read ⟨hready, hcore, hkept⟩ hbus haddr hlen hmax hwidth buf hb⟩
  · exact ⟨exec_modMdio ⟨hready, hcore, hkept⟩ hclause hport hdev reg data val (by decide),
      exec_modMdio ⟨hready, hcore, hkept⟩ hclause hport hdev reg data val (by decide)⟩

end Sys2Proof.Proofs.PortCommands
end

section
/-! Records that no fault effect follows: what a notice leaves (16_faults_diagnostics.md R551, R556). -/
-- One proof after another: the whole text is compiled in one process whose memory is bounded.
set_option Elab.async false
namespace Sys2Proof.Proofs.Notices
open Sys2Proof
open Sys2Proof.Machine
open Sys2Proof.Safety
open Sys2Proof.Laws
open Sys2Proof.Proofs.WordReads

section
variable (s : State) (b : Blk) (code detail : Nat) (bit : Option Nat)

/-- What a record without effects of its class may change. -/
def recordParts : List Part := [.out, .pan, .log, .links, .rings, .cnt]

/-- R551: a notice and a degraded record bring about nothing beyond the record and its count. -/
theorem faultEffects_of_mild {r : Rec} (hfatal : r.cls ≠ .fatal) : Only recordParts s (faultEffects s r) := by
  unfold faultEffects
  split
  · contradiction
  · exact (set_pan_only ..).mono (by decide)
  · exact Only.refl _ s

/-- The record of `emitCore`, its class not Fatal. -/
theorem emitCore_mild_only {base : Cls} (hbase : base = .notice ∨ base = .degraded) :
    Only recordParts s (emitCore s b code base detail bit) := by
  unfold emitCore
  extract_lets u esc cls adv r hist faulted figured
  have hcls : r.cls ≠ .fatal := by
    change cls ≠ .fatal
    unfold cls
    obtain rfl | rfl := hbase <;> cases esc <;> decide
  have hhist : Only recordParts s hist :=
    (((Only.refl _ s).step (evDrain_only s) (by decide)).step (seqAdvance_only ..) (by decide)).step (histPut_only ..) (by decide)
  have hfaulted : Only recordParts s faulted := by
    unfold faulted
    split
    · exact hhist.step (modBlk_only ..) (by decide)
    · exact hhist
  have hfigured : Only recordParts s figured := by
    unfold figured
    split
    · exact hfaulted
    · exact hfaulted.step (figFault_only ..) (by decide)
  exact ((hfigured.step (evRoute_only ..) (by decide)).step (faultEffects_of_mild _ hcls) (fun _ => id)).step
    (blkIrq_only ..) (by decide)

theorem emit_notice_only : Only recordParts s (emit s b code .notice detail bit) :=
  emitCore_mild_only s b code detail bit (.inl rfl)

end

theorem pair_of_only {L : List Part} {s t : State} (h : Only L s t) (hpair : Part.pair ∉ L := by decide)
    (hline : Part.line ∉ L := by decide) : t.pair = s.pair := by
  obtain ⟨hlevel, hdrive, hholding, hhigh, hlow, hat, hdemoted⟩ := h.same .line hline
  rw [h.same .pair hpair, hlevel, hdrive, hholding, hhigh, hlow, hat, hdemoted]

theorem lnk_of_only {L : List Part} {s t : State} (h : Only L s t) (hlnk : Part.lnk ∉ L := by decide)
    (hlinks : Part.links ∉ L := by decide) : t.lnk = s.lnk := by
  rw [h.same .lnk hlnk, h.same .links hlinks]

theorem tio_of_only {L : List Part} {s t : State} (h : Only L s t) (htio : Part.tio ∉ L := by decide)
    (houts : Part.outs ∉ L := by decide) : t.tio = s.tio := by
  rw [h.same .tio htio, h.same .outs houts]

theorem hif_of_only {L : List Part} {s t : State} (h : Only L s t) (hhif : Part.hif ∉ L := by decide)
    (hrings : Part.rings ∉ L := by decide) : t.hif = s.hif := by
  obtain ⟨hring, hpba⟩ := h.same .rings hrings
  rw [h.same .hif hhif, hring, hpba]

/-! ## A block's safe state over a notice -/

section
variable {s : State} {b : Blk} (c : Blk)

theorem safe_of_log {t : State} (h : t.log = s.log) : safe t c = safe s c := by
  unfold safe blkStat
  rw [h]

theorem safe_modBlk {f : BlkStat → BlkStat} (h : ∀ k, (f k).safe = k.safe) : safe (modBlk s b f) c = safe s c := by
  unfold safe
  rw [blkStat_modBlk]
  split
  · exact h _
  · rfl

theorem safe_blkIrq : safe (blkIrq s b) c = safe s c := by
  unfold blkIrq
  extract_lets
  split
  · exact (safe_of_log c ((fireSrc_only ..).same .log (by decide))).trans (safe_modBlk c fun _ => rfl)
  · exact safe_modBlk c fun _ => rfl

theorem ringRuns_of_dmaOff (h : rb s Rg.hifCtrl 0 = false) (r : Nat) : ringRuns s r = false := by
  unfold ringRuns
  rw [h, Bool.and_false, Bool.false_and, Bool.false_and]

theorem safe_seqAdvance (bit : Option Nat) : safe (seqAdvance s b bit) c = safe s c := safe_modBlk c fun _ => rfl

theorem safe_histPut (r : Rec) : safe (histPut s r) c = safe s c := safe_modBlk c fun _ => rfl

theorem safe_figFault (cls : Cls) : safe (figFault s b cls) c = safe s c :=
  safe_of_log c ((figFault_only ..).same .log (by decide))

theorem evDrain_idle (hdma : rb s Rg.hifCtrl 0 = false) (hpend : s.log.pend = []) : evDrain s = s := by
  unfold evDrain evFree
  rw [ringRuns_of_dmaOff hdma, hpend]
  rfl

theorem evRoute_notice_idle (hdma : rb s Rg.hifCtrl 0 = false) {r : Rec} (hcls : r.cls = .notice) : evRoute s r = s := by
  unfold evRoute
  rw [hcls, ringRuns_of_dmaOff hdma]
  rfl

/-- A notice of an engine whose rings do not run, with no record pending, leaves every block's safe state. -/
theorem safe_emit_ptpNotice (hdma : rb s Rg.hifCtrl 0 = false) (hpend : s.log.pend = []) (code detail : Nat) (bit : Option Nat) :
    safe (emit s .ptp code .notice detail bit) c = safe s c := by
  change safe (blkIrq (evRoute (figFault (histPut (seqAdvance (evDrain s) .ptp bit) _) .ptp .notice) _) .ptp) c = _
  rw [evDrain_idle hdma hpend, evRoute_notice_idle _ rfl, safe_blkIrq, safe_figFault, safe_histPut, safe_seqAdvance]
  rw [rb_of_words ((figFault_only ..).same .words (by decide))]
  exact hdma

end

end Sys2Proof.Proofs.Notices
end

section
/-! What a change of a mirrored key entry takes from the key store (10_redundant_pair.md R374, 11_key_store.md R399, R408). -/
-- One proof after another: the whole text is compiled in one process whose memory is bounded.
set_option Elab.async false
namespace Sys2Proof.Proofs.MirroredKeys
open Sys2Proof
open Sys2Proof.Machine
open Sys2Proof.Safety
open Sys2Proof.Laws
open Sys2Proof.Proofs
open Sys2Proof.Proofs.Commands
open Sys2Proof.Proofs.Queries
open Sys2Proof.Proofs.Notices
open Sys2Proof.Proofs.WordReads

/-! ## An active unit that mirrors its keys -/

/-- READY in Boil as the active unit of a pair whose partner is ready: slot 3 holds an exportable key for cookies and for
    ICVs, slot 4 the pair key, the store is served; security entry 0 holds slot 3 and its rotation is due. -/
def mirroring : State :=
  { TamperEnable.running with
    words := [(Rg.keyCtrl, 1)]
    ctl := { Ctl.reset with run := #v[2, 2, 2, 2] }
    pair := { State.reset.pair with holding := true, st := .ready, keySlot := some 4 }
    key := { State.reset.key with store := .keyed, slots := [(3, { attr := 0x253F, key := 1 }), (4, { attr := 0x2410, key := 1 })] } }

/-- The same with security entry 0 under slot 3, to become CURRENT now. -/
def rotating : State :=
  { mirroring with ptp := { mirroring.ptp with
      keys := mirroring.ptp.keys.set 0 { SecKey.empty with keyId := 1, slot := 3, st := .accept }
      rotate := [(0, 0)] } }

/-! ## The draw that wraps a mirrored key (R399, R408) -/

/-- The header of the commands below. -/
def host : Hdr := ⟨0, 0, false⟩

/-- COOKIE_KEY_LOAD of the active unit mirrors the entry with its slot's key, wrapped under a nonce that the random source
    gives. -/
theorem exec_cookieKeyLoad_mirroring : exec (.cookieKeyLoad host 0 3 1) mirroring =
    .next (fin (mirrorCookie (modCk mirroring 0 fun _ => { keyId := 1, slot := 3, st := .accept, unsealed := 0, retireAt := none }) 0
      false) host 0x61 Status.ok) := rfl

theorem exec_secKeyLoad_mirroring : exec (.secKeyLoad host 0 3 0 0 1) mirroring =
    .next (fin (mirrorSec (modSec mirroring 0 fun _ => { SecKey.empty with keyId := 1, slot := 3, spp := 0, cmac := false, st := .accept })
      0 false) host 0x73 Status.ok) := rfl

theorem exec_secKeyRotateInstant_rotating : exec (.secKeyRotateInstant 0) rotating =
    .next (mirrorSec (secRotate rotating 0 0) 0 false) :=
  congrArg Host.Outcome.next (if_pos (Nat.zero_le _))

/-! ## A rotation (R273) -/

/-- `rotating` after the rotation of security entry 0, before the notice of it. -/
def rotated : State :=
  keyBack (modPtp (keepSecs rotating 0) fun p => { p with keys := rotateSec p.keys 0, rotate := p.rotate.filter fun r => r.1 != 0 })

theorem secRotate_rotating : ∃ detail, secRotate rotating 0 0 = emit rotated .ptp 0x0005 .notice detail (some 4) := by
  unfold secRotate rotated
  exact ⟨_, rfl⟩

theorem keyBack_keys (s : State) : (keyBack s).ptp.keys = s.ptp.keys := by
  unfold keyBack
  induction List.finRange 16 generalizing s with
  | nil => rfl
  | cons i rest ih =>
    rw [List.foldl_cons, ih]
    split <;> rfl

theorem rotated_entry : rotated.ptp.keys[(0 : Fin 64)] = { SecKey.empty with keyId := 1, slot := 3, st := .current } := by
  unfold rotated
  rw [keyBack_keys]
  unfold rotateSec
  change (vmod _ 0 _)[0] = _
  rw [show ∀ (v : Vector SecKey 64) (f : SecKey → SecKey), (vmod v 0 f)[0] = f v[0] from fun v f => Vector.getElem_set_self ..,
    Vector.getElem_map]
  rfl

theorem rotated_only : Only [.ptp] rotating rotated := by
  unfold rotated keepSecs
  exact ((set_ptp_only ..).mono (by decide)).step (keyBack_only _) (by decide)

/-- The mirror record of an entry whose key may leave takes one draw (R374, R399). -/
theorem mirrorSec_draws {u : State} {i : Fin 64} {w : BitVec 8} (hon : mirrorOn u = true) (hst : u.ptp.keys[i].st ≠ .empty)
    (hpair : u.pair.keySlot = some w) (hleave : ((keySlot u u.ptp.keys[i].slot.toNat).valid &&
      (keySlot u u.ptp.keys[i].slot.toNat).attr.getLsbD 8 && keyServed u && (keySlot u w.toNat).valid) = true) :
    (mirrorSec u i false).key.draws = u.key.draws + 1 := by
  have hkey : mirrorKey u u.ptp.keys[i].slot.toNat = ((keySlot u u.ptp.keys[i].slot.toNat).attr,
      (wrapBlob u u.ptp.keys[i].slot.toNat w.toNat).1, true, (wrapBlob u u.ptp.keys[i].slot.toNat w.toNat).2) := by
    unfold mirrorKey
    rw [hpair]
    exact if_pos hleave
  unfold mirrorSec
  rw [hon, if_neg (by decide)]
  dsimp only
  rw [if_neg hst, hkey]
  dsimp only
  rw [show ∀ t r, (mirrorPut t false false r).key = t.key from fun t r => (mirrorPut_only ..).same .key (by decide)]
  exact congrArg Key.draws ((perfAdd_only ..).same .key (by decide))

/-- The rotated entry, after the notice of its rotation, is mirrored with one draw. -/
theorem mirrorSec_rotated_draws {u : State} {detail : Nat} (hu : u = emit rotated .ptp 0x0005 .notice detail (some 4)) :
    (mirrorSec u 0 false).key.draws = 1 := by
  have hkept : Only (.ptp :: recordParts) rotating u := by
    rw [hu]
    exact (rotated_only.mono (by decide)).step (emit_notice_only ..) (by decide)
  have hptp : u.ptp.keys = rotated.ptp.keys := by
    rw [hu, (emit_notice_only ..).same .ptp (by decide)]
  have hsafe : ∀ c, safe u c = safe rotating c := fun c => by
    rw [hu, safe_emit_ptpNotice]
    · exact safe_of_log c (rotated_only.same .log (by decide))
    · rw [rb_of_words (rotated_only.same .words (by decide))]
      rfl
    · rw [rotated_only.same .log (by decide)]
      rfl
  have hpair : u.pair = rotating.pair := pair_of_only hkept
  rw [mirrorSec_draws (w := 4), hkept.same .key (by decide)]
  · rfl
  · unfold mirrorOn coreUp
    rw [hpair, hsafe, hkept.same .ctl (by decide), hkept.same .mem (by decide)]
    rfl
  · rw [hptp, rotated_entry]
    decide
  · rw [hpair]
    rfl
  · rw [hptp, rotated_entry]
    unfold keySlot keyServed
    rw [hkept.same .key (by decide), hsafe, rb_of_words (hkept.same .words (by decide))]
    rfl

/-- Refutes O44: the loaded entry is mirrored at once, and the nonce that wraps its key is a draw of the key store's random
    source. In `mirroring`, a state of an active unit with a ready partner, the key store is not as before. -/
theorem not_serviceCommandsAct : ¬ Obligations.ServiceCommandsAct := by
  intro h
  obtain ⟨-, hload, -⟩ := h mirroring host (by decide) rfl (by decide)
  obtain ⟨t, hexec, -, -, hkey⟩ := hload 0 3 1 (by decide) (by decide) (by decide) (by decide) (by decide)
  have ht := Host.Outcome.next.inj (exec_cookieKeyLoad_mirroring.symm.trans hexec)
  have hdraws : (answered t host 0x61 Status.ok 0 0).key.draws = 1 := by
    rw [← ht]
    rfl
  exact absurd ((congrArg Key.draws hkey).symm.trans hdraws) (by decide)

/-- Refutes O46: a security entry's load is mirrored in the same way, with a draw of the random source. -/
theorem not_ptpCommandsAct : ¬ Obligations.PtpCommandsAct := by
  intro h
  obtain ⟨-, -, hload, -⟩ := h mirroring host (by decide) rfl (by decide)
  obtain ⟨t, hexec, -, -, -, -, -, hkey⟩ := hload 0 3 0 0 1 (by decide) (by decide) (by decide) (by decide) (by decide)
  have ht := Host.Outcome.next.inj (exec_secKeyLoad_mirroring.symm.trans hexec)
  have hdraws : (answered t host 0x73 Status.ok 0 0).key.draws = 1 := by
    rw [← ht]
    rfl
  exact absurd ((congrArg Key.draws hkey).symm.trans hdraws) (by decide)

/-- Refutes O45: a rotation that takes effect is mirrored with the entry's wrapped key, and so draws from the random
    source. -/
theorem not_ptpEventsAct : ¬ Obligations.PtpEventsAct := by
  intro h
  obtain ⟨-, -, -, -, -, -, hrotate, -⟩ := h
  obtain ⟨t, hexec, -, -, -, hkey⟩ := hrotate rotating 0 0 rfl (by decide)
  have ht := Host.Outcome.next.inj (exec_secKeyRotateInstant_rotating.symm.trans hexec)
  have hdraws : t.key.draws = 1 := by
    obtain ⟨detail, hrotated⟩ := secRotate_rotating
    rw [← ht]
    exact mirrorSec_rotated_draws hrotated
  rw [hkey] at hdraws
  exact absurd hdraws (by decide)

end Sys2Proof.Proofs.MirroredKeys
end

section
/-! TRIG_ARM, TRIG_STOP and FREQ_SYNC (05_timed_io.md R186, R190, R191, R205). -/
-- One proof after another: the whole text is compiled in one process whose memory is bounded.
set_option Elab.async false
namespace Sys2Proof.Proofs.Triggers
open Sys2Proof
open Sys2Proof.Machine
open Sys2Proof.Safety
open Sys2Proof.Laws
open Sys2Proof.Proofs.Commands
open Sys2Proof.Proofs.Queries
open Sys2Proof.Proofs.Notices
open Sys2Proof.Proofs.WordReads

theorem trigBlock_arm {s : State} {pin : BitVec 8} {block : BitVec 256} {x : Trig} (h : trigBlock s pin block = some x) :
    x.arm = s.tio.armSeq := by
  unfold trigBlock at h
  extract_lets at h
  obtain ⟨-, hx⟩ := Option.ite_none_right_eq_some.mp h
  obtain rfl := Option.some.inj hx
  rfl

/-- The pin that a command's argument names. -/
theorem pin_ofNat (p : Fin 16) : (BitVec.ofNat 8 p.val).toNat = p.val := by revert p; decide

theorem trigs_vget (v : Vector (Option Trig) 16) (p : Fin 16) : vget v none p.val = v[p] := dif_pos p.isLt

theorem trigs_vset (v : Vector (Option Trig) 16) (p : Fin 16) (x : Option Trig) : vset v p.val x = v.set p x := dif_pos p.isLt

theorem standbyHeld_of_pair {s t : State} (h : t.pair = s.pair) : standbyHeld t = standbyHeld s := by
  unfold standbyHeld
  rw [h]

section
variable {s : State} {hd : Hdr}

/-- R190: an arm of a free pin, its start far enough ahead. -/
theorem exec_trigArm (h : Accepts s hd 0x50) (hpair : standbyHeld s = false) (hon : rb s Rg.tioCtrl 0 = true) {p : Fin 16}
    {addr : BitVec 64} {block : BitVec 256} {x : Trig} (hblock : trigBlock s (BitVec.ofNat 8 p.val) block = some x)
    (hfree : s.tio.trigs[p] = none) (hahead : subNs s.tco.counter + 10000 * 65536 ≤ x.startSec * subSec + x.startSub) :
    exec (.trigArm hd (BitVec.ofNat 8 p.val) ⟨addr, block⟩) s = .next (answered (mirrorTrig
      (modTio (hostRead s addr.toNat 32) fun k => { k with trigs := k.trigs.set p (some x), armSeq := k.armSeq + 1 }) p.val x)
      hd 0x50 Status.ok 4 x.arm.toNat) := by
  have hread := hostRead_only s addr.toNat 32
  change execTrigArm hd (BitVec.ofNat 8 p.val) ⟨addr, block⟩ s = _
  unfold execTrigArm
  rw [hblock]
  dsimp only
  rw [cmd_of_inRange (bad := (some x).isNone) h rfl, rb_of_words (hread.same .words (by decide)), hon,
    standbyHeld_of_pair (pair_of_only hread), hpair, tio_of_only hread, hread.same .tco (by decide), if_neg (by decide), pin_ofNat,
    trigs_vget, hfree, if_neg (by decide), if_neg (Nat.not_lt.mpr hahead)]
  simp only [modTio, trigs_vset]
  rw [complete_eq_answered]
  · rw [(mirrorTrig_only ..).same .hif (by decide)]
    exact (congrArg (List.contains · hd) (congrArg Hif.discard (hread.same .hif (by decide)))).trans h.kept

end

theorem trigStop_range (p : Fin 16) {mode : BitVec 8} (hmode : mode.toNat ≤ 1) {sec : BitVec 64} (hsec : sec.toNat < 2 ^ 48)
    {ns : BitVec 32} (hns : ns.toNat < 1000000000) : (decide (15 < (BitVec.ofNat 8 p.val).toNat) || decide (1 < mode.toNat) ||
      decide (2 ^ 48 ≤ sec.toNat) || decide (1000000000 ≤ ns.toNat)) = false := by
  rw [pin_ofNat, decide_eq_false (by omega), decide_eq_false (by omega), decide_eq_false (by omega), decide_eq_false (by omega)]
  rfl

section
variable {s : State} {hd : Hdr} (h : Accepts s hd 0x51) (hpair : standbyHeld s = false) {p : Fin 16} {x : Trig}
  (hx : s.tio.trigs[p] = some x) {sec : BitVec 64} {ns : BitVec 32} (hsec : sec.toNat < 2 ^ 48) (hns : ns.toNat < 1000000000)
include h hpair hx hsec hns

/-- R191: a stop at once, after an edge of the present tick. -/
theorem exec_trigStop_now : ∃ t, Only [.out, .pan, .log, .line, .links, .rings, .cnt, .outs, .tio] s t ∧
    ∃ n, exec (.trigStop hd (BitVec.ofNat 8 p.val) 0 sec ns) s = .next (complete (trigEnd t p.val n) hd 0x51 Status.ok 4 (sat32 n)) := by
  change ∃ t, _ ∧ ∃ n, execTrigStop hd (BitVec.ofNat 8 p.val) 0 sec ns s = _
  refine ⟨if trigDue s p x then trigFire s p x else s, ?_, ?n, ?_⟩
  case refine_2 =>
    unfold execTrigStop
    rw [trigStop_range p (by decide) hsec hns, pin_ofNat, trigs_vget, hx]
    dsimp only
    rw [if_neg Bool.false_ne_true]
    change cmd s hd 0x51 none _ = _
    rw [cmd_of_accepts h, trigs_vget, hx, hpair, Fin.ofNat_val_eq_self]
    rfl
  case refine_1 =>
    split
    · exact trigFire_only ..
    · exact Only.refl _ s

/-- R191: a stop at an instant, from which on no edge is emitted. -/
theorem exec_trigStop_at : exec (.trigStop hd (BitVec.ofNat 8 p.val) 1 sec ns) s = .next (complete (trigSettle (mirrorTrig
    { s with tio := { s.tio with trigs := s.tio.trigs.set p (some { x with stopAt := some (sec.toNat * subSec + ns.toNat * 65536) }) } } p.val
    { x with stopAt := some (sec.toNat * subSec + ns.toNat * 65536) }) p.val) hd 0x51 Status.ok 4 (sat32 x.emitted)) := by
  change execTrigStop hd (BitVec.ofNat 8 p.val) 1 sec ns s = _
  unfold execTrigStop
  rw [trigStop_range p (by decide) hsec hns, pin_ofNat, trigs_vget, hx]
  dsimp only
  rw [if_neg Bool.false_ne_true]
  change cmd s hd 0x51 none _ = _
  rw [cmd_of_accepts h, trigs_vget, hx, hpair]
  simp only [modTio, trigs_vset]
  rfl

end

/-- A trigger that has ended is gone from its pin. -/
theorem trigEnd_trigs (s : State) (p : Fin 16) (n : Nat) : (trigEnd s p.val n).tio.trigs[p] = none := by
  unfold trigEnd
  extract_lets t
  rw [(emit_only ..).same .tio (by decide)]
  change (vset t.tio.trigs p.val none)[p] = none
  rw [vset, dif_pos p.isLt]
  exact Vector.getElem_set_self ..

/-! ## FREQ_SYNC (R186) -/

/-- An output that a FREQ_SYNC names is armed for its restart. -/
def freqSyncArm (mask : BitVec 8) (sec : Nat) (s : State) (n : Nat) : State :=
  if mask.getLsbD n then modTio s fun t => { t with freq := vmod t.freq n fun g => { g with syncArmed := true, lastSec := some sec } }
  else s

theorem exec_freqSync {s : State} {hd : Hdr} (h : Accepts s hd 0x54) {mask : BitVec 8} (hmask : mask.toNat ≤ 3)
    (hfree : ∀ n : Fin 2, mask.getLsbD n.val = true → freqMode s n.val = 0) : exec (.freqSync hd mask) s =
      .next (fin (freqSyncArm mask (secOf s.tco.counter) (freqSyncArm mask (secOf s.tco.counter) s 0) 1) hd 0x54 Status.ok) := by
  change execFreqSync hd mask s = _
  unfold execFreqSync
  have hnone : (List.range 2).any (fun n => mask.getLsbD n && freqMode s n != 0) = false := by
    rw [List.any_eq_false]
    intro n hn
    rw [Bool.and_eq_true, bne_iff_ne]
    exact fun hset => hset.2 (hfree ⟨n, List.mem_range.mp hn⟩ hset.1)
  rw [cmd_of_inRange h (decide_eq_false (Nat.not_lt.mpr hmask)), hnone]
  rfl

theorem freqSyncArm_kept (mask : BitVec 8) (sec : Nat) (s : State) (n : Nat) : (freqSyncArm mask sec s n).hif = s.hif := by
  unfold freqSyncArm
  split <;> rfl

theorem freqSyncArm_tco (mask : BitVec 8) (sec : Nat) (s : State) (n : Nat) : (freqSyncArm mask sec s n).tco = s.tco := by
  unfold freqSyncArm
  split <;> rfl

theorem freqSyncArm_freq (mask : BitVec 8) (sec : Nat) (s : State) (n : Nat) (m : Fin 2) : (freqSyncArm mask sec s n).tio.freq[m] =
    if mask.getLsbD n = true ∧ n = m.val then { s.tio.freq[m] with syncArmed := true, lastSec := some sec } else s.tio.freq[m] := by
  unfold freqSyncArm
  split
  · next hset =>
    change (vmod s.tio.freq n _)[m.val] = _
    unfold vmod
    split
    · rw [Vector.getElem_set]
      by_cases hn : n = m.val
      · subst hn
        simp [hset]
      · simp [hn]
    · next hn => rw [if_neg (by omega)]; rfl
  · next hclear => simp [hclear]

/-- Settles O42: each command is its arm; the edge of the present tick that a stop at once lets out keeps the time core. -/
theorem triggerCommandsAct : Obligations.TriggerCommandsAct := by
  intro s hd h hpair
  have h51 : Accepts s hd 0x51 := ⟨h.ready, rfl, h.kept⟩
  refine ⟨fun p addr block x hon hblock hfree hahead => ?_, fun p x sec ns hx hsec hns => ⟨?_, exec_trigStop_at h51 hpair hx hsec hns⟩,
    fun mask hmask hfree => ?_⟩
  · have hread := hostRead_only s addr.toNat 32
    have htio := tio_of_only (mirrorTrig_only (modTio (hostRead s addr.toNat 32) fun k =>
      { k with trigs := k.trigs.set p (some x), armSeq := k.armSeq + 1 }) p.val x)
    have hbefore := tio_of_only hread
    refine ⟨_, exec_trigArm h hpair hon hblock hfree hahead, ?_, ?_, trigBlock_arm hblock, ?_, ?_⟩
    · rw [htio]
      exact Vector.getElem_set_self ..
    · rw [htio, ← hbefore]
      rfl
    · exact ((mirrorTrig_only ..).same .tco (by decide)).trans (hread.same .tco (by decide))
    · rw [htio, ← hbefore]
      rfl
  · obtain ⟨t, hkept, n, hexec⟩ := exec_trigStop_now h51 hpair hx hsec hns
    have hend : Only [.out, .pan, .log, .line, .pair, .links, .rings, .cnt, .outs, .tio] s (trigEnd t p.val n) :=
      (hkept.mono (by decide)).step (trigEnd_only t p.val n) (by decide)
    refine ⟨_, hexec, ?_, ends_complete ?_ .., ?_⟩
    · rw [(complete_only ..).same .tio (by decide)]
      exact trigEnd_trigs t p n
    · rw [hend.same .hif (by decide)]
      exact h.kept
    · exact ((complete_only ..).same .tco (by decide)).trans (hend.same .tco (by decide))
  · refine ⟨_, (exec_freqSync ⟨h.ready, rfl, h.kept⟩ hmask hfree).trans (congrArg _ (fin_eq_answered ?_ ..)), fun n => ⟨?_, ?_⟩, ?_⟩
    · rw [freqSyncArm_kept, freqSyncArm_kept]
      exact h.kept
    · intro hset
      change (freqSyncArm mask _ (freqSyncArm mask _ s 0) 1).tio.freq[n].syncArmed = true
      rw [freqSyncArm_freq, freqSyncArm_freq]
      obtain rfl | rfl : n = 0 ∨ n = 1 := by omega
      · rw [if_neg (fun hand => absurd hand.2 (by decide)), if_pos ⟨hset, rfl⟩]
      · rw [if_pos ⟨hset, rfl⟩]
    · intro hclear
      have hother : ∀ m, ¬(mask.getLsbD m = true ∧ m = n.val) := fun m hand => by
        rw [hand.2, hclear] at hand
        exact Bool.false_ne_true hand.1
      change (freqSyncArm mask _ (freqSyncArm mask _ s 0) 1).tio.freq[n] = _
      rw [freqSyncArm_freq, freqSyncArm_freq, if_neg (hother _), if_neg (hother _)]
    · rw [freqSyncArm_tco, freqSyncArm_tco]

end Sys2Proof.Proofs.Triggers
end

section
/-! The commands of the pair (10_redundant_pair.md R364, R370, R372, R373, R378, R387). -/
-- One proof after another: the whole text is compiled in one process whose memory is bounded.
set_option Elab.async false
namespace Sys2Proof.Proofs.PairCommands
open Sys2Proof
open Sys2Proof.Machine
open Sys2Proof.Safety
open Sys2Proof.Laws
open Sys2Proof.Proofs.Commands
open Sys2Proof.Proofs.Queries
open Sys2Proof.Proofs.Records
open Sys2Proof.Proofs.Notices
open Sys2Proof.Proofs.WordReads

/-! ## The key slots through a ceremony's draws -/

theorem draw_slots (s : State) : (draw s).2.key.slots = s.key.slots := by
  unfold draw
  dsimp only
  rw [(perfAdd_only ..).same .key (by decide)]
  rfl

theorem signDigest_slots (s : State) (slot digest : Nat) : (signDigest s slot digest).2.key.slots = s.key.slots := draw_slots s

theorem sendAttest_slots (s : State) : (sendAttest s).key.slots = s.key.slots := by
  unfold sendAttest
  split
  · split
    · rfl
    · split
      · rfl
      · dsimp only
        rw [(linkSend_only ..).same .key (by decide), signDigest_slots]
  · rfl

section
variable {s : State} {hd : Hdr}

theorem exec_pairQuery (h : Accepts s hd 0xA0) : exec (.pairQuery hd) s = .next (answered s hd 0xA0 Status.ok 26
    (pack [(0, pairStateWord s), (4, s.pair.partner.teb.toNat), (8, s.pair.mgen.toNat), (12, selfCheck s),
      (16, uInt 64 (pairOffset s)), (24, s.pair.partner.qual.toNat)])) := by
  change execPairQuery hd s = _
  unfold execPairQuery
  rw [cmd_of_accepts h, complete_of_accepts h]

theorem exec_pairForget (h : Accepts s hd 0xA2) {k : BitVec 8} (hk : s.pair.keySlot = some k) : exec (.pairForget hd) s =
    .next (answered (modPair (if (keySlot s k.toNat).valid then beginInval s none k.toNat else s) fun p =>
      { p with keySlot := none, peer := none, stored := none, mirrorDone := false, waiting := [], readyAt := none,
               st := if p.cer.isSome then .pairing else .unpaired }) hd 0xA2 Status.ok 0 0) := by
  change execPairForget hd s = _
  unfold execPairForget
  rw [cmd_of_accepts h, hk]
  refine congrArg Host.Outcome.next (fin_eq_answered ?_ ..)
  change (if _ then _ else _ : State).hif.discard.contains hd = false
  split
  · rw [(beginInval_only ..).same .hif (by decide)]
    exact h.kept
  · exact h.kept

theorem exec_pairSwap (h : Accepts s hd 0xA3) (hholding : s.pair.holding = true) (hready : partnerReady s = true)
    (hsafe : safe s .pair = false) (hswap : s.pair.swap = none) : exec (.pairSwap hd) s = .next (proposeSwap s (some hd)) := by
  change execPairSwap hd s = _
  unfold execPairSwap
  rw [cmd_of_accepts h, hholding, hready, hsafe, hswap]
  rfl

theorem lineRelease_tco (s : State) : (lineRelease s).tco = s.tco := (lineRelease_only s).same .tco (by decide)

theorem ts32_handed (s : State) (ts : BitVec 128) : ts32 (modPair (lineRelease s) fun p => { p with lastHand := ts }) = ts32 s :=
  congrArg (fun t : Tco => ts32Of t.counter) (lineRelease_tco s)

/-- The unit lets the line go at `ts` and records its change of role (R364, R386). -/
def handBack (s : State) (ts : BitVec 128) : State :=
  roleChange (modPair (lineRelease s) fun p => { p with lastHand := ts }) false 5 false (ts32 s)

theorem handBack_leaves (s : State) (ts : BitVec 128) : LineFree (handBack s ts) ∧ (handBack s ts).pair.lastHand = ts ∧
    (handBack s ts).hif.discard = s.hif.discard ∧ (handBack s ts).tco = s.tco := by
  have hrole := roleChange_only (modPair (lineRelease s) fun p => { p with lastHand := ts }) false 5 false (ts32 s)
  refine ⟨LineFree.panLog (LineFree.emitCore (s := modPair (lineRelease s) fun p => { p with lastHand := ts })
    (lineRelease_lineFree s) ..) .., congrArg Pair.lastHand (hrole.same .pair (by decide)), ?_, ?_⟩
  · exact (discard_of_only hrole).trans (discard_of_only (lineRelease_only s) :)
  · exact (hrole.same .tco (by decide)).trans (lineRelease_tco s)

theorem exec_pairRelease (h : Accepts s hd 0xA4) (hholding : s.pair.holding = true) : exec (.pairRelease hd) s =
    .next (complete (handBack s (tsNow s)) hd 0xA4 Status.ok 16 (tsNow s).toNat) := by
  change execPairRelease hd s = _
  unfold execPairRelease
  rw [cmd_of_accepts h, hholding]
  dsimp only
  rw [if_neg (by decide), ts32_handed]
  rfl

theorem exec_pairResync (h : Accepts s hd 0xA5) (hholding : s.pair.holding = true) (hseen : s.pair.partner.seen = true) :
    exec (.pairResync hd) s = .next (complete (snapshot s) hd 0xA5 Status.ok 4 (snapshot s).pair.mgen.toNat) := by
  change execPairResync hd s = _
  unfold execPairResync
  rw [cmd_of_accepts h, hholding, hseen]
  rfl

end

/-! ## PAIR_BEGIN (R370) -/

/-- The ceremony that a PAIR_BEGIN opens. -/
def openedCeremony (s : State) (hd : Hdr) (slot : BitVec 8) (hash : List Byte) (nonce eph : Nat) : Ceremony :=
  { host := hd, slot := slot, hash := BitVec.ofNat 384 (beNat (hash.take 48)), started := s.now, nonce := BitVec.ofNat 256 nonce,
    ephPriv := eph % (p384Order - 1) + 1,
    peerNonce := match s.pair.heldHello with
      | some (x, t) => if s.now ≤ t + ticksS 5 then some x else none
      | none => none,
    peerEph := none, key := none, prior := KeySlot.empty }

/-- The HELLO of a ceremony that has opened, and its ATTEST where the partner's HELLO has come. -/
def beginCeremony (s : State) (l : Fin 4) (c : Ceremony) : State :=
  if c.peerNonce.isSome then
    sendAttest (linkSend (modPair s fun p => { p with cer := some c, heldHello := none, st := .pairing }) l (.pairHello c.nonce))
  else linkSend (modPair s fun p => { p with cer := some c, heldHello := none, st := .pairing }) l (.pairHello c.nonce)

theorem beginCeremony_pair (s : State) (l : Fin 4) (c : Ceremony) :
    (beginCeremony s l c).pair = { s.pair with cer := some c, heldHello := none, st := .pairing } := by
  unfold beginCeremony
  split
  · rw [pair_of_only (sendAttest_only _), pair_of_only (linkSend_only ..)]
    rfl
  · rw [pair_of_only (linkSend_only ..)]
    rfl

theorem beginCeremony_slots (s : State) (l : Fin 4) (c : Ceremony) : (beginCeremony s l c).key.slots = s.key.slots := by
  unfold beginCeremony
  split
  · rw [sendAttest_slots, (linkSend_only ..).same .key (by decide)]
    rfl
  · rw [(linkSend_only ..).same .key (by decide)]
    rfl

theorem exec_pairBegin {s : State} {hd : Hdr} (h : Accepts s hd 0xA1) {slot : BitVec 8} (hslot : 3 ≤ slot.toNat) {l : Fin 4}
    (hlink : pairLink s = some l) (hstore : storeState s = .keyed) (hserved : keyServed s = true) (hcer : s.pair.cer = none)
    (htamper : tamperWaits s = false) (addr : BitVec 64) (hash : List Byte) : ∃ u nonce eph, u.pair = s.pair ∧ u.now = s.now ∧
      u.key.slots = s.key.slots ∧
      exec (.pairBegin hd slot addr hash) s = .next (beginCeremony u l (openedCeremony u hd slot hash nonce eph)) := by
  have hread := hostRead_only s addr.toNat 48
  have hdraw := draw_only (hostRead s addr.toNat 48)
  have hdraw' := draw_only (draw (hostRead s addr.toNat 48)).2
  refine ⟨(draw (draw (hostRead s addr.toNat 48)).2).2, (draw (hostRead s addr.toNat 48)).1,
    (draw (draw (hostRead s addr.toNat 48)).2).1, ?_, ?_, ?_, ?_⟩
  · rw [pair_of_only hdraw', pair_of_only hdraw, pair_of_only hread]
  · exact ((hdraw'.same .time (by decide)).1.trans (hdraw.same .time (by decide)).1).trans (hread.same .time (by decide)).1
  · rw [draw_slots, draw_slots, hread.same .key (by decide)]
  · change execPairBegin hd slot addr hash s = _
    unfold execPairBegin
    rw [cmd_of_inRange h (decide_eq_false (Nat.not_lt.mpr hslot)), hlink]
    dsimp only
    rw [hstore, hserved, hcer, htamper]
    rfl

/-- Settles O54: each command is its arm; the records and frames that go with it leave the rest of PAIR. -/
theorem pairCommandsAct : Obligations.PairCommandsAct := by
  intro s hd hkept hready hcore
  refine ⟨exec_pairQuery ⟨hready, hcore, hkept⟩, fun slot addr hash l hslot hlink hstore hserved hcer htamper => ?_, fun k hk => ?_,
    exec_pairSwap ⟨hready, hcore, hkept⟩, fun hholding => ?_, exec_pairResync ⟨hready, hcore, hkept⟩⟩
  · obtain ⟨u, nonce, eph, hpair, hnow, hslots, hexec⟩ :=
      exec_pairBegin ⟨hready, hcore, hkept⟩ hslot hlink hstore hserved hcer htamper addr hash
    have hafter := beginCeremony_pair u l (openedCeremony u hd slot hash nonce eph)
    refine ⟨_, openedCeremony u hd slot hash nonce eph, hexec, by rw [hafter], rfl, rfl, hnow, rfl, rfl, rfl, by rw [hafter],
      by rw [hafter], (beginCeremony_slots ..).trans hslots, fun hnone => ?_, fun x hx => ?_⟩
    · unfold openedCeremony
      rw [hpair, hnone]
    · unfold openedCeremony
      rw [hpair, Option.mem_def.mp hx, hnow]
  · have hinval : (if (keySlot s k.toNat).valid then beginInval s none k.toNat else s).pair = s.pair := by
      split
      · exact pair_of_only (beginInval_only ..)
      · rfl
    refine ⟨_, exec_pairForget ⟨hready, hcore, hkept⟩ hk, rfl, rfl, rfl, ?_, (congrArg Pair.holding hinval :),
      (congrArg Pair.cer hinval :), rfl⟩
    exact (congrArg (fun p : Pair => if p.cer.isSome = true then PairState.pairing else .unpaired) hinval :)
  · obtain ⟨hfree, hhand, hkeeps, htco⟩ := handBack_leaves s (tsNow s)
    refine ⟨_, exec_pairRelease ⟨hready, hcore, hkept⟩ hholding, ?_, ?_, ?_, rfl, ends_complete ?_ .., ?_⟩
    · rw [pair_of_only (complete_only ..)]
      exact hfree.2
    · rw [pair_of_only (complete_only ..)]
      exact hfree.1
    · rw [pair_of_only (complete_only ..)]
      exact hhand
    · exact (congrArg (List.contains · hd) hkeeps).trans hkept
    · rw [(complete_only ..).same .tco (by decide)]
      exact htco

end Sys2Proof.Proofs.PairCommands
end

section
/-! The commands of the GNSS baseband (04_gnss_baseband.md R137, R140, R143, R154, R156, R162, R168, R169, R172, R173). -/
-- One proof after another: the whole text is compiled in one process whose memory is bounded.
set_option Elab.async false
namespace Sys2Proof.Proofs.GnssCommands
open Sys2Proof
open Sys2Proof.Machine
open Sys2Proof.Safety
open Sys2Proof.Laws
open Sys2Proof.Proofs.Commands
open Sys2Proof.Proofs.Queries
open Sys2Proof.Proofs.Records
open Sys2Proof.Proofs.Notices

/-! ## Groups -/

theorem group_modGroup_same (s : State) (g : Bool) (f : Group → Group) : group (modGroup s g f) g = f (group s g) := by
  unfold group modGroup modGbb
  rw [vget_vmod, if_pos ⟨rfl, by cases g <;> decide⟩]

theorem group_modGroup_other (s : State) {g g' : Bool} (h : g' ≠ g) (f : Group → Group) : group (modGroup s g f) g' = group s g' := by
  unfold group modGroup modGbb
  rw [vget_vmod, if_neg]
  revert h
  cases g <;> cases g' <;> decide

theorem group_of_groups {s t : State} (h : t.gbb.groups = s.gbb.groups) (g : Bool) : group t g = group s g := by
  unfold group
  rw [h]

theorem group_complete (s : State) (hd : Hdr) (op : Nat) (status : BitVec 8) (rlen result : Nat) (g : Bool) :
    group (complete s hd op status rlen result) g = group s g :=
  group_of_groups (congrArg Gbb.groups ((complete_only ..).same .gbb (by decide))) g

theorem isExcl_complete (s : State) (hd : Hdr) (op : Nat) (status : BitVec 8) (rlen result : Nat) (g : Bool) (sys sv : Nat) :
    isExcl (complete s hd op status rlen result) g sys sv = isExcl s g sys sv := by
  unfold isExcl
  rw [(complete_only ..).same .gbb (by decide)]

/-! ## What the firmware's channel work leaves (R143) -/

theorem groups_foldl {α : Type} {f : State → α → State} (hf : ∀ s a, (f s a).gbb.groups = s.gbb.groups) (l : List α) (s : State) :
    (l.foldl f s).gbb.groups = s.gbb.groups := by
  induction l generalizing s with
  | nil => rfl
  | cons a r ih => rw [List.foldl_cons, ih, hf]

theorem assignSv_groups (g : Bool) (s : State) (v : Int × Nat × Nat) : (assignSv g s v).gbb.groups = s.gbb.groups := by
  unfold assignSv
  refine groups_foldl (fun s u => ?_) ..
  split
  · rfl
  · refine groups_foldl (fun s x => ?_) ..
    split <;> rfl

theorem searchSignal_groups (g : Bool) (s : State) (x : Nat × SigDef × Fin 4) : (searchSignal g s x).gbb.groups = s.gbb.groups := by
  obtain ⟨id, d, port⟩ := x
  unfold searchSignal
  dsimp -zeta only
  extract_lets sys waits put svs
  have hput : ∀ (s : State) (y : Search), (put s y).gbb.groups = s.gbb.groups := fun s y => by
    unfold put
    split <;> rfl
  split
  · exact hput ..
  · refine groups_foldl (fun s i => ?_) ..
    split
    · exact hput ..
    · rfl

theorem autoAssign_groups (s : State) (g : Bool) : (autoAssign s g).gbb.groups = s.gbb.groups := by
  unfold autoAssign
  split
  · rfl
  · rw [groups_foldl (searchSignal_groups g), groups_foldl (assignSv_groups g)]

/-! ## Starts and stops (R169, R172) -/

/-- The bit of a mask that names a group. -/
def named (mask : BitVec 8) (g : Bool) : Bool := mask.getLsbD (if g then 1 else 0)

/-- A group starts, and the firmware gives it channels. -/
def start (kind : BitVec 8) (s : State) (g : Bool) : State :=
  autoAssign (modGroup s g fun k =>
    { k with running := true, start := startOf s g kind.toNat, surveyAt := s.now, surveySum := (0, 0, 0), surveyN := 0, work := none }) g

/-- A group that a start names starts. -/
def startGroup (mask kind : BitVec 8) (s : State) (g : Bool) : State := if named mask g then start kind s g else s

/-- The same with the start of each group beside it, for the result. -/
def startStep (mask kind : BitVec 8) (p : State × Nat) (g : Bool) : State × Nat :=
  if named mask g then (start kind p.1 g, p.2 + startOf p.1 g kind.toNat * (if g then 256 else 1)) else p

theorem startStep_state (mask kind : BitVec 8) (p : State × Nat) (g : Bool) :
    (startStep mask kind p g).1 = startGroup mask kind p.1 g := by
  unfold startStep startGroup
  split <;> rfl

theorem startGroup_only (mask kind : BitVec 8) (s : State) (g : Bool) : Only [.gbb] s (startGroup mask kind s g) := by
  unfold startGroup
  split
  · unfold start
    exact Only.step ((set_gbb_only ..).mono (by decide)) (autoAssign_only ..) (by decide)
  · exact Only.refl _ s

theorem startGroup_running (mask kind : BitVec 8) (s : State) (g : Bool) :
    (group (startGroup mask kind s g) g).running = ((group s g).running || named mask g) := by
  unfold startGroup
  split
  · next h => rw [start, group_of_groups (autoAssign_groups ..), group_modGroup_same, h, Bool.or_true]
  · next h => rw [Bool.not_eq_true] at h; rw [h, Bool.or_false]

theorem startGroup_other (mask kind : BitVec 8) (s : State) {g g' : Bool} (h : g' ≠ g) :
    group (startGroup mask kind s g) g' = group s g' := by
  unfold startGroup
  split
  · rw [start, group_of_groups (autoAssign_groups ..), group_modGroup_other _ h]
  · rfl

theorem exec_gnssStart {s : State} {hd : Hdr} (h : Accepts s hd 0x40) {mask kind : BitVec 8} (hmask : mask ≠ 0)
    (htop : mask.toNat ≤ 3) (hkind : kind.toNat ≤ 2) (hon : rb s Rg.gbbCtrl 0 = true)
    (hfirst : mask.getLsbD 0 = true → (group s false).running = false)
    (hsecond : mask.getLsbD 1 = true → (group s true).running = false) : ∃ r, exec (.gnssStart hd mask kind) s =
      .next (complete (startGroup mask kind (startGroup mask kind s false) true) hd 0x40 Status.ok 2 r) := by
  have hrange : (decide (mask = 0) || decide (3 < mask.toNat) || decide (2 < kind.toNat)) = false := by
    rw [decide_eq_false hmask, decide_eq_false (Nat.not_lt.mpr htop), decide_eq_false (Nat.not_lt.mpr hkind)]
    rfl
  have hidle : ∀ b r : Bool, (b = true → r = false) → (b && r) = false := by decide
  change ∃ r, execGnssStart hd mask kind s = _
  unfold execGnssStart
  rw [cmd_of_inRange h hrange]
  dsimp only
  rw [hon]
  change ∃ r, Host.Outcome.next (if (!true || (mask.getLsbD 0 && (group s false).running) || (mask.getLsbD 1 && (group s true).running)) = true
    then _ else _) = _
  rw [hidle _ _ hfirst, hidle _ _ hsecond, if_neg (by decide), ← startStep_state mask kind (s, 0) false, ← startStep_state]
  refine ⟨(startStep mask kind (startStep mask kind (s, 0) false) true).2, ?_⟩
  rfl

/-- A group that a stop names no longer runs and forms no solution. -/
def stopGroup (mask : BitVec 8) (s : State) (g : Bool) : State :=
  if named mask g then modGroup s g fun k => { k with running := false, work := none } else s

theorem stopGroup_named {mask : BitVec 8} {g : Bool} (h : named mask g = true) (s : State) :
    (group (stopGroup mask s g) g).running = false ∧ (group (stopGroup mask s g) g).work = none := by
  unfold stopGroup
  rw [if_pos h, group_modGroup_same]
  exact ⟨rfl, rfl⟩

theorem stopGroup_unnamed {mask : BitVec 8} {g : Bool} (h : named mask g = false) (s : State) : stopGroup mask s g = s := by
  unfold stopGroup
  rw [h]
  rfl

theorem stopGroup_other (mask : BitVec 8) (s : State) {g g' : Bool} (h : g' ≠ g) : group (stopGroup mask s g) g' = group s g' := by
  unfold stopGroup
  split
  · exact group_modGroup_other _ h _
  · rfl

theorem stopGroup_kept (mask : BitVec 8) (s : State) (g : Bool) :
    (stopGroup mask s g).hif = s.hif ∧ (stopGroup mask s g).gbb.latches = s.gbb.latches := by
  unfold stopGroup
  split <;> exact ⟨rfl, rfl⟩

theorem exec_gnssStop {s : State} {hd : Hdr} (h : Accepts s hd 0x41) {mask : BitVec 8} (htop : mask.toNat ≤ 3)
    (hruns : mask.getLsbD 0 = true ∧ (group s false).running = true ∨ mask.getLsbD 1 = true ∧ (group s true).running = true) :
    exec (.gnssStop hd mask) s = .next (answered (stopGroup mask (stopGroup mask s false) true) hd 0x41 Status.ok 0 0) := by
  change execGnssStop hd mask s = _
  unfold execGnssStop
  rw [cmd_of_inRange h (decide_eq_false (Nat.not_lt.mpr htop))]
  change Host.Outcome.next (if (!(mask.getLsbD 0 && (group s false).running) && !(mask.getLsbD 1 && (group s true).running)) = true then _
    else fin (stopGroup mask (stopGroup mask s false) true) hd 0x41 Status.ok) = _
  rw [if_neg]
  · rw [fin_eq_answered]
    rw [(stopGroup_kept ..).1, (stopGroup_kept ..).1]
    exact h.kept
  · obtain ⟨hnamed, hrun⟩ | ⟨hnamed, hrun⟩ := hruns <;> simp [hnamed, hrun]

/-! ## Searches, channels and pages (R137, R143, R156) -/

theorem exec_acqSearch {s : State} {hd : Hdr} (h : Accepts s hd 0x42) {addr : BitVec 64} {len : BitVec 32} {req : BitVec 256}
    {x : Search} (hx : searchReq s hd addr len req = some x) (hroom : searchesFull s = false) :
    exec (.acqSearch hd addr len req) s = .next (queueSearch s x) := by
  change execAcqSearch hd addr len req s = _
  unfold execAcqSearch
  rw [hx]
  dsimp only
  rw [cmd_of_inRange (bad := (some x).isNone) h rfl, hroom, if_neg Bool.false_ne_true]

section
variable {s : State} {hd : Hdr} (h : Accepts s hd 0x43) {port signal sv : BitVec 8} {d : SigDef} (hport : port.toNat < 4)
  (hsig : sigOf signal.toNat = some d) (hreceives : receivable s port.toNat d = true) (hsv : svOk (sysOf signal) sv.toNat = true)
include hport hreceives hsv

theorem chanPin_range {on : BitVec 8} (hon : on.toNat ≤ 1) : (decide (3 < port.toNat) || decide (1 < on.toNat) ||
    !receivable s port.toNat d || !svOk (sysOf signal) sv.toNat) = false := by
  rw [decide_eq_false (by omega), decide_eq_false (by omega), hsv, hreceives]
  rfl

include h hsig

theorem exec_chanPin_new {n : Nat} (hnone : findChan s (Fin.ofNat 4 port.toNat) signal sv (fun c => c.st != .idle) = none)
    (hfree : freeChan s = some n) : exec (.chanPin hd port signal sv 1) s =
      .next (answered (setChan s n (newChan s (Fin.ofNat 4 port.toNat) signal sv .acquire true)) hd 0x43 Status.ok 2 n) := by
  change execChanPin hd port signal sv 1 s = _
  unfold execChanPin
  rw [hsig]
  dsimp only
  rw [cmd_of_inRange h (chanPin_range hport hreceives hsv (by decide)), if_pos rfl, hnone, hfree]
  exact congrArg Host.Outcome.next (complete_eq_answered (s := setChan s n _) h.kept ..)

theorem exec_chanPin_held {n : Nat} (hheld : findChan s (Fin.ofNat 4 port.toNat) signal sv (fun c => c.st != .idle) = some n) :
    exec (.chanPin hd port signal sv 1) s = .next (answered (setChan s n { chan s n with pinned := true }) hd 0x43 Status.ok 2 n) := by
  change execChanPin hd port signal sv 1 s = _
  unfold execChanPin
  rw [hsig]
  dsimp only
  rw [cmd_of_inRange h (chanPin_range hport hreceives hsv (by decide)), if_pos rfl, hheld]
  exact congrArg Host.Outcome.next (complete_eq_answered (s := setChan s n _) h.kept ..)

theorem exec_chanPin_off {n : Nat} (hpinned : findChan s (Fin.ofNat 4 port.toNat) signal sv (fun c => c.pinned) = some n) :
    exec (.chanPin hd port signal sv 0) s = .next (answered (setChan s n { Chan.idle with cause := 3 }) hd 0x43 Status.ok 2 n) := by
  change execChanPin hd port signal sv 0 s = _
  unfold execChanPin
  rw [hsig]
  dsimp only
  rw [cmd_of_inRange h (chanPin_range hport hreceives hsv (by decide)), if_neg (by decide), hpinned]
  exact congrArg Host.Outcome.next (complete_eq_answered (s := setChan s n _) h.kept ..)

end

theorem exec_navInject {s : State} {hd : Hdr} (h : Accepts s hd 0x46) (hpair : standbyHeld s = false) (pages : List NavInject) :
    exec (.navInject hd pages) s = .next (complete ((pages.filter injectOk).foldl inject s) hd 0x46 Status.ok 4
      (pack [(0, (pages.filter injectOk).length), (2, pages.length - (pages.filter injectOk).length)])) := by
  change execNavInject hd pages s = _
  unfold execNavInject
  rw [cmd_of_accepts h, hpair, if_neg Bool.false_ne_true]

/-! ## Positions, surveys and solutions (R165, R168, R173) -/

theorem groupArg_range (g : Bool) : decide (1 < (if g then 1 else 0 : BitVec 8).toNat) = false := by cases g <;> rfl

theorem groupArg (g : Bool) : decide ((if g then 1 else 0 : BitVec 8) = 1) = g := by cases g <;> rfl

section
variable {s : State} {hd : Hdr} (g : Bool)

theorem exec_posSet_later (h : Accepts s hd 0x47) (x y z : BitVec 64) (unc : BitVec 32) (hwork : (group s g).work.isSome = true) :
    exec (.posSet hd (if g then 1 else 0) x y z unc) s = .next (answered (modGroup s g fun k =>
      { k with nextPos := some { x := x.toInt, y := y.toInt, z := z.toInt, unc := unc.toNat } }) hd 0x47 Status.ok 0 0) := by
  change execPosSet hd (if g then 1 else 0) x y z unc s = _
  unfold execPosSet
  rw [cmd_of_inRange h (groupArg_range g)]
  dsimp only
  rw [groupArg, if_pos hwork]
  exact congrArg Host.Outcome.next (fin_eq_answered (s := modGroup s g _) h.kept ..)

theorem exec_posSet_now (h : Accepts s hd 0x47) (x y z : BitVec 64) (unc : BitVec 32) (hwork : (group s g).work = none) :
    exec (.posSet hd (if g then 1 else 0) x y z unc) s = .next (answered (putPos s g
      { x := x.toInt, y := y.toInt, z := z.toInt, unc := unc.toNat }) hd 0x47 Status.ok 0 0) := by
  change execPosSet hd (if g then 1 else 0) x y z unc s = _
  unfold execPosSet
  rw [cmd_of_inRange h (groupArg_range g)]
  dsimp only
  rw [groupArg, hwork, if_neg (by decide), fin_eq_answered]
  rw [(putPos_only ..).same .hif (by decide)]
  exact h.kept

theorem exec_surveyStart (h : Accepts s hd 0x48) : exec (.surveyStart hd (if g then 1 else 0)) s = .next (answered (modGroup s g fun k =>
    { k with fixed := false, nextFixed := false, surveyAt := s.now, surveySum := (0, 0, 0), surveyN := 0 }) hd 0x48 Status.ok 0 0) := by
  change execSurveyStart hd (if g then 1 else 0) s = _
  unfold execSurveyStart
  rw [cmd_of_inRange h (groupArg_range g), groupArg]
  exact congrArg Host.Outcome.next (fin_eq_answered (s := modGroup s g _) h.kept ..)

theorem exec_solQuery (h : Accepts s hd 0x49) {r : Sol} (hr : (group s g).last = some r) :
    ∃ v, exec (.solQuery hd (if g then 1 else 0)) s = .next (answered s hd 0x49 Status.ok 28 v) := by
  change ∃ v, execSolQuery hd (if g then 1 else 0) s = _
  unfold execSolQuery
  rw [cmd_of_inRange h (groupArg_range g), groupArg, hr]
  exact ⟨_, congrArg Host.Outcome.next (complete_of_accepts h ..)⟩

end

/-! ## Exclusions (R162) -/

/-- A host exclusion for a group: at once, or with the group's next whole-second latch. -/
def excludeIn (v : Nat × Nat × Bool) (s : State) (g : Bool) : State :=
  if (group s g).work.isSome then modGroup s g fun k => { k with nextExcl := k.nextExcl ++ [v] } else hostExclude g s v

/-- The exclusions after a host exclusion or release of a satellite of a group. -/
def exclAfter (g : Bool) (l : List Excl) (v : Nat × Nat × Bool) : List Excl :=
  if (l.any fun e => (e.group = g && e.sys = v.1 && e.sv = v.2.1) && e.host) = v.2.2 then l
  else l.filter (fun e => !(e.group = g && e.sys = v.1 && e.sv = v.2.1)) ++
    (if v.2.2 then [{ group := g, sys := v.1, sv := v.2.1, host := true, until_ := 0 }] else [])

theorem hostExclude_gbb (g : Bool) (s : State) (v : Nat × Nat × Bool) :
    (hostExclude g s v).gbb = { s.gbb with excl := exclAfter g s.gbb.excl v } := by
  obtain ⟨sys, sv, on⟩ := v
  unfold hostExclude exclAfter
  dsimp only
  split
  · rfl
  · rw [emit_gbb]
    split
    · exact (perfAdd_only ..).same .gbb (by decide)
    · rfl

/-- What a group's exclusion leaves of the groups and the words. -/
theorem excludeIn_only (v : Nat × Nat × Bool) (s : State) (g : Bool) :
    Only [.out, .gbb, .pan, .log, .line, .links, .rings, .cnt, .outs] s (excludeIn v s g) := by
  unfold excludeIn
  split
  · exact (set_gbb_only ..).mono (by decide)
  · exact hostExclude_only ..

theorem excludeIn_other (v : Nat × Nat × Bool) (s : State) {g g' : Bool} (h : g' ≠ g) : group (excludeIn v s g) g' = group s g' := by
  unfold excludeIn
  split
  · exact group_modGroup_other _ h _
  · exact group_of_groups (congrArg Gbb.groups (hostExclude_gbb g s v) :) _

theorem excludeIn_waits {v : Nat × Nat × Bool} {s : State} {g : Bool} (h : (group s g).work.isSome = true) :
    (group (excludeIn v s g) g).nextExcl = (group s g).nextExcl ++ [v] := by
  unfold excludeIn
  rw [if_pos h, group_modGroup_same]

theorem excludeIn_now {sys sv : Nat} {s : State} {g : Bool} (h : (group s g).work = none) :
    isExcl (excludeIn (sys, sv, true) s g) g sys sv = true := by
  unfold excludeIn isExcl
  rw [h, if_neg (by decide), hostExclude_gbb]
  unfold exclAfter
  dsimp only
  split
  · next had =>
    obtain ⟨e, he, hmine⟩ := List.any_eq_true.mp had
    exact List.any_eq_true.mpr ⟨e, he, (Bool.and_eq_true_iff.mp hmine).1⟩
  · rw [List.any_append, if_pos rfl, List.any_cons]
    simp

theorem isExcl_excludeIn_other (v : Nat × Nat × Bool) {s : State} {g g' : Bool} (h : g' ≠ g) {sys sv : Nat}
    (hexcl : isExcl s g' sys sv = true) : isExcl (excludeIn v s g) g' sys sv = true := by
  unfold excludeIn
  split
  · exact hexcl
  · unfold isExcl
    rw [hostExclude_gbb]
    unfold exclAfter
    dsimp only
    split
    · exact hexcl
    · obtain ⟨e, he, hmine⟩ := List.any_eq_true.mp hexcl
      refine List.any_eq_true.mpr ⟨e, List.mem_append_left _ (List.mem_filter.mpr ⟨he, ?_⟩), hmine⟩
      rw [Bool.and_eq_true, Bool.and_eq_true, decide_eq_true_eq] at hmine
      simp [hmine.1.1, h]

theorem exec_svExclude {s : State} {hd : Hdr} (h : Accepts s hd 0x4A) {sys sv on : BitVec 8} (hsv : svOk sys.toNat sv.toNat = true)
    (hon : on.toNat ≤ 1) : exec (.svExclude hd sys sv on) s = .next (fin (excludeIn (sys.toNat, sv.toNat, decide (on = 1))
      (excludeIn (sys.toNat, sv.toNat, decide (on = 1)) s false) true) hd 0x4A Status.ok) := by
  have hrange : (!svOk sys.toNat sv.toNat || decide (1 < on.toNat)) = false := by
    rw [hsv, decide_eq_false (Nat.not_lt.mpr hon)]
    rfl
  change execSvExclude hd sys sv on s = _
  unfold execSvExclude
  rw [cmd_of_inRange h hrange]
  rfl

/-! ## GNSS_CLEAR (R173) -/

/-- What a mask of GNSS_CLEAR takes. -/
def cleared (mask : BitVec 8) : NavKind → Bool
  | .ephemeris => mask.getLsbD 0
  | .almanac => mask.getLsbD 1
  | .utc | .iono => mask.getLsbD 2
  | .clock | .groupDelay => false

theorem kind_ne_of_cleared {mask : BitVec 8} {l : List NavParam} {p : NavParam} (hp : p ∈ l.filter fun p => !cleared mask p.kind)
    {k : NavKind} (hk : cleared mask k = true) : p.kind ≠ k := by
  rintro rfl
  have hleft := (List.mem_filter.mp hp).2
  rw [hk] at hleft
  exact absurd hleft (by decide)

theorem exec_gnssClear {s : State} {hd : Hdr} (h : Accepts s hd 0x4B) (mask : BitVec 8) (hfirst : (group s false).running = false)
    (hsecond : (group s true).running = false) (hpair : standbyHeld s = false) : exec (.gnssClear hd mask) s =
      .next (answered (modGbb s fun g => { g with params := g.params.filter fun p => !cleared mask p.kind,
                                                  utcs := if mask.getLsbD 2 then [] else g.utcs }) hd 0x4B Status.ok 0 0) := by
  change execGnssClear hd mask s = _
  unfold execGnssClear
  rw [cmd_of_accepts h, hfirst, hsecond, hpair, if_neg (by decide)]
  exact congrArg Host.Outcome.next (fin_eq_answered (s := modGbb s _) h.kept ..)

/-- Settles O38: each command is its arm, or names the groups that it starts, stops, moves, surveys or excludes for. -/
theorem gnssCommandsAct : Obligations.GnssCommandsAct := by
  intro s hd hkept hready hcore
  refine ⟨fun mask kind hmask htop hkind hon hfirst hsecond => ?_, fun mask htop hruns => ?_,
    fun addr len req x hx hroom => exec_acqSearch ⟨hready, hcore, hkept⟩ hx hroom,
    fun port signal sv d n hport hsig hreceives hsv => ⟨fun hnone hfree => ?_, fun hheld => ?_, fun hpinned => ?_⟩,
    fun pages hpair => exec_navInject ⟨hready, hcore, hkept⟩ hpair pages,
    fun g x y z unc => ⟨fun hwork => ?_, exec_posSet_now g ⟨hready, hcore, hkept⟩ x y z unc⟩, fun g => ?_,
    fun g r hr => exec_solQuery g ⟨hready, hcore, hkept⟩ hr, fun sys sv on hsv hon => ?_, fun mask hfirst hsecond hpair => ?_⟩
  · obtain ⟨r, hexec⟩ := exec_gnssStart ⟨hready, hcore, hkept⟩ hmask htop hkind hon hfirst hsecond
    have hkeeps : Only [.gbb] s (startGroup mask kind (startGroup mask kind s false) true) :=
      (startGroup_only ..).step (startGroup_only ..) (fun _ => id)
    refine ⟨_, hexec, ends_complete ?_ .., ?_, ?_, ?_⟩
    · rw [discard_of_only hkeeps]
      exact hkept
    · rw [group_complete, startGroup_other mask kind _ (by decide), startGroup_running]
      rfl
    · rw [group_complete, startGroup_running, startGroup_other mask kind _ (by decide)]
      rfl
    · exact ((complete_only ..).same .tco (by decide)).trans (hkeeps.same .tco (by decide))
  · refine ⟨_, exec_gnssStop ⟨hready, hcore, hkept⟩ htop hruns, ?_, ?_, ?_, ?_, ?_⟩
    · intro hset
      have hother : group (stopGroup mask (stopGroup mask s false) true) false = group (stopGroup mask s false) false :=
        stopGroup_other mask _ (by decide)
      change (group (stopGroup mask (stopGroup mask s false) true) false).running = false ∧
        (group (stopGroup mask (stopGroup mask s false) true) false).work = none
      rw [hother]
      exact stopGroup_named (g := false) hset s
    · exact fun hclear => (stopGroup_other mask _ (by decide)).trans (congrArg (group · false) (stopGroup_unnamed (g := false) hclear s))
    · exact fun hset => stopGroup_named (g := true) hset _
    · exact fun hclear => (congrArg (group · true) (stopGroup_unnamed (g := true) hclear _)).trans (stopGroup_other mask s (by decide))
    · exact ((stopGroup_kept ..).2).trans (stopGroup_kept ..).2
  · exact exec_chanPin_new ⟨hready, hcore, hkept⟩ hport hsig hreceives hsv hnone hfree
  · exact exec_chanPin_held ⟨hready, hcore, hkept⟩ hport hsig hreceives hsv hheld
  · exact exec_chanPin_off ⟨hready, hcore, hkept⟩ hport hsig hreceives hsv hpinned
  · exact ⟨_, exec_posSet_later g ⟨hready, hcore, hkept⟩ x y z unc hwork, congrArg Group.nextPos (group_modGroup_same ..),
      group_modGroup_other _ (by cases g <;> decide) _, rfl⟩
  · have hsame := group_modGroup_same s g fun k =>
      { k with fixed := false, nextFixed := false, surveyAt := s.now, surveySum := (0, 0, 0), surveyN := 0 }
    exact ⟨_, exec_surveyStart g ⟨hready, hcore, hkept⟩, congrArg Group.fixed hsame, congrArg Group.surveyAt hsame,
      congrArg Group.surveyN hsame, group_modGroup_other _ (by cases g <;> decide) _⟩
  · refine ⟨_, exec_svExclude ⟨hready, hcore, hkept⟩ hsv hon, ends_fin ?_ .., fun g hwork hset => ?_, fun g hwork => ?_, ?_⟩
    · rw [discard_of_only (excludeIn_only ..), discard_of_only (excludeIn_only ..)]
      exact hkept
    · subst hset
      rw [fin, isExcl_complete]
      change isExcl (excludeIn (sys.toNat, sv.toNat, true) (excludeIn (sys.toNat, sv.toNat, true) s false) true) g sys.toNat sv.toNat = true
      cases g
      · exact isExcl_excludeIn_other _ (by decide) (excludeIn_now hwork)
      · exact excludeIn_now (by rw [excludeIn_other _ _ (by decide), hwork])
    · rw [fin, group_complete]
      cases g
      · rw [excludeIn_other _ _ (by decide), excludeIn_waits hwork]
      · rw [excludeIn_waits (by rw [excludeIn_other _ _ (by decide), hwork]), excludeIn_other _ _ (by decide)]
    · rw [fin, (complete_only ..).same .words (by decide), (excludeIn_only ..).same .words (by decide),
        (excludeIn_only ..).same .words (by decide)]
  · refine ⟨_, exec_gnssClear ⟨hready, hcore, hkept⟩ mask hfirst hsecond hpair, fun hset p hp => kind_ne_of_cleared hp hset,
      fun hset p hp => kind_ne_of_cleared hp hset, fun hset p hp => ⟨kind_ne_of_cleared hp hset, kind_ne_of_cleared hp hset⟩,
      fun p hp hkind => List.mem_filter.mpr ⟨hp, ?_⟩, rfl⟩
    obtain hkind | hkind := hkind <;> rw [hkind] <;> rfl

end Sys2Proof.Proofs.GnssCommands
end

section
/-! The commands of the key store (11_key_store.md R394 to R407, R413 to R415, R418 to R420). -/
-- One proof after another: the whole text is compiled in one process whose memory is bounded.
set_option Elab.async false
namespace Sys2Proof.Proofs.KeyCommands
open Sys2Proof
open Sys2Proof.Machine
open Sys2Proof.Safety
open Sys2Proof.Laws
open Sys2Proof.Proofs
open Sys2Proof.Proofs.Commands
open Sys2Proof.Proofs.Queries
open Sys2Proof.Proofs.Records
open Sys2Proof.Proofs.PairCommands
open Sys2Proof.Proofs.CommandRings
open Sys2Proof.Proofs.WordReads

/-! ## Key commands run their bodies on the counted state (R415, R418, R420) -/

section
variable {s : State} {hd : Hdr} {op : Nat}

theorem cmd_of_ready (hready : s.pwr.phase = .ready) (hcore : opRuns s op = true) (body : State → State) :
    cmd s hd op none body = .next (body s) := by
  unfold cmd
  rw [hready, hcore]
  rfl

theorem keyCmd_any (hready : s.pwr.phase = .ready) (hcore : opRuns s op = true) (body : State → State) :
    keyCmd s hd op none false body = .next (body (perfAdd s 428 1)) := cmd_of_ready hready hcore _

theorem storeState_perfAdd (s : State) (i n : Nat) : storeState (perfAdd s i n) = storeState s := by
  obtain ⟨p, hp⟩ := perfAdd_eq s i n
  rw [hp]
  rfl

theorem tamperWaits_perfAdd (s : State) (i n : Nat) : tamperWaits (perfAdd s i n) = tamperWaits s := by
  obtain ⟨p, hp⟩ := perfAdd_eq s i n
  rw [hp]
  rfl

@[simp] theorem keySlot_perfAdd (s : State) (i n slot : Nat) : keySlot (perfAdd s i n) slot = keySlot s slot := by
  obtain ⟨p, hp⟩ := perfAdd_eq s i n
  rw [hp]
  rfl

theorem keyCmd_keyed (hready : s.pwr.phase = .ready) (hcore : opRuns s op = true) (hstore : storeState s = .keyed)
    (htamper : tamperWaits s = false) (body : State → State) : keyCmd s hd op none true body = .next (body (perfAdd s 428 1)) := by
  unfold keyCmd
  rw [cmd_of_ready hready hcore]
  dsimp only
  rw [storeState_perfAdd, tamperWaits_perfAdd, hstore, htamper]
  rfl

end

/-! ## Commands that fill a slot (R395 to R400, R405) -/

theorem exec_keyQuery {s : State} {hd : Hdr} {slot : BitVec 8} (h : Accepts s hd 0xB0) (hslot : slot ≠ 0) :
    exec (.keyQuery hd slot) s = .next (answered (perfAdd s 428 1) hd 0xB0 Status.ok 16
      (pack [(0, (keySlot s slot.toNat).attr.toNat), (8, leNat (checkValue (keySlot s slot.toNat)))])) := by
  change execKeyQuery hd slot s = _
  unfold execKeyQuery
  rw [decide_eq_false hslot]
  change keyCmd s hd 0xB0 none false _ = _
  rw [keyCmd_any h.ready h.core]
  unfold keyResult
  dsimp only
  rw [keySlot_perfAdd, complete_eq_answered]
  rw [discard_of_only (perfAdd_only ..)]
  exact h.kept

section
variable {s : State} {hd : Hdr} {slot : BitVec 8} {addr : BitVec 64} (hready : s.pwr.phase = .ready) (hstore : storeState s = .keyed)
  (htamper : tamperWaits s = false) (hslot : 3 ≤ slot.toNat) (hfree : (keySlot s slot.toNat).valid = false)
include hready hstore htamper hslot hfree

theorem exec_keyGen {attr : BitVec 32} (hattr : attrOk attr.toNat = true) : exec (.keyGen hd slot attr) s =
    .next (keyResult (fillSlot (draw (perfAdd s 428 1)).2 slot.toNat 0 0 attr.toNat (keyFrom attr.toNat (draw (perfAdd s 428 1)).1))
      hd 0xB1 slot.toNat) := by
  change execKeyGen hd slot attr s = _
  unfold execKeyGen
  rw [decide_eq_false (Nat.not_lt.mpr hslot), hattr]
  change keyCmd s hd 0xB1 none true _ = _
  rw [keyCmd_keyed hready rfl hstore htamper, keySlot_perfAdd, hfree]
  rfl

theorem exec_keyImport {wrap : BitVec 8} (hwrap : wrap ≠ 0) (len : BitVec 32) (blob : List Byte)
    (hvalid : (keySlot s wrap.toNat).valid = true) (huse : (keySlot s wrap.toNat).use 4 = true) :
    exec (.keyImport hd slot wrap addr len blob) s = .next (match openBlob (hostRead (perfAdd s 428 1) addr.toNat len.toNat)
        (blob.take len.toNat) wrap.toNat with
      | .error e => fin (hostRead (perfAdd s 428 1) addr.toNat len.toNat) hd 0xB2 e
      | .ok (a, k) => keyResult (fillSlot (hostRead (perfAdd s 428 1) addr.toNat len.toNat) slot.toNat wrap.toNat 1 a k) hd 0xB2 slot.toNat) := by
  change execKeyImport hd slot wrap addr len blob s = _
  unfold execKeyImport
  rw [decide_eq_false (Nat.not_lt.mpr hslot), decide_eq_false hwrap]
  change keyCmd s hd 0xB2 none true _ = _
  rw [keyCmd_keyed hready rfl hstore htamper]
  dsimp only
  rw [keySlot_perfAdd, keySlot_perfAdd, hfree, hvalid, huse]
  rfl

theorem exec_keyDerive {parent kdf : BitVec 8} {attr : BitVec 32} {len : BitVec 16} (ctx : List Byte) (hparent : parent ≠ 0)
    (hvalid : (keySlot s parent.toNat).valid = true) (hsym : (keySlot s parent.toNat).p384 = false)
    (huse : (keySlot s parent.toNat).use 3 = true) (hkdf : kdf.toNat ≤ 1) (hcmac : kdf = 1 → (keySlot s parent.toNat).len ≤ 2)
    (hattr : attrOk attr.toNat = true) (hbit : attr.getLsbD 15 = false) (hlen : len.toNat ≤ 256)
    (hdepth : keyDepth 256 s parent.toNat < 8) : exec (.keyDerive hd slot parent kdf attr addr len ctx) s =
      .next (keyResult (fillSlot (hostRead (perfAdd s 428 1) addr.toNat len.toNat) slot.toNat parent.toNat 2 attr.toNat
        (kdfOut kdf.toNat (keySlot s parent.toNat) (ctx.take len.toNat) (lenBytes (fld attr.toNat 14 12)))) hd 0xB3 slot.toNat) := by
  have hlong : (decide (kdf = 1) && decide (2 < (keySlot s parent.toNat).len)) = false := by
    rw [Bool.and_eq_false_iff, decide_eq_false_iff_not, decide_eq_false_iff_not]
    by_cases hk : kdf = 1
    · exact .inr (Nat.not_lt.mpr (hcmac hk))
    · exact .inl hk
  change execKeyDerive hd slot parent kdf attr addr len ctx s = _
  unfold execKeyDerive
  dsimp only
  rw [decide_eq_false (Nat.not_lt.mpr hslot), decide_eq_false hparent, decide_eq_false (Nat.not_lt.mpr hkdf), hattr, hbit,
    decide_eq_false (Nat.not_lt.mpr hlen), decide_eq_false (Nat.not_le.mpr hdepth), hvalid, Bool.true_and, Bool.true_and, hlong]
  change keyCmd s hd 0xB3 none true _ = _
  rw [keyCmd_keyed hready rfl hstore htamper, keySlot_perfAdd, hfree, hsym, huse]
  rfl

end

/-! ## Commands that use a key (R399, R401, R404, R420) -/

theorem wrapBlob_slots (s : State) (slot wrap : Nat) : (wrapBlob s slot wrap).2.key.slots = s.key.slots := draw_slots s

theorem perfAdd_key (s : State) (i n : Nat) : (perfAdd s i n).key = s.key := (perfAdd_only ..).same .key (by decide)

section
variable {s : State} {hd : Hdr} {slot : BitVec 8} {addr addr2 : BitVec 64} (hready : s.pwr.phase = .ready)
  (hstore : storeState s = .keyed) (htamper : tamperWaits s = false) (hslot : slot ≠ 0)
  (hvalid : (keySlot s slot.toNat).valid = true)
include hready hstore htamper hslot hvalid

theorem exec_keyExport {wrap : BitVec 8} {len : BitVec 32} (hwrap : wrap ≠ 0)
    (hlen : 48 + lenBytes (keySlot s slot.toNat).len ≤ len.toNat) (hleave : (keySlot s slot.toNat).attr.getLsbD 8 = true)
    (hwvalid : (keySlot s wrap.toNat).valid = true) (hsym : (keySlot s wrap.toNat).p384 = false)
    (huse : (keySlot s wrap.toNat).use 4 = true) : exec (.keyExport hd slot wrap addr len) s =
      .next (complete (hostDma (wrapBlob (perfAdd s 428 1) slot.toNat wrap.toNat).2 addr.toNat
        (wrapBlob (perfAdd s 428 1) slot.toNat wrap.toNat).1) hd 0xB4 Status.ok 4
        (wrapBlob (perfAdd s 428 1) slot.toNat wrap.toNat).1.length) := by
  change execKeyExport hd slot wrap addr len s = _
  unfold execKeyExport
  dsimp only
  rw [decide_eq_false hslot, decide_eq_false hwrap, hvalid, decide_eq_false (Nat.not_lt.mpr hlen)]
  change keyCmd s hd 0xB4 none true _ = _
  rw [keyCmd_keyed hready rfl hstore htamper, keySlot_perfAdd, hleave, hwvalid, hsym, huse]
  rfl

theorem exec_keyInvalidate (hfree : 3 ≤ slot.toNat) (hhold : (keySlot s slot.toNat).attr.getLsbD 9 = false) :
    exec (.keyInvalidate hd slot) s = .next (beginInval (perfAdd s 428 1) (some hd) slot.toNat) := by
  change execKeyInvalidate hd slot s = _
  unfold execKeyInvalidate
  dsimp only
  rw [if_neg hslot, hvalid]
  change keyCmd s hd 0xB5 none true _ = _
  rw [keyCmd_keyed hready rfl hstore htamper, hhold, decide_eq_false (Nat.not_lt.mpr hfree)]
  rfl

theorem exec_keyAttest (hcore : coreUp s 0 = true) (data : List Byte) : ∃ st sig,
    st = statement (hostRead (perfAdd s 428 1) addr2.toNat 32) 1 0 (data.take 32 ++ List.replicate (32 - data.length) 0)
      (List.replicate 32 0) slot.toNat (keySlot s slot.toNat).attr.toNat (keyRef (keySlot s slot.toNat)) ∧
    sig = (signDigest (hostRead (perfAdd s 428 1) addr2.toNat 32) 1 (Config.sha384 st)).1 ∧
    exec (.keyAttest hd slot addr2 addr data) s = .next (complete (hostDma (signDigest (hostRead (perfAdd s 428 1) addr2.toNat 32) 1
      (Config.sha384 st)).2 addr.toNat (st ++ sig)) hd 0xB6 Status.ok 4 272) := by
  refine ⟨_, _, rfl, rfl, ?_⟩
  change execKeyAttest hd slot addr2 addr data s = _
  unfold execKeyAttest
  dsimp only
  rw [if_neg hslot, hvalid]
  change keyCmd s hd 0xB6 none true _ = _
  rw [keyCmd_keyed (op := 0xB6) hready hcore hstore htamper]

theorem exec_keyPublic (hpub : (keySlot s slot.toNat).p384 = true) : exec (.keyPublic hd slot addr) s =
    .next (complete (hostDma (perfAdd s 428 1) addr.toNat (beBytes 97 (Config.p384Pub (keySlot s slot.toNat).key))) hd 0xB7 Status.ok
      4 97) := by
  change execKeyPublic hd slot addr s = _
  unfold execKeyPublic
  dsimp only
  rw [decide_eq_false hslot, hvalid, hpub]
  change keyCmd s hd 0xB7 none true _ = _
  rw [keyCmd_keyed hready rfl hstore htamper]
  rfl

theorem exec_keySign (hother : slot ≠ 1) (huse : (keySlot s slot.toNat).use 2 = true) (data : List Byte) :
    exec (.keySign hd slot addr2 addr data) s = .next (complete (hostDma (signDigest (hostRead (perfAdd s 428 1) addr2.toNat 48)
      slot.toNat (beNat (data.take 48))).2 addr.toNat (signDigest (hostRead (perfAdd s 428 1) addr2.toNat 48) slot.toNat
      (beNat (data.take 48))).1) hd 0xB8 Status.ok 4 96) := by
  change execKeySign hd slot addr2 addr data s = _
  unfold execKeySign
  dsimp only
  rw [decide_eq_false hslot, hvalid, huse, decide_eq_false hother]
  change keyCmd s hd 0xB8 none true _ = _
  rw [keyCmd_keyed hready rfl hstore htamper]
  rfl

end

/-! ## Provisioning, the tamper log and its latches (R407, R413, R414) -/

/-- The store that a provisioning leaves: the root drawn, and the slots derived from it. -/
def provisioned (s : State) : State :=
  deriveFixed (modKey (draw s).2 fun k => { k with root := some (BitVec.ofNat 256 (draw s).1), provCount := k.provCount + 1 })

theorem provisioned_key (s : State) : (provisioned s).key.store = .keyed ∧ (provisioned s).key.root.isSome = true ∧
    (provisioned s).key.provCount = (draw s).2.key.provCount + 1 ∧ (provisioned s).key.latch = (draw s).2.key.latch := by
  exact ⟨rfl, rfl, rfl, rfl⟩

/-- The certificate request of the new identity, and the record of the provisioning. -/
def provisionTold (s : State) (addr : Nat) : State :=
  emit (hostDma (provisioned s) addr (beBytes 48 (Config.sha384 (beBytes 97 (Config.p384Pub (keySlot (provisioned s) 1).key))))) .key 0x0005
    .notice (hostDma (provisioned s) addr (beBytes 48 (Config.sha384 (beBytes 97 (Config.p384Pub (keySlot (provisioned s) 1).key))))).key.provCount.toNat
    (some 4)

theorem provisionTold_leaves (s : State) (addr : Nat) :
    (provisionTold s addr).hif.discard = s.hif.discard ∧ (provisionTold s addr).key = (provisioned s).key := by
  unfold provisionTold
  constructor
  · rw [emit_discard, discard_of_only (hostDma_only ..), provisioned, discard_of_only (deriveFixed_only _)]
    exact (discard_of_only (draw_only s) :)
  · rw [emit_key, (hostDma_only ..).same .key (by decide)]

theorem draw_provCount (s : State) : (draw s).2.key.provCount = s.key.provCount := by
  unfold draw
  dsimp only
  rw [perfAdd_key]
  rfl

theorem draw_latch (s : State) : (draw s).2.key.latch = s.key.latch := by
  unfold draw
  dsimp only
  rw [perfAdd_key]
  rfl

section
variable {s : State} {hd : Hdr} {addr : BitVec 64} (hready : s.pwr.phase = .ready)
include hready

section
variable (hcore : coreUp s 0 = true) (hstore : s.key.store ≠ .keyed) (hsafe : safe s .key = false)
  (hen : rb s Rg.keyCtrl 1 = true) (hlatch : s.key.latch = 0)
include hcore hstore hsafe hen hlatch

theorem provision_runs (hit : Option (Fin 13)) : exec (.keyProvision hd addr hit) s = .next
    (match hit.filter (fun src => s.key.tamperEn.getLsbD src.val && src.val != 12) with
      | some src => fin (tamper (perfAdd s 428 1) src.val 3) hd 0xB9 Status.aborted
      | none => complete (provisionTold (perfAdd s 428 1) addr.toNat) hd 0xB9 Status.ok 4
          (provisionTold (perfAdd s 428 1) addr.toNat).key.provCount.toNat) := by
  have hsafe' : safe (perfAdd s 428 1) .key = false := by
    unfold safe blkStat
    rw [(perfAdd_only ..).same .log (by decide)]
    exact hsafe
  change execKeyProvision hd addr hit s = _
  unfold execKeyProvision
  rw [keyCmd_any (op := 0xB9) hready hcore, hsafe', rb_of_words ((perfAdd_only ..).same .words (by decide)), perfAdd_key, hen, hlatch,
    decide_eq_false hstore]
  rfl

theorem exec_keyProvision {hit : Option (Fin 13)} (hhit : ∀ src ∈ hit, s.key.tamperEn.getLsbD src.val = false ∨ src = 12) :
    exec (.keyProvision hd addr hit) s = .next (complete (provisionTold (perfAdd s 428 1) addr.toNat) hd 0xB9 Status.ok 4
      (provisionTold (perfAdd s 428 1) addr.toNat).key.provCount.toNat) := by
  have hnone : hit.filter (fun src => s.key.tamperEn.getLsbD src.val && src.val != 12) = none := by
    rw [Option.filter_eq_none_iff]
    intro src hsrc hdetects
    obtain hoff | rfl := hhit src hsrc
    · rw [hoff, Bool.false_and] at hdetects
      exact Bool.false_ne_true hdetects
    · simp at hdetects
  rw [provision_runs hready hcore hstore hsafe hen hlatch, hnone]

theorem exec_keyProvision_hit {src : Fin 13} (hsrc : s.key.tamperEn.getLsbD src.val = true) (hother : src ≠ 12) :
    exec (.keyProvision hd addr (some src)) s = .next (fin (tamper (perfAdd s 428 1) src.val 3) hd 0xB9 Status.aborted) := by
  have hne : (src.val != 12) = true := bne_iff_ne.mpr fun hval => hother (Fin.ext hval)
  rw [provision_runs hready hcore hstore hsafe hen hlatch, Option.filter_some, hsrc, hne]
  rfl

end

theorem exec_keyTamperRead : exec (.keyTamperRead hd addr) s = .next (complete (hostDma (perfAdd s 428 1) addr.toNat (tamperLogBytes s))
    hd 0xBA Status.ok 4 s.key.logTotal.toNat) := by
  change execKeyTamperRead hd addr s = _
  unfold execKeyTamperRead
  rw [keyCmd_any hready rfl]
  unfold tamperLogBytes
  rw [perfAdd_key]

end

/-- The latches after a clear: those named whose cause is gone have left. -/
theorem latch_clear (latch mask active : BitVec 13) :
    latch &&& ~~~(latch &&& mask &&& ~~~active &&& ~~~0#13) = latch &&& ~~~(mask &&& ~~~active) := by
  ext i hi
  simp only [BitVec.getElem_and, BitVec.getElem_not]
  cases latch[i] <;> simp

/-- No armed source is detected at this tick: the clear takes every latch that it names (R419). -/
theorem hit_of_none {s : State} (h : ∀ k : Fin 13, tamperActs s k = true → s.pending.contains (.tamperDetect k) = false) :
    ((List.finRange 13).map fun k => flag (tamperActs s k && s.pending.contains (.tamperDetect k)) k.val).foldl (· + ·) 0 = 0 := by
  have hzero : ∀ k : Fin 13, flag (tamperActs s k && s.pending.contains (.tamperDetect k)) k.val = 0 := fun k => by
    cases hacts : tamperActs s k
    · rfl
    · rw [h k hacts]
      rfl
  rw [List.map_congr_left fun k _ => hzero k]
  rfl

/-- The latches cleared, and the record of it. -/
def latchesCleared (s : State) (mask : BitVec 16) (active : BitVec 13) : State :=
  emit (modKey s fun k => { k with latch := k.latch &&& ~~~(s.key.latch &&& mask.setWidth 13 &&& ~~~active &&& ~~~0#13) }) .key 0x0007 .notice
    ((s.key.latch &&& mask.setWidth 13 &&& ~~~active &&& ~~~0#13).toNat +
      (s.key.latch &&& ~~~(s.key.latch &&& mask.setWidth 13 &&& ~~~active &&& ~~~0#13)).toNat * 65536) none

theorem exec_tamperClear {s : State} {hd : Hdr} (hready : s.pwr.phase = .ready) (mask : BitVec 16) (active : BitVec 13)
    (hnone : ∀ k : Fin 13, tamperActs s k = true → s.pending.contains (.tamperDetect k) = false) :
    exec (.tamperClear hd mask active) s = .next (complete (latchesCleared (perfAdd s 428 1) mask active) hd 0xBB Status.ok 2
      (latchesCleared (perfAdd s 428 1) mask active).key.latch.toNat) := by
  have hnone' : ∀ k : Fin 13, tamperActs (perfAdd s 428 1) k = true → (perfAdd s 428 1).pending.contains (.tamperDetect k) = false := by
    obtain ⟨p, hp⟩ := perfAdd_eq s 428 1
    rw [hp]
    exact hnone
  change execTamperClear hd mask active s = _
  unfold execTamperClear
  rw [keyCmd_any hready rfl]
  dsimp only
  rw [hit_of_none hnone']
  rfl

/-- Settles O58: each command is its arm on the counted state; what signs, wraps or draws leaves the slots. -/
theorem keyCommandsAct : Obligations.KeyCommandsAct := by
  refine ⟨⟨fun s hd slot h hslot => exec_keyQuery h hslot, fun s hd slot addr hready hstore htamper hslot hfree =>
    ⟨fun attr hattr => exec_keyGen hready hstore htamper hslot hfree hattr,
      fun wrap len blob hwrap hvalid huse => exec_keyImport hready hstore htamper hslot hfree hwrap len blob hvalid huse,
      fun parent kdf attr len ctx hparent hvalid hsym huse hkdf hcmac hattr hbit hlen hdepth => exec_keyDerive hready hstore htamper
        hslot hfree ctx hparent hvalid hsym huse hkdf hcmac hattr hbit hlen hdepth⟩⟩,
    fun s hd slot addr addr2 data hkept hready => ⟨fun hstore htamper hslot hvalid =>
      ⟨fun wrap len hwrap hlen hleave hwvalid hsym huse => ?_, exec_keyInvalidate hready hstore htamper hslot hvalid, fun hcore => ?_,
        exec_keyPublic hready hstore htamper hslot hvalid, fun hother huse => ?_⟩, fun hcore hstore hsafe hen hlatch =>
      ⟨fun hit hhit => ?_, fun src hsrc hother => exec_keyProvision_hit hready hcore hstore hsafe hen hlatch hsrc hother⟩,
      exec_keyTamperRead hready, fun mask active hnone => ?_⟩⟩
  · have hwrapped : Only [.key, .out, .links, .cnt] s (hostDma (wrapBlob (perfAdd s 428 1) slot.toNat wrap.toNat).2 addr.toNat
        (wrapBlob (perfAdd s 428 1) slot.toNat wrap.toNat).1) :=
      (((perfAdd_only s 428 1).mono (by decide)).step (wrapBlob_only ..) (by decide)).step (hostDma_only ..) (by decide)
    refine ⟨_, exec_keyExport hready hstore htamper hslot hvalid hwrap hlen hleave hwvalid hsym huse, rfl,
      ends_complete ((congrArg (List.contains · hd) (discard_of_only hwrapped)).trans hkept) .., ?_,
      ((complete_only ..).same .tco (by decide)).trans (hwrapped.same .tco (by decide))⟩
    rw [(complete_only ..).same .key (by decide), (hostDma_only ..).same .key (by decide), wrapBlob_slots, perfAdd_key]
  · obtain ⟨st, sig, hst, hsig, hexec⟩ := exec_keyAttest (addr := addr) (addr2 := addr2) hready hstore htamper hslot hvalid hcore data
    have hsigned : Only [.key, .out, .links, .lnk, .cnt] s (hostDma (signDigest (hostRead (perfAdd s 428 1) addr2.toNat 32) 1
        (Config.sha384 st)).2 addr.toNat (st ++ sig)) :=
      ((((perfAdd_only s 428 1).mono (by decide)).step (hostRead_only ..) (by decide)).step (signDigest_only ..) (by decide)).step
        (hostDma_only ..) (by decide)
    refine ⟨_, hexec, ends_complete ((congrArg (List.contains · hd) (discard_of_only hsigned)).trans hkept) .., ?_,
      ((complete_only ..).same .tco (by decide)).trans (hsigned.same .tco (by decide)), st, sig, hst, hsig, rfl⟩
    rw [(complete_only ..).same .key (by decide), (hostDma_only ..).same .key (by decide), signDigest_slots,
      (hostRead_only ..).same .key (by decide), perfAdd_key]
  · have hsigned : Only [.key, .out, .links, .lnk, .cnt] s (hostDma (signDigest (hostRead (perfAdd s 428 1) addr2.toNat 48) slot.toNat
        (beNat (data.take 48))).2 addr.toNat (signDigest (hostRead (perfAdd s 428 1) addr2.toNat 48) slot.toNat (beNat (data.take 48))).1) :=
      ((((perfAdd_only s 428 1).mono (by decide)).step (hostRead_only ..) (by decide)).step (signDigest_only ..) (by decide)).step
        (hostDma_only ..) (by decide)
    refine ⟨_, exec_keySign hready hstore htamper hslot hvalid hother huse data, rfl,
      ends_complete ((congrArg (List.contains · hd) (discard_of_only hsigned)).trans hkept) .., ?_,
      ((complete_only ..).same .tco (by decide)).trans (hsigned.same .tco (by decide))⟩
    rw [(complete_only ..).same .key (by decide), (hostDma_only ..).same .key (by decide), signDigest_slots,
      (hostRead_only ..).same .key (by decide), perfAdd_key]
  · obtain ⟨htold, hkey⟩ := provisionTold_leaves (perfAdd s 428 1) addr.toNat
    obtain ⟨hstored, hroot, hcount, hlatched⟩ := provisioned_key (perfAdd s 428 1)
    refine ⟨_, exec_keyProvision hready hcore hstore hsafe hen hlatch hhit, ends_complete ?_ .., ?_, ?_, ?_, ?_⟩
    · rw [htold, discard_of_only (perfAdd_only ..)]
      exact hkept
    all_goals rw [(complete_only ..).same .key (by decide), hkey]
    · exact hstored
    · exact hroot
    · rw [hcount, draw_provCount, perfAdd_key]
    · rw [hlatched, draw_latch, perfAdd_key, hlatch]
  · have hkey : (latchesCleared (perfAdd s 428 1) mask active).key = _ := (emit_only ..).same .key (by decide)
    refine ⟨_, exec_tamperClear hready mask active hnone, ends_complete ?_ .., ?_, ?_, ?_⟩
    · rw [latchesCleared, emit_discard]
      exact (congrArg (List.contains · hd) (discard_of_only (perfAdd_only s 428 1))).trans hkept
    all_goals rw [(complete_only ..).same .key (by decide), hkey]
    · rw [← latch_clear, ← perfAdd_key s 428 1]
      rfl
    · exact (congrArg Key.slots (perfAdd_key s 428 1) :)
    · exact (congrArg Key.root (perfAdd_key s 428 1) :)

end Sys2Proof.Proofs.KeyCommands
end

section
/-! A detection of an armed source (11_key_store.md R410 to R416). -/
-- One proof after another: the whole text is compiled in one process whose memory is bounded.
set_option Elab.async false
namespace Sys2Proof.Proofs.Tamper
open Sys2Proof
open Sys2Proof.Machine
open Sys2Proof.Safety
open Sys2Proof.Laws
open Sys2Proof.Proofs.Records
open Sys2Proof.Proofs.Notices

/-! ## The key store through mirror records: draws alone (R374, R399) -/

/-- The key store is as before but for the random source's counts. -/
def DrawsOnly (s t : State) : Prop := t.key = { s.key with draws := t.key.draws, generates := t.key.generates }

theorem DrawsOnly.ofKey {s t : State} (h : t.key = s.key) : DrawsOnly s t := by
  unfold DrawsOnly
  rw [h]

theorem DrawsOnly.trans {s t u : State} (h : DrawsOnly s t) (k : DrawsOnly t u) : DrawsOnly s u := by
  unfold DrawsOnly at *
  rw [k, h]

theorem DrawsOnly.only {L : List Part} {s t u : State} (h : DrawsOnly s t) (k : Only L t u) (hkey : Part.key ∉ L := by decide) :
    DrawsOnly s u := h.trans (.ofKey (k.same .key hkey))

theorem draw_drawsOnly (s : State) : DrawsOnly s (draw s).2 := by
  unfold draw
  dsimp only
  exact DrawsOnly.only (t := modKey s fun k => { k with draws := k.draws + 1, generates := k.generates + 1 }) rfl (perfAdd_only ..)

theorem wrapBlob_drawsOnly (s : State) (slot wrap : Nat) : DrawsOnly s (wrapBlob s slot wrap).2 := draw_drawsOnly s

theorem mirrorKey_drawsOnly (s : State) (slot : Nat) : DrawsOnly s (mirrorKey s slot).2.2.2 := by
  unfold mirrorKey
  dsimp only
  split
  · next w _ =>
    split
    · exact wrapBlob_drawsOnly s slot w.toNat
    · exact .ofKey (emit_key ..)
  · exact .ofKey rfl

theorem mirrorCookie_drawsOnly (s : State) (i : Fin 16) (snapshot : Bool) : DrawsOnly s (mirrorCookie s i snapshot) := by
  unfold mirrorCookie
  split
  · exact .ofKey rfl
  · dsimp only
    refine DrawsOnly.only ?_ (mirrorPut_only ..)
    split
    · exact .ofKey rfl
    · exact mirrorKey_drawsOnly ..

theorem mirrorSec_drawsOnly (s : State) (i : Fin 64) (snapshot : Bool) : DrawsOnly s (mirrorSec s i snapshot) := by
  unfold mirrorSec
  split
  · exact .ofKey rfl
  · dsimp only
    refine DrawsOnly.only ?_ (mirrorPut_only ..)
    split
    · exact .ofKey rfl
    · exact mirrorKey_drawsOnly ..

theorem DrawsOnly.foldl {α : Type} {f : State → α → State} (hf : ∀ s a, DrawsOnly s (f s a)) (l : List α) (s : State) :
    DrawsOnly s (l.foldl f s) := by
  induction l generalizing s with
  | nil => exact .ofKey rfl
  | cons a r ih => exact (hf s a).trans (ih _)

theorem retireEntries_drawsOnly (s : State) (tc : Nat) (hit : Nat → Bool) : DrawsOnly s (retireEntries s tc hit) := by
  unfold retireEntries
  refine (DrawsOnly.foldl (fun s i => ?_) _ s).trans (DrawsOnly.foldl (fun s e => ?_) _ _)
  · split
    · exact (DrawsOnly.ofKey ((cookieRetire_only ..).same .key (by decide))).trans (mirrorCookie_drawsOnly ..)
    · exact .ofKey rfl
  · split
    · exact (DrawsOnly.ofKey ((secRetire_only ..).same .key (by decide))).trans (mirrorSec_drawsOnly ..)
    · exact .ofKey rfl

/-! ## Zeroisation (R415) -/

theorem abortInvals_key (s : State) : (abortInvals s).key = { s.key with inval := [] } := by
  have hfold : ∀ (l : List Inval) (u : State), (l.foldl (fun s v => match v.host, v.committed with
      | some h, false => fin s h 0xB5 Status.aborted
      | _, _ => s) u).key = u.key := fun l => by
    induction l with
    | nil => exact fun _ => rfl
    | cons v r ih =>
      intro u
      rw [List.foldl_cons, ih]
      split
      · exact (complete_only ..).same .key (by decide)
      · rfl
  exact hfold ..

/-- What a zeroisation makes of the key store. -/
structure Zeroised (s t : State) (source : Nat) : Prop where
  root : t.key.root = none
  slots : t.key.slots = []
  store : t.key.store = .unkeyed
  cause : t.key.cause = BitVec.ofNat 8 source
  inval : t.key.inval = []
  latch : t.key.latch = s.key.latch
  total : t.key.logTotal = s.key.logTotal

theorem Zeroised.draws {s t u : State} {source : Nat} (h : Zeroised s t source) (k : DrawsOnly t u) : Zeroised s u source := by
  obtain ⟨hroot, hslots, hstore, hcause, hinval, hlatch, htotal⟩ := h
  unfold DrawsOnly at k
  constructor <;> rw [k]
  · exact hroot
  · exact hslots
  · exact hstore
  · exact hcause
  · exact hinval
  · exact hlatch
  · exact htotal

/-- The store emptied, once the operations under way are aborted. -/
def emptied (s : State) (source : Nat) : State :=
  modKey (abortSeals (abortInvals s)) fun k => { k with root := none, slots := [], store := .unkeyed, cause := BitVec.ofNat 8 source }

theorem emptied_key (s : State) (source : Nat) : (emptied s source).key =
    { s.key with inval := [], root := none, slots := [], store := .unkeyed, cause := BitVec.ofNat 8 source } := by
  unfold emptied modKey
  dsimp only
  rw [(abortSeals_only _).same .key (by decide), abortInvals_key]

theorem Zeroised.ofEmptied {s t : State} {source : Nat} {zero : BitVec 128} {emit : Option (BitVec 64)}
    (h : t.key = { (emptied s source).key with lastZero := zero, toEmit := emit }) : Zeroised s t source := by
  constructor <;> rw [h, emptied_key]

theorem zeroise_zeroised (s : State) (source phase : Nat) : Zeroised s (zeroise s source phase) source := by
  unfold zeroise
  extract_lets n det u v was w x y z
  have hv : v = emptied s source := rfl
  have hw : w.key = v.key := rfl
  rw [hv] at hw
  clear_value w
  split
  · refine (Zeroised.ofEmptied (t := z) (zero := tsNow w) (emit := w.key.toEmit) ?_).draws (retireEntries_drawsOnly ..)
    unfold z y x modKey
    rw [emit_key, emit_key, ← hw]
  · exact Zeroised.ofEmptied (zero := w.key.lastZero) (by rw [← hw]; rfl)

/-! ## One detection (R413, R414) -/

theorem tamperLog_key (s : State) (source phase : Nat) : (tamperLog s source phase).key.root = s.key.root ∧
    (tamperLog s source phase).key.store = s.key.store ∧ (tamperLog s source phase).key.slots = s.key.slots ∧
    (tamperLog s source phase).key.latch = s.key.latch ∧
    (tamperLog s source phase).key.logTotal = BitVec.ofNat 32 (sat32 (s.key.logTotal.toNat + 1)) := by
  unfold tamperLog
  extract_lets k newest e total near
  split <;> exact ⟨rfl, rfl, rfl, rfl, rfl⟩

theorem sat32_toNat (n : Nat) : (BitVec.ofNat 32 (sat32 n)).toNat = min n 0xFFFFFFFF := by
  rw [BitVec.toNat_ofNat]
  unfold sat32
  omega

/-- The latch, the log and the pantry's figure, before the store is emptied. -/
def detected (s : State) (source phase : Nat) : State :=
  let s := tamperLog (modKey s fun k => { k with latch := k.latch ||| BitVec.ofNat 13 (2 ^ source) }) source phase
  if mainUp s then modFig s fun f => { f with tamper := figAdd f.tamper source 1 } else s

theorem detected_only (s : State) (source phase : Nat) : Only [.key, .pan] s (detected s source phase) := by
  have hlog := tamperLog_only (modKey s fun k => { k with latch := k.latch ||| BitVec.ofNat 13 (2 ^ source) }) source phase
  have hkey : Only [.key, .pan] s (tamperLog (modKey s fun k => { k with latch := k.latch ||| BitVec.ofNat 13 (2 ^ source) }) source phase) :=
    ((set_key_only ..).mono (by decide)).step hlog (by decide)
  unfold detected
  dsimp only
  split
  · exact hkey.step (modFig_only ..) (by decide)
  · exact hkey

theorem detected_key (s : State) (source phase : Nat) : (detected s source phase).key.root = s.key.root ∧
    (detected s source phase).key.store = s.key.store ∧ (detected s source phase).key.slots = s.key.slots ∧
    (detected s source phase).key.latch = s.key.latch ||| BitVec.ofNat 13 (2 ^ source) ∧
    (detected s source phase).key.logTotal.toNat = min (s.key.logTotal.toNat + 1) 0xFFFFFFFF := by
  obtain ⟨hroot, hstore, hslots, hlatch, htotal⟩ :=
    tamperLog_key (modKey s fun k => { k with latch := k.latch ||| BitVec.ofNat 13 (2 ^ source) }) source phase
  have hkey : (detected s source phase).key =
      (tamperLog (modKey s fun k => { k with latch := k.latch ||| BitVec.ofNat 13 (2 ^ source) }) source phase).key := by
    unfold detected
    dsimp only
    split <;> rfl
  rw [hkey]
  exact ⟨hroot, hstore, hslots, hlatch, (congrArg BitVec.toNat htotal).trans (sat32_toNat _)⟩

theorem tamper_eq (s : State) (source phase : Nat) : tamper s source phase =
    if (detected s source phase).key.root.isSome then zeroise (detected s source phase) source phase else detected s source phase := rfl

section
variable {s : State} {src : Fin 13} (hacts : tamperActs s src = true) (hseen : ∀ x ∈ s.key.tickSeen, x.1 = s.now → x.2 = 0)
  (halone : ∀ k : Fin 13, k ≠ src → s.pending.contains (.tamperDetect k) = false)

include hacts halone in
theorem tamperGroup_alone : tamperGroup s src = [src] := by
  have hone : ∀ a : Fin 13, (List.finRange 13).filter (fun k => decide (k = a)) = [a] := by decide
  unfold tamperGroup
  rw [← hone src]
  refine List.filter_congr fun k _ => ?_
  by_cases hk : k = src
  · subst hk
    rw [hacts, decide_eq_true rfl]
    rfl
  · rw [decide_eq_false hk, halone k hk, Bool.or_self, Bool.and_false]

/-- The sources logged at this tick, as the log notes them. -/
def noted (s : State) (src : Fin 13) : State :=
  modKey s fun k => { k with tickSeen := some (s.now, 0 ||| BitVec.ofNat 13 (2 ^ src.val)) }

include hacts hseen halone in
theorem exec_tamperDetect : exec (.tamperDetect src) s = .next (tamper (noted s src) src.val (tamperPhase s)) := by
  have hclear : ∀ k : Fin 13, (0 : BitVec 13).getLsbD k.val = false := by decide
  change execTamperDetect src s = _
  unfold execTamperDetect
  rw [tamperGroup_alone hacts halone, hacts]
  have hnone : ∀ x ∈ s.key.tickSeen, (if x.1 = s.now then x.2 else 0) = 0 := fun x hx => by
    split
    · next ht => exact hseen x hx ht
    · rfl
  cases hx : s.key.tickSeen with
  | none =>
    dsimp only
    rw [List.filter_cons_of_pos (by rw [hclear]; rfl), hclear]
    rfl
  | some x =>
    dsimp only
    rw [hnone x hx, List.filter_cons_of_pos (by rw [hclear]; rfl), hclear]
    rfl

end

/-- Settles O56: the one source of the tick is logged and latched; with a root the store is emptied, and what follows
    draws for the mirror at most. -/
theorem tamperZeroises : Obligations.TamperZeroises := by
  intro s src hacts hseen halone
  have hexec := exec_tamperDetect hacts hseen halone
  have hdetected := detected_only (noted s src) src.val (tamperPhase s)
  obtain ⟨hroot, hstore, hslots, hlatch, htotal⟩ := detected_key (noted s src) src.val (tamperPhase s)
  rw [tamper_eq, hroot] at hexec
  generalize detected (noted s src) src.val (tamperPhase s) = d at *
  refine ⟨fun hnone => ?_, fun hsome => ?_⟩
  · rw [show (noted s src).key.root = none from hnone, if_neg (by decide)] at hexec
    exact ⟨d, hexec, hlatch, hdetected.same .log (by decide), htotal, hstore, hslots, hroot.trans hnone, hdetected.same .svc (by decide),
      hdetected.same .ptp (by decide), (hif_of_only hdetected :)⟩
  · rw [show (noted s src).key.root.isSome = true from hsome, if_pos rfl] at hexec
    obtain ⟨hgone, hempty, hunkeyed, hcause, hinval, hlatched, hcounted⟩ := zeroise_zeroised d src.val (tamperPhase s)
    have hzeroised := zeroise_only d src.val (tamperPhase s)
    generalize zeroise d src.val (tamperPhase s) = t at *
    exact ⟨t, hexec, hlatched.trans hlatch, hgone, hempty, hunkeyed, hcause, hinval, (congrArg BitVec.toNat hcounted).trans htotal,
      ((hzeroised.same .tco (by decide)).trans (hdetected.same .tco (by decide)) :),
      ((hzeroised.same .words (by decide)).trans (hdetected.same .words (by decide)) :)⟩

end Sys2Proof.Proofs.Tamper
end

section
/-! What sending frames and writing records leave of the links (09_colol_link.md R328 to R332; 16_faults_diagnostics.md R545 to R556). -/
-- One proof after another: the whole text is compiled in one process whose memory is bounded.
set_option Elab.async false
namespace Sys2Proof.Proofs.LinkRecords
open Sys2Proof
open Sys2Proof.Machine
open Sys2Proof.Safety
open Sys2Proof.Laws

/-! ## A link after a change of one link -/

theorem link_modLink_same (s : State) (l : Fin 4) (f : Link → Link) : link (modLink s l f) l = f (link s l) := by
  unfold link modLink vmod
  rw [dif_pos l.isLt]
  exact Vector.getElem_set_self ..

theorem link_modLink_other (s : State) {l m : Fin 4} (h : m ≠ l) (f : Link → Link) : link (modLink s l f) m = link s m := by
  unfold link modLink vmod
  rw [dif_pos l.isLt]
  exact Vector.getElem_set_ne l.isLt m.isLt fun hval => h (Fin.ext hval.symm)

theorem link_of_links {s t : State} (h : t.lnk.links = s.lnk.links) (m : Fin 4) : link t m = link s m := by
  unfold link
  rw [h]

theorem link_of_only {L : List Part} {s t : State} (h : Only L s t) (m : Fin 4) (hlinks : Part.links ∉ L := by decide) :
    link t m = link s m := link_of_links (h.same .links hlinks) m

/-! ## What a link that carries frames keeps -/

/-- A link before and after frames left on it: its numbering, its acknowledgement, its retry buffer and its pantry counts
    move, with its counters, and the buffers only while it is UP. -/
def Carried (a b : Link) : Prop :=
  b = { a with txSeq := b.txSeq, txAt := b.txAt, ackDue := b.ackDue, passed := b.passed, retry := b.retry, waiting := b.waiting,
               pantryCrc := b.pantryCrc, pantryRes := b.pantryRes, pantryDown := b.pantryDown, cnt := b.cnt } ∧
  (a.st ≠ .up → b.retry = a.retry ∧ b.waiting = a.waiting)

theorem Carried.refl (a : Link) : Carried a a := ⟨rfl, fun _ => ⟨rfl, rfl⟩⟩

theorem Carried.st {a b : Link} (h : Carried a b) : b.st = a.st := by rw [h.1]

theorem Carried.trans {a b c : Link} (h : Carried a b) (k : Carried b c) : Carried a c := by
  obtain ⟨hsame, hbuffers⟩ := h
  obtain ⟨ksame, kbuffers⟩ := k
  have hst : b.st = a.st := by rw [hsame]
  refine ⟨by rw [ksame, hsame], fun hdown => ?_⟩
  obtain ⟨hretry, hwaiting⟩ := hbuffers hdown
  obtain ⟨kretry, kwaiting⟩ := kbuffers (hst ▸ hdown)
  exact ⟨kretry.trans hretry, kwaiting.trans hwaiting⟩

/-- Frames and reports leave: no link changes but for what it carries, and what has left stands in `out`. -/
structure Sends (s t : State) : Prop where
  links : ∀ m, Carried (link s m) (link t m)
  out : ∀ x ∈ s.out, x ∈ t.out

theorem Sends.refl (s : State) : Sends s s := ⟨fun _ => .refl _, fun _ => id⟩

theorem Sends.trans {s t u : State} (h : Sends s t) (k : Sends t u) : Sends s u :=
  ⟨fun m => (h.links m).trans (k.links m), fun x hx => k.out x (h.out x hx)⟩

theorem Sends.ite {s a b : State} {c : Prop} [Decidable c] (ha : Sends s a) (hb : Sends s b) : Sends s (if c then a else b) := by
  split
  · exact ha
  · exact hb

theorem Sends.only {L : List Part} {s t : State} (h : Only L s t) (hlinks : Part.links ∉ L := by decide)
    (hout : Part.out ∉ L := by decide) : Sends s t :=
  ⟨fun m => by rw [link_of_only h m hlinks]; exact .refl _, by rw [h.same .out hout]; exact fun _ => id⟩

theorem Sends.report {s t : State} (hlinks : t.lnk.links = s.lnk.links) {o : Out} (hout : t.out = o :: s.out) : Sends s t :=
  ⟨fun m => by rw [link_of_links hlinks]; exact .refl _, by rw [hout]; exact fun _ => List.mem_cons_of_mem o⟩

theorem Sends.modLink (s : State) (l : Fin 4) {f : Link → Link} (h : Carried (link s l) (f (link s l))) : Sends s (modLink s l f) := by
  refine ⟨fun m => ?_, fun _ => id⟩
  by_cases hm : m = l
  · subst hm
    rw [link_modLink_same]
    exact h
  · rw [link_modLink_other s hm]
    exact .refl _

theorem Sends.foldl {α : Type} {f : State → α → State} (hf : ∀ s a, Sends s (f s a)) (l : List α) (s : State) : Sends s (l.foldl f s) := by
  induction l generalizing s with
  | nil => exact .refl s
  | cons a r ih => exact (hf s a).trans (ih _)

theorem outLink_sends (s : State) (l : Fin 4) (f : LinkFrame) : Sends s (outLink s l f) := .report rfl rfl

theorem perfAdd_sends (s : State) (i n : Nat) : Sends s (perfAdd s i n) := .only (perfAdd_only ..)

section
variable {s : State} {l : Fin 4} (hup : (link s l).st = .up)
include hup

theorem sendNow_sends (b : LinkBody) : Sends s (sendNow s l b) := by
  unfold sendNow
  extract_lets k rel seq u v
  have hu : Sends s u := by
    refine .modLink s l ?_
    split
    · exact ⟨rfl, fun hdown => absurd hup hdown⟩
    · exact ⟨rfl, fun _ => ⟨rfl, rfl⟩⟩
  have hv : Sends s v := by
    unfold v
    split
    · exact hu.trans (perfAdd_sends ..)
    · exact hu
  exact hv.trans (outLink_sends ..)

end

theorem pumpWaiting_sends (n : Nat) {s : State} {l : Fin 4} (hup : (link s l).st = .up) : Sends s (pumpWaiting n s l) := by
  induction n generalizing s with
  | zero => exact .refl s
  | succ n ih =>
    unfold pumpWaiting
    split
    · next b r _ =>
      have htaken : Sends s (modLink s l fun k => { k with waiting := r }) := .modLink s l ⟨rfl, fun hdown => absurd hup hdown⟩
      have hsent := htaken.trans (sendNow_sends ((htaken.links l).st.trans hup) b)
      exact .ite (.refl s) (hsent.trans (ih ((hsent.links l).st.trans hup)))
    · exact .refl s

theorem linkSend_sends {s : State} {l : Fin 4} (hup : (link s l).st = .up) (b : LinkBody) : Sends s (linkSend s l b) := by
  have hput : Sends s (modLink s l fun k => { k with waiting := k.waiting ++ [b] }) :=
    .modLink s l ⟨rfl, fun hdown => absurd hup hdown⟩
  unfold linkSend
  exact .ite (hput.trans (pumpWaiting_sends _ ((hput.links l).st.trans hup))) (sendNow_sends hup b)

/-! ## The host path and its interrupts (R347, R348, R452) -/

theorem hostPath_up {s : State} {l : Fin 4} (h : hostPath s = some l) : (link s l).st = .up := by
  unfold hostPath at h
  split at h
  · contradiction
  · have hfound := List.find?_some h
    rw [Bool.and_eq_true, decide_eq_true_eq] at hfound
    exact hfound.2

theorem pairLink_up {s : State} {l : Fin 4} (h : pairLink s = some l) : (link s l).st = .up := by
  have hfound := List.find?_some h
  rw [Bool.and_eq_true, decide_eq_true_eq, decide_eq_true_eq] at hfound
  exact hfound.2

theorem tunnelUp_sends (s : State) (tag : BitVec 16) (t : Tunnel) : Sends s (tunnelUp s tag t) := by
  unfold tunnelUp
  split
  · next l hl => exact linkSend_sends (hostPath_up hl) _
  · exact .refl s

theorem slotRequest_sends (s : State) : Sends s (slotRequest s) := by
  unfold slotRequest
  split
  · next l hl => exact linkSend_sends (hostPath_up hl) _
  · exact .refl s

theorem hostDma_sends (s : State) (addr : Nat) (data : List Byte) : Sends s (hostDma s addr data) := by
  have hpieces : ∀ (cs : List (List Byte)) (p : State × Nat), Sends p.1 (cs.foldl (fun (p : State × Nat) c =>
      (tunnelUp p.1 0 (.dmaWr (BitVec.ofNat 64 p.2) c), p.2 + 512)) p).1 := fun cs => by
    induction cs with
    | nil => exact fun p => .refl p.1
    | cons c r ih => exact fun p => (tunnelUp_sends p.1 0 _).trans (ih (tunnelUp p.1 0 _, p.2 + 512))
  unfold hostDma
  exact (perfAdd_sends s 336 1).trans (.ite (.report rfl rfl) (hpieces _ (perfAdd s 336 1, addr)))

theorem fireSrc_sends (s : State) (src : Nat) : Sends s (fireSrc s src) := by
  unfold fireSrc fireVec
  extract_lets w u
  refine .ite ((perfAdd_sends s 337 1).trans (.ite (.ite ?_ (.report rfl rfl)) (tunnelUp_sends ..))) (.refl s)
  exact ⟨fun _ => .refl _, fun _ => id⟩

theorem ringNotifyAt_sends (s : State) (r : Nat) (idx : BitVec 32) (count : Nat) : Sends s (ringNotifyAt s r idx count) := by
  unfold ringNotifyAt
  extract_lets u k c cfg
  refine (hostDma_sends s _ _).trans (.ite (.refl u) (.ite ?_ ?_))
  · exact (Sends.only (modRing_only ..)).trans (fireSrc_sends ..)
  · exact .only (modRing_only ..)

theorem evWrite_sends (s : State) (r : Rec) : Sends s (evWrite s r) := by
  unfold evWrite ringPut ringNotify
  extract_lets was u
  have hu : Sends s u := .only (set_log_only s _)
  exact ((hu.trans (hostDma_sends ..)).trans (.only (ringAdvance_only ..))).trans (ringNotifyAt_sends ..)

theorem blkIrq_sends (s : State) (b : Blk) : Sends s (blkIrq s b) := by
  unfold blkIrq
  extract_lets k free
  exact .ite ((Sends.only (modBlk_only ..)).trans (fireSrc_sends ..)) (.only (modBlk_only ..))

/-! ## Records (R545 to R556) -/

theorem drainPend_sends (n : Nat) (s : State) : Sends s (drainPend n s) := by
  induction n generalizing s with
  | zero => exact .refl s
  | succ n ih =>
    unfold drainPend
    split
    · exact .refl s
    · next r rest _ =>
      exact .ite (((Sends.only (set_log_only s { s.log with pend := rest })).trans (evWrite_sends ..)).trans (ih _)) (.refl s)

theorem drainCoal_sends (n : Nat) (s : State) : Sends s (drainCoal n s) := by
  induction n generalizing s with
  | zero => exact .refl s
  | succ n ih =>
    unfold drainCoal
    split
    · exact .refl s
    · next c rest _ =>
      split
      · exact ((((Sends.only (set_log_only s { s.log with coal := rest })).trans (.only (histPut_only ..))).trans
          (.only (figFault_only ..))).trans (evWrite_sends ..)).trans (ih _)
      · exact .refl s

theorem evDrain_sends (s : State) : Sends s (evDrain s) := by
  unfold evDrain
  extract_lets d k u r v
  have hu : Sends s u := (Sends.only (set_log_only s { s.log with newNd := 0, newSf := 0 })).trans (.only (seqAdvance_only ..))
  have hv : Sends s v := .ite (.refl s) ((((hu.trans (.only (histPut_only ..))).trans (.only (figFault_only ..))).trans
    (evWrite_sends ..)).trans (blkIrq_sends ..))
  exact .ite ((hv.trans (drainPend_sends ..)).trans (drainCoal_sends ..)) (drainPend_sends ..)

theorem evRoute_sends (s : State) (r : Rec) : Sends s (evRoute s r) := by
  have hpend : Sends s (pendPut s r) := .only (pendPut_only ..)
  have hcoal : Sends s (coalPut s r) := .only (coalPut_only ..)
  have hwrite := evWrite_sends s r
  unfold evRoute
  exact .ite (.ite hwrite hpend) (.ite (.refl s) (.ite (.ite hwrite hpend) (.ite hwrite hcoal)))

theorem refreshOut_sends (s : State) (start : Bool) (o : Nat) : Sends s (refreshOut s start o) := by
  unfold refreshOut
  extract_lets p q l h u
  exact .ite ⟨fun _ => .refl _, fun _ => id⟩ (.report rfl rfl)

theorem refreshOuts_sends (s : State) (start : Bool) : Sends s (refreshOuts s start) := .foldl (fun s o => refreshOut_sends s start o) _ s

theorem lineRelease_sends (s : State) : Sends s (lineRelease s) := by
  unfold lineRelease
  refine .ite (Sends.trans ?_ (refreshOuts_sends _ _)) (.refl s)
  exact .report rfl rfl

theorem enterSafe_sends (s : State) (b : Blk) : Sends s (enterSafe s b) := by
  unfold enterSafe
  split
  · next i _ =>
    have hmark : Sends s (modBlk s b fun k => { k with safe := true, bits := k.bits ||| BitVec.ofNat 24 (2 ^ i) }) := .only (modBlk_only ..)
    exact .ite (hmark.trans (refreshOuts_sends ..)) hmark
  · exact .refl s

theorem panCommit_sends (s : State) (cut : Bool) (entered : PowerState) : Sends s (panCommit s cut entered) := by
  unfold panCommit panWrite
  split
  · exact .refl s
  · refine ⟨fun m => ?_, fun _ => id⟩
    have hmap : (s.lnk.links.map fun l => { l with pantryCrc := 0, pantryRes := 0, pantryDown := 0 })[m] =
        { s.lnk.links[m] with pantryCrc := 0, pantryRes := 0, pantryDown := 0 } := Vector.getElem_map ..
    have hcounts : ∀ b : Link, b = { link s m with pantryCrc := 0, pantryRes := 0, pantryDown := 0 } → Carried (link s m) b := by
      rintro b rfl
      exact ⟨rfl, fun _ => ⟨rfl, rfl⟩⟩
    exact hcounts _ hmap

theorem faultEffects_sends (s : State) (r : Rec) : Sends s (faultEffects s r) := by
  unfold faultEffects
  split
  · extract_lets was u v hot
    have hu : Sends s u := (Sends.only (set_log_only s { s.log with fatal := true })).trans (lineRelease_sends _)
    have hv : Sends s v := hu.trans (enterSafe_sends u r.blk)
    clear_value v
    exact (hv.trans (.only (panAppend_only ..))).trans (panCommit_sends ..)
  · exact .only (set_pan_only s { s.pan with sevDue := true })
  · exact .refl s

theorem emitCore_sends (s : State) (b : Blk) (code : Nat) (base : Cls) (detail : Nat) (bit : Option Nat) :
    Sends s (emitCore s b code base detail bit) := by
  unfold emitCore
  extract_lets a esc cls t r u v w
  have hu : Sends s u := ((evDrain_sends s).trans (.only (seqAdvance_only ..))).trans (.only (histPut_only ..))
  have hv : Sends s v := .ite (hu.trans (.only (modBlk_only ..))) hu
  have hw : Sends s w := .ite hv (hv.trans (.only (figFault_only ..)))
  exact ((hw.trans (evRoute_sends w r)).trans (faultEffects_sends ..)).trans (blkIrq_sends ..)

theorem panLog_sends (s : State) (type sub aux data : Nat) : Sends s (panLog s type sub aux data) := by
  unfold panLog
  exact .ite (.only (panAppend_only ..)) (.ite (.refl s)
    ((Sends.only (set_pan_only s { s.pan with full := true })).trans (emitCore_sends ..)))

theorem demote_sends (s : State) : Sends s (demote s) := by
  unfold demote
  have hnoted : Sends s { s with pair := { s.pair with demotedAt := some s.now } } := ⟨fun _ => .refl _, fun _ => id⟩
  exact .ite ((((hnoted.trans (.only (modFig_only ..))).trans (lineRelease_sends _)).trans (emitCore_sends ..)).trans
    (panLog_sends ..)) (.refl s)

theorem emit_sends (s : State) (b : Blk) (code : Nat) (base : Cls) (detail : Nat) (bit : Option Nat) :
    Sends s (emit s b code base detail bit) := by
  unfold emit
  extract_lets before t severe
  have ht : Sends s t := emitCore_sends ..
  clear_value t
  exact .ite (ht.trans (demote_sends t)) ht

/-! ## A link's fall tells its slots, its session and its swap (R346, R353, R373, R528) -/

theorem lnkCnt_sends (s : State) (l : Fin 4) (c n : Nat) : Sends s (lnkCnt s l c n) := .modLink s l ⟨rfl, fun _ => ⟨rfl, rfl⟩⟩

theorem complete_sends (s : State) (hd : Hdr) (op : Nat) (status : BitVec 8) (rlen result : Nat) :
    Sends s (complete s hd op status rlen result) := .only (complete_only ..)

theorem swapAbort_sends (s : State) (mask : Nat) (tell : Bool) : Sends s (swapAbort s mask tell) := by
  unfold swapAbort
  split
  · exact .refl s
  · next w _ =>
    extract_lets u v x y
    have hu : Sends s u := ⟨fun _ => .refl _, fun _ => id⟩
    have hx : Sends s x := (hu.trans (.only (modFig_only ..))).trans (emit_sends ..)
    have hy : Sends s y := by
      unfold y
      split
      · exact hx.trans (complete_sends ..)
      · exact hx
    clear_value y
    split
    · next l hl => exact hy.trans (linkSend_sends (pairLink_up hl) _)
    · exact hy

theorem pairSeek_sends (s : State) : Sends s (pairSeek s) := by
  unfold pairSeek
  extract_lets u
  have hu : Sends s u := ⟨fun _ => .refl _, fun _ => id⟩
  clear_value u
  split
  · exact .ite hu (hu.trans (swapAbort_sends ..))
  · exact hu

theorem sessionEnd_sends (s : State) (st : BitVec 8) : Sends s (sessionEnd s st) := by
  unfold sessionEnd
  split
  · exact .refl s
  · exact (Sends.only (set_upd_only s { s.upd with session := none })).trans (emit_sends ..)

theorem updLinkFall_sends (s : State) (l : Fin 4) : Sends s (updLinkFall s l) := by
  unfold updLinkFall
  extract_lets u v
  have hu : Sends s u := by
    unfold u
    split
    · exact .ite (sessionEnd_sends ..) (.refl s)
    · exact .refl s
  clear_value u
  have hv : Sends u v := .only (set_upd_only u { u.upd with push := none })
  clear_value v
  split
  · refine .ite hu ?_
    split
    · exact (hu.trans hv).trans (complete_sends ..)
    · exact (hu.trans hv).trans (complete_sends ..)
    · exact hu.trans hv
  · exact hu

theorem slotPresent_sends (s : State) (slot : Nat) (here : Bool) : Sends s (slotPresent s slot here) := by
  unfold slotPresent
  refine .ite (.refl s) ?_
  extract_lets m was u v
  have hv : Sends s v := ⟨fun _ => .refl _, fun _ => id⟩
  exact hv.trans (emit_sends ..)

theorem dropRoutes_sends (s : State) (l : Fin 4) : Sends s (dropRoutes s l) := by
  unfold dropRoutes
  extract_lets gone u
  have hu : Sends s u := ⟨fun _ => .refl _, fun _ => id⟩
  exact .ite (hu.trans (.foldl (fun s r => slotPresent_sends s r.1 false) gone u)) hu

end Sys2Proof.Proofs.LinkRecords
end

section
/-! The states of a Colol link and their timers (09_colol_link.md R327, R330, R332, R336, R346, R355). -/
-- One proof after another: the whole text is compiled in one process whose memory is bounded.
set_option Elab.async false
namespace Sys2Proof.Proofs.LinkStates
open Sys2Proof
open Sys2Proof.Machine
open Sys2Proof.Safety
open Sys2Proof.Laws
open Sys2Proof.Proofs.LinkRecords

/-! ## The arms -/

section
variable {s : State} {l : Fin 4}

theorem exec_linkAligned (hst : (link s l).st = .train) : exec (.linkAligned l) s = .next (modLink s l fun k =>
    { k with st := .hello, farOk := false, ackOk := false, mismatched := false, rxSeq := 0, helloAt := s.now, txAt := s.now,
             ackDue := false }) := by
  change execLinkAligned l s = _
  unfold execLinkAligned
  rw [hst]
  rfl

theorem exec_linkHelloSend (hst : (link s l).st = .hello) (hdue : (link s l).helloAt + ticksMs 1 ≤ s.now) :
    exec (.linkHelloSend l) s = .next (sendHello s l) := by
  change execLinkHelloSend l s = _
  unfold execLinkHelloSend
  rw [hst, decide_eq_false (Nat.not_lt.mpr hdue)]
  rfl

theorem exec_linkRetrain (hst : (link s l).st = .down) (hdue : (link s l).downAt + ticksMs 1 ≤ s.now) :
    exec (.linkRetrain l) s = .next (modLink s l fun k => { k with st := .train }) := by
  change execLinkRetrain l s = _
  unfold execLinkRetrain
  rw [hst, decide_eq_false (Nat.not_lt.mpr hdue)]
  rfl

theorem exec_linkIdleSend (hst : (link s l).st = .up ∨ (link s l).st = .hello)
    (hdue : (link s l).txAt + ticksUs 4 ≤ s.now ∨ (link s l).ackDue = true) :
    exec (.linkIdleSend l) s = .next (sendNow s l .idle) := by
  have hruns : ((link s l).st != .up && (link s l).st != .hello) = false := by
    obtain h | h := hst <;> rw [h] <;> rfl
  have hnow : (!(link s l).ackDue && decide (s.now < (link s l).txAt + ticksUs 4)) = false := by
    obtain h | h := hdue
    · rw [decide_eq_false (Nat.not_lt.mpr h), Bool.and_false]
    · rw [h]
      rfl
  change execLinkIdleSend l s = _
  unfold execLinkIdleSend
  dsimp only
  rw [hruns, hnow]
  rfl

/-- A timer at `t` fires where nothing that it awaits waits at that tick (R355, R480). -/
theorem timer_due {now t : Nat} {waits : Bool} (hdue : t ≤ now) (hfree : t < now ∨ waits = false) :
    (decide (now < t) || (decide (now = t) && waits)) = false := by
  rw [decide_eq_false (Nat.not_lt.mpr hdue)]
  obtain h | h := hfree
  · rw [decide_eq_false (by omega)]
    rfl
  · rw [h, Bool.and_false]
    rfl

theorem retryTimeout_fires {u : Unacked} {r : List Unacked} (hretry : (link s l).retry = u :: r) (hst : (link s l).st = .up)
    (hdue : u.sent + ticksUs (retryUs (link s l)) ≤ s.now)
    (hfree : u.sent + ticksUs (retryUs (link s l)) < s.now ∨ ackWaits s l = false) :
    exec (.retryTimeout l) s = .next (if 8 ≤ (link s l).resends then linkFall s l 3 else resendAll s l) := by
  change execRetryTimeout l s = _
  unfold execRetryTimeout
  dsimp only
  rw [hretry]
  dsimp only
  rw [hst, Bool.or_assoc, timer_due hdue hfree]
  rfl

theorem exec_linkDeadTimeout (hst : (link s l).st = .up) (hdue : (link s l).rxAt + ticksUs (getW s Rg.lnkDeadTo).toNat ≤ s.now)
    (hfree : (link s l).rxAt + ticksUs (getW s Rg.lnkDeadTo).toNat < s.now ∨ linkWaits s l (fun _ => true) = false) :
    exec (.linkDeadTimeout l) s = .next (linkFall s l 2) := by
  change execLinkDeadTimeout l s = _
  unfold execLinkDeadTimeout
  dsimp only
  rw [hst, Bool.or_assoc, timer_due hdue hfree]
  rfl

end

/-! ## A resend (R332) -/

theorem resendAll_resends (s : State) (l : Fin 4) : (link (resendAll s l) l).resends = (link s l).resends + 1 := by
  have hout : ∀ (us : List Unacked) (u : State), (us.foldl (fun t u => outLink t l
      { lseq := u.lseq, ack := (link s l).rxSeq, crcOk := true, lenOk := true, body := u.body }) u).lnk = u.lnk := fun us => by
    induction us with
    | nil => exact fun _ => rfl
    | cons a r ih => exact fun u => (ih _).trans rfl
  unfold resendAll
  dsimp only
  rw [link_of_only (perfAdd_only ..), lnkCnt, link_modLink_same, link_modLink_same]
  exact congrArg (fun k : Link => k.resends + 1) (link_of_links (congrArg Lnk.links (hout (link s l).retry s)) l)

/-! ## A fall (R346) -/

/-- The link once it has fallen, before what the fall tells. -/
def fallen (s : State) (l : Fin 4) : State :=
  modLink (modLnk s fun n => { n with tunnelLost := n.tunnelLost + (((link s l).retry.map fun u => u.body) ++ (link s l).waiting).countP isPosted }) l
    fun k => { k with st := .down, downAt := s.now, retry := [], waiting := [], passed := 0, exch := [], ackDue := false, farOk := false,
                      ackOk := false, mismatched := false, pantryDown := k.pantryDown + 1 }

theorem swapAbort_lnkKept (s : State) (mask : Nat) (tell : Bool) : StatKept .lnk s (swapAbort s mask tell) := by
  unfold swapAbort
  split
  · exact .refl ..
  · extract_lets u v x y
    have hu : StatKept .lnk s u := .ofLog rfl
    have hx : StatKept .lnk s x :=
      (hu.trans (.only (modFig_only ..) (by decide))).trans (emit_kept _ _ _ _ _ _ _ (by decide) (by decide) (by decide) (by decide))
    have hy : StatKept .lnk s y := by
      unfold y
      split
      · exact hx.trans (.only (complete_only ..) (by decide))
      · exact hx
    clear_value y
    split
    · exact hy.trans (.only (linkSend_only ..) (by decide))
    · exact hy

theorem pairSeek_lnkKept (s : State) : StatKept .lnk s (pairSeek s) := by
  unfold pairSeek
  extract_lets u
  have hu : StatKept .lnk s u := .ofLog rfl
  clear_value u
  split
  · split
    · exact hu
    · exact hu.trans (swapAbort_lnkKept ..)
  · exact hu

theorem updLinkFall_lnkKept (s : State) (l : Fin 4) : StatKept .lnk s (updLinkFall s l) := by
  unfold updLinkFall
  extract_lets u v
  have hu : StatKept .lnk s u := by
    unfold u
    split
    · split
      · unfold sessionEnd
        split
        · exact .refl ..
        · exact StatKept.trans (.only (set_upd_only ..) (by decide)) (emit_kept _ _ _ _ _ _ _ (by decide) (by decide) (by decide) (by decide))
      · exact .refl ..
    · exact .refl ..
  clear_value u
  have hv : StatKept .lnk u v := .ofLog rfl
  clear_value v
  split
  · split
    · exact hu
    · split
      · exact (hu.trans hv).trans (.only (complete_only ..) (by decide))
      · exact (hu.trans hv).trans (.only (complete_only ..) (by decide))
      · exact hu.trans hv
  · exact hu

/-- R346, R353: a link that falls is down with empty buffers, whatever its fall tells, and the fall is recorded. -/
theorem linkFall_falls {s : State} {l : Fin 4} (hst : (link s l).st = .up) (cause : Nat) :
    Sends (fallen s l) (linkFall s l cause) ∧ (blkStat (linkFall s l cause) .lnk).bits.getLsbD 0 = true := by
  unfold linkFall
  rw [hst, if_neg (by decide)]
  extract_lets path k lost u v w x
  have hv : v = fallen s l := rfl
  clear_value v
  subst hv
  have hw : Sends (fallen s l) w := ((dropRoutes_sends ..).trans (lnkCnt_sends ..)).trans (emit_sends ..)
  have hbit : (blkStat w .lnk).bits.getLsbD 0 = true := (emit_advanced _ .lnk _ _ _ _ (by decide)).bit 0 rfl (by decide)
  clear_value w
  have hx : Sends w x ∧ StatKept .lnk w x := by
    unfold x
    split
    · exact ⟨(pairSeek_sends w).trans (updLinkFall_sends ..), (pairSeek_lnkKept w).trans (updLinkFall_lnkKept ..)⟩
    · exact ⟨updLinkFall_sends .., updLinkFall_lnkKept ..⟩
  clear_value x
  split
  · exact ⟨(hw.trans hx.1).trans (slotRequest_sends x),
      (hx.2.trans (.only (slotRequest_only x) (by decide))).bits 0 hbit⟩
  · exact ⟨hw.trans hx.1, hx.2.bits 0 hbit⟩

theorem helloToTrain_other (s : State) {l : Fin 4} (hst : (link s l).st ≠ .hello) : link (helloToTrain s l) l = link s l := by
  unfold helloToTrain
  rw [link_modLink_same, if_neg hst]

/-- Settles O49: every timer is its arm; a link that falls from UP stays down through what its fall tells. -/
theorem linkStatesFollow : Obligations.LinkStatesFollow := by
  intro s l
  refine ⟨fun hst => ?_, exec_linkHelloSend, exec_linkRetrain, exec_linkIdleSend, fun u r hretry hst hdue hfree => ⟨fun hfew => ?_, fun hmany => ?_⟩,
    exec_linkDeadTimeout, fun hst => ?_, fun hst => ?_⟩
  · refine ⟨_, exec_linkAligned hst, ?_, ?_, fun m hm => link_modLink_other s hm _, rfl⟩
    · rw [link_modLink_same]
    · rw [link_modLink_same]
  · rw [retryTimeout_fires hretry hst hdue hfree, if_neg (by omega)]
    exact ⟨rfl, resendAll_resends s l⟩
  · rw [retryTimeout_fires hretry hst hdue hfree, if_pos hmany]
  · have hstays : linkFall s l 1 = s := by
      unfold linkFall
      rw [hst, if_pos (by decide)]
    have hexec : exec (.linkLockLoss l) s = .next (helloToTrain s l) := congrArg (fun t => Host.Outcome.next (helloToTrain t l)) hstays
    refine ⟨_, hexec, ?_, fun m hm => link_modLink_other s hm _⟩
    unfold helloToTrain
    rw [link_modLink_same, if_pos hst]
  · obtain ⟨hsends, hbit⟩ := linkFall_falls hst 1
    have hdown : (link (fallen s l) l).st = .down ∧ (link (fallen s l) l).retry = [] := by
      unfold fallen
      rw [link_modLink_same]
      exact ⟨rfl, rfl⟩
    have hfell : (link (linkFall s l 1) l).st = .down := (hsends.links l).st.trans hdown.1
    have hsame := helloToTrain_other (linkFall s l 1) (l := l) (by rw [hfell]; decide)
    refine ⟨helloToTrain (linkFall s l 1) l, rfl, ?_, ?_, ?_, ?_⟩
    · rw [hsame]
      exact hfell
    · rw [hsame, ((hsends.links l).2 (by rw [hdown.1]; decide)).1]
      exact hdown.2
    · exact (StatKept.only (helloToTrain_only ..) (by decide)).bits 0 hbit
    · rw [(helloToTrain_only ..).same .words (by decide), (linkFall_only ..).same .words (by decide)]

end Sys2Proof.Proofs.LinkStates
end

section
/-! Exchanges over the Colol links and their ends (09_colol_link.md R331, R333, R338 to R341, R345, R351, R354, R355). -/
-- One proof after another: the whole text is compiled in one process whose memory is bounded.
set_option Elab.async false
namespace Sys2Proof.Proofs.LinkExchanges
open Sys2Proof
open Sys2Proof.Machine
open Sys2Proof.Safety
open Sys2Proof.Laws
open Sys2Proof.Proofs.Notices
open Sys2Proof.Proofs.LinkRecords
open Sys2Proof.Proofs.LinkStates

/-! ## Frames (R331, R333, R354) -/

section
variable {s : State} {l : Fin 4} {ph : Fin 16} {hostData : List Byte} {f : LinkFrame}
  (hst : (link s l).st = .up ∨ (link s l).st = .hello) (hpower : linksPower s = true)
include hst hpower

theorem frame_taken : exec (.linkFrameRx l ph hostData f) s = .next (if !f.crcOk then crcError s l
    else if !f.lenOk || !bodyFits f.body then lnkCnt (modLink s l fun k => { k with rxAt := s.now }) l 7 1
    else if (link s l).st = .hello then rxInHello (modLink s l fun k => { k with rxAt := s.now }) l f
    else rxInUp (modLink s l fun k => { k with rxAt := s.now }) l ph hostData f) := by
  change execLinkFrameRx l ph hostData f s = _
  unfold execLinkFrameRx
  dsimp only
  rw [hpower]
  obtain h | h := hst <;> rw [h] <;> rfl

theorem frame_badCrc (hcrc : f.crcOk = false) : exec (.linkFrameRx l ph hostData f) s = .next (crcError s l) := by
  rw [frame_taken hst hpower, hcrc]
  rfl

theorem frame_badLen (hcrc : f.crcOk = true) (hlen : f.lenOk = false ∨ bodyFits f.body = false) :
    exec (.linkFrameRx l ph hostData f) s = .next (lnkCnt (modLink s l fun k => { k with rxAt := s.now }) l 7 1) := by
  have hbad : (!f.lenOk || !bodyFits f.body) = true := by
    obtain h | h := hlen <;> rw [h]
    · rfl
    · rw [Bool.not_false, Bool.or_true]
  rw [frame_taken hst hpower, hcrc, hbad]
  rfl

theorem frame_good (hcrc : f.crcOk = true) (hlen : f.lenOk = true) (hbody : bodyFits f.body = true) :
    exec (.linkFrameRx l ph hostData f) s = .next (if (link s l).st = .hello
      then rxInHello (modLink s l fun k => { k with rxAt := s.now }) l f
      else rxInUp (modLink s l fun k => { k with rxAt := s.now }) l ph hostData f) := by
  rw [frame_taken hst hpower, hcrc, hlen, hbody]
  rfl

end

theorem crcError_link (s : State) (l : Fin 4) : (link (crcError s l) l).crcSec = (link s l).crcSec + 1 ∧
    (link (crcError s l) l).rxSeq = (link s l).rxSeq ∧ (link (crcError s l) l).rxAt = (link s l).rxAt := by
  have hbefore : ∀ n, link (perfAdd (lnkCnt s l 0 1) n 1) l = { link s l with cnt := vmod (link s l).cnt 0 fun v => (v + 1) % 2 ^ 64 } := fun n => by
    rw [link_of_only (perfAdd_only ..), lnkCnt, link_modLink_same]
  unfold crcError
  rw [link_modLink_same, hbefore]
  exact ⟨rfl, rfl, rfl⟩

theorem crcError_only (s : State) (l : Fin 4) : Only [.links, .cnt] s (crcError s l) := by
  unfold crcError lnkCnt
  exact (((modLink_only ..).mono (by decide)).step (perfAdd_only ..) (by decide)).step (modLink_only ..) (by decide)

/-- R331: an IDLE on an UP link with nothing to acknowledge does no more than keep the link up. -/
theorem rxInUp_idle {s : State} {l : Fin 4} (hretry : (link s l).retry = []) (ph : Fin 16) (hostData : List Byte) {f : LinkFrame}
    (hbody : f.body = .idle) : rxInUp s l ph hostData f = s := by
  have hack : rxAck s l f.ack = s := by
    unfold rxAck
    dsimp only
    rw [hretry]
    rfl
  unfold rxInUp
  rw [hbody]
  dsimp only
  rw [hack]
  rfl

/-! ## The time exchange (R338, R341) -/

section
variable {s : State} {l : Fin 4}

/-- The exchange that a TIME_REQ opens. -/
def openedExchange (s : State) (l : Fin 4) : Exchange :=
  { seq := (link s l).seq + 1, t1 := stampSub (freeN s).2 (9 + l.val) 1 (Fin.ofNat 16 (freeN s).1), tick := s.now, stepped := false }

/-- The state in which the TIME_REQ leaves. -/
def requested (s : State) (l : Fin 4) : State :=
  modLink (freeN s).2 l fun k => { k with seq := (link s l).seq + 1, lastReq := some (txIndexNow s l),
                                          exch := k.exch ++ [openedExchange s l] }

theorem requested_link (s : State) (l : Fin 4) : link (requested s l) l =
    { link s l with seq := (link s l).seq + 1, lastReq := some (txIndexNow s l), exch := (link s l).exch ++ [openedExchange s l] } := by
  unfold requested
  rw [link_modLink_same]
  rfl

theorem exec_timeReqSend (hup : (link s l).st = .up) (hrole : (link s l).role = .parent ∨ (link s l).role = .pair)
    (hnew : (link s l).lastReq ≠ some (txIndexNow s l)) (hroom : (link s l).exch.length < 8) : exec (.timeReqSend l) s =
      .next (linkSend (requested s l) l (.timeReq ((link s l).seq + 1))) := by
  have hask : ((link s l).role != .parent && (link s l).role != .pair) = false := by
    obtain h | h := hrole <;> rw [h] <;> rfl
  change execTimeReqSend l s = _
  unfold execTimeReqSend
  dsimp only
  rw [hup, hask, decide_eq_false hnew, decide_eq_false (Nat.not_le.mpr hroom)]
  rfl

/-- An exchange whose TIME_RESP has not come in time. -/
def late (s : State) (l : Fin 4) (e : Exchange) : Bool :=
  decide (e.tick + max (8 * txPeriod s l) (ticksMs 1) < s.now) ||
    (decide (e.tick + max (8 * txPeriod s l) (ticksMs 1) = s.now) && !respWaits s l e.seq)

theorem exec_exchangeLost {e : Exchange} (he : e ∈ (link s l).exch) (hlate : late s l e = true) :
    exec (.exchangeLost l) s = .next (lnkCnt (modLink s l fun k => { k with exch := k.exch.filter fun e => !late s l e }) l 4
      ((link s l).exch.countP (late s l))) := by
  have hsome : (link s l).exch.countP (late s l) ≠ 0 := Nat.pos_iff_ne_zero.mp (List.countP_pos_iff.mpr ⟨e, he, hlate⟩)
  exact congrArg Host.Outcome.next (if_neg hsome)

/-! ## Errors of a second (R354) -/

theorem linkErrors_second (hdue : (link s l).errAt + ticksS 1 ≤ s.now) : exec (.linkErrors l) s =
    .next (if (link s l).crcSec ≤ (getW s Rg.lnkErrLimit).toNat then modLink s l fun k => { k with crcSec := 0, errAt := s.now }
      else emit (modLink s l fun k => { k with crcSec := 0, errAt := s.now }) .lnk 0x0004 .notice
        (l.val + sat32 (link s l).crcSec * 2 ^ 32) (some 2)) :=
  congrArg Host.Outcome.next (if_neg (Nat.not_lt.mpr hdue))

end

/-! ## Remote accesses (R351) and the shelf (R345) -/

/-- The access that has had no REG_CPL leaves; a read returns all ones. -/
def remoteGone (s : State) (a : RemoteAcc) (r : List RemoteAcc) : State :=
  if a.write then { s with hif := { s.hif with remote := r } }
  else emitOut { s with hif := { s.hif with remote := r } } (.read a.addr 0xFFFFFFFF)

theorem exec_remoteTimeout {s : State} {a : RemoteAcc} {r : List RemoteAcc} (hremote : s.hif.remote = a :: r) (hdue : a.deadline ≤ s.now)
    (hfree : a.deadline < s.now ∨ cplWaits s a = false) : exec .remoteTimeout s =
      .next (emit (remoteGone s a r) .lnk 0x0008 .notice (a.slot % 64 + a.addr % 2 ^ 21 * 256) (some 5)) := by
  change execRemoteTimeout s = _
  unfold execRemoteTimeout
  rw [hremote]
  dsimp only
  rw [timer_due hdue hfree]
  rfl

theorem remoteGone_kept (s : State) (a : RemoteAcc) (r : List RemoteAcc) : (remoteGone s a r).hif.remote = r ∧
    (remoteGone s a r).tco = s.tco ∧ (remoteGone s a r).words = s.words := by
  unfold remoteGone
  split <;> exact ⟨rfl, rfl, rfl⟩

/-- Settles O50: frames, exchanges and remote accesses act as their arms; what leaves afterwards moves only what a link carries. -/
theorem linkExchangesAct : Obligations.LinkExchangesAct := by
  refine ⟨⟨fun s l ph hostData f hst hpower => ⟨frame_badCrc hst hpower, fun hcrc hlen => ?_, frame_good hst hpower⟩,
    fun s l ph hostData f hup hpower => ⟨fun hcrc => ?_, fun hcrc hlen hbody hretry hwaiting => ?_⟩,
    fun s l hup hrole hnew hroom => ?_, fun s l e he hlate => ?_, fun s l hdue hfew => ?_, fun s l hdue hmany => ?_⟩,
    fun s a r hremote hdue hfree => ⟨fun hread => ?_, fun hwrite => ?_⟩, fun s hdue => ?_, fun s l hparent hpcie hroot hfixed => ?_⟩
  · refine ⟨_, frame_badLen hst hpower hcrc hlen, ?_, ?_, rfl, rfl⟩
    · rw [lnkCnt, link_modLink_same, link_modLink_same]
    · rw [lnkCnt, link_modLink_same, link_modLink_same]
  · obtain ⟨hcount, hseq, hheard⟩ := crcError_link s l
    exact ⟨_, frame_badCrc (.inl hup) hpower hcrc, hcount, hseq, hheard, (crcError_only s l).same .out (by decide),
      pair_of_only (crcError_only s l)⟩
  · have hbuffer : (link (modLink s l fun k => { k with rxAt := s.now }) l).retry = [] := by rw [link_modLink_same, hretry]
    have hexec := frame_good (hostData := hostData) (ph := ph) (.inl hup) hpower hcrc hlen (by rw [hbody]; rfl)
    rw [hup, if_neg (by decide), rxInUp_idle hbuffer ph hostData hbody] at hexec
    refine ⟨_, hexec, ?_, ?_, rfl, rfl⟩
    · rw [link_modLink_same]
    · rw [link_modLink_same, hup]
  · have hsent := (linkSend_sends (s := requested s l) (by rw [requested_link, hup]) (.timeReq ((link s l).seq + 1))).links l
    rw [requested_link] at hsent
    refine ⟨_, openedExchange s l, exec_timeReqSend hup hrole hnew hroom, congrArg Link.seq hsent.1, congrArg Link.exch hsent.1, rfl, rfl,
      congrArg Link.lastReq hsent.1, (linkSend_only ..).same .tco (by decide)⟩
  · have hgone : late s l e = true := by
      unfold late
      rw [decide_eq_true hlate, Bool.true_or]
    refine ⟨_, exec_exchangeLost he hgone, fun hmem => ?_, fun m hm => ?_, rfl⟩
    · rw [lnkCnt, link_modLink_same, link_modLink_same] at hmem
      have hkept := (List.mem_filter.mp hmem).2
      rw [hgone] at hkept
      exact absurd hkept (by decide)
    · rw [lnkCnt, link_modLink_other _ hm, link_modLink_other _ hm]
  · rw [linkErrors_second hdue, if_pos hfew]
  · have hcleared : link (modLink s l fun k => { k with crcSec := 0, errAt := s.now }) l = { link s l with crcSec := 0, errAt := s.now } :=
      link_modLink_same ..
    have hadvanced := emit_advanced (modLink s l fun k => { k with crcSec := 0, errAt := s.now }) .lnk 0x0004 .notice
      (l.val + sat32 (link s l).crcSec * 2 ^ 32) (some 2) (by decide)
    have hsent := (emit_sends (modLink s l fun k => { k with crcSec := 0, errAt := s.now }) .lnk 0x0004 .notice
      (l.val + sat32 (link s l).crcSec * 2 ^ 32) (some 2)).links l
    rw [hcleared] at hsent
    rw [linkErrors_second hdue, if_neg (Nat.not_le.mpr hmany)]
    exact ⟨_, rfl, congrArg Link.crcSec hsent.1, congrArg Link.errAt hsent.1, hadvanced.bit 2 rfl (by decide), hadvanced.seq,
      (emit_only ..).same .tco (by decide)⟩
  · obtain ⟨hleft, htco, hwords⟩ := remoteGone_kept s a r
    refine ⟨_, exec_remoteTimeout hremote hdue hfree, ?_, (emit_sends ..).out _ ?_, (emit_advanced _ _ _ _ _ _ (by decide)).bit 5 rfl (by decide),
      ((emit_only ..).same .tco (by decide)).trans htco, ((emit_only ..).same .words (by decide)).trans hwords⟩
    · rw [(emit_only ..).same .hif (by decide)]
      exact hleft
    · unfold remoteGone
      rw [hread]
      exact List.mem_cons_self ..
  · obtain ⟨hleft, htco, hwords⟩ := remoteGone_kept s a r
    refine ⟨_, exec_remoteTimeout hremote hdue hfree, ?_, (emit_advanced _ _ _ _ _ _ (by decide)).bit 5 rfl (by decide),
      ((emit_only ..).same .tco (by decide)).trans htco, ((emit_only ..).same .words (by decide)).trans hwords⟩
    rw [(emit_only ..).same .hif (by decide)]
    exact hleft
  · exact congrArg Host.Outcome.next (if_neg (Nat.not_lt.mpr hdue))
  · unfold shelfRequest isRoot
    rw [hparent, hpcie, hroot, hfixed]
    rfl

end Sys2Proof.Proofs.LinkExchanges
end

section
/-! What the pair's own records, its mirror and the end of a swap leave of the pair's state (10_redundant_pair.md R363 to R382). -/
-- One proof after another: the whole text is compiled in one process whose memory is bounded.
set_option Elab.async false
namespace Sys2Proof.Proofs.PairRecords
open Sys2Proof
open Sys2Proof.Machine
open Sys2Proof.Safety
open Sys2Proof.Laws
open Sys2Proof.Proofs.Records
open Sys2Proof.Proofs.Notices

/-! ## Records of the pair -/

/-- R368: only a record of another block lets a severe fault take the line. -/
theorem emit_pair_eq (s : State) (code : Nat) (base : Cls) (detail : Nat) (bit : Option Nat) :
    emit s .pair code base detail bit = emitCore s .pair code base detail bit := by
  unfold emit
  exact if_neg (by simp)

theorem emit_pair_mild_only (s : State) (code : Nat) {base : Cls} (hbase : base = .notice ∨ base = .degraded) (detail : Nat)
    (bit : Option Nat) : Only recordParts s (emit s .pair code base detail bit) := by
  rw [emit_pair_eq]
  exact emitCore_mild_only s .pair code detail bit hbase

theorem panLog_mild_only (s : State) (type sub aux data : Nat) : Only recordParts s (panLog s type sub aux data) := by
  unfold panLog
  split
  · exact (panAppend_only ..).mono (by decide)
  · split
    · exact .refl _ s
    · exact ((set_pan_only s { s.pan with full := true }).mono (by decide)).step (emitCore_mild_only _ _ _ _ _ (.inl rfl)) fun _ => id

theorem roleChange_mild_only (s : State) (active : Bool) (cause : Nat) (incomplete : Bool) (ts : BitVec 32) :
    Only recordParts s (roleChange s active cause incomplete ts) := by
  unfold roleChange
  exact (emitCore_mild_only s .pair 0x0001 _ (some 0) (.inl rfl)).step (panLog_mild_only ..) fun _ => id

/-! ## A unit that neither drives nor holds keeps its pair state through a record -/

theorem lineRelease_of_free {s : State} (h : LineFree s) : lineRelease s = s := by
  obtain ⟨hdrive, hholding⟩ := h
  unfold lineRelease
  exact if_neg (by rw [hdrive, hholding]; decide)

theorem faultEffects_pair {s : State} (h : LineFree s) (r : Rec) : (faultEffects s r).pair = s.pair := by
  unfold faultEffects
  split
  · extract_lets was u v hot
    have hu : u.pair = s.pair :=
      (congrArg State.pair (lineRelease_of_free (s := { s with log := { s.log with fatal := true } }) h) :)
    have hv : v.pair = s.pair := (pair_of_only (enterSafe_only ..)).trans hu
    clear_value v
    exact (pair_of_only (panCommit_only ..)).trans ((pair_of_only (panAppend_only ..)).trans hv)
  · rfl
  · rfl

theorem emitCore_pair {s : State} (h : LineFree s) (b : Blk) (code : Nat) (base : Cls) (detail : Nat) (bit : Option Nat) :
    (emitCore s b code base detail bit).pair = s.pair := by
  unfold emitCore
  extract_lets u esc cls adv r hist faulted figured
  have hhist : hist.pair = s.pair :=
    (pair_of_only (histPut_only ..)).trans ((pair_of_only (seqAdvance_only ..)).trans (pair_of_only (evDrain_only s)))
  have hfaulted : faulted.pair = s.pair := by
    unfold faulted
    split
    · exact (pair_of_only (modBlk_only ..)).trans hhist
    · exact hhist
  have hfigured : figured.pair = s.pair := by
    unfold figured
    split
    · exact hfaulted
    · exact (pair_of_only (figFault_only ..)).trans hfaulted
  have hrouted : (evRoute figured r).pair = s.pair := (pair_of_only (evRoute_only ..)).trans hfigured
  exact (pair_of_only (blkIrq_only ..)).trans ((faultEffects_pair (h.ofPair hrouted) r).trans hrouted)

theorem lineFault_pair {s : State} (h : LineFree s) (cause : Nat) : (lineFault s cause).pair = s.pair := by
  unfold lineFault
  rw [emit_pair_eq]
  exact emitCore_pair h ..

theorem lineFault_bit (s : State) (cause : Nat) : (blkStat (lineFault s cause) .pair).bits.getLsbD 5 = true :=
  (emit_advanced s .pair _ _ _ _ (by decide)).bit 5 rfl (by decide)

/-- The pair's state once the engine no longer drives the line. -/
theorem dropLine_pair (s : State) (high : Bool) : (dropLine s high).pair =
    { s.pair with drive := false, holding := false, line := high, driveAt := none, highAt := if high then some s.now else none } := by
  unfold dropLine
  extract_lets u
  have hu : u.pair = s.pair ∧ u.now = s.now := by
    unfold u
    split <;> exact ⟨rfl, rfl⟩
  clear_value u
  obtain ⟨hpair, hnow⟩ := hu
  refine (pair_of_only (refreshOuts_only ..)).trans ?_
  dsimp only [modPair]
  rw [hpair, hnow]

theorem dropLine_lineFree (s : State) (high : Bool) : LineFree (dropLine s high) := by
  unfold LineFree
  rw [dropLine_pair]
  exact ⟨rfl, rfl⟩

theorem lineFault_dropLine_pair (s : State) (high : Bool) (cause : Nat) : (lineFault (dropLine s high) cause).pair =
    { s.pair with drive := false, holding := false, line := high, driveAt := none, highAt := if high then some s.now else none } :=
  (lineFault_pair (dropLine_lineFree s high) cause).trans (dropLine_pair s high)

/-! ## The mirror advances its generation and nothing else of the pair (R376) -/

/-- The pair's state but for the mirror's generation. -/
def MirrorKept (s t : State) : Prop := t.pair = { s.pair with mgen := t.pair.mgen }

theorem MirrorKept.ofPair {s t : State} (h : t.pair = s.pair) : MirrorKept s t := by
  unfold MirrorKept
  rw [h]

theorem MirrorKept.refl (s : State) : MirrorKept s s := .ofPair rfl

theorem MirrorKept.trans {s t u : State} (h : MirrorKept s t) (k : MirrorKept t u) : MirrorKept s u := by
  unfold MirrorKept at *
  rw [k, h]

theorem MirrorKept.foldl {α : Type} {f : State → α → State} (hf : ∀ s a, MirrorKept s (f s a)) (l : List α) (s : State) :
    MirrorKept s (l.foldl f s) := by
  induction l generalizing s with
  | nil => exact .refl s
  | cons a r ih => exact (hf s a).trans (ih _)

theorem mirrorPut_kept (s : State) (snapshot last : Bool) (r : MirrorRec) : MirrorKept s (mirrorPut s snapshot last r) := by
  unfold mirrorPut
  split
  · split
    · exact MirrorKept.trans (t := modPair s fun p => { p with mgen := s.pair.mgen + 1 }) rfl (.ofPair (pair_of_only (linkSend_only ..)))
    · exact .refl s
  · exact .refl s

theorem mirrorKey_pair (s : State) (slot : Nat) : (mirrorKey s slot).2.2.2.pair = s.pair := by
  unfold mirrorKey
  extract_lets k
  split
  · next w _ =>
    split
    · exact pair_of_only (wrapBlob_only s slot w.toNat)
    · exact pair_of_only (emit_pair_mild_only s 0x000B (.inl rfl) slot none)
  · rfl

theorem mirrorCookie_kept (s : State) (i : Fin 16) (snapshot : Bool) : MirrorKept s (mirrorCookie s i snapshot) := by
  unfold mirrorCookie
  split
  · exact .refl s
  · dsimp only
    split
    · exact mirrorPut_kept ..
    · exact (MirrorKept.ofPair (mirrorKey_pair ..)).trans (mirrorPut_kept ..)

theorem mirrorSec_kept (s : State) (i : Fin 64) (snapshot : Bool) : MirrorKept s (mirrorSec s i snapshot) := by
  unfold mirrorSec
  split
  · exact .refl s
  · dsimp only
    split
    · exact mirrorPut_kept ..
    · exact (MirrorKept.ofPair (mirrorKey_pair ..)).trans (mirrorPut_kept ..)

theorem mirrorGrant_kept (s : State) (e : Nat) (snapshot : Bool) : MirrorKept s (mirrorGrant s e snapshot) := by
  unfold mirrorGrant
  split <;> exact mirrorPut_kept ..

theorem snapshot_kept (s : State) : MirrorKept s (snapshot s) := by
  unfold snapshot
  split
  · exact .refl s
  · extract_lets active words cookies keys grants seqs navs trigs
    have hwords : MirrorKept s words := (mirrorPut_kept ..).trans (.foldl (fun _ _ => mirrorPut_kept ..) _ _)
    clear_value words
    have hcookies : MirrorKept s cookies := hwords.trans (.foldl (fun _ _ => mirrorCookie_kept ..) _ _)
    clear_value cookies
    have hkeys : MirrorKept s keys := hcookies.trans (.foldl (fun _ _ => mirrorSec_kept ..) _ _)
    clear_value keys
    have hgrants : MirrorKept s grants := hkeys.trans (.foldl (fun _ _ => mirrorGrant_kept ..) _ _)
    clear_value grants
    have hseqs : MirrorKept s seqs := hgrants.trans (.foldl (fun _ _ => mirrorPut_kept ..) _ _)
    clear_value seqs
    have hnavs : MirrorKept s navs := hseqs.trans (.foldl (fun _ _ => mirrorPut_kept ..) _ _)
    clear_value navs
    have htrigs : MirrorKept s trigs := by
      refine hnavs.trans (.foldl (fun u p => ?_) _ _)
      split <;> exact mirrorPut_kept ..
    clear_value trigs
    exact htrigs.trans (mirrorPut_kept ..)

/-- A unit that has become active holds what it held, and no swap. -/
theorem takeMirror_keeps (s : State) : (takeMirror s).pair.holding = s.pair.holding ∧ (takeMirror s).pair.swap = s.pair.swap := by
  unfold takeMirror
  extract_lets u
  have hu : u.pair.holding = s.pair.holding ∧ u.pair.swap = s.pair.swap := ⟨rfl, rfl⟩
  clear_value u
  split
  · have hkept := snapshot_kept (modPair u fun p => { p with st := .mirroring, readyAt := none })
    generalize snapshot _ = v at hkept
    rw [hkept]
    exact hu
  · exact hu

/-- R363, R382: a unit that gains the line holds it. -/
theorem promote_holding (s : State) : (promote s).pair.holding = true := by
  unfold promote
  extract_lets cause incomplete u v w x
  have hv : v.pair.holding = true := rfl
  clear_value v
  have hw : w.pair.holding = true := by
    unfold w
    rw [pair_of_only (roleChange_mild_only ..)]
    exact hv
  clear_value w
  have hx : x.pair.holding = true := by
    unfold x
    split
    · exact hw
    · rw [pair_of_only (seqJump_only ..)]
      exact hw
  rw [(takeMirror_keeps _).1, pair_of_only (refreshOuts_only ..)]
  exact hx

/-! ## The end of a swap (R379, R381) -/

/-- R381: a swap that aborts is gone, counted, and may be proposed again an hour later. -/
def swapEnded (s : State) : Pair :=
  { s.pair with swap := none, swapRetry := some (s.now + ticksS 3600),
                swapsAborted := BitVec.ofNat 16 (min 65535 (s.pair.swapsAborted.toNat + 1)) }

theorem swapAbort_pair {s : State} {w : Swap} (h : s.pair.swap = some w) (mask : Nat) (tell : Bool) :
    (swapAbort s mask tell).pair = swapEnded s := by
  unfold swapAbort
  split
  · next hnone => rw [h] at hnone; contradiction
  · extract_lets u v x y
    have hx : x.pair = v.pair := pair_of_only (emit_pair_mild_only v 0x0003 (.inr rfl) _ (some 2))
    have hy : y.pair = x.pair := by
      unfold y
      split
      · exact pair_of_only (complete_only ..)
      · rfl
    have hend : y.pair = swapEnded s := hy.trans hx
    clear_value y
    split
    · exact (pair_of_only (linkSend_only ..)).trans hend
    · exact hend

theorem swapAbort_leaves {s : State} {w : Swap} (h : s.pair.swap = some w) (mask : Nat) (tell : Bool) :
    (swapAbort s mask tell).pair.swap = none ∧ (swapAbort s mask tell).pair.holding = s.pair.holding ∧
    (swapAbort s mask tell).pair.drive = s.pair.drive := by
  rw [swapAbort_pair h]
  exact ⟨rfl, rfl, rfl⟩

theorem swapAbort_bit {s : State} {w : Swap} (h : s.pair.swap = some w) (mask : Nat) (tell : Bool) :
    (blkStat (swapAbort s mask tell) .pair).bits.getLsbD 2 = true := by
  unfold swapAbort
  split
  · next hnone => rw [h] at hnone; contradiction
  · extract_lets u v x y
    have hx : (blkStat x .pair).bits.getLsbD 2 = true := (emit_advanced v .pair _ _ _ _ (by decide)).bit 2 rfl (by decide)
    have hy : StatKept .pair x y := by
      unfold y
      split
      · exact .only (complete_only ..) (by decide)
      · exact .refl ..
    clear_value y x
    split
    · exact (hy.trans (.only (linkSend_only ..) (by decide))).bits 2 hx
    · exact hy.bits 2 hx

/-- R379: the swap is over, and who holds the line still holds it. -/
theorem swapDone_keeps (s : State) (w : Swap) (active : Bool) :
    (swapDone s w active).pair.swap = none ∧ (swapDone s w active).pair.holding = s.pair.holding := by
  unfold swapDone
  extract_lets ts u v x y
  have hv : v.pair.swap = none ∧ v.pair.holding = s.pair.holding := ⟨rfl, rfl⟩
  have hx : x.pair = v.pair := pair_of_only (roleChange_mild_only ..)
  have hy : y.pair = x.pair := by
    unfold y
    split
    · exact pair_of_only (complete_only ..)
    · rfl
  clear_value y x v
  rw [← hx, ← hy] at hv
  split
  · obtain ⟨hholding, hswap⟩ := takeMirror_keeps y
    exact ⟨hswap.trans hv.1, hholding.trans hv.2⟩
  · exact hv

end Sys2Proof.Proofs.PairRecords
end

section
/-! The ACTIVE_N line, its hold watchdog, heartbeats and swap requests (10_redundant_pair.md R363 to R370, R383). -/
-- One proof after another: the whole text is compiled in one process whose memory is bounded.
set_option Elab.async false
namespace Sys2Proof.Proofs.PairLine
open Sys2Proof
open Sys2Proof.Machine
open Sys2Proof.Safety
open Sys2Proof.Laws
open Sys2Proof.Proofs.Records
open Sys2Proof.Proofs.Notices
open Sys2Proof.Proofs.PairRecords
open Sys2Proof.Proofs.LinkStates

/-! ## The line -/

theorem exec_claimWaitExpiry {s : State} (hlive : pairLive s = true) (hclaims : rb s Rg.pairCtrl 0 = true) (hholding : s.pair.holding = false)
    (hdrive : s.pair.drive = false) (hsafe : safe s .pair = false)
    (hwaited : ∀ t0 ∈ s.pair.highAt, t0 + ticksUs (if preferredNow s then 10 else 60) ≤ s.now) (hlow : s.pwr.pwrFailLow = false)
    (hfailed : s.pwr.failed = false) : exec .claimWaitExpiry s = .next (emitOut (modPair s fun p =>
      { p with drive := true, driveAt := some s.now, line := false, highAt := none, stuckAt := none }) (.line true)) := by
  change execClaimWaitExpiry s = _
  unfold execClaimWaitExpiry
  dsimp only
  rw [hlive, hclaims, hholding, hdrive, hsafe, hlow, hfailed]
  cases hhigh : s.pair.highAt with
  | none => rfl
  | some t0 => simp [hwaited t0 hhigh]

theorem exec_claimCheck (low : Bool) {s : State} {t0 : Nat} (hat : s.pair.driveAt = some t0) (hholding : s.pair.holding = false)
    (hdrive : s.pair.drive = true) (hdue : t0 + ticksUs 1 ≤ s.now) :
    exec (.claimCheck low) s = .next (if low then promote s else lineFault (dropLine s true) 2) := by
  change execClaimCheck low s = _
  unfold execClaimCheck
  rw [hat, hholding, hdrive]
  dsimp only
  rw [decide_eq_false (Nat.not_lt.mpr hdue)]
  rfl

theorem exec_holdWatchdogLapse {s : State} (hholding : s.pair.holding = true) (hdue : s.pair.refreshAt + 10 * hbTicks s ≤ s.now)
    (hfree : s.pair.refreshAt + 10 * hbTicks s < s.now ∨ pairLive s = false ∨ coreUp s 2 = false ∨
      s.pending.contains .heartbeatSend = false) : exec .holdWatchdogLapse s = .next (lineRelease s) := by
  have hnone : (decide (s.pair.refreshAt + 10 * hbTicks s = s.now) && pairLive s && coreUp s 2 &&
      s.pending.contains .heartbeatSend) = false := by
    rcases hfree with hlate | hdead | hcore | hwaits
    · rw [decide_eq_false (Nat.ne_of_lt hlate)]
      rfl
    · rw [hdead, Bool.and_false]
      rfl
    · rw [hcore, Bool.and_false]
      rfl
    · rw [hwaits, Bool.and_false]
  change execHoldWatchdogLapse s = _
  unfold execHoldWatchdogLapse
  dsimp only
  rw [hnone, hholding, decide_eq_true hdue]
  rfl

theorem exec_activeNReadHigh {s : State} (hholding : s.pair.holding = true) :
    exec .activeNReadHigh s = .next (lineFault (dropLine s true) 2) := by
  change execActiveNReadHigh s = _
  unfold execActiveNReadHigh
  rw [if_pos hholding]

theorem exec_lineStuckLow {s : State} (hlive : pairLive s = true) (hdrive : s.pair.drive = false) (hseen : s.pair.partner.seen = true)
    (hstandby : s.pair.partner.flags.getLsbD 0 = false) (hstuck : s.pair.stuckAt = none) :
    exec .lineStuckLow s = .next (lineFault (modPair s fun p => { p with line := false, stuckAt := some s.now }) 1) := by
  change execLineStuckLow s = _
  unfold execLineStuckLow
  rw [hlive, hdrive, hseen, hstandby, hstuck]
  rfl

theorem dropLine_tco (s : State) (high : Bool) : (dropLine s high).tco = s.tco := (dropLine_only s high).same .tco (by decide)

theorem lineFault_tco (s : State) (cause : Nat) : (lineFault s cause).tco = s.tco := (lineFault_only s cause).same .tco (by decide)

/-! ## Heartbeats -/

theorem mirrorSend_kept (s : State) (r : MirrorRec) : MirrorKept s (mirrorSend s r) := mirrorPut_kept ..

/-- R365, R367: a heartbeat refreshes the hold. -/
theorem heartbeat_refreshes (s : State) : (heartbeat s).pair.refreshAt = s.now ∧ (heartbeat s).pair.hbAt = s.now := by
  unfold heartbeat
  extract_lets u
  have hu : u.pair.refreshAt = s.now ∧ u.pair.hbAt = s.now := ⟨rfl, rfl⟩
  clear_value u
  split
  · exact hu
  · extract_lets v w
    have hv : v.pair.refreshAt = u.pair.refreshAt ∧ v.pair.hbAt = u.pair.hbAt := by
      unfold v
      rw [pair_of_only (linkSend_only ..)]
      exact ⟨rfl, rfl⟩
    have hend : MirrorKept v (mirrorSend w (qualsRec w)) := (mirrorSend_kept ..).trans (mirrorSend_kept ..)
    rw [hend]
    exact ⟨hv.1.trans hu.1, hv.2.trans hu.2⟩

theorem exec_heartbeatSend {s : State} (hlive : pairLive s = true) (hcore : coreUp s 2 = true) (hdue : s.pair.hbAt + hbTicks s ≤ s.now) :
    exec .heartbeatSend s = .next (heartbeat s) := by
  change execHeartbeatSend s = _
  unfold execHeartbeatSend
  rw [hlive, hcore, decide_eq_false (Nat.not_lt.mpr hdue)]
  rfl

/-- The partner is lost: what HEARTBEAT_MISS notes of it before the record (R367). -/
def partnerLost (s : State) (held : Bool) : State :=
  modPair s fun p => { p with missed := p.missed + 1, line := !held, lostFirst := held, partner := { p.partner with seen := false } }

theorem exec_heartbeatMiss (held : Bool) {s : State} (hlive : pairLive s = true) (hseen : s.pair.partner.seen = true)
    (hdue : s.pair.heardAt + (s.pair.missed + 1) * hbTicks s ≤ s.now)
    (hfree : s.pair.heardAt + (s.pair.missed + 1) * hbTicks s < s.now ∨ beatWaits s = false) : exec (.heartbeatMiss held) s =
      .next (if s.pair.missed + 1 < 3 then modPair s fun p => { p with missed := p.missed + 1 }
        else pairSeek (emit (partnerLost s held) .pair 0x0004 .degraded (flag held 0) (some 3))) := by
  change execHeartbeatMiss held s = _
  unfold execHeartbeatMiss
  dsimp only
  rw [hlive, hseen, Bool.not_true, Bool.or_assoc, timer_due hdue hfree]
  rfl

/-- R367: what SEEKING leaves of the pair's state, and of the lost partner's status. -/
theorem pairSeek_leaves (s : State) : (pairSeek s).pair.partner = s.pair.partner ∧ (pairSeek s).pair.missed = s.pair.missed ∧
    (pairSeek s).pair.lostFirst = s.pair.lostFirst ∧ (pairSeek s).pair.line = s.pair.line ∧ (pairSeek s).pair.st ≠ .ready ∧
    (pairSeek s).pair.st ≠ .mirroring := by
  unfold pairSeek
  extract_lets u
  have hu : u.pair.partner = s.pair.partner ∧ u.pair.missed = s.pair.missed ∧ u.pair.lostFirst = s.pair.lostFirst ∧
      u.pair.line = s.pair.line ∧ u.pair.st ≠ .ready ∧ u.pair.st ≠ .mirroring := by
    have hst : u.pair.st = if s.pair.st = .mirroring || s.pair.st = .ready then .seeking else s.pair.st := rfl
    refine ⟨rfl, rfl, rfl, rfl, ?_, ?_⟩ <;> rw [hst] <;> cases s.pair.st <;> decide
  clear_value u
  split
  · next w hw =>
    split
    · exact hu
    · rw [swapAbort_pair hw]
      exact hu
  · exact hu

theorem swapAbort_pairBits (s : State) (mask : Nat) (tell : Bool) (i : Nat) (h : (blkStat s .pair).bits.getLsbD i = true) :
    (blkStat (swapAbort s mask tell) .pair).bits.getLsbD i = true := by
  unfold swapAbort
  split
  · exact h
  · extract_lets u v x y
    have hv : StatKept .pair s v := .ofLog rfl
    have hx : (blkStat x .pair).bits.getLsbD i = true := (emit_advanced v .pair _ _ _ _ (by decide)).bits i (hv.bits i h)
    have hy : StatKept .pair x y := by
      unfold y
      split
      · exact .only (complete_only ..) (by decide)
      · exact .refl ..
    clear_value y x
    split
    · exact (hy.trans (.only (linkSend_only ..) (by decide))).bits i hx
    · exact hy.bits i hx

theorem pairSeek_bits (s : State) (i : Nat) (h : (blkStat s .pair).bits.getLsbD i = true) :
    (blkStat (pairSeek s) .pair).bits.getLsbD i = true := by
  unfold pairSeek
  extract_lets u
  have hu : StatKept .pair s u := .ofLog rfl
  clear_value u
  split
  · split
    · exact hu.bits i h
    · exact swapAbort_pairBits u _ _ i (hu.bits i h)
  · exact hu.bits i h

/-- R370: the step that a ceremony waits in. -/
theorem exec_pairCeremonyTimeout {s : State} {c : Ceremony} (hcer : s.pair.cer = some c) (hdue : c.started + ticksS 5 ≤ s.now)
    (hfree : c.started + ticksS 5 < s.now ∨ confirmWaits s c = false) : exec .pairCeremonyTimeout s =
      .next (ceremonyFail s c (if c.peerNonce = none then 2 else if c.key = none then 3 else 5) 4 Status.aborted) := by
  change execPairCeremonyTimeout s = _
  unfold execPairCeremonyTimeout
  rw [hcer]
  dsimp only
  rw [timer_due hdue hfree]
  cases c.peerNonce <;> cases c.key <;> rfl

theorem exec_swapRequestSend {s : State} {t0 : Nat} {l : Fin 4} (hready : s.pair.readyAt = some t0) (hl : pairLink s = some l)
    (hlive : pairLive s = true) (hcore : coreUp s 2 = true) (hholding : s.pair.holding = false) (hst : s.pair.st = .ready)
    (hpreferred : preferredNow s = true) (hheld : rb s Rg.pairCtrl 1 = false)
    (hfirst : s.pair.reqAt = none → t0 + ticksS (getW s Rg.pairWtrTime).toNat ≤ s.now) (hagain : ∀ r ∈ s.pair.reqAt, r + ticksS 60 ≤ s.now) :
    exec .swapRequestSend s = .next (linkSend (modPair s fun p => { p with reqAt := some s.now }) l .swapRequest) := by
  change execSwapRequestSend s = _
  unfold execSwapRequestSend
  rw [hready, hl]
  dsimp only
  rw [hlive, hcore, hholding, hst, hpreferred, hheld]
  cases hreq : s.pair.reqAt with
  | none => simp [hfirst hreq]
  | some r => simp [hagain r hreq]

/-- Settles O52: each timer is its arm. A line that has been let go is not taken by the record of the fault, and the loss of the
    partner keeps what its record set. -/
theorem pairLineAndHeartbeats : Obligations.PairLineAndHeartbeats := by
  refine ⟨⟨fun s => exec_claimWaitExpiry, fun s t0 hat hholding hdrive hdue => ⟨?_, ?_⟩, fun s hholding hdue hfree => ?_, fun s hholding => ?_,
    fun s hlive hdrive hseen hstandby hstuck => ?_⟩,
    fun s hlive hcore hdue => ⟨exec_heartbeatSend hlive hcore hdue, heartbeat_refreshes s⟩,
    fun s held hlive hseen hdue hfree => ⟨fun hfew => ?_, fun hmany => ?_⟩, fun s c => exec_pairCeremonyTimeout,
    fun s t0 l hready hl hlive hcore hholding hst hpreferred hheld => ⟨fun hnone hdue => ?_, fun r hr hdue => ?_⟩⟩
  · exact ⟨promote s, (exec_claimCheck true hat hholding hdrive hdue).trans (congrArg _ (if_pos rfl)), rfl, promote_holding s⟩
  · have hpair := lineFault_dropLine_pair s true 2
    exact ⟨_, (exec_claimCheck false hat hholding hdrive hdue).trans (congrArg _ (if_neg Bool.false_ne_true)), rfl,
      congrArg Pair.holding hpair, congrArg Pair.drive hpair, lineFault_bit ..⟩
  · obtain ⟨hdrive, hholding'⟩ := lineRelease_lineFree s
    have honly := lineRelease_only s
    exact ⟨_, exec_holdWatchdogLapse hholding hdue hfree, rfl, hholding', hdrive, honly.same .tco (by decide), honly.same .key (by decide)⟩
  · have hpair := lineFault_dropLine_pair s true 2
    exact ⟨_, exec_activeNReadHigh hholding, rfl, congrArg Pair.holding hpair, congrArg Pair.drive hpair, congrArg Pair.line hpair,
      lineFault_bit .., (lineFault_tco ..).trans (dropLine_tco ..)⟩
  · refine ⟨_, exec_lineStuckLow hlive hdrive hseen hstandby hstuck, rfl, ?_, fun hholding => ?_, lineFault_bit ..⟩
    · rw [(lineFault_only ..).same .pair (by decide)]
      rfl
    · exact congrArg Pair.line (lineFault_pair (s := modPair s fun p => { p with line := false, stuckAt := some s.now }) ⟨hdrive, hholding⟩ 1)
  · rw [exec_heartbeatMiss held hlive hseen hdue hfree, if_pos (by omega)]
  · have hrec : (emit (partnerLost s held) .pair 0x0004 .degraded (flag held 0) (some 3)).pair = (partnerLost s held).pair :=
      pair_of_only (emit_pair_mild_only _ 0x0004 (.inr rfl) _ (some 3))
    have hbit : (blkStat (emit (partnerLost s held) .pair 0x0004 .degraded (flag held 0) (some 3)) .pair).bits.getLsbD 3 = true :=
      (emit_advanced _ .pair _ _ _ _ (by decide)).bit 3 rfl (by decide)
    have hexec := exec_heartbeatMiss held hlive hseen hdue hfree
    rw [if_neg (by omega)] at hexec
    obtain ⟨hpartner, hmissed, hfirst, hline, hready, hmirroring⟩ := pairSeek_leaves
      (emit (partnerLost s held) .pair 0x0004 .degraded (flag held 0) (some 3))
    rw [hrec] at hpartner hmissed hfirst hline
    exact ⟨_, hexec, congrArg Partner.seen hpartner, hmissed, hfirst, hline, hready, hmirroring, pairSeek_bits _ 3 hbit⟩
  · exact exec_swapRequestSend hready hl hlive hcore hholding hst hpreferred hheld (fun _ => hdue) (by rw [hnone]; nofun)
  · refine exec_swapRequestSend hready hl hlive hcore hholding hst hpreferred hheld (by rw [hr]; nofun) fun x hx => ?_
    rw [hr] at hx
    obtain rfl := Option.some.inj hx
    exact hdue

end Sys2Proof.Proofs.PairLine
end

section
/-! A planned swap's instants (10_redundant_pair.md R378 to R384, R514). -/
-- One proof after another: the whole text is compiled in one process whose memory is bounded.
set_option Elab.async false
namespace Sys2Proof.Proofs.SwapSteps
open Sys2Proof
open Sys2Proof.Machine
open Sys2Proof.Safety
open Sys2Proof.Laws
open Sys2Proof.Proofs.Records
open Sys2Proof.Proofs.Notices
open Sys2Proof.Proofs.PairRecords

theorem exec_swapPeriodExpiry {s : State} (hlive : pairLive s = true) (hperiod : getW s Rg.pairSwapPeriod ≠ 0)
    (hholding : s.pair.holding = true) (hswap : s.pair.swap = none)
    (hfirst : s.pair.swapRetry = none → s.pair.swapAt + ticksS (getW s Rg.pairSwapPeriod).toNat ≤ s.now)
    (hagain : ∀ r ∈ s.pair.swapRetry, r ≤ s.now) : exec .swapPeriodExpiry s =
      .next (if mayPropose s then proposeSwap s none else modPair s fun q => { q with swapRetry := some (s.now + ticksS 3600) }) := by
  have hnonzero : (getW s Rg.pairSwapPeriod).toNat ≠ 0 := fun h => hperiod (BitVec.eq_of_toNat_eq h)
  change execSwapPeriodExpiry s = _
  unfold execSwapPeriodExpiry
  dsimp only
  rw [hlive, hholding, hswap, decide_eq_false hnonzero]
  cases hretry : s.pair.swapRetry with
  | none => simp [hfirst hretry]
  | some r => simp [hagain r hretry]

/-- The self-check's figure and its verdict on the swap (R380). -/
def selfChecked (s : State) (w : Swap) (m : Nat) : State :=
  modPair s fun p => { p with check := BitVec.ofNat 11 m, swap := some { w with checked := true, accepted := decide (m = 0) } }

section
variable {s : State} {w : Swap} (hswap : s.pair.swap = some w)
include hswap

section
variable (hincoming : w.incoming = true) (hchecked : w.checked = false) (hcore : coreUp s 2 = true)
  (hreached : reached s (hMinus s w 200000000) = true)
include hincoming hchecked hcore hreached

theorem exec_swapSelfCheck_pass (hpass : selfCheck s = 0) : exec .swapSelfCheck s = .next (match pairLink s with
    | some l => linkSend (selfChecked s w 0) l .swapAccept | none => selfChecked s w 0) := by
  change execSwapSelfCheck s = _
  unfold execSwapSelfCheck
  rw [hswap]
  dsimp only
  rw [if_neg (by rw [hincoming, hchecked, hcore, hreached]; decide), hpass, if_pos rfl]
  rfl

theorem exec_swapSelfCheck_fail (hfails : selfCheck s ≠ 0) :
    exec .swapSelfCheck s = .next (swapAbort (selfChecked s w (selfCheck s)) (selfCheck s) true) := by
  change execSwapSelfCheck s = _
  unfold execSwapSelfCheck
  rw [hswap]
  dsimp only
  rw [if_neg (by rw [hincoming, hchecked, hcore, hreached]; decide), if_neg hfails]
  rfl

end

theorem exec_swapLastCall (hincoming : w.incoming = false) (haccepted : w.accepted = false) (hwaits : acceptWaits s = false)
    (hreached : reached s (hMinus s w 100000000) = true) :
    exec .swapLastCall s = .next (swapAbort s (if s.pair.partner.seen then 0 else 0x100) true) := by
  have hmask : flag (!s.pair.partner.seen) 8 = if s.pair.partner.seen then 0 else 0x100 := by cases s.pair.partner.seen <;> rfl
  change execSwapLastCall s = _
  unfold execSwapLastCall
  rw [hswap]
  dsimp only
  rw [hincoming, haccepted, hwaits, hreached, hmask]
  rfl

theorem exec_swapDrive (hincoming : w.incoming = true) (haccepted : w.accepted = true) (hdriven : w.driven = false)
    (hreached : reached s (hMinus s w 10000) = true) : exec .swapDrive s =
      .next (emitOut (modPair s fun p => { p with drive := true, line := false, swap := some { w with driven := true } }) (.line true)) := by
  change execSwapDrive s = _
  unfold execSwapDrive
  rw [hswap]
  dsimp only
  exact congrArg _ (if_neg (by rw [hincoming, haccepted, hdriven, hreached]; decide))

section
variable (hhanded : w.handed = false) (haccepted : w.accepted = true) (hreached : reached s (hMinus s w 0) = true)
  (hpower : powerWaits s = false)
include hhanded haccepted hreached hpower

theorem exec_swapHandover_in (hincoming : w.incoming = true) (hdriven : w.driven = true) : exec .swapHandover s =
    .next (refreshOuts (modPair s fun p => { p with holding := true, refreshAt := s.now, swap := some { w with handed := true } }) true) := by
  change execSwapHandover s = _
  unfold execSwapHandover
  rw [hswap]
  dsimp only
  rw [if_neg (by rw [hhanded, haccepted, hreached, hpower]; decide), if_pos hincoming, if_neg (by rw [hdriven]; decide)]

theorem exec_swapHandover_out (hincoming : w.incoming = false) : exec .swapHandover s = .next (refreshOuts (emitOut (modPair s fun p =>
    { p with drive := false, holding := false, swap := some { w with handed := true } }) (.line false)) false) := by
  change execSwapHandover s = _
  unfold execSwapHandover
  rw [hswap]
  dsimp only
  rw [if_neg (by rw [hhanded, haccepted, hreached, hpower]; decide), if_neg (by rw [hincoming]; decide)]

end

section
variable (hhanded : w.handed = true) (hreached : reached s (hMinus s w 0 + 65536000) = true)
include hhanded hreached

theorem exec_swapLineCheck_low : exec (.swapLineCheck true) s = .next (swapDone s w w.incoming) := by
  change execSwapLineCheck true s = _
  unfold execSwapLineCheck
  rw [hswap]
  dsimp only
  rw [if_neg (by rw [hhanded, hreached]; decide), if_pos rfl]

theorem exec_swapLineCheck_in (hincoming : w.incoming = true) :
    exec (.swapLineCheck false) s = .next (swapAbort (lineFault (dropLine s true) 2) 0x400 false) := by
  change execSwapLineCheck false s = _
  unfold execSwapLineCheck
  rw [hswap]
  dsimp only
  rw [if_neg (by rw [hhanded, hreached]; decide), if_neg Bool.false_ne_true, if_pos hincoming]

/-- The outgoing unit takes the line again (R381). -/
theorem exec_swapLineCheck_out (hincoming : w.incoming = false) : exec (.swapLineCheck false) s =
    .next (swapAbort (refreshOuts (emitOut (modPair s fun p =>
      { p with drive := true, holding := true, line := false, refreshAt := s.now }) (.line true)) false) 0x400 false) := by
  change execSwapLineCheck false s = _
  unfold execSwapLineCheck
  rw [hswap]
  dsimp only
  rw [if_neg (by rw [hhanded, hreached]; decide), if_neg Bool.false_ne_true, if_neg (by rw [hincoming]; decide)]

end

end

/-- Settles O53: each instant of a swap is its arm; the record of an abort leaves who holds the line. -/
theorem swapStepsRun : Obligations.SwapStepsRun := by
  refine ⟨fun s => exec_swapPeriodExpiry, fun s w hswap hincoming hchecked hcore hreached hpass => ?_,
    fun s w hswap hincoming hchecked hcore hreached hfails => ?_, fun s w hswap hincoming haccepted hwaits hreached => ?_,
    fun s w hswap => exec_swapDrive hswap, fun s w hswap hhanded haccepted hreached hpower => ⟨fun hincoming hdriven => ?_, fun hincoming => ?_⟩,
    fun s w hswap hhanded hreached => ⟨?_, fun hincoming => ?_, fun hincoming => ?_⟩⟩
  · have hexec := exec_swapSelfCheck_pass hswap hincoming hchecked hcore hreached hpass
    cases hl : pairLink s with
    | none =>
      rw [hl] at hexec
      exact ⟨_, hexec, rfl, rfl, fun l hmem => by contradiction⟩
    | some l =>
      rw [hl] at hexec
      have hsent : (linkSend (selfChecked s w 0) l .swapAccept).pair = (selfChecked s w 0).pair := pair_of_only (linkSend_only ..)
      refine ⟨_, hexec, congrArg Pair.swap hsent, congrArg Pair.check hsent, fun m hm => ?_⟩
      obtain rfl : l = m := Option.some.inj hm
      rfl
  · have hw : (selfChecked s w (selfCheck s)).pair.swap = some { w with checked := true, accepted := false } := by
      unfold selfChecked
      rw [decide_eq_false hfails]
      rfl
    obtain ⟨hgone, hheld, -⟩ := swapAbort_leaves hw (selfCheck s) true
    refine ⟨_, exec_swapSelfCheck_fail hswap hincoming hchecked hcore hreached hfails, hgone, hheld, swapAbort_bit hw .., ?_⟩
    unfold selfChecked
    rw [decide_eq_false hfails]
  · obtain ⟨hgone, hheld, -⟩ := swapAbort_leaves hswap (if s.pair.partner.seen then 0 else 0x100) true
    exact ⟨_, exec_swapLastCall hswap hincoming haccepted hwaits hreached, rfl, hgone, hheld, swapAbort_bit hswap ..⟩
  · refine ⟨_, exec_swapHandover_in hswap hhanded haccepted hreached hpower hincoming hdriven, ?_, ?_, rfl⟩ <;>
      rw [pair_of_only (refreshOuts_only ..)] <;> rfl
  · refine ⟨_, exec_swapHandover_out hswap hhanded haccepted hreached hpower hincoming, ?_, ?_, rfl⟩ <;>
      rw [pair_of_only (refreshOuts_only ..)] <;> rfl
  · exact ⟨_, exec_swapLineCheck_low hswap hhanded hreached, rfl, swapDone_keeps s w w.incoming⟩
  · have hdropped := lineFault_dropLine_pair s true 2
    obtain ⟨hgone, hheld, hdrives⟩ := swapAbort_leaves ((congrArg Pair.swap hdropped).trans hswap) 0x400 false
    exact ⟨_, exec_swapLineCheck_in hswap hhanded hreached hincoming, rfl, hgone, hheld.trans (congrArg Pair.holding hdropped),
      hdrives.trans (congrArg Pair.drive hdropped)⟩
  · have htaken := pair_of_only (refreshOuts_only (emitOut (modPair s fun p =>
      { p with drive := true, holding := true, line := false, refreshAt := s.now }) (.line true)) false)
    obtain ⟨hgone, hheld, hdrives⟩ := swapAbort_leaves ((congrArg Pair.swap htaken).trans hswap) 0x400 false
    exact ⟨_, exec_swapLineCheck_out hswap hhanded hreached hincoming, hgone, hheld.trans (congrArg Pair.holding htaken),
      hdrives.trans (congrArg Pair.drive htaken)⟩

end Sys2Proof.Proofs.SwapSteps
end

section
/-! The edges of the outputs: PPS, pulse ends, triggers and frequency outputs (05_timed_io.md R180 to R189, R205). -/
-- One proof after another: the whole text is compiled in one process whose memory is bounded.
set_option Elab.async false
namespace Sys2Proof.Proofs.OutputEdges
open Sys2Proof
open Sys2Proof.Machine
open Sys2Proof.Safety
open Sys2Proof.Laws
open Sys2Proof.Proofs.Triggers
open Sys2Proof.Proofs.WordReads

/-- What the rest of TIO holds, its pins aside. -/
theorem tioField_of_only {α : Type} {f : Tio → α} {L : List Part} {s t : State} (h : Only L s t) (htio : Part.tio ∉ L := by decide)
    (hpins : ∀ k o, f { k with outs := o } = f k := by intros; rfl) : f t.tio = f s.tio :=
  (congrArg f (h.same .tio htio : t.tio = _)).trans (hpins ..)

/-! ## The seconds that have been emitted (R181) -/

theorem reportPut_ppsSent (s : State) (o : Nat) (r : EdgeRep) : (reportPut s o r).tio.ppsSent = s.tio.ppsSent := by
  unfold reportPut
  extract_lets r' src t u was v
  have hu : u.tio.ppsSent = s.tio.ppsSent := rfl
  split
  · exact hu
  · split
    · exact hu
    · exact (tioField_of_only (f := Tio.ppsSent) (emit_only ..)).trans hu

theorem leadEdge_ppsSent (s : State) (o : Nat) (num : Int) (den width index : Nat) (report : Bool) :
    (leadEdge s o num den width index report).tio.ppsSent = s.tio.ppsSent := by
  unfold leadEdge
  extract_lets u d k shut held q ph stepped may x v
  have hu : u.tio.ppsSent = s.tio.ppsSent := tioField_of_only (f := Tio.ppsSent) (gateEvent_only s o)
  have hv : v.tio.ppsSent = u.tio.ppsSent := by
    unfold v
    split
    · rfl
    · split
      · split <;> rfl
      · split
        · exact (tioField_of_only (f := Tio.ppsSent) (perfAdd_only ..)).trans rfl
        · rfl
  split
  · exact (reportPut_ppsSent ..).trans (hv.trans hu)
  · exact hv.trans hu

theorem ppsRuns_congr {s t : State} (hwords : t.words = s.words) (hsent : t.tio.ppsSent = s.tio.ppsSent) (n : Nat) :
    ppsRuns t n = ppsRuns s n := by
  unfold ppsRuns ppsPhase
  rw [hsent, ind_of_words hwords]

/-- R181: the emitted second joins the runs, at the top of one or as one of its own. -/
theorem ppsRuns_ppsEmitted {s : State} {n k : Nat} (h : ∀ r ∈ ppsRuns s n, r.2 ≤ k) : ∀ r ∈ ppsRuns (ppsEmitted s n k) n, r.2 ≤ k := by
  intro r hr
  obtain ⟨x, hx, rfl⟩ := List.mem_map.mp hr
  obtain ⟨hmem, hphase⟩ := List.mem_filter.mp hx
  have hold : ∀ y ∈ vget s.tio.ppsSent [] n, y.1 = x.1 → y.2.2 ≤ k := fun y hy hyx =>
    h y.2 (List.mem_map.mpr ⟨y, List.mem_filter.mpr ⟨hy, by rw [hyx]; exact hphase⟩, rfl⟩)
  unfold ppsEmitted at hmem
  dsimp only at hmem
  rw [vget_vmod] at hmem
  split at hmem
  · split at hmem
    · next q a b l hsent =>
      split at hmem
      · rcases List.mem_cons.mp hmem with rfl | hrest
        · exact Nat.le_refl k
        · exact hold x (by rw [hsent]; exact List.mem_cons_of_mem _ hrest) rfl
      · rcases List.mem_cons.mp hmem with rfl | hrest
        · exact Nat.le_refl k
        · exact hold x hrest rfl
    · rw [List.mem_singleton.mp hmem]
  · exact hold x hmem rfl

theorem runSkip_ge (l : List (Nat × Nat)) (f k : Nat) : k ≤ runSkip l f k := by
  induction f generalizing k with
  | zero => exact Nat.le_refl k
  | succ f ih =>
    unfold runSkip
    split
    · next r hfound =>
      have hin := List.find?_some hfound
      rw [Bool.and_eq_true, decide_eq_true_eq, decide_eq_true_eq] at hin
      exact (Nat.le_succ_of_le hin.2).trans (ih (r.2 + 1))
    · exact Nat.le_refl k

/-- A number past every run is skipped by none. -/
theorem runSkip_past {l : List (Nat × Nat)} {k : Nat} (h : ∀ r ∈ l, r.2 < k) (f : Nat) : runSkip l f k = k := by
  cases f with
  | zero => rfl
  | succ f =>
    have hnone : (l.find? fun r => r.1 ≤ k && k ≤ r.2) = none := by
      rw [List.find?_eq_none]
      intro r hr hin
      rw [Bool.and_eq_true, decide_eq_true_eq, decide_eq_true_eq] at hin
      exact absurd hin.2 (Nat.not_le.mpr (h r hr))
    unfold runSkip
    rw [hnone]

/-- The output's edge of second `k`, emitted where it may be (R182). -/
def ppsLed (s : State) (o : Fin 4) (k : Nat) : State :=
  let t := leadEdge s o (ppsTarget s o k) 1 (8000 * ind s .tio 1 (8 * o.val + 1)) k true
  if !gateShut s o && edgeMay s o (ppsTarget s o k) 1 then ppsEmitted t o.val k else t

theorem ppsLed_keeps (s : State) (o : Fin 4) (k : Nat) : (ppsLed s o k).tco = s.tco ∧ (ppsLed s o k).words = s.words := by
  unfold ppsLed
  extract_lets t
  have hled := leadEdge_only s o (ppsTarget s o k) 1 (8000 * ind s .tio 1 (8 * o.val + 1)) k true
  split
  · exact ⟨hled.same .tco (by decide), hled.same .words (by decide)⟩
  · exact ⟨hled.same .tco (by decide), hled.same .words (by decide)⟩

theorem ppsLed_runs {s : State} {o : Fin 4} {k : Nat} (h : ∀ r ∈ ppsRuns s o.val, r.2 ≤ k) :
    ∀ r ∈ ppsRuns (ppsLed s o k) o.val, r.2 ≤ k := by
  have hled : ppsRuns (leadEdge s o (ppsTarget s o k) 1 (8000 * ind s .tio 1 (8 * o.val + 1)) k true) o.val = ppsRuns s o.val :=
    ppsRuns_congr ((leadEdge_only ..).same .words (by decide)) (leadEdge_ppsSent ..) o.val
  rw [← hled] at h
  unfold ppsLed
  extract_lets t
  split
  · exact ppsRuns_ppsEmitted h
  · exact h

theorem exec_ppsOutEdge {s : State} {o : Fin 4} {k : Nat} (hnext : s.tio.ppsNext[o] = some k) (hon : tioOn s = true)
    (hen : (outCfg s o.val).1 = true) (hfree : edgeWaits s = false) (hplace : placeIdx s (ppsTarget s o.val k - outDelay s o.val) 1 < 16) :
    exec (.ppsOutEdge o) s = .next (modTio (ppsLed s o k) fun t =>
      { t with ppsNext := vset t.ppsNext o.val (some (ppsSkip (ppsLed s o k) o.val (k + 1))) }) := by
  change execPpsOutEdge o s = _
  unfold execPpsOutEdge
  rw [hnext]
  dsimp only
  rw [hon, hen, hfree, decide_eq_true hplace]
  rfl

/-! ## Pulse ends, triggers and restarts by the pin -/

theorem exec_pulseTrailingEdge {s : State} {o : Fin 22} {e : Nat} (hend : (outPin s o.val).pulseEnd = some e) (hdue : e < 16 * (s.now + 1)) :
    exec (.pulseTrailingEdge o) s = .next (if (outPin s o.val).level = .active then
      driveOut (modOut s o.val fun p => { p with pulseEnd := none }) o.val .inactive e
      else modOut s o.val fun p => { p with pulseEnd := none }) := by
  change execPulseTrailingEdge o s = _
  unfold execPulseTrailingEdge
  dsimp only
  rw [hend]
  dsimp only
  rw [if_pos hdue]

theorem exec_trigEdge {s : State} {p : Fin 16} {x : Trig} (hx : s.tio.trigs[p] = some x) (hon : tioOn s = true)
    (hmode : fld (ind s .tio 3 (4 * p.val)) 1 0 = 1) (hfree : edgeWaits s = false) (hdue : trigDue s p x = true) :
    exec (.trigEdge p) s = .next (trigSettle (trigFire s p x) p.val) := by
  change execTrigEdge p s = _
  unfold execTrigEdge
  rw [hx]
  dsimp only
  rw [hon, hmode, hfree, hdue]
  rfl

theorem trigFire_trigs (s : State) (p : Fin 16) (x : Trig) : ((trigFire s p x).tio.trigs[p].map Trig.j) = some (x.j + 1) := by
  have hset : ∀ (u : State) (y : Trig), (modTio u fun k => { k with trigs := vset k.trigs p.val (some y) }).tio.trigs[p] = some y := by
    intro u y
    change (vset u.tio.trigs p.val (some y))[p] = some y
    rw [trigs_vset]
    exact Vector.getElem_set_self ..
  unfold trigFire
  generalize trigTarget x x.j = target
  obtain ⟨num, den⟩ := target
  exact congrArg (Option.map Trig.j) (hset _ _)

/-! ## Frequency outputs (R185, R186) -/

theorem freq_vset {v : Vector FreqGen 2} (n : Fin 2) (g : FreqGen) : (vset v n.val g)[n] = g := by
  rw [vset, dif_pos n.isLt]
  exact Vector.getElem_set_self ..

/-- The edge at a TIME phase has set the next one, the accumulator's carry with it. -/
def freqTurned (s : State) (n : Fin 2) (ph : Nat) : State :=
  modTio s fun t => { t with freq := vset t.freq n.val { s.tio.freq[n] with
    acc := (s.tio.freq[n].acc + freqPeriod s n.val % 65536) % 65536,
    next := some (ph + (freqPeriod s n.val / 65536 + (s.tio.freq[n].acc + freqPeriod s n.val % 65536) / 65536)) } }

/-- The pin's edge after the turn: held, squelched or driven (R185, R200, R201). -/
def freqPin (s : State) (n : Fin 2) (ph len : Nat) : State :=
  let s := gateEvent s (n.val + 4)
  if outHeld s then s
  else if gateShut s (n.val + 4) then
    if outMay s (n.val + 4) && !(outPin s (n.val + 4)).driving then
      driveOut (modOut s (n.val + 4) fun p => { p with driving := true }) (n.val + 4) .inactive ph
    else s
  else
    let s := modOut s (n.val + 4) fun p => { p with pulseEnd := some (ph + (len + 1) / 2) }
    if outMay s (n.val + 4) then driveOut (modOut s (n.val + 4) fun p => { p with driving := true }) (n.val + 4) .active ph
    else s

theorem freqPin_only (s : State) (n : Fin 2) (ph len : Nat) :
    Only [.out, .pan, .log, .line, .links, .rings, .cnt, .outs] s (freqPin s n ph len) := by
  unfold freqPin
  extract_lets u v
  have hgate : Only [.out, .pan, .log, .line, .links, .rings, .cnt, .outs] s u := gateEvent_only ..
  have hdriven : ∀ {x : State} (f : OutPin → OutPin) (l : Level), Only [.out, .pan, .log, .line, .links, .rings, .cnt, .outs] s x →
      Only [.out, .pan, .log, .line, .links, .rings, .cnt, .outs] s (driveOut (modOut x (n.val + 4) f) (n.val + 4) l ph) := fun f l h =>
    (h.step (modOut_only ..) (by decide)).step (driveOut_only ..) (by decide)
  have hpulse : Only [.out, .pan, .log, .line, .links, .rings, .cnt, .outs] s v := hgate.step (modOut_only ..) (by decide)
  exact Only.ite (fun _ => hgate) fun _ => Only.ite (fun _ => Only.ite (fun _ => hdriven _ _ hgate) fun _ => hgate) fun _ =>
    Only.ite (fun _ => hdriven _ _ hpulse) fun _ => hpulse

theorem exec_freqOutEdge {s : State} {n : Fin 2} {ph : Nat} (hon : tioOn s = true) (hen : (outCfg s (n.val + 4)).1 = true)
    (hfree : edgeWaits s = false) (hnext : (freqSecond s n.val).tio.freq[n].next = some ph) (hdue : ph < 16 * (s.now + 1)) :
    ∃ len, exec (.freqOutEdge n) s = .next (freqPin (freqTurned (freqSecond s n.val) n ph) n ph len) := by
  have hnow : (freqSecond s n.val).now = s.now := ((freqSecond_only s n.val).same .time (by decide)).1
  refine ⟨freqPeriod (freqSecond s n.val) n.val / 65536 +
    ((freqSecond s n.val).tio.freq[n].acc + freqPeriod (freqSecond s n.val) n.val % 65536) / 65536, ?_⟩
  change execFreqOutEdge n s = _
  unfold execFreqOutEdge
  dsimp only
  rw [hon, hen, hfree, if_neg (by decide), hnext]
  dsimp only
  rw [hnow, if_neg (Nat.not_le.mpr hdue)]
  rfl

theorem freqPeriod_of_words {s t : State} (h : t.words = s.words) (n : Nat) : freqPeriod t n = freqPeriod s n := by
  unfold freqPeriod
  rw [ind_of_words h, ind_of_words h]

/-- Settles O40: the schedule of a PPS output skips only runs of emitted seconds, and its own edge joins one; what a frequency output's
    turn sets, its pin's edge leaves. -/
theorem outputEdgesPlaced : Obligations.OutputEdgesPlaced := by
  refine ⟨fun s o k hnext hon hen hfree hplace => ?_, fun s o e hend hdue => ⟨fun hactive => ?_, fun hinactive => ?_⟩,
    fun s p x hx hon hmode hfree hdue => ⟨exec_trigEdge hx hon hmode hfree hdue, trigFire_trigs s p x⟩, fun s ph hon => ?_,
    fun s u n ph hon hen hfree hu hnext hdue => ?_⟩
  · obtain ⟨htco, hwords⟩ := ppsLed_keeps s o k
    refine ⟨_, ppsSkip (ppsLed s o k) o.val (k + 1), exec_ppsOutEdge hnext hon hen hfree hplace, ?_, runSkip_ge _ _ (k + 1), fun hall => ?_, htco, hwords⟩
    · change (vset (ppsLed s o k).tio.ppsNext o.val _)[o] = _
      rw [vset, dif_pos o.isLt]
      exact Vector.getElem_set_self ..
    · have hruns : ∀ r ∈ ppsRuns s o.val, r.2 ≤ k := fun r hr => of_decide_eq_true (List.all_eq_true.mp hall r hr)
      exact runSkip_past (fun r hr => Nat.lt_succ_of_le (ppsLed_runs hruns r hr)) _
  · rw [exec_pulseTrailingEdge hend hdue, if_pos hactive]
  · rw [exec_pulseTrailingEdge hend hdue, if_neg hinactive]
  · change execSyncInEdge ph s = _
    unfold execSyncInEdge
    rw [hon]
    rfl
  · subst hu
    obtain ⟨len, hexec⟩ := exec_freqOutEdge hon hen hfree hnext hdue
    have honly := freqPin_only (freqTurned (freqSecond s n.val) n ph) n ph len
    generalize freqPin (freqTurned (freqSecond s n.val) n ph) n ph len = t at hexec honly
    have hperiod : freqPeriod (freqSecond s n.val) n.val = freqPeriod s n.val :=
      freqPeriod_of_words ((freqSecond_only s n.val).same .words (by decide)) n.val
    have hturned : t.tio.freq[n] = (freqTurned (freqSecond s n.val) n ph).tio.freq[n] :=
      tioField_of_only (f := fun k => k.freq[n]) honly
    refine ⟨t, (freqSecond s n.val).tio.freq[n].acc + freqPeriod s n.val % 65536, hexec, ?_, ?_, rfl, ?_⟩
    · rw [hturned, ← hperiod]
      exact congrArg FreqGen.acc (freq_vset n _)
    · rw [hturned, ← hperiod]
      exact congrArg FreqGen.next (freq_vset n _)
    · exact (honly.same .tco (by decide)).trans ((freqSecond_only s n.val).same .tco (by decide))

end Sys2Proof.Proofs.OutputEdges
end

section
/-! Captures, PPS inputs and time-of-day messages (05_timed_io.md R193 to R199, R613). -/
-- One proof after another: the whole text is compiled in one process whose memory is bounded.
set_option Elab.async false
namespace Sys2Proof.Proofs.InputEdges
open Sys2Proof
open Sys2Proof.Machine
open Sys2Proof.Safety
open Sys2Proof.Laws
open Sys2Proof.Proofs.LinkStates
open Sys2Proof.Proofs.OutputEdges
open Sys2Proof.Proofs.WordReads

/-! ## Captures (R193, R194) -/

theorem capLast_vset (v : Vector (Option Nat) 16) (p : Fin 16) (x : Option Nat) : (vset v p.val x)[p] = x := by
  rw [vset, dif_pos p.isLt]
  exact Vector.getElem_set_self ..

/-- The pin's latest edge is noted, and counted. -/
def edgeNoted (s : State) (p ph : Fin 16) : State :=
  perfAdd (modTio s fun t => { t with capLast := vset t.capLast p.val (some (16 * s.now + ph.val)) }) (644 + p.val) 1

theorem edgeNoted_tio (s : State) (p ph : Fin 16) :
    (edgeNoted s p ph).tio = { s.tio with capLast := vset s.tio.capLast p.val (some (16 * s.now + ph.val)) } :=
  Notices.tio_of_only (perfAdd_only ..)

theorem edgeNoted_tco (s : State) (p ph : Fin 16) : (edgeNoted s p ph).tco = s.tco := (perfAdd_only ..).same .tco (by decide)

/-- A capture that finds the queue full (R194). -/
def captureLost (s : State) : State :=
  modTio s fun t => { t with capLostMark := true, capLost := t.capLost + 1, dropCap := BitVec.ofNat 16 (min 0xFFFF (t.dropCap.toNat + 1)) }

/-- The record of a capture, its stamp and its unit's flags taken before the edge was noted. -/
def captureRec (s u : State) (p ph : Fin 16) (rising : Bool) : CapRec :=
  { ts32 := ts32Of (stampCounter s (13 + p.val) 0 ph), frac := BitVec.ofNat 16 (fracOf (stampCounter s (13 + p.val) 0 ph)), pin := p,
    rising := rising, coast := unitCoast u (13 + p.val), lost := u.tio.capLostMark, st := BitVec.ofNat 3 u.tco.st.code,
    teb := BitVec.ofNat 32 (unitTeb u (13 + p.val)), cseq := u.tio.cseq }

def capturePut (s : State) (r : CapRec) : State :=
  modTio s fun t => { t with capQ := t.capQ ++ [r], cseq := t.cseq + 1, capLostMark := false }

theorem emit_records (s : State) (b : Blk) (code : Nat) (base : Cls) (detail : Nat) (bit : Option Nat) :
    Only records s (emit s b code base detail bit) := (emit_only ..).mono (by decide)

/-- The edge lies outside the dead time. -/
theorem capture_live {s : State} {p ph : Fin 16} (hlive : ∀ l ∈ s.tio.capLast[p], l + 8 * ind s .tio 3 (4 * p.val + 2) ≤ 16 * s.now + ph.val) :
    ¬ (match s.tio.capLast[p] with
      | some l => decide (16 * s.now + ph.val < l + 8 * ind s .tio 3 (4 * p.val + 2)) | none => false) = true := by
  cases hlast : s.tio.capLast[p] with
  | none => exact Bool.false_ne_true
  | some l =>
    rw [decide_eq_true_eq]
    exact Nat.not_lt.mpr (hlive l hlast)

section
variable {s : State} {p ph : Fin 16} {rising : Bool} (hon : tioOn s = true) (hctrl : rb s Rg.tioCtrl 1 = true)
  (hmode : fld (ind s .tio 3 (4 * p.val)) 1 0 = 2) (hsel : (fld (ind s .tio 3 (4 * p.val)) 4 3).testBit (if rising then 0 else 1) = true)
include hon hctrl hmode hsel

theorem capture_unguarded : (!tioOn s || !rb s Rg.tioCtrl 1 || fld (ind s .tio 3 (4 * p.val)) 1 0 != 2 ||
    !(if rising then (fld (ind s .tio 3 (4 * p.val)) 4 3).testBit 0 else (fld (ind s .tio 3 (4 * p.val)) 4 3).testBit 1)) = false := by
  have hedge : (if rising then (fld (ind s .tio 3 (4 * p.val)) 4 3).testBit 0 else (fld (ind s .tio 3 (4 * p.val)) 4 3).testBit 1) = true := by
    cases rising <;> exact hsel
  rw [hon, hctrl, hmode, hedge]
  rfl

theorem exec_captureEdge_dead {l : Nat} (hlast : s.tio.capLast[p] = some l) (hdead : 16 * s.now + ph.val < l + 8 * ind s .tio 3 (4 * p.val + 2)) :
    exec (.captureEdge p rising ph) s = .next { s with tio := { s.tio with capIgnored := s.tio.capIgnored + 1 } } := by
  change execCaptureEdge p rising ph s = _
  unfold execCaptureEdge
  dsimp only
  rw [capture_unguarded hon hctrl hmode hsel, if_neg Bool.false_ne_true, hlast]
  dsimp only
  rw [if_pos (decide_eq_true hdead)]
  rfl

/-- R193: with room in the queue the record joins it, and the watermark is reported. -/
theorem exec_captureEdge_room (hlive : ∀ l ∈ s.tio.capLast[p], l + 8 * ind s .tio 3 (4 * p.val + 2) ≤ 16 * s.now + ph.val)
    (hroom : s.tio.capQ.length < 512) : ∃ t, exec (.captureEdge p rising ph) s = .next t ∧
      Only records (capturePut (edgeNoted s p ph) (captureRec s (edgeNoted s p ph) p ph rising)) t := by
  have hq : (edgeNoted s p ph).tio.capQ = s.tio.capQ := by rw [edgeNoted_tio]
  refine ⟨if (capturePut (edgeNoted s p ph) (captureRec s (edgeNoted s p ph) p ph rising)).tio.capQ.length =
      (getW (capturePut (edgeNoted s p ph) (captureRec s (edgeNoted s p ph) p ph rising)) Rg.tioCapWm).toNat then
      emit (capturePut (edgeNoted s p ph) (captureRec s (edgeNoted s p ph) p ph rising)) .tio 0x0008 .notice
        (capturePut (edgeNoted s p ph) (captureRec s (edgeNoted s p ph) p ph rising)).tio.capQ.length none
    else capturePut (edgeNoted s p ph) (captureRec s (edgeNoted s p ph) p ph rising), ?_,
    Only.ite (fun _ => emit_records ..) fun _ => .refl _ _⟩
  have hfits : ¬ 512 ≤ (edgeNoted s p ph).tio.capQ.length := by
    rw [hq]
    exact Nat.not_le.mpr hroom
  change execCaptureEdge p rising ph s = _
  unfold execCaptureEdge
  dsimp only
  rw [capture_unguarded hon hctrl hmode hsel, if_neg Bool.false_ne_true]
  exact congrArg Host.Outcome.next ((if_neg (capture_live hlive)).trans (if_neg hfits))

/-- R194: with the queue full the capture is lost and counted, and reported once. -/
theorem exec_captureEdge_full (hlive : ∀ l ∈ s.tio.capLast[p], l + 8 * ind s .tio 3 (4 * p.val + 2) ≤ 16 * s.now + ph.val)
    (hfull : 512 ≤ s.tio.capQ.length) : ∃ t, exec (.captureEdge p rising ph) s = .next t ∧
      Only records (captureLost (edgeNoted s p ph)) t := by
  refine ⟨if (blkStat (captureLost (edgeNoted s p ph)) .tio).bits.getLsbD 0 then captureLost (edgeNoted s p ph)
    else emit (captureLost (edgeNoted s p ph)) .tio 0x0003 .degraded p.val (some 0), ?_,
    Only.ite (fun _ => .refl _ _) fun _ => emit_records ..⟩
  have hfills : 512 ≤ (edgeNoted s p ph).tio.capQ.length := by
    rw [edgeNoted_tio]
    exact hfull
  change execCaptureEdge p rising ph s = _
  unfold execCaptureEdge
  dsimp only
  rw [capture_unguarded hon hctrl hmode hsel, if_neg Bool.false_ne_true]
  exact congrArg Host.Outcome.next ((if_neg (capture_live hlive)).trans (if_pos hfills))

end

/-! ## What a measurement leaves of the inputs (R80, R100) -/

/-- The PPS inputs stand as they were. -/
def InputsKept (s t : State) : Prop := t.tio.ppsIn = s.tio.ppsIn

theorem InputsKept.refl (s : State) : InputsKept s s := rfl

theorem InputsKept.trans {s t u : State} (h : InputsKept s t) (k : InputsKept t u) : InputsKept s u := Eq.trans k h

theorem InputsKept.only {L : List Part} {s t : State} (h : Only L s t) (htio : Part.tio ∉ L := by decide) : InputsKept s t :=
  tioField_of_only (f := Tio.ppsIn) h htio

theorem InputsKept.ite {s a b : State} {c : Prop} [Decidable c] (ha : InputsKept s a) (hb : InputsKept s b) :
    InputsKept s (if c then a else b) := by
  split
  · exact ha
  · exact hb

theorem InputsKept.foldl {α : Type} {f : State → α → State} (hf : ∀ s a, InputsKept s (f s a)) (l : List α) (s : State) :
    InputsKept s (l.foldl f s) := by
  induction l generalizing s with
  | nil => exact .refl s
  | cons a r ih => exact (hf s a).trans (ih _)

theorem reportPut_inputs (s : State) (o : Nat) (r : EdgeRep) : InputsKept s (reportPut s o r) := by
  unfold reportPut
  extract_lets r' src t u was v
  have hu : InputsKept s u := rfl
  have hv : InputsKept u v := rfl
  clear_value u
  exact .ite hu (.ite (hu.trans hv) ((hu.trans hv).trans (.only (emit_only ..))))

theorem missedReport_inputs (s : State) (o : Nat) (x : Int) (index : Nat) : InputsKept s (missedReport s o x index) := reportPut_inputs ..

theorem ppsStep_inputs (back : Bool) (s : State) (n : Nat) : InputsKept s (ppsStep back s n) := by
  unfold ppsStep
  split
  · exact .refl s
  · extract_lets nxt set sent u
    have hset : ∀ v, InputsKept v (set v) := fun _ => rfl
    have hu : InputsKept s u := missedReport_inputs ..
    clear_value u set
    exact .ite (hset s) (.ite (.refl s) ((hu.trans (hset u)).trans (.only (emit_only ..))))

theorem trigEnd_inputs (s : State) (p emitted : Nat) : InputsKept s (trigEnd s p emitted) := by
  unfold trigEnd
  extract_lets u
  have hu : InputsKept s u := .only (mirrorSend_only ..)
  clear_value u
  exact (hu.trans (t := u) (u := { u with tio := { u.tio with trigs := vset u.tio.trigs p none } }) rfl).trans (.only (emit_only ..))

theorem trigSettle_inputs (s : State) (p : Nat) : InputsKept s (trigSettle s p) := by
  unfold trigSettle
  split
  · exact .ite (.refl s) (trigEnd_inputs ..)
  · exact .refl s

theorem trigStep_inputs (s : State) (p : Nat) : InputsKept s (trigStep s p) := by
  unfold trigStep
  split
  · exact .refl s
  · next t _ =>
    extract_lets top
    split
    · exact .refl s
    · split
      extract_lets u src v
      have hu : InputsKept s u := .ite (missedReport_inputs ..) (.refl s)
      have hv : InputsKept u v := rfl
      clear_value u v
      exact ((hu.trans hv).trans (.only (emit_only ..))).trans (trigSettle_inputs ..)

theorem tioStep_inputs (back : Bool) (s : State) : InputsKept s (tioStep back s) := by
  unfold tioStep
  extract_lets src u v
  have hu : InputsKept s u := rfl
  have hv : InputsKept s v := hu.trans (.foldl (fun _ _ => ppsStep_inputs ..) _ _)
  clear_value v
  exact .ite hv (hv.trans (.foldl (fun _ _ => trigStep_inputs ..) _ _))

theorem applyStep_inputs (s : State) (src : Nat) (delta : Int) : InputsKept s (applyStep s src delta) := by
  unfold applyStep
  extract_lets old d u v w perf gbb lnk x y due
  have hu : InputsKept s u := .ite (.only (slewAbort_only s)) (.refl s)
  have hv : InputsKept u v := .only (perfAdd_only ..)
  have hx : InputsKept v x := rfl
  have hy : InputsKept x y := .only (emit_only ..)
  clear_value y x v u
  have hend : InputsKept s y := ((hu.trans hv).trans hx).trans hy
  exact InputsKept.trans (.ite (hend.trans (.only (leapDone_only y))) hend) (tioStep_inputs ..)

theorem commitTxn_inputs (s : State) (x : Txn) (delta : Int) (bound : Nat) : InputsKept s (commitTxn s x delta bound) := by
  unfold commitTxn
  extract_lets t accept at_ u
  split
  next ok slew _ =>
    extract_lets started told within moved settled left stamped
    have hu : InputsKept s u := .only (slewAbort_only s)
    have hstarted : InputsKept u started := .only (modRefs_only ..)
    have htold : InputsKept started told := .only (txnEvent_only ..)
    have hwithin : InputsKept told within := .only (modSlot_only ..)
    have hmoved : InputsKept within moved := .ite (.only (slewStart_only ..)) (applyStep_inputs ..)
    have hsettled : InputsKept told settled := by
      have hrefused : InputsKept told (modSlot told t fun k => { k with refused := true, withinAt := none }) :=
        .only (modSlot_only ..)
      have hexceeded : InputsKept moved (tebExceed moved at_ (excessOf delta bound)) := .only (tebExceed_only ..)
      exact .ite (hrefused.trans (.only (emit_only ..)))
        ((hwithin.trans hmoved).trans (.ite (hexceeded.trans (.only (lawFrom_only ..))) (.refl moved)))
    have hleft : InputsKept settled left := .only (holdExit_only ..)
    have hstamped : InputsKept left stamped := .only (modRefs_only ..)
    clear_value stamped left settled moved within told started u
    have hend : InputsKept s stamped := ((((hu.trans hstarted).trans htold).trans hsettled).trans hleft).trans hstamped
    refine .ite (.only (abortTxn_only ..)) ?_
    split
    · exact hend.trans (.only (complete_only ..))
    · exact .ite (hend.trans (.only (finTs_only ..))) (hend.trans (.only (fin_only ..)))
    · exact hend

theorem tryCommit_inputs (s : State) : InputsKept s (tryCommit s) := by
  unfold tryCommit
  split
  · exact .refl s
  · split
    · exact ((commitTxn_inputs ..).trans (.only (selPost_only ..))).trans (.only (selEval_only _))
    · rfl

theorem measure_inputs (s : State) (i : Fin 16) (off : Int) (latch bound : Nat) (valid : Bool) :
    InputsKept s (Machine.measure s i off latch bound valid) := by
  unfold Machine.measure
  extract_lets u k stale early m a b c d e
  have hu : InputsKept s u := .only (perfAdd_only ..)
  have hearly : InputsKept u early := .only (modSlot_only ..)
  have hm : InputsKept u a := .only (monitored_only ..)
  have hb : InputsKept a b := by
    unfold b
    split
    · exact .ite (.only (modRefs_only ..)) (.refl a)
    · exact .refl a
  have hc : InputsKept b c := .only (selEval_only b)
  have hd : InputsKept c d := by
    unfold d
    split
    · exact .ite (tryCommit_inputs c) (.refl c)
    · exact .refl c
  have he : InputsKept d e := .only (servoPhase_only ..)
  clear_value e d c b a early u
  have hjudged : InputsKept s d := (((hu.trans hm).trans hb).trans hc).trans hd
  have hfree : InputsKept e (freeI e).2 := rfl
  exact .ite hu (.ite (hu.trans (.only (modSlot_only ..))) (.ite (.ite (hu.trans hearly) ((hu.trans hearly).trans (.only (active__only ..))))
    (.ite (.ite (((hjudged.trans he).trans hfree).trans (.only (contract_only ..))) (hjudged.trans he)) hjudged)))

/-! ## A pulse judged (R196 to R199) -/

theorem in_modIn (s : State) (n : Fin 4) (f : PpsIn → PpsIn) : (modIn s n f).tio.ppsIn[n] = f s.tio.ppsIn[n] := by
  change (vmod s.tio.ppsIn n.val f)[n] = _
  rw [vmod, dif_pos n.isLt]
  exact Vector.getElem_set_self ..

/-- The input's edges and their count. -/
def TicksKept (n : Fin 4) (s t : State) : Prop :=
  t.tio.ppsIn[n].lastTick = s.tio.ppsIn[n].lastTick ∧ t.tio.ppsIn[n].pulses = s.tio.ppsIn[n].pulses

theorem TicksKept.ofInputs {n : Fin 4} {s t : State} (h : InputsKept s t) : TicksKept n s t := by
  unfold TicksKept
  rw [h]
  exact ⟨rfl, rfl⟩

theorem TicksKept.trans {n : Fin 4} {s t u : State} (h : TicksKept n s t) (k : TicksKept n t u) : TicksKept n s u :=
  ⟨k.1.trans h.1, k.2.trans h.2⟩

theorem TicksKept.modIn (n : Fin 4) (s : State) {f : PpsIn → PpsIn} (hf : ∀ p, (f p).lastTick = p.lastTick ∧ (f p).pulses = p.pulses) :
    TicksKept n s (modIn s n f) := by
  unfold TicksKept
  rw [in_modIn]
  exact hf _

theorem todUtc_ticks (s : State) (n : Fin 4) (m : TodMsg) : TicksKept n s (todUtc s n m) := by
  unfold todUtc
  extract_lets u
  have hu : TicksKept n s u := .ofInputs (.only (perfAdd_only ..))
  clear_value u
  split
  · exact hu
  · have hnoted : TicksKept n u (modIn u n fun p => { p with lastUtc := some (m.utc, m.leap) }) := .modIn n u fun _ => ⟨rfl, rfl⟩
    exact (hu.trans hnoted).trans (.ofInputs (.only (emit_only ..)))

theorem todJudge_ticks (s : State) (n : Fin 4) (p : Pulse) (msgs : List TodMsg) : TicksKept n s (todJudge s n p msgs) := by
  unfold todJudge
  split
  · exact .ofInputs (.only (todErr_only ..))
  · exact (todUtc_ticks ..).trans (.ofInputs (measure_inputs ..))
  · exact .ofInputs (.only (todErr_only ..))

/-! ## PPS edges (R196, R613) -/

/-- An edge that counts, before its pulse is judged or held. -/
def edgeCounted (s : State) (n : Fin 4) : State :=
  perfAdd (modIn s n fun p => { p with lastTick := some s.now, pulses := p.pulses + 1 }) (660 + n.val) 1

theorem edgeCounted_in (s : State) (n : Fin 4) : (edgeCounted s n).tio.ppsIn[n].lastTick = some s.now ∧
    (edgeCounted s n).tio.ppsIn[n].pulses = s.tio.ppsIn[n].pulses + 1 := by
  have hkept : InputsKept (modIn s n fun p => { p with lastTick := some s.now, pulses := p.pulses + 1 }) (edgeCounted s n) :=
    .only (perfAdd_only ..)
  rw [hkept, in_modIn]
  exact ⟨rfl, rfl⟩

/-- The pulse of an edge that counts: judged with the messages before it, or held for those after it. -/
def pulseTaken (s : State) (n : Fin 4) (new : Pulse) : State :=
  if todRef s n then
    modIn (if s.tio.ppsIn[n].begun then todJudge s n new s.tio.ppsIn[n].early else s) n fun p =>
      { p with begun := true, early := [], pulse := none }
  else
    modIn (match s.tio.ppsIn[n].pulse with | some q => todJudge s n q q.msgs | none => s) n fun p =>
      { p with begun := true, early := [], pulse := some new }

theorem pulseTaken_in (s : State) (n : Fin 4) (new : Pulse) : TicksKept n s (pulseTaken s n new) ∧
    (pulseTaken s n new).tio.ppsIn[n].begun = true := by
  unfold pulseTaken
  split
  · refine ⟨TicksKept.trans ?_ (.modIn n _ fun _ => ⟨rfl, rfl⟩), congrArg PpsIn.begun (in_modIn ..)⟩
    split
    · exact todJudge_ticks ..
    · exact ⟨rfl, rfl⟩
  · refine ⟨TicksKept.trans ?_ (.modIn n _ fun _ => ⟨rfl, rfl⟩), congrArg PpsIn.begun (in_modIn ..)⟩
    split
    · exact todJudge_ticks ..
    · exact ⟨rfl, rfl⟩

theorem edgeCounted_before (s : State) (n : Fin 4) : (edgeCounted s n).tio.ppsIn[n].begun = s.tio.ppsIn[n].begun ∧
    (edgeCounted s n).tio.ppsIn[n].early = s.tio.ppsIn[n].early ∧ (edgeCounted s n).tio.ppsIn[n].pulse = s.tio.ppsIn[n].pulse := by
  have hkept : InputsKept (modIn s n fun p => { p with lastTick := some s.now, pulses := p.pulses + 1 }) (edgeCounted s n) :=
    .only (perfAdd_only ..)
  rw [hkept, in_modIn]
  exact ⟨rfl, rfl, rfl⟩

theorem exec_ppsInEdge_early {s : State} {n : Fin 4} {rising : Bool} (ph : Fin 16) (hon : tioOn s = true)
    (hactive : (ind s .tio 4 (4 * n.val)).testBit 0 ≠ rising) {l : Nat} (hlast : s.tio.ppsIn[n].lastTick = some l)
    (hearly : s.now < l + ticksMs 500) :
    exec (.ppsInEdge n rising ph) s = .next (modIn s n fun p => { p with ignored := p.ignored + 1 }) := by
  change execPpsInEdge n rising ph s = _
  unfold execPpsInEdge
  dsimp only
  rw [hon, decide_eq_false hactive, if_neg (by decide), hlast]
  dsimp only
  rw [if_pos (decide_eq_true hearly)]

theorem exec_ppsInEdge {s : State} {n : Fin 4} {rising : Bool} (ph : Fin 16) (hon : tioOn s = true)
    (hactive : (ind s .tio 4 (4 * n.val)).testBit 0 ≠ rising)
    (hlate : (s.tio.ppsIn[n].lastTick.all fun l => decide (l + ticksMs 500 ≤ s.now)) = true) : exec (.ppsInEdge n rising ph) s =
      .next (if !rb (edgeCounted s n) Rg.tioCtrl 2 then edgeCounted s n else pulseTaken (edgeCounted s n) n
        { stamp := (stampSub s (29 + n.val) 0 ph % (subMod : Int)).toNat, tick := s.now, msgs := [] }) := by
  obtain ⟨hbegun, hearly, hpulse⟩ := edgeCounted_before s n
  change execPpsInEdge n rising ph s = _
  unfold execPpsInEdge pulseTaken
  rw [hbegun, hearly, hpulse]
  dsimp only
  rw [hon, decide_eq_false hactive, if_neg (by decide)]
  unfold edgeCounted
  refine congrArg Host.Outcome.next (if_neg ?_)
  cases hlast : s.tio.ppsIn[n].lastTick with
  | none => exact Bool.false_ne_true
  | some l =>
    rw [hlast, Option.all_some, decide_eq_true_eq] at hlate
    rw [decide_eq_true_eq]
    exact Nat.not_lt.mpr hlate

/-! ## Time-of-day messages (R195 to R199) -/

theorem todErr_bit (s : State) (n : Fin 4) (cause : Nat) : (blkStat (todErr s n cause) .tio).bits.getLsbD 3 = true :=
  (emit_advanced s .tio _ _ _ _ (by decide)).bit 3 rfl (by decide)

section
variable {s : State} {n : Fin 4} (hon : tioOn s = true) (hctrl : rb s Rg.tioCtrl 2 = true)
include hon hctrl

theorem exec_todMessage_other : exec (.todMessage n .other) s =
    .next (todErr (modIn s n fun p => { p with unsupported := p.unsupported + 1 }) n 5) := by
  change execTodMessage n .other s = _
  unfold execTodMessage
  rw [hon, hctrl]
  rfl

theorem exec_todMessage_bad : exec (.todMessage n .bad) s = .next (todErr s n 1) := by
  change execTodMessage n .bad s = _
  unfold execTodMessage
  rw [hon, hctrl]
  rfl

theorem exec_todMessage_announce (cls acc var : Nat) : exec (.todMessage n (.announce cls acc var)) s =
    .next (advertise (perfAdd s 664 1) (Fin.ofNat 16 (6 + n.val)) (ptpRank cls acc var)) := by
  change execTodMessage n (.announce cls acc var) s = _
  unfold execTodMessage
  rw [hon, hctrl]
  rfl

variable {sec : Nat} {utc : BitVec 16} {leap : BitVec 2} (hbegun : s.tio.ppsIn[n].begun = true)
include hbegun

theorem exec_todMessage_early (href : todRef s n = true) : exec (.todMessage n (.event sec utc leap)) s =
    .next (modIn s n fun p => { p with early := p.early ++ [{ sec := sec, utc := utc, leap := leap }] }) := by
  change execTodMessage n (.event sec utc leap) s = _
  unfold execTodMessage
  dsimp only
  rw [hon, hctrl, hbegun, href]
  rfl

theorem exec_todMessage_joins (href : todRef s n = false) {q : Pulse} (hpulse : s.tio.ppsIn[n].pulse = some q)
    (hwithin : s.now ≤ q.tick + todWin s n) : exec (.todMessage n (.event sec utc leap)) s =
      .next (modIn s n fun k => { k with pulse := some { q with msgs := q.msgs ++ [{ sec := sec, utc := utc, leap := leap }] } }) := by
  change execTodMessage n (.event sec utc leap) s = _
  unfold execTodMessage
  dsimp only
  rw [hon, hctrl, hbegun, href, hpulse]
  exact congrArg Host.Outcome.next (if_pos hwithin)

theorem exec_todMessage_late (href : todRef s n = false) (hpulse : s.tio.ppsIn[n].pulse = none) :
    exec (.todMessage n (.event sec utc leap)) s = .next (todErr s n 3) := by
  change execTodMessage n (.event sec utc leap) s = _
  unfold execTodMessage
  dsimp only
  rw [hon, hctrl, hbegun, href, hpulse]
  rfl

end

theorem exec_todWinExpiry {s : State} {n : Fin 4} {q : Pulse} (hpulse : s.tio.ppsIn[n].pulse = some q) (hctrl : rb s Rg.tioCtrl 2 = true)
    (hdue : q.tick + todWin s n ≤ s.now) (hfree : q.tick + todWin s n < s.now ∨ todWaits s n = false) :
    exec (.todWinExpiry n) s = .next (modIn (todJudge s n q q.msgs) n fun k => { k with pulse := none }) := by
  have hwaits : (decide (s.now = q.tick + todWin s n) && todWaits s n) = false := by
    rcases hfree with hlate | hnone
    · rw [decide_eq_false (Nat.ne_of_gt hlate)]
      rfl
    · rw [hnone, Bool.and_false]
  change execTodWinExpiry n s = _
  unfold execTodWinExpiry
  rw [hpulse]
  dsimp only
  rw [hctrl, decide_eq_true hdue, hwaits]
  rfl

/-- Settles O41: captures and messages are their arms; what the judgement of a pulse reaches leaves the input's edges. -/
theorem inputEdgesStamped : Obligations.InputEdgesStamped := by
  refine ⟨fun s p ph rising hon hctrl hmode hsel => ⟨fun l => exec_captureEdge_dead hon hctrl hmode hsel, fun hlive => ?_⟩,
    fun s n rising ph hon hactive => ⟨fun l hlast hearly => ?_, fun hlate => ?_⟩, fun s n hon hctrl => ⟨?_, exec_todMessage_bad hon hctrl,
      exec_todMessage_announce hon hctrl, fun sec utc leap q hbegun => ⟨exec_todMessage_early hon hctrl hbegun, fun href hpulse => ?_,
        exec_todMessage_late hon hctrl hbegun⟩⟩, fun s n q hpulse hctrl hdue hfree => ⟨exec_todWinExpiry hpulse hctrl hdue hfree, fun hnone => ?_⟩⟩
  · have htio := edgeNoted_tio s p ph
    have hlast : (edgeNoted s p ph).tio.capLast[p] = some (16 * s.now + ph.val) := by
      rw [htio]
      exact capLast_vset ..
    refine ⟨fun hroom => ?_, fun hfull => ?_⟩
    · obtain ⟨t, hexec, honly⟩ := exec_captureEdge_room hon hctrl hmode hsel hlive hroom
      refine ⟨t, captureRec s (edgeNoted s p ph) p ph rising, hexec, ?_, rfl, rfl, ?_, rfl, ?_, ?_, ?_, ?_⟩
      · refine (tioField_of_only (f := Tio.capQ) honly).trans ?_
        change (edgeNoted s p ph).tio.capQ ++ _ = _
        rw [htio]
      · change (edgeNoted s p ph).tio.cseq = _
        rw [htio]
      · change (edgeNoted s p ph).tio.capLostMark = _
        rw [htio]
      · refine (tioField_of_only (f := Tio.cseq) honly).trans ?_
        change (edgeNoted s p ph).tio.cseq + 1 = _
        rw [htio]
      · exact (tioField_of_only (f := fun k => k.capLast[p]) honly).trans hlast
      · exact (honly.same .tco (by decide)).trans (edgeNoted_tco s p ph)
    · obtain ⟨t, hexec, honly⟩ := exec_captureEdge_full hon hctrl hmode hsel hlive hfull
      refine ⟨t, hexec, ?_, ?_, ?_, ?_, ?_⟩
      · refine (tioField_of_only (f := Tio.capQ) honly).trans ?_
        change (edgeNoted s p ph).tio.capQ = _
        rw [htio]
      · refine (tioField_of_only (f := Tio.capLost) honly).trans ?_
        change (edgeNoted s p ph).tio.capLost + 1 = _
        rw [htio]
      · exact (tioField_of_only (f := Tio.capLostMark) honly).trans rfl
      · exact (tioField_of_only (f := fun k => k.capLast[p]) honly).trans hlast
      · exact (honly.same .tco (by decide)).trans (edgeNoted_tco s p ph)
  · refine ⟨_, exec_ppsInEdge_early ph hon hactive hlast hearly, ?_, ?_, rfl⟩
    · rw [in_modIn]
    · rw [in_modIn]
  · have hexec := exec_ppsInEdge ph hon hactive hlate
    obtain ⟨htick, hpulses⟩ := edgeCounted_in s n
    have honly : Only [.tio, .cnt] s (edgeCounted s n) := ((modIn_only ..).mono (by decide)).step (perfAdd_only ..) (by decide)
    rw [rb_of_words (honly.same .words (by decide))] at hexec
    cases hctrl : rb s Rg.tioCtrl 2 with
    | false =>
      rw [hctrl] at hexec
      exact ⟨_, hexec, htick, hpulses, fun _ => ⟨honly.same .refs (by decide), honly.same .tco (by decide)⟩, nofun⟩
    | true =>
      rw [hctrl] at hexec
      obtain ⟨⟨htick', hpulses'⟩, hbegun⟩ := pulseTaken_in (edgeCounted s n) n
        { stamp := (stampSub s (29 + n.val) 0 ph % (subMod : Int)).toNat, tick := s.now, msgs := [] }
      exact ⟨_, hexec, htick'.trans htick, hpulses'.trans hpulses, nofun, fun _ => hbegun⟩
  · refine ⟨_, exec_todMessage_other hon hctrl, ?_, todErr_bit .., ((todErr_only ..).same .refs (by decide)).trans rfl⟩
    have hkept : InputsKept (modIn s n fun p => { p with unsupported := p.unsupported + 1 })
      (todErr (modIn s n fun p => { p with unsupported := p.unsupported + 1 }) n 5) := .only (todErr_only ..)
    rw [hkept, in_modIn]
  · exact exec_todMessage_joins hon hctrl hbegun href hpulse
  · refine ⟨_, exec_todWinExpiry hpulse hctrl hdue hfree, by rw [in_modIn], ?_, ?_⟩
    · rw [hnone]
      exact todErr_bit s n 2
    · rw [hnone]
      exact (todErr_only s n 2).same .refs (by decide)

end Sys2Proof.Proofs.InputEdges
end

section
/-! Frames that a port receives, and those that go to the host (08_service_ports.md R17, R294, R295; 12_host_rings.md R449). -/
-- One proof after another: the whole text is compiled in one process whose memory is bounded.
set_option Elab.async false
namespace Sys2Proof.Proofs.ReceivedFrames
open Sys2Proof
open Sys2Proof.Machine
open Sys2Proof.Safety
open Sys2Proof.Laws
open Sys2Proof.Proofs.Notices
open Sys2Proof.Proofs.Rings
open Sys2Proof.Proofs.CommandRings
open Sys2Proof.Proofs.LinkRecords
open Sys2Proof.Proofs.WordReads

/-! ## A port after a change -/

theorem ethPort_modPort (s : State) (p : Fin 9) (f : EthPort → EthPort) : ethPort (modPort s p f) p = f (ethPort s p) := by
  change (vmod s.eth.ports p.val f)[p] = _
  rw [vmod, dif_pos p.isLt]
  exact Vector.getElem_set_self ..

theorem ethPort_of_only {L : List Part} {s t : State} (h : Only L s t) (p : Fin 9) (heth : Part.eth ∉ L := by decide) :
    ethPort t p = ethPort s p := congrArg (fun e : Eth => e.ports[p]) (h.same .eth heth)

theorem ethCfg_of_words {s t : State} (h : t.words = s.words) (p : Fin 9) (w : Nat) : ethCfg t p w = ethCfg s p w := ind_of_words h ..

theorem rxFault_of_words {s t : State} (h : t.words = s.words) (p : Fin 9) (f : EthFrame) : rxFault t p f = rxFault s p f := by
  unfold rxFault
  rw [ethCfg_of_words h]

/-! ## Reception (R294, R295) -/

/-- A frame counted with its FEC codewords. -/
def frameCounted (s : State) (p : Fin 9) (ok bad : Nat) : State :=
  perfAdd (ethCnt (ethCnt s p 9 ok) p 10 bad) (112 + 16 * p.val) 1

theorem frameCounted_only (s : State) (p : Fin 9) (ok bad : Nat) : Only [.eth, .cnt] s (frameCounted s p ok bad) :=
  (((ethCnt_only ..).mono (by decide)).step (ethCnt_only ..) (by decide)).step (perfAdd_only ..) (by decide)

theorem frameCounted_eq (s : State) (p : Fin 9) (ok bad : Nat) : ∃ e q, frameCounted s p ok bad = { s with eth := e, perf := q } := by
  obtain ⟨q, hq⟩ := perfAdd_eq (ethCnt (ethCnt s p 9 ok) p 10 bad) (112 + 16 * p.val) 1
  exact ⟨_, q, hq⟩

theorem frameCounted_rxBad (s : State) (p : Fin 9) (ok bad : Nat) : (ethPort (frameCounted s p ok bad) p).rxBad = (ethPort s p).rxBad := by
  unfold frameCounted
  rw [ethPort_of_only (perfAdd_only ..), ethCnt, ethPort_modPort, ethCnt, ethPort_modPort]

theorem exec_frameReceive {s : State} {p : Fin 9} {f : EthFrame} (hruns : portRuns s p = true) (hup : (ethPort s p).up = true)
    (hlen : f.len ≠ 0) (ph : Fin 16) (tk : Bool) (ok bad : Nat) (ds : List (BitVec 256)) : exec (.frameReceive p ph tk ok bad ds f) s =
      .next (if (ethPort (frameCounted s p ok bad) p).rxBad then
          ethCnt (modPort (frameCounted s p ok bad) p fun k => { k with rxBad := false }) p 20 1
        else match rxFault (frameCounted s p ok bad) p f with
        | some c => perfAdd (ethCnt (frameCounted s p ok bad) p c 1) (112 + 16 * p.val + 6) 1
        | none => rxFrame (frameCounted s p ok bad) p ph tk f ds) := by
  change execFrameReceive p ph tk ok bad ds f s = _
  unfold execFrameReceive
  rw [hruns, hup, decide_eq_false hlen]
  rfl

/-! ## A frame to the host (R449, R450) -/

theorem portMac_of_words {s t : State} (h : t.words = s.words) (p : Fin 9) : portMac t p = portMac s p := by
  unfold portMac
  rw [ethCfg_of_words h, ethCfg_of_words h]

theorem filterMatch_congr {s t : State} (hmem : t.mem = s.mem) (hwords : t.words = s.words) {p : Fin 9} {f : EthFrame} :
    filterMatch t p f = filterMatch s p f := by
  funext i
  unfold filterMatch filterWord
  simp only [hmem, ind_of_words hwords]

/-- R297, R450: a frame to the port's own address that no filter takes goes to ring 14. -/
theorem rxClass4_host {s : State} {p : Fin 9} {f : EthFrame} (htags : f.tags = []) (hdst : f.dst = portMac s p)
    (hfilter : (List.range 32).find? (filterMatch s p f) = none) (ph : Fin 16) (ds : List (BitVec 256)) :
    rxClass4 s p ph f ds = rxToHost s 1 p ph f 0 0xFF ds := by
  have hgood : tagsBad f = false := by
    unfold tagsBad tagsRest
    rw [htags]
  unfold rxClass4
  rw [hfilter]
  exact if_pos (by rw [hgood, decide_eq_true hdst]; rfl)

theorem rxFrame_host {s : State} {p : Fin 9} {f : EthFrame} {et : BitVec 16} {ip : Option IpHdr} (hbody : f.body = .other et ip)
    (htags : f.tags = []) (hdst : f.dst = portMac s p) (hctl : f.dst ≠ 0x0180C2000001)
    (hfilter : (List.range 32).find? (filterMatch s p f) = none) (ph : Fin 16) (tk : Bool) (ds : List (BitVec 256)) :
    rxFrame s p ph tk f ds = rxToHost (rxAccepted s p f) 1 p ph f 0 0xFF ds := by
  have hwords : (rxAccepted s p f).words = s.words := (rxAccepted_only ..).same .words (by decide)
  have hhost := rxClass4_host (s := rxAccepted s p f) htags (hdst.trans (portMac_of_words hwords p).symm)
    (by rw [filterMatch_congr ((rxAccepted_only ..).same .mem (by decide)) hwords]; exact hfilter) ph ds
  have hrest : (tagsRest f).isEmpty = true := by
    unfold tagsRest
    rw [htags]
    rfl
  unfold rxFrame
  dsimp only
  rw [if_neg (by rw [decide_eq_false hctl]; exact Bool.false_ne_true)]
  unfold rxClassify
  dsimp only
  rw [hhost]
  split
  · rw [hrest, if_neg (by decide), hbody]
    cases svcEntry (rxAccepted s p f) p.val f <;> rfl
  · rfl

/-- The frame's counters leave the path to host memory as it was. -/
theorem frameReady_accepted {s : State} (hpcie : s.glb.pcie = true) (hruns : ringRuns s 14 = true) (hposted : ringPosted s 14 ≠ 0)
    (p : Fin 9) (ok bad : Nat) (f : EthFrame) : (rxAccepted (frameCounted s p ok bad) p f).glb.pcie = true ∧
    ringRuns (rxAccepted (frameCounted s p ok bad) p f) 14 = true ∧ ringPosted (rxAccepted (frameCounted s p ok bad) p f) 14 ≠ 0 := by
  obtain ⟨e, q, hcounted⟩ := frameCounted_eq s p ok bad
  rw [hcounted]
  have haccepted : ∃ e', rxAccepted { s with eth := e, perf := q } p f = { s with eth := e', perf := q } := by
    unfold rxAccepted
    dsimp only
    split <;> exact ⟨_, rfl⟩
  obtain ⟨e', he'⟩ := haccepted
  rw [he']
  exact ⟨hpcie, hruns, hposted⟩


theorem rxFill_one {d : BitVec 256} {b : List Byte} (hd : rxMalformed d = false) (hne : b ≠ []) (hfits : b.length ≤ fld d.toNat 79 64) :
    rxFill [d] 0 b = some [(0, d, b)] := by
  have hempty : b.isEmpty = false := by
    rw [Bool.eq_false_iff, ne_eq, List.isEmpty_iff]
    exact hne
  unfold rxFill
  dsimp only
  rw [hempty, hd, List.drop_eq_nil_of_le hfits, List.take_of_length_le hfits]
  rfl

theorem rxPut_pcie {s : State} (hpcie : s.glb.pcie = true) (r base i : Nat) (d : BitVec 256) (b : List Byte)
    (last port flags reason filter ts frac tci rseq : Nat) :
    .dma (fld d.toNat 63 0) b ∈ (rxPut s r base (i, d, b) last port flags reason filter ts frac tci rseq).out := by
  have hwritten : .dma (fld d.toNat 63 0) b ∈ (hostDma s (fld d.toNat 63 0) b).out := by
    rw [(hostDma_pcie hpcie _ b).1]
    exact List.mem_cons_self ..
  exact (hostDma_sends ..).out _ hwritten

/-- R449: a frame that one buffer holds is written there, and the ring moves by one descriptor. -/
theorem rxToHost_one {s : State} {f : EthFrame} {d : BitVec 256} (hpcie : s.glb.pcie = true) (hruns : ringRuns s 14 = true)
    (hposted : ringPosted s 14 ≠ 0) (hd : rxMalformed d = false) (hne : f.raw ≠ []) (hfits : f.raw.length ≤ fld d.toNat 79 64)
    (p : Fin 9) (ph : Fin 16) (reason filter : Nat) :
    (ring (rxToHost s 1 p ph f reason filter [d]) 14).eng = (ring s 14).eng + 1 ∧
    .dma (fld d.toNat 63 0) f.raw ∈ (rxToHost s 1 p ph f reason filter [d]).out ∧
    (rxToHost s 1 p ph f reason filter [d]).hif.rxSeq = vmod s.hif.rxSeq 1 (· + 1) := by
  unfold rxToHost
  extract_lets r ds lead unroomed stamp ip flags tci seq
  have hds : ds = [d] := (if_pos hruns).trans (List.take_of_length_le (Nat.one_le_iff_ne_zero.mpr hposted))
  split
  · next hnone =>
    rw [hds, rxFill_one hd hne hfits] at hnone
    contradiction
  · next l hl =>
    rw [hds, rxFill_one hd hne hfits] at hl
    obtain rfl : [(0, d, f.raw)] = l := Option.some.inj hl
    extract_lets used base skipped placed was numbered counted
    have hskipped : skipped = ringReads s 14 1 := by
      unfold skipped
      rw [hds]
      exact if_neg (by rw [hd]; decide)
    have hreads : Only [.out, .links, .lnk, .cnt] s (ringReads s 14 1) := ringReads_only ..
    rw [← hskipped] at hreads
    clear_value skipped
    have hput : placed = rxPut skipped r base (0, d, f.raw) (used - 1) p.val flags reason filter (ts32Of stamp).toNat (fracOf stamp) tci
      seq.toNat := rfl
    have hplaced : Only [.out, .links, .cnt] skipped placed := by
      rw [hput]
      exact rxPut_only ..
    have hdma : .dma (fld d.toNat 63 0) f.raw ∈ placed.out := by
      rw [hput]
      exact rxPut_pcie ((congrArg Glb.pcie (hreads.same .glb (by decide))).trans hpcie) ..
    clear_value placed
    have hcounted : Only [.eth, .cnt] numbered counted := ((ethCnt_only ..).mono (by decide)).step (perfAdd_only ..) (by decide)
    have hring : ring counted 14 = ring s 14 :=
      (ring_of_only hcounted 14).trans ((ring_of_only hplaced 14).trans (ring_of_only hreads 14))
    have hout : counted.out = placed.out := hcounted.same .out (by decide)
    have hseq : counted.hif.rxSeq = vmod s.hif.rxSeq 1 (· + 1) := by
      rw [hif_of_only hcounted]
      change vmod placed.hif.rxSeq 1 (· + 1) = _
      rw [hif_of_only hplaced, hif_of_only hreads]
    clear_value counted
    refine ⟨?_, ?_, ?_⟩
    · change (ring (ringNotify (ringAdvance counted 14 1) 14 1) 14).eng = _
      rw [(ring_ringNotify ..).1, ring_ringAdvance_same _ (by decide), hring]
      rfl
    · refine (ringNotifyAt_sends ..).out _ ?_
      rw [(ringAdvance_only ..).same .out (by decide), hout]
      exact hdma
    · have hadvanced : Only [.out, .links, .rings, .cnt] counted (ringNotify (ringAdvance counted 14 1) 14 1) :=
        ((ringAdvance_only ..).mono (by decide)).step (ringNotify_only ..) (by decide)
      exact ((congrArg Hif.rxSeq (hadvanced.same .hif (by decide))).trans rfl).trans hseq

end Sys2Proof.Proofs.ReceivedFrames
end

section
/-! What a port's queues leave of it as they empty (08_service_ports.md R299, R303, R304, R315). -/
-- One proof after another: the whole text is compiled in one process whose memory is bounded.
set_option Elab.async false
namespace Sys2Proof.Proofs.PortQueues
open Sys2Proof
open Sys2Proof.Machine
open Sys2Proof.Safety
open Sys2Proof.Laws
open Sys2Proof.Proofs.ReceivedFrames

/-- The port's link, and the pause of its queue T, stand. -/
def PortKept (p : Fin 9) (s t : State) : Prop :=
  (ethPort t p).up = (ethPort s p).up ∧ (ethPort t p).pauseAllT = (ethPort s p).pauseAllT

section
variable {p : Fin 9} {s t u : State}

theorem PortKept.refl (p : Fin 9) (s : State) : PortKept p s s := ⟨rfl, rfl⟩

theorem PortKept.trans (h : PortKept p s t) (k : PortKept p t u) : PortKept p s u := ⟨k.1.trans h.1, k.2.trans h.2⟩

theorem PortKept.only {L : List Part} (h : Only L s t) (heth : Part.eth ∉ L := by decide) : PortKept p s t := by
  unfold PortKept
  rw [ethPort_of_only h p heth]
  exact ⟨rfl, rfl⟩

theorem PortKept.modPort (s : State) {f : EthPort → EthPort} (hf : ∀ k, (f k).up = k.up ∧ (f k).pauseAllT = k.pauseAllT) :
    PortKept p s (modPort s p f) := by
  unfold PortKept
  rw [ethPort_modPort]
  exact hf _

theorem PortKept.ite {a b : State} {c : Prop} [Decidable c] (ha : PortKept p s a) (hb : PortKept p s b) :
    PortKept p s (if c then a else b) := by
  split
  · exact ha
  · exact hb

end

theorem ethCnt_portKept (s : State) (p : Fin 9) (i n : Nat) : PortKept p s (ethCnt s p i n) := .modPort s fun _ => ⟨rfl, rfl⟩

/-! ## ETH's status bits as frames leave -/

/-- No status bit of ETH goes. -/
def BitsKept (s t : State) : Prop := ∀ i, (blkStat s .eth).bits.getLsbD i = true → (blkStat t .eth).bits.getLsbD i = true

theorem BitsKept.refl (s : State) : BitsKept s s := fun _ => id

theorem BitsKept.trans {s t u : State} (h : BitsKept s t) (k : BitsKept t u) : BitsKept s u := fun i => k i ∘ h i

theorem BitsKept.only {L : List Part} {s t : State} (h : Only L s t) (hlog : Part.log ∉ L := by decide) : BitsKept s t :=
  (StatKept.only h hlog).bits

/-- Frames leave a port: its link, the pause of its queue T and ETH's status bits stand. -/
structure Leaves (p : Fin 9) (s t : State) : Prop where
  port : PortKept p s t
  bits : BitsKept s t

section
variable {p : Fin 9} {s t u : State}

theorem Leaves.refl (p : Fin 9) (s : State) : Leaves p s s := ⟨.refl p s, .refl s⟩

theorem Leaves.trans (h : Leaves p s t) (k : Leaves p t u) : Leaves p s u := ⟨h.port.trans k.port, h.bits.trans k.bits⟩

theorem Leaves.only {L : List Part} (h : Only L s t) (heth : Part.eth ∉ L := by decide) (hlog : Part.log ∉ L := by decide) :
    Leaves p s t := ⟨.only h heth, .only h hlog⟩

theorem Leaves.modPort (s : State) {f : EthPort → EthPort} (hf : ∀ k, (f k).up = k.up ∧ (f k).pauseAllT = k.pauseAllT) :
    Leaves p s (modPort s p f) := ⟨.modPort s hf, .only (modPort_only ..)⟩

theorem Leaves.ite {a b : State} {c : Prop} [Decidable c] (ha : Leaves p s a) (hb : Leaves p s b) : Leaves p s (if c then a else b) := by
  split
  · exact ha
  · exact hb

end

theorem ethCnt_leaves (s : State) (p : Fin 9) (i n : Nat) : Leaves p s (ethCnt s p i n) := .modPort s fun _ => ⟨rfl, rfl⟩

theorem emit_eth_leaves (s : State) (p : Fin 9) (code : Nat) (base : Cls) (detail : Nat) (bit : Option Nat) :
    Leaves p s (emit s .eth code base detail bit) :=
  ⟨.only (emit_only ..), (emit_advanced s .eth code base detail bit (by decide)).bits⟩

theorem txStamp_leaves (s : State) (p : Fin 9) (id : BitVec 16) (ts : BitVec 128) : Leaves p s (txStamp s p id ts) := by
  have hput : Leaves p s (modPort s p fun k => { k with stamps := k.stamps ++ [{ id := id, ts := ts }] }) := .modPort s fun _ => ⟨rfl, rfl⟩
  unfold txStamp
  exact .ite (.refl p s) (.ite (hput.trans (ethCnt_leaves ..)) ((ethCnt_leaves ..).trans (emit_eth_leaves ..)))

theorem egress_leaves (s : State) (p : Fin 9) (t : Bool) (x : TxFrame) : Leaves p s (egress s p t x) := by
  unfold egress
  split
  next n u hfree =>
    have hu : Leaves p s u := .only (freeN_only_eq hfree)
    extract_lets ph st c teb count reply sent
    have hcount : ∀ (v : State) (len : Nat), Leaves p v (count v len) := fun v len =>
      ((((ethCnt_leaves v p 28 len).trans (ethCnt_leaves ..)).trans (ethCnt_leaves ..)).trans (.only (perfAdd_only ..))).trans
        (.only (perfAdd_only ..))
    clear_value count
    split
    · exact (hu.trans (hcount ..)).trans (.only (outFrame_only ..))
    · have hsent : Leaves p s sent := (hu.trans (hcount ..)).trans (.only (outFrame_only ..))
      clear_value sent
      split
      · extract_lets stamped
        have hstamped : Leaves p sent stamped := by
          unfold stamped
          split
          · exact txStamp_leaves ..
          · exact .refl p sent
        exact (hsent.trans hstamped).trans (.only (hostTxDone_only ..))
      · exact hsent
    · split
      · exact hu
      · split
        · exact hu.trans (.only (ptpCount_only ..))
        · extract_lets f v w
          have hv : Leaves p s v := (hu.trans (hcount ..)).trans (.only (outFrame_only ..))
          have hw : Leaves p v w := by
            unfold w
            split
            · exact .only (ptpCount_only ..)
            · exact .refl p v
          exact (hv.trans hw).trans (.only (afterEgress_only ..))

theorem pumpN_leaves (n : Nat) (s : State) (p : Fin 9) : Leaves p s (pumpN n s p) := by
  induction n generalizing s with
  | zero => exact .refl p s
  | succ n ih =>
    unfold pumpN
    refine .ite (.refl p s) ?_
    split
    · next x r _ =>
      extract_lets u
      have hu : Leaves p s u := .modPort s fun _ => ⟨rfl, rfl⟩
      have hbehind : Leaves p u (behindM u p) := .ite (ethCnt_leaves ..) (.refl p u)
      clear_value u
      exact (hu.trans (.ite (.refl p u) (hbehind.trans (egress_leaves ..)))).trans (ih _)
    · split
      · next x r _ =>
        have htaken : Leaves p s (modPort s p fun k => { k with qM := r }) := .modPort s fun _ => ⟨rfl, rfl⟩
        have hsends : ∀ v : State, Leaves p v (sendsM v p x.frame.len) := fun v => .modPort v fun _ => ⟨rfl, rfl⟩
        exact ((htaken.trans (hsends _)).trans (egress_leaves ..)).trans (ih _)
      · exact .refl p s

theorem pump_leaves (s : State) (p : Fin 9) : Leaves p s (pump s p) :=
  (pumpN_leaves ..).trans (.modPort _ fun _ => ⟨rfl, rfl⟩)

/-! ## A link that goes down (R315) -/

theorem discardN_portKept (n : Nat) (s : State) (p : Fin 9) (t : Bool) : PortKept p s (discardN n s p t) := by
  induction n generalizing s with
  | zero => exact .refl p s
  | succ n ih =>
    unfold discardN
    split
    · exact .refl p s
    · next x r _ =>
      have htaken : PortKept p s (modPort s p fun k => if t then { k with qT := r } else { k with qM := r }) :=
        .modPort s fun _ => by cases t <;> exact ⟨rfl, rfl⟩
      exact (htaken.trans (.only (discardTx_only ..))).trans (ih _)

theorem setQl_portKept (s : State) (p : Fin 9) (ssm : BitVec 4) (ext : Option (BitVec 8)) (failed notUsed : Bool) :
    PortKept p s (setQl s p ssm ext failed notUsed) := by
  unfold setQl
  extract_lets old e bad u
  have hu : PortKept p s u := .modPort s fun _ => ⟨rfl, rfl⟩
  clear_value u
  exact (hu.trans (.ite (.refl p u) (.only (emit_only ..)))).trans (.only (qlRemap_only ..))

theorem failQl_portKept (s : State) (p : Fin 9) : PortKept p s (failQl s p) := by
  unfold failQl
  extract_lets k
  exact .ite (.refl p s) ((setQl_portKept ..).trans (ethCnt_portKept ..))

theorem portDown_up {s : State} {p : Fin 9} (hup : (ethPort s p).up = true) : (ethPort (portDown s p) p).up = false := by
  unfold portDown
  rw [hup]
  extract_lets u v w
  have hu : (ethPort u p).up = false := by
    unfold u linkChanged
    rw [ethPort_modPort]
  have hv : (ethPort v p).up = (ethPort u p).up := by
    unfold v
    rw [ethPort_modPort]
  have hw : PortKept p v w := (discardN_portKept ..).trans (discardN_portKept ..)
  clear_value w v u
  have hend : PortKept p w (emit (ethCnt (failQl w p) p 43 1) .eth 0x0002 .notice p.val (some 0)) :=
    ((failQl_portKept ..).trans (ethCnt_portKept ..)).trans (.only (emit_only ..))
  exact hend.1.trans (hw.1.trans (hv.trans hu))

end Sys2Proof.Proofs.PortQueues
end

section
/-! Pauses, host frames, quality levels, links and wake of the ports (08_service_ports.md R289, R296, R302 to R305, R309, R310, R315 to R319). -/
-- One proof after another: the whole text is compiled in one process whose memory is bounded.
set_option Elab.async false
namespace Sys2Proof.Proofs.Ports
open Sys2Proof
open Sys2Proof.Machine
open Sys2Proof.Safety
open Sys2Proof.Laws
open Sys2Proof.Proofs.Notices
open Sys2Proof.Proofs.Records
open Sys2Proof.Proofs.LinkStates
open Sys2Proof.Proofs.Rings
open Sys2Proof.Proofs.ReceivedFrames
open Sys2Proof.Proofs.PortQueues

/-! ## Pauses (R302 to R305) -/

theorem lapsed_some {s : State} {o : Option Nat} {u : Nat} (h : lapsed s o = some u) : s.now < u := by
  unfold lapsed at h
  split at h
  · next hruns =>
    subst h
    exact of_decide_eq_true hruns
  · contradiction

/-- The port's pauses that have not run out (R302). -/
def pausesLeft (s : State) (p : Fin 9) : State :=
  modPort s p fun k => { k with pause := k.pause.map (lapsed s), pauseAll := lapsed s k.pauseAll, pauseAllT := lapsed s k.pauseAllT }

theorem ethPort_pausesLeft (s : State) (p : Fin 9) : ethPort (pausesLeft s p) p =
    { ethPort s p with pause := (ethPort s p).pause.map (lapsed s), pauseAll := lapsed s (ethPort s p).pauseAll,
                       pauseAllT := lapsed s (ethPort s p).pauseAllT } := ethPort_modPort ..

/-- With both queues empty nothing leaves. -/
theorem pump_idle {s : State} {p : Fin 9} (hT : (ethPort s p).qT = []) (hM : (ethPort s p).qM = []) : pump s p = wdUpdate s p := by
  unfold pump
  rw [hT, hM]
  rfl

theorem ethPort_wdUpdate (s : State) (p : Fin 9) : (ethPort (wdUpdate s p) p).pauseAll = (ethPort s p).pauseAll ∧
    (ethPort (wdUpdate s p) p).wdHold = (ethPort s p).wdHold := by
  unfold wdUpdate
  extract_lets on
  rw [ethPort_modPort]
  exact ⟨rfl, rfl⟩

/-- The watchdog has ended the pause of queue T (R304). -/
def pauseBroken (s : State) (p : Fin 9) : State :=
  modPort s p fun k => { k with pauseAllT := none, wdAt := none, wdHold := some (s.now + ticksMs (ethCfg s p 3)),
                                pause := Vector.ofFn fun i => if classT s p i.val then none else k.pause[i] }

theorem exec_pauseWdExpiry {s : State} {p : Fin 9} {u : Nat} (hat : (ethPort s p).wdAt = some u) (hpaused : pausedT s p = true)
    (hqueue : (ethPort s p).qT ≠ []) (hdue : u + ticksUs (ethCfg s p 2) ≤ s.now) (hfree : pauseEndWaits s p = false) :
    ∃ det, exec (.pauseWdExpiry p) s = .next (pump (emit (ethCnt (pauseBroken s p) p 40 1) .eth 0x0003 .degraded det (some 1)) p) := by
  have hholds : (ethPort s p).qT.isEmpty = false := by
    rw [Bool.eq_false_iff, ne_eq, List.isEmpty_iff]
    exact hqueue
  refine ⟨p.val + prioBits s p * 256 + flag (running s (ethPort s p).pauseAllT) 16, ?_⟩
  change execPauseWdExpiry p s = _
  unfold execPauseWdExpiry
  dsimp only
  rw [hat]
  dsimp only
  rw [hpaused, hholds, decide_eq_true hdue, hfree]
  rfl

section
variable {s : State} {p : Fin 9} {share : Nat} (hruns : portRuns s p = true) (hup : (ethPort s p).up = true)
  (hmode : fcMode s p = 1 ∨ fcMode s p = 2) (hen : (ethCfg s p 0).testBit 10 = true)
include hruns hup hmode hen

theorem txPause_unguarded : (!portRuns s p || !(ethPort s p).up || decide (fcMode s p = 0) || decide (fcMode s p = 3) ||
    !(ethCfg s p 0).testBit 10) = false := by
  rw [hruns, hup, hen]
  rcases hmode with h | h <;> rw [h] <;> rfl

theorem exec_txPauseSend_on (hfull : 75 < share) (hagain : (ethPort s p).txPausing = false ∨ (ethPort s p).txPauseAt ≤ s.now) :
    exec (.txPauseSend p share) s = .next
      (sendPause (modPort s p fun k => { k with txPausing := true, txPauseAt := s.now + ticksUs 100 }) p 0xFFFF) := by
  have hdue : ((ethPort s p).txPausing && decide (s.now < (ethPort s p).txPauseAt)) = false := by
    rcases hagain with h | h
    · rw [h]
      rfl
    · rw [decide_eq_false (Nat.not_lt.mpr h), Bool.and_false]
  change execTxPauseSend p share s = _
  unfold execTxPauseSend
  dsimp only
  rw [txPause_unguarded hruns hup hmode hen, if_neg Bool.false_ne_true, if_pos hfull, hdue, if_neg Bool.false_ne_true]

theorem exec_txPauseSend_off (hempty : share < 50) (hpausing : (ethPort s p).txPausing = true) : exec (.txPauseSend p share) s =
    .next (sendPause (modPort s p fun k => { k with txPausing := false }) p 0) := by
  change execTxPauseSend p share s = _
  unfold execTxPauseSend
  dsimp only
  rw [txPause_unguarded hruns hup hmode hen, if_neg Bool.false_ne_true, if_neg (by omega), hpausing, decide_eq_true hempty]
  rfl

end

/-! ## Host frames (R296, R299, R448) -/

/-- The descriptors of a frame are taken, and the ring moves past them. -/
def txTaken (s : State) (r : Nat) (ds : List (BitVec 256)) : State :=
  ringAdvance (ds.foldl (fun v d => hostRead v (txAddr d) (txLen d)) (ringReads s r ds.length)) r ds.length

/-- The bytes of a host frame: what memory held of its fragments, and zeros for what it did not. -/
def txBytes (ds : List (BitVec 256)) (data : List Byte) : List Byte :=
  data.take ((ds.map txLen).foldl (· + ·) 0) ++ List.replicate ((ds.map txLen).foldl (· + ·) 0 - data.length) 0

section
variable {s : State} {r : Fin 2} {descs ds : List (BitVec 256)} {p : Fin 9} {data : List Byte} (hready : s.pwr.phase = .ready)
  (hring : ringRuns s (11 + r.val) = true) (hfirst : r.val = 1 → txAhead s descs = false)
  (hds : txFrameDescs (descs.take (ringPosted s (11 + r.val))) = some ds) (hne : ds ≠ []) (hfew : ds.length ≤ 8)
  (hgood : ds.any txMalformed = false) (hport : (ds.all fun d => txPort d = p.val && txLen d != 0 && decide (txLen d ≤ 9212)) = true)
  (hmtu : (txBytes ds data).length + 4 ≤ ethCfg s p 1)
include hready hring hfirst hds hne hfew hgood hport hmtu

theorem exec_hostTxFrame : exec (.hostTxFrame r descs data) s = .next (
    if !portRuns s p then hostTxDone (txTaken s (11 + r.val) ds) r ((ring s (11 + r.val)).eng + BitVec.ofNat 32 (ds.length - 1)) Status.state
    else if !(ethPort s p).up then
      hostTxDone (txTaken s (11 + r.val) ds) r ((ring s (11 + r.val)).eng + BitVec.ofNat 32 (ds.length - 1)) Status.aborted
    else if (if classT s p (framePcp s p (hostFrame (txBytes ds data))) then fullT s p (hostFrame (txBytes ds data)).len
        else fullM s p (hostFrame (txBytes ds data)).len) then s
    else txPut (if (txBytes ds data).length < 60 then ethCnt (txTaken s (11 + r.val) ds) p 35 1 else txTaken s (11 + r.val) ds) p
      (classT s p (framePcp s p (hostFrame (txBytes ds data))))
      { frame := hostFrame (txBytes ds data), bytes := (hostFrame (txBytes ds data)).len, fill := .none,
        host := some (r, (ring s (11 + r.val)).eng + BitVec.ofNat 32 (ds.length - 1),
          (ds.find? fun d => (txFlags d).testBit 1).map fun d => BitVec.ofNat 16 (txId d)), grant := none }) := by
  have hguard : (!ringRuns s (11 + r.val) || s.pwr.phase != .ready || (decide (11 + r.val = 12) && txAhead s descs)) = false := by
    have hahead : (decide (11 + r.val = 12) && txAhead s descs) = false := by
      by_cases hr : r.val = 1
      · rw [hfirst hr, Bool.and_false]
      · rw [decide_eq_false (by omega)]
        rfl
    rw [hring, hready, hahead]
    rfl
  have hall := List.all_eq_true.mp hport
  have hodd : (decide (8 < ds.length) || ds.any fun d => txPort d != p.val || decide (txLen d = 0) || decide (9212 < txLen d)) = false := by
    rw [decide_eq_false (Nat.not_lt.mpr hfew), Bool.false_or, List.any_eq_false]
    intro d hd
    have := hall d hd
    simp only [Bool.and_eq_true, decide_eq_true_eq, bne_iff_ne] at this
    obtain ⟨⟨hto, hlen⟩, hmax⟩ := this
    simp [hto, hlen, hmax]
  change execHostTxFrame r descs data s = _
  unfold execHostTxFrame
  extract_lets q
  rw [if_neg (by rw [Bool.not_eq_true]; exact hguard)]
  split
  · next hnone =>
    rw [hds] at hnone
    contradiction
  · next l hl =>
    rw [hds] at hl
    obtain rfl : ds = l := Option.some.inj hl
    extract_lets n bytes f port idx take done
    have hto : port = p.val := by
      obtain ⟨d, rest, rfl⟩ := List.exists_cons_of_ne_nil hne
      have hd := hall d (List.mem_cons_self ..)
      simp only [Bool.and_eq_true, decide_eq_true_eq] at hd
      exact hd.1.1
    clear_value port
    subst hto
    rw [if_neg (by rw [Bool.not_eq_true]; exact hgood), dif_pos p.isLt]
    exact congrArg Host.Outcome.next ((if_neg (by rw [Bool.not_eq_true]; exact hodd)).trans (if_neg (Nat.not_lt.mpr hmtu)))

end

/-! ## Quality levels, links and wake (R309, R310, R315 to R317) -/

theorem exec_esmcTimeout {s : State} {p : Fin 9} (hp : p.val < 8) (hready : s.pwr.phase = .ready)
    (hdue : (ethPort s p).esmcAt + ticksS 5 ≤ s.now) (hfree : (ethPort s p).esmcAt + ticksS 5 < s.now ∨ esmcWaits s p = false) :
    exec (.esmcTimeout p) s = .next (failQl s p) := by
  have hwaits : (decide ((ethPort s p).esmcAt + ticksS 5 = s.now) && esmcWaits s p) = false := by
    rcases hfree with hlate | hnone
    · rw [decide_eq_false (Nat.ne_of_lt hlate)]
      rfl
    · rw [hnone, Bool.and_false]
  change execEsmcTimeout p s = _
  unfold execEsmcTimeout
  dsimp only
  rw [decide_eq_true hp, hready, decide_eq_true hdue, hwaits]
  rfl

section
variable {s : State} {p : Fin 9} (hcarries : esmcPort s p = true) (hserving : serving s = true) (hen : (ethCfg s p 0).testBit 12 = true)
include hcarries hserving hen

theorem exec_esmcInfoSend (hdue : (ethPort s p).infoAt + ticksS 1 ≤ s.now) : exec (.esmcInfoSend p) s = .next (sendEsmc s p false) := by
  change execEsmcInfoSend p s = _
  unfold execEsmcInfoSend
  rw [hcarries, hserving, hen, decide_eq_true hdue]
  rfl

theorem exec_esmcEventSend (hsent : (ethPort s p).qlSent.isSome = true) (hnew : (ethPort s p).qlSent ≠ some (qlToSend s p)) :
    exec (.esmcEventSend p) s = .next (sendEsmc s p true) := by
  have hchanged : ((ethPort s p).qlSent != some (qlToSend s p)) = true := bne_iff_ne.mpr hnew
  change execEsmcEventSend p s = _
  unfold execEsmcEventSend
  rw [hcarries, hserving, hen, hsent, hchanged]
  rfl

end

/-- A port whose link has come up shows its partner and what was negotiated (R315). -/
def linkedPort (s : State) (p : Fin 9) (an : Bool) (speed : BitVec 2) : State :=
  modPort (linkChanged s p true) p fun k =>
    { k with anDone := an && (ethCfg s p 0).testBit 6, speed := if k.mode.toNat = 6 then speed else 0 }

theorem exec_portLinkUp {s : State} {p : Fin 9} (an : Bool) (speed : BitVec 2) (hruns : portRuns s p = true)
    (hdown : (ethPort s p).up = false) : ∃ det, exec (.portLinkUp p an speed) s =
      .next (emit (linkedPort s p an speed) .eth 0x0001 .notice det (some 0)) := by
  refine ⟨p.val + (ethPort (linkedPort s p an speed) p).mode.toNat * 16 + (ethPort (linkedPort s p an speed) p).fec.toNat * 256 +
    (ethPort (linkedPort s p an speed) p).speed.toNat * 1024, ?_⟩
  change execPortLinkUp p an speed s = _
  unfold execPortLinkUp
  rw [hruns, hdown]
  rfl

theorem exec_portLinkDown {s : State} {p : Fin 9} (cut : Bool) (hup : (ethPort s p).up = true) :
    exec (.portLinkDown p cut) s = .next (portDown (if cut then ethCnt s p 47 1 else s) p) := by
  change execPortLinkDown p cut s = _
  unfold execPortLinkDown
  rw [hup]
  rfl

theorem exec_wakeMatch {s : State} {w : WakeCopy} {f : EthFrame} (hwake : s.eth.wake = some w) (hstate : s.pwr.state = .simmer)
    (hhigh : s.eth.wakeN = true) (hfcs : f.fcsOk = true) (hcause : wakeCauseOf w f.raw ≠ 0) : exec (.wakeMatch f) s = .next
      (emitOut { s with eth := { s.eth with wakeN := false, wakeCause := BitVec.ofNat 32 (wakeCauseOf w f.raw + 32) } } (.wake true)) := by
  have hmatch : (wakeCauseOf w f.raw != 0) = true := bne_iff_ne.mpr hcause
  change execWakeMatch f s = _
  unfold execWakeMatch wakeHit
  rw [hwake]
  dsimp only
  rw [hstate, hhigh, hfcs, hmatch]
  rfl

/-- Settles O47: each event is its arm; what leaves a port's queues keeps its link, its pause and the status. -/
theorem portsFollow : Obligations.PortsFollow := by
  refine ⟨⟨fun s p ph tk ok bad ds f hruns hup hlen => ⟨fun c hgood hfault => ?_, fun hbad => ?_, fun u hu hgood hnone => ?_⟩,
    fun s p ph tk ok bad d f et ip hruns hup hlen hgood hnone hbody htags hdst hctl hraw hfilter hpcie hring hposted hd hfits => ?_,
    fun s p => ⟨rfl, fun hT hM => ?_⟩, fun s p u hat hpaused hqueue hdue hfree => ?_, fun s p => rfl,
    fun s p share hruns hup hmode hen => ⟨exec_txPauseSend_on hruns hup hmode hen, exec_txPauseSend_off hruns hup hmode hen⟩,
    fun s u r descs ds p data bytes hready hring hfirst hds hne hfew hwell hport hbytes hmtu hu => ?_⟩,
    fun s p => exec_esmcTimeout, fun s p hcarries hserving hen => ⟨exec_esmcInfoSend hcarries hserving hen, exec_esmcEventSend hcarries hserving hen⟩,
    fun s p an speed hruns hdown => ?_, fun s p cut hup => ?_, fun s w f => exec_wakeMatch⟩
  · have hexec := exec_frameReceive hruns hup hlen ph tk ok bad ds
    have hcounted := frameCounted_only s p ok bad
    rw [frameCounted_rxBad, hgood, if_neg Bool.false_ne_true, rxFault_of_words (hcounted.same .words (by decide)), hfault] at hexec
    have honly : Only [.eth, .cnt] s (perfAdd (ethCnt (frameCounted s p ok bad) p c 1) (112 + 16 * p.val + 6) 1) :=
      (hcounted.step (ethCnt_only ..) (by decide)).step (perfAdd_only ..) (by decide)
    exact ⟨_, hexec, honly.same .out (by decide), hif_of_only honly, honly.same .svc (by decide), honly.same .ptp (by decide),
      honly.same .tco (by decide), honly.same .words (by decide)⟩
  · have hexec := exec_frameReceive hruns hup hlen ph tk ok bad ds
    rw [frameCounted_rxBad, hbad, if_pos rfl] at hexec
    have honly : Only [.eth, .cnt] s (ethCnt (modPort (frameCounted s p ok bad) p fun k => { k with rxBad := false }) p 20 1) :=
      ((frameCounted_only s p ok bad).step (modPort_only ..) (by decide)).step (ethCnt_only ..) (by decide)
    refine ⟨_, hexec, ?_, honly.same .out (by decide), hif_of_only honly, honly.same .svc (by decide), honly.same .ptp (by decide),
      honly.same .tco (by decide), honly.same .words (by decide)⟩
    rw [ethCnt, ethPort_modPort, ethPort_modPort]
  · have hexec := exec_frameReceive hruns hup hlen ph tk ok bad ds
    change u = frameCounted s p ok bad at hu
    rw [← hu, hgood, if_neg Bool.false_ne_true, hnone] at hexec
    exact hexec
  · have hexec := exec_frameReceive hruns hup hlen ph tk ok bad [d]
    have hcounted := frameCounted_only s p ok bad
    have hwords := hcounted.same .words (by decide)
    rw [frameCounted_rxBad, hgood, if_neg Bool.false_ne_true, rxFault_of_words hwords, hnone] at hexec
    have hhost := rxFrame_host (s := frameCounted s p ok bad) hbody htags (hdst.trans (portMac_of_words hwords p).symm) hctl
      (by rw [filterMatch_congr (hcounted.same .mem (by decide)) hwords]; exact hfilter) ph tk [d]
    have hunheld := frameReady_accepted hpcie hring hposted p ok bad f
    obtain ⟨heng, hdma, hseq⟩ := rxToHost_one hunheld.1 hunheld.2.1 hunheld.2.2 hd hraw hfits p ph 0 0xFF
    have honly : Only [.out, .eth, .pan, .log, .line, .links, .lnk, .rings, .hif, .cnt, .outs] s
        (rxToHost (rxAccepted (frameCounted s p ok bad) p f) 1 p ph f 0 0xFF [d]) :=
      ((hcounted.mono (by decide)).step (rxAccepted_only ..) (by decide)).step (rxToHost_only ..) (by decide)
    have hbefore : Only [.eth, .cnt] s (rxAccepted (frameCounted s p ok bad) p f) := hcounted.step (rxAccepted_only ..) (by decide)
    refine ⟨_, hexec.trans (congrArg Host.Outcome.next hhost), ?_, hdma, ?_, honly.same .tco (by decide), honly.same .words (by decide)⟩
    · rw [heng, ring_of_only hbefore]
    · rw [hseq, hif_of_only hbefore]
  · have hidle : pump (pausesLeft s p) p = wdUpdate (pausesLeft s p) p :=
      pump_idle (by rw [ethPort_pausesLeft]; exact hT) (by rw [ethPort_pausesLeft]; exact hM)
    obtain ⟨hall, hhold⟩ := ethPort_wdUpdate (pausesLeft s p) p
    rw [ethPort_pausesLeft] at hall hhold
    refine ⟨wdUpdate (pausesLeft s p) p, congrArg Host.Outcome.next hidle, fun u hu => lapsed_some (hall.symm.trans hu), hhold, rfl⟩
  · obtain ⟨det, hexec⟩ := exec_pauseWdExpiry hat hpaused hqueue hdue hfree
    have hcnt := ethCnt_leaves (pauseBroken s p) p 40 1
    have hnone : (ethPort (pauseBroken s p) p).pauseAllT = none := by
      unfold pauseBroken
      rw [ethPort_modPort]
    have hrec := emit_eth_leaves (ethCnt (pauseBroken s p) p 40 1) p 0x0003 .degraded det (some 1)
    have hbit : (blkStat (emit (ethCnt (pauseBroken s p) p 40 1) .eth 0x0003 .degraded det (some 1)) .eth).bits.getLsbD 1 = true :=
      (emit_advanced _ .eth _ _ _ _ (by decide)).bit 1 rfl (by decide)
    have hpump := pump_leaves (emit (ethCnt (pauseBroken s p) p 40 1) .eth 0x0003 .degraded det (some 1)) p
    refine ⟨_, hexec, hpump.bits 1 hbit, (((hcnt.trans hrec).trans hpump).port.2).trans hnone, ?_⟩
    rw [(pump_only ..).same .tco (by decide), emit_tco]
    rfl
  · subst hbytes hu
    have hexec := exec_hostTxFrame hready hring hfirst hds hne hfew hwell hport hmtu
    refine ⟨fun hstopped => ?_, fun hruns hup hroom => ?_⟩
    · rw [hstopped] at hexec
      exact hexec
    · rw [hruns, hup, if_neg (by decide), if_neg (by decide), if_neg (by rw [Bool.not_eq_true]; exact hroom)] at hexec
      exact hexec
  · obtain ⟨det, hexec⟩ := exec_portLinkUp an speed hruns hdown
    refine ⟨_, hexec, ?_, (emit_advanced _ .eth _ _ _ _ (by decide)).bit 0 rfl (by decide), ?_⟩
    · rw [ethPort_of_only (emit_only ..), linkedPort, ethPort_modPort, linkChanged, ethPort_modPort]
    · rw [emit_tco]
      rfl
  · refine ⟨_, exec_portLinkDown cut hup, rfl, portDown_up ?_⟩
    split
    · rw [ethCnt, ethPort_modPort]
      exact hup
    · exact hup

end Sys2Proof.Proofs.Ports
end
